-- ==== Sys2Proof/Word.lean ====
section
/-! DEFINITION. The word types of the ODL-D4 (spec 00 R8, 03 R49): bytes, 32-bit words, 64-bit and
128-bit values, 48-bit program counters and 64-lane masks. -/

namespace Sys2Proof

abbrev Byte := BitVec 8
abbrev Half := BitVec 16
abbrev Word := BitVec 32
abbrev Dword := BitVec 64
abbrev Quad := BitVec 128
/-- A program counter: a 48-bit virtual address (R84, R104). -/
abbrev Pc := BitVec 48
/-- A set of lanes: bit i stands for LANE i (R21, SYS.TRAPMASK of R206). -/
abbrev Lanes := BitVec 64

end Sys2Proof
end

