-- ==== Sys2Proof/Syntax.lean ====
section
/-! DEFINITION. The instructions and events of the ODL-D4: one constructor of `Instr` per row of the
table of operations and events (spec 05, 07, 09, 11 and 95). -/

namespace Sys2Proof

/-- The register codes of R69. -/
inductive Reg where
  | v (n : Fin 384)
  | o (n : Fin 16)
  | l (n : Fin 4)
  | s (n : Fin 64)
  | p (n : Fin 8)
  | zero
  | lane
  | widlo
  | widhi
  deriving DecidableEq, Repr

/-- The operand types of R79. -/
inductive Ty where
  | b32 | i32 | n32 | i64 | n64 | i16 | n16 | i8 | n8 | i16x2 | n16x2
  | i8x4 | n8x4 | f32 | f16 | bf16 | f16x2 | bf16x2 | p10 | p12 | p14 | b64
  deriving DecidableEq, Repr

/-- The rounding modes of R40, in the code order of RND (R78). -/
inductive Rnd where
  | rne | rz | rp | rm
  deriving DecidableEq, Repr

/-- Instruction lengths (R59). -/
inductive Len where
  | w64 | w96 | w128
  deriving DecidableEq, Repr

/-- The fields every issued instruction shares (R63): length, U bit and guard. -/
structure Hdr where
  len : Len
  u : Bool
  gp : Fin 8
  gn : Bool
  deriving DecidableEq, Repr

/-- A source position of shape ARITH (R80): a register, one of the three immediates, or no source. -/
inductive Src where
  | none
  | reg (r : Reg)
  | imm7 (v : BitVec 7)
  | imm32 (v : Word)
  | imm64 (v : Dword)
  deriving DecidableEq, Repr

/-- The operands of shape ARITH (R78, R80). -/
structure Arith where
  ty : Ty
  rnd : Rnd
  sat : Bool
  sub : BitVec 4
  d : Reg
  a : Src
  b : Src
  c : Src
  deriving DecidableEq, Repr

/-- The operands of `cvt` and `cvpk` (R135, R137): IMM7 names the source type, SUB the element. -/
structure Cvt where
  dty : Ty
  sty : Ty
  rnd : Rnd
  elem : BitVec 4
  d : Reg
  a : Src
  b : Src
  deriving DecidableEq, Repr

/-- The target of shape BR (R84). -/
inductive Target where
  | rel20 (w : BitVec 20)
  | rel32 (w : Word)
  | abs (a : BitVec 46)
  deriving DecidableEq, Repr

/-- SIZE of R82: bits per lane. -/
inductive Size where
  | b8 | b16 | b32 | b64 | b128
  deriving DecidableEq, Repr

/-- SCOPE of R82. -/
inductive Scope where
  | none | grp | wg | cl | dev | sys
  deriving DecidableEq, Repr

/-- ORDER of R82. -/
inductive Order where
  | rlx | acq | rel | ar
  deriving DecidableEq, Repr

/-- The offset of a MEM instruction (R83). -/
inductive Off where
  | o10 (v : BitVec 10)
  | i32 (v : Word)
  | i64 (v : Dword)
  deriving DecidableEq, Repr

/-- The operands of shape MEM (R82, R83). `sx` is bit [54]: SX of a load, RET of an atomic. -/
structure MemArg where
  size : Size
  scope : Scope
  order : Order
  nf : Bool
  sx : Bool
  off : Off
  base : Reg
  d : Option Reg
  b : Option Reg
  deriving DecidableEq, Repr

/-- The operands of `cpy` and `cpy.mc` (R159). -/
structure CopyArg where
  tmpl : BitVec 8
  handle : BitVec 6
  chan : BitVec 4
  d : Option Reg
  a : Reg
  b : Option Reg
  deriving DecidableEq, Repr

/-- Where the A rows of `mxa` come from (R172). -/
inductive MxSrc where
  | spad (a : Reg)
  | regs (rowq : BitVec 2) (w16 : Bool) (vb : Fin 384)
  deriving DecidableEq, Repr

/-- The kinds of target of `sread` and `swrite` (R215). -/
inductive StKind where
  | handle | spad | global
  deriving DecidableEq, Repr

/-- The operands of `sread` and `swrite` (R215). -/
structure StorageArg where
  grant : BitVec 6
  kind : StKind
  tmpl : Option (BitVec 8)
  fua : Bool
  handle : BitVec 6
  d : Option Reg
  a : Reg
  b : Reg
  c : Reg
  deriving DecidableEq, Repr

/-- The operands of `nsend` (R217): with `b = none` the register form. -/
structure SendArg where
  ep : BitVec 6
  d : Option Reg
  a : Reg
  b : Option Reg
  deriving DecidableEq, Repr

/-- The kinds of `tlbinv` (R210). -/
inductive TlbKind where
  | page | asid | all
  deriving DecidableEq, Repr

/-- The units of a matrix engine (R243). -/
inductive MxUnit where
  | load | array | bank
  deriving DecidableEq, Repr

/-- Kinds of access a walk is made for (ACC of R306). -/
inductive Access where
  | read | write | fetch | atomic
  deriving DecidableEq, Repr

/-- The power modes of R4. -/
inductive Mode where
  | gale | trade | breeze | lull
  deriving DecidableEq, Repr

/-- The rows of the table of operations and events. The first part are the issued instructions, the
second part the events, each with what names the unit it happens at. -/
inductive Instr where
  -- control and predicates (R102 to R108)
  | nop (h : Hdr)
  | bra (h : Hdr) (t : Target)
  | brany (h : Hdr) (p : Fin 8) (t : Target)
  | brall (h : Hdr) (p : Fin 8) (t : Target)
  | call (h : Hdr) (d : Reg) (t : Target)
  | ret (h : Hdr) (a : Reg)
  | jmp (h : Hdr) (a : Reg) (off : BitVec 20)
  | exit (h : Hdr)
  | yield (h : Hdr)
  | wait (h : Hdr) (ld st cp tl : BitVec 6)
  | pset (h : Hdr) (x : Arith)
  | pand (h : Hdr) (x : Arith)
  | por (h : Hdr) (x : Arith)
  | pxor (h : Hdr) (x : Arith)
  | pnot (h : Hdr) (x : Arith)
  -- integer (R109 to R118)
  | iadd (h : Hdr) (x : Arith)
  | isub (h : Hdr) (x : Arith)
  | imul (h : Hdr) (x : Arith)
  | imulhi (h : Hdr) (x : Arith)
  | imad (h : Hdr) (x : Arith)
  | imin (h : Hdr) (x : Arith)
  | imax (h : Hdr) (x : Arith)
  | iabs (h : Hdr) (x : Arith)
  | ineg (h : Hdr) (x : Arith)
  | and (h : Hdr) (x : Arith)
  | or (h : Hdr) (x : Arith)
  | xor (h : Hdr) (x : Arith)
  | not (h : Hdr) (x : Arith)
  | andn (h : Hdr) (x : Arith)
  | shl (h : Hdr) (x : Arith)
  | shr (h : Hdr) (x : Arith)
  | sar (h : Hdr) (x : Arith)
  | rol (h : Hdr) (x : Arith)
  | ror (h : Hdr) (x : Arith)
  | popc (h : Hdr) (x : Arith)
  | clz (h : Hdr) (x : Arith)
  | brev (h : Hdr) (x : Arith)
  | bfe (h : Hdr) (x : Arith)
  | bfi (h : Hdr) (x : Arith)
  | sel (h : Hdr) (x : Arith)
  | icmp (h : Hdr) (x : Arith)
  | lea (h : Hdr) (x : Arith)
  | mov (h : Hdr) (x : Arith)
  -- packed pixels (R119 to R126)
  | pxext (h : Hdr) (x : Arith)
  | pxins (h : Hdr) (x : Arith)
  | pxavg (h : Hdr) (x : Arith)
  | pxabd (h : Hdr) (x : Arith)
  | pxsad (h : Hdr) (x : Arith)
  | pxclp (h : Hdr) (x : Arith)
  | pxnrm (h : Hdr) (x : Arith)
  | pxdot (h : Hdr) (x : Arith)
  -- floating point (R127 to R134)
  | fadd (h : Hdr) (x : Arith)
  | fsub (h : Hdr) (x : Arith)
  | fmul (h : Hdr) (x : Arith)
  | ffma (h : Hdr) (x : Arith)
  | fmin (h : Hdr) (x : Arith)
  | fmax (h : Hdr) (x : Arith)
  | fabs (h : Hdr) (x : Arith)
  | fneg (h : Hdr) (x : Arith)
  | fcmp (h : Hdr) (x : Arith)
  | fclass (h : Hdr) (x : Arith)
  | frcp (h : Hdr) (x : Arith)
  | frsq (h : Hdr) (x : Arith)
  | fex2 (h : Hdr) (x : Arith)
  | flg2 (h : Hdr) (x : Arith)
  | fsin (h : Hdr) (x : Arith)
  | fcos (h : Hdr) (x : Arith)
  -- conversion and cross-lane (R135 to R143)
  | cvt (h : Hdr) (x : Cvt)
  | cvpk (h : Hdr) (x : Cvt)
  | shfl (h : Hdr) (x : Arith)
  | vote (h : Hdr) (x : Arith)
  | ballot (h : Hdr) (x : Arith)
  | red (h : Hdr) (x : Arith)
  | scan (h : Hdr) (x : Arith)
  -- memory (R150 to R157)
  | ld (h : Hdr) (m : MemArg)
  | st (h : Hdr) (m : MemArg)
  | lds (h : Hdr) (m : MemArg)
  | sts (h : Hdr) (m : MemArg)
  | ldfeKeep (h : Hdr) (m : MemArg)
  | ldfeClear (h : Hdr) (m : MemArg)
  | stfeKeep (h : Hdr) (m : MemArg)
  | stfeClear (h : Hdr) (m : MemArg)
  | pref (h : Hdr) (m : MemArg)
  | fence (h : Hdr) (scope : Scope) (order : Order)
  | atomAdd (h : Hdr) (m : MemArg)
  | atomMin (h : Hdr) (m : MemArg)
  | atomMax (h : Hdr) (m : MemArg)
  | atomAnd (h : Hdr) (m : MemArg)
  | atomOr (h : Hdr) (m : MemArg)
  | atomXor (h : Hdr) (m : MemArg)
  | atomExch (h : Hdr) (m : MemArg)
  | atomCas (h : Hdr) (m : MemArg)
  -- copies, handles, tensor identifiers (R159 to R168)
  | cpy (h : Hdr) (x : CopyArg)
  | cpyMc (h : Hdr) (x : CopyArg)
  | hwaitFull (h : Hdr) (d : Reg) (n : BitVec 6)
  | hwaitEmpty (h : Hdr) (d : Reg) (n : BitVec 6)
  | hsetBind (h : Hdr) (n : BitVec 6) (e : BitVec 8) (a b : Reg)
  | hsetFull (h : Hdr) (n : BitVec 6)
  | hrel (h : Hdr) (n : BitVec 6)
  | tset (h : Hdr) (t : BitVec 8) (a : Reg)
  | tget (h : Hdr) (t : BitVec 8) (a : Reg)
  | tinv (h : Hdr) (t : BitVec 8)
  -- matrix (R169 to R177)
  | mxb (h : Hdr) (t : BitVec 8) (bb : Bool) (arr : Option (BitVec 4)) (a : Reg)
  | mxa (h : Hdr) (t : BitVec 8) (bb bank : Bool) (arr : Option (BitVec 4)) (src : MxSrc)
  | mxfence (h : Hdr)
  | mxwait (h : Hdr) (n : BitVec 6)
  | mxdrain (h : Hdr) (t : BitVec 8) (bank z : Bool) (a : Reg)
  | mxdrainAdd (h : Hdr) (t : BitVec 8) (bank z : Bool) (a : Reg)
  | mxzero (h : Hdr) (bank raw : Bool)
  -- synchronisation, channels, mailboxes, directory, census, work graphs (R181 to R200)
  | barG (h : Hdr)
  | barArr (h : Hdr) (lvl : BitVec 2) (id : BitVec 6) (d : Option Reg)
  | barWait (h : Hdr) (lvl : BitVec 2) (id : BitVec 6) (a : Reg)
  | barSync (h : Hdr) (lvl : BitVec 2) (id : BitVec 6)
  | sbcast (h : Hdr) (slot : BitVec 4) (rel : Bool) (a : Reg)
  | sbrecv (h : Hdr) (slot : BitVec 4) (d : Reg)
  | chsend (h : Hdr) (ch : BitVec 3) (a : Reg)
  | chrecv (h : Hdr) (ch : BitVec 3) (a : Reg)
  | mbput (h : Hdr) (tr : Bool) (a b : Reg)
  | mbget (h : Hdr) (tr : Bool) (d a : Reg)
  | dirins (h : Hdr) (pin : Bool) (d a b : Reg)
  | dirdel (h : Hdr) (a : Reg)
  | tmove (h : Hdr) (d a b : Reg)
  | solicit (h : Hdr) (comb : BitVec 3) (d : Reg) (k : Fin 64)
  | reply (h : Hdr) (a : Reg)
  | census (h : Hdr) (d a : Reg)
  | cenpoll (h : Hdr) (p : Fin 8) (a : Reg)
  | nrec (h : Hdr) (a b : Reg)
  -- system and I/O (R201 to R220)
  | sys (h : Hdr) (n : BitVec 16)
  | svqpop (h : Hdr) (d : Fin 384)
  | sysret (h : Hdr) (a b : Reg)
  | iret (h : Hdr)
  | sysrd (h : Hdr) (n : BitVec 10) (d : Reg)
  | syswr (h : Hdr) (n : BitVec 10) (a : Reg)
  | trapretWrite (h : Hdr) (a : Reg)
  | ipiWrite (h : Hdr) (a : Reg)
  | trapqPop (h : Hdr) (d : Reg)
  | wdogWrite (h : Hdr) (a : Reg)
  | smapStageWrite (h : Hdr) (a : Reg)
  | oemodeWrite (h : Hdr) (a : Reg)
  | laneCounterClear (h : Hdr) (cw : Bool) (a : Reg)
  | tlbinv (h : Hdr) (kind : TlbKind) (glob : Bool) (a b : Option Reg)
  | cwb (h : Hdr) (a : Option Reg)
  | cinv (h : Hdr) (l2 : Bool) (a : Option Reg)
  | launch (h : Hdr) (d a : Reg)
  | halt (h : Hdr)
  | tmset (h : Hdr) (rel : Bool) (a : Reg)
  | sread (h : Hdr) (x : StorageArg)
  | swrite (h : Hdr) (x : StorageArg)
  | nsend (h : Hdr) (x : SendArg)
  | nrecv (h : Hdr) (d a b : Reg)
  | brk (h : Hdr) (code : BitVec 16)
  | dbgret (h : Hdr) (ov ss : Bool)
  -- EVENTS: register results and memory (R22, R76, R100, R148, R153, R222 to R229, R238, R290, R304, R305, R314)
  | registerResultWrite (gid id : Nat)
  | fullEmptyServe (core : Nat)
  | l2SliceRequest (core slice : Nat) (busy : Bool)
  | loadDataReturn (core op : Nat) (evict : List Nat)
  | deviceWriteAck (core : Nat)
  | nackReceived (core slice : Nat)
  | replayResend (core slice : Nat)
  | nackRemapReceived (core slice : Nat)
  | phaseCloseMessage (core slice : Nat)
  | phaseCloseAnswer (core slice : Nat)
  | scratchpadIncomingWrite (core : Nat)
  | pageWalkComplete (core va : Nat) (acc : Access) (user : Bool)
  | inFlightTimeout (core op : Nat)
  -- EVENTS: copy and matrix engines (R160 to R162, R176, R243, R256, R260, R261)
  | copyComplete (cluster chan : Nat)
  | copyPageFault (cluster chan : Nat)
  | apertureCopyStart (core chan : Nat) (data : Dword)
  | apertureStatusRead (core : Nat)
  | mxeGrant (cluster : Nat) (unit : MxUnit)
  | mxeCommandComplete (cluster entry : Nat)
  | mxeAgePromotion (cluster entry : Nat)
  | mxeDrainFault (cluster entry : Nat)
  | engineBarrierArrival (cluster entry : Nat)
  | bteConfigStop (cluster : Nat) (stop : Bool)
  | bteConfigWordWrite (cluster offset : Nat) (bytes : List Byte)
  -- EVENTS: barriers, broadcast, mailboxes, directory, census, work graphs (R184 to R200, R262 to R278, R289)
  | gridBarrierArrival (lch bar gid : Nat)
  | gangBarrierMessage (lch bar : Nat) (arrival : Option Nat)
  | barrierTimeout (gid : Nat) (lanes : Lanes)
  | scalarBroadcastDelivery (src : Nat × Nat) (slot : Nat) (value : Dword) (rel : Bool)
  | mailboxStepRetry (gid : Nat) (lanes : Lanes)
  | tmoveComplete (cluster id : Nat)
  | solicitSnapshot (census : Nat)
  | responderStart (core : Nat)
  | censusReport (census : Nat) (n : Nat)
  | censusReply (census : Nat) (value : Dword) (err : Bool)
  | censusTimeout (census : Nat)
  | nodeBinTimer (lch node : Nat)
  -- EVENTS: interrupts, TLB, timer, storage, network (R206, R210, R214, R216, R217, R299)
  | ipiDelivery (core : Nat)
  | tlbInvalidateApply (kind : TlbKind) (va : Dword) (asid : Nat)
  | timerCompare (core : Nat)
  | storageComplete (id : Nat) (failed : Bool)
  | nsendComplete (id : Nat) (status : Byte)
  | interruptEntry (core : Nat)
  -- EVENTS: groups and workgroups (R30, R31, R36)
  | groupAgePromotion (gid : Nat)
  | groupReturn (gid : Nat)
  | groupRetire (gid : Nat)
  | workgroupEnd (wg : Nat)
  -- EVENTS: supervisor actions, watchdog, pre-emption, switch (R5, R293, R298, R306 to R310)
  | tgactResume (core : Nat)
  | tgactKill (core : Nat)
  | tgactKillWg (core : Nat)
  | fltrelRetry (core tag : Nat)
  | fltrelDeny (core tag : Nat)
  | svqAgeWake (core : Nat)
  | watchdogExpiry (ctx : Nat)
  | preqRequest (ctx : Nat)
  | preqWithdraw (ctx : Nat)
  | timeSliceExpiry (ctx : Nat)
  | preemptionRequest (ctx : Nat)
  | saveBegin (ctx : Nat)
  | forcedSave (ctx : Nat)
  | contextSwitch
  | modeChange
  -- EVENTS: gang and launch (R281 to R287)
  | gangArm (gang : Dword)
  | gangAck (gang : Dword) (dev : Nat)
  | gangCommit (gang : Dword)
  | gangAbort (gang : Dword)
  | gangReport (gang : Dword) (dev : Nat) (code : Byte)
  | gangTriggerReached (lch : Nat)
  | gangReportTimeout (lch : Nat)
  | placementReserve (lch : Nat)
  | gridStart (lch : Nat)
  | launchWindowExpiry (lch : Nat)
  -- EVENTS: time, slice map, links (R265, R313, R319)
  | timeBaseTick
  | smapStart
  | sliceMapSwitch
  | linkDown (link : Nat)
  -- EVENTS: debug and profiling (R331, R337)
  | dbgHaltRequest (core part : Nat)
  | haltRequestServe (core part : Nat)
  | pcBreakpoint (core part : Nat)
  | stallSample (core part : Nat)
  -- EVENTS: management, boot, power (R339 to R351)
  | mgmtAttest (buf : Nat)
  | mgmtExtendRequest (buf : Nat)
  | mgmtStageUpdate (buf : Nat)
  | mgmtConfirm (buf : Nat)
  | mgmtModeRequest (buf : Nat)
  | extend (reg : Nat)
  | keyslot (slot : Nat)
  | modereq (mode : Mode)
  | mgmtRequestComplete
  | packageReset
  -- EVENTS that only the outside brings about: flits, lanes, trays, ports, sensors, power, read-ahead
  | readAhead (core line : Nat)
  | flitReceive (link : Nat) (flit : List Byte) (corrected : Bool)
  | laneErrorWindow (link lane errors corrected uncorrected : Nat)
  | laneRejoin (link lane : Nat)
  | linkTrained (link : Nat)
  | trayTransaction (link : Nat) (write : Bool) (pa : Nat) (bytes : List Byte)
  | ethernetPacketArrival (ctx ep : Nat) (payload : List Byte)
  | portDown (port : Nat)
  | portUp (port : Nat)
  | attestMctpRequest (nonce : List Byte)
  | thermalThrottle (cluster : Nat) (temp : Int)
  | thermalThrottleEnd (cluster : Nat) (temp : Int)
  | powerThrottle (watts : Nat)
  | eventLogMirror (n : Nat)
  | powerLoss (lost : Nat) (skip : Bool)
  deriving DecidableEq, Repr

end Sys2Proof
end

