-- ==== Sys2Proof/Decode.lean ====
section
/-! DEFINITION. Decoding and encoding: the fields of R63, the operand positions of R70 and R71, the
shapes of R78 to R84 and the fields of each OWN instruction, read from spec 05, 07, 09, 11. Every check
is made in the order of R88; an encoding that is no instruction is rejected by the cause R87 names. -/

namespace Sys2Proof

/-- The causes of R87 that decoding raises. -/
inductive Reject where
  | illegalOpcode
  | illegalModifier
  | illegalOperand
  deriving DecidableEq, Repr

-- Register codes (R69)

def Reg.code : Reg → BitVec 9
  | .v n => BitVec.ofNat 9 n.val
  | .o n => BitVec.ofNat 9 (384 + n.val)
  | .l n => BitVec.ofNat 9 (400 + n.val)
  | .s n => BitVec.ofNat 9 (404 + n.val)
  | .p n => BitVec.ofNat 9 (468 + n.val)
  | .zero => 476#9
  | .lane => 477#9
  | .widlo => 478#9
  | .widhi => 479#9

/-- The register of a code; codes 480 to 511 are reserved (R69). -/
def Reg.ofCode (c : BitVec 9) : Option Reg :=
  let n := c.toNat
  if h : n < 384 then some (.v ⟨n, h⟩)
  else if h : n - 384 < 16 then some (.o ⟨n - 384, h⟩)
  else if h : n - 400 < 4 then some (.l ⟨n - 400, h⟩)
  else if h : n - 404 < 64 then some (.s ⟨n - 404, h⟩)
  else if h : n - 468 < 8 then some (.p ⟨n - 468, h⟩)
  else if n = 476 then some .zero
  else if n = 477 then some .lane
  else if n = 478 then some .widlo
  else if n = 479 then some .widhi
  else none

/-- The operand positions of R70, with the width of R71 in registers (1, 2 or 4; `v16` names sixteen). -/
inductive Pos where
  | src (w : Nat)
  | dst (w : Nat)
  /-- a destination whose description names S, so that U is not asked (R70) -/
  | dstS (w : Nat)
  /-- the target of an indirect transfer: a pair, S or L (R104) -/
  | target
  /-- a V pair, or an S register when `s` -/
  | dstVS (s : Bool)
  | pdst
  | psrc
  | gbase
  | sbase
  | vOnly (m : Nat)
  | sFour
  deriving DecidableEq, Repr

/-- R70, R71: does a position accept a register, in an instruction whose U bit is `u`? -/
def Pos.ok (u : Bool) : Pos → Reg → Bool
  | .src w, .v n => n.val % w == 0
  | .src w, .o n => n.val % w == 0
  | .src w, .l _ => w != 4
  | .src w, .s _ => w != 4
  | .src w, .widhi => w == 1
  | .src _, _ => true
  | .target, .v n => n.val % 2 == 0
  | .target, .o n => n.val % 2 == 0
  | .target, .s _ => true
  | .target, .l _ => true
  | .target, _ => false
  | .dst w, .v n => n.val % w == 0
  | .dst w, .o n => n.val % w == 0
  | .dst w, .s _ => u && w != 4
  | .dst _, _ => false
  | .dstS w, .v n => n.val % w == 0
  | .dstS w, .o n => n.val % w == 0
  | .dstS w, .s _ => w != 4
  | .dstS _, _ => false
  | .dstVS _, .v n => n.val % 2 == 0
  | .dstVS s, .s _ => s || u
  | .dstVS _, _ => false
  | .pdst, .p n => n.val < 7
  | .pdst, _ => false
  | .psrc, .p _ => true
  | .psrc, _ => false
  | .gbase, .v n => n.val % 2 == 0
  | .gbase, .s _ => true
  | .gbase, .zero => true
  | .gbase, _ => false
  | .sbase, .v _ => true
  | .sbase, .s _ => true
  | .sbase, .zero => true
  | .sbase, _ => false
  | .vOnly m, .v n => n.val % m == 0
  | .vOnly _, _ => false
  | .sFour, .s n => n.val ≤ 60
  | .sFour, _ => false

/-- The register a field names in a position, or a rejection (R70, R71, R87). -/
def Pos.read (u : Bool) (p : Pos) (c : BitVec 9) : Except Reject Reg :=
  match Reg.ofCode c with
  | some r => if p.ok u r then .ok r else .error .illegalOperand
  | none => .error .illegalOperand

/-- An optional operand: absent, its field must be zero (R65). -/
def Pos.readOpt (u : Bool) (p : Option Pos) (c : BitVec 9) : Except Reject (Option Reg) :=
  match p with
  | some p => (p.read u c).map some
  | none => if c = 0#9 then .ok none else .error .illegalOperand

def Pos.okOpt (u : Bool) : Option Pos → Option Reg → Bool
  | some p, some r => p.ok u r
  | none, none => true
  | _, _ => false

def Reg.codeOpt : Option Reg → BitVec 9
  | some r => r.code
  | none => 0#9

def requireZero (c : BitVec 9) : Except Reject Unit :=
  if c = 0#9 then .ok () else .error .illegalOperand

def modCheck (b : Bool) : Except Reject Unit :=
  if b then .ok () else .error .illegalModifier

-- The raw fields (R63)

structure Raw where
  len : Len
  u : Bool
  op : BitVec 10
  gp : BitVec 3
  gn : Bool
  d : BitVec 9
  a : BitVec 9
  b : BitVec 9
  cls : BitVec 20
  ext : BitVec 64
  deriving DecidableEq, Repr

def Len.bits : Len → BitVec 2
  | .w64 => 1#2
  | .w96 => 2#2
  | .w128 => 3#2

def Len.bytes : Len → Nat
  | .w64 => 8
  | .w96 => 12
  | .w128 => 16

def Len.ofBits (b : BitVec 2) : Option Len :=
  if b = 1#2 then some .w64 else if b = 2#2 then some .w96 else if b = 3#2 then some .w128 else none

def Raw.pack (r : Raw) : Quad :=
  r.ext ++ r.cls ++ r.b ++ r.a ++ r.d ++ BitVec.ofBool r.gn ++ r.gp ++ r.op ++ BitVec.ofBool r.u ++ r.len.bits

/-- The fields of an instruction of length `l`; bits beyond its length are not its own. -/
def Raw.unpack (l : Len) (w : Quad) : Raw :=
  { len := l
    u := w.getLsbD 2
    op := w.extractLsb' 3 10
    gp := w.extractLsb' 13 3
    gn := w.getLsbD 16
    d := w.extractLsb' 17 9
    a := w.extractLsb' 26 9
    b := w.extractLsb' 35 9
    cls := w.extractLsb' 44 20
    ext := match l with
      | .w64 => 0#64
      | .w96 => (w.extractLsb' 64 32).zeroExtend 64
      | .w128 => w.extractLsb' 64 64 }

def Raw.hdr (r : Raw) : Hdr := { len := r.len, u := r.u, gp := r.gp.toFin, gn := r.gn }

/-- The raw form of an instruction with header `h`. -/
def Hdr.raw (h : Hdr) (op : BitVec 10) (d a b : BitVec 9) (cls : BitVec 20) (ext : BitVec 64) : Raw :=
  { len := h.len, u := h.u, op := op, gp := BitVec.ofFin h.gp, gn := h.gn, d := d, a := a, b := b,
    cls := cls, ext := ext }

-- Types (R79)

def Ty.table : List (Nat × Ty) :=
  [(0x00, .b32), (0x01, .i32), (0x02, .n32), (0x03, .i64), (0x04, .n64), (0x05, .i16), (0x06, .n16),
   (0x07, .i8), (0x08, .n8), (0x09, .i16x2), (0x0A, .n16x2)] ++
  [(0x0B, .i8x4), (0x0C, .n8x4), (0x0D, .f32), (0x0E, .f16), (0x0F, .bf16), (0x10, .f16x2),
   (0x11, .bf16x2), (0x12, .p10), (0x13, .p12), (0x14, .p14), (0x15, .b64)]

def Ty.code (t : Ty) : BitVec 5 :=
  match Ty.table.find? (fun p => p.2 == t) with
  | some (n, _) => BitVec.ofNat 5 n
  | none => 0#5

def Ty.ofCode (c : BitVec 5) : Option Ty := (Ty.table.find? (fun p => p.1 == c.toNat)).map (·.2)

/-- A TYPE whose operands are pairs (R99). -/
def Ty.is64 : Ty → Bool
  | .i64 | .n64 | .b64 => true
  | _ => false

/-- Registers an operand of a type takes. -/
def Ty.regs (t : Ty) : Nat := if t.is64 then 2 else 1

def Rnd.code : Rnd → BitVec 2
  | .rne => 0#2
  | .rz => 1#2
  | .rp => 2#2
  | .rm => 3#2

def Rnd.ofCode (c : BitVec 2) : Rnd :=
  if c = 0#2 then .rne else if c = 1#2 then .rz else if c = 2#2 then .rp else .rm

-- Shape ARITH (R78 to R81)

/-- The last source as encoded (R80). -/
inductive Last where
  | reg
  | imm7 (v : BitVec 7)
  | imm32 (v : Word)
  | imm64 (v : Dword)
  deriving DecidableEq, Repr

def Last.any (_ : Last) : Bool := true

def Last.isReg : Last → Bool
  | .reg => true
  | _ => false

/-- `pxnrm`: an immediate parameter is an imm32 (R125). -/
def Last.not7 : Last → Bool
  | .imm7 _ | .imm64 _ => false
  | _ => true

/-- What a description of 07 says of an ARITH instruction: its types, and for a type which SUB, SAT and
RND it takes, and the positions of its operands. -/
structure ArithSpec where
  tys : List Ty
  subOk : Ty → Nat → Bool
  satOk : Nat → Ty → Bool
  rndOk : Nat → Ty → Bool
  dst : Ty → Pos
  srcs : Ty → List Pos
  /-- predicate instructions: 64 bits only (R108) -/
  only64 : Bool
  immOk : Last → Bool

/-- R80: the lengths, the immediate and the source count that go together. -/
def Last.lenOk (nsrc : Nat) : Len → Last → Bool
  | .w64, .reg => nsrc ≤ 2
  | .w96, .reg => nsrc == 3
  | .w64, .imm7 _ => true
  | .w96, .imm32 _ => true
  | .w128, .imm64 _ => true
  | _, _ => false

def Ty.isF16 : Ty → Bool
  | .f16 | .bf16 => true
  | _ => false

/-- R80: the bits of an immediate that must be zero. -/
def Last.immOk (t : Ty) : Last → Bool
  | .imm32 v => !t.isF16 || v.extractLsb' 16 16 == 0#16
  | .imm64 v => t.is64 || v.extractLsb' 32 32 == 0#32
  | _ => true

def ArithSpec.modOk (sp : ArithSpec) (len : Len) (t : Ty) (rnd : Rnd) (sat : Bool) (sub : BitVec 4) (l : Last) : Bool :=
  sp.tys.contains t && sp.subOk t sub.toNat && (!sat || sp.satOk sub.toNat t) &&
  (rnd == .rne || sp.rndOk sub.toNat t) && l.lenOk (sp.srcs t).length len && l.immOk t && sp.immOk l

/-- The immediate, or that the last source is a register; the bits that must then be zero (R80). -/
def Raw.last (r : Raw) : Option Last :=
  let imm7 := r.cls.extractLsb' 0 7
  match r.cls.getLsbD 11, r.len with
  | true, .w64 => some (.imm7 imm7)
  | true, .w96 => if imm7 = 0#7 then some (.imm32 (r.ext.extractLsb' 0 32)) else none
  | true, .w128 => if imm7 = 0#7 then some (.imm64 r.ext) else none
  | false, _ => if imm7 = 0#7 ∧ r.ext.extractLsb' 9 55 = 0#55 then some .reg else none

def Last.src (l : Last) (r : Except Reject Reg) : Except Reject Src :=
  match l with
  | .reg => r.map Src.reg
  | .imm7 v => .ok (.imm7 v)
  | .imm32 v => .ok (.imm32 v)
  | .imm64 v => .ok (.imm64 v)

/-- The last source when it is a register, else its field must be zero (R80). -/
def Last.field (u : Bool) (l : Last) (p : Pos) (c : BitVec 9) : Except Reject Src :=
  match l with
  | .reg => (p.read u c).map Src.reg
  | _ => (requireZero c).bind fun _ => l.src (.error .illegalOperand)

def arithSrcs (u : Bool) (ps : List Pos) (l : Last) (r : Raw) : Except Reject (Src × Src × Src) :=
  match ps with
  | [pa] => do
    let a ← l.field u pa r.a
    requireZero r.b
    return (a, .none, .none)
  | [pa, pb] => do
    let a ← pa.read u r.a
    let b ← l.field u pb r.b
    return (.reg a, b, .none)
  | [pa, pb, pc] => do
    let a ← pa.read u r.a
    let b ← pb.read u r.b
    let c ← l.src (pc.read u (r.ext.extractLsb' 0 9))
    return (.reg a, .reg b, c)
  | _ => .error .illegalOperand

def decodeArith (sp : ArithSpec) (mk : Hdr → Arith → Instr) (r : Raw) : Except Reject Instr :=
  if sp.only64 && r.len != .w64 then .error .illegalOpcode else
  match Ty.ofCode (r.cls.extractLsb' 15 5), r.last with
  | some t, some l =>
    let rnd := Rnd.ofCode (r.cls.extractLsb' 13 2)
    let sat := r.cls.getLsbD 12
    let sub := r.cls.extractLsb' 7 4
    if sp.modOk r.len t rnd sat sub l then do
      let d ← (sp.dst t).read r.u r.d
      let (a, b, c) ← arithSrcs r.u (sp.srcs t) l r
      return mk r.hdr { ty := t, rnd := rnd, sat := sat, sub := sub, d := d, a := a, b := b, c := c }
    else .error .illegalModifier
  | _, _ => .error .illegalModifier

/-- The last source of an instruction of `n` sources. -/
def Arith.lastSrc (x : Arith) : Nat → Src
  | 1 => x.a
  | 2 => x.b
  | _ => x.c

def Src.last : Src → Last
  | .imm7 v => .imm7 v
  | .imm32 v => .imm32 v
  | .imm64 v => .imm64 v
  | _ => .reg

def Src.code : Src → BitVec 9
  | .reg r => r.code
  | _ => 0#9

def Last.imm7Field : Last → BitVec 7
  | .imm7 v => v
  | _ => 0#7

def Last.ext (c : BitVec 9) : Last → BitVec 64
  | .reg => c.zeroExtend 64
  | .imm7 _ => 0#64
  | .imm32 v => v.zeroExtend 64
  | .imm64 v => v

def encodeArith (op : BitVec 10) (n : Nat) (h : Hdr) (x : Arith) : Raw :=
  let l := (x.lastSrc n).last
  h.raw op x.d.code x.a.code x.b.code
    (x.ty.code ++ x.rnd.code ++ BitVec.ofBool x.sat ++ BitVec.ofBool (l != .reg) ++ x.sub ++ l.imm7Field)
    (l.ext x.c.code)

/-- A source of an ARITH instruction in a position: a register the position accepts, or (`last`) an immediate. -/
def Src.ok (u : Bool) (p : Pos) (last : Bool) : Src → Bool
  | .reg r => p.ok u r
  | .none => false
  | _ => last

def Arith.srcsOk (x : Arith) (u : Bool) : List Pos → Bool
  | [pa] => x.a.ok u pa true && x.b == .none && x.c == .none
  | [pa, pb] => x.a.ok u pa false && x.b.ok u pb true && x.c == .none
  | [pa, pb, pc] => x.a.ok u pa false && x.b.ok u pb false && x.c.ok u pc true
  | _ => false

def ArithSpec.wf (sp : ArithSpec) (h : Hdr) (x : Arith) : Bool :=
  (!sp.only64 || h.len == .w64) &&
  sp.modOk h.len x.ty x.rnd x.sat x.sub (x.lastSrc (sp.srcs x.ty).length).last &&
  (sp.dst x.ty).ok h.u x.d && x.srcsOk h.u (sp.srcs x.ty)

-- The descriptions (R108, R109, R119, R127, R139 to R142)

def never (_ : Nat) (_ : Ty) : Bool := false
def always (_ : Nat) (_ : Ty) : Bool := true
def sub0 (_ : Ty) (n : Nat) : Bool := n == 0
def subBelow (k : Nat) (_ : Ty) (n : Nat) : Bool := n < k
def dstT (t : Ty) : Pos := .dst t.regs
def dst1 (_ : Ty) : Pos := .dst 1
def dst2 (_ : Ty) : Pos := .dst 2
def dstP (_ : Ty) : Pos := .pdst
/-- `n` sources of the TYPE's own width. -/
def srcT (n : Nat) (t : Ty) : List Pos := List.replicate n (.src t.regs)

def ArithSpec.plain (tys : List Ty) (n : Nat) : ArithSpec :=
  { tys := tys, subOk := sub0, satOk := never, rndOk := never, dst := dstT, srcs := srcT n, only64 := false, immOk := Last.any }

def tysAdd : List Ty := [.i32, .n32, .i64, .n64, .i16x2, .n16x2, .i8x4, .n8x4]
def tysMul : List Ty := [.i32, .n32, .i64, .n64, .i16x2, .n16x2]
def tysBits : List Ty := [.b32, .b64]
def tysBfe : List Ty := [.i32, .n32, .i64, .n64]
def tysF : List Ty := [.f32, .f16, .bf16, .f16x2, .bf16x2]

def specPred (ps : List Pos) (imm : Last → Bool) : ArithSpec :=
  { ArithSpec.plain [.b32] 1 with dst := dstP, srcs := fun _ => ps, only64 := true, immOk := imm }
def specPset : ArithSpec := specPred [.src 1] Last.any
def specPbin : ArithSpec := specPred [.psrc, .psrc] Last.isReg
def specPnot : ArithSpec := specPred [.psrc] Last.isReg
def specIadd : ArithSpec := { ArithSpec.plain tysAdd 2 with satOk := always }
def specImul : ArithSpec := { ArithSpec.plain tysMul 2 with satOk := always }
def specImulhi : ArithSpec := ArithSpec.plain tysMul 2
def specImad : ArithSpec := { ArithSpec.plain tysMul 3 with satOk := always }
def specImin : ArithSpec := ArithSpec.plain tysAdd 2
def specIabs : ArithSpec := { ArithSpec.plain [.i32, .i64, .i16x2, .i8x4] 1 with satOk := always }
def specAnd : ArithSpec := ArithSpec.plain tysBits 2
def specNot : ArithSpec := ArithSpec.plain tysBits 1
/-- shifts and rotates: the count is a 32-bit source (R112) -/
def specShift (tys : List Ty) : ArithSpec :=
  { ArithSpec.plain tys 2 with srcs := fun t => [.src t.regs, .src 1] }
def specShl : ArithSpec := specShift [.b32, .b64, .n16x2]
def specSar : ArithSpec := specShift [.i32, .i64, .i16x2]
def specRol : ArithSpec := specShift tysBits
/-- `popc`, `clz`: a 32-bit D (R113) -/
def specPopc : ArithSpec := { ArithSpec.plain tysBits 1 with dst := dst1 }
def specBfe : ArithSpec := specShift tysBfe
def specBfi : ArithSpec := { ArithSpec.plain tysBits 3 with srcs := fun t => [.src t.regs, .src t.regs, .src 1] }
def specSel : ArithSpec := { ArithSpec.plain tysBits 3 with srcs := fun t => [.src 1, .src t.regs, .src t.regs] }
def specIcmp : ArithSpec := { ArithSpec.plain tysBfe 2 with subOk := subBelow 6, dst := dstP }
def specLea : ArithSpec :=
  { ArithSpec.plain [.i32, .n32] 2 with subOk := subBelow 16, dst := dst2, srcs := fun _ => [.src 2, .src 1] }
def specPxext : ArithSpec :=
  { ArithSpec.plain [.p10, .p12, .p14] 2 with subOk := subBelow 2, srcs := fun _ => [.src 2, .src 1] }
def specPxins : ArithSpec :=
  { ArithSpec.plain [.p10, .p12, .p14] 3 with satOk := always, dst := dst2, srcs := fun _ => [.src 2, .src 1, .src 1] }
def specPxavg : ArithSpec := { ArithSpec.plain [.n8x4, .n16x2] 2 with rndOk := always }
def specPxabd : ArithSpec := ArithSpec.plain [.n8x4, .n16x2] 2
def specPxsad : ArithSpec := { ArithSpec.plain [.n8x4, .n16x2] 3 with satOk := always }
def specPxclp : ArithSpec := ArithSpec.plain [.n8x4, .n16x2, .i16x2] 3
def specPxnrm : ArithSpec := { ArithSpec.plain [.n16x2] 3 with rndOk := always, immOk := Last.not7 }
def specPxdot : ArithSpec := { ArithSpec.plain [.i8x4, .n8x4] 3 with satOk := always }
def specFadd : ArithSpec := { ArithSpec.plain tysF 2 with rndOk := always }
def specFfma : ArithSpec := { ArithSpec.plain tysF 3 with rndOk := always }
def specFmin : ArithSpec := ArithSpec.plain tysF 2
def specFabs : ArithSpec := ArithSpec.plain tysF 1
def specFcmp : ArithSpec := { ArithSpec.plain [.f32, .f16, .bf16] 2 with subOk := subBelow 8, dst := dstP }
def specFclass : ArithSpec := ArithSpec.plain [.f32, .f16, .bf16] 1
def specFrcp : ArithSpec := ArithSpec.plain [.f32] 1
def specShfl : ArithSpec := { specShift tysBits with subOk := subBelow 4 }
/-- `.b64` for `.eq` only (R140) -/
def specVote : ArithSpec :=
  { ArithSpec.plain tysBits 1 with subOk := fun t n => n < 3 && (!t.is64 || n == 2), dst := dstP }
/-- `.b64` names an S destination (R141); A has the TYPE's width, of which bits 31..0 decide (R99; log 86) -/
def specBallot : ArithSpec := { ArithSpec.plain tysBits 1 with dst := fun t => if t.is64 then .dstS 2 else .dst 1 }
/-- R142: operation and type. -/
def redOk (t : Ty) (op : Nat) : Bool :=
  if op ≤ 2 then [Ty.i32, .n32, .i64, .n64, .f32].contains t
  else if op ≤ 5 then [Ty.b32, .b64].contains t else false
def specRed (excl : Bool) : ArithSpec :=
  { ArithSpec.plain [.i32, .n32, .i64, .n64, .f32, .b32, .b64] 1 with
    subOk := fun t n => redOk t (n % 8) && (excl || n < 8)
    satOk := fun n t => n % 8 == 0 && t != .f32
    rndOk := fun n t => n % 8 == 0 && t == .f32 }

-- cvt and cvpk (R135 to R137)

def tysCvt : List Ty := [.f32, .f16, .bf16, .i8, .n8, .i16, .n16, .i32, .n32, .i64, .n64]

def Ty.isFp : Ty → Bool
  | .f32 | .f16 | .bf16 => true
  | _ => false

/-- Elements of a source type that SUB may select (R135). -/
def Ty.cvtElems : Ty → Nat
  | .f16 | .bf16 | .i16 | .n16 => 2
  | .i8 | .n8 => 4
  | _ => 1

/-- Pairs on which `cvt` rounds (R135). -/
def cvtRounds (d s : Ty) : Bool :=
  (d.isFp != s.isFp) || (d.isFp && s.isFp && d != .f32)

/-- The legal pairs of `cvpk` (R137). -/
def cvpkPair : Ty → Ty → Bool
  | .f16x2, .f32 | .bf16x2, .f32 | .i16x2, .i32 | .n16x2, .i32 | .i8x4, .i16x2 | .n8x4, .i16x2 => true
  | _, _ => false

def cvtModOk (len : Len) (d s : Ty) (rnd : Rnd) (e : BitVec 4) : Bool :=
  len == .w64 && tysCvt.contains d && tysCvt.contains s && d != s && e.toNat < s.cvtElems &&
  (rnd == .rne || cvtRounds d s)

def cvpkModOk (len : Len) (d s : Ty) (rnd : Rnd) (e : BitVec 4) (l : Last) : Bool :=
  cvpkPair d s && e == 0#4 && (rnd == .rne || s == .f32) &&
  match len, l with
  | .w64, .reg => true
  | .w96, .imm32 _ => true
  | .w128, .imm64 v => v.extractLsb' 32 32 == 0#32
  | _, _ => false

/-- The last source of `cvpk`: IMM7 holds the source type, so it is never an immediate (R80). -/
def Raw.lastCvt (r : Raw) : Option Last :=
  match r.cls.getLsbD 11, r.len with
  | true, .w96 => some (.imm32 (r.ext.extractLsb' 0 32))
  | true, .w128 => some (.imm64 r.ext)
  | true, .w64 => none
  | false, _ => if r.ext = 0#64 then some .reg else none

def decodeCvt (pk : Bool) (r : Raw) : Except Reject Instr :=
  match Ty.ofCode (r.cls.extractLsb' 15 5), Ty.ofCode (r.cls.extractLsb' 0 5), r.lastCvt with
  | some d, some s, some l =>
    let rnd := Rnd.ofCode (r.cls.extractLsb' 13 2)
    let e := r.cls.extractLsb' 7 4
    if r.cls.getLsbD 12 = false ∧ r.cls.extractLsb' 5 2 = 0#2 ∧
        (if pk then cvpkModOk r.len d s rnd e l else l == .reg && cvtModOk r.len d s rnd e) = true then do
      let dr ← (Pos.dst d.regs).read r.u r.d
      let a ← (Pos.src s.regs).read r.u r.a
      let b ← if pk then l.field r.u (.src 1) r.b else (requireZero r.b).map fun _ => Src.none
      let x : Cvt := { dty := d, sty := s, rnd := rnd, elem := e, d := dr, a := .reg a, b := b }
      return (if pk then .cvpk r.hdr x else .cvt r.hdr x)
    else .error .illegalModifier
  | _, _, _ => .error .illegalModifier

def encodeCvt (op : BitVec 10) (h : Hdr) (x : Cvt) : Raw :=
  let l := x.b.last
  h.raw op x.d.code x.a.code x.b.code
    (x.dty.code ++ x.rnd.code ++ BitVec.ofBool false ++ BitVec.ofBool (l != .reg) ++ x.elem ++ (0#2 ++ x.sty.code))
    (l.ext 0#9)

def Cvt.wf (pk : Bool) (h : Hdr) (x : Cvt) : Bool :=
  (if pk then cvpkModOk h.len x.dty x.sty x.rnd x.elem x.b.last else cvtModOk h.len x.dty x.sty x.rnd x.elem) &&
  (Pos.dst x.dty.regs).ok h.u x.d && x.a.ok h.u (.src x.sty.regs) false &&
  (if pk then x.b.ok h.u (.src 1) true else x.b == .none)

-- Shape BR (R84)

def decodeTarget (r : Raw) : Option Target :=
  match r.len with
  | .w64 => some (.rel20 r.cls)
  | .w96 => if r.cls = 0#20 then some (.rel32 (r.ext.extractLsb' 0 32)) else none
  | .w128 =>
    if r.cls = 0#20 ∧ r.ext.extractLsb' 48 16 = 0#16 ∧ r.ext.extractLsb' 0 2 = 0#2 then
      some (.abs (r.ext.extractLsb' 2 46)) else none

def decodeBr (r : Raw) (f : Target → Except Reject Instr) : Except Reject Instr :=
  match decodeTarget r with
  | some t => f t
  | none => .error .illegalModifier

def Target.cls : Target → BitVec 20
  | .rel20 w => w
  | _ => 0#20

def Target.ext : Target → BitVec 64
  | .rel20 _ => 0#64
  | .rel32 w => w.zeroExtend 64
  | .abs a => 0#16 ++ a ++ 0#2

def Target.len : Target → Len
  | .rel20 _ => .w64
  | .rel32 _ => .w96
  | .abs _ => .w128

def encodeBr (op : BitVec 10) (h : Hdr) (d a : BitVec 9) (t : Target) : Raw :=
  h.raw op d a 0#9 t.cls t.ext

def Target.wf (h : Hdr) (t : Target) : Bool := h.len == t.len

/-- A predicate code in a field that must hold one (R103, R140). -/
def readP (pos : Pos) (c : BitVec 9) : Except Reject (Fin 8) :=
  match pos.read false c with
  | .ok (.p n) => .ok n
  | _ => .error .illegalOperand

-- Shape MEM (R82, R83)

def Size.code : Size → BitVec 3
  | .b8 => 0#3
  | .b16 => 1#3
  | .b32 => 2#3
  | .b64 => 3#3
  | .b128 => 4#3

def Size.ofCode (c : BitVec 3) : Option Size :=
  if c = 0#3 then some .b8 else if c = 1#3 then some .b16 else if c = 2#3 then some .b32
  else if c = 3#3 then some .b64 else if c = 4#3 then some .b128 else none

/-- Bytes of an access. -/
def Size.bytes : Size → Nat
  | .b8 => 1
  | .b16 => 2
  | .b32 => 4
  | .b64 => 8
  | .b128 => 16

/-- Registers of the data operand (R150). -/
def Size.regs : Size → Nat
  | .b64 => 2
  | .b128 => 4
  | _ => 1

def Scope.code : Scope → BitVec 3
  | .none => 0#3
  | .grp => 1#3
  | .wg => 2#3
  | .cl => 3#3
  | .dev => 4#3
  | .sys => 5#3

def Scope.ofCode (c : BitVec 3) : Option Scope :=
  if c = 0#3 then some .none else if c = 1#3 then some .grp else if c = 2#3 then some .wg
  else if c = 3#3 then some .cl else if c = 4#3 then some .dev else if c = 5#3 then some .sys else Option.none

def Order.code : Order → BitVec 2
  | .rlx => 0#2
  | .acq => 1#2
  | .rel => 2#2
  | .ar => 3#2

def Order.ofCode (c : BitVec 2) : Order :=
  if c = 0#2 then .rlx else if c = 1#2 then .acq else if c = 2#2 then .rel else .ar

/-- How a MEM instruction uses an operand field. -/
inductive Use where
  | no
  | yes
  | ifRet
  deriving DecidableEq, Repr

/-- What R150, R152, R154 and R156 say of a MEM instruction's fields. -/
structure MemSpec where
  sizes : List Size
  scopes : List Scope
  orders : List Order
  sx : Size → Bool
  nf : Bool
  base : Pos
  d : Use
  b : Bool
  cas : Bool

def small : Size → Bool
  | .b8 | .b16 => true
  | _ => false
def noSx (_ : Size) : Bool := false
def anySize : List Size := [.b8, .b16, .b32, .b64, .b128]
def specLd : MemSpec :=
  { sizes := anySize, scopes := [.none, .grp, .wg, .cl, .dev, .sys], orders := [.rlx, .acq], sx := small, nf := true,
    base := .gbase, d := .yes, b := false, cas := false }
def specSt : MemSpec := { specLd with orders := [.rlx, .rel], sx := noSx, d := .no, b := true }
def specLds : MemSpec := { specLd with scopes := [.none, .grp, .wg, .cl], base := .sbase }
def specSts : MemSpec := { specSt with scopes := [.none, .grp, .wg, .cl], base := .sbase }
def specLdfe : MemSpec :=
  { specLds with sizes := [.b32, .b64, .b128], scopes := [.none], orders := [.rlx], sx := noSx }
def specStfe : MemSpec := { specLdfe with d := .no, b := true }
def specPref : MemSpec :=
  { sizes := [.b8], scopes := [.none, .cl], orders := [.rlx], sx := noSx, nf := false, base := .gbase, d := .no,
    b := false, cas := false }
def specAtom : MemSpec :=
  { sizes := [.b32, .b64], scopes := [.grp, .wg, .cl, .dev, .sys], orders := [.rlx, .acq, .rel, .ar], sx := fun _ => true,
    nf := true, base := .gbase, d := .ifRet, b := true, cas := false }
def specCas : MemSpec := { specAtom with cas := true }

def MemSpec.modOk (sp : MemSpec) (size : Size) (scope : Scope) (order : Order) (nf sx : Bool) : Bool :=
  sp.sizes.contains size && sp.scopes.contains scope && sp.orders.contains order && (scope != .none || order == .rlx) &&
  (!nf || sp.nf) && (!sx || sp.sx size)

/-- The register that follows B, which holds the new value of `atom.cas` (R83): the next of its file.
DEDUCED (log 11): P, S, L and O registers are followed within their own file; a constant has none. -/
def Reg.following (w : Nat) : Reg → Option Reg
  | .v n => if h : n.val + w < 384 then some (.v ⟨n.val + w, h⟩) else none
  | .o n => if h : n.val + w < 16 then some (.o ⟨n.val + w, h⟩) else none
  | .l n => if h : n.val + 1 < 4 then some (.l ⟨n.val + 1, h⟩) else none
  | .s n => if h : n.val + 1 < 64 then some (.s ⟨n.val + 1, h⟩) else none
  | .p n => if h : n.val + 1 < 8 then some (.p ⟨n.val + 1, h⟩) else none
  | _ => none

def MemSpec.dPos (sp : MemSpec) (size : Size) (ret : Bool) : Option Pos :=
  match sp.d with
  | .no => none
  | .yes => some (.dst size.regs)
  | .ifRet => if ret then some (.dst size.regs) else none

def MemSpec.bPos (sp : MemSpec) (size : Size) : Option Pos :=
  if sp.b then some (.src size.regs) else none

def MemSpec.casOk (sp : MemSpec) (size : Size) : Option Reg → Bool
  | some r => !sp.cas || (r.following size.regs).isSome
  | none => true

def Raw.off (r : Raw) : Option Off :=
  let o := r.cls.extractLsb' 0 10
  match r.len with
  | .w64 => some (.o10 o)
  | .w96 => if o = 0#10 then some (.i32 (r.ext.extractLsb' 0 32)) else none
  | .w128 => if o = 0#10 then some (.i64 r.ext) else none

def decodeMem (sp : MemSpec) (mk : Hdr → MemArg → Instr) (r : Raw) : Except Reject Instr :=
  match Size.ofCode (r.cls.extractLsb' 17 3), Scope.ofCode (r.cls.extractLsb' 14 3), r.off with
  | some size, some scope, some off =>
    let order := Order.ofCode (r.cls.extractLsb' 12 2)
    let nf := r.cls.getLsbD 11
    let sx := r.cls.getLsbD 10
    if sp.modOk size scope order nf sx then do
      let d ← Pos.readOpt r.u (sp.dPos size sx) r.d
      let a ← sp.base.read r.u r.a
      let b ← Pos.readOpt r.u (sp.bPos size) r.b
      if sp.casOk size b then
        return mk r.hdr { size := size, scope := scope, order := order, nf := nf, sx := sx, off := off, base := a, d := d, b := b }
      else .error .illegalOperand
    else .error .illegalModifier
  | _, _, _ => .error .illegalModifier

def Off.len : Off → Len
  | .o10 _ => .w64
  | .i32 _ => .w96
  | .i64 _ => .w128

def Off.low : Off → BitVec 10
  | .o10 v => v
  | _ => 0#10

def Off.ext : Off → BitVec 64
  | .o10 _ => 0#64
  | .i32 v => v.zeroExtend 64
  | .i64 v => v

def encodeMem (op : BitVec 10) (h : Hdr) (m : MemArg) : Raw :=
  h.raw op (Reg.codeOpt m.d) m.base.code (Reg.codeOpt m.b)
    (m.size.code ++ m.scope.code ++ m.order.code ++ BitVec.ofBool m.nf ++ BitVec.ofBool m.sx ++ m.off.low) m.off.ext

def MemSpec.wf (sp : MemSpec) (h : Hdr) (m : MemArg) : Bool :=
  sp.modOk m.size m.scope m.order m.nf m.sx && h.len == m.off.len && Pos.okOpt h.u (sp.dPos m.size m.sx) m.d &&
  sp.base.ok h.u m.base && Pos.okOpt h.u (sp.bPos m.size) m.b && sp.casOk m.size m.b

def decodeFence (r : Raw) : Except Reject Instr :=
  if r.len != .w64 then .error .illegalOpcode else
  match Scope.ofCode (r.cls.extractLsb' 14 3) with
  | some scope =>
    let order := Order.ofCode (r.cls.extractLsb' 12 2)
    if scope != .none && order != .rlx && r.cls.extractLsb' 17 3 == 0#3 && r.cls.extractLsb' 0 12 == 0#12 && !r.u then do
      requireZero r.d
      requireZero r.a
      requireZero r.b
      return .fence r.hdr scope order
    else .error .illegalModifier
  | none => .error .illegalModifier

-- Shape OWN: the instruction is 64 bits long, its modifiers are legal, its operands stand where the
-- description says (R65, R88).

def own (r : Raw) (modOk : Bool) (k : Except Reject Instr) : Except Reject Instr :=
  if r.len != .w64 then .error .illegalOpcode
  else if modOk then k else .error .illegalModifier

/-- Bits [hi:lo] of the instruction that lie in CLASS. -/
def Raw.c (r : Raw) (lo w : Nat) : BitVec w := r.cls.extractLsb' (lo - 44) w
def Raw.cb (r : Raw) (i : Nat) : Bool := r.cls.getLsbD (i - 44)

/-- The three operand fields in positions, absent ones zero. -/
def Raw.regs (r : Raw) (d a b : Option Pos) (k : Option Reg → Option Reg → Option Reg → Option Instr) : Except Reject Instr := do
  let d ← Pos.readOpt r.u d r.d
  let a ← Pos.readOpt r.u a r.a
  let b ← Pos.readOpt r.u b r.b
  match k d a b with
  | some i => return i
  | none => .error .illegalOperand

/-- An instruction with no operand field in use. -/
def Raw.bare (r : Raw) (i : Instr) : Except Reject Instr := r.regs none none none fun _ _ _ => some i

def decodeWait (r : Raw) : Except Reject Instr :=
  own r (r.c 44 2 == 0#2 && r.b.extractLsb' 6 3 == 0#3 && !r.u) do
    requireZero r.d
    requireZero r.a
    return .wait r.hdr (r.c 58 6) (r.c 52 6) (r.c 46 6) (r.b.extractLsb' 0 6)

/-- CLASS of `cpy` and `cpy.mc` (R159). -/
def decodeCpy (mc : Bool) (r : Raw) : Except Reject Instr :=
  own r (!r.cb 44) <|
    r.regs (if r.cb 45 then some (.dst 1) else none) (some (.src 2)) (if mc then some (.src 1) else none) fun d a b =>
      a.map fun a =>
        let x : CopyArg := { tmpl := r.c 56 8, handle := r.c 50 6, chan := r.c 46 4, d := d, a := a, b := b }
        if mc then .cpyMc r.hdr x else .cpy r.hdr x

/-- `hset` holds two instructions, told apart by [49:48] (R165). -/
def decodeHset (r : Raw) : Except Reject Instr :=
  if r.len != .w64 then .error .illegalOpcode else
  if r.c 48 2 = 0#2 then
    own r (r.c 50 8 != 0#8 && r.c 44 4 == 0#4) <|
      r.regs none (some (.src 1)) (some (.src 1)) fun _ a b => a.bind fun a => b.map fun b => .hsetBind r.hdr (r.c 58 6) (r.c 50 8) a b
  else if r.c 48 2 = 1#2 then
    own r (r.c 50 8 == 0#8 && r.c 44 4 == 0#4) (r.bare (.hsetFull r.hdr (r.c 58 6)))
  else .error .illegalModifier

def decodeHwait (r : Raw) : Except Reject Instr :=
  own r (r.c 57 1 == 0#1 && r.c 44 12 == 0#12) <|
    r.regs (some (.dst 1)) none none fun d _ _ => d.map fun d =>
      if r.cb 56 then .hwaitEmpty r.hdr d (r.c 58 6) else .hwaitFull r.hdr d (r.c 58 6)

/-- ARR and BAR (R171, R172): with ARR = 0, BAR must be zero. -/
def Raw.arr (r : Raw) : Option (BitVec 4) := if r.cb 52 then some (r.c 48 4) else none

def decodeMxb (r : Raw) : Except Reject Instr :=
  own r (r.c 53 2 == 0#2 && r.c 44 4 == 0#4 && (r.cb 52 || r.c 48 4 == 0#4)) <|
    r.regs none (some (.src 2)) none fun _ a _ => a.map fun a => .mxb r.hdr (r.c 56 8) (r.cb 55) r.arr a

/-- DEDUCED (log 12): with ARR = 0, BAR of `mxa` must be zero as for `mxb`. -/
def decodeMxa (r : Raw) : Except Reject Instr :=
  own r (!r.cb 44 && (r.cb 52 || r.c 48 4 == 0#4) && (r.cb 53 || r.c 45 3 == 0#3)) <|
    if r.cb 53 then
      r.regs none none (some (.vOnly 4)) fun _ _ b =>
        match b with
        | some (.v n) =>
          if n.val + (if r.cb 45 then 128 else 64) < 384 then
            some (.mxa r.hdr (r.c 56 8) (r.cb 55) (r.cb 54) r.arr (.regs (r.c 46 2) (r.cb 45) n)) else none
        | _ => none
    else
      r.regs none (some (.src 2)) none fun _ a _ => a.map fun a => .mxa r.hdr (r.c 56 8) (r.cb 55) (r.cb 54) r.arr (.spad a)

def decodeDrain (add : Bool) (r : Raw) : Except Reject Instr :=
  own r (!r.cb 55 && r.c 44 9 == 0#9) <|
    r.regs none (some (.src 2)) none fun _ a _ => a.map fun a =>
      if add then .mxdrainAdd r.hdr (r.c 56 8) (r.cb 54) (r.cb 53) a else .mxdrain r.hdr (r.c 56 8) (r.cb 54) (r.cb 53) a

/-- R183: a barrier number beyond its level's range is an illegal modifier. -/
def barIdOk (lvl : BitVec 2) (id : BitVec 6) : Bool :=
  if lvl = 2#2 then true else if lvl = 3#2 then id.toNat < 8 else id.toNat < 16

def decodeBar (arr : Bool) (pos : Option Pos) (k : Raw → BitVec 2 → BitVec 6 → Option Reg → Option Reg → Option Instr) (r : Raw) :
    Except Reject Instr :=
  own r (barIdOk (r.c 62 2) (r.c 56 6) && (arr || !r.cb 55) && r.c 44 11 == 0#11) <|
    r.regs (if r.cb 55 then some (.dst 1) else none) pos none fun d a _ => k r (r.c 62 2) (r.c 56 6) d a

/-- The register numbers that a chapter assigns and their widths (R206, R297, R330, R283, R315). -/
def sysregTable : List (Nat × Nat) :=
  [(0x000, 32), (0x001, 32), (0x002, 32), (0x003, 32), (0x008, 32), (0x009, 64), (0x00A, 64), (0x00B, 64), (0x00C, 64),
   (0x00D, 64), (0x00E, 64), (0x00F, 32), (0x010, 64), (0x011, 64), (0x012, 32), (0x013, 64), (0x014, 32), (0x015, 32)] ++
  [(0x016, 32), (0x017, 32), (0x018, 32), (0x019, 32), (0x01A, 32), (0x01B, 32), (0x01C, 32), (0x01D, 32), (0x01E, 32),
   (0x020, 64), (0x021, 32), (0x022, 32), (0x023, 32), (0x024, 64), (0x025, 64), (0x026, 64), (0x027, 64), (0x028, 32), (0x029, 32)] ++
  [(0x040, 32), (0x041, 64), (0x042, 64), (0x044, 64), (0x045, 64), (0x046, 64), (0x047, 64), (0x048, 64), (0x049, 64),
   (0x04A, 64), (0x04B, 64), (0x04C, 32), (0x04D, 32), (0x04E, 32), (0x04F, 32), (0x050, 32), (0x051, 64), (0x052, 32),
   (0x053, 32), (0x054, 32), (0x055, 32)] ++
  [(0x060, 64), (0x061, 64), (0x062, 32), (0x063, 32), (0x070, 32), (0x071, 32), (0x072, 32), (0x073, 64), (0x074, 64),
   (0x075, 32), (0x076, 32), (0x077, 32), (0x078, 64), (0x079, 64), (0x07A, 32), (0x07B, 32), (0x07C, 32), (0x07D, 64)]

def sysregWidth (n : BitVec 10) : Option Nat := (sysregTable.find? (fun p => p.1 == n.toNat)).map (·.2)

def sysregRegs (n : BitVec 10) : Nat := match sysregWidth n with
  | some 64 => 2
  | _ => 1

/-- D of `sysrd` (R205): 32-bit for a 32-bit register; a V pair or an S register for a 64-bit one. DEDUCED (log 12): its description
names an S destination, so R70 admits one without U for a 32-bit register too. -/
def sysrdPos (n : BitVec 10) : Pos := if sysregRegs n = 2 then .dstVS true else .dstS 1

/-- `sysrd`; the read of SYS.TRAPQ is a row of its own. -/
def mkSysrd (h : Hdr) (n : BitVec 10) (d : Reg) : Instr := if n = 0x022#10 then .trapqPop h d else .sysrd h n d

/-- `syswr`; the writes that are rows of their own. -/
def mkSyswr (h : Hdr) (n : BitVec 10) (a : Reg) : Instr :=
  if n = 0x00F#10 then .trapretWrite h a
  else if n = 0x01C#10 then .ipiWrite h a
  else if n = 0x013#10 then .wdogWrite h a
  else if n = 0x071#10 then .smapStageWrite h a
  else if n = 0x07C#10 then .oemodeWrite h a
  else if n = 0x078#10 then .laneCounterClear h false a
  else if n = 0x079#10 then .laneCounterClear h true a
  else .syswr h n a

def decodeSysrd (r : Raw) : Except Reject Instr :=
  let n : BitVec 10 := r.c 54 10
  own r ((sysregWidth n).isSome && r.c 44 10 == 0#10) <|
    r.regs (some (sysrdPos n)) none none fun d _ _ => d.map (mkSysrd r.hdr n)

def decodeSyswr (r : Raw) : Except Reject Instr :=
  let n : BitVec 10 := r.c 54 10
  own r ((sysregWidth n).isSome && r.c 44 10 == 0#10) <|
    r.regs none (some (.src (sysregRegs n))) none fun _ a _ => a.map (mkSyswr r.hdr n)

def TlbKind.code : TlbKind → BitVec 2
  | .page => 0#2
  | .asid => 1#2
  | .all => 2#2

def TlbKind.ofCode (c : BitVec 2) : TlbKind := if c = 0#2 then .page else if c = 1#2 then .asid else .all

def TlbKind.aPos : TlbKind → Option Pos
  | .page => some (.src 2)
  | _ => none

def TlbKind.bPos : TlbKind → Option Pos
  | .all => none
  | _ => some (.src 1)

def decodeTlbinv (r : Raw) : Except Reject Instr :=
  let k := TlbKind.ofCode (r.c 62 2)
  own r (r.c 62 2 != 3#2 && r.c 44 17 == 0#17) <|
    r.regs none k.aPos k.bPos fun _ a b => some (.tlbinv r.hdr k (r.cb 61) a b)

/-- `cwb` and `cinv` (R211): ALL at [63], L2 at [62]. -/
def decodeCwb (inv : Bool) (r : Raw) : Except Reject Instr :=
  own r (r.c 44 18 == 0#18 && (!r.cb 62 || (inv && !r.cb 63))) <|
    r.regs none (if r.cb 63 then none else some .gbase) none fun _ a _ =>
      some (if inv then .cinv r.hdr (r.cb 62) a else .cwb r.hdr a)

def StKind.code : StKind → BitVec 2
  | .handle => 0#2
  | .spad => 1#2
  | .global => 2#2

def StKind.ofCode (c : BitVec 2) : StKind := if c = 0#2 then .handle else if c = 1#2 then .spad else .global

/-- `sread` and `swrite` (R215), 96 bits long. -/
def decodeStorage (wr : Bool) (r : Raw) : Except Reject Instr :=
  if r.len != .w96 then .error .illegalOpcode else
  let k := StKind.ofCode (r.c 56 2)
  let vat := r.cb 55
  let h : BitVec 6 := r.ext.extractLsb' 18 6
  let t : BitVec 8 := r.ext.extractLsb' 24 8
  if (r.c 56 2 != 3#2 && r.c 44 9 == 0#9 && (!vat || !wr) && (!r.cb 53 || wr) && r.ext.extractLsb' 9 9 == 0#9 &&
      (k == .handle || h == 0#6) && (vat || t == 0#8)) = true then do
    let d ← Pos.readOpt r.u (if r.cb 54 then some (.dst 1) else none) r.d
    let a ← (Pos.src 2).read r.u r.a
    let b ← (Pos.src 1).read r.u r.b
    let c ← (Pos.src (if k = .global then 2 else 1)).read r.u (r.ext.extractLsb' 0 9)
    let x : StorageArg := { grant := r.c 58 6, kind := k, tmpl := if vat then some t else none, fua := r.cb 53, handle := h, d := d, a := a, b := b, c := c }
    return (if wr then .swrite r.hdr x else .sread r.hdr x)
  else .error .illegalModifier

def encodeStorage (op : BitVec 10) (h : Hdr) (x : StorageArg) : Raw :=
  h.raw op (Reg.codeOpt x.d) x.a.code x.b.code
    (x.grant ++ x.kind.code ++ BitVec.ofBool x.tmpl.isSome ++ BitVec.ofBool x.d.isSome ++ BitVec.ofBool x.fua ++ 0#9)
    (0#32 ++ (x.tmpl.getD 0#8 ++ x.handle ++ 0#9 ++ x.c.code))

def StorageArg.wf (wr : Bool) (h : Hdr) (x : StorageArg) : Bool :=
  h.len == .w96 && (x.tmpl.isNone || !wr) && (!x.fua || wr) && (x.kind == .handle || x.handle == 0#6) &&
  (x.d.isNone || Pos.okOpt h.u (some (.dst 1)) x.d) && (Pos.src 2).ok h.u x.a && (Pos.src 1).ok h.u x.b &&
  (Pos.src (if x.kind = .global then 2 else 1)).ok h.u x.c

def decodeNsend (r : Raw) : Except Reject Instr :=
  own r (r.c 44 12 == 0#12) <|
    r.regs (if r.cb 56 then some (.dst 1) else none) (some (.src 1)) (if r.cb 57 then none else some (.src 1)) fun d a b =>
      a.map fun a => .nsend r.hdr { ep := r.c 58 6, d := d, a := a, b := b }

/-- An OWN instruction with a zero CLASS below bit `lo` and no further rule for its modifiers. -/
def ownC (r : Raw) (w : Nat) (nou : Bool) (k : Except Reject Instr) : Except Reject Instr :=
  own r (r.cls.extractLsb' 0 w == 0#w && (!nou || !r.u)) k

/-- The opcodes of R86 with their decoders: control, integer, pixel. -/
def opTable1 : List (Nat × (Raw → Except Reject Instr)) :=
  [(0x001, fun r => ownC r 20 false (r.bare (.nop r.hdr))),
   (0x002, fun r => decodeBr r fun t => r.bare (.bra r.hdr t)),
   (0x003, fun r => decodeBr r fun t => do
      requireZero r.d
      let p ← readP .psrc r.a
      requireZero r.b
      return .brany r.hdr p t),
   (0x004, fun r => decodeBr r fun t => do
      requireZero r.d
      let p ← readP .psrc r.a
      requireZero r.b
      return .brall r.hdr p t),
   (0x005, fun r => decodeBr r fun t => r.regs (some (.dstS 2)) none none fun d _ _ => d.map fun d => .call r.hdr d t),
   (0x006, fun r => ownC r 20 false (r.regs none (some .target) none fun _ a _ => a.map (.ret r.hdr))),
   (0x007, fun r => own r true (r.regs none (some .target) none fun _ a _ => a.map fun a => .jmp r.hdr a r.cls)),
   (0x008, fun r => ownC r 20 true (r.bare (.exit r.hdr))),
   (0x009, fun r => ownC r 20 true (r.bare (.yield r.hdr))),
   (0x00A, decodeWait),
   (0x00B, decodeArith specPset .pset), (0x00C, decodeArith specPbin .pand), (0x00D, decodeArith specPbin .por),
   (0x00E, decodeArith specPbin .pxor), (0x00F, decodeArith specPnot .pnot)] ++
  [(0x040, decodeArith specIadd .iadd), (0x041, decodeArith specIadd .isub), (0x042, decodeArith specImul .imul),
   (0x043, decodeArith specImulhi .imulhi), (0x044, decodeArith specImad .imad), (0x045, decodeArith specImin .imin),
   (0x046, decodeArith specImin .imax), (0x047, decodeArith specIabs .iabs), (0x048, decodeArith specIabs .ineg),
   (0x049, decodeArith specAnd .and), (0x04A, decodeArith specAnd .or), (0x04B, decodeArith specAnd .xor),
   (0x04C, decodeArith specNot .not), (0x04D, decodeArith specAnd .andn)] ++
  [(0x04E, decodeArith specShl .shl), (0x04F, decodeArith specShl .shr), (0x050, decodeArith specSar .sar),
   (0x051, decodeArith specRol .rol), (0x052, decodeArith specRol .ror), (0x053, decodeArith specPopc .popc),
   (0x054, decodeArith specPopc .clz), (0x055, decodeArith specNot .brev), (0x056, decodeArith specBfe .bfe),
   (0x057, decodeArith specBfi .bfi), (0x058, decodeArith specSel .sel), (0x059, decodeArith specIcmp .icmp),
   (0x05A, decodeArith specLea .lea), (0x05B, decodeArith specNot .mov)] ++
  [(0x100, decodeArith specPxext .pxext), (0x101, decodeArith specPxins .pxins), (0x102, decodeArith specPxavg .pxavg),
   (0x103, decodeArith specPxabd .pxabd), (0x104, decodeArith specPxsad .pxsad), (0x105, decodeArith specPxclp .pxclp),
   (0x106, decodeArith specPxnrm .pxnrm), (0x107, decodeArith specPxdot .pxdot)]

/-- Floating point, conversion, cross-lane, memory. -/
def opTable2 : List (Nat × (Raw → Except Reject Instr)) :=
  [(0x140, decodeArith specFadd .fadd), (0x141, decodeArith specFadd .fsub), (0x142, decodeArith specFadd .fmul),
   (0x143, decodeArith specFfma .ffma), (0x144, decodeArith specFmin .fmin), (0x145, decodeArith specFmin .fmax),
   (0x146, decodeArith specFabs .fabs), (0x147, decodeArith specFabs .fneg), (0x148, decodeArith specFcmp .fcmp),
   (0x149, decodeArith specFclass .fclass), (0x14A, decodeArith specFrcp .frcp), (0x14B, decodeArith specFrcp .frsq),
   (0x14C, decodeArith specFrcp .fex2), (0x14D, decodeArith specFrcp .flg2), (0x14E, decodeArith specFrcp .fsin),
   (0x14F, decodeArith specFrcp .fcos)] ++
  [(0x1C0, decodeCvt false), (0x1C1, decodeCvt true),
   (0x200, decodeArith specShfl .shfl), (0x201, decodeArith specVote .vote), (0x202, decodeArith specBallot .ballot),
   (0x203, decodeArith (specRed false) .red), (0x204, decodeArith (specRed true) .scan)] ++
  [(0x240, decodeMem specLd .ld), (0x241, decodeMem specSt .st), (0x242, decodeMem specLds .lds),
   (0x243, decodeMem specSts .sts), (0x244, decodeMem specLdfe .ldfeKeep), (0x245, decodeMem specLdfe .ldfeClear),
   (0x246, decodeMem specStfe .stfeKeep), (0x247, decodeMem specStfe .stfeClear), (0x248, decodeMem specPref .pref),
   (0x249, decodeFence)] ++
  [(0x24A, decodeMem specAtom .atomAdd), (0x24B, decodeMem specAtom .atomMin), (0x24C, decodeMem specAtom .atomMax),
   (0x24D, decodeMem specAtom .atomAnd), (0x24E, decodeMem specAtom .atomOr), (0x24F, decodeMem specAtom .atomXor),
   (0x250, decodeMem specAtom .atomExch), (0x251, decodeMem specCas .atomCas)]

/-- Copies, handles, tensor identifiers, matrix, synchronisation. -/
def opTable3 : List (Nat × (Raw → Except Reject Instr)) :=
  [(0x2C0, decodeCpy false), (0x2C1, decodeCpy true), (0x2C2, decodeHwait), (0x2C3, decodeHset),
   (0x2C4, fun r => ownC r 14 false (r.bare (.hrel r.hdr (r.c 58 6)))),
   (0x2C5, fun r => ownC r 12 false (r.regs none (some (.src 2)) none fun _ a _ => a.map (.tset r.hdr (r.c 56 8)))),
   (0x2C6, fun r => ownC r 12 false (r.regs none (some (.src 2)) none fun _ a _ => a.map (.tget r.hdr (r.c 56 8)))),
   (0x2C7, fun r => ownC r 12 false (r.bare (.tinv r.hdr (r.c 56 8)))),
   (0x300, decodeMxb), (0x301, decodeMxa),
   (0x302, fun r => ownC r 20 false (r.bare (.mxfence r.hdr))),
   (0x303, fun r => ownC r 14 false (r.bare (.mxwait r.hdr (r.c 58 6)))),
   (0x304, decodeDrain false), (0x305, decodeDrain true),
   (0x306, fun r => own r (r.c 55 9 == 0#9 && r.c 44 9 == 0#9 && !(r.cb 54 && r.cb 53)) (r.bare (.mxzero r.hdr (r.cb 54) (r.cb 53))))] ++
  [(0x320, fun r => ownC r 20 true (r.bare (.barG r.hdr))),
   (0x321, decodeBar true none fun r l n d _ => some (.barArr r.hdr l n d)),
   (0x322, decodeBar false (some (.src 1)) fun r l n _ a => a.map (.barWait r.hdr l n)),
   (0x323, decodeBar false none fun r l n _ _ => some (.barSync r.hdr l n)),
   (0x324, fun r => ownC r 15 false (r.regs none (some (.src 2)) none fun _ a _ => a.map (.sbcast r.hdr (r.c 60 4) (r.cb 59)))),
   (0x325, fun r => ownC r 16 false (r.regs (some (.dstVS false)) none none fun d _ _ => d.map (.sbrecv r.hdr (r.c 60 4)))),
   (0x326, fun r => ownC r 17 false (r.regs none (some (.src 1)) none fun _ a _ => a.map (.chsend r.hdr (r.c 61 3)))),
   (0x327, fun r => ownC r 17 false (r.regs none (some (.src 1)) none fun _ a _ => a.map (.chrecv r.hdr (r.c 61 3)))),
   (0x328, fun r => ownC r 19 false (r.regs none (some .gbase) (some (.src 2)) fun _ a b => a.bind fun a => b.map (.mbput r.hdr (r.cb 63) a))),
   (0x329, fun r => ownC r 19 false (r.regs (some (.dst 2)) (some .gbase) none fun d a _ => d.bind fun d => a.map (.mbget r.hdr (r.cb 63) d)))] ++
  [(0x32A, fun r => ownC r 19 false (r.regs (some (.dst 1)) (some (.src 2)) (some (.src 2)) fun d a b =>
      d.bind fun d => a.bind fun a => b.map (.dirins r.hdr (r.cb 63) d a))),
   (0x32B, fun r => ownC r 20 false (r.regs none (some (.src 1)) none fun _ a _ => a.map (.dirdel r.hdr))),
   (0x32C, fun r => ownC r 20 false (r.regs (some (.dst 1)) (some (.src 1)) (some (.src 1)) fun d a b =>
      d.bind fun d => a.bind fun a => b.map (.tmove r.hdr d a))),
   (0x32D, fun r => own r (r.c 61 3 != 7#3 && r.c 44 17 == 0#17) (r.regs (some (.dst 1)) (some .sFour) none fun d a _ =>
      match d, a with
      | some d, some (.s k) => some (.solicit r.hdr (r.c 61 3) d k)
      | _, _ => none)),
   (0x32E, fun r => ownC r 20 false (r.regs none (some (.src 2)) none fun _ a _ => a.map (.reply r.hdr))),
   (0x32F, fun r => ownC r 20 false (r.regs (some (.dst 2)) (some (.src 1)) none fun d a _ => d.bind fun d => a.map (.census r.hdr d))),
   (0x330, fun r => ownC r 20 false (r.regs (some .pdst) (some (.src 1)) none fun d a _ =>
      match d, a with
      | some (.p n), some a => some (.cenpoll r.hdr n a)
      | _, _ => none)),
   (0x331, fun r => ownC r 20 false (r.regs none (some (.src 1)) (some (.src 1)) fun _ a b => a.bind fun a => b.map (.nrec r.hdr a)))]

/-- System, I/O and debug. -/
def opTable4 : List (Nat × (Raw → Except Reject Instr)) :=
  [(0x360, fun r => ownC r 4 true (r.bare (.sys r.hdr (r.c 48 16)))),
   (0x361, fun r => ownC r 20 true (r.regs (some (.vOnly 16)) none none fun d _ _ =>
      match d with
      | some (.v n) => some (.svqpop r.hdr n)
      | _ => none)),
   (0x362, fun r => ownC r 20 true (r.regs none (some (.vOnly 2)) (some (.src 2)) fun _ a b => a.bind fun a => b.map (.sysret r.hdr a))),
   (0x363, fun r => ownC r 20 true (r.bare (.iret r.hdr))),
   (0x364, decodeSysrd), (0x365, decodeSyswr), (0x366, decodeTlbinv), (0x367, decodeCwb false), (0x368, decodeCwb true),
   (0x369, fun r => ownC r 20 false (r.regs (some (.dst 1)) (some (.src 2)) none fun d a _ => d.bind fun d => a.map (.launch r.hdr d))),
   (0x36A, fun r => ownC r 20 true (r.bare (.halt r.hdr))),
   (0x36B, fun r => ownC r 19 false (r.regs none (some (.src 2)) none fun _ a _ => a.map (.tmset r.hdr (r.cb 63))))] ++
  [(0x36C, decodeStorage false), (0x36D, decodeStorage true), (0x36E, decodeNsend),
   (0x36F, fun r => ownC r 20 false (r.regs (some (.dst 1)) (some (.src 2)) (some (.src 1)) fun d a b =>
      d.bind fun d => a.bind fun a => b.map (.nrecv r.hdr d a))),
   (0x3B0, fun r => ownC r 4 true (r.bare (.brk r.hdr (r.c 48 16)))),
   (0x3B1, fun r => ownC r 18 true (r.bare (.dbgret r.hdr (r.cb 63) (r.cb 62))))]

/-- Look an opcode up; an opcode that R86 does not list is unassigned. -/
def opFind : List (Nat × (Raw → Except Reject Instr)) → Nat → Raw → Option (Except Reject Instr)
  | [], _, _ => none
  | (k, f) :: t, n, r => if k = n then some (f r) else opFind t n r

/-- Decode the fields, in the order of R88: the NOP guard of R67, then opcode, modifier and operand. -/
def decodeRaw (r : Raw) : Except Reject Instr :=
  if r.gp = 7#3 ∧ r.gn = true then .ok (.nop r.hdr) else
  match opFind (opTable1 ++ opTable2 ++ opTable3 ++ opTable4) r.op.toNat r with
  | some x => x
  | none => .error .illegalOpcode

/-- What a fetched quad of words is: a pad word (R61), an encoding rejected with a cause, an instruction. -/
inductive Fetched where
  | pad
  | bad (r : Reject)
  | ok (i : Instr) (len : Len)
  deriving DecidableEq, Repr

/-- R59: the length of the instruction whose first word is `w`; none for any word of length code 0b00. -/
def lenOf (w : Word) : Option Len := Len.ofBits (w.extractLsb' 0 2)

def padWord : Word := 0xFFFFFFFC#32

/-- Decode the instruction at the low end of a quad (R59, R63). -/
def decodeQuad (w : Quad) : Fetched :=
  match lenOf (w.extractLsb' 0 32) with
  | none => if w.extractLsb' 0 32 = padWord then .pad else .bad .illegalOpcode
  | some l =>
    match decodeRaw (Raw.unpack l w) with
    | .ok i => .ok i l
    | .error e => .bad e

/-- The value of bytes stored little-endian (R8). -/
def leNat : List Byte → Nat
  | [] => 0
  | b :: t => b.toNat + 256 * leNat t

def leBytes (n : Nat) : Nat → List Byte
  | 0 => []
  | k + 1 => BitVec.ofNat 8 n :: leBytes (n / 256) k

def decodeBytes (bs : List Byte) : Fetched := decodeQuad (BitVec.ofNat 128 (leNat bs))

-- The encoder: the words of a well-formed instruction, from the same tables

def arrCls (arr : Option (BitVec 4)) : BitVec 5 :=
  match arr with
  | some k => 1#1 ++ k
  | none => 0#5

def Fin8.pcode (p : Fin 8) : BitVec 9 := (Reg.p p).code

def encodeCopy (op : BitVec 10) (h : Hdr) (x : CopyArg) : Raw :=
  h.raw op (Reg.codeOpt x.d) x.a.code (Reg.codeOpt x.b) (x.tmpl ++ x.handle ++ x.chan ++ BitVec.ofBool x.d.isSome ++ 0#1) 0#64

def encodeBar (op : BitVec 10) (h : Hdr) (l : BitVec 2) (n : BitVec 6) (d : Option Reg) (a : BitVec 9) : Raw :=
  h.raw op (Reg.codeOpt d) a 0#9 (l ++ n ++ BitVec.ofBool d.isSome ++ 0#11) 0#64

def encodeWr (h : Hdr) (n : BitVec 10) (a : Reg) : Raw := h.raw 0x365#10 0#9 a.code 0#9 (n ++ 0#10) 0#64

/-- The raw form of a control or computing instruction. -/
def encodeA : Instr → Option Raw
  | .nop h => some (h.raw 0x001#10 0#9 0#9 0#9 0#20 0#64)
  | .bra h t => some (encodeBr 0x002#10 h 0#9 0#9 t)
  | .brany h p t => some (encodeBr 0x003#10 h 0#9 (Fin8.pcode p) t)
  | .brall h p t => some (encodeBr 0x004#10 h 0#9 (Fin8.pcode p) t)
  | .call h d t => some (encodeBr 0x005#10 h d.code 0#9 t)
  | .ret h a => some (h.raw 0x006#10 0#9 a.code 0#9 0#20 0#64)
  | .jmp h a off => some (h.raw 0x007#10 0#9 a.code 0#9 off 0#64)
  | .exit h => some (h.raw 0x008#10 0#9 0#9 0#9 0#20 0#64)
  | .yield h => some (h.raw 0x009#10 0#9 0#9 0#9 0#20 0#64)
  | .wait h ld st cp tl => some (h.raw 0x00A#10 0#9 0#9 (0#3 ++ tl) (ld ++ st ++ cp ++ 0#2) 0#64)
  | .pset h x => some (encodeArith 0x00B#10 1 h x)
  | .pand h x => some (encodeArith 0x00C#10 2 h x)
  | .por h x => some (encodeArith 0x00D#10 2 h x)
  | .pxor h x => some (encodeArith 0x00E#10 2 h x)
  | .pnot h x => some (encodeArith 0x00F#10 1 h x)
  | .iadd h x => some (encodeArith 0x040#10 2 h x)
  | .isub h x => some (encodeArith 0x041#10 2 h x)
  | .imul h x => some (encodeArith 0x042#10 2 h x)
  | .imulhi h x => some (encodeArith 0x043#10 2 h x)
  | .imad h x => some (encodeArith 0x044#10 3 h x)
  | .imin h x => some (encodeArith 0x045#10 2 h x)
  | .imax h x => some (encodeArith 0x046#10 2 h x)
  | .iabs h x => some (encodeArith 0x047#10 1 h x)
  | .ineg h x => some (encodeArith 0x048#10 1 h x)
  | .and h x => some (encodeArith 0x049#10 2 h x)
  | .or h x => some (encodeArith 0x04A#10 2 h x)
  | .xor h x => some (encodeArith 0x04B#10 2 h x)
  | .not h x => some (encodeArith 0x04C#10 1 h x)
  | .andn h x => some (encodeArith 0x04D#10 2 h x)
  | .shl h x => some (encodeArith 0x04E#10 2 h x)
  | .shr h x => some (encodeArith 0x04F#10 2 h x)
  | .sar h x => some (encodeArith 0x050#10 2 h x)
  | .rol h x => some (encodeArith 0x051#10 2 h x)
  | .ror h x => some (encodeArith 0x052#10 2 h x)
  | .popc h x => some (encodeArith 0x053#10 1 h x)
  | .clz h x => some (encodeArith 0x054#10 1 h x)
  | .brev h x => some (encodeArith 0x055#10 1 h x)
  | .bfe h x => some (encodeArith 0x056#10 2 h x)
  | .bfi h x => some (encodeArith 0x057#10 3 h x)
  | .sel h x => some (encodeArith 0x058#10 3 h x)
  | .icmp h x => some (encodeArith 0x059#10 2 h x)
  | .lea h x => some (encodeArith 0x05A#10 2 h x)
  | .mov h x => some (encodeArith 0x05B#10 1 h x)
  | .pxext h x => some (encodeArith 0x100#10 2 h x)
  | .pxins h x => some (encodeArith 0x101#10 3 h x)
  | .pxavg h x => some (encodeArith 0x102#10 2 h x)
  | .pxabd h x => some (encodeArith 0x103#10 2 h x)
  | .pxsad h x => some (encodeArith 0x104#10 3 h x)
  | .pxclp h x => some (encodeArith 0x105#10 3 h x)
  | .pxnrm h x => some (encodeArith 0x106#10 3 h x)
  | .pxdot h x => some (encodeArith 0x107#10 3 h x)
  | .fadd h x => some (encodeArith 0x140#10 2 h x)
  | .fsub h x => some (encodeArith 0x141#10 2 h x)
  | .fmul h x => some (encodeArith 0x142#10 2 h x)
  | .ffma h x => some (encodeArith 0x143#10 3 h x)
  | .fmin h x => some (encodeArith 0x144#10 2 h x)
  | .fmax h x => some (encodeArith 0x145#10 2 h x)
  | .fabs h x => some (encodeArith 0x146#10 1 h x)
  | .fneg h x => some (encodeArith 0x147#10 1 h x)
  | .fcmp h x => some (encodeArith 0x148#10 2 h x)
  | .fclass h x => some (encodeArith 0x149#10 1 h x)
  | .frcp h x => some (encodeArith 0x14A#10 1 h x)
  | .frsq h x => some (encodeArith 0x14B#10 1 h x)
  | .fex2 h x => some (encodeArith 0x14C#10 1 h x)
  | .flg2 h x => some (encodeArith 0x14D#10 1 h x)
  | .fsin h x => some (encodeArith 0x14E#10 1 h x)
  | .fcos h x => some (encodeArith 0x14F#10 1 h x)
  | .cvt h x => some (encodeCvt 0x1C0#10 h x)
  | .cvpk h x => some (encodeCvt 0x1C1#10 h x)
  | .shfl h x => some (encodeArith 0x200#10 2 h x)
  | .vote h x => some (encodeArith 0x201#10 1 h x)
  | .ballot h x => some (encodeArith 0x202#10 1 h x)
  | .red h x => some (encodeArith 0x203#10 1 h x)
  | .scan h x => some (encodeArith 0x204#10 1 h x)
  | _ => none

/-- The raw form of a memory, engine, synchronisation, system or debug instruction. -/
def encodeB : Instr → Option Raw
  | .ld h m => some (encodeMem 0x240#10 h m)
  | .st h m => some (encodeMem 0x241#10 h m)
  | .lds h m => some (encodeMem 0x242#10 h m)
  | .sts h m => some (encodeMem 0x243#10 h m)
  | .ldfeKeep h m => some (encodeMem 0x244#10 h m)
  | .ldfeClear h m => some (encodeMem 0x245#10 h m)
  | .stfeKeep h m => some (encodeMem 0x246#10 h m)
  | .stfeClear h m => some (encodeMem 0x247#10 h m)
  | .pref h m => some (encodeMem 0x248#10 h m)
  | .fence h sc o => some (h.raw 0x249#10 0#9 0#9 0#9 (0#3 ++ sc.code ++ o.code ++ 0#12) 0#64)
  | .atomAdd h m => some (encodeMem 0x24A#10 h m)
  | .atomMin h m => some (encodeMem 0x24B#10 h m)
  | .atomMax h m => some (encodeMem 0x24C#10 h m)
  | .atomAnd h m => some (encodeMem 0x24D#10 h m)
  | .atomOr h m => some (encodeMem 0x24E#10 h m)
  | .atomXor h m => some (encodeMem 0x24F#10 h m)
  | .atomExch h m => some (encodeMem 0x250#10 h m)
  | .atomCas h m => some (encodeMem 0x251#10 h m)
  | .cpy h x => some (encodeCopy 0x2C0#10 h x)
  | .cpyMc h x => some (encodeCopy 0x2C1#10 h x)
  | .hwaitFull h d n => some (h.raw 0x2C2#10 d.code 0#9 0#9 (n ++ 0#2 ++ 0#12) 0#64)
  | .hwaitEmpty h d n => some (h.raw 0x2C2#10 d.code 0#9 0#9 (n ++ 1#2 ++ 0#12) 0#64)
  | .hsetBind h n e a b => some (h.raw 0x2C3#10 0#9 a.code b.code (n ++ e ++ 0#2 ++ 0#4) 0#64)
  | .hsetFull h n => some (h.raw 0x2C3#10 0#9 0#9 0#9 (n ++ 0#8 ++ 1#2 ++ 0#4) 0#64)
  | .hrel h n => some (h.raw 0x2C4#10 0#9 0#9 0#9 (n ++ 0#14) 0#64)
  | .tset h t a => some (h.raw 0x2C5#10 0#9 a.code 0#9 (t ++ 0#12) 0#64)
  | .tget h t a => some (h.raw 0x2C6#10 0#9 a.code 0#9 (t ++ 0#12) 0#64)
  | .tinv h t => some (h.raw 0x2C7#10 0#9 0#9 0#9 (t ++ 0#12) 0#64)
  | .mxb h t bb arr a => some (h.raw 0x300#10 0#9 a.code 0#9 (t ++ BitVec.ofBool bb ++ 0#2 ++ arrCls arr ++ 0#4) 0#64)
  | .mxa h t bb bank arr (.spad a) =>
    some (h.raw 0x301#10 0#9 a.code 0#9 (t ++ BitVec.ofBool bb ++ BitVec.ofBool bank ++ 0#1 ++ arrCls arr ++ 0#4) 0#64)
  | .mxa h t bb bank arr (.regs q w vb) =>
    some (h.raw 0x301#10 0#9 0#9 (Reg.v vb).code
      (t ++ BitVec.ofBool bb ++ BitVec.ofBool bank ++ 1#1 ++ arrCls arr ++ q ++ BitVec.ofBool w ++ 0#1) 0#64)
  | .mxfence h => some (h.raw 0x302#10 0#9 0#9 0#9 0#20 0#64)
  | .mxwait h n => some (h.raw 0x303#10 0#9 0#9 0#9 (n ++ 0#14) 0#64)
  | .mxdrain h t bank z a => some (h.raw 0x304#10 0#9 a.code 0#9 (t ++ 0#1 ++ BitVec.ofBool bank ++ BitVec.ofBool z ++ 0#9) 0#64)
  | .mxdrainAdd h t bank z a => some (h.raw 0x305#10 0#9 a.code 0#9 (t ++ 0#1 ++ BitVec.ofBool bank ++ BitVec.ofBool z ++ 0#9) 0#64)
  | .mxzero h bank raw => some (h.raw 0x306#10 0#9 0#9 0#9 (0#9 ++ BitVec.ofBool bank ++ BitVec.ofBool raw ++ 0#9) 0#64)
  | .barG h => some (h.raw 0x320#10 0#9 0#9 0#9 0#20 0#64)
  | .barArr h l n d => some (encodeBar 0x321#10 h l n d 0#9)
  | .barWait h l n a => some (encodeBar 0x322#10 h l n none a.code)
  | .barSync h l n => some (encodeBar 0x323#10 h l n none 0#9)
  | .sbcast h n rel a => some (h.raw 0x324#10 0#9 a.code 0#9 (n ++ BitVec.ofBool rel ++ 0#15) 0#64)
  | .sbrecv h n d => some (h.raw 0x325#10 d.code 0#9 0#9 (n ++ 0#16) 0#64)
  | .chsend h n a => some (h.raw 0x326#10 0#9 a.code 0#9 (n ++ 0#17) 0#64)
  | .chrecv h n a => some (h.raw 0x327#10 0#9 a.code 0#9 (n ++ 0#17) 0#64)
  | .mbput h t a b => some (h.raw 0x328#10 0#9 a.code b.code (BitVec.ofBool t ++ 0#19) 0#64)
  | .mbget h t d a => some (h.raw 0x329#10 d.code a.code 0#9 (BitVec.ofBool t ++ 0#19) 0#64)
  | .dirins h pin d a b => some (h.raw 0x32A#10 d.code a.code b.code (BitVec.ofBool pin ++ 0#19) 0#64)
  | .dirdel h a => some (h.raw 0x32B#10 0#9 a.code 0#9 0#20 0#64)
  | .tmove h d a b => some (h.raw 0x32C#10 d.code a.code b.code 0#20 0#64)
  | .solicit h c d k => some (h.raw 0x32D#10 d.code (Reg.s k).code 0#9 (c ++ 0#17) 0#64)
  | .reply h a => some (h.raw 0x32E#10 0#9 a.code 0#9 0#20 0#64)
  | .census h d a => some (h.raw 0x32F#10 d.code a.code 0#9 0#20 0#64)
  | .cenpoll h p a => some (h.raw 0x330#10 (Fin8.pcode p) a.code 0#9 0#20 0#64)
  | .nrec h a b => some (h.raw 0x331#10 0#9 a.code b.code 0#20 0#64)
  | .sys h n => some (h.raw 0x360#10 0#9 0#9 0#9 (n ++ 0#4) 0#64)
  | .svqpop h d => some (h.raw 0x361#10 (Reg.v d).code 0#9 0#9 0#20 0#64)
  | .sysret h a b => some (h.raw 0x362#10 0#9 a.code b.code 0#20 0#64)
  | .iret h => some (h.raw 0x363#10 0#9 0#9 0#9 0#20 0#64)
  | .sysrd h n d => some (h.raw 0x364#10 d.code 0#9 0#9 (n ++ 0#10) 0#64)
  | .trapqPop h d => some (h.raw 0x364#10 d.code 0#9 0#9 (0x022#10 ++ 0#10) 0#64)
  | .syswr h n a => some (encodeWr h n a)
  | .trapretWrite h a => some (encodeWr h 0x00F#10 a)
  | .ipiWrite h a => some (encodeWr h 0x01C#10 a)
  | .wdogWrite h a => some (encodeWr h 0x013#10 a)
  | .smapStageWrite h a => some (encodeWr h 0x071#10 a)
  | .oemodeWrite h a => some (encodeWr h 0x07C#10 a)
  | .laneCounterClear h cw a => some (encodeWr h (if cw then 0x079#10 else 0x078#10) a)
  | .tlbinv h k g a b => some (h.raw 0x366#10 0#9 (Reg.codeOpt a) (Reg.codeOpt b) (k.code ++ BitVec.ofBool g ++ 0#17) 0#64)
  | .cwb h a => some (h.raw 0x367#10 0#9 (Reg.codeOpt a) 0#9 (BitVec.ofBool a.isNone ++ 0#1 ++ 0#18) 0#64)
  | .cinv h l2 a => some (h.raw 0x368#10 0#9 (Reg.codeOpt a) 0#9 (BitVec.ofBool a.isNone ++ BitVec.ofBool l2 ++ 0#18) 0#64)
  | .launch h d a => some (h.raw 0x369#10 d.code a.code 0#9 0#20 0#64)
  | .halt h => some (h.raw 0x36A#10 0#9 0#9 0#9 0#20 0#64)
  | .tmset h rel a => some (h.raw 0x36B#10 0#9 a.code 0#9 (BitVec.ofBool rel ++ 0#19) 0#64)
  | .sread h x => some (encodeStorage 0x36C#10 h x)
  | .swrite h x => some (encodeStorage 0x36D#10 h x)
  | .nsend h x =>
    some (h.raw 0x36E#10 (Reg.codeOpt x.d) x.a.code (Reg.codeOpt x.b) (x.ep ++ BitVec.ofBool x.b.isNone ++ BitVec.ofBool x.d.isSome ++ 0#12) 0#64)
  | .nrecv h d a b => some (h.raw 0x36F#10 d.code a.code b.code 0#20 0#64)
  | .brk h n => some (h.raw 0x3B0#10 0#9 0#9 0#9 (n ++ 0#4) 0#64)
  | .dbgret h ov ss => some (h.raw 0x3B1#10 0#9 0#9 0#9 (BitVec.ofBool ov ++ BitVec.ofBool ss ++ 0#18) 0#64)
  | _ => none

/-- The raw form of an issued instruction; an event has none. -/
def encodeRaw (i : Instr) : Option Raw := (encodeA i).or (encodeB i)

/-- The quad that holds an issued instruction, bits above its length zero. -/
def encode (i : Instr) : Option Quad := (encodeRaw i).map Raw.pack

/-- The instruction read from bits `w`, numbered as the opcode table numbers them, from their bytes in
memory order (R59). -/
def decodeTableWord (nbits w : Nat) : Option Instr :=
  match decodeBytes (leBytes (w % 2 ^ nbits) 16) with
  | .ok i _ => some i
  | _ => none

end Sys2Proof
end

