-- ==== Sys2Proof/Config.lean ====
section
/-! DEFINITION. What the specification leaves open: every constant here is opaque and has no body, so
nothing can be proved of its value. -/

namespace Sys2Proof.Config

/-- UNVERIFIED (log 1): latencies the spec does not state exactly (R240, R242), one per use of the
state's counter `fresh`. -/
opaque freeLatency : Nat → Nat

/-- UNVERIFIED (log 7): candidate results of the approximations of R133, one per function and operand.
The meaning keeps a candidate only inside the bound that R133 sets where the bound is checkable. -/
opaque frcpFree : Word → Word
opaque frsqFree : Word → Word
opaque fex2Free : Word → Word
opaque flg2Free : Word → Word
opaque fsinFree : Word → Word
opaque fcosFree : Word → Word

/-- A memory-encryption key (R345): one that was loaded into its slot, by its value, or the random key of a boot, by number. -/
inductive Key where
  | loaded (value : BitVec 512)
  | random (boot : Nat)
  deriving DecidableEq, Repr, Inhabited

/-- UNVERIFIED (log 3): a byte of a sector read under a key other than the one that wrote it (R225): the
writing key, the reading key, and the physical address of the byte. -/
opaque wrongKeyByte : Key → Key → Nat → Byte → Byte

/-- UNVERIFIED (log 8): whether the XMSS signature in an image's bytes verifies under Orelamar's key (R341). -/
opaque xmssVerifies : List Byte → Bool
/-- UNVERIFIED (log 8): what the SRAM PUF answers, and the identity seed that it gives with the helper data of the flash (R344). -/
opaque puf : List Byte
opaque identitySeed : List Byte → List Byte → List Byte
/-- UNVERIFIED (log 8): the public keys of the identity and the attestation key that a seed yields (R344). -/
opaque identityPublic : List Byte → List Byte
opaque attestPublic : List Byte → List Byte
/-- UNVERIFIED (log 8): the signatures of the two keys of a seed, for an index and a message, byte by byte (R344, R346). -/
opaque identitySignature : List Byte → Nat → List Byte → Nat → Byte
opaque xmssSignature : List Byte → Nat → List Byte → Nat → Byte

/-- UNVERIFIED (log 40): the layout of an image header is not stated (R341, R343, R351): of an image's bytes, its kind (0 stage 1,
1 firmware, 2 kernel), length and 32-bit version, and of a kernel's header ENTRY, PTROOT and REGS. -/
opaque imageKind : List Byte → Nat
opaque imageLength : List Byte → Nat
opaque imageVersion : List Byte → Word
opaque kernelEntry : List Byte → Nat
opaque kernelPtroot : List Byte → Nat
opaque kernelRegs : List Byte → Nat

/-- UNVERIFIED (log 9): the CRC-32 of a flit's first 248 bytes (R317); its polynomial is not stated. -/
opaque crc32 : List Byte → Word

/-- A message of a memory flit between two devices (R320): a request to the owner of a page, under a key slot, or the answer
to the oldest request that is outstanding. -/
inductive PeerMsg where
  | answer (failed : Bool) (data : List Byte)
  | read (pa len key : Nat)
  | write (pa key : Nat) (bytes : List Byte)
  | atomic (pa len key op : Nat) (b c : Dword)
  deriving DecidableEq, Repr, Inhabited

/-- UNVERIFIED (log 32): the layout of a flit's payload is not stated (R317): the bytes that the payload of a KIND has for a message, and
what the payloads of the KINDs say: memory, control (a SEQ to be sent again, or a lane that leaves), gang (which message, GANGID,
device, code). -/
opaque flitPayload : Nat → List Byte → Nat → Byte
opaque peerMessage : List Byte → PeerMsg
opaque controlMessage : List Byte → Option (Bool × Nat)
opaque gangMessage : List Byte → Nat × Dword × Nat × Byte

/-- UNVERIFIED (log 57): the 32-byte sector of HBM, if any, that an uncorrectable error strikes in a cycle (R148). -/
opaque sectorFails : Nat → Option Nat

/-- UNVERIFIED (log 33): the bytes of an engine save area, whose layout is not stated (R245): by the state's counter, and the place. -/
opaque engSaveByte : Nat → Nat → Byte

/-- UNVERIFIED (log 83): the position of a matrix engine's deterministic-timing switch (R6), by cluster; nothing in the spec moves it. -/
opaque detSwitch : Nat → Bool

/-- UNVERIFIED (log 84): the namespaces behind the root ports (R328), by port, controller and namespace: whether the LBA size is 4,096 bytes,
and the number of blocks; and the bytes they hold before the package writes them. -/
opaque drive : Nat → Option (Bool × Nat)
opaque driveByte : Nat → Nat → Byte

/-- UNVERIFIED (log 10): which line a full cache gives up, by the state's counter. -/
opaque freeVictim : Nat → Nat

/-- UNVERIFIED (log 10): which of two allowed outcomes holds where an engine reads bytes that are written
meanwhile, and other choices the spec leaves free, by the state's counter. -/
opaque freeChoice : Nat → Bool

end Sys2Proof.Config
end

