-- ==== Sys2Proof/Machine/State.lean ====
section
/-! DEFINITION. The state of the ODL-D4 package: every piece of state that the chapters of spec/ give the
machine, as plain data, and the state after reset. INVENTORY.md lists each field with its rule. -/

namespace Sys2Proof.Machine

/-- Sparse data by key: keys rising, found by `find` of Ops. -/
abbrev SMap (α : Type) := List (Nat × α)

/-- The causes of R208. -/
inductive Cause where
  | illegalOpcode | illegalModifier | illegalOperand | privilege | illegalConvergence | misaligned | watch
  | pageNotPresent | permission | memtype | peerGone | swizzleMismatch | operandEncoding | busError | eccUncorrectable
  | fpInvalid | fpDivzero | fpOverflow | fpUnderflow | fpInexact
  | syscall | brk | censusTimeout | gangIncomplete | barrierTimeout | watchdog
  deriving DecidableEq, Repr

/-- Why a run waits; the classes of R337 and what ends the wait. -/
inductive Why where
  /-- a memory or engine result is still to be written (R355) -/
  | score
  /-- an outstanding-operation counter stands at 63 (R76): 0 LD, 1 ST, 2 CP, 3 TL -/
  | counter (n : Nat)
  /-- an earlier access must be performed first (R155, R230) -/
  | order
  /-- the replay window to a queue is full (R290): the channel is named by its key -/
  | window (key : Nat)
  /-- memory operations must complete -/
  | ops
  /-- a release must complete (R228) -/
  | release
  /-- `wait` on the counters (R107) -/
  | counters
  | barrier
  | channel
  | mailbox
  | handle
  | engine
  | census
  | event
  deriving DecidableEq, Repr

/-- A wait in progress (R22, R179): the instruction that goes on with it in each cycle (none: the run issues again), its `lanes`,
the release and operations awaited, the barrier token (R187), the time waited and a cycle to wait for. -/
structure Wait where
  why : Why
  ins : Option Instr
  lanes : Lanes
  rel : Option Nat
  ops : List Nat
  tok : Option Word
  waited : Nat
  endCc : Nat
  deriving DecidableEq, Repr

/-- The run states of R22. A stalled run names the register writes it awaits (R355), a parked run holds the tag of
its fault record. -/
inductive RunSt where
  | ready
  | stalled (ids : List Nat)
  | waiting (w : Wait)
  | faultParked (tag : Nat)
  | syscallParked
  deriving DecidableEq, Repr

/-- A run of the PC table (R22, R24). -/
structure Run where
  lanes : Lanes
  pc : Pc
  st : RunSt
  stamp : Nat
  deriving DecidableEq, Repr

/-- A trap that is due before the group's next issue (R45, R148, R199, R295). -/
structure PendTrap where
  cause : Cause
  mask : Lanes
  /-- SYS.TRAPPC; none: the picked run's PC -/
  pc : Option Pc
  /-- SYS.TRAPNPC; none: the picked run's PC -/
  npc : Option Pc
  addr : Dword
  /-- may be taken while INTRAP = 1 (R148) -/
  inTrap : Bool
  /-- the lanes that enter the handler; none: the picked run -/
  run : Option Lanes
  /-- SYS.TRAPCAUSE.OTHER (R294) -/
  other : Bool
  deriving DecidableEq, Repr

/-- A register write that the scoreboard holds pending (R355, R336). -/
structure Busy where
  id : Nat
  code : Nat
  lanes : Lanes
  pc : Pc
  /-- source code of R336 -/
  src : Nat
  due : Nat
  /-- number of the group's issue that makes it (R24, R336) -/
  seq : Nat
  deriving DecidableEq, Repr

/-- A matrix command issued by a group and the error it recorded (R176, R177). -/
structure MxCmd where
  entry : Nat
  pc : Pc
  complete : Bool
  err : Option Cause
  deriving DecidableEq, Repr

/-- The trap registers (R206, R208, R209). -/
structure TrapRegs where
  cause : Word
  pc : Dword
  npc : Dword
  mask : Dword
  run : Dword
  addr : Dword
  deriving DecidableEq, Repr

/-- What started a group (R21, R35, R273, R289). -/
inductive Kind where
  | super
  | role
  | responder (census : Nat) (answered : Bool)
  | node
  deriving DecidableEq, Repr

/-- Where a group stands and what it is (R12 to R16, R19, R24, R30, R35). -/
structure GInfo where
  kind : Kind
  ctx : Nat
  core : Nat
  part : Nat
  place : Nat
  wg : Nat
  launch : Nat
  role : Nat
  width : Nat
  budget : Nat
  fair : Nat
  prio : Nat
  /-- the work identifier of lane 0, and whether the group has one (R19, R21) -/
  wid : Option Dword
  deriving DecidableEq, Repr

/-- The scheduling state of a group (R27, R30, R31, R296, R308, R332). -/
structure GSched where
  resident : Bool
  active : Bool
  /-- the cycle in which a parked group has returned (R31) -/
  ret : Option Nat
  age : Nat
  /-- eligible and unselected since (R30) -/
  elig : Option Nat
  promoted : Bool
  /-- held for pre-emption (R308) -/
  held : Bool
  trapped : Bool
  /-- a supervisor group stopped under R299 -/
  stopped : Bool
  streak : Nat
  issues : Nat
  /-- address of the last instruction issued (R337) -/
  lastPc : Pc
  /-- `dbgret`: the instruction that lanes run once without watchpoints; the next issue runs without breakpoints, and stops
  after it (R220, R333) -/
  noWatch : List (Lanes × Pc)
  noBp : Bool
  stepping : Bool
  deriving DecidableEq, Repr

/-- The registers a program names (R18, R69) and the counters (R76). -/
structure GRegs where
  v : SMap Word
  o : SMap Word
  l : SMap Dword
  s : SMap Dword
  p : SMap Lanes
  ld : Nat
  st : Nat
  cp : Nat
  tl : Nat
  deriving DecidableEq, Repr

/-- The hardware shadow of a stop (R332): trap registers, INTRAP, the PC at which the halted run stopped, and its lanes that were not READY,
as runs. -/
structure Shadow where
  trap : TrapRegs
  intrap : Bool
  npc : Pc
  runs : List Run
  deriving DecidableEq, Repr

/-- The per-group system registers (R34, R43, R44, R206 to R209). -/
structure GSys where
  escapes : Nat
  uniformViolation : Bool
  fpctl : Word
  fpstat : Word
  debug : Bool
  intrap : Bool
  pie : Bool
  ie : Bool
  trap : TrapRegs
  trapvec : Dword
  shadow : Option Shadow
  /-- the barrier wait that a handler interrupted, and its address (R187) -/
  saved : Option (Pc × Wait)
  deriving DecidableEq, Repr

structure Group where
  info : GInfo
  sched : GSched
  runs : List Run
  regs : GRegs
  sys : GSys
  pend : List PendTrap
  busy : List Busy
  cmds : List MxCmd
  /-- last sequence count received per broadcast slot (R188) -/
  bseq : SMap Word
  deriving DecidableEq, Repr

/-- A workgroup (R13, R14, R36, R282). -/
structure Workgroup where
  ctx : Nat
  core : Nat
  launch : Nat
  team : Nat
  member : Nat
  /-- core and workgroup of each member of the team -/
  members : List (Nat × Nat)
  alloc : Nat
  groups : List Nat
  ended : Bool
  deriving DecidableEq, Repr

/-- A scratchpad allocation, past ones kept for their generation (R13, R238). Times are in ns. -/
structure Alloc where
  core : Nat
  base : Nat
  size : Nat
  gen : Nat
  wg : Nat
  released : Option Nat
  deriving DecidableEq, Repr

/-- What an access is translated with (R353): root, ASID, key id, mode. -/
structure Space where
  root : Nat
  asid : Nat
  key : Nat
  user : Bool
  deriving DecidableEq, Repr

/-- Operation of an atomic (R156). -/
inductive AtomOp where
  | add | min | max | and | or | xor | exch | cas
  deriving DecidableEq, Repr

/-- What a request does where it is performed. -/
inductive ReqKind where
  | read
  | write (bytes : List Byte)
  | atomic (op : AtomOp) (b c : Dword) (ret : Bool)
  deriving DecidableEq, Repr

/-- A request of one lane, or a write-back (op = none), on its way to an L2 slice (R229, R290, R311). -/
structure Req where
  op : Option Nat
  lane : Nat
  kind : ReqKind
  pa : Nat
  len : Nat
  key : Nat
  phase : Nat
  due : Nat
  deriving DecidableEq, Repr

/-- The state of the path from a core to a slice: its replay window and the refusal in progress (R290, R314). -/
inductive PathSt where
  | flowing
  | nacked
  | backoff (due : Nat)
  | remapped
  deriving DecidableEq, Repr

/-- `window`: the replay window; `queue`: what the slice's request queue has accepted and not yet served (R290). -/
structure Path where
  window : List Req
  queue : List Req
  st : PathSt
  nacks : Nat
  deriving DecidableEq, Repr

/-- The kinds of memory operation (R76, R147). -/
inductive OpKind where
  | load
  | store
  | atomRet
  | atomNoRet
  | other
  deriving DecidableEq, Repr

/-- A lane of an outstanding memory operation: where it goes, the bytes a store carries, what came back (R147, R148). -/
structure LaneAcc where
  lane : Nat
  va : Nat
  pa : Nat
  key : Nat
  /-- memory type of the page (R221); 4: a scratchpad, `pa` its offset and `key` its core; 9: a copy; 10: another
  engine or controller -/
  typ : Nat
  /-- allocation and generation of a scratchpad target, captured at issue (R238) -/
  alloc : Nat
  gen : Nat
  data : List Byte
  back : Option (List Byte)
  err : Option Cause
  done : Bool
  deriving DecidableEq, Repr

/-- An outstanding memory operation (R76, R148). -/
structure MemOp where
  gid : Nat
  pc : Pc
  kind : OpKind
  size : Nat
  sx : Bool
  nf : Bool
  scope : Scope
  acq : Bool
  u : Bool
  lanes : Lanes
  d : Option Reg
  accs : List LaneAcc
  inTrap : Bool
  /-- counter that falls on completion: 0 LD, 1 ST, 2 CP, 3 TL, 4 none -/
  ctr : Nat
  /-- an atomic's operation, and B and C per lane (R156) -/
  atom : Option (AtomOp × List (Nat × Dword × Dword))
  /-- a full/empty access: waits for, leaves (R152) -/
  fe : Option (Option Bool × Bool)
  /-- the release that holds the access back (R228) -/
  held : Option Nat
  /-- when it was sent, in ns (R305) and in cc, and the cycle its data are back -/
  sent : Nat
  sentCc : Nat
  due : Nat
  /-- every lane has its answer -/
  ready : Bool
  deriving DecidableEq, Repr

/-- A release in progress (R228): the operations awaited, the phase being closed. -/
structure Rel where
  gid : Nat
  core : Nat
  scope : Scope
  waitOps : List Nat
  /-- serial of the close it waits for; none before step 3 -/
  close : Option Nat
  /-- the operation whose accesses it holds, and how many of them have been sent -/
  op : Option Nat
  sent : Nat
  deriving DecidableEq, Repr

/-- A phase close in progress (R229): the announced counts, the slices reached and those that answered. -/
structure Close where
  serial : Nat
  phase : Nat
  announced : SMap Nat
  reached : List Nat
  answered : List Nat
  deriving DecidableEq, Repr

/-- Whom the fault records of a command name (R202, R306): the group that issued it, and where it stood. -/
structure Poster where
  gid : Nat
  ctx : Nat
  part : Nat
  resp : Nat
  slot : Nat
  deriving DecidableEq, Repr

/-- An access on a core's in-order path to the devices (R223). -/
structure DevReq where
  op : Nat
  lane : Nat
  write : Bool
  pa : Nat
  size : Nat
  data : Dword
  strict : Bool
  gid : Nat
  /-- what a refusal of a posted write is reported with (R148, R223) -/
  pc : Pc
  va : Nat
  nf : Bool
  inTrap : Bool
  lanes : Lanes
  /-- what a copy that the access starts is made with (R161, R353), and its operation, for which a releasing fence waits (R155) -/
  wg : Nat
  space : Space
  poster : Poster
  copy : Option Nat
  deriving DecidableEq, Repr

/-- A request from one core to another's scratchpad (R227, R238), in issue order. -/
structure SpReq where
  src : Nat
  dst : Nat
  off : Nat
  len : Nat
  bytes : Option (List Byte)
  alloc : Nat
  gen : Nat
  tag : Nat
  issued : Nat
  op : Nat
  lane : Nat
  /-- full/empty access: (waits for, leaves) (R152) -/
  fe : Option (Option Bool × Bool)
  /-- rank of the sender in a cycle: 0 the local core, then 1 + member number (R153) -/
  rank : Nat
  /-- the cycle, and the time in ns, in which it reached the port -/
  arr : Nat
  arrNs : Nat
  deriving DecidableEq, Repr

/-- A TLB entry (R304). -/
structure TlbEntry where
  va : Nat
  size : Nat
  asid : Nat
  glob : Bool
  pte : Dword
  ptePa : Nat
  deriving DecidableEq, Repr

/-- An SVQ entry or fault record, as its sixteen words (R202, R306). -/
structure SvqEntry where
  words : List Word
  kind : Nat
  ctx : Nat
  gid : Nat
  lane : Nat
  posted : Nat
  tag : Nat
  deriving DecidableEq, Repr

/-- An unreleased fault record (R306). -/
structure FaultRec where
  tag : Nat
  kind : Nat
  ctx : Nat
  gid : Nat
  words : List Word
  deriving DecidableEq, Repr

/-- A trap-queue entry (R298); `gid` none for a watchdog entry. -/
structure TrapQEntry where
  word : Word
  gid : Option Nat
  ctx : Nat
  deriving DecidableEq, Repr

/-- The handle states of R163, in code order. -/
inductive HState where
  | unbound | empty | filling | full | draining | error
  deriving DecidableEq, Repr

/-- A buffer handle (R163, R164). -/
structure Handle where
  st : HState
  alloc : Nat
  gen : Nat
  base : Nat
  len : Nat
  expect : Nat
  dones : Nat
  last : Nat
  /-- inward copies accepted in this fill, and copies outstanding in and out -/
  accepted : Nat
  inward : Nat
  outward : Nat
  outBad : Bool
  wg : Nat
  deriving DecidableEq, Repr

inductive DirState where
  | free | valid | pinned | moving
  deriving DecidableEq, Repr

/-- A spawn-queue entry (R272); `slot`: the responder slot it has taken, as partition and number, and the cycle of its start (R273). -/
structure Spawn where
  census : Nat
  key : Dword
  alloc : Nat
  off : Nat
  len : Nat
  arg : Dword
  pc : Dword
  ctx : Nat
  slot : Option (Nat × Nat × Nat)
  deriving DecidableEq, Repr

/-- A tile-directory entry (R268); `deferred`: the censuses to be answered after a move, as captured at their snapshots (R276). -/
structure DirEntry where
  st : DirState
  key : Dword
  asid : Nat
  alloc : Nat
  gen : Nat
  off : Nat
  len : Nat
  deferred : List Spawn
  deriving DecidableEq, Repr

inductive CenState where
  | free | opened | counting | complete | closed | orphan
  deriving DecidableEq, Repr

/-- A census slot (R196, R274, R275). -/
structure Census where
  st : CenState
  /-- tells this census from others of the slot -/
  serial : Nat
  wg : Nat
  gid : Nat
  ctx : Nat
  asid : Nat
  comb : Nat
  key : Dword
  mask : Dword
  arg : Dword
  pc : Dword
  reports : Nat
  spawned : Nat
  replies : Nat
  value : Dword
  err : Bool
  /-- resident time since the snapshot, in ns of SYS.TIME (R278); the limit runs once COUNTING -/
  age : Nat
  deriving DecidableEq, Repr

/-- The debug and sampling registers of a partition (R330, R332, R335, R337). -/
structure PartDbg where
  attach : Bool
  haltReq : Bool
  stopped : Option Nat
  /-- the cycle of the last stop (R334) -/
  stopCc : Nat
  mbox : Dword
  bp : SMap Dword
  wbase : SMap Dword
  wctl : SMap Word
  smpEn : Bool
  smpErr : Bool
  period : Nat
  smpbase : Dword
  smpsize : Word
  smphead : Word
  smptail : Word
  smpdrop : Word
  stops : Word
  lastSlot : Nat
  nextSample : Nat
  deriving DecidableEq, Repr

/-- A core (R1, R206, R224, R229, R297, R300, R307). -/
structure Core where
  asid : Nat
  keyid : Nat
  ptbase : Dword
  timecmp : Dword
  timerArmed : Bool
  stalewr : Word
  ipend : Word
  imask : Word
  svqTimer : Nat
  svqThresh : Nat
  svq : List SvqEntry
  /-- entries held in the replay window of the SVQ (R201) -/
  svqWin : List SvqEntry
  records : List FaultRec
  nextTag : Nat
  trapq : List TrapQEntry
  tgSel : Option Nat
  qbackoff : Nat
  l1 : SMap (Byte × Bool)
  tlb : List TlbEntry
  phase : Nat
  sent : SMap Nat
  closes : List Close
  paths : SMap Path
  dev : List DevReq
  handles : SMap Handle
  dir : SMap DirEntry
  census : SMap Census
  spawn : List Spawn
  psel : Nat
  part0 : PartDbg
  part1 : PartDbg
  deriving DecidableEq, Repr

/-- A scratchpad byte-array with its granule state (R146, R152, R239): full bits and swizzle tags by granule. -/
structure Spad where
  bytes : SMap Byte
  full : SMap Bool
  tag : SMap Nat
  deriving DecidableEq, Repr

/-- A receiver of a copy, or the source of an outward one: the core whose handle it is, the allocation captured at
acceptance (R161), and the code it already has. -/
structure CopyEnd where
  rank : Nat
  core : Nat
  alloc : Nat
  gen : Nat
  code : Option Nat
  deriving DecidableEq, Repr

/-- A loaded B operand (R170): values by k * 512 + column, scales by block * 512 + column. -/
structure BBuf where
  loaded : Bool
  fmt : Nat
  scl : Bool
  vals : SMap Int
  scales : SMap Int
  deriving DecidableEq, Repr

/-- Commands of the matrix engine (R171 to R174); tensor records captured at acceptance (R168). -/
inductive MxKind where
  | mxb (ten : List Byte) (coord : Dword) (bb : Bool)
  | mxa (ten : List Byte) (coord : Dword) (bb bank : Bool)
  | mxaReg (ten : List Byte) (rowq : Nat) (w16 : Bool) (vb : Nat) (bb bank : Bool)
  | drain (add : Bool) (ten : List Byte) (coord : Dword) (bank z : Bool)
  | zero (bank raw : Bool)
  deriving DecidableEq, Repr

/-- An entry of the reservation table (R169, R243). -/
structure MxEntry where
  id : Nat
  gid : Nat
  core : Nat
  ctx : Nat
  wg : Nat
  pc : Pc
  space : Space
  prio : Nat
  kind : MxKind
  /-- the allocation of a scratchpad tensor, as captured -/
  tgt : Option CopyEnd
  arr : Option Nat
  readySince : Option Nat
  promoted : Bool
  granted : Option Nat
  /-- the cycle in which its operands are read, for a pass the end of its array work (R242), and the cycle it completes -/
  arrayEnd : Nat
  due : Nat
  /-- the operands have been read: the effect is made, or `err` says why not (R176) -/
  read : Bool
  err : Option Cause
  /-- the engine has arrived for it, or has not to (R260) -/
  arrived : Bool
  /-- held on a page fault with this tag (R176) -/
  held : Option Nat
  /-- the time in ns since which its accesses to global memory are under way (R305) -/
  since : Option Nat
  poster : Poster
  deriving DecidableEq, Repr

/-- A matrix engine (R170, R245): element of row i, column j at i * 512 + j. -/
structure Mxe where
  bb0 : BBuf
  bb1 : BBuf
  raw : Bool
  ac0 : SMap Word
  ac1 : SMap Word
  acRaw : SMap Int
  table : List MxEntry
  /-- commands that have ended while their arrival still waits (R184, R260) -/
  late : List MxEntry
  arrayFree : Nat
  deriving DecidableEq, Repr

/-- A copy on a BTE channel (R160). -/
structure CopyRec where
  id : Nat
  core : Nat
  gid : Nat
  ctx : Nat
  wg : Nat
  pc : Pc
  space : Space
  tmplNo : Nat
  handle : Nat
  coord : Dword
  mc : Option Word
  op : Option Nat
  lane : Nat
  accepted : Bool
  tmpl : List Byte
  ten : List Byte
  ends : List CopyEnd
  /-- the allocation of a scratchpad tensor, as captured -/
  tenEnd : Option CopyEnd
  issued : Nat
  status : Option Nat
  held : Option Nat
  due : Nat
  /-- the time in ns since which its accesses to global memory are under way (R305) -/
  since : Option Nat
  /-- has one of the two decompression streams of its engine (R258) -/
  dec : Bool
  poster : Poster
  deriving DecidableEq, Repr

/-- A tile move in progress (R195, R276). -/
structure Move where
  id : Nat
  core : Nat
  gid : Nat
  op : Nat
  entry : Nat
  target : Nat
  tAlloc : Nat
  tGen : Nat
  tOff : Nat
  status : Option Nat
  issued : Nat
  due : Nat
  deriving DecidableEq, Repr

/-- A block-transfer engine (R160, R253, R261). -/
structure Bte where
  templates : SMap (List Byte)
  dict : SMap (List Byte)
  engsave : Dword
  stop : Bool
  chans : SMap (List CopyRec)
  last : SMap Nat
  moves : List Move
  deriving DecidableEq, Repr

/-- The units of a cluster (R1): engine, BTE, L2 TLB. -/
structure Cluster where
  mxe : Mxe
  bte : Bte
  tlb : List TlbEntry
  deriving DecidableEq, Repr

/-- A barrier (R182, R184): `sent` counts arrivals issued and not yet landed; `due`: Check is still to run; `last`: the cycle in
which the phase that completed last became visible. -/
structure Barrier where
  ph : Word
  members : List Nat
  arr : SMap Nat
  sent : SMap Nat
  due : Bool
  last : Nat
  deriving DecidableEq, Repr

/-- A dataflow channel (R190, R191, R291). -/
structure Channel where
  slots : Nat
  bytes : Nat
  producer : Nat
  consumer : Nat
  queue : List (List Byte)
  deriving DecidableEq, Repr

/-- The states of R286. -/
inductive LState where
  | pending | armed | committed | started | startedLate | missed | faulted | aborted
  deriving DecidableEq, Repr

/-- A gang membership record (R284) and what has been heard of the members (R285 to R287). -/
structure Gang where
  id : Dword
  self : Nat
  coord : Nat
  links : List Nat
  armHeld : Bool
  acks : List Nat
  started : List Nat
  incomplete : Bool
  deriving DecidableEq, Repr

/-- One workgroup of a reserved placement (R15, R281). -/
structure Placed where
  team : Nat
  member : Nat
  core : Nat
  base : Nat
  gen : Nat
  /-- partition and place of each group, in placement order -/
  spots : List (Nat × Nat)
  deriving DecidableEq, Repr

/-- A role entry of a launch block (R279). -/
structure RoleSpec where
  pc : Nat
  regs : Nat
  width : Nat
  count : Nat
  fair : Nat
  prio : Nat
  sinit : List Nat
  deriving DecidableEq, Repr

/-- A launch held by the launch unit (R280 to R287). -/
structure Launch where
  core : Nat
  space : Space
  va : Nat
  ctx : Nat
  st : LState
  wid : List Nat
  team : Nat
  teams : Nat
  scratch : Nat
  graph : Nat
  trigger : Nat
  window : Nat
  missedMode : Nat
  roles : List RoleSpec
  bars : List Nat
  chans : List (Nat × Nat × Nat × Nat)
  placed : List Placed
  reserved : Bool
  inject : Option Nat
  startTime : Nat
  late : Bool
  gang : Option Gang
  /-- number of team 0 of the grid -/
  teamBase : Nat
  deriving DecidableEq, Repr

/-- A work-graph bin (R289): records with their arrival time in ns, and those that replay windows hold, with their core. -/
structure Bin where
  records : List (Nat × List Byte)
  waiting : List (Nat × List Byte)
  deriving DecidableEq, Repr

/-- Where a context stands (R293). -/
inductive CtxSt where
  | idle
  | resident
  | saved
  deriving DecidableEq, Repr

/-- What a save image holds of a core beside groups (R146, R163, R277). -/
structure SavedCore where
  handles : SMap Handle
  census : SMap Census
  spawn : List Spawn
  spad : Spad
  deriving DecidableEq, Repr

def Spad.reset : Spad := { bytes := [], full := [], tag := [] }

def SavedCore.reset : SavedCore := { handles := [], census := [], spawn := [], spad := Spad.reset }

/-- A context: registers held per context, its entry as loaded, pre-emption and watchdog (R206, R292, R293, R308, R310). -/
structure Ctx where
  st : CtxSt
  asid : Nat
  keyid : Nat
  ptroot : Dword
  save : Nat
  engsave : Nat
  tmpl : Nat
  dict : Nat
  next : Nat
  sliceUs : Nat
  plim : Nat
  preq : Bool
  bySuper : Bool
  deadline : Option Nat
  saving : Bool
  forced : Bool
  sliceUsed : Nat
  wdogCore : Nat
  wdogLimit : Nat
  wdogCnt : Nat
  wdogFrac : Nat
  wdogArmed : Bool
  cenlim : Word
  barlim : Word
  grantbase : Dword
  epbase : Dword
  /-- copies held on page faults at the switch (R261), by cluster and channel -/
  heldCopies : SMap (List CopyRec)
  savedCores : SMap SavedCore
  deriving DecidableEq, Repr

/-- The lanes of a Kazry link (R315, R319). -/
structure KLane where
  active : Bool
  training : Bool
  /-- start of the window in which errors are counted, in ns (R319) -/
  since : Nat
  sym : Dword
  corrected : Word
  uncorrectable : Nat
  retrains : Nat
  deriving DecidableEq, Repr

/-- The gang messages (R266, R285). -/
inductive GangSay where
  | arm
  | ack
  | commit
  | abort
  | report (code : Nat)
  | arrival (bar gid : Nat)
  deriving DecidableEq, Repr

/-- A gang message, which carries GANGID, from one member device to another (R285). -/
structure GangMsg where
  say : GangSay
  gang : Dword
  src : Nat
  dst : Nat
  deriving DecidableEq, Repr

/-- What leaves the package: gang messages (R285), network messages with delivery mode, peer address and time stamp (R324, R325, R327),
reports, tray completions, flits, and requests to send a flit again (R317, R318). -/
inductive Out where
  | gang (m : GangMsg)
  | net (port : Nat) (rod : Bool) (peer : Nat) (payload : List Byte) (stamp : Option Nat)
  | report (bytes : List Byte)
  | trayDone (link : Nat) (data : Option (List Byte))
  | flit (link : Nat) (bytes : List Byte)
  | resend (link seq : Nat)
  deriving DecidableEq, Repr

inductive LinkSt where
  | down | training | up
  deriving DecidableEq, Repr

/-- A Peer transaction of one lane (R320). -/
structure PeerReq where
  core : Nat
  op : Nat
  lane : Nat
  kind : ReqKind
  pa : Nat
  len : Nat
  sent : Nat
  /-- given up before its answer came (R305) -/
  late : Bool
  deriving DecidableEq, Repr

structure Link where
  st : LinkSt
  win : Nat
  keep : Bool
  tray : Bool
  thresh : Nat
  expSeq : Nat
  buffered : List (Nat × List Byte)
  /-- since when the link has had no active lane, in ns (R319) -/
  noLane : Nat
  out : List PeerReq
  waiting : List PeerReq
  lanes : SMap KLane
  /-- taken down at entry to LULL (R322) -/
  lulled : Bool
  /-- SEQ of the next flit to be sent, the flits kept for replay, flits received whose credits are still to be returned (R317, R318) -/
  txSeq : Nat
  replay : List (Nat × List Byte)
  owed : Nat
  /-- what the other end has returned: credits, and the highest SEQ it has received in order (R317) -/
  credits : Nat
  acked : Nat
  /-- gang messages not yet sent (R319) -/
  gang : List GangMsg
  deriving DecidableEq, Repr

/-- An NVMe namespace: block size, blocks and their bytes (R328). -/
structure Namespace where
  blk : Nat
  blocks : Nat
  data : SMap Byte
  deriving DecidableEq, Repr

/-- A storage command of one lane (R216, R328). -/
structure StCmd where
  id : Nat
  write : Bool
  op : Nat
  lane : Nat
  gid : Nat
  core : Nat
  ctx : Nat
  wg : Nat
  pc : Pc
  space : Space
  ns : Nat
  lba : Nat
  count : Nat
  kind : StKind
  target : Nat
  handle : Nat
  gen : Nat
  vat : Option (List Byte)
  grant : List Byte
  early : Option Nat
  held : Option Nat
  issued : Nat
  due : Nat
  /-- has one of the two decompression streams of its cluster (R258) -/
  dec : Bool
  poster : Poster
  deriving DecidableEq, Repr

/-- A network message sent (R217). -/
structure SendRec where
  id : Nat
  op : Nat
  lanes : Lanes
  gid : Nat
  core : Nat
  ctx : Nat
  ep : List Byte
  status : Option Nat
  payload : List Byte
  deriving DecidableEq, Repr

/-- A packet held in a receive ring (R218, R326). -/
structure Held where
  ctx : Nat
  ep : Nat
  off : Nat
  len : Nat
  deriving DecidableEq, Repr

/-- Requests to the management core (R348). -/
inductive MReq where
  | attest (buf : Nat)
  | extend (buf : Nat)
  | stage (buf : Nat)
  | confirm
  | modeReq
  | extendReg (reg : Nat)
  | keyslot (slot : Nat)
  | badCode
  deriving DecidableEq, Repr

/-- A record of the event log (R350). -/
structure LogRec where
  time : Dword
  seq : Word
  source : Nat
  code : Nat
  data : Nat
  deriving DecidableEq, Repr

/-- An attestation request in its queue (R347): from the OS path (its buffer) or over MCTP (its nonce), and
what a report being signed holds. -/
structure AttestReq where
  buf : Option Nat
  nonce : List Byte
  signing : Option (List Byte)
  deriving DecidableEq, Repr

/-- The management subsystem (R340, R347 to R351). -/
structure Mgmt where
  wm : SMap (BitVec 512)
  /-- the buffer of the last REQ accepted, and the register last named in EXTEND -/
  reqBuf : Nat
  extReg : Nat
  stat : Nat
  code : Nat
  busyRef : Bool
  running : Option MReq
  modeReqVal : Nat
  sensel : Nat
  sensors : SMap Int
  attests : List AttestReq
  log : List LogRec
  logSeq : Word
  unmirrored : Nat
  tlimit : Int
  throttled : List Nat
  pkgThrottle : Bool
  /-- since when package power has stood above the mode's budget, in ns (R349) -/
  powerSince : Option Nat
  bootMode : Nat
  booted : Bool
  bootSlot : Nat
  /-- the slot that booted was staged and pending (R348, R351) -/
  bootStaged : Bool
  /-- the management firmware runs (R339 step 4) -/
  firmware : Bool
  /-- the identity seed that stage 1 has rebuilt (R344) -/
  seed : List Byte
  deriving DecidableEq, Repr

/-- The bytes of a signed image of the board flash, its header among them (R341, R343). -/
abbrev Image := List Byte

/-- A boot slot: stage 1, firmware, kernel. -/
structure Slot where
  stage1 : Image
  firmware : Image
  kernel : Image
  deriving DecidableEq, Repr

/-- The configuration record of 4 KiB and its signature (R342). -/
structure ConfigRec where
  record : List Byte
  signature : List Byte
  deriving DecidableEq, Repr

/-- The board: straps, flash, replay-protected counters, log mirror (R341 to R344, R351). -/
structure Board where
  strapB : Bool
  /-- the I3C address of the management endpoint (R342) -/
  strapI3c : BitVec 7
  slotA : Option Slot
  slotB : Option Slot
  config : Option ConfigRec
  /-- the anti-rollback counters: kind 0 stage 1, 1 firmware, 2 kernel, 3 configuration -/
  rollback : SMap Nat
  /-- the next signature index of the identity and of the attestation key, the PUF's helper data, and the certificate of the attestation
  key, once made (R344) -/
  idIndex : Nat
  attIndex : Nat
  helper : List Byte
  cert : Option (List Byte)
  pendingSlot : Option Nat
  /-- the slot confirmed last; none: the one the straps name -/
  activeSlot : Option Nat
  flashFails : Bool
  mirror : List LogRec
  deriving DecidableEq, Repr

/-- An L2 line: the key id it is held under and the key it was decrypted with, the bytes written since it was filled (R225). -/
structure L2Line where
  key : Nat
  ver : Sys2Proof.Config.Key
  data : SMap Byte
  deriving DecidableEq, Repr

/-- The instruction being executed: its group, the lanes of the issuing run, its address; `resume`: the wait in which
the instruction stands, when it is not a new issue. -/
structure Issue where
  gid : Nat
  lanes : Lanes
  pc : Pc
  resume : Option Wait
  deriving DecidableEq, Repr

/-- A value of the time unit on its way to the cores (R263, R265): time in ns and fraction, the rate, and when it was sent on `Clock.ran`. -/
structure Tick where
  due : Nat
  ran : Nat
  ns : Nat
  frac : Nat
  adj : Int
  deriving DecidableEq, Repr

/-- Power and time of the package (R4 to R6, R265, R327). -/
structure Clock where
  cc : Nat
  mode : Mode
  /-- the time elapsed since reset, in twelfths of a ns of the oscillator -/
  ran : Nat
  /-- the mode requested, and the cycle of the request (R5) -/
  modePending : Option (Mode × Nat)
  /-- the time unit in ns, and the fraction in units of 1 / (12 * 10^9) ns -/
  ns : Nat
  frac : Nat
  /-- the cores' copy at the last tick, and the rate it advances at -/
  copyNs : Nat
  copyFrac : Nat
  copyAdj : Int
  /-- the cores' copy up to which limits in µs have been counted -/
  counted : Nat
  ticks : List Tick
  adj : Int
  ptpctl : Word
  deriving DecidableEq, Repr

/-- The memory side of the package (R225, R312, R313, R352). -/
structure MemSys where
  /-- HBM, as the plaintext each sector was encrypted from -/
  mem : List Host.Cell
  /-- the key each 32-byte sector was encrypted with, and the keys in the slots (R225, R345) -/
  secKey : SMap Sys2Proof.Config.Key
  keySlots : SMap Sys2Proof.Config.Key
  l2 : SMap L2Line
  /-- 32-byte sectors of HBM that hold an uncorrectable error (R148, log 57) -/
  ecc : List Nat
  /-- slice of each bucket where it differs from the boot map -/
  smap : SMap Nat
  staging : SMap Nat
  smapGen : Nat
  smapBusy : Bool
  counts : SMap Nat
  deriving DecidableEq, Repr

structure State where
  clock : Clock
  msys : MemSys
  /-- events of the hardware, each with the cycle it is due in, in order (log 4) -/
  events : List (Nat × Instr)
  cur : Option Issue
  /-- the partition whose turn it is in this cycle (log 4) -/
  cursor : Nat
  /-- the waits of this cycle have been tried again (log 4) -/
  tried : Bool
  /-- the groups packed beside the group that issued, still to issue in this cycle (R28) -/
  pack : List Nat
  /-- counter of free values (log 1) -/
  fresh : Nat
  /-- counter that numbers operations, releases, commands, workgroups, allocations, launches, teams -/
  serial : Nat
  groups : SMap Group
  wgs : SMap Workgroup
  allocs : SMap Alloc
  cores : SMap Core
  spads : SMap Spad
  spIn : List SpReq
  feq : List SpReq
  clusters : SMap Cluster
  ops : SMap MemOp
  rels : SMap Rel
  ctxs : SMap Ctx
  /-- what the device has written to engine save areas, by ENGSAVE and cluster (R245, log 33) -/
  engAreas : SMap (SMap Mxe)
  ctxbase : Dword
  resident : Option Nat
  /-- per broadcast slot: value, sequence count, and whether the last broadcast was a release (R188, R189) -/
  slots : SMap (Dword × Word × Bool)
  tensors : SMap (List Byte)
  bars : SMap Barrier
  chans : SMap Channel
  launches : SMap Launch
  /-- gangs whose ARM came before their launch (R285) -/
  heldArms : List Dword
  bins : SMap Bin
  links : SMap Link
  linkSel : Word
  oemode : Word
  traywin : Dword
  portsUp : List Nat
  nvme : SMap Namespace
  stCmds : List StCmd
  sends : List SendRec
  ringTail : SMap Nat
  packets : List Held
  dbgvec : Dword
  mgmt : Mgmt
  board : Board
  outbox : List Out
  deriving DecidableEq, Repr

/-- Why a step stops with a fault. -/
inductive Fault where
  /-- Raised when `exec` is called for an issued instruction while no group is issuing; safe: no step of the
  machine does so. -/
  | noIssuer
  deriving DecidableEq, Repr

/-- Why a step refuses. -/
inductive Refusal where
  /-- The instruction has no meaning yet; safe. -/
  | notModelled (mnemonic : String)
  deriving DecidableEq, Repr

-- Reset values

/-- R330: every field zero except PERIOD, which is 1,024. -/
def PartDbg.reset : PartDbg :=
  { attach := false, haltReq := false, stopped := none, stopCc := 0, mbox := 0, bp := [], wbase := [], wctl := [], smpEn := false,
    smpErr := false, period := 1024, smpbase := 0, smpsize := 0, smphead := 0, smptail := 0, smpdrop := 0, stops := 0,
    lastSlot := 0, nextSample := 0 }

/-- R300, R307, R283 give IPEND, IMASK, SVQCTL and QBACKOFF; DESIGN CHOICE (log 5): the rest zero or empty. -/
def Core.reset : Core :=
  { asid := 0, keyid := 0, ptbase := 0, timecmp := 0, timerArmed := false, stalewr := 0, ipend := 0, imask := 0, svqTimer := 200,
    svqThresh := 32, svq := [], svqWin := [], records := [], nextTag := 0, trapq := [], tgSel := none, qbackoff := 64, l1 := [],
    tlb := [], phase := 0, sent := [], closes := [], paths := [], dev := [], handles := [], dir := [], census := [], spawn := [],
    psel := 0, part0 := PartDbg.reset, part1 := PartDbg.reset }

def BBuf.reset : BBuf := { loaded := false, fmt := 0, scl := false, vals := [], scales := [] }

/-- R245: both banks FP32 and +0, both B buffers empty. -/
def Mxe.reset : Mxe :=
  { bb0 := BBuf.reset, bb1 := BBuf.reset, raw := false, ac0 := [], ac1 := [], acRaw := [], table := [], late := [], arrayFree := 0 }

def Bte.reset : Bte := { templates := [], dict := [], engsave := 0, stop := false, chans := [], last := [], moves := [] }

def Cluster.reset : Cluster := { mxe := Mxe.reset, bte := Bte.reset, tlb := [] }

def Barrier.reset : Barrier := { ph := 0, members := [], arr := [], sent := [], due := false, last := 0 }

/-- R308 and R310 give PREQ and WDOG. -/
def Ctx.reset : Ctx :=
  { st := .idle, asid := 0, keyid := 0, ptroot := 0, save := 0, engsave := 0, tmpl := 0, dict := 0, next := 0, sliceUs := 0,
    plim := 0, preq := false, bySuper := false, deadline := none, saving := false, forced := false, sliceUsed := 0, wdogCore := 0,
    wdogLimit := 0, wdogCnt := 0, wdogFrac := 0, wdogArmed := false, cenlim := 0, barlim := 0, grantbase := 0, epbase := 0,
    heldCopies := [], savedCores := [] }

def KLane.reset : KLane :=
  { active := false, training := false, since := 0, sym := 0, corrected := 0, uncorrectable := 0, retrains := 0 }

/-- R315: WIN 1, KEEP 0, TRAY 0, THRESH 224; DOWN (log 5). -/
def Link.reset : Link :=
  { st := .down, win := 1, keep := false, tray := false, thresh := 224, expSeq := 0, buffered := [], noLane := 0, out := [],
    waiting := [], lanes := [], lulled := false, txSeq := 0, replay := [], owed := 0, credits := 0, acked := 0, gang := [] }

def Handle.reset : Handle :=
  { st := .unbound, alloc := 0, gen := 0, base := 0, len := 0, expect := 0, dones := 0, last := 0, accepted := 0, inward := 0,
    outward := 0, outBad := false, wg := 0 }

def DirEntry.reset : DirEntry := { st := .free, key := 0, asid := 0, alloc := 0, gen := 0, off := 0, len := 0, deferred := [] }

def Census.reset : Census :=
  { st := .free, serial := 0, wg := 0, gid := 0, ctx := 0, asid := 0, comb := 0, key := 0, mask := 0, arg := 0, pc := 0, reports := 0,
    spawned := 0, replies := 0, value := 0, err := false, age := 0 }

def Path.reset : Path := { window := [], queue := [], st := .flowing, nacks := 0 }

/-- R340: the watermarks are zero; the rest DESIGN CHOICE (log 5). -/
def Mgmt.reset : Mgmt :=
  { wm := [], reqBuf := 0, extReg := 0, stat := 0, code := 0, busyRef := false, running := none, modeReqVal := 0, sensel := 0,
    sensors := [], attests := [], log := [], logSeq := 0, unmirrored := 0, tlimit := 0, throttled := [], pkgThrottle := false,
    powerSince := none, bootMode := 0, booted := false, bootSlot := 0, bootStaged := false, firmware := false, seed := [] }

/-- DESIGN CHOICE (log 5): an empty flash, straps naming slot A. -/
def Board.reset : Board :=
  { strapB := false, strapI3c := 0, slotA := none, slotB := none, config := none, rollback := [], idIndex := 0, attIndex := 0, helper := [], cert := none,
    pendingSlot := none, activeSlot := none, flashFails := false, mirror := [] }

def Clock.reset : Clock :=
  { cc := 0, mode := .gale, ran := 0, modePending := none, ns := 0, frac := 0, copyNs := 0, copyFrac := 0, copyAdj := 0,
    counted := 0, ticks := [], adj := 0, ptpctl := 0 }

/-- R339 step 5: the boot slice map, generation 0; memory with nothing listed (log 2). -/
def MemSys.reset : MemSys :=
  { mem := [], secKey := [], keySlots := [], l2 := [], ecc := [], smap := [], staging := [], smapGen := 0, smapBusy := false, counts := [] }

/-- The package right after reset: nothing runs, and the boot ROM's sequence (R339) is about to begin. -/
def State.reset : State :=
  { clock := Clock.reset, msys := MemSys.reset, events := [(0, .packageReset)], cur := none, cursor := 0, tried := false, pack := [], fresh := 0, serial := 1,
    groups := [], wgs := [], allocs := [], cores := [], spads := [], spIn := [], feq := [], clusters := [], ops := [], rels := [],
    ctxs := [], engAreas := [], ctxbase := 0, resident := none, slots := [], tensors := [], bars := [], chans := [], launches := [], heldArms := [], bins := [],
    links := [], linkSel := 0, oemode := 0, traywin := 0, portsUp := [], nvme := [], stCmds := [], sends := [], ringTail := [],
    packets := [], dbgvec := 0, mgmt := Mgmt.reset, board := Board.reset, outbox := [] }

end Sys2Proof.Machine
end

