-- ==== Sys2Proof/Machine/Base.lean ====
section
/-! DEFINITION. Access to the parts of the state: sparse maps, lanes, registers, runs of the PC table,
the event list. -/

namespace Sys2Proof.Machine

-- Sparse maps

def SMap.find {α : Type} : SMap α → Nat → Option α
  | [], _ => none
  | (k', v) :: t, k => if k = k' then some v else SMap.find t k

/-- Insert or replace, keys rising. -/
def SMap.ins {α : Type} : SMap α → Nat → α → SMap α
  | [], k, v => [(k, v)]
  | (k', v') :: t, k, v => if k < k' then (k, v) :: (k', v') :: t else if k = k' then (k, v) :: t else (k', v') :: SMap.ins t k v

def SMap.del {α : Type} : SMap α → Nat → SMap α
  | [], _ => []
  | (k', v) :: t, k => if k = k' then SMap.del t k else (k', v) :: SMap.del t k

/-- The value at a key, an unlisted key holding `d`. -/
def SMap.get {α : Type} (d : α) (m : SMap α) (k : Nat) : α :=
  match m.find k with
  | some v => v
  | none => d

/-- Write a value, keeping no entry equal to `d`. -/
def SMap.put {α : Type} [DecidableEq α] (d : α) (m : SMap α) (k : Nat) (v : α) : SMap α :=
  if v = d then m.del k else m.ins k v

/-- The canonical form: keys strictly rising, no entry equal to `d`. -/
def SMap.canon {α : Type} [DecidableEq α] (d : α) : SMap α → Bool
  | [] => true
  | [(_, v)] => decide (v ≠ d)
  | (k, v) :: (k', v') :: t => decide (v ≠ d) && decide (k < k') && SMap.canon d ((k', v') :: t)

-- Lanes

def laneBit (n : Nat) : Lanes := BitVec.ofNat 64 (2 ^ n)

def laneList (m : Lanes) : List Nat := (List.range 64).filter (m.getLsbD ·)

def lowest (m : Lanes) : Nat := (laneList m).headD 0

def lanesOf (l : List Nat) : Lanes := l.foldl (fun m n => m ||| laneBit n) 0

def lanesWhere (m : Lanes) (p : Nat → Bool) : Lanes := lanesOf ((laneList m).filter p)

def laneCount (m : Lanes) : Nat := (laneList m).length

-- Parts of the state

def State.core (s : State) (k : Nat) : Core := s.cores.get Core.reset k
def State.setCore (s : State) (k : Nat) (c : Core) : State := { s with cores := s.cores.ins k c }
def State.modCore (s : State) (k : Nat) (f : Core → Core) : State := s.setCore k (f (s.core k))
def State.cluster (s : State) (k : Nat) : Cluster := s.clusters.get Cluster.reset k
def State.modCluster (s : State) (k : Nat) (f : Cluster → Cluster) : State :=
  { s with clusters := s.clusters.ins k (f (s.cluster k)) }
def State.mxe (s : State) (k : Nat) : Mxe := (s.cluster k).mxe
def State.modMxe (s : State) (k : Nat) (f : Mxe → Mxe) : State := s.modCluster k fun c => { c with mxe := f c.mxe }
def State.bte (s : State) (k : Nat) : Bte := (s.cluster k).bte
def State.modBte (s : State) (k : Nat) (f : Bte → Bte) : State := s.modCluster k fun c => { c with bte := f c.bte }
def State.spad (s : State) (k : Nat) : Spad := s.spads.get Spad.reset k
def State.ctx (s : State) (k : Nat) : Ctx := s.ctxs.get Ctx.reset k
def State.modCtx (s : State) (k : Nat) (f : Ctx → Ctx) : State := { s with ctxs := s.ctxs.ins k (f (s.ctx k)) }
def State.bar (s : State) (k : Nat) : Barrier := s.bars.get Barrier.reset k
def State.setBar (s : State) (k : Nat) (b : Barrier) : State := { s with bars := s.bars.ins k b }
def State.link (s : State) (k : Nat) : Link := s.links.get Link.reset k
def State.modLink (s : State) (k : Nat) (f : Link → Link) : State := { s with links := s.links.ins k (f (s.link k)) }
def State.group? (s : State) (gid : Nat) : Option Group := s.groups.find gid
def State.setGroup (s : State) (gid : Nat) (g : Group) : State := { s with groups := s.groups.ins gid g }
def State.modGroup (s : State) (gid : Nat) (f : Group → Group) : State :=
  match s.group? gid with
  | some g => s.setGroup gid (f g)
  | none => s
def State.modMgmt (s : State) (f : Mgmt → Mgmt) : State := { s with mgmt := f s.mgmt }
def State.modMsys (s : State) (f : MemSys → MemSys) : State := { s with msys := f s.msys }
def State.modOp (s : State) (id : Nat) (f : MemOp → MemOp) : State :=
  match s.ops.find id with
  | some o => { s with ops := s.ops.ins id (f o) }
  | none => s

def State.cc (s : State) : Nat := s.clock.cc
/-- SYS.TIME: the cores' copy of the time base (R265). -/
def State.time (s : State) : Nat := s.clock.copyNs % 2 ^ 64

def Core.part (c : Core) (p : Nat) : PartDbg := if p = 0 then c.part0 else c.part1
def Core.modPart (c : Core) (p : Nat) (f : PartDbg → PartDbg) : Core :=
  if p = 0 then { c with part0 := f c.part0 } else { c with part1 := f c.part1 }

/-- A number for an operation, release, command, workgroup, allocation, launch or team. -/
def State.newSerial (s : State) : Nat × State := (s.serial, { s with serial := s.serial + 1 })
/-- UNVERIFIED (log 1): a latency the spec does not state. -/
def State.freeLat (s : State) : Nat × State := (Sys2Proof.Config.freeLatency s.fresh, { s with fresh := s.fresh + 1 })

/-- Group numbers: core, partition, place (32 the supervisor group, 33 and 34 the responders), context (64 none). -/
def gidOf (core part place ctx : Nat) : Nat := ((core * 2 + part) * 40 + place) * 65 + ctx

def superGid (core : Nat) : Nat := gidOf core 0 32 64

def clusterOf (core : Nat) : Nat := core / 4

-- The event list (log 4)

/-- The order of R264 among messages that take effect in one cycle; broadcasts in the order of their cores and partitions (R189). -/
def evRank : Instr → Nat
  | .timeBaseTick => 1
  | .tlbInvalidateApply .. => 2
  | .gridBarrierArrival .. => 3
  | .scalarBroadcastDelivery src .. => 4 + src.1 % 768
  | .solicitSnapshot n => 1000 + n % 2048
  | .ipiDelivery .. => 4000
  | .preemptionRequest .. => 4001
  | .contextSwitch => 4001
  | .gridStart .. => 4002
  | .sliceMapSwitch => 4002
  | _ => 5000

def insEvent (due : Nat) (i : Instr) : List (Nat × Instr) → List (Nat × Instr)
  | [] => [(due, i)]
  | (d, j) :: t => if due < d ∨ (due = d ∧ evRank i < evRank j) then (due, i) :: (d, j) :: t else (d, j) :: insEvent due i t

/-- The event comes about in cycle `due`. -/
def State.schedule (s : State) (due : Nat) (i : Instr) : State := { s with events := insEvent due i s.events }
/-- The event comes about next. -/
def State.soon (s : State) (i : Instr) : State := { s with events := (0, i) :: s.events }
def State.emit (s : State) (o : Out) : State := { s with outbox := s.outbox ++ [o] }

-- Time

/-- A cycle in units of 1 / 12 ns (R4). -/
def Mode.twelfths : Mode → Nat
  | .gale | .trade => 4
  | .breeze => 5
  | .lull => 10

def nsUnit : Nat := 12000000000

-- Registers (R69 to R73)

def vKey (n lane : Nat) : Nat := n * 64 + lane

/-- The work identifier of a lane (R19, R21). -/
def Group.wid (g : Group) (lane : Nat) : Dword :=
  match g.info.wid with
  | some w => w + BitVec.ofNat 64 lane
  | none => BitVec.ofNat 64 lane

def Group.rdP (g : Group) (n lane : Nat) : Bool := n == 7 || (g.regs.p.get 0 n).getLsbD lane

/-- The value a register code reads as a 32-bit source (R69, R72, R73). -/
def Group.rd32 (g : Group) (lane : Nat) : Reg → Word
  | .v n => g.regs.v.get 0 (vKey n.val lane)
  | .o n => g.regs.o.get 0 (vKey n.val lane)
  | .l n => (g.regs.l.get 0 (vKey n.val lane)).truncate 32
  | .s n => (g.regs.s.get 0 n.val).truncate 32
  | .p n => if g.rdP n.val lane then 1 else 0
  | .zero => 0
  | .lane => BitVec.ofNat 32 lane
  | .widlo => (g.wid lane).truncate 32
  | .widhi => ((g.wid lane) >>> 32).truncate 32

/-- The register `k` places after a V or O register. -/
def Reg.shift (r : Reg) (k : Nat) : Reg :=
  match r with
  | .v n => if h : n.val + k < 384 then .v ⟨n.val + k, h⟩ else r
  | .o n => if h : n.val + k < 16 then .o ⟨n.val + k, h⟩ else r
  | _ => r

/-- A 64-bit source (R71). -/
def Group.rd64 (g : Group) (lane : Nat) (r : Reg) : Dword :=
  match r with
  | .v _ | .o _ => g.rd32 lane (Reg.shift r 1) ++ g.rd32 lane r
  | .l n => g.regs.l.get 0 (vKey n.val lane)
  | .s n => g.regs.s.get 0 n.val
  | .widlo => g.wid lane
  | _ => (g.rd32 lane r).zeroExtend 64

/-- A 128-bit source (R71). -/
def Group.rd128 (g : Group) (lane : Nat) (r : Reg) : Quad :=
  match r with
  | .v _ | .o _ => g.rd64 lane (Reg.shift r 2) ++ g.rd64 lane r
  | _ => (g.rd64 lane r).zeroExtend 128

def Group.modRegs (g : Group) (f : GRegs → GRegs) : Group := { g with regs := f g.regs }

def Group.wrP (g : Group) (n lane : Nat) (b : Bool) : Group :=
  let m := g.regs.p.get 0 n
  g.modRegs fun r => { r with p := r.p.put 0 n (if b then m ||| laneBit lane else m &&& ~~~laneBit lane) }

/-- Write a register of 32 bits in a lane; a write to S clears its upper half (R72). -/
def Group.wr32 (g : Group) (lane : Nat) (r : Reg) (x : Word) : Group :=
  match r with
  | .v n => g.modRegs fun q => { q with v := q.v.put 0 (vKey n.val lane) x }
  | .o n => g.modRegs fun q => { q with o := q.o.put 0 (vKey n.val lane) x }
  | .s n => g.modRegs fun q => { q with s := q.s.put 0 n.val (x.zeroExtend 64) }
  | _ => g

def Group.wr64 (g : Group) (lane : Nat) (r : Reg) (x : Dword) : Group :=
  match r with
  | .v _ | .o _ => (g.wr32 lane r (x.truncate 32)).wr32 lane (Reg.shift r 1) ((x >>> 32).truncate 32)
  | .s n => g.modRegs fun q => { q with s := q.s.put 0 n.val x }
  | _ => g

def Group.wr128 (g : Group) (lane : Nat) (r : Reg) (x : Quad) : Group :=
  (g.wr64 lane r (x.truncate 64)).wr64 lane (Reg.shift r 2) ((x >>> 64).truncate 64)

/-- Write a result of `w` registers (1, 2 or 4). -/
def Group.wr (g : Group) (w lane : Nat) (r : Reg) (x : Quad) : Group :=
  if w = 1 then g.wr32 lane r (x.truncate 32) else if w = 2 then g.wr64 lane r (x.truncate 64) else g.wr128 lane r x

/-- Write one value in several lanes. -/
def Group.wrAll (g : Group) (w : Nat) (lanes : List Nat) (r : Reg) (x : Quad) : Group :=
  lanes.foldl (fun g l => g.wr w l r x) g

def Group.wrPAll (g : Group) (n : Nat) (lanes : List Nat) (b : Nat → Bool) : Group :=
  lanes.foldl (fun g l => g.wrP n l (b l)) g

/-- The push into the last-result file in one lane (R74). -/
def Group.pushL (g : Group) (lane : Nat) (x : Dword) : Group :=
  g.modRegs fun q =>
    let l := q.l
    let l3 := l.put 0 (vKey 3 lane) (l.get 0 (vKey 2 lane))
    let l2 := l3.put 0 (vKey 2 lane) (l.get 0 (vKey 1 lane))
    let l1 := l2.put 0 (vKey 1 lane) (l.get 0 (vKey 0 lane))
    { q with l := l1.put 0 (vKey 0 lane) x }

/-- R67: the guard of a lane. -/
def Group.guard (g : Group) (h : Hdr) (lane : Nat) : Bool := xor (g.rdP h.gp.val lane) h.gn

def Group.guardLanes (g : Group) (h : Hdr) (m : Lanes) : Lanes := lanesWhere m (g.guard h)

-- The counters (R76)

def Group.ctr (g : Group) : Nat → Nat
  | 0 => g.regs.ld
  | 1 => g.regs.st
  | 2 => g.regs.cp
  | 3 => g.regs.tl
  | _ => 0

def Group.modCtr (g : Group) (k : Nat) (f : Nat → Nat) : Group :=
  g.modRegs fun q =>
    match k with
    | 0 => { q with ld := f q.ld }
    | 1 => { q with st := f q.st }
    | 2 => { q with cp := f q.cp }
    | 3 => { q with tl := f q.tl }
    | _ => q

def Group.incCtr (g : Group) (k : Nat) : Group := g.modCtr k (· + 1)
def Group.decCtr (g : Group) (k : Nat) : Group := g.modCtr k (· - 1)

-- The PC table (R22, R23)

def RunSt.rank : RunSt → Nat
  | .ready => 0
  | .stalled _ => 1
  | .waiting _ => 2
  | .faultParked _ => 3
  | .syscallParked => 4

/-- The order of R22: PC, then state, then older stamp, then lowest lane. -/
def Run.before (a b : Run) : Bool :=
  if a.pc != b.pc then a.pc.toNat < b.pc.toNat
  else if a.st.rank != b.st.rank then a.st.rank < b.st.rank
  else if a.stamp != b.stamp then a.stamp < b.stamp
  else lowest a.lanes < lowest b.lanes

/-- Insert a run in the order of R22. -/
def insRun (r : Run) : List Run → List Run
  | [] => [r]
  | q :: t => if r.before q then r :: q :: t else q :: insRun r t

/-- A run before the others: with the first of them it is one run where both are READY at one PC, with the older stamp (R23). -/
def joinRun (r : Run) : List Run → List Run
  | [] => [r]
  | q :: t =>
    if r.st = .ready ∧ q.st = .ready ∧ r.pc = q.pc then { q with lanes := q.lanes ||| r.lanes, stamp := min q.stamp r.stamp } :: t
    else r :: q :: t

/-- The merge step of R23; READY runs at one PC stand beside one another (R22). -/
def mergeRuns (rs : List Run) : List Run := rs.foldr joinRun []

/-- A run whose instruction has issued and waits only for its release (R228). -/
def Run.awaitsRelease (r : Run) : Bool :=
  match r.st with
  | .waiting w => w.why == .release
  | _ => false

def dropLanes (m : Lanes) (rs : List Run) : List Run :=
  (rs.map fun r => { r with lanes := r.lanes &&& ~~~m }).filter (·.lanes != 0)

def stampOf (m : Lanes) (rs : List Run) (d : Nat) : Nat :=
  match rs.find? (fun r => r.lanes &&& m != 0) with
  | some r => r.stamp
  | none => d

/-- Lanes leave their run and form one with PC, state and stamp given. -/
def Group.place (g : Group) (m : Lanes) (pc : Pc) (st : RunSt) (stamp : Nat) : Group :=
  if m = 0 then g else { g with runs := insRun { lanes := m, pc := pc, st := st, stamp := stamp } (dropLanes m g.runs) }

/-- Lanes of one run go on READY at a PC with the stamp they had (R23). -/
def Group.goto (g : Group) (m : Lanes) (pc : Pc) : Group := g.place m pc .ready (stampOf m g.runs g.sched.issues)

/-- Lanes stay at a PC in another state. -/
def Group.hold (g : Group) (m : Lanes) (pc : Pc) (st : RunSt) : Group := g.place m pc st (stampOf m g.runs g.sched.issues)

/-- Lanes enter READY: they take the stamp of this moment (R24). -/
def Group.wake (g : Group) (m : Lanes) (pc : Pc) : Group := g.place m pc .ready g.sched.issues

/-- Lanes leave the table (R23). -/
def Group.leave (g : Group) (m : Lanes) : Group := { g with runs := dropLanes m g.runs }

def Group.live (g : Group) : Lanes := g.runs.foldl (fun m r => m ||| r.lanes) 0

def Group.pcOf (g : Group) (lane : Nat) : Option Pc := (g.runs.find? (fun r => r.lanes.getLsbD lane)).map (·.pc)

/-- Several destinations: one run per distinct PC, with the parent's stamp (R23). -/
def Group.gotoEach (g : Group) (m : Lanes) (f : Nat → Pc) : Group :=
  let stamp := stampOf m g.runs g.sched.issues
  ((laneList m).map f).eraseDups.foldl (fun g pc => g.place (lanesWhere m fun l => f l == pc) pc .ready stamp) g

def pcAdd (pc : Pc) (n : Nat) : Pc := pc + BitVec.ofNat 48 n
def pcDword (pc : Pc) : Dword := pc.zeroExtend 64
def dwordPc (x : Dword) : Pc := x.truncate 48
/-- An address at which a register sends execution, as a PC: bits [1:0] are zero (R60). DESIGN CHOICE (log 78): bits [1:0] and [63:48] of
a register whose use no rule checks are ignored. -/
def entryPc (x : Dword) : Pc := dwordPc x &&& ~~~3#48

end Sys2Proof.Machine
end

