-- ==== Sys2Proof/Machine/Operands.lean ====
section
/-! DEFINITION. Operands: immediates as operand values (R80), source values in a position (R71 to R73),
addresses of shape MEM (R83), and the registers an instruction names (R17, R355). -/

namespace Sys2Proof

open Machine

-- Immediates (R80)

/-- An integer from −64 to 63 in a format of `mb` fraction bits and exponent bias `bias`; exact. -/
def smallFp (width mb bias : Nat) (v : Int) : Nat :=
  let m := v.natAbs
  if m = 0 then 0 else
    let e := Nat.log2 m
    (if v < 0 then 2 ^ (width - 1) else 0) + (e + bias) * 2 ^ mb + (m * 2 ^ mb / 2 ^ e - 2 ^ mb)

/-- `n` copies of an element of `w` bits. -/
def replicate (w n x : Nat) : Nat :=
  match n with
  | 0 => 0
  | k + 1 => x % 2 ^ w + 2 ^ w * replicate w k x

def imm7Val (t : Ty) (v : BitVec 7) : Dword :=
  let sx (w : Nat) : Nat := (v.toInt % (2 ^ w : Int)).toNat
  BitVec.ofNat 64 <|
    match t with
    | .i64 | .n64 | .b64 => sx 64
    | .f32 => smallFp 32 23 127 v.toInt
    | .f16 => smallFp 16 10 15 v.toInt
    | .bf16 => smallFp 16 7 127 v.toInt
    | .f16x2 => replicate 16 2 (smallFp 16 10 15 v.toInt)
    | .bf16x2 => replicate 16 2 (smallFp 16 7 127 v.toInt)
    | .i16x2 | .n16x2 => replicate 16 2 (sx 16)
    | .i8x4 | .n8x4 => replicate 8 4 (sx 8)
    | _ => sx 32

def imm32Val (t : Ty) (v : Word) : Dword :=
  match t with
  | .i64 | .b64 => v.signExtend 64
  | _ => v.zeroExtend 64

/-- The value of a register in a source position (R71, R72). -/
def Pos.val (p : Pos) (g : Group) (lane : Nat) (r : Reg) : Dword :=
  match p with
  | .src 1 | .psrc | .sbase => (g.rd32 lane r).zeroExtend 64
  | _ => g.rd64 lane r

/-- The value of a source (R80). -/
def srcVal (t : Ty) (p : Pos) (g : Group) (lane : Nat) : Src → Dword
  | .none => 0
  | .reg r => p.val g lane r
  | .imm7 v => imm7Val t v
  | .imm32 v => imm32Val t v
  | .imm64 v => v

/-- The three sources of an ARITH instruction in a lane. -/
def Arith.vals (sp : ArithSpec) (x : Arith) (g : Group) (lane : Nat) : Dword × Dword × Dword :=
  let p (i : Nat) : Pos := (sp.srcs x.ty).getD i (.src 1)
  (srcVal x.ty (p 0) g lane x.a, srcVal x.ty (p 1) g lane x.b, srcVal x.ty (p 2) g lane x.c)

-- Addresses of shape MEM (R83)

def Off.val : Off → Dword
  | .o10 v => v.signExtend 64
  | .i32 v => v.signExtend 64
  | .i64 v => v

/-- A global address: the 64-bit base plus the offset (R83). -/
def MemArg.gaddr (m : MemArg) (g : Group) (lane : Nat) : Nat := (g.rd64 lane m.base + m.off.val).toNat

/-- A scratchpad address: the 32-bit base plus the offset (R83). -/
def MemArg.saddr (m : MemArg) (g : Group) (lane : Nat) : Nat := ((g.rd32 lane m.base).zeroExtend 64 + m.off.val).toNat

-- The registers an instruction names

/-- Registers a position takes: 1, 2 or 4, `sFour` four S registers. -/
def Pos.width : Pos → Nat
  | .src w | .dst w | .dstS w => w
  | .dstVS _ | .gbase | .target => 2
  | .vOnly m => m
  | .sFour => 4
  | _ => 1

/-- A register named, with the number of registers of its file that follow from it. -/
abbrev RegUse := Reg × Nat

def useSrc (p : Pos) : Src → List RegUse
  | .reg r => [(r, p.width)]
  | _ => []

def ArithSpec.uses (sp : ArithSpec) (x : Arith) : List RegUse :=
  let p (i : Nat) : Pos := (sp.srcs x.ty).getD i (.src 1)
  [(x.d, (sp.dst x.ty).width)] ++ useSrc (p 0) x.a ++ useSrc (p 1) x.b ++ useSrc (p 2) x.c

def Cvt.uses (pk : Bool) (x : Cvt) : List RegUse :=
  let w := if pk then 1 else x.sty.regs
  [(x.d, if pk then 1 else x.dty.regs)] ++ useSrc (.src w) x.a ++ useSrc (.src w) x.b

def useOpt (r : Option Reg) (w : Nat) : List RegUse :=
  match r with
  | some r => [(r, w)]
  | none => []

/-- P6, which an instruction writes beside its operands. -/
def useP6 (b : Bool) : List RegUse := if b then [(.p 6, 1)] else []

def MemSpec.uses (sp : MemSpec) (m : MemArg) : List RegUse :=
  let w := m.size.regs
  [(m.base, sp.base.width)] ++ useOpt m.d w ++ useOpt m.b w ++ useP6 m.nf ++
    (if sp.cas then useOpt (m.b.bind (Reg.following w)) w else [])

/-- The ARITH description of an instruction and its operands. -/
def arithOf : Instr → Option (ArithSpec × Arith)
  | .pset _ x => some (specPset, x)
  | .pand _ x | .por _ x | .pxor _ x => some (specPbin, x)
  | .pnot _ x => some (specPnot, x)
  | .iadd _ x | .isub _ x => some (specIadd, x)
  | .imul _ x => some (specImul, x)
  | .imulhi _ x => some (specImulhi, x)
  | .imad _ x => some (specImad, x)
  | .imin _ x | .imax _ x => some (specImin, x)
  | .iabs _ x | .ineg _ x => some (specIabs, x)
  | .and _ x | .or _ x | .xor _ x | .andn _ x => some (specAnd, x)
  | .not _ x | .brev _ x | .mov _ x => some (specNot, x)
  | .shl _ x | .shr _ x => some (specShl, x)
  | .sar _ x => some (specSar, x)
  | .rol _ x | .ror _ x => some (specRol, x)
  | .popc _ x | .clz _ x => some (specPopc, x)
  | .bfe _ x => some (specBfe, x)
  | .bfi _ x => some (specBfi, x)
  | .sel _ x => some (specSel, x)
  | .icmp _ x => some (specIcmp, x)
  | .lea _ x => some (specLea, x)
  | .pxext _ x => some (specPxext, x)
  | .pxins _ x => some (specPxins, x)
  | .pxavg _ x => some (specPxavg, x)
  | .pxabd _ x => some (specPxabd, x)
  | .pxsad _ x => some (specPxsad, x)
  | .pxclp _ x => some (specPxclp, x)
  | .pxnrm _ x => some (specPxnrm, x)
  | .pxdot _ x => some (specPxdot, x)
  | .fadd _ x | .fsub _ x | .fmul _ x => some (specFadd, x)
  | .ffma _ x => some (specFfma, x)
  | .fmin _ x | .fmax _ x => some (specFmin, x)
  | .fabs _ x | .fneg _ x => some (specFabs, x)
  | .fcmp _ x => some (specFcmp, x)
  | .fclass _ x => some (specFclass, x)
  | .frcp _ x | .frsq _ x | .fex2 _ x | .flg2 _ x | .fsin _ x | .fcos _ x => some (specFrcp, x)
  | .shfl _ x => some (specShfl, x)
  | .vote _ x => some (specVote, x)
  | .ballot _ x => some (specBallot, x)
  | .red _ x => some (specRed false, x)
  | .scan _ x => some (specRed true, x)
  | _ => none

/-- The MEM description of an instruction and its operands. -/
def memOf : Instr → Option (MemSpec × MemArg)
  | .ld _ m => some (specLd, m)
  | .st _ m => some (specSt, m)
  | .lds _ m => some (specLds, m)
  | .sts _ m => some (specSts, m)
  | .ldfeKeep _ m | .ldfeClear _ m => some (specLdfe, m)
  | .stfeKeep _ m | .stfeClear _ m => some (specStfe, m)
  | .pref _ m => some (specPref, m)
  | .atomAdd _ m | .atomMin _ m | .atomMax _ m | .atomAnd _ m | .atomOr _ m | .atomXor _ m | .atomExch _ m => some (specAtom, m)
  | .atomCas _ m => some (specCas, m)
  | _ => none

/-- The registers named by an instruction of neither shape. -/
def ownUses : Instr → List RegUse
  | .brany _ p _ | .brall _ p _ => [(.p p, 1)]
  | .call _ d _ => [(d, 2)]
  | .ret _ a | .jmp _ a _ => [(a, 2)]
  | .cvt _ x => x.uses false
  | .cvpk _ x => x.uses true
  | .cpy _ x => useOpt x.d 1 ++ [(x.a, 2)]
  | .cpyMc _ x => useOpt x.d 1 ++ [(x.a, 2)] ++ useOpt x.b 1
  | .hwaitFull _ d _ | .hwaitEmpty _ d _ => [(d, 1)]
  | .hsetBind _ _ _ a b => [(a, 1), (b, 1)]
  | .tset _ _ a | .tget _ _ a | .mxb _ _ _ _ a | .mxdrain _ _ _ _ a | .mxdrainAdd _ _ _ _ a => [(a, 2)]
  | .mxa _ _ _ _ _ (.spad a) => [(a, 2)]
  | .mxa _ _ _ _ _ (.regs _ w vb) => [(.v vb, if w then 129 else 65)]
  | .barArr _ _ _ d => useOpt d 1
  | .barWait _ _ _ a => [(a, 1)]
  | .sbcast _ _ _ a => [(a, 2)]
  | .reply _ a | .tmset _ _ a => [(a, 2)]
  | .sbrecv _ _ d => [(d, 2)]
  | .chsend _ _ a | .chrecv _ _ a => [(a, 1)]
  | .dirdel _ a => [(a, 1), (.p 6, 1)]
  | .mbput _ tr a b => [(a, 2), (b, 2)] ++ useP6 tr
  | .mbget _ tr d a => [(d, 2), (a, 2)] ++ useP6 tr
  | .dirins _ _ d a b => [(d, 1), (a, 2), (b, 2)]
  | .tmove _ d a b => [(d, 1), (a, 1), (b, 1)]
  | .solicit _ _ d k => [(d, 1), (.s k, 4)]
  | .census _ d a => [(d, 2), (a, 1), (.p 6, 1)]
  | .cenpoll _ p a => [(.p p, 1), (a, 1)]
  | .nrec _ a b => [(a, 1), (b, 1)]
  | .svqpop _ d => [(.v d, 16), (.p 6, 1)]
  | .sysret _ a b => [(a, 2), (b, 2), (.p 6, 1)]
  | .sysrd _ n d => [(d, sysregRegs n)]
  | .syswr _ n a => [(a, sysregRegs n)]
  | .trapqPop _ d => [(d, 1)]
  | .trapretWrite _ a | .ipiWrite _ a | .smapStageWrite _ a | .oemodeWrite _ a => [(a, 1)]
  | .wdogWrite _ a | .laneCounterClear _ _ a => [(a, 2)]
  | .tlbinv _ _ _ a b => useOpt a 2 ++ useOpt b 1
  | .cwb _ a | .cinv _ _ a => useOpt a 2
  | .launch _ d a => [(d, 1), (a, 2)]
  | .sread _ x | .swrite _ x => useOpt x.d 1 ++ [(x.a, 2), (x.b, 1), (x.c, if x.kind = .global then 2 else 1)]
  | .nsend _ x => useOpt x.d 1 ++ [(x.a, 1)] ++ useOpt x.b 1
  | .nrecv _ d a b => [(d, 1), (a, 2), (b, 1)]
  | _ => []

/-- The registers an instruction names as source or destination. -/
def regUses (i : Instr) : List RegUse :=
  match arithOf i with
  | some (sp, x) => sp.uses x
  | none => match memOf i with
    | some (sp, m) => sp.uses m
    | none => ownUses i

/-- R17: a V register at or beyond the budget. -/
def breaksBudget (n : Nat) (i : Instr) : Bool :=
  (regUses i).any fun
    | (.v k, w) => k.val + w > n
    | _ => false

/-- The register codes a use stands for; the constants and P7 hold no state. -/
def RegUse.codes : RegUse → List Nat
  | (.v k, w) => (List.range w).map (k.val + ·)
  | (.o k, w) => (List.range w).map (384 + k.val + ·)
  | (.l k, _) => [400 + k.val]
  | (.s k, 4) => (List.range 4).map (404 + k.val + ·)
  | (.s k, _) => [404 + k.val]
  | (.p k, _) => if k = 7 then [] else [468 + k.val]
  | _ => []

/-- Every code an instruction reads or writes, its guard among them (R355). -/
def useCodes (h : Hdr) (i : Instr) : List Nat := RegUse.codes (.p h.gp, 1) ++ (regUses i).flatMap RegUse.codes

end Sys2Proof
end

