-- ==== Sys2Proof/Machine/Flags.lean ====
section
/-! DEFINITION. Values and flags: the floating-point formats, rounding, exceptions and NaNs of R38 to R50,
clamping (R99), and the approximations of R133. Flags stand as in SYS.FPSTAT (R44). -/

namespace Sys2Proof.Machine

-- Flags (R42, R44)

abbrev Fl := Word
def flNV : Fl := 0x1
def flDZ : Fl := 0x2
def flOF : Fl := 0x4
def flUF : Fl := 0x8
def flNX : Fl := 0x10
def flISAT : Fl := 0x80
def flIf (b : Bool) (f : Fl) : Fl := if b then f else 0

-- Integers (R99)

/-- The least and greatest value of an integer of `w` bits. -/
def intMin (signed : Bool) (w : Nat) : Int := if signed then -(2 ^ (w - 1) : Int) else 0
def intMax (signed : Bool) (w : Nat) : Int := if signed then 2 ^ (w - 1) - 1 else 2 ^ w - 1

def toInt (signed : Bool) (w : Nat) (x : Nat) : Int :=
  let y := x % 2 ^ w
  if signed && y ≥ 2 ^ (w - 1) then (y : Int) - 2 ^ w else y

/-- Wrap of R99. -/
def wrapInt (w : Nat) (v : Int) : Nat := (v % (2 ^ w : Int)).toNat

/-- Sat of R99: the image, and whether the value was clamped. -/
def satInt (signed : Bool) (w : Nat) (v : Int) : Nat × Bool :=
  let lo := intMin signed w
  let hi := intMax signed w
  if v < lo then (wrapInt w lo, true) else if v > hi then (wrapInt w hi, true) else (wrapInt w v, false)

/-- The image of an exact integer, wrapped or saturated (R99). -/
def narrow (sat signed : Bool) (w : Nat) (v : Int) : Nat × Fl :=
  if sat then ((satInt signed w v).1, flIf (satInt signed w v).2 flISAT) else (wrapInt w v, 0)

-- Formats (R38)

structure Fmt where
  w : Nat
  mb : Nat
  bias : Nat
  deriving DecidableEq, Repr

def fmt32 : Fmt := { w := 32, mb := 23, bias := 127 }
def fmt16 : Fmt := { w := 16, mb := 10, bias := 15 }
def fmtB16 : Fmt := { w := 16, mb := 7, bias := 127 }

def Fmt.expMax (f : Fmt) : Nat := 2 ^ (f.w - 1 - f.mb) - 1

/-- What an encoding denotes (R39); a finite value is its magnitude times 2 to the exponent. -/
inductive Fp where
  | nan (quiet : Bool)
  | inf (neg : Bool)
  | fin (neg : Bool) (m : Nat) (e : Int)
  deriving DecidableEq, Repr

def Fmt.sign (f : Fmt) (x : Nat) : Bool := x / 2 ^ (f.w - 1) % 2 == 1
def Fmt.expo (f : Fmt) (x : Nat) : Nat := x / 2 ^ f.mb % 2 ^ (f.w - 1 - f.mb)
def Fmt.frac (f : Fmt) (x : Nat) : Nat := x % 2 ^ f.mb

def Fmt.dec (f : Fmt) (x : Nat) : Fp :=
  let ex := f.expo x
  let fr := f.frac x
  if ex = f.expMax then (if fr = 0 then .inf (f.sign x) else .nan (fr ≥ 2 ^ (f.mb - 1)))
  else if ex = 0 then .fin (f.sign x) fr (1 - (f.bias : Int) - f.mb)
  else .fin (f.sign x) (2 ^ f.mb + fr) ((ex : Int) - f.bias - f.mb)

def Fmt.signBit (f : Fmt) (neg : Bool) : Nat := if neg then 2 ^ (f.w - 1) else 0
def Fmt.inf (f : Fmt) (neg : Bool) : Nat := f.signBit neg + f.expMax * 2 ^ f.mb
def Fmt.maxFin (f : Fmt) (neg : Bool) : Nat := f.inf neg - 1

def Fmt.isNaN (f : Fmt) (x : Nat) : Bool := f.expo x == f.expMax && f.frac x != 0
def Fmt.isSNaN (f : Fmt) (x : Nat) : Bool := f.isNaN x && f.frac x < 2 ^ (f.mb - 1)
def Fmt.isSub (f : Fmt) (x : Nat) : Bool := f.expo x == 0 && f.frac x != 0
/-- R47: a NaN with its quiet bit set. -/
def Fmt.quiet (f : Fmt) (x : Nat) : Nat := if f.isSNaN x then x + 2 ^ (f.mb - 1) else x
/-- R41: a subnormal operand as a zero of its sign. -/
def Fmt.flush (f : Fmt) (ftz : Bool) (x : Nat) : Nat := if ftz && f.isSub x then f.signBit (f.sign x) else x

-- Rounding (R40)

/-- A magnitude of `sh` excess bits rounded to an integer. -/
def roundBits (rnd : Rnd) (neg : Bool) (m sh : Nat) : Nat × Bool :=
  let q := m / 2 ^ sh
  let r := m % 2 ^ sh
  let up := match rnd with
    | .rne => decide (2 * r > 2 ^ sh) || (2 * r == 2 ^ sh && q % 2 == 1)
    | .rz => false
    | .rp => !neg && r != 0
    | .rm => neg && r != 0
  (if up then q + 1 else q, r != 0)

/-- m * 2^e to a multiple of 2^q: the multiple and whether it is inexact. -/
def roundTo (rnd : Rnd) (neg : Bool) (m : Nat) (e q : Int) : Nat × Bool :=
  if e ≥ q then (m * 2 ^ (e - q).toNat, false) else roundBits rnd neg m (q - e).toNat

/-- A nonzero exact value rounded to a format, with OF, UF and NX of R42 and the flush of R41. -/
def Fmt.round (f : Fmt) (ftz : Bool) (rnd : Rnd) (neg : Bool) (m : Nat) (e : Int) : Nat × Fl :=
  if m = 0 then (f.signBit neg, 0) else
  let top := (Nat.log2 m : Int) + e
  let emin : Int := 1 - f.bias
  let q := max top emin - f.mb
  let (n, inexact) := roundTo rnd neg m e q
  if n = 0 then (f.signBit neg, flIf inexact (flUF ||| flNX)) else
  if (Nat.log2 n : Int) + q > f.bias then
    (if rnd == .rne || (rnd == .rp && !neg) || (rnd == .rm && neg) then f.inf neg else f.maxFin neg, flOF ||| flNX)
  else
    let tiny := decide (top < emin) &&
      (let (k, _) := roundTo rnd neg m e (top - f.mb)
       decide ((Nat.log2 k : Int) + (top - f.mb) < emin))
    let bits :=
      if n < 2 ^ f.mb then n
      else
        let s := Nat.log2 n - f.mb
        n / 2 ^ s + ((q + s + f.bias + f.mb - 1).toNat * 2 ^ f.mb)
    if ftz && bits != 0 && bits < 2 ^ f.mb then (f.signBit neg, flUF ||| flNX)
    else (f.signBit neg + bits, flIf inexact flNX ||| flIf (tiny && inexact) flUF)

-- NaNs (R46)

structure FpEnv where
  ftz : Bool
  rnd : Rnd
  lane : Nat
  pc : Pc

def foldPc (pc : Pc) : Nat :=
  let q := pc.toNat / 4
  (q % 65536) ^^^ (q / 65536 % 65536) ^^^ (q / 2 ^ 32 % 65536)

def Fmt.origin (f : Fmt) (v : FpEnv) : Nat :=
  let base := f.inf false + 2 ^ (f.mb - 1)
  if f.mb = 23 then base + v.lane * 65536 + foldPc v.pc
  else if f.mb = 10 then base + v.lane * 8 + foldPc v.pc % 8
  else base + v.lane

/-- The first NaN of the operands made quiet, and NV when one is signalling (R47). -/
def Fmt.firstNaN (f : Fmt) (xs : List Nat) : Option Nat := (xs.find? f.isNaN).map f.quiet
def Fmt.snanFl (f : Fmt) (xs : List Nat) : Fl := flIf (xs.any f.isSNaN) flNV

-- Sums and products (R128)

/-- The exact sum of two finite values, rounded. -/
def Fmt.addFin (f : Fmt) (v : FpEnv) (n1 : Bool) (m1 : Nat) (e1 : Int) (n2 : Bool) (m2 : Nat) (e2 : Int) : Nat × Fl :=
  let e := min e1 e2
  let i1 : Int := (if n1 then -1 else 1) * (m1 * 2 ^ (e1 - e).toNat : Nat)
  let i2 : Int := (if n2 then -1 else 1) * (m2 * 2 ^ (e2 - e).toNat : Nat)
  let s := i1 + i2
  if s = 0 then (f.signBit (if n1 = n2 then n1 else v.rnd == .rm), 0)
  else f.round v.ftz v.rnd (s < 0) s.natAbs e

def Fmt.addFp (f : Fmt) (v : FpEnv) (a b : Fp) : Nat × Fl :=
  match a, b with
  | .inf n1, .inf n2 => if n1 = n2 then (f.inf n1, 0) else (f.origin v, flNV)
  | .inf n1, _ => (f.inf n1, 0)
  | _, .inf n2 => (f.inf n2, 0)
  | .fin n1 m1 e1, .fin n2 m2 e2 => f.addFin v n1 m1 e1 n2 m2 e2
  | _, _ => (f.origin v, flNV)

/-- The exact product; none when 0 × ∞. -/
def mulFp (a b : Fp) : Option Fp :=
  match a, b with
  | .inf n1, .inf n2 => some (.inf (xor n1 n2))
  | .inf n1, .fin n2 m _ => if m = 0 then none else some (.inf (xor n1 n2))
  | .fin n1 m _, .inf n2 => if m = 0 then none else some (.inf (xor n1 n2))
  | .fin n1 m1 e1, .fin n2 m2 e2 => some (.fin (xor n1 n2) (m1 * m2) (e1 + e2))
  | _, _ => none

def Fmt.add (f : Fmt) (v : FpEnv) (x y : Nat) : Nat × Fl :=
  let x := f.flush v.ftz x
  let y := f.flush v.ftz y
  match f.firstNaN [x, y] with
  | some r => (r, f.snanFl [x, y])
  | none => f.addFp v (f.dec x) (f.dec y)

/-- a − b is a + (−b), but a NaN operand keeps its sign (R47). -/
def Fmt.sub (f : Fmt) (v : FpEnv) (x y : Nat) : Nat × Fl :=
  let x := f.flush v.ftz x
  let y := f.flush v.ftz y
  match f.firstNaN [x, y] with
  | some r => (r, f.snanFl [x, y])
  | none => f.addFp v (f.dec x) (f.dec (y ^^^ 2 ^ (f.w - 1)))

def Fmt.mul (f : Fmt) (v : FpEnv) (x y : Nat) : Nat × Fl :=
  let x := f.flush v.ftz x
  let y := f.flush v.ftz y
  match f.firstNaN [x, y] with
  | some r => (r, f.snanFl [x, y])
  | none => match mulFp (f.dec x) (f.dec y) with
    | none => (f.origin v, flNV)
    | some (.inf n) => (f.inf n, 0)
    | some (.fin n m e) => f.round v.ftz v.rnd n m e
    | some (.nan _) => (f.origin v, flNV)

def Fmt.fma (f : Fmt) (v : FpEnv) (x y z : Nat) : Nat × Fl :=
  let x := f.flush v.ftz x
  let y := f.flush v.ftz y
  let z := f.flush v.ftz z
  let zeroInf := match f.dec x, f.dec y with
    | .inf _, .fin _ 0 _ | .fin _ 0 _, .inf _ => true
    | _, _ => false
  match f.firstNaN [x, y, z] with
  | some r => (r, f.snanFl [x, y, z] ||| flIf zeroInf flNV)
  | none => match mulFp (f.dec x) (f.dec y) with
    | none => (f.origin v, flNV)
    | some p => f.addFp v p (f.dec z)

/-- The order of finite values and infinities with −0 below +0 (R129): a key. -/
def Fmt.key (f : Fmt) (x : Nat) : Int :=
  let m : Int := x % 2 ^ (f.w - 1)
  if f.sign x then -m - 1 else m

def Fmt.minMax (f : Fmt) (v : FpEnv) (mx : Bool) (x y : Nat) : Nat × Fl :=
  let x := f.flush v.ftz x
  let y := f.flush v.ftz y
  match f.firstNaN [x, y] with
  | some r => (r, f.snanFl [x, y])
  | none => (if decide (f.key x < f.key y) != mx then x else y, 0)

/-- `fabs` and `fneg` (R130). -/
def Fmt.signOp (f : Fmt) (v : FpEnv) (neg : Bool) (x : Nat) : Nat × Fl :=
  let x := f.flush v.ftz x
  if f.isNaN x then (f.quiet x, f.snanFl [x])
  else (if neg then x ^^^ 2 ^ (f.w - 1) else x % 2 ^ (f.w - 1), 0)

/-- R81, R131: a comparison and its NV. -/
def Fmt.cmp (f : Fmt) (ftz : Bool) (cond : Nat) (x y : Nat) : Bool × Fl :=
  let x := f.flush ftz x
  let y := f.flush ftz y
  let uno := f.isNaN x || f.isNaN y
  let k (z : Nat) : Int := if z % 2 ^ (f.w - 1) = 0 then 0 else f.key z
  let val (x : Nat) : Int := if f.sign x && k x != 0 then k x + 1 else k x
  let r := match cond with
    | 0 => !uno && val x == val y
    | 1 => uno || val x != val y
    | 2 => !uno && decide (val x < val y)
    | 3 => !uno && decide (val x ≤ val y)
    | 4 => !uno && decide (val x > val y)
    | 5 => !uno && decide (val x ≥ val y)
    | 6 => !uno
    | _ => uno
  (r, if 2 ≤ cond ∧ cond ≤ 5 then flIf uno flNV else f.snanFl [x, y])

/-- R132. -/
def Fmt.classOf (f : Fmt) (x : Nat) : Nat :=
  let s := f.sign x
  match f.dec x with
  | .inf _ => if s then 1 else 128
  | .nan q => if q then 512 else 256
  | .fin _ m _ =>
    if m = 0 then (if s then 8 else 16)
    else if f.isSub x then (if s then 4 else 32)
    else if s then 2 else 64

-- Conversions (R48, R50)

/-- R48: the fraction of a NaN between formats, through the FP32 places. -/
def cvtNaN (src dst : Fmt) (x : Nat) : Nat :=
  let fr := src.frac x
  let lane := if src.mb = 23 then fr / 65536 % 64 else if src.mb = 10 then fr / 8 % 64 else fr % 64
  let fold := if src.mb = 7 then 0 else fr % 8
  let low := if dst.mb = 23 then lane * 65536 + fold else if dst.mb = 10 then lane * 8 + fold else lane
  if src = dst then src.quiet x else dst.inf (src.sign x) + 2 ^ (dst.mb - 1) + low

def cvtFpFp (src dst : Fmt) (v : FpEnv) (x : Nat) : Nat × Fl :=
  let x := src.flush v.ftz x
  match src.dec x with
  | .nan q => (cvtNaN src dst x, flIf (!q) flNV)
  | .inf n => (dst.inf n, 0)
  | .fin n m e => dst.round v.ftz v.rnd n m e

def cvtIntFp (dst : Fmt) (v : FpEnv) (i : Int) : Nat × Fl :=
  if i = 0 then (0, 0) else dst.round v.ftz v.rnd (i < 0) i.natAbs 0

def cvtFpInt (src : Fmt) (v : FpEnv) (signed : Bool) (w : Nat) (x : Nat) : Nat × Fl :=
  let x := src.flush v.ftz x
  match src.dec x with
  | .nan _ => (0, flNV)
  | .inf n => (wrapInt w (if n then intMin signed w else intMax signed w), flNV)
  | .fin n m e =>
    let (k, inexact) := roundTo v.rnd n m e 0
    let i : Int := if n then -(k : Int) else k
    let (r, clamped) := satInt signed w i
    (r, if clamped then flNV else flIf inexact flNX)

/-- Between integers: to a wider one extended, else clamped. -/
def cvtIntInt (ssigned : Bool) (sw : Nat) (dsigned : Bool) (dw : Nat) (x : Nat) : Nat × Fl :=
  let i := toInt ssigned sw x
  if sw < dw then (wrapInt dw i, 0)
  else
    let (r, clamped) := satInt dsigned dw i
    (r, flIf clamped flISAT)

-- Approximations (R133, R134)

/-- Is a finite FP32 value within tol * 2^te of ±n * 2^e? -/
def nearFp (neg : Bool) (n : Nat) (e : Int) (tol : Nat) (te : Int) (c : Nat) : Bool :=
  match fmt32.dec c with
  | .fin s m ex =>
    let q := min (min e ex) te
    let a : Int := (if s then -1 else 1) * (m * 2 ^ (ex - q).toNat : Nat)
    let b : Int := (if neg then -1 else 1) * (n * 2 ^ (e - q).toNat : Nat)
    decide ((a - b).natAbs ≤ tol * 2 ^ (te - q).toNat)
  | _ => false

/-- The exponent of one ulp of FP32 in the binade of n * 2^e (R133). -/
def ulpExp (n : Nat) (e : Int) : Int := max ((Nat.log2 n : Int) + e) (-126) - 23

/-- UNVERIFIED (log 7): the candidate where it keeps the bound of R133, else the nearest value to ±n * 2^e, the value approximated;
NX, with OF and UF for the value delivered (R42). DESIGN CHOICE (log 7): a delivered zero is an underflow where that value is tiny. -/
def approx (ftz : Bool) (cand : Word) (neg : Bool) (n : Nat) (e : Int) (keeps : Nat → Bool) : Nat × Fl :=
  let r := if keeps cand.toNat then cand.toNat else (fmt32.round false .rne neg (2 * n + 1) (e - 1)).1
  let ovf := fmt32.expo r == 255
  let tiny := decide ((Nat.log2 n : Int) + e < -126)
  let under := fmt32.expo r == 0 && (fmt32.frac r != 0 || tiny)
  (fmt32.flush ftz r, flNX ||| flIf ovf flOF ||| flIf under flUF)

/-- Is c within one unit 2^te of 1 / (±m * 2^e)? -/
def nearRecip (neg : Bool) (m : Nat) (e te : Int) (c : Nat) : Bool :=
  match fmt32.dec c with
  | .fin s mc ec =>
    let q := min (min 0 (ec + e)) (te + e)
    let a : Int := (if s = neg then 1 else -1) * (mc * m * 2 ^ (ec + e - q).toNat : Nat)
    decide ((a - 2 ^ (-q).toNat).natAbs ≤ m * 2 ^ (te + e - q).toNat)
  | _ => false

/-- Is c within two units 2^te of 1 / √(m * 2^e)? -/
def nearRoot (m : Nat) (e te : Int) (c : Nat) : Bool :=
  match fmt32.dec c with
  | .fin s mc ec =>
    let q := min ec te
    let u := 2 * 2 ^ (te - q).toNat
    let k := mc * 2 ^ (ec - q).toNat
    let p := 2 * q + e
    let up (x : Nat) : Nat := x * x * m * 2 ^ p.toNat
    let one := 2 ^ (-p).toNat
    !s && decide (one ≤ up (k + u)) && (decide (k ≤ u) || decide (up (k - u) ≤ one))
  | _ => false

/-- An exact value ±2^k of R133: representable, or an overflow. -/
def exactPow (ftz : Bool) (neg : Bool) (k : Int) : Nat × Fl := fmt32.round ftz .rne neg 1 k

def isPow2 (m : Nat) : Bool := m != 0 && m == 2 ^ Nat.log2 m

def frcpVal (v : FpEnv) (free : Word) (x : Nat) : Nat × Fl :=
  match fmt32.dec x with
  | .nan q => (fmt32.quiet x, flIf (!q) flNV)
  | .inf s => (fmt32.signBit s, 0)
  | .fin s 0 _ => (fmt32.inf s, flDZ)
  | .fin s m e =>
    if isPow2 m then exactPow v.ftz s (-((Nat.log2 m : Int) + e))
    else
      let n := 2 ^ (64 + Nat.log2 m) / m
      let ne := -e - 64 - (Nat.log2 m : Int)
      approx v.ftz free s n ne (nearRecip s m e (ulpExp n ne))

def frsqVal (v : FpEnv) (free : Word) (x : Nat) : Nat × Fl :=
  match fmt32.dec x with
  | .nan q => (fmt32.quiet x, flIf (!q) flNV)
  | .inf false => (0, 0)
  | .inf true => (fmt32.origin v, flNV)
  | .fin s 0 _ => (fmt32.inf s, flDZ)
  | .fin true _ _ => (fmt32.origin v, flNV)
  | .fin false m e =>
    let lg := (Nat.log2 m : Int) + e
    if isPow2 m && lg % 2 == 0 then exactPow v.ftz false (-(lg / 2))
    else
      let m' := if e % 2 = 0 then m else 2 * m
      let e' := if e % 2 = 0 then e else e - 1
      let n := Nat.sqrt (2 ^ 200 / m')
      let ne := -(e' / 2) - 100
      approx v.ftz free false n ne (nearRoot m e (ulpExp n ne))

/-- 2^f at scale 2^−256 for f = frac / 2^160: the product of the roots of 2 that the bits of f name. -/
def pow2Fix : Nat → Nat → Nat → Nat → Nat
  | 0, _, _, acc => acc
  | k + 1, frac, root, acc =>
    let root := Nat.sqrt (root * 2 ^ 256)
    let frac := 2 * frac
    if frac ≥ 2 ^ 160 then pow2Fix k (frac - 2 ^ 160) root (acc * root / 2 ^ 256) else pow2Fix k frac root acc

/-- Every finite FP32 value is an integer at scale 2^−160. -/
def fix160 (s : Bool) (m : Nat) (e : Int) : Int := (if s then -1 else 1) * (m * 2 ^ (e + 160).toNat : Nat)

def fex2Val (v : FpEnv) (free : Word) (x : Nat) : Nat × Fl :=
  match fmt32.dec x with
  | .nan q => (fmt32.quiet x, flIf (!q) flNV)
  | .inf false => (fmt32.inf false, 0)
  | .inf true => (0, 0)
  | .fin _ 0 _ => (0x3F800000, 0)
  | .fin s m e =>
    if (Nat.log2 m : Int) + e ≥ 9 then
      if s then approx v.ftz free false 1 (-600) (nearFp false 1 (-600) 2 (-149)) else (fmt32.inf false, flOF ||| flNX)
    else
      let i := fix160 s m e
      let fl := i / (2 ^ 160 : Int)
      let frac := (i % (2 ^ 160 : Int)).toNat
      if frac = 0 ∧ fl ≥ -149 then exactPow v.ftz false fl
      else
        let n := pow2Fix 160 frac (2 ^ 257) (2 ^ 256)
        approx v.ftz free false n (fl - 256) (nearFp false n (fl - 256) 2 (ulpExp n (fl - 256)))

/-- log2 of y / 2^256, for y from 2^256 to 2^257, bit by bit at scale 2^−k. -/
def log2Fix : Nat → Nat → Nat → Nat
  | 0, _, acc => acc
  | k + 1, y, acc =>
    let y := y * y / 2 ^ 256
    if y ≥ 2 ^ 257 then log2Fix k (y / 2) (2 * acc + 1) else log2Fix k y (2 * acc)

def flg2Val (v : FpEnv) (free : Word) (x : Nat) : Nat × Fl :=
  match fmt32.dec x with
  | .nan q => (fmt32.quiet x, flIf (!q) flNV)
  | .inf false => (fmt32.inf false, 0)
  | .inf true => (fmt32.origin v, flNV)
  | .fin _ 0 _ => (fmt32.inf true, flDZ)
  | .fin true _ _ => (fmt32.origin v, flNV)
  | .fin false m e =>
    let lg := (Nat.log2 m : Int) + e
    if isPow2 m then
      if lg = 0 then (0, 0) else fmt32.round v.ftz .rne (lg < 0) lg.natAbs 0
    else
      let f := log2Fix 160 (m * 2 ^ 256 / 2 ^ Nat.log2 m) 0
      let i := lg * 2 ^ 160 + (f : Int)
      let half := lg = 0 ∨ lg = -1
      approx v.ftz free (i < 0) i.natAbs (-160)
        (nearFp (i < 0) i.natAbs (-160) (if half then 1 else 2) (if half then -22 else ulpExp i.natAbs (-160)))

/-- 2 π at scale 2^−160. -/
def twoPiFix : Nat := 9182885614096437842769610399486622256908310048836

/-- The series of sine (from the first power) or cosine (from the zeroth) at scale 2^−160. -/
def trigSeries : Nat → Nat → Int → Int → Int → Int
  | 0, _, _, _, acc => acc
  | n + 1, j, x2, term, acc =>
    let acc := acc + term
    trigSeries n (j + 2) x2 (-(term * x2 / 2 ^ 160) / ((j + 1) * (j + 2) : Nat)) acc

/-- sin or cos of a finite value, at scale 2^−160; the argument is reduced modulo 2 π. -/
def trigFix (cos : Bool) (s : Bool) (m : Nat) (e : Int) : Int :=
  let r := fix160 s m e % (twoPiFix : Int)
  let r := if 2 * r > twoPiFix then r - twoPiFix else r
  let r2 := r * r / 2 ^ 160
  if cos then trigSeries 32 0 r2 (2 ^ 160) 0 else trigSeries 32 1 r2 r 0

def trigVal (cos : Bool) (v : FpEnv) (free : Word) (x : Nat) : Nat × Fl :=
  match fmt32.dec x with
  | .nan q => (fmt32.quiet x, flIf (!q) flNV)
  | .inf _ => (fmt32.origin v, flNV)
  | .fin s 0 _ => (if cos then 0x3F800000 else fmt32.signBit s, 0)
  | .fin s m e =>
    -- 1,024 π = 0x45490FDB, rounded up
    if x % 2 ^ 31 ≤ 0x45490FDA then
      let t := trigFix cos s m e
      approx v.ftz free (t < 0) t.natAbs (-160) (nearFp (t < 0) t.natAbs (-160) 1 (-21))
    else
      let r := if free.toNat % 2 ^ 31 ≤ 0x3F800000 then free.toNat else 0
      (fmt32.flush v.ftz r, flNX ||| flIf (fmt32.expo r == 0 && fmt32.frac r != 0) flUF)

-- The result of one lane, and packed results

structure Res where
  val : Dword
  fl : Fl
  deriving DecidableEq, Repr

def bool64 (b : Bool) : Dword := if b then 1 else 0
def ones (w : Nat) : Nat := 2 ^ w - 1

def Res.ofNat (x : Nat) : Res := { val := BitVec.ofNat 64 x, fl := 0 }
def Res.of (x : Nat × Fl) : Res := { val := BitVec.ofNat 64 x.1, fl := x.2 }

/-- Element `i` of `w` bits. -/
def elem (w i x : Nat) : Nat := x / 2 ^ (w * i) % 2 ^ w

/-- Each of `n` elements of `w` bits on its own, the flags united. -/
def packed (w n : Nat) (f : Nat → Nat × Fl) : Nat × Fl :=
  (List.range n).foldl (fun a i => let r := f i; (a.1 + r.1 % 2 ^ w * 2 ^ (w * i), a.2 ||| r.2)) (0, 0)

/-- Format, and number of elements, of an FP type. -/
def fpShape : Ty → Fmt × Nat
  | .f32 => (fmt32, 1)
  | .f16 => (fmt16, 1)
  | .bf16 => (fmtB16, 1)
  | .f16x2 => (fmt16, 2)
  | _ => (fmtB16, 2)

/-- Signedness, width and number of elements of an integer type (R49). -/
def intShape : Ty → Bool × Nat × Nat
  | .i32 => (true, 32, 1)
  | .i64 => (true, 64, 1)
  | .n64 => (false, 64, 1)
  | .b64 => (false, 64, 1)
  | .i16 => (true, 16, 1)
  | .n16 => (false, 16, 1)
  | .i8 => (true, 8, 1)
  | .n8 => (false, 8, 1)
  | .i16x2 => (true, 16, 2)
  | .n16x2 => (false, 16, 2)
  | .i8x4 => (true, 8, 4)
  | .n8x4 => (false, 8, 4)
  | _ => (false, 32, 1)

end Sys2Proof.Machine
end

