-- ==== Sys2Proof/Machine/Memory.lean ====
section
/-! DEFINITION. Memory: HBM under its keys and the home slices' lines (R224, R225, R312, R352), the L1,
page tables and TLBs (R302 to R305), the scratchpads (R146, R238, R239). -/

namespace Sys2Proof.Machine

/-- DESIGN CHOICE (log 2), unsafe: a byte of HBM that nothing has written was encrypted from zero. -/
def memDefault : Byte := 0

/-- A key of zeros. DESIGN CHOICE (log 3): what a slot holds before a key is loaded, and what a sector was encrypted with that nothing
has written. -/
def keyZero : Sys2Proof.Config.Key := .loaded 0

/-- The key in the slot that a key id names. -/
def MemSys.ver (m : MemSys) (key : Nat) : Sys2Proof.Config.Key := m.keySlots.get keyZero key

/-- A byte of HBM decrypted with a key (R225). -/
def MemSys.hbm (m : MemSys) (ver : Sys2Proof.Config.Key) (pa : Nat) : Byte :=
  let sk := m.secKey.get keyZero (pa / 32)
  let b := SMap.get memDefault m.mem pa
  if sk = ver then b else Sys2Proof.Config.wrongKeyByte sk ver pa b

/-- A byte of the line that is held. -/
def MemSys.lineByte (m : MemSys) (pa : Nat) : Byte :=
  match m.l2.find (pa / 256) with
  | some l => match l.data.find (pa % 256) with
    | some b => b
    | none => m.hbm l.ver pa
  | none => m.hbm (m.ver 0) pa

/-- Write back one sector of a held line (R225). -/
def MemSys.backSector (m : MemSys) (line : Nat) (l : L2Line) (sec : Nat) : MemSys :=
  if l.data.any (fun p => p.1 / 32 == sec) then
    { m with
      mem := (List.range 32).foldl (fun a i => SMap.put memDefault a (line * 256 + sec * 32 + i) (m.lineByte (line * 256 + sec * 32 + i))) m.mem
      secKey := m.secKey.put keyZero (line * 8 + sec) (m.ver l.key) }
  else m

/-- Write a line's dirty sectors back under its key and drop it. -/
def MemSys.backLine (m : MemSys) (line : Nat) : MemSys :=
  match m.l2.find line with
  | some l =>
    let m' := (List.range 8).foldl (fun a sec => a.backSector line l sec) m
    { m' with l2 := m'.l2.del line }
  | none => m

/-- Hold the line of an address under a key (R225). -/
def MemSys.touch (m : MemSys) (key pa : Nat) : MemSys :=
  let line := pa / 256
  let fill (m : MemSys) : MemSys := { m with l2 := m.l2.ins line { key := key, ver := m.ver key, data := [] } }
  match m.l2.find line with
  | some l => if l.key = key then m else fill (m.backLine line)
  | none => fill m

/-- A byte read at its home slice. -/
def MemSys.byte (m : MemSys) (key pa : Nat) : Byte := (m.touch key pa).lineByte pa

def MemSys.bytes (m : MemSys) (key pa n : Nat) : List Byte := (List.range n).map fun i => m.byte key (pa + i)

/-- A byte written at its home slice. -/
def MemSys.write1 (m : MemSys) (key pa : Nat) (b : Byte) : MemSys :=
  let m := m.touch key pa
  match m.l2.find (pa / 256) with
  | some l => { m with l2 := m.l2.ins (pa / 256) { l with data := l.data.ins (pa % 256) b } }
  | none => m

def MemSys.write (m : MemSys) (key : Nat) : Nat → List Byte → MemSys
  | _, [] => m
  | pa, b :: t => (m.write1 key pa b).write key (pa + 1) t

/-- A little-endian number of `n` bytes at its home slice (R8). -/
def MemSys.nat (m : MemSys) (key pa n : Nat) : Nat := leNat (m.bytes key pa n)

/-- A range touches a sector of HBM that holds an uncorrectable error (R148). -/
def MemSys.bad (m : MemSys) (pa n : Nat) : Bool := m.ecc.any fun k => k * 32 < pa + n && pa < k * 32 + 32

/-- Whole sectors that a write covers hold good data again. -/
def MemSys.mend (m : MemSys) (pa n : Nat) : MemSys := { m with ecc := m.ecc.filter fun k => !(pa ≤ k * 32 && k * 32 + 32 ≤ pa + n) }

/-- The write of a range is reported bad: it covers part of a sector that holds an uncorrectable error. -/
def MemSys.badWrite (m : MemSys) (pa n : Nat) : Bool := (m.mend pa n).bad pa n

-- The slice map (R312, R313)

def bucketOf (pa : Nat) : Nat :=
  (pa / 2 ^ 8 % 2048) ^^^ (pa / 2 ^ 19 % 2048) ^^^ (pa / 2 ^ 30 % 2048) ^^^ (pa / 2 ^ 41 % 2048)

def MemSys.sliceOf (m : MemSys) (pa : Nat) : Nat := m.smap.get (bucketOf pa % 128) (bucketOf pa)

/-- Slices that own a bucket are in service (R313). -/
def MemSys.inService (m : MemSys) (slice : Nat) : Bool :=
  (List.range 16).any fun i => m.smap.get slice (slice + 128 * i) == slice ||
    m.smap.any fun p => p.2 == slice

/-- Buckets whose slice a change moves (R313). -/
def MemSys.moving (m : MemSys) (b : Nat) : Bool := m.smap.get (b % 128) b != m.staging.get (b % 128) b

/-- While the map changes, what is written in a moving bucket goes through to HBM (R313 step 1). -/
def MemSys.through (m : MemSys) (pa n : Nat) : MemSys :=
  if !m.smapBusy then m else
  (List.range ((pa + n + 255) / 256 - pa / 256)).foldl (fun m i =>
    if m.moving (bucketOf (pa / 256 * 256 + 256 * i)) then m.backLine (pa / 256 + i) else m) m

def State.homeWrite (s : State) (key pa : Nat) (bs : List Byte) : State :=
  s.modMsys fun m => ((m.mend pa bs.length).write key pa bs).through pa bs.length

/-- A read under a key: a line held under another key id goes home under its own key and is filled again (R225). -/
def MemSys.claim (m : MemSys) (key pa : Nat) : MemSys :=
  match m.l2.find (pa / 256) with
  | some l => if l.key = key then m else m.touch key pa
  | none => m

/-- The lines of a range that is read. -/
def MemSys.claims (m : MemSys) (key pa n : Nat) : MemSys :=
  if m.l2.isEmpty then m else (List.range ((pa + n + 255) / 256 - pa / 256)).foldl (fun m i => m.claim key (pa / 256 * 256 + 256 * i)) m

/-- Bytes are read at their home slice. -/
def State.homeRead (s : State) (key pa n : Nat) : List Byte × State := (s.msys.bytes key pa n, s.modMsys fun m => m.claims key pa n)

-- The physical map (R352)

inductive Region where
  | hbm
  | aperture (core : Nat)
  | bteConfig (cluster : Nat)
  | mgmt
  | nothing
  deriving DecidableEq, Repr

def hbmSize : Nat := 768 * 2 ^ 30
def ioBase : Nat := 0x0F0000000000

def regionOf (pa : Nat) : Region :=
  if pa < hbmSize then .hbm
  else if ioBase ≤ pa ∧ pa < ioBase + 4096 * 384 then .aperture ((pa - ioBase) / 4096)
  else if ioBase + 0x1000000 ≤ pa ∧ pa < ioBase + 0x1000000 + 65536 * 96 then .bteConfig ((pa - (ioBase + 0x1000000)) / 65536)
  else if ioBase + 0x2000000 ≤ pa ∧ pa < ioBase + 0x2000000 + 4096 then .mgmt
  else .nothing

-- The L1 (R224): bytes by physical address and key id, each with its dirty mark

def l1Key (pa key : Nat) : Nat := pa + key * 2 ^ 52

def Core.l1Byte (c : Core) (pa key : Nat) : Option (Byte × Bool) := c.l1.find (l1Key pa key)

def Core.l1Set (c : Core) (pa key : Nat) (b : Byte) (dirty : Bool) : Core := { c with l1 := c.l1.ins (l1Key pa key) (b, dirty) }

def Core.l1Write (c : Core) (key : Nat) (dirty : Bool) : Nat → List Byte → Core
  | _, [] => c
  | pa, b :: t => (c.l1Set pa key b dirty).l1Write key dirty (pa + 1) t

/-- Written bytes of an L1 copy take the new value, clean; absent bytes stay absent (R224). -/
def Core.l1Through (c : Core) (key : Nat) : Nat → List Byte → Core
  | _, [] => c
  | pa, b :: t =>
    (match c.l1Byte pa key with
      | some _ => c.l1Set pa key b false
      | none => c).l1Through key (pa + 1) t

/-- Acquire at `.cl` or wider: clean bytes are invalidated (R228). -/
def Core.l1Acquire (c : Core) : Core := { c with l1 := c.l1.filter (·.2.2) }

def Core.l1DropRange (c : Core) (pa key n : Nat) : Core :=
  { c with l1 := c.l1.filter fun p => !(l1Key pa key ≤ p.1 && p.1 < l1Key pa key + n) }

/-- Clean bytes of a range are invalidated (R236). -/
def Core.l1DropClean (c : Core) (pa key n : Nat) : Core :=
  { c with l1 := c.l1.filter fun p => p.2.2 || !(l1Key pa key ≤ p.1 && p.1 < l1Key pa key + n) }

-- Page tables (R302)

def Dword.field (x : Dword) (lo w : Nat) : Nat := x.toNat / 2 ^ lo % 2 ^ w

/-- log2 of the page size of a SIZE code. -/
def pageBits : Nat → Nat
  | 1 => 12
  | 2 => 16
  | 3 => 21
  | 4 => 26
  | _ => 30

def sizeAccepted : Nat → Nat → Bool
  | 3, sz => sz == 0
  | 2, sz => sz == 0 || sz == 5
  | 1, sz => sz == 0 || sz == 3 || sz == 4
  | _, sz => sz == 1 || sz == 2

/-- R302: does an entry with V = 1 break a rule? -/
def malformed (lvl : Nat) (e : Dword) : Bool :=
  let sz := Dword.field e 1 3
  if sz == 0 then !(sizeAccepted lvl 0) || Dword.field e 52 12 != 0 || Dword.field e 4 8 != 0
  else !(sizeAccepted lvl sz) || Dword.field e 52 3 != 0 || Dword.field e 12 40 * 4096 % 2 ^ pageBits sz != 0

inductive WalkRes where
  | leaf (pte : Dword) (ptePa : Nat)
  /-- REASON and LEVEL of R306 -/
  | absent (reason level : Nat)
  /-- BUS_ERROR, or ECC_UNCORRECTABLE, on an entry -/
  | bus (ecc : Bool)
  deriving DecidableEq, Repr

/-- The walk from the table of a level down (R302, R304). -/
def walkFrom (m : MemSys) (va : Nat) : Nat → Nat → WalkRes
  | lvl, table =>
    let pa := table + 8 * (va / 2 ^ (12 + 9 * lvl) % 512)
    if pa ≥ hbmSize then .bus false else
    if m.bad pa 8 then .bus true else
    let e := BitVec.ofNat 64 (m.nat 0 pa 8)
    if Dword.field e 0 1 = 0 then .absent 0 lvl
    else if malformed lvl e then .absent 1 lvl
    else if Dword.field e 1 3 ≠ 0 then .leaf e pa
    else match lvl with
      | l + 1 => walkFrom m va l (Dword.field e 12 40 * 4096)
      | 0 => .absent 1 0

def walk (m : MemSys) (root va : Nat) : WalkRes := walkFrom m va 3 root

/-- The lines that a walk reads are held under the page tables' key (R225). -/
def walkClaims (va : Nat) : Nat → Nat → MemSys → MemSys
  | lvl, table, m =>
    let pa := table + 8 * (va / 2 ^ (12 + 9 * lvl) % 512)
    if pa ≥ hbmSize then m else
    let e := BitVec.ofNat 64 (m.nat 0 pa 8)
    let m := m.claims 0 pa 8
    match lvl with
    | l + 1 => if Dword.field e 0 1 = 1 && Dword.field e 1 3 = 0 then walkClaims va l (Dword.field e 12 40 * 4096) m else m
    | 0 => m

/-- What a translation gives: physical address, key id (0: the access's own), memory type. -/
structure Xlated where
  pa : Nat
  key : Nat
  typ : Nat
  deriving DecidableEq, Repr

/-- A cause found in translation, with REASON and LEVEL for a fault record. -/
structure XErr where
  cause : Cause
  reason : Nat
  level : Nat
  deriving DecidableEq, Repr

def errOf (c : Cause) : XErr := { cause := c, reason := 0, level := 0 }

/-- R303: the checks of a leaf in their order; `typeOk` is the memory-type check of the access. -/
def leafCheck (sp : Space) (acc : Access) (typeOk : Nat → Bool) (e : Dword) : Option Cause :=
  let bit (i : Nat) : Bool := Dword.field e i 1 == 1
  let u := bit 9
  if sp.user && !u then some .permission
  else if !sp.user && u && acc == .fetch then some .permission
  else
    let ok := match acc with
      | .read => bit 6
      | .write => bit 7
      | .atomic => bit 6 && bit 7
      | .fetch => bit 8
    if !ok then some .permission
    else if !typeOk (Dword.field e 4 2) then some .memtype
    else none

def leafXlate (sp : Space) (va : Nat) (e : Dword) : Xlated :=
  let bits := pageBits (Dword.field e 1 3)
  let k := Dword.field e 56 8
  { pa := Dword.field e 12 40 * 4096 + va % 2 ^ bits, key := if k = 0 then sp.key else k, typ := Dword.field e 4 2 }

def TlbEntry.hits (t : TlbEntry) (asid va : Nat) : Bool :=
  t.va ≤ va && va < t.va + t.size && (t.glob || t.asid == asid)

def mkTlb (asid va : Nat) (e : Dword) (ptePa : Nat) : TlbEntry :=
  let size := 2 ^ pageBits (Dword.field e 1 3)
  { va := va / size * size, size := size, asid := asid, glob := Dword.field e 10 1 == 1, pte := e, ptePa := ptePa }

/-- Put a translation in the core's L1 TLB and its cluster's L2 TLB (R304). -/
def State.fillTlb (s : State) (core : Nat) (asid va : Nat) (t : TlbEntry) : State :=
  let add (n : Nat) (l : List TlbEntry) : List TlbEntry := (t :: l.filter fun x => !x.hits asid va).take n
  (s.modCore core fun c => { c with tlb := add 192 c.tlb }).modCluster (clusterOf core) fun c => { c with tlb := add 4096 c.tlb }

def isWrite : Access → Bool
  | .write | .atomic => true
  | _ => false

/-- Translate by a walk: it sets A, and for a write D, when the access passes every check (R305). A walk whose access fails a
check leaves no translation in the TLBs (R304 leaves open which entries they hold). -/
def State.walkXlate (s : State) (core : Nat) (sp : Space) (acc : Access) (typeOk : Nat → Bool) (va : Nat) :
    State × Except XErr Xlated :=
  let r := walk s.msys sp.root va
  let s := s.modMsys (walkClaims va 3 sp.root)
  match r with
  | .bus ecc => (s, .error { cause := if ecc then .eccUncorrectable else .busError, reason := 0, level := 0 })
  | .absent r l => (s, .error { cause := .pageNotPresent, reason := r, level := l })
  | .leaf e pa =>
    match leafCheck sp acc typeOk e with
    | some c => (s, .error { cause := c, reason := 0, level := 0 })
    | none =>
      let e' := e ||| 0x800#64 ||| (if isWrite acc then 0x80000000000000#64 else 0)
      let s := if e' = e then s else s.homeWrite 0 pa (leBytes e'.toNat 8)
      (s.fillTlb core sp.asid va (mkTlb sp.asid va e' pa), .ok (leafXlate sp va e'))

/-- R145, R303, R304: translate an access of a core. -/
def State.xlate (s : State) (core : Nat) (sp : Space) (acc : Access) (typeOk : Nat → Bool) (va : Nat) :
    State × Except XErr Xlated :=
  if va ≥ 2 ^ 48 then (s, .error { cause := .permission, reason := 0, level := 0 }) else
  let hit := match (s.core core).tlb.find? (·.hits sp.asid va) with
    | some t => some t
    | none => (s.cluster (clusterOf core)).tlb.find? (·.hits sp.asid va)
  match hit with
  | none => s.walkXlate core sp acc typeOk va
  | some t =>
    match leafCheck sp acc typeOk t.pte with
    | some c => (s, .error { cause := c, reason := 0, level := 0 })
    | none =>
      if isWrite acc && Dword.field t.pte 55 1 == 0 then s.walkXlate core sp acc typeOk va
      else (s, .ok (leafXlate sp va t.pte))

/-- The space of a core's accesses (R353). -/
def Core.space (c : Core) (user : Bool) : Space :=
  { root := Dword.field c.ptbase 12 40 * 4096, asid := c.asid, key := c.keyid, user := user }

/-- The space a controller uses for a context (R353, R354). -/
def Ctx.space (c : Ctx) : Space := { root := Dword.field c.ptroot 12 40 * 4096, asid := c.asid, key := c.keyid, user := true }

def anyType (_ : Nat) : Bool := true
def normalOnly (t : Nat) : Bool := t == 0

-- Bytes at virtual addresses for engines and the device (R236): page by page, at the home slice

/-- Translate and read one byte at its home slice; Normal pages only. -/
def State.vbyte (s : State) (core : Nat) (sp : Space) (va : Nat) : State × Except (XErr × Nat) Byte :=
  match s.xlate core sp .read normalOnly va with
  | (s, .error e) => (s, .error (e, va))
  | (s, .ok x) =>
    if x.pa ≥ hbmSize then (s, .error (errOf .busError, va))
    else if s.msys.bad x.pa 1 then (s, .error (errOf .eccUncorrectable, va))
    else (s.modMsys fun m => m.claim x.key x.pa, .ok (s.msys.byte x.key x.pa))

def State.vbytes (s : State) (core : Nat) (sp : Space) : Nat → Nat → State × Except (XErr × Nat) (List Byte)
  | _, 0 => (s, .ok [])
  | va, n + 1 =>
    match s.vbyte core sp va with
    | (s, .error c) => (s, .error c)
    | (s, .ok b) => match s.vbytes core sp (va + 1) n with
      | (s, .error c) => (s, .error c)
      | (s, .ok bs) => (s, .ok (b :: bs))

def sectorOf (pa : Nat) : Nat := pa / 32 * 32

/-- Write bytes at virtual addresses, at the home slice; the core's clean L1 sectors are invalidated (R236). -/
def State.vwrite (s : State) (core : Nat) (sp : Space) : Nat → List Byte → State × Except (XErr × Nat) Unit
  | _, [] => (s, .ok ())
  | va, b :: t =>
    match s.xlate core sp .write normalOnly va with
    | (s, .error e) => (s, .error (e, va))
    | (s, .ok x) =>
      if x.pa < hbmSize then
        ((s.homeWrite x.key x.pa [b]).modCore core fun c => c.l1DropClean (sectorOf x.pa) x.key 32).vwrite core sp (va + 1) t
      else (s, .error (errOf .busError, va))

-- Scratchpads

def SMap.dropRange {α : Type} (m : SMap α) (lo n : Nat) : SMap α := m.filter fun p => !(lo ≤ p.1 && p.1 < lo + n)

def Spad.byte (p : Spad) (off : Nat) : Byte := p.bytes.get 0 off
def Spad.read (p : Spad) (off n : Nat) : List Byte := (List.range n).map fun i => p.byte (off + i)

/-- Write bytes, setting the swizzle tag of every granule touched (R239). -/
def Spad.write (p : Spad) (tag : Nat) : Nat → List Byte → Spad
  | _, [] => p
  | off, b :: t =>
    ({ p with bytes := p.bytes.put 0 off b, tag := p.tag.put 0 (off / 16) tag }).write tag (off + 1) t

/-- Write bytes, each granule with the tag that `tag` gives for it (R239). -/
def Spad.writeTags (p : Spad) (start : Nat) (bs : List Byte) (tag : Nat → Nat) : Spad :=
  (bs.zipIdx).foldl (fun p b => p.write (tag (b.2 / 16)) (start + b.2) [b.1]) p

def Spad.isFull (p : Spad) (off : Nat) : Bool := p.full.get false (off / 16)
def Spad.setFull (p : Spad) (off : Nat) (b : Bool) : Spad := { p with full := p.full.put false (off / 16) b }
def Spad.tagOf (p : Spad) (off : Nat) : Nat := p.tag.get 0 (off / 16)

def State.modSpad (s : State) (core : Nat) (f : Spad → Spad) : State := { s with spads := s.spads.ins core (f (s.spad core)) }

/-- R146: a new allocation reads zero, every granule EMPTY with tag 0. -/
def Spad.clear (p : Spad) (base size : Nat) : Spad :=
  { bytes := p.bytes.dropRange base size, full := p.full.dropRange (base / 16) (size / 16), tag := p.tag.dropRange (base / 16) (size / 16) }

/-- The 256-byte spans that a range touches (R238). -/
def spans (off n : Nat) : Nat := if n = 0 then 0 else (off + n - 1) / 256 - off / 256 + 1

/-- R206, R238: dropped writes are counted, holding at the maximum. -/
def Core.addStale (c : Core) (n : Nat) : Core := { c with stalewr := BitVec.ofNat 32 (min (c.stalewr.toNat + n) 0xFFFFFFFF) }

/-- R238: does the port drop a write that carries an allocation's generation, the time it was issued and the time it arrived? -/
def State.stale (s : State) (alloc gen off n issued arrived : Nat) : Bool :=
  match s.allocs.find alloc with
  | none => true
  | some a => a.released.isSome || a.gen != gen || off < a.base || off + n > a.base + a.size || issued + 64000 ≤ arrived

/-- A write that reaches a scratchpad port from outside the workgroup's own accesses (R238); true when dropped. -/
def State.spIncoming (s : State) (dst off : Nat) (bs : List Byte) (alloc gen tag issued arrived : Nat) : State × Bool :=
  if s.stale alloc gen off bs.length issued arrived then (s.modCore dst fun c => c.addStale (spans off bs.length), true)
  else (s.modSpad dst fun p => p.write tag off bs, false)

end Sys2Proof.Machine
end

