-- ==== Sys2Proof/Machine/Ops.lean ====
section
/-! DEFINITION. The operations that meanings share: the issue in progress, results and the scoreboard,
waits, taking an exception (R294 to R299, R331, R332) and returning from one (R209), the supervisor queue
and fault records (R202, R306), pending interrupts (R300) and the event log (R350). -/

namespace Sys2Proof.Machine

-- Causes (R208, R294)

def Cause.code : Cause → Nat
  | .illegalOpcode => 0x01 | .illegalModifier => 0x02 | .illegalOperand => 0x03 | .privilege => 0x04
  | .illegalConvergence => 0x05 | .misaligned => 0x06 | .watch => 0x07 | .pageNotPresent => 0x08
  | .permission => 0x09 | .memtype => 0x0A | .peerGone => 0x0B | .swizzleMismatch => 0x0C
  | .operandEncoding => 0x0D | .busError => 0x0E | .eccUncorrectable => 0x0F | .fpInvalid => 0x10
  | .fpDivzero => 0x11 | .fpOverflow => 0x12 | .fpUnderflow => 0x13 | .fpInexact => 0x14
  | .syscall => 0x20 | .brk => 0x21 | .censusTimeout => 0x22 | .gangIncomplete => 0x23
  | .barrierTimeout => 0x24 | .watchdog => 0x25

/-- The rank of R294, 1 highest; causes outside the ranking come last. -/
def Cause.rank : Cause → Nat
  | .illegalOpcode => 1 | .illegalModifier => 2 | .illegalOperand => 3 | .privilege => 4
  | .illegalConvergence => 5 | .misaligned => 6 | .watch => 7 | .pageNotPresent => 8
  | .permission => 9 | .memtype => 10 | .peerGone => 11 | .swizzleMismatch => 12
  | .operandEncoding => 13 | .busError => 14 | .eccUncorrectable => 15 | .fpInvalid => 16
  | .fpDivzero => 17 | .fpOverflow => 18 | .fpUnderflow => 19 | .fpInexact => 20
  | _ => 21

def rejectCause : Reject → Cause
  | .illegalOpcode => .illegalOpcode
  | .illegalModifier => .illegalModifier
  | .illegalOperand => .illegalOperand

-- Modes

def Group.isSuper (g : Group) : Bool := g.info.kind == .super
/-- Supervisor access: the supervisor group, and the debug agent (R330). -/
def Group.priv (g : Group) : Bool := g.isSuper || g.sys.debug

def Group.isResponder (g : Group) : Bool :=
  match g.info.kind with
  | .responder .. => true
  | _ => false

/-- The space of a group's accesses (R353). -/
def State.gspace (s : State) (g : Group) : Space := (s.core g.info.core).space (!g.priv)

/-- SLOT and RESP of R202: the resident place, or the responder slot of the partition. -/
def Group.slot (g : Group) : Nat := if g.isResponder then g.info.place - 33 else g.info.place % 32
def Group.resp (g : Group) : Nat := if g.isResponder then 1 else 0

-- The event log (R350)

/-- A record of the log: source 0 boot, 1 management, 2 a core, which also sets ERROR there. At most 64 records wait for the
mirror: the oldest goes there when another comes. -/
def State.logEvent (s : State) (source code data : Nat) : State :=
  let r : LogRec := { time := BitVec.ofNat 64 s.time, seq := s.mgmt.logSeq, source := source, code := code, data := data }
  let full := s.mgmt.unmirrored ≥ 64
  let old := (s.mgmt.log.drop (s.mgmt.log.length - 64)).take 1
  let s := if full then { s with board := { s.board with mirror := s.board.mirror ++ old } } else s
  let s := s.modMgmt fun m =>
    { m with log := (m.log ++ [r]).drop (m.log.length + 1 - 4096), logSeq := m.logSeq + 1, unmirrored := min 64 (m.unmirrored + 1) }
  if source = 2 then s.modCore (data % 512) fun c => { c with ipend := c.ipend ||| 0x10 } else s

-- Taking an exception

/-- An exception to be taken: what the trap registers receive (R206, R208, R209) and the lanes that enter the handler. -/
structure Trap where
  cause : Cause
  other : Bool
  mask : Lanes
  pc : Pc
  npc : Pc
  addr : Dword
  run : Lanes
  deriving DecidableEq, Repr

def Trap.regs (t : Trap) : TrapRegs :=
  { cause := BitVec.ofNat 32 (t.cause.code + if t.other then 256 else 0), pc := pcDword t.pc, npc := pcDword t.npc, mask := t.mask,
    run := t.run, addr := t.addr }

/-- Lanes go on READY at a PC; lanes that were not READY take a new stamp (R24). -/
def Group.resume (g : Group) (m : Lanes) (pc : Pc) : Group :=
  if g.runs.any (fun r => r.st == .ready && r.lanes &&& m != 0) then g.goto m pc else g.wake m pc

/-- Handler entry: INTRAP ← 1 and the lanes of TRAPRUN go on at the vector (R296, R299). -/
def Group.enter (g : Group) (run : Lanes) (vec : Pc) : Group :=
  { g with sys := { g.sys with intrap := true } }.resume run vec

def Group.setTrap (g : Group) (r : TrapRegs) : Group := { g with sys := { g.sys with trap := r } }

/-- A vector at which a user handler can be entered (R296). -/
def vecOk (v : Dword) : Bool := v != 0 && Dword.field v 0 2 == 0 && Dword.field v 48 16 == 0

/-- The trap-queue word of R298. -/
def trapqWord (ctx cause part resp slot : Nat) : Word :=
  BitVec.ofNat 32 (2 ^ 31 + ctx % 64 * 2 ^ 24 + cause * 2 ^ 16 + part * 256 + resp * 32 + slot % 32)

/-- The group enters TRAPPED and is named in its core's trap queue (R296). -/
def State.toTrapped (s : State) (gid : Nat) (g : Group) (cause : Nat) : State :=
  let g := { g with sys := { g.sys with intrap := true }, sched := { g.sched with trapped := true } }
  let e : TrapQEntry := { word := trapqWord g.info.ctx cause g.info.part g.resp g.slot, gid := some gid, ctx := g.info.ctx }
  (s.setGroup gid g).modCore g.info.core fun c => { c with trapq := c.trapq ++ [e] }

/-- Resident groups of a partition. -/
def State.groupsOf (s : State) (core part : Nat) : List (Nat × Group) :=
  s.groups.filter fun p => p.2.info.core == core && p.2.info.part == part && p.2.sched.resident

/-- A user group of a partition that the debugger has stopped, beside its agent (R332). -/
def State.frozen (s : State) (g : Group) : Bool :=
  !g.isSuper && !g.sys.debug && ((s.core g.info.core).part g.info.part).stopped.isSome

def le (n k : Nat) : List Byte := leBytes n k

/-- The lanes in which a pending write is awaited: the S file holds one value per group (R69, R355). -/
def busyLanes (code : Nat) (m : Lanes) : Lanes := if 404 ≤ code && code < 468 then BitVec.allOnes 64 else m

/-- What an instruction writes when the wait in which its run stands ends (R336, source 4). -/
def lateWrites : Instr → List RegUse
  | .hwaitFull _ d _ | .hwaitEmpty _ d _ | .solicit _ _ d _ | .launch _ d _ => [(d, 1)]
  | .barArr _ _ _ d => useOpt d 1
  | .sbrecv _ _ d => [(d, 2)]
  | .census _ d _ => [(d, 2), (.p 6, 1)]
  | .mbget _ _ d _ => [(d, 2)]
  | .mbput _ true _ _ => [(.p 6, 1)]
  | _ => []

/-- The writes that a waiting run has still to make, under a number that no operation has. -/
def Run.late (r : Run) : List Busy :=
  match r.st with
  | .waiting w => (w.ins.elim [] fun i => (lateWrites i).flatMap RegUse.codes).map fun c =>
      { id := 2 ^ 64 + r.stamp, code := c, lanes := busyLanes c w.lanes, pc := r.pc, src := 4, due := 0, seq := r.stamp }
  | _ => []

/-- The register writes that the scoreboard holds pending (R355). -/
def Group.pendingWrites (g : Group) : List Busy := g.busy ++ g.runs.flatMap Run.late

def insBusy (b : Busy) : List Busy → List Busy
  | [] => [b]
  | q :: t => if b.seq < q.seq then b :: q :: t else q :: insBusy b t

/-- The dump of R336: the pending register writes of the frozen groups, by slot, and within a slot by issue. -/
def State.dumpOf (s : State) (core part : Nat) : List (Nat × Busy) :=
  ((s.groupsOf core part).filter fun p => !p.2.isSuper).flatMap fun p => (p.2.pendingWrites.foldl (fun l b => insBusy b l) []).map fun b => (p.2.slot, b)

/-- The stop record and the dump (R335, R336), written to the partition's mailbox; performed at `.dev`.
DEDUCED (log 13): the mailbox base is translated as a supervisor address of the partition's core. -/
def State.stopRecord (s : State) (core part slot : Nat) (t : TrapRegs) : State :=
  let c := s.core core
  let d := s.dumpOf core part
  let n := min d.length 4080
  let head := le (c.part part).stops.toNat 4 ++
    le (t.cause.toNat % 256 + slot * 256 + if d.length > 4080 then 65536 else 0) 4 ++ le s.time 8 ++ le t.pc.toNat 8 ++ le t.addr.toNat 8 ++
    le n 4 ++ List.replicate 28 0
  let dump := (d.take 4080).flatMap fun p => le (p.2.pc.toNat + p.1 * 2 ^ 48) 8 ++ le (p.2.code + p.2.src * 4096) 4 ++ le 0 4
  let sp := c.space false
  let base := (c.part part).mbox.toNat
  ((s.vwrite core sp base head).1.vwrite core sp (base + 0x100) dump).1

/-- A stop of the partition (R332): freeze, shadow, trap registers, record, agent. -/
def State.debugStop (s : State) (gid : Nat) (t : Trap) : State :=
  match s.group? gid with
  | none => s
  | some g =>
    let core := g.info.core
    let part := g.info.part
    let s := s.modCore core fun c => c.modPart part fun p => { p with stopped := some gid, stopCc := s.cc, stops := p.stops + 1, haltReq := false }
    let s := s.stopRecord core part g.slot t.regs
    let shadow : Shadow :=
      { trap := g.sys.trap, intrap := g.sys.intrap, npc := t.npc, runs := g.runs.filter fun r => r.st != .ready && r.lanes &&& t.run != 0 }
    let g := { g with
      sys := { g.sys with shadow := some shadow, trap := t.regs, debug := true }
      sched := { g.sched with stepping := false, noBp := false } }
    s.setGroup gid (g.resume t.run (entryPc s.dbgvec))

/-- TAKING AN EXCEPTION. In the debug agent it re-enters at SYS.DBGVEC (R332); BREAK and WATCH in a user group of
a partition with a debugger attached stop the partition (R296, R331); the supervisor group enters its handler or
stops (R299); a user group enters its handler or becomes TRAPPED (R296). -/
def State.takeTrap (s : State) (gid : Nat) (t : Trap) : State :=
  match s.group? gid with
  | none => s
  | some g =>
    let c := s.core g.info.core
    let vec := entryPc g.sys.trapvec
    if g.sys.debug then s.setGroup gid ((g.setTrap t.regs).resume t.run (entryPc s.dbgvec))
    else if g.isSuper then
      if g.sys.intrap || g.sys.trapvec == 0 then
        (s.setGroup gid { g.setTrap t.regs with sched := { g.sched with stopped := true } }).logEvent 2 t.cause.code g.info.core
      else
        s.setGroup gid ({ g.setTrap t.regs with sys := { g.sys with trap := t.regs, pie := g.sys.ie, ie := false } }.enter t.run vec)
    else if (t.cause == .brk || t.cause == .watch) && (c.part g.info.part).attach then s.debugStop gid t
    else if !g.sys.intrap && vecOk g.sys.trapvec then s.setGroup gid ((g.setTrap t.regs).enter t.run vec)
    else s.toTrapped gid (g.setTrap t.regs) t.cause.code

-- The return (R209)

/-- Lanes of a handler go on at a PC; a return to an interrupted barrier wait resumes it, any other abandons it (R187).
DESIGN CHOICE (log 14): the time limit of a resumed wait starts again. -/
def Group.returnTo (g : Group) (m : Lanes) (pc : Pc) : Group :=
  let g' := { g with sys := { g.sys with saved := none } }
  match g.sys.saved with
  | some (a, w) => if a = pc then g'.hold m pc (.waiting { w with waited := 0 }) else g'.resume m pc
  | none => g'.resume m pc

/-- RETURNING FROM AN EXCEPTION: the lanes of TRAPRUN that live go on at TRAPNPC; INTRAP ← 0; after `iret` IE ← PIE (R209). -/
def Group.trapReturn (g : Group) (iret : Bool) : Group :=
  let g := g.returnTo (g.sys.trap.run &&& g.live) (dwordPc g.sys.trap.npc)
  { g with sys := { g.sys with intrap := false, ie := if iret then g.sys.pie else g.sys.ie } }

-- The issue in progress

/-- The instruction being executed by a run (R99): `m` is the issuing run, `lanes` its guard-true lanes. -/
structure X where
  s : State
  gid : Nat
  g : Group
  m : Lanes
  lanes : Lanes
  pc : Pc
  next : Pc
  u : Bool
  /-- the wait in which the instruction stands; none: a new issue -/
  resume : Option Wait

def X.core (x : X) : Nat := x.g.info.core
def X.list (x : X) : List Nat := laneList x.lanes
def X.low (x : X) : Nat := lowest x.lanes
/-- The lane whose operands a lane uses (R32). -/
def X.srcLane (x : X) (l : Nat) : Nat := if x.u then x.low else l
/-- The lanes an instruction acts for: with U = 1 the lowest alone (R32, R179). -/
def X.acting (x : X) : List Nat := if x.u then x.list.take 1 else x.list

/-- The state with the group's own changes. -/
def X.flush (x : X) : State := x.s.setGroup x.gid x.g

/-- Lanes of the run go on at a PC: after a wait they take the stamp of this moment (R24). -/
def X.move (x : X) (m : Lanes) (pc : Pc) : Group := if x.resume.isSome then x.g.wake m pc else x.g.goto m pc

/-- Lanes of the run go on at `next`. -/
def X.advance (x : X) (m : Lanes) : State := x.s.setGroup x.gid (x.move m x.next)

/-- The run goes on at `next` (R23). -/
def X.done (x : X) : State := x.advance x.m

/-- The issuing run waits at the instruction (R22, R179). -/
def X.wait (x : X) (w : Wait) : State := x.s.setGroup x.gid (x.g.hold x.m x.pc (.waiting w))

def Wait.of (why : Why) (ins : Option Instr) (lanes : Lanes) : Wait :=
  { why := why, ins := ins, lanes := lanes, rel := none, ops := [], tok := none, waited := 0, endCc := 0 }

/-- Waits until the condition holds, then issues again. -/
def X.retryLater (x : X) (why : Why) : State := x.wait (Wait.of why none x.lanes)

/-- The instruction raises a cause: nothing of it is committed (R294). -/
def X.trapAt (x : X) (cause : Cause) (other : Bool) (mask : Lanes) (npc : Pc) (addr : Dword) : State :=
  x.s.takeTrap x.gid { cause := cause, other := other, mask := mask, pc := x.pc, npc := npc, addr := addr, run := x.m }

def X.trap (x : X) (cause : Cause) (mask : Lanes) (addr : Dword) : State := x.trapAt cause false mask x.pc addr

/-- Causes found in lanes, with the address or value of each: the highest is reported with its lanes (R294). -/
def X.trapLanes (x : X) (cs : List (Nat × Cause × Dword)) : State :=
  let top := (cs.map fun c => c.2.1.rank).foldl min 99
  match cs.find? (fun c => c.2.1.rank == top) with
  | none => x.flush
  | some (_, c, a) =>
    x.trapAt c (cs.any fun d => d.2.1.rank != top) (lanesOf ((cs.filter fun d => d.2.1.rank == top).map (·.1))) x.pc a

/-- UNIFORM_VIOLATION when a lane of `lanes` holds other operand values than the lowest (R32). -/
def X.uniform (x : X) (vals : Nat → List Dword) : X :=
  if x.list.all fun l => vals l == vals x.low then x
  else { x with g := { x.g with sys := { x.g.sys with uniformViolation := true } } }

/-- R32 for an instruction that is not once-acting: checked only with U = 1. -/
def X.uniformU (x : X) (vals : Nat → List Dword) : X := if x.u then x.uniform vals else x

def X.modG (x : X) (f : Group → Group) : X := { x with g := f x.g }
def X.modS (x : X) (f : State → State) : X := { x with s := f x.s }

def X.setP6 (x : X) (ls : List Nat) (b : Nat → Bool) : X := x.modG fun g => g.wrPAll 6 ls b

/-- A once-acting destination is written alike in every lane of `lanes` (R179). -/
def X.putAll (x : X) (w : Nat) (d : Reg) (v : Quad) : X := x.modG fun g => g.wrAll w x.list d v

-- The scoreboard (R100, R355)

/-- Register writes, each with its lanes, that stay pending until the event REGISTER_RESULT_WRITE `lat` cycles on. -/
def X.mark (x : X) (ws : List (Nat × Lanes)) (src lat : Nat) : X :=
  let ws := ws.filter fun w => w.2 != 0
  if ws.isEmpty then x else
  let (id, s) := x.s.newSerial
  let due := s.cc + lat
  let g := { x.g with busy := x.g.busy ++ ws.map fun w => { id := id, code := w.1, lanes := busyLanes w.1 w.2, pc := x.pc, src := src, due := due,
                                                              seq := x.g.sched.issues - 1 } }
  { x with s := s.schedule due (.registerResultWrite x.gid id), g := g }

/-- Results for V and O push into the last-result file (R74). -/
def pushes : Reg → Bool
  | .v _ | .o _ => true
  | _ => false

/-- The writes of a result: the destination in `lanes`, and with a push the last-result file in the issuing run (R74). -/
def X.writesOf (x : X) (d : Reg) (w : Nat) (push : Bool) : List (Nat × Lanes) :=
  (RegUse.codes (d, w)).map (·, x.lanes) ++ if push then [400, 401, 402, 403].map (·, x.m) else []

/-- Register writes that memory or an engine makes: pending under the operation's number. -/
def Group.markOp (g : Group) (id : Nat) (codes : List Nat) (lanes : Lanes) (pc : Pc) (src : Nat) : Group :=
  { g with busy := g.busy ++ codes.map fun c => { id := id, code := c, lanes := busyLanes c lanes, pc := pc, src := src, due := 0, seq := g.sched.issues - 1 } }

/-- The writes are made: runs that waited on nothing else become READY (R23, R355). -/
def Group.unmark (g : Group) (id : Nat) : Group :=
  let g := { g with busy := g.busy.filter (·.id != id) }
  g.runs.foldl (fun g r =>
    match r.st with
    | .stalled ids => if ids.contains id then
        (let ids := ids.filter (· != id)
         if ids.isEmpty then g.wake r.lanes r.pc else g.hold r.lanes r.pc (.stalled ids)) else g
    | .waiting w => if w.why == .score && w.ops.contains id then
        (let ids := w.ops.filter (· != id)
         if ids.isEmpty then g.wake r.lanes r.pc else g.hold r.lanes r.pc (.waiting { w with ops := ids })) else g
    | _ => g) g

/-- The pending writes that keep lanes from naming registers (R355). -/
def Group.hazards (g : Group) (m : Lanes) (codes : List Nat) : List Busy :=
  g.pendingWrites.filter fun b => b.lanes &&& m != 0 && codes.contains b.code

-- Results of the computing pipelines

def fpClasses : List (Nat × Cause) := [(0, .fpInvalid), (1, .fpDivzero), (2, .fpOverflow), (3, .fpUnderflow), (4, .fpInexact)]

/-- The enabled classes that some lane raised, with their lanes (R45). -/
def fpTraps (fpctl : Word) (lanes : List Nat) (fl : Nat → Fl) : List (Cause × Lanes) :=
  fpClasses.filterMap fun c =>
    let m := lanesOf (lanes.filter fun l => (fl l).getLsbD c.1)
    if fpctl.getLsbD c.1 && m != 0 then some (c.2, m) else none

/-- Some other lane carries a lower class (R294). -/
def fpOther (m : Lanes) (rest : List (Cause × Lanes)) : Bool := rest.any fun t => t.2 &&& ~~~m != 0

/-- The lower classes of an instruction wait for the returns (R45). -/
def X.fpPend (x : X) : List (Cause × Lanes) → List PendTrap
  | [] => []
  | (c, m) :: rest =>
    { cause := c, mask := m, pc := some x.pc, npc := some x.next, addr := 0, inTrap := false, run := some x.m, other := fpOther m rest } :: x.fpPend rest

/-- The first enabled class traps after the instruction, the others wait for the returns (R45, R209). -/
def X.doneFp (x : X) (ts : List (Cause × Lanes)) : State :=
  match ts with
  | [] => x.done
  | (c, m) :: rest =>
    let s := { x with g := { x.g with pend := x.g.pend ++ x.fpPend rest } }.done
    s.takeTrap x.gid { cause := c, other := fpOther m rest, mask := m, pc := x.pc, npc := x.next, addr := 0, run := x.m }

/-- The result of a computing instruction: destinations, pushes (R74), flags (R44), scoreboard, FP traps (R45). DESIGN CHOICE (log 68):
an S destination whose lanes differ (`scan` with U = 1) keeps the result of the highest lane. -/
def X.finish (x : X) (d : Reg) (w : Nat) (res : Nat → Res) (lat src : Nat) : State :=
  if x.lanes = 0 && x.u then x.done else
  let ls := x.list
  let g := match d with
    | .p n => x.g.wrPAll n.val ls fun l => (res l).val.getLsbD 0
    | _ => ls.foldl (fun g l => g.wr w l d ((res l).val.zeroExtend 128)) x.g
  let after (l : Nat) : Dword := if w = 2 then g.rd64 l d else (g.rd32 l d).zeroExtend 64
  let vals := (laneList x.m).map fun l => (l, after l)
  let g := if pushes d then vals.foldl (fun g p => g.pushL p.1 p.2) g else g
  let fl := ls.foldl (fun a l => a ||| (res l).fl) 0
  let g := { g with sys := { g.sys with fpstat := g.sys.fpstat ||| fl } }
  let x := { x with g := g }.mark (x.writesOf d w (pushes d)) src lat
  x.doneFp (fpTraps g.sys.fpctl ls fun l => (res l).fl)

/-- An ARITH instruction computed lane by lane (R99, R128). -/
def X.arith (x : X) (sp : ArithSpec) (a : Arith) (lat src : Nat) (f : Nat → Dword → Dword → Dword → Res) : State :=
  let x := x.uniformU fun l => let v := a.vals sp x.g l; [v.1, v.2.1, v.2.2]
  let one (l : Nat) : Res := let v := a.vals sp x.g l; f l v.1 v.2.1 v.2.2
  let low := one x.low
  x.finish a.d (sp.dst a.ty).width (fun l => if x.u then low else one l) lat src

-- Decode checks that the state decides (R17, R86, R88)

/-- The registers marked "—" for user mode (R206, R297, R330, R283, R315). -/
def sysregSuper (n : Nat) : Bool :=
  [0x011, 0x013, 0x014, 0x015, 0x01A, 0x01B, 0x01C, 0x01D, 0x01E, 0x061, 0x063].contains n ||
  (0x020 ≤ n && n ≤ 0x028) || (0x040 ≤ n && n ≤ 0x054) || (0x071 ≤ n && n ≤ 0x07D)

/-- R86: may the group issue the instruction? -/
def Group.privOk (g : Group) : Instr → Bool
  | .svqpop .. | .sysret .. | .iret .. | .tlbinv .. | .cinv .. | .launch .. | .halt .. | .tmset .. => g.priv
  | .sysrd _ n _ | .syswr _ n _ => g.priv || !sysregSuper n.toNat
  | .trapqPop .. | .ipiWrite .. | .wdogWrite .. | .smapStageWrite .. | .oemodeWrite .. | .laneCounterClear .. => g.priv
  | .dbgret .. => g.sys.debug
  | .reply .. => g.isResponder
  | _ => true

/-- The meaning of an issued instruction: ILLEGAL_OPERAND by the budget, then PRIVILEGE (R88), then its own effect. -/
def State.withIssue (s : State) (i : Instr) (h : Hdr) (body : X → State) : Host.Outcome State Fault Refusal :=
  match s.cur with
  | none => .fault .noIssuer
  | some q =>
    match s.group? q.gid with
    | none => .fault .noIssuer
    | some g =>
      let x : X :=
        { s := s, gid := q.gid, g := g, m := q.lanes, pc := q.pc, next := pcAdd q.pc h.len.bytes, u := h.u, resume := q.resume
          lanes := match q.resume with
            | some w => w.lanes
            | none => g.guardLanes h q.lanes }
      if breaksBudget g.info.budget i then .next (x.trap .illegalOperand x.m 0)
      else if !g.privOk i then .next (x.trap .privilege x.m 0)
      else .next (body x)

/-- A collective instruction (R33, R68): all lanes or none, operands as with U = 1. -/
def X.collective (x : X) (body : X → State) : State :=
  if x.lanes = 0 then x.done
  else if x.lanes = x.m then body { x with u := true }
  else x.trap .illegalConvergence x.m 0

/-- An instruction of R179: with no lane it only goes on. -/
def X.unlessEmpty (x : X) (body : X → State) : State := if x.lanes = 0 then x.done else body x

-- The supervisor queue (R202, R290, R306, R307)

/-- Keys of the queues that keep a replay window (R290): 0 to 127 the slices, then the SVQ, BTE channels, bins. -/
def svqKey : Nat := 128
def chanKey (ch : Nat) : Nat := 144 + ch
def binKey (n : Nat) : Nat := 256 + n
def windowSize : Nat := 32

/-- b of R290: the time before a refused entry is sent again. -/
def Core.backoff (c : Core) (k : Nat) : Nat := c.qbackoff * 2 ^ min k 4

/-- The entry as it stands once posted: W4 and W5 hold the time (R202). -/
def SvqEntry.stamped (e : SvqEntry) (ns : Nat) : SvqEntry :=
  { e with words := (e.words.set 4 (BitVec.ofNat 32 ns)).set 5 (BitVec.ofNat 32 (ns / 2 ^ 32)), posted := ns }

/-- Post an entry; one that finds the queue full waits in the replay window (R201, R290). -/
def State.svqPost (s : State) (core : Nat) (e : SvqEntry) : State :=
  let c := s.core core
  if c.svqWin.isEmpty && c.svq.length < 256 then s.modCore core fun c => { c with svq := c.svq ++ [e.stamped s.time] }
  else
    let s := s.modCore core fun c => { c with svqWin := c.svqWin ++ [e] }
    if c.svqWin.isEmpty then s.schedule (s.cc + c.backoff 1) (.replayResend core svqKey) else s

/-- W0 to W3 of an entry (R202). -/
def svqHead (kind ctx lane n asid part resp slot : Nat) (pc : Pc) : List Word :=
  [BitVec.ofNat 32 (kind * 2 ^ 28 + ctx % 64 * 2 ^ 22 + lane * 2 ^ 16 + n), BitVec.ofNat 32 (asid % 4096 * 2 ^ 16 + part * 256 + resp * 32 + slot % 32),
   BitVec.ofNat 32 pc.toNat, BitVec.ofNat 32 (pc.toNat / 2 ^ 32)]

def accCode : Access → Nat
  | .read => 0
  | .write => 1
  | .fetch => 2
  | .atomic => 3

/-- What a fault record says (R306). -/
structure FaultInfo where
  kind : Nat
  lane : Nat
  pc : Pc
  va : Nat
  lanes : Lanes
  acc : Access
  reason : Nat
  level : Nat
  unit : Nat
  chan : Nat

/-- A TAG that no unreleased record of the core holds (R306). -/
def Core.freeTag (c : Core) : Nat :=
  ((List.range 65536).map fun i => (c.nextTag + i) % 65536).find? (fun t => !c.records.any (·.tag == t)) |>.getD 0

/-- Records take the words of their entries once these are posted (R202). -/
def Core.stampRecords (c : Core) : Core :=
  { c with records := c.records.map fun r => match c.svq.find? fun e => e.kind != 0 && e.tag == r.tag with
    | some e => { r with words := e.words }
    | none => r }

/-- A group of which nothing more is known. -/
def Poster.of (gid : Nat) : Poster := { gid := gid, ctx := 0, part := 0, resp := 0, slot := 0 }

/-- Whom a group's records name. -/
def Group.poster (g : Group) (gid : Nat) : Poster := { gid := gid, ctx := g.info.ctx, part := g.info.part, resp := g.resp, slot := g.slot }

/-- Post a fault record for a group and give its TAG (R306). -/
def State.postFault (s : State) (p : Poster) (core : Nat) (f : FaultInfo) : Nat × State :=
  let c := s.core core
  let tag := c.freeTag
  let head := svqHead f.kind p.ctx f.lane 0 (s.ctx p.ctx).asid p.part p.resp p.slot f.pc
  let body := [BitVec.ofNat 32 f.va, BitVec.ofNat 32 (f.va / 2 ^ 32 % 65536), f.lanes.truncate 32, (f.lanes >>> 32).truncate 32,
    BitVec.ofNat 32 (tag * 65536 + accCode f.acc * 4096 + f.reason * 256 + f.level), BitVec.ofNat 32 (f.unit * 16 + f.chan), 0, 0]
  let e : SvqEntry := { words := head ++ [0, 0, 0, 0] ++ body, kind := f.kind, ctx := p.ctx, gid := p.gid, lane := f.lane, posted := 0, tag := tag }
  let r : FaultRec := { tag := tag, kind := f.kind, ctx := p.ctx, gid := p.gid, words := e.words }
  let s := (s.modCore core fun c => { c with records := c.records ++ [r], nextTag := (tag + 1) % 65536 }).svqPost core e
  (tag, s.modCore core Core.stampRecords)

/-- Lanes park at the instruction and one record is posted (R147, R306). -/
def X.park (x : X) (lanes : Lanes) (va : Nat) (acc : Access) (reason level : Nat) : X :=
  let f : FaultInfo := { kind := 1, lane := lowest lanes, pc := x.pc, va := va, lanes := lanes, acc := acc, reason := reason, level := level, unit := 0, chan := 0 }
  let (tag, s) := x.s.postFault (x.g.poster x.gid) x.core f
  { x with s := s, g := x.g.hold lanes x.pc (.faultParked tag) }

-- Pending interrupts (R300, R307)

def Core.svqWakes (c : Core) (ns : Nat) : Bool :=
  c.svq.length ≥ c.svqThresh || c.svq.any (·.kind != 0) ||
  (c.svqTimer != 0 && match c.svq.find? (·.kind == 0) with
    | some e => decide (e.posted + c.svqTimer * 10 ≤ ns)
    | none => false)

/-- SYS.IPEND as it reads: UTRAP and SVQ follow the queues. -/
def State.ipendOf (s : State) (core : Nat) : Word :=
  let c := s.core core
  (c.ipend &&& 0xBB) ||| (if c.trapq.isEmpty then 0 else 0x40) ||| (if c.svqWakes s.time then 0x4 else 0)

def State.setIpend (s : State) (core bit : Nat) : State := s.modCore core fun c => { c with ipend := c.ipend ||| BitVec.ofNat 32 (2 ^ bit) }

/-- R299: the supervisor lane takes an interrupt now, were the run holding lane 0 to issue. -/
def State.interruptDue (s : State) (core : Nat) (g : Group) : Bool :=
  g.sys.ie && (s.ipendOf core &&& (s.core core).imask) != 0 && !g.sys.intrap && g.sys.trapvec != 0

/-- An interrupt taken by the run that holds lane 0 (R299). -/
def Group.takeInterrupt (g : Group) (run : Run) : Group :=
  let t := { g.sys.trap with mask := 0, npc := pcDword run.pc, run := run.lanes }
  { g with sys := { g.sys with trap := t, pie := g.sys.ie, ie := false } }.enter run.lanes (entryPc g.sys.trapvec)

-- Asynchronous causes (R295)

def PendTrap.order (p : PendTrap) : Nat :=
  match p.cause with
  | .censusTimeout => 1
  | .barrierTimeout | .gangIncomplete => 2
  | _ => 0

/-- A class of R45, which is raised again only for lanes that remain. -/
def PendTrap.isFp (p : PendTrap) : Bool := fpClasses.any (·.2 == p.cause)

/-- The traps that R187 raises. -/
def PendTrap.isLimit (p : PendTrap) : Bool := p.cause == .barrierTimeout || p.cause == .gangIncomplete

/-- The pending cause to be taken before the group's next issue, if any. -/
def Group.nextPend (g : Group) : Option PendTrap :=
  let ok := g.pend.filter fun p => (!(g.sys.intrap || g.sys.debug) || p.inTrap) && !(p.isFp && p.mask &&& g.live == 0)
  match ok.find? (·.order == 0) with
  | some p => some p
  | none => match ok.find? (·.order == 1) with
    | some p => some p
    | none => ok.head?

def State.pendTrap (s : State) (gid : Nat) (p : PendTrap) : State := s.modGroup gid fun g => { g with pend := g.pend ++ [p] }

/-- The barrier at which a `bar.wait` or `bar.sync` waits: level and number. -/
def barName : Instr → Option (Nat × Nat)
  | .barWait _ lvl id _ => some (lvl.toNat, id.toNat)
  | .barSync _ lvl id => some (lvl.toNat, id.toNat)
  | _ => none

/-- A wait in a `bar.wait` or `bar.sync` that has issued (R187). -/
def Wait.atBar (w : Wait) : Option (Nat × Nat) := w.ins.bind barName

/-- The barrier wait in which lanes of a group stand (R187). -/
def Group.barWaitOf (g : Group) (m : Lanes) : Option (Pc × Wait) :=
  g.runs.findSome? fun r => match r.st with
    | .waiting w => if w.atBar.isSome && r.lanes == m then some (r.pc, w) else none
    | _ => none

/-- A pending cause is taken in place of the issue of a run (R45, R148, R199), for lanes that live; the wait that a limit ends is
kept (R187). -/
def State.takePend (s : State) (gid : Nat) (p : PendTrap) (run : Run) : State :=
  let s := s.modGroup gid fun g => { g with pend := g.pend.erase p }
  let wait := (s.group? gid).bind fun g => g.barWaitOf (p.run.getD 0)
  let s := if p.isLimit then s.modGroup gid fun g => { g with sys := { g.sys with saved := wait } } else s
  let live := ((s.group? gid).map (·.live)).getD 0
  let mask := if p.cause == .censusTimeout then live else if p.isFp then p.mask &&& live else p.mask
  let lanes := p.run.getD run.lanes &&& live
  s.takeTrap gid { cause := p.cause, other := p.other, mask := mask, pc := p.pc.getD run.pc, npc := p.npc.getD run.pc, addr := p.addr,
                   run := if lanes = 0 then run.lanes else lanes }

end Sys2Proof.Machine
end

