-- ==== Sys2Proof/WellFormed.lean ====
section
/-! DEFINITION. Well-formed instructions: those that some encoding of R59 to R88 decodes to. Each check
is the one that decoding makes (Decode.lean), said of the decoded form. -/

namespace Sys2Proof

def Hdr.w64 (h : Hdr) : Bool := h.len == .w64

/-- A header on which U is forbidden (R66). -/
def Hdr.w64n (h : Hdr) : Bool := h.w64 && !h.u

def Hdr.nopGuard (h : Hdr) : Bool := h.gp == 7 && h.gn

/-- The operands of a control or computing instruction. -/
def wfA : Instr → Bool
  | .nop h => h.w64 || h.nopGuard
  | .bra h t | .brany h _ t | .brall h _ t => t.wf h
  | .call h d t => t.wf h && (Pos.dstS 2).ok h.u d
  | .ret h a | .jmp h a _ => h.w64 && Pos.target.ok h.u a
  | .exit h | .yield h | .wait h _ _ _ _ => h.w64n
  | .pset h x => specPset.wf h x
  | .pand h x | .por h x | .pxor h x => specPbin.wf h x
  | .pnot h x => specPnot.wf h x
  | .iadd h x | .isub h x => specIadd.wf h x
  | .imul h x => specImul.wf h x
  | .imulhi h x => specImulhi.wf h x
  | .imad h x => specImad.wf h x
  | .imin h x | .imax h x => specImin.wf h x
  | .iabs h x | .ineg h x => specIabs.wf h x
  | .and h x | .or h x | .xor h x | .andn h x => specAnd.wf h x
  | .not h x | .brev h x | .mov h x => specNot.wf h x
  | .shl h x | .shr h x => specShl.wf h x
  | .sar h x => specSar.wf h x
  | .rol h x | .ror h x => specRol.wf h x
  | .popc h x | .clz h x => specPopc.wf h x
  | .bfe h x => specBfe.wf h x
  | .bfi h x => specBfi.wf h x
  | .sel h x => specSel.wf h x
  | .icmp h x => specIcmp.wf h x
  | .lea h x => specLea.wf h x
  | .pxext h x => specPxext.wf h x
  | .pxins h x => specPxins.wf h x
  | .pxavg h x => specPxavg.wf h x
  | .pxabd h x => specPxabd.wf h x
  | .pxsad h x => specPxsad.wf h x
  | .pxclp h x => specPxclp.wf h x
  | .pxnrm h x => specPxnrm.wf h x
  | .pxdot h x => specPxdot.wf h x
  | .fadd h x | .fsub h x | .fmul h x => specFadd.wf h x
  | .ffma h x => specFfma.wf h x
  | .fmin h x | .fmax h x => specFmin.wf h x
  | .fabs h x | .fneg h x => specFabs.wf h x
  | .fcmp h x => specFcmp.wf h x
  | .fclass h x => specFclass.wf h x
  | .frcp h x | .frsq h x | .fex2 h x | .flg2 h x | .fsin h x | .fcos h x => specFrcp.wf h x
  | .cvt h x => x.wf false h
  | .cvpk h x => x.wf true h
  | .shfl h x => specShfl.wf h x
  | .vote h x => specVote.wf h x
  | .ballot h x => specBallot.wf h x
  | .red h x => (specRed false).wf h x
  | .scan h x => (specRed true).wf h x
  | _ => true

/-- The operands of a memory, engine, synchronisation, system or debug instruction. -/
def wfB : Instr → Bool
  | .ld h m => specLd.wf h m
  | .st h m => specSt.wf h m
  | .lds h m => specLds.wf h m
  | .sts h m => specSts.wf h m
  | .ldfeKeep h m | .ldfeClear h m => specLdfe.wf h m
  | .stfeKeep h m | .stfeClear h m => specStfe.wf h m
  | .pref h m => specPref.wf h m
  | .fence h sc o => h.w64n && sc != .none && o != .rlx
  | .atomAdd h m | .atomMin h m | .atomMax h m | .atomAnd h m | .atomOr h m | .atomXor h m | .atomExch h m => specAtom.wf h m
  | .atomCas h m => specCas.wf h m
  | .cpy h x => h.w64 && (x.d.isNone || Pos.okOpt h.u (some (.dst 1)) x.d) && (Pos.src 2).ok h.u x.a && x.b.isNone
  | .cpyMc h x => h.w64 && (x.d.isNone || Pos.okOpt h.u (some (.dst 1)) x.d) && (Pos.src 2).ok h.u x.a && Pos.okOpt h.u (some (.src 1)) x.b
  | .hwaitFull h d _ | .hwaitEmpty h d _ => h.w64 && (Pos.dst 1).ok h.u d
  | .hsetBind h _ e a b => h.w64 && e != 0#8 && (Pos.src 1).ok h.u a && (Pos.src 1).ok h.u b
  | .hsetFull h _ | .hrel h _ | .tinv h _ | .mxfence h | .mxwait h _ => h.w64
  | .tset h _ a | .tget h _ a | .mxb h _ _ _ a | .mxdrain h _ _ _ a | .mxdrainAdd h _ _ _ a => h.w64 && (Pos.src 2).ok h.u a
  | .mxa h _ _ _ _ (.spad a) => h.w64 && (Pos.src 2).ok h.u a
  | .mxa h _ _ _ _ (.regs _ w vb) => h.w64 && vb.val % 4 == 0 && vb.val + (if w then 128 else 64) < 384
  | .mxzero h bank raw => h.w64 && !(bank && raw)
  | .barG h => h.w64n
  | .barArr h l n d => h.w64 && barIdOk l n && (d.isNone || Pos.okOpt h.u (some (.dst 1)) d)
  | .barWait h l n a => h.w64 && barIdOk l n && (Pos.src 1).ok h.u a
  | .barSync h l n => h.w64 && barIdOk l n
  | .sbcast h _ _ a | .reply h a | .tmset h _ a => h.w64 && (Pos.src 2).ok h.u a
  | .sbrecv h _ d => h.w64 && (Pos.dstVS false).ok h.u d
  | .chsend h _ a | .chrecv h _ a | .dirdel h a => h.w64 && (Pos.src 1).ok h.u a
  | .mbput h _ a b => h.w64 && Pos.gbase.ok h.u a && (Pos.src 2).ok h.u b
  | .mbget h _ d a => h.w64 && (Pos.dst 2).ok h.u d && Pos.gbase.ok h.u a
  | .dirins h _ d a b => h.w64 && (Pos.dst 1).ok h.u d && (Pos.src 2).ok h.u a && (Pos.src 2).ok h.u b
  | .tmove h d a b => h.w64 && (Pos.dst 1).ok h.u d && (Pos.src 1).ok h.u a && (Pos.src 1).ok h.u b
  | .solicit h c d k => h.w64 && c != 7#3 && (Pos.dst 1).ok h.u d && k.val ≤ 60
  | .census h d a => h.w64 && (Pos.dst 2).ok h.u d && (Pos.src 1).ok h.u a
  | .cenpoll h p a => h.w64 && p.val < 7 && (Pos.src 1).ok h.u a
  | .nrec h a b => h.w64 && (Pos.src 1).ok h.u a && (Pos.src 1).ok h.u b
  | .sys h _ | .iret h | .halt h | .brk h _ | .dbgret h _ _ => h.w64n
  | .svqpop h d => h.w64n && d.val % 16 == 0
  | .sysret h a b => h.w64n && (Pos.vOnly 2).ok h.u a && (Pos.src 2).ok h.u b
  | .sysrd h n d => h.w64 && (sysregWidth n).isSome && n != 0x022#10 && (sysrdPos n).ok h.u d
  | .trapqPop h d => h.w64 && (sysrdPos 0x022#10).ok h.u d
  | .syswr h n a =>
    h.w64 && (sysregWidth n).isSome && !([0x00F#10, 0x01C#10, 0x013#10, 0x071#10, 0x07C#10, 0x078#10, 0x079#10].contains n) &&
    (Pos.src (sysregRegs n)).ok h.u a
  | .trapretWrite h a | .ipiWrite h a | .smapStageWrite h a | .oemodeWrite h a => h.w64 && (Pos.src 1).ok h.u a
  | .wdogWrite h a | .laneCounterClear h _ a => h.w64 && (Pos.src 2).ok h.u a
  | .tlbinv h k _ a b => h.w64 && Pos.okOpt h.u k.aPos a && Pos.okOpt h.u k.bPos b
  | .cwb h a => h.w64 && (a.isNone || Pos.okOpt h.u (some .gbase) a)
  | .cinv h l2 a => h.w64 && (a.isNone || Pos.okOpt h.u (some .gbase) a) && !(a.isNone && l2)
  | .launch h d a => h.w64 && (Pos.dst 1).ok h.u d && (Pos.src 2).ok h.u a
  | .sread h x => x.wf false h
  | .swrite h x => x.wf true h
  | .nsend h x => h.w64 && (x.d.isNone || Pos.okOpt h.u (some (.dst 1)) x.d) && (Pos.src 1).ok h.u x.a &&
    (x.b.isNone || Pos.okOpt h.u (some (.src 1)) x.b)
  | .nrecv h d a b => h.w64 && (Pos.dst 1).ok h.u d && (Pos.src 2).ok h.u a && (Pos.src 1).ok h.u b
  | _ => true

/-- The header of an issued instruction. -/
def Instr.hdr (i : Instr) : Option Hdr := (encodeRaw i).map Raw.hdr

/-- An instruction some encoding stands for; an event carries no encoding and is well-formed. Only `nop`
has the guard of R67. -/
def Instr.wf (i : Instr) : Bool :=
  wfA i && wfB i &&
  match i with
  | .nop _ => true
  | _ => match i.hdr with
    | some h => !h.nopGuard
    | none => true

end Sys2Proof
end

