-- ==== Sys2Proof/Machine/Fetch.lean ====
section
/-! DEFINITION. Selection and fetch: the group a partition selects (R30), packing (R28), the run it issues
(R24), the words at its PC (R59 to R62), and what keeps a run from issuing (R76, R355). -/

namespace Sys2Proof.Machine

-- The run that R24 picks

/-- Runs that may issue: while a handler or the debug agent runs, those that hold lanes of TRAPRUN (R296, R332). -/
def Group.readyRuns (g : Group) : List Run :=
  if ((g.sched.trapped || g.sched.held) && !g.sys.debug) || g.sched.stopped then [] else
  g.runs.filter fun r => r.st == .ready && (!(g.sys.intrap || g.sys.debug) || r.lanes &&& g.sys.trap.run != 0)

/-- The run with the smallest wait stamp, ties to the lowest PC (R24). -/
def oldest : List Run → Option Run
  | [] => none
  | r :: t => match oldest t with
    | none => some r
    | some q => if q.stamp < r.stamp then some q else some r

/-- The pick of R24, and whether it is a fairness escape. -/
def Group.pick (g : Group) : Option (Run × Bool) :=
  match g.readyRuns with
  | [] => none
  | head :: others =>
    if g.info.fair ≤ g.sched.streak && !others.isEmpty then (oldest others).map fun r => (r, true) else some (head, false)

/-- The bookkeeping of R24 for an issue of `r`. -/
def Group.issued (g : Group) (r : Run) (escape : Bool) (cc : Nat) : Group :=
  let others := g.readyRuns.length > 1
  { g with
    sched := { g.sched with streak := if escape then 0 else if others then g.sched.streak + 1 else 0, issues := g.sched.issues + 1, lastPc := r.pc,
                            age := cc, promoted := false }
    sys := { g.sys with escapes := if escape then min (g.sys.escapes + 1) 65535 else g.sys.escapes }
    runs := g.runs.map fun q => if q.lanes = r.lanes then { q with stamp := g.sched.issues } else q }

-- The words at a PC

inductive FetchRes where
  | fault (e : XErr)
  | pad
  | bad (r : Reject)
  | ok (i : Instr) (len : Len)
  deriving DecidableEq, Repr

/-- The length that the first word gives passes the block (R60). -/
def lenOver (bs : List Byte) (room : Nat) : Bool :=
  match lenOf (BitVec.ofNat 32 (leNat (bs.take 4))) with
  | some len => decide (room < len.bytes)
  | none => false

/-- Fetch for a run: translation, length, block (R59, R60, R62). DEDUCED (log 15): words are read at the home slice. -/
def State.fetch (s : State) (g : Group) (pc : Pc) : State × FetchRes :=
  match s.xlate g.info.core (s.gspace g) .fetch normalOnly pc.toNat with
  | (s, .error e) => (s, .fault e)
  | (s, .ok x) =>
    if x.pa ≥ hbmSize then (s, .fault { cause := .busError, reason := 0, level := 0 }) else
    let room := 32 - pc.toNat % 32
    if s.msys.bad x.pa (min room 16) then (s, .fault (errOf .eccUncorrectable)) else
    let (bs, s) := s.homeRead x.key x.pa (min room 16)
    if lenOver bs room then (s, .bad .illegalOpcode) else
    match decodeBytes bs with
    | .pad => (s, .pad)
    | .bad r => (s, .bad r)
    | .ok i len => (s, .ok i len)

/-- The boundary at which fetch goes on above a pad word (R61). -/
def padNext (pc : Pc) : Pc := pcAdd pc (32 - pc.toNat % 32)

-- What keeps a run from issuing

/-- The counter an instruction adds to (R76): 0 LD, 1 ST, 2 CP, 3 TL. -/
def ctrOf : Instr → Option Nat
  | .ld .. | .lds .. | .ldfeKeep .. | .ldfeClear .. => some 0
  | .st .. | .sts .. | .stfeKeep .. | .stfeClear .. | .cwb .. | .cinv .. => some 1
  | .atomAdd _ m | .atomMin _ m | .atomMax _ m | .atomAnd _ m | .atomOr _ m | .atomXor _ m | .atomExch _ m | .atomCas _ m =>
    some (if m.sx then 0 else 1)
  | .cpy .. | .cpyMc .. | .sread .. | .swrite .. | .nsend .. => some 2
  | .mxb .. | .mxa .. | .mxdrain .. | .mxdrainAdd .. | .mxzero .. | .tmove .. => some 3
  | _ => none

/-- Never packed (R29). -/
def issuesAlone : Instr → Bool
  | .mxb .. | .mxa .. | .mxfence .. | .mxwait .. | .mxdrain .. | .mxdrainAdd .. | .mxzero .. => true
  | .solicit .. | .census .. | .launch .. | .sys .. | .svqpop .. | .sysret .. => true
  | _ => false

def isNop : Instr → Bool
  | .nop _ => true
  | _ => false

/-- The state of a run that may not issue its next instruction yet (R76, R355). -/
def Group.held? (g : Group) (i : Instr) (h : Hdr) (lanes : Lanes) : Option RunSt :=
  let hz := if isNop i && h.nopGuard then [] else g.hazards lanes (useCodes h i)
  let ids := (hz.map fun b => b.id).eraseDups
  if !hz.isEmpty then
    some (if hz.all fun b => b.src == 0 || b.src == 3 then .stalled ids else .waiting { Wait.of .score none lanes with ops := ids })
  else match ctrOf i with
    | some k => if g.ctr k ≥ 63 then some (.waiting (Wait.of (.counter k) none lanes)) else none
    | none => none

end Sys2Proof.Machine
end

