-- ==== Sys2Proof/Machine/MemFlow.lean ====
section
/-! DEFINITION. The flow of memory operations: the checks of R144 to R147, the L1 (R224), the paths to the
slices (R229, R290), scratchpad ports (R227, R238), Peer and Device accesses (R223, R320), completion
(R76, R148), and releases (R228, R229). -/

namespace Sys2Proof.Machine

-- Causes of a lane's access

/-- R301: an enabled range of the partition that an access of `n` bytes hits. -/
def PartDbg.watches (d : PartDbg) (sp : Bool) (rd wr : Bool) (a n : Nat) : Bool :=
  (List.range 4).any fun i =>
    let c := SMap.get 0 d.wctl i
    let size := 2 ^ (c.toNat % 64)
    let base := Dword.field (SMap.get 0 d.wbase i) 0 48
    c.getLsbD 31 && c.getLsbD 11 == sp && ((c.getLsbD 8 && rd) || (c.getLsbD 9 && wr)) && base % size == 0 &&
    a < base + size && base < a + n

/-- A watch range is hit. A step that a frozen group sends again makes no second stop (R332). -/
def X.watchHit (x : X) (sp rd wr : Bool) (a n : Nat) : Bool :=
  !x.g.sys.debug && ((x.s.core x.core).part x.g.info.part).stopped.isNone && (x.g.sched.noWatch.all fun q => q.2 != x.pc || x.m &&& q.1 == 0) && ((x.s.core x.core).part x.g.info.part).watches sp rd wr a n

/-- A lane that performs, or the cause it has, with REASON and LEVEL of a fault record. -/
structure LaneCheck where
  lane : Nat
  va : Nat
  acc : LaneAcc
  err : Option XErr

def LaneAcc.at_ (lane va pa key typ alloc gen : Nat) : LaneAcc :=
  { lane := lane, va := va, pa := pa, key := key, typ := typ, alloc := alloc, gen := gen, data := [], back := none, err := none, done := false }

def LaneCheck.bad (lane va : Nat) (e : XErr) : LaneCheck := { lane := lane, va := va, acc := .at_ lane va 0 0 0 0 0, err := some e }

/-- R145: the memory types that permit an access. -/
inductive TypeRule where
  | plain (size : Nat)
  | atomic (sys : Bool)
  | normal
  deriving DecidableEq, Repr

def TypeRule.ok : TypeRule → Nat → Bool
  | .plain size, t => t ≤ 1 || size ≤ 8
  | .atomic sys, t => t == 0 || (t == 1 && sys)
  | .normal, t => t == 0

def accRd : Access → Bool
  | .write => false
  | _ => true

/-- One lane of a global access (R144, R145, R301, R303). -/
def X.checkGlobal (x : X) (acc : Access) (rule : TypeRule) (size align lane va : Nat) : X × LaneCheck :=
  if va % align ≠ 0 then (x, .bad lane va (errOf .misaligned))
  else if x.watchHit false (accRd acc) (isWrite acc) va size then (x, .bad lane va (errOf .watch))
  else match x.s.xlate x.core (x.s.gspace x.g) acc rule.ok va with
    | (s, .error e) => ({ x with s := s }, .bad lane va e)
    | (s, .ok t) => ({ x with s := s }, { lane := lane, va := va, acc := .at_ lane va t.pa t.key t.typ 0 0, err := none })

/-- R146: the core, offset, allocation and generation that a scratchpad address names for a workgroup. -/
def State.spTarget (s : State) (wg addr size : Nat) : Except Cause (Nat × Nat × Nat × Nat) :=
  match s.wgs.find wg with
  | none => .error .permission
  | some w =>
    if addr ≥ 0x200000 then .error .permission else
    match w.members[(w.member + addr / 0x80000) % 4]? with
    | none => .error .permission
    | some (_, wg') =>
      match s.wgs.find wg' with
      | none => .error .peerGone
      | some w' => match s.allocs.find w'.alloc with
        | none => .error .peerGone
        | some a =>
          if addr % 0x80000 + size > a.size then .error .permission
          else if w'.ended then .error .peerGone
          else .ok (a.core, a.base + addr % 0x80000, w'.alloc, a.gen)

/-- One lane of a scratchpad access (R144, R146, R301). -/
def X.checkSp (x : X) (rd wr : Bool) (size align lane addr : Nat) : LaneCheck :=
  if addr % align ≠ 0 then .bad lane addr (errOf .misaligned)
  else if x.watchHit true rd wr addr size then .bad lane addr (errOf .watch)
  else match x.s.spTarget x.g.info.wg addr size with
    | .error c => .bad lane addr (errOf c)
    | .ok (core, off, alloc, gen) => { lane := lane, va := addr, acc := .at_ lane addr off core 4 alloc gen, err := none }

def X.checkEach (f : X → Nat → X × LaneCheck) : X → List Nat → X × List LaneCheck
  | x, [] => (x, [])
  | x, l :: t =>
    let (x, c) := f x l
    let (x, cs) := checkEach f x t
    (x, c :: cs)

/-- The lanes that an acting lane stands for: with U = 1 all of `lanes` (R32). -/
def X.mask (x : X) (l : Nat) : Lanes := if x.u then x.lanes else laneBit l
def X.maskAll (x : X) (ls : List Nat) : Lanes := if x.u && !ls.isEmpty then x.lanes else lanesOf ls

/-- The causes that NF covers (R147). -/
def nfCause : Cause → Bool
  | .misaligned | .pageNotPresent | .permission | .memtype | .peerGone | .busError | .eccUncorrectable => true
  | _ => false

/-- R147: what becomes of a memory instruction whose lanes were checked. `perform` makes the accesses of the lanes
without a cause; `fin` says where the lanes that advance go. -/
def X.memOutcome (x : X) (nf : Bool) (acc : Access) (cs : List LaneCheck) (perform : X → List LaneAcc → X) (fin : X → Lanes → State) : State :=
  let bad := cs.filterMap fun c => c.err.map fun e => (c, e)
  let good := (cs.filter fun c => c.err.isNone).map (·.acc)
  let run (x : X) : X := if good.isEmpty then x else perform x good
  if bad.isEmpty then fin (run x) x.m
  else if nf && bad.all (fun b => nfCause b.2.cause) then
    let lanesBad := x.maskAll (bad.map fun b => b.1.lane)
    fin (run (x.setP6 (laneList lanesBad) fun _ => true)) x.m
  else
    let top := (bad.map fun b => b.2.cause.rank).foldl min 99
    let hit := bad.filter fun b => b.2.cause.rank == top
    let low := bad.filter fun b => b.2.cause.rank != top
    match hit with
    | [] => fin (run x) x.m
    | (c, e) :: _ =>
      let m := x.maskAll (hit.map fun b => b.1.lane)
      if !nf && !x.g.priv && e.cause == .pageNotPresent then
        if (x.s.core x.core).svqWin.length ≥ windowSize then x.retryLater (.window svqKey) else
        let x := (run x).park m c.va acc e.reason e.level
        let lm := x.maskAll (low.map fun b => b.1.lane)
        fin { x with g := x.g.goto lm x.pc } (x.m &&& ~~~m &&& ~~~lm)
      else x.trapAt e.cause (!low.isEmpty) m x.pc (BitVec.ofNat 64 c.va)

-- Completion (R76, R148)

/-- P6 ← 1 in the lanes found bad and 0 in the others, where NF = 1. -/
def MemOp.lanesBad (o : MemOp) : List Nat :=
  if o.u then (if o.accs.any (·.err.isSome) then laneList o.lanes else []) else (o.accs.filter (·.err.isSome)).map (·.lane)

/-- The lanes that one access stands for. -/
def MemOp.threads (o : MemOp) (a : LaneAcc) : Lanes := if o.u then o.lanes else laneBit a.lane

/-- The cause that is reported of a late error, its lanes, and the address of the lowest: BUS_ERROR before ECC_UNCORRECTABLE (R148, R294). -/
def MemOp.lateCause (o : MemOp) : Option (Cause × Lanes × Nat) :=
  let of (c : Cause) : List LaneAcc := o.accs.filter fun a => a.err == some c
  let c := if (of .busError).isEmpty then Cause.eccUncorrectable else .busError
  match of c with
  | [] => none
  | a :: t => some (c, (a :: t).foldl (fun m a => m ||| o.threads a) 0, a.va)

/-- The operation ends: its counter falls, its register writes are made, a late error sets P6 or becomes a
pending trap (R148). -/
def State.endOp (s : State) (id : Nat) (o : MemOp) : State :=
  let s := { s with ops := s.ops.del id }
  let bad := o.lanesBad
  let s := s.modGroup o.gid fun g =>
    let g := if o.nf then g.wrPAll 6 (laneList o.lanes) (fun l => bad.contains l) else g
    (g.decCtr o.ctr).unmark id
  match o.lateCause with
  | some (c, m, va) =>
    if o.nf then s
    else s.pendTrap o.gid { cause := c, mask := m, pc := some o.pc, npc := none, addr := BitVec.ofNat 64 va, inTrap := o.inTrap, run := none,
                            other := lanesOf bad &&& ~~~m != 0 }
  | none => s

/-- The value that a lane of a load receives (R151). -/
def MemOp.value (o : MemOp) (a : LaneAcc) : Quad :=
  let bs := a.back.getD []
  let n := BitVec.ofNat 128 (leNat bs)
  if o.sx && o.size == 1 then ((n.truncate 8).signExtend 32 : Word).zeroExtend 128
  else if o.sx && o.size == 2 then ((n.truncate 16).signExtend 32 : Word).zeroExtend 128
  else n

/-- The register writes of an operation whose data are back; affected lanes keep their destination (R148). -/
def MemOp.writeD (o : MemOp) (g : Group) : Group :=
  match o.d with
  | none => g
  | some d =>
    o.accs.foldl (fun g a =>
      if a.err.isSome || !a.done then g
      else (if o.u then laneList o.lanes else [a.lane]).foldl (fun g l => g.wr (if o.size = 16 then 4 else if o.size = 8 then 2 else 1) l d (o.value a)) g) g

def nearScope : Scope → Bool
  | .none | .grp | .wg => true
  | _ => false

/-- An acquire at `.cl` or wider acts on the L1 (R228). -/
def State.acquireAt (s : State) (core : Nat) (scope : Scope) : State :=
  if nearScope scope then s else s.modCore core Core.l1Acquire

/-- The latency from the issue that R240 states exactly: scratchpads, own and peer, and an L1 hit, whose data are there at once. -/
def MemOp.exactLat (o : MemOp) (core cc : Nat) : Option Nat :=
  if o.accs.all fun a => a.typ == 4 then some (if o.accs.all fun a => a.key == core then 24 else 64)
  else if o.sentCc = cc && o.accs.all (fun a => a.typ == 0 && a.err.isNone) then some 32
  else none

/-- The cycle in which data are back (R240). UNVERIFIED (log 1): the latencies that R240 does not state exactly. -/
def State.dataDue (s : State) (core : Nat) (o : MemOp) : Nat × State :=
  match o.exactLat core s.cc with
  | some n => (max s.cc (o.sentCc + n), s)
  | none => let (lat, s) := s.freeLat
    (s.cc + lat, s)

/-- An operation that writes no register ends when its last lane is performed; one that returns data is due after a
latency (R240). -/
def State.opCheck (s : State) (id : Nat) : State :=
  match s.ops.find id with
  | none => s
  | some o =>
    let core := ((s.group? o.gid).map (·.info.core)).getD 0
    if o.ready || !o.accs.all (·.done) then s
    else match o.kind with
      | .store => s.endOp id o
      | .atomNoRet => (if o.acq then s.acquireAt core o.scope else s).endOp id o
      | .load | .atomRet =>
        let (due, s) := s.dataDue core o
        { s with ops := s.ops.ins id { o with ready := true, due := due } }
      | .other => (s.modGroup o.gid o.writeD).endOp id o

/-- A lane's access is answered; the first answer stands. -/
def State.laneDone (s : State) (id lane : Nat) (back : Option (List Byte)) (err : Option Cause) : State :=
  (s.modOp id fun o =>
    { o with accs := o.accs.map fun a =>
        if a.lane == lane && !a.done then { a with back := back, err := err, done := true } else a }).opCheck id

-- Requests to the slices (R229, R290)

def countKey (core phase slice : Nat) : Nat := (core * 4 + phase) * 128 + slice

def ReqKind.isWrite : ReqKind → Bool
  | .read => false
  | _ => true

/-- The requests of a path that are not served yet, in order. -/
def Path.all (p : Path) : List Req := p.queue ++ p.window

/-- The bytes that a write carries to a sector that takes them. -/
def Req.lands (m : MemSys) (r : Req) : Option (List Byte) :=
  match r.kind with
  | .write bs => if m.badWrite r.pa bs.length then none else some bs
  | _ => none

/-- The writes that a core has sent are performed at their home slices now, in order (R230); the requests stay to be counted and
answered. DESIGN CHOICE (log 96). -/
def State.landWrites (s : State) (core : Nat) : State :=
  let land (r : Req) : Req := if (r.lands s.msys).isSome then { r with kind := .write [] } else r
  let s' := ((s.core core).paths.flatMap fun p => p.2.all).foldl (fun t r => (r.lands s.msys).elim t fun bs => t.homeWrite r.key r.pa bs) s
  s'.modCore core fun c => { c with paths := c.paths.map fun p => (p.1, { p.2 with window := p.2.window.map land, queue := p.2.queue.map land }) }

/-- The path that a request takes: to its home slice, or behind the requests for its line that still travel elsewhere, so that requests
for one byte stay in order when the slice map changes (R230, R314). -/
def Core.pathFor (c : Core) (slice pa : Nat) : Nat :=
  match c.paths.find? fun p => p.1 < 128 && p.2.all.any fun r => r.pa / 256 == pa / 256 with
  | some p => p.1
  | none => slice

/-- A request leaves a core for its home slice; a write carries the open phase and is counted (R229). -/
def State.sendReq (s : State) (core : Nat) (op : Option Nat) (lane : Nat) (kind : ReqKind) (pa len key : Nat) : State :=
  let slice := (s.core core).pathFor (s.msys.sliceOf pa) pa
  let (lat, s) := s.freeLat
  s.modCore core fun c =>
    let p := c.paths.get Path.reset slice
    let r : Req := { op := op, lane := lane, kind := kind, pa := pa, len := len, key := key, phase := c.phase, due := s.cc + lat }
    let c := { c with paths := c.paths.ins slice { p with window := p.window ++ [r] } }
    if kind.isWrite then { c with sent := c.sent.put 0 (c.phase * 128 + slice) (c.sent.get 0 (c.phase * 128 + slice) + 1) } else c

/-- Runs of dirty bytes of the L1: start address, key id, bytes (R224). -/
def dirtyRuns : List (Nat × (Byte × Bool)) → List (Nat × Nat × List Byte)
  | [] => []
  | (k, b, d) :: t =>
    let rest := dirtyRuns t
    if !d then rest else
    match rest with
    | (pa, key, bs) :: r =>
      if l1Key pa key = k + 1 ∧ (k + 1) % 32 ≠ 0 then (pa - 1, key, b :: bs) :: r else (k % 2 ^ 52, k / 2 ^ 52, [b]) :: rest
    | [] => [(k % 2 ^ 52, k / 2 ^ 52, [b])]

/-- Write back the dirty bytes that `p` selects: they go to the home slice under their byte mask and become clean. -/
def State.writeBack (s : State) (core : Nat) (op : Option Nat) (lane : Nat) (p : Nat → Bool) : State :=
  let runs := dirtyRuns ((s.core core).l1.filter fun e => p e.1)
  let s := s.modCore core fun c => { c with l1 := c.l1.map fun e => if p e.1 then (e.1, e.2.1, false) else e }
  runs.foldl (fun s r => s.sendReq core op lane (.write r.2.2) r.1 r.2.2.length r.2.1) s

def inRange (lo n k : Nat) : Bool := lo ≤ k && k < lo + n

/-- The L1 gives up lines: dirty bytes go home, the lines are dropped (R224). -/
def State.evict (s : State) (core : Nat) (lines : List Nat) : State :=
  lines.foldl (fun s line =>
    (s.writeBack core none 0 fun k => k % 2 ^ 52 / 256 == line).modCore core fun c =>
      { c with l1 := c.l1.filter fun e => e.1 % 2 ^ 52 / 256 != line }) s

-- Peer and Device accesses

def AtomOp.code : AtomOp → Nat
  | .add => 0 | .min => 1 | .max => 2 | .and => 3 | .or => 4 | .xor => 5 | .exch => 6 | .cas => 7

def AtomOp.ofCode : Nat → AtomOp
  | 0 => .add | 1 => .min | 2 => .max | 3 => .and | 4 => .or | 5 => .xor | 6 => .exch | _ => .cas

/-- The bytes that stand for a request in the payload of a flit (log 32). -/
def PeerReq.body (r : PeerReq) : List Byte :=
  leBytes r.pa 8 ++ leBytes r.len 8 ++ match r.kind with
    | .read => [0]
    | .write bs => 1 :: bs
    | .atomic op b c ret => leBytes (2 + op.code + if ret then 8 else 0) 1 ++ leBytes b.toNat 8 ++ leBytes c.toNat 8

/-- A flit is sent over a link and kept for replay, the latest 2,048 of them: it returns the credits owed and names the highest SEQ
received in order (R317, R318). -/
def State.sendFlit (s : State) (link kind : Nat) (body : List Byte) : State :=
  let l := s.link link
  let head := l.txSeq * 2 ^ 40 + kind * 2 ^ 36 + min l.owed 4095 * 2 ^ 24 + (l.expSeq + 2 ^ 24 - 1) % 2 ^ 24
  let bytes := leBytes head 8 ++ (List.range 240).map (Sys2Proof.Config.flitPayload kind body)
  let flit := bytes ++ leBytes (Sys2Proof.Config.crc32 bytes).toNat 8
  (s.modLink link fun l =>
    { l with txSeq := (l.txSeq + 1) % 2 ^ 24, owed := l.owed - 4095, replay := (l.replay ++ [(l.txSeq, flit)]).drop (l.replay.length - 2047) }).emit
    (.flit link flit)

/-- The bytes that stand for a gang message in the payload of a flit (log 32). -/
def GangMsg.body (m : GangMsg) : List Byte :=
  let (k, c) := match m.say with
    | .arm => (0, 0)
    | .ack => (1, 0)
    | .commit => (2, 0)
    | .abort => (3, 0)
    | .report c => (4, c)
    | .arrival b _ => (5, b)
  leBytes k 1 ++ leBytes m.gang.toNat 8 ++ leBytes m.src 2 ++ leBytes c 1

def laneTally (m : SMap KLane) (p : KLane → Bool) : Nat := ((List.range 8).filter fun i => p (m.get KLane.reset i)).length

def Link.active (l : Link) : Nat := laneTally l.lanes (·.active)

/-- Flits travel over the link: it is UP and has a lane to go on (R319). -/
def Link.carries (l : Link) : Bool := l.st == .up && l.active != 0

/-- A gang message leaves over a link (R285, R317). -/
def State.putGang (s : State) (link : Nat) (m : GangMsg) : State := (s.emit (.gang m)).sendFlit link 3 m.body

/-- A gang message for a member device: sent over a link that carries it, kept while the link trains or has no lane, lost when it is DOWN
(R319). -/
def State.sendGang (s : State) (g : Gang) (say : GangSay) (dev : Nat) : State :=
  let link := g.links.getD dev 0xFFFF
  let m : GangMsg := { say := say, gang := g.id, src := g.self, dst := dev }
  if (s.link link).carries then s.putGang link m
  else if (s.link link).st == .down then s
  else s.modLink link fun l => { l with gang := l.gang ++ [m] }

/-- The other members of a gang. -/
def Gang.others (g : Gang) : List Nat := (List.range g.links.length).filter (· ≠ g.self)

/-- A gang message for every other member. -/
def State.tellGang (s : State) (g : Gang) (say : GangSay) : State := g.others.foldl (fun s d => s.sendGang g say d) s

/-- Gang messages that waited for a link go out. -/
def State.flushGang (s : State) (link : Nat) : State :=
  (s.link link).gang.foldl (fun s m => s.putGang link m) (s.modLink link fun l => { l with gang := [] })

/-- Accesses that wait for a link go out while it carries them and fewer than 4,096 are outstanding (R319, R320). -/
def State.flowLink (s : State) (link : Nat) : State :=
  let l := s.link link
  if !l.carries then s else
  let n := 4096 - l.out.length
  let rs := (l.waiting.take n).map fun r => { r with sent := s.clock.ns }
  rs.foldl (fun s r => s.sendFlit link 1 r.body) (s.modLink link fun l => { l with out := l.out ++ rs, waiting := l.waiting.drop n })

/-- A Peer access (R320, R322): sent over a link that carries it, held in the core's replay window before that, BUS_ERROR when the link is DOWN
or when the owning device holds nothing at the address, or a window there (R352). -/
def State.sendPeer (s : State) (core op lane : Nat) (kind : ReqKind) (pa len : Nat) : State :=
  let k := pa / 2 ^ 44
  let r : PeerReq := { core := core, op := op, lane := lane, kind := kind, pa := pa % 2 ^ 44, len := len, sent := s.clock.ns, late := false }
  if (s.link k).st == .down || pa % 2 ^ 44 ≥ hbmSize then s.laneDone op lane none (some .busError)
  else (s.modLink k fun l => { l with waiting := l.waiting ++ [r] }).flowLink k

/-- R352: a window answers accesses of its own memory type only. -/
def deviceAnswers (typ pa : Nat) : Bool :=
  match regionOf pa with
  | .aperture _ => typ == 2
  | .bteConfig _ | .mgmt => typ == 3
  | _ => false

/-- The operation of copies: the lanes' statuses come back one by one. -/
def copyOp (gid : Nat) (pc : Pc) (u : Bool) (lanes : Lanes) (d : Option Reg) (ls : List Nat) (ctr : Nat) : MemOp :=
  { gid := gid, pc := pc, kind := .other, size := 4, sx := false, nf := false, scope := .none, acq := false, u := u, lanes := lanes, d := d,
    accs := ls.map fun l => .at_ l 0 0 0 9 0 0, inTrap := false, ctr := ctr, atom := none, fe := none, held := none, sent := 0, sentCc := 0,
    due := 0, ready := false }

/-- The copy that an aperture store starts (R256): channel and data. DESIGN CHOICE (log 82): a store to the page of another core starts the
copy as one of the storing core. -/
def apertureStart (d : DevReq) : Option Nat :=
  let off := (d.pa - ioBase) % 4096
  match regionOf d.pa with
  | .aperture _ => if d.write && d.size = 8 && off % 8 = 0 && off < 128 then some (off / 8) else none
  | _ => none

/-- A Device access enters the core's in-order path; a posted write is performed then (R223). The copy that a store to the aperture starts is an
operation of the group from then on; no counter falls with it. -/
def State.sendDevice (s : State) (core id : Nat) (o : MemOp) (a : LaneAcc) : State :=
  if !deviceAnswers a.typ a.pa then s.laneDone id a.lane none (some .busError) else
  let wr := o.kind == .store
  let g := s.group? o.gid
  let r : DevReq := { op := id, lane := a.lane, write := wr, pa := a.pa, size := o.size, data := BitVec.ofNat 64 (leNat a.data), strict := a.typ == 3, gid := o.gid,
                      pc := o.pc, va := a.va, nf := o.nf, inTrap := o.inTrap, lanes := if o.u then o.lanes else laneBit a.lane,
                      wg := (g.map (·.info.wg)).getD 0, space := (g.map s.gspace).getD ((s.core core).space true), poster := g.elim (.of o.gid) (·.poster o.gid), copy := none }
  let (r, s) := if (apertureStart r).isNone then (r, s) else
    let (k, s) := s.newSerial
    ({ r with copy := some k }, { s with ops := s.ops.ins k (copyOp r.poster.gid r.pc false r.lanes none [r.lane] 4) })
  let s := s.modCore core fun c => { c with dev := c.dev ++ [r] }
  if wr && a.typ == 2 then s.laneDone id a.lane none none else s

-- Scratchpad accesses

/-- The member number of a group's workgroup in its team. -/
def State.memberNo (s : State) (gid : Nat) : Nat := (((s.group? gid).bind fun g => s.wgs.find g.info.wg).map (·.member)).getD 0

/-- A request at a port finds its allocation gone (R238). -/
def State.spStale (s : State) (r : SpReq) : Bool :=
  match r.bytes with
  | some bs => s.stale r.alloc r.gen r.off bs.length r.issued r.arrNs
  | none => match s.allocs.find r.alloc with
    | none => true
    | some a => a.released.isSome || a.gen != r.gen

/-- A full/empty request can be served: its allocation is gone, or its granule is as it waits for (R152). -/
def State.feReady (s : State) (r : SpReq) : Bool :=
  s.spStale r || match r.fe with
    | some (some want, _) => (s.spad r.dst).isFull r.off == want
    | _ => true

/-- A request of the same core that has still its first turn, or need not wait, stands before a later one (R227). -/
def State.spBehind (s : State) (src dst : Nat) : Bool := s.feq.any fun r => r.src == src && r.dst == dst && (r.arr == s.cc || s.feReady r)

/-- Requests at a port: by cycle of arrival, then the local core, then peers by member number (R153). -/
def insFe (r : SpReq) : List SpReq → List SpReq
  | [] => [r]
  | q :: t => if r.arr < q.arr ∨ (r.arr = q.arr ∧ r.rank < q.rank) then r :: q :: t else q :: insFe r t

/-- A request reaches its port and waits there for its turn. -/
def State.queueFe (s : State) (r : SpReq) : State := { s with feq := insFe { r with arr := s.cc, arrNs := s.clock.ns } s.feq }

/-- R151, R227: a read or write at the port; the core's own at once, a peer's as a request in order. -/
def State.sendSp (s : State) (core id : Nat) (o : MemOp) (a : LaneAcc) : State :=
  let wr := o.kind == .store
  let r : SpReq :=
    { src := core, dst := a.key, off := a.pa, len := o.size, bytes := if wr then some a.data else none, alloc := a.alloc, gen := a.gen,
      tag := 0, issued := s.clock.ns, op := id, lane := a.lane, fe := o.fe, rank := if a.key = core then 0 else 1 + s.memberNo o.gid,
      arr := s.cc, arrNs := s.clock.ns }
  if a.key ≠ core then { s with spIn := s.spIn ++ [r] }
  else match o.fe with
    | some _ => s.queueFe r
    | none =>
      if s.spBehind core core then s.queueFe r
      else if wr then (s.modSpad core fun p => p.write 0 a.pa a.data).laneDone id a.lane none none
      else s.laneDone id a.lane (some ((s.spad core).read a.pa o.size)) none

-- Atomics (R156, R157)

/-- The new value of R156, at a width in bytes. -/
def atomNew (op : AtomOp) (w old b c : Nat) : Nat :=
  let i := toInt true (8 * w) old
  let j := toInt true (8 * w) b
  (match op with
    | .add => old + b
    | .min => if i ≤ j then old else b
    | .max => if i ≥ j then old else b
    | .and => old &&& b
    | .or => old ||| b
    | .xor => old ^^^ b
    | .exch => b
    | .cas => if old % 2 ^ (8 * w) = b % 2 ^ (8 * w) then c else old) % 2 ^ (8 * w)

def atomArgs (l : List (Nat × Dword × Dword)) (lane : Nat) : Dword × Dword :=
  match l.find? (fun p => p.1 == lane) with
  | some p => p.2
  | none => (0, 0)

/-- The L1 holds every byte of a range. -/
def Core.l1Holds (c : Core) (pa key n : Nat) : Bool := (List.range n).all fun i => (c.l1Byte (pa + i) key).isSome
def Core.l1Read (c : Core) (pa key n : Nat) : List Byte := (List.range n).map fun i => ((c.l1Byte (pa + i) key).map (·.1)).getD 0

/-- The value that a request carries to a byte. -/
def Req.carries (r : Req) (pa key : Nat) : Option Byte :=
  match r.kind with
  | .write bs => if r.key = key && r.pa ≤ pa then bs[pa - r.pa]? else none
  | _ => none

/-- The last value that the core has sent for a byte and that is not yet at its home slice: what comes from home is older (R230). -/
def Core.pending (c : Core) (pa key : Nat) : Option Byte :=
  c.paths.foldl (fun o p => p.2.all.foldl (fun o r => match r.carries pa key with
    | some b => some b
    | none => o) o) none

/-- The value of a byte that comes from home, beside what the core has sent. -/
def Core.newest (c : Core) (pa key : Nat) (b : Byte) : Byte := (c.pending pa key).getD b

/-- Bytes come in clean from the home slice; dirty bytes keep their value (R224). -/
def Core.l1Fill (c : Core) (key : Nat) : Nat → List Byte → Core
  | _, [] => c
  | pa, b :: t =>
    (match c.l1Byte pa key with
      | some (_, true) => c
      | _ => c.l1Set pa key (c.newest pa key b) false).l1Fill key (pa + 1) t

/-- R224: bytes that come back to a wider load: dirty bytes keep their value, clean copies take the new one. -/
def Core.l1Refresh (c : Core) (key : Nat) : Nat → List Byte → Core
  | _, [] => c
  | pa, b :: t =>
    (match c.l1Byte pa key with
      | some (_, false) => c.l1Set pa key (c.newest pa key b) false
      | _ => c).l1Refresh key (pa + 1) t

/-- The value of a load: dirty L1 bytes, and bytes on their way home, over what came from home. -/
def Core.l1Over (c : Core) (key : Nat) : Nat → List Byte → List Byte
  | _, [] => []
  | pa, b :: t => (match c.l1Byte pa key with
    | some (d, true) => d
    | _ => c.newest pa key b) :: c.l1Over key (pa + 1) t

/-- A near atomic on an L1 sector that is held (R157): the old bytes go back, the result is dirty. -/
def State.nearAtomic (s : State) (core id : Nat) (op : AtomOp) (args : List (Nat × Dword × Dword)) (size : Nat) (a : LaneAcc) : State :=
  let old := (s.core core).l1Read a.pa a.key size
  let (b, c) := atomArgs args a.lane
  let new := leBytes (atomNew op size (leNat old) b.toNat c.toNat) size
  (s.modCore core fun k => k.l1Write a.key true a.pa new).laneDone id a.lane (some old) none

/-- A lane of a Normal access goes its way (R224). -/
def State.startNormal (s : State) (core id : Nat) (o : MemOp) (a : LaneAcc) : State :=
  if a.pa ≥ hbmSize then s.laneDone id a.lane none (some .busError) else
  match o.kind, o.atom with
  | .atomRet, some (op, args) | .atomNoRet, some (op, args) =>
    if nearScope o.scope then
      if (s.core core).l1Holds (sectorOf a.pa) a.key 32 then s.nearAtomic core id op args o.size a
      else s.sendReq core (some id) a.lane .read (sectorOf a.pa) 32 a.key
    else
      let s := s.writeBack core none 0 (inRange (l1Key (sectorOf a.pa) a.key) 32)
      let (b, c) := atomArgs args a.lane
      s.sendReq core (some id) a.lane (.atomic op b c (o.kind == .atomRet)) a.pa o.size a.key
  | .store, _ =>
    if nearScope o.scope then (s.modCore core fun k => k.l1Write a.key true a.pa a.data).laneDone id a.lane none none
    else (s.modCore core fun k => k.l1Through a.key a.pa a.data).sendReq core (some id) a.lane (.write a.data) a.pa o.size a.key
  | _, _ =>
    if nearScope o.scope then
      if (s.core core).l1Holds a.pa a.key o.size then s.laneDone id a.lane (some ((s.core core).l1Read a.pa a.key o.size)) none
      else s.sendReq core (some id) a.lane .read (sectorOf a.pa) 32 a.key
    else s.sendReq core (some id) a.lane .read a.pa o.size a.key

def State.startAcc (s : State) (core id : Nat) (o : MemOp) (a : LaneAcc) : State :=
  match a.typ with
  | 0 => s.startNormal core id o a
  | 1 =>
    let kind : ReqKind := match o.kind, o.atom with
      | .store, _ => .write a.data
      | _, some (op, args) => .atomic op (atomArgs args a.lane).1 (atomArgs args a.lane).2 (o.kind == .atomRet)
      | _, none => .read
    s.sendPeer core id a.lane kind a.pa o.size
  | 4 => s.sendSp core id o a
  | 2 | 3 => s.sendDevice core id o a
  | _ => s

/-- The accesses of an operation are sent, in ascending LANE order (R149). -/
def State.startOp (s : State) (core id : Nat) : State :=
  match s.ops.find id with
  | none => s
  | some o => o.accs.foldl (fun s a => s.startAcc core id o a) { s with ops := s.ops.ins id { o with sent := s.clock.ns, sentCc := s.cc, held := none } }

-- Releases (R228, R229)

/-- A close begins: the next phase opens, the counts of the old one are announced (R229). -/
def State.beginClose (s : State) (core : Nat) : Nat × State :=
  let (id, s) := s.newSerial
  (id, s.modCore core fun c =>
    let ann := c.sent.filterMap fun p => if p.1 / 128 = c.phase then some (p.1 % 128, p.2) else none
    { c with phase := (c.phase + 1) % 4, sent := c.sent.filter (fun p => p.1 / 128 ≠ c.phase),
             closes := c.closes ++ [{ serial := id, phase := c.phase, announced := ann, reached := [], answered := [] }] })

/-- What a core's replay window for a link holds (R320). -/
def Link.window (l : Link) (core : Nat) : List PeerReq := l.waiting.filter (·.core == core)

/-- The number that stands for a core's replay window for a link. -/
def linkKey (link : Nat) : Nat := 1024 + link

/-- The replay window that has no place for an access of the core of a memory type at `pa` (R290, R320). -/
def State.noPlace (s : State) (core typ pa : Nat) : Option Nat :=
  if typ = 1 then
    let k := pa / 2 ^ 44
    if (s.link k).st != .down && ((s.link k).window core).length ≥ windowSize then some (linkKey k) else none
  else if typ = 0 then
    let k := (s.core core).pathFor (s.msys.sliceOf pa) pa
    if ((s.core core).paths.get Path.reset k).window.length ≥ windowSize then some k else none
  else none

/-- An access of an operation is made in the core's L1 and needs no place in a window (R224). -/
def Core.inL1 (c : Core) (o : MemOp) (a : LaneAcc) : Bool :=
  a.typ == 0 && nearScope o.scope && (o.kind == .store || c.l1Holds (if o.kind == .load then a.pa else sectorOf a.pa) a.key (if o.kind == .load then o.size else 32))

/-- Accesses that a release held are sent in order as far as their windows have places (R228, R290); how many have been sent. -/
def State.sendHeld (s : State) (core id : Nat) (o : MemOp) (n : Nat) : List LaneAcc → Nat × State
  | [] => (n, s)
  | a :: t =>
    if !(s.core core).inL1 o a && (s.noPlace core a.typ a.pa).isSome then (n, s)
    else (s.startAcc core id o a).sendHeld core id o (n + 1) t

/-- The release is complete: the accesses it held are sent (R228). It stands until all of them have been. -/
def State.endRel (s : State) (id : Nat) (r : Rel) : State :=
  match r.op.bind fun k => (s.ops.find k).bind fun o => if o.held == some id then some (k, o) else none with
  | some (k, o) =>
    let (n, s) := { s with ops := s.ops.ins k { o with sent := s.clock.ns, sentCc := s.cc, held := none } }.sendHeld r.core k o r.sent (o.accs.drop r.sent)
    if n = o.accs.length then { s with rels := s.rels.del id }
    else { s with rels := s.rels.ins id { r with sent := n } }.modOp k fun o => { o with held := some id }
  | none => { s with rels := s.rels.del id }

/-- Posted writes of the group that the device has not accepted (R228 step 4). -/
def State.posted (s : State) (r : Rel) : Bool := (s.core r.core).dev.any fun d => d.write && d.gid == r.gid

/-- A release goes on as far as it can (R228). -/
def State.relStep (s : State) (id : Nat) : State :=
  match s.rels.find id with
  | none => s
  | some r =>
    if r.waitOps.any fun o => (s.ops.find o).isSome then s
    else if nearScope r.scope then s.endRel id r
    else match r.close with
      | some k =>
        if (s.core r.core).closes.any (·.serial == k) || (r.scope == .sys && s.posted r) then s else s.endRel id r
      | none =>
        if (s.core r.core).closes.length ≥ 3 then s else
        let (k, s) := (s.writeBack r.core none 0 fun _ => true).beginClose r.core
        { s with rels := s.rels.ins id { r with close := some k } }

def State.relAll (s : State) : State := s.rels.foldl (fun s p => s.relStep p.1) s

/-- A release by a group begins: it waits for the accesses of the group that are outstanding (R228). -/
def State.beginRel (s : State) (gid core : Nat) (scope : Scope) (op : Option Nat) : Nat × State :=
  let (id, s) := s.newSerial
  let wait := s.ops.filterMap fun p => if p.2.gid = gid && p.2.accs.all (fun a => a.typ < 9) then some p.1 else none
  (id, { s with rels := s.rels.ins id { gid := gid, core := core, scope := scope, waitOps := wait, close := none, op := op, sent := 0 } })

/-- A close waits for a slice that is in service, or that still owes it announced requests (R229, R314). -/
def MemSys.closeAt (m : MemSys) (k : Close) (i : Nat) : Bool := m.inService i || SMap.get 0 k.announced i != 0

def MemSys.closeSlices (m : MemSys) (k : Close) : List Nat := (List.range 128).filter (m.closeAt k)

/-- The oldest close completes while every slice it waits for has answered it (R229). -/
def State.closeDone (s : State) (core : Nat) : State :=
  match (s.core core).closes with
  | [] => s
  | k :: t => if (s.msys.closeSlices k).all k.answered.contains then s.modCore core fun c => { c with closes := t } else s

-- The group's own changes and the shared state

/-- The state acts, the group's changes among it. -/
def X.sync (x : X) (f : State → State) : X :=
  let s := f x.flush
  { x with s := s, g := (s.group? x.gid).getD x.g }

/-- The source code of R336 of the writes an operation makes. -/
def OpKind.src : OpKind → Nat
  | .load => 1
  | .atomRet => 2
  | _ => 4

/-- An operation begins: counter, pending register writes, its accesses or the release that holds them (R76, R355). -/
def X.launchOp (x : X) (o : MemOp) (codes : List Nat) (rel : Option Scope) : X × Nat :=
  let (id, s) := x.s.newSerial
  let codes := if codes.isEmpty && !o.nf then [] else if o.nf then codes ++ [474] else codes
  let x := { x with s := s, g := (x.g.incCtr o.ctr).markOp id codes o.lanes x.pc o.kind.src }
  match rel with
  | some sc => (x.sync fun s =>
      let (r, s) := s.beginRel x.gid x.core sc (some id)
      ({ s with ops := s.ops.ins id { o with held := some r } }).relStep r, id)
  | none => (x.sync fun s => ({ s with ops := s.ops.ins id o }).startOp x.core id, id)

end Sys2Proof.Machine
end

