-- ==== Sys2Proof/Machine/Hold.lean ====
section
/-! DEFINITION. The ordering holds of R155, R228 and R230 and the replay windows of R290: what an instruction
that would issue has to wait for. -/

namespace Sys2Proof.Machine

/-- Instructions whose accesses come after an acquire that is still outstanding (R155, R228). -/
def accesses (i : Instr) : Bool :=
  match memOf i, i with
  | some _, .pref .. => false
  | some _, _ => true
  | none, .cpy .. | none, .cpyMc .. | none, .tset .. | none, .tget .. | none, .mxb .. | none, .mxa .. => true
  | none, .mxdrain .. | none, .mxdrainAdd .. | none, .chsend .. | none, .chrecv .. | none, .mbput .. | none, .mbget .. => true
  | none, .tmove .. | none, .nrec .. | none, .cwb .. | none, .cinv .. | none, .sread .. | none, .swrite .. | none, .nsend .. => true
  | none, .launch .. => true
  | none, _ => false

/-- Whether a MEM instruction is on scratchpad addresses. -/
def onScratch : Instr → Bool
  | .lds .. | .sts .. | .ldfeKeep .. | .ldfeClear .. | .stfeKeep .. | .stfeClear .. => true
  | _ => false

def isLoad : Instr → Bool
  | .ld .. => true
  | _ => false

def isStore : Instr → Bool
  | .st .. => true
  | _ => false

/-- Where a lane's access goes, as far as it translates: type (4 scratchpad), address, key or core. -/
def State.laneTarget (s : State) (g : Group) (i : Instr) (m : MemArg) (lane : Nat) : Option (Nat × Nat × Nat) :=
  if onScratch i then
    match s.spTarget g.info.wg (m.saddr g lane) m.size.bytes with
    | .ok (core, off, _, _) => some (4, off, core)
    | .error _ => none
  else
    match (s.xlate g.info.core (s.gspace g) .read anyType (m.gaddr g lane)).2 with
    | .ok t => some (t.typ, t.pa, t.key)
    | .error _ => none

/-- An outstanding access of the same thread to one of the same bytes (R230). -/
def State.overlaps (s : State) (gid : Nat) (lanes : Lanes) (typ addr key n : Nat) : Bool :=
  s.ops.any fun p => p.2.gid == gid && p.2.accs.any fun a =>
    !a.done && p.2.threads a &&& lanes != 0 && a.typ == typ && (typ != 4 || a.key == key) && a.pa < addr + n && addr < a.pa + p.2.size

/-- A request would be sent on a way whose replay window is full (R290, R320). -/
def State.wayFull (s : State) (core : Nat) (i : Instr) (m : MemArg) (typ pa key : Nat) : Option Nat :=
  let near := typ == 0 && nearScope m.scope
  let local_ := near && (isStore i || (s.core core).l1Holds (if isLoad i then pa else sectorOf pa) key (if isLoad i then m.size.bytes else 32))
  if local_ then none else s.noPlace core typ pa

def State.holdMem (s : State) (gid : Nat) (g : Group) (i : Instr) (m : MemArg) (u : Bool) (lanes : Lanes) : Option Wait :=
  let ls := if u then (laneList lanes).take 1 else laneList lanes
  let ts := ls.filterMap fun l => (s.laneTarget g i m l).map fun t => (if u then lanes else laneBit l, t)
  if ts.any fun t => s.overlaps gid t.1 t.2.1 t.2.2.1 t.2.2.2 m.size.bytes then some (Wait.of .order none lanes)
  else match ts.findSome? fun t => s.wayFull g.info.core i m t.2.1 t.2.2.1 t.2.2.2 with
    | some k => some (Wait.of (.window k) none lanes)
    | none => none

/-- Instructions that reach global memory at once: they come after the lanes' outstanding accesses (R230). -/
def direct : Instr → Bool
  | .tset .. | .tget .. | .mbget .. | .mbput .. | .cwb .. | .cinv .. => true
  | _ => false

/-- What the next instruction of a run has to wait for beside registers and counters. DESIGN CHOICE (log 91): a device access does not wait for an
earlier releasing store to a Device page whose access is still held (R223, R228). -/
def State.holdFor (s : State) (gid : Nat) (g : Group) (i : Instr) (r : Run) : Option Wait :=
  match i.hdr with
  | none => none
  | some h =>
    let lanes := g.guardLanes h r.lanes
    if lanes = 0 || !accesses i then none
    else if s.ops.any fun p => p.2.gid == gid && p.2.acq && p.2.lanes &&& lanes != 0 then some (Wait.of .order none lanes)
    else match memOf i, i with
      | some _, .pref .. => none
      | some (_, m), _ => s.holdMem gid g i m h.u lanes
      | none, i =>
        if direct i && s.ops.any fun p => p.2.gid == gid && p.2.lanes &&& lanes != 0 && p.2.accs.any fun a => a.typ < 4 then
          some (Wait.of .order none lanes)
        else none

end Sys2Proof.Machine
end

