-- ==== Sys2Proof/Machine/Select.lean ====
section
/-! DEFINITION. Selection among the groups of a partition (R30), packing (R28), active slots (R31), and the
checks made at the picked run before its instruction executes. -/

namespace Sys2Proof.Machine

/-- A READY run whose next instruction may not issue takes the state in which it waits (R76, R155, R355). -/
def State.settleRun (s : State) (gid : Nat) (g : Group) (r : Run) : Group :=
  match (s.fetch g r.pc).2 with
  | .ok i _ =>
    match i.hdr with
    | none => g
    | some h =>
      match g.held? i h r.lanes with
      | some st => g.hold r.lanes r.pc st
      | none => match s.holdFor gid g i r with
        | some w => g.hold r.lanes r.pc (.waiting w)
        | none => g
  | _ => g

/-- The READY runs of a group that may not issue take the state in which they wait; then the merge step, which comes last and joins
only runs that are both READY (R23). -/
def State.settle (s : State) (gid : Nat) (g : Group) : Group :=
  let g := g.readyRuns.foldl (fun g r => s.settleRun gid g r) g
  { g with runs := mergeRuns g.runs }

def State.settlePart (s : State) (core part : Nat) : State :=
  (s.groupsOf core part).foldl (fun s p => match s.group? p.1 with
    | some g => if g.readyRuns.isEmpty then s else s.setGroup p.1 (s.settle p.1 g)
    | none => s) s

/-- One issue cycle in two is withheld (R349). -/
def State.withheld (s : State) (core : Nat) : Bool := (s.mgmt.pkgThrottle || s.mgmt.throttled.contains (clusterOf core)) && s.cc % 2 == 1

/-- Is the group eligible for selection (R24, R30, R31, R332)? -/
def State.eligible (s : State) (gid : Nat) (g : Group) : Bool :=
  g.sched.active && g.sched.ret.isNone && g.pick.isSome && (g.isSuper || !(s.ctx g.info.ctx).saving) &&
  (g.isSuper || match ((s.core g.info.core).part g.info.part).stopped with
    | none => true
    | some k => k == gid)

/-- The level of R30. -/
def Group.level (g : Group) : Nat := if g.priv || g.sched.promoted then 3 else g.info.prio

/-- The order of R30 among equal levels: selection age, then resident slot; responders after every slot. -/
def Group.ageKey (g : Group) : Nat := max g.sched.age (g.sched.elig.getD g.sched.age)
/-- The resident slot in a tie. DESIGN CHOICE (log 88): the supervisor group, which has no number from R35, stands at 32, behind every user group. -/
def Group.slotKey (g : Group) : Nat := if g.isResponder then 1000 + g.info.place else g.info.place

def Group.wins (a b : Group) : Bool :=
  if a.level ≠ b.level then decide (a.level > b.level)
  else if a.ageKey ≠ b.ageKey then decide (a.ageKey < b.ageKey)
  else decide (a.slotKey < b.slotKey)

def insGroup (x : Nat × Group) : List (Nat × Group) → List (Nat × Group)
  | [] => [x]
  | y :: t => if x.2.wins y.2 then x :: y :: t else y :: insGroup x t

/-- The eligible groups of a partition in the order of R30; none in a cycle that is withheld. -/
def State.candidates (s : State) (core part : Nat) : List (Nat × Group) :=
  if s.withheld core then [] else ((s.groupsOf core part).filter fun p => s.eligible p.1 p.2).foldl (fun l p => insGroup p l) []

def Group.pickPc (g : Group) : Option Pc := g.pick.map fun p => p.1.pc

/-- The groups packed beside the selected one (R28). -/
def packFill (sel : Group) : Nat → List (Nat × Group) → List Nat
  | _, [] => []
  | room, (gid, g) :: t =>
    if g.info.kind == .role && g.info.launch == sel.info.launch && g.info.role == sel.info.role && g.pickPc == sel.pickPc &&
       g.info.width ≤ room then gid :: packFill sel (room - g.info.width) t
    else packFill sel room t

def State.packOf (s : State) (sel : Group) (others : List (Nat × Group)) : List Nat :=
  if sel.info.kind == .role && sel.info.width < 64 then
    match sel.pickPc with
    | some pc => match (s.fetch sel pc).2 with
      | .ok i _ => if issuesAlone i then [] else packFill sel (64 - sel.info.width) others
      | _ => []
    | none => []
  else []

/-- The first partition from the cursor on that selects a group in this cycle: its number, the group, its pack. -/
def State.selectFrom (s : State) : List Nat → Option (State × Nat × Nat × List Nat)
  | [] => none
  | p :: ps =>
    if (s.groupsOf (p / 2) (p % 2)).isEmpty then s.selectFrom ps else
    let s := s.settlePart (p / 2) (p % 2)
    match s.candidates (p / 2) (p % 2) with
    | [] => s.selectFrom ps
    | (gid, g) :: others => some (s, p, gid, s.packOf g others)

def adjacentDedup : List Nat → List Nat
  | [] => []
  | [a] => [a]
  | a :: b :: t => if a = b then adjacentDedup (b :: t) else a :: adjacentDedup (b :: t)

/-- The partitions that hold a group, from the cursor on; groups stand in the order of their partitions. -/
def State.partsFrom (s : State) : List Nat :=
  adjacentDedup ((s.groups.map fun p => p.2.info.core * 2 + p.2.info.part).filter (s.cursor ≤ ·))

/-- R299: the run picked holds lane 0 and an interrupt is due. -/
def State.interruptNow (s : State) (g : Group) (r : Run) : Bool :=
  g.isSuper && r.lanes.getLsbD 0 && s.interruptDue g.info.core g

/-- R331: the breakpoint whose PC the picked run holds. -/
def State.breakpointAt (s : State) (g : Group) (pc : Pc) : Option Nat :=
  let d := (s.core g.info.core).part g.info.part
  if !d.attach || g.isSuper || g.sys.debug || g.sched.noBp then none
  else (List.range 4).find? fun n =>
    let b := SMap.get 0 d.bp n
    Dword.field b 0 1 == 1 && Dword.field b 2 46 * 4 == pc.toNat

/-- R331: a halt request is served at the group selected, if it is a user group. -/
def State.haltNow (s : State) (g : Group) : Bool :=
  let d := (s.core g.info.core).part g.info.part
  d.attach && d.haltReq && !g.isSuper && d.stopped.isNone

/-- A fetch that fails: in user mode an absent page parks the run with a record (R62, R306), else the cause traps. -/
def State.fetchFault (s : State) (gid : Nat) (g : Group) (r : Run) (e : XErr) : State :=
  let x : X := { s := s, gid := gid, g := g, m := r.lanes, lanes := r.lanes, pc := r.pc, next := r.pc, u := false, resume := none }
  if e.cause == .pageNotPresent && !g.priv then
    if (s.core x.core).svqWin.length ≥ windowSize then x.retryLater (.window svqKey) else (x.park r.lanes r.pc.toNat .fetch e.reason e.level).flush
  else x.trap e.cause r.lanes (pcDword r.pc)

/-- The issue of R24: bookkeeping, and the instruction in progress. -/
def State.beginIssue (s : State) (gid : Nat) (g : Group) (r : Run) (escape : Bool) : State :=
  { s.setGroup gid (g.issued r escape s.cc) with cur := some { gid := gid, lanes := r.lanes, pc := r.pc, resume := none } }

/-- An encoding that is no instruction traps for the whole run (R87). -/
def State.rejectRun (s : State) (gid : Nat) (g : Group) (r : Run) (e : Reject) : State :=
  let x : X := { s := s, gid := gid, g := g, m := r.lanes, lanes := r.lanes, pc := r.pc, next := r.pc, u := false, resume := none }
  x.trap (rejectCause e) r.lanes 0

/-- The run at which a step of the debugger stops: the one R24 picks. DESIGN CHOICE (log 79): with no READY run, the run of the lanes
that issued, or the first. -/
def Group.stepRun (g : Group) (m : Lanes) : Option Run :=
  match g.pick with
  | some (r, _) => some r
  | none => match g.runs.find? fun r => r.lanes &&& m != 0 with
    | some r => some r
    | none => g.runs.head?

/-- The instructions that run without watchpoints, after an issue: kept while their lanes have still to complete them (R220). -/
def Group.keepNoWatch (g : Group) (m : Lanes) (pc : Pc) : List (Lanes × Pc) :=
  g.sched.noWatch.filter fun q => q.1 &&& m == 0 || (pc == q.2 && g.runs.any fun r => r.pc == q.2 && r.st != .ready && r.lanes &&& q.1 != 0)

/-- After the instruction: breakpoints and watchpoints are checked again; a step of the debugger stops (R220, R333).
`agent`: the debug agent issued it. DESIGN CHOICE (log 79): a stepped instruction that itself stops the partition (`brk`, a watch range) is reported
with its own cause and address, and the step makes no second stop. -/
def State.endIssue (s : State) (gid : Nat) (agent : Bool) : State :=
  let (m, pc) := match s.cur with
    | some q => (q.lanes, q.pc)
    | none => (0, 0)
  let s := { s with cur := none }
  match s.group? gid with
  | none => s
  | some g =>
    if agent then s else
    let step := g.sched.stepping && !g.sys.debug
    let g := { g with sched := { g.sched with noBp := false, noWatch := g.keepNoWatch m pc, stepping := false } }
    let s := s.setGroup gid g
    match step, (s.settle gid g).stepRun m with
    | true, some r =>
      s.debugStop gid { cause := .brk, other := false, mask := r.lanes, pc := r.pc, npc := r.pc, addr := 0x10000, run := r.lanes }
    | _, _ => s

end Sys2Proof.Machine
end

