-- ==== Sys2Proof/Machine/Clock.lean ====
section
/-! DEFINITION. Parts of a cycle of the core clock: time (R4, R265, R327), active slots (R31), ages (R30),
and the events that are due. -/

namespace Sys2Proof.Machine

/-- The rate at which the time unit advances, in parts per 10^9: free from the oscillator while SYS.PTPCTL.EN = 0 (R327). -/
def Clock.rate (c : Clock) : Int := if c.ptpctl.getLsbD 8 then c.adj else 0

/-- A time, in ns and a fraction, after `k` twelfths of a ns at a rate. -/
def timeAfter (ns frac k : Nat) (adj : Int) : Nat × Nat :=
  let u := frac + k * ((10 ^ 9 : Int) + adj).toNat
  (ns + u / nsUnit, u % nsUnit)

/-- Time advances by one cycle; the cores' copy at the rate of the last tick they have (R265). -/
def Clock.advance (c : Clock) : Clock :=
  let k := Mode.twelfths c.mode
  let u := timeAfter c.ns c.frac k c.rate
  let v := timeAfter c.copyNs c.copyFrac k c.copyAdj
  { c with cc := c.cc + 1, ran := c.ran + k, ns := u.1, frac := u.2, copyNs := v.1, copyFrac := v.2, counted := v.1 }

/-- Every 16 cc the time unit sends its value, which arrives 48 cc later (R263, R265). -/
def State.sendTick (s : State) : State :=
  if s.cc % 16 ≠ 0 then s else
  let c := s.clock
  let v : Tick := { due := s.cc + 48, ran := c.ran, ns := c.ns, frac := c.frac, adj := c.rate }
  { s with clock := { c with ticks := c.ticks ++ [v] } }.schedule (s.cc + 48) .timeBaseTick

def RunSt.isWaiting : RunSt → Bool
  | .waiting _ | .faultParked _ | .syscallParked => true
  | _ => false

/-- An active group that waits on memory leaves its slot (R31); the supervisor group and responders hold theirs. -/
def Group.parks (g : Group) : Bool :=
  g.sched.active && !g.isSuper && !g.isResponder && !g.sys.debug && !g.runs.any (fun r => r.st == .ready) &&
  g.runs.any (fun r => r.st.isWaiting)

def State.parkAll (s : State) : State :=
  s.groups.foldl (fun s p =>
    if p.2.parks && !s.frozen p.2 then s.setGroup p.1 { p.2 with sched := { p.2.sched with active := false, ret := none } } else s) s

/-- Active slots in use of a partition (R31, R35). -/
def State.slotsUsed (s : State) (core part : Nat) : Nat :=
  ((s.groupsOf core part).filter fun p => p.2.sched.active && !p.2.isResponder).length

/-- Parked groups with a READY run take free slots in the order of R30 and return 4 cc later (R31). -/
def State.returnAll (s : State) : State :=
  let cands := (s.groups.filter fun p => p.2.sched.resident && !p.2.sched.active && p.2.runs.any fun r => r.st == .ready).foldl
    (fun l p => insGroup p l) []
  cands.foldl (fun s p =>
    let g := p.2
    if s.frozen g || s.slotsUsed g.info.core g.info.part ≥ 16 then s
    else s.setGroup p.1 { g with sched := { g.sched with active := true, ret := some (s.cc + 4) } }) s

/-- Eligibility under R24 at the cycle's start: since when, and the promotion after 4,096 cc (R30). -/
def State.ageAll (s : State) : State :=
  s.groups.foldl (fun s p =>
    let g := p.2
    let e := g.sched.resident && g.pick.isSome
    let since := if e then some (g.sched.elig.getD s.cc) else none
    let s := s.setGroup p.1 { g with sched := { g.sched with elig := since } }
    match since with
    | some _ => if !g.priv && !g.sched.promoted && 4096 ≤ s.cc - max g.sched.age (since.getD s.cc) then s.schedule s.cc (.groupAgePromotion p.1) else s
    | none => s) s

/-- The first event that is due, taken from the list. -/
def State.popDue (s : State) : Option (Instr × State) :=
  match s.events with
  | [] => none
  | (due, i) :: t => if due ≤ s.cc then some (i, { s with events := t }) else none

end Sys2Proof.Machine
end

