-- ==== Sys2Proof/Machine/Control.lean ====
section
/-! DEFINITION. Control flow (R102 to R107) and predicates (R108). -/

namespace Sys2Proof.Machine

-- Targets (R84)

def sextWords (w : Nat) (v : BitVec w) : Pc := v.signExtend 48 * 4#48

def targetPc (pc : Pc) : Target → Pc
  | .rel20 w => pc + sextWords 20 w
  | .rel32 w => pc + sextWords 32 w
  | .abs a => a.zeroExtend 48 * 4#48

/-- Some lanes of the issuing run go to one PC, the others to `next` (R23, R103). -/
def X.branch (x : X) (taken : Lanes) (pc : Pc) : State :=
  x.s.setGroup x.gid ((x.g.goto taken pc).goto (x.m &&& ~~~taken) x.next)

-- Barriers of a workgroup (R182, R308)

def barKey (owner lvl id : Nat) : Nat := (owner * 4 + lvl) * 64 + id

def Barrier.arrOf (b : Barrier) (g : Nat) : Nat := b.arr.get 0 g

/-- Some member has arrived and another has not (R308). -/
def Barrier.partly (b : Barrier) : Bool := b.members.any (fun g => b.arrOf g ≥ 1) && b.members.any (fun g => b.arrOf g == 0)

/-- A B or CB barrier of a workgroup is partly arrived (R308). -/
def State.partlyArrived (s : State) (wg : Nat) : Bool :=
  match s.wgs.find wg with
  | none => false
  | some w => s.bars.any fun p => (p.1 / 64 == wg * 4 || p.1 / 64 == w.team * 4 + 1) && p.2.partly

-- Meanings

/-- R102. -/
def execNop (h : Hdr) (s : State) : Host.Outcome State Fault Refusal := s.withIssue (.nop h) h fun x => x.done

/-- R103. -/
def execBra (h : Hdr) (t : Target) (s : State) : Host.Outcome State Fault Refusal :=
  s.withIssue (.bra h t) h fun x => x.branch x.lanes (targetPc x.pc t)

def X.branchIf (x : X) (c : Bool) (t : Target) : State := if c then x.branch x.lanes (targetPc x.pc t) else x.done

def execBrany (h : Hdr) (p : Fin 8) (t : Target) (s : State) : Host.Outcome State Fault Refusal :=
  s.withIssue (.brany h p t) h fun x => x.branchIf (x.list.any (x.g.rdP p.val)) t

def execBrall (h : Hdr) (p : Fin 8) (t : Target) (s : State) : Host.Outcome State Fault Refusal :=
  s.withIssue (.brall h p t) h fun x => x.branchIf (x.list.all (x.g.rdP p.val)) t

/-- R103; the destination is written with latency 4 and not pushed (R100, R101). -/
def execCall (h : Hdr) (d : Reg) (t : Target) (s : State) : Host.Outcome State Fault Refusal :=
  s.withIssue (.call h d t) h fun x =>
    let x := x.putAll 2 d ((pcDword x.next).zeroExtend 128)
    (x.mark (x.writesOf d 2 false) 0 4).branch x.lanes (targetPc x.pc t)

/-- R104: the lanes of an indirect transfer, or MISALIGNED. -/
def X.indirect (x : X) (a : Reg) (off : BitVec 20) : State :=
  let x := x.uniformU fun l => [x.g.rd64 l a]
  let src (l : Nat) : Dword := x.g.rd64 (x.srcLane l) a
  let dest (l : Nat) : Pc := dwordPc (src l) + sextWords 20 off
  let bad := x.list.filter fun l => Dword.field (src l) 48 16 != 0 || (dest l).toNat % 4 != 0
  if bad.isEmpty then x.s.setGroup x.gid (x.g.gotoEach x.m fun l => if x.lanes.getLsbD l then dest l else x.next)
  else x.trap .misaligned (lanesOf bad) (src (bad.headD 0))

def execRet (h : Hdr) (a : Reg) (s : State) : Host.Outcome State Fault Refusal :=
  s.withIssue (.ret h a) h fun x => x.indirect a 0

def execJmp (h : Hdr) (a : Reg) (off : BitVec 20) (s : State) : Host.Outcome State Fault Refusal :=
  s.withIssue (.jmp h a off) h fun x => x.indirect a off

/-- R105. -/
def execExit (h : Hdr) (s : State) : Host.Outcome State Fault Refusal :=
  s.withIssue (.exit h) h fun x =>
    if x.g.isSuper && x.lanes != 0 then x.trap .privilege x.lanes 0
    else x.s.setGroup x.gid ((x.g.leave x.lanes).goto (x.m &&& ~~~x.lanes) x.next)

/-- R106, R308: the cooperative yield point holds the group when a request is pending and no barrier is partly arrived. -/
def execYield (h : Hdr) (s : State) : Host.Outcome State Fault Refusal :=
  s.withIssue (.yield h) h fun x =>
    x.unlessEmpty fun x =>
      let hold := !x.g.isSuper && (x.s.ctx x.g.info.ctx).preq && !x.s.partlyArrived x.g.info.wg
      (x.modG fun g => { g with sched := { g.sched with age := x.s.cc, held := hold } }).done

/-- R107: the counters stand at or below the limits. -/
def Group.countersAt (g : Group) (ld st cp tl : BitVec 6) : Bool :=
  g.regs.ld ≤ ld.toNat && g.regs.st ≤ st.toNat && g.regs.cp ≤ cp.toNat && g.regs.tl ≤ tl.toNat

def execWait (h : Hdr) (ld st cp tl : BitVec 6) (s : State) : Host.Outcome State Fault Refusal :=
  s.withIssue (.wait h ld st cp tl) h fun x =>
    if x.lanes = 0 || x.g.countersAt ld st cp tl then x.done
    else x.wait (Wait.of .counters (some (.wait h ld st cp tl)) x.lanes)

-- Predicates

def execPset (h : Hdr) (a : Arith) (s : State) : Host.Outcome State Fault Refusal :=
  s.withIssue (.pset h a) h fun x => x.arith specPset a 4 0 fun _ v _ _ => { val := bool64 (v.truncate 32 != 0#32), fl := 0 }

def execPand (h : Hdr) (a : Arith) (s : State) : Host.Outcome State Fault Refusal :=
  s.withIssue (.pand h a) h fun x => x.arith specPbin a 4 0 fun _ v w _ => { val := v &&& w, fl := 0 }

def execPor (h : Hdr) (a : Arith) (s : State) : Host.Outcome State Fault Refusal :=
  s.withIssue (.por h a) h fun x => x.arith specPbin a 4 0 fun _ v w _ => { val := v ||| w, fl := 0 }

def execPxor (h : Hdr) (a : Arith) (s : State) : Host.Outcome State Fault Refusal :=
  s.withIssue (.pxor h a) h fun x => x.arith specPbin a 4 0 fun _ v w _ => { val := v ^^^ w, fl := 0 }

def execPnot (h : Hdr) (a : Arith) (s : State) : Host.Outcome State Fault Refusal :=
  s.withIssue (.pnot h a) h fun x => x.arith specPnot a 4 0 fun _ v _ _ => { val := bool64 (v == 0), fl := 0 }

end Sys2Proof.Machine
end

