-- ==== Sys2Proof/Machine/MemServe.lean ====
section
/-! DEFINITION. What happens at the far end of memory operations: requests at the slices (R225, R290, R314),
scratchpad ports (R152, R153, R227, R238), and data that return (R148, R151, R228). -/

namespace Sys2Proof.Machine

-- At the home slice

def Core.modPath (c : Core) (k : Nat) (f : Path → Path) : Core := { c with paths := c.paths.ins k (f (c.paths.get Path.reset k)) }

def opAcc (s : State) (id lane : Nat) : Option (MemOp × LaneAcc) :=
  match s.ops.find id with
  | none => none
  | some o => match o.accs.find? (fun a => a.lane == lane && !a.done) with
    | some a => some (o, a)
    | none => none

/-- A read is served: a near access fills the L1 and is then made there, a wider load takes dirty bytes from the L1
and refreshes its clean copies (R224). -/
def State.serveRead (s : State) (core : Nat) (r : Req) : State :=
  match r.op with
  | none => s
  | some id =>
    match opAcc s id r.lane with
    | none => s
    | some (o, a) =>
      if s.msys.bad r.pa r.len then s.laneDone id r.lane none (some .eccUncorrectable) else
      let (bs, s) := s.homeRead r.key r.pa r.len
      if nearScope o.scope then
        let s := s.modCore core fun c => c.l1Fill r.key r.pa bs
        match o.atom with
        | some (op, args) => s.nearAtomic core id op args o.size a
        | none => s.laneDone id r.lane (some ((s.core core).l1Read a.pa a.key o.size)) none
      else
        let back := (s.core core).l1Over r.key r.pa bs
        (s.modCore core fun c => c.l1Refresh r.key r.pa bs).laneDone id r.lane (some back) none

/-- The slice counts the write it performed for its phase (R229). -/
def State.countReq (s : State) (core slice phase : Nat) : State :=
  s.modMsys fun m => { m with counts := m.counts.put 0 (countKey core phase slice) (m.counts.get 0 (countKey core phase slice) + 1) }

/-- A request is performed at its home slice. -/
def State.serveReq (s : State) (core slice : Nat) (r : Req) : State :=
  match r.kind with
  | .read => s.serveRead core r
  | .write bs =>
    let err := if s.msys.badWrite r.pa bs.length then some Cause.eccUncorrectable else none
    let s := (s.homeWrite r.key r.pa bs).countReq core slice r.phase
    match r.op with
    | none => s
    | some id => s.laneDone id r.lane none err
  | .atomic op b c _ =>
    if s.msys.bad r.pa r.len then
      (let s := s.countReq core slice r.phase
       r.op.elim s fun id => s.laneDone id r.lane none (some .eccUncorrectable)) else
    let (old, s) := s.homeRead r.key r.pa r.len
    let s := (s.homeWrite r.key r.pa (leBytes (atomNew op r.len (leNat old) b.toNat c.toNat) r.len)).countReq core slice r.phase
    let s := s.modCore core fun k => k.l1DropClean (sectorOf r.pa) r.key 32
    match r.op with
    | none => s
    | some id => s.laneDone id r.lane (some old) none

/-- NACK-REMAP: the slice does not own the bucket of a request (R314). -/
def State.refuseMap (s : State) (core slice : Nat) : State :=
  (s.modCore core fun c => c.modPath slice fun p => { p with st := .remapped }).soon (.nackRemapReceived core slice)

/-- The next request of a core's path reaches the slice: accepted by its request queue, refused by the full queue (R290), or answered
NACK-REMAP (R314). -/
def State.sliceArrive (s : State) (core slice : Nat) : State :=
  let p := (s.core core).paths.get Path.reset slice
  match p.st, p.window with
  | .flowing, r :: t =>
    if r.due > s.cc then s
    else if s.msys.sliceOf r.pa ≠ slice then s.refuseMap core slice
    else if p.queue.length ≥ 64 then
      let (lat, s) := s.freeLat
      (s.modCore core fun c => c.modPath slice fun p => { p with st := .nacked }).schedule (s.cc + lat) (.nackReceived core slice)
    else s.modCore core fun c => c.modPath slice fun p => { p with window := t, queue := p.queue ++ [r], nacks := 0 }
  | _, _ => s

/-- The slice serves the oldest request of the queue, if it owns its bucket still (R314). -/
def State.sliceServe (s : State) (core slice : Nat) : State :=
  let p := (s.core core).paths.get Path.reset slice
  match p.queue with
  | [] => s
  | r :: t =>
    if s.msys.sliceOf r.pa ≠ slice then (if p.st = .remapped then s else s.refuseMap core slice)
    else (s.modCore core fun c => c.modPath slice fun p => { p with queue := t }).serveReq core slice r

/-- A request reaches the slice, and unless it is busy the slice serves one. -/
def State.sliceRequest (s : State) (core slice : Nat) (busy : Bool) : State :=
  let s := s.sliceArrive core slice
  if busy then s else s.sliceServe core slice

/-- The count of a request moves from one slice to another (R314); `dst` none: it leaves the counts. -/
def Core.moveCount (c : Core) (phase src : Nat) (dst : Option Nat) : Core :=
  let sub (m : SMap Nat) (k : Nat) : SMap Nat := m.put 0 k (m.get 0 k - 1)
  let add (m : SMap Nat) (k : Nat) : SMap Nat := m.put 0 k (m.get 0 k + 1)
  if phase = c.phase then
    { c with sent := match dst with
        | some d => add (sub c.sent (phase * 128 + src)) (phase * 128 + d)
        | none => sub c.sent (phase * 128 + src) }
  else
    { c with closes := c.closes.map fun k =>
        if k.phase = phase then
          match dst with
          | some d =>
            -- a slice that has answered counts from zero again
            let a := if k.answered.contains d then k.announced.put 0 d 0 else k.announced
            { k with announced := add (sub a src) d, answered := k.answered.filter (· ≠ d) }
          | none => { k with announced := sub k.announced src }
        else k }

/-- A request is sent again, after a new latency. -/
def State.resendReq (s : State) (core slice : Nat) (r : Req) : State :=
  let (lat, s) := s.freeLat
  s.modCore core fun c => c.modPath slice fun p => { p with window := p.window ++ [{ r with due := s.cc + lat }] }

/-- R314: the requests of the path are hashed under the current map and sent again, their counts with them. -/
def State.remap (s : State) (core slice : Nat) : State :=
  let rs := ((s.core core).paths.get Path.reset slice).all
  let s := s.modCore core fun c => c.modPath slice fun _ => Path.reset
  rs.foldl (fun s r =>
    let d := s.msys.sliceOf r.pa
    let s := if r.kind.isWrite && d ≠ slice then s.modCore core fun c => c.moveCount r.phase slice (some d) else s
    s.resendReq core d r) s

/-- R290: the time for which the sender holds back after a refusal. -/
def State.backOff (s : State) (core slice : Nat) : State :=
  let c := s.core core
  let n := (c.paths.get Path.reset slice).nacks + 1
  let due := s.cc + c.backoff n
  (s.modCore core fun c => c.modPath slice fun p => { p with st := .backoff due, nacks := n }).schedule due (.replayResend core slice)

def State.resendPath (s : State) (core slice : Nat) : State :=
  let rs := ((s.core core).paths.get Path.reset slice).window
  let s := s.modCore core fun c => c.modPath slice fun p => { p with st := .flowing, window := [] }
  rs.foldl (fun s r => s.resendReq core slice r) s

-- Phase closes at the slices (R229)

/-- A close message has not yet overtaken a request that was sent before it (R311). -/
def Core.closeBlocked (c : Core) (slice : Nat) (k : Close) : Bool :=
  let p := c.paths.get Path.reset slice
  p.st == .flowing && p.all.any fun r => r.phase == k.phase

def markFirst (p : Close → Bool) (f : Close → Close) : List Close → List Close
  | [] => []
  | k :: t => if p k then f k :: t else k :: markFirst p f t

def closeReaches (c : Core) (slice : Nat) (k : Close) : Bool := !k.reached.contains slice && !c.closeBlocked slice k

def closeAnswers (s : State) (core slice : Nat) (k : Close) : Bool :=
  k.reached.contains slice && !k.answered.contains slice &&
  s.msys.counts.get 0 (countKey core k.phase slice) == SMap.get 0 k.announced slice

def State.closeArrive (s : State) (core slice : Nat) : State :=
  let c := s.core core
  s.modCore core fun c' => { c' with closes := markFirst (closeReaches c slice) (fun k => { k with reached := k.reached ++ [slice] }) c'.closes }

/-- The count of the phase matches: the slice zeroes it and answers; a close that every slice answered completes. -/
def State.closeAnswer (s : State) (core slice : Nat) : State :=
  match (s.core core).closes.find? (closeAnswers s core slice) with
  | none => s
  | some k =>
    let t := s.modCore core fun c =>
      { c with closes := markFirst (closeAnswers s core slice) (fun k => { k with answered := k.answered ++ [slice] }) c.closes }
    let t := t.modMsys fun m => { m with counts := m.counts.put 0 (countKey core k.phase slice) 0 }
    (((t.closeDone core).closeDone core).closeDone core).relAll

-- Data that return (R148, R151, R156)

/-- Data have returned: registers, acquire, evicted lines, the end of the operation. -/
def State.dataReturn (s : State) (core id : Nat) (lines : List Nat) : State :=
  match s.ops.find id with
  | none => s
  | some o =>
    if !o.ready then s else
    let s := s.modGroup o.gid o.writeD
    let s := if o.acq then s.acquireAt core o.scope else s
    (s.evict core lines).endOp id o

-- Scratchpad ports

/-- Perform a request at its port (R151, R238); a stale write is dropped and counted, a stale read gives zero. -/
def State.spPerform (s : State) (r : SpReq) : State :=
  match r.bytes with
  | some bs => ((s.spIncoming r.dst r.off bs r.alloc r.gen r.tag r.issued r.arrNs).1).laneDone r.op r.lane none none
  | none =>
    if s.spStale r then s.laneDone r.op r.lane (some (List.replicate r.len 0)) none
    else s.laneDone r.op r.lane (some ((s.spad r.dst).read r.off r.len)) none

/-- Take the first element that satisfies `p`. -/
def takeFirst {α : Type} (p : α → Bool) : List α → Option (α × List α)
  | [] => none
  | a :: t => if p a then some (a, t) else (takeFirst p t).map fun q => (q.1, a :: q.2)

/-- The next request from outside reaches a port: a full/empty request queues at its granule (R153). -/
def State.spArrive (s : State) (core : Nat) : State :=
  match takeFirst (fun r : SpReq => r.dst == core) s.spIn with
  | none => s
  | some (r, t) =>
    let s := { s with spIn := t }
    if r.fe.isSome || s.spBehind r.src core then s.queueFe r else s.spPerform { r with arrNs := s.clock.ns }

/-- Serve one request: wait, access and bit in one step (R152). -/
def State.feServe1 (s : State) (r : SpReq) : State :=
  let s := { s with feq := s.feq.erase r }
  let gone := s.spStale r
  let s := s.spPerform r
  match r.fe with
  | some (_, after) => if gone then s else s.modSpad r.dst fun p => p.setFull r.off after
  | none => s

/-- The service of a port in one cycle: the granules that have had their turn, and the cores whose later requests stand behind one that has
still to have its own (R227). -/
structure FeTurn where
  s : State
  used : List Nat
  behind : List Nat

/-- The turn of one request: from the cycle after its arrival, when all that came with it stand in their order. One whose granule is not as it
waits for stays while later ones are served. -/
def FeTurn.next (a : FeTurn) (core : Nat) (r : SpReq) : FeTurn :=
  if r.dst != core || a.behind.contains r.src then a
  else if r.arr == a.s.cc then { a with behind := r.src :: a.behind }
  else if !a.s.feReady r then a
  else if r.fe.isSome && a.used.contains (r.off / 16) then { a with behind := r.src :: a.behind }
  else { a with s := a.s.feServe1 r, used := if r.fe.isSome then r.off / 16 :: a.used else a.used }

/-- The requests at a port are served in their order, once in a cycle for a granule (R153, R227). -/
def State.feServe (s : State) (core : Nat) : State := (s.feq.foldl (fun a r => a.next core r) { s := s, used := [], behind := [] : FeTurn }).s

-- In flight (R305)

/-- The time in ns at which a lane's access was sent, while it is in flight; a Peer access is so from when its link takes it (R322). -/
def State.sentAt (s : State) (id : Nat) (o : MemOp) (a : LaneAcc) : Option Nat :=
  if a.done || o.held.isSome || a.typ ≥ 4 then none
  else if a.typ = 1 then ((s.link (a.pa / 2 ^ 44)).out.find? fun r => r.op == id && r.lane == a.lane && !r.late).map (·.sent)
  else some o.sent

/-- An access has been in flight for 64 µs. -/
def State.accLate (s : State) (id : Nat) (o : MemOp) (a : LaneAcc) : Bool := (s.sentAt id o a).any fun t => decide (t + 64000 ≤ s.clock.ns)

/-- Accesses not performed within 64 µs of being sent are discarded with BUS_ERROR; a link still awaits the answers of its own. -/
def State.timeoutOp (s : State) (core id : Nat) : State :=
  match s.ops.find id with
  | none => s
  | some o =>
    let late := (o.accs.filter (s.accLate id o)).map (·.lane)
    if late.isEmpty then s else
    let gone (r : Req) : Bool := r.op == some id && late.contains r.lane
    let s := (s.core core).paths.foldl (fun s p =>
      p.2.all.foldl (fun s r => if gone r && r.kind.isWrite then s.modCore core fun c => c.moveCount r.phase p.1 none else s) s) s
    let s := s.modCore core fun c =>
      { c with paths := c.paths.map fun p => (p.1, { p.2 with window := p.2.window.filter fun r => !gone r, queue := p.2.queue.filter fun r => !gone r })
               dev := c.dev.filter fun d => !(d.op == id && late.contains d.lane) }
    let s := { s with links := s.links.map fun p => (p.1, { p.2 with out := p.2.out.map fun r => if r.op == id && late.contains r.lane then { r with late := true } else r }) }
    late.foldl (fun s l => s.laneDone id l none (some .busError)) s

end Sys2Proof.Machine
end

