-- ==== Sys2Proof/Machine/Mem.lean ====
section
/-! DEFINITION. Memory instructions (R150 to R157) and the events of the memory system. -/

namespace Sys2Proof.Machine

/-- The register value of a data operand of `n` bytes. -/
def Group.data (g : Group) (n lane : Nat) (r : Option Reg) : Quad :=
  match r with
  | none => 0
  | some r => if n = 16 then g.rd128 lane r else if n = 8 then (g.rd64 lane r).zeroExtend 128 else (g.rd32 lane r).zeroExtend 128

def isAcq : Order → Bool
  | .acq | .ar => true
  | _ => false

def isRel : Order → Bool
  | .rel | .ar => true
  | _ => false

/-- The operation of a MEM instruction. -/
def X.memOp (x : X) (m : MemArg) (kind : OpKind) (ctr : Nat) (accs : List LaneAcc) : MemOp :=
  { gid := x.gid, pc := x.pc, kind := kind, size := m.size.bytes, sx := m.sx, nf := m.nf, scope := m.scope, acq := isAcq m.order, u := x.u,
    lanes := x.maskAll (accs.map (·.lane)), d := m.d, accs := accs, inTrap := x.g.sys.intrap, ctr := ctr, atom := none, fe := none,
    held := none, sent := 0, sentCc := 0, due := 0, ready := false }

/-- The bytes that the lanes of a store carry. -/
def X.withData (x : X) (m : MemArg) (accs : List LaneAcc) : List LaneAcc :=
  accs.map fun a => { a with data := leBytes (x.g.data m.size.bytes a.lane m.b).toNat m.size.bytes }

def relOf (m : MemArg) : Option Scope := if isRel m.order then some m.scope else none

/-- The register codes that D stands for. -/
def memCodes (m : MemArg) : List Nat := (useOpt m.d m.size.regs).flatMap RegUse.codes

/-- The operand values of a lane (R32): address, B and the new operand of `atom.cas`. -/
def X.memVals (x : X) (m : MemArg) (c : Option Reg) (addr lane : Nat) : List Dword :=
  let b := x.g.data m.size.bytes lane m.b
  [BitVec.ofNat 64 addr, b.truncate 64, (b >>> 64).truncate 64, (x.g.data m.size.bytes lane c).truncate 64]

/-- A path whose replay window has taken more than its 32 entries since `c`: what is beyond them is still with the run that issued last (R290). -/
def Core.overrun (now c : Core) : Option Nat :=
  (now.paths.find? fun p => p.1 < 128 && decide (p.2.window.length > max windowSize (c.paths.get Path.reset p.1).window.length)).map (·.1)

/-- The same of the core's replay windows for slices and for links (R320). -/
def State.overrun (now s : State) (core : Nat) : Option Nat :=
  match (now.core core).overrun (s.core core) with
  | some k => some k
  | none => (now.links.find? fun p => decide ((p.2.window core).length > max windowSize ((s.link p.1).window core).length)).map fun p => linkKey p.1

/-- Lanes go on once their requests have their places in the replay windows; the run waits until then (R290). -/
def X.afterWindow (x : X) (i : Instr) (before : State) (m : Lanes) : State :=
  match x.s.overrun before x.core with
  | some k => x.s.setGroup x.gid (x.g.hold m x.pc (.waiting (Wait.of (.window k) (some i) x.lanes)))
  | none => x.advance m

/-- The run waits for places of its requests in the replay windows. -/
def X.onWindow (x : X) : Bool := x.resume.any fun w => match w.why with
  | .window _ => true
  | _ => false

/-- Some request of the instruction at `pc` of the group's lanes still stands behind the places of its window. -/
def State.beyond (s : State) (core gid : Nat) (pc : Pc) (lanes : Lanes) : Bool :=
  let mine (id : Nat) : Bool := (s.ops.find id).any fun o => o.gid == gid && o.pc == pc && o.lanes &&& lanes != 0
  (s.core core).paths.any (fun p => p.1 < 128 && (p.2.window.drop windowSize).any fun r => r.op.any mine) ||
    s.links.any fun p => ((p.2.window core).drop windowSize).any fun r => mine r.op

/-- A run whose requests had no places goes on when they have. -/
def X.windowEnd (x : X) : State := if x.s.beyond x.core x.gid x.pc x.lanes then x.s else x.done

/-- A MEM instruction on global addresses (R145, R147). -/
def X.global (x : X) (i : Instr) (m : MemArg) (c : Option Reg) (acc : Access) (rule : TypeRule) (perform : X → List LaneAcc → X) : State :=
  if x.onWindow then x.windowEnd else x.unlessEmpty fun x =>
    let x := x.uniformU fun l => x.memVals m c (m.gaddr x.g l) l
    let n := m.size.bytes
    let (x, cs) := X.checkEach (fun x l => x.checkGlobal acc rule n n l (m.gaddr x.g l)) x x.acting
    x.memOutcome m.nf acc cs perform fun y => y.afterWindow i x.s

/-- A MEM instruction on scratchpad addresses (R146, R147). -/
def X.scratch (x : X) (m : MemArg) (rd wr : Bool) (perform : X → List LaneAcc → X) (fin : X → Lanes → State) : State :=
  x.unlessEmpty fun x =>
    let x := x.uniformU fun l => x.memVals m none (m.saddr x.g l) l
    let n := m.size.bytes
    let cs := x.acting.map fun l => x.checkSp rd wr n n l (m.saddr x.g l)
    x.memOutcome m.nf (if wr then .write else .read) cs perform fin

/-- R150, R151. -/
def execLd (h : Hdr) (m : MemArg) (s : State) : Host.Outcome State Fault Refusal :=
  s.withIssue (.ld h m) h fun x => x.global (.ld h m) m none .read (.plain m.size.bytes) fun x accs => (x.launchOp (x.memOp m .load 0 accs) (memCodes m) none).1

def execSt (h : Hdr) (m : MemArg) (s : State) : Host.Outcome State Fault Refusal :=
  s.withIssue (.st h m) h fun x => x.global (.st h m) m none .write (.plain m.size.bytes) fun x accs =>
    (x.launchOp (x.memOp m .store 1 (x.withData m accs)) [] (relOf m)).1

def execLds (h : Hdr) (m : MemArg) (s : State) : Host.Outcome State Fault Refusal :=
  s.withIssue (.lds h m) h fun x => x.scratch m true false (fun x accs => (x.launchOp (x.memOp m .load 0 accs) (memCodes m) none).1) X.advance

def execSts (h : Hdr) (m : MemArg) (s : State) : Host.Outcome State Fault Refusal :=
  s.withIssue (.sts h m) h fun x =>
    x.scratch m false true (fun x accs => (x.launchOp (x.memOp m .store 1 (x.withData m accs)) [] (relOf m)).1) X.advance

-- Full/empty accesses (R152, R153)

/-- The run waits until every lane has completed. -/
def X.feWait (x : X) (i : Instr) (m : Lanes) : State :=
  let ids := x.s.ops.filterMap fun p => if p.2.gid = x.gid && p.2.fe.isSome && p.2.pc == x.pc && p.2.lanes &&& m != 0 then some p.1 else none
  if ids.isEmpty then x.advance m
  else x.s.setGroup x.gid (x.g.hold m x.pc (.waiting { Wait.of .ops (some i) x.lanes with ops := ids }))

/-- A run that waits goes on when its operations have ended. -/
def X.afterOps (x : X) (first : State) : State :=
  match x.resume with
  | none => first
  | some w => if w.ops.any fun id => (x.s.ops.find id).isSome then x.s else x.done

def X.ldfe (x : X) (i : Instr) (m : MemArg) (after : Bool) : State :=
  x.afterOps <| x.scratch m true false (fun x accs =>
    (x.launchOp { x.memOp m .load 0 accs with scope := .cl, acq := true, fe := some (some true, after) } (memCodes m) none).1) fun x l => x.feWait i l

def X.stfe (x : X) (i : Instr) (m : MemArg) (want : Option Bool) : State :=
  x.afterOps <| x.scratch m false true (fun x accs =>
    (x.launchOp { x.memOp m .store 1 (x.withData m accs) with scope := .cl, fe := some (want, true) } [] (some .cl)).1) fun x l => x.feWait i l

def execLdfeKeep (h : Hdr) (m : MemArg) (s : State) : Host.Outcome State Fault Refusal :=
  s.withIssue (.ldfeKeep h m) h fun x => x.ldfe (.ldfeKeep h m) m true

def execLdfeClear (h : Hdr) (m : MemArg) (s : State) : Host.Outcome State Fault Refusal :=
  s.withIssue (.ldfeClear h m) h fun x => x.ldfe (.ldfeClear h m) m false

def execStfeKeep (h : Hdr) (m : MemArg) (s : State) : Host.Outcome State Fault Refusal :=
  s.withIssue (.stfeKeep h m) h fun x => x.stfe (.stfeKeep h m) m none

def execStfeClear (h : Hdr) (m : MemArg) (s : State) : Host.Outcome State Fault Refusal :=
  s.withIssue (.stfeClear h m) h fun x => x.stfe (.stfeClear h m) m (some false)

-- Prefetch and fences

/-- A line for READ_AHEAD: physical line and key id. -/
def lineNo (pa key : Nat) : Nat := pa / 256 + key * 2 ^ 44

/-- One lane of `pref` (R154). -/
def X.prefetch (x : X) (l2 : Bool) (va : Nat) : X :=
  match x.s.xlate x.core (x.s.gspace x.g) .read normalOnly va with
  | (s, .error _) => { x with s := s }
  | (s, .ok t) =>
    let x := { x with s := s }
    if t.pa ≥ hbmSize then x
    else if l2 then x.modS fun s => s.modMsys fun m => m.touch t.key t.pa
    else x.modS fun s => let (lat, s) := s.freeLat; s.schedule (s.cc + lat) (.readAhead x.core (lineNo t.pa t.key))

def execPref (h : Hdr) (m : MemArg) (s : State) : Host.Outcome State Fault Refusal :=
  s.withIssue (.pref h m) h fun x => x.unlessEmpty fun x =>
    let x := x.uniformU fun l => [BitVec.ofNat 64 (m.gaddr x.g l)]
    (x.acting.foldl (fun x l => x.prefetch (m.scope == .cl) (m.gaddr x.g l)) x).done

/-- Loads and returning atomics outstanding in lanes of a group (R155). -/
def State.loadsOf (s : State) (gid : Nat) (m : Lanes) : List Nat :=
  s.ops.filterMap fun p => if p.2.gid = gid && p.2.lanes &&& m != 0 && (p.2.kind == .load || p.2.kind == .atomRet) then some p.1 else none

/-- Copies of a group that are outstanding (R155). -/
def State.copiesOf (s : State) (gid : Nat) : List Nat :=
  s.ops.filterMap fun p => if p.2.gid = gid && p.2.accs.any (fun a => a.typ == 9) then some p.1 else none

/-- R155: the acquire part of a fence is made when what it waits for has come about. -/
def State.fenceDone (s : State) (core : Nat) (scope : Scope) (order : Order) : State := if isAcq order then s.acquireAt core scope else s

/-- A release part begins; the number of the release, unless it is complete at once. -/
def X.release (x : X) (scope : Scope) : X × Option Nat :=
  let (r, s) := x.flush.beginRel x.gid x.core scope none
  let s := s.relStep r
  ({ x with s := s, g := (s.group? x.gid).getD x.g }, if (s.rels.find r).isSome then some r else none)

/-- What a wait on a release and on operations awaits is over. -/
def Wait.over_ (w : Wait) (s : State) : Bool :=
  (match w.rel with
    | some r => (s.rels.find r).isNone
    | none => true) && w.ops.all fun id => (s.ops.find id).isNone

def execFence (h : Hdr) (scope : Scope) (order : Order) (s : State) : Host.Outcome State Fault Refusal :=
  s.withIssue (.fence h scope order) h fun x => x.unlessEmpty fun x =>
    let (x, w) := match x.resume with
      | some w => (x, w)
      | none =>
        let ops := if isAcq order then x.s.loadsOf x.gid x.lanes else []
        let ops := if isRel order then ops ++ x.s.copiesOf x.gid else ops
        let (x, r) := if isRel order then x.release scope else (x, none)
        (x, { Wait.of .release (some (.fence h scope order)) x.lanes with ops := ops, rel := r })
    if w.over_ x.s then (x.modS fun s => s.fenceDone x.core scope order).done else x.wait w

-- Atomics (R156, R157)

def X.atom (x : X) (i : Instr) (op : AtomOp) (m : MemArg) : State :=
  let c := if op == .cas then m.b.bind (Reg.following m.size.regs) else none
  x.global i m c .atomic (.atomic (m.scope == .sys)) fun x accs =>
    let args := accs.map fun a => (a.lane, (x.g.data m.size.bytes a.lane m.b).truncate 64, (x.g.data m.size.bytes a.lane c).truncate 64)
    let o := x.memOp m (if m.sx then .atomRet else .atomNoRet) (if m.sx then 0 else 1) accs
    (x.launchOp { o with sx := false, atom := some (op, args) } (memCodes m) (relOf m)).1

def execAtomAdd (h : Hdr) (m : MemArg) (s : State) : Host.Outcome State Fault Refusal :=
  s.withIssue (.atomAdd h m) h fun x => x.atom (.atomAdd h m) .add m

def execAtomMin (h : Hdr) (m : MemArg) (s : State) : Host.Outcome State Fault Refusal :=
  s.withIssue (.atomMin h m) h fun x => x.atom (.atomMin h m) .min m

def execAtomMax (h : Hdr) (m : MemArg) (s : State) : Host.Outcome State Fault Refusal :=
  s.withIssue (.atomMax h m) h fun x => x.atom (.atomMax h m) .max m

def execAtomAnd (h : Hdr) (m : MemArg) (s : State) : Host.Outcome State Fault Refusal :=
  s.withIssue (.atomAnd h m) h fun x => x.atom (.atomAnd h m) .and m

def execAtomOr (h : Hdr) (m : MemArg) (s : State) : Host.Outcome State Fault Refusal :=
  s.withIssue (.atomOr h m) h fun x => x.atom (.atomOr h m) .or m

def execAtomXor (h : Hdr) (m : MemArg) (s : State) : Host.Outcome State Fault Refusal :=
  s.withIssue (.atomXor h m) h fun x => x.atom (.atomXor h m) .xor m

def execAtomExch (h : Hdr) (m : MemArg) (s : State) : Host.Outcome State Fault Refusal :=
  s.withIssue (.atomExch h m) h fun x => x.atom (.atomExch h m) .exch m

def execAtomCas (h : Hdr) (m : MemArg) (s : State) : Host.Outcome State Fault Refusal :=
  s.withIssue (.atomCas h m) h fun x => x.atom (.atomCas h m) .cas m

-- Events

/-- R22, R100: a result of a pipeline is written; the runs stalled on it become READY. -/
def execRegisterResultWrite (gid id : Nat) (s : State) : Host.Outcome State Fault Refusal := .next (s.modGroup gid fun g => g.unmark id)

/-- R153. -/
def execFullEmptyServe (core : Nat) (s : State) : Host.Outcome State Fault Refusal := .next (s.feServe core)

/-- R225, R290, R314. -/
def execL2SliceRequest (core slice : Nat) (busy : Bool) (s : State) : Host.Outcome State Fault Refusal := .next (s.sliceRequest core slice busy)

/-- R76, R148, R228; `evict`: the lines the L1 gives up for the sectors that came in. -/
def execLoadDataReturn (core op : Nat) (evict : List Nat) (s : State) : Host.Outcome State Fault Refusal := .next (s.dataReturn core op evict)

/-- R290. -/
def execNackReceived (core slice : Nat) (s : State) : Host.Outcome State Fault Refusal :=
  .next (if ((s.core core).paths.get Path.reset slice).st == .nacked then s.backOff core slice else s)

/-- R314. -/
def execNackRemapReceived (core slice : Nat) (s : State) : Host.Outcome State Fault Refusal :=
  .next (if ((s.core core).paths.get Path.reset slice).st == .remapped then s.remap core slice else s)

/-- R229. -/
def execPhaseCloseMessage (core slice : Nat) (s : State) : Host.Outcome State Fault Refusal := .next (s.closeArrive core slice)

def execPhaseCloseAnswer (core slice : Nat) (s : State) : Host.Outcome State Fault Refusal := .next (s.closeAnswer core slice)

/-- R222: a line is read ahead into an L1: clean bytes only. -/
def execReadAhead (core line : Nat) (s : State) : Host.Outcome State Fault Refusal :=
  let pa := line % 2 ^ 44 * 256
  let key := line / 2 ^ 44
  .next <|
    if pa ≥ hbmSize || s.msys.bad pa 256 then s else
    let (bs, s) := s.homeRead key pa 256
    s.modCore core fun c => c.l1Fill key pa bs

/-- R227, R238. -/
def execScratchpadIncomingWrite (core : Nat) (s : State) : Host.Outcome State Fault Refusal := .next (s.spArrive core)

/-- R304, R305: a walk fills the TLBs and sets A or D where its access passes every check. -/
def execPageWalkComplete (core va : Nat) (acc : Access) (user : Bool) (s : State) : Host.Outcome State Fault Refusal :=
  .next (if va < 2 ^ 48 then (s.walkXlate core ((s.core core).space user) acc anyType va).1 else s)

/-- An access has been under way since `t` for 64 µs. -/
def underLong (now : Nat) (since : Option Nat) : Bool := since.any fun t => decide (t + 64000 ≤ now)

/-- A copy with an access that is too late completes with 0x06 (R162, R305). -/
def CopyRec.giveUp (r : CopyRec) (id : Nat) (s : State) : CopyRec :=
  if r.id == id && underLong s.clock.ns r.since then { r with status := some 6, due := s.cc, since := none } else r

/-- A command with an access that is too late records BUS_ERROR instead of its effect (R176, R305). -/
def MxEntry.giveUp (e : MxEntry) (id : Nat) (s : State) : MxEntry :=
  if e.id == id && underLong s.clock.ns e.since then { e with read := true, err := some .busError, due := s.cc, since := none } else e

/-- An engine's access has not been performed within 64 µs of being sent. -/
def State.timeoutEngine (s : State) (core id : Nat) : State :=
  s.modCluster (clusterOf core) fun c =>
    { c with bte := { c.bte with chans := c.bte.chans.map fun p => (p.1, p.2.map fun r => r.giveUp id s) }
             mxe := { c.mxe with table := c.mxe.table.map fun e => e.giveUp id s } }

/-- R305. -/
def execInFlightTimeout (core op : Nat) (s : State) : Host.Outcome State Fault Refusal :=
  .next (match s.ops.find op with
    | some _ => s.timeoutOp core op
    | none => s.timeoutEngine core op)

end Sys2Proof.Machine
end

