-- ==== Sys2Proof/Machine/Tensor.lean ====
section
/-! DEFINITION. Tensor identifiers and templates (R246 to R255): records, their checks, where an element lies, and
elements read and written by engines (R236, R250, R252). -/

namespace Sys2Proof.Machine

/-- A little-endian field of a record. -/
def recNat (bs : List Byte) (off n : Nat) : Nat := leNat ((bs.drop off).take n)

def bitsOf (x lo w : Nat) : Nat := x / 2 ^ lo % 2 ^ w

-- Physical structures and contexts (R292, R353, R354)

/-- Bytes of a structure in HBM, under key slot 0. -/
def State.physBytes (s : State) (pa n : Nat) : List Byte := if pa + n ≤ hbmSize then s.msys.bytes 0 pa n else List.replicate n 0

/-- A structure in HBM is read at its home slice, under key slot 0 (R225, R354). -/
def State.claimPhys (s : State) (pa n : Nat) : State := if pa + n ≤ hbmSize then s.modMsys fun m => m.claims 0 pa n else s

/-- An entry of the context table (R292). -/
structure CtxEntry where
  valid : Bool
  run : Bool
  next : Nat
  slice : Nat
  plim : Nat
  asid : Nat
  keyid : Nat
  save : Nat
  engsave : Nat
  tmpl : Nat
  dict : Nat
  deriving DecidableEq, Repr

def ctxEntryOf (bs : List Byte) : CtxEntry :=
  let w := recNat bs 0 4
  { valid := decide (w ≥ 2 ^ 31), run := bitsOf w 30 1 == 1, next := w % 64, slice := recNat bs 4 2, plim := recNat bs 8 4, asid := recNat bs 12 2 % 4096,
    keyid := recNat bs 14 1, save := recNat bs 16 8, engsave := recNat bs 24 8, tmpl := recNat bs 32 8, dict := recNat bs 40 8 }

def State.ctxEntry (s : State) (i : Nat) : CtxEntry := ctxEntryOf (s.physBytes (s.ctxbase.toNat + 64 * i) 64)

/-- The space in which a controller acts for a context, resident or not: PTROOT of its save image, ASID and key id of its entry (R353). -/
def State.ctxSpace (s : State) (ctx : Nat) : Space :=
  let e := s.ctxEntry ctx
  { root := leNat (s.physBytes e.save 8) / 4096 * 4096 % 2 ^ 52, asid := e.asid, key := e.keyid, user := true }

/-- What a controller reads of a context before it acts for it, at the home slices (R225). -/
def State.claimCtx (s : State) (ctx : Nat) : State := (s.claimPhys (s.ctxbase.toNat + 64 * ctx) 64).claimPhys (s.ctxEntry ctx).save 8

/-- A tensor record (R246). -/
structure Ten where
  base : Nat
  scaleBase : Nat
  dims : List Nat
  strs : List Nat
  sstr : Nat
  fill : Nat
  ctrl : Nat
  deriving DecidableEq, Repr

def tenOf (bs : List Byte) : Ten :=
  { base := recNat bs 0 8, scaleBase := recNat bs 8 8, dims := (List.range 5).map fun i => recNat bs (16 + 4 * i) 4,
    strs := (List.range 4).map fun i => recNat bs (40 + 8 * i) 8, sstr := recNat bs 72 8, fill := recNat bs 80 8, ctrl := recNat bs 88 4 }

def Ten.valid (t : Ten) : Bool := bitsOf t.ctrl 31 1 == 1
def Ten.sp (t : Ten) : Bool := bitsOf t.ctrl 30 1 == 1
def Ten.member (t : Ten) : Nat := bitsOf t.ctrl 28 2
def Ten.fmt (t : Ten) : Nat := bitsOf t.ctrl 24 4
def Ten.scl (t : Ten) : Bool := bitsOf t.ctrl 23 1 == 1
def Ten.swz (t : Ten) : Nat := bitsOf t.ctrl 20 3
def Ten.ndim (t : Ten) : Nat := bitsOf t.ctrl 17 3
def Ten.order (t : Ten) : Bool := bitsOf t.ctrl 16 1 == 1
def Ten.dim (t : Ten) (d : Nat) : Nat := t.dims.getD d 1
/-- STR_d, for d from 1. -/
def Ten.str (t : Ten) (d : Nat) : Nat := t.strs.getD (d - 1) 0

/-- Bits of an element of a FORMAT code (R247). -/
def fmtBits : Nat → Nat
  | 0 | 8 => 8
  | 1 | 6 | 7 | 9 => 16
  | 2 => 2
  | 3 => 4
  | 4 | 5 => 32
  | 10 => 10
  | 11 => 12
  | _ => 14

def Ten.bits (t : Ten) : Nat := fmtBits t.fmt

/-- The field rules of R249. -/
def tenChecks (bs : List Byte) : Bool :=
  let t := tenOf bs
  recNat bs 36 4 == 0 && (bs.drop 92).all (· == 0) && bitsOf t.ctrl 0 16 == 0 &&
  decide (t.fmt ≤ 12) && decide (t.swz ≤ 5) &&
  decide (1 ≤ t.ndim) && decide (t.ndim ≤ 5) &&
  ((List.range 5).all fun d => decide (1 ≤ t.dim d) && (decide (d < t.ndim) || t.dim d == 1)) &&
  (if t.sp then decide (t.base < 2 ^ 32) && t.base % 16 == 0 else decide (t.base < 2 ^ 48)) &&
  (t.strs.all fun x => x % 4 == 0 && (!t.sp || decide (x < 2 ^ 19))) &&
  (!t.scl || (decide (t.fmt ≤ 3) && decide (t.ndim ≤ 2))) &&
  decide (t.fill < 2 ^ t.bits) && !(t.fmt == 2 && t.fill == 2) &&
  (t.scl || (t.scaleBase == 0 && t.sstr == 0)) && (t.sp || t.member == 0)

/-- The record that `tset` stores; a record with VALID = 0 is the all-zero record (R168, R249). -/
def tenStored (bs : List Byte) : List Byte := if (tenOf bs).valid then bs else List.replicate 128 0

-- Elements

def Ten.inside (t : Ten) (e : List Nat) : Bool := (List.range 5).all fun d => decide (e.getD d 0 < t.dim d)

/-- The bit at which an element begins, counted from BASE (R247). -/
def Ten.bitOff (t : Ten) (e : List Nat) : Nat :=
  8 * ((List.range 4).foldl (fun a d => a + e.getD (d + 1) 0 * t.str (d + 1)) 0) + e.getD 0 0 * t.bits

/-- R252: the physical offset of a byte of a swizzled tile of pitch `w`. DESIGN CHOICE (log 92): the formula holds also where the stride of an MXE
operand or drain is no multiple of 16 * 2^SWZ; no error is recorded. -/
def swizzle (s w o : Nat) : Nat :=
  if s = 0 then o else
  let line := o / w
  line * w + 16 * ((o % w / 16) ^^^ (line % 2 ^ s)) + o % 16

/-- The byte of a tensor's space at a logical offset from BASE. DESIGN CHOICE (log 92): the SWZ of a global tensor does not move its bytes. -/
def Ten.at_ (t : Ten) (o : Nat) : Nat := if t.sp then t.base + swizzle t.swz (t.str 1) o else (t.base + o) % 2 ^ 64

/-- The bytes of an element with the bits of it that each holds: offset, mask, shift down of the element's value. -/
def bitBytes (bit width : Nat) : List (Nat × Nat × Nat) :=
  (List.range ((bit % 8 + width + 7) / 8)).map fun i =>
    let lo := max (bit % 8) (8 * i) - 8 * i
    let hi := min (bit % 8 + width) (8 * i + 8) - 8 * i
    (bit / 8 + i, lo, hi - lo)

def allSteps {σ α β ε : Type} (f : σ → α → σ × Except ε β) : σ → List α → σ × Except ε (List β)
  | s, [] => (s, .ok [])
  | s, a :: t =>
    match f s a with
    | (s, .error e) => (s, .error e)
    | (s, .ok b) => match allSteps f s t with
      | (s, .error e) => (s, .error e)
      | (s, .ok bs) => (s, .ok (b :: bs))

/-- What an engine's access needs beside the record: the core it translates for, the space, and the allocation of a
scratchpad tensor as captured. -/
structure EngAcc where
  core : Nat
  sp : Space
  tgt : Option CopyEnd
  deriving DecidableEq, Repr

abbrev EngErr := XErr × Nat

/-- The captured allocation, while it still stands. -/
def State.liveAlloc (s : State) (e : Option CopyEnd) : Except XErr Alloc :=
  match e with
  | none => .error (errOf .permission)
  | some c =>
    match c.code with
    | some 2 => .error (errOf .permission)
    | some _ => .error (errOf .peerGone)
    | none => match s.allocs.find c.alloc with
      | none => .error (errOf .peerGone)
      | some a => if a.released.isSome || a.gen ≠ c.gen then .error (errOf .peerGone) else .ok a

/-- One byte of a tensor's space, read by an engine (R236). -/
def State.engByte (s : State) (a : EngAcc) (sp : Bool) (addr : Nat) : State × Except EngErr Byte :=
  if sp then
    match s.liveAlloc a.tgt with
    | .error e => (s, .error (e, addr))
    | .ok al => if addr < al.size then (s, .ok ((s.spad al.core).byte (al.base + addr))) else (s, .error (errOf .permission, addr))
  else s.vbyte a.core a.sp addr

/-- An element, out of bounds its FILL (R250). -/
def State.engElem (s : State) (a : EngAcc) (t : Ten) (e : List Nat) : State × Except EngErr Nat :=
  if !t.inside e then (s, .ok t.fill) else
  let bit := t.bitOff e
  match allSteps (fun s o => s.engByte a t.sp (t.at_ o)) s ((bitBytes bit t.bits).map (·.1)) with
  | (s, .error er) => (s, .error er)
  | (s, .ok bs) => (s, .ok (leNat bs / 2 ^ (bit % 8) % 2 ^ t.bits))

/-- A write of some bits of a byte: address, low bit, width, value. -/
structure BitWrite where
  addr : Nat
  lo : Nat
  width : Nat
  val : Nat
  deriving DecidableEq, Repr

def BitWrite.apply (w : BitWrite) (b : Byte) : Byte :=
  let n := b.toNat
  BitVec.ofNat 8 (n % 2 ^ w.lo + w.val % 2 ^ w.width * 2 ^ w.lo + n / 2 ^ (w.lo + w.width) * 2 ^ (w.lo + w.width))

/-- The writes that place an in-bounds element; nothing is written out of bounds (R250). -/
def Ten.writes (t : Ten) (e : List Nat) (v : Nat) : List BitWrite :=
  if !t.inside e then [] else
  let bit := t.bitOff e
  (bitBytes bit t.bits).map fun p =>
    { addr := t.at_ p.1, lo := p.2.1, width := p.2.2, val := v / 2 ^ (8 * p.1 + p.2.1 - bit) }

/-- The last sample of a row of a P format: the writes that set the padding up to the end of its 32-bit word to 0 (R51). -/
def Ten.padWrites (t : Ten) (e : List Nat) : List BitWrite :=
  if t.fmt < 10 || !t.inside e || e.getD 0 0 + 1 ≠ t.dim 0 then [] else
  (bitBytes (t.bitOff e + t.bits) ((32 - t.dim 0 * t.bits % 32) % 32)).map fun p => { addr := t.at_ p.1, lo := p.2.1, width := p.2.2, val := 0 }

/-- A write's translation: the place it goes to, with nothing written yet. -/
def State.engTarget (s : State) (a : EngAcc) (sp : Bool) (w : BitWrite) : State × Except EngErr (Nat × Nat × BitWrite) :=
  if sp then
    match s.liveAlloc a.tgt with
    | .error e => (s, .error (e, w.addr))
    | .ok al => if w.addr < al.size then (s, .ok (al.core, al.base + w.addr, w)) else (s, .error (errOf .permission, w.addr))
  else
    match s.xlate a.core a.sp .write normalOnly w.addr with
    | (s, .error e) => (s, .error (e, w.addr))
    | (s, .ok x) => if x.pa < hbmSize then (s, .ok (x.key, x.pa, w)) else (s, .error (errOf .busError, w.addr))

/-- Perform a write whose place is known: at the port with its swizzle tag, or at the home slice, where clean bytes of the
issuing core's L1 are invalidated first (R236, R239). -/
def State.engPut (s : State) (core : Nat) (sp : Bool) (tag : Nat) (t : Nat × Nat × BitWrite) : State :=
  if sp then s.modSpad t.1 fun p => p.write tag t.2.1 [t.2.2.apply (p.byte t.2.1)]
  else (s.homeWrite t.1 t.2.1 [t.2.2.apply (s.msys.byte t.1 t.2.1)]).modCore core fun c => c.l1DropClean (sectorOf t.2.1) t.1 32

/-- Writes that cover whole sectors put good data there; another write to a sector with an uncorrectable error fails (R148, R162, R176). -/
def State.engMend (s : State) (pas : List Nat) : State × Bool :=
  let bad := s.msys.ecc.filter fun k => pas.any fun pa => pa / 32 == k
  if bad.all fun k => (List.range 32).all fun i => pas.contains (32 * k + i) then
    (s.modMsys fun m => { m with ecc := m.ecc.filter fun k => !bad.contains k }, true)
  else (s, false)

/-- Make writes to a tensor: every one translates before any is made. -/
def State.engWrite (s : State) (a : EngAcc) (t : Ten) (ws : List BitWrite) : State × Except EngErr Unit :=
  match allSteps (fun s w => s.engTarget a t.sp w) s ws with
  | (s, .error e) => (s, .error e)
  | (s, .ok ts) =>
    match s.engMend (if t.sp then [] else ts.map (·.2.1)) with
    | (s, false) => (s, .error (errOf .eccUncorrectable, t.base))
    | (s, true) => (ts.foldl (fun s p => s.engPut a.core t.sp t.swz p) s, .ok ())

-- The identifiers of a cluster (R167)

def tenKey (ctx cluster n : Nat) : Nat := (ctx * 96 + cluster) * 256 + n

def State.tenRec (s : State) (ctx cluster n : Nat) : List Byte := s.tensors.get (List.replicate 128 0) (tenKey ctx cluster n)

def State.setTen (s : State) (ctx cluster n : Nat) (bs : List Byte) : State :=
  { s with tensors := s.tensors.put (List.replicate 128 0) (tenKey ctx cluster n) bs }

/-- The allocation of a team member as captured by a command; a code: 2 for a member not below the team size, 7 for one
that has ended (R160, R249). -/
def State.memberEnd (s : State) (wg m : Nat) : CopyEnd :=
  let none_ (core code : Nat) : CopyEnd := { rank := m, core := core, alloc := 0, gen := 0, code := some code }
  match s.wgs.find wg with
  | none => none_ 0 2
  | some w => match w.members[m]? with
    | none => none_ 0 2
    | some (core, wg') => match s.wgs.find wg' with
      | none => none_ core 7
      | some w' =>
        if w'.ended then none_ core 7 else
        match s.allocs.find w'.alloc with
        | none => none_ core 7
        | some a => { rank := m, core := core, alloc := w'.alloc, gen := a.gen, code := none }

-- Templates (R253, R255)

structure Tmpl where
  ctrl : Nat
  ten : Nat
  e0 : Nat
  e1 : Nat
  e2 : Nat
  crows : Nat
  rrows : Nat
  deriving DecidableEq, Repr

def tmplOf (bs : List Byte) : Tmpl :=
  { ctrl := recNat bs 0 4, ten := recNat bs 4 1, e0 := recNat bs 8 4, e1 := recNat bs 12 4, e2 := recNat bs 16 4,
    crows := recNat bs 20 4, rrows := recNat bs 24 4 }

def Tmpl.out (t : Tmpl) : Bool := bitsOf t.ctrl 30 1 == 1
def Tmpl.swz (t : Tmpl) : Nat := bitsOf t.ctrl 27 3
def Tmpl.vat (t : Tmpl) : Nat := bitsOf t.ctrl 25 2

/-- The pitch of a tile line (R254). -/
def Tmpl.pitch (t : Tmpl) (ten : Ten) : Nat := if t.vat ≠ 0 then t.e0 else 16 * ((t.e0 * ten.bits + 127) / 128)

def tmplReserved (bs : List Byte) : Bool := recNat bs 5 3 == 0 && (bs.drop 28).all (· == 0) && bitsOf (recNat bs 0 4) 0 25 == 0

/-- R255; `ten`: the record of TEN; `copy`: for a `cpy` or `cpy.mc`. DESIGN CHOICE (log 16): a `cpy.mc` of an outward template
or of one with VAT is a bad template. -/
def tmplOk (bs : List Byte) (mc : Bool) (ten : Ten) (copy : Bool) : Bool :=
  let t := tmplOf bs
  let w := t.pitch ten
  bitsOf t.ctrl 31 1 == 1 && tmplReserved bs && ten.valid && decide (t.swz ≤ 5) && w % (16 * 2 ^ t.swz) == 0 &&
  decide (t.e0 ≤ 65535) && decide (t.e1 ≤ 65535) && decide (t.e2 ≤ 65535) &&
  (if t.vat ≠ 0 then !t.out && decide (1 ≤ t.e0) && t.e1 == 0 && t.e2 == 0 && (!copy || (ten.fmt == 8 && ten.ndim == 1))
   else decide (1 ≤ t.e0) && decide (1 ≤ t.e1) && decide (1 ≤ t.e2)) &&
  (!mc || (decide (1 ≤ t.rrows) && !t.out && t.vat == 0)) &&
  (!copy || t.vat ≠ 0 || !ten.sp || ten.str 1 % (16 * 2 ^ ten.swz) == 0)

end Sys2Proof.Machine
end

