-- ==== Sys2Proof/Machine/Vat.lean ====
section
/-! DEFINITION. Vat decompression (R258, R259): LZ4 and RDP streams. PRESUMED (log 17): the LZ4 block format. -/

namespace Sys2Proof.Machine

/-- Bytes decoded, whether the stream was well formed, and if not, whether it only lacked bytes: a block counts as read once it is
there as a whole. -/
structure Decoded where
  out : List Byte
  ok : Bool
  short : Bool := false
  deriving DecidableEq, Repr

-- LZ4: output is kept latest byte first

/-- The extension of a length field of 15; none: the source ends. -/
def lz4Len : Nat → Nat → List Byte → Option (Nat × List Byte)
  | 0, _, _ => none
  | _, _, [] => none
  | fuel + 1, acc, b :: t => if b = 255 then lz4Len fuel (acc + 255) t else some (acc + b.toNat, t)

def lz4Field (fuel n : Nat) (src : List Byte) : Option (Nat × List Byte) := if n = 15 then lz4Len fuel 15 src else some (n, src)

def lz4Copy (dist : Nat) : Nat → List Byte → List Byte
  | 0, out => out
  | n + 1, out => lz4Copy dist n (out.getD (dist - 1) 0 :: out)

/-- The sequences of one block. -/
def lz4Block : Nat → List Byte → List Byte → Decoded
  | 0, out, _ => { out := out, ok := false }
  | _, out, [] => { out := out, ok := false }
  | fuel + 1, out, tok :: t =>
    match lz4Field (t.length + 1) (tok.toNat / 16) t with
    | none => { out := out, ok := false }
    | some (lit, t) =>
      if t.length < lit then { out := t.reverse ++ out, ok := false } else
      let out := (t.take lit).reverse ++ out
      match t.drop lit with
      | [] => { out := out, ok := true }
      | [_] => { out := out, ok := false }
      | lo :: hi :: t =>
        let dist := lo.toNat + 256 * hi.toNat
        if dist = 0 || out.length < dist then { out := out, ok := false } else
        match lz4Field (t.length + 1) (tok.toNat % 16) t with
        | none => { out := out, ok := false }
        | some (m, t) => lz4Block fuel (lz4Copy dist (m + 4) out) t

/-- The records of a stream; L = 0 ends it. -/
def lz4Records : Nat → List Byte → List Byte → Decoded
  | 0, out, _ => { out := out, ok := false }
  | fuel + 1, out, src =>
    if src.length < 4 then { out := out, ok := false, short := true } else
    let n := leNat (src.take 4)
    let t := src.drop 4
    if n = 0 then { out := out, ok := true }
    else if t.length < n then { out := out, ok := false, short := true }
    else
      let d := lz4Block (n + 1) out (t.take n)
      if d.ok then lz4Records fuel d.out (t.drop n) else d

def lz4Decode (src : List Byte) : Decoded :=
  let d := lz4Records (src.length + 1) [] src
  { d with out := d.out.reverse }

-- RDP (R259)

def zigzag (z : Nat) : Int := if z % 2 = 0 then z / 2 else -((z + 1) / 2 : Nat)

/-- The codes of a run: the code values and the bytes they take. -/
def rdpCodes (sel n : Nat) (body : List Byte) : Option (List Nat × List Byte) :=
  let size := match sel with
    | 0 => (n + 1) / 2
    | 1 => n
    | 2 => 2 * n
    | _ => 0
  if body.length < size then none else
  some ((List.range n).map fun i => match sel with
    | 0 => (body.getD (i / 2) 0).toNat / (if i % 2 = 0 then 1 else 16) % 16
    | 1 => (body.getD i 0).toNat
    | 2 => recNat body (2 * i) 2
    | _ => 0, body.drop size)

def rdpSamples (n : Nat) : Int → List Nat → Option (List Nat)
  | _, [] => some []
  | s, z :: t =>
    let s' := s + zigzag z
    if 0 ≤ s' ∧ s' < 2 ^ n then (rdpSamples n s' t).map (s'.toNat :: ·) else none

/-- The runs of a row: `left` samples are still to come after the last one. -/
def rdpRuns (n : Nat) : Nat → Nat → Nat → List Byte → Option (List Nat)
  | 0, _, _, _ => none
  | fuel + 1, left, s, body =>
    if left = 0 then (if body.isEmpty then some [] else none) else
    match body with
    | [] => none
    | sel :: t =>
      if sel.toNat > 3 then none else
      let k := min 32 left
      match rdpCodes sel.toNat k t with
      | none => none
      | some (zs, t) => match rdpSamples n s zs with
        | none => none
        | some ss => (rdpRuns n fuel (left - k) (ss.getLastD s) t).map (ss ++ ·)

def rdpRow (n w : Nat) (body : List Byte) : Option (List Nat) :=
  if body.length < 2 then none else
  let s := recNat body 0 2
  if s ≥ 2 ^ n then none else (rdpRuns n (w + 1) (w - 1) s (body.drop 2)).map (s :: ·)

def packBits (n : Nat) : List Nat → Nat
  | [] => 0
  | s :: t => s % 2 ^ n + 2 ^ n * packBits n t

/-- Rows, each packed and padded to the pitch. -/
def rdpRows (n w pitch : Nat) : Nat → List Byte → Decoded
  | 0, _ => { out := [], ok := true }
  | h + 1, src =>
    let bad : Decoded := { out := [], ok := false }
    if src.length < 4 then { bad with short := true } else
    let lb := recNat src 0 3
    let t := src.drop 4
    if recNat src 3 1 ≠ 0 then bad
    else if t.length < lb then { bad with short := true } else
    match rdpRow n w (t.take lb) with
    | none => bad
    | some ss =>
      if (n * w + 31) / 32 * 4 > pitch then bad else
      let d := rdpRows n w pitch h (t.drop lb)
      { d with out := leBytes (packBits n ss) pitch ++ d.out }

def rdpDecode (pitch : Nat) (src : List Byte) : Decoded :=
  let n := recNat src 4 1
  let w := recNat src 8 4
  let h := recNat src 12 4
  if src.length < 16 then { out := [], ok := false, short := true }
  else if recNat src 0 4 ≠ 0x31504452 || !(n == 10 || n == 12 || n == 14) || recNat src 5 3 ≠ 0 ||
     w = 0 || w > 65535 || h = 0 || h > 65535 then { out := [], ok := false }
  else rdpRows n w pitch h (src.drop 16)

end Sys2Proof.Machine
end

