-- ==== Sys2Proof/Machine/Zstd.lean ====
section
/-! DEFINITION. zstd streams (R258), and the choice of a decoder. PRESUMED (log 17): the format is that of RFC 8878, which R258 names
and the specification does not repeat. -/

namespace Sys2Proof.Machine

-- Bits read backwards from the end of a stream, below a final 1 bit; past the first bit, zeros

/-- The bytes as a number, and how many of its bits are left. -/
structure BackBits where
  val : Nat
  left : Int
  deriving DecidableEq, Repr

def backBits (bs : List Byte) : Option BackBits :=
  match bs.getLast? with
  | some b => if b = 0 then none else some { val := leNat bs, left := Nat.log2 (leNat bs) }
  | none => none

def BackBits.peek (b : BackBits) (n : Nat) : Nat :=
  if (n : Int) ≤ b.left then b.val >>> (b.left - n).toNat % 2 ^ n else b.val <<< (n - b.left).toNat % 2 ^ n

def BackBits.skip (b : BackBits) (n : Nat) : BackBits := { b with left := b.left - n }

def BackBits.read (b : BackBits) (n : Nat) : Nat × BackBits := (b.peek n, b.skip n)

-- FSE tables

/-- A table: its accuracy, and per state a symbol, a number of bits and the base of the next state. -/
structure Fse where
  al : Nat
  rows : List (Nat × Nat × Nat)
  deriving DecidableEq, Repr

def Fse.row (t : Fse) (st : Nat) : Nat × Nat × Nat := t.rows.getD st (0, 0, 0)

def Fse.next (t : Fse) (st : Nat) (b : BackBits) : Nat × BackBits :=
  let r := t.row st
  (r.2.2 + b.peek r.2.1, b.skip r.2.1)

/-- The symbols of probability zero that two-bit repeats announce. -/
def fseZeros (v : Nat) : Nat → Nat → Nat → Nat × Nat
  | 0, pos, n => (n, pos)
  | fuel + 1, pos, n => let r := v >>> pos % 4; if r = 3 then fseZeros v fuel (pos + 2) (n + 3) else (n + r, pos + 2)

/-- Normalised counts, least symbol first; -1: less than one. `v`: the description's bytes as a number. -/
def fseCounts (v : Nat) : Nat → Nat → Nat → List Int → Option (List Int × Nat)
  | 0, _, _, _ => none
  | fuel + 1, pos, left, acc =>
    if left = 0 then some (acc.reverse, pos) else
    let bits := Nat.log2 (left + 1) + 1
    let x := v >>> pos % 2 ^ bits
    let low := x % 2 ^ (bits - 1)
    let thr := 2 ^ bits - 1 - (left + 1)
    let p := if low < thr then low else if x ≥ 2 ^ (bits - 1) then x - thr else x
    let pos := if low < thr then pos + bits - 1 else pos + bits
    let acc := ((p : Int) - 1) :: acc
    if p = 1 then
      let z := fseZeros v 256 pos 0
      fseCounts v fuel z.2 left (List.replicate z.1 0 ++ acc)
    else fseCounts v fuel pos (left - (if p = 0 then 1 else p - 1)) acc

/-- A table's description: accuracy, counts, and the bytes after it. -/
def fseRead (maxLog maxSym : Nat) (src : List Byte) : Option (Nat × List Int × List Byte) :=
  match src with
  | [] => none
  | b :: _ =>
    let al := b.toNat % 16 + 5
    if al > maxLog then none else
    match fseCounts (leNat (src.take 600)) (maxSym + 2) 4 (2 ^ al) [] with
    | none => none
    | some (cs, pos) => if (pos + 7) / 8 > src.length || cs.length > maxSym + 1 then none else some (al, cs, src.drop ((pos + 7) / 8))

def fseStep (size high : Nat) : Nat → Nat → Nat
  | 0, p => p
  | fuel + 1, p =>
    let p := (p + size / 2 + size / 8 + 3) % size
    if p ≥ high then fseStep size high fuel p else p

/-- The symbol of each state. -/
def fseSpread (al : Nat) (cs : List Int) : List Nat :=
  let size := 2 ^ al
  let lows := cs.zipIdx.filterMap fun c => if c.1 = -1 then some c.2 else none
  let high := size - lows.length
  let t := lows.zipIdx.foldl (fun t s => t.set (size - 1 - s.2) s.1) (List.replicate size 0)
  ((cs.zipIdx.flatMap fun c => List.replicate c.1.toNat c.2).foldl (fun t s => (t.1.set t.2 s, fseStep size high size t.2)) (t, 0)).1

def fseBuild (al : Nat) (cs : List Int) : Fse :=
  { al := al
    rows := ((fseSpread al cs).foldl (fun a s =>
      let n := a.2.getD s 1
      let nb := al - Nat.log2 n
      ((s, nb, n * 2 ^ nb - 2 ^ al) :: a.1, a.2.set s (n + 1))) ([], cs.map fun c => if c = -1 then 1 else c.toNat)).1.reverse }

def fseOne (s : Nat) : Fse := { al := 0, rows := [(s, 0, 0)] }

-- Huffman tables

/-- The weights that two interleaved states give. -/
def huffWeights (t : Fse) : Nat → Nat → Nat → BackBits → List Nat → Option (List Nat)
  | 0, _, _, _, _ => none
  | fuel + 1, s1, s2, b, acc =>
    let n := t.next s1 b
    let acc := (t.row s1).1 :: acc
    if n.2.left < 0 then some (((t.row s2).1 :: acc).reverse) else huffWeights t fuel s2 n.1 n.2 acc

/-- A Huffman table: the code length read, and for each value of as many bits the symbol and its length. -/
structure Huff where
  bits : Nat
  rows : List (Nat × Nat)
  deriving DecidableEq, Repr

def huffBuild (ws : List Nat) : Option Huff :=
  let sum := (ws.map fun w => if w = 0 then 0 else 2 ^ (w - 1)).foldl (· + ·) 0
  let mb := Nat.log2 sum + 1
  let left := 2 ^ mb - sum
  if sum = 0 || mb > 11 || 2 ^ Nat.log2 left ≠ left || ws.length > 255 then none else
  let ws := ws ++ [Nat.log2 left + 1]
  some { bits := mb, rows := (List.range mb).flatMap fun w => ws.zipIdx.flatMap fun x => if x.1 = w + 1 then List.replicate (2 ^ w) (x.2, mb - w) else [] }

def huffRead (src : List Byte) : Option (Huff × List Byte) :=
  match src with
  | [] => none
  | h :: t =>
    let n := if h.toNat ≥ 128 then (h.toNat - 127 + 1) / 2 else h.toNat
    if t.length < n then none else
    (if h.toNat ≥ 128 then huffBuild ((List.range (h.toNat - 127)).map fun i => (t.getD (i / 2) 0).toNat / (if i % 2 = 0 then 16 else 1) % 16)
     else match fseRead 6 255 (t.take n) with
      | none => none
      | some (al, cs, rest) => match backBits rest with
        | none => none
        | some b =>
          let f := fseBuild al cs
          let s1 := b.read al
          let s2 := s1.2.read al
          if s2.2.left < 0 then none else (huffWeights f 256 s1.1 s2.1 s2.2 []).bind huffBuild).map (·, t.drop n)

/-- `n` symbols of a stream, which they use up; latest first. -/
def huffStream (t : Huff) : Nat → BackBits → List Byte → Option (List Byte)
  | 0, b, acc => if b.left = 0 then some acc else none
  | n + 1, b, acc =>
    let r := t.rows.getD (b.peek t.bits) (0, 0)
    if b.left < r.2 then none else huffStream t n (b.skip r.2) (BitVec.ofNat 8 r.1 :: acc)

def huffBytes (t : Huff) (n : Nat) (src : List Byte) : Option (List Byte) :=
  (backBits src).bind fun b => (huffStream t n b []).map List.reverse

def huffFour (t : Huff) (n : Nat) (src : List Byte) : Option (List Byte) :=
  let a := recNat src 0 2
  let b := recNat src 2 2
  let c := recNat src 4 2
  let q := (n + 3) / 4
  if src.length < 6 + a + b + c || n < 3 * q then none else
  match huffBytes t q ((src.drop 6).take a), huffBytes t q ((src.drop (6 + a)).take b), huffBytes t q ((src.drop (6 + a + b)).take c),
    huffBytes t (n - 3 * q) (src.drop (6 + a + b + c)) with
  | some w, some x, some y, some z => some (w ++ x ++ y ++ z)
  | _, _, _, _ => none

-- Blocks

/-- What a block leaves for the next: tables and the three offsets that repeat. -/
structure ZState where
  huff : Option Huff
  ll : Option Fse
  off : Option Fse
  ml : Option Fse
  reps : Nat × Nat × Nat
  deriving DecidableEq, Repr

/-- The literals of a block, the Huffman table kept, and the bytes after them. -/
def zLiterals (z : ZState) (src : List Byte) : Option (List Byte × Option Huff × List Byte) :=
  let h := recNat src 0 5
  let fmt := h / 4 % 4
  if src.length = 0 then none
  else if h % 4 < 2 then
    let hl := if fmt % 2 = 0 then 1 else if fmt = 1 then 2 else 3
    let n := if fmt % 2 = 0 then h % 256 / 8 else if fmt = 1 then h % 2 ^ 16 / 16 else h % 2 ^ 24 / 16
    let take := if h % 4 = 0 then n else 1
    if src.length < hl + take || n > 2 ^ 17 then none
    else some (if h % 4 = 0 then (src.drop hl).take n else List.replicate n (src.getD hl 0), z.huff, src.drop (hl + take))
  else
    let hl := if fmt < 2 then 3 else fmt + 2
    let w := if fmt < 2 then 10 else if fmt = 2 then 14 else 18
    let n := h / 16 % 2 ^ w
    let size := h / 2 ^ (4 + w) % 2 ^ w
    if src.length < hl + size || n > 2 ^ 17 then none else
    let body := (src.drop hl).take size
    match (if h % 4 = 2 then huffRead body else z.huff.map (·, body)) with
    | none => none
    | some (t, body) =>
      (if fmt = 0 then huffBytes t n body else huffFour t n body).map (·, some t, src.drop (hl + size))

def llDefault : List Int :=
  [4, 3, 2, 2, 2, 2, 2, 2, 2, 2, 2, 2, 2, 1, 1, 1, 2, 2, 2, 2, 2, 2, 2, 2, 2, 3, 2, 1, 1, 1, 1, 1, -1, -1, -1, -1]

def mlDefault : List Int := [1, 4, 3, 2, 2, 2, 2, 2, 2] ++ List.replicate 37 1 ++ List.replicate 7 (-1)

def offDefault : List Int := [1, 1, 1, 1, 1, 1, 2, 2, 2] ++ List.replicate 15 1 ++ List.replicate 5 (-1)

/-- Base and extra bits of a literal length. -/
def llCode (c : Nat) : Nat × Nat :=
  if c < 16 then (c, 0) else
  [(16, 1), (18, 1), (20, 1), (22, 1), (24, 2), (28, 2), (32, 3), (40, 3), (48, 4), (64, 6), (128, 7), (256, 8), (512, 9), (1024, 10),
    (2048, 11), (4096, 12), (8192, 13), (16384, 14), (32768, 15), (65536, 16)].getD (c - 16) (0, 0)

/-- Base and extra bits of a match length. -/
def mlCode (c : Nat) : Nat × Nat :=
  if c < 32 then (c + 3, 0) else
  [(35, 1), (37, 1), (39, 1), (41, 1), (43, 2), (47, 2), (51, 3), (59, 3), (67, 4), (83, 4), (99, 5), (131, 7), (259, 8), (515, 9),
    (1027, 10), (2051, 11), (4099, 12), (8195, 13), (16387, 14), (32771, 15), (65539, 16)].getD (c - 32) (0, 0)

/-- A table of a block by its mode: predefined, one symbol, described, or the one before. -/
def zTable (mode al maxLog maxSym : Nat) (dflt : List Int) (old : Option Fse) (src : List Byte) : Option (Fse × List Byte) :=
  match mode, src with
  | 0, _ => some (fseBuild al dflt, src)
  | 1, [] => none
  | 1, b :: t => if b.toNat > maxSym then none else some (fseOne b.toNat, t)
  | 2, _ => (fseRead maxLog maxSym src).map fun r => (fseBuild r.1 r.2.1, r.2.2)
  | _, _ => old.map (·, src)

/-- The distance of a match, and the offsets kept. -/
def zOffset (v : Nat) (ll0 : Bool) (r : Nat × Nat × Nat) : Nat × (Nat × Nat × Nat) :=
  if v > 3 then (v - 3, v - 3, r.1, r.2.1) else
  match v - 1 + (if ll0 then 1 else 0) with
  | 0 => (r.1, r)
  | 1 => (r.2.1, r.2.1, r.1, r.2.2)
  | 2 => (r.2.2, r.2.2, r.1, r.2.1)
  | _ => (r.1 - 1, r.1 - 1, r.1, r.2.1)

/-- The sequences of a block: output latest byte first, and what is left of offsets and literals if all are well formed. -/
def zSequences (ll off ml : Fse) : Nat → Nat × Nat × Nat → BackBits → Nat × Nat × Nat → List Byte → List Byte →
    List Byte × Option ((Nat × Nat × Nat) × List Byte)
  | 0, _, b, r, lits, out => (out, if b.left = 0 then some (r, lits) else none)
  | n + 1, st, b, r, lits, out =>
    let oc := (off.row st.2.1).1
    let ov := b.read oc
    let mc := mlCode (ml.row st.2.2).1
    let mv := ov.2.read mc.2
    let lc := llCode (ll.row st.1).1
    let lv := mv.2.read lc.2
    let l := lc.1 + lv.1
    let b := lv.2
    let n1 := ll.next st.1 b
    let n2 := ml.next st.2.2 n1.2
    let n3 := off.next st.2.1 n2.2
    let st' := if n = 0 then st else (n1.1, n3.1, n2.1)
    let b := if n = 0 then b else n3.2
    if b.left < 0 || lits.length < l then (out, none) else
    let o := zOffset (2 ^ oc + ov.1) (l == 0) r
    let out := (lits.take l).reverse ++ out
    if o.1 = 0 || out.length < o.1 then (out, none)
    else zSequences ll off ml n st' b o.2 (lits.drop l) (lz4Copy o.1 (mc.1 + mv.1) out)

/-- A compressed block: output latest byte first, and the state it leaves if it is well formed. -/
def zBlock (z : ZState) (src out : List Byte) : List Byte × Option ZState :=
  match zLiterals z src with
  | none => (out, none)
  | some (lits, huff, t) =>
    let z := { z with huff := huff }
    let b0 := recNat t 0 1
    let hl := if b0 < 128 then 1 else if b0 < 255 then 2 else 3
    let n := if b0 < 128 then b0 else if b0 < 255 then (b0 - 128) * 256 + recNat t 1 1 else recNat t 1 2 + 0x7F00
    if t.length < hl then (out, none)
    else if n = 0 then if t.length = hl then (lits.reverse ++ out, some z) else (out, none)
    else
      let m := recNat t hl 1
      if t.length < hl + 1 || m % 4 ≠ 0 then (out, none) else
      match (do
        let (ll, t) ← zTable (m / 64) 6 9 35 llDefault z.ll (t.drop (hl + 1))
        let (of, t) ← zTable (m / 16 % 4) 5 8 31 offDefault z.off t
        let (ml, t) ← zTable (m / 4 % 4) 6 9 52 mlDefault z.ml t
        let b ← backBits t
        some (ll, of, ml, b)) with
      | none => (out, none)
      | some (ll, of, ml, b) =>
        let a := b.read ll.al
        let c := a.2.read of.al
        let e := c.2.read ml.al
        if e.2.left < 0 then (out, none) else
        match zSequences ll of ml n (a.1, c.1, e.1) e.2 z.reps lits out with
        | (out, none) => (out, none)
        | (out, some (r, lits)) => (lits.reverse ++ out, some { z with ll := some ll, off := some of, ml := some ml, reps := r })

/-- The blocks of a frame of a given largest block: output latest byte first, and the bytes after the last block if all are well formed,
else whether bytes are lacking. -/
def zBlocks (most : Nat) : Nat → ZState → List Byte → List Byte → List Byte × Except Bool (List Byte)
  | 0, _, _, out => (out, .error false)
  | fuel + 1, z, src, out =>
    if src.length < 3 then (out, .error true) else
    let h := recNat src 0 3
    let n := h / 8
    let t := src.drop 3
    let k := if h / 2 % 4 = 1 then 1 else n
    if h / 2 % 4 = 3 || n > most then (out, .error false)
    else if t.length < k then (out, .error true) else
    let r : List Byte × Option ZState := match h / 2 % 4 with
      | 0 => ((t.take n).reverse ++ out, some z)
      | 1 => (List.replicate n (t.getD 0 0) ++ out, some z)
      | _ => zBlock z (t.take n) out
    match r.2 with
    | none => (r.1, .error false)
    | some z => if r.1.length > out.length + 2 ^ 17 then (r.1, .error false)
      else if h % 2 = 1 then (r.1, .ok (t.drop k)) else zBlocks most fuel z (t.drop k) r.1

-- The content checksum

def xxP1 : Dword := 11400714785074694791
def xxP2 : Dword := 14029467366897019727
def xxP3 : Dword := 1609587929392839161
def xxP4 : Dword := 9650029242287828579
def xxP5 : Dword := 2870177450012600261

def xxRound (acc x : Dword) : Dword := (acc + x * xxP2).rotateLeft 31 * xxP1

def xxLane (bs : List Byte) (i : Nat) : Dword := BitVec.ofNat 64 (recNat bs (8 * i) 8)

def xxStripes : Nat → List Byte → Dword × Dword × Dword × Dword → (Dword × Dword × Dword × Dword) × List Byte
  | 0, bs, v => (v, bs)
  | fuel + 1, bs, v =>
    if bs.length < 32 then (v, bs)
    else xxStripes fuel (bs.drop 32) (xxRound v.1 (xxLane bs 0), xxRound v.2.1 (xxLane bs 1), xxRound v.2.2.1 (xxLane bs 2), xxRound v.2.2.2 (xxLane bs 3))

def xxTail : Nat → List Byte → Dword → Dword
  | 0, _, h => h
  | fuel + 1, bs, h =>
    if bs.length ≥ 8 then xxTail fuel (bs.drop 8) ((h ^^^ xxRound 0 (xxLane bs 0)).rotateLeft 27 * xxP1 + xxP4)
    else if bs.length ≥ 4 then xxTail fuel (bs.drop 4) ((h ^^^ BitVec.ofNat 64 (recNat bs 0 4) * xxP1).rotateLeft 23 * xxP2 + xxP3)
    else match bs with
      | [] => h
      | b :: t => xxTail fuel t ((h ^^^ BitVec.ofNat 64 b.toNat * xxP5).rotateLeft 11 * xxP1)

/-- XXH64 of the bytes, with seed 0. -/
def xxh64 (bs : List Byte) : Dword :=
  let s := xxStripes bs.length bs (xxP1 + xxP2, xxP2, 0, 0 - xxP1)
  let v := s.1
  let mix (h x : Dword) : Dword := (h ^^^ xxRound 0 x) * xxP1 + xxP4
  let h := if bs.length < 32 then xxP5
    else mix (mix (mix (mix (v.1.rotateLeft 1 + v.2.1.rotateLeft 7 + v.2.2.1.rotateLeft 12 + v.2.2.2.rotateLeft 18) v.1) v.2.1) v.2.2.1) v.2.2.2
  let h := xxTail (s.2.length + 1) s.2 (h + BitVec.ofNat 64 bs.length)
  let h := (h ^^^ h >>> 33) * xxP2
  let h := (h ^^^ h >>> 29) * xxP3
  h ^^^ h >>> 32

-- Frames and dictionaries

def zFresh : ZState := { huff := none, ll := none, off := none, ml := none, reps := (1, 4, 8) }

/-- What a dictionary gives a frame: tables, and the content that matches may reach. -/
def zDict (bs : List Byte) : Option (ZState × List Byte) :=
  if recNat bs 0 4 ≠ 0xEC30A437 then some (zFresh, bs) else do
  let (h, t) ← huffRead (bs.drop 8)
  let (oa, oc, t) ← fseRead 8 31 t
  let (ma, mc, t) ← fseRead 9 52 t
  let (la, lc, t) ← fseRead 9 35 t
  let r := (recNat t 0 4, recNat t 4 4, recNat t 8 4)
  let body := t.drop 12
  if t.length < 12 || [r.1, r.2.1, r.2.2].any fun x => x == 0 || decide (x > body.length) then none
  else some ({ huff := some h, ll := some (fseBuild la lc), off := some (fseBuild oa oc), ml := some (fseBuild ma mc), reps := r }, body)

/-- The start a frame has: none for a dictionary that is not registered. -/
def zStart (dicts : List (Nat × List Byte)) (id : Nat) : Option (ZState × List Byte) :=
  if id = 0 then some (zFresh, []) else (dicts.find? (·.1 == id)).bind fun d => zDict d.2

/-- One frame behind its magic number (R258): its output, and the bytes after it if it is well formed, else whether bytes are lacking. -/
def zFrame (dicts : List (Nat × List Byte)) (src : List Byte) : List Byte × Except Bool (List Byte) :=
  let d := recNat src 0 1
  let dl := [0, 1, 2, 4].getD (d % 4) 0
  let fl := [1, 2, 4, 8].getD (d / 64) 0
  let size := recNat src (1 + dl) fl + (if d / 64 = 1 then 256 else 0)
  if src.length < 1 + dl + fl then ([], .error true)
  else if d / 32 % 2 = 0 || d / 8 % 2 = 1 || size > 2 ^ 23 then ([], .error false) else
  match zStart dicts (recNat src 1 dl) with
  | none => ([], .error false)
  | some (z, body) =>
    let r := zBlocks (min size (2 ^ 17)) src.length z (src.drop (1 + dl + fl)) body.reverse
    let out := r.1.reverse.drop body.length
    match r.2 with
    | .error short => (out, .error short)
    | .ok t =>
      let sum := d / 4 % 2 = 1
      if out.length ≠ size then (out, .error false)
      else if !sum then (out, .ok t)
      else if t.length < 4 then (out, .error true)
      else if recNat t 0 4 ≠ (xxh64 out).toNat % 2 ^ 32 then (out, .error false)
      else (out, .ok (t.drop 4))

/-- Concatenated frames, the skippable ones passed over. -/
def zFrames (dicts : List (Nat × List Byte)) : Nat → List Byte → Decoded
  | 0, src => { out := [], ok := src.isEmpty }
  | fuel + 1, src =>
    if src.isEmpty then { out := [], ok := true }
    else if src.length < 4 then { out := [], ok := false, short := true }
    else if recNat src 0 4 / 16 = 0x184D2A5 then
      let n := 8 + recNat src 4 4
      if src.length < 8 || src.length < n then { out := [], ok := false, short := true } else zFrames dicts fuel (src.drop n)
    else if recNat src 0 4 ≠ 0xFD2FB528 then { out := [], ok := false }
    else
      let r := zFrame dicts (src.drop 4)
      match r.2 with
      | .error short => { out := r.1, ok := false, short := short }
      | .ok t =>
        let d := zFrames dicts fuel t
        { d with out := r.1 ++ d.out }

def zstdDecode (dicts : List (Nat × List Byte)) (src : List Byte) : Decoded := zFrames dicts src.length src

/-- R258: decode a stream by the template's VAT code; dictionaries by their identifiers. -/
def vatDecode (vat pitch : Nat) (dicts : List (Nat × List Byte)) (src : List Byte) : Decoded :=
  match vat with
  | 1 => zstdDecode dicts src
  | 2 => lz4Decode src
  | _ => rdpDecode pitch src

end Sys2Proof.Machine
end

