-- ==== Sys2Proof/Machine/Copy.lean ====
section
/-! DEFINITION. Buffer handles (R163 to R166), tensor identifiers (R167, R168), and the copies of the block-transfer
engine (R159 to R162, R254, R256, R258). -/

namespace Sys2Proof.Machine

-- Handles

def State.handle (s : State) (core n : Nat) : Handle := (s.core core).handles.get Handle.reset n

def State.modHandle (s : State) (core n : Nat) (f : Handle → Handle) : State :=
  s.modCore core fun c => { c with handles := c.handles.ins n (f (c.handles.get Handle.reset n)) }

/-- The status word of R163. -/
def HState.code : HState → Nat
  | .unbound => 0 | .empty => 1 | .filling => 2 | .full => 3 | .draining => 4 | .error => 5

def Handle.word (h : Handle) : Word := BitVec.ofNat 32 (h.st.code * 2 ^ 28 + h.dones % 256 * 2 ^ 20 + h.expect * 2 ^ 12 + h.last)

def Handle.idle (h : Handle) : Bool := h.inward == 0 && h.outward == 0

/-- The columns of R164. -/
def Handle.toEmpty (h : Handle) : Handle := { h with st := .empty, dones := 0, accepted := 0, outBad := false }

def Handle.refuse (h : Handle) : Handle := { h with last := 3 }

/-- An inward copy accepted, or none where it is refused. -/
def Handle.acceptIn (h : Handle) : Option Handle :=
  match h.st with
  | .empty => some { h with st := .filling, accepted := 1, inward := h.inward + 1 }
  | .filling => if h.accepted < h.expect then some { h with accepted := h.accepted + 1, inward := h.inward + 1 } else none
  | _ => none

def Handle.acceptOut (h : Handle) : Option Handle :=
  match h.st with
  | .full => some { h with st := .draining, outward := h.outward + 1, outBad := false }
  | .draining => some { h with outward := h.outward + 1 }
  | _ => none

def Handle.endIn (h : Handle) (code : Nat) : Handle :=
  let h := { h with last := code, inward := h.inward - 1 }
  match h.st with
  | .filling =>
    if code ≠ 0 then { h with st := .error }
    else { h with dones := h.dones + 1, st := if h.dones + 1 = h.expect then .full else .filling }
  | .unbound => h
  | _ => { h with st := .error }

def Handle.endOut (h : Handle) (code : Nat) : Handle :=
  let h := { h with last := code, outward := h.outward - 1, outBad := h.outBad || code != 0 }
  match h.st with
  | .draining => if h.outward = 0 then (if h.outBad then { h with st := .error } else h.toEmpty) else h
  | _ => h

-- Copies in their channels

def State.chan (s : State) (cluster ch : Nat) : List CopyRec := (s.bte cluster).chans.get [] ch

def State.setChan (s : State) (cluster ch : Nat) (l : List CopyRec) : State :=
  s.modBte cluster fun b => { b with chans := b.chans.put [] ch l }

/-- The copy's end is told: handles, the channel's last status, the lane of the instruction (R159, R164). -/
def State.endCopy (s : State) (r : CopyRec) (ch code : Nat) (codes : List (Nat × Nat)) (out : Bool) : State :=
  let s := codes.foldl (fun s p => s.modHandle p.1 r.handle fun h => if out then h.endOut p.2 else h.endIn p.2) s
  let s := s.modBte (clusterOf r.core) fun b => { b with last := b.last.put 0 ch code }
  match r.op with
  | some id => s.laneDone id r.lane (some (leBytes code 4)) none
  | none => s

/-- A receiver of a `cpy.mc`, captured (R160, R161). -/
def State.acceptEnd (s : State) (r : CopyRec) (out : Bool) (rank core : Nat) (code : Option Nat) : State × CopyEnd :=
  match code with
  | some c => (s, { rank := rank, core := core, alloc := 0, gen := 0, code := some c })
  | none =>
    let h := s.handle core r.handle
    match if out then h.acceptOut else h.acceptIn with
    | none => (s.modHandle core r.handle Handle.refuse, { rank := rank, core := core, alloc := 0, gen := 0, code := some 3 })
    | some h' => (s.modHandle core r.handle fun _ => h', { rank := rank, core := core, alloc := h.alloc, gen := h.gen, code := none })

/-- The members that a MASK selects, in order, each with its core or the code 7. -/
def State.mcMembers (s : State) (wg mask : Nat) : List (Nat × Option Nat) :=
  ((List.range 4).filter fun m => bitsOf mask m 1 == 1).map fun m =>
    let e := s.memberEnd wg m
    (e.core, e.code.map fun _ => 7)

def acceptEnds (r : CopyRec) : State → Nat → List (Nat × Option Nat) → State × List CopyEnd
  | s, _, [] => (s, [])
  | s, k, (core, code) :: t =>
    let (s, e) := s.acceptEnd r false k core code
    let (s, es) := acceptEnds r s (k + 1) t
    (s, e :: es)

/-- Acceptance of a copy (R160, R164, R353): template, records and space captured; `some code`: it completes at once. DESIGN CHOICE (log 73):
where several codes apply, the first of MASK = 0, the handle's number, the template, the handle's state. -/
def State.acceptCopy (s : State) (r : CopyRec) : State × CopyRec × Option Nat :=
  let cluster := clusterOf r.core
  let bs := (s.bte cluster).templates.get (List.replicate 64 0) r.tmplNo
  let t := tmplOf bs
  let rec_ := s.tenRec r.ctx cluster t.ten
  let ten := tenOf rec_
  let (lat, s) := s.freeLat
  let r := { r with accepted := true, tmpl := bs, ten := rec_, due := s.cc + lat, issued := s.clock.ns,
                    space := (s.core r.core).space r.space.user,
                    tenEnd := if ten.sp then some (s.memberEnd r.wg ten.member) else none }
  if r.mc.any fun w => w.toNat % 16 == 0 then (s, r, some 0)
  else if r.handle ≥ 64 then (s, r, some 3)
  else if !tmplOk bs r.mc.isSome ten true then (s, { r with status := some 4 }, none)
  else match r.mc with
    | some w =>
      let (s, es) := acceptEnds r s 0 (s.mcMembers r.wg (w.toNat % 16))
      (s, { r with ends := es }, none)
    | none =>
      let (s, e) := s.acceptEnd r t.out 0 r.core none
      (s, { r with ends := [e] }, if e.code.isSome then some 3 else none)

/-- Copies that the channel has taken in. -/
def inQueue (l : List CopyRec) : Nat := (l.filter (·.accepted)).length

/-- The queue takes in the first copy of a core that still waits in its replay window, if there is room (R160, R290). -/
def State.acceptNext (s : State) (core ch : Nat) : State × Bool :=
  let cluster := clusterOf core
  let l := s.chan cluster ch
  match l.find? fun r => !r.accepted && r.core == core with
  | none => (s, false)
  | some r =>
    if inQueue l ≥ 8 || (s.bte cluster).stop then (s, false) else
    let (s, r', now) := s.acceptCopy r
    match now with
    | some code => ((s.setChan cluster ch (l.erase r)).endCopy r' ch code [] false, true)
    | none => (s.setChan cluster ch ((l.filter (·.accepted)) ++ [r'] ++ (l.filter (fun q => !q.accepted)).erase r), true)

def State.acceptMany (s : State) (core ch : Nat) : Nat → State
  | 0 => s
  | n + 1 => match s.acceptNext core ch with
    | (s, true) => s.acceptMany core ch n
    | (s, false) => s

/-- Copies of a core that its replay window for the channel holds. -/
def State.copyWindow (s : State) (core ch : Nat) : Nat := ((s.chan (clusterOf core) ch).filter fun r => !r.accepted && r.core == core).length

/-- A copy is sent to its channel; one that finds the queue full waits for its next sending. -/
def State.sendCopy (s : State) (ch : Nat) (r : CopyRec) : State :=
  let cluster := clusterOf r.core
  let n := s.copyWindow r.core ch
  let s := s.setChan cluster ch (s.chan cluster ch ++ [r])
  if n > 0 then s else
  match s.acceptNext r.core ch with
  | (s, true) => s
  | (s, false) => (s.modCore r.core fun c => c.modPath (chanKey ch) fun p => { p with nacks := 1 }).schedule (s.cc + (s.core r.core).backoff 1)
      (.replayResend r.core (chanKey ch))

/-- Refused copies are sent again (R290). -/
def State.resendCopies (s : State) (core ch : Nat) : State :=
  let n := s.copyWindow core ch
  let s := s.acceptMany core ch n
  if s.copyWindow core ch = 0 then s.modCore core fun c => c.modPath (chanKey ch) fun _ => Path.reset
  else
    let k := if s.copyWindow core ch < n then 1 else ((s.core core).paths.get Path.reset (chanKey ch)).nacks + 1
    (s.modCore core fun c => c.modPath (chanKey ch) fun p => { p with nacks := k }).schedule (s.cc + (s.core core).backoff k) (.replayResend core (chanKey ch))

-- The movement of a copy

/-- The status code of a cause (R162). -/
def copyCode : Cause → Nat
  | .permission | .memtype => 2
  | .peerGone => 7
  | _ => 6

/-- Tile lines in the order they lie in the handle: line of the tile, e2 (R254). -/
def tileLines (t : Tmpl) (mc : Bool) (rank : Nat) : List (Nat × Nat) :=
  let ys := if mc then List.range t.crows ++ (List.range t.rrows).map (t.crows + rank * t.rrows + ·) else List.range t.e1
  (List.range t.e2).flatMap fun e2 => ys.map fun y => (y, e2)

/-- The coordinates of an element of a tile (R254). -/
def tileElem (t : Tmpl) (coord : Dword) (y e2 i : Nat) : List Nat :=
  let c (k : Nat) := Dword.field coord (16 * k) 16
  [c 0 * t.e0 + i, c 1 * t.e1 + y, c 2 * t.e2 + e2, 0, 0]

def CopyRec.acc (r : CopyRec) : EngAcc := { core := r.core, sp := r.space, tgt := r.tenEnd }

/-- A line of the tile, packed and padded to the pitch. -/
def State.readLine (s : State) (r : CopyRec) (t : Tmpl) (ten : Ten) (ln : Nat × Nat) : State × Except EngErr (List Byte) :=
  match allSteps (fun s i => s.engElem r.acc ten (tileElem t r.coord ln.1 ln.2 i)) s (List.range t.e0) with
  | (s, .error e) => (s, .error e)
  | (s, .ok vs) => (s, .ok (leBytes (packBits ten.bits vs) (t.pitch ten)))

/-- Bytes are placed in a scratchpad as lines of a pitch, swizzled, and tagged; true: dropped as stale (R238, R239, R252). -/
def State.placeAt (s : State) (core start alloc gen issued w swz : Nat) (bs : List Byte) : State × Bool :=
  if s.stale alloc gen start bs.length issued s.clock.ns then (s.modCore core fun c => c.addStale (spans start bs.length), true)
  else (s.modSpad core fun p => (bs.zipIdx).foldl (fun p b => p.write swz (start + swizzle swz w b.2) [b.1]) p, false)

/-- Bytes are placed in a handle at an offset. A copy's writes are made as it completes, so that their 64 µs have not passed (log 46). -/
def State.place (s : State) (e : CopyEnd) (h : Handle) (off w swz : Nat) (bs : List Byte) : State × Bool :=
  match s.allocs.find e.alloc with
  | none => (s.modCore e.core fun c => c.addStale (spans (h.base + off) bs.length), true)
  | some a => s.placeAt a.core (a.base + h.base + off) e.alloc e.gen s.clock.ns w swz bs

/-- The handle is still bound as the copy found it (R161, R164). -/
def State.bound (s : State) (r : CopyRec) (e : CopyEnd) : Bool :=
  let h := s.handle e.core r.handle
  h.st != .unbound && h.alloc == e.alloc && h.gen == e.gen

/-- The data of one receiver, placed: its code. -/
def State.fillEnd (s : State) (r : CopyRec) (t : Tmpl) (ten : Ten) (e : CopyEnd) : State × Except EngErr Nat :=
  match e.code with
  | some c => (s, .ok c)
  | none =>
    let h := s.handle e.core r.handle
    let w := t.pitch ten
    let lines := tileLines t r.mc.isSome e.rank
    let off := match r.mc with
      | some b => e.rank * (b.toNat / 65536) * 16
      | none => 0
    if s.bound r e && off + lines.length * w > h.len then (s, .ok 8) else
    match allSteps (fun s ln => s.readLine r t ten ln) s lines with
    | (s, .error er) => if er.1.cause == .pageNotPresent then (s, .error er) else (s, .ok (copyCode er.1.cause))
    | (s, .ok bs) =>
      let (s, gone) := s.place e h off w t.swz bs.flatten
      (s, .ok (if gone then 1 else 0))

/-- Source bytes of a Vat stream, up to the first that cannot be read (R258). -/
def State.vatSource (s : State) (a : EngAcc) (sp : Bool) : List Nat → State × List Byte × Option EngErr
  | [] => (s, [], none)
  | addr :: t =>
    match s.engByte a sp addr with
    | (s, .error e) => (s, [], some e)
    | (s, .ok b) =>
      let (s, bs, e) := s.vatSource a sp t
      (s, b :: bs, e)

/-- The dictionaries registered (R261), by Dictionary_ID, in the space of the context that holds them (R354). -/
def State.dicts (s : State) (core ctx : Nat) : State × List (Nat × List Byte) :=
  (s.bte (clusterOf core)).dict.foldl (fun (a : State × List (Nat × List Byte)) p =>
    match a.1.vbytes core (s.ctxSpace ctx) (recNat p.2 0 8) (recNat p.2 8 4) with
    | (s, .ok bs) => (s, a.2 ++ [(recNat p.2 12 4, bs)])
    | (s, .error _) => (s, a.2)) (s.claimCtx ctx, [])

/-- How many of `n` bytes laid out in lines have their places, swizzled, within `room` bytes (R252, R258). -/
def fitting (w swz room n : Nat) : Nat := ((List.range n).takeWhile fun i => decide (swizzle swz w i < room)).length

/-- Decoded output is placed in the handle: the code of R258. -/
def State.placeVat (s : State) (r : CopyRec) (t : Tmpl) (e : CopyEnd) (d : Decoded) : State × Nat :=
  let h := s.handle e.core r.handle
  let k := fitting t.e0 t.swz h.len d.out.length
  let (s, gone) := s.place e h 0 t.e0 t.swz (d.out.take k)
  (s, if gone then 1 else if k < d.out.length then 8 else if d.ok then 0 else 5)

/-- A Vat copy (R258). The bytes before one that cannot be read are decoded first: a breach in them, or output past the end of the handle, is
what the copy meets; a stream that wants the byte meets its cause, with what came before it placed. Only zstd reads on to the end of its source. -/
def State.vatCopy (s : State) (r : CopyRec) (t : Tmpl) (ten : Ten) (e : CopyEnd) : State × Except EngErr Nat :=
  let start := Dword.field r.coord 0 32 * 16
  let n := min (Dword.field r.coord 32 16 * 256) (ten.dim 0 - start)
  let (s, src, err) := s.vatSource r.acc ten.sp ((List.range n).map fun i => ten.at_ (start + i))
  let (s, ds) := s.dicts r.core r.ctx
  let d := vatDecode t.vat t.e0 ds src
  let (s', c) := s.placeVat r t e d
  match err with
  | some er =>
    if c = 1 || c = 8 || (c = 5 && !d.short) || (c = 0 && t.vat ≠ 1) then (s', .ok c)
    else if er.1.cause == .pageNotPresent then (s, .error er)
    else (s', .ok (copyCode er.1.cause))
  | none => (s', .ok c)

/-- The allocation of a member stood when the copy was accepted and no longer stands (R161, R238). -/
def State.goneSince (s : State) : Option CopyEnd → Bool
  | some c => c.code.isNone && (match s.liveAlloc (some c) with
    | .ok _ => false
    | .error _ => true)
  | none => false

/-- An outward copy: elements of the handle's tile go to the tensor (R254); writes to an allocation that ended after the copy was
accepted are dropped (R161, R238). -/
def State.drainHandle (s : State) (r : CopyRec) (t : Tmpl) (ten : Ten) (e : CopyEnd) : State × Except EngErr Nat :=
  let h := s.handle e.core r.handle
  let w := t.pitch ten
  let lines := tileLines t false 0
  if lines.length * w > h.len then (s, .ok 8) else
  match s.liveAlloc (some e) with
  | .error _ => (s, .ok 1)
  | .ok a =>
    let byte (o : Nat) : Byte := (s.spad a.core).byte (a.base + h.base + swizzle t.swz w o)
    let ws := (lines.zipIdx).flatMap fun l =>
      let n := leNat ((List.range w).map fun i => byte (l.2 * w + i))
      (List.range t.e0).flatMap fun i =>
        let e := tileElem t r.coord l.1.1 l.1.2 i
        ten.writes e (n / 2 ^ (i * ten.bits) % 2 ^ ten.bits) ++ ten.padWrites e
    if ten.sp && !ws.isEmpty && s.goneSince r.tenEnd then
      (s.modCore ((r.tenEnd.map (·.core)).getD r.core) fun c => c.addStale ((ws.map (·.addr / 256)).eraseDups.length), .ok 1)
    else
    match s.engWrite r.acc ten ws with
    | (s, .error er) => if er.1.cause == .pageNotPresent then (s, .error er) else (s, .ok (copyCode er.1.cause))
    | (s, .ok _) => (s, .ok 0)

/-- The copy moves its bytes: a code for each end, or the page that is absent (R162). -/
def State.moveCopy (s : State) (r : CopyRec) : State × Except EngErr (List (Nat × Nat)) :=
  let t := tmplOf r.tmpl
  let ten := tenOf r.ten
  match allSteps (fun s e =>
      match if t.out then s.drainHandle r t ten e else if t.vat ≠ 0 then s.vatCopy r t ten e else s.fillEnd r t ten e with
      | (s, .error er) => (s, .error er)
      | (s, .ok c) => (s, .ok (e.core, c))) s r.ends with
  | (s, .error er) => (s, .error er)
  | (s, .ok cs) => (s, .ok cs)

/-- A copy that decodes a stream (R258). -/
def CopyRec.decodes (r : CopyRec) : Bool := r.accepted && r.status.isNone && (tmplOf r.tmpl).vat != 0

/-- The copy at the head of a channel has accesses to global memory under way. -/
def CopyRec.reaches (r : CopyRec) : Bool := r.accepted && r.status.isNone && r.held.isNone && !(tenOf r.ten).sp

/-- The head of a channel whose copy is to be made: accepted, not held, its time come, with a decompression stream where it needs one. -/
def State.copyHead (s : State) (cluster ch : Nat) : Option CopyRec :=
  match s.chan cluster ch with
  | [] => none
  | r :: _ => if r.accepted && r.held.isNone && r.due ≤ s.cc && (!r.decodes || r.dec) then some r else none

/-- The streams of a cluster that decode, for copies and for storage commands. -/
def State.streams (s : State) (cluster : Nat) : Nat :=
  ((s.bte cluster).chans.flatMap fun c => c.2.filter (·.dec)).length + (s.stCmds.filter fun q => q.dec && clusterOf q.core == cluster).length

/-- A free stream goes to the copy at the head of a channel. -/
def State.giveCopy (s : State) (cluster ch : Nat) : State :=
  match s.chan cluster ch with
  | r :: t => if r.decodes && !r.dec && r.held.isNone && s.streams cluster < 2 then s.setChan cluster ch ({ r with dec := true } :: t) else s
  | [] => s

/-- A free stream goes to a storage command. -/
def State.giveStorage (s : State) (q : StCmd) : State :=
  if q.vat.isSome && q.early.isNone && !q.dec && q.held.isNone && s.streams (clusterOf q.core) < 2 then
    { s with stCmds := s.stCmds.map fun r => if r.id = q.id then { r with dec := true } else r }
  else s

/-- At most two streams decode at once in a cluster (R258). DESIGN CHOICE (log 85): a free one goes to the lowest channel whose head waits for
it, then to the oldest storage command. -/
def State.giveStreams (s : State) : State :=
  let s := s.clusters.foldl (fun s p => p.2.bte.chans.foldl (fun s c => s.giveCopy p.1 c.1) s) s
  s.stCmds.foldl State.giveStorage s

/-- The copy at the head of a channel completes, unless a page is absent. A handle whose workgroup has ended since is left alone (R164). -/
def State.completeCopy (s : State) (cluster ch : Nat) : State :=
  match s.copyHead cluster ch with
  | none => s
  | some r =>
    let out := (tmplOf r.tmpl).out
    let fin (s : State) (codes : List (Nat × Nat)) (code : Nat) : State :=
      (s.setChan cluster ch ((s.chan cluster ch).drop 1)).endCopy r ch code codes out
    match r.status with
    | some c =>
      let mine := r.ends.filterMap fun e => if e.code.isNone && s.bound r e then some (e.core, c) else none
      if r.ends.all (·.code.isSome) then (fin s [] c).modHandle r.core r.handle fun h => { h with last := c } else fin s mine c
    | none => match s.moveCopy r with
      | (s, .error _) => s
      | (s, .ok cs) =>
        let mine := (r.ends.zip cs).filterMap fun p => if p.1.code.isNone && s.bound r p.1 then some p.2 else none
        fin s mine (match cs.find? (fun c => c.2 != 0) with
          | some c => c.2
          | none => 0)

/-- The copy at the head of a channel meets a page that is not present: a fault record, and the channel holds it (R162, R306). -/
def State.faultCopy (s : State) (cluster ch : Nat) : State :=
  match s.copyHead cluster ch with
  | none => s
  | some r =>
    if r.status.isSome then s else
    match s.moveCopy r with
    | (s', .error (e, va)) =>
      let f : FaultInfo := { kind := 2, lane := 0, pc := r.pc, va := va, lanes := 0, acc := if (tmplOf r.tmpl).out then .write else .read,
                             reason := e.reason, level := e.level, unit := 0, chan := ch }
      let (tag, s') := s'.postFault r.poster r.core f
      s'.setChan cluster ch ({ r with held := some tag, dec := false } :: (s'.chan cluster ch).drop 1)
    | _ => s

-- `cpy`, `cpy.mc`

/-- A copy before its acceptance. -/
def CopyRec.start (id core : Nat) (pc : Pc) (wg : Nat) (space : Space) (tmpl handle : Nat) (coord : Dword) (mc : Option Word) (op : Option Nat) (lane : Nat)
    (poster : Poster) : CopyRec :=
  { id := id, core := core, gid := poster.gid, ctx := poster.ctx, wg := wg, pc := pc, space := space, tmplNo := tmpl, handle := handle, coord := coord,
    mc := mc, op := op, lane := lane, accepted := false, tmpl := [], ten := [], ends := [], tenEnd := none, issued := 0, status := none,
    held := none, due := 0, since := none, dec := false, poster := poster }

/-- The lanes' copies are sent in ascending LANE order; while some have no place in the replay window of their channel the run waits
(R160, R290). -/
def X.copy (x : X) (i : Instr) (c : CopyArg) (mc : Bool) : State := x.unlessEmpty fun x =>
  let ch := c.chan.toNat
  if x.resume.isSome then (if x.s.copyWindow x.core ch > windowSize then x.s else x.done) else
  let vals (l : Nat) : List Dword := [x.g.rd64 l c.a, match c.b with
    | some r => (x.g.rd32 l r).zeroExtend 64
    | none => 0]
  let x := x.uniformU vals
  if x.s.copyWindow x.core ch ≥ windowSize then x.retryLater (.window (chanKey ch)) else
  let (x', id) := x.launchOp (copyOp x.gid x.pc x.u x.lanes c.d x.acting 2) ((useOpt c.d 1).flatMap RegUse.codes) none
  let one (s : State) (l : Nat) : State :=
    let (n, s) := s.newSerial
    s.sendCopy ch (.start n x.core x.pc x.g.info.wg (s.gspace x.g) c.tmpl.toNat c.handle.toNat (x.g.rd64 l c.a)
      (if mc then (some (match c.b with
        | some r => x.g.rd32 l r
        | none => 0)) else none) (some id) l (x.g.poster x.gid))
  let y := x'.sync fun s => x.acting.foldl one s
  if y.s.copyWindow x.core ch > windowSize then y.wait (Wait.of (.window (chanKey ch)) (some i) x.lanes) else y.done

def execCpy (h : Hdr) (c : CopyArg) (s : State) : Host.Outcome State Fault Refusal := s.withIssue (.cpy h c) h fun x => x.copy (.cpy h c) c false

def execCpyMc (h : Hdr) (c : CopyArg) (s : State) : Host.Outcome State Fault Refusal := s.withIssue (.cpyMc h c) h fun x => x.copy (.cpyMc h c) c true

/-- A copy started by a store to the aperture (R161, R256): the head of the core's device path. It outlives the group that stored. -/
def State.apertureCopy (s : State) (core ch : Nat) (data : Dword) : State :=
  match (s.core core).dev with
  | [] => s
  | d :: t =>
    if apertureStart d ≠ some ch || d.data ≠ data then s else
    let s := s.modCore core fun c => { c with dev := t }
    let (n, s) := s.newSerial
    s.sendCopy ch (.start n core d.pc d.wg d.space (Dword.field data 0 8) (Dword.field data 8 8) (data >>> 16) none d.copy d.lane d.poster)

-- Handle instructions (R165, R166)

/-- A once-acting instruction: operands of the lowest lane, a mismatch noted (R32, R179). -/
def X.once (x : X) (vals : Nat → List Dword) : X := { x.uniform vals with u := true }

/-- The release part is made first; then `body` (R158). -/
def X.afterRel (x : X) (i : Instr) (scope : Scope) (body : X → Wait → State) : State :=
  let (x, w) := match x.resume with
    | some w => (x, w)
    | none =>
      let (x, r) := x.release scope
      (x, { Wait.of .release (some i) x.lanes with rel := r })
  if w.over_ x.s then body x w else x.wait w

def execHsetBind (h : Hdr) (n : BitVec 6) (e : BitVec 8) (a b : Reg) (s : State) : Host.Outcome State Fault Refusal :=
  s.withIssue (.hsetBind h n e a b) h fun x => x.unlessEmpty fun x =>
    let x := x.once fun l => [(x.g.rd32 l a).zeroExtend 64, (x.g.rd32 l b).zeroExtend 64]
    let off := (x.g.rd32 x.low a).toNat
    let len := (x.g.rd32 x.low b).toNat
    let addr := BitVec.ofNat 64 off
    match (x.s.wgs.find x.g.info.wg).bind fun w => (x.s.allocs.find w.alloc).map fun al => (w, al) with
    | none => x.trap .permission x.lanes addr
    | some (w, al) =>
      if off % 16 ≠ 0 || len % 16 ≠ 0 then x.trap .misaligned x.lanes addr
      else if len < 16 || off + len > al.size then x.trap .permission x.lanes addr
      else
        let hd := x.s.handle x.core n.toNat
        let waits := match hd.st with
          | .filling | .draining => true
          | .error => !hd.idle
          | _ => false
        if waits then x.wait (x.resume.getD (Wait.of .handle (some (.hsetBind h n e a b)) x.lanes))
        else
          (x.modS fun s => s.modHandle x.core n.toNat fun hd =>
            { hd.toEmpty with alloc := w.alloc, gen := al.gen, base := off, len := len, expect := e.toNat, last := 0, wg := x.g.info.wg }).done

def execHsetFull (h : Hdr) (n : BitVec 6) (s : State) : Host.Outcome State Fault Refusal :=
  s.withIssue (.hsetFull h n) h fun x => x.unlessEmpty fun x => x.afterRel (.hsetFull h n) .wg fun x _ =>
    (x.modS fun s => s.modHandle x.core n.toNat fun hd =>
      match hd.st with
      | .empty => { hd with st := .full }
      | _ => hd.refuse).done

def execHrel (h : Hdr) (n : BitVec 6) (s : State) : Host.Outcome State Fault Refusal :=
  s.withIssue (.hrel h n) h fun x => x.unlessEmpty fun x => x.afterRel (.hrel h n) .wg fun x _ =>
    (x.modS fun s => s.modHandle x.core n.toNat fun hd =>
      match hd.st with
      | .unbound | .empty => hd
      | .full => hd.toEmpty
      | .error => if hd.idle then hd.toEmpty else hd.refuse
      | _ => hd.refuse).done

def X.hwait (x : X) (i : Instr) (n : BitVec 6) (d : Reg) (ok : HState → Bool) : State := x.unlessEmpty fun x =>
  let hd := x.s.handle x.core n.toNat
  if ok hd.st then (x.putAll 1 d (hd.word.zeroExtend 128)).done else x.wait (x.resume.getD (Wait.of .handle (some i) x.lanes))

def execHwaitFull (h : Hdr) (d : Reg) (n : BitVec 6) (s : State) : Host.Outcome State Fault Refusal :=
  s.withIssue (.hwaitFull h d n) h fun x => x.hwait (.hwaitFull h d n) n d fun st => st == .full || st == .error

def execHwaitEmpty (h : Hdr) (d : Reg) (n : BitVec 6) (s : State) : Host.Outcome State Fault Refusal :=
  s.withIssue (.hwaitEmpty h d n) h fun x => x.hwait (.hwaitEmpty h d n) n d fun st => st == .empty || st == .unbound || st == .error

-- Tensor identifiers (R168)

/-- Bytes read through the core's L1: missing sectors are filled first (R224). -/
def State.nearRead (s : State) (core key pa n : Nat) : State × List Byte :=
  let c := s.core core
  if c.l1Holds pa key n then (s, c.l1Read pa key n) else
  let lo := sectorOf pa
  let (bs, s) := s.homeRead key lo (sectorOf (pa + n + 31) - lo)
  let s := s.modCore core fun c => c.l1Fill key lo bs
  (s, (s.core core).l1Read pa key n)

/-- The 128-byte access of `tset` and `tget`: checks of R147, then `body` with the place. -/
def X.tensorAccess (x : X) (a : Reg) (acc : Access) (body : X → Nat → Nat → State) : State := x.unlessEmpty fun x =>
  let x := x.once fun l => [x.g.rd64 l a]
  let va := (x.g.rd64 x.low a).toNat
  let (x, c) := x.checkGlobal acc .normal 128 128 x.low va
  let c := if c.err.isSome then c
    else if c.acc.pa ≥ hbmSize then { c with err := some (errOf .busError) }
    else if acc == .read && x.s.msys.bad c.acc.pa 128 then { c with err := some (errOf .eccUncorrectable) }
    else c
  match c.err with
  | none => body x c.acc.pa c.acc.key
  | some _ => x.memOutcome false acc [c] (fun x _ => x) X.advance

def execTset (h : Hdr) (t : BitVec 8) (a : Reg) (s : State) : Host.Outcome State Fault Refusal :=
  s.withIssue (.tset h t a) h fun x => x.tensorAccess a .read fun x pa key =>
    let (s, bs) := x.s.nearRead x.core key pa 128
    if !(tenOf bs).valid || tenChecks bs then { x with s := s.setTen x.g.info.ctx (clusterOf x.core) t.toNat (tenStored bs) }.done
    else { x with s := s }.trap .operandEncoding x.lanes (x.g.rd64 x.low a)

def execTget (h : Hdr) (t : BitVec 8) (a : Reg) (s : State) : Host.Outcome State Fault Refusal :=
  s.withIssue (.tget h t a) h fun x => x.tensorAccess a .write fun x pa key =>
    (x.modS fun s => s.modCore x.core fun c => c.l1Write key true pa (s.tenRec x.g.info.ctx (clusterOf x.core) t.toNat)).done

def execTinv (h : Hdr) (t : BitVec 8) (s : State) : Host.Outcome State Fault Refusal :=
  s.withIssue (.tinv h t) h fun x => x.unlessEmpty fun x =>
    (x.modS fun s => s.setTen x.g.info.ctx (clusterOf x.core) t.toNat (List.replicate 128 0)).done

-- Events

/-- R159, R160. -/
def execCopyComplete (cluster chan : Nat) (s : State) : Host.Outcome State Fault Refusal := .next (s.completeCopy cluster chan)

/-- R162, R306. -/
def execCopyPageFault (cluster chan : Nat) (s : State) : Host.Outcome State Fault Refusal := .next (s.faultCopy cluster chan)

/-- R161, R256. -/
def execApertureCopyStart (core chan : Nat) (data : Dword) (s : State) : Host.Outcome State Fault Refusal := .next (s.apertureCopy core chan data)

end Sys2Proof.Machine
end

