-- ==== Sys2Proof/Machine/Barrier.lean ====
section
/-! DEFINITION. Group reconvergence and barriers (R181 to R187, R266), with their events. -/

namespace Sys2Proof.Machine

-- `bar.g` (R181)

def isBarG : Instr → Bool
  | .barG _ => true
  | _ => false

def Run.atBarG (r : Run) : Bool :=
  match r.st with
  | .waiting w => match w.ins with
    | some i => isBarG i
    | none => false
  | _ => false

/-- Every live lane waits at some `bar.g`: all go on. -/
def Group.barGDone (g : Group) : Group :=
  if g.runs.all Run.atBarG then g.runs.foldl (fun g r => g.wake r.lanes (pcAdd r.pc 8)) g else g

def execBarG (h : Hdr) (s : State) : Host.Outcome State Fault Refusal :=
  s.withIssue (.barG h) h fun x => x.unlessEmpty fun x =>
    let g := x.g.goto (x.m &&& ~~~x.lanes) x.next
    let g := g.hold x.lanes x.pc (.waiting (x.resume.getD (Wait.of .barrier (some (.barG h)) x.lanes)))
    x.s.setGroup x.gid g.barGDone

-- Barriers (R182, R184)

/-- The barrier that a name means for a group, with the launch it belongs to. -/
def State.barOf (s : State) (g : Group) (lvl id : Nat) : Option (Nat × Nat) :=
  match s.wgs.find g.info.wg with
  | none => none
  | some w => some (barKey (match lvl with
    | 0 => g.info.wg
    | 1 => w.team
    | _ => w.launch) lvl id, w.launch)

/-- arr(g), with the arrivals that are on their way (R184). -/
def Barrier.count (b : Barrier) (g : Nat) : Nat := b.arr.get 0 g + b.sent.get 0 g

/-- Check of R184, if one is due: a phase that completes becomes visible in cycle `cc`. The arrivals that members have left over are checked
in a later cycle. -/
def Barrier.check (b : Barrier) (cc : Nat) : Barrier :=
  if !b.due then b
  else if b.members.all fun g => b.arrOf g ≥ 1 then
    { b with ph := b.ph + 1, arr := b.members.foldl (fun a g => a.put 0 g (a.get 0 g - 1)) b.arr, due := !b.members.isEmpty, last := cc }
  else { b with due := false }

/-- The end of a cycle: Check runs where it is due, and its phases are visible from cycle `cc` on (R184, R266). -/
def State.checkBars (s : State) (cc : Nat) : State :=
  if s.bars.all fun p => !p.2.due then s else { s with bars := s.bars.map fun p => (p.1, p.2.check cc) }

/-- Done of R184. -/
def barDone (ph tok : Word) : Bool := decide ((ph - tok - 1).toNat < 2 ^ 31)

/-- An arrival is counted; Check comes when all of its cycle are (R184). -/
def Barrier.land (b : Barrier) (g : Nat) : Barrier := { b with arr := b.arr.put 0 g (b.arr.get 0 g + 1), due := true }

/-- Arrive of R184 for a member that may arrive: the token. Arrivals at GB and XB barriers travel (R266). -/
def State.arrive (s : State) (key lch lvl id gid : Nat) : State × Word :=
  let b := s.bar key
  let tok := b.ph + BitVec.ofNat 32 (b.count gid)
  if lvl < 2 then (s.setBar key (b.land gid), tok)
  else
    let s := s.setBar key { b with sent := b.sent.put 0 gid (b.sent.get 0 gid + 1) }
    if lvl = 2 then (s.schedule (s.cc + 48) (.gridBarrierArrival lch id gid), tok)
    else
      let (lat, s) := s.freeLat
      let s := s.schedule (s.cc + lat) (.gangBarrierMessage lch id (some gid))
      (((s.launches.find lch).bind (·.gang)).elim s fun g => s.tellGang g (.arrival id gid), tok)

/-- An arrival that travelled lands. -/
def State.landArrival (s : State) (key gid : Nat) : State :=
  let b := s.bar key
  if b.sent.get 0 gid = 0 then s else s.setBar key ({ b with sent := b.sent.put 0 gid (b.sent.get 0 gid - 1) }.land gid)

/-- A member leaves its barriers, and Check runs (R185). -/
def Barrier.drop (b : Barrier) (gid : Nat) : Barrier :=
  if b.members.contains gid then { b with members := b.members.erase gid, arr := b.arr.del gid, sent := b.sent.del gid, due := true } else b

def State.leaveBars (s : State) (gid : Nat) : State := { s with bars := s.bars.map fun p => (p.1, p.2.drop gid) }

/-- The scope of a level (R182). -/
def barScope : Nat → Scope
  | 0 => .wg
  | 1 => .cl
  | 2 => .dev
  | _ => .sys

/-- The end of a wait is an acquire (R186). -/
def X.barEnd (x : X) (lvl : Nat) : State := (x.modS fun s => s.acquireAt x.core (barScope lvl)).done

/-- The time limit of the run's wait is a cause that is still to be taken (R295). -/
def X.limitDue (x : X) : Bool := x.resume.isSome && x.g.pend.any fun p => p.isLimit && p.run == some x.m

/-- A wait on a token; one whose limit has passed lasts until that cause is taken, whose return resumes it (R187, R295). DEDUCED (log 95). -/
def X.barAwait (x : X) (i : Instr) (key lvl : Nat) (tok : Word) : State :=
  if barDone (x.s.bar key).ph tok && !x.limitDue then x.barEnd lvl
  else x.wait { x.resume.getD (Wait.of .barrier (some i) x.lanes) with why := .barrier, tok := some tok, rel := none }

/-- A member arrives, after the release of R186; then `fin` with the token. -/
def X.barArrive (x : X) (i : Instr) (lvl id : Nat) (fin : X → Nat → Word → State) : State :=
  match x.s.barOf x.g lvl id with
  | none => x.trap .permission x.lanes 0
  | some (key, lch) =>
    if !(x.s.bar key).members.contains x.gid then x.trap .permission x.lanes 0 else
    x.afterRel i (barScope lvl) fun x w =>
      if (x.s.bar key).count x.gid ≥ 2 then x.wait { w with why := .barrier }
      else
        let (s, tok) := x.s.arrive key lch lvl id x.gid
        fin { x with s := s } key tok

def execBarArr (h : Hdr) (lvl : BitVec 2) (id : BitVec 6) (d : Option Reg) (s : State) : Host.Outcome State Fault Refusal :=
  s.withIssue (.barArr h lvl id d) h fun x => x.unlessEmpty fun x =>
    x.barArrive (.barArr h lvl id d) lvl.toNat id.toNat fun x _ tok =>
      (match d with
        | some r => x.putAll 1 r (tok.zeroExtend 128)
        | none => x).done

/-- DESIGN CHOICE (log 75): a group without a workgroup, for which the name means no barrier, traps PERMISSION as in Arrive. -/
def execBarWait (h : Hdr) (lvl : BitVec 2) (id : BitVec 6) (a : Reg) (s : State) : Host.Outcome State Fault Refusal :=
  s.withIssue (.barWait h lvl id a) h fun x => x.unlessEmpty fun x =>
    let x := x.once fun l => [(x.g.rd32 l a).zeroExtend 64]
    match x.s.barOf x.g lvl.toNat id.toNat with
    | none => x.trap .permission x.lanes 0
    | some (key, _) => x.barAwait (.barWait h lvl id a) key lvl.toNat (match x.resume.bind (·.tok) with
      | some t => t
      | none => x.g.rd32 x.low a)

def execBarSync (h : Hdr) (lvl : BitVec 2) (id : BitVec 6) (s : State) : Host.Outcome State Fault Refusal :=
  s.withIssue (.barSync h lvl id) h fun x => x.unlessEmpty fun x =>
    let i := Instr.barSync h lvl id
    match x.resume.bind (·.tok), x.s.barOf x.g lvl.toNat id.toNat with
    | some t, some (key, _) => x.barAwait i key lvl.toNat t
    | _, _ => x.barArrive i lvl.toNat id.toNat fun x key tok => x.barAwait i key lvl.toNat tok

-- Events

def isGridArrival (lch bar : Nat) : Instr → Bool
  | .gridBarrierArrival l b _ => l == lch && b == bar
  | _ => false

/-- Another arrival at a grid barrier takes effect in this cycle. -/
def State.gridComes (s : State) (lch bar : Nat) : Bool := s.events.any fun e => decide (e.1 ≤ s.cc) && isGridArrival lch bar e.2

/-- R184, R263: the arrival is counted; after the last of its cycle Check runs, unless the barrier has completed a phase in it. -/
def execGridBarrierArrival (lch bar gid : Nat) (s : State) : Host.Outcome State Fault Refusal :=
  let key := barKey lch 2 bar
  let s := s.landArrival key gid
  .next (if s.gridComes lch bar || (s.bar key).last = s.cc then s else s.setBar key ((s.bar key).check s.cc))

/-- A remote member device of a gang barrier, as a member. DEDUCED (log 18): the groups of another device count as one member here. -/
def remoteMember (dev : Nat) : Nat := 2 ^ 40 + dev

/-- A gang message reaches an XB barrier: an arrival, or (none) that every other device has arrived (R184, R266). -/
def execGangBarrierMessage (lch bar : Nat) (arrival : Option Nat) (s : State) : Host.Outcome State Fault Refusal :=
  let key := barKey lch 3 bar
  let b := s.bar key
  .next <|
    match arrival with
    | some gid =>
      if gid ≥ 2 ^ 40 then
        (if b.members.contains gid && decide (b.arrOf gid < 2) then s.setBar key (b.land gid) else s)
      else s.landArrival key gid
    | none =>
      let far := b.members.filter fun g => g ≥ 2 ^ 40 && b.arrOf g < 2
      if far.isEmpty then s else
      s.setBar key ({ b with arr := far.foldl (fun a g => a.put 0 g (a.get 0 g + 1)) b.arr, due := true })

/-- The limit of a barrier wait, in ns: SYS.BARLIM, or 1,000 µs for an incomplete gang; 0: none (R187, R287). -/
def State.barLimit (s : State) (g : Group) (lvl : Nat) : Nat × Bool :=
  let lim := (s.ctx g.info.ctx).barlim.toNat
  let inc := lvl == 3 && match (s.wgs.find g.info.wg).bind fun w => s.launches.find w.launch with
    | some l => match l.gang with
      | some k => k.incomplete
      | none => false
    | none => false
  ((if lim = 0 && inc then 1000 else lim) * 1000, inc)

/-- The token that a wait is on. DESIGN CHOICE (log 80): for a `bar.sync` that has still to arrive, the one it would receive. -/
def State.barToken (s : State) (gid : Nat) (g : Group) (w : Wait) (lvl id : Nat) : Word :=
  match w.tok with
  | some t => t
  | none => match s.barOf g lvl id with
    | some (key, _) => (s.bar key).ph + BitVec.ofNat 32 ((s.bar key).count gid)
    | none => 0

/-- A wait that has lasted longer than its limit: the cause, and SYS.TRAPADDR (R187). -/
def State.barLate (s : State) (gid : Nat) (g : Group) (w : Wait) : Option (Cause × Dword) :=
  match w.atBar with
  | some (lvl, id) =>
    let (lim, inc) := s.barLimit g lvl
    if lim ≠ 0 && w.waited > lim then
      some (if inc then .gangIncomplete else .barrierTimeout, s.barToken gid g w lvl id ++ BitVec.ofNat 32 (lvl * 256 + id))
    else none
  | none => none

/-- A wait that is too late traps; while a handler runs, or another cause is to be taken before the group's next issue, it stays
pending (R295). -/
def execBarrierTimeout (gid : Nat) (lanes : Lanes) (s : State) : Host.Outcome State Fault Refusal :=
  .next <|
    match s.group? gid with
    | none => s
    | some g =>
      match g.barWaitOf lanes with
      | none => s
      | some (pc, w) =>
        match s.barLate gid g w with
        | none => s
        | some (c, addr) =>
          let same (p : PendTrap) : Bool := p.run == some lanes && p.isLimit
          if g.sys.intrap || (g.pick.isSome && g.nextPend.any fun p => !p.isLimit) then
            (if g.pend.any same then s
             else s.pendTrap gid
               { cause := c, mask := lanes, pc := some pc, npc := some pc, addr := addr, inTrap := false, run := some lanes, other := false })
          else
            (s.modGroup gid fun g => { g with pend := g.pend.filter fun p => !same p, sys := { g.sys with saved := some (pc, w) } }).takeTrap gid
              { cause := c, other := false, mask := lanes, pc := pc, npc := pc, addr := addr, run := lanes }

end Sys2Proof.Machine
end

