-- ==== Sys2Proof/Machine/Float.lean ====
section
/-! DEFINITION. Floating point (R127 to R134). -/

namespace Sys2Proof.Machine

/-- FTZ of SYS.FPCTL (R43). -/
def Group.ftz (g : Group) : Bool := g.sys.fpctl.getLsbD 5

def X.env (x : X) (rnd : Rnd) (lane : Nat) : FpEnv := { ftz := x.g.ftz, rnd := rnd, lane := x.srcLane lane, pc := x.pc }

/-- Each element of an FP TYPE on its own (R128). -/
def X.fp (x : X) (sp : ArithSpec) (a : Arith) (f : Fmt → FpEnv → Nat → Nat → Nat → Nat × Fl) : State :=
  let (fm, n) := fpShape a.ty
  x.arith sp a 6 0 fun l u v w =>
    Res.of (packed fm.w n fun i => f fm (x.env a.rnd l) (elem fm.w i u.toNat) (elem fm.w i v.toNat) (elem fm.w i w.toNat))

def execFadd (h : Hdr) (a : Arith) (s : State) : Host.Outcome State Fault Refusal :=
  s.withIssue (.fadd h a) h fun x => x.fp specFadd a fun fm v p q _ => fm.add v p q

def execFsub (h : Hdr) (a : Arith) (s : State) : Host.Outcome State Fault Refusal :=
  s.withIssue (.fsub h a) h fun x => x.fp specFadd a fun fm v p q _ => fm.sub v p q

def execFmul (h : Hdr) (a : Arith) (s : State) : Host.Outcome State Fault Refusal :=
  s.withIssue (.fmul h a) h fun x => x.fp specFadd a fun fm v p q _ => fm.mul v p q

def execFfma (h : Hdr) (a : Arith) (s : State) : Host.Outcome State Fault Refusal :=
  s.withIssue (.ffma h a) h fun x => x.fp specFfma a fun fm v p q r => fm.fma v p q r

/-- R129. -/
def execFmin (h : Hdr) (a : Arith) (s : State) : Host.Outcome State Fault Refusal :=
  s.withIssue (.fmin h a) h fun x => x.fp specFmin a fun fm v p q _ => fm.minMax v false p q

def execFmax (h : Hdr) (a : Arith) (s : State) : Host.Outcome State Fault Refusal :=
  s.withIssue (.fmax h a) h fun x => x.fp specFmin a fun fm v p q _ => fm.minMax v true p q

/-- R130. -/
def execFabs (h : Hdr) (a : Arith) (s : State) : Host.Outcome State Fault Refusal :=
  s.withIssue (.fabs h a) h fun x => x.fp specFabs a fun fm v p _ _ => fm.signOp v false p

def execFneg (h : Hdr) (a : Arith) (s : State) : Host.Outcome State Fault Refusal :=
  s.withIssue (.fneg h a) h fun x => x.fp specFabs a fun fm v p _ _ => fm.signOp v true p

/-- R131. -/
def execFcmp (h : Hdr) (a : Arith) (s : State) : Host.Outcome State Fault Refusal :=
  s.withIssue (.fcmp h a) h fun x =>
    let (fm, _) := fpShape a.ty
    x.arith specFcmp a 6 0 fun _ u v _ =>
      let r := fm.cmp x.g.ftz a.sub.toNat (elem fm.w 0 u.toNat) (elem fm.w 0 v.toNat)
      { val := if r.1 then 1 else 0, fl := r.2 }

/-- R132. -/
def execFclass (h : Hdr) (a : Arith) (s : State) : Host.Outcome State Fault Refusal :=
  s.withIssue (.fclass h a) h fun x =>
    let (fm, _) := fpShape a.ty
    x.arith specFclass a 6 0 fun _ u _ _ => Res.ofNat (fm.classOf (elem fm.w 0 u.toNat))

/-- R133, R134: the functions of one FP32 operand; the free value of an operand is Config's. -/
def X.approxOp (x : X) (a : Arith) (lat : Nat) (free : Word → Word) (f : FpEnv → Word → Nat → Nat × Fl) : State :=
  x.arith specFrcp a lat 0 fun l u _ _ =>
    let p := fmt32.flush x.g.ftz (u.toNat % 2 ^ 32)
    Res.of (f (x.env .rne l) (free (BitVec.ofNat 32 p)) p)

def execFrcp (h : Hdr) (a : Arith) (s : State) : Host.Outcome State Fault Refusal :=
  s.withIssue (.frcp h a) h fun x => x.approxOp a 18 Sys2Proof.Config.frcpFree frcpVal

def execFrsq (h : Hdr) (a : Arith) (s : State) : Host.Outcome State Fault Refusal :=
  s.withIssue (.frsq h a) h fun x => x.approxOp a 18 Sys2Proof.Config.frsqFree frsqVal

def execFex2 (h : Hdr) (a : Arith) (s : State) : Host.Outcome State Fault Refusal :=
  s.withIssue (.fex2 h a) h fun x => x.approxOp a 18 Sys2Proof.Config.fex2Free fex2Val

def execFlg2 (h : Hdr) (a : Arith) (s : State) : Host.Outcome State Fault Refusal :=
  s.withIssue (.flg2 h a) h fun x => x.approxOp a 18 Sys2Proof.Config.flg2Free flg2Val

def execFsin (h : Hdr) (a : Arith) (s : State) : Host.Outcome State Fault Refusal :=
  s.withIssue (.fsin h a) h fun x => x.approxOp a 24 Sys2Proof.Config.fsinFree (trigVal false)

def execFcos (h : Hdr) (a : Arith) (s : State) : Host.Outcome State Fault Refusal :=
  s.withIssue (.fcos h a) h fun x => x.approxOp a 24 Sys2Proof.Config.fcosFree (trigVal true)

end Sys2Proof.Machine
end

