-- ==== Sys2Proof/Machine/Convert.lean ====
section
/-! DEFINITION. Conversions (R135 to R137) and cross-lane operations (R138 to R143). -/

namespace Sys2Proof.Machine

-- Conversions

/-- Width of one element of a `cvt` type. -/
def cvtWidth : Ty → Nat
  | .f32 => 32
  | .f16 | .bf16 => 16
  | t => (intShape t).2.1

/-- One value between two types of R135 (R50), as an element of the destination type. -/
def cvtVal (v : FpEnv) (d s : Ty) (x : Nat) : Nat × Fl :=
  let (ds, dw, _) := intShape d
  let (ss, sw, _) := intShape s
  match d.isFp, s.isFp with
  | true, true => cvtFpFp (fpShape s).1 (fpShape d).1 v x
  | true, false => cvtIntFp (fpShape d).1 v (toInt ss sw x)
  | false, true => cvtFpInt (fpShape s).1 v ds dw x
  | false, false => cvtIntInt ss sw ds dw x

/-- R49, R79: the register image of a scalar result. -/
def extendTo (d : Ty) (x : Nat) : Nat :=
  let (ds, dw, _) := intShape d
  if d.isFp || dw ≥ 32 then x else wrapInt 32 (toInt ds dw x)

/-- The sources of `cvt` and `cvpk` in a lane. -/
def Cvt.vals (x : Cvt) (g : Group) (lane : Nat) : Dword × Dword :=
  let p := Pos.src x.sty.regs
  (srcVal x.dty p g lane x.a, srcVal x.dty p g lane x.b)

def X.cvtWith (x : X) (c : Cvt) (w : Nat) (f : Nat → Dword → Dword → Res) : State :=
  let x := x.uniformU fun l => let v := Cvt.vals c x.g l; [v.1, v.2]
  x.finish c.d w (fun l => let v := Cvt.vals c x.g (x.srcLane l); f l v.1 v.2) 6 0

/-- R135, R136. -/
def execCvt (h : Hdr) (c : Cvt) (s : State) : Host.Outcome State Fault Refusal :=
  s.withIssue (.cvt h c) h fun x =>
    x.cvtWith c c.dty.regs fun l u _ =>
      let r := cvtVal (x.env c.rnd l) c.dty c.sty (elem (cvtWidth c.sty) c.elem.toNat u.toNat)
      { val := BitVec.ofNat 64 (extendTo c.dty r.1), fl := r.2 }

/-- R137: the element type of a packed type. -/
def elemTy : Ty → Ty
  | .f16x2 => .f16
  | .bf16x2 => .bf16
  | .i16x2 => .i16
  | .n16x2 => .n16
  | .i8x4 => .i8
  | .n8x4 => .n8
  | t => t

def execCvpk (h : Hdr) (c : Cvt) (s : State) : Host.Outcome State Fault Refusal :=
  s.withIssue (.cvpk h c) h fun x =>
    x.cvtWith c 1 fun l u v =>
      let one (y : Nat) : Nat × Fl := cvtVal (x.env c.rnd l) (elemTy c.dty) (elemTy c.sty) y
      Res.of (if c.sty == .i16x2 then packed 8 4 fun i => one (if i < 2 then elem 16 i u.toNat else elem 16 (i - 2) v.toNat)
              else packed 16 2 fun i => one ((if i = 0 then u.toNat else v.toNat) % 2 ^ 32))

-- Cross-lane operations: every participant with its operands (R138)

/-- The operands of the participants, with U = 1 the lowest one's in each. -/
def X.cross (x : X) (sp : ArithSpec) (a : Arith) (lat : Nat) (f : X → (Nat → Dword × Dword) → Nat → Res) : State :=
  let x := x.uniformU fun l => let v := a.vals sp x.g l; [v.1, v.2.1]
  let vals (l : Nat) : Dword × Dword := let v := a.vals sp x.g (x.srcLane l); (v.1, v.2.1)
  x.finish a.d (sp.dst a.ty).width (f x vals) lat 3

/-- R139: the lane a participant reads; none when no lane has that number. -/
def shflLane (mode l b : Nat) : Option Nat :=
  match mode with
  | 0 => some b
  | 1 => if b ≤ l then some (l - b) else none
  | 2 => some (l + b)
  | _ => some (l ^^^ b)

def execShfl (h : Hdr) (a : Arith) (s : State) : Host.Outcome State Fault Refusal :=
  s.withIssue (.shfl h a) h fun x =>
    x.cross specShfl a 10 fun x vals l =>
      let src := match shflLane a.sub.toNat l ((vals l).2.toNat % 2 ^ 32) with
        | some m => if m < 64 ∧ x.lanes.getLsbD m then m else l
        | none => l
      { val := (vals src).1, fl := 0 }

/-- R140. -/
def execVote (h : Hdr) (a : Arith) (s : State) : Host.Outcome State Fault Refusal :=
  s.withIssue (.vote h a) h fun x =>
    x.cross specVote a 10 fun x vals _ =>
      let nz (l : Nat) : Bool := (vals l).1.toNat % 2 ^ 32 != 0
      let r := match a.sub.toNat with
        | 0 => x.list.any nz
        | 1 => x.list.all nz
        | _ => x.list.all fun l => (vals l).1 == (vals x.low).1
      { val := if r then 1 else 0, fl := 0 }

/-- R141. -/
def execBallot (h : Hdr) (a : Arith) (s : State) : Host.Outcome State Fault Refusal :=
  s.withIssue (.ballot h a) h fun x =>
    x.cross specBallot a 10 fun x vals _ =>
      let m := lanesOf (x.list.filter fun l => (vals l).1.toNat % 2 ^ 32 != 0)
      { val := if a.ty.is64 then m else (m.truncate 32).zeroExtend 64, fl := 0 }

/-- R142: one step of a fold of integers. -/
def redInt (op : Nat) (signed : Bool) (w : Nat) (u v : Nat) : Nat :=
  let i := toInt signed w u
  let j := toInt signed w v
  match op with
  | 0 => wrapInt w (i + j)
  | 1 => if i ≤ j then u else v
  | 2 => if i ≥ j then u else v
  | 3 => u &&& v
  | 4 => u ||| v
  | _ => u ^^^ v

/-- R142: the identity of an operation. -/
def redIdent (op : Nat) (t : Ty) : Nat :=
  let (sg, w, _) := intShape t
  match op with
  | 1 => if t == .f32 then fmt32.inf false else wrapInt w (intMax sg w)
  | 2 => if t == .f32 then fmt32.inf true else wrapInt w (intMin sg w)
  | 3 => ones w
  | _ => 0

/-- R143: the prefixes of a fold over the participants, each with its flags. -/
def foldLanes (first : Nat → Nat × Fl) (op : Nat → Nat → Nat → Nat × Fl) : List Nat → List (Nat × Nat × Fl)
  | [] => []
  | p :: ps => ((ps.foldl (fun a q =>
      let r := op q a.1 q
      (r.1, a.2 ++ [(q, r)])) ((first p).1, [(p, first p)]))).2

/-- R143: the fold of `red` and `scan` in FP32, or of exact integers. -/
def X.redFold (x : X) (a : Arith) (vals : Nat → Dword × Dword) : List (Nat × Nat × Fl) :=
  let op := a.sub.toNat % 8
  let (sg, w, _) := intShape a.ty
  let el (l : Nat) : Nat := (vals l).1.toNat % 2 ^ (if a.ty == .f32 then 32 else w)
  if a.ty == .f32 then
    foldLanes (fun p => let y := fmt32.flush x.g.ftz (el p); (fmt32.quiet y, flIf (fmt32.isSNaN y) flNV))
      (fun q acc _ => if op = 0 then fmt32.add (x.env a.rnd q) acc (el q) else fmt32.minMax (x.env a.rnd q) (op == 2) acc (el q)) x.list
  else if a.sat then
    let sums := x.list.foldl (fun (t : Int × List (Nat × Int)) q => (t.1 + toInt sg w (el q), t.2 ++ [(q, t.1 + toInt sg w (el q))])) (0, [])
    sums.2.map fun p => (p.1, narrow true sg w p.2)
  else foldLanes (fun p => (el p, 0)) (fun q acc _ => (redInt op sg w acc (el q), 0)) x.list

def prefixAt (ps : List (Nat × Nat × Fl)) (l : Nat) : Nat × Fl :=
  match ps.find? (fun p => p.1 == l) with
  | some p => p.2
  | none => (0, 0)

def unionFl (ps : List (Nat × Nat × Fl)) : Fl := ps.foldl (fun f p => f ||| p.2.2) 0

/-- R142, R143; ISAT of a saturating form only where a delivered value was clamped. -/
def execRed (h : Hdr) (a : Arith) (s : State) : Host.Outcome State Fault Refusal :=
  s.withIssue (.red h a) h fun x =>
    x.cross (specRed false) a 20 fun x vals _ =>
      let ps := x.redFold a vals
      let last := match ps.getLast? with
        | some p => p.2
        | none => (0, 0)
      { val := BitVec.ofNat 64 last.1, fl := if a.ty == .f32 then unionFl ps else last.2 }

/-- The value before a participant's: the identity for the first (R143). -/
def prefixBefore (ident : Nat) : List (Nat × Nat × Fl) → Nat → Nat × Fl
  | [], _ => (ident, 0)
  | [_], _ => (ident, 0)
  | p :: q :: t, l => if q.1 = l then p.2 else prefixBefore ident (q :: t) l

def execScan (h : Hdr) (a : Arith) (s : State) : Host.Outcome State Fault Refusal :=
  s.withIssue (.scan h a) h fun x =>
    x.cross (specRed true) a 20 fun x vals l =>
      let ps := x.redFold a vals
      let excl := a.sub.getLsbD 3
      let r := if excl then prefixBefore (redIdent (a.sub.toNat % 8) a.ty) ps l else prefixAt ps l
      { val := BitVec.ofNat 64 r.1, fl := if a.ty == .f32 then unionFl ps else r.2 }

end Sys2Proof.Machine
end

