-- ==== Sys2Proof/Machine/Integer.lean ====
section
/-! DEFINITION. Integer and address arithmetic (R109 to R118). -/

namespace Sys2Proof.Machine

/-- R110: each element of the TYPE on its own, from the exact integer, wrapped or saturated. -/
def intOp (t : Ty) (sat : Bool) (f : Nat → Int → Int → Int → Int) (a b c : Dword) : Res :=
  let (sg, w, n) := intShape t
  Res.of (packed w n fun i =>
    narrow sat sg w (f w (toInt sg w (elem w i a.toNat)) (toInt sg w (elem w i b.toNat)) (toInt sg w (elem w i c.toNat))))

/-- R100: the latency of a multiplication. -/
def mulLat (t : Ty) : Nat := if t.is64 then 12 else 6

def X.intArith (x : X) (sp : ArithSpec) (a : Arith) (lat : Nat) (f : Nat → Int → Int → Int → Int) : State :=
  x.arith sp a lat 0 fun _ u v w => intOp a.ty a.sat f u v w

def execIadd (h : Hdr) (a : Arith) (s : State) : Host.Outcome State Fault Refusal :=
  s.withIssue (.iadd h a) h fun x => x.intArith specIadd a 4 fun _ u v _ => u + v

def execIsub (h : Hdr) (a : Arith) (s : State) : Host.Outcome State Fault Refusal :=
  s.withIssue (.isub h a) h fun x => x.intArith specIadd a 4 fun _ u v _ => u - v

def execImul (h : Hdr) (a : Arith) (s : State) : Host.Outcome State Fault Refusal :=
  s.withIssue (.imul h a) h fun x => x.intArith specImul a (mulLat a.ty) fun _ u v _ => u * v

def execImulhi (h : Hdr) (a : Arith) (s : State) : Host.Outcome State Fault Refusal :=
  s.withIssue (.imulhi h a) h fun x => x.intArith specImulhi a (mulLat a.ty) fun w u v _ => Int.fdiv (u * v) (2 ^ w)

def execImad (h : Hdr) (a : Arith) (s : State) : Host.Outcome State Fault Refusal :=
  s.withIssue (.imad h a) h fun x => x.intArith specImad a (mulLat a.ty) fun _ u v w => u * v + w

def execImin (h : Hdr) (a : Arith) (s : State) : Host.Outcome State Fault Refusal :=
  s.withIssue (.imin h a) h fun x => x.intArith specImin a 4 fun _ u v _ => min u v

def execImax (h : Hdr) (a : Arith) (s : State) : Host.Outcome State Fault Refusal :=
  s.withIssue (.imax h a) h fun x => x.intArith specImin a 4 fun _ u v _ => max u v

def execIabs (h : Hdr) (a : Arith) (s : State) : Host.Outcome State Fault Refusal :=
  s.withIssue (.iabs h a) h fun x => x.intArith specIabs a 4 fun _ u _ _ => u.natAbs

def execIneg (h : Hdr) (a : Arith) (s : State) : Host.Outcome State Fault Refusal :=
  s.withIssue (.ineg h a) h fun x => x.intArith specIabs a 4 fun _ u _ _ => -u

-- Bits (R111 to R114)

/-- A function of the bits of the TYPE's width. -/
def X.bits (x : X) (sp : ArithSpec) (a : Arith) (f : Nat → Nat → Nat → Nat → Nat) : State :=
  x.arith sp a 4 0 fun _ u v w =>
    let wd := if a.ty.is64 then 64 else 32
    Res.ofNat (f wd (u.toNat % 2 ^ wd) v.toNat w.toNat % 2 ^ wd)

def execAnd (h : Hdr) (a : Arith) (s : State) : Host.Outcome State Fault Refusal :=
  s.withIssue (.and h a) h fun x => x.bits specAnd a fun _ u v _ => u &&& v

def execOr (h : Hdr) (a : Arith) (s : State) : Host.Outcome State Fault Refusal :=
  s.withIssue (.or h a) h fun x => x.bits specAnd a fun _ u v _ => u ||| v

def execXor (h : Hdr) (a : Arith) (s : State) : Host.Outcome State Fault Refusal :=
  s.withIssue (.xor h a) h fun x => x.bits specAnd a fun _ u v _ => u ^^^ v

def execNot (h : Hdr) (a : Arith) (s : State) : Host.Outcome State Fault Refusal :=
  s.withIssue (.not h a) h fun x => x.bits specNot a fun w u _ _ => ones w - u

def execAndn (h : Hdr) (a : Arith) (s : State) : Host.Outcome State Fault Refusal :=
  s.withIssue (.andn h a) h fun x => x.bits specAnd a fun w u v _ => u &&& (ones w - v % 2 ^ w)

/-- R112: each element shifted by its count: for the packed types the element of B, else B as 32 bits. -/
def X.shift (x : X) (sp : ArithSpec) (a : Arith) (f : Nat → Nat → Nat → Nat) : State :=
  let (_, w, n) := intShape a.ty
  x.arith sp a 4 0 fun _ u v _ =>
    Res.of (packed w n fun i => (f w (elem w i u.toNat) (if n = 2 then elem 16 i v.toNat else v.toNat % 2 ^ 32), 0))

def execShl (h : Hdr) (a : Arith) (s : State) : Host.Outcome State Fault Refusal :=
  s.withIssue (.shl h a) h fun x => x.shift specShl a fun w u n => if n < w then u * 2 ^ n else 0

def execShr (h : Hdr) (a : Arith) (s : State) : Host.Outcome State Fault Refusal :=
  s.withIssue (.shr h a) h fun x => x.shift specShl a fun w u n => if n < w then u / 2 ^ n else 0

def execSar (h : Hdr) (a : Arith) (s : State) : Host.Outcome State Fault Refusal :=
  s.withIssue (.sar h a) h fun x => x.shift specSar a fun w u n => wrapInt w (Int.fdiv (toInt true w u) (2 ^ min n w))

/-- R112: rotation left by n modulo w. -/
def rotl (w u n : Nat) : Nat := u * 2 ^ (n % w) % 2 ^ w + u / 2 ^ (w - n % w)

def execRol (h : Hdr) (a : Arith) (s : State) : Host.Outcome State Fault Refusal :=
  s.withIssue (.rol h a) h fun x => x.shift specRol a rotl

def execRor (h : Hdr) (a : Arith) (s : State) : Host.Outcome State Fault Refusal :=
  s.withIssue (.ror h a) h fun x => x.shift specRol a fun w u n => rotl w u (w - n % w)

/-- R113: the number of one bits below bit `w`. -/
def popcount (w u : Nat) : Nat := ((List.range w).filter u.testBit).length

def countZeros (w u : Nat) : Nat := if u = 0 then w else w - 1 - Nat.log2 u

def reverseBits (w u : Nat) : Nat := (List.range w).foldl (fun r i => if u.testBit i then r + 2 ^ (w - 1 - i) else r) 0

def execPopc (h : Hdr) (a : Arith) (s : State) : Host.Outcome State Fault Refusal :=
  s.withIssue (.popc h a) h fun x => x.bits specPopc a fun w u _ _ => popcount w u

def execClz (h : Hdr) (a : Arith) (s : State) : Host.Outcome State Fault Refusal :=
  s.withIssue (.clz h a) h fun x => x.bits specPopc a fun w u _ _ => countZeros w u

def execBrev (h : Hdr) (a : Arith) (s : State) : Host.Outcome State Fault Refusal :=
  s.withIssue (.brev h a) h fun x => x.bits specNot a fun w u _ _ => reverseBits w u

/-- R114: position and length of the field word F; none when the field is empty. -/
def fieldOf (w f : Nat) : Option (Nat × Nat) :=
  let pos := f % 256
  let len := f / 256 % 256
  if pos ≥ w || len == 0 then none else some (pos, min len (w - pos))

def bfeVal (signed : Bool) (w u f : Nat) : Nat :=
  match fieldOf w f with
  | none => 0
  | some (pos, len) => wrapInt w (toInt signed len (u / 2 ^ pos))

def bfiVal (w u v f : Nat) : Nat :=
  match fieldOf w f with
  | none => u
  | some (pos, len) => u % 2 ^ pos + v % 2 ^ len * 2 ^ pos + u / 2 ^ (pos + len) * 2 ^ (pos + len)

def execBfe (h : Hdr) (a : Arith) (s : State) : Host.Outcome State Fault Refusal :=
  s.withIssue (.bfe h a) h fun x => x.bits specBfe a fun w u v _ => bfeVal (intShape a.ty).1 w u v

def execBfi (h : Hdr) (a : Arith) (s : State) : Host.Outcome State Fault Refusal :=
  s.withIssue (.bfi h a) h fun x => x.bits specBfi a fun w u v f => bfiVal w u v f

/-- R115. -/
def execSel (h : Hdr) (a : Arith) (s : State) : Host.Outcome State Fault Refusal :=
  s.withIssue (.sel h a) h fun x => x.arith specSel a 4 0 fun _ u v w => { val := if u.truncate 32 = 0#32 then w else v, fl := 0 }

/-- R81 for integers. -/
def intCond (cond : Nat) (u v : Int) : Bool :=
  match cond with
  | 0 => u == v
  | 1 => u != v
  | 2 => decide (u < v)
  | 3 => decide (u ≤ v)
  | 4 => decide (u > v)
  | _ => decide (u ≥ v)

/-- R116. -/
def execIcmp (h : Hdr) (a : Arith) (s : State) : Host.Outcome State Fault Refusal :=
  s.withIssue (.icmp h a) h fun x =>
    let (sg, w, _) := intShape a.ty
    x.arith specIcmp a 4 0 fun _ u v _ => { val := bool64 (intCond a.sub.toNat (toInt sg w u.toNat) (toInt sg w v.toNat)), fl := 0 }

/-- R117. -/
def execLea (h : Hdr) (a : Arith) (s : State) : Host.Outcome State Fault Refusal :=
  s.withIssue (.lea h a) h fun x =>
    x.arith specLea a 4 0 fun _ u v _ =>
      let b : Word := v.truncate 32
      { val := u + (if a.ty == .i32 then b.signExtend 64 else b.zeroExtend 64) <<< a.sub.toNat, fl := 0 }

/-- R118. -/
def execMov (h : Hdr) (a : Arith) (s : State) : Host.Outcome State Fault Refusal :=
  s.withIssue (.mov h a) h fun x => x.arith specNot a 4 0 fun _ u _ _ => { val := u, fl := 0 }

end Sys2Proof.Machine
end

