-- ==== Sys2Proof/Machine/Matrix.lean ====
section
/-! DEFINITION. The matrix engines (R52 to R58, R169 to R178, R241 to R243, R260): operands, passes, drains, the
reservation table and its events. -/

namespace Sys2Proof.Machine

-- Elements as integers (R52, R54)

/-- The value of an A or B element; none: no value (TER code 0b10) or a format that is no operand. -/
def mxInt (fmt v : Nat) : Option Int :=
  match fmt with
  | 0 => some (toInt true 8 v)
  | 1 => some (toInt true 16 v)
  | 2 => match v with
    | 0 => some 0
    | 1 => some 1
    | 3 => some (-1)
    | _ => none
  | 3 => some (toInt true 4 v)
  | _ => none

/-- The digits of R54: the planes that hold a nonzero digit of a value, as bits. -/
def digitPlanes : Nat → Int → Nat
  | 0, _ => 0
  | n + 1, x => if x % 2 = 0 then 2 * digitPlanes n (x / 2) else
      let d : Int := 2 - x % 4
      1 + 2 * digitPlanes n ((x - d) / 2)

/-- Planes of a B format. -/
def planesOf : Nat → Nat
  | 2 => 1
  | 3 => 4
  | 0 => 8
  | _ => 16

/-- R55: accepted pairs of A and B formats. -/
def pairOk (a b : Nat) : Bool := (a == 0 && [2, 3, 0].contains b) || (a == 1 && [2, 0, 1].contains b)

-- Tiles (R248)

/-- The element of a tensor that a row and column of a tile stand for. -/
def mxElem (t : Ten) (coord : Dword) (rows cols row col : Nat) : List Nat :=
  let c (k : Nat) := Dword.field coord (16 * k) 16
  if t.order then [c 0 * rows + row, c 1 * cols + col, c 2, 0, 0] else [c 0 * cols + col, c 1 * rows + row, c 2, 0, 0]

/-- Origins of the tile in rows and columns. -/
def mxOrigin (t : Ten) (coord : Dword) (rows cols : Nat) : Nat × Nat :=
  let c (k : Nat) := Dword.field coord (16 * k) 16
  if t.order then (c 0 * rows, c 1 * cols) else (c 1 * rows, c 0 * cols)

/-- An operand byte: in a scratchpad its granule must carry the tensor's tag (R178). -/
def State.mxByte (s : State) (a : EngAcc) (t : Ten) (o : Nat) : State × Except EngErr Byte :=
  match s.engByte a t.sp (t.at_ o) with
  | (s, .error e) => (s, .error e)
  | (s, .ok b) =>
    if t.sp then
      match s.liveAlloc a.tgt with
      | .ok al => if (s.spad al.core).tagOf (al.base + t.at_ o) = t.swz then (s, .ok b) else (s, .error (errOf .swizzleMismatch, t.at_ o))
      | .error e => (s, .error (e, 0))
    else (s, .ok b)

def State.mxRead (s : State) (a : EngAcc) (t : Ten) (e : List Nat) : State × Except EngErr Int :=
  let conv (s : State) (v : Nat) : State × Except EngErr Int :=
    match mxInt t.fmt v with
    | some i => (s, .ok i)
    | none => (s, .error (errOf .operandEncoding, 0))
  if !t.inside e then conv s t.fill else
  let bit := t.bitOff e
  match allSteps (fun s o => s.mxByte a t o) s ((bitBytes bit t.bits).map (·.1)) with
  | (s, .error er) => (s, .error er)
  | (s, .ok bs) => conv s (leNat bs / 2 ^ (bit % 8) % 2 ^ t.bits)

/-- A scale: line and K-block by global index; 0x80 where they lie wholly outside the bounds (R248, R250).
DEDUCED (log 19): scales are neither swizzled nor checked for tags. -/
def State.mxScale (s : State) (a : EngAcc) (t : Ten) (lineDim kDim line blk : Nat) : State × Except EngErr Int :=
  if line ≥ t.dim lineDim || 64 * blk ≥ t.dim kDim then (s, .ok (-128)) else
  match s.engByte a t.sp (t.scaleBase + line * t.sstr + blk) with
  | (s, .error e) => (s, .error e)
  | (s, .ok b) => (s, .ok (toInt true 8 b.toNat))

def indexPairs (rows cols : Nat) : List (Nat × Nat) := (List.range rows).flatMap fun i => (List.range cols).map fun j => (i, j)

/-- Values that are not zero, keyed by `i * 512 + j`. -/
def tileMap (ps : List (Nat × Nat)) (vs : List Int) : SMap Int := (ps.zip vs).foldl (fun m p => m.put 0 (p.1.1 * 512 + p.1.2) p.2) []

-- `mxb` (R171)

/-- The B tile of an `mxb`. DESIGN CHOICE (log 74): a record that is invalid, or whose format is no B operand, records OPERAND_ENCODING. -/
def State.loadB (s : State) (a : EngAcc) (t : Ten) (coord : Dword) : State × Except EngErr BBuf :=
  if !t.valid || t.fmt > 3 then (s, .error (errOf .operandEncoding, 0)) else
  let ps := indexPairs 256 512
  match allSteps (fun s p => s.mxRead a t (mxElem t coord 256 512 p.1 p.2)) s ps with
  | (s, .error e) => (s, .error e)
  | (s, .ok vs) =>
    let b : BBuf := { loaded := true, fmt := t.fmt, scl := t.scl, vals := tileMap ps vs, scales := [] }
    if !t.scl then (s, .ok b) else
    let (k0, n0) := mxOrigin t coord 256 512
    let qs := indexPairs 4 512
    let colDim := if t.order then 1 else 0
    match allSteps (fun s p => s.mxScale a t colDim (1 - colDim) (n0 + p.2) (k0 / 64 + p.1)) s qs with
    | (s, .error e) => (s, .error e)
    | (s, .ok vs) => (s, .ok { b with scales := tileMap qs vs })

-- `mxa` (R172)

/-- A rows of a pass: their numbers, and values and scales by row. -/
structure ARows where
  rows : List Nat
  vals : SMap Int
  scales : SMap Int

/-- The A tile of a pass; a raw pass reads no scales (R58, R172). -/
def State.loadA (s : State) (raw : Bool) (a : EngAcc) (t : Ten) (coord : Dword) : State × Except EngErr ARows :=
  let ps := indexPairs 256 256
  match allSteps (fun s p => s.mxRead a t (mxElem t coord 256 256 p.1 p.2)) s ps with
  | (s, .error e) => (s, .error e)
  | (s, .ok vs) =>
    let r : ARows := { rows := List.range 256, vals := tileMap ps vs, scales := [] }
    if raw || !t.scl then (s, .ok r) else
    let (m0, k0) := mxOrigin t coord 256 256
    let qs := indexPairs 256 4
    let kDim := if t.order then 1 else 0
    match allSteps (fun s p => s.mxScale a t (1 - kDim) kDim (m0 + p.1) (k0 / 64 + p.2)) s qs with
    | (s, .error e) => (s, .error e)
    | (s, .ok vs) => (s, .ok { r with scales := tileMap qs vs })

/-- Rows from registers: lane L supplies row row0 + L (R172). -/
def Group.regA (g : Group) (rowq : Nat) (w16 : Bool) (vb : Nat) : ARows :=
  let lanes := List.range g.info.width
  let v (n lane : Nat) : Nat := (g.regs.v.get 0 (vKey (vb + n) lane)).toNat
  let elemOf (lane k : Nat) : Int := if w16 then toInt true 16 (elem 16 (k % 2) (v (k / 2) lane)) else toInt true 8 (elem 8 (k % 4) (v (k / 4) lane))
  let scaleOf (lane b : Nat) : Int := toInt true 8 (elem 8 b (v (if w16 then 128 else 64) lane))
  let row (lane : Nat) : Nat := 64 * rowq + lane
  { rows := lanes.map row
    vals := lanes.foldl (fun m l => (List.range 256).foldl (fun m k => m.put 0 (row l * 512 + k) (elemOf l k)) m) []
    scales := lanes.foldl (fun m l => (List.range 4).foldl (fun m b => m.put 0 (row l * 512 + b) (scaleOf l b)) m) [] }

/-- RoundRNE_FP32 of C + dot * 2^s, for a finite C and a dot that is not 0 (R56). -/
def mxRound (c : Nat) (dot sc : Int) : Nat :=
  match fmt32.dec c with
  | .fin n m e => (fmt32.addFin { ftz := false, rnd := .rne, lane := 0, pc := 0 } n m e (dot < 0) dot.natAbs sc).1
  | _ => c

/-- An exact dot product over 64 elements. -/
def mxDot (av bv : SMap Int) (i j b : Nat) : Int :=
  (List.range 64).foldl (fun a k => a + av.get 0 (i * 512 + 64 * b + k) * bv.get 0 ((64 * b + k) * 512 + j)) 0

/-- R56: an element over the four K-blocks; the flag is MXOF. -/
def blockElem (ra : ARows) (bb : BBuf) (i j : Nat) (c : Word) : Word × Bool :=
  (List.range 4).foldl (fun (p : Word × Bool) b =>
    let ea := ra.scales.get 0 (i * 512 + b)
    let eb := bb.scales.get 0 (b * 512 + j)
    let c := p.1.toNat
    if ea = -128 || eb = -128 then p else
    let dot := mxDot ra.vals bb.vals i j b
    if dot = 0 || fmt32.expo c == fmt32.expMax then p
    else
      let r := mxRound c dot (ea + eb)
      (BitVec.ofNat 32 r, p.2 || fmt32.expo r == fmt32.expMax)) (c, false)

def clampTo (w : Nat) (v : Int) : Int := max (intMin true w) (min (intMax true w) v)

/-- R58: an element over k ascending, clamped after each product; the flag is MXSAT. -/
def rawElem (ra : ARows) (bb : BBuf) (i j : Nat) (c : Int) : Int × Bool :=
  (List.range 256).foldl (fun (p : Int × Bool) k =>
    let t := p.1 + ra.vals.get 0 (i * 512 + k) * bb.vals.get 0 (k * 512 + j)
    (clampTo 40 t, p.2 || clampTo 40 t != t)) (c, false)

def Mxe.bb (m : Mxe) (n : Bool) : BBuf := if n then m.bb1 else m.bb0
def Mxe.setBb (m : Mxe) (n : Bool) (b : BBuf) : Mxe := if n then { m with bb1 := b } else { m with bb0 := b }
def Mxe.ac (m : Mxe) (n : Bool) : SMap Word := if n then m.ac1 else m.ac0
def Mxe.setAc (m : Mxe) (n : Bool) (a : SMap Word) : Mxe := if n then { m with ac1 := a } else { m with ac0 := a }

/-- A pass over the accumulator: the engine, and whether a flag (MXOF, in raw mode MXSAT) is raised. -/
def Mxe.passRow (bb : BBuf) (bank : Bool) (ra : ARows) (m : Mxe × Bool) (i : Nat) : Mxe × Bool :=
  (List.range 512).foldl (fun (p : Mxe × Bool) j =>
    let k := i * 512 + j
    if p.1.raw then
      let r := rawElem ra bb i j (p.1.acRaw.get 0 k)
      ({ p.1 with acRaw := p.1.acRaw.put 0 k r.1 }, p.2 || r.2)
    else
      let r := blockElem ra bb i j ((p.1.ac bank).get 0 k)
      (p.1.setAc bank ((p.1.ac bank).put 0 k r.1), p.2 || r.2)) m

def Mxe.pass (m : Mxe) (bb bank : Bool) (ra : ARows) : Mxe × Bool := ra.rows.foldl (Mxe.passRow (m.bb bb) bank ra) (m, false)

/-- The checks of R172 before a pass. -/
def Mxe.passOk (m : Mxe) (t : Ten) (bb : Bool) (reg : Option Bool) : Bool :=
  let b := m.bb bb
  t.valid && b.loaded && pairOk t.fmt b.fmt && (match reg with
    | some w16 => w16 == (t.fmt == 1)
    | none => true) && (m.raw || (t.scl && b.scl))

-- `mxzero` (R174)

def Mxe.zero (m : Mxe) (bank raw : Bool) : Mxe :=
  if raw then { m with raw := true, ac0 := [], ac1 := [], acRaw := [] }
  else if m.raw then { m with raw := false, ac0 := [], ac1 := [], acRaw := [] }
  else m.setAc bank []

-- Drains (R173)

def mxEnv : FpEnv := { ftz := false, rnd := .rne, lane := 0, pc := 0 }

/-- C narrowed to the destination's format, or added to what stands there; NaNs as R173 gives them. -/
def drainFp (f : Fmt) (add : Bool) (dest c : Nat) : Nat :=
  let dflt := f.expMax * 2 ^ f.mb + 2 ^ (f.mb - 1)
  let narrowC : Nat := match fmt32.dec c with
    | .nan _ => if f = fmt32 then fmt32.quiet c else cvtNaN fmt32 f c
    | .inf n => f.inf n
    | .fin n m e => (f.round false .rne n m e).1
  if !add then (if f = fmt32 then c else narrowC)
  else if f.isNaN dest then f.quiet dest
  else match f.dec dest, fmt32.dec c with
    | _, .nan _ => narrowC
    | .inf n, .inf k => if n = k then f.inf n else dflt
    | .inf n, _ => f.inf n
    | _, .inf k => f.inf k
    | .fin n m e, .fin n' m' e' => (f.addFin mxEnv n m e n' m' e').1
    | _, _ => dflt

def drainFmt : Nat → Option Fmt
  | 5 => some fmt32
  | 6 => some fmt16
  | 7 => some fmtB16
  | _ => none

/-- An element's new image in the destination, and MXSAT. -/
def Mxe.drainVal (m : Mxe) (bank add : Bool) (fmt k dest : Nat) : Nat × Bool :=
  if m.raw then
    let t := (if add then toInt true 32 dest else 0) + m.acRaw.get 0 k
    (wrapInt 32 (clampTo 32 t), clampTo 32 t != t)
  else
    let c := ((m.ac bank).get 0 k).toNat
    match drainFmt fmt with
    | some f => (drainFp f add dest c, false)
    | none => (0, false)

/-- The bytes of an element where they lie: places translated, with the element's byte each holds. -/
def State.drainPlaces (s : State) (a : EngAcc) (t : Ten) (e : List Nat) : State × Except EngErr (List (Nat × Nat × BitWrite)) :=
  allSteps (fun s w => s.engTarget a t.sp w) s (t.writes e 0)

def State.placeByte (s : State) (sp : Bool) (p : Nat × Nat × BitWrite) : Byte :=
  if sp then (s.spad p.1).byte p.2.1 else s.msys.byte p.1 p.2.1

/-- The writes of a drain whose target has ended since the command was accepted are dropped at the port and counted, one for each 256-byte span
(R238, log 46). -/
def State.staleTile (s : State) (a : EngAcc) (t : Ten) (es : List (List Nat)) : State :=
  let spansOf : SMap Unit := es.foldl (fun m e => (t.writes e 0).foldl (fun m w => m.ins (w.addr / 256) ()) m) []
  s.modCore ((a.tgt.map (·.core)).getD a.core) fun c => c.addStale spansOf.length

/-- The drain of a tile: every place translates before any is written. DESIGN CHOICE (log 72): an element out of bounds, which is not
written (R173), sets no MXSAT. -/
def State.drainTile (s : State) (m : Mxe) (a : EngAcc) (t : Ten) (coord : Dword) (add bank : Bool) : State × Except EngErr Bool :=
  let ok := t.valid && (if m.raw then t.fmt == 4 else (drainFmt t.fmt).isSome)
  if !ok then (s, .error (errOf .operandEncoding, 0)) else
  let ps := indexPairs 256 512
  if t.sp && s.goneSince a.tgt then (s.staleTile a t (ps.map fun p => mxElem t coord 256 512 p.1 p.2), .error (errOf .peerGone, t.base)) else
  match allSteps (fun s p => s.drainPlaces a t (mxElem t coord 256 512 p.1 p.2)) s ps with
  | (s, .error e) => (s, .error e)
  | (s, .ok places) =>
    let pas := if t.sp then [] else places.flatMap fun l => l.map (·.2.1)
    match if add && pas.any (fun pa => s.msys.bad pa 1) then (s, false) else s.engMend pas with
    | (s, false) => (s, .error (errOf .eccUncorrectable, t.base))
    | (s, true) =>
    let r := (ps.zip places).foldl (fun (q : State × Bool) p =>
      if p.2.isEmpty then q else
      let dest := leNat (p.2.map (q.1.placeByte t.sp))
      let v := m.drainVal bank add t.fmt (p.1.1 * 512 + p.1.2) dest
      let s := (p.2.zipIdx).foldl (fun s w => s.engPut a.core t.sp t.swz (w.1.1, w.1.2.1, { w.1.2.2 with val := v.1 / 256 ^ w.2 })) q.1
      (s, q.2 || v.2)) (s, false)
    (r.1, .ok r.2)

-- The reservation table (R169, R170, R243)

def MxKind.unit : MxKind → MxUnit
  | .mxb .. => .load
  | .mxa .. | .mxaReg .. => .array
  | .drain .. | .zero .. => .bank

/-- The mode of the banks after an entry, when it is `before` it. -/
def MxKind.modeAfter (before : Bool) : MxKind → Bool
  | .zero _ raw => raw
  | _ => before

/-- Resources of R170: 0 and 1 the B buffers, 2 and 3 the banks. -/
def MxKind.uses (raw : Bool) : MxKind → List Nat
  | .mxb _ _ bb => [bb.toNat]
  | .mxa _ _ bb bank | .mxaReg _ _ _ _ bb bank => bb.toNat :: (if raw then [2, 3] else [2 + bank.toNat])
  | .drain _ _ _ bank _ => if raw then [2, 3] else [2 + bank.toNat]
  | .zero bank r => if raw || r then [2, 3] else [2 + bank.toNat]

def MxKind.isPass : MxKind → Bool
  | .mxa .. | .mxaReg .. => true
  | _ => false

/-- Entries with the resources they touch. -/
def withUses : Bool → List MxEntry → List (MxEntry × List Nat)
  | _, [] => []
  | raw, e :: t => (e, e.kind.uses raw) :: withUses (e.kind.modeAfter raw) t

/-- The entries, each with the resources it uses. -/
def Mxe.entries (m : Mxe) : List (MxEntry × List Nat) := withUses m.raw m.table

/-- R243: an entry is ready: earlier entries that share a resource are complete, or are passes whose array work has ended and which share
its accumulator. -/
def Mxe.ready (m : Mxe) (cc : Nat) (e : MxEntry) : Bool :=
  match m.entries.find? fun p => p.1.id == e.id with
  | none => false
  | some (_, us) =>
    (m.entries.takeWhile fun p => p.1.id != e.id).all fun p =>
      !p.2.any us.contains ||
        (e.kind.isPass && p.1.kind.isPass && p.2.any (fun r => 2 ≤ r && us.contains r) && p.1.granted.isSome && decide (p.1.arrayEnd ≤ cc))

/-- A unit is free; the array while no pass's array work goes on, the BANK unit also while its drain is held (R176). -/
def Mxe.unitFree (m : Mxe) (cc : Nat) (u : MxUnit) : Bool :=
  !m.table.any fun e => e.granted.isSome && e.held.isNone && e.kind.unit == u && !(u == .array && decide (e.arrayEnd ≤ cc))

/-- The entry a unit grants: the highest priority, then the oldest. -/
def Mxe.grantee (m : Mxe) (cc : Nat) (u : MxUnit) : Option MxEntry :=
  if !m.unitFree cc u then none else
  let es := m.table.filter fun e => e.kind.unit == u && e.granted.isNone && e.held.isNone && m.ready cc e
  let prio (e : MxEntry) : Nat := if e.promoted then 3 else e.prio
  es.find? fun e => prio e == (es.map prio).foldl max 0

/-- A command has accesses to global memory under way. -/
def MxEntry.reaches (e : MxEntry) : Bool :=
  e.granted.isSome && !e.read && e.held.isNone && match e.kind with
    | .mxb ten .. | .mxa ten .. | .drain _ ten .. => !(tenOf ten).sp
    | .mxaReg .. | .zero .. => false

def Mxe.modEntry (m : Mxe) (id : Nat) (f : MxEntry → MxEntry) : Mxe := { m with table := m.table.map fun e => if e.id = id then f e else e }

-- Times (R242)

/-- The recurrence of R242: `w i s` the weight of a segment; `fin` of the last row, `done` of the last eight rows, latest first. -/
def arrayCycles (w : Nat → Nat → Nat) : List Nat → Nat → List Nat → List Nat → Nat
  | [], _, _, done => done.headD 0
  | row :: t, i, fin, done =>
    let fin' := (List.range 16).map fun s => max (max (fin.getD s 0) (done.getD 7 0)) (i / 4) + w row s
    arrayCycles w t (i + 1) fin' (fin'.foldl max 0 :: done.take 7)

def Mxe.passCycles (m : Mxe) (dt bb : Bool) (ra : ARows) : Nat :=
  let b := m.bb bb
  let p := planesOf b.fmt
  if dt then ra.rows.length * p else
  let used := b.vals.foldl (fun a v => a ||| digitPlanes p v.2) 0
  let p' := ((List.range p).filter fun i => bitsOf used i 1 == 1).length
  arrayCycles (fun row s => if (List.range 16).all fun k => ra.vals.get 0 (row * 512 + 16 * s + k) == 0 then 0 else p') ra.rows 0 [] []

def MxEntry.acc (e : MxEntry) : EngAcc := { core := e.core, sp := e.space, tgt := e.tgt }

/-- The A rows that a pass reads, as they stand. -/
def State.passRows (s : State) (raw : Bool) (e : MxEntry) : State × Except EngErr (Ten × Option Bool × ARows) :=
  match e.kind with
  | .mxa ten coord _ _ =>
    let t := tenOf ten
    match s.loadA raw e.acc t coord with
    | (s, .error er) => (s, .error er)
    | (s, .ok r) => (s, .ok (t, none, r))
  | .mxaReg ten rowq w16 vb _ _ =>
    match s.group? e.gid with
    | some g => (s, .ok (tenOf ten, some w16, g.regA rowq w16 vb))
    | none => (s, .ok (tenOf ten, some w16, { rows := [], vals := [], scales := [] }))
  | _ => (s, .error (errOf .operandEncoding, 0))

/-- The cycle in which the command completes, and the one in which it has read its last operand: for a pass the end of its array work, for an
`mxb` the end of its reads. -/
def State.mxTime (s : State) (cluster : Nat) (m : Mxe) (e : MxEntry) : State × Nat × Nat :=
  let (lat, s) := s.freeLat
  match e.kind with
  | .zero .. => (s, s.cc + 16, s.cc + 16)
  | .mxb ten _ _ =>
    let t := tenOf ten
    let last := s.cc + (256 * 512 * t.bits / 8 + (if t.scl then 2048 else 0) + 255) / 256 + lat
    (s, last + 32, last)
  | .drain _ ten _ _ _ =>
    let due := s.cc + (256 * 512 * (tenOf ten).bits / 8 + 255) / 256 + 32 + lat
    (s, due, due)
  | .mxa _ _ bb _ | .mxaReg _ _ _ _ bb _ =>
    let det := Sys2Proof.Config.detSwitch cluster
    let n := match (s.passRows m.raw e).2 with
      | .ok (_, _, ra) => m.passCycles det bb ra
      | .error _ => 0
    let last := max s.cc m.arrayFree + n + if det then 0 else lat
    (s, last + 40, last)

/-- A unit grants an entry. -/
def State.mxGrant (s : State) (cluster : Nat) (u : MxUnit) : State :=
  let m := s.mxe cluster
  match m.grantee s.cc u with
  | none => s
  | some e =>
    let (s, due, last) := s.mxTime cluster m e
    s.modMxe cluster fun m =>
      let m := m.modEntry e.id fun e => { e with granted := some s.cc, due := due, arrayEnd := last }
      if u = .array then { m with arrayFree := last } else m

-- Completion (R176, R178, R260)

/-- The command's end is told to its group, with the error recorded. -/
def State.mxTell (s : State) (e : MxEntry) (err : Option Cause) : State :=
  s.modGroup e.gid fun g =>
    { g with cmds := g.cmds.map fun c => if c.entry = e.id then { c with complete := true, err := match c.err with
        | some x => some x
        | none => err } else c }

/-- The engine has done with the group's registers and scratchpads for a command: TL falls (R76). -/
def State.mxDrop (s : State) (e : MxEntry) : State := s.modGroup e.gid fun g => g.decCtr 3

/-- The engine arrives for the issuing group on its workgroup's barrier, or PERMISSION is recorded (R184). -/
def State.mxArrive (s : State) (e : MxEntry) : State :=
  match e.arr with
  | none => s
  | some k =>
    let key := barKey e.wg 0 k
    let b := s.bar key
    if !b.members.contains e.gid then
      s.modGroup e.gid fun g => { g with cmds := g.cmds.map fun c => if c.entry = e.id && c.err.isNone then { c with err := some .permission } else c }
    else s.setBar key (b.land e.gid)

/-- Arrive waits while the group is a phase ahead (R184). -/
def State.mxAhead (s : State) (e : MxEntry) : Bool :=
  match e.arr with
  | some k => let b := s.bar (barKey e.wg 0 k); b.members.contains e.gid && decide (b.count e.gid ≥ 2)
  | none => false

/-- MXSAT (bit 8) and MXOF (bit 9) of SYS.FPSTAT (R44). -/
def State.mxFlag (s : State) (e : MxEntry) (bit : Nat) (on : Bool) : State :=
  if on then s.modGroup e.gid fun g => { g with sys := { g.sys with fpstat := g.sys.fpstat ||| BitVec.ofNat 32 (2 ^ bit) } } else s

/-- The effect of a command: the cause it fails with, or none. -/
def State.mxEffect (s : State) (cluster : Nat) (e : MxEntry) : State × Except EngErr Unit :=
  let m := s.mxe cluster
  match e.kind with
  | .zero bank raw => (s.modMxe cluster fun m => m.zero bank raw, .ok ())
  | .mxb ten coord bb =>
    match s.loadB e.acc (tenOf ten) coord with
    | (s, .error er) => (s, .error er)
    | (s, .ok b) => (s.modMxe cluster fun m => m.setBb bb b, .ok ())
  | .mxa ten _ bb bank | .mxaReg ten _ _ _ bb bank =>
    let reg := match e.kind with
      | .mxaReg _ _ w16 _ _ _ => some w16
      | _ => none
    if !m.passOk (tenOf ten) bb reg then (s, .error (errOf .operandEncoding, 0)) else
    match s.passRows m.raw e with
    | (s, .error er) => (s, .error er)
    | (s, .ok (_, _, ra)) =>
      let r := m.pass bb bank ra
      ((s.modMxe cluster fun q => { q with ac0 := r.1.ac0, ac1 := r.1.ac1, acRaw := r.1.acRaw }).mxFlag e (if m.raw then 8 else 9) r.2, .ok ())
  | .drain add ten coord bank z =>
    match s.drainTile m e.acc (tenOf ten) coord add bank with
    | (s, .error er) => (s, .error er)
    | (s, .ok sat) =>
      let s := s.mxFlag e 8 sat
      (if z then s.modMxe cluster fun m => if m.raw then { m with acRaw := [] } else m.setAc bank [] else s, .ok ())

/-- The granted entry whose time has come: to make its effect, or after that to end. An earlier entry that shares a resource has ended, or is
a pass that has read its operands. -/
def State.mxDue (s : State) (cluster id : Nat) : Option MxEntry :=
  let m := s.mxe cluster
  match m.entries.find? fun p => p.1.id == id with
  | none => none
  | some (e, us) =>
    if e.granted.isSome && e.held.isNone && decide ((if e.read then e.due else e.arrayEnd) ≤ s.cc) &&
       (m.entries.takeWhile fun p => p.1.id != id).all (fun p => !p.2.any us.contains || (e.kind.isPass && p.1.kind.isPass && p.1.read))
    then some e else none

def State.modEntry (s : State) (cluster id : Nat) (f : MxEntry → MxEntry) : State := s.modMxe cluster fun m => m.modEntry id f

/-- A drain that meets an absent page does not complete. -/
def isDrainFault (e : MxEntry) (er : EngErr) : Bool :=
  er.1.cause == .pageNotPresent && match e.kind with
    | .drain .. => true
    | _ => false

/-- The command has read its operands, and its effect is made; without an arrival its TL falls. One that fails ends at once. DESIGN CHOICE
(log 20): a command other than a drain that meets an absent page records PERMISSION. -/
def State.mxMake (s : State) (cluster : Nat) (e : MxEntry) : State × Option MxEntry :=
  match s.mxEffect cluster e with
  | (s', .error er) =>
    if isDrainFault e er then (s, none) else
    let c : Cause := if er.1.cause == .pageNotPresent then .permission else er.1.cause
    let f (e : MxEntry) : MxEntry := { e with read := true, err := some c, due := s.cc }
    (s'.modEntry cluster e.id f, some (f e))
  | (s', .ok _) =>
    let f (e : MxEntry) : MxEntry := { e with read := true, arrived := e.arr.isNone }
    let s' := s'.modEntry cluster e.id f
    (if e.arr.isNone then s'.mxDrop e else s', some (f e))

/-- A command leaves the table (R243); a failed one without an arrival gives back its TL, and an arrival that still waits is kept. -/
def State.mxFinish (s : State) (cluster : Nat) (e : MxEntry) : State :=
  let s := s.modMxe cluster fun m =>
    { m with table := m.table.filter (·.id != e.id), late := if e.arr.isSome && !e.arrived then m.late ++ [e] else m.late }
  (if e.arr.isNone && !e.arrived then s.mxDrop e else s).mxTell e e.err

/-- A command goes on: its effect when its operands have been read, its end when its time has passed. -/
def State.mxComplete (s : State) (cluster id : Nat) : State :=
  match s.mxDue cluster id with
  | none => s
  | some e =>
    if e.read then s.mxFinish cluster e
    else match s.mxMake cluster e with
      | (s, some e) => if e.due ≤ s.cc then s.mxFinish cluster e else s
      | (s, none) => s

/-- The commands whose arrival may be made: operands read, and the group not a phase ahead (R178, R184, R260). A failed one arrives when it
has ended. -/
def State.mxArrivals (s : State) (cluster : Nat) : List MxEntry :=
  let m := s.mxe cluster
  (m.late ++ m.table.filter fun e => e.read && e.err.isNone && !e.arrived).filter fun e => !s.mxAhead e

/-- The arrival of R260; then TL falls. -/
def State.mxArrival (s : State) (cluster id : Nat) : State :=
  match (s.mxArrivals cluster).find? (·.id == id) with
  | none => s
  | some e =>
    ((s.mxArrive e).modMxe cluster fun m =>
      { (m.modEntry id fun e => { e with arrived := true }) with late := m.late.filter (·.id != id) }).mxDrop e

/-- A drain keeps its entry on an absent page, posts a fault record and gives up the BANK unit (R176). -/
def State.mxFault (s : State) (cluster id : Nat) : State :=
  match s.mxDue cluster id with
  | none => s
  | some e =>
    match s.mxEffect cluster e with
    | (s', .error (er, va)) =>
      if e.read || !isDrainFault e (er, va) then s else
      let f : FaultInfo := { kind := 2, lane := 0, pc := e.pc, va := va, lanes := 0, acc := .write, reason := er.reason, level := er.level, unit := 1, chan := 0 }
      let (tag, s') := s'.postFault e.poster e.core f
      s'.modEntry cluster id fun e => { e with held := some tag, granted := none, readySince := none, promoted := false }
    | _ => s

-- Commands (R169)

/-- The lanes of a whole group. -/
def fullLanes (w : Nat) : Lanes := BitVec.ofNat 64 (2 ^ w - 1)

/-- A matrix instruction: collective, with every lane of the group (R169). -/
def X.matrix (x : X) (body : X → State) : State := x.collective fun x =>
  if x.m ≠ fullLanes x.g.info.width then x.trap .illegalConvergence x.m 0 else body x

/-- A command takes an entry and TL rises; while the table is full nothing is taken. -/
def X.command (x : X) (arr : Option Nat) (ten : Option (List Byte)) (kind : MxKind) : State :=
  let cluster := clusterOf x.core
  if (x.s.mxe cluster).table.length ≥ 32 || (x.s.bte cluster).stop then x.retryLater .engine else
  let (id, s) := x.s.newSerial
  let tgt := match ten with
    | some bs => if (tenOf bs).sp then some (s.memberEnd x.g.info.wg (tenOf bs).member) else none
    | none => none
  let e : MxEntry :=
    { id := id, gid := x.gid, core := x.core, ctx := x.g.info.ctx, wg := x.g.info.wg, pc := x.pc, space := s.gspace x.g, prio := x.g.info.prio,
      kind := kind, tgt := tgt, arr := arr, readySince := none, promoted := false, granted := none, arrayEnd := 0, due := 0, read := false, err := none,
      arrived := false, held := none, since := none, poster := x.g.poster x.gid }
  let s := s.modMxe cluster fun m => { m with table := m.table ++ [e] }
  let g := x.g.incCtr 3
  let cmd : MxCmd := { entry := id, pc := x.pc, complete := false, err := none }
  { x with s := s, g := { g with cmds := g.cmds ++ [cmd] } }.done

def X.tenOfCmd (x : X) (t : BitVec 8) : List Byte := x.s.tenRec x.g.info.ctx (clusterOf x.core) t.toNat

/-- The coordinate source of a collective instruction (R33). -/
def X.coord (x : X) (a : Reg) : X × Dword := (x.uniform fun l => [x.g.rd64 l a], x.g.rd64 x.low a)

def execMxb (h : Hdr) (t : BitVec 8) (bb : Bool) (arr : Option (BitVec 4)) (a : Reg) (s : State) : Host.Outcome State Fault Refusal :=
  s.withIssue (.mxb h t bb arr a) h fun x => x.matrix fun x =>
    let (x, c) := x.coord a
    let ten := x.tenOfCmd t
    x.command (arr.map (·.toNat)) (some ten) (.mxb ten c bb)

def execMxa (h : Hdr) (t : BitVec 8) (bb bank : Bool) (arr : Option (BitVec 4)) (src : MxSrc) (s : State) : Host.Outcome State Fault Refusal :=
  s.withIssue (.mxa h t bb bank arr src) h fun x => x.matrix fun x =>
    let ten := x.tenOfCmd t
    match src with
    | .spad a =>
      let (x, c) := x.coord a
      x.command (arr.map (·.toNat)) (some ten) (.mxa ten c bb bank)
    | .regs rowq w16 vb => x.command (arr.map (·.toNat)) none (.mxaReg ten rowq.toNat w16 vb.val bb bank)

def execMxdrain (h : Hdr) (t : BitVec 8) (bank z : Bool) (a : Reg) (s : State) : Host.Outcome State Fault Refusal :=
  s.withIssue (.mxdrain h t bank z a) h fun x => x.matrix fun x =>
    let (x, c) := x.coord a
    let ten := x.tenOfCmd t
    x.command none (some ten) (.drain false ten c bank z)

def execMxdrainAdd (h : Hdr) (t : BitVec 8) (bank z : Bool) (a : Reg) (s : State) : Host.Outcome State Fault Refusal :=
  s.withIssue (.mxdrainAdd h t bank z a) h fun x => x.matrix fun x =>
    let (x, c) := x.coord a
    let ten := x.tenOfCmd t
    x.command none (some ten) (.drain true ten c bank z)

def execMxzero (h : Hdr) (bank raw : Bool) (s : State) : Host.Outcome State Fault Refusal :=
  s.withIssue (.mxzero h bank raw) h fun x => x.matrix fun x => x.command none none (.zero bank raw)

/-- Stores, atomics and register writes of the group are performed at `.wg` (R177). -/
def execMxfence (h : Hdr) (s : State) : Host.Outcome State Fault Refusal :=
  s.withIssue (.mxfence h) h fun x => x.matrix fun x => x.afterRel (.mxfence h) .wg fun x w =>
    if x.g.busy.isEmpty then x.done else x.wait w

/-- R177. -/
def execMxwait (h : Hdr) (n : BitVec 6) (s : State) : Host.Outcome State Fault Refusal :=
  s.withIssue (.mxwait h n) h fun x => x.matrix fun x =>
    let cov := x.g.cmds.take (x.g.cmds.length - n.toNat)
    if cov.any fun c => !c.complete then x.wait (x.resume.getD (Wait.of .engine (some (.mxwait h n)) x.lanes))
    else match cov.find? (·.err.isSome) with
      | some c =>
        let x := x.modG fun g => { g with cmds := g.cmds.map fun d => if d.entry = c.entry then { d with err := none } else d }
        { x with s := x.flush }.trapAt (c.err.getD .operandEncoding) false (fullLanes x.g.info.width) x.pc (pcDword c.pc)
      | none => (x.modG fun g => { g with cmds := g.cmds.drop cov.length }).done

-- Events

/-- R243. -/
def execMxeGrant (cluster : Nat) (unit : MxUnit) (s : State) : Host.Outcome State Fault Refusal := .next (s.mxGrant cluster unit)

/-- R56, R58, R171 to R174, R242. -/
def execMxeCommandComplete (cluster entry : Nat) (s : State) : Host.Outcome State Fault Refusal := .next (s.mxComplete cluster entry)

/-- R243: an entry ready and ungranted for 16,384 cc counts as of priority 3. -/
def execMxeAgePromotion (cluster entry : Nat) (s : State) : Host.Outcome State Fault Refusal :=
  .next <| s.modMxe cluster fun m => m.modEntry entry fun e =>
    match e.readySince with
    | some c => if e.granted.isNone && c + 16384 ≤ s.cc then { e with promoted := true } else e
    | none => e

/-- R176. -/
def execMxeDrainFault (cluster entry : Nat) (s : State) : Host.Outcome State Fault Refusal := .next (s.mxFault cluster entry)

/-- R178, R260. -/
def execEngineBarrierArrival (cluster entry : Nat) (s : State) : Host.Outcome State Fault Refusal := .next (s.mxArrival cluster entry)

end Sys2Proof.Machine
end

