-- ==== Sys2Proof/Machine/Groups.lean ====
section
/-! DEFINITION. Groups and workgroups: their creation (R12 to R21, R35), placement (R13, R15, R281), retirement and the
end of a workgroup (R36, R185). -/

namespace Sys2Proof.Machine

/-- The FAIR count of a group that no role gives one. DESIGN CHOICE (log 21). -/
def defaultFair : Nat := 64

/-- A group as it begins (R18). -/
def freshGroup (info : GInfo) (pc : Pc) (sregs : List Nat) (cc : Nat) : Group :=
  { info := info
    sched := { resident := true, active := false, ret := none, age := cc, elig := none, promoted := false, held := false, trapped := false,
               stopped := false, streak := 0, issues := 0, lastPc := 0, noWatch := [], noBp := false, stepping := false }
    runs := [{ lanes := fullLanes info.width, pc := pc, st := .ready, stamp := 0 }]
    regs := { v := [], o := [], l := [], p := [], ld := 0, st := 0, cp := 0, tl := 0,
              s := sregs.zipIdx.foldl (fun m p => m.put 0 p.2 (BitVec.ofNat 64 p.1)) [] }
    sys := { escapes := 0, uniformViolation := false, fpctl := 0, fpstat := 0, debug := false, intrap := false, pie := false, ie := false,
             trap := { cause := 0, pc := 0, npc := 0, mask := 0, run := 0, addr := 0 }, trapvec := 0, shadow := none, saved := none }
    pend := [], busy := [], cmds := [], bseq := [] }

/-- Active slots in use; responders hold none (R273). -/
def State.usedSlots (s : State) (core part : Nat) : Nat :=
  ((s.groupsOf core part).filter fun p => p.2.sched.active && !p.2.isResponder).length

/-- A group begins. DESIGN CHOICE (log 71): it is ACTIVE at once where a slot is free, else PARKED. -/
def State.addGroup (s : State) (g : Group) : State :=
  let act := g.isResponder || s.usedSlots g.info.core g.info.part < 16
  s.setGroup (gidOf g.info.core g.info.part g.info.place g.info.ctx) { g with sched := { g.sched with active := act } }

-- Occupancy (R15, R16, R35): core, partition, place, register bytes. DEDUCED (log 62): what a saved context holds, and what is reserved,
-- stays in use (R281)

structure Spot where
  core : Nat
  part : Nat
  place : Nat
  bytes : Nat
  deriving DecidableEq, Repr

/-- The groups of a role list in placement order: role number and entry (R15). -/
def roleGroups (rs : List RoleSpec) : List (Nat × RoleSpec) := (rs.zipIdx).flatMap fun r => List.replicate r.1.count (r.2, r.1)

def reservedSpots (l : Launch) : List Spot :=
  l.placed.flatMap fun p => ((roleGroups l.roles).zip p.spots).map fun q =>
    { core := p.core, part := q.2.1, place := q.2.2, bytes := q.1.2.regs * q.1.2.width * 4 }

def State.spots (s : State) : List Spot :=
  (s.groups.filterMap fun p =>
    let g := p.2
    if !g.isResponder then
      some { core := g.info.core, part := g.info.part, place := g.info.place, bytes := g.info.budget * g.info.width * 4 }
    else none) ++ s.launches.flatMap fun p => if p.2.reserved then reservedSpots p.2 else []

def spotBytes (sp : List Spot) (core part : Nat) : Nat :=
  393216 - ((sp.filter fun q => q.core == core && q.part == part).map (·.bytes)).foldl (· + ·) 0

/-- User places of a partition: 31 on partition 0, 32 on partition 1 (R35). DESIGN CHOICE (log 88): a group that is placed takes the lowest free
one. -/
def freePlace (sp : List Spot) (core part : Nat) : Option Nat :=
  (List.range (if part = 0 then 31 else 32)).find? fun n => !sp.any fun q => q.core == core && q.part == part && q.place == n

/-- R15: the groups of a workgroup placed in order, or none where one does not fit. -/
def placeGroups (core : Nat) : List Spot → List Nat → Option (List (Nat × Nat))
  | _, [] => some []
  | sp, bytes :: t =>
    let can (p : Nat) : Option Nat := if bytes ≤ spotBytes sp core p then freePlace sp core p else none
    let pick : Option (Nat × Nat) := match can 0, can 1 with
      | some a, some b => if spotBytes sp core 1 > spotBytes sp core 0 then some (1, b) else some (0, a)
      | some a, none => some (0, a)
      | none, some b => some (1, b)
      | none, none => none
    match pick with
    | none => none
    | some (part, place) => (placeGroups core ({ core := core, part := part, place := place, bytes := bytes } :: sp) t).map ((part, place) :: ·)

/-- Scratchpad ranges in use on a core: base and size. -/
def State.ranges (s : State) (core : Nat) : List (Nat × Nat) :=
  (s.allocs.filterMap fun p => if p.2.core == core && p.2.released.isNone then some (p.2.base, p.2.size) else none) ++
  s.launches.flatMap fun p => if p.2.reserved then (p.2.placed.filter (·.core == core)).map fun q => (q.base, p.2.scratch) else []

def rangeFree (rs : List (Nat × Nat)) (base size : Nat) : Bool := base + size ≤ 393216 && rs.all fun r => base + size ≤ r.1 || r.1 + r.2 ≤ base

/-- The lowest free range of a size (R281). -/
def lowestRange (rs : List (Nat × Nat)) (size : Nat) : Option Nat :=
  ((0 :: rs.map fun r => r.1 + r.2).filter fun b => rangeFree rs b size).foldl (fun o b => match o with
    | some a => some (min a b)
    | none => some b) none

/-- The generation that a granule keeps, and whether one it carried is younger than 64 µs (R13). -/
def State.genKept (s : State) (core off : Nat) : Nat :=
  s.allocs.foldl (fun a p => if p.2.core == core && p.2.base ≤ off && off < p.2.base + p.2.size then p.2.gen else a) 0

def State.genRecent (s : State) (core base size gen : Nat) : Bool :=
  s.allocs.any fun p =>
    p.2.core == core && p.2.gen == gen && p.2.base < base + size && base < p.2.base + p.2.size &&
    match p.2.released with
    | none => true
    | some t => decide (s.clock.ns < t + 64000)

/-- R13: the generation of a new allocation, or none while no value qualifies. -/
def State.newGen (s : State) (core base size : Nat) : Option Nat :=
  let top := ((List.range ((size + 15) / 16)).map fun i => s.genKept core (base + 16 * i)).foldl max 0
  ((List.range 16).map fun i => (1 + top + i) % 16).find? fun g => !s.genRecent core base size g

/-- One workgroup placed on a core: base, generation and spots. -/
def State.placeOn (s : State) (core scratch : Nat) (bytes : List Nat) (sp : List Spot) (used : List (Nat × Nat)) :
    Option (Nat × Nat × List (Nat × Nat)) :=
  match placeGroups core sp bytes, lowestRange used scratch with
  | some spots, some base => (s.newGen core base scratch).map fun g => (base, g, spots)
  | _, _ => none

-- Creation of a workgroup

/-- A range of a core's scratchpad as a context sees it, in the core or in the context's save image, reads zero (R146, R284). -/
def State.clearSpad (s : State) (ctx core base size : Nat) : State :=
  if s.resident = some ctx then s.modSpad core fun p => p.clear base size
  else s.modCtx ctx fun c =>
    let v := c.savedCores.get SavedCore.reset core
    { c with savedCores := c.savedCores.ins core { v with spad := v.spad.clear base size } }

/-- A workgroup begins: allocation (cleared, R146) and entry. -/
def State.newWg (s : State) (ctx core launch team member base size gen : Nat) : Nat × State :=
  let (alloc, s) := s.newSerial
  let (wg, s) := s.newSerial
  let a : Alloc := { core := core, base := base, size := size, gen := gen, wg := wg, released := none }
  let w : Workgroup :=
    { ctx := ctx, core := core, launch := launch, team := team, member := member, members := [], alloc := alloc, groups := [], ended := false }
  let s := { s with allocs := s.allocs.ins alloc a, wgs := s.wgs.ins wg w }
  (wg, s.clearSpad ctx core base size)

-- Retirement (R36, R185)

def Group.retires (g : Group) : Bool := g.runs.isEmpty && !g.isSuper && g.regs.ld == 0 && g.regs.st == 0 && g.regs.cp == 0 && g.regs.tl == 0

/-- The identity of R198. -/
def cenIdentity (comb : Nat) : Dword :=
  match comb with
  | 2 => 0x7FFFFFFFFFFFFFFF
  | 3 => 0x8000000000000000
  | 4 => BitVec.allOnes 64
  | _ => 0

/-- A census by its reference: serial and slot. -/
def cenRef (serial id : Nat) : Nat := serial * 2048 + id
def State.censusAt (s : State) (id : Nat) : Census := (s.core (id / 4)).census.get Census.reset (id % 4)
def State.setCensus (s : State) (id : Nat) (c : Census) : State := s.modCore (id / 4) fun k => { k with census := k.census.ins (id % 4) c }
/-- The census that a reference names, while its slot still holds it. -/
def State.census? (s : State) (ref : Nat) : Option Census :=
  let c := s.censusAt (ref % 2048)
  if c.st ≠ .free && c.serial = ref / 2048 then some c else none

/-- A reply enters the census tree: at its slot within 96 cc (R267). -/
def State.sendReply (s : State) (ref : Nat) (v : Dword) (err : Bool) : State :=
  let (lat, s) := s.freeLat
  s.schedule (s.cc + lat % 96) (.censusReply ref v err)

/-- A responder that has not replied counts as answered with the identity and the error bit (R197). -/
def State.unanswered (s : State) (g : Group) : State :=
  match g.info.kind with
  | .responder ref false => s.sendReply ref (cenIdentity (s.censusAt (ref % 2048)).comb) true
  | _ => s

def State.retire (s : State) (gid : Nat) : State :=
  match s.group? gid with
  | none => s
  | some g =>
    if !g.retires then s else
    let s := (s.unanswered g).leaveBars gid
    let s := s.modCore g.info.core fun c => { c with trapq := c.trapq.filter (·.gid != some gid) }
    let leave (w : Workgroup) : Workgroup := { w with groups := w.groups.erase gid }
    let s := { s with groups := s.groups.del gid }
    if g.isResponder then s else { s with wgs := s.wgs.map fun p => if p.1 = g.info.wg then (p.1, leave p.2) else p }

/-- Every live lane exits (R105, R298). -/
def Group.killed (g : Group) : Group := { g with runs := [], sched := { g.sched with trapped := false } }

/-- A tile move out of or into the scratchpad of a workgroup (R269). -/
def State.moveOn (s : State) (wg : Nat) (m : Move) : Bool :=
  let owner (alloc : Nat) : Bool := (s.allocs.find alloc).any (·.wg == wg)
  owner m.tAlloc || owner (((s.core m.core).dir.get DirEntry.reset m.entry).alloc)

/-- An engine command still reads or writes the scratchpad of a workgroup (R36). -/
def State.wgBusy (s : State) (wg : Nat) : Bool :=
  s.clusters.any fun p =>
    (p.2.bte.chans.any fun c => c.2.any (·.wg == wg)) || p.2.mxe.table.any (·.wg == wg) || p.2.bte.moves.any (s.moveOn wg)

def State.wgEnds (s : State) (wg : Nat) : Bool :=
  match s.wgs.find wg with
  | none => false
  | some w => w.groups.isEmpty && !w.ended && !s.wgBusy wg

/-- A workgroup that ends in this cycle. -/
def State.endingWg (s : State) : Option Nat := (s.wgs.find? fun p => s.wgEnds p.1).map (·.1)

/-- What becomes of a census slot of a workgroup that ends (R274). -/
def Census.orphan (c : Census) (wg : Nat) : Census :=
  if c.wg ≠ wg then c else
  match c.st with
  | .opened | .counting => { c with st := .orphan }
  | .complete | .closed => Census.reset
  | _ => c

/-- The end of a workgroup (R36): allocation, handles, directory entries, census slots, and with the team's last workgroup
its channels and barriers (R291). -/
def State.endWg (s : State) (wg : Nat) : State :=
  match s.wgs.find wg with
  | none => s
  | some w =>
    if !s.wgEnds wg then s else
    let s := { s with wgs := s.wgs.ins wg { w with ended := true } }
    let free (a : Alloc) : Alloc := { a with released := some s.clock.ns }
    let s := { s with allocs := s.allocs.map fun (p : Nat × Alloc) => if p.1 = w.alloc then (p.1, free p.2) else p }
    let unbind (h : Handle) : Handle := if h.wg = wg then { h with st := .unbound, inward := 0, outward := 0 } else h
    let s := s.modCore w.core fun c =>
      { c with
        handles := c.handles.map fun (p : Nat × Handle) => (p.1, unbind p.2)
        dir := c.dir.filter fun (p : Nat × DirEntry) => p.2.alloc != w.alloc
        census := c.census.map fun (p : Nat × Census) => (p.1, p.2.orphan wg) }
    let last := s.wgs.all fun (p : Nat × Workgroup) => p.2.team != w.team || p.2.ended
    let dead (owner lvl : Nat) : Bool := (lvl == 0 && owner == wg) || (last && lvl == 1 && owner == w.team)
    { s with
      chans := if last then s.chans.filter fun (p : Nat × Channel) => p.1 / 8 != w.team else s.chans
      bars := s.bars.filter fun (p : Nat × Barrier) => !dead (p.1 / 256) (p.1 / 64 % 4) }

end Sys2Proof.Machine
end

