-- ==== Sys2Proof/Machine/Sync.lean ====
section
/-! DEFINITION. Scalar broadcast (R188, R189), dataflow channels (R190, R191), mailboxes (R192, R193), the tile directory
and tile moves (R194, R195, R268, R269, R276), solicit and census (R196 to R199, R267, R270 to R278), and
work-graph records (R200, R288, R289), with their events. -/

namespace Sys2Proof.Machine

-- Scalar broadcast

def slotKeyOf (ctx n : Nat) : Nat := ctx * 16 + n

def execSbcast (h : Hdr) (slot : BitVec 4) (rel : Bool) (a : Reg) (s : State) : Host.Outcome State Fault Refusal :=
  s.withIssue (.sbcast h slot rel a) h fun x => x.unlessEmpty fun x =>
    let x := x.once fun l => [x.g.rd64 l a]
    let send (x : X) : State :=
      (x.modS fun s => s.schedule (s.cc + 48) (.scalarBroadcastDelivery (x.core * 2 + x.g.info.part, x.g.info.ctx) slot.toNat (x.g.rd64 x.low a) rel)).done
    if rel then x.afterRel (.sbcast h slot rel a) .dev fun x _ => send x else send x

def execSbrecv (h : Hdr) (slot : BitVec 4) (d : Reg) (s : State) : Host.Outcome State Fault Refusal :=
  s.withIssue (.sbrecv h slot d) h fun x => x.unlessEmpty fun x =>
    let (v, n, rel) := x.s.slots.get (0, 0, false) (slotKeyOf x.g.info.ctx slot.toNat)
    if n = x.g.bseq.get 0 slot.toNat then x.wait (x.resume.getD (Wait.of .event (some (.sbrecv h slot d)) x.lanes))
    else
      let x := x.once fun _ => []
      let x := if rel then x.modS fun s => s.acquireAt x.core .dev else x
      ((x.modG fun g => { g with bseq := g.bseq.put 0 slot.toNat n }).putAll 2 d (v.zeroExtend 128)).done

/-- R189: a broadcast takes effect at every core; `src`: its partition, which orders those of one cycle, and its context. -/
def execScalarBroadcastDelivery (src : Nat × Nat) (slot : Nat) (value : Dword) (rel : Bool) (s : State) : Host.Outcome State Fault Refusal :=
  let k := slotKeyOf src.2 slot
  .next { s with slots := s.slots.ins k (value, (s.slots.get (0, 0, false) k).2.1 + 1, rel) }

-- Dataflow channels

/-- A range of the own window (R146): core and offset in its scratchpad. -/
def X.ownRange (x : X) (addr n : Nat) : Option (Nat × Nat) :=
  match (x.s.wgs.find x.g.info.wg).bind fun w => x.s.allocs.find w.alloc with
  | none => none
  | some a => if addr + n ≤ a.size then some (a.core, a.base + addr) else none

def State.chanKeyOf (s : State) (g : Group) (n : Nat) : Option Nat := (s.wgs.find g.info.wg).map fun w => w.team * 8 + n

/-- Does another run wait at a channel, on the same side, since before? Sends and receives are taken in order (R191). -/
def State.aheadOn (s : State) (side : Instr → Option Nat) (key gid since : Nat) : Bool :=
  s.groups.any fun p => p.2.runs.any fun r => match r.st with
    | .waiting w =>
      w.why == .channel && (w.ins.bind side).any (fun n => s.chanKeyOf p.2 n == some key) && decide (w.endCc < since ∨ (w.endCc = since ∧ p.1 < gid))
    | _ => false

def sendSide : Instr → Option Nat
  | .chsend _ n _ => some n.toNat
  | _ => none

def recvSide : Instr → Option Nat
  | .chrecv _ n _ => some n.toNat
  | _ => none

/-- The checks of R190, then `body` with the channel's key, the channel and the place of the payload. -/
def X.channel (x : X) (ch : BitVec 3) (a : Reg) (producer : Bool) (body : X → Nat → Channel → Nat × Nat → State) : State := x.unlessEmpty fun x =>
  let x := x.once fun l => [(x.g.rd32 l a).zeroExtend 64]
  let addr := (x.g.rd32 x.low a).toNat
  let a64 := BitVec.ofNat 64 addr
  if addr % 16 ≠ 0 then x.trap .misaligned x.lanes a64 else
  match (x.s.chanKeyOf x.g ch.toNat).bind fun k => (x.s.chans.find k).map fun c => (k, c) with
  | none => x.trap .permission x.lanes a64
  | some (k, c) =>
    if x.resume.isNone && x.watchHit true producer (!producer) addr c.bytes then x.trap .watch x.lanes a64
    else if x.g.info.kind != .role || (if producer then c.producer else c.consumer) != x.g.info.role then x.trap .permission x.lanes a64
    else match x.ownRange addr c.bytes with
      | none => x.trap .permission x.lanes a64
      | some p => body x k c p

/-- The wait at the endpoint, in its order of arrival. -/
def X.atChannel (x : X) (i : Instr) (w : Wait) : Wait :=
  if w.why == .channel then w else { w with why := .channel, ins := some i, rel := none, ops := [], endCc := x.s.cc }

/-- R191. The payload is taken in the cycle after the send reaches the endpoint, when all that reached it with it are known. -/
def execChsend (h : Hdr) (ch : BitVec 3) (a : Reg) (s : State) : Host.Outcome State Fault Refusal :=
  s.withIssue (.chsend h ch a) h fun x => x.channel ch a true fun x key _ p => x.afterRel (.chsend h ch a) .cl fun x w =>
    let w := x.atChannel (.chsend h ch a) w
    match x.s.chans.find key with
    | none => x.trap .permission x.lanes 0
    | some c =>
      if !(x.resume.any fun v => v.why == .channel) || c.queue.length ≥ c.slots || x.s.aheadOn sendSide key x.gid w.endCc then x.wait w
      else (x.modS fun s => { s with chans := s.chans.ins key { c with queue := c.queue ++ [(s.spad p.1).read p.2 c.bytes] } }).done

def execChrecv (h : Hdr) (ch : BitVec 3) (a : Reg) (s : State) : Host.Outcome State Fault Refusal :=
  s.withIssue (.chrecv h ch a) h fun x => x.channel ch a false fun x key c p =>
    let w := x.atChannel (.chrecv h ch a) (x.resume.getD (Wait.of .event none x.lanes))
    match c.queue with
    | [] => x.wait w
    | bs :: rest =>
      if x.s.aheadOn recvSide key x.gid w.endCc then x.wait w
      else
        (x.modS fun s =>
          let s := s.modSpad p.1 fun sp => sp.write 0 p.2 bs
          { s with chans := s.chans.ins key { c with queue := rest } }.acquireAt x.core .cl).done

-- Mailboxes

structure MbHeader where
  base : Nat
  log2n : Nat
  puts : Nat
  gets : Nat
  ok : Bool
  deriving DecidableEq, Repr

/-- R192. -/
def mbHeader (bs : List Byte) : MbHeader :=
  let base := recNat bs 0 8
  let k := recNat bs 8 4
  let puts := recNat bs 16 8
  let gets := recNat bs 24 8
  { base := base, log2n := k, puts := puts, gets := gets,
    ok := base % 8 == 0 && decide (base < 2 ^ 48) && decide (k ≤ 16) && recNat bs 12 4 == 0 && (bs.drop 32).all (· == 0) &&
      decide ((puts + 2 ^ 64 - gets) % 2 ^ 64 ≤ 2 ^ k) }

def MbHeader.held (h : MbHeader) : Nat := (h.puts + 2 ^ 64 - h.gets) % 2 ^ 64

/-- Must the step wait? -/
def MbHeader.blocks (h : MbHeader) (put : Bool) : Bool := if put then h.held == 2 ^ h.log2n else h.held == 0

/-- The header after `n` steps, or as many as it lets go on. -/
def MbHeader.after (h : MbHeader) (put : Bool) (n : Nat) : MbHeader :=
  if put then { h with puts := (h.puts + min n (2 ^ h.log2n - h.held)) % 2 ^ 64 } else { h with gets := (h.gets + min n h.held) % 2 ^ 64 }

/-- The virtual address of the entry that a step uses. -/
def MbHeader.entry (h : MbHeader) (put : Bool) : Nat := h.base + 8 * ((if put then h.puts else h.gets) % 2 ^ h.log2n)

/-- Before a step at a range of global memory, what the core has sent for it is performed, its dirty L1 bytes go home, and the range leaves
the L1 (R157, R230). -/
def State.yieldRange (s : State) (core pa key n : Nat) : State :=
  let s := if (List.range n).any fun i => ((s.core core).pending (pa + i) key).isSome then s.landWrites core else s
  let s := (List.range n).foldl (fun s i => match (s.core core).l1Byte (pa + i) key with
    | some (b, true) => s.homeWrite key (pa + i) [b]
    | _ => s) s
  s.modCore core fun c => c.l1DropRange pa key n

/-- What a step at a header would do after `n` others: wait (none), or use an entry at a place. -/
def State.mbLook (s : State) (core : Nat) (sp : Space) (pa key : Nat) (put : Bool) (n : Nat) : State × Except XErr (Option (MbHeader × Nat × Nat)) :=
  let s := s.yieldRange core pa key 64
  let (bs, s) := s.homeRead key pa 64
  let h := (mbHeader bs).after put n
  if s.msys.bad pa 64 then (s, .error (errOf .eccUncorrectable))
  else if !h.ok then (s, .error (errOf .operandEncoding))
  else if h.blocks put then (s, .ok none)
  else match s.xlate core sp (if put then .write else .read) normalOnly (h.entry put) with
    | (s, .error e) => (s, .error e)
    | (s, .ok t) =>
      if t.pa ≥ hbmSize then (s, .error (errOf .busError))
      else if s.msys.bad t.pa 8 then (s, .error (errOf .eccUncorrectable))
      else (s, .ok (some (h, t.pa, t.key)))

/-- One indivisible step at a header: the value taken, or none where it must wait (R193). -/
def State.mbStep (s : State) (core : Nat) (sp : Space) (pa key : Nat) (put : Option Dword) : State × Except XErr (Option Dword) :=
  match s.mbLook core sp pa key put.isSome 0 with
  | (s, .error e) => (s, .error e)
  | (s, .ok none) => (s, .ok none)
  | (s, .ok (some (h, epa, ekey))) =>
    let s := s.yieldRange core epa ekey 8
    match put with
    | some v =>
      let s := s.homeWrite ekey epa (leBytes v.toNat 8)
      (s.homeWrite key (pa + 16) (leBytes ((h.puts + 1) % 2 ^ 64) 8), .ok (some v))
    | none =>
      let (bs, s) := s.homeRead ekey epa 8
      let v := BitVec.ofNat 64 (leNat bs)
      (s.homeWrite key (pa + 24) (leBytes ((h.gets + 1) % 2 ^ 64) 8), .ok (some v))

/-- The acting lanes before a lane that stand at its header: their steps come first. -/
def X.mbBefore (x : X) (a : Reg) (l pa key : Nat) : Nat :=
  ((x.acting.takeWhile (· != l)).filter fun k =>
    match (x.s.xlate x.core (x.s.gspace x.g) .atomic normalOnly (x.g.rd64 k a).toNat).2 with
    | .ok t => t.pa == pa && t.key == key
    | .error _ => false).length

/-- One lane's checks: header address, header, and the entry that its step would use after those of the lanes before it, whose address then
names the fault (R301, R306). -/
def X.mbCheck (x : X) (put : Bool) (a : Reg) (l : Nat) : X × LaneCheck :=
  let va := (x.g.rd64 l a).toNat
  let (x, c) := x.checkGlobal .atomic .normal 64 64 l va
  if c.err.isSome then (x, c)
  else if c.acc.pa ≥ hbmSize then (x, { c with err := some (errOf .busError) })
  else
    let x := x.modS fun s => s.yieldRange x.core c.acc.pa c.acc.key 64
    let n := x.mbBefore a l c.acc.pa c.acc.key
    let h := (mbHeader (x.s.msys.bytes c.acc.key c.acc.pa 64)).after put n
    let use := h.ok && !h.blocks put
    if use && x.watchHit false (!put) put (h.entry put) 8 then (x, .bad l (h.entry put) (errOf .watch))
    else match x.s.mbLook x.core (x.s.gspace x.g) c.acc.pa c.acc.key put n with
      | (s, .error e) => ({ x with s := s }, { c with err := some e, va := if use then h.entry put else va })
      | (s, .ok _) => ({ x with s := s }, c)

/-- The steps of lanes in order: the lanes that have still to wait. -/
def X.mbSteps (x : X) (put : Bool) (tr : Bool) (d b : Reg) : List LaneAcc → X × List Nat
  | [] => (x, [])
  | a :: t =>
    let v := x.g.rd64 a.lane b
    let ls := laneList (x.mask a.lane)
    match x.s.mbStep x.core (x.s.gspace x.g) a.pa a.key (if put then some v else none) with
    | (s, .ok (some v)) =>
      let x := { x with s := s }
      let x := if put then x else x.modG fun g => g.wrAll 2 ls d (v.zeroExtend 128)
      let x := if tr then x.setP6 ls fun _ => false else x
      x.mbSteps put tr d b t
    | (s, .ok none) =>
      if tr then ({ x with s := s }.setP6 ls fun _ => true).mbSteps put tr d b t
      else
        let (x, r) := { x with s := s }.mbSteps put tr d b t
        (x, a.lane :: r)
    | (s, .error _) =>
      let (x, r) := { x with s := s }.mbSteps put tr d b t
      (x, a.lane :: r)

/-- Lanes whose step is complete go on before a cause of another lane is reported. -/
def X.splitDone (x : X) (h : Hdr) : X :=
  let rest := x.g.guardLanes h x.m &&& ~~~x.lanes
  if x.resume.isSome && rest != 0 then { x with s := x.advance (x.m &&& ~~~x.lanes), g := x.move (x.m &&& ~~~x.lanes) x.next, m := x.lanes } else x

/-- The steps of the lanes that are left (R193). -/
def X.mailbox (x : X) (i : Instr) (h : Hdr) (put tr : Bool) (d a b : Reg) (w : Wait) : State :=
  let (x, cs) := X.checkEach (fun x l => x.mbCheck put a l) x x.acting
  let x := if cs.any (·.err.isSome) then x.splitDone h else x
  let todo := (x.mbSteps put tr d b ((cs.filter (·.err.isNone)).map (·.acc))).2
  let acq (x : X) : X := if put then x else x.modS fun s => s.acquireAt x.core .dev
  x.memOutcome false .atomic cs (fun x accs => acq (x.mbSteps put tr d b accs).1) fun x m =>
    let left := x.maskAll todo &&& m
    if left = 0 then x.advance m
    else x.s.setGroup x.gid (x.g.hold m x.pc (.waiting { w with why := .mailbox, ins := some i, lanes := left, rel := none, ops := [] }))

def X.mbVals (x : X) (a b : Reg) : X := x.uniformU fun l => [x.g.rd64 l a, x.g.rd64 l b]

/-- The causes of lanes end in lanes that park while the others act, and not in a trap (R147). -/
def X.parks (x : X) (cs : List LaneCheck) : Bool :=
  let es := cs.filterMap (·.err)
  !x.g.priv && es.any fun e => e.cause == .pageNotPresent && es.all fun d => e.cause.rank ≤ d.cause.rank

/-- R193. The puts come after the release, also where other lanes park (R231). -/
def execMbput (h : Hdr) (tr : Bool) (a b : Reg) (s : State) : Host.Outcome State Fault Refusal :=
  s.withIssue (.mbput h tr a b) h fun x => x.unlessEmpty fun x =>
    let x := x.mbVals a b
    let (x, cs) := X.checkEach (fun x l => x.mbCheck true a l) x x.acting
    if x.resume.isNone && cs.any (·.err.isSome) && !x.parks cs then x.mailbox (.mbput h tr a b) h true tr .zero a b (Wait.of .mailbox none x.lanes)
    else x.afterRel (.mbput h tr a b) .dev fun x w => x.mailbox (.mbput h tr a b) h true tr .zero a b w

def execMbget (h : Hdr) (tr : Bool) (d a : Reg) (s : State) : Host.Outcome State Fault Refusal :=
  s.withIssue (.mbget h tr d a) h fun x => x.unlessEmpty fun x =>
    let x := x.mbVals a .zero
    x.mailbox (.mbget h tr d a) h false tr d a .zero (x.resume.getD (Wait.of .mailbox none x.lanes))

/-- A run that waits at a mailbox. -/
def Group.mailboxRun (g : Group) (lanes : Lanes) : Option (Run × Wait × Instr) :=
  g.runs.findSome? fun r => match r.st with
    | .waiting w => if w.why == .mailbox && r.lanes == lanes then w.ins.map fun i => (r, w, i) else none
    | _ => none

/-- R193: the core sends a returned step again. -/
def execMailboxStepRetry (gid : Nat) (lanes : Lanes) (s : State) : Host.Outcome State Fault Refusal :=
  match (s.group? gid).bind fun g => g.mailboxRun lanes with
  | none => .next s
  | some (r, w, i) =>
    let s := { s with cur := some { gid := gid, lanes := r.lanes, pc := r.pc, resume := some w } }
    let out := match i with
      | .mbput h tr a b => execMbput h tr a b s
      | .mbget h tr d a => execMbget h tr d a s
      | _ => .next s
    match out with
    | .next s => .next { s with cur := none }
    | o => o

-- The tile directory

def State.dirOf (s : State) (core n : Nat) : DirEntry := (s.core core).dir.get DirEntry.reset n

def State.setDir (s : State) (core n : Nat) (e : DirEntry) : State := s.modCore core fun c => { c with dir := c.dir.put DirEntry.reset n e }

/-- The lowest-numbered FREE entry (R269). -/
def State.freeDir (s : State) (core : Nat) : Option Nat := (List.range 128).find? fun n => (s.dirOf core n).st == .free

def execDirins (h : Hdr) (pin : Bool) (d a b : Reg) (s : State) : Host.Outcome State Fault Refusal :=
  s.withIssue (.dirins h pin d a b) h fun x => x.unlessEmpty fun x =>
    let x := x.once fun l => [x.g.rd64 l a, x.g.rd64 l b]
    let v := x.g.rd64 x.low b
    let off := Dword.field v 0 32
    let len := Dword.field v 32 32
    if off % 16 ≠ 0 || len % 16 ≠ 0 then x.trap .misaligned x.lanes v else
    match (x.s.wgs.find x.g.info.wg).bind fun w => (x.s.allocs.find w.alloc).map fun al => (w, al) with
    | none => x.trap .permission x.lanes v
    | some (w, al) =>
      if len = 0 || off + len > al.size then x.trap .permission x.lanes v else
      match x.s.freeDir x.core with
      | none => (x.putAll 1 d 0xFFFFFFFF).done
      | some n =>
        let e : DirEntry :=
          { st := if pin then .pinned else .valid, key := x.g.rd64 x.low a, asid := (x.s.ctx x.g.info.ctx).asid, alloc := w.alloc, gen := al.gen,
            off := off, len := len, deferred := [] }
        ((x.modS fun s => s.setDir x.core n e).putAll 1 d (BitVec.ofNat 128 n)).done

/-- An entry that an instruction of a context may name: its number is in range and its ASID the context's. -/
def X.dirNamed (x : X) (n : Nat) : DirEntry :=
  let e := x.s.dirOf x.core n
  if n < 128 && e.asid = (x.s.ctx x.g.info.ctx).asid then e else DirEntry.reset

def execDirdel (h : Hdr) (a : Reg) (s : State) : Host.Outcome State Fault Refusal :=
  s.withIssue (.dirdel h a) h fun x => x.unlessEmpty fun x =>
    let x := x.once fun l => [(x.g.rd32 l a).zeroExtend 64]
    let n := (x.g.rd32 x.low a).toNat
    match (x.dirNamed n).st with
    | .valid | .pinned => ((x.modS fun s => s.setDir x.core n DirEntry.reset).setP6 x.list fun _ => false).done
    | _ => (x.setP6 x.list fun _ => true).done

/-- A directory holds back nothing: a move's operation is one of TL (R76, R195). -/
def X.moveOp (x : X) (d : Reg) : MemOp :=
  { gid := x.gid, pc := x.pc, kind := .other, size := 4, sx := false, nf := false, scope := .none, acq := false, u := true, lanes := x.lanes, d := some d,
    accs := [LaneAcc.at_ x.low 0 0 0 10 0 0], inTrap := false, ctr := 3, atom := none, fe := none, held := none, sent := 0, sentCc := 0, due := 0, ready := false }

def execTmove (h : Hdr) (d a b : Reg) (s : State) : Host.Outcome State Fault Refusal :=
  s.withIssue (.tmove h d a b) h fun x => x.unlessEmpty fun x =>
    let x := x.once fun l => [(x.g.rd32 l a).zeroExtend 64, (x.g.rd32 l b).zeroExtend 64]
    let n := (x.g.rd32 x.low a).toNat
    let addr := (x.g.rd32 x.low b).toNat
    if addr % 16 ≠ 0 then x.trap .misaligned x.lanes (BitVec.ofNat 64 addr)
    else if addr < 0x80000 || addr ≥ 0x200000 then x.trap .permission x.lanes (BitVec.ofNat 64 addr)
    else
      let e := x.dirNamed n
      let (x, op) := x.launchOp (x.moveOp d) (RegUse.codes (d, 1)) none
      if e.st != .valid then (x.sync fun s => s.laneDone op x.low (some (leBytes 3 4)) none).done else
      let tgt := match x.s.wgs.find x.g.info.wg with
        | some w => x.s.memberEnd x.g.info.wg ((w.member + addr / 0x80000) % 4)
        | none => x.s.memberEnd x.g.info.wg 0
      let size := ((x.s.allocs.find tgt.alloc).map (·.size)).getD 0
      let off := addr % 0x80000
      let status := if tgt.code.isSome then some 7 else if off + e.len > size then some 8 else none
      (x.sync fun s =>
        let (id, s) := s.newSerial
        let (lat, s) := s.freeLat
        let mv : Move :=
          { id := id, core := x.core, gid := x.gid, op := op, entry := n, target := tgt.core, tAlloc := tgt.alloc, tGen := tgt.gen, tOff := off,
            status := status, issued := s.clock.ns, due := s.cc + lat }
        ((s.setDir x.core n { e with st := .moving, deferred := [] }).modBte (clusterOf x.core) fun q => { q with moves := q.moves ++ [mv] }).schedule mv.due
          (.tmoveComplete (clusterOf x.core) id)).done

-- Solicit and census

/-- Responder slots of a core: partition and slot (R273). -/
def State.busySlot (s : State) (core part slot : Nat) : Bool :=
  (s.groups.any fun p => p.2.isResponder && p.2.sched.resident && p.2.info.core == core && p.2.info.part == part && p.2.info.place == 33 + slot) ||
  (s.core core).spawn.any fun e => e.slot.any fun q => q.1 == part && q.2.1 == slot

def State.busySlots (s : State) (core part : Nat) : Nat := ((List.range 2).filter (s.busySlot core part)).length

/-- The slot that the oldest queue entry takes (R273). -/
def State.pickSlot (s : State) (core : Nat) : Option (Nat × Nat) :=
  let b0 := s.busySlots core 0
  let b1 := s.busySlots core 1
  let part := if b1 < b0 then 1 else 0
  ((List.range 2).find? fun n => !s.busySlot core part n).map fun n => (part, n)

/-- The oldest entry without a slot takes one. -/
def takeSlot (slot : Nat × Nat × Nat) : List Spawn → List Spawn
  | [] => []
  | e :: t => if e.slot.isNone then { e with slot := some slot } :: t else e :: takeSlot slot t

/-- The oldest queue entries take the free slots: their responders start 8 cc later (R273). -/
def State.kickSpawns (s : State) (core : Nat) : Nat → State
  | 0 => s
  | n + 1 =>
    match s.pickSlot core with
    | none => s
    | some (part, slot) =>
      if (s.core core).spawn.all (·.slot.isSome) then s else
      ((s.modCore core fun c => { c with spawn := takeSlot (part, slot, s.cc + 8) c.spawn }).schedule (s.cc + 8) (.responderStart core)).kickSpawns core n

def State.kickSpawn (s : State) (core : Nat) : State := s.kickSpawns core 4

/-- A match is queued at a core, or answered at once when the queue is full (R272). -/
def State.queueSpawn (s : State) (core : Nat) (e : Spawn) : State :=
  if (s.core core).spawn.length ≥ 256 then s.sendReply e.census (cenIdentity (s.censusAt (e.census % 2048)).comb) true
  else (s.modCore core fun c => { c with spawn := c.spawn ++ [e] }).kickSpawn core

/-- The queue entry of a tile for a census. -/
def State.spawnOf (s : State) (ref : Nat) (e : DirEntry) : Spawn :=
  let c := s.censusAt (ref % 2048)
  { census := ref, key := e.key, alloc := e.alloc, off := e.off, len := e.len, arg := c.arg, pc := c.pc, ctx := c.ctx, slot := none }

/-- Responders deferred to the end of a move are queued, in list order, with the tile's address at that time (R276). -/
def State.queueDeferred (s : State) (core : Nat) (e : DirEntry) : List Spawn → State
  | [] => s
  | q :: t => (s.queueSpawn core { q with alloc := e.alloc, off := e.off, len := e.len }).queueDeferred core e t

/-- The end of a move: the bytes, the target entry, the source entry, the status (R195, R269, R276). -/
def State.finishMove (s : State) (cluster : Nat) (mv : Move) : State :=
  let s := s.modBte cluster fun q => { q with moves := q.moves.filter (·.id != mv.id) }
  let e := s.dirOf mv.core mv.entry
  let back (s : State) (code : Nat) : State :=
    let e' := { e with st := .valid, deferred := [] }
    ((s.setDir mv.core mv.entry e').queueDeferred mv.core e' e.deferred).laneDone mv.op (((s.ops.find mv.op).bind fun o => (o.accs.head?).map (·.lane)).getD 0)
      (some (leBytes code 4)) none
  match mv.status with
  | some c => back s c
  | none =>
    let (src, from_) := match s.allocs.find e.alloc with
      | some al => (s.spad al.core, al.base + e.off)
      | none => (Spad.reset, 0)
    let bytes := src.read from_ e.len
    let start := ((s.allocs.find mv.tAlloc).map (·.base)).getD 0 + mv.tOff
    if s.stale mv.tAlloc mv.tGen start e.len mv.issued s.clock.ns then back (s.modCore mv.target fun c => c.addStale (spans start e.len)) 1
    else
      let s := s.modSpad mv.target fun p => p.writeTags start bytes fun i => src.tagOf (from_ + 16 * i)
      match s.freeDir mv.target with
      | none => back s 9
      | some n =>
        let t : DirEntry := { e with st := .valid, alloc := mv.tAlloc, gen := mv.tGen, off := mv.tOff, deferred := [] }
        let s := (s.setDir mv.core mv.entry DirEntry.reset).setDir mv.target n t
        (s.queueDeferred mv.target t e.deferred).laneDone mv.op (((s.ops.find mv.op).bind fun o => (o.accs.head?).map (·.lane)).getD 0)
          (some (leBytes (n * 256) 4)) none

/-- R195. -/
def execTmoveComplete (cluster id : Nat) (s : State) : Host.Outcome State Fault Refusal :=
  .next <|
    match (s.bte cluster).moves.find? fun m => m.id == id && decide (m.due ≤ s.cc) with
    | none => s
    | some mv => s.finishMove cluster mv

/-- R196. DESIGN CHOICE (log 89): of several free census slots the lowest-numbered is taken. -/
def execSolicit (h : Hdr) (comb : BitVec 3) (d : Reg) (k : Fin 64) (s : State) : Host.Outcome State Fault Refusal :=
  s.withIssue (.solicit h comb d k) h fun x => x.collective fun x =>
    let sreg (n : Nat) : Dword := x.g.regs.s.get 0 (k.val + n)
    let pc := sreg 3
    if Dword.field pc 48 16 ≠ 0 || Dword.field pc 0 2 ≠ 0 then x.trap .misaligned x.m pc else
    match (List.range 4).find? fun n => (x.s.censusAt (x.core * 4 + n)).st == .free with
    | none => x.wait (x.resume.getD (Wait.of .census (some (.solicit h comb d k)) x.lanes))
    | some slot =>
      let id := x.core * 4 + slot
      let (serial, s) := x.s.newSerial
      let c : Census :=
        { st := .opened, serial := serial, wg := x.g.info.wg, gid := x.gid, ctx := x.g.info.ctx, asid := (s.ctx x.g.info.ctx).asid,
          comb := comb.toNat, key := sreg 0, mask := sreg 1, arg := sreg 2, pc := pc, reports := 0, spawned := 0, replies := 0,
          value := cenIdentity comb.toNat, err := false, age := 0 }
      let s := (s.setCensus id c).schedule (s.cc + 49) (.solicitSnapshot (cenRef serial id))
      ({ x with s := s }.putAll 1 d (BitVec.ofNat 128 id)).done

/-- R271. -/
def Census.matches_ (c : Census) (e : DirEntry) : Bool := e.st != .free && e.asid == c.asid && (e.key &&& c.mask) == (c.key &&& c.mask)

/-- A match at the snapshot: queued, or deferred while the tile moves (R272, R276). -/
def State.takeMatch (s : State) (ref core n : Nat) : State :=
  let e := s.dirOf core n
  if e.st == .moving && e.deferred.length < 4 then s.setDir core n { e with deferred := e.deferred ++ [s.spawnOf ref e] }
  else s.queueSpawn core (s.spawnOf ref e)

/-- One core's part of a snapshot, and its report within 96 cc (R267, R272). -/
def State.snapshotCore (s : State) (ref : Nat) (c : Census) (core : Nat) : State :=
  let hits := if s.resident.any fun r => (s.ctx r).asid == c.asid then ((s.core core).dir.filter fun p => c.matches_ p.2).map (·.1) else []
  let s := hits.foldl (fun s n => s.takeMatch ref core n) s
  let (lat, s) := s.freeLat
  s.schedule (s.cc + lat % 97) (.censusReport ref hits.length)

/-- R270: the census snapshot. -/
def execSolicitSnapshot (ref : Nat) (s : State) : Host.Outcome State Fault Refusal :=
  .next <|
    match s.census? ref with
    | none => s
    | some c =>
      if !(c.st == .opened || c.st == .orphan) || s.resident != some c.ctx then s else
      let s := s.setCensus (ref % 2048) { c with st := if c.st == .opened then .counting else .orphan, age := 0 }
      (List.range 384).foldl (fun s core => s.snapshotCore ref c core) s

/-- R275: every core has reported and every match is answered. -/
def Census.settle (c : Census) : Census :=
  if c.reports = 384 ∧ c.replies = c.spawned then
    (match c.st with
      | .counting => { c with st := .complete }
      | .orphan => Census.reset
      | _ => c)
  else c

def execCensusReport (ref n : Nat) (s : State) : Host.Outcome State Fault Refusal :=
  .next <|
    match s.census? ref with
    | none => s
    | some c =>
      if c.st == .counting || c.st == .orphan then
        s.setCensus (ref % 2048) { c with reports := c.reports + 1, spawned := c.spawned + n }.settle
      else s

/-- R198. -/
def cenCombine (comb : Nat) (a v : Dword) : Dword :=
  match comb with
  | 0 => (a.truncate 32 + v.truncate 32 : Word).zeroExtend 64
  | 1 => a + v
  | 2 => if a.toInt ≤ v.toInt then a else v
  | 3 => if a.toInt ≥ v.toInt then a else v
  | 4 => a &&& v
  | 5 => a ||| v
  | _ => a + v

/-- What a reply contributes. -/
def cenContrib (comb : Nat) (v : Dword) : Dword := if comb = 6 then 1 else v

/-- A reply reaches its slot; its value is the contribution already (R198). -/
def execCensusReply (ref : Nat) (value : Dword) (err : Bool) (s : State) : Host.Outcome State Fault Refusal :=
  .next <|
    match s.census? ref with
    | none => s
    | some c =>
      if c.st == .counting || c.st == .orphan then
        s.setCensus (ref % 2048) { c with replies := c.replies + 1, value := cenCombine c.comb c.value value, err := c.err || err }.settle
      else s

/-- The time since the snapshot has reached SYS.CENLIM (R199, R278). -/
def State.censusLate (s : State) (c : Census) : Bool :=
  let lim := (s.ctx c.ctx).cenlim.toNat
  lim != 0 && (c.st == .counting || c.st == .orphan) && decide (lim * 1000 ≤ c.age)

def execCensusTimeout (ref : Nat) (s : State) : Host.Outcome State Fault Refusal :=
  .next <|
    match s.census? ref with
    | none => s
    | some c =>
      if !s.censusLate c then s
      else if c.st == .orphan then s.setCensus (ref % 2048) Census.reset
      else
        (s.setCensus (ref % 2048) { c with st := .closed, err := true }).pendTrap c.gid
          { cause := .censusTimeout, mask := 0, pc := none, npc := none, addr := BitVec.ofNat 64 (ref % 2048), inTrap := false, run := none, other := false }

/-- The responder of a queue entry (R273). -/
def State.responder (s : State) (e : Spawn) (core part slot : Nat) : Group :=
  let wg := ((s.allocs.find e.alloc).map (·.wg)).getD 0
  let info : GInfo :=
    { kind := .responder e.census false, ctx := e.ctx, core := core, part := part, place := 33 + slot, wg := wg,
      launch := ((s.wgs.find wg).map (·.launch)).getD 0, role := 0, width := 8, budget := 32, fair := defaultFair, prio := 2, wid := none }
  freshGroup info (dwordPc e.pc) [e.key.toNat, e.off, e.arg.toNat, e.len] s.cc

/-- The oldest entry whose slot is ready starts its responder there (R273). -/
def execResponderStart (core : Nat) (s : State) : Host.Outcome State Fault Refusal :=
  .next <|
    match takeFirst (fun e : Spawn => e.slot.any fun q => q.2.2 ≤ s.cc) (s.core core).spawn with
    | some (e, t) => match e.slot with
      | some (part, slot, _) => (s.modCore core fun c => { c with spawn := t }).addGroup (s.responder e core part slot)
      | none => s
    | none => s

def execReply (h : Hdr) (a : Reg) (s : State) : Host.Outcome State Fault Refusal :=
  s.withIssue (.reply h a) h fun x => x.unlessEmpty fun x =>
    if x.m != x.g.live then x.trap .illegalConvergence x.m 0 else
    let x := x.once fun l => [x.g.rd64 l a]
    x.afterRel (.reply h a) .dev fun x _ =>
      let v := x.g.rd64 x.low a
      match x.g.info.kind with
      | .responder ref _ =>
        let v := cenContrib (x.s.censusAt (ref % 2048)).comb v
        let g := { x.g with info := { x.g.info with kind := .responder ref true } }.leave x.m
        (x.s.setGroup x.gid g).sendReply ref v false
      | _ => x.flush

/-- The slot that a census id names for a group's workgroup (R199). -/
def X.censusOf (x : X) (id : Nat) : Option Census :=
  let c := x.s.censusAt id
  if id < 1536 && c.wg = x.g.info.wg && c.st != .free && c.st != .orphan then some c else none

def Census.over_ (c : Census) : Bool := c.st == .complete || c.st == .closed

def execCensus (h : Hdr) (d a : Reg) (s : State) : Host.Outcome State Fault Refusal :=
  s.withIssue (.census h d a) h fun x => x.collective fun x =>
    let x := x.once fun l => [(x.g.rd32 l a).zeroExtend 64]
    let id := (x.g.rd32 x.low a).toNat
    match x.censusOf id with
    | none => x.trap .operandEncoding x.lanes (BitVec.ofNat 64 id)
    | some c =>
      if !c.over_ then x.wait (x.resume.getD (Wait.of .census (some (.census h d a)) x.lanes))
      else
        (((x.modS fun s => (s.setCensus id Census.reset).acquireAt x.core .dev).putAll 2 d (c.value.zeroExtend 128)).setP6 x.list fun _ => c.err).done

def execCenpoll (h : Hdr) (p : Fin 8) (a : Reg) (s : State) : Host.Outcome State Fault Refusal :=
  s.withIssue (.cenpoll h p a) h fun x => x.unlessEmpty fun x =>
    let x := x.once fun l => [(x.g.rd32 l a).zeroExtend 64]
    let id := (x.g.rd32 x.low a).toNat
    match x.censusOf id with
    | none => x.trap .operandEncoding x.lanes (BitVec.ofNat 64 id)
    | some c => (x.modG fun g => g.wrPAll p.val x.list fun _ => c.over_).done

-- Work graphs

/-- An entry of a node table (R288). -/
structure Node where
  pc : Nat
  reclen : Nat
  coalesce : Nat
  width : Nat
  regs : Nat
  timer : Nat
  prio : Nat
  ok : Bool
  deriving DecidableEq, Repr

def nodeOf (bs : List Byte) : Node :=
  let pc := recNat bs 0 8
  let reclen := recNat bs 8 2
  let co := recNat bs 10 1
  let width := recNat bs 11 1
  let regs := recNat bs 12 2
  let ctrl := recNat bs 16 1
  { pc := pc, reclen := reclen, coalesce := co, width := width, regs := regs, timer := recNat bs 14 2, prio := ctrl % 4,
    ok := decide (ctrl ≥ 128) && pc % 4 == 0 && decide (pc < 2 ^ 48) && reclen % 16 == 0 && decide (16 ≤ reclen) && decide (reclen ≤ 256) &&
      decide (1 ≤ co) && decide (co ≤ 64) && [8, 16, 32, 64].contains width && regs % 8 == 0 && decide (8 ≤ regs) && decide (regs ≤ 384) &&
      decide (ctrl % 4 ≤ 2) }

/-- The node that an index names for a launch: the table is read in the space of the core that issued `launch`, and the walk leaves its
A bit (R353, R354). DESIGN CHOICE (log 22): an entry that breaks R288, and a table that cannot be read, hold no valid node. -/
def State.nodeRead (s : State) (lch n : Nat) : State × Option Node :=
  match s.launches.find lch with
  | none => (s, none)
  | some l =>
    if l.graph = 0 || n ≥ 256 then (s, none) else
    match s.vbytes l.core l.space (l.graph + 32 * n) 32 with
    | (s, .error _) => (s, none)
    | (s, .ok bs) => (s, if (nodeOf bs).ok then some (nodeOf bs) else none)

def State.nodeAt (s : State) (lch n : Nat) : Option Node := (s.nodeRead lch n).2

def binNo (lch node : Nat) : Nat := lch * 256 + node

def State.bin (s : State) (k : Nat) : Bin := s.bins.get { records := [], waiting := [] } k
def State.setBin (s : State) (k : Nat) (b : Bin) : State := { s with bins := s.bins.put { records := [], waiting := [] } k b }

/-- A bin holds enough records, or the oldest has waited long enough (R289). -/
def State.binDue (s : State) (nd : Node) (b : Bin) : Bool :=
  match b.records with
  | [] => false
  | r :: _ => decide (nd.coalesce ≤ b.records.length) || (nd.timer != 0 && decide (r.1 + nd.timer * 1000 ≤ s.clock.ns))

/-- The first core that takes a node's group (R281). -/
def State.nodePlace (s : State) (nd : Node) : Option (Nat × Nat × Nat × List (Nat × Nat)) :=
  let sp := s.spots
  (List.range 384).findSome? fun core =>
    (s.placeOn core (nd.coalesce * nd.reclen) [nd.regs * nd.width * 4] sp (s.ranges core)).map fun p => (core, p)

/-- The group of a node (R289). -/
def nodeGroup (wg lch ctx core part place n count : Nat) (nd : Node) (cc : Nat) : Group :=
  let info : GInfo :=
    { kind := .node, ctx := ctx, core := core, part := part, place := place, wg := wg, launch := lch, role := 0, width := nd.width,
      budget := nd.regs, fair := defaultFair, prio := nd.prio, wid := none }
  freshGroup info (BitVec.ofNat 48 nd.pc) [count, 0, n] cc

def State.enterWg (s : State) (wg : Nat) (members : List (Nat × Nat)) (gids : List Nat) : State :=
  match s.wgs.find wg with
  | some w => { s with wgs := s.wgs.ins wg { w with members := members, groups := gids } }
  | none => s

/-- A bin that is due fires, where its group can be placed (R289). -/
def State.fireBin (s : State) (lch n : Nat) : State :=
  let k := binNo lch n
  let b := s.bin k
  match s.nodeRead lch n, s.launches.find lch with
  | (s, some nd), some l =>
    if !s.binDue nd b || s.resident != some l.ctx then s else
    match s.nodePlace nd with
    | some (core, base, gen, (part, place) :: _) =>
      let take := min b.records.length nd.coalesce
      let (team, s) := s.newSerial
      let (wg, s) := s.newWg l.ctx core lch team 0 base (nd.coalesce * nd.reclen) gen
      let bytes := ((b.records.take take).map (·.2)).flatten
      let s := s.modSpad core fun p => p.write 0 base bytes
      let s := s.enterWg wg [(core, wg)] [gidOf core part place l.ctx]
      (s.addGroup (nodeGroup wg lch l.ctx core part place n take nd s.cc)).setBin k { b with records := b.records.drop take }
    | _ => s
  | (s, _), _ => s

/-- Records of a core that its replay window for a bin holds. -/
def State.binWindow (s : State) (core k : Nat) : Nat := ((s.bin k).waiting.filter (·.1 == core)).length

/-- A record reaches its bin, or waits for its next sending (R289, R290). -/
def State.postRecord (s : State) (core lch n : Nat) (bs : List Byte) : State :=
  let k := binNo lch n
  let b := s.bin k
  if s.binWindow core k = 0 && b.records.length < 64 then
    (s.setBin k { b with records := b.records ++ [(s.clock.ns, bs)] }).fireBin lch n
  else
    let first := s.binWindow core k = 0
    let s := s.setBin k { b with waiting := b.waiting ++ [(core, bs)] }
    if first then
      (s.modCore core fun c => c.modPath (binKey k) fun p => { p with nacks := 1 }).schedule (s.cc + (s.core core).backoff 1) (.replayResend core (binKey k))
    else s

/-- The first record of a core's window enters the bin. -/
def State.acceptRecord (s : State) (core k : Nat) : State × Bool :=
  let b := s.bin k
  if b.records.length ≥ 64 then (s, false) else
  match takeFirst (fun r : Nat × List Byte => r.1 == core) b.waiting with
  | none => (s, false)
  | some (r, t) => ((s.setBin k { records := b.records ++ [(s.clock.ns, r.2)], waiting := t }).fireBin (k / 256) (k % 256), true)

def State.acceptRecords (s : State) (core k : Nat) : Nat → State
  | 0 => s
  | n + 1 => match s.acceptRecord core k with
    | (s, true) => s.acceptRecords core k n
    | (s, false) => s

/-- Refused records are sent again (R290). -/
def State.resendRecords (s : State) (core k : Nat) : State :=
  let n := s.binWindow core k
  let s := s.acceptRecords core k n
  if s.binWindow core k = 0 then s.modCore core fun c => c.modPath (binKey k) fun _ => Path.reset
  else
    let j := if s.binWindow core k < n then 1 else ((s.core core).paths.get Path.reset (binKey k)).nacks + 1
    (s.modCore core fun c => c.modPath (binKey k) fun p => { p with nacks := j }).schedule (s.cc + (s.core core).backoff j) (.replayResend core (binKey k))

/-- One lane's checks of `nrec`: its highest cause (R147). A record of no valid node has no length: its address alone counts. -/
def X.nrecCheck (a b : Reg) (x : X) (l : Nat) : X × LaneCheck :=
  let n := (x.g.rd32 l a).toNat
  let addr := (x.g.rd32 l b).toNat
  let (s, nd) := x.s.nodeRead x.g.info.launch n
  let x := { x with s := s }
  let len := nd.elim 1 (·.reclen)
  (x, if addr % 16 ≠ 0 then .bad l addr (errOf .misaligned)
    else if x.watchHit true true false addr len then .bad l addr (errOf .watch)
    else match x.ownRange addr len, nd with
      | none, _ => .bad l addr (errOf .permission)
      | some _, none => .bad l n (errOf .operandEncoding)
      | some (core, off), some nd => { lane := l, va := n, acc := .at_ l n off nd.reclen 4 core 0, err := none })

/-- Records are read and posted in lane order until a replay window is full: the lanes that are left. -/
def X.postRecords (x : X) : List LaneAcc → X × List Nat
  | [] => (x, [])
  | a :: t =>
    if x.s.binWindow x.core (binNo x.g.info.launch a.va) ≥ windowSize then (x, (a :: t).map (·.lane))
    else (x.sync fun s => s.postRecord x.core x.g.info.launch a.va ((s.spad a.alloc).read a.pa a.key)).postRecords t

def execNrec (h : Hdr) (a b : Reg) (s : State) : Host.Outcome State Fault Refusal :=
  s.withIssue (.nrec h a b) h fun x => x.unlessEmpty fun x =>
    let x := x.uniformU fun l => [(x.g.rd32 l a).zeroExtend 64, (x.g.rd32 l b).zeroExtend 64]
    let (x, cs) := X.checkEach (X.nrecCheck a b) x x.acting
    if cs.any (·.err.isSome) then
      let x := x.splitDone h
      x.memOutcome false .read cs (fun x _ => x) X.advance
    else x.afterRel (.nrec h a b) .dev fun x w =>
      let (x, left) := x.postRecords (cs.map (·.acc))
      if left.isEmpty then x.done
      else x.wait { w with why := .window 512, ins := some (.nrec h a b), lanes := x.maskAll left, rel := none, ops := [] }

/-- R289. -/
def execNodeBinTimer (lch node : Nat) (s : State) : Host.Outcome State Fault Refusal := .next (s.fireBin lch node)

end Sys2Proof.Machine
end

