-- ==== Sys2Proof/Machine/System.lean ====
section
/-! DEFINITION. System calls (R201 to R204), system registers (R205 to R209, R283, R297, R310, R315, R330), translation and
cache instructions (R210, R211), halt, timer (R213, R214), debug (R219, R220, R330 to R338), and the events of
interrupts, traps and fault records, groups and workgroups (R30, R31, R36, R298 to R307). -/

namespace Sys2Proof.Machine

-- System calls (R201 to R204)

/-- The SVQ entry of a system call (R202). -/
def X.sysEntry (x : X) (n lane : Nat) : SvqEntry :=
  let head := svqHead 0 x.g.info.ctx lane n (x.s.ctx x.g.info.ctx).asid x.g.info.part x.g.resp x.g.slot x.pc
  let regs := (List.range 8).map fun k => x.g.regs.v.get 0 (vKey k lane)
  { words := head ++ [0, 0, 0, 0] ++ regs, kind := 0, ctx := x.g.info.ctx, gid := x.gid, lane := lane, posted := 0, tag := 0 }

/-- Entries are posted lane by lane while the replay window has room: the lanes posted (R201, R290). -/
def X.sysPosts (x : X) (n : Nat) : List Nat × State :=
  x.list.foldl (fun a l =>
    if (a.2.core x.core).svqWin.length < windowSize then (a.1 ++ [l], a.2.svqPost x.core (x.sysEntry n l)) else a) ([], x.s)

def execSys (h : Hdr) (n : BitVec 16) (s : State) : Host.Outcome State Fault Refusal :=
  s.withIssue (.sys h n) h fun x =>
    if x.g.isSuper then x.trap .privilege x.m 0 else
    x.unlessEmpty fun x =>
      if x.g.sys.intrap && x.resume.isNone then x.trap .syscall x.lanes 0 else
      let (ls, s) := x.sysPosts n.toNat
      let left := x.lanes &&& ~~~lanesOf ls
      let g := (x.g.goto (x.m &&& ~~~x.lanes) x.next).hold (lanesOf ls) x.pc .syscallParked
      s.setGroup x.gid (if left = 0 then g else g.hold left x.pc (.waiting (Wait.of (.window svqKey) (some (.sys h n)) left)))

/-- One lane takes the oldest entry (R203). -/
def X.popOne (x : X) (d : Fin 384) (l : Nat) : X :=
  match (x.s.core x.core).svq with
  | [] => x.setP6 [l] fun _ => true
  | e :: t =>
    let x := x.modS fun s => s.modCore x.core fun c => { c with svq := t }
    let x := x.modG fun g => (e.words.zipIdx).foldl (fun g w => g.modRegs fun r => { r with v := r.v.put 0 (vKey (d.val + w.2) l) w.1 }) g
    x.setP6 [l] fun _ => false

def execSvqpop (h : Hdr) (d : Fin 384) (s : State) : Host.Outcome State Fault Refusal :=
  s.withIssue (.svqpop h d) h fun x => (x.list.foldl (fun x l => x.popOne d l) x).done

/-- Bits of a word. -/
def Word.field (w : Word) (lo n : Nat) : Nat := w.toNat / 2 ^ lo % 2 ^ n

/-- The group and lane that W0 and W1 of an entry name (R202, R204). -/
def callerNamed (core : Nat) (w0 w1 : Word) : Nat × Nat :=
  let place := if Word.field w1 5 1 = 1 then 33 + Word.field w1 0 5 else Word.field w1 0 5
  (gidOf core (Word.field w1 8 1) place (Word.field w0 22 6), Word.field w0 16 6)

def callAt (rs : List Run) (lane : Nat) : Option Pc := (rs.find? fun r => r.st == .syscallParked && r.lanes.getLsbD lane).map (·.pc)

/-- The runs of a halted run's lanes that the shadow keeps (R332). -/
def Group.shadowRuns (g : Group) : List Run := (g.sys.shadow.map (·.runs)).getD []

def Group.modShadow (g : Group) (f : List Run → List Run) : Group :=
  { g with sys := { g.sys with shadow := g.sys.shadow.map fun sh => { sh with runs := f sh.runs } } }

/-- Where a lane is parked at a `sys`. -/
def Group.parkedAt (g : Group) (lane : Nat) : Option Pc := (callAt g.runs lane).or (callAt g.shadowRuns lane)

/-- The caller that W0 and W1 of an entry name, while it is parked at a `sys` (R204). -/
def State.callerOf (s : State) (core : Nat) (w0 w1 : Word) : Option (Nat × Nat) :=
  let c := callerNamed core w0 w1
  match s.group? c.1 with
  | none => none
  | some g =>
    if Word.field w0 28 4 = 0 && Word.field w1 16 12 = (s.ctx (Word.field w0 22 6)).asid && (g.parkedAt c.2).isSome then some c else none

/-- The caller goes on with its new V0 and V1. -/
def Group.sysReturn (g : Group) (lane : Nat) (v : Dword) : Group :=
  let g := g.modRegs fun r => { r with v := (r.v.put 0 (vKey 0 lane) (v.truncate 32)).put 0 (vKey 1 lane) ((v >>> 32).truncate 32) }
  match callAt g.runs lane, callAt g.shadowRuns lane with
  | some pc, _ => g.wake (laneBit lane) (pcAdd pc 8)
  | none, some pc =>
    g.modShadow fun rs => dropLanes (laneBit lane) rs ++ [{ lanes := laneBit lane, pc := pcAdd pc 8, st := .ready, stamp := g.sched.issues }]
  | none, none => g

/-- W0 and W1 as a lane of `sysret` holds them. -/
def X.callOf (x : X) (a : Reg) (l : Nat) : Word × Word := (x.g.rd32 l a, x.g.rd32 l (Reg.shift a 1))

/-- The lanes that return a caller: of several that name one, the lowest (R204). -/
def X.returners (x : X) (a : Reg) : List (Nat × Nat × Nat) :=
  x.list.foldl (fun cs l => match x.s.callerOf x.core (x.callOf a l).1 (x.callOf a l).2 with
    | some q => if cs.any (·.2 == q) then cs else cs ++ [(l, q)]
    | none => cs) []

/-- One lane of `sysret` returns its caller. -/
def X.returnOne (x : X) (a b : Reg) (l : Nat) : X :=
  let (gid, lane) := callerNamed x.core (x.callOf a l).1 (x.callOf a l).2
  let v := x.g.rd64 l b
  (x.sync fun s => (s.modGroup gid fun g => g.sysReturn lane v).acquireAt x.core .dev).setP6 [l] fun _ => false

/-- The lanes without a caller have P6 = 1 at once; the others wait for their release (R204). -/
def X.pickReturners (x : X) (a : Reg) : X :=
  let ok := lanesOf ((x.returners a).map (·.1))
  { x.setP6 (laneList (x.lanes &&& ~~~ok)) (fun _ => true) with lanes := ok }

def execSysret (h : Hdr) (a b : Reg) (s : State) : Host.Outcome State Fault Refusal :=
  s.withIssue (.sysret h a b) h fun x => x.unlessEmpty fun x =>
    let x := if x.resume.isSome then x else x.pickReturners a
    x.unlessEmpty fun x => x.afterRel (.sysret h a b) .dev fun x _ => (x.list.foldl (fun x l => x.returnOne a b l) x).done

-- The return from a handler (R209)

/-- A resume address that a return refuses. -/
def badResume (v : Dword) : Bool := Dword.field v 0 2 != 0 || Dword.field v 48 16 != 0

def X.endHandler (x : X) (iret : Bool) : State := x.unlessEmpty fun x =>
  let t := x.g.sys.trap
  if !x.g.sys.intrap then x.trap .privilege x.lanes 0
  else if t.run &&& x.g.live &&& ~~~x.m != 0 then x.trap .illegalConvergence x.m 0
  else if badResume t.npc then x.trap .misaligned x.lanes t.npc
  else x.s.setGroup x.gid ((x.g.goto (x.m &&& ~~~t.run) x.next).trapReturn iret)

def execIret (h : Hdr) (s : State) : Host.Outcome State Fault Refusal := s.withIssue (.iret h) h fun x => x.endHandler true

def execTrapretWrite (h : Hdr) (a : Reg) (s : State) : Host.Outcome State Fault Refusal :=
  s.withIssue (.trapretWrite h a) h fun x =>
    X.endHandler (if x.lanes = 0 then x else x.uniform fun l => [(x.g.rd32 l a).zeroExtend 64]) false

-- Reading system registers

/-- The context whose registers a group reaches: its own, for the supervisor group the resident one. DESIGN CHOICE (log 23):
with none resident, a set that belongs to no context. -/
def State.ctxOf (s : State) (g : Group) : Nat := if g.isSuper then s.resident.getD 64 else g.info.ctx

def bitIf (b : Bool) (n : Nat) : Nat := if b then 2 ^ n else 0

/-- R207. -/
def Group.status (g : Group) : Nat :=
  bitIf g.sys.debug 7 + bitIf g.sys.intrap 6 + bitIf g.isSuper 5 + bitIf g.sys.pie 4 + bitIf g.sys.ie 3

/-- R34. -/
def Group.gstat (g : Group) : Nat :=
  g.sys.escapes * 65536 + (if g.priv then 3 else g.info.prio % 4) * 64 + bitIf g.isSuper 5 + bitIf g.sys.uniformViolation 1

/-- R282. -/
def State.teamcore (s : State) (wg : Nat) : Nat :=
  match s.wgs.find wg with
  | none => 0
  | some w => ((w.members.zipIdx).map fun m => (2 ^ 15 + m.1.1) * 2 ^ (16 * m.2)).foldl (· + ·) 0

def LinkSt.code : LinkSt → Nat
  | .down => 0 | .training => 1 | .up => 2


/-- R315: SYS.LINKSTAT: state, active lanes and lanes retraining, by number. -/
def Link.stat (l : Link) : Nat := l.st.code * 2 ^ 30 + laneTally l.lanes (·.active) * 256 + laneTally l.lanes (·.training)

def Link.ctl (l : Link) : Nat := l.win * 2 ^ 28 + bitIf l.keep 25 + bitIf l.tray 24 + l.thresh

def State.selLink (s : State) : Nat := s.linkSel.toNat % 256
def State.selLane (s : State) : KLane := (s.link s.selLink).lanes.get KLane.reset (s.linkSel.toNat / 256 % 8)

/-- The trap registers of the selected group (R298). -/
def State.tgRegs (s : State) (core : Nat) : TrapRegs :=
  match (s.core core).tgSel.bind s.group? with
  | some g => g.sys.trap
  | none => { cause := 0, pc := 0, npc := 0, mask := 0, run := 0, addr := 0 }

/-- SYS.PREQ (R308). -/
def State.preqOf (s : State) (g : Group) : Nat :=
  let r := (s.ctx (s.ctxOf g)).preq
  bitIf r 0 + bitIf (r && s.partlyArrived g.info.wg) 1

/-- Per-partition debug registers (R330), of the partition that PSEL names. -/
def PartDbg.read (d : PartDbg) (n : Nat) : Nat :=
  if n = 0x042 then d.mbox.toNat
  else if n < 0x048 then (d.bp.get 0 (n - 0x044)).toNat
  else if n < 0x04C then (d.wbase.get 0 (n - 0x048)).toNat
  else if n < 0x050 then (d.wctl.get 0 (n - 0x04C)).toNat
  else if n = 0x050 then bitIf d.smpEn 31 + bitIf d.smpErr 30 + d.period
  else if n = 0x051 then d.smpbase.toNat
  else if n = 0x052 then d.smpsize.toNat
  else if n = 0x053 then d.smphead.toNat
  else if n = 0x054 then d.smptail.toNat
  else d.smpdrop.toNat

/-- SYS.DBGCTL (R330). -/
def Core.dbgctl (c : Core) : Nat :=
  c.psel * 4096 + bitIf c.part1.stopped.isSome 9 + bitIf c.part0.stopped.isSome 8 + bitIf c.part1.attach 1 + bitIf c.part0.attach 0

/-- Registers of the group, the core and the context (R206). -/
def State.sysRead1 (s : State) (g : Group) (n : Nat) : Nat :=
  let core := g.info.core
  let c := s.core core
  let k := s.ctx (s.ctxOf g)
  match n with
  | 0x000 => g.status
  | 0x001 => g.gstat
  | 0x002 => g.sys.fpctl.toNat
  | 0x003 => g.sys.fpstat.toNat
  | 0x008 => g.sys.trap.cause.toNat
  | 0x009 => g.sys.trap.pc.toNat
  | 0x00A => g.sys.trap.npc.toNat
  | 0x00B => g.sys.trap.mask.toNat
  | 0x00C => g.sys.trap.run.toNat
  | 0x00D => g.sys.trap.addr.toNat
  | 0x00E => g.sys.trapvec.toNat
  | 0x010 => s.time
  | 0x011 => c.timecmp.toNat
  | 0x012 => s.preqOf g
  | 0x013 => k.wdogCore * 2 ^ 32 + k.wdogLimit
  | 0x014 => c.asid
  | 0x015 => c.keyid
  | 0x016 => k.cenlim.toNat
  | 0x017 => k.barlim.toNat
  | 0x018 => c.stalewr.toNat
  | 0x019 => g.info.part * 512 + core
  | 0x01A => (s.ipendOf core).toNat
  | 0x01B => c.imask.toNat
  | 0x01D => c.svqTimer * 65536 + c.svqThresh
  | 0x01E => c.svq.length
  | 0x020 => c.ptbase.toNat
  | 0x023 => (s.tgRegs core).cause.toNat
  | 0x024 => (s.tgRegs core).pc.toNat
  | 0x025 => (s.tgRegs core).npc.toNat
  | 0x026 => (s.tgRegs core).mask.toNat
  | 0x027 => (s.tgRegs core).addr.toNat
  | 0x029 => k.wdogCnt
  | _ => 0

/-- Registers of the debugger, the package and the links (R330, R283, R315). -/
def State.sysRead2 (s : State) (g : Group) (n : Nat) : Nat :=
  let c := s.core g.info.core
  let k := s.ctx (s.ctxOf g)
  match n with
  | 0x040 => c.dbgctl
  | 0x041 => s.dbgvec.toNat
  | 0x060 => s.teamcore g.info.wg
  | 0x061 => s.ctxbase.toNat
  | 0x062 => s.resident.elim 0 (· + 256)
  | 0x063 => c.qbackoff
  | 0x070 => s.msys.smapGen
  | 0x072 => bitIf s.msys.smapBusy 0
  | 0x073 => k.grantbase.toNat
  | 0x074 => k.epbase.toNat
  | 0x075 => s.linkSel.toNat
  | 0x076 => (s.link s.selLink).stat
  | 0x077 => (s.link s.selLink).ctl
  | 0x078 => s.selLane.sym.toNat
  | 0x079 => s.selLane.corrected.toNat * 2 ^ 32 + s.selLane.uncorrectable * 65536 + s.selLane.retrains
  | 0x07A => s.clock.ptpctl.toNat
  | 0x07B => (BitVec.ofInt 32 s.clock.adj).toNat
  | 0x07C => s.oemode.toNat
  | 0x07D => s.traywin.toNat
  | _ => if 0x042 ≤ n && n ≤ 0x055 then (c.part c.psel).read n else 0

def State.sysRead (s : State) (g : Group) (n : Nat) : Nat := if n < 0x040 then s.sysRead1 g n else s.sysRead2 g n

def execSysrd (h : Hdr) (n : BitVec 10) (d : Reg) (s : State) : Host.Outcome State Fault Refusal :=
  s.withIssue (.sysrd h n d) h fun x => x.unlessEmpty fun x => (x.putAll (sysregRegs n) d (BitVec.ofNat 128 (x.s.sysRead x.g n.toNat))).done

/-- R298: a read of SYS.TRAPQ takes the oldest entry and selects its group. -/
def execTrapqPop (h : Hdr) (d : Reg) (s : State) : Host.Outcome State Fault Refusal :=
  s.withIssue (.trapqPop h d) h fun x => x.unlessEmpty fun x =>
    match (x.s.core x.core).trapq with
    | [] => ((x.modS fun s => s.modCore x.core fun c => { c with tgSel := none }).putAll 1 d 0).done
    | e :: t => ((x.modS fun s => s.modCore x.core fun c => { c with trapq := t, tgSel := e.gid }).putAll 1 d (e.word.zeroExtend 128)).done

-- Actions on trapped groups and fault records (R298, R306)

/-- A trapped group resumes at SYS.TGNPC (R298). -/
def Group.tgReturn (g : Group) : Group :=
  let g := g.returnTo (g.sys.trap.run &&& g.live) (entryPc g.sys.trap.npc)
  { g with sys := { g.sys with intrap := false } }

def State.tgact (s : State) (core act : Nat) : State :=
  match (s.core core).tgSel.bind fun gid => (s.group? gid).map fun g => (gid, g) with
  | none => s
  | some (gid, g) =>
    match act with
    | 1 =>
      if !g.sched.trapped then s
      else s.setGroup gid { g.tgReturn with sched := { g.sched with trapped := false } }
    | 2 => s.setGroup gid g.killed
    | 3 => { s with groups := s.groups.map fun p => if p.2.info.wg = g.info.wg && !p.2.isSuper then (p.1, p.2.killed) else p }
    | _ => s

/-- Runs parked under a fault record become READY (R306). -/
def Group.unparkRuns (g : Group) (tag : Nat) : Group × Lanes × Option Pc :=
  let here := g.runs.foldl (fun a r => if r.st = .faultParked tag then (a.1.wake r.lanes r.pc, a.2.1 ||| r.lanes, some r.pc) else a) (g, 0, none)
  g.shadowRuns.foldl (fun a r => if r.st = .faultParked tag then
    (a.1.modShadow fun rs => rs.map fun q => if q = r then { q with st := .ready } else q, a.2.1 ||| r.lanes, some r.pc) else a) here

def FaultRec.va (r : FaultRec) : Dword := (r.words.getD 9 0 ++ r.words.getD 8 0 : Dword)

/-- Release of a page-fault record. DEDUCED (log 25): a denied lane's trap waits for the return while a handler of its group, or the debug agent
in it, runs. -/
def State.releaseLanes (s : State) (r : FaultRec) (deny : Bool) : State :=
  match s.group? r.gid with
  | none => s
  | some g =>
    let (g', m, pc) := g.unparkRuns r.tag
    match pc with
    | none => s
    | some pc =>
      let s := s.setGroup r.gid g'
      if !deny then s
      else if g.sys.intrap || g.sys.debug || !g.sched.resident then
        s.pendTrap r.gid { cause := .pageNotPresent, mask := m, pc := some pc, npc := some pc, addr := r.va, inTrap := false, run := some m, other := false }
      else s.takeTrap r.gid { cause := .pageNotPresent, other := false, mask := m, pc := pc, npc := pc, addr := r.va, run := m }

/-- A held copy goes on, or completes with 0x02. -/
def CopyRec.release (q : CopyRec) (core tag : Nat) (deny : Bool) : CopyRec :=
  if q.held = some tag && q.core = core then { q with held := none, status := if deny then some 2 else q.status } else q

def releaseChans (m : SMap (List CopyRec)) (core tag : Nat) (deny : Bool) : SMap (List CopyRec) :=
  m.map fun p => (p.1, p.2.map fun q => q.release core tag deny)

/-- The drain held under a record of a core. -/
def MxEntry.heldUnder (e : MxEntry) (core tag : Nat) : Bool := e.held == some tag && e.core == core

/-- A held drain goes on: it asks for its unit again; one that is denied leaves the table. -/
def releaseTable (l : List MxEntry) (core tag : Nat) (deny : Bool) : List MxEntry :=
  if deny then l.filter fun e => !e.heldUnder core tag else l.map fun e => if e.heldUnder core tag then { e with held := none } else e

/-- The held drains that are denied, in the engines and in save images, record PERMISSION and end (R176, R306). -/
def State.denyDrains (s : State) (core tag : Nat) : State :=
  let es := s.clusters.flatMap (fun p => p.2.mxe.table) ++ s.engAreas.flatMap fun p => p.2.flatMap fun q => q.2.table
  (es.filter fun e => e.heldUnder core tag).foldl (fun s e => (s.mxDrop e).mxTell e (some .permission)) s

def StCmd.release (q : StCmd) (core tag : Nat) (deny : Bool) : StCmd :=
  if q.held = some tag && q.core = core then { q with held := none, early := if deny then some 2 else q.early } else q

/-- Release of an engine's or copy's record. -/
def State.releaseHeld (s : State) (core tag : Nat) (deny : Bool) : State :=
  let s := if deny then s.denyDrains core tag else s
  let cl (c : Cluster) : Cluster :=
    { c with mxe := { c.mxe with table := releaseTable c.mxe.table core tag deny }, bte := { c.bte with chans := releaseChans c.bte.chans core tag deny } }
  let cx (c : Ctx) : Ctx := { c with heldCopies := releaseChans c.heldCopies core tag deny }
  let area (es : SMap Mxe) : SMap Mxe := es.map fun p => (p.1, { p.2 with table := releaseTable p.2.table core tag deny })
  { s with engAreas := s.engAreas.map (fun p => (p.1, area p.2)), clusters := s.clusters.map fun p => (p.1, cl p.2), ctxs := s.ctxs.map fun p => (p.1, cx p.2),
           stCmds := s.stCmds.map fun q => q.release core tag deny }

/-- R306: a fault record is released. -/
def State.fltrel (s : State) (core tag act : Nat) : State :=
  if act ≥ 2 then s else
  match (s.core core).records.find? fun r => r.tag == tag with
  | none => s
  | some r =>
    let s := s.modCore core fun c => { c with records := c.records.filter (·.tag != tag) }
    if r.kind = 1 then s.releaseLanes r (act == 1) else s.releaseHeld core tag (act == 1)

-- Pre-emption requests, halt requests, slice map

/-- A supervisor's request for pre-emption leaves on Draught (R308). -/
def State.preqRequest (s : State) (ctx : Nat) : State :=
  let c := s.ctx ctx
  if c.preq || c.saving || s.events.any fun e => e.2 == .preemptionRequest ctx then s
  else (s.modCtx ctx fun c => { c with bySuper := true }).schedule (s.cc + 48) (.preemptionRequest ctx)

/-- A request whose save has not begun is withdrawn; held groups go on. -/
def State.preqWithdraw (s : State) (ctx : Nat) : State :=
  if (s.ctx ctx).saving then s else
  let s := s.modCtx ctx fun c => { c with preq := false, bySuper := false, deadline := none }
  { s with events := s.events.filter fun e => !(e.2 == .preemptionRequest ctx || e.2 == .saveBegin ctx)
           groups := s.groups.map fun p => if p.2.info.ctx = ctx && !p.2.isSuper then (p.1, { p.2 with sched := { p.2.sched with held := false } }) else p }

def State.haltRequest (s : State) (core part : Nat) : State := s.modCore core fun c => c.modPart part fun d => { d with haltReq := true }

/-- Dirty lines of moving buckets are written back (R313 step 1). -/
def MemSys.backMoving (m : MemSys) : MemSys := (m.l2.filter fun l => m.moving (bucketOf (l.1 * 256))).foldl (fun m l => m.backLine l.1) m

def State.smapBegin (s : State) : State :=
  if s.msys.smapBusy then s else
  let (lat, s) := s.freeLat
  (s.modMsys fun m => { m.backMoving with smapBusy := true }).schedule (s.cc + lat + 48) .sliceMapSwitch

-- Writing system registers

def low (v : Dword) (n : Nat) : Nat := v.toNat % 2 ^ n
def maskTo (v : Dword) (m : Nat) : Dword := v &&& BitVec.ofNat 64 m

/-- Per-partition debug registers (R330, R338). -/
def PartDbg.write (d : PartDbg) (n : Nat) (v : Dword) (cc : Nat) : PartDbg :=
  let w : Word := v.truncate 32
  if n = 0x042 then { d with mbox := maskTo v 0xFFFFFFFFFFFF0000 }
  else if n < 0x048 then { d with bp := d.bp.put 0 (n - 0x044) (maskTo v 0xFFFFFFFFFFFD) }
  else if n < 0x04C then { d with wbase := d.wbase.put 0 (n - 0x048) (maskTo v 0xFFFFFFFFFFFF) }
  else if n < 0x050 then { d with wctl := d.wctl.put 0 (n - 0x04C) (w &&& 0x80000B3F) }
  else if n = 0x050 then
    let en := w.getLsbD 31
    let per := max 16 (low v 20)
    { d with smpEn := en, smpErr := d.smpErr && !w.getLsbD 30, period := per, nextSample := if en && !d.smpEn then cc + per else d.nextSample }
  else if n = 0x051 then { d with smpbase := maskTo v 0xFFFFFFFFFFFFF000 }
  else if n = 0x052 then { d with smpsize := BitVec.ofNat 32 (min (low v 32) 1048576) }
  else if n = 0x053 then { d with smphead := w }
  else if n = 0x054 then { d with smptail := w }
  else { d with smpdrop := w }

/-- SYS.DBGCTL (R330); the halt requests it makes are apart. -/
def Core.writeDbgctl (c : Core) (v : Dword) : Core :=
  { c with psel := if v.getLsbD 12 then 1 else 0, part0 := { c.part0 with attach := v.getLsbD 0 }, part1 := { c.part1 with attach := v.getLsbD 1 } }

/-- Registers of the issuing group (R34, R43, R44, R207, R209). -/
def Group.sysWrite (g : Group) (n : Nat) (v : Dword) : Group :=
  let w : Word := v.truncate 32
  let y := g.sys
  match n with
  | 0x000 => if g.priv then { g with sys := { y with ie := v.getLsbD 3 } } else g
  | 0x001 => { g with sys := { y with escapes := low (v >>> 16) 16, uniformViolation := y.uniformViolation && !v.getLsbD 1 } }
  | 0x002 => { g with sys := { y with fpctl := w &&& 0x3F } }
  | 0x003 => { g with sys := { y with fpstat := y.fpstat &&& ~~~w } }
  | 0x00A => { g with sys := { y with trap := { y.trap with npc := v } } }
  | 0x00E => { g with sys := { y with trapvec := v } }
  | _ => g

/-- Registers of the core (R206, R283, R297, R300, R307, R330). -/
def Core.sysWrite (c : Core) (n : Nat) (v : Dword) (cc : Nat) : Core :=
  let w : Word := v.truncate 32
  match n with
  | 0x014 => { c with asid := low v 12 }
  | 0x015 => { c with keyid := low v 8 }
  | 0x018 => { c with stalewr := w }
  | 0x01A => { c with ipend := c.ipend &&& ~~~(w &&& 0xBB) }
  | 0x01B => { c with imask := w &&& 0xFF }
  | 0x01D => { c with svqTimer := low (v >>> 16) 16, svqThresh := min 256 (max 1 (low v 9)) }
  | 0x020 => { c with ptbase := maskTo v 0xFFFFFFFFFF000 }
  | 0x040 => c.writeDbgctl v
  | 0x063 => { c with qbackoff := max 1 (low v 16) }
  | _ => if 0x042 ≤ n && n ≤ 0x055 then c.modPart c.psel fun d => d.write n v cc else c

/-- Registers of the context (R206, R315). -/
def Ctx.sysWrite (c : Ctx) (n : Nat) (v : Dword) : Ctx :=
  match n with
  | 0x016 => { c with cenlim := v.truncate 32 }
  | 0x017 => { c with barlim := v.truncate 32 }
  | 0x073 => { c with grantbase := maskTo v 0xFFFFFFFFFFFFF000 }
  | 0x074 => { c with epbase := maskTo v 0xFFFFFFFFFFFFF000 }
  | _ => c

/-- SYS.TIMEADJ: signed, clamped (R315). -/
def clampAdj (v : Dword) : Int := max (-1000000) (min 1000000 (v.truncate 32 : Word).toInt)

/-- Registers of the package (R283, R315, R330). DESIGN CHOICE (log 27): a WIN of 0 is written as 1. -/
def State.pkgWrite (s : State) (n : Nat) (v : Dword) : State :=
  match n with
  | 0x041 => { s with dbgvec := maskTo v 0xFFFFFFFFFFFC }
  | 0x061 => { s with ctxbase := maskTo v 0xFFFFFFFFF000 }
  | 0x075 => { s with linkSel := v.truncate 32 &&& 0x7FF }
  | 0x077 => s.modLink s.selLink fun l => { l with win := max 1 (low (v >>> 28) 4), keep := v.getLsbD 25, tray := v.getLsbD 24, thresh := low v 24 }
  | 0x07A => { s with clock := { s.clock with ptpctl := v.truncate 32 &&& 0x1FF } }
  | 0x07B => { s with clock := { s.clock with adj := clampAdj v } }
  | 0x07D => { s with traywin := maskTo v 0xFF0FFFFFFFC00000 }
  | _ => s

/-- Writes with an effect beyond a stored value. -/
def State.actWrite (s : State) (g : Group) (n : Nat) (v : Dword) : State :=
  let core := g.info.core
  match n with
  | 0x012 => if v.getLsbD 0 then s.preqRequest (s.ctxOf g) else s.preqWithdraw (s.ctxOf g)
  | 0x025 => match (s.core core).tgSel with
    | some gid => s.modGroup gid fun g => g.sysWrite 0x00A v
    | none => s
  | 0x028 => s.tgact core v.toNat
  | 0x040 =>
    let s := if v.getLsbD 4 then s.haltRequest core 0 else s
    if v.getLsbD 5 then s.haltRequest core 1 else s
  | 0x072 => if v.getLsbD 0 then s.smapBegin else s
  | _ => s

/-- R205, R206: a write in the issuing mode; a register that is RO for it ignores the write (R9). -/
def X.sysWrite (x : X) (n : Nat) (v : Dword) : X :=
  let x := x.modG fun g => g.sysWrite n v
  if !x.g.priv then x
  else
    let k := x.s.ctxOf x.g
    x.sync fun s =>
      let s := (s.modCore x.core fun c => c.sysWrite n v s.cc).pkgWrite n v
      let s := if [0x016, 0x017, 0x073, 0x074].contains n then s.modCtx k fun c => c.sysWrite n v else s
      s.actWrite x.g n v

/-- The value of a once-acting write. -/
def X.wrVal (x : X) (w : Nat) (a : Reg) : Dword := if w = 2 then x.g.rd64 x.low a else (x.g.rd32 x.low a).zeroExtend 64

/-- The A operand of a once-acting write, uniformity noted (R32). -/
def X.onceA (x : X) (w : Nat) (a : Reg) : X := x.once fun l => [if w = 2 then x.g.rd64 l a else (x.g.rd32 l a).zeroExtend 64]

def execSyswr (h : Hdr) (n : BitVec 10) (a : Reg) (s : State) : Host.Outcome State Fault Refusal :=
  s.withIssue (.syswr h n a) h fun x => x.unlessEmpty fun x =>
    let x := x.onceA (sysregRegs n) a
    let v := x.wrVal (sysregRegs n) a
    if n = 0x021#10 then x.afterRel (.syswr h n a) .dev fun x _ => (x.sync fun s => s.fltrel x.core (low v 16) (low (v >>> 16) 2)).done
    else (x.sysWrite n.toNat v).done

/-- R206: the interrupt arrives 48 cc later. -/
def execIpiWrite (h : Hdr) (a : Reg) (s : State) : Host.Outcome State Fault Refusal :=
  s.withIssue (.ipiWrite h a) h fun x => x.unlessEmpty fun x =>
    let x := x.onceA 1 a
    let t := low (x.wrVal 1 a) 9
    (if t < 384 then x.modS fun s => s.schedule (s.cc + 48) (.ipiDelivery t) else x).done

/-- R310. -/
def execWdogWrite (h : Hdr) (a : Reg) (s : State) : Host.Outcome State Fault Refusal :=
  s.withIssue (.wdogWrite h a) h fun x => x.unlessEmpty fun x =>
    let x := x.onceA 2 a
    let v := x.wrVal 2 a
    (x.modS fun s => s.modCtx (s.ctxOf x.g) fun c =>
      { c with wdogCore := low (v >>> 32) 9, wdogLimit := low v 32, wdogCnt := 0, wdogFrac := 0, wdogArmed := true }).done

/-- R313. -/
def execSmapStageWrite (h : Hdr) (a : Reg) (s : State) : Host.Outcome State Fault Refusal :=
  s.withIssue (.smapStageWrite h a) h fun x => x.unlessEmpty fun x =>
    let x := x.onceA 1 a
    let v := x.wrVal 1 a
    let b := low (v >>> 16) 11
    (x.modS fun s => s.modMsys fun m => { m with staging := m.staging.put (b % 128) b (low v 7) }).done

def oeField (w : Word) (e : Nat) : Nat := w.toNat / 4 ^ e % 4

/-- An engine none of whose links or ports is up or training (R315). -/
def State.engineQuiet (s : State) (e : Nat) : Bool :=
  (List.range 16).all fun i => (s.link (16 * e + i)).st == .down && !s.portsUp.contains (16 * e + i)

/-- R315: the writes of SYS.OEMODE that are not ignored. -/
def State.oemodeOk (s : State) (w : Word) : Bool :=
  (List.range 16).all (fun e => oeField w e != 3 && (oeField w e == oeField s.oemode e || s.engineQuiet e)) &&
  decide (((List.range 16).filter fun e => oeField w e == 2).length ≤ 4)

def execOemodeWrite (h : Hdr) (a : Reg) (s : State) : Host.Outcome State Fault Refusal :=
  s.withIssue (.oemodeWrite h a) h fun x => x.unlessEmpty fun x =>
    let x := x.onceA 1 a
    let w : Word := (x.wrVal 1 a).truncate 32
    (x.modS fun s => if s.oemodeOk w then { s with oemode := w } else s).done

/-- R315: a write of SYS.LANESYM or SYS.LANECW clears the selected lane's four counters. -/
def execLaneCounterClear (h : Hdr) (cw : Bool) (a : Reg) (s : State) : Host.Outcome State Fault Refusal :=
  s.withIssue (.laneCounterClear h cw a) h fun x => x.unlessEmpty fun x =>
    let x := x.onceA 2 a
    let clear (k : KLane) : KLane := { k with sym := 0, corrected := 0, uncorrectable := 0, retrains := 0 }
    (x.modS fun s => s.modLink s.selLink fun l =>
      let i := s.linkSel.toNat / 256 % 8
      { l with lanes := l.lanes.ins i (clear (l.lanes.get KLane.reset i)) }).done

-- Translation and caches (R210, R211)

/-- The entries that an invalidation removes. -/
def TlbEntry.removed (t : TlbEntry) (kind : TlbKind) (va asid : Nat) : Bool :=
  match kind with
  | .page => t.hits asid va
  | .asid => !t.glob && t.asid == asid
  | .all => true

def keepTlb (kind : TlbKind) (va asid : Nat) (l : List TlbEntry) : List TlbEntry := l.filter fun t => !t.removed kind va asid

/-- The removal at one core's L1 TLB and its cluster's L2 TLB. -/
def State.tlbLocal (s : State) (core : Nat) (kind : TlbKind) (va asid : Nat) : State :=
  (s.modCore core fun c => { c with tlb := keepTlb kind va asid c.tlb }).modCluster (clusterOf core) fun c => { c with tlb := keepTlb kind va asid c.tlb }

/-- The removal at every TLB of the package. -/
def State.tlbGlobal (s : State) (kind : TlbKind) (va asid : Nat) : State :=
  let co (c : Core) : Core := { c with tlb := keepTlb kind va asid c.tlb }
  let cl (c : Cluster) : Cluster := { c with tlb := keepTlb kind va asid c.tlb }
  { s with cores := s.cores.map fun p => (p.1, co p.2), clusters := s.clusters.map fun p => (p.1, cl p.2) }

def execTlbinv (h : Hdr) (kind : TlbKind) (glob : Bool) (a b : Option Reg) (s : State) : Host.Outcome State Fault Refusal :=
  s.withIssue (.tlbinv h kind glob a b) h fun x => x.unlessEmpty fun x =>
    match x.resume with
    | some w => if w.endCc ≤ x.s.cc then x.done else x.wait w
    | none =>
      let va (l : Nat) : Dword := a.elim 0 (x.g.rd64 l)
      let asid (l : Nat) : Dword := b.elim 0 fun r => (x.g.rd32 l r).zeroExtend 64
      let x := x.once fun l => [va l, asid l]
      if glob then
        (x.modS fun s => s.schedule (s.cc + 48) (.tlbInvalidateApply kind (va x.low) (low (asid x.low) 12))).wait
          { Wait.of .event (some (.tlbinv h kind glob a b)) x.lanes with endCc := x.s.cc + 96 }
      else (x.modS fun s => s.tlbLocal x.core kind (va x.low).toNat (low (asid x.low) 12)).done

/-- The line that a lane of `cwb` or `cinv` names: physical address and key id; none where the lane is dropped. Its walk sets A when
the access passes every check (R305). -/
def X.cacheLine (x : X) (a : Reg) (l : Nat) : X × Option (Nat × Nat) :=
  match x.s.xlate x.core (x.s.gspace x.g) .read normalOnly (x.g.rd64 l a).toNat with
  | (s, .ok t) => ({ x with s := s }, if t.pa < hbmSize then some (t.pa / 256 * 256, t.key) else none)
  | (s, .error _) => ({ x with s := s }, none)

/-- The lines of the acting lanes. -/
def X.cacheLines (x : X) (a : Option Reg) : X × Option (List (Nat × Nat)) :=
  match a with
  | none => (x, none)
  | some r =>
    let p := x.acting.foldl (fun (p : X × List (Nat × Nat)) l =>
      let (x, q) := p.1.cacheLine r l
      (x, p.2 ++ q.toList)) (x.uniformU fun l => [x.g.rd64 l r], [])
    (p.1, some p.2)

/-- An operation of ST without register writes whose accesses are the write-backs of dirty bytes (R211). -/
def X.backOp (x : X) (runs : List (Nat × Nat × List Byte)) : MemOp :=
  { gid := x.gid, pc := x.pc, kind := .other, size := 32, sx := false, nf := false, scope := .none, acq := false, u := true, lanes := x.lanes, d := none,
    accs := (runs.zipIdx).map fun r => LaneAcc.at_ r.2 0 r.1.1 r.1.2.1 0 0 0, inTrap := x.g.sys.intrap, ctr := 1, atom := none, fe := none, held := none,
    sent := x.s.clock.ns, sentCc := x.s.cc, due := 0, ready := false }

def execCwb (h : Hdr) (a : Option Reg) (s : State) : Host.Outcome State Fault Refusal :=
  s.withIssue (.cwb h a) h fun x => if x.onWindow then x.windowEnd else x.unlessEmpty fun x =>
    let (x, lines) := x.cacheLines a
    let before := x.s
    let hit (k : Nat) : Bool := match lines with
      | none => true
      | some ls => ls.any fun l => inRange (l1Key l.1 l.2) 256 k
    let runs := dirtyRuns ((x.s.core x.core).l1.filter fun e => hit e.1)
    let (id, s) := x.s.newSerial
    let o := x.backOp runs
    let x := { x with s := s, g := x.g.incCtr 1 }
    (x.sync fun s =>
      let s := { s with ops := s.ops.ins id o }.modCore x.core fun c => { c with l1 := c.l1.map fun (e : Nat × Byte × Bool) => if hit e.1 then (e.1, e.2.1, false) else e }
      ((runs.zipIdx).foldl (fun (s : State) r => s.sendReq x.core (some id) r.2 (.write r.1.2.2) r.1.1 r.1.2.2.length r.1.2.1) s).opCheck id).afterWindow (.cwb h a) before x.m

/-- `cinv`: the ST counter rises and falls within the instruction. -/
def execCinv (h : Hdr) (l2 : Bool) (a : Option Reg) (s : State) : Host.Outcome State Fault Refusal :=
  s.withIssue (.cinv h l2 a) h fun x => x.unlessEmpty fun x =>
    let (x, lines) := x.cacheLines a
    (x.modS fun s =>
      match lines with
      | none => s.modCore x.core fun c => { c with l1 := [] }
      | some ls =>
        if l2 then s.modMsys fun m => ls.foldl (fun m l => m.backLine (l.1 / 256)) m
        else s.modCore x.core fun c => ls.foldl (fun c l => c.l1DropRange l.1 l.2 256) c).done

-- Halt, timer, debug

def execHalt (h : Hdr) (s : State) : Host.Outcome State Fault Refusal :=
  s.withIssue (.halt h) h fun x => x.unlessEmpty fun x =>
    if (x.s.ipendOf x.core &&& (x.s.core x.core).imask) != 0 then x.done else x.wait (x.resume.getD (Wait.of .event (some (.halt h)) x.lanes))

def execTmset (h : Hdr) (rel : Bool) (a : Reg) (s : State) : Host.Outcome State Fault Refusal :=
  s.withIssue (.tmset h rel a) h fun x => x.unlessEmpty fun x =>
    let x := x.onceA 2 a
    let v := x.wrVal 2 a
    let v := if rel then v + BitVec.ofNat 64 x.s.time else v
    (x.modS fun s => s.modCore x.core fun c => { c with timecmp := v, timerArmed := true, ipend := c.ipend &&& ~~~1#32 }).done

/-- R219; in the debug agent `brk` only goes on (R332). -/
def execBrk (h : Hdr) (code : BitVec 16) (s : State) : Host.Outcome State Fault Refusal :=
  s.withIssue (.brk h code) h fun x => x.unlessEmpty fun x =>
    if x.g.sys.debug then x.done else { x with s := x.flush }.trapAt .brk false x.lanes x.next (code.zeroExtend 64)

/-- A run whose instruction has issued and has still to complete. -/
def Run.unfinished (r : Run) : Bool :=
  match r.st with
  | .ready | .stalled _ => false
  | .waiting w => w.ins.isSome
  | _ => true

/-- Lanes that were not READY at the stop, when the resume address is still theirs: they wait on, or go on where their event sent them. -/
def Group.rehold (g : Group) (m : Lanes) (r : Run) : Group :=
  if r.st = .ready then g.resume (r.lanes &&& m) r.pc
  else if r.unfinished then g.hold (r.lanes &&& m) r.pc r.st
  else g

/-- The halted run goes on at the resume address; while the agent has left that where the stop put it, lanes that were not READY go on as they
stood. -/
def Group.unhalt (g : Group) (m : Lanes) (pc : Pc) (sh : Shadow) : Group :=
  let g := g.resume m pc
  if pc = sh.npc then sh.runs.foldl (fun g r => g.rehold m r) g else g

/-- The end of a stop (R220, R333). DESIGN CHOICE (log 78): bits [1:0] and [63:48] of SYS.TRAPNPC are ignored. -/
def Group.endStop (g : Group) (ov ss : Bool) : Group :=
  let t := g.sys.trap
  let m := t.run &&& g.live
  let sh := g.sys.shadow.getD { trap := t, intrap := g.sys.intrap, npc := 0, runs := [] }
  let g := g.unhalt m (entryPc t.npc) sh
  { g with sys := { g.sys with trap := sh.trap, intrap := sh.intrap, shadow := none, debug := false }
           sched := { g.sched with noBp := true, noWatch := if ov then g.sched.noWatch ++ [(m, entryPc t.npc)] else g.sched.noWatch, stepping := ss } }

def execDbgret (h : Hdr) (ov ss : Bool) (s : State) : Host.Outcome State Fault Refusal :=
  s.withIssue (.dbgret h ov ss) h fun x => x.unlessEmpty fun x =>
    let g := (x.g.goto (x.m &&& ~~~x.g.sys.trap.run) x.next).endStop ov ss
    (x.s.setGroup x.gid g).modCore x.core fun c => c.modPart x.g.info.part fun d => { d with stopped := none }

-- Events: interrupts, TLB, timer

def execIpiDelivery (core : Nat) (s : State) : Host.Outcome State Fault Refusal := .next (s.setIpend core 1)

/-- R210. -/
def execTlbInvalidateApply (kind : TlbKind) (va : Dword) (asid : Nat) (s : State) : Host.Outcome State Fault Refusal :=
  .next (s.tlbGlobal kind va.toNat asid)

/-- R214: SYS.TIME has reached SYS.TIMECMP. -/
def State.timerDue (s : State) (c : Core) : Bool := c.timerArmed && decide (c.timecmp.toNat ≤ s.time)

def execTimerCompare (core : Nat) (s : State) : Host.Outcome State Fault Refusal :=
  .next (if s.timerDue (s.core core) then (s.modCore core fun c => { c with timerArmed := false }).setIpend core 0 else s)

/-- R299: the run that holds lane 0 enters the handler in place of its issue. -/
def execInterruptEntry (core : Nat) (s : State) : Host.Outcome State Fault Refusal :=
  .next <|
    match s.group? (superGid core) with
    | none => s
    | some g => match g.pick with
      | some (r, _) => if s.interruptNow g r then s.setGroup (superGid core) (g.takeInterrupt r) else s
      | none => s

-- Events: trapped groups and fault records

def execTgactResume (core : Nat) (s : State) : Host.Outcome State Fault Refusal := .next (s.tgact core 1)
def execTgactKill (core : Nat) (s : State) : Host.Outcome State Fault Refusal := .next (s.tgact core 2)
def execTgactKillWg (core : Nat) (s : State) : Host.Outcome State Fault Refusal := .next (s.tgact core 3)
def execFltrelRetry (core tag : Nat) (s : State) : Host.Outcome State Fault Refusal := .next (s.fltrel core tag 0)
def execFltrelDeny (core tag : Nat) (s : State) : Host.Outcome State Fault Refusal := .next (s.fltrel core tag 1)

/-- Runs of the supervisor group that wait in `halt`. -/
def Group.wakeHalts (g : Group) : Group :=
  g.runs.foldl (fun g r => match r.st with
    | .waiting w => match w.ins with
      | some (.halt _) => g.wake r.lanes (pcAdd r.pc 8)
      | _ => g
    | _ => g) g

/-- R307: the oldest system call has reached the age limit: bit SVQ of SYS.IPEND, which follows the queue, reads 1 from now
on, and a `halt` that it ends goes on (R213). -/
def execSvqAgeWake (core : Nat) (s : State) : Host.Outcome State Fault Refusal :=
  .next (if (s.ipendOf core &&& (s.core core).imask &&& 4) != 0 then s.modGroup (superGid core) Group.wakeHalts else s)

def isWdogOf (ctx : Nat) (e : TrapQEntry) : Bool := e.gid.isNone && e.ctx == ctx

/-- R310. -/
def Ctx.wdogDue (c : Ctx) : Bool := c.wdogArmed && c.wdogLimit != 0 && decide (c.wdogLimit ≤ c.wdogCnt)

def execWatchdogExpiry (ctx : Nat) (s : State) : Host.Outcome State Fault Refusal :=
  let c := s.ctx ctx
  .next <|
    if !c.wdogDue then s else
    let s := s.modCtx ctx fun c => { c with wdogArmed := false }
    if c.wdogCore ≥ 384 || s.cores.any (fun p => p.2.trapq.any (isWdogOf ctx)) then s
    else s.modCore c.wdogCore fun k => { k with trapq := k.trapq ++ [{ word := trapqWord ctx 0x25 0 0 0, gid := none, ctx := ctx }] }

-- Events: groups and workgroups

/-- R30: eligible under R24 and unselected for 4,096 cc. -/
def State.promotes (s : State) (g : Group) : Bool :=
  !g.priv && g.sched.resident && g.pick.isSome && match g.sched.elig with
    | some c => decide (4096 ≤ s.cc - max g.sched.age c)
    | none => false

def execGroupAgePromotion (gid : Nat) (s : State) : Host.Outcome State Fault Refusal :=
  .next <|
    match s.group? gid with
    | none => s
    | some g => if s.promotes g then s.setGroup gid { g with sched := { g.sched with promoted := true } } else s

/-- The return of a parked group is complete: 4 cc have passed, and its partition is not stopped (R31, R332). -/
def State.returns (s : State) (g : Group) : Bool :=
  !s.frozen g && match g.sched.ret with
    | some c => decide (c ≤ s.cc)
    | none => false

/-- R31. -/
def execGroupReturn (gid : Nat) (s : State) : Host.Outcome State Fault Refusal :=
  .next <| s.modGroup gid fun g => if s.returns g then { g with sched := { g.sched with ret := none } } else g

/-- R36. -/
def execGroupRetire (gid : Nat) (s : State) : Host.Outcome State Fault Refusal :=
  .next <|
    match s.group? gid with
    | none => s
    | some g => if g.retires then (s.retire gid).kickSpawn g.info.core else s

def execWorkgroupEnd (wg : Nat) (s : State) : Host.Outcome State Fault Refusal := .next (s.endWg wg)

-- Events: debugger

def execDbgHaltRequest (core part : Nat) (s : State) : Host.Outcome State Fault Refusal := .next (if part < 2 then s.haltRequest core part else s)

/-- A stop at the picked run, before it issues (R331). -/
def State.stopHere (s : State) (addr : Nat) : State :=
  match s.cur with
  | none => s
  | some q =>
    { s with cur := none }.debugStop q.gid
      { cause := .brk, other := false, mask := q.lanes, pc := q.pc, npc := q.pc, addr := BitVec.ofNat 64 addr, run := q.lanes }

def State.curGroup (s : State) (core part : Nat) : Option (Group × Pc) :=
  s.cur.bind fun q => (s.group? q.gid).bind fun g => if g.info.core == core && g.info.part == part then some (g, q.pc) else none

def execHaltRequestServe (core part : Nat) (s : State) : Host.Outcome State Fault Refusal :=
  .next <|
    match s.curGroup core part with
    | some (g, _) => if s.haltNow g then s.stopHere 0x30000 else s
    | none => s

def execPcBreakpoint (core part : Nat) (s : State) : Host.Outcome State Fault Refusal :=
  .next <|
    match s.curGroup core part with
    | some (g, pc) => match s.breakpointAt g pc with
      | some n => s.stopHere (0x20000 + n)
      | none => s
    | none => s

-- Events: the stall sampler (R337, R338)

/-- The next occupied user slot in cyclic order. -/
def nextSlot (gs : List (Nat × Group)) (last : Nat) : Option (Nat × Group) :=
  ((List.range 32).map fun i => (last + 1 + i) % 32).findSome? fun n => gs.find? fun p => p.2.info.place == n

def whyCode : Why → Nat
  | .score => 3
  | .counter _ | .counters => 4
  | .order | .window _ | .ops | .release | .engine | .event | .census => 3
  | .barrier => 5
  | .channel | .mailbox => 6
  | .handle => 7

/-- Reason and blamed producer of a group with no READY run. DEDUCED (log 26): where nothing else is named the awaited
instruction is the waiting one. -/
def Group.stallOf (g : Group) (r : Run) : Nat × Pc :=
  if g.sched.trapped || g.sched.held || (g.sys.intrap && r.lanes &&& g.sys.trap.run == 0) then (10, r.pc) else
  match r.st with
  | .ready => (10, r.pc)
  | .stalled ids => (2, ((g.busy.find? fun b => ids.contains b.id).map (·.pc)).getD r.pc)
  | .waiting w => (whyCode w.why, if w.why == .score then ((g.pendingWrites.find? fun b => w.ops.contains b.id).map (·.pc)).getD r.pc else r.pc)
  | .faultParked _ => (8, r.pc)
  | .syscallParked => (9, r.pc)

/-- A record: waiting PC, blamed PC, class, reason. The group that halts in this cycle stands as before the stop (R334). -/
def State.sampleOf (s : State) (g : Group) : Pc × Pc × Nat × Nat :=
  if g.sched.age = s.cc && g.sched.issues ≠ 0 then (g.sched.lastPc, 0, 0, 0)
  else if g.sys.debug then (dwordPc g.sys.trap.pc, 0, 1, 1)
  else match g.pick with
    | some (r, _) => (r.pc, 0, 1, 1)
    | none => match g.runs with
      | r :: _ => let (why, blame) := g.stallOf r
        (r.pc, blame, 2, why)
      | [] => (0, 0, 2, 10)

/-- A partition samples: it is not stopped, or stops in this cycle (R334, R337). -/
def PartDbg.samples (d : PartDbg) (cc : Nat) : Bool := d.smpEn && (d.stopped.isNone || d.stopCc == cc)

def State.sample (s : State) (core part : Nat) : State :=
  let c := s.core core
  let d := c.part part
  let put (s : State) (f : PartDbg → PartDbg) : State := s.modCore core fun c => c.modPart part f
  if !d.samples s.cc then s else
  match nextSlot ((s.groupsOf core part).filter fun p => !p.2.isSuper && !p.2.isResponder) d.lastSlot with
  | none => s
  | some (_, g) =>
    let s := put s fun d => { d with lastSlot := g.info.place }
    let drop (d : PartDbg) : PartDbg := { d with smpdrop := BitVec.ofNat 32 (min (d.smpdrop.toNat + 1) 0xFFFFFFFF) }
    if (d.smphead - d.smptail).toNat ≥ d.smpsize.toNat then put s drop else
    let (pc, blame, cls, why) := s.sampleOf g
    let bytes := le s.time 8 ++ le (pc.toNat + g.info.place * 2 ^ 48 + part * 2 ^ 53 + core * 2 ^ 54) 8 ++ le blame.toNat 8 ++
      le (g.info.ctx * 65536 + cls * 256 + why) 4 ++ le 0 4
    match s.vwrite core (c.space false) (d.smpbase.toNat + 32 * (d.smphead.toNat % d.smpsize.toNat)) bytes with
    | (s, .ok _) => put s fun d => { d with smphead := d.smphead + 1 }
    | (s, .error _) => put s fun d => { drop d with smpEn := false, smpErr := true }

def execStallSample (core part : Nat) (s : State) : Host.Outcome State Fault Refusal := .next (s.sample core part)

end Sys2Proof.Machine
end

