-- ==== Sys2Proof/Machine/Launch.lean ====
section
/-! DEFINITION. Launches (R19, R20, R212, R279, R280), placement (R281), the start of a grid (R284) and the gang protocol
(R285 to R287), with their events. -/

namespace Sys2Proof.Machine

-- The launch block (R279)

structure ChanSpec where
  no : Nat
  slots : Nat
  bytes : Nat
  producer : Nat
  consumer : Nat
  deriving DecidableEq, Repr

def allZero (bs : List Byte) : Bool := bs.all (· == 0)
def recSlice (bs : List Byte) (off n : Nat) : List Byte := (bs.drop off).take n

def roleOf (bs : List Byte) (r : Nat) : RoleSpec :=
  let o := 0x40 + 48 * r
  { pc := recNat bs o 8, regs := recNat bs (o + 8) 2, width := recNat bs (o + 10) 1, count := recNat bs (o + 11) 1,
    fair := recNat bs (o + 12) 2, prio := recNat bs (o + 14) 1, sinit := (List.range 64).map fun k => recNat bs (0x200 + 512 * r + 8 * k) 8 }

def RoleSpec.ok (r : RoleSpec) : Bool :=
  r.pc % 4 == 0 && decide (r.pc < 2 ^ 48) && r.regs % 8 == 0 && decide (8 ≤ r.regs) && decide (r.regs ≤ 384) &&
  [8, 16, 32, 64].contains r.width && decide (1 ≤ r.count) && decide (r.count ≤ 32) && decide (8 ≤ r.fair) && decide (r.fair ≤ 1024) &&
  decide (r.prio ≤ 2)

structure Block where
  wid : List Nat
  nrole : Nat
  team : Nat
  teams : Nat
  scratch : Nat
  graph : Nat
  trigger : Nat
  window : Nat
  ctx : Nat
  missed : Nat
  gangn : Nat
  gangrec : Nat
  roles : List RoleSpec
  bars : List Nat
  chans : List (Nat × Nat × Nat × Nat)
  deriving DecidableEq, Repr

def blockOf (bs : List Byte) : Block :=
  let nrole := recNat bs 6 1
  { wid := (List.range 6).map fun i => recNat bs i 1, nrole := nrole, team := recNat bs 7 1, teams := recNat bs 8 4,
    scratch := recNat bs 0xC 4, graph := recNat bs 0x10 8, trigger := recNat bs 0x18 8, window := recNat bs 0x20 4,
    ctx := recNat bs 0x24 1, missed := recNat bs 0x25 1, gangn := recNat bs 0x26 2, gangrec := recNat bs 0x28 8,
    roles := (List.range (min nrole 4)).map (roleOf bs), bars := (List.range 104).map fun i => recNat bs (0x100 + i) 1,
    chans := (List.range 8).map fun c => (recNat bs (0x180 + 8 * c) 1, recNat bs (0x181 + 8 * c) 1, recNat bs (0x182 + 8 * c) 1, recNat bs (0x183 + 8 * c) 1) }

/-- The parts of a block that must be zero. -/
def blockZero (bs : List Byte) (nrole : Nat) : Bool :=
  allZero (recSlice bs 0x30 16) && allZero (recSlice bs 0x168 24) && allZero (recSlice bs 0x1C0 64) &&
  (List.range 4).all (fun r =>
    if r < nrole then allZero (recSlice bs (0x40 + 48 * r + 15) 33)
    else allZero (recSlice bs (0x40 + 48 * r) 48) && allZero (recSlice bs (0x200 + 512 * r) 512)) &&
  (List.range 8).all (fun c => allZero (recSlice bs (0x184 + 8 * c) 4)) &&
  (List.range 104).all fun i => recNat bs (0x100 + i) 1 < 2 ^ nrole

def chanOk (nrole : Nat) (c : Nat × Nat × Nat × Nat) : Bool :=
  decide (c.1 ≤ 64) && decide (c.2.1 ≤ 2) && decide (c.2.2.1 < 4) && decide (c.2.2.2 < 4) &&
  (c.1 == 0 || (decide (c.2.2.1 < nrole) && decide (c.2.2.2 < nrole)))

/-- FIELD of R280. -/
def Block.fieldOk (b : Block) (bs : List Byte) : Bool :=
  decide (1 ≤ b.nrole) && decide (b.nrole ≤ 4) && decide (1 ≤ b.team) && decide (b.team ≤ 4) && decide (1 ≤ b.teams) && decide (b.teams ≤ 384) &&
  b.scratch % 16 == 0 && decide (b.scratch ≤ 393216) && decide (b.ctx ≤ 63) && decide (b.missed ≤ 2) && decide (1 ≤ b.gangn) &&
  decide (b.gangn ≤ 256) && (b.gangn != 1 || b.gangrec == 0) && b.roles.all RoleSpec.ok &&
  decide ((b.roles.map (·.count)).foldl (· + ·) 0 ≤ 32) && b.wid.all (fun w => decide (w ≤ 32)) && decide (b.wid.foldl (· + ·) 0 ≤ 64) &&
  b.chans.all (chanOk b.nrole) && blockZero bs b.nrole

/-- WID of R280: the largest index at each level (R19, R20). -/
def Block.widOk (b : Block) : Bool :=
  let tops := [(b.roles.map fun r => r.width - 1).foldl max 0, (b.roles.map fun r => r.count - 1).foldl max 0, b.team - 1, b.teams - 1, b.gangn - 1,
    b.nrole - 1]
  (tops.zip b.wid).all fun p => decide (p.1 < 2 ^ p.2)

-- Placement (R281)

/-- What is in use where teams are placed: spots, scratchpad ranges (core, base, size), and cluster endpoints and barriers. -/
structure Room where
  spots : List Spot
  ranges : List (Nat × Nat × Nat)
  ends : List (Nat × Nat × Nat)

structure Need where
  bytes : List Nat
  scratch : Nat
  team : Nat
  chans : Nat
  bars : Nat

def Room.endsOf (r : Room) (cluster : Nat) : Nat × Nat :=
  let q := r.ends.filter (·.1 == cluster)
  ((q.map (·.2.1)).foldl (· + ·) 0, (q.map (·.2.2)).foldl (· + ·) 0)

def Room.rangesOf (r : Room) (core : Nat) : List (Nat × Nat) := (r.ranges.filter (·.1 == core)).map (·.2)

/-- One core takes one workgroup: base and spots. -/
def Room.onCore (r : Room) (n : Need) (core : Nat) : Option (Nat × Nat × List (Nat × Nat)) :=
  match placeGroups core r.spots n.bytes, lowestRange (r.rangesOf core) n.scratch with
  | some spots, some base => some (core, base, spots)
  | _, _ => none

def spotsOf (n : Need) (core : Nat) (ps : List (Nat × Nat)) : List Spot :=
  (n.bytes.zip ps).map fun q => { core := core, part := q.2.1, place := q.2.2, bytes := q.1 }

/-- A team on the lowest-numbered cluster that takes it. -/
def Room.placeTeam (r : Room) (n : Need) (k : Nat) : Option (Room × List Placed) :=
  (List.range 96).findSome? fun cl =>
    let (ch, cb) := r.endsOf cl
    if ch + n.chans > 8 || cb + n.bars > 16 then none else
    let able := ((List.range 4).filterMap fun i => r.onCore n (cl * 4 + i)).take n.team
    if able.length < n.team then none
    else
      let ps := (able.zipIdx).map fun a =>
        ({ team := k, member := a.2, core := a.1.1, base := a.1.2.1, gen := 0, spots := a.1.2.2 } : Placed)
      some ({ spots := (able.flatMap fun a => spotsOf n a.1 a.2.2) ++ r.spots,
              ranges := (able.map fun a => (a.1, a.2.1, n.scratch)) ++ r.ranges, ends := (cl, n.chans, n.bars) :: r.ends }, ps)

def Room.placeTeams (n : Need) : Room → Nat → List Nat → Option (List Placed)
  | _, _, [] => some []
  | r, _, k :: t =>
    match r.placeTeam n k with
    | none => none
    | some (r, ps) => (Room.placeTeams n r 0 t).map (ps ++ ·)

def needOf (roles : List RoleSpec) (scratch team : Nat) (chans : List (Nat × Nat × Nat × Nat)) (bars : List Nat) : Need :=
  { bytes := (roleGroups roles).map fun r => r.2.regs * r.2.width * 4, scratch := scratch, team := team,
    chans := (chans.filter (·.1 != 0)).length, bars := ((bars.drop 16).take 16 |>.filter (· != 0)).length }

/-- FIT of R280: a device with no user group. -/
def State.fits (s : State) (b : Block) : Bool :=
  let sup := s.groups.filterMap fun p =>
    if p.2.isSuper then some ({ core := p.2.info.core, part := p.2.info.part, place := p.2.info.place, bytes := p.2.info.budget * p.2.info.width * 4 } : Spot)
    else none
  (Room.placeTeams (needOf b.roles b.scratch b.team b.chans b.bars) { spots := sup, ranges := [], ends := [] } 0
    (List.range b.teams)).isSome

/-- The cluster of a team that is running. -/
def State.teamCluster (s : State) (team : Nat) : Option Nat := (s.wgs.find? fun p => p.2.team == team).map fun p => clusterOf p.2.core

/-- Endpoints and cluster barriers in use. -/
def State.endsUsed (s : State) : List (Nat × Nat × Nat) :=
  (s.chans.filterMap fun p => (s.teamCluster (p.1 / 8)).map fun c => (c, 1, 0)) ++
  (s.bars.filterMap fun p => if p.1 / 64 % 4 = 1 then (s.teamCluster (p.1 / 256)).map fun c => (c, 0, 1) else none) ++
  s.launches.flatMap fun p =>
    if p.2.reserved then
      let n := needOf p.2.roles p.2.scratch p.2.team p.2.chans p.2.bars
      (p.2.placed.filter (·.member == 0)).map fun q => (clusterOf q.core, n.chans, n.bars)
    else []

/-- What is in use on the device. -/
def State.room (s : State) : Room :=
  { spots := s.spots, ranges := (List.range 384).flatMap fun core => (s.ranges core).map fun r => (core, r.1, r.2), ends := s.endsUsed }

/-- Every allocation takes its generation; none: one of them must wait (R13, R238). -/
def State.placedGens (s : State) (scratch : Nat) : List Placed → Option (List Placed)
  | [] => some []
  | p :: t =>
    match s.newGen p.core p.base scratch, s.placedGens scratch t with
    | some g, some t => some ({ p with gen := g } :: t)
    | _, _ => none

def State.placement (s : State) (l : Launch) : Option (List Placed) :=
  (Room.placeTeams (needOf l.roles l.scratch l.team l.chans l.bars) s.room 0 (List.range l.teams)).bind (s.placedGens l.scratch)

-- Launch states (R286)

def LState.code : LState → Nat
  | .pending => 1 | .armed => 2 | .committed => 3 | .started => 4 | .startedLate => 5 | .missed => 6 | .faulted => 7 | .aborted => 8

def LState.final (st : LState) : Bool := decide (4 ≤ st.code)

def State.modLaunch (s : State) (k : Nat) (f : Launch → Launch) : State :=
  match s.launches.find k with
  | some l => { s with launches := s.launches.ins k (f l) }
  | none => s

def Launch.coordinates (l : Launch) : Bool := l.gang.any fun g => g.self == g.coord

/-- OUTCOME, and for a started launch START, are written as a release at `.dev` (R284, R286). -/
def State.writeOutcome (s : State) (l : Launch) (code : Nat) (start : Option Nat) : State :=
  let s := (s.vwrite l.core l.space (l.va + 0x30) (leBytes code 4)).1
  match start with
  | some t => (s.vwrite l.core l.space (l.va + 0x38) (leBytes t 8)).1
  | none => s

def State.report (s : State) (l : Launch) (code : Nat) : State :=
  match l.gang with
  | none => s
  | some g => s.tellGang g (.report code)

/-- A launch ends without starting. -/
def State.endLaunch (s : State) (k : Nat) (l : Launch) (st : LState) : State :=
  let s := { s with launches := s.launches.ins k { l with st := st, placed := [], reserved := false } }
  let s := (s.writeOutcome l st.code none).report l st.code
  if st = .faulted then s.setIpend l.core 5 else s

/-- A coordinator that holds every ACK and its own placement commits; a member with an ARM and a placement is armed (R285). -/
def State.gangStep (s : State) (k : Nat) : State :=
  match s.launches.find k with
  | none => s
  | some l =>
    match l.gang with
    | none => s
    | some g =>
      let s := if l.st = .pending && l.reserved && (g.self == g.coord || g.armHeld) then
          (let s := s.modLaunch k fun l => { l with st := .armed }
           if g.self = g.coord then s else s.sendGang g .ack g.coord)
        else s
      match s.launches.find k with
      | none => s
      | some l =>
        if l.st = .armed && g.self = g.coord && g.others.all g.acks.contains then
          (s.tellGang g .commit).modLaunch k fun l => { l with st := .committed }
        else s

def State.modGang (s : State) (k : Nat) (f : Gang → Gang) : State := s.modLaunch k fun l => { l with gang := l.gang.map f }

/-- The last launch that carries a GANGID. -/
def State.gangLaunch (s : State) (id : Dword) : Option (Nat × Launch × Gang) :=
  s.launches.reverse.findSome? fun p => p.2.gang.bind fun g => if g.id == id then some (p.1, p.2, g) else none

-- `launch` (R212, R280)

/-- A gang membership record (R284). -/
def gangOf (bs : List Byte) (n : Nat) : Option Gang :=
  let self := recNat bs 2 2
  let coord := recNat bs 4 2
  let links := (List.range n).map fun i => recNat bs (16 + 8 * i) 2
  if recNat bs 0 2 = n && decide (2 ≤ n) && decide (self < n) && decide (coord < n) && recNat bs 6 2 == 0 &&
     (List.range n).all (fun i => allZero (recSlice bs (16 + 8 * i + 2) 6) && (i != self || links.getD i 0 == 0xFFFF)) then
    some { id := BitVec.ofNat 64 (recNat bs 8 8), self := self, coord := coord, links := links, armHeld := false, acks := [], started := [],
           incomplete := false }
  else none

/-- The record names links that are up, but for SELF. -/
def State.gangUp (s : State) (g : Gang) : Bool :=
  (g.links.zipIdx).all fun p => p.2 == g.self || (decide (p.1 < 256) && (s.link p.1).st == .up)

/-- CTRL of a context entry. -/
def State.ctxCtrl (s : State) (i : Nat) : Nat :=
  let pa := s.ctxbase.toNat + 64 * i
  if pa + 64 ≤ hbmSize then s.msys.nat 0 pa 4 else 0

/-- The gang of a block, or none where R284 is broken. -/
def State.readGang (s : State) (core : Nat) (sp : Space) (b : Block) : State × Option (Option Gang) :=
  if b.gangn = 1 then (s, some none) else
  match s.vbytes core sp b.gangrec (16 + 8 * b.gangn) with
  | (s, .error _) => (s, none)
  | (s, .ok bs) => (s, match gangOf bs b.gangn with
    | some g => if s.gangUp g then some (some g) else none
    | none => none)

/-- The code of R280, with the gang of an accepted launch. -/
def State.launchCode (s : State) (core : Nat) (sp : Space) (bs : List Byte) : State × Nat × Option Gang :=
  let b := blockOf bs
  if (s.launches.filter fun p => !p.2.st.final).length ≥ 64 then (s, 6, none)
  else if !b.fieldOk bs then (s, 1, none)
  else if !b.widOk then (s, 2, none)
  else
    let ctrl := s.ctxCtrl b.ctx
    let s := s.claimPhys (s.ctxbase.toNat + 64 * b.ctx) 64
    if ctrl < 2 ^ 31 then (s, 4, none)
    else if !s.fits b then (s, 3, none)
    else match s.readGang core sp b with
      | (s, none) => (s, 5, none)
      | (s, some g) => (s, 0, g)

/-- An accepted launch is held (R285, R286). -/
def State.accept (s : State) (core : Nat) (sp : Space) (va : Nat) (b : Block) (g : Option Gang) : State :=
  let (k, s) := s.newSerial
  let g := g.map fun g => { g with armHeld := s.heldArms.contains g.id && (b.trigger == 0 || decide (s.time < b.trigger)) }
  let l : Launch :=
    { core := core, space := sp, va := va, ctx := b.ctx, st := if g.isSome then .pending else .committed, wid := b.wid, team := b.team, teams := b.teams,
      scratch := b.scratch, graph := b.graph, trigger := b.trigger, window := b.window, missedMode := b.missed, roles := b.roles, bars := b.bars,
      chans := b.chans, placed := [], reserved := false, inject := none, startTime := 0, late := false, gang := g, teamBase := 0 }
  let s := { s with launches := s.launches.ins k l }
  match g with
  | none => s
  | some g =>
    let s := { s with heldArms := s.heldArms.filter (· != g.id) }
    if g.self = g.coord then s.tellGang g .arm else s

/-- A block that cannot be read gives the cause at its address. -/
def X.readBlock (x : X) (va : Nat) : State × Except (XErr × Nat) (List Byte) := x.s.vbytes x.core (x.s.gspace x.g) va 2560

def execLaunch (h : Hdr) (d a : Reg) (s : State) : Host.Outcome State Fault Refusal :=
  s.withIssue (.launch h d a) h fun x => x.collective fun x =>
    let x := x.once fun l => [x.g.rd64 l a]
    let va := (x.g.rd64 x.low a).toNat
    if va % 256 ≠ 0 then x.trap .misaligned x.lanes (BitVec.ofNat 64 va) else
    match (x.readBlock va).2 with
    | .error e => x.trap e.1.cause x.lanes (BitVec.ofNat 64 va)
    | .ok _ => x.afterRel (.launch h d a) .dev fun x _ =>
      match x.readBlock va with
      | (s, .error e) => { x with s := s }.trap e.1.cause x.lanes (BitVec.ofNat 64 va)
      | (s, .ok bs) =>
        let sp := s.gspace x.g
        let (s, code, g) := s.launchCode x.core sp bs
        let s := if code = 0 then s.accept x.core sp va (blockOf bs) g else s
        ({ x with s := s }.putAll 1 d (BitVec.ofNat 128 code)).done

-- The start (R284)

/-- SYS.TIME `n` cycles from now. -/
def State.timeIn (s : State) (n : Nat) : Nat :=
  let c := s.clock
  c.copyNs + (c.copyFrac + n * (Mode.twelfths c.mode * ((10 ^ 9 : Int) + c.copyAdj).toNat)) / nsUnit

/-- The last time at which a launch still starts in its slot. -/
def Launch.last (l : Launch) : Nat := l.trigger + l.window

/-- The unit injects the start in this cycle. -/
def State.injects (s : State) (l : Launch) : Bool :=
  l.st == .committed && l.reserved && l.inject.isNone && s.resident == some l.ctx &&
  (l.trigger == 0 || (decide (l.trigger ≤ s.timeIn 48) && (l.late || decide (s.timeIn 48 ≤ l.last))))

def State.inject (s : State) (k : Nat) : State := (s.modLaunch k fun l => { l with inject := some s.cc }).schedule (s.cc + 48) (.gridStart k)

/-- The work identifier of lane 0 (R19, R20). -/
def widOf (widths fields : List Nat) : Dword :=
  BitVec.ofNat 64 ((widths.zip fields).foldr (fun p a => p.2 % 2 ^ p.1 + a * 2 ^ p.1) 0)

/-- The groups of a role list with their index in the role (R15, R19). -/
def roleIndexed (rs : List RoleSpec) : List (Nat × Nat × RoleSpec) :=
  (rs.zipIdx).flatMap fun r => (List.range r.1.count).map fun i => (r.2, i, r.1)

/-- One group of a workgroup that starts. -/
def State.startGroup (s : State) (k : Nat) (l : Launch) (p : Placed) (wg : Nat) (q : (Nat × Nat × RoleSpec) × (Nat × Nat)) : State :=
  let (role, idx, r) := q.1
  let self := (l.gang.map (·.self)).getD 0
  let info : GInfo :=
    { kind := .role, ctx := l.ctx, core := p.core, part := q.2.1, place := q.2.2, wg := wg, launch := k, role := role, width := r.width,
      budget := r.regs, fair := r.fair, prio := r.prio, wid := some (widOf l.wid [0, idx, p.member, p.team, self, role]) }
  let g := freshGroup info (BitVec.ofNat 48 r.pc) r.sinit s.cc
  if s.resident = some l.ctx then s.addGroup g
  else s.setGroup (gidOf p.core q.2.1 q.2.2 l.ctx) { g with sched := { g.sched with resident := false } }

/-- Does a role's bit stand in a barrier's mask? -/
def Launch.inBar (l : Launch) (i role : Nat) : Bool := (l.bars.getD i 0) / 2 ^ role % 2 == 1

/-- The groups of a set of workgroups that are members of a barrier byte. -/
def State.barMembers (s : State) (l : Launch) (i : Nat) (inReach : Workgroup → Bool) : List Nat :=
  s.groups.filterMap fun p =>
    if p.2.info.kind == .role && l.inBar i p.2.info.role && (s.wgs.find p.2.info.wg).any inReach then some p.1 else none

def State.addBar (s : State) (l : Launch) (i owner lvl id : Nat) (remote : List Nat) (inReach : Workgroup → Bool) : State :=
  if l.bars.getD i 0 = 0 then s
  else s.setBar (barKey owner lvl id) { Barrier.reset with members := s.barMembers l i inReach ++ remote }

/-- The barriers that a grid declares (R182, R279). -/
def State.addBars (s : State) (k : Nat) (l : Launch) (wgs : List (Nat × Nat)) (teams : List Nat) : State :=
  let s := wgs.foldl (fun s w => (List.range 16).foldl (fun s i => s.addBar l i w.1 0 i [] fun q => q.alloc == w.2) s) s
  let s := teams.foldl (fun s t => (List.range 16).foldl (fun s i => s.addBar l (16 + i) t 1 i [] fun q => q.team == t) s) s
  let s := (List.range 64).foldl (fun s i => s.addBar l (32 + i) k 2 i [] fun q => q.launch == k) s
  let remote := (l.gang.map fun g => g.others.map remoteMember).getD []
  (List.range 8).foldl (fun s i => s.addBar l (96 + i) k 3 i remote fun q => q.launch == k) s

def State.addChans (s : State) (l : Launch) (team : Nat) : State :=
  (l.chans.zipIdx).foldl (fun s c =>
    if c.1.1 = 0 then s else
    let bytes := if c.1.2.1 = 0 then 32 else if c.1.2.1 = 1 then 64 else 256
    { s with chans := s.chans.ins (team * 8 + c.2) { slots := c.1.1, bytes := bytes, producer := c.1.2.2.1, consumer := c.1.2.2.2, queue := [] } }) s

/-- One team starts: its workgroups (number, allocation) and its own number. -/
def State.startTeam (s : State) (k : Nat) (l : Launch) (n : Nat) : State × List (Nat × Nat) × Nat :=
  let (team, s) := s.newSerial
  let ps := l.placed.filter (·.team == n)
  let (s, made) := ps.foldl (fun (a : State × List (Nat × Placed)) p =>
    let (wg, s) := a.1.newWg l.ctx p.core k team p.member p.base l.scratch p.gen
    (s, a.2 ++ [(wg, p)])) (s, [])
  let members := made.map fun q => (q.2.core, q.1)
  let s := made.foldl (fun s q =>
    let gids := q.2.spots.map fun x => gidOf q.2.core x.1 x.2 l.ctx
    let s := s.enterWg q.1 members gids
    ((roleIndexed l.roles).zip q.2.spots).foldl (fun s r => s.startGroup k l q.2 q.1 r) s) s
  ((s.addChans l team), made.map fun q => (q.1, ((s.wgs.find q.1).map (·.alloc)).getD 0), team)

def State.startTeams (s : State) (k : Nat) (l : Launch) : List Nat → State × List (Nat × Nat) × List Nat
  | [] => (s, [], [])
  | n :: t =>
    let (s, w, team) := s.startTeam k l n
    let (s, ws, teams) := s.startTeams k l t
    (s, w ++ ws, team :: teams)

/-- The start cycle: every workgroup begins (R284). -/
def State.startGrid (s : State) (k : Nat) (l : Launch) : State :=
  let st : LState := if l.late then .startedLate else .started
  let (s, wgs, teams) := s.startTeams k l (List.range l.teams)
  let s := s.addBars k l wgs teams
  let s := s.modLaunch k fun l => { l with st := st, placed := [], reserved := false, startTime := s.time, teamBase := teams.headD 0 }
  (s.writeOutcome l st.code (some s.time)).report l st.code

-- Events

/-- R281: placement is reserved when there is room. -/
def execPlacementReserve (lch : Nat) (s : State) : Host.Outcome State Fault Refusal :=
  .next <|
    match s.launches.find lch with
    | none => s
    | some l =>
      if l.st.final || l.reserved then s else
      match s.placement l with
      | none => s
      | some ps => ({ s with launches := s.launches.ins lch { l with placed := ps, reserved := true } }).gangStep lch

def execGridStart (lch : Nat) (s : State) : Host.Outcome State Fault Refusal :=
  .next <|
    match s.launches.find lch with
    | none => s
    | some l => match l.inject with
      | some i => if l.st = .committed && i + 48 ≤ s.cc then s.startGrid lch l else s
      | none => s

/-- R286: TRIGGER + WINDOW has passed. -/
def execLaunchWindowExpiry (lch : Nat) (s : State) : Host.Outcome State Fault Refusal :=
  .next <|
    match s.launches.find lch with
    | none => s
    | some l =>
      if l.trigger = 0 || l.st.final || l.inject.isSome || l.late || s.time ≤ l.last then s
      else if l.missedMode = 1 then s.modLaunch lch fun l => { l with late := true }
      else s.endLaunch lch l (if l.missedMode = 0 then .missed else .faulted)

/-- An ARM is held for a launch that is still to be accepted (R285). -/
def State.holdArm (s : State) (gang : Dword) : State := if s.heldArms.contains gang then s else { s with heldArms := s.heldArms ++ [gang] }

/-- R285: an ARM reaches a member. A launch that has ended is not the one it is for. -/
def execGangArm (gang : Dword) (s : State) : Host.Outcome State Fault Refusal :=
  .next <|
    match s.gangLaunch gang with
    | none => s.holdArm gang
    | some (k, l, g) =>
      if l.st.final then s.holdArm gang
      else if g.self = g.coord then s
      else (s.modGang k fun g => { g with armHeld := true }).gangStep k

def execGangAck (gang : Dword) (dev : Nat) (s : State) : Host.Outcome State Fault Refusal :=
  .next <|
    match s.gangLaunch gang with
    | none => s
    | some (k, _, g) =>
      if g.self ≠ g.coord || g.acks.contains dev then s else (s.modGang k fun g => { g with acks := g.acks ++ [dev] }).gangStep k

def execGangCommit (gang : Dword) (s : State) : Host.Outcome State Fault Refusal :=
  .next <|
    match s.gangLaunch gang with
    | none => s
    | some (k, l, _) => if l.st = .armed then s.modLaunch k fun l => { l with st := .committed } else s

def execGangAbort (gang : Dword) (s : State) : Host.Outcome State Fault Refusal :=
  .next <|
    match s.gangLaunch gang with
    | none => s
    | some (k, l, _) => if l.st = .pending || l.st = .armed then s.endLaunch k l .aborted else s

/-- R287: what another member ended as. -/
def execGangReport (gang : Dword) (dev : Nat) (code : Byte) (s : State) : Host.Outcome State Fault Refusal :=
  .next <|
    match s.gangLaunch gang with
    | none => s
    | some (k, _, g) =>
      if !g.others.contains dev then s
      else if code = 4 || code = 5 then s.modGang k fun g => { g with started := if g.started.contains dev then g.started else g.started ++ [dev] }
      else if code = 6 || code = 7 || code = 8 then s.modGang k fun g => { g with incomplete := true }
      else s

/-- R285: at TRIGGER a coordinator that lacks an ACK aborts; an ARM held for no launch is discarded. -/
def execGangTriggerReached (lch : Nat) (s : State) : Host.Outcome State Fault Refusal :=
  .next <|
    match s.launches.find lch with
    | none => s
    | some l =>
      match l.gang with
      | none => s
      | some g =>
        if l.trigger = 0 || s.time < l.trigger then s else
        let s := { s with heldArms := s.heldArms.filter (· != g.id) }
        if g.self = g.coord && (l.st = .pending || l.st = .armed) && !g.others.all g.acks.contains then
          (s.tellGang g .abort).endLaunch lch l .aborted
        else s

/-- R287: no report of a start from some member. -/
def execGangReportTimeout (lch : Nat) (s : State) : Host.Outcome State Fault Refusal :=
  .next <|
    match s.launches.find lch with
    | none => s
    | some l =>
      match l.gang with
      | none => s
      | some g =>
        if (l.st = .started || l.st = .startedLate) && l.trigger ≠ 0 && s.time ≥ l.last + 1000000 && !g.others.all g.started.contains then
          s.modGang lch fun g => { g with incomplete := true }
        else s

end Sys2Proof.Machine
end

