-- ==== Sys2Proof/Machine/Io.lean ====
section
/-! DEFINITION. Devices and links: the in-order device path (R223), the aperture and the configuration window of the BTE
(R256, R261), replay (R290), storage (R215, R216, R328, R329), the network (R217, R218, R323 to R326), Kazry links
(R316 to R322), with their instructions and events. -/

namespace Sys2Proof.Machine

/-- A 64-bit word rises by 1 as a far atomic at `.sys`, at its home slice; the clean copies of the core that issued the command are
invalidated (R236). A word that cannot be reached is left. -/
def State.bumpWord (s : State) (ctx core addr : Nat) : State :=
  if addr = 0 then s else
  match (s.claimCtx ctx).xlate core (s.ctxSpace ctx) .atomic normalOnly addr with
  | (s, .error _) => s
  | (s, .ok t) =>
    if t.pa ≥ hbmSize || addr % 8 ≠ 0 then s else
    let (old, s) := s.homeRead t.key t.pa 8
    (s.homeWrite t.key t.pa (leBytes ((leNat old + 1) % 2 ^ 64) 8)).modCore core fun c => c.l1DropClean (sectorOf t.pa) t.key 32

/-- Bit IO of SYS.IPEND at an affinity core (R326, R329). -/
def State.ioIrq (s : State) (on : Bool) (core : Nat) : State := if on && core < 384 then s.setIpend core 3 else s

-- The windows of the BTE (R256, R261)

/-- The status that a load of an aperture word returns. -/
def State.apertureWord (s : State) (core ch : Nat) : Nat :=
  let l := s.chan (clusterOf core) ch
  (s.bte (clusterOf core)).last.get 0 ch % 256 + (inQueue l) % 64 * 256

def Bte.idle (b : Bte) : Bool := b.stop && b.chans.all (fun c => c.2.all fun r => !r.accepted) && b.moves.isEmpty

/-- IDLE of a cluster's BTE; in a context switch it comes after the save of the matrix engine (R261). DESIGN CHOICE (log 94): with STOP set by the
supervisor outside a switch IDLE awaits copies and moves alone, while matrix commands too wait until STOP is clear. -/
def State.bteIdle (s : State) (cluster : Nat) : Bool := (s.bte cluster).idle && !s.resident.any fun r => (s.ctx r).saving

/-- A byte of the configuration, where the window holds one. -/
def Bte.cfgByte (b : Bte) (idle : Bool) (off : Nat) : Option Byte :=
  if off < 0x4000 then some ((b.templates.get (List.replicate 64 0) (off / 64)).getD (off % 64) 0)
  else if off < 0x4100 then some ((b.dict.get (List.replicate 16 0) (off % 256 / 16)).getD (off % 16) 0)
  else if off < 0x4108 then some (if off = 0x4100 then BitVec.ofNat 8 (bitIf b.stop 0 + bitIf idle 1) else 0)
  else none

def Bte.cfgWrite (b : Bte) : Nat → List Byte → Bte
  | _, [] => b
  | off, x :: t =>
    (if off < 0x4000 then { b with templates := b.templates.put (List.replicate 64 0) (off / 64) ((b.templates.get (List.replicate 64 0) (off / 64)).set (off % 64) x) }
     else if off < 0x4100 then { b with dict := b.dict.put (List.replicate 16 0) (off % 256 / 16) ((b.dict.get (List.replicate 16 0) (off % 256 / 16)).set (off % 16) x) }
     else b).cfgWrite (off + 1) t

def execBteConfigStop (cluster : Nat) (stop : Bool) (s : State) : Host.Outcome State Fault Refusal := .next (s.modBte cluster fun b => { b with stop := stop })

/-- R261: words written while IDLE = 0 are ignored. -/
def execBteConfigWordWrite (cluster offset : Nat) (bytes : List Byte) (s : State) : Host.Outcome State Fault Refusal :=
  .next (if s.bteIdle cluster && offset + bytes.length ≤ 0x4100 then s.modBte cluster fun b => b.cfgWrite offset bytes else s)

-- The management window (R348): what its registers read as

def MReq.stat (m : Mgmt) : Nat := m.stat + m.code * 256 + bitIf m.busyRef 16

def modeCode : Mode → Nat
  | .gale => 0 | .trade => 1 | .breeze => 2 | .lull => 3

def State.mgmtReg (s : State) (off : Nat) : Option Nat :=
  match off with
  | 0x000 | 0x010 | 0x018 => some 0
  | 0x008 => some (MReq.stat s.mgmt)
  | 0x020 => some s.mgmt.modeReqVal
  | 0x028 => some (modeCode s.clock.mode)
  | 0x030 => some s.mgmt.sensel
  | 0x038 => some (BitVec.ofInt 64 (s.mgmt.sensors.get 0 s.mgmt.sensel)).toNat
  | _ => none

-- The head of a device path (R223)

/-- What a device read returns, or none: BUS_ERROR (R352). DESIGN CHOICE (log 93): a load of other than 64 bits at a status word of an aperture page
returns 0. -/
def State.deviceRead (s : State) (d : DevReq) : Option (List Byte) :=
  match regionOf d.pa with
  | .aperture k =>
    let off := (d.pa - ioBase) % 4096
    some (leBytes (if d.size = 8 && off % 8 = 0 && off < 128 then s.apertureWord k (off / 8) else 0) d.size)
  | .bteConfig cl =>
    let off := (d.pa - ioBase) % 65536
    (List.range d.size).mapM fun i => (s.bte cl).cfgByte (s.bteIdle cl) (off + i)
  | .mgmt =>
    let off := (d.pa - ioBase) % 4096
    (s.mgmtReg (off / 8 * 8)).map fun v => leBytes (v / 2 ^ (8 * (off % 8))) d.size
  | _ => none

/-- The row that a write to the management window is (R348); none: it stores a register or is ignored. -/
def mgmtRow (off v : Nat) : Option Instr :=
  match off with
  | 0x000 =>
    let buf := v / 256
    match v % 256 with
    | 1 => some (.mgmtAttest buf)
    | 2 => some (.mgmtExtendRequest buf)
    | 3 => some (.mgmtStageUpdate buf)
    | 4 => some (.mgmtConfirm buf)
    | 5 => some (.mgmtModeRequest buf)
    | _ => none
  | 0x010 => some (.extend (v % 16))
  | 0x018 => some (.keyslot (v % 256))
  | 0x020 => some (.modereq (if v % 4 = 0 then .gale else if v % 4 = 1 then .trade else if v % 4 = 2 then .breeze else .lull))
  | _ => none

/-- A request begins, and its completion is set in motion; it is refused while another runs (R348). -/
def State.mgmtBegin (s : State) (r : MReq) (f : Mgmt → Mgmt) : State :=
  if s.mgmt.running.isSome then s.modMgmt fun m => { m with busyRef := true }
  else
    let (lat, s) := s.freeLat
    (s.modMgmt fun m => { f m with running := some r, stat := 1, code := 0, busyRef := false }).schedule (s.cc + lat) .mgmtRequestComplete

/-- The device's answer to a write: its effect, or none: BUS_ERROR. -/
def State.deviceWrite (s : State) (d : DevReq) : Option State :=
  match regionOf d.pa with
  | .bteConfig cl =>
    let off := (d.pa - ioBase) % 65536
    if off + d.size ≤ 0x4100 then some (s.soon (.bteConfigWordWrite cl off (leBytes d.data.toNat d.size)))
    else if off = 0x4100 then some (s.soon (.bteConfigStop cl (d.data.getLsbD 0)))
    else if off < 0x4108 then some s
    else none
  | .mgmt =>
    let off := (d.pa - ioBase) % 4096
    let v := d.data.toNat % 2 ^ (8 * d.size)
    if off ≥ 0x040 then none
    else if off % 8 ≠ 0 then some s
    else match mgmtRow off v with
      | some i => some (s.soon i)
      | none =>
        if off = 0 then some (s.mgmtBegin .badCode fun m => { m with reqBuf := v / 256 })
        else if off = 0x030 then some (s.modMgmt fun m => { m with sensel := v % 512 })
        else some s
  | _ => none

/-- A refused posted write is reported to its group (R148, R223). -/
def State.reportRefusal (s : State) (d : DevReq) : State :=
  if d.nf then s.modGroup d.gid fun g => g.wrPAll 6 (laneList d.lanes) fun _ => true
  else s.pendTrap d.gid { cause := .busError, mask := d.lanes, pc := some d.pc, npc := none, addr := BitVec.ofNat 64 d.va, inTrap := d.inTrap, run := none,
                             other := false }

/-- The device acknowledges or refuses the write at the head of a core's path. -/
def execDeviceWriteAck (core : Nat) (s : State) : Host.Outcome State Fault Refusal :=
  .next <|
    match (s.core core).dev with
    | [] => s
    | d :: t =>
      if !d.write || (apertureStart d).isSome then s else
      let s := s.modCore core fun c => { c with dev := t }
      match s.deviceWrite d with
      | some s => (if d.strict then s.laneDone d.op d.lane none none else s).relAll
      | none => (if d.strict then s.laneDone d.op d.lane none (some .busError) else s.reportRefusal d).relAll

/-- The device answers the read at the head of a core's path (R223, R256). -/
def execApertureStatusRead (core : Nat) (s : State) : Host.Outcome State Fault Refusal :=
  .next <|
    match (s.core core).dev with
    | [] => s
    | d :: t =>
      if d.write then s else
      let s := s.modCore core fun c => { c with dev := t }
      match s.deviceRead d with
      | some bs => s.laneDone d.op d.lane (some bs) none
      | none => s.laneDone d.op d.lane none (some .busError)

-- Replay (R290)

def State.svqFill (s : State) (core : Nat) : Nat → State
  | 0 => s
  | n + 1 =>
    let c := s.core core
    match c.svqWin with
    | [] => s
    | e :: t =>
      if c.svq.length ≥ 256 then s
      else (s.modCore core fun c => { c with svq := c.svq ++ [e.stamped s.time], svqWin := t }.stampRecords).svqFill core n

def State.resendSvq (s : State) (core : Nat) : State :=
  let n := (s.core core).svqWin.length
  let s := s.svqFill core n
  let left := (s.core core).svqWin.length
  if left = 0 then s.modCore core fun c => c.modPath svqKey fun _ => Path.reset
  else
    let k := if left < n then 1 else ((s.core core).paths.get Path.reset svqKey).nacks + 1
    (s.modCore core fun c => c.modPath svqKey fun p => { p with nacks := k }).schedule (s.cc + (s.core core).backoff k) (.replayResend core svqKey)

def Path.backedOff (p : Path) (cc : Nat) : Bool :=
  match p.st with
  | .backoff due => decide (due ≤ cc)
  | _ => false

/-- R290: what a queue refused is sent again; `slice` is the queue's key. -/
def execReplayResend (core slice : Nat) (s : State) : Host.Outcome State Fault Refusal :=
  .next <|
    if slice < 128 then (if ((s.core core).paths.get Path.reset slice).backedOff s.cc then s.resendPath core slice else s)
    else if slice = svqKey then s.resendSvq core
    else if slice < 256 then s.resendCopies core (slice - 144)
    else s.resendRecords core (slice - 256)

-- Storage (R215, R216, R328, R329)

structure Grant where
  ok : Bool
  rd : Bool
  wr : Bool
  irq : Bool
  port : Nat
  ctrl : Nat
  ns : Nat
  base : Nat
  count : Nat
  core : Nat
  word : Nat
  deriving DecidableEq, Repr

def grantOf (bs : List Byte) : Grant :=
  let w := recNat bs 0 4
  { ok := decide (w ≥ 2 ^ 31), rd := bitsOf w 30 1 == 1, wr := bitsOf w 29 1 == 1, irq := bitsOf w 28 1 == 1, port := bitsOf w 8 2,
    ctrl := bitsOf w 0 5, ns := recNat bs 4 4, base := recNat bs 8 8, count := recNat bs 16 4, core := bitsOf (recNat bs 20 4) 0 9, word := recNat bs 24 8 }

def State.grant (s : State) (ctx n : Nat) : List Byte := s.physBytes ((s.ctx ctx).grantbase.toNat + 32 * n) 32

def Grant.nsKey (g : Grant) : Nat := (g.port * 32 + g.ctrl) * 2 ^ 32 + g.ns

/-- A namespace behind the root ports: as the package has written it, or as the drive holds it (R328, log 84). -/
def State.namespace_ (s : State) (key : Nat) : Option Namespace :=
  match s.nvme.find key with
  | some n => some n
  | none => (Sys2Proof.Config.drive key).map fun d => { blk := if d.1 then 4096 else 512, blocks := d.2, data := [] }

def State.blockSize (s : State) (g : Grant) : Nat := ((s.namespace_ g.nsKey).map (·.blk)).getD 512

/-- PERMISSION or MEMTYPE at the ends of a global range, or at its pages between. -/
def State.globalBad (s : State) (core : Nat) (sp : Space) (wr : Bool) (va n : Nat) : Bool :=
  let pts := va :: (va + n - 1) :: (List.range (n / 4096 + 1)).map fun i => min (va + n - 1) ((va / 4096 + i) * 4096 |> max va)
  n != 0 && pts.any fun a => match (s.xlate core sp (if wr then .write else .read) normalOnly a).2 with
    | .error e => e.cause == .permission || e.cause == .memtype
    | .ok _ => false

/-- The conditions of R216 with code 0x02. -/
def State.storageDenied (s : State) (q : StCmd) : Bool :=
  let g := grantOf q.grant
  decide (q.count > 65536) || !g.ok || !(if q.write then g.wr else g.rd) || decide (q.lba < g.base) || decide (q.lba + q.count > g.base + g.count) ||
  (q.kind == .global && s.globalBad q.core q.space (!q.write) q.target (q.count * s.blockSize g))

/-- A Vat template that is registered (R255). -/
def State.vatTmplOk (s : State) (q : StCmd) (bs : List Byte) : Bool :=
  decide ((tmplOf bs).vat ≠ 0) && tmplOk bs false (tenOf (s.tenRec q.ctx (clusterOf q.core) (tmplOf bs).ten)) false

/-- What a command finds at issue, in the order of R216: a code it has already, and the handle's acceptance. -/
def State.storageIssue (s : State) (q : StCmd) : State × StCmd :=
  let n := q.handle
  let last (s : State) (c : Nat) : State := if q.kind == .handle then s.modHandle q.core n fun h => { h with last := c } else s
  if s.storageDenied q then (last s 2, { q with early := some 2 })
  else if q.vat.any fun bs => !s.vatTmplOk q bs then (last s 4, { q with early := some 4 })
  else if q.kind == .handle then
    let h := s.handle q.core n
    match if q.write then h.acceptOut else h.acceptIn with
    | none => (s.modHandle q.core n Handle.refuse, { q with early := some 3 })
    | some h' => (s.modHandle q.core n fun _ => h', { q with gen := h.gen })
  else (s, q)

def X.storage (x : X) (a : StorageArg) (wr : Bool) : State := x.unlessEmpty fun x =>
  let cw := if a.kind = .global then 2 else 1
  let tgt (l : Nat) : Dword := if cw = 2 then x.g.rd64 l a.c else (x.g.rd32 l a.c).zeroExtend 64
  let x := x.uniformU fun l => [x.g.rd64 l a.a, (x.g.rd32 l a.b).zeroExtend 64, tgt l]
  let ctx := x.s.ctxOf x.g
  let accs := x.acting.map fun l => LaneAcc.at_ l 0 0 0 10 0 0
  let o : MemOp :=
    { gid := x.gid, pc := x.pc, kind := .other, size := 4, sx := false, nf := false, scope := .none, acq := false, u := x.u, lanes := x.lanes,
      d := a.d, accs := accs, inTrap := false, ctr := 2, atom := none, fe := none, held := none, sent := 0, sentCc := 0, due := 0, ready := false }
  let (x', op) := x.launchOp o ((useOpt a.d 1).flatMap RegUse.codes) none
  let grant := x.s.grant ctx a.grant.toNat
  let vat := a.tmpl.map fun t => (x.s.bte (clusterOf x.core)).templates.get (List.replicate 64 0) t.toNat
  let one (s : State) (l : Nat) : State :=
    let (id, s) := s.newSerial
    let (lat, s) := s.freeLat
    let q : StCmd :=
      { id := id, write := wr, op := op, lane := l, gid := x.gid, core := x.core, ctx := ctx, wg := x.g.info.wg, pc := x.pc, space := s.gspace x.g,
        ns := (grantOf grant).nsKey, lba := (x.g.rd64 l a.a).toNat, count := (x.g.rd32 l a.b).toNat, kind := a.kind, target := (tgt l).toNat,
        handle := a.handle.toNat, gen := 0, vat := vat, grant := grant, early := none, held := none, issued := s.clock.ns, due := s.cc + lat,
        dec := false, poster := x.g.poster x.gid }
    let (s, q) := s.storageIssue q
    { s with stCmds := s.stCmds ++ [q] }
  (x'.sync fun s => x.acting.foldl one (s.claimPhys ((s.ctx ctx).grantbase.toNat + 32 * a.grant.toNat) 32)).done

def execSread (h : Hdr) (x : StorageArg) (s : State) : Host.Outcome State Fault Refusal := s.withIssue (.sread h x) h fun q => q.storage x false

def execSwrite (h : Hdr) (x : StorageArg) (s : State) : Host.Outcome State Fault Refusal := s.withIssue (.swrite h x) h fun q => q.storage x true

/-- Bytes of a namespace, or none beyond its end (R329). -/
def Namespace.read (n : Namespace) (key lba count : Nat) : Option (List Byte) :=
  if lba + count > n.blocks then none
  else some ((List.range (count * n.blk)).map fun i => n.data.get (Sys2Proof.Config.driveByte key (lba * n.blk + i)) (lba * n.blk + i))

def Namespace.write (n : Namespace) (lba : Nat) (bs : List Byte) : Namespace :=
  { n with data := (bs.zipIdx).foldl (fun d b => d.ins (lba * n.blk + b.2) b.1) n.data }

/-- Where a command's handle or scratchpad target begins, its room from there, and its generation. -/
def State.stPlace (s : State) (q : StCmd) : Option (Nat × Nat × Nat × Nat × Nat) :=
  match q.kind with
  | .handle =>
    let h := s.handle q.core q.handle
    (s.allocs.find h.alloc).map fun a => (a.core, a.base + h.base + q.target, h.len - q.target, h.alloc, q.gen)
  | _ => match (s.wgs.find q.wg).bind fun w => (s.allocs.find w.alloc).map fun a => (w.alloc, a) with
    | some (k, a) => some (a.core, a.base + q.target, a.size - q.target, k, a.gen)
    | none => none

/-- The pitch and swizzle of a command's lines (R258): decoded bytes stand in lines of pitch E0, others as they come. -/
def StCmd.lines (q : StCmd) : Nat × Nat := (q.vat.map fun t => ((tmplOf t).e0, (tmplOf t).swz)).getD (16, 0)

/-- Bytes go to a command's target: a code, or the page that is absent (R216). Decoded bytes that have their place are written before an
overrun is reported (R258). DESIGN CHOICE (log 90): a group with no workgroup allocation, such as the supervisor group, has 0x01. -/
def State.stDeliver (s : State) (q : StCmd) (bs : List Byte) : State × Except EngErr Nat :=
  match q.kind with
  | .global =>
    match s.vwrite q.core q.space q.target bs with
    | (s, .ok _) => (s, .ok 0)
    | (s, .error e) => if e.1.cause == .pageNotPresent then (s, .error e) else (s, .ok (copyCode e.1.cause))
  | _ => match s.stPlace q with
    | none => (s, .ok 1)
    | some (core, off, room, alloc, gen) =>
      if bs.length > room && q.vat.isNone then (s, .ok 8)
      else
        let k := fitting q.lines.1 q.lines.2 room bs.length
        let (s, gone) := s.placeAt core off alloc gen s.clock.ns q.lines.1 q.lines.2 (bs.take k)
        (s, .ok (if gone then 1 else if k < bs.length then 8 else 0))

/-- Bytes come from a command's source. -/
def State.stCollect (s : State) (q : StCmd) (n : Nat) : State × Except EngErr (Except Nat (List Byte)) :=
  match q.kind with
  | .global =>
    match s.vbytes q.core q.space q.target n with
    | (s, .ok bs) => (s, .ok (.ok bs))
    | (s, .error e) => if e.1.cause == .pageNotPresent then (s, .error e) else (s, .ok (.error (copyCode e.1.cause)))
  | _ => match s.stPlace q with
    | none => (s, .ok (.error 1))
    | some (core, off, room, _, _) => if n > room then (s, .ok (.error 8)) else (s, .ok (.ok ((s.spad core).read off n)))

/-- The data of a command move: its code, or the page that is absent. -/
def State.stMove (s : State) (q : StCmd) : State × Except EngErr Nat :=
  match s.namespace_ q.ns with
  | none => (s, .ok 6)
  | some n =>
    if q.write then
      if q.lba + q.count > n.blocks then (s, .ok 6) else
      match s.stCollect q (q.count * n.blk) with
      | (s, .error e) => (s, .error e)
      | (s, .ok (.error c)) => (s, .ok c)
      | (s, .ok (.ok bs)) => ({ s with nvme := s.nvme.ins q.ns (n.write q.lba bs) }, .ok 0)
    else match n.read q.ns q.lba q.count with
      | none => (s, .ok 6)
      | some bs => match q.vat with
        | none => s.stDeliver q bs
        | some t =>
          let (s, ds) := s.dicts q.core q.ctx
          let d := vatDecode (tmplOf t).vat (tmplOf t).e0 ds bs
          match s.stDeliver q d.out with
          | (s, .ok 0) => (s, .ok (if d.ok then 0 else 5))
          | r => r

/-- A command ends: status, handle, completion word (R216). DESIGN CHOICE (log 76): the word of a grant that is not VALID does not rise. -/
def State.stEnd (s : State) (q : StCmd) (code : Nat) : State :=
  let s := { s with stCmds := s.stCmds.filter (·.id != q.id) }
  let s := s.laneDone q.op q.lane (some (leBytes code 4)) none
  let s := if q.kind == .handle && q.early.isNone then s.modHandle q.core q.handle fun h => if q.write then h.endOut code else h.endIn code else s
  let g := grantOf q.grant
  if g.ok && g.word ≠ 0 then (s.bumpWord q.ctx q.core g.word).ioIrq g.irq g.core else s

/-- A command whose data may move: it is not held, and has a decompression stream where it needs one (R258). -/
def StCmd.goes (q : StCmd) : Bool := q.held.isNone && (q.early.isSome || q.vat.isNone || q.dec)

/-- R216: a storage command completes; `failed`: the NVMe command did. -/
def execStorageComplete (id : Nat) (failed : Bool) (s : State) : Host.Outcome State Fault Refusal :=
  .next <|
    match s.stCmds.find? fun q => q.id == id && q.goes with
    | none => s
    | some q =>
      match q.early with
      | some c => s.stEnd q c
      | none =>
        if q.count = 0 then s.stEnd q 0
        else if failed then s.stEnd q 6
        else match s.stMove q with
          | (s, .ok c) => s.stEnd q c
          | (s', .error (e, va)) =>
            let f : FaultInfo := { kind := 2, lane := 0, pc := q.pc, va := va, lanes := 0, acc := if q.write then .read else .write, reason := e.reason,
                                   level := e.level, unit := 2, chan := 0 }
            let (tag, s') := s'.postFault q.poster q.core f
            { s' with stCmds := s'.stCmds.map fun r => if r.id = id then { r with held := some tag, dec := false } else r }

-- The network (R217, R218, R323 to R326)

structure Endpoint where
  ok : Bool
  /-- delivery mode ROD, else RUD (R324) -/
  rod : Bool
  irq : Bool
  port : Nat
  w4 : Nat
  a8 : Nat
  a16 : Nat
  a24 : Nat
  deriving DecidableEq, Repr

def endpointOf (bs : List Byte) : Endpoint :=
  let w := recNat bs 0 4
  { ok := decide (w ≥ 2 ^ 31), rod := bitsOf w 30 1 == 1, irq := bitsOf w 29 1 == 1, port := bitsOf w 0 8, w4 := recNat bs 4 4, a8 := recNat bs 8 8, a16 := recNat bs 16 8, a24 := recNat bs 24 8 }

/-- An entry of the endpoint table: send endpoints 0 to 63, receive endpoints 64 to 127 (R325). -/
def State.endpoint (s : State) (ctx n : Nat) : List Byte := s.physBytes ((s.ctx ctx).epbase.toNat + 64 * n) 64

/-- The payload of a message, or the status that refuses it. DESIGN CHOICE (log 77): of several, 0x02 before 0x08, and both before 0x11. -/
def X.payload (x : X) (a : SendArg) (e : Endpoint) : Except Nat (List Byte) :=
  let max := min (e.w4 % 2 ^ 14) 9216
  match a.b with
  | none =>
    let bs := x.list.flatMap fun l => leBytes (x.g.rd32 l a.a).toNat 4
    if !e.ok then .error 2 else if bs.length > max then .error 8 else .ok bs
  | some r =>
    let n := (x.g.rd32 x.low r).toNat
    match x.ownRange (x.g.rd32 x.low a.a).toNat n with
    | none => .error 2
    | some (core, off) => if !e.ok then .error 2 else if n = 0 || n > max then .error 8 else .ok ((x.s.spad core).read off n)

/-- An event message of IEEE 1588-2019 (R327). PRESUMED (log 87): by the standard's common header, messageType below 4 and versionPTP 2. -/
def ptpEvent (bs : List Byte) : Bool := decide (34 ≤ bs.length) && decide (recNat bs 0 1 % 16 < 4) && recNat bs 1 1 % 16 == 2

/-- The time stamp of an event message on the port that SYS.PTPCTL names, while EN is set (R327). -/
def State.stampOf (s : State) (port : Nat) (payload : List Byte) : Option Nat :=
  if ptpEvent payload && s.clock.ptpctl.getLsbD 8 && s.clock.ptpctl.toNat % 256 == port then some s.clock.ns else none

def X.sendVals (x : X) (a : SendArg) : X :=
  match a.b with
  | none => { x with u := true }
  | some r => x.once fun l => [(x.g.rd32 l a.a).zeroExtend 64, (x.g.rd32 l r).zeroExtend 64]

def execNsend (h : Hdr) (a : SendArg) (s : State) : Host.Outcome State Fault Refusal :=
  s.withIssue (.nsend h a) h fun x => x.unlessEmpty fun x =>
    let x := x.sendVals a
    let addr := x.g.rd32 x.low a.a
    if a.b.isSome && addr.toNat % 16 ≠ 0 then x.trap .misaligned x.lanes (addr.zeroExtend 64) else
    let ctx := x.s.ctxOf x.g
    let bs := x.s.endpoint ctx a.ep.toNat
    let e := endpointOf bs
    let pay := x.payload a e
    let o : MemOp :=
      { gid := x.gid, pc := x.pc, kind := .other, size := 4, sx := false, nf := false, scope := .none, acq := false, u := true, lanes := x.lanes, d := a.d,
        accs := [LaneAcc.at_ x.low 0 0 0 10 0 0], inTrap := false, ctr := 2, atom := none, fe := none, held := none, sent := 0, sentCc := 0, due := 0, ready := false }
    let (x', op) := x.launchOp o ((useOpt a.d 1).flatMap RegUse.codes) none
    (x'.sync fun s =>
      let (id, s) := s.newSerial
      let up := s.portsUp.contains e.port
      let (st, payload) := match pay with
        | .error c => (some c, [])
        | .ok bs => (if up then none else some 0x11, bs)
      let r : SendRec := { id := id, op := op, lanes := x.lanes, gid := x.gid, core := x.core, ctx := ctx, ep := bs, status := st, payload := payload }
      let s := { s.claimPhys ((s.ctx ctx).epbase.toNat + 64 * a.ep.toNat) 64 with sends := s.sends ++ [r] }
      match st with
      | some c => s.soon (.nsendComplete id (BitVec.ofNat 8 c))
      | none => s.emit (.net e.port e.rod e.a24 payload (s.stampOf e.port payload))).done

/-- The statuses with which a port or the transport ends a message that was sent (R217). -/
def sendStatus (c : Byte) : Bool := c == 0x00 || c == 0x06 || c == 0x10 || c == 0x11

/-- R217, R324. -/
def execNsendComplete (id : Nat) (status : Byte) (s : State) : Host.Outcome State Fault Refusal :=
  .next <|
    match s.sends.find? fun r => r.id == id with
    | none => s
    | some r =>
      if r.status.isNone && !sendStatus status then s else
      let code := r.status.getD status.toNat
      let s := { s with sends := s.sends.filter (·.id != id) }
      let s := s.laneDone r.op (lowest r.lanes) (some (leBytes code 4)) none
      let e := endpointOf r.ep
      if e.ok && e.a8 ≠ 0 then (s.bumpWord r.ctx r.core e.a8).ioIrq e.irq (e.a16 % 512) else s

/-- The place of a packet in its ring (R326): the next free 16-byte boundary with 8 bytes below it, from the start again where
the ring's end is passed; none where a held packet is in the way. -/
def State.ringPlace (s : State) (ctx ep size len : Nat) : Option Nat :=
  let t := s.ringTail.get 0 (ctx * 64 + ep)
  let o := (t + 8 + 15) / 16 * 16
  let off := if o + len ≤ size then o else 16
  let clash := s.packets.any fun p => p.ctx == ctx && p.ep == ep && decide (off - 8 < p.off + p.len) && decide (p.off - 8 < off + len)
  if off + len ≤ size && !clash then some off else none

/-- R326: an arriving packet. -/
def State.packetIn (s : State) (ctx ep : Nat) (payload : List Byte) : State :=
  let e := endpointOf (s.endpoint ctx (64 + ep))
  let core := e.w4 % 512
  let len := payload.length
  if !e.ok || !s.portsUp.contains e.port || len = 0 || len > 9216 || ep ≥ 64 || core ≥ 384 then s else
  match s.ringPlace ctx ep e.a16 len with
  | none => s
  | some off =>
    let s := (s.claimPhys ((s.ctx ctx).epbase.toNat + 64 * (64 + ep)) 64).claimCtx ctx
    match s.vwrite core (s.ctxSpace ctx) (e.a8 + off - 8) (leBytes s.time 8 ++ payload) with
    | (s, .error _) => s
    | (s, .ok _) =>
      match s.xlate core (s.ctxSpace ctx) .atomic normalOnly e.a24 with
      | (s, .error _) => s
      | (s, .ok t) =>
        if t.pa ≥ hbmSize || e.a24 % 64 ≠ 0 then s else
        let desc := BitVec.ofNat 64 (len * 2 ^ 50 + ep * 2 ^ 44 + off)
        match s.mbStep core (s.ctxSpace ctx) t.pa t.key (some desc) with
        | (s, .ok (some _)) =>
          let h : Held := { ctx := ctx, ep := ep, off := off, len := len }
          { s with packets := s.packets ++ [h], ringTail := s.ringTail.put 0 (ctx * 64 + ep) (off + len) }.ioIrq e.irq core
        | (s, _) => s

def execEthernetPacketArrival (ctx ep : Nat) (payload : List Byte) (s : State) : Host.Outcome State Fault Refusal := .next (s.packetIn ctx ep payload)

/-- R218. DEDUCED (log 31): a ring page that cannot be read raises its cause. -/
def execNrecv (h : Hdr) (d a b : Reg) (s : State) : Host.Outcome State Fault Refusal :=
  s.withIssue (.nrecv h d a b) h fun x => x.unlessEmpty fun x =>
    let x := x.once fun l => [x.g.rd64 l a, (x.g.rd32 l b).zeroExtend 64]
    let v := x.g.rd64 x.low a
    let addr := (x.g.rd32 x.low b).toNat
    let ctx := x.s.ctxOf x.g
    let k : Held := { ctx := ctx, ep := Dword.field v 44 6, off := Dword.field v 0 44, len := Dword.field v 50 14 }
    let answer (x : X) (st : Nat) : State := (x.putAll 1 d (BitVec.ofNat 128 (k.len * 65536 + st))).done
    if addr % 16 ≠ 0 then x.trap .misaligned x.lanes (BitVec.ofNat 64 addr)
    else if !x.s.packets.contains k then answer x 2
    else match x.ownRange addr k.len with
      | none => answer x 8
      | some (core, off) =>
        if x.watchHit true false true addr k.len then x.trap .watch x.lanes (BitVec.ofNat 64 addr) else
        let e := endpointOf (x.s.endpoint ctx (64 + k.ep))
        let s := (x.s.claimPhys ((x.s.ctx ctx).epbase.toNat + 64 * (64 + k.ep)) 64).claimCtx ctx
        match s.vbytes x.core (s.ctxSpace ctx) (e.a8 + k.off) k.len with
        | (s, .error er) => { x with s := s }.trap er.1.cause x.lanes (BitVec.ofNat 64 er.2)
        | (s, .ok bs) =>
          let s := { s with packets := s.packets.erase k }.modSpad core fun p => p.write 0 off bs
          answer { x with s := s.acquireAt x.core .sys } 0

/-- R316, R324: a port of an engine in Ethernet mode comes up or goes down. -/
def execPortUp (port : Nat) (s : State) : Host.Outcome State Fault Refusal :=
  .next (if port < 256 && oeField s.oemode (port / 16) == 2 && !s.portsUp.contains port then { s with portsUp := s.portsUp ++ [port] } else s)

/-- DEDUCED (log 30): a message that waits for its acknowledgement on a port that goes down ends with status 0x11. -/
def execPortDown (port : Nat) (s : State) : Host.Outcome State Fault Refusal :=
  let lost (r : SendRec) : SendRec := if r.status.isNone && (endpointOf r.ep).port == port then { r with status := some 0x11 } else r
  .next (if s.portsUp.contains port then { s with portsUp := s.portsUp.filter (· != port), sends := s.sends.map lost } else s)

-- Kazry links (R316 to R322)

/-- The oldest Peer access outstanding over a link is answered; one given up before takes its answer with it (R305, R320). -/
def State.peerAnswer (s : State) (link : Nat) (failed : Bool) (data : List Byte) : State :=
  match (s.link link).out with
  | [] => s
  | r :: t =>
    let s := (s.modLink link fun l => { l with out := t }).flowLink link
    if r.late then s
    else if failed then s.laneDone r.op r.lane none (some .busError)
    else match r.kind with
      | .write _ => s.laneDone r.op r.lane none none
      | _ => s.laneDone r.op r.lane (some ((List.range r.len).map fun i => data.getD i 0)) none

/-- The bytes that stand for an answer in the payload of a flit (log 32). -/
def answerBody (failed : Bool) (data : List Byte) : List Byte := (if failed then 17 else 16) :: data

/-- This device answers a Peer request. -/
def State.answerPeer (s : State) (link : Nat) (a : Option (List Byte)) : State := s.sendFlit link 1 (answerBody a.isNone (a.getD []))

/-- A range of this device's HBM that a Peer request may reach (R352). -/
def State.peerReach (s : State) (pa n : Nat) : Bool := decide (pa + n ≤ hbmSize) && !s.msys.bad pa n

/-- What a memory flit asks of this device, performed at the home slice in the order of the flits, or the answer that it brings (R320).
UNVERIFIED (log 32): the spec does not lay out a flit's payload. -/
def State.peerMsg (s : State) (link : Nat) : Sys2Proof.Config.PeerMsg → State
  | .answer failed data => s.peerAnswer link failed data
  | .read pa len key =>
    if !s.peerReach pa len then s.answerPeer link none else
    let (bs, s) := s.homeRead key pa len
    s.answerPeer link (some bs)
  | .write pa key bs => if !s.peerReach pa bs.length then s.answerPeer link none else (s.homeWrite key pa bs).answerPeer link (some [])
  | .atomic pa len key op b c =>
    if !s.peerReach pa len then s.answerPeer link none else
    let (old, s) := s.homeRead key pa len
    (s.homeWrite key pa (leBytes (atomNew (.ofCode op) len (leNat old) b.toNat c.toNat) len)).answerPeer link (some old)

def Link.lane (l : Link) (i : Nat) : KLane := l.lanes.get KLane.reset i
def Link.setLane (l : Link) (i : Nat) (k : KLane) : Link := { l with lanes := l.lanes.put KLane.reset i k }

/-- The lane that takes a removed lane's place in TRADE begins training (R319). -/
def Link.trainSpare (l : Link) (mode : Mode) (but : Nat) : Link :=
  if mode != .trade then l else
  match (List.range 8).find? fun i => i != but && !(l.lane i).active && !(l.lane i).training with
  | some i => l.setLane i { l.lane i with training := true }
  | none => l

/-- A lane is handed back and retrains (R319). -/
def State.dropLane (s : State) (link lane : Nat) : State :=
  let l := s.link link
  let k := l.lane lane
  let l := (l.setLane lane { k with active := false, training := true, retrains := min (k.retrains + 1) 65535 }).trainSpare s.clock.mode lane
  s.modLink link fun _ => if l.active = 0 then { l with noLane := s.clock.ns } else l

/-- The bytes that stand for a control message: a SEQ to be sent again, or a lane that leaves (log 32). -/
def controlBody (again : Bool) (n : Nat) : List Byte := (if again then 1 else 0) :: leBytes n 8

/-- A control flit (R318, R319): the flit it asks for is sent again, or the lane it names leaves here too. -/
def State.controlIn (s : State) (link : Nat) : Option (Bool × Nat) → State
  | some (true, seq) => match (s.link link).replay.find? fun f => f.1 == seq with
    | some f => s.emit (.flit link f.2)
    | none => s
  | some (false, lane) => if ((s.link link).lane lane).active then s.dropLane link lane else s
  | none => s

/-- A gang message has come: its event (R266, R285). -/
def State.gangIn (s : State) (k : Nat) (gang : Dword) (dev : Nat) (code : Byte) : State :=
  match k with
  | 0 => s.schedule s.cc (.gangArm gang)
  | 1 => s.schedule s.cc (.gangAck gang dev)
  | 2 => s.schedule s.cc (.gangCommit gang)
  | 3 => s.schedule s.cc (.gangAbort gang)
  | 4 => s.schedule s.cc (.gangReport gang dev code)
  | 5 => match s.gangLaunch gang with
    | some (lch, _, _) => s.schedule s.cc (.gangBarrierMessage lch code.toNat (some (remoteMember dev)))
    | none => s
  | _ => s

/-- What a flit carries takes effect, by its KIND (R317). -/
def State.flitPayload (s : State) (link kind : Nat) (payload : List Byte) : State :=
  match kind with
  | 1 => s.peerMsg link (Sys2Proof.Config.peerMessage payload)
  | 2 => s.controlIn link (Sys2Proof.Config.controlMessage payload)
  | 3 =>
    let m := Sys2Proof.Config.gangMessage payload
    s.gangIn m.1 m.2.1 m.2.2.1 m.2.2.2
  | _ => s

/-- A flit in SEQ order is delivered: credits returned, the highest SEQ the other end has, and its payload (R317). -/
def State.deliverFlit (s : State) (link : Nat) (flit : List Byte) : State :=
  let head := recNat flit 0 8
  let s := s.modLink link fun l =>
    { l with expSeq := (l.expSeq + 1) % 2 ^ 24, owed := l.owed + 1, credits := l.credits + head / 2 ^ 24 % 4096, acked := head % 2 ^ 24 }
  s.flitPayload link (head / 2 ^ 36 % 16) (recSlice flit 8 240)

/-- Flits that came early are delivered when their turn comes. -/
def State.drainFlits (s : State) (link : Nat) : Nat → State
  | 0 => s
  | n + 1 =>
    let l := s.link link
    match l.buffered.find? fun f => f.1 == l.expSeq with
    | none => s
    | some f => ((s.modLink link fun l => { l with buffered := l.buffered.filter (·.1 != f.1) }).deliverFlit link f.2).drainFlits link n

/-- A flit's codewords are corrected and its CRC holds (R317, R318). -/
def flitOk (flit : List Byte) (corrected : Bool) : Bool :=
  corrected && flit.length == 256 && recNat flit 248 8 == (Sys2Proof.Config.crc32 (flit.take 248)).toNat

/-- R318. -/
def execFlitReceive (link : Nat) (flit : List Byte) (corrected : Bool) (s : State) : Host.Outcome State Fault Refusal :=
  .next <|
    let l := s.link link
    if !l.carries then s else
    let seq := recNat flit 0 8 / 2 ^ 40
    if !flitOk flit corrected then (s.emit (.resend link seq)).sendFlit link 2 (controlBody true seq)
    else
      if seq = l.expSeq then (s.deliverFlit link flit).drainFlits link l.buffered.length
      else if (seq + 2 ^ 24 - l.expSeq) % 2 ^ 24 < 2048 && !l.buffered.any (·.1 == seq) then s.modLink link fun l => { l with buffered := l.buffered ++ [(seq, flit)] }
      else s

/-- R319: a lane's window of WIN ms closes; the counts of the window come with the event. A lane with too many errors is handed back, which a
control flit tells the other end. -/
def execLaneErrorWindow (link lane errors corrected uncorrected : Nat) (s : State) : Host.Outcome State Fault Refusal :=
  .next <|
    let l := s.link link
    let k := l.lane lane
    if !k.active || lane ≥ 8 || s.clock.ns < k.since + l.win * 1000000 then s else
    let k := { k with sym := BitVec.ofNat 64 (min (k.sym.toNat + errors) (2 ^ 64 - 1)), corrected := BitVec.ofNat 32 (min (k.corrected.toNat + corrected) (2 ^ 32 - 1)),
                      uncorrectable := min (k.uncorrectable + uncorrected) 65535, since := s.clock.ns }
    let s := s.modLink link fun l => l.setLane lane k
    if errors ≤ l.thresh then s
    else (if l.st = .up then s.sendFlit link 2 (controlBody false lane) else s).dropLane link lane

/-- R319: a retrained lane rejoins; in TRADE it stays spare while four others are active. -/
def execLaneRejoin (link lane : Nat) (s : State) : Host.Outcome State Fault Refusal :=
  .next <|
    let l := s.link link
    let k := l.lane lane
    if !k.training || lane ≥ 8 || l.st != .up then s
    else
      ((s.modLink link fun l => l.setLane lane { k with training := false, active := s.clock.mode != .trade || decide (l.active < 4), since := s.clock.ns }).flowLink
        link).flushGang link

/-- A link goes DOWN: its outstanding and waiting accesses receive BUS_ERROR, and gang messages not yet sent are lost (R319, R322). -/
def State.dropLink (s : State) (link : Nat) : State :=
  let l := s.link link
  let s := s.modLink link fun l =>
    { l with st := .down, out := [], waiting := [], gang := [], expSeq := 0, buffered := [], txSeq := 0, replay := [], owed := 0, credits := 0, acked := 0, lanes := l.lanes.map fun p => (p.1, { p.2 with active := false, training := false }) }
  (l.out ++ l.waiting).foldl (fun s r => s.laneDone r.op r.lane none (some .busError)) s

/-- R319: no active lane for 10 ms. -/
def execLinkDown (link : Nat) (s : State) : Host.Outcome State Fault Refusal :=
  let l := s.link link
  .next (if l.st != .down && l.active = 0 && l.noLane + 10000000 ≤ s.clock.ns then s.dropLink link else s)

/-- The lanes a link runs on in a mode (R4). -/
def Link.lightLanes (l : Link) (mode : Mode) (ns : Nat) : Link :=
  (List.range 8).foldl (fun l i => l.setLane i { l.lane i with active := mode != .trade || decide (i < 4), training := false, since := ns }) l

/-- The links that stay up in LULL: the 32 lowest-numbered with KEEP (R322). -/
def State.keptLinks (s : State) : List Nat :=
  ((List.range 256).filter fun n => (s.link n).keep && oeField s.oemode (n / 16) == 1).take 32

/-- In LULL only kept links come up, and at most 32 (R4, R322). -/
def State.mayRise (s : State) (link : Nat) : Bool :=
  s.clock.mode != .lull || (s.keptLinks.contains link && decide ((s.links.filter fun p => p.2.st == .up && oeField s.oemode (p.1 / 16) == 1).length < 32))

/-- R322: a training link is UP, and what waited for it goes out. DEDUCED (log 29): the spec does not say what starts the training of
a link that is DOWN; the event brings up any link of an engine in Kazry mode that LULL does not keep down. -/
def execLinkTrained (link : Nat) (s : State) : Host.Outcome State Fault Refusal :=
  .next (if link < 256 && (s.link link).st != .up && oeField s.oemode (link / 16) == 1 && !(s.link link).lulled && s.mayRise link then
    ((s.modLink link fun l => { l with st := .up }.lightLanes s.clock.mode s.clock.ns).flowLink link).flushGang link else s)

/-- The tray window holds a range (R315, R321). -/
def State.inTray (s : State) (pa n : Nat) : Bool :=
  let base := Dword.field s.traywin 30 22 * 2 ^ 30
  decide (base ≤ pa) && decide (pa + n ≤ base + Dword.field s.traywin 22 8 * 2 ^ 30) && decide (pa + n ≤ hbmSize)

/-- R321: a load (of as many bytes as the list has) or a store from a tray. -/
def execTrayTransaction (link : Nat) (write : Bool) (pa : Nat) (bytes : List Byte) (s : State) : Host.Outcome State Fault Refusal :=
  .next <|
    let l := s.link link
    let key := Dword.field s.traywin 56 8
    if !l.carries || !l.tray then s
    else if !s.inTray pa bytes.length then s.emit (.trayDone link none)
    else if write then (s.homeWrite key pa bytes).emit (.trayDone link (some []))
    else
      let (bs, s) := s.homeRead key pa bytes.length
      s.emit (.trayDone link (some bs))

end Sys2Proof.Machine
end

