-- ==== Sys2Proof/Machine/Preempt.lean ====
section
/-! DEFINITION. The context list and pre-emption (R292, R293, R308, R309), the switch of engines and copies (R245, R261),
the mode boundary (R5, R322), the slice-map switch (R313) and the time-base tick (R265), with their events. -/

namespace Sys2Proof.Machine

-- The context list (R292)

def State.runnable (s : State) (i : Nat) : Bool := (s.ctxEntry i).valid && (s.ctxEntry i).run

/-- The first RUNNABLE entry along NEXT from `i`, in so many steps. An entry that is its own NEXT and may not run ends the search. -/
def State.followNext (s : State) : Nat → Nat → Option Nat
  | 0, _ => none
  | k + 1, i =>
    let n := (s.ctxEntry i).next
    if s.runnable n then some n else if n = i then none else s.followNext k n

/-- What the scheduler chooses at a boundary (R293): along NEXT from the resident entry, or from entry 0. -/
def State.chooseNext (s : State) : Option Nat := s.followNext 64 (s.resident.getD 0)

-- Requests (R308)

def execPreqRequest (ctx : Nat) (s : State) : Host.Outcome State Fault Refusal := .next (s.preqRequest ctx)
def execPreqWithdraw (ctx : Nat) (s : State) : Host.Outcome State Fault Refusal := .next (s.preqWithdraw ctx)

/-- The request takes effect at every core: REQ, and the limit of the save. -/
def execPreemptionRequest (ctx : Nat) (s : State) : Host.Outcome State Fault Refusal :=
  let c := s.ctx ctx
  .next (if s.resident = some ctx && !c.saving && !c.preq then s.modCtx ctx fun c => { c with preq := true, deadline := some (s.cc + c.plim) } else s)

/-- The time slice is used up (R293). -/
def Ctx.sliceDone (c : Ctx) : Bool := decide (c.sliceUs * 1000 ≤ c.sliceUsed)

/-- A resident context leaves at its boundary: another is found, it may not run on, or a mode change waits (R5, R293). -/
def State.leaves (s : State) (ctx : Nat) : Bool :=
  s.clock.modePending.isSome || !s.runnable ctx || (s.chooseNext.any (· != ctx))

def State.requestGoes (s : State) (ctx : Nat) : Bool := s.events.any fun e => e.2 == .preemptionRequest ctx

def execTimeSliceExpiry (ctx : Nat) (s : State) : Host.Outcome State Fault Refusal :=
  let c := s.ctx ctx
  .next <|
    if s.resident ≠ some ctx || !c.sliceDone || c.preq || c.saving || s.requestGoes ctx then s
    else if s.leaves ctx then s.schedule (s.cc + 48) (.preemptionRequest ctx)
    else s.modCtx ctx fun c => { c with sliceUsed := 0 }

-- The save begins (R308)

def Group.ofCtx (g : Group) (ctx : Nat) : Bool := !g.isSuper && g.info.ctx == ctx

/-- A group that need not be waited for. -/
def Group.quiet (g : Group) : Bool :=
  g.sched.held || g.runs.all fun r => match r.st with
    | .ready | .stalled _ => false
    | _ => true

/-- A partition of the context is stopped by the debugger. -/
def State.debugStopped (s : State) (ctx : Nat) : Bool :=
  s.groups.any fun p => p.2.ofCtx ctx && ((s.core p.2.info.core).part p.2.info.part).stopped.isSome

/-- Every group of the context is held, retired or without READY and STALLED runs, and no B or CB barrier is partly arrived. -/
def State.mayBegin (s : State) (ctx : Nat) : Bool :=
  s.groups.all (fun p => !p.2.ofCtx ctx || p.2.quiet) && s.wgs.all fun p => p.2.ctx != ctx || !s.partlyArrived p.1

/-- Lanes that wait at full/empty granules are recorded, the others complete, with the acquire of what they read (R152, R153). -/
def Group.splitFe (g : Group) (id : Nat) (rest : Lanes) : Group :=
  g.runs.foldl (fun g r => match r.st with
    | .waiting w =>
      if w.ops.contains id then
        let len := (w.ins.bind Instr.hdr).elim 8 fun h => h.len.bytes
        (g.wake (r.lanes &&& ~~~rest) (pcAdd r.pc len)).wake (r.lanes &&& rest) r.pc
      else g
    | _ => g) g

def State.cancelFe (s : State) (id : Nat) (o : MemOp) : State :=
  let open_ := o.accs.filter fun a => !a.done
  if open_.isEmpty then s else
  let rest := open_.foldl (fun m a => m ||| o.threads a) (0 : Lanes)
  let o' := { o with accs := o.accs.filter (·.done), lanes := o.lanes &&& ~~~rest }
  let s := { s with feq := s.feq.filter (·.op != id), spIn := s.spIn.filter (·.op != id) }
  let s := s.modGroup o.gid fun g => (o'.writeD g).splitFe id rest
  let s := if o'.acq && !o'.accs.isEmpty then (s.group? o.gid).elim s fun g => s.acquireAt g.info.core o'.scope else s
  s.endOp id o'

/-- The full/empty accesses of the groups that `p` names are withdrawn. -/
def State.cancelFes (s : State) (p : Group → Bool) : State :=
  s.ops.foldl (fun s q => if q.2.fe.isSome && (s.group? q.2.gid).any p then s.cancelFe q.1 q.2 else s) s

/-- The save begins: REQ falls, groups issue no more, engines and copy queues take in nothing (R245, R261, R308). -/
def State.beginSave (s : State) (ctx : Nat) (forced : Bool) : State :=
  let s := s.modCtx ctx fun c => { c with preq := false, saving := true, forced := forced, deadline := none }
  let s := (List.range 96).foldl (fun s cl => s.modBte cl fun b => { b with stop := true }) s
  s.cancelFes (·.ofCtx ctx)

/-- R308: the condition has been observed; a save does not begin while a partition of the context is stopped (R334). -/
def execSaveBegin (ctx : Nat) (s : State) : Host.Outcome State Fault Refusal :=
  let c := s.ctx ctx
  .next (if s.resident = some ctx && c.preq && !c.saving && !s.debugStopped ctx then s.beginSave ctx false else s)

/-- The limit has passed, and no cycle that lets the save begin fell before it (R308). -/
def State.saveForced (s : State) (ctx : Nat) : Bool :=
  let c := s.ctx ctx
  c.preq && !c.saving && !s.debugStopped ctx && !(s.events.any fun e => e.2 == .saveBegin ctx) && match c.deadline with
    | some d => decide (d ≤ s.cc)
    | none => false

def execForcedSave (ctx : Nat) (s : State) : Host.Outcome State Fault Refusal :=
  .next (if s.resident = some ctx && s.saveForced ctx then s.beginSave ctx true else s)

-- The save is complete

def State.gidOfCtx (s : State) (ctx gid : Nat) : Bool := (s.group? gid).any (·.ofCtx ctx)

/-- An operation that the save has not to wait for: its copies or storage commands are held, or stand before their queue. -/
def State.opSaved (s : State) (id : Nat) (o : MemOp) : Bool :=
  o.accs.all fun a => a.done || a.typ == 9 || (a.typ == 10 && s.stCmds.any fun q => q.op == id && q.lane == a.lane && q.held.isSome)

/-- Reports, replies and snapshots of the context that are on their way (R277). -/
def State.censusFlies (s : State) (ctx : Nat) : Bool :=
  s.events.any fun e => match e.2 with
    | .censusReport ref _ | .censusReply ref _ _ | .solicitSnapshot ref => (s.census? ref).any (·.ctx == ctx)
    | _ => false

/-- Issued instructions, granted commands and copies in flight are complete; a held copy keeps those behind it (R245, R261, R308). -/
def State.drained (s : State) (ctx : Nat) : Bool :=
  let mine (gid : Nat) : Bool := s.gidOfCtx ctx gid
  s.ops.all (fun p => !mine p.2.gid || (!p.2.ready && s.opSaved p.1 p.2)) &&
  s.groups.all (fun p => !p.2.ofCtx ctx || p.2.busy.all fun b => (s.ops.find b.id).isSome) &&
  s.rels.all (fun p => !mine p.2.gid) && s.groups.all (fun p => !p.2.ofCtx ctx || !p.2.runs.any (·.awaitsRelease)) && s.cores.all (fun p => p.2.dev.all fun d => !mine d.gid) &&
  s.clusters.all (fun p =>
    p.2.mxe.table.all (fun e => e.ctx != ctx || e.granted.isNone) && p.2.bte.chans.all (fun c => c.2.head?.all fun r => !r.accepted || r.held.isSome) &&
    p.2.bte.moves.all fun m => !mine m.gid) &&
  !s.censusFlies ctx

-- The save image (R309)

def insRec (r : Nat × List Word) : List (Nat × List Word) → List (Nat × List Word)
  | [] => [r]
  | q :: t => if r.1 < q.1 then r :: q :: t else q :: insRec r t

/-- When a record was posted; one that is not posted yet comes last. -/
def recTime (ws : List Word) : Nat :=
  let t := (ws.getD 4 0).toNat + (ws.getD 5 0).toNat * 2 ^ 32
  if t = 0 then 2 ^ 64 else t

/-- The KIND 1 records of a context, in posting order. -/
def State.ctxRecords (s : State) (ctx : Nat) : List (List Word) :=
  let rs := s.cores.flatMap fun p => (p.2.records.filter fun r => r.kind == 1 && r.ctx == ctx).map (·.words)
  (rs.foldl (fun l ws => insRec (recTime ws, ws) l) []).map (·.2)

def wordsBytes (ws : List Word) : List Byte := ws.flatMap fun w => leBytes w.toNat 4

/-- The parts of the image that software reads: the header and the record area. DESIGN CHOICE (log 33): the rest of the image,
whose layout is private, is held in the state and not in memory. -/
def State.writeImage (s : State) (ctx : Nat) : State :=
  let c := s.ctx ctx
  let rs := s.ctxRecords ctx
  let n := min rs.length 16384
  if c.save + 0x101000 > hbmSize then s else
  let s := s.homeWrite 0 (c.save + 8) (leBytes 1 4 ++ leBytes (bitIf c.forced 0 + bitIf c.bySuper 1 + bitIf (decide (rs.length > 16384)) 2) 4 ++
    leBytes s.time 8 ++ leBytes n 4)
  s.homeWrite 0 (c.save + 0x1000) ((rs.take 16384).flatMap wordsBytes)

/-- The size of a cluster's engine save area (R245). -/
def engArea : Nat := 2 * 1024 * 1024

/-- The engines' states are written to their save areas (R245, R354). DESIGN CHOICE (log 33): what the areas at an ENGSAVE hold is kept in
the state; no rule gives software a part in them. -/
def State.writeEngines (s : State) (ctx : Nat) : State :=
  let base := (s.ctx ctx).engsave
  let held : SMap Mxe := s.clusters.map fun p => (p.1, p.2.mxe)
  (List.range 96).foldl (fun (s : State) cl =>
    let pa := base + engArea * cl
    if pa + engArea > hbmSize then s
    else { s with fresh := s.fresh + 1 }.homeWrite 0 pa ((List.range engArea).map (Sys2Proof.Config.engSaveByte s.fresh)))
    { s with engAreas := s.engAreas.ins base held }

/-- Parked lanes are saved READY at their instructions. -/
def Group.unparkAll (g : Group) : Group :=
  g.runs.foldl (fun g r => match r.st with
    | .faultParked _ => g.wake r.lanes r.pc
    | _ => g) g

/-- A group as it is saved; a responder holds no active slot and never parks (R273). DESIGN CHOICE (log 71): any other group is PARKED when
its context is restored, and returns as R31 says. -/
def Group.saved (g : Group) : Group :=
  { g.unparkAll with sched := { g.sched with resident := false, active := g.isResponder, ret := none, elig := none, promoted := false, held := false } }

/-- Records and trap-queue entries of a context leave a core. -/
def Core.dropCtx (c : Core) (ctx : Nat) : Core :=
  let mine (e : SvqEntry) : Bool := e.kind == 1 && e.ctx == ctx
  { c with records := c.records.filter fun r => !(r.kind == 1 && r.ctx == ctx), svq := c.svq.filter fun e => !mine e,
           svqWin := c.svqWin.filter fun e => !mine e, trapq := c.trapq.filter fun e => !(e.gid.isSome && e.ctx == ctx) }

def Core.unload (c : Core) : Core := { c with handles := [], census := [], spawn := [] }

/-- Copies of a cluster by key cluster * 16 + channel. -/
def State.allCopies (s : State) : SMap (List CopyRec) :=
  s.clusters.flatMap fun p => p.2.bte.chans.map fun c => (p.1 * 16 + c.1, c.2)

/-- The outgoing context is written: groups, cores, engines, copies (R27, R245, R261, R277, R308, R309). -/
def State.saveOut (s : State) (ctx : Nat) : State :=
  let s := s.writeImage ctx
  let cores : SMap SavedCore := (List.range 384).filterMap fun k =>
    let c := s.core k
    let sp := s.spad k
    if c.handles.isEmpty && c.census.isEmpty && c.spawn.isEmpty && sp = Spad.reset then none
    else some (k, { handles := c.handles, census := c.census, spawn := c.spawn.map fun e => { e with slot := none }, spad := sp })
  let copies := s.allCopies
  let s := (s.writeEngines ctx).modCtx ctx fun c =>
    { c with st := .saved, heldCopies := copies, savedCores := cores, saving := false, forced := false, bySuper := false,
             preq := false, deadline := none }
  { s with
    resident := none
    groups := s.groups.map fun p => if p.2.ofCtx ctx then (p.1, p.2.saved) else p
    cores := s.cores.map fun p => (p.1, (p.2.dropCtx ctx).unload)
    spads := []
    clusters := s.clusters.map fun p => (p.1, { p.2 with mxe := Mxe.reset, bte := { p.2.bte with chans := [], stop := true } }) }

-- The restore

/-- Units of the BTE's configuration, from memory (R261). -/
def State.loadBte (s : State) (e : CtxEntry) (cluster : Nat) (b : Bte) : Bte :=
  let rows (base n len : Nat) : SMap (List Byte) := (List.range n).map fun i => (i, s.physBytes (base + len * i) len)
  { b with templates := rows e.tmpl 256 64, dict := rows e.dict 16 16, engsave := BitVec.ofNat 64 (e.engsave + cluster * 2 ^ 21), stop := false }

/-- The trap-queue entries of trapped groups are posted again (R308). -/
def State.repost (s : State) (ctx : Nat) : State :=
  s.groups.foldl (fun s p =>
    let g := p.2
    if g.ofCtx ctx && g.sched.trapped then
      s.modCore g.info.core fun c =>
        { c with trapq := c.trapq ++ [{ word := trapqWord ctx (g.sys.trap.cause.toNat % 256) g.info.part g.resp g.slot, gid := some p.1, ctx := ctx }] }
    else s) s

/-- Copies that still stand before their queues are sent again (R290). -/
def State.kickCopies (s : State) (copies : SMap (List CopyRec)) : State :=
  copies.foldl (fun s p =>
    ((p.2.filter fun r => !r.accepted).map (·.core)).eraseDups.foldl (fun s core => s.schedule s.cc (.replayResend core (chanKey (p.1 % 16)))) s) s

/-- STATE of a context's save image is 0: the context starts for the first time (R245, R309). -/
def State.neverSaved (s : State) (e : CtxEntry) : Bool := e.save + 24 ≤ hbmSize && s.msys.nat 0 (e.save + 8) 4 == 0

/-- What an image held that software has made a new one: groups, their workgroups with barriers and channels, tensor identifiers,
broadcast slots, saved scratchpads and held copies. -/
def State.forgetCtx (s : State) (ctx : Nat) : State :=
  let wgs := s.wgs.map fun p => if p.2.ctx = ctx && !p.2.ended then (p.1, { p.2 with ended := true, groups := [] }) else p
  let gone (wg : Nat) : Bool := (s.wgs.find wg).any (·.ctx == ctx)
  let team (n : Nat) : Bool := s.wgs.any fun p => p.2.team == n && p.2.ctx == ctx
  { (s.modCtx ctx fun c => { c with heldCopies := [], savedCores := [] }) with
    groups := s.groups.filter fun p => !p.2.ofCtx ctx
    wgs := wgs
    allocs := s.allocs.map fun p => if gone p.2.wg && p.2.released.isNone then (p.1, { p.2 with released := some s.clock.ns }) else p
    chans := s.chans.filter fun p => !team (p.1 / 8)
    bars := s.bars.filter fun p => !((p.1 / 64 % 4 == 0 && gone (p.1 / 256)) || (p.1 / 64 % 4 == 1 && team (p.1 / 256)))
    tensors := s.tensors.filter fun p => p.1 / (96 * 256) != ctx
    slots := s.slots.filter fun p => p.1 / 16 != ctx }

/-- The incoming context becomes resident (R245, R261, R277, R293, R309). -/
def State.restoreIn (s : State) (ctx : Nat) : State :=
  let e := s.ctxEntry ctx
  let s := (s.claimPhys e.save 24).claimPhys e.tmpl (256 * 64) |>.claimPhys e.dict 256
  let root := if e.save + 8 ≤ hbmSize then s.msys.nat 0 e.save 8 else 0
  let new := s.neverSaved e
  let s := if new then s.forgetCtx ctx else s
  let c := s.ctx ctx
  let engines : SMap Mxe := if new then [] else s.engAreas.get [] e.engsave
  let s := { s with engAreas := s.engAreas.del e.engsave }
  let s := s.modCtx ctx fun c =>
    { c with st := .resident, asid := e.asid, keyid := e.keyid, ptroot := BitVec.ofNat 64 root, save := e.save, engsave := e.engsave, tmpl := e.tmpl,
             dict := e.dict, next := e.next, sliceUs := e.slice, plim := e.plim, sliceUsed := 0, heldCopies := [], savedCores := [] }
  let load (k : Nat) (q : Core) : Core :=
    let q := { q with asid := e.asid, keyid := e.keyid, ptbase := BitVec.ofNat 64 (root / 4096 * 4096 % 2 ^ 52) }
    match c.savedCores.find k with
    | some v => { q with handles := v.handles, census := v.census, spawn := v.spawn }
    | none => q
  let s := (List.range 384).foldl (fun s k => s.modCore k (load k)) s
  let s := (List.range 96).foldl (fun s cl => s.modCluster cl fun q =>
    { q with
      mxe := engines.get Mxe.reset cl
      bte := { s.loadBte e cl q.bte with chans := (List.range 16).filterMap fun ch => (c.heldCopies.find (cl * 16 + ch)).map fun l => (ch, l) } }) s
  let s := { s with
    resident := some ctx
    spads := c.savedCores.filterMap fun (p : Nat × SavedCore) => if p.2.spad = Spad.reset then none else some (p.1, p.2.spad)
    groups := s.groups.map fun (p : Nat × Group) => if p.2.ofCtx ctx then (p.1, { p.2 with sched := { p.2.sched with resident := true } }) else p }
  let s := (s.repost ctx).kickCopies c.heldCopies
  (c.savedCores.filter fun p => !p.2.spawn.isEmpty).foldl (fun s p => s.kickSpawn p.1) s

-- The mode boundary (R4, R5, R322)

/-- LULL waits until no slice 4k + 3 owns a bucket. -/
def MemSys.lullReady (m : MemSys) : Bool := (List.range 32).all fun k => !m.inService (4 * k + 3)

/-- Links at entry to LULL and at exit from it (R322). -/
def State.lullLinks (s : State) (enter : Bool) : State :=
  let kept := s.keptLinks
  s.links.foldl (fun s p =>
    if enter then
      if p.2.st != .down && oeField s.oemode (p.1 / 16) == 1 && !kept.contains p.1 then (s.dropLink p.1).modLink p.1 fun l => { l with lulled := true } else s
    else if !p.2.lulled then s
    else s.modLink p.1 fun l =>
      if oeField s.oemode (p.1 / 16) == 1 then { l with lulled := false, st := .training, noLane := s.clock.ns } else { l with lulled := false }) s

/-- DEDUCED (log 28): entering TRADE the four lowest-numbered active lanes stay in use; leaving it every spare lane joins again. -/
def Link.tradeLanes (l : Link) (enter : Bool) : Link :=
  if l.st != .up then l
  else if enter then
    let keep := ((List.range 8).filter fun i => (l.lane i).active).take 4
    (List.range 8).foldl (fun l i => l.setLane i { l.lane i with active := keep.contains i }) l
  else (List.range 8).foldl (fun l i => l.setLane i { l.lane i with active := (l.lane i).active || !(l.lane i).training }) l

def State.tradeLinks (s : State) (enter : Bool) : State := { s with links := s.links.map fun p => (p.1, p.2.tradeLanes enter) }

/-- The budgets of R4, in W. -/
def modeBudget : Mode → Nat
  | .gale => 3600 | .trade => 3100 | .breeze => 2700 | .lull => 1100

/-- Package power above the mode's budget for 10 ms has cycles withheld, and the onset is logged (R349). DEDUCED (log 42): power at or
below it ends the throttling. -/
def State.checkPower (s : State) : State :=
  let watts := s.mgmt.sensors.get 0 128
  let since := if s.mgmt.firmware && decide ((modeBudget s.clock.mode : Int) < watts) then some (s.mgmt.powerSince.getD s.clock.ns) else none
  let late := since.any fun t => decide (t + 10000000 ≤ s.clock.ns)
  let s' := s.modMgmt fun m => { m with powerSince := since, pkgThrottle := late }
  if late && !s.mgmt.pkgThrottle then s'.logEvent 1 2 watts.toNat else s'

/-- A pending mode takes effect, if it may. -/
def State.applyMode (s : State) : State :=
  match s.clock.modePending with
  | none => s
  | some (m, _) =>
    if m = .lull && !s.msys.lullReady then s else
    let old := s.clock.mode
    let s := { s with clock := { s.clock with mode := m, modePending := none } }.checkPower
    let s := if m = .lull && old ≠ .lull then s.lullLinks true else if m ≠ .lull && old = .lull then s.lullLinks false else s
    if m = .trade && old ≠ .trade then s.tradeLinks true else if m ≠ .trade && old = .trade then s.tradeLinks false else s

/-- A mode requested 48 cc ago, which takes effect with no context resident (R5). -/
def State.modeRipe (s : State) : Bool := s.clock.modePending.any fun p => decide (p.2 + 48 ≤ s.cc)

/-- R5: with no context resident. -/
def execModeChange (s : State) : Host.Outcome State Fault Refusal := .next (if s.resident.isNone && s.modeRipe then s.applyMode else s)

-- The switch (R293)

/-- The context that is restored at a boundary; where NEXT names none, the one that was resident, if it may run (R5). -/
def State.incoming (s : State) : Option Nat :=
  match s.chooseNext, s.resident with
  | some n, _ => some n
  | none, some r => if s.runnable r then some r else none
  | none, none => none

/-- The boundary: the resident context is written, a pending mode takes effect, and the context chosen is restored. -/
def execContextSwitch (s : State) : Host.Outcome State Fault Refusal :=
  let to_ := s.incoming
  .next <|
    let s := s.claimPhys s.ctxbase.toNat 4096
    match s.resident with
    | some r =>
      if !(s.ctx r).saving || !s.drained r then s else
      let s := (s.saveOut r).applyMode
      match to_ with
      | some n => s.restoreIn n
      | none => s
    | none => match to_ with
      | some n => (if s.modeRipe then s.applyMode else s).restoreIn n
      | none => s

-- The slice map (R313)

def execSmapStart (s : State) : Host.Outcome State Fault Refusal := .next s.smapBegin

/-- R313 step 3. -/
def execSliceMapSwitch (s : State) : Host.Outcome State Fault Refusal :=
  .next <|
    if !s.msys.smapBusy then s else
    s.modMsys fun m => { m.backMoving with smap := m.staging, smapGen := (m.smapGen + 1) % 8, smapBusy := false }

-- Time (R265)

/-- A value of the time unit reaches the cores: their copy takes it, with the time that has elapsed since it was sent, but never moves back (R265).
DESIGN CHOICE (log 81): the time of travel is added at the rate sent. -/
def Clock.take (c : Clock) (v : Tick) : Clock :=
  let (ns, frac) := timeAfter v.ns v.frac (c.ran - v.ran) v.adj
  if c.copyNs * nsUnit + c.copyFrac ≤ ns * nsUnit + frac then { c with copyNs := ns, copyFrac := frac, copyAdj := v.adj } else { c with copyAdj := v.adj }

def Clock.tick (c : Clock) : Clock :=
  match c.ticks with
  | [] => c
  | v :: t => if v.due ≤ c.cc then { c with ticks := t }.take v else c

def execTimeBaseTick (s : State) : Host.Outcome State Fault Refusal := .next { s with clock := s.clock.tick }

end Sys2Proof.Machine
end

