-- ==== Sys2Proof/Machine/Mgmt.lean ====
section
/-! DEFINITION. Boot, attestation and management (R339 to R351): SHAKE256, the watermarks, the boot sequence, the requests of
the management window, sensors and throttling, the event log, with their events. -/

namespace Sys2Proof.Machine

-- SHAKE256 (FIPS 202), which R340 names: the state is 25 words, five to a plane

abbrev Sponge := List Dword

/-- The feedback register from which the round constants come, over x^8 + x^6 + x^5 + x^4 + 1. -/
def lfsrNext (r : Nat) : Nat := if r < 128 then 2 * r else (2 * r) ^^^ 0x171

def lfsrBits : Nat → Nat → List Nat
  | 0, _ => []
  | n + 1, r => r % 2 :: lfsrBits n (lfsrNext r)

/-- Seven bits of the register make the constant of a round: bit j stands at 2^j - 1. -/
def roundWord (bits : List Nat) : Dword := BitVec.ofNat 64 ((bits.take 7).zipIdx.foldl (fun v b => v + b.1 * 2 ^ (2 ^ b.2 - 1)) 0)

/-- The words off the origin in the order in which each takes the place of the next: from where, to where, turned by how much. -/
def wordWalk : Nat → Nat → Nat → List (Nat × Nat × Nat)
  | 0, _, _ => []
  | n + 1, x, y => (x + 5 * y, y + 5 * ((2 * x + 3 * y) % 5), (24 - n) * (25 - n) / 2 % 64) :: wordWalk n y ((2 * x + 3 * y) % 5)

/-- Every word takes in the parities of two columns beside it. -/
def Sponge.mix (a : Sponge) : Sponge :=
  let cols := (List.range 5).map fun k => (a.zipIdx.filter fun w => w.2 % 5 == k).foldl (fun v w => v ^^^ w.1) (0 : Dword)
  a.zipIdx.map fun w => w.1 ^^^ cols.getD ((w.2 + 4) % 5) 0 ^^^ (cols.getD ((w.2 + 1) % 5) 0).rotateLeft 1

def Sponge.walk (a : Sponge) : Sponge := (wordWalk 24 1 0).foldl (fun b s => b.set s.2.1 ((a.getD s.1 0).rotateLeft s.2.2)) a

/-- Within a plane each word is combined with the next two. -/
def Sponge.blend (a : Sponge) : Sponge :=
  let beside (i k : Nat) : Dword := a.getD (i / 5 * 5 + (i + k) % 5) 0
  a.zipIdx.map fun w => w.1 ^^^ (beside w.2 2 &&& ~~~beside w.2 1)

def Sponge.rounds : Nat → List Nat → Sponge → Sponge
  | 0, _, a => a
  | n + 1, bits, a => match a.mix.walk.blend with
    | [] => []
    | w :: t => Sponge.rounds n (bits.drop 7) ((w ^^^ roundWord bits) :: t)

/-- A block of 136 bytes goes in, and the 24 rounds. -/
def Sponge.soak (a : Sponge) (block : List Byte) : Sponge :=
  Sponge.rounds 24 (lfsrBits 168 1) (a.zipIdx.map fun w => w.1 ^^^ BitVec.ofNat 64 (leNat ((block.drop (8 * w.2)).take 8)))

/-- The message in whole blocks: the suffix 1111, a one, zeros, and a one. -/
def shakePad (m : List Byte) : List Byte :=
  let n := 136 - m.length % 136
  m ++ (if n = 1 then [0x9F] else 0x1F :: List.replicate (n - 2) 0 ++ [0x80])

def Sponge.soakAll : Nat → List Byte → Sponge → Sponge
  | 0, _, a => a
  | n + 1, m, a => Sponge.soakAll n (m.drop 136) (a.soak (m.take 136))

/-- SHAKE256 with 512 bits of output. -/
def shake256 (m : List Byte) : List Byte :=
  let p := shakePad m
  ((Sponge.soakAll (p.length / 136) p (List.replicate 25 0)).take 8).flatMap fun w => leBytes w.toNat 8

-- Watermarks (R340)

def Mgmt.wmBytes (m : Mgmt) (n : Nat) : List Byte := leBytes (m.wm.get 0 n).toNat 64

def Mgmt.extend (m : Mgmt) (n : Nat) (image : List Byte) : Mgmt :=
  { m with wm := m.wm.put 0 n (BitVec.ofNat 512 (leNat (shake256 (m.wmBytes n ++ shake256 image)))) }

-- The supervisor group (R35, R343)

/-- Where the management window lies (R352). -/
def mgmtWindow : Nat := 0x0F0002000000

/-- The supervisor group of a core as the kernel starts it. -/
def superGroup (core : Nat) (pc : Pc) (regs cc : Nat) : Group :=
  let g := freshGroup
    { kind := .super, ctx := 64, core := core, part := 0, place := 32, wg := 0, launch := 0, role := 0, width := 64, budget := regs,
      fair := defaultFair, prio := 3, wid := none } pc [mgmtWindow] cc
  { g with sched := { g.sched with active := true } }

-- Boot (R339)

/-- The version is not below the counter of its kind. -/
def Board.fresh (b : Board) (kind version : Nat) : Bool := decide (b.rollback.get 0 kind ≤ version)

/-- An image that verifies and is not older than its kind's counter (R341). -/
def Board.accepts (b : Board) (kind : Nat) (i : Image) : Bool :=
  Sys2Proof.Config.xmssVerifies i && b.fresh kind (Sys2Proof.Config.imageVersion i).toNat

-- The fields of the configuration record (R342)

def ConfigRec.field (c : ConfigRec) (off n : Nat) : Nat := leNat ((c.record.drop off).take n)
def ConfigRec.version (c : ConfigRec) : Nat := c.field 0 4
def ConfigRec.mode (c : ConfigRec) : Nat := c.field 4 1
def ConfigRec.kpolicy (c : ConfigRec) : Nat := c.field 5 1
def ConfigRec.kload (c : ConfigRec) : Nat := c.field 8 8
/-- A signed number of units of 0.125 °C, as temperatures are (R349). -/
def ConfigRec.tlimit (c : ConfigRec) : Int := (BitVec.ofNat 32 (c.field 16 4)).toInt
def ConfigRec.oemode (c : ConfigRec) : Word := BitVec.ofNat 32 (c.field 20 4)

/-- R342. DEDUCED (log 37): a field outside the values that its row lists breaks the record too. -/
def ConfigRec.ok (c : ConfigRec) : Bool :=
  c.record.length == 4096 && c.field 6 2 == 0 && (c.record.drop 24).all (· == 0) && decide (c.mode ≤ 3) && decide (c.kpolicy ≤ 1) && c.kload % 2 ^ 21 == 0

/-- The record is signed like an image (R342). -/
def Board.acceptsConfig (b : Board) (c : ConfigRec) : Bool :=
  Sys2Proof.Config.xmssVerifies (c.record ++ c.signature) && b.fresh 3 c.version && c.ok

/-- REGS of a kernel's header (R343). -/
def regsOk (k : Image) : Bool :=
  let n := Sys2Proof.Config.kernelRegs k
  n % 8 == 0 && decide (8 ≤ n) && decide (n ≤ 384)

/-- ENTRY of a kernel's header. DESIGN CHOICE (log 78): bits [1:0] are ignored, as a PC has none. -/
def kernelEntry (k : Image) : Pc := entryPc (BitVec.ofNat 64 (Sys2Proof.Config.kernelEntry k))

/-- The boot mode that a kernel is accepted in: 0 SIGNED, 1 OWNER (R343). -/
def Board.kernelMode (b : Board) (c : ConfigRec) (k : Image) : Option Nat :=
  if Sys2Proof.Config.xmssVerifies k then (if b.accepts 2 k then some 0 else none)
  else if c.kpolicy = 1 then some 1 else none

/-- A slot by number: 0 A, 1 B. -/
def Board.slot (b : Board) (n : Nat) : Option Slot := if n = 0 then b.slotA else b.slotB

/-- The active slot: the one confirmed last, else the one the straps name (R351). -/
def Board.active (b : Board) : Nat := b.activeSlot.getD (if b.strapB then 1 else 0)

/-- The slot that boots: the pending one, else the active one, else the one the straps name. DEDUCED (log 36): where the slot named
is refused the boot ROM tries the other. -/
def Board.named (b : Board) : Nat := b.pendingSlot.getD b.active

def Board.bootable (b : Board) (n : Nat) : Bool := (b.slot n).any fun s => b.accepts 0 s.stage1

def Board.bootSlot (b : Board) : Option Nat :=
  if b.bootable b.named then some b.named else if b.bootable (1 - b.named) then some (1 - b.named) else none

/-- Boot stops at a step (R339). DESIGN CHOICE (log 35): the record's code is the step, its data 0. -/
def State.bootStops (s : State) (step : Nat) : State := s.logEvent 0 step 0

def modeOfCode (n : Nat) : Mode := if n = 0 then .gale else if n = 1 then .trade else if n = 2 then .breeze else .lull

/-- Step 7: the kernel starts on every core in one cycle (R343). -/
def State.startKernel (s : State) (k : Image) (bootMode : Nat) : State :=
  let root : Dword := BitVec.ofNat 64 (Sys2Proof.Config.kernelPtroot k / 4096 * 4096 % 2 ^ 52)
  let s := (List.range 384).foldl (fun s c =>
    (s.modCore c fun q => { q with ptbase := root }).setGroup (superGid c) (superGroup c (kernelEntry k) (Sys2Proof.Config.kernelRegs k) s.cc)) s
  s.modMgmt fun m => { m with booted := true, bootMode := bootMode }

/-- Steps 6 and 7: the image is loaded and measured, then accepted or refused (R343). -/
def State.bootKernel (s : State) (c : ConfigRec) (k : Image) : State :=
  if c.kload + k.length > hbmSize then s.bootStops 6 else
  let s := (s.homeWrite 0 c.kload k).modMgmt fun m => m.extend 3 k
  if !regsOk k then s.bootStops 7 else
  match s.board.kernelMode c k with
  | none => s.bootStops 7
  | some mode => s.startKernel k mode

-- Throttling (R349)

/-- A cluster above TLIMIT has cycles withheld, and the onset is logged. -/
def State.heat (s : State) (cluster : Nat) (temp : Int) : State :=
  if s.mgmt.firmware && cluster < 96 && decide (s.mgmt.tlimit < temp) && !s.mgmt.throttled.contains cluster then
    (s.modMgmt fun m => { m with throttled := m.throttled ++ [cluster] }).logEvent 1 1 cluster else s

/-- The clusters whose sensors stand above a TLIMIT that is new. -/
def State.heatAll (s : State) : State := s.mgmt.sensors.foldl (fun s p => s.heat p.1 p.2) s

/-- Steps 3 to 7. DESIGN CHOICE (log 69): the mode of the record is in force at once, in LULL too, where the boot map has 128 slices in service;
an OEMODE that a write of SYS.OEMODE could not set leaves 0. -/
def State.bootFrom (s : State) (sl : Slot) : State :=
  match s.board.config with
  | none => s.bootStops 3
  | some c =>
    if !s.board.acceptsConfig c then s.bootStops 3 else
    let s := s.modMgmt fun m => { m.extend 1 c.record with tlimit := c.tlimit }
    let s := { s with clock := { s.clock with mode := modeOfCode c.mode }, oemode := if s.oemodeOk c.oemode then c.oemode else 0 }
    if !s.board.accepts 1 sl.firmware then s.bootStops 4
    else ((s.modMgmt fun m => { m.extend 2 sl.firmware with firmware := true }).heatAll).checkPower.bootKernel c sl.kernel

/-- The certificate of the attestation key: its public key, signed by the identity key under an index. UNVERIFIED (log 8): its bytes. -/
def certificateOf (seed : List Byte) (index : Nat) : List Byte :=
  let pub := Sys2Proof.Config.attestPublic seed
  pub ++ (List.range 2820).map (Sys2Proof.Config.identitySignature seed index pub)

/-- At first boot the identity key signs the attestation key's public key; its index is advanced first, and none is left after 2^20 (R344). -/
def Board.firstBoot (b : Board) (seed : List Byte) : Board :=
  if b.cert.isSome || b.idIndex ≥ 2 ^ 20 then b else { b with cert := some (certificateOf seed b.idIndex), idIndex := b.idIndex + 1 }

/-- DEVID: 256 bits of SHAKE256 of the identity key's public key (R344). -/
def devid (seed : List Byte) : List Byte := (shake256 (Sys2Proof.Config.identityPublic seed)).take 32

/-- A random key at every boot (R345). DESIGN CHOICE (log 3): it differs from every other key. -/
def MemSys.newRandom (m : MemSys) : Sys2Proof.Config.Key :=
  match m.ver 0 with
  | .random n => .random (n + 1)
  | .loaded _ => .random 0

/-- What a reset leaves: the board, the storage, and what HBM holds, whose key slot 0 is new (R345). DESIGN CHOICE (log 34): the event
log stays too. -/
def State.afterReset (s : State) : State :=
  { State.reset with
    events := [], fresh := s.fresh, serial := s.serial, nvme := s.nvme, board := s.board
    msys := { MemSys.reset with mem := s.msys.mem, secKey := s.msys.secKey, keySlots := s.msys.keySlots.put keyZero 0 s.msys.newRandom }
    mgmt := { Mgmt.reset with log := s.mgmt.log, logSeq := s.mgmt.logSeq, unmirrored := s.mgmt.unmirrored, sensors := s.mgmt.sensors } }

/-- R339: a package reset, and the boot that follows. -/
def execPackageReset (s : State) : Host.Outcome State Fault Refusal :=
  let s := s.afterReset
  .next <|
    match s.board.bootSlot with
    | none => s.bootStops 2
    | some n => match s.board.slot n with
      | none => s.bootStops 2
      | some sl =>
        let seed := Sys2Proof.Config.identitySeed Sys2Proof.Config.puf s.board.helper
        let staged := s.board.pendingSlot == some n
        let s := { s with board := { s.board.firstBoot seed with pendingSlot := none } }
        (s.modMgmt fun m => { m.extend 0 sl.stage1 with bootSlot := n, bootStaged := staged, seed := seed }).bootFrom sl

/-- A signature index is skipped: of the identity key until it has signed, then of the attestation key (R344). -/
def Board.skipIndex (b : Board) : Board := if b.cert.isNone then { b with idIndex := b.idIndex + 1 } else { b with attIndex := b.attIndex + 1 }

/-- R350: the records that wait for the mirror may be lost, and a signature index may be skipped (R344). What follows is the reset
of the power that comes back. -/
def execPowerLoss (lost : Nat) (skip : Bool) (s : State) : Host.Outcome State Fault Refusal :=
  let wait := s.mgmt.log.drop (s.mgmt.log.length - s.mgmt.unmirrored)
  let b := s.board
  let b := { (if skip then b.skipIndex else b) with mirror := b.mirror ++ wait.take (wait.length - lost) }
  .next ({ s with board := b, mgmt := { s.mgmt with log := [], logSeq := 0, unmirrored := 0 } }.afterReset.soon .packageReset)

/-- R350: `n` records go to the mirror. -/
def execEventLogMirror (n : Nat) (s : State) : Host.Outcome State Fault Refusal :=
  let wait := s.mgmt.log.drop (s.mgmt.log.length - s.mgmt.unmirrored)
  .next ({ s with board := { s.board with mirror := s.board.mirror ++ wait.take n } }.modMgmt fun m => { m with unmirrored := m.unmirrored - n })

-- Attestation (R344, R346, R347)

/-- Bytes 0 to 1,103 of a report (R346). -/
def State.reportBody (s : State) (nonce : List Byte) : List Byte :=
  leBytes 0x31545441 4 ++ leBytes 1 2 ++ leBytes s.mgmt.bootMode 2 ++ leBytes s.time 8 ++ nonce ++ devid s.mgmt.seed ++
    (List.range 16).flatMap s.mgmt.wmBytes

/-- Signing of the oldest request begins: the index is advanced first (R344, R347). -/
def State.signNext (s : State) : State :=
  match s.mgmt.attests with
  | [] => s
  | r :: t =>
    if r.signing.isSome then s else
    let body := s.reportBody r.nonce
    let i := s.board.attIndex
    let out := if i ≥ 2 ^ 20 then [] else body ++ (List.range 2820).map (Sys2Proof.Config.xmssSignature s.mgmt.seed i body)
    let (lat, s) := s.freeLat
    let s := if i ≥ 2 ^ 20 then s else { s with board := { s.board with attIndex := i + 1 } }
    (s.modMgmt fun m => { m with attests := { r with signing := some out } :: t }).schedule (s.cc + lat) .mgmtRequestComplete

def State.attest (s : State) (buf : Option Nat) (nonce : List Byte) : State :=
  (s.modMgmt fun m => { m with attests := m.attests ++ [{ buf := buf, nonce := nonce, signing := none }] }).signNext

/-- A request's buffer lies in HBM (R348). -/
def bufOk (buf : Nat) : Bool := buf % 4096 == 0 && decide (buf + 4096 ≤ hbmSize)

/-- R347: REQ 1. DESIGN CHOICE (log 41): the nonce is the first 32 bytes of the buffer, and the report with the certificate goes there. -/
def execMgmtAttest (buf : Nat) (s : State) : Host.Outcome State Fault Refusal :=
  .next <|
    if s.mgmt.running.isSome || !bufOk buf then s.mgmtBegin (.attest buf) fun m => { m with reqBuf := buf }
    else
      ((s.claimPhys buf 32).modMgmt fun m => { m with reqBuf := buf, running := some (.attest buf), stat := 1, code := 0, busyRef := false }).attest (some buf)
        (s.msys.bytes 0 buf 32)

/-- R347: a request over MCTP or the network, which the management firmware serves (R339 step 4). -/
def execAttestMctpRequest (nonce : List Byte) (s : State) : Host.Outcome State Fault Refusal :=
  .next (if s.mgmt.firmware then s.attest none ((nonce ++ List.replicate 32 0).take 32) else s)

-- The other requests (R348)

def execMgmtExtendRequest (buf : Nat) (s : State) : Host.Outcome State Fault Refusal := .next (s.mgmtBegin (.extend buf) fun m => { m with reqBuf := buf })
def execMgmtStageUpdate (buf : Nat) (s : State) : Host.Outcome State Fault Refusal := .next (s.mgmtBegin (.stage buf) fun m => { m with reqBuf := buf })
def execMgmtConfirm (buf : Nat) (s : State) : Host.Outcome State Fault Refusal := .next (s.mgmtBegin .confirm fun m => { m with reqBuf := buf })
def execMgmtModeRequest (buf : Nat) (s : State) : Host.Outcome State Fault Refusal := .next (s.mgmtBegin .modeReq fun m => { m with reqBuf := buf })
def execExtend (reg : Nat) (s : State) : Host.Outcome State Fault Refusal := .next (s.mgmtBegin (.extendReg reg) fun m => { m with extReg := reg })
def execKeyslot (slot : Nat) (s : State) : Host.Outcome State Fault Refusal := .next (s.mgmtBegin (.keyslot slot) id)

/-- A mode request reaches the clock control (R5). DESIGN CHOICE (log 70): it replaces one that is still pending. -/
def State.requestMode (s : State) (mode : Mode) : State := { s with clock := { s.clock with modePending := some (mode, s.cc) } }

def execModereq (mode : Mode) (s : State) : Host.Outcome State Fault Refusal :=
  .next ((s.modMgmt fun m => { m with modeReqVal := modeCode mode }).requestMode mode)

/-- DESIGN CHOICE (log 39): what is measured is the 4,096 bytes of the buffer, into the register that EXTEND named last. -/
def State.extendWm (s : State) (reg buf : Nat) : State × Nat :=
  if !bufOk buf then (s, 2)
  else if reg < 4 || reg > 15 then (s, 3)
  else ((s.claimPhys buf 4096).modMgmt fun m => m.extend reg (s.msys.bytes 0 buf 4096), 0)

/-- DESIGN CHOICE (log 41): a key is the first 64 bytes of the REQ buffer, two keys of 256 bits for AES-256-XTS. -/
def State.loadKey (s : State) (slot : Nat) : State × Nat :=
  if !bufOk s.mgmt.reqBuf then (s, 2)
  else if slot = 0 || slot > 255 then (s, 4)
  else
    let key := BitVec.ofNat 512 (s.msys.nat 0 s.mgmt.reqBuf 64)
    (s.modMsys fun m => { m.claims 0 s.mgmt.reqBuf 64 with keySlots := m.keySlots.put keyZero slot (.loaded key) }, 0)

def slotNone : Slot := { stage1 := [], firmware := [], kernel := [] }

def Slot.put (sl : Slot) (kind : Nat) (i : Image) : Slot :=
  if kind = 0 then { sl with stage1 := i }
  else if kind = 1 then { sl with firmware := i }
  else { sl with kernel := i }

/-- The slot that is not active (R351). -/
def Board.inactive (b : Board) : Nat := 1 - b.active

/-- R351 step 1. DESIGN CHOICE (log 40): the slot keeps its other images. -/
def State.stage (s : State) (buf : Nat) : State × Nat :=
  if !bufOk buf then (s, 2) else
  let head := s.msys.bytes 0 buf 4096
  let i := s.physBytes buf (Sys2Proof.Config.imageLength head)
  let s := s.modMsys fun m => m.claims 0 buf i.length
  let kind := Sys2Proof.Config.imageKind head
  if !Sys2Proof.Config.xmssVerifies i then (s, 5)
  else if !s.board.fresh kind (Sys2Proof.Config.imageVersion i).toNat then (s, 6)
  else if s.board.flashFails then (s, 9)
  else
    let n := s.board.inactive
    let sl := ((s.board.slot n).getD slotNone).put kind i
    let b := if n = 0 then { s.board with slotA := some sl } else { s.board with slotB := some sl }
    ({ s with board := { b with pendingSlot := some n } }, 0)

/-- The counters rise to the versions of the booted slot's images. -/
def Board.raise (b : Board) (sl : Slot) : Board :=
  let up (m : SMap Nat) (k v : Nat) : SMap Nat := m.put 0 k (max (m.get 0 k) v)
  let version (i : Image) : Nat := (Sys2Proof.Config.imageVersion i).toNat
  { b with rollback := up (up (up b.rollback 0 (version sl.stage1)) 1 (version sl.firmware)) 2 (version sl.kernel) }

/-- R351 step 3. -/
def State.confirm (s : State) : State × Nat :=
  let n := s.mgmt.bootSlot
  if !s.mgmt.booted || !s.mgmt.bootStaged || n = s.board.active then (s, 7)
  else if s.board.flashFails then (s, 9)
  else match s.board.slot n with
    | none => (s, 7)
    | some sl => ({ s with board := { s.board.raise sl with activeSlot := some n } }, 0)

/-- What a request does, and its code (R348). -/
def State.mgmtDo (s : State) : MReq → State × Nat
  | .badCode => (s, 1)
  | .attest _ => (s, 2)
  | .extend buf => s.extendWm s.mgmt.extReg buf
  | .extendReg reg => s.extendWm reg s.mgmt.reqBuf
  | .stage buf => s.stage buf
  | .confirm => s.confirm
  | .modeReq => (s.requestMode (modeOfCode (s.mgmt.modeReqVal % 4)), 0)
  | .keyslot slot => s.loadKey slot

/-- STAT of a request that ends, and bit MGMT of SYS.IPEND at core 0. -/
def State.mgmtEnd (s : State) (code : Nat) : State :=
  (s.modMgmt fun m => { m with running := none, stat := if code = 0 then 2 else 3, code := code }).setIpend 0 7

/-- The oldest attestation request ends: its report goes to its buffer, or out. -/
def State.attestEnd (s : State) (r : AttestReq) (t : List AttestReq) (rep : List Byte) : State :=
  let s := s.modMgmt fun m => { m with attests := t }
  let full := rep ++ s.board.cert.getD []
  let s := match r.buf with
    | some buf => if rep.isEmpty then s.mgmtEnd 8 else (s.homeWrite 0 buf (full.take (hbmSize - buf))).mgmtEnd 0
    | none => if rep.isEmpty then s else s.emit (.report full)
  s.signNext

/-- Does the running request wait for its turn to be signed? -/
def Mgmt.waitsTurn (m : Mgmt) : Bool :=
  match m.running with
  | some (.attest _) => m.attests.any (·.buf.isSome)
  | none => true
  | _ => false

/-- R348: the management core ends what it does. -/
def execMgmtRequestComplete (s : State) : Host.Outcome State Fault Refusal :=
  .next <|
    if s.mgmt.waitsTurn then
      match s.mgmt.attests with
      | r :: t => match r.signing with
        | some rep => s.attestEnd r t rep
        | none => s
      | [] => s
    else match s.mgmt.running with
      | some q => let (s, code) := s.mgmtDo q
        s.mgmtEnd code
      | none => s

-- Sensors and power (R349)

/-- A cluster above TLIMIT. -/
def execThermalThrottle (cluster : Nat) (temp : Int) (s : State) : Host.Outcome State Fault Refusal :=
  .next ((s.modMgmt fun m => { m with sensors := m.sensors.put 0 cluster temp }).heat cluster temp)

/-- 5 °C are 40 units. A reading above TLIMIT ends nothing. -/
def execThermalThrottleEnd (cluster : Nat) (temp : Int) (s : State) : Host.Outcome State Fault Refusal :=
  .next ((s.modMgmt fun m =>
    { m with sensors := m.sensors.put 0 cluster temp, throttled := if temp ≤ m.tlimit - 40 then m.throttled.filter (· != cluster) else m.throttled }).heat
    cluster temp)

/-- A reading of package power, above the mode's budget for 10 ms or not (R349). -/
def execPowerThrottle (watts : Nat) (s : State) : Host.Outcome State Fault Refusal :=
  .next (s.modMgmt fun m => { m with sensors := m.sensors.put 0 128 watts }).checkPower

end Sys2Proof.Machine
end

