-- ==== Sys2Proof/Machine/Pixel.lean ====
section
/-! DEFINITION. Packed pixels (R119 to R126). -/

namespace Sys2Proof.Machine

/-- n of R119. -/
def sampleBits : Ty → Nat
  | .p10 => 10
  | .p12 => 12
  | _ => 14

/-- R120. -/
def execPxext (h : Hdr) (a : Arith) (s : State) : Host.Outcome State Fault Refusal :=
  s.withIssue (.pxext h a) h fun x =>
    let n := sampleBits a.ty
    x.arith specPxext a 6 0 fun _ u v _ =>
      let o := v.toNat % 32
      Res.ofNat (if a.sub = 0#4 then Dword.field u o n else Dword.field u o n + Dword.field u (o + n) n * 65536)

/-- R121. -/
def execPxins (h : Hdr) (a : Arith) (s : State) : Host.Outcome State Fault Refusal :=
  s.withIssue (.pxins h a) h fun x =>
    let n := sampleBits a.ty
    x.arith specPxins a 6 0 fun _ u v w =>
      let o := w.toNat % 32
      let b := v.toNat % 2 ^ 32
      let clamps := a.sat && decide (b ≥ 2 ^ n)
      let p := if clamps then 2 ^ n - 1 else b % 2 ^ n
      { val := BitVec.ofNat 64 (u.toNat % 2 ^ o + p * 2 ^ o + u.toNat / 2 ^ (o + n) * 2 ^ (o + n)), fl := flIf clamps flISAT }

/-- Each element pair of two packed operands. -/
def X.pixels (x : X) (sp : ArithSpec) (a : Arith) (f : Nat → Nat → Nat → Nat) : State :=
  let (_, w, n) := intShape a.ty
  x.arith sp a 6 0 fun _ u v c => Res.of (packed w n fun i => (f (elem w i u.toNat) (elem w i v.toNat) (elem w i c.toNat), 0))

/-- R122: half of a sum, rounded. -/
def execPxavg (h : Hdr) (a : Arith) (s : State) : Host.Outcome State Fault Refusal :=
  s.withIssue (.pxavg h a) h fun x => x.pixels specPxavg a fun u v _ => (roundBits a.rnd false (u + v) 1).1

def absDiff (u v : Nat) : Nat := u - v + (v - u)

def execPxabd (h : Hdr) (a : Arith) (s : State) : Host.Outcome State Fault Refusal :=
  s.withIssue (.pxabd h a) h fun x => x.pixels specPxabd a fun u v _ => absDiff u v

/-- R123. -/
def execPxsad (h : Hdr) (a : Arith) (s : State) : Host.Outcome State Fault Refusal :=
  s.withIssue (.pxsad h a) h fun x =>
    let (_, w, n) := intShape a.ty
    x.arith specPxsad a 6 0 fun _ u v c =>
      let sum := (List.range n).foldl (fun t i => t + absDiff (elem w i u.toNat) (elem w i v.toNat)) (c.toNat % 2 ^ 32)
      Res.of (narrow a.sat false 32 sum)

/-- R124. -/
def execPxclp (h : Hdr) (a : Arith) (s : State) : Host.Outcome State Fault Refusal :=
  s.withIssue (.pxclp h a) h fun x =>
    let (sg, w, n) := intShape a.ty
    x.arith specPxclp a 6 0 fun _ u v c =>
      Res.of (packed w n fun i =>
        let el (y : Dword) : Int := toInt sg w (elem w i y.toNat)
        (wrapInt w (min (max (el u) (el v)) (el c)), 0))

/-- R125: one sample normalised to INT8. -/
def normSample (rnd : Rnd) (sample : Nat) (p : Nat) : Nat × Fl :=
  let d : Int := (sample : Int) - toInt true 16 p
  let (m, _) := roundBits rnd (d < 0) d.natAbs (p / 65536 % 32)
  narrow true true 8 (if d < 0 then -(m : Int) else m)

def execPxnrm (h : Hdr) (a : Arith) (s : State) : Host.Outcome State Fault Refusal :=
  s.withIssue (.pxnrm h a) h fun x =>
    x.arith specPxnrm a 6 0 fun _ u v c =>
      Res.of (packed 8 4 fun i => normSample a.rnd (if i < 2 then elem 16 i u.toNat else elem 16 (i - 2) v.toNat) c.toNat)

/-- R126. -/
def execPxdot (h : Hdr) (a : Arith) (s : State) : Host.Outcome State Fault Refusal :=
  s.withIssue (.pxdot h a) h fun x =>
    let sg := a.ty == .i8x4
    x.arith specPxdot a 6 0 fun _ u v c =>
      let sum := (List.range 4).foldl (fun t i => t + toInt sg 8 (elem 8 i u.toNat) * toInt sg 8 (elem 8 i v.toNat)) (toInt sg 32 c.toNat)
      Res.of (narrow a.sat sg 32 sum)

end Sys2Proof.Machine
end

