-- ==== Sys2Proof/Machine/Dispatch.lean ====
section
/-! DEFINITION. The dispatch: one arm per constructor of Instr. -/

namespace Sys2Proof.Machine

def exec (i : Instr) (s : State) : Host.Outcome State Fault Refusal :=
  match i with
  | .nop h => Sys2Proof.Machine.execNop h s
  | .bra h t => Sys2Proof.Machine.execBra h t s
  | .brany h p t => Sys2Proof.Machine.execBrany h p t s
  | .brall h p t => Sys2Proof.Machine.execBrall h p t s
  | .call h d t => Sys2Proof.Machine.execCall h d t s
  | .ret h a => Sys2Proof.Machine.execRet h a s
  | .jmp h a off => Sys2Proof.Machine.execJmp h a off s
  | .exit h => Sys2Proof.Machine.execExit h s
  | .yield h => Sys2Proof.Machine.execYield h s
  | .wait h ld st cp tl => Sys2Proof.Machine.execWait h ld st cp tl s
  | .pset h x => Sys2Proof.Machine.execPset h x s
  | .pand h x => Sys2Proof.Machine.execPand h x s
  | .por h x => Sys2Proof.Machine.execPor h x s
  | .pxor h x => Sys2Proof.Machine.execPxor h x s
  | .pnot h x => Sys2Proof.Machine.execPnot h x s
  | .iadd h x => Sys2Proof.Machine.execIadd h x s
  | .isub h x => Sys2Proof.Machine.execIsub h x s
  | .imul h x => Sys2Proof.Machine.execImul h x s
  | .imulhi h x => Sys2Proof.Machine.execImulhi h x s
  | .imad h x => Sys2Proof.Machine.execImad h x s
  | .imin h x => Sys2Proof.Machine.execImin h x s
  | .imax h x => Sys2Proof.Machine.execImax h x s
  | .iabs h x => Sys2Proof.Machine.execIabs h x s
  | .ineg h x => Sys2Proof.Machine.execIneg h x s
  | .and h x => Sys2Proof.Machine.execAnd h x s
  | .or h x => Sys2Proof.Machine.execOr h x s
  | .xor h x => Sys2Proof.Machine.execXor h x s
  | .not h x => Sys2Proof.Machine.execNot h x s
  | .andn h x => Sys2Proof.Machine.execAndn h x s
  | .shl h x => Sys2Proof.Machine.execShl h x s
  | .shr h x => Sys2Proof.Machine.execShr h x s
  | .sar h x => Sys2Proof.Machine.execSar h x s
  | .rol h x => Sys2Proof.Machine.execRol h x s
  | .ror h x => Sys2Proof.Machine.execRor h x s
  | .popc h x => Sys2Proof.Machine.execPopc h x s
  | .clz h x => Sys2Proof.Machine.execClz h x s
  | .brev h x => Sys2Proof.Machine.execBrev h x s
  | .bfe h x => Sys2Proof.Machine.execBfe h x s
  | .bfi h x => Sys2Proof.Machine.execBfi h x s
  | .sel h x => Sys2Proof.Machine.execSel h x s
  | .icmp h x => Sys2Proof.Machine.execIcmp h x s
  | .lea h x => Sys2Proof.Machine.execLea h x s
  | .mov h x => Sys2Proof.Machine.execMov h x s
  | .pxext h x => Sys2Proof.Machine.execPxext h x s
  | .pxins h x => Sys2Proof.Machine.execPxins h x s
  | .pxavg h x => Sys2Proof.Machine.execPxavg h x s
  | .pxabd h x => Sys2Proof.Machine.execPxabd h x s
  | .pxsad h x => Sys2Proof.Machine.execPxsad h x s
  | .pxclp h x => Sys2Proof.Machine.execPxclp h x s
  | .pxnrm h x => Sys2Proof.Machine.execPxnrm h x s
  | .pxdot h x => Sys2Proof.Machine.execPxdot h x s
  | .fadd h x => Sys2Proof.Machine.execFadd h x s
  | .fsub h x => Sys2Proof.Machine.execFsub h x s
  | .fmul h x => Sys2Proof.Machine.execFmul h x s
  | .ffma h x => Sys2Proof.Machine.execFfma h x s
  | .fmin h x => Sys2Proof.Machine.execFmin h x s
  | .fmax h x => Sys2Proof.Machine.execFmax h x s
  | .fabs h x => Sys2Proof.Machine.execFabs h x s
  | .fneg h x => Sys2Proof.Machine.execFneg h x s
  | .fcmp h x => Sys2Proof.Machine.execFcmp h x s
  | .fclass h x => Sys2Proof.Machine.execFclass h x s
  | .frcp h x => Sys2Proof.Machine.execFrcp h x s
  | .frsq h x => Sys2Proof.Machine.execFrsq h x s
  | .fex2 h x => Sys2Proof.Machine.execFex2 h x s
  | .flg2 h x => Sys2Proof.Machine.execFlg2 h x s
  | .fsin h x => Sys2Proof.Machine.execFsin h x s
  | .fcos h x => Sys2Proof.Machine.execFcos h x s
  | .cvt h x => Sys2Proof.Machine.execCvt h x s
  | .cvpk h x => Sys2Proof.Machine.execCvpk h x s
  | .shfl h x => Sys2Proof.Machine.execShfl h x s
  | .vote h x => Sys2Proof.Machine.execVote h x s
  | .ballot h x => Sys2Proof.Machine.execBallot h x s
  | .red h x => Sys2Proof.Machine.execRed h x s
  | .scan h x => Sys2Proof.Machine.execScan h x s
  | .ld h m => Sys2Proof.Machine.execLd h m s
  | .st h m => Sys2Proof.Machine.execSt h m s
  | .lds h m => Sys2Proof.Machine.execLds h m s
  | .sts h m => Sys2Proof.Machine.execSts h m s
  | .ldfeKeep h m => Sys2Proof.Machine.execLdfeKeep h m s
  | .ldfeClear h m => Sys2Proof.Machine.execLdfeClear h m s
  | .stfeKeep h m => Sys2Proof.Machine.execStfeKeep h m s
  | .stfeClear h m => Sys2Proof.Machine.execStfeClear h m s
  | .pref h m => Sys2Proof.Machine.execPref h m s
  | .fence h scope order => Sys2Proof.Machine.execFence h scope order s
  | .atomAdd h m => Sys2Proof.Machine.execAtomAdd h m s
  | .atomMin h m => Sys2Proof.Machine.execAtomMin h m s
  | .atomMax h m => Sys2Proof.Machine.execAtomMax h m s
  | .atomAnd h m => Sys2Proof.Machine.execAtomAnd h m s
  | .atomOr h m => Sys2Proof.Machine.execAtomOr h m s
  | .atomXor h m => Sys2Proof.Machine.execAtomXor h m s
  | .atomExch h m => Sys2Proof.Machine.execAtomExch h m s
  | .atomCas h m => Sys2Proof.Machine.execAtomCas h m s
  | .cpy h x => Sys2Proof.Machine.execCpy h x s
  | .cpyMc h x => Sys2Proof.Machine.execCpyMc h x s
  | .hwaitFull h d n => Sys2Proof.Machine.execHwaitFull h d n s
  | .hwaitEmpty h d n => Sys2Proof.Machine.execHwaitEmpty h d n s
  | .hsetBind h n e a b => Sys2Proof.Machine.execHsetBind h n e a b s
  | .hsetFull h n => Sys2Proof.Machine.execHsetFull h n s
  | .hrel h n => Sys2Proof.Machine.execHrel h n s
  | .tset h t a => Sys2Proof.Machine.execTset h t a s
  | .tget h t a => Sys2Proof.Machine.execTget h t a s
  | .tinv h t => Sys2Proof.Machine.execTinv h t s
  | .mxb h t bb arr a => Sys2Proof.Machine.execMxb h t bb arr a s
  | .mxa h t bb bank arr src => Sys2Proof.Machine.execMxa h t bb bank arr src s
  | .mxfence h => Sys2Proof.Machine.execMxfence h s
  | .mxwait h n => Sys2Proof.Machine.execMxwait h n s
  | .mxdrain h t bank z a => Sys2Proof.Machine.execMxdrain h t bank z a s
  | .mxdrainAdd h t bank z a => Sys2Proof.Machine.execMxdrainAdd h t bank z a s
  | .mxzero h bank raw => Sys2Proof.Machine.execMxzero h bank raw s
  | .barG h => Sys2Proof.Machine.execBarG h s
  | .barArr h lvl id d => Sys2Proof.Machine.execBarArr h lvl id d s
  | .barWait h lvl id a => Sys2Proof.Machine.execBarWait h lvl id a s
  | .barSync h lvl id => Sys2Proof.Machine.execBarSync h lvl id s
  | .sbcast h slot rel a => Sys2Proof.Machine.execSbcast h slot rel a s
  | .sbrecv h slot d => Sys2Proof.Machine.execSbrecv h slot d s
  | .chsend h ch a => Sys2Proof.Machine.execChsend h ch a s
  | .chrecv h ch a => Sys2Proof.Machine.execChrecv h ch a s
  | .mbput h tr a b => Sys2Proof.Machine.execMbput h tr a b s
  | .mbget h tr d a => Sys2Proof.Machine.execMbget h tr d a s
  | .dirins h pin d a b => Sys2Proof.Machine.execDirins h pin d a b s
  | .dirdel h a => Sys2Proof.Machine.execDirdel h a s
  | .tmove h d a b => Sys2Proof.Machine.execTmove h d a b s
  | .solicit h comb d k => Sys2Proof.Machine.execSolicit h comb d k s
  | .reply h a => Sys2Proof.Machine.execReply h a s
  | .census h d a => Sys2Proof.Machine.execCensus h d a s
  | .cenpoll h p a => Sys2Proof.Machine.execCenpoll h p a s
  | .nrec h a b => Sys2Proof.Machine.execNrec h a b s
  | .sys h n => Sys2Proof.Machine.execSys h n s
  | .svqpop h d => Sys2Proof.Machine.execSvqpop h d s
  | .sysret h a b => Sys2Proof.Machine.execSysret h a b s
  | .iret h => Sys2Proof.Machine.execIret h s
  | .sysrd h n d => Sys2Proof.Machine.execSysrd h n d s
  | .syswr h n a => Sys2Proof.Machine.execSyswr h n a s
  | .trapretWrite h a => Sys2Proof.Machine.execTrapretWrite h a s
  | .ipiWrite h a => Sys2Proof.Machine.execIpiWrite h a s
  | .trapqPop h d => Sys2Proof.Machine.execTrapqPop h d s
  | .wdogWrite h a => Sys2Proof.Machine.execWdogWrite h a s
  | .smapStageWrite h a => Sys2Proof.Machine.execSmapStageWrite h a s
  | .oemodeWrite h a => Sys2Proof.Machine.execOemodeWrite h a s
  | .laneCounterClear h cw a => Sys2Proof.Machine.execLaneCounterClear h cw a s
  | .tlbinv h kind glob a b => Sys2Proof.Machine.execTlbinv h kind glob a b s
  | .cwb h a => Sys2Proof.Machine.execCwb h a s
  | .cinv h l2 a => Sys2Proof.Machine.execCinv h l2 a s
  | .launch h d a => Sys2Proof.Machine.execLaunch h d a s
  | .halt h => Sys2Proof.Machine.execHalt h s
  | .tmset h rel a => Sys2Proof.Machine.execTmset h rel a s
  | .sread h x => Sys2Proof.Machine.execSread h x s
  | .swrite h x => Sys2Proof.Machine.execSwrite h x s
  | .nsend h x => Sys2Proof.Machine.execNsend h x s
  | .nrecv h d a b => Sys2Proof.Machine.execNrecv h d a b s
  | .brk h code => Sys2Proof.Machine.execBrk h code s
  | .dbgret h ov ss => Sys2Proof.Machine.execDbgret h ov ss s
  | .registerResultWrite gid id => Sys2Proof.Machine.execRegisterResultWrite gid id s
  | .fullEmptyServe core => Sys2Proof.Machine.execFullEmptyServe core s
  | .l2SliceRequest core slice full => Sys2Proof.Machine.execL2SliceRequest core slice full s
  | .loadDataReturn core op evict => Sys2Proof.Machine.execLoadDataReturn core op evict s
  | .deviceWriteAck core => Sys2Proof.Machine.execDeviceWriteAck core s
  | .nackReceived core slice => Sys2Proof.Machine.execNackReceived core slice s
  | .replayResend core slice => Sys2Proof.Machine.execReplayResend core slice s
  | .nackRemapReceived core slice => Sys2Proof.Machine.execNackRemapReceived core slice s
  | .phaseCloseMessage core slice => Sys2Proof.Machine.execPhaseCloseMessage core slice s
  | .phaseCloseAnswer core slice => Sys2Proof.Machine.execPhaseCloseAnswer core slice s
  | .scratchpadIncomingWrite core => Sys2Proof.Machine.execScratchpadIncomingWrite core s
  | .pageWalkComplete core va acc user => Sys2Proof.Machine.execPageWalkComplete core va acc user s
  | .inFlightTimeout core op => Sys2Proof.Machine.execInFlightTimeout core op s
  | .copyComplete cluster chan => Sys2Proof.Machine.execCopyComplete cluster chan s
  | .copyPageFault cluster chan => Sys2Proof.Machine.execCopyPageFault cluster chan s
  | .apertureCopyStart core chan data => Sys2Proof.Machine.execApertureCopyStart core chan data s
  | .apertureStatusRead core => Sys2Proof.Machine.execApertureStatusRead core s
  | .mxeGrant cluster unit => Sys2Proof.Machine.execMxeGrant cluster unit s
  | .mxeCommandComplete cluster entry => Sys2Proof.Machine.execMxeCommandComplete cluster entry s
  | .mxeAgePromotion cluster entry => Sys2Proof.Machine.execMxeAgePromotion cluster entry s
  | .mxeDrainFault cluster entry => Sys2Proof.Machine.execMxeDrainFault cluster entry s
  | .engineBarrierArrival cluster entry => Sys2Proof.Machine.execEngineBarrierArrival cluster entry s
  | .bteConfigStop cluster stop => Sys2Proof.Machine.execBteConfigStop cluster stop s
  | .bteConfigWordWrite cluster offset bytes => Sys2Proof.Machine.execBteConfigWordWrite cluster offset bytes s
  | .gridBarrierArrival lch bar gid => Sys2Proof.Machine.execGridBarrierArrival lch bar gid s
  | .gangBarrierMessage lch bar arrival => Sys2Proof.Machine.execGangBarrierMessage lch bar arrival s
  | .barrierTimeout gid lanes => Sys2Proof.Machine.execBarrierTimeout gid lanes s
  | .scalarBroadcastDelivery src slot value rel => Sys2Proof.Machine.execScalarBroadcastDelivery src slot value rel s
  | .mailboxStepRetry gid lanes => Sys2Proof.Machine.execMailboxStepRetry gid lanes s
  | .tmoveComplete cluster id => Sys2Proof.Machine.execTmoveComplete cluster id s
  | .solicitSnapshot census => Sys2Proof.Machine.execSolicitSnapshot census s
  | .responderStart core => Sys2Proof.Machine.execResponderStart core s
  | .censusReport census n => Sys2Proof.Machine.execCensusReport census n s
  | .censusReply census value err => Sys2Proof.Machine.execCensusReply census value err s
  | .censusTimeout census => Sys2Proof.Machine.execCensusTimeout census s
  | .nodeBinTimer lch node => Sys2Proof.Machine.execNodeBinTimer lch node s
  | .ipiDelivery core => Sys2Proof.Machine.execIpiDelivery core s
  | .tlbInvalidateApply kind va asid => Sys2Proof.Machine.execTlbInvalidateApply kind va asid s
  | .timerCompare core => Sys2Proof.Machine.execTimerCompare core s
  | .storageComplete id failed => Sys2Proof.Machine.execStorageComplete id failed s
  | .nsendComplete id status => Sys2Proof.Machine.execNsendComplete id status s
  | .interruptEntry core => Sys2Proof.Machine.execInterruptEntry core s
  | .groupAgePromotion gid => Sys2Proof.Machine.execGroupAgePromotion gid s
  | .groupReturn gid => Sys2Proof.Machine.execGroupReturn gid s
  | .groupRetire gid => Sys2Proof.Machine.execGroupRetire gid s
  | .workgroupEnd wg => Sys2Proof.Machine.execWorkgroupEnd wg s
  | .tgactResume core => Sys2Proof.Machine.execTgactResume core s
  | .tgactKill core => Sys2Proof.Machine.execTgactKill core s
  | .tgactKillWg core => Sys2Proof.Machine.execTgactKillWg core s
  | .fltrelRetry core tag => Sys2Proof.Machine.execFltrelRetry core tag s
  | .fltrelDeny core tag => Sys2Proof.Machine.execFltrelDeny core tag s
  | .svqAgeWake core => Sys2Proof.Machine.execSvqAgeWake core s
  | .watchdogExpiry ctx => Sys2Proof.Machine.execWatchdogExpiry ctx s
  | .preqRequest ctx => Sys2Proof.Machine.execPreqRequest ctx s
  | .preqWithdraw ctx => Sys2Proof.Machine.execPreqWithdraw ctx s
  | .timeSliceExpiry ctx => Sys2Proof.Machine.execTimeSliceExpiry ctx s
  | .preemptionRequest ctx => Sys2Proof.Machine.execPreemptionRequest ctx s
  | .saveBegin ctx => Sys2Proof.Machine.execSaveBegin ctx s
  | .forcedSave ctx => Sys2Proof.Machine.execForcedSave ctx s
  | .contextSwitch => Sys2Proof.Machine.execContextSwitch s
  | .modeChange => Sys2Proof.Machine.execModeChange s
  | .gangArm gang => Sys2Proof.Machine.execGangArm gang s
  | .gangAck gang dev => Sys2Proof.Machine.execGangAck gang dev s
  | .gangCommit gang => Sys2Proof.Machine.execGangCommit gang s
  | .gangAbort gang => Sys2Proof.Machine.execGangAbort gang s
  | .gangReport gang dev code => Sys2Proof.Machine.execGangReport gang dev code s
  | .gangTriggerReached lch => Sys2Proof.Machine.execGangTriggerReached lch s
  | .gangReportTimeout lch => Sys2Proof.Machine.execGangReportTimeout lch s
  | .placementReserve lch => Sys2Proof.Machine.execPlacementReserve lch s
  | .gridStart lch => Sys2Proof.Machine.execGridStart lch s
  | .launchWindowExpiry lch => Sys2Proof.Machine.execLaunchWindowExpiry lch s
  | .timeBaseTick => Sys2Proof.Machine.execTimeBaseTick s
  | .smapStart => Sys2Proof.Machine.execSmapStart s
  | .sliceMapSwitch => Sys2Proof.Machine.execSliceMapSwitch s
  | .linkDown link => Sys2Proof.Machine.execLinkDown link s
  | .dbgHaltRequest core part => Sys2Proof.Machine.execDbgHaltRequest core part s
  | .haltRequestServe core part => Sys2Proof.Machine.execHaltRequestServe core part s
  | .pcBreakpoint core part => Sys2Proof.Machine.execPcBreakpoint core part s
  | .stallSample core part => Sys2Proof.Machine.execStallSample core part s
  | .mgmtAttest buf => Sys2Proof.Machine.execMgmtAttest buf s
  | .mgmtExtendRequest buf => Sys2Proof.Machine.execMgmtExtendRequest buf s
  | .mgmtStageUpdate buf => Sys2Proof.Machine.execMgmtStageUpdate buf s
  | .mgmtConfirm buf => Sys2Proof.Machine.execMgmtConfirm buf s
  | .mgmtModeRequest buf => Sys2Proof.Machine.execMgmtModeRequest buf s
  | .extend reg => Sys2Proof.Machine.execExtend reg s
  | .keyslot slot => Sys2Proof.Machine.execKeyslot slot s
  | .modereq mode => Sys2Proof.Machine.execModereq mode s
  | .mgmtRequestComplete => Sys2Proof.Machine.execMgmtRequestComplete s
  | .packageReset => Sys2Proof.Machine.execPackageReset s
  | .readAhead core line => Sys2Proof.Machine.execReadAhead core line s
  | .flitReceive link flit corrected => Sys2Proof.Machine.execFlitReceive link flit corrected s
  | .laneErrorWindow link lane errors corrected uncorrected => Sys2Proof.Machine.execLaneErrorWindow link lane errors corrected uncorrected s
  | .laneRejoin link lane => Sys2Proof.Machine.execLaneRejoin link lane s
  | .linkTrained link => Sys2Proof.Machine.execLinkTrained link s
  | .trayTransaction link write pa bytes => Sys2Proof.Machine.execTrayTransaction link write pa bytes s
  | .ethernetPacketArrival ctx ep payload => Sys2Proof.Machine.execEthernetPacketArrival ctx ep payload s
  | .portDown port => Sys2Proof.Machine.execPortDown port s
  | .portUp port => Sys2Proof.Machine.execPortUp port s
  | .attestMctpRequest nonce => Sys2Proof.Machine.execAttestMctpRequest nonce s
  | .thermalThrottle cluster temp => Sys2Proof.Machine.execThermalThrottle cluster temp s
  | .thermalThrottleEnd cluster temp => Sys2Proof.Machine.execThermalThrottleEnd cluster temp s
  | .powerThrottle watts => Sys2Proof.Machine.execPowerThrottle watts s
  | .eventLogMirror n => Sys2Proof.Machine.execEventLogMirror n s
  | .powerLoss lost skip => Sys2Proof.Machine.execPowerLoss lost skip s

end Sys2Proof.Machine
end

