-- ==== Sys2Proof/Machine/Cycle.lean ====
section
/-! DEFINITION. The issue of one run, and a cycle of the core clock in which nothing more is selected (log 4): time passes, waits
are tried again, and the events whose conditions hold come about. -/

namespace Sys2Proof.Machine

/-- An event comes about in this cycle, if `c`. -/
def State.raise (s : State) (c : Bool) (i : Instr) : State := if c then s.schedule s.cc i else s

/-- A choice that the specification leaves free (log 10). -/
def State.choose (s : State) : Bool × State := (Sys2Proof.Config.freeChoice s.fresh, { s with fresh := s.fresh + 1 })

/-- Is an event on its way? -/
def State.comes (s : State) (i : Instr) : Bool := s.events.any fun e => e.2 == i

-- Before the cycle ends: stall samples (R337)

def State.samplesDue (s : State) : List (Nat × Nat) :=
  s.cores.flatMap fun p => (List.range 2).filterMap fun k =>
    let d := p.2.part k
    if d.samples s.cc && decide (d.nextSample ≤ s.cc) then some (p.1, k) else none

def State.takeSamples (s : State) (ds : List (Nat × Nat)) : State :=
  ds.foldl (fun s d =>
    (s.modCore d.1 fun c => c.modPart d.2 fun q => { q with nextSample := s.cc + max 1 q.period }).raise true (.stallSample d.1 d.2)) s

-- The caches' sizes (R1)

/-- So many of the lines, which ones being free (log 10). -/
def pickLines : Nat → Nat → List Nat → List Nat
  | 0, _, _ => []
  | n + 1, k, ls => match ls[Sys2Proof.Config.freeVictim k % ls.length]? with
    | some l => l :: pickLines n (k + 1) (ls.erase l)
    | none => []

/-- A line number of each line an L1 holds. -/
def Core.lines (c : Core) : List Nat := adjacentDedup (c.l1.map fun e => e.1 % 2 ^ 52 / 256)

/-- An L1 of 256 KiB holds 1,024 lines. -/
def State.trimL1 (s : State) (core : Nat) (c : Core) : State :=
  let n := c.lines.length - 1024
  if n = 0 then s else { s with fresh := s.fresh + n }.evict core (pickLines n s.fresh c.lines)

/-- A slice of 4 MiB holds 16,384 lines. -/
def State.trimSlice (s : State) (slice : Nat) : State :=
  let ls := (s.msys.l2.filter fun p => s.msys.sliceOf (p.1 * 256) == slice).map (·.1)
  let n := ls.length - 16384
  if n = 0 then s else { s with fresh := s.fresh + n }.modMsys fun m => (pickLines n s.fresh ls).foldl (fun m l => m.backLine l) m

/-- Caches that hold more than their size give up lines. -/
def State.trimCaches (s : State) : State :=
  let s := s.cores.foldl (fun (s : State) p => if p.2.l1.length ≤ 1024 then s else s.trimL1 p.1 p.2) s
  if s.msys.l2.length ≤ 16384 then s else (List.range 128).foldl State.trimSlice s

/-- An uncorrectable error strikes HBM (R148, log 57). -/
def State.failSector (s : State) : State :=
  s.modMsys fun m => { m with ecc := match Sys2Proof.Config.sectorFails s.cc with
    | some k => if m.ecc.contains k then m.ecc else k :: m.ecc
    | none => m.ecc }

-- Time that is counted

/-- Waits in `bar.wait` and `bar.sync` of resident groups grow older (R187). -/
def Group.ageWaits (g : Group) (ns : Nat) : Group :=
  if !g.sched.resident then g else
  { g with runs := g.runs.map fun r => match r.st with
      | .waiting w => if w.atBar.isSome then { r with st := .waiting { w with waited := w.waited + ns } } else r
      | _ => r }

def Core.ageCensus (c : Core) (ns : Nat) : Core :=
  if c.census.isEmpty then c else
  { c with census := c.census.map fun p => if p.2.st == .counting || p.2.st == .orphan then (p.1, { p.2 with age := p.2.age + ns }) else p }

/-- SYS.WDOGCNT counts µs and holds at its highest value (R310). -/
def Ctx.passWdog (c : Ctx) (ns : Nat) : Ctx :=
  let f := c.wdogFrac + ns
  { c with wdogCnt := min (c.wdogCnt + f / 1000) 0xFFFFFFFF, wdogFrac := f % 1000 }

/-- The resident context: slice, watchdog, and the limit of the save, which waits for the debugger (R293, R308, R310). -/
def Ctx.passTime (c : Ctx) (ns : Nat) (stopped : Bool) : Ctx :=
  let c := { c with sliceUsed := c.sliceUsed + ns, deadline := if stopped then c.deadline.map (· + 1) else c.deadline }
  if stopped then c else c.passWdog ns

/-- One cycle of time. Limits in µs count the time of SYS.TIME (R11). -/
def State.passTime (s : State) : State :=
  let old := s.clock.counted
  let s := { s with clock := s.clock.advance, cursor := 0, pack := [], tried := false }
  let ns := s.clock.counted - old
  let s := { s with groups := s.groups.map fun (p : Nat × Group) => (p.1, p.2.ageWaits ns)
                    cores := s.cores.map fun (p : Nat × Core) => (p.1, p.2.ageCensus ns) }
  match s.resident with
  | some r => s.modCtx r fun c => c.passTime ns (s.debugStopped r)
  | none => s

-- Waits that are tried again

/-- Groups whose waiting runs may go on: what has issued completes, in a stopped partition too (R332). -/
def State.mayTry (s : State) (g : Group) : Bool := g.sched.resident && (g.isSuper || !(s.ctx g.info.ctx).saving)

/-- A run may go on; while its context is saved, only to complete what it has issued once its release is done (R101, R308). -/
def State.mayGoOn (s : State) (g : Group) (r : Run) : Bool := g.sched.resident && (s.mayTry g || r.awaitsRelease)

/-- A waiting instruction goes on, or waits still. -/
def State.tryRun (s : State) (gid : Nat) (r : Run) (w : Wait) (i : Instr) : State :=
  match exec i { s with cur := some { gid := gid, lanes := r.lanes, pc := r.pc, resume := some w } } with
  | .next s => { s with cur := none }
  | _ => s

/-- A run that waits to issue becomes READY when what it waits for has come (R76, R155, R290). -/
def State.tryIssue (s : State) (gid : Nat) (g : Group) (r : Run) (w : Wait) : State :=
  let go := match w.why with
    | .score => w.ops.all fun id => !g.pendingWrites.any (·.id == id)
    | .counter k => decide (g.ctr k < 63)
    | .order => true
    | .window k =>
      k < svqKey || decide (linkKey 0 ≤ k) || (if k = svqKey then decide ((s.core g.info.core).svqWin.length < windowSize) else decide (s.copyWindow g.info.core (k - 144) < windowSize))
    | .engine => decide ((s.mxe (clusterOf g.info.core)).table.length < 32) && !(s.bte (clusterOf g.info.core)).stop
    | _ => false
  let still := match w.why with
    | .order | .window _ => match (s.fetch g r.pc).2 with
      | .ok i _ => (s.holdFor gid g i r).isSome
      | _ => false
    | _ => false
  if go && !still then s.setGroup gid (g.wake r.lanes r.pc) else s

def State.tryWait (s : State) (gid : Nat) (r : Run) : State :=
  match s.group? gid with
  | none => s
  | some g =>
    match r.st with
    | .waiting w =>
      if !g.runs.contains r then s
      else match w.ins with
        | some i => if w.why == .mailbox then s else s.tryRun gid r w i
        | none => s.tryIssue gid g r w
    | _ => s

def State.tryAll (s : State) : State :=
  s.groups.foldl (fun s p => p.2.runs.foldl (fun s r => if s.mayGoOn p.2 r then s.tryWait p.1 r else s) s) s

/-- The start of a cycle, when its messages have taken effect: releases, waits, parked groups and ages. -/
def State.begin_ (s : State) : State := ({ s with tried := true }.relAll.tryAll).ageAll.returnAll

/-- The header of some lane lets its mailbox step go on (R193). -/
def State.mbReady (s : State) (g : Group) (w : Wait) : Bool :=
  let look (put : Bool) (a : Reg) (u : Bool) : Bool :=
    (if u then (laneList w.lanes).take 1 else laneList w.lanes).any fun l =>
      match s.xlate g.info.core (s.gspace g) .atomic normalOnly (g.rd64 l a).toNat with
      | (s, .ok t) => match (s.mbLook g.info.core (s.gspace g) t.pa t.key put 0).2 with
        | .ok none => false
        | _ => true
      | _ => false
  match w.ins with
  | some (.mbput h _ a _) => look true a h.u
  | some (.mbget h _ _ a) => look false a h.u
  | _ => false

-- The events whose conditions hold

/-- The lines that an L1 gives up for what came in: none, or any (log 10). -/
def State.evicted (s : State) (core : Nat) : List Nat × State :=
  (s.core core).lines.foldl (fun a l => let (b, s) := a.2.choose
    (if b then a.1 ++ [l] else a.1, s)) ([], s)

/-- Memory operations: data that return, and accesses that are too late (R148, R305). -/
def State.raiseOps (s : State) : State :=
  s.ops.foldl (fun s p =>
    match s.group? p.2.gid with
    | none => s
    | some g =>
      if p.2.ready then
        (if p.2.due ≤ s.cc then
          (let (ls, s) := s.evicted g.info.core
           s.raise true (.loadDataReturn g.info.core p.1 ls)) else s)
      else s.raise (p.2.accs.any (s.accLate p.1 p.2)) (.inFlightTimeout g.info.core p.1)) s

/-- A path has a request that reaches its slice in this cycle, or requests that the slice has still to serve (R290). -/
def Path.moves (p : Path) (cc : Nat) : Bool :=
  !p.queue.isEmpty || match p.st, p.window with
    | .flowing, r :: _ => decide (r.due ≤ cc)
    | _, _ => false

/-- A core's paths to the slices (R290), and its closes (R229). UNVERIFIED (log 10): whether a slice serves a request of the queue in this
cycle. -/
def State.raisePaths (s : State) (core : Nat) (c : Core) : State :=
  let s := c.paths.foldl (fun s p =>
    if p.1 < 128 && p.2.moves s.cc then
      (let (busy, s) := s.choose
       s.raise true (.l2SliceRequest core p.1 busy)) else s) s
  if c.closes.isEmpty then s else
  (List.range 128).foldl (fun s k =>
    if !c.closes.any fun q => s.msys.closeAt q k then s else
    let s := s.raise (c.closes.any (closeReaches c k)) (.phaseCloseMessage core k)
    s.raise (c.closes.any (closeAnswers s core k)) (.phaseCloseAnswer core k)) s

/-- The head of a core's device path (R223, R256). DESIGN CHOICE (log 43): a device answers in the next cycle. -/
def State.raiseDevice (s : State) (core : Nat) (c : Core) : State :=
  match c.dev with
  | [] => s
  | d :: _ =>
    match apertureStart d with
    | some ch => s.raise (decide (s.copyWindow core ch < windowSize)) (.apertureCopyStart core ch d.data)
    | none => s.raise true (if d.write then .deviceWriteAck core else .apertureStatusRead core)

/-- The oldest system call has come of age since the last cycle (R307). -/
def Core.svqAges (c : Core) (before now : Nat) : Bool :=
  c.svqTimer != 0 && match c.svq.find? (·.kind == 0) with
    | some e => decide (before < e.posted + c.svqTimer * 10 ∧ e.posted + c.svqTimer * 10 ≤ now)
    | none => false

/-- Events of one core. -/
def State.raiseCore (s : State) (before core : Nat) (c : Core) : State :=
  let s := (s.raisePaths core c).raiseDevice core c
  let s := s.raise (s.timerDue c) (.timerCompare core)
  let s := s.raise (c.svqAges before s.time) (.svqAgeWake core)
  (c.census.foldl (fun s p => s.raise (s.censusLate p.2) (.censusTimeout (cenRef p.2.serial (core * 4 + p.1)))) s)

/-- Requests at the scratchpad ports (R153, R227). -/
def State.raisePorts (s : State) : State :=
  let s := ((s.spIn.map (·.dst)).eraseDups).foldl (fun s d => s.raise true (.scratchpadIncomingWrite d)) s
  ((s.feq.map (·.dst)).eraseDups).foldl (fun s d => s.raise (s.feq.any fun r => r.dst == d && s.feReady r) (.fullEmptyServe d)) s

/-- The time since which accesses are under way, while they are. -/
def sinceWhen (under : Bool) (since : Option Nat) (ns : Nat) : Option Nat := if under then some (since.getD ns) else none

/-- Some access of an engine's command may have been under way for 64 µs (R305). UNVERIFIED (log 55): whether one has. -/
def State.raiseLate (s : State) (core id : Nat) (since : Option Nat) : State :=
  if since.any fun t => decide (t + 64000 ≤ s.clock.ns) then
    (let (late, s) := s.choose
     s.raise late (.inFlightTimeout core id)) else s

/-- The copy at the head of a channel: since when its accesses are under way, and whether one of them is late (R305). -/
def State.markCopy (s : State) (cl ch : Nat) : State :=
  match s.chan cl ch with
  | [] => s
  | r :: t =>
    let r := { r with since := sinceWhen r.reaches r.since s.clock.ns }
    (s.setChan cl ch (r :: t)).raiseLate r.core r.id r.since

/-- Copies at the heads of a cluster's channels (R160, R162, R305). -/
def State.raiseCopies (s : State) (cl : Nat) (b : Bte) : State :=
  b.chans.foldl (fun s p =>
    let s := s.markCopy cl p.1
    match s.copyHead cl p.1 with
    | none => s
    | some r =>
      match r.status, (s.moveCopy r).2 with
      | none, .error _ => s.raise true (.copyPageFault cl p.1)
      | _, _ => s.raise true (.copyComplete cl p.1)) s

/-- Since when an entry is ready and ungranted (R243), and since when its accesses are under way (R305). -/
def Mxe.markReady (m : Mxe) (cc ns : Nat) : Mxe :=
  if m.table.isEmpty then m else
  { m with table := m.table.map fun e =>
      { e with readySince := if e.granted.isNone && e.held.isNone && m.ready cc e then some (e.readySince.getD cc) else none
               since := sinceWhen e.reaches e.since ns } }

def isDrain : MxKind → Bool
  | .drain .. => true
  | _ => false

/-- Commands of a cluster's engine: promotions, grants, completions (R176, R243). -/
def State.raiseEngine (s : State) (cl : Nat) : State :=
  let s := s.modMxe cl fun m => m.markReady s.cc s.clock.ns
  let m := s.mxe cl
  let s := m.table.foldl (fun s e => s.raiseLate e.core e.id e.since) s
  let s := m.table.foldl (fun s e =>
    s.raise (!e.promoted && e.readySince.any fun c => decide (c + 16384 ≤ s.cc)) (.mxeAgePromotion cl e.id)) s
  let stop := s.resident.any fun r => (s.ctx r).saving
  let s := (s.mxArrivals cl).foldl (fun s e => s.raise true (.engineBarrierArrival cl e.id)) s
  let s := [MxUnit.load, MxUnit.array, MxUnit.bank].foldl (fun s u => s.raise (!stop && (m.grantee s.cc u).isSome) (.mxeGrant cl u)) s
  m.table.foldl (fun s e =>
    match s.mxDue cl e.id with
    | none => s
    | some e =>
      let fault := !e.read && isDrain e.kind && match (s.mxEffect cl e).2 with
        | .error er => isDrainFault e er
        | .ok _ => false
      s.raise true (if fault then .mxeDrainFault cl e.id else .mxeCommandComplete cl e.id)) s

def State.raiseClusters (s : State) : State :=
  s.clusters.foldl (fun s p =>
    let s := if p.2.bte.chans.isEmpty then s else s.raiseCopies p.1 p.2.bte
    if p.2.mxe.table.isEmpty && p.2.mxe.late.isEmpty then s else s.raiseEngine p.1) s

/-- Groups: limits of barrier waits, mailbox steps, returns, retirement (R31, R36, R187, R193). -/
def State.raiseGroups (s : State) : State :=
  s.groups.foldl (fun s p =>
    let s := s.raise (s.returns p.2) (.groupReturn p.1)
    if !s.mayTry p.2 then s else
    let s := p.2.runs.foldl (fun s r => match r.st with
      | .waiting w =>
        let s := s.raise (!s.frozen p.2 && (s.barLate p.1 p.2 w).isSome) (.barrierTimeout p.1 r.lanes)
        s.raise (w.why == .mailbox && s.mbReady p.2 w) (.mailboxStepRetry p.1 r.lanes)
      | _ => s) s
    s.raise p.2.retires (.groupRetire p.1)) s

/-- Bins that fire (R289). -/
def State.raiseBins (s : State) : State :=
  s.bins.foldl (fun s p =>
    match s.nodeAt (p.1 / 256) (p.1 % 256), s.launches.find (p.1 / 256) with
    | some nd, some l => s.raise (s.binDue nd p.2 && s.resident == some l.ctx && (s.nodePlace nd).isSome) (.nodeBinTimer (p.1 / 256) (p.1 % 256))
    | _, _ => s) s

/-- The launch unit (R281 to R287). -/
def State.raiseLaunch (s : State) (k : Nat) (l : Launch) : State :=
  let s := if s.injects l then s.inject k else s
  let s := s.raise (!l.st.final && !l.reserved && (s.placement l).isSome) (.placementReserve k)
  let s := s.raise (l.trigger != 0 && !l.st.final && l.inject.isNone && !l.late && decide (l.last < s.time)) (.launchWindowExpiry k)
  match l.gang with
  | none => s
  | some g =>
    let lacks := g.self == g.coord && (l.st == .pending || l.st == .armed) && !g.others.all g.acks.contains
    let s := s.raise (l.trigger != 0 && decide (l.trigger ≤ s.time) && (lacks || s.heldArms.contains g.id)) (.gangTriggerReached k)
    s.raise ((l.st == .started || l.st == .startedLate) && !g.incomplete && l.trigger != 0 && decide (l.last + 1000000 ≤ s.time) &&
      !g.others.all g.started.contains) (.gangReportTimeout k)

/-- Contexts: watchdogs, the slice, the save and the boundary (R293, R308, R310). -/
def State.raiseResident (s : State) (r : Nat) : State :=
  let c := s.ctx r
  let s := s.raise (c.sliceDone && !c.preq && !c.saving && !s.requestGoes r) (.timeSliceExpiry r)
  let s := s.raise (s.saveForced r) (.forcedSave r)
  if c.preq && !c.saving && !s.debugStopped r && s.mayBegin r && !s.comes (.saveBegin r) then
    (let (lat, s) := s.freeLat
     s.schedule (min (s.cc + lat % 97) (max s.cc (c.deadline.getD (s.cc + 96)))) (.saveBegin r))
  else if c.saving && s.drained r && !s.comes .contextSwitch then
    (let (lat, s) := s.freeLat
     s.schedule (s.cc + lat + 48) .contextSwitch)
  else s

/-- With no context resident: the first choice, and the mode (R5, R293). DEDUCED (log 24): the list is looked at in each cycle.
DESIGN CHOICE (log 70): every cycle is such a boundary for a request made 48 cc ago, so that LULL is entered in the cycle after the slice-map switch. -/
def State.raiseIdle (s : State) : State :=
  let s := if s.chooseNext.isSome && !s.comes .contextSwitch then s.schedule (s.cc + 48) .contextSwitch else s
  match s.clock.modePending with
  | some (m, t) => s.raise (decide (t + 48 ≤ s.cc) && !(m == .lull && !s.msys.lullReady)) .modeChange
  | none => s

def State.raiseCtxs (s : State) : State :=
  let s := s.ctxs.foldl (fun s p => s.raise p.2.wdogDue (.watchdogExpiry p.1)) s
  match s.resident with
  | some r => s.raiseResident r
  | none => s.raiseIdle

/-- Storage commands that are done, power above the budget, and links without a lane (R216, R319, R349). -/
def State.raiseOutside (s : State) : State :=
  let s := s.stCmds.foldl (fun s q =>
    if q.goes && decide (q.due ≤ s.cc) then
      (let (failed, s) := s.choose
       s.raise true (.storageComplete q.id failed)) else s) s
  let s := if s.mgmt.powerSince.isSome && !s.mgmt.pkgThrottle then s.checkPower else s
  s.links.foldl (fun s p => s.raise (p.2.st != .down && p.2.active == 0 && decide (p.2.noLane + 10000000 ≤ s.clock.ns)) (.linkDown p.1)) s

/-- Every event whose condition holds comes about in this cycle. -/
def State.raiseAll (s : State) (before : Nat) : State :=
  let s := s.cores.foldl (fun s p => s.raiseCore before p.1 p.2) s
  let s := (s.raiseOps.raisePorts).raiseClusters.raiseGroups.raiseBins
  let s := s.launches.foldl (fun s p => s.raiseLaunch p.1 p.2) s
  s.raiseCtxs.raiseOutside

def State.settleAll (s : State) : State :=
  s.groups.foldl (fun s p => if p.2.readyRuns.isEmpty then s else s.setGroup p.1 (s.settle p.1 p.2)) s

/-- One cycle of the core clock in which nothing more is selected. -/
def State.tick (s : State) : State :=
  match s.samplesDue with
  | [] =>
    let before := s.clock.counted % 2 ^ 64
    let s := (s.cancelFes s.frozen).settleAll.parkAll
    let s := (s.checkBars (s.cc + 1)).trimCaches.passTime.failSector.sendTick.giveStreams
    s.raiseAll before
  | ds => s.settleAll.takeSamples ds

-- The issue of one run

/-- An entry of the event list that is due comes about. Only events stand there: an issued instruction, which nothing puts there, is passed over. -/
def comeAbout (i : Instr) (s : State) : Host.Outcome State Fault Refusal := if i.hdr.isSome then .next s else exec i s

/-- The picked run of a group issues, or a cause, an interrupt, a stop or a fetch fault takes its place. -/
def issueGroup (s : State) (gid : Nat) : Host.Outcome State Fault Refusal :=
  match s.group? gid with
  | none => .next s
  | some g =>
    if !s.eligible gid g then .next s else
    match g.pick with
    | none => .next s
    | some (r, escape) =>
      let here : State := { s with cur := some { gid := gid, lanes := r.lanes, pc := r.pc, resume := none } }
      match g.nextPend with
      | some p => .next (s.takePend gid p r)
      | none =>
        if s.interruptNow g r then exec (.interruptEntry g.info.core) s
        else if s.haltNow g then exec (.haltRequestServe g.info.core g.info.part) here
        else if (s.breakpointAt g r.pc).isSome then exec (.pcBreakpoint g.info.core g.info.part) here
        else match s.fetch g r.pc with
          | (s, .fault e) => .next (s.fetchFault gid g r e)
          | (s, .pad) => .next (s.setGroup gid (g.goto r.lanes (padNext r.pc)))
          | (s, .bad e) => .next (((s.beginIssue gid g r escape).rejectRun gid g r e).endIssue gid g.sys.debug)
          | (s, .ok i _) =>
            match exec i (s.beginIssue gid g r escape) with
            | .next s => .next (s.endIssue gid g.sys.debug)
            | .fault f => .fault f
            | .refused f => .refused f

end Sys2Proof.Machine
end

