-- ==== Sys2Proof/Machine/Step.lean ====
section
/-! DEFINITION. One step (log 4): an event that is due, the end of a workgroup, the waits of the cycle, the issue of one run, or a
cycle of the clock. -/

namespace Sys2Proof.Machine

/-- One step of the machine. -/
def step (s : State) : Host.Outcome State Fault Refusal :=
  match s.popDue with
  | some (i, s) => comeAbout i s
  | none =>
    match s.endingWg with
    | some wg => exec (.workgroupEnd wg) s
    | none =>
    if !s.tried then .next s.begin_ else
    match s.pack with
    | gid :: t => issueGroup { s with pack := t } gid
    | [] =>
      match s.selectFrom s.partsFrom with
      | some (s, p, gid, pk) => issueGroup { s with cursor := p + 1, pack := pk } gid
      | none => .next s.tick

/-- The page-table entry of a 1 GiB page at physical address 0: valid, accessed, dirty, read, write, fetch (R302). -/
def loaderPte : Nat := 2 ^ 55 + 2 ^ 11 + 2 ^ 8 + 2 ^ 7 + 2 ^ 6 + 5 * 2 + 1

/-- The load of one instruction from outside the machine (log 4): core 0's supervisor group stands at address 0x10000
of a page mapped to itself, the instruction's words there, and nothing else of partition 0 runs. -/
def State.withFetchWord (s : State) (nbits w : Nat) : State :=
  let s := s.homeWrite 0 0x1000 (leBytes (0x2000 + 1) 8)
  let s := s.homeWrite 0 0x2000 (leBytes loaderPte 8)
  let s := s.homeWrite 0 0x10000 (leBytes (w % 2 ^ nbits) 16)
  let s := s.modCore 0 fun c =>
    { c with ptbase := 0x1000, keyid := 0, tlb := [], part0 := PartDbg.reset, imask := 0 }
  let s := s.modCluster 0 fun c => { c with tlb := [] }
  { s with
    events := [], cursor := 0, pack := [], tried := true, cur := none, wgs := s.wgs.filter fun p => !s.wgEnds p.1
    groups := SMap.ins (s.groups.filter fun p => !(p.2.info.core == 0 && p.2.info.part == 0)) (superGid 0) (superGroup 0 0x10000 384 s.cc) }

end Sys2Proof.Machine
end

