-- ==== Sys2Proof/Safety.lean ====
section
/-! DEFINITION. The terms in which claims about the machine are stated: safe states, what it is for an instruction to be issued,
where lanes stand, what a result is and what an instruction leaves alone. -/

namespace Sys2Proof.Safety

open Sys2Proof.Machine

/-- Canonical memory: addresses strictly rising, no byte equal to what an unlisted address reads as. -/
abbrev Memory.wf (m : MemSys) : Prop := SMap.canon memDefault m.mem = true

/-- A step that goes on. -/
def Runs (s : State) : Prop := ∃ t, step s = .next t

-- Issue

/-- An instruction is being issued by a run of a group (R24, R99), within the group's register budget (R17) and in a mode that
may issue it (R86). -/
structure Issues (s : State) (i : Instr) (q : Issue) (g : Group) : Prop where
  cur : s.cur = some q
  new : q.resume = none
  group : s.group? q.gid = some g
  budget : breaksBudget g.info.budget i = false
  priv : g.privOk i = true

/-- The guard-true lanes of the issuing run: `lanes` of R99 (R67). -/
def acts (h : Hdr) (q : Issue) (g : Group) : Lanes := g.guardLanes h q.lanes

/-- The address after the instruction: `next` of R99. -/
def nextPc (h : Hdr) (q : Issue) : Pc := q.pc + BitVec.ofNat 48 h.len.bytes

/-- The lane whose operands a lane uses: with U = 1 the lowest lane of `lanes` (R32). -/
def source (h : Hdr) (q : Issue) (g : Group) (l : Nat) : Nat := if h.u then lowest (acts h q g) else l

/-- Every lane of the run stands READY-side at a PC of its own. -/
def GoOn (t : State) (q : Issue) (pc : Nat → Pc) : Prop :=
  ∃ k, t.group? q.gid = some k ∧ ∀ l, q.lanes.getLsbD l = true → k.pcOf l = some (pc l)

/-- An instruction or event completes: a next state, of which something holds. -/
def Completes (i : Instr) (s : State) (post : State → Prop) : Prop := ∃ t, exec i s = .next t ∧ post t

/-- Of the whole state, only the PC table of the issuing group changes. -/
def OnlyRuns (s t : State) (q : Issue) (g : Group) : Prop := ∃ rs, t = s.setGroup q.gid { g with runs := rs }

/-- A lane stands in a run with this PC and state. -/
def StandsIn (k : Group) (l : Nat) (pc : Pc) (st : RunSt) : Prop := ∃ r ∈ k.runs, r.lanes.getLsbD l = true ∧ r.pc = pc ∧ r.st = st

/-- R84: the target of a branch at an address, modulo 2^48. -/
def branchTarget (pc : Pc) : Target → Pc
  | .rel20 w => BitVec.ofInt 48 (pc.toNat + 4 * w.toInt)
  | .rel32 w => BitVec.ofInt 48 (pc.toNat + 4 * w.toInt)
  | .abs a => BitVec.ofNat 48 (4 * a.toNat)

-- Results

/-- A register of `w` registers reads a value in a lane. -/
def ReadsAs (k : Group) (w l : Nat) (d : Reg) (v : Dword) : Prop := if w = 2 then k.rd64 l d = v else k.rd32 l d = v.truncate 32

/-- The result of a computing instruction: each guard-true lane's destination holds its value, and the run goes on at `next`. -/
def Lands (t : State) (h : Hdr) (q : Issue) (g : Group) (w : Nat) (d : Reg) (res : Nat → Dword) : Prop :=
  ∃ k, t.group? q.gid = some k ∧ (∀ l, (acts h q g).getLsbD l = true → ReadsAs k w l d (res l)) ∧
    ∀ l, q.lanes.getLsbD l = true → k.pcOf l = some (nextPc h q)

/-- The exception flags that an instruction adds to SYS.FPSTAT (R44). -/
def Raises (t : State) (q : Issue) (g : Group) (fl : Word) : Prop :=
  ∃ k, t.group? q.gid = some k ∧ k.sys.fpstat = g.sys.fpstat ||| fl

/-- No class of SYS.FPCTL traps (R43). -/
def Untrapped (g : Group) : Prop := g.sys.fpctl &&& 0x1F#32 = 0#32

/-- The union of the flags of lanes. -/
def flagsOf (ls : List Nat) (fl : Nat → Fl) : Word := ls.foldl (fun a l => a ||| fl l) 0

-- Frames

/-- The registers a destination of `w` registers stands for. -/
def names (d : Reg) (w : Nat) (r : Reg) : Prop := r = d ∨ (w = 2 ∧ r = Reg.shift d 1)

/-- A register of the V, O, S and P files reads as before in a lane. -/
def SameReg (g k : Group) (l : Nat) : Reg → Prop
  | .l _ => True
  | .s n => k.rd64 l (.s n) = g.rd64 l (.s n)
  | r => k.rd32 l r = g.rd32 l r

/-- The memory that programs share reads as before: every byte under every key, and every scratchpad. -/
def SameMemory (s t : State) : Prop :=
  (∀ key pa, t.msys.byte key pa = s.msys.byte key pa) ∧ ∀ core off, (t.spad core).byte off = (s.spad core).byte off

/-- The system registers of cores, contexts and package hold what they held. -/
def SameSystem (s t : State) : Prop := t.cores = s.cores ∧ t.ctxs = s.ctxs ∧ t.clusters = s.clusters ∧ t.mgmt = s.mgmt ∧ t.clock = s.clock

/-- Groups other than the issuing one are as they were. -/
def SameOthers (s t : State) (gid : Nat) : Prop := ∀ k, k ≠ gid → t.group? k = s.group? k

/-- The system registers of a group but SYS.FPSTAT and the uniform-violation bit. -/
def SameSys (g k : Group) : Prop :=
  k.sys = { g.sys with fpstat := k.sys.fpstat, uniformViolation := k.sys.uniformViolation }

/-- What an instruction with one register result leaves alone: memory, system registers, other groups, the counters, pending traps
and every register but the destination; in the lanes whose guard is false the destination too (unless it is S); the last-result
file is pushed only for a destination in V or O (R74). -/
def ResultFrame (s t : State) (h : Hdr) (q : Issue) (g : Group) (w : Nat) (d : Reg) : Prop :=
  SameMemory s t ∧ SameSystem s t ∧ SameOthers s t q.gid ∧
  ∃ k, t.group? q.gid = some k ∧ k.info = g.info ∧ SameSys g k ∧ k.pend = g.pend ∧ k.cmds = g.cmds ∧
    (k.regs.ld = g.regs.ld ∧ k.regs.st = g.regs.st ∧ k.regs.cp = g.regs.cp ∧ k.regs.tl = g.regs.tl) ∧
    (∀ l, l < 64 → ∀ r, ¬ names d w r → SameReg g k l r) ∧
    ∀ l, l < 64 → (acts h q g).getLsbD l = false → (∀ n, d ≠ .s n) → ∀ r, SameReg g k l r

-- Computing instructions

/-- What an instruction of shape ARITH does at each issue of a group that meets `pre`: a result and flags per lane of which `rule`
holds in the operands of the source lane, the result landing in the destination, the flags in SYS.FPSTAT, and its frame. -/
def Computes (mk : Hdr → Arith → Instr) (sp : ArithSpec) (pre : Group → Prop)
    (rule : Group → Issue → Nat → Arith → Dword → Dword → Dword → Dword → Fl → Prop) : Prop :=
  ∀ s q g h a, Issues s (mk h a) q g → (mk h a).wf = true → pre g →
    ∃ (res : Nat → Dword) (fl : Nat → Fl),
      (∀ l, (acts h q g).getLsbD l = true →
        let m := source h q g l
        rule g q m a (a.vals sp g m).1 (a.vals sp g m).2.1 (a.vals sp g m).2.2 (res l) (fl l)) ∧
      Completes (mk h a) s fun t => Lands t h q g (sp.dst a.ty).width a.d res ∧
        Raises t q g (flagsOf (laneList (acts h q g)) fl) ∧ ResultFrame s t h q g (sp.dst a.ty).width a.d

/-- Every group: for instructions that raise no class of exception that SYS.FPCTL could trap. -/
def always (_ : Group) : Prop := True

end Sys2Proof.Safety
end

