-- ==== Sys2Proof/Safety/Memory.lean ====
section
/-! DEFINITION. What memory instructions and the events of the memory system do: the accesses that lanes make, the operation that
an instruction begins, and what performing an access changes. -/

namespace Sys2Proof.Safety

open Sys2Proof.Machine

/-- The lanes that make an access: with U = 1 the lowest guard-true lane alone (R32). -/
def actors (h : Hdr) (q : Issue) (g : Group) : List Nat := if h.u then (laneList (acts h q g)).take 1 else laneList (acts h q g)

/-- The value of a data operand of `n` bytes in a lane. -/
def dataOf (g : Group) (n l : Nat) (r : Option Reg) : Nat := (g.data n l r).toNat

/-- No enabled watchpoint range of the partition is hit (R301), or the issue is not checked: the debug agent's, one that `dbgret` lets run
(R333), or one of a stopped partition (R332). -/
def Unwatched (s : State) (q : Issue) (g : Group) (sp rd wr : Bool) (a n : Nat) : Prop :=
  g.sys.debug = true ∨ ((s.core g.info.core).part g.info.part).stopped ≠ none ∨ (∃ m, (m, q.pc) ∈ g.sched.noWatch ∧ q.lanes &&& m ≠ 0) ∨
  ((s.core g.info.core).part g.info.part).watches sp rd wr a n = false

/-- A lane's global access has no cause (R144, R145, R301, R303), and its page translates as the TLBs hold it. -/
def Reaches (s : State) (q : Issue) (g : Group) (acc : Access) (rule : TypeRule) (va n : Nat) (x : Xlated) : Prop :=
  va % n = 0 ∧ Unwatched s q g false (accRd acc) (isWrite acc) va n ∧
  s.xlate g.info.core (s.gspace g) acc rule.ok va = (s, .ok x)

/-- A lane's scratchpad access has no cause (R144, R146, R301) and names a core, an offset, an allocation and its generation. -/
def Targets (s : State) (q : Issue) (g : Group) (rd wr : Bool) (a n core off alloc gen : Nat) : Prop :=
  a % n = 0 ∧ Unwatched s q g true rd wr a n ∧ s.spTarget g.info.wg a n = .ok (core, off, alloc, gen)

-- Operations

/-- What of an access does not change while it is under way. -/
def fixedAcc (a : LaneAcc) : LaneAcc := { a with back := none, err := none, done := false }

/-- What of an operation does not change while it is under way. -/
def fixedOp (o : MemOp) : MemOp := { o with accs := o.accs.map fixedAcc, held := none, sent := 0, sentCc := 0, due := 0, ready := false }

/-- An operation begins (R76): it is outstanding under a new number, and its counter has risen by one. -/
def Begins (s t : State) (q : Issue) (g : Group) (o : MemOp) : Prop :=
  ∃ p k, t.ops.find s.serial = some p ∧ fixedOp p = fixedOp o ∧ t.group? q.gid = some k ∧ k.ctr o.ctr = g.ctr o.ctr + 1

/-- An operation has been performed at once: it is gone, and its counter stands where it stood. -/
def Ended (s t : State) (q : Issue) (g : Group) (o : MemOp) : Prop :=
  t.ops.find s.serial = none ∧ ∃ k, t.group? q.gid = some k ∧ k.ctr o.ctr = g.ctr o.ctr

/-- Accesses of the group that a release must await (R228). -/
def Owes (s : State) (gid : Nat) : Prop := ∃ p ∈ s.ops, p.2.gid = gid ∧ ∀ a ∈ p.2.accs, a.typ < 9

/-- The path from a core to a queue. -/
def pathOf (s : State) (core k : Nat) : Path := (s.core core).paths.get Path.reset k

/-- An access is performed, or refused, as its instruction issues: in the L1 (R224), at the core's own scratchpad port (R227), as a posted
write (R223), at a link that is DOWN or at an address that nobody has (R319, R352). -/
def AtOnce (s : State) (core : Nat) (o : MemOp) (a : LaneAcc) : Prop :=
  match a.typ with
  | 0 => hbmSize ≤ a.pa ∨ (s.core core).inL1 o a = true
  | 1 => (s.link (a.pa / 2 ^ 44)).st = .down ∨ hbmSize ≤ a.pa % 2 ^ 44
  | 2 => o.kind = .store ∨ deviceAnswers 2 a.pa = false
  | 4 => a.key = core ∧ o.fe = none ∧ s.spBehind core core = false
  | n => deviceAnswers n a.pa = false

/-- What a load performed at once receives: bytes of the L1 (R224) or of the core's scratchpad (R151), or BUS_ERROR. -/
def foundAtOnce (s : State) (core : Nat) (o : MemOp) (a : LaneAcc) : Option (List Byte) × Option Cause :=
  match a.typ with
  | 0 => if hbmSize ≤ a.pa then (none, some .busError) else (some ((s.core core).l1Read a.pa a.key o.size), none)
  | 4 => (some ((s.spad core).read a.pa o.size), none)
  | _ => (none, some .busError)

/-- A lane's access of an operation that stands has this answer. -/
def HasAnswer (t : State) (id lane : Nat) (ans : Option (List Byte) × Option Cause) : Prop :=
  ∃ p a, t.ops.find id = some p ∧ a ∈ p.accs ∧ a.lane = lane ∧ a.done = true ∧ a.back = ans.1 ∧ a.err = ans.2

/-- What a request carries. -/
def requestOf (o : MemOp) (a : LaneAcc) : ReqKind :=
  match o.kind, o.atom with
  | .store, _ => .write a.data
  | k, some (op, args) => .atomic op (atomArgs args a.lane).1 (atomArgs args a.lane).2 (k == .atomRet)
  | _, none => .read

/-- A request of a lane stands in a replay window of its core (R290). -/
def Asks (t : State) (core id lane : Nat) (kind : ReqKind) (pa len key : Nat) : Prop :=
  ∃ n, ∃ r ∈ (pathOf t core n).window, r.op = some id ∧ r.lane = lane ∧ r.kind = kind ∧ r.pa = pa ∧ r.len = len ∧ r.key = key

/-- An access is on its way: to its home slice, for its sector where it is near (R224); over its link (R320); to its scratchpad port
(R227); to its device (R223). -/
def Travels (t : State) (core id : Nat) (o : MemOp) (a : LaneAcc) : Prop :=
  match a.typ with
  | 0 => if nearScope o.scope then Asks t core id a.lane .read (sectorOf a.pa) 32 a.key else Asks t core id a.lane (requestOf o a) a.pa o.size a.key
  | 1 => ∃ r, (r ∈ (t.link (a.pa / 2 ^ 44)).waiting ∨ r ∈ (t.link (a.pa / 2 ^ 44)).out) ∧ r.core = core ∧ r.op = id ∧ r.lane = a.lane ∧
      r.kind = requestOf o a ∧ r.pa = a.pa % 2 ^ 44 ∧ r.len = o.size
  | 4 => ∃ r, (if a.key = core then r ∈ t.feq else r ∈ t.spIn) ∧ r.src = core ∧ r.dst = a.key ∧ r.off = a.pa ∧ r.len = o.size ∧ r.op = id ∧
      r.lane = a.lane ∧ r.alloc = a.alloc ∧ r.gen = a.gen ∧ r.fe = o.fe ∧ r.bytes = if o.kind = .store then some a.data else none
  | n => ∃ d ∈ (t.core core).dev, d.op = id ∧ d.lane = a.lane ∧ d.pa = a.pa ∧ d.size = o.size ∧ d.write = (o.kind == .store) ∧
      d.strict = (n == 3) ∧ d.data = BitVec.ofNat 64 (leNat a.data)

/-- An operation begins (R76): it stands until its accesses are performed, those that cannot be made at once being on their way; it is gone at
once where it returns nothing and every access could. -/
def Starts (s t : State) (q : Issue) (g : Group) (o : MemOp) : Prop :=
  let core := g.info.core
  let whole : Prop := (o.kind = .store ∨ o.kind = .atomNoRet) ∧ ∀ a ∈ o.accs, AtOnce s core o a
  (whole → Ended s t q g o) ∧ (¬ whole → Begins s t q g o) ∧
  (∀ a ∈ o.accs, (¬ AtOnce s core o a ∨ (a.typ = 2 ∧ deviceAnswers 2 a.pa = true)) → Travels t core s.serial o a) ∧
  (o.kind = .load → ∀ a ∈ o.accs, AtOnce s core o a → HasAnswer t s.serial a.lane (foundAtOnce s core o a))

/-- The accesses of an operation that a release has held find places in their windows (R228, R290). -/
def RoomFor (s : State) (core : Nat) (o : MemOp) : Prop :=
  ∀ a ∈ o.accs, (s.core core).inL1 o a = true ∨
    ((a.typ = 0 → ∀ n, (pathOf s core n).window.length + o.accs.length ≤ 32) ∧
     (a.typ = 1 → ((s.link (a.pa / 2 ^ 44)).window core).length + o.accs.length ≤ 32))

/-- An operation begins; a releasing one makes none of its accesses before its release (R228): one beyond `.wg`, or with accesses of the group
outstanding, waits for it. -/
def StartsInOrder (order : Order) (effect : State → State → Issue → Group → MemOp → Prop) (s t : State) (q : Issue) (g : Group) (o : MemOp) : Prop :=
  (isRel order = false → Starts s t q g o ∧ effect s t q g o) ∧
  (isRel order = true →
    ((nearScope o.scope = false ∨ Owes s q.gid) → Begins s t q g o ∧ t.spads = s.spads ∧ t.links = s.links ∧
      ∃ p, t.ops.find s.serial = some p ∧ p.held ≠ none ∧ ∀ a ∈ p.accs, a.done = false) ∧
    (nearScope o.scope = true → ¬ Owes s q.gid → RoomFor s g.info.core o → Starts s t q g o ∧ effect s t q g o))

/-- An access is to a byte of HBM under a key. -/
def LaneAcc.covers (a : LaneAcc) (n pa key : Nat) : Bool := a.typ == 0 && decide (a.pa < hbmSize ∧ a.key = key ∧ a.pa ≤ pa ∧ pa < a.pa + n)

/-- R149, R224: a store at SCOPE 0, `.grp` or `.wg` is written into the L1 and marked dirty; a wider one changes the copies that the L1 holds,
which are clean. A byte that several lanes store holds what the highest stores. -/
def StoredInL1 (s t : State) (_ : Issue) (g : Group) (o : MemOp) : Prop :=
  ∀ pa key, pa < 2 ^ 52 → (t.core g.info.core).l1Byte pa key =
    match (o.accs.filter fun a => LaneAcc.covers a o.size pa key).getLast? with
    | some a =>
      let b := a.data.getD (pa - a.pa) 0
      if nearScope o.scope then some (b, true) else ((s.core g.info.core).l1Byte pa key).map fun _ => (b, false)
    | none => (s.core g.info.core).l1Byte pa key

/-- The bytes of an L1, by address and key, with their dirty marks. -/
abbrev L1View := Nat → Nat → Option (Byte × Bool)

/-- The bytes of an access in an L1. -/
def L1View.read (v : L1View) (n : Nat) (a : LaneAcc) : List Byte := (List.range n).map fun i => ((v (a.pa + i) a.key).map (·.1)).getD 0

/-- Atomics at SCOPE 0, `.grp` or `.wg` whose sectors the L1 holds are performed there in ascending LANE order, and what they leave is dirty
(R149, R157). -/
def L1View.atomics (c : Core) (o : MemOp) (op : AtomOp) (args : List (Nat × Dword × Dword)) : List LaneAcc → L1View → L1View
  | [], v => v
  | a :: rest, v =>
    let new := leBytes (atomNew op o.size (leNat (L1View.read v o.size a)) (atomArgs args a.lane).1.toNat (atomArgs args a.lane).2.toNat) o.size
    L1View.atomics c o op args rest
      (if a.pa < hbmSize ∧ c.inL1 o a = true then fun pa key => if LaneAcc.covers a o.size pa key then some (new.getD (pa - a.pa) 0, true) else v pa key
       else v)

/-- What the L1 holds after the atomics of an instruction, and what those performed there return; a wider one sends the dirty bytes of its
sectors home and leaves them clean (R157). -/
def AtomicsInL1 (s t : State) (_ : Issue) (g : Group) (o : MemOp) : Prop :=
  ∀ op args, o.atom = some (op, args) →
    let c := s.core g.info.core
    if nearScope o.scope then
      (∀ pa key, pa < 2 ^ 52 → (t.core g.info.core).l1Byte pa key = L1View.atomics c o op args o.accs c.l1Byte pa key) ∧
      ∀ before a after, o.kind = .atomRet → o.accs = before ++ a :: after → a.pa < hbmSize → c.inL1 o a = true →
        HasAnswer t s.serial a.lane (some (L1View.read (L1View.atomics c o op args before c.l1Byte) o.size a), none)
    else ∀ pa key, pa < 2 ^ 52 → (t.core g.info.core).l1Byte pa key = (c.l1Byte pa key).map fun e =>
      (e.1, e.2 && !o.accs.any fun a => a.typ == 0 && decide (a.pa < hbmSize ∧ a.key = key ∧ sectorOf a.pa = sectorOf pa))

/-- Nothing beside. -/
def noEffect (_ _ : State) (_ : Issue) (_ : Group) (_ : MemOp) : Prop := True

/-- The operation of a MEM instruction (R82, R83). -/
def opOf (q : Issue) (g : Group) (h : Hdr) (m : MemArg) (kind : OpKind) (ctr : Nat) (accs : List LaneAcc) : MemOp :=
  { gid := q.gid, pc := q.pc, kind := kind, size := m.size.bytes, sx := m.sx, nf := m.nf, scope := m.scope, acq := isAcq m.order,
    u := h.u, lanes := acts h q g, d := m.d, accs := accs, inTrap := g.sys.intrap, ctr := ctr, atom := none, fe := none, held := none,
    sent := 0, sentCc := 0, due := 0, ready := false }

/-- The accesses of the lanes on global addresses. -/
def globalAccs (h : Hdr) (q : Issue) (g : Group) (m : MemArg) (x : Nat → Xlated) : List LaneAcc :=
  (actors h q g).map fun l => LaneAcc.at_ l (m.gaddr g l) (x l).pa (x l).key (x l).typ 0 0

/-- The accesses of the lanes on scratchpad addresses: core, offset, allocation and generation by lane. -/
def spadAccs (h : Hdr) (q : Issue) (g : Group) (m : MemArg) (x : Nat → Nat × Nat × Nat × Nat) : List LaneAcc :=
  (actors h q g).map fun l => LaneAcc.at_ l (m.saddr g l) (x l).2.1 (x l).1 4 (x l).2.2.1 (x l).2.2.2

/-- The bytes that each lane of a store carries: B, little-endian (R151). -/
def carrying (g : Group) (m : MemArg) (accs : List LaneAcc) : List LaneAcc :=
  accs.map fun a => { a with data := leBytes (dataOf g m.size.bytes a.lane m.b) m.size.bytes }

/-- B and the new operand of `atom.cas` by lane (R83, R156). -/
def atomicArgs (g : Group) (m : MemArg) (c : Option Reg) (accs : List LaneAcc) : List (Nat × Dword × Dword) :=
  accs.map fun a => (a.lane, (g.data m.size.bytes a.lane m.b).truncate 64, (g.data m.size.bytes a.lane c).truncate 64)

/-- The run goes on once its requests have their places in the replay windows, and waits until then (R290). -/
def GoesOnce (i : Instr) (s t : State) (q : Issue) (g : Group) (h : Hdr) : Prop :=
  match t.overrun s g.info.core with
  | none => GoOn t q fun _ => nextPc h q
  | some k => ∃ b, t.group? q.gid = some b ∧ ∀ l, q.lanes.getLsbD l = true →
      ∃ w, StandsIn b l q.pc (.waiting w) ∧ w.why = .window k ∧ w.ins = some i

/-- A MEM instruction on global addresses begins its operation: with no lane it only goes on; with every lane's access free of
causes the operation begins, and the run goes on. -/
def GlobalBegins (i : Hdr → MemArg → Instr) (acc : Access) (rule : MemArg → TypeRule)
    (op : Issue → Group → Hdr → MemArg → List LaneAcc → MemOp)
    (starts : State → State → Issue → Group → MemOp → Prop) (s : State) (q : Issue) (g : Group) (h : Hdr) (m : MemArg) : Prop :=
  Issues s (i h m) q g →
    (acts h q g = 0 → Completes (i h m) s fun t => GoOn t q (fun _ => nextPc h q) ∧ OnlyRuns s t q g) ∧
    ∀ x : Nat → Xlated, acts h q g ≠ 0 → (∀ l ∈ actors h q g, Reaches s q g acc (rule m) (m.gaddr g l) m.size.bytes (x l)) →
      Completes (i h m) s fun t => GoesOnce (i h m) s t q g h ∧ starts s t q g (op q g h m (globalAccs h q g m x))

/-- The same on scratchpad addresses. -/
def SpadBegins (i : Hdr → MemArg → Instr) (rd wr : Bool) (op : Issue → Group → Hdr → MemArg → List LaneAcc → MemOp)
    (goes : State → Issue → Group → Hdr → MemArg → Prop) (starts : State → State → Issue → Group → MemOp → Prop)
    (s : State) (q : Issue) (g : Group) (h : Hdr) (m : MemArg) : Prop :=
  Issues s (i h m) q g →
    (acts h q g = 0 → Completes (i h m) s fun t => GoOn t q (fun _ => nextPc h q) ∧ OnlyRuns s t q g) ∧
    ∀ x : Nat → Nat × Nat × Nat × Nat, acts h q g ≠ 0 →
      (∀ l ∈ actors h q g, Targets s q g rd wr (m.saddr g l) m.size.bytes (x l).1 (x l).2.1 (x l).2.2.1 (x l).2.2.2) →
      Completes (i h m) s fun t => goes t q g h m ∧ starts s t q g (op q g h m (spadAccs h q g m x))

/-- The run goes on. -/
def passes (t : State) (q : Issue) (_ : Group) (h : Hdr) (_ : MemArg) : Prop := GoOn t q fun _ => nextPc h q

/-- The run waits at the instruction until its lanes have completed (R153). -/
def waitsFor (i : Hdr → MemArg → Instr) (t : State) (q : Issue) (_ : Group) (h : Hdr) (m : MemArg) : Prop :=
  ∃ k, t.group? q.gid = some k ∧ ∀ l, q.lanes.getLsbD l = true →
    ∃ w, StandsIn k l q.pc (.waiting w) ∧ w.why = .ops ∧ w.ins = some (i h m)

-- Results of loads

/-- The value that a lane of a load receives (R151): little-endian; below 32 bits extended by sign or by zeros. -/
def loadValue (size : Nat) (sx : Bool) (bs : List Byte) : Quad :=
  let n := leNat bs
  if sx && size == 1 then ((BitVec.ofNat 8 n).signExtend 32).zeroExtend 128
  else if sx && size == 2 then ((BitVec.ofNat 16 n).signExtend 32).zeroExtend 128
  else BitVec.ofNat 128 n

/-- A destination of 1, 2 or 4 registers reads a value in a lane. -/
def Holds (k : Group) (n l : Nat) (d : Reg) (v : Quad) : Prop :=
  if n = 16 then k.rd128 l d = v else if n = 8 then k.rd64 l d = v.truncate 64 else k.rd32 l d = v.truncate 32

/-- The registers of a destination of `n` bytes exist: it stands at a multiple of its width (R71). -/
def fits (n : Nat) : Reg → Prop
  | .v r => r.val % (if n = 16 then 4 else if n = 8 then 2 else 1) = 0
  | .o r => r.val % (if n = 16 then 4 else if n = 8 then 2 else 1) = 0
  | _ => False

-- Bytes of memory

/-- A range of bytes at its home slice reads as a list, and every other byte reads as before: under the same key id everywhere,
under every key id on the lines outside the range. -/
def HomeWritten (m m' : MemSys) (key pa : Nat) (bs : List Byte) : Prop :=
  (∀ i, i < bs.length → m'.byte key (pa + i) = bs.getD i 0) ∧
  (∀ p, (p < pa ∨ pa + bs.length ≤ p) → m'.byte key p = m.byte key p) ∧
  (∀ k p, p / 256 < pa / 256 ∨ (pa + bs.length - 1) / 256 < p / 256 → m'.byte k p = m.byte k p)

/-- A range of a scratchpad holds a list, its granules the swizzle tag 0; every other byte, and every full bit, is as it was. -/
def SpadWritten (p p' : Spad) (off : Nat) (bs : List Byte) : Prop :=
  (∀ i, i < bs.length → p'.byte (off + i) = bs.getD i 0 ∧ p'.tagOf (off + i) = 0) ∧
  (∀ a, (a < off ∨ off + bs.length ≤ a) → p'.byte a = p.byte a) ∧ ∀ a, p'.isFull a = p.isFull a

/-- The request at the head of a core's flowing path to a slice (R290). -/
def Heads (s : State) (core slice : Nat) (r : Req) (rest : List Req) : Prop :=
  ((s.core core).paths.get Path.reset slice).st = .flowing ∧ ((s.core core).paths.get Path.reset slice).window = r :: rest

/-- What is outstanding of a lane's access. -/
def Outstanding (s : State) (id lane : Nat) (o : MemOp) (a : LaneAcc) : Prop :=
  s.ops.find id = some o ∧ o.accs.find? (fun b => b.lane == lane && !b.done) = some a

/-- A lane's access has its answer: the operation says so, or it has ended and its counter has fallen (R76). -/
def Answered (s t : State) (id lane : Nat) (o : MemOp) (back : Option (List Byte)) (err : Option Cause) : Prop :=
  (∃ p b, t.ops.find id = some p ∧ b ∈ p.accs ∧ b.lane = lane ∧ b.done = true ∧ b.back = back ∧ b.err = err) ∨
  (t.ops.find id = none ∧ ∀ g, s.group? o.gid = some g → ∃ k, t.group? o.gid = some k ∧ k.ctr o.ctr = g.ctr o.ctr - 1)

/-- What of a request stays when it is sent again (R290). -/
def again (r : Req) : Req := { r with due := 0 }

/-- Writes of a phase among requests (R229). -/
def writesIn (rs : List Req) (phase : Nat) : Nat := (rs.filter fun r => r.kind.isWrite && r.phase == phase).length

/-- A close message reaches a slice: it has not yet, and no request of its phase is ahead of it on the path (R229, R311). -/
def ClosesAt (s : State) (core slice : Nat) (k : Close) : Prop :=
  slice ∉ k.reached ∧ ¬ ((pathOf s core slice).st = .flowing ∧ ∃ r ∈ (pathOf s core slice).all, r.phase = k.phase)

/-- A slice can answer a close: its count is the number announced (R229). -/
def CountsMatch (s : State) (core slice : Nat) (k : Close) : Prop :=
  slice ∈ k.reached ∧ slice ∉ k.answered ∧ s.msys.counts.get 0 (countKey core k.phase slice) = k.announced.get 0 slice

end Sys2Proof.Safety
end

