-- ==== Sys2Proof/Safety/Values.lean ====
section
/-! DEFINITION. What the computing instructions compute, said of integers, bits and rational numbers and not of the functions that
the machine evaluates: the relations that the statements about results use. -/

namespace Sys2Proof.Safety

open Sys2Proof.Machine

/-- A rule for one lane: the group, the issue, the lane, the operands A, B and C, the result and the exception flags. -/
abbrev LaneRule := Group → Issue → Nat → Arith → Dword → Dword → Dword → Dword → Fl → Prop

-- Integers (R49, R99, R110)

def elemWidth (t : Ty) : Nat := (intShape t).2.1
def elemCount (t : Ty) : Nat := (intShape t).2.2

/-- The integer that `w` bits denote. -/
def intOf (signed : Bool) {w : Nat} (b : BitVec w) : Int := if signed then b.toInt else b.toNat

/-- Element `e` of a value of an integer TYPE (R49). -/
def element (t : Ty) (e : Nat) (x : Dword) : Int := intOf (intShape t).1 (x.extractLsb' (elemWidth t * e) (elemWidth t))

def least (t : Ty) : Int := if (intShape t).1 then -(2 ^ (elemWidth t - 1)) else 0
def greatest (t : Ty) : Int := if (intShape t).1 then 2 ^ (elemWidth t - 1) - 1 else 2 ^ elemWidth t - 1
def clamp (t : Ty) (x : Int) : Int := max (least t) (min x (greatest t))

/-- R110: each element from the exact integer: wrapped, or with SAT clamped, when a clamp that changes a value raises ISAT. -/
def integerRule (f : Nat → Int → Int → Int → Int) : LaneRule := fun _ _ _ a u v w d fl =>
  let x (e : Nat) : Int := f (elemWidth a.ty) (element a.ty e u) (element a.ty e v) (element a.ty e w)
  (∀ e, e < elemCount a.ty →
    if a.sat then element a.ty e d = clamp a.ty (x e)
    else d.extractLsb' (elemWidth a.ty * e) (elemWidth a.ty) = BitVec.ofInt (elemWidth a.ty) (x e)) ∧
  fl = if a.sat && (List.range (elemCount a.ty)).any (fun e => clamp a.ty (x e) != x e) then flISAT else 0

-- Bits (R111 to R118)

/-- The bits of a TYPE: 64 or 32. -/
def bitWidth (t : Ty) : Nat := if t.is64 then 64 else 32

/-- R111: a function of the bits of the operands. -/
def bitsRule (f : (w : Nat) → BitVec w → BitVec w → BitVec w) : LaneRule := fun _ _ _ a u v _ d fl =>
  d.truncate (bitWidth a.ty) = f (bitWidth a.ty) (u.truncate _) (v.truncate _) ∧ fl = 0

/-- R112: each element moved by its count: the element of B for the packed types, B as 32 bits for the others. -/
def shiftRule (f : (w : Nat) → BitVec w → Nat → BitVec w) : LaneRule := fun _ _ _ a u v _ d fl =>
  (∀ e, e < elemCount a.ty →
    let n := if elemCount a.ty = 2 then (v.extractLsb' (16 * e) 16).toNat else (v.truncate 32).toNat
    d.extractLsb' (elemWidth a.ty * e) (elemWidth a.ty) = f (elemWidth a.ty) (u.extractLsb' (elemWidth a.ty * e) _) n) ∧ fl = 0

/-- R113. -/
def popcRule : LaneRule := fun _ _ _ a u _ _ d fl =>
  d.truncate 32 = BitVec.ofNat 32 ((List.range (bitWidth a.ty)).countP (u.getLsbD ·)) ∧ fl = 0

def clzRule : LaneRule := fun _ _ _ a u _ _ d fl =>
  fl = 0 ∧ ∃ n, n ≤ bitWidth a.ty ∧ d.truncate 32 = BitVec.ofNat 32 n ∧
    (∀ i, bitWidth a.ty - n ≤ i → i < bitWidth a.ty → u.getLsbD i = false) ∧
    (n < bitWidth a.ty → u.getLsbD (bitWidth a.ty - 1 - n) = true)

def brevRule : LaneRule := fun _ _ _ a u _ _ d fl =>
  fl = 0 ∧ ∀ i, i < bitWidth a.ty → d.getLsbD i = u.getLsbD (bitWidth a.ty - 1 - i)

/-- R114: the field word F: position and length. -/
def fieldPos (f : Dword) : Nat := (f.extractLsb' 0 8).toNat
def fieldLen (f : Dword) : Nat := (f.extractLsb' 8 8).toNat

def bfeRule : LaneRule := fun _ _ _ a u f _ d fl =>
  let w := bitWidth a.ty
  let len := min (fieldLen f) (w - fieldPos f)
  fl = 0 ∧ d.truncate w =
    if fieldPos f ≥ w ∨ fieldLen f = 0 then 0
    else if (intShape a.ty).1 then (u.extractLsb' (fieldPos f) len).signExtend w else (u.extractLsb' (fieldPos f) len).zeroExtend w

def bfiRule : LaneRule := fun _ _ _ a u v f d fl =>
  fl = 0 ∧ ∀ i, i < bitWidth a.ty →
    d.getLsbD i = if fieldPos f ≤ i ∧ i < fieldPos f + fieldLen f then v.getLsbD (i - fieldPos f) else u.getLsbD i

def selRule : LaneRule := fun _ _ _ a u v w d fl =>
  d.truncate (bitWidth a.ty) = (if u.truncate 32 = (0 : Word) then w else v).truncate _ ∧ fl = 0

/-- R81 for integers. -/
def holds (cond : Nat) (x y : Int) : Prop :=
  match cond with
  | 0 => x = y
  | 1 => x ≠ y
  | 2 => x < y
  | 3 => x ≤ y
  | 4 => x > y
  | _ => x ≥ y

/-- A predicate result: 1 or 0. -/
def isBit (d : Dword) (p : Prop) : Prop := (p → d = 1) ∧ (¬ p → d = 0)

def icmpRule : LaneRule := fun _ _ _ a u v _ d fl =>
  isBit d (holds a.sub.toNat (element a.ty 0 u) (element a.ty 0 v)) ∧ fl = 0

/-- R117. -/
def leaRule : LaneRule := fun _ _ _ a u v _ d fl =>
  let b : Int := intOf (a.ty == .i32) (v.truncate 32)
  d = u + BitVec.ofInt 64 (b * 2 ^ a.sub.toNat) ∧ fl = 0

def movRule : LaneRule := fun _ _ _ a u _ _ d fl => d.truncate (bitWidth a.ty) = u.truncate _ ∧ fl = 0

-- Predicates (R108)

def predRule (f : Dword → Dword → Prop) : LaneRule := fun _ _ _ _ u v _ d fl => isBit d (f u v) ∧ fl = 0

-- Rounding of quotients (R40)

/-- `x` is the exact quotient n / m rounded to an integer. -/
def RoundedQuotient (rnd : Rnd) (n : Int) (m : Nat) (x : Int) : Prop :=
  match rnd with
  | .rm => x * m ≤ n ∧ n < (x + 1) * m
  | .rp => (x - 1) * m < n ∧ n ≤ x * m
  | .rz => (0 ≤ n → x * m ≤ n ∧ n < (x + 1) * m) ∧ (n ≤ 0 → (x - 1) * m < n ∧ n ≤ x * m)
  | .rne => 2 * (n - x * m).natAbs ≤ m ∧ (2 * (n - x * m).natAbs = m → x % 2 = 0)

-- Pixels (R119 to R126)

/-- R120. -/
def pxextRule : LaneRule := fun _ _ _ a u v _ d fl =>
  let n := sampleBits a.ty
  let o := (v.extractLsb' 0 5).toNat
  fl = 0 ∧ d.truncate 32 =
    if a.sub = 0#4 then (u.extractLsb' o n).zeroExtend 32
    else ((u.extractLsb' (o + n) n).zeroExtend 16 ++ (u.extractLsb' o n).zeroExtend 16 : Word)

/-- R121. -/
def pxinsRule : LaneRule := fun _ _ _ a u v w d fl =>
  let n := sampleBits a.ty
  let o := (w.extractLsb' 0 5).toNat
  let b := (v.truncate 32).toNat
  let p := if a.sat then min b (2 ^ n - 1) else b % 2 ^ n
  (∀ i, i < 64 → d.getLsbD i = if o ≤ i ∧ i < o + n then p.testBit (i - o) else u.getLsbD i) ∧
  fl = if a.sat && decide (b > 2 ^ n - 1) then flISAT else 0

/-- Each element of a packed pixel result from the elements of the operands. -/
def pixelRule (f : Rnd → Int → Int → Int → Int → Prop) : LaneRule := fun _ _ _ a u v w d fl =>
  (∀ e, e < elemCount a.ty → f a.rnd (element a.ty e u) (element a.ty e v) (element a.ty e w) (element a.ty e d)) ∧ fl = 0

/-- A sum of products or differences into 32 bits, wrapped, or with SAT clamped (R123, R126). -/
def sumRule (t : Ty) (f : Arith → Dword → Dword → Nat → Int) (n : Arith → Nat) : LaneRule := fun _ _ _ a u v c d fl =>
  let ty := if (intShape a.ty).1 then Ty.i32 else t
  let x := element ty 0 c + ((List.range (n a)).map (f a u v)).sum
  (if a.sat then element ty 0 d = clamp ty x else d.truncate 32 = BitVec.ofInt 32 x) ∧
  fl = if a.sat && clamp ty x != x then flISAT else 0

/-- R125: output element i from sample i. -/
def pxnrmRule : LaneRule := fun _ _ _ a u v c d fl =>
  let sample (i : Nat) : Int := if i < 2 then (u.extractLsb' (16 * i) 16).toNat else (v.extractLsb' (16 * (i - 2)) 16).toNat
  let f := (c.extractLsb' 0 16).toInt
  let s := (c.extractLsb' 16 5).toNat
  ∃ x : Nat → Int, (∀ i, i < 4 → RoundedQuotient a.rnd (sample i - f) (2 ^ s) (x i)) ∧
    (∀ i, i < 4 → (d.extractLsb' (8 * i) 8).toInt = max (-128) (min (x i) 127)) ∧
    fl = if (List.range 4).any (fun i => max (-128) (min (x i) 127) != x i) then flISAT else 0

-- Floating point (R38 to R50, R127 to R134)

/-- The value of a finite encoding. -/
def Fp.value : Fp → ℚ
  | .fin neg m e => (if neg then -1 else 1) * m * (2 : ℚ) ^ e
  | _ => 0

def fpValue (f : Fmt) (x : Nat) : ℚ := Fp.value (f.dec x)

def isInf (f : Fmt) (x : Nat) : Prop := f.expo x = f.expMax ∧ f.frac x = 0

/-- The value of the magnitude code k of a format; the code of infinity stands for the value that would follow the greatest. -/
def codeValue (f : Fmt) (k : Nat) : ℚ :=
  if k / 2 ^ f.mb = 0 then k * (2 : ℚ) ^ (1 - (f.bias : Int) - f.mb)
  else (2 ^ f.mb + k % 2 ^ f.mb : Nat) * (2 : ℚ) ^ ((k / 2 ^ f.mb : Nat) - (f.bias : Int) - f.mb)

/-- R40: a magnitude code is the rounding of a positive value: of the code below the value and the next one, the mode's choice. -/
def RoundsTo (f : Fmt) (rnd : Rnd) (neg : Bool) (x : ℚ) (r : Nat) : Prop :=
  ∃ k, k < f.inf false ∧ codeValue f k ≤ x ∧ (x < codeValue f (k + 1) ∨ k + 1 = f.inf false) ∧
    let up : Prop := match rnd with
      | .rz => False
      | .rp => neg = false ∧ codeValue f k < x
      | .rm => neg = true ∧ codeValue f k < x
      | .rne => codeValue f k + codeValue f (k + 1) < 2 * x ∨ (codeValue f k + codeValue f (k + 1) = 2 * x ∧ k % 2 = 1)
    (up → r = k + 1) ∧ (¬ up → r = k)

/-- An exact nonzero value delivered in a format: rounded, with the flags of R42 and the flush of R41, by `Fmt.round`. -/
def Delivers (f : Fmt) (v : FpEnv) (x : ℚ) (r : Nat) (fl : Fl) : Prop :=
  ∃ (m : Nat) (e : Int), 0 < m ∧ |x| = m * (2 : ℚ) ^ e ∧ (r, fl) = f.round v.ftz v.rnd (decide (x < 0)) m e

/-- R47: the first operand that is NaN, made quiet; NV where an operand is signalling, or where `nv` holds as well. -/
def NanResult (f : Fmt) (xs : List Nat) (nv : Prop) (r : Nat) (fl : Fl) : Prop :=
  (∃ x, xs.find? f.isNaN = some x ∧ r = f.quiet x) ∧
  (((∃ x ∈ xs, f.isSNaN x = true) ∨ nv) → fl = flNV) ∧ (¬ ((∃ x ∈ xs, f.isSNaN x = true) ∨ nv) → fl = 0)

/-- A rule for one element: format, environment, the elements of A, B and C after the flush of R41, the result and its flags. -/
abbrev FpRule := Fmt → FpEnv → Nat → Nat → Nat → Nat → Fl → Prop

/-- Each element on its own, the flags united; a scalar result is extended with zeros (R79, R128). -/
def fpRule (rule : FpRule) : LaneRule := fun g q m a u v w d fl =>
  let f := (fpShape a.ty).1
  let n := (fpShape a.ty).2
  let env : FpEnv := { ftz := g.ftz, rnd := a.rnd, lane := m, pc := q.pc }
  let el (x : Dword) (e : Nat) : Nat := (x.extractLsb' (f.w * e) f.w).toNat
  let op (x : Dword) (e : Nat) : Nat := f.flush g.ftz (el x e)
  ∃ fls : Nat → Fl, (∀ e, e < n → rule f env (op u e) (op v e) (op w e) (el d e) (fls e)) ∧
    d.toNat < 2 ^ (f.w * n) ∧ fl = flagsOf (List.range n) fls

def anyNaN (f : Fmt) (xs : List Nat) : Prop := ∃ x ∈ xs, f.isNaN x = true

/-- The sum of two finite values, where `sx` and `sy` are their signs: an exact zero has the sign that R128 gives. -/
def SumOf (f : Fmt) (v : FpEnv) (x y : ℚ) (sx sy : Bool) (r : Nat) (fl : Fl) : Prop :=
  (x + y ≠ 0 → Delivers f v (x + y) r fl) ∧
  (x + y = 0 → fl = 0 ∧ r = f.signBit (if sx = sy then sx else v.rnd == .rm))

def flipSign (f : Fmt) (x : Nat) : Nat := x ^^^ 2 ^ (f.w - 1)

/-- x + y for operands that are not NaN. -/
def addNumbers (f : Fmt) (v : FpEnv) (x y r : Nat) (fl : Fl) : Prop :=
  (isInf f x → isInf f y → f.sign x ≠ f.sign y → r = f.origin v ∧ fl = flNV) ∧
  (isInf f x → (isInf f y → f.sign x = f.sign y) → r = f.inf (f.sign x) ∧ fl = 0) ∧
  (¬ isInf f x → isInf f y → r = f.inf (f.sign y) ∧ fl = 0) ∧
  (¬ isInf f x → ¬ isInf f y → SumOf f v (fpValue f x) (fpValue f y) (f.sign x) (f.sign y) r fl)

def faddRule : FpRule := fun f v x y _ r fl =>
  (anyNaN f [x, y] → NanResult f [x, y] False r fl) ∧ (¬ anyNaN f [x, y] → addNumbers f v x y r fl)

/-- x − y is x + (−y); a NaN keeps its sign (R47). -/
def fsubRule : FpRule := fun f v x y _ r fl =>
  (anyNaN f [x, y] → NanResult f [x, y] False r fl) ∧ (¬ anyNaN f [x, y] → addNumbers f v x (flipSign f y) r fl)

/-- One operand is zero and the other infinite. -/
def zeroTimesInf (f : Fmt) (x y : Nat) : Prop :=
  (isInf f x ∧ ¬ isInf f y ∧ fpValue f y = 0 ∧ f.isNaN y = false) ∨ (isInf f y ∧ ¬ isInf f x ∧ fpValue f x = 0 ∧ f.isNaN x = false)

def fmulRule : FpRule := fun f v x y _ r fl =>
  (anyNaN f [x, y] → NanResult f [x, y] False r fl) ∧
  (¬ anyNaN f [x, y] →
    (zeroTimesInf f x y → r = f.origin v ∧ fl = flNV) ∧
    (¬ zeroTimesInf f x y → (isInf f x ∨ isInf f y) → r = f.inf (f.sign x ^^ f.sign y) ∧ fl = 0) ∧
    (¬ isInf f x → ¬ isInf f y →
      (fpValue f x * fpValue f y ≠ 0 → Delivers f v (fpValue f x * fpValue f y) r fl) ∧
      (fpValue f x * fpValue f y = 0 → r = f.signBit (f.sign x ^^ f.sign y) ∧ fl = 0)))

/-- One rounding of the exact a × b + c. -/
def ffmaRule : FpRule := fun f v x y z r fl =>
  let sp := f.sign x ^^ f.sign y
  (anyNaN f [x, y, z] → NanResult f [x, y, z] (zeroTimesInf f x y) r fl) ∧
  (¬ anyNaN f [x, y, z] →
    (zeroTimesInf f x y → r = f.origin v ∧ fl = flNV) ∧
    (¬ zeroTimesInf f x y → (isInf f x ∨ isInf f y) → isInf f z → sp ≠ f.sign z → r = f.origin v ∧ fl = flNV) ∧
    (¬ zeroTimesInf f x y → (isInf f x ∨ isInf f y) → (isInf f z → sp = f.sign z) → r = f.inf sp ∧ fl = 0) ∧
    (¬ isInf f x → ¬ isInf f y → isInf f z → r = f.inf (f.sign z) ∧ fl = 0) ∧
    (¬ isInf f x → ¬ isInf f y → ¬ isInf f z → SumOf f v (fpValue f x * fpValue f y) (fpValue f z) sp (f.sign z) r fl))

/-- The order of the encodings that are not NaN, −0 below +0 (R129). -/
def below (f : Fmt) (x y : Nat) : Prop :=
  match f.sign x, f.sign y with
  | true, false => True
  | false, true => False
  | false, false => x ≤ y
  | true, true => y ≤ x

/-- R129: with `greater` the greater one. -/
def fminRule (greater : Bool) : FpRule := fun f _ x y _ r fl =>
  (anyNaN f [x, y] → NanResult f [x, y] False r fl) ∧
  (¬ anyNaN f [x, y] → fl = 0 ∧ (r = x ∨ r = y) ∧ if greater then below f x r ∧ below f y r else below f r x ∧ below f r y)

/-- R130. -/
def fabsRule : FpRule := fun f _ x _ _ r fl =>
  (anyNaN f [x] → NanResult f [x] False r fl) ∧ (¬ anyNaN f [x] → fl = 0 ∧ r = x % 2 ^ (f.w - 1))

def fnegRule : FpRule := fun f _ x _ _ r fl =>
  (anyNaN f [x] → NanResult f [x] False r fl) ∧ (¬ anyNaN f [x] → fl = 0 ∧ r = flipSign f x)

/-- Sign and magnitude as one integer: the order of R81, in which −0 and +0 are equal. -/
def fpKey (f : Fmt) (x : Nat) : Int := if f.sign x then -((x % 2 ^ (f.w - 1) : Nat) : Int) else (x % 2 ^ (f.w - 1) : Nat)

/-- R81 and R131. -/
def fcmpRule : LaneRule := fun g _ _ a u v _ d fl =>
  let f := (fpShape a.ty).1
  let x := f.flush g.ftz (u.extractLsb' 0 f.w).toNat
  let y := f.flush g.ftz (v.extractLsb' 0 f.w).toNat
  let uno := anyNaN f [x, y]
  let c := a.sub.toNat
  let quietCond := c = 0 ∨ c = 1 ∨ c = 6 ∨ c = 7
  isBit d (match c with
    | 6 => ¬ uno
    | 7 => uno
    | 1 => uno ∨ fpKey f x ≠ fpKey f y
    | c => ¬ uno ∧ holds c (fpKey f x) (fpKey f y)) ∧
  ((if quietCond then ∃ z ∈ [x, y], f.isSNaN z = true else uno) → fl = flNV) ∧
  (¬ (if quietCond then ∃ z ∈ [x, y], f.isSNaN z = true else uno) → fl = 0)

/-- R132: exactly the bit of the operand's class (R39). -/
def fclassRule : LaneRule := fun _ _ _ a u _ _ d fl =>
  let f := (fpShape a.ty).1
  let x := (u.extractLsb' 0 f.w).toNat
  let top := f.expo x = f.expMax
  let low := f.expo x = 0
  fl = 0 ∧ ∃ n, d = BitVec.ofNat 64 (2 ^ n) ∧
    (top → f.frac x = 0 → n = if f.sign x then 0 else 7) ∧
    (top → f.frac x ≠ 0 → n = if f.frac x < 2 ^ (f.mb - 1) then 8 else 9) ∧
    (low → f.frac x = 0 → n = if f.sign x then 3 else 4) ∧
    (low → f.frac x ≠ 0 → n = if f.sign x then 2 else 5) ∧
    (¬ top → ¬ low → n = if f.sign x then 1 else 6)

/-- The special operands of R134 for a function of one FP32 operand: what ±0, ±∞ and a negative finite operand give, each as
the result (none: the NaN of R46) and the flags; a NaN is made quiet (R47). `negative` none: as R133 gives. -/
structure Special where
  zero : Bool → Option Nat × Fl
  inf : Bool → Option Nat × Fl
  negative : Option (Option Nat × Fl)

def specialRule (sp : Special) : LaneRule := fun g q m _ u _ _ d fl =>
  let x := fmt32.flush g.ftz (u.extractLsb' 0 32).toNat
  let r := (d.truncate 32 : Word).toNat
  let gives (p : Option Nat × Fl) : Prop :=
    fl = p.2 ∧ r = p.1.getD (fmt32.origin { ftz := g.ftz, rnd := .rne, lane := m, pc := q.pc })
  (fmt32.isNaN x = true → NanResult fmt32 [x] False r fl) ∧
  (isInf fmt32 x → gives (sp.inf (fmt32.sign x))) ∧
  (x % 2 ^ 31 = 0 → gives (sp.zero (fmt32.sign x))) ∧
  (∀ p, sp.negative = some p → fmt32.sign x = true → x % 2 ^ 31 ≠ 0 → fmt32.expo x ≠ 255 → gives p)

def plusInf : Nat := 0x7F800000
def minusInf : Nat := 0xFF800000
def plusOne : Nat := 0x3F800000
def minusZero : Nat := 0x80000000
def invalid : Option Nat × Fl := (none, flNV)

/-- The table of R134. -/
def frcpSpecial : Special :=
  { zero := fun s => (some (if s then minusInf else plusInf), flDZ), inf := fun s => (some (if s then minusZero else 0), 0), negative := none }
def frsqSpecial : Special :=
  { zero := fun s => (some (if s then minusInf else plusInf), flDZ), inf := fun s => if s then invalid else (some 0, 0), negative := some invalid }
def fex2Special : Special :=
  { zero := fun _ => (some plusOne, 0), inf := fun s => (some (if s then 0 else plusInf), 0), negative := none }
def flg2Special : Special :=
  { zero := fun _ => (some minusInf, flDZ), inf := fun s => if s then invalid else (some plusInf, 0), negative := some invalid }
def fsinSpecial : Special := { zero := fun s => (some (if s then minusZero else 0), 0), inf := fun _ => invalid, negative := none }
def fcosSpecial : Special := { zero := fun _ => (some plusOne, 0), inf := fun _ => invalid, negative := none }

/-- R133: the reciprocal of a power of two whose reciprocal is normal is exact. -/
def reciprocalOfPower : LaneRule := fun g _ _ _ u _ _ d fl =>
  let x := fmt32.flush g.ftz (u.extractLsb' 0 32).toNat
  fmt32.frac x = 0 → 1 ≤ fmt32.expo x → fmt32.expo x ≤ 253 →
    (d.truncate 32 : Word).toNat = fmt32.signBit (fmt32.sign x) + (254 - fmt32.expo x) * 2 ^ 23 ∧ fl = 0

/-- A code delivers a value within so many units in the last place of the value's binade (R133); an infinity, one that such an error carries past
the greatest number. -/
def WithinUlps (ulps y : ℝ) (r : Nat) : Prop :=
  (fmt32.expo r = 255 → fmt32.frac r = 0 ∧ (fmt32.sign r = true ↔ y < 0) ∧ (2 : ℝ) ^ 128 - ulps * 2 ^ 104 ≤ |y|) ∧
  (fmt32.expo r ≠ 255 → ∀ k : ℤ, (2 : ℝ) ^ k ≤ |y| → |y| < (2 : ℝ) ^ (k + 1) → |((fpValue fmt32 r : ℚ) : ℝ) - y| ≤ ulps * (2 : ℝ) ^ (max k (-126) - 23))

/-- What R133 says of an approximated function at a finite operand that is not zero: the flush mode, the operand, the result and its flags. -/
abbrev Bound := Bool → ℝ → Nat → Fl → Prop

def approximates (keeps : Bound) : LaneRule := fun g _ _ _ u _ _ d fl =>
  let x := fmt32.flush g.ftz (u.extractLsb' 0 32).toNat
  fmt32.expo x ≠ 255 → x % 2 ^ 31 ≠ 0 → keeps g.ftz ((fpValue fmt32 x : ℚ) : ℝ) (d.truncate 32 : Word).toNat fl

/-- The result is exact and raises nothing. -/
def Exact (y : ℝ) (r : Nat) (fl : Fl) : Prop := fmt32.expo r ≠ 255 ∧ ((fpValue fmt32 r : ℚ) : ℝ) = y ∧ fl = 0

/-- The result is no exact value: NX is raised. -/
def Inexact (fl : Fl) : Prop := fl &&& flNX = flNX

/-- `frcp`: 1 ulp; exact at powers of two. A subnormal result may be flushed (R41). -/
def frcpBound : Bound := fun ftz x r fl =>
  ((ftz = false ∨ fmt32.expo r ≠ 0) → WithinUlps 1 (1 / x) r) ∧
  ((∃ k : ℤ, |x| = (2 : ℝ) ^ k ∧ -127 ≤ k ∧ (ftz = false ∨ k ≤ 126)) → Exact (1 / x) r fl) ∧ ((¬ ∃ k : ℤ, |x| = (2 : ℝ) ^ k) → Inexact fl)

/-- `frsq`: 2 ulp; exact at powers of four. -/
def frsqBound : Bound := fun _ x r fl => 0 < x →
  WithinUlps 2 (1 / Real.sqrt x) r ∧ (∀ k : ℤ, x = (4 : ℝ) ^ k → Exact ((2 : ℝ) ^ (-k)) r fl) ∧ ((¬ ∃ k : ℤ, x = (4 : ℝ) ^ k) → Inexact fl)

/-- `fex2`: 2 ulp, measured from a value of the function that is itself computed (log 7); exact at integers. -/
def fex2Bound : Bound := fun ftz x r fl =>
  ((ftz = false ∨ fmt32.expo r ≠ 0) → WithinUlps (2 + 1 / 2 ^ 50) ((2 : ℝ) ^ x) r) ∧
  (∀ k : ℤ, x = k → -149 ≤ k → k ≤ 127 → (ftz = false ∨ -126 ≤ k) → Exact ((2 : ℝ) ^ k) r fl) ∧ ((¬ ∃ k : ℤ, x = k) → Inexact fl)

/-- `flg2`: an absolute error of 2^-22 from 1/2 to 2, 2 ulp elsewhere, measured as for `fex2`; exact at powers of two. -/
def flg2Bound : Bound := fun _ x r fl => 0 < x →
  (1 / 2 ≤ x → x ≤ 2 → fmt32.expo r ≠ 255 ∧ |((fpValue fmt32 r : ℚ) : ℝ) - Real.logb 2 x| ≤ 1 / 2 ^ 22 + 1 / 2 ^ 50) ∧
  ((x < 1 / 2 ∨ 2 < x) → WithinUlps (2 + 1 / 2 ^ 50) (Real.logb 2 x) r) ∧
  (∀ k : ℤ, x = (2 : ℝ) ^ k → Exact k r fl) ∧ ((¬ ∃ k : ℤ, x = (2 : ℝ) ^ k) → Inexact fl)

/-- `fsin` and `fcos`: an absolute error of 2^-21 up to 1,024 π, measured as for `fex2`, and beyond that a value from -1 to 1. -/
def trigBound (f : ℝ → ℝ) : Bound := fun _ x r fl =>
  fmt32.expo r ≠ 255 ∧ Inexact fl ∧
  (|x| ≤ 1024 * Real.pi → |((fpValue fmt32 r : ℚ) : ℝ) - f x| ≤ 1 / 2 ^ 21 + 1 / 2 ^ 50) ∧ (1024 * Real.pi < |x| → |((fpValue fmt32 r : ℚ) : ℝ)| ≤ 1)

-- Conversions (R48, R50, R135 to R137)

/-- One value between two types (R50): `x` the bits of the source element, `r` the bits of the destination element. -/
def convertRule (v : FpEnv) (dt st : Ty) (x r : Nat) (fl : Fl) : Prop :=
  let fs := (fpShape st).1
  let fd := (fpShape dt).1
  let z := fs.flush v.ftz x
  let int (w : Nat) (y : Nat) (t : Ty) : Int := intOf (intShape t).1 (BitVec.ofNat w y)
  let i : Int := int (elemWidth st) x st
  let out : Int := int (elemWidth dt) r dt
  match dt.isFp, st.isFp with
  | true, true =>
    (fs.isNaN z = true → r = cvtNaN fs fd z ∧ fl = (if fs.isSNaN z then flNV else 0)) ∧
    (isInf fs z → r = fd.inf (fs.sign z) ∧ fl = 0) ∧
    (fs.isNaN z = false → ¬ isInf fs z → (fpValue fs z = 0 → r = fd.signBit (fs.sign z) ∧ fl = 0) ∧
      (fpValue fs z ≠ 0 → Delivers fd v (fpValue fs z) r fl))
  | true, false => (i = 0 → r = 0 ∧ fl = 0) ∧ (i ≠ 0 → Delivers fd v i r fl)
  | false, true =>
    (fs.isNaN z = true → out = 0 ∧ fl = flNV) ∧
    (isInf fs z → out = (if fs.sign z then least dt else greatest dt) ∧ fl = flNV) ∧
    (fs.isNaN z = false → ¬ isInf fs z → ∀ (n : Int) (m : Nat) (k : Int), fpValue fs z = n / m → 0 < m → RoundedQuotient v.rnd n m k →
      out = clamp dt k ∧ fl = if clamp dt k ≠ k then flNV else if k * m ≠ n then flNX else 0)
  | false, false =>
    if elemWidth st < elemWidth dt then (r : Int) = i % 2 ^ elemWidth dt ∧ fl = 0
    else out = clamp dt i ∧ fl = if clamp dt i ≠ i then flISAT else 0

/-- R135, R136: `cvt` of the selected element; a narrow result is extended to the register (R49, R79). -/
def cvtRule (g : Group) (q : Issue) (m : Nat) (c : Cvt) (u d : Dword) (fl : Fl) : Prop :=
  let env : FpEnv := { ftz := g.ftz, rnd := c.rnd, lane := m, pc := q.pc }
  let w := cvtWidth c.dty
  ∃ r, r < 2 ^ w ∧ convertRule env c.dty c.sty (u.extractLsb' (cvtWidth c.sty * c.elem.toNat) (cvtWidth c.sty)).toNat r fl ∧
    d.truncate (bitWidth c.dty) =
      if c.dty.isFp || !(intShape c.dty).1 then BitVec.ofNat _ r else (BitVec.ofNat w r).signExtend _

/-- R137: two or four values packed. -/
def cvpkRule (g : Group) (q : Issue) (m : Nat) (c : Cvt) (u v d : Dword) (fl : Fl) : Prop :=
  let env : FpEnv := { ftz := g.ftz, rnd := c.rnd, lane := m, pc := q.pc }
  let four := c.sty == .i16x2
  let n := if four then 4 else 2
  let w := if four then 8 else 16
  let source (i : Nat) : Nat :=
    if four then (if i < 2 then (u.extractLsb' (16 * i) 16).toNat else (v.extractLsb' (16 * (i - 2)) 16).toNat)
    else if i = 0 then (u.truncate 32 : Word).toNat else (v.truncate 32 : Word).toNat
  ∃ fls : Nat → Fl, (∀ i, i < n → convertRule env (elemTy c.dty) (elemTy c.sty) (source i) (d.extractLsb' (w * i) w).toNat (fls i)) ∧
    fl = flagsOf (List.range n) fls

/-- What a conversion does at each issue, while no class of exception traps. -/
def Converts (mk : Hdr → Cvt → Instr) (w : Cvt → Nat) (rule : Group → Issue → Nat → Cvt → Dword → Dword → Dword → Fl → Prop) : Prop :=
  ∀ s q g h c, Issues s (mk h c) q g → (mk h c).wf = true → Untrapped g →
    ∃ (res : Nat → Dword) (fl : Nat → Fl),
      (∀ l, (acts h q g).getLsbD l = true →
        let m := source h q g l
        rule g q m c (Cvt.vals c g m).1 (Cvt.vals c g m).2 (res l) (fl l)) ∧
      Completes (mk h c) s fun t => Lands t h q g (w c) c.d res ∧
        Raises t q g (flagsOf (laneList (acts h q g)) fl) ∧ ResultFrame s t h q g (w c) c.d

-- Cross-lane instructions (R138 to R143)

/-- A rule between the participants: the group, the issue, the participants, the lane whose operands each holds, operands A and B
by lane, a lane, its result and flags. -/
abbrev CrossRule := Group → Issue → Lanes → (Nat → Nat) → Arith → (Nat → Dword) → (Nat → Dword) → Nat → Dword → Fl → Prop

/-- What a cross-lane instruction does at each issue: a rule between the participants, the operands that each holds (with U = 1
those of the lowest one), and the result in one of them. -/
def Crosses (mk : Hdr → Arith → Instr) (sp : ArithSpec) (pre : Group → Arith → Prop)
    (rule : CrossRule) : Prop :=
  ∀ s q g h a, Issues s (mk h a) q g → (mk h a).wf = true → pre g a →
    ∃ (res : Nat → Dword) (fl : Nat → Fl),
      (∀ l, (acts h q g).getLsbD l = true →
        rule g q (acts h q g) (source h q g) a (fun k => (a.vals sp g (source h q g k)).1) (fun k => (a.vals sp g (source h q g k)).2.1) l (res l) (fl l)) ∧
      Completes (mk h a) s fun t => Lands t h q g (sp.dst a.ty).width a.d res ∧
        Raises t q g (flagsOf (laneList (acts h q g)) fl) ∧ ResultFrame s t h q g (sp.dst a.ty).width a.d

/-- The lane that R139 names, if there is one of that number. -/
def shflSource (mode : Nat) (l : Nat) (b : Nat) : Int :=
  match mode with
  | 0 => b
  | 1 => (l : Int) - b
  | 2 => l + b
  | _ => (l ^^^ b : Nat)

def shflRule : CrossRule := fun _ _ ls _ a A B l d fl =>
  let src := shflSource a.sub.toNat l (B l |>.truncate 32 : Word).toNat
  fl = 0 ∧ (∀ m : Nat, ls.getLsbD m = true → src = m → d = A m) ∧ ((∀ m : Nat, ls.getLsbD m = true → src ≠ m) → d = A l)

def voteRule : CrossRule := fun _ _ ls _ a A _ _ d fl =>
  fl = 0 ∧ isBit d (match a.sub.toNat with
    | 0 => ∃ m, ls.getLsbD m = true ∧ (A m).truncate 32 ≠ (0 : Word)
    | 1 => ∀ m, ls.getLsbD m = true → (A m).truncate 32 ≠ (0 : Word)
    | _ => ∀ m k, ls.getLsbD m = true → ls.getLsbD k = true → A m = A k)

def ballotRule : CrossRule := fun _ _ ls _ a A _ _ d fl =>
  fl = 0 ∧ ∀ m, m < bitWidth a.ty → (d.getLsbD m = true ↔ ls.getLsbD m = true ∧ (A m).truncate 32 ≠ (0 : Word))

/-- One step of an integer fold (R142). -/
def stepOf (op : Nat) (t : Ty) (x y : Dword) : Dword :=
  match op with
  | 0 => x + y
  | 1 => if element t 0 x ≤ element t 0 y then x else y
  | 2 => if element t 0 x ≥ element t 0 y then x else y
  | 3 => x &&& y
  | 4 => x ||| y
  | _ => x ^^^ y

/-- The fold of R143 over the participants up to a lane, in ascending order. -/
def foldUpTo (op : Nat) (t : Ty) (ls : Lanes) (A : Nat → Dword) (l : Nat) : Dword :=
  match (laneList ls).filter (· ≤ l) with
  | [] => 0
  | p :: ps => ps.foldl (fun acc k => stepOf op t acc (A k)) (A p)

/-- The exact sum of the participants up to a lane (R143, with SAT). -/
def sumUpTo (t : Ty) (ls : Lanes) (A : Nat → Dword) (l : Nat) : Int := (((laneList ls).filter (· ≤ l)).map fun k => element t 0 (A k)).sum

/-- The value before the first participant (R142). -/
def identityOf (op : Nat) (t : Ty) : Dword :=
  match op with
  | 1 => BitVec.ofInt 64 (greatest t)
  | 2 => BitVec.ofInt 64 (least t)
  | 3 => BitVec.allOnes 64
  | _ => 0

/-- The total or prefix at lane `l` of an integer fold (R142, R143). -/
def foldValue (a : Arith) (ls : Lanes) (A : Nat → Dword) (l : Nat) (d : Dword) (fl : Fl) : Prop :=
  if a.sat then
    element a.ty 0 d = clamp a.ty (sumUpTo a.ty ls A l) ∧ fl = (if clamp a.ty (sumUpTo a.ty ls A l) ≠ sumUpTo a.ty ls A l then flISAT else 0)
  else d.truncate (bitWidth a.ty) = (foldUpTo (a.sub.toNat % 8) a.ty ls A l).truncate _ ∧ fl = 0

/-- The fold of R143 in FP32: the values `out` and flags of each step; the flags of all steps are united. -/
def floatFold (g : Group) (q : Issue) (ls : Lanes) (src : Nat → Nat) (a : Arith) (A : Nat → Dword) (out : Nat → Nat) (fl : Fl) : Prop :=
  let env (k : Nat) : FpEnv := { ftz := g.ftz, rnd := a.rnd, lane := src k, pc := q.pc }
  let val (k : Nat) : Nat := fmt32.flush g.ftz (A k |>.truncate 32 : Word).toNat
  ∃ fls : Nat → Fl, fl = flagsOf (laneList ls) fls ∧ ∀ i k, (laneList ls)[i]? = some k →
    match i with
    | 0 => out k = fmt32.quiet (val k) ∧ fls k = if fmt32.isSNaN (val k) then flNV else 0
    | i + 1 => ∀ j, (laneList ls)[i]? = some j →
      let acc := fmt32.flush g.ftz (out j)
      if a.sub.toNat % 8 = 0 then faddRule fmt32 (env k) acc (val k) 0 (out k) (fls k)
      else fminRule (a.sub.toNat % 8 == 2) fmt32 (env k) acc (val k) 0 (out k) (fls k)

def floatIdentity (op : Nat) : Nat := if op = 1 then plusInf else if op = 2 then minusInf else 0

def redRule : CrossRule := fun g q ls src a A _ _ d fl =>
  if a.ty = .f32 then ∃ out, floatFold g q ls src a A out fl ∧ ∀ k, (laneList ls).getLast? = some k → (d.truncate 32 : Word).toNat = out k
  else foldValue a ls A 63 d fl

def scanRule : CrossRule := fun g q ls src a A _ l d fl =>
  if a.ty = .f32 then ∃ out, floatFold g q ls src a A out fl ∧ (d.truncate 32 : Word).toNat =
    if a.sub.getLsbD 3 then (match ((laneList ls).filter (· < l)).getLast? with
      | none => floatIdentity (a.sub.toNat % 8)
      | some k => out k)
    else out l
  else if a.sub.getLsbD 3 then
    match ((laneList ls).filter (· < l)).getLast? with
    | none => d.truncate (bitWidth a.ty) = (identityOf (a.sub.toNat % 8) a.ty).truncate _ ∧ fl = 0
    | some k => foldValue a ls A k d fl
  else foldValue a ls A l d fl

end Sys2Proof.Safety
end

