-- ==== Sys2Proof/Safety/Engines.lean ====
section
/-! DEFINITION. What the engines do for a group: copies and buffer handles (R159 to R166), tensor identifiers (R167, R168),
matrix commands (R169 to R177). -/

namespace Sys2Proof.Safety

open Sys2Proof.Machine

/-- The operand registers of a 32-bit destination hold a value in every guard-true lane. -/
def LandsIn (s t : State) (h : Hdr) (q : Issue) (g : Group) (w : Nat) (d : Reg) (v : Dword) : Prop :=
  (∃ k, t.group? q.gid = some k ∧ ∀ l, (acts h q g).getLsbD l = true → ReadsAs k w l d v) ∧ GoOn t q (fun _ => nextPc h q) ∧
    ResultFrame s t h q g w d

/-- The run waits at the instruction, which goes on with the wait. -/
def WaitsAt (t : State) (q : Issue) (why : Why) (i : Option Instr) : Prop :=
  ∃ k, t.group? q.gid = some k ∧ ∀ l, q.lanes.getLsbD l = true → ∃ w, StandsIn k l q.pc (.waiting w) ∧ w.why = why ∧ w.ins = i

/-- An instruction whose lanes are all guard-false only goes on. -/
def SkipsEmpty (i : Instr) (s : State) (q : Issue) (g : Group) (h : Hdr) : Prop :=
  acts h q g = 0 → Completes i s fun t => GoOn t q (fun _ => nextPc h q) ∧ OnlyRuns s t q g

/-- No memory operation of a group is outstanding. -/
def NoOps (s : State) (gid : Nat) : Prop := ∀ p ∈ s.ops, p.2.gid ≠ gid

/-- A waiting instruction goes on with its wait. -/
structure Resumes (s : State) (i : Instr) (q : Issue) (w : Wait) (g : Group) : Prop where
  cur : s.cur = some q
  on : q.resume = some w
  group : s.group? q.gid = some g
  budget : breaksBudget g.info.budget i = false
  priv : g.privOk i = true

/-- A run whose requests had no places in a replay window goes on when they have (R290). -/
def WindowResumes (i : Instr) (s : State) (q : Issue) (g : Group) (h : Hdr) : Prop :=
  ∀ w k, Resumes s i q w g → w.why = .window k → Completes i s fun t =>
    (s.beyond g.info.core q.gid q.pc w.lanes = true → t = s) ∧
    (s.beyond g.info.core q.gid q.pc w.lanes = false → GoOn t q (fun _ => nextPc h q) ∧ OnlyRuns s t q g)

/-- What a wait awaits has come about: its release and its operations have ended. -/
def WaitOver (s : State) (w : Wait) : Prop := (∀ r, w.rel = some r → s.rels.find r = none) ∧ ∀ id ∈ w.ops, s.ops.find id = none

/-- A trap of the instruction for lanes: nothing of it is committed (R294). -/
def Traps (i : Instr) (s : State) (q : Issue) (c : Cause) (mask : Lanes) (addr : Dword) : Prop :=
  Completes i s fun t => t = s.takeTrap q.gid
    { cause := c, other := false, mask := mask, pc := q.pc, npc := q.pc, addr := addr, run := q.lanes }

/-- The L1 of a core after an acquire at a scope (R228). -/
def Acquired (s t : State) (core : Nat) (scope : Scope) : Prop :=
  (t.core core).l1 = if nearScope scope then (s.core core).l1 else (s.core core).l1.filter (·.2.2)

-- Copies

/-- What of a copy is fixed before its acceptance. -/
def plainCopy (r : CopyRec) : CopyRec :=
  { r with accepted := false, tmpl := [], ten := [], ends := [], tenEnd := none, issued := 0, status := none, held := none, due := 0,
           since := none, dec := false }

/-- The copy that a lane of `cpy` or `cpy.mc` starts (R159). -/
def copyOf (s : State) (q : Issue) (g : Group) (c : CopyArg) (mc : Bool) (op n l : Nat) : CopyRec :=
  { id := n, core := g.info.core, gid := q.gid, ctx := g.info.ctx, wg := g.info.wg, pc := q.pc, space := s.gspace g,
    tmplNo := c.tmpl.toNat, handle := c.handle.toNat, coord := g.rd64 l c.a,
    mc := if mc then some (match c.b with
      | some r => g.rd32 l r
      | none => 0) else none,
    op := some op, lane := l, accepted := false, tmpl := [], ten := [], ends := [], tenEnd := none, issued := 0, status := none,
    held := none, due := 0, since := none, dec := false, poster := g.poster q.gid }

/-- The lane of an operation has been told a status code, or the operation has ended. -/
def Told (t : State) (op lane code : Nat) : Prop :=
  t.ops.find op = none ∨ ∃ o a, t.ops.find op = some o ∧ a ∈ o.accs ∧ a.lane = lane ∧ a.done = true ∧ a.back = some (leBytes code 4)

/-- A copy is in its channel. -/
def InChannel (t : State) (ch : Nat) (r : CopyRec) : Prop := ∃ r' ∈ t.chan (clusterOf r.core) ch, plainCopy r' = r

/-- A copy stands in its channel, and its lane has still to be told. -/
def Sent (t : State) (ch op lane : Nat) (r : CopyRec) : Prop :=
  InChannel t ch r ∧ ∃ o a, t.ops.find op = some o ∧ a ∈ o.accs ∧ a.lane = lane ∧ a.done = false

/-- A handle takes one more copy (R164). -/
def takes (out : Bool) (h : Handle) : Bool :=
  if out then h.st == .full || h.st == .draining else h.st == .empty || (h.st == .filling && decide (h.accepted < h.expect))

/-- The queue of a channel has room for a core's next copy behind `n` others that it takes in first (R160). -/
def HasRoomAfter (s : State) (core ch n : Nat) : Prop :=
  s.copyWindow core ch = 0 ∧ ((s.chan (clusterOf core) ch).filter (·.accepted)).length + n < 8 ∧ (s.bte (clusterOf core)).stop = false

/-- The queue of a channel takes in a core's next copy at once (R160). -/
def HasRoom (s : State) (core ch : Nat) : Prop :=
  s.copyWindow core ch = 0 ∧ ((s.chan (clusterOf core) ch).filter (·.accepted)).length < 8 ∧ (s.bte (clusterOf core)).stop = false

/-- R164 at the acceptance of a copy. -/
def Accepts (out : Bool) (h k : Handle) : Prop :=
  if out then
    if h.st = .full ∨ h.st = .draining then k.st = .draining ∧ k.outward = h.outward + 1 ∧ k.last = h.last ∧ k.dones = h.dones
    else k = { h with last := 3 }
  else if h.st = .empty ∨ (h.st = .filling ∧ h.accepted < h.expect) then
    k.st = .filling ∧ k.inward = h.inward + 1 ∧ k.last = h.last ∧ k.dones = h.dones
  else k = { h with last := 3 }

/-- R164 at the completion of a copy with a code. -/
def Ends (out : Bool) (code : Nat) (h k : Handle) : Prop :=
  k.last = code ∧
  if out then
    k.outward = h.outward - 1 ∧ (h.st = .draining →
      (h.outward - 1 ≠ 0 → k.st = .draining) ∧ (h.outward - 1 = 0 → k.st = if h.outBad = true ∨ code ≠ 0 then .error else .empty))
  else
    k.inward = h.inward - 1 ∧ (h.st = .filling → k.st = (if code ≠ 0 then .error else if h.dones + 1 = h.expect then .full else .filling) ∧
      (code = 0 → k.dones = h.dones + 1)) ∧ (h.st = .error → k.st = .error)

/-- The tile that an inward copy read stands in its handle, swizzled (R254, R252), and no other byte of the scratchpad changed. -/
def Placed (p p' : Spad) (start swz w : Nat) (bs : List Byte) : Prop :=
  (∀ i, i < bs.length → p'.byte (start + swizzle swz w i) = bs.getD i 0) ∧
  ∀ a, (a < start ∨ start + bs.length ≤ a) → p'.byte a = p.byte a

/-- The status word of R163. -/
def statusWord (h : Handle) : Dword :=
  let state := match h.st with
    | .unbound => 0
    | .empty => 1
    | .filling => 2
    | .full => 3
    | .draining => 4
    | .error => 5
  BitVec.ofNat 64 ((state * 2 ^ 28 + h.dones % 256 * 2 ^ 20 + h.expect * 2 ^ 12 + h.last) % 2 ^ 32)

-- Matrix commands

/-- The command that a matrix instruction is, and its ARR field (R171 to R174). -/
def matrixKind (s : State) (q : Issue) (g : Group) : Instr → Option (MxKind × Option Nat) :=
  let ten (t : BitVec 8) : List Byte := s.tenRec g.info.ctx (clusterOf g.info.core) t.toNat
  let coord (a : Reg) : Dword := g.rd64 (lowest q.lanes) a
  fun
  | .mxb _ t bb arr a => some (.mxb (ten t) (coord a) bb, arr.map (·.toNat))
  | .mxa _ t bb bank arr (.spad a) => some (.mxa (ten t) (coord a) bb bank, arr.map (·.toNat))
  | .mxa _ t bb bank arr (.regs rowq w16 vb) => some (.mxaReg (ten t) rowq.toNat w16 vb.val bb bank, arr.map (·.toNat))
  | .mxdrain _ t bank z a => some (.drain false (ten t) (coord a) bank z, none)
  | .mxdrainAdd _ t bank z a => some (.drain true (ten t) (coord a) bank z, none)
  | .mxzero _ bank raw => some (.zero bank raw, none)
  | _ => none

/-- An entry that a unit may grant (R243), and its rank. -/
def Grantable (s : State) (cl : Nat) (u : MxUnit) (e : MxEntry) : Prop :=
  e.kind.unit = u ∧ e.granted = none ∧ e.held = none ∧ (s.mxe cl).ready s.clock.cc e = true

def grantRank (e : MxEntry) : Nat := if e.promoted then 3 else e.prio

/-- The group of a command after it: the commands it has noted, and TL one lower if `falls` (R76). -/
def Noted (s t : State) (e : MxEntry) (falls : Prop) (note : MxCmd → MxCmd) : Prop :=
  ∀ g, s.group? e.gid = some g → ∃ k, t.group? e.gid = some k ∧ k.cmds = g.cmds.map note ∧
    (falls → k.regs.tl = g.regs.tl - 1) ∧ (¬ falls → k.regs.tl = g.regs.tl)

/-- A command has completed: its group's note of it says so, with the error if none was recorded before (R176). -/
def completed (e : MxEntry) (err : Option Cause) (c : MxCmd) : MxCmd :=
  if c.entry = e.id then { c with complete := true, err := match c.err with
    | some x => some x
    | none => err } else c

/-- A command ends: its entry leaves the table, and its note says so. TL falls unless it has fallen already or the engine's arrival is
still to come; an arrival that still waits is kept (R76, R176, R243, R260). -/
def CommandEnds (s t : State) (cl : Nat) (e : MxEntry) (err : Option Cause) : Prop :=
  (t.mxe cl).table = (s.mxe cl).table.filter (fun x => x.id != e.id) ∧
  (e.arr = none ∨ e.arrived = true → (t.mxe cl).late = (s.mxe cl).late) ∧
  (e.arr ≠ none ∧ e.arrived = false → ∃ e', (t.mxe cl).late = (s.mxe cl).late ++ [e'] ∧ e'.id = e.id ∧ e'.gid = e.gid ∧ e'.arr = e.arr) ∧
  Noted s t e (e.arr = none ∧ e.arrived = false) (completed e err)

/-- A command has made its effect: the operands are read, and without an arrival TL falls; it ends when its time has passed (R176, R242,
R260). -/
def EffectMade (s t : State) (cl : Nat) (e : MxEntry) : Prop :=
  (s.cc < e.due → (t.mxe cl).table = (s.mxe cl).table.map (fun x => if x.id = e.id then { x with read := true, arrived := x.arr.isNone } else x) ∧
    (t.mxe cl).late = (s.mxe cl).late ∧ Noted s t e (e.arr = none) id) ∧
  (e.due ≤ s.cc → CommandEnds s t cl { e with arrived := false } e.err)

/-- R56, one K-block: the exact sum, rounded once. -/
def BlockStep (dot ea eb : Int) (c c' : Word) : Prop :=
  if ea = -128 ∨ eb = -128 ∨ dot = 0 ∨ fmt32.expo c.toNat = fmt32.expMax then c' = c
  else
    let x : ℚ := fpValue fmt32 c.toNat + dot * (2 : ℚ) ^ (ea + eb)
    (x = 0 → c' = 0) ∧ (x ≠ 0 → ∃ fl, Delivers fmt32 { ftz := false, rnd := .rne, lane := 0, pc := 0 } x c'.toNat fl)

/-- The exact dot product of row i and column j over K-block b. -/
def blockDot (ra : ARows) (bb : BBuf) (i j b : Nat) : Int :=
  ∑ k ∈ Finset.range 64, ra.vals.get 0 (i * 512 + (64 * b + k)) * bb.vals.get 0 ((64 * b + k) * 512 + j)

/-- R56: an element over the four K-blocks in their order. -/
def BlockPass (ra : ARows) (bb : BBuf) (i j : Nat) (c c' : Word) : Prop :=
  ∃ f : Nat → Word, f 0 = c ∧ f 4 = c' ∧
    ∀ b, b < 4 → BlockStep (blockDot ra bb i j b) (ra.scales.get 0 (i * 512 + b)) (bb.scales.get 0 (b * 512 + j)) (f b) (f (b + 1))

/-- R58: an element of the raw bank: 256 products added in their order, each sum held in 40 bits. -/
def RawPass (ra : ARows) (bb : BBuf) (i j : Nat) (c c' : Int) : Prop :=
  ∃ f : Nat → Int, f 0 = c ∧ f 256 = c' ∧
    ∀ k, k < 256 → f (k + 1) = max (-(2 ^ 39)) (min (2 ^ 39 - 1) (f k + ra.vals.get 0 (i * 512 + k) * bb.vals.get 0 (k * 512 + j)))

-- Barriers, channels, mailboxes

/-- Arrivals are counted; Check comes when all of the cycle are (R184). -/
def Counts (b b' : Barrier) (more : Nat → Nat) : Prop :=
  b'.members = b.members ∧ b'.ph = b.ph ∧ b'.due = true ∧ ∀ m, b'.arr.get 0 m = b.arr.get 0 m + more m

/-- Check of R184: a phase completes when every member has arrived. -/
def Checks (b b' : Barrier) : Prop :=
  b'.members = b.members ∧
  ((∀ m ∈ b.members, 1 ≤ b.arr.get 0 m) → b'.ph = b.ph + 1 ∧ ∀ m, b'.arr.get 0 m = b.arr.get 0 m - b.members.count m) ∧
  ((∃ m ∈ b.members, b.arr.get 0 m = 0) → b'.ph = b.ph ∧ ∀ m, b'.arr.get 0 m = b.arr.get 0 m)

/-- One arrival, of one member. -/
def oneOf (gid m : Nat) : Nat := if m = gid then 1 else 0

/-- The phase of a token is over (R184). -/
abbrev PhaseOver (ph tok : Word) : Prop := (ph - tok - 1).toNat < 2 ^ 31

-- Mailboxes (R192, R193)

/-- A core has sent no byte of a range that is still to land (R230). -/
def Landed (s : State) (core pa key n : Nat) : Prop := ∀ i, i < n → (s.core core).pending (pa + i) key = none

/-- A lane reaches a mailbox header: no byte of it in the L1 or on its way, every check passed, and the header in order. -/
def HeaderAt (s : State) (q : Issue) (g : Group) (a : Reg) (l : Nat) (x : Xlated) (hd : MbHeader) : Prop :=
  (s.core g.info.core).l1 = [] ∧ Landed s g.info.core x.pa x.key 64 ∧ Reaches s q g .atomic .normal (g.rd64 l a).toNat 64 x ∧ x.pa < hbmSize ∧ s.msys.bad x.pa 64 = false ∧
  hd = mbHeader (s.msys.bytes x.key x.pa 64) ∧ hd.ok = true

/-- The entry that a step uses is reached. -/
def EntryAt (s : State) (q : Issue) (g : Group) (put : Bool) (hd : MbHeader) (y : Xlated) : Prop :=
  let va := hd.base + 8 * ((if put then hd.puts else hd.gets) % 2 ^ hd.log2n)
  Landed s g.info.core y.pa y.key 8 ∧ Unwatched s q g false (!put) put va 8 ∧ y.pa < hbmSize ∧ s.msys.bad y.pa 8 = false ∧
  s.xlate g.info.core (s.gspace g) (if put then .write else .read) normalOnly va = (s, .ok y)

/-- A get: lanes take the value of the oldest entry, GETS advances, and the run goes on. -/
def Took (s t : State) (h : Hdr) (q : Issue) (m : Lanes) (tr : Bool) (d : Reg) (x y : Xlated) (hd : MbHeader) : Prop :=
  let m1 := s.msys.claims x.key x.pa 64
  GoOn t q (fun _ => nextPc h q) ∧ HomeWritten m1 t.msys x.key (x.pa + 24) (leBytes ((hd.gets + 1) % 2 ^ 64) 8) ∧
  ∃ k, t.group? q.gid = some k ∧ ∀ l, m.getLsbD l = true → ReadsAs k 2 l d (BitVec.ofNat 64 (m1.nat y.key y.pa 8)) ∧ (tr = true → k.rdP 6 l = false)

/-- A put: the entry is stored, then PUTS advances, and the run goes on. -/
def Put (s t : State) (h : Hdr) (q : Issue) (x y : Xlated) (hd : MbHeader) (v : Dword) : Prop :=
  GoOn t q (fun _ => nextPc h q) ∧ ∃ m, HomeWritten (s.msys.claims x.key x.pa 64) m y.key y.pa (leBytes v.toNat 8) ∧
    HomeWritten m t.msys x.key (x.pa + 16) (leBytes ((hd.puts + 1) % 2 ^ 64) 8)

/-- The own allocation of a group's workgroup holds a range: core and place. -/
def OwnRange (s : State) (g : Group) (addr n core off : Nat) : Prop :=
  ∃ w al, s.wgs.find g.info.wg = some w ∧ s.allocs.find w.alloc = some al ∧ addr + n ≤ al.size ∧ core = al.core ∧ off = al.base + addr

end Sys2Proof.Safety
end

