-- ==== Sys2Proof/Safety/System.lean ====
section
/-! DEFINITION. What the system instructions and the events of interrupts, faults and stops do. -/

namespace Sys2Proof.Safety

open Sys2Proof.Machine

/-- Lanes of a group stand at a PC in a state. -/
def LanesAt (k : Group) (m : Lanes) (pc : Pc) (st : RunSt) : Prop := ∀ l, m.getLsbD l = true → StandsIn k l pc st

/-- R202: the words of the entry of a system call, posted at a time. -/
def callWords (s : State) (q : Issue) (g : Group) (n l : Nat) : List Word :=
  let resp := if g.isResponder then 1 else 0
  [BitVec.ofNat 32 (g.info.ctx % 64 * 2 ^ 22 + l * 2 ^ 16 + n),
   BitVec.ofNat 32 ((s.ctx g.info.ctx).asid % 4096 * 2 ^ 16 + g.info.part * 256 + resp * 32 + g.slot % 32),
   BitVec.ofNat 32 q.pc.toNat, BitVec.ofNat 32 (q.pc.toNat / 2 ^ 32), BitVec.ofNat 32 s.time, BitVec.ofNat 32 (s.time / 2 ^ 32), 0, 0] ++
  (List.range 8).map fun j => g.regs.v.get 0 (vKey j l)

/-- A stop of a partition (R331, R332): its group runs the debug agent, the trap registers kept aside. -/
def StopsAt (s t : State) (gid : Nat) (g : Group) (tr : Trap) : Prop :=
  ((t.core g.info.core).part g.info.part).stopped = some gid ∧ ((t.core g.info.core).part g.info.part).haltReq = false ∧
  ∃ k, t.group? gid = some k ∧ k.sys.debug = true ∧ k.sys.trap = tr.regs ∧ k.regs = g.regs ∧ LanesAt k tr.run (entryPc s.dbgvec) .ready ∧
    ∃ sh, k.sys.shadow = some sh ∧ sh.trap = g.sys.trap ∧ sh.intrap = g.sys.intrap ∧ sh.npc = tr.npc ∧
      sh.runs = g.runs.filter fun r => r.st != .ready && r.lanes &&& tr.run != 0

/-- R337: what a sample says of a group: waiting PC, blamed PC, class and reason. A group that issued in the cycle is of class 0; one with a READY
run (or whose run halts) of class 1; else its first run says why. -/
def SampledAs (s : State) (g : Group) (pc blame : Pc) (cls why : Nat) : Prop :=
  let issued : Prop := g.sched.age = s.clock.cc ∧ g.sched.issues ≠ 0
  (issued → pc = g.sched.lastPc ∧ blame = 0 ∧ cls = 0 ∧ why = 0) ∧
  (¬ issued → g.sys.debug = true → pc = g.sys.trap.pc.truncate 48 ∧ blame = 0 ∧ cls = 1 ∧ why = 1) ∧
  (∀ r e, ¬ issued → g.sys.debug = false → g.pick = some (r, e) → pc = r.pc ∧ blame = 0 ∧ cls = 1 ∧ why = 1) ∧
  ∀ r rest, ¬ issued → g.sys.debug = false → g.pick = none → g.runs = r :: rest → pc = r.pc ∧ cls = 2 ∧
    ((g.sched.trapped = true ∨ g.sched.held = true) → why = 10) ∧
    (g.sched.trapped = false → g.sched.held = false → g.sys.intrap = false →
      (∀ ids, r.st = .stalled ids → why = 2) ∧ (∀ w, r.st = .waiting w → why = whyCode w.why) ∧ (∀ tag, r.st = .faultParked tag → why = 8) ∧
      (r.st = .syscallParked → why = 9))

/-- The record of a sample (R338). -/
def sampleRecord (s : State) (g : Group) (core part : Nat) (pc blame : Pc) (cls why : Nat) : List Byte :=
  leBytes s.time 8 ++ leBytes (pc.toNat + g.info.place * 2 ^ 48 + part * 2 ^ 53 + core * 2 ^ 54) 8 ++ leBytes blame.toNat 8 ++
    leBytes (g.info.ctx * 65536 + cls * 256 + why) 4 ++ leBytes 0 4

/-- What of a responder's queue entry does not depend on free slots (R273). -/
def unslotted (e : Spawn) : Spawn := { e with slot := none }

/-- The value that a write of a system register takes from a lane (R205). -/
def writeVal (g : Group) (n : BitVec 10) (l : Nat) (a : Reg) : Dword := if sysregRegs n = 2 then g.rd64 l a else (g.rd32 l a).zeroExtend 64

/-- Registers of R206, R297, R283 and R330 that read as a field of the state. -/
def plainRegister (s : State) (g : Group) : List (Nat × Nat) :=
  let c := s.core g.info.core
  let k := s.ctx (s.ctxOf g)
  [(0x002, g.sys.fpctl.toNat), (0x003, g.sys.fpstat.toNat), (0x008, g.sys.trap.cause.toNat), (0x009, g.sys.trap.pc.toNat),
   (0x00A, g.sys.trap.npc.toNat), (0x00B, g.sys.trap.mask.toNat), (0x00C, g.sys.trap.run.toNat), (0x00D, g.sys.trap.addr.toNat),
   (0x00E, g.sys.trapvec.toNat), (0x010, s.time), (0x011, c.timecmp.toNat), (0x014, c.asid), (0x015, c.keyid), (0x016, k.cenlim.toNat),
   (0x017, k.barlim.toNat), (0x018, c.stalewr.toNat), (0x019, g.info.part * 512 + g.info.core), (0x01B, c.imask.toNat),
   (0x01E, c.svq.length), (0x020, c.ptbase.toNat), (0x061, s.ctxbase.toNat), (0x063, c.qbackoff)]

/-- What a privileged write leaves in those registers of a core that hold a value (R206, R283, R297). -/
def coreWritten (c c' : Core) (n : Nat) (v : Dword) : Prop :=
  (n = 0x014 → c'.asid = v.toNat % 2 ^ 12) ∧ (n = 0x015 → c'.keyid = v.toNat % 2 ^ 8) ∧ (n = 0x018 → c'.stalewr = v.truncate 32) ∧
  (n = 0x01A → c'.ipend = c.ipend &&& ~~~(v.truncate 32 &&& 0xBB)) ∧ (n = 0x01B → c'.imask = v.truncate 32 &&& 0xFF) ∧
  (n = 0x01D → c'.svqTimer = (v >>> 16).toNat % 2 ^ 16 ∧ c'.svqThresh = min 256 (max 1 (v.toNat % 2 ^ 9))) ∧
  (n = 0x020 → c'.ptbase = v &&& 0xFFFFFFFFFF000) ∧ (n = 0x063 → c'.qbackoff = max 1 (v.toNat % 2 ^ 16))

/-- What a write leaves in those registers of a group that a user may write (R34, R43, R44, R209). -/
def groupWritten (g k : Group) (n : Nat) (v : Dword) : Prop :=
  (n = 0x001 → k.sys.escapes = (v >>> 16).toNat % 2 ^ 16) ∧ (n = 0x002 → k.sys.fpctl = v.truncate 32 &&& 0x3F) ∧
  (n = 0x003 → k.sys.fpstat = g.sys.fpstat &&& ~~~(v.truncate 32 : Word)) ∧ (n = 0x00A → k.sys.trap = { g.sys.trap with npc := v }) ∧
  (n = 0x00E → k.sys.trapvec = v) ∧ (n = 0x000 → g.priv = true → k.sys.ie = v.getLsbD 3)

/-- A translation of a TLB that an invalidation names (R210). -/
def Named (kind : TlbKind) (va : Dword) (asid : Nat) (e : TlbEntry) : Prop :=
  match kind with
  | .page => e.va ≤ va.toNat ∧ va.toNat < e.va + e.size ∧ (e.glob = true ∨ e.asid = asid)
  | .asid => e.glob = false ∧ e.asid = asid
  | .all => True

/-- The line that a lane of `cwb` or `cinv` names (R211), as the TLBs translate it. -/
def LineOf (s : State) (g : Group) (r : Reg) (l pa key : Nat) : Prop :=
  ∃ x, (s.xlate g.info.core (s.gspace g) .read normalOnly (g.rd64 l r).toNat).2 = .ok x ∧ x.pa < hbmSize ∧ pa / 256 = x.pa / 256 ∧ key = x.key

/-- The lines that `cwb` or `cinv` acts on: those its lanes name, or all. -/
def Covers (s : State) (q : Issue) (g : Group) (h : Hdr) (a : Option Reg) (pa key : Nat) : Prop :=
  a = none ∨ ∃ r l, a = some r ∧ l ∈ actors h q g ∧ LineOf s g r l pa key

/-- A gang message for a member leaves over a link that is UP and has a lane, and waits for one that trains or has none (R285, R319). -/
def TellsMember (s t : State) (g : Gang) (say : GangSay) (d : Nat) : Prop :=
  let link := g.links.getD d 0xFFFF
  let m : GangMsg := { say := say, gang := g.id, src := g.self, dst := d }
  ((s.link link).carries = true → Out.gang m ∈ t.outbox) ∧ ((s.link link).carries = false → (s.link link).st ≠ .down → m ∈ (t.link link).gang)

/-- The same for every other member. -/
def TellsGang (s t : State) (g : Gang) (say : GangSay) : Prop := ∀ d, d < g.links.length → d ≠ g.self → TellsMember s t g say d

/-- A flit of a KIND with a payload leaves over a link (R317). -/
def SendsFlit (s t : State) (n kind : Nat) (body : List Byte) : Prop :=
  ∃ f, t.outbox = s.outbox ++ [Out.flit n f] ∧ recSlice f 8 240 = (List.range 240).map (Config.flitPayload kind body)

/-- The answer to a Peer request leaves: its bytes, or its refusal (R320, R352). -/
def AnswersPeer (s t : State) (n : Nat) (back : Option (List Byte)) : Prop := SendsFlit s t n 1 (answerBody back.isNone (back.getD []))

/-- What a memory flit does: the oldest Peer access has its answer, or a Peer request is served at the home slice (R320, R352). -/
def PeerActs (s t : State) (n : Nat) (m : Config.PeerMsg) : Prop :=
  let reach (pa k : Nat) : Prop := pa + k ≤ hbmSize ∧ s.msys.bad pa k = false
  match m with
  | .answer failed data => t.msys = s.msys ∧ ∀ r rest, (s.link n).out = r :: rest →
      (r.late = true → t.ops = s.ops) ∧
      (r.late = false → ∀ o a, Outstanding s r.op r.lane o a →
        (failed = true → Answered s t r.op r.lane o none (some .busError)) ∧
        (failed = false → (∃ bs, r.kind = .write bs) → Answered s t r.op r.lane o none none) ∧
        (failed = false → (¬ ∃ bs, r.kind = .write bs) → Answered s t r.op r.lane o (some ((List.range r.len).map fun i => data.getD i 0)) none))
  | .read pa len key =>
      (¬ reach pa len → t.msys = s.msys ∧ AnswersPeer s t n none) ∧
      (reach pa len → t.msys = s.msys.claims key pa len ∧ AnswersPeer s t n (some (s.msys.bytes key pa len)))
  | .write pa key bs =>
      (¬ reach pa bs.length → t.msys = s.msys ∧ AnswersPeer s t n none) ∧
      (reach pa bs.length → AnswersPeer s t n (some []) ∧ (s.msys.smapBusy = false → HomeWritten s.msys t.msys key pa bs))
  | .atomic pa len key op b c =>
      (¬ reach pa len → t.msys = s.msys ∧ AnswersPeer s t n none) ∧
      (reach pa len → AnswersPeer s t n (some (s.msys.bytes key pa len)) ∧
        (s.msys.smapBusy = false → HomeWritten (s.msys.claims key pa len) t.msys key pa
          (leBytes (atomNew (.ofCode op) len (leNat (s.msys.bytes key pa len)) b.toNat c.toNat) len)))

/-- What a delivered flit does, by its KIND (R317 to R319). -/
def FlitActs (s t : State) (n kind : Nat) (payload : List Byte) : Prop :=
  (kind ≠ 1 → t.ops = s.ops ∧ (t.link n).out = (s.link n).out ∧ t.msys = s.msys) ∧
  (kind = 1 → PeerActs s t n (Config.peerMessage payload)) ∧
  (kind = 2 →
    (∀ seq f, Config.controlMessage payload = some (true, seq) → (s.link n).replay.find? (fun f => f.1 == seq) = some f →
      t.outbox = s.outbox ++ [Out.flit n f.2]) ∧
    ∀ lane, Config.controlMessage payload = some (false, lane) → ((s.link n).lane lane).active = true →
      ((t.link n).lane lane).active = false ∧ ((t.link n).lane lane).training = true) ∧
  (kind = 3 → ∀ k gang dev code, Config.gangMessage payload = (k, gang, dev, code) →
    (k = 0 → (s.clock.cc, Instr.gangArm gang) ∈ t.events) ∧ (k = 1 → (s.clock.cc, Instr.gangAck gang dev) ∈ t.events) ∧
    (k = 2 → (s.clock.cc, Instr.gangCommit gang) ∈ t.events) ∧ (k = 3 → (s.clock.cc, Instr.gangAbort gang) ∈ t.events) ∧
    (k = 4 → (s.clock.cc, Instr.gangReport gang dev code) ∈ t.events) ∧
    ∀ lch l g, k = 5 → s.gangLaunch gang = some (lch, l, g) →
      (s.clock.cc, Instr.gangBarrierMessage lch code.toNat (some (remoteMember dev))) ∈ t.events)

-- Steps

/-- The next step issues a run of a group: no event is due, no workgroup ends, the cycle has begun, the partition's selection or its pack names the group (R28, R30), its run
is the one R24 picks, and no pending cause, interrupt, stop or breakpoint takes the place of the issue. `s1`: the state at the issue. -/
structure Selects (s s1 : State) (gid : Nat) (g : Group) (r : Run) (escape : Bool) : Prop where
  quiet : s.popDue = none
  noEnd : s.endingWg = none
  begun : s.tried = true
  turn : (∃ rest, s.pack = gid :: rest ∧ s1 = { s with pack := rest }) ∨
    (s.pack = [] ∧ ∃ s0 p pk, s.selectFrom s.partsFrom = some (s0, p, gid, pk) ∧ s1 = { s0 with cursor := p + 1, pack := pk })
  group : s1.group? gid = some g
  eligible : s1.eligible gid g = true
  picked : g.pick = some (r, escape)
  noCause : g.nextPend = none
  noInterrupt : s1.interruptNow g r = false
  noHalt : s1.haltNow g = false
  noBreakpoint : s1.breakpointAt g r.pc = none

/-- The words at the PC of a run: its address is translated for fetch, and the bytes are those from there to the end of the 32-byte
block, at most 16 of them (R59, R60, R62), with no error in them. `s2`: the state after the fetch. -/
def WordsAt (s1 s2 : State) (g : Group) (r : Run) (bs : List Byte) : Prop :=
  ∃ s' x, let n := min (32 - r.pc.toNat % 32) 16
    s1.xlate g.info.core (s1.gspace g) .fetch normalOnly r.pc.toNat = (s', .ok x) ∧ x.pa < hbmSize ∧ s'.msys.bad x.pa n = false ∧
    bs = s'.msys.bytes x.key x.pa n ∧ s2 = s'.modMsys fun m => m.claims x.key x.pa n

/-- A word decodes to an instruction of its header's length. -/
def Decodes (w : Quad) (i : Instr) : Prop := ∃ h, i.hdr = some h ∧ decodeQuad w = .ok i h.len

/-- An instruction's encoding reads back as the instruction. -/
def ReadsBack (i : Instr) : Prop := i.wf = true → ∃ w, encode i = some w ∧ Decodes w i

-- Exceptions

/-- The whole run of the instruction in progress takes an exception at its address (R87). -/
def TrapsWhole (s t : State) (q : Issue) (c : Cause) : Prop :=
  t = s.takeTrap q.gid { cause := c, other := false, mask := q.lanes, pc := q.pc, npc := q.pc, addr := 0, run := q.lanes }

/-- The instructions marked (S) in R86, with the writes of supervisor registers of R206 and R297 that have a meaning of their own. -/
def SupervisorOnly (i : Instr) : Prop :=
  ∃ h, (∃ d, i = .svqpop h d) ∨ (∃ a b, i = .sysret h a b) ∨ i = .iret h ∨ (∃ k g a b, i = .tlbinv h k g a b) ∨ (∃ l a, i = .cinv h l a) ∨
    (∃ d a, i = .launch h d a) ∨ i = .halt h ∨ (∃ k a, i = .tmset h k a) ∨ (∃ d, i = .trapqPop h d) ∨ (∃ a, i = .ipiWrite h a) ∨
    (∃ a, i = .wdogWrite h a) ∨ (∃ a, i = .smapStageWrite h a) ∨ (∃ a, i = .oemodeWrite h a) ∨ (∃ w a, i = .laneCounterClear h w a)

end Sys2Proof.Safety
end

