-- ==== Sys2Proof/Certificates/Slice0/Obligations.lean ====
section
/-! DEFINITION. The statements about the machine that are to be proved. -/

section

open Sys2Proof
open Sys2Proof.Machine
open Sys2Proof.Safety

-- Control flow

/-- R102 and R103: where the lanes of the issuing run go: `nop`, the guarded branch, the votes of a predicate. -/
def Obligations.BranchesMoveTheRun : Prop :=
  ∀ s q g h,
    (Issues s (.nop h) q g → Completes (.nop h) s fun t => GoOn t q (fun _ => nextPc h q) ∧ OnlyRuns s t q g) ∧
    ∀ tg,
      let go (c : Prop) (t : State) : Prop :=
        OnlyRuns s t q g ∧ ∃ pcs : Nat → Pc, GoOn t q pcs ∧ ∀ l, q.lanes.getLsbD l = true →
          ((acts h q g).getLsbD l = true → c → pcs l = branchTarget q.pc tg) ∧ (¬ ((acts h q g).getLsbD l = true ∧ c) → pcs l = nextPc h q)
      (Issues s (.bra h tg) q g → Completes (.bra h tg) s (go True)) ∧
      ∀ p : Fin 8,
        (Issues s (.brany h p tg) q g →
          Completes (.brany h p tg) s (go (∃ l, (acts h q g).getLsbD l = true ∧ g.rdP p.val l = true))) ∧
        (Issues s (.brall h p tg) q g →
          Completes (.brall h p tg) s (go (∀ l, (acts h q g).getLsbD l = true → g.rdP p.val l = true)))

/-- R103: `call` writes the address of the following instruction and goes to the target.
R104: `ret` and `jmp` send each lane where its register says; a lane whose register or target is bad traps MISALIGNED. -/
def Obligations.CallsAndReturnsTransfer : Prop :=
  (∀ s q g h d tg, Issues s (.call h d tg) q g → (Instr.call h d tg).wf = true →
     Completes (.call h d tg) s fun t =>
       (∃ k, t.group? q.gid = some k ∧ ∀ l, (acts h q g).getLsbD l = true → ReadsAs k 2 l d ((nextPc h q).zeroExtend 64)) ∧
       GoOn t q (fun l => if (acts h q g).getLsbD l then branchTarget q.pc tg else nextPc h q) ∧ ResultFrame s t h q g 2 d) ∧
  (∀ (s : State) (q : Issue) (g : Group) (h : Hdr) (a : Reg) (off : BitVec 20) (i : Instr), (i = .jmp h a off ∨ (i = .ret h a ∧ off = 0)) →
     Issues s i q g →
     let val (l : Nat) : Dword := g.rd64 (source h q g l) a
     let dest (l : Nat) : Pc := BitVec.ofInt 48 ((val l).toNat + 4 * off.toInt)
     let good (l : Nat) : Prop := (val l).toNat < 2 ^ 48 ∧ (dest l).toNat % 4 = 0
     ((∀ l, (acts h q g).getLsbD l = true → good l) → Completes i s fun t =>
       GoOn t q (fun l => if (acts h q g).getLsbD l then dest l else nextPc h q) ∧ ResultFrame s t h q g 0 .zero) ∧
     ((∃ l, (acts h q g).getLsbD l = true ∧ ¬ good l) → ∃ bad : Lanes, (∀ l, bad.getLsbD l = true ↔ (acts h q g).getLsbD l = true ∧ ¬ good l) ∧
       Completes i s fun t => t = s.takeTrap q.gid
         { cause := .misaligned, other := false, mask := bad, pc := q.pc, npc := q.pc, addr := val (lowest bad), run := q.lanes }))

/-- R105: `exit` takes its lanes out of the PC table; a supervisor group traps PRIVILEGE instead.
R106: `yield` makes the group the youngest of its level; under a request for pre-emption it is held at its following
instruction, unless a barrier of its workgroup is partly arrived (R308).
R107: `wait` passes when all four counters stand at or below its limits, and else the run waits at it. -/
def Obligations.RunsLeaveYieldAndWait : Prop :=
  (∀ s q g h, Issues s (.exit h) q g →
     ((g.info.kind ≠ .super ∨ acts h q g = 0) → Completes (.exit h) s fun t => OnlyRuns s t q g ∧ ∃ k, t.group? q.gid = some k ∧
       ∀ l, q.lanes.getLsbD l = true → k.pcOf l = if (acts h q g).getLsbD l then none else some (nextPc h q)) ∧
     (g.info.kind = .super → acts h q g ≠ 0 → Completes (.exit h) s fun t => t = s.takeTrap q.gid
       { cause := .privilege, other := false, mask := acts h q g, pc := q.pc, npc := q.pc, addr := 0, run := q.lanes })) ∧
  (∀ s q g h, Issues s (.yield h) q g → Completes (.yield h) s fun t => GoOn t q (fun _ => nextPc h q) ∧
     ∃ k, t.group? q.gid = some k ∧ t = s.setGroup q.gid k ∧ k.regs = g.regs ∧ k.sys = g.sys ∧ k.pend = g.pend ∧
       (acts h q g = 0 → k.sched = g.sched) ∧
       (acts h q g ≠ 0 → k.sched.age = s.clock.cc ∧
         (k.sched.held = true ↔ g.info.kind ≠ .super ∧ (s.ctx g.info.ctx).preq = true ∧ s.partlyArrived g.info.wg = false))) ∧
  (∀ s q g h ld st cp tl, Issues s (.wait h ld st cp tl) q g →
     let below : Prop := g.regs.ld ≤ ld.toNat ∧ g.regs.st ≤ st.toNat ∧ g.regs.cp ≤ cp.toNat ∧ g.regs.tl ≤ tl.toNat
     Completes (.wait h ld st cp tl) s fun t => OnlyRuns s t q g ∧
       ((acts h q g = 0 ∨ below) → GoOn t q fun _ => nextPc h q) ∧
       ((acts h q g ≠ 0 ∧ ¬ below) → ∃ k, t.group? q.gid = some k ∧ ∀ l, q.lanes.getLsbD l = true →
         ∃ w, StandsIn k l q.pc (.waiting w) ∧ w.why = .counters ∧ w.ins = some (.wait h ld st cp tl)))

-- Computing instructions

/-- R108: the predicate instructions.
R115 to R118: selection, comparison, address computation and move. -/
def Obligations.PredicatesAndSelectionsCompute : Prop :=
  (Computes .pset specPset Safety.always (predRule fun u _ => u.truncate 32 ≠ (0 : Word)) ∧
   Computes .pand specPbin Safety.always (predRule fun u v => u ≠ 0 ∧ v ≠ 0) ∧
   Computes .por specPbin Safety.always (predRule fun u v => u ≠ 0 ∨ v ≠ 0) ∧
   Computes .pxor specPbin Safety.always (predRule fun u v => u ≠ v) ∧
   Computes .pnot specPnot Safety.always (predRule fun u _ => u = 0)) ∧
  (Computes .sel specSel Safety.always selRule ∧
   Computes .icmp specIcmp Safety.always icmpRule ∧
   Computes .lea specLea Safety.always leaRule ∧
   Computes .mov specNot Safety.always movRule)

/-- R110: the element-wise integer instructions. -/
def Obligations.IntegersCompute : Prop :=
  Computes .iadd specIadd Safety.always (integerRule fun _ x y _ => x + y) ∧
  Computes .isub specIadd Safety.always (integerRule fun _ x y _ => x - y) ∧
  Computes .imul specImul Safety.always (integerRule fun _ x y _ => x * y) ∧
  Computes .imulhi specImulhi Safety.always (integerRule fun w x y _ => x * y / 2 ^ w) ∧
  Computes .imad specImad Safety.always (integerRule fun _ x y z => x * y + z) ∧
  Computes .imin specImin Safety.always (integerRule fun _ x y _ => min x y) ∧
  Computes .imax specImin Safety.always (integerRule fun _ x y _ => max x y) ∧
  Computes .iabs specIabs Safety.always (integerRule fun _ x _ _ => |x|) ∧
  Computes .ineg specIabs Safety.always (integerRule fun _ x _ _ => -x)

/-- R111: the bitwise instructions. -/
def Obligations.BitsCompute : Prop :=
  Computes .and specAnd Safety.always (bitsRule fun _ x y => x &&& y) ∧
  Computes .or specAnd Safety.always (bitsRule fun _ x y => x ||| y) ∧
  Computes .xor specAnd Safety.always (bitsRule fun _ x y => x ^^^ y) ∧
  Computes .andn specAnd Safety.always (bitsRule fun _ x y => x &&& ~~~y) ∧
  Computes .not specNot Safety.always (bitsRule fun _ x _ => ~~~x)

/-- R112: shifts and rotates, for every count.
R113 and R114: counts, reversal and bit fields. -/
def Obligations.ShiftsAndFieldsCompute : Prop :=
  (Computes .shl specShl Safety.always (shiftRule fun _ x n => x <<< n) ∧
   Computes .shr specShl Safety.always (shiftRule fun _ x n => x >>> n) ∧
   Computes .sar specSar Safety.always (shiftRule fun _ x n => x.sshiftRight n) ∧
   Computes .rol specRol Safety.always (shiftRule fun _ x n => x.rotateLeft n) ∧
   Computes .ror specRol Safety.always (shiftRule fun _ x n => x.rotateRight n)) ∧
  (Computes .popc specPopc Safety.always popcRule ∧
   Computes .clz specPopc Safety.always clzRule ∧
   Computes .brev specNot Safety.always brevRule ∧
   Computes .bfe specBfe Safety.always bfeRule ∧
   Computes .bfi specBfi Safety.always bfiRule)

/-- R120 to R126: the packed pixel instructions. -/
def Obligations.PixelsCompute : Prop :=
  Computes .pxext specPxext Safety.always pxextRule ∧
  Computes .pxins specPxins Safety.always pxinsRule ∧
  Computes .pxavg specPxavg Safety.always (pixelRule fun rnd x y _ r => RoundedQuotient rnd (x + y) 2 r) ∧
  Computes .pxabd specPxabd Safety.always (pixelRule fun _ x y _ r => r = |x - y|) ∧
  Computes .pxsad specPxsad Safety.always (sumRule .n32 (fun a u v e => |element a.ty e u - element a.ty e v|) fun a => elemCount a.ty) ∧
  Computes .pxclp specPxclp Safety.always (pixelRule fun _ x y z r => r = min (max x y) z) ∧
  Computes .pxnrm specPxnrm Safety.always pxnrmRule ∧
  Computes .pxdot specPxdot Safety.always (sumRule .n32 (fun a u v e => element a.ty e u * element a.ty e v) fun _ => 4)

/-- R40: `Fmt.round` delivers the code that the rounding mode chooses; without the flush of R41 and below the rounding of a zero. -/
def Obligations.RoundingIsCorrect : Prop :=
  ∀ f, f = fmt32 ∨ f = fmt16 ∨ f = fmtB16 → ∀ (rnd : Rnd) (neg : Bool) (m : Nat) (e : Int), 0 < m →
    ∃ r, RoundsTo f rnd neg (m * (2 : ℚ) ^ e) r ∧ (f.round false rnd neg m e).1 = f.signBit neg + r

/-- R128: sums, products and fused products, of every class of operand, while no class of exception traps. -/
def Obligations.FloatArithmeticComputes : Prop :=
  Computes .fadd specFadd Untrapped (fpRule faddRule) ∧
  Computes .fsub specFadd Untrapped (fpRule fsubRule) ∧
  Computes .fmul specFadd Untrapped (fpRule fmulRule) ∧
  Computes .ffma specFfma Untrapped (fpRule ffmaRule)

/-- R129 to R132: minimum, maximum, sign operations, comparison and class.
R134: the special operands of the approximated functions, and the exact reciprocals of powers of two (R133).
The model's choices in it: log 7. -/
def Obligations.FloatOrderAndSpecialOperands : Prop :=
  (Computes .fmin specFmin Untrapped (fpRule (fminRule false)) ∧
   Computes .fmax specFmin Untrapped (fpRule (fminRule true)) ∧
   Computes .fabs specFabs Untrapped (fpRule fabsRule) ∧
   Computes .fneg specFabs Untrapped (fpRule fnegRule) ∧
   Computes .fcmp specFcmp Untrapped fcmpRule ∧
   Computes .fclass specFclass Safety.always fclassRule) ∧
  (Computes .frcp specFrcp Untrapped (fun g q m a u v w d fl => specialRule frcpSpecial g q m a u v w d fl ∧ reciprocalOfPower g q m a u v w d fl) ∧
   Computes .frsq specFrcp Untrapped (specialRule frsqSpecial) ∧
   Computes .fex2 specFrcp Untrapped (specialRule fex2Special) ∧
   Computes .flg2 specFrcp Untrapped (specialRule flg2Special) ∧
   Computes .fsin specFrcp Untrapped (specialRule fsinSpecial) ∧
   Computes .fcos specFrcp Untrapped (specialRule fcosSpecial))

/-- R50, R135 to R137: conversions.
The model's choices in it: log 12. -/
def Obligations.ConversionsCompute : Prop :=
  Converts .cvt (fun c => c.dty.regs) (fun g q m c u _ d fl => cvtRule g q m c u d fl) ∧
  Converts .cvpk (fun _ => 1) cvpkRule

/-- R139 to R141: exchange, votes and ballots among the participants.
R142 and R143: the ordered folds of the participants' values, of integers and of FP32 values. -/
def Obligations.CrossLaneAndFoldsCompute : Prop :=
  (Crosses .shfl specShfl (fun _ _ => True) shflRule ∧
   Crosses .vote specVote (fun _ _ => True) voteRule ∧
   Crosses .ballot specBallot (fun _ _ => True) ballotRule) ∧
  (Crosses .red (specRed false) (fun g a => a.ty = .f32 → Untrapped g) redRule ∧
   Crosses .scan (specRed true) (fun g a => a.ty = .f32 → Untrapped g) scanRule)

-- Memory instructions

/-- R76, R144 to R147, R150: a load or store whose lanes have no cause begins one operation, which counts in LD or ST, and its run goes on.
R149, R151, R223, R224, R227, R320: what can be made as it issues is: a load finds the bytes that the L1 or the core's scratchpad holds; a near store is
written into the L1 and marked dirty, and the operation is gone; every other access is on its way to its slice, link, port or device.
R228: a releasing store holds its accesses, not its run.
The model's choices in it: log 49. -/
def Obligations.LoadsAndStoresBegin : Prop :=
  (∀ s q g h m,
     GlobalBegins .ld .read (fun m => .plain m.size.bytes) (fun q g h m a => opOf q g h m .load 0 a) Starts s q g h m ∧
     SpadBegins .lds true false (fun q g h m a => opOf q g h m .load 0 a) passes Starts s q g h m) ∧
  (∀ s q g h m,
     GlobalBegins .st .write (fun m => .plain m.size.bytes) (fun q g h m a => opOf q g h m .store 1 (carrying g m a))
       (StartsInOrder m.order StoredInL1) s q g h m ∧
     SpadBegins .sts false true (fun q g h m a => opOf q g h m .store 1 (carrying g m a)) passes (StartsInOrder m.order noEffect) s q g h m) ∧
  ∀ s q g h m, WindowResumes (.ld h m) s q g h ∧ WindowResumes (.st h m) s q g h

/-- R156: the atomics begin their operation, with B and for `atom.cas` the register after it; with RET it counts in LD.
R149, R157 and R224: a near atomic on a sector that the L1 holds is performed there as it issues, lane by lane: its bytes hold the new value, dirty, and RET
gives the old one; another asks for its sector; a wider one is sent to its home slice behind the dirty bytes of its sector, or over its link.
The model's choices in it: logs 11, 49. -/
def Obligations.AtomicsBegin : Prop :=
  ∀ s q g h m,
    let begins (i : Hdr → MemArg → Instr) (op : AtomOp) (c : MemArg → Option Reg) : Prop :=
      GlobalBegins i .atomic (fun m => .atomic (m.scope == .sys))
        (fun q g h m a => { opOf q g h m (if m.sx then .atomRet else .atomNoRet) (if m.sx then 0 else 1) a with
          sx := false, atom := some (op, atomicArgs g m (c m) a) })
        (StartsInOrder m.order AtomicsInL1) s q g h m
    begins .atomAdd .add (fun _ => none) ∧ begins .atomMin .min (fun _ => none) ∧ begins .atomMax .max (fun _ => none) ∧
    begins .atomAnd .and (fun _ => none) ∧ begins .atomOr .or (fun _ => none) ∧ begins .atomXor .xor (fun _ => none) ∧
    begins .atomExch .exch (fun _ => none) ∧ (begins .atomCas .cas fun m => m.b.bind (Reg.following m.size.regs)) ∧
    ∀ i ∈ [Instr.atomAdd h m, .atomMin h m, .atomMax h m, .atomAnd h m, .atomOr h m, .atomXor h m, .atomExch h m, .atomCas h m],
      WindowResumes i s q g h

/-- R152 and R153: a full/empty access begins an operation that says which bit it waits for and which it leaves; its run waits at
the instruction.
R152, R153 and R227: from the cycle after its arrival, the first request of a port that can be served, with none of its core's before it that came in
this cycle, is served in one step with the granule's bit: a read is answered with the bytes, a write is stored, and the bit becomes what the
instruction leaves; later full/empty requests for its granule stay.
The model's choices in it: log 45. -/
def Obligations.FullEmptyAccessesAreServed : Prop :=
  (∀ s q g h m,
     let load (i : Hdr → MemArg → Instr) (after : Bool) : Prop :=
       SpadBegins i true false (fun q g h m a => { opOf q g h m .load 0 a with scope := .cl, acq := true, fe := some (some true, after) })
         (waitsFor i) Begins s q g h m
     let store (i : Hdr → MemArg → Instr) (want : Option Bool) : Prop :=
       SpadBegins i false true (fun q g h m a => { opOf q g h m .store 1 (carrying g m a) with scope := .cl, fe := some (want, true) })
         (waitsFor i) Begins s q g h m
     load .ldfeKeep true ∧ load .ldfeClear false ∧ store .stfeKeep none ∧ store .stfeClear (some false)) ∧
  (∀ (s : State) core before r later want after, s.feq = before ++ r :: later → r.dst = core → s.feReady r = true → r.fe = some (want, after) →
     (∀ q ∈ before, q.dst = core → s.feReady q = false ∧ (q.arr = s.clock.cc → q.src ≠ r.src)) → r.arr ≠ s.clock.cc →
     (Completes (.fullEmptyServe core) s fun t => ∀ q ∈ later, q.dst = core → q.fe ≠ none → q.off / 16 = r.off / 16 → q ∈ t.feq) ∧
     (s.spStale r = false → (want = none ∨ want = some ((s.spad core).isFull r.off)) ∧ ((∀ q ∈ later, q.dst ≠ core) →
     Completes (.fullEmptyServe core) s fun t => t.feq = before ++ later ∧ (t.spad core).isFull r.off = after ∧
       (∀ a, a / 16 ≠ r.off / 16 → (t.spad core).isFull a = (s.spad core).isFull a) ∧
       (∀ o a, Outstanding s r.op r.lane o a → Answered s t r.op r.lane o
         (match r.bytes with
           | some _ => none
           | none => some ((s.spad core).read r.off r.len)) none) ∧
       match r.bytes with
       | none => (t.spad core).bytes = (s.spad core).bytes
       | some bs => (∀ i, i < bs.length → (t.spad core).byte (r.off + i) = bs.getD i 0) ∧
         ∀ a, (a < r.off ∨ r.off + bs.length ≤ a) → (t.spad core).byte a = (s.spad core).byte a)))

/-- R151 and R149: a store of a group's own scratchpad is performed as it issues: each byte holds what the highest lane that covers
it stores, every other byte is as it was, on this core and every other.
R227, R238: the next request from outside reaches a scratchpad port: a read is answered, a write stored, a stale write dropped and
counted; a full/empty request, and one behind a request of its core that has still its first turn or need not wait, takes its place among those that
wait: by cycle of arrival, the local core first, then peers by member number (R153). -/
def Obligations.ScratchpadsStoreAndServe : Prop :=
  (∀ s q g h m (x : Nat → Nat × Nat × Nat × Nat), Issues s (.sts h m) q g → acts h q g ≠ 0 → isRel m.order = false →
     s.spBehind g.info.core g.info.core = false →
     (∀ l ∈ actors h q g, Targets s q g false true (m.saddr g l) m.size.bytes (x l).1 (x l).2.1 (x l).2.2.1 (x l).2.2.2 ∧ (x l).1 = g.info.core) →
     Completes (.sts h m) s fun t =>
       (∀ c, c ≠ g.info.core → t.spad c = s.spad c) ∧ t.msys = s.msys ∧ t.cores = s.cores ∧
       (∀ a, (t.spad g.info.core).isFull a = (s.spad g.info.core).isFull a) ∧
       ∀ a, (t.spad g.info.core).byte a =
         match ((actors h q g).filter fun l => decide ((x l).2.1 ≤ a ∧ a < (x l).2.1 + m.size.bytes)).getLast? with
         | some l => (leBytes (dataOf g m.size.bytes l m.b) m.size.bytes).getD (a - (x l).2.1) 0
         | none => (s.spad g.info.core).byte a) ∧
  (∀ (s : State) core r before after, s.spIn = before ++ r :: after → r.dst = core → (∀ q ∈ before, q.dst ≠ core) →
     Completes (.scratchpadIncomingWrite core) s fun t => t.spIn = before ++ after ∧
       ((r.fe ≠ none ∨ s.spBehind r.src core = true) → t.spads = s.spads ∧ ∃ b a, s.feq = b ++ a ∧
         t.feq = b ++ { r with arr := s.cc, arrNs := s.clock.ns } :: a ∧ (∀ q ∈ b, q.arr ≤ s.cc ∧ (q.arr = s.cc → q.rank ≤ r.rank)) ∧
         ∀ q, a.head? = some q → s.cc < q.arr ∨ (q.arr = s.cc ∧ r.rank < q.rank)) ∧
       (r.fe = none → s.spBehind r.src core = false → t.feq = s.feq ∧
         (∀ o a, Outstanding s r.op r.lane o a → Answered s t r.op r.lane o
           (if r.bytes.isSome then none else some (if s.spStale r then List.replicate r.len 0 else (s.spad core).read r.off r.len)) none) ∧
         ∀ bs, r.bytes = some bs → r.tag = 0 → if s.stale r.alloc r.gen r.off bs.length r.issued s.clock.ns
           then t.spads = s.spads ∧ (t.core core).stalewr.toNat = min ((s.core core).stalewr.toNat + spans r.off bs.length) 0xFFFFFFFF
           else SpadWritten (s.spad core) (t.spad core) r.off bs))

/-- R154: a prefetch changes no register, counter or predicate, traps nothing, and its run goes on.
R222, R230: a line read ahead fills the L1 with clean bytes, each the last value that the core has sent for it or that of its home; no
byte that is dirty and no register changes.
The model's choices in it: log 51. -/
def Obligations.PrefetchAndReadAhead : Prop :=
  (∀ s q g h m, Issues s (.pref h m) q g → Completes (.pref h m) s fun t => GoOn t q (fun _ => nextPc h q) ∧
     ∃ k, t.group? q.gid = some k ∧ k.regs = g.regs ∧ SameSys g k ∧ k.pend = g.pend ∧ k.info = g.info ∧ k.busy = g.busy ∧
       SameOthers s t q.gid ∧ t.spads = s.spads ∧ t.ops = s.ops) ∧
  (∀ (s : State) core key pa, key < 256 → pa % 256 = 0 → pa < hbmSize →
     (s.msys.bad pa 256 = true → Completes (.readAhead core (key * 2 ^ 44 + pa / 256)) s fun t => t = s) ∧
     (s.msys.bad pa 256 = false → Completes (.readAhead core (key * 2 ^ 44 + pa / 256)) s fun t =>
       (∃ l1, t = (s.modMsys fun m => m.claims key pa 256).modCore core fun c => { c with l1 := l1 }) ∧
       ∀ i, i < 256 → (t.core core).l1Byte (pa + i) key = match (s.core core).l1Byte (pa + i) key with
         | some (b, true) => some (b, true)
         | _ => some (((s.core core).pending (pa + i) key).getD (s.msys.byte key (pa + i)), false)))

/-- R155 and R228: a fence with nothing to wait for lets its run go on, and its acquire part at `.cl` or wider leaves only dirty
bytes in the core's L1; an acquire fence behind a load of its lanes waits. A releasing fence waits for its release, which is complete once the
accesses of its group are, and beyond `.wg` once its close has been answered (at `.sys` its posted writes accepted too), and for the copies of its group.
R229: a close message reaches a slice behind the requests sent before it; the slice answers when its count is the number
announced, and zeroes the count; closes complete in their order, when every slice in service, and every slice still announced
requests, has answered.
The model's choices in it: log 54. -/
def Obligations.FencesAndPhasesOrder : Prop :=
  (∀ s q g h scope order, Issues s (.fence h scope order) q g → (Instr.fence h scope order).wf = true →
     (acts h q g = 0 → Completes (.fence h scope order) s fun t => GoOn t q (fun _ => nextPc h q) ∧ OnlyRuns s t q g) ∧
     (acts h q g ≠ 0 → isRel order = false → s.loadsOf q.gid (acts h q g) = [] → Completes (.fence h scope order) s fun t =>
       GoOn t q (fun _ => nextPc h q) ∧ t.msys = s.msys ∧ t.spads = s.spads ∧
       (t.core g.info.core).l1 = if nearScope scope then (s.core g.info.core).l1 else (s.core g.info.core).l1.filter (·.2.2)) ∧
     (acts h q g ≠ 0 → isAcq order = true → s.loadsOf q.gid (acts h q g) ≠ [] → Completes (.fence h scope order) s fun t =>
       ∃ k, t.group? q.gid = some k ∧ ∀ l, q.lanes.getLsbD l = true → ∃ w, StandsIn k l q.pc (.waiting w) ∧ w.why = .release ∧
         ∀ i ∈ s.loadsOf q.gid (acts h q g), i ∈ w.ops) ∧
     (acts h q g ≠ 0 → isRel order = true →
       let loads : Prop := isAcq order = true ∧ s.loadsOf q.gid (acts h q g) ≠ []
       let later : Prop := nearScope scope = false ∨ Owes s q.gid
       (¬ later → ¬ loads → s.copiesOf q.gid = [] → Completes (.fence h scope order) s fun t =>
         GoOn t q (fun _ => nextPc h q) ∧ t.msys = s.msys ∧ t.spads = s.spads ∧ t.cores = s.cores ∧ t.rels.find s.serial = none ∧
         ∀ r, r ≠ s.serial → t.rels.find r = s.rels.find r) ∧
       ((later ∨ loads ∨ s.copiesOf q.gid ≠ []) → Completes (.fence h scope order) s fun t =>
         ∃ k, t.group? q.gid = some k ∧ ∀ l, q.lanes.getLsbD l = true → ∃ w, StandsIn k l q.pc (.waiting w) ∧ w.why = .release ∧
           w.ins = some (.fence h scope order) ∧ (∀ i ∈ s.copiesOf q.gid, i ∈ w.ops) ∧ (loads → ∀ i ∈ s.loadsOf q.gid (acts h q g), i ∈ w.ops) ∧
           (later → ∃ r x, w.rel = some r ∧ t.rels.find r = some x ∧ x.gid = q.gid ∧ x.scope = scope ∧ x.op = none)))) ∧
  (∀ s q w g h scope order, let i : Instr := .fence h scope order
     Resumes s i q w g → w.lanes ≠ 0 →
     (WaitOver s w → Completes i s fun t => GoOn t q (fun _ => nextPc h q) ∧
       Acquired s t g.info.core (if isAcq order then scope else .none)) ∧
     (¬ WaitOver s w → Completes i s fun t => ∃ k, t.group? q.gid = some k ∧ ∀ l, q.lanes.getLsbD l = true → StandsIn k l q.pc (.waiting w))) ∧
  (∀ (s : State) id r, s.rels.find id = some r → r.op = none →
     let clear : Prop := ∀ o ∈ r.waitOps, s.ops.find o = none
     let closed : Prop := ∃ k, r.close = some k ∧ (∀ c ∈ (s.core r.core).closes, c.serial ≠ k) ∧
       (r.scope = .sys → ∀ d ∈ (s.core r.core).dev, d.write = true → d.gid ≠ r.gid)
     ((clear ∧ (nearScope r.scope = true ∨ closed)) → (s.relStep id).rels.find id = none ∧ (s.relStep id).cores = s.cores) ∧
     (clear → nearScope r.scope = false → r.close = none → (s.core r.core).closes.length < 3 →
       (∀ pa key, pa < 2 ^ 52 → ((s.relStep id).core r.core).l1Byte pa key = ((s.core r.core).l1Byte pa key).map fun e => (e.1, false)) ∧
       ∃ x k, (s.relStep id).rels.find id = some x ∧ x.close = some k ∧ ∃ c ∈ ((s.relStep id).core r.core).closes, c.serial = k ∧
         c.phase = (s.core r.core).phase) ∧
     ((¬ clear ∨ (nearScope r.scope = false ∧ r.close ≠ none ∧ ¬ closed)) → s.relStep id = s)) ∧
  (∀ (s : State) core slice older k younger, (s.core core).closes = older ++ k :: younger →
     ((∀ j ∈ older, ¬ ClosesAt s core slice j) → ClosesAt s core slice k → Completes (.phaseCloseMessage core slice) s fun t =>
       t = s.modCore core fun c => { c with closes := older ++ { k with reached := k.reached ++ [slice] } :: younger }) ∧
     ((∀ j ∈ older, ¬ CountsMatch s core slice j) → CountsMatch s core slice k → Completes (.phaseCloseAnswer core slice) s fun t =>
       let all := older ++ { k with answered := k.answered ++ [slice] } :: younger
       let whole (c : Close) : Bool := (s.msys.closeSlices c).all c.answered.contains
       ∃ u : State, t = u.relAll ∧ (u.core core).closes = (all.take 3).dropWhile whole ++ all.drop 3 ∧
         ∀ n, u.msys.counts.get 0 n = if n = countKey core k.phase slice then 0 else s.msys.counts.get 0 n))

-- Events of the memory system

/-- R76, R148, R151 and R156: when the data of a load are back, each lane without an error receives its value, little-endian and
extended, the operation ends and its counter falls.
R22, R100 and R355: a pipeline's write is done: it is pending no more, and registers are as they were written at issue. -/
def Obligations.ResultsReturn : Prop :=
  (∀ s core id lines o g, s.ops.find id = some o → o.ready = true → s.group? o.gid = some g →
     Completes (.loadDataReturn core id lines) s fun t =>
       t.ops.find id = none ∧ ∃ k, t.group? o.gid = some k ∧ k.ctr o.ctr = g.ctr o.ctr - 1 ∧
         ∀ d, o.d = some d → fits o.size d → o.u = false → (o.accs.map (·.lane)).Nodup →
           ∀ a ∈ o.accs, a.lane < 64 → a.err = none → a.done = true → Holds k o.size a.lane d (loadValue o.size o.sx (a.back.getD []))) ∧
  (∀ s gid id g, s.group? gid = some g → Completes (.registerResultWrite gid id) s fun t =>
     SameOthers s t gid ∧ ∃ k, t = s.setGroup gid k ∧ k.regs = g.regs ∧ k.sys = g.sys ∧ k.busy = g.busy.filter fun b => b.id != id)

/-- R225, R229, R290 and R314: the request at the head of a path, when it arrives. A slice that does not own its bucket answers NACK-REMAP;
a request queue that holds 64 of the core refuses it and a NACK comes back; else the queue takes it in. A slice that is not busy then
performs the oldest of the queue: a read is answered, and a near atomic is then made in the L1 (R157, R224); a write changes exactly its bytes and is counted for its phase, an atomic leaves
the new value and returns the old; what meets a sector with an uncorrectable error reports ECC_UNCORRECTABLE (R148).
The model's choices in it: log 52. -/
def Obligations.SliceRequests : Prop :=
  ∀ (s : State) core slice,
    (∀ r rest, Heads s core slice r rest →
      let q := (pathOf s core slice).queue
      (s.cc < r.due → Completes (.l2SliceRequest core slice true) s fun t => t = s) ∧
      (r.due ≤ s.cc → s.msys.sliceOf r.pa ≠ slice → Completes (.l2SliceRequest core slice true) s fun t => t.msys = s.msys ∧ t.ops = s.ops ∧
        (pathOf t core slice).st = .remapped ∧ (pathOf t core slice).window = r :: rest ∧ (pathOf t core slice).queue = q ∧
        (0, Instr.nackRemapReceived core slice) ∈ t.events) ∧
      (r.due ≤ s.cc → s.msys.sliceOf r.pa = slice → 64 ≤ q.length → Completes (.l2SliceRequest core slice true) s fun t =>
        t.msys = s.msys ∧ t.ops = s.ops ∧ (pathOf t core slice).st = .nacked ∧ (pathOf t core slice).window = r :: rest ∧
        (pathOf t core slice).queue = q ∧ ∃ due, (due, Instr.nackReceived core slice) ∈ t.events) ∧
      (r.due ≤ s.cc → s.msys.sliceOf r.pa = slice → q.length < 64 → Completes (.l2SliceRequest core slice true) s fun t =>
        t.msys = s.msys ∧ t.ops = s.ops ∧ (pathOf t core slice).st = .flowing ∧ (pathOf t core slice).window = rest ∧
        (pathOf t core slice).queue = q ++ [r])) ∧
    ∃ u, exec (.l2SliceRequest core slice true) s = .next u ∧
      ((pathOf u core slice).queue = [] → Completes (.l2SliceRequest core slice false) s fun t => t = u) ∧
      ∀ r rest, (pathOf u core slice).queue = r :: rest →
        (u.msys.sliceOf r.pa ≠ slice → Completes (.l2SliceRequest core slice false) s fun t => t.msys = u.msys ∧ t.ops = u.ops ∧
          (pathOf t core slice).st = .remapped ∧ (pathOf t core slice).all = (pathOf u core slice).all) ∧
        (u.msys.sliceOf r.pa = slice → Completes (.l2SliceRequest core slice false) s fun t => (pathOf t core slice).queue = rest ∧
          let counted : Prop := t.msys.counts.get 0 (countKey core r.phase slice) = u.msys.counts.get 0 (countKey core r.phase slice) + 1
          let bad : Bool := u.msys.bad r.pa r.len
          let m1 := u.msys.claims r.key r.pa r.len
          let c1 := (u.core core).modPath slice fun p => { p with queue := rest }
          let told (back : Option (List Byte)) (err : Option Cause) : Prop :=
            ∀ id o a, r.op = some id → Outstanding u id r.lane o a → Answered u t id r.lane o back err
          match r.kind with
          | .read =>
            (t.msys = u.msys ∨ t.msys = m1) ∧ (bad = true → told none (some .eccUncorrectable)) ∧
            (bad = false → ∀ id o a, r.op = some id → Outstanding u id r.lane o a → t.msys = m1 ∧
              (nearScope o.scope = false → Answered u t id r.lane o (some (c1.l1Over r.key r.pa (u.msys.bytes r.key r.pa r.len))) none) ∧
              (nearScope o.scope = true → let c2 := c1.l1Fill r.key r.pa (u.msys.bytes r.key r.pa r.len)
                Answered u t id r.lane o (some (c2.l1Read a.pa a.key o.size)) none ∧
                ∀ op args, o.atom = some (op, args) → ∀ i, i < o.size → (t.core core).l1Byte (a.pa + i) a.key = some
                  ((leBytes (atomNew op o.size (leNat (c2.l1Read a.pa a.key o.size)) (atomArgs args r.lane).1.toNat (atomArgs args r.lane).2.toNat)
                    o.size).getD i 0, true)))
          | .write bs => counted ∧ (u.msys.smapBusy = false → HomeWritten u.msys t.msys r.key r.pa bs) ∧
            told none (if u.msys.badWrite r.pa bs.length then some .eccUncorrectable else none)
          | .atomic op b c _ =>
            let old := u.msys.bytes r.key r.pa r.len
            counted ∧ (bad = true → told none (some .eccUncorrectable)) ∧
            (bad = false → told (some old) none ∧
              (u.msys.smapBusy = false → HomeWritten m1 t.msys r.key r.pa (leBytes (atomNew op r.len (leNat old) b.toNat c.toNat) r.len))))

/-- R290 and R314: what a queue refuses is sent again in its order: after the back-off at the slice that refused it, at once at the
slices that own it now when it met NACK-REMAP, its counts with it; the entries of the SVQ as far as there is room.
R305: an access to global memory not performed 64 µs after it was sent is discarded, and its lane receives BUS_ERROR; a copy or a matrix command with such
an access ends with 0x06 or records BUS_ERROR.
The model's choices in it: logs 53, 55. -/
def Obligations.RefusedAndLateAccessesEnd : Prop :=
  (∀ (s : State) core slice,
     let p := pathOf s core slice
     let backoff (n : Nat) : Nat := (s.core core).qbackoff * 2 ^ min n 4
     (p.st = .nacked → Completes (.nackReceived core slice) s fun t => t.ops = s.ops ∧ t.msys = s.msys ∧
       pathOf t core slice = { p with st := .backoff (s.clock.cc + backoff (p.nacks + 1)), nacks := p.nacks + 1 } ∧
       (s.clock.cc + backoff (p.nacks + 1), Instr.replayResend core slice) ∈ t.events) ∧
     (∀ due, p.st = .backoff due → due ≤ s.clock.cc → slice < 128 → Completes (.replayResend core slice) s fun t =>
       t.ops = s.ops ∧ t.msys = s.msys ∧ (pathOf t core slice).st = .flowing ∧ (pathOf t core slice).nacks = p.nacks ∧
       (pathOf t core slice).queue = p.queue ∧
       (pathOf t core slice).window.map again = p.window.map again) ∧
     (p.st = .remapped → Completes (.nackRemapReceived core slice) s fun t => t.ops = s.ops ∧ t.msys = s.msys ∧
       (pathOf t core slice).queue = [] ∧ ∀ d, let mine := p.all.filter fun r => s.msys.sliceOf r.pa == d
         (pathOf t core d).window.map again = (if d = slice then [] else (pathOf s core d).window.map again) ++ mine.map again ∧
         (d ≠ slice →
           (let k := (s.core core).phase * 128 + d
            (t.core core).sent.get 0 k = (s.core core).sent.get 0 k + writesIn mine (s.core core).phase) ∧
           ∀ (i : Nat) c, (s.core core).closes[i]? = some c → c.phase ≠ (s.core core).phase →
             ∃ c', (t.core core).closes[i]? = some c' ∧ c'.announced.get 0 d =
               (if 0 < writesIn mine c.phase ∧ d ∈ c.answered then 0 else c.announced.get 0 d) + writesIn mine c.phase)) ∧
     Completes (.replayResend core svqKey) s fun t => t.ops = s.ops ∧ t.msys = s.msys ∧
       let room := 256 - (s.core core).svq.length
       (t.core core).svqWin = (s.core core).svqWin.drop room ∧
       (t.core core).svq = (s.core core).svq ++ ((s.core core).svqWin.take room).map (·.stamped s.time)) ∧
  (∀ (s : State) core id lane o a t0, Outstanding s id lane o a → s.sentAt id o a = some t0 → t0 + 64000 ≤ s.clock.ns →
     Completes (.inFlightTimeout core id) s fun t => Answered s t id lane o none (some .busError) ∧
       ∀ slice r, r ∈ (pathOf t core slice).all → r.op = some id → r.lane ≠ lane) ∧
  (∀ (s : State) core id o, s.ops.find id = some o → (∀ a ∈ o.accs, ∀ t0, s.sentAt id o a = some t0 → s.clock.ns < t0 + 64000) →
     Completes (.inFlightTimeout core id) s fun t => t = s) ∧
  ∀ (s : State) core id, s.ops.find id = none → Completes (.inFlightTimeout core id) s fun t =>
    t.ops = s.ops ∧ t.msys = s.msys ∧ t.spads = s.spads ∧ t.cores = s.cores ∧ t.groups = s.groups ∧
    let cl := clusterOf core
    let late (n : Nat) (since : Option Nat) : Prop := n = id ∧ ∃ t0, since = some t0 ∧ t0 + 64000 ≤ s.clock.ns
    (∀ ch (i : Nat) r, (s.chan cl ch)[i]? = some r → ∃ r', (t.chan cl ch)[i]? = some r' ∧ (¬ late r.id r.since → r' = r) ∧
      (late r.id r.since → r' = { r with status := some 6, due := s.clock.cc, since := none })) ∧
    ∀ (i : Nat) e, (s.mxe cl).table[i]? = some e → ∃ e', (t.mxe cl).table[i]? = some e' ∧ (¬ late e.id e.since → e' = e) ∧
      (late e.id e.since → e' = { e with read := true, err := some .busError, due := s.clock.cc, since := none })

/-- R223, R256 and R348: the device answers the head of a core's path: a read with its bytes, an aperture word with the channel's
last status and its queue; a write to a window is acknowledged and takes effect next, and a refused one is reported.
R261: the configuration window of a BTE: the STOP bit; a word of templates or dictionary entries is written while the engine is
idle and ignored while it is not. -/
def Obligations.DeviceAndConfigurationAccesses : Prop :=
  (∀ (s : State) core d rest, (s.core core).dev = d :: rest →
     (d.write = false → Completes (.apertureStatusRead core) s fun t => (t.core core).dev = rest ∧
       ∀ o a, Outstanding s d.op d.lane o a →
         (s.deviceRead d = none → Answered s t d.op d.lane o none (some .busError)) ∧
         (∀ bs, s.deviceRead d = some bs → Answered s t d.op d.lane o (some bs) none) ∧
         ∀ c, c < 16 → d.pa = ioBase + 4096 * core + 8 * c → core < 384 → d.size = 8 →
           Answered s t d.op d.lane o (some (leBytes ((s.bte (clusterOf core)).last.get 0 c % 256 +
             ((s.chan (clusterOf core) c).filter (·.accepted)).length % 64 * 256) 8)) none) ∧
     (d.write = true → apertureStart d = none → Completes (.deviceWriteAck core) s fun t => ∃ u : State, t = u.relAll ∧ (u.core core).dev = rest ∧
       (s.deviceWrite d = none →
         (d.strict = true → ∀ o a, Outstanding s d.op d.lane o a → Answered s u d.op d.lane o none (some .busError)) ∧
         (d.strict = false → ∀ g, s.group? d.gid = some g → ∃ k, u.group? d.gid = some k ∧
           if d.nf then k.pend = g.pend ∧ ∀ l, d.lanes.getLsbD l = true → k.rdP 6 l = true
           else ∃ p, k.pend = g.pend ++ [p] ∧ p.cause = .busError ∧ p.mask = d.lanes ∧ p.pc = some d.pc)) ∧
       (s.deviceWrite d ≠ none → d.strict = true → ∀ o a, Outstanding s d.op d.lane o a → Answered s u d.op d.lane o none none) ∧
       (∀ cl off, cl < 96 → d.pa = ioBase + 0x1000000 + 65536 * cl + off →
         (off + d.size ≤ 0x4100 → (0, Instr.bteConfigWordWrite cl off (leBytes d.data.toNat d.size)) ∈ u.events) ∧
         (off = 0x4100 → 0 < d.size → (0, Instr.bteConfigStop cl (d.data.getLsbD 0)) ∈ u.events)) ∧
       ∀ off i, off < 64 → d.pa = ioBase + 0x2000000 + off → off % 8 = 0 → mgmtRow off (d.data.toNat % 2 ^ (8 * d.size)) = some i →
         (0, i) ∈ u.events)) ∧
  (∀ (s : State) cl,
     (∀ stop, Completes (.bteConfigStop cl stop) s fun t => t.bte cl = { s.bte cl with stop := stop } ∧ ∀ c, c ≠ cl → t.bte c = s.bte c) ∧
     ∀ off bytes,
       let idle : Prop := (s.bte cl).stop = true ∧ (∀ c ∈ (s.bte cl).chans, ∀ r ∈ c.2, r.accepted = false) ∧
         (s.bte cl).moves = [] ∧ ∀ r, s.resident = some r → (s.ctx r).saving = false
       let put (size base k : Nat) (e : List Byte) : List Byte := (List.range e.length).map fun j =>
         if off ≤ base + size * k + j ∧ base + size * k + j < off + bytes.length ∧ j < size then bytes.getD (base + size * k + j - off) 0 else e.getD j 0
       (¬ idle → Completes (.bteConfigWordWrite cl off bytes) s fun t => t.bte cl = s.bte cl) ∧
       (idle → off + bytes.length ≤ 0x4100 → Completes (.bteConfigWordWrite cl off bytes) s fun t =>
         (∀ k, k < 256 → (t.bte cl).templates.get (List.replicate 64 0) k = put 64 0 k ((s.bte cl).templates.get (List.replicate 64 0) k)) ∧
         (∀ k, k < 16 → (t.bte cl).dict.get (List.replicate 16 0) k = put 16 0x4000 k ((s.bte cl).dict.get (List.replicate 16 0) k)) ∧
         (t.bte cl).stop = (s.bte cl).stop))

/-- R304 and R305: a walk whose access passes every check sets A, and D for a write, and leaves the translation in the TLBs; any
other walk changes nothing but the key under which the lines it read are held (R225).
The model's choices in it: log 44. -/
def Obligations.WalksSetAccessed : Prop :=
  ∀ (s : State) core va acc user, va < 2 ^ 48 →
    let sp := (s.core core).space user
    let m1 := walkClaims va 3 sp.root s.msys
    (∀ e pa, walk s.msys sp.root va = .leaf e pa → leafCheck sp acc anyType e = none →
      Completes (.pageWalkComplete core va acc user) s fun t =>
        let e' : Dword := e ||| 0x800 ||| if isWrite acc then 0x80000000000000 else 0
        (t.core core).tlb.head? = some (mkTlb sp.asid va e' pa) ∧ (t.cluster (clusterOf core)).tlb.head? = some (mkTlb sp.asid va e' pa) ∧
        (e' = e → t.msys = m1) ∧ (e' ≠ e → s.msys.smapBusy = false → HomeWritten m1 t.msys 0 pa (leBytes e'.toNat 8))) ∧
    ((∀ e pa, walk s.msys sp.root va = .leaf e pa → leafCheck sp acc anyType e ≠ none) →
      Completes (.pageWalkComplete core va acc user) s fun t => t = s.modMsys fun _ => m1)

-- Copies, handles and tensor identifiers

/-- R159, R160, R164 and R256: each acting lane of `cpy` and `cpy.mc`, and a store to the aperture, sends one copy to its channel, where it stands until its
end; none is left only of a copy that the channel takes in at once and whose handle refuses it (code 3), or whose MASK is 0 (code 0). The handle takes or
refuses the lanes' copies in their order. A full replay window holds the run, which goes on when its copies have their places.
The model's choices in it: logs 16, 49, 73, 82 (a store to the page of another core). -/
def Obligations.CopiesAreSent : Prop :=
  (∀ s q g h c mc i, (i = .cpy h c ∧ mc = false) ∨ (i = .cpyMc h c ∧ mc = true) → Issues s i q g →
    let core := g.info.core
    let ch := c.chan.toNat
    let n := c.handle.toNat
    let bs := (s.bte (clusterOf core)).templates.get (List.replicate 64 0) c.tmpl.toNat
    let out := (tmplOf bs).out
    let good : Prop := tmplOk bs mc (tenOf (s.tenRec g.info.ctx (clusterOf core) (tmplOf bs).ten)) true = true
    let mask (l : Nat) : Nat := (c.b.elim 0 fun r => (g.rd32 l r).toNat) % 16
    let sent (t : State) (l : Nat) : Prop := ∃ n, Sent t ch s.serial l (copyOf s q g c mc s.serial n l)
    let goes (post : State → Prop) : Prop := acts h q g ≠ 0 → s.copyWindow core ch < 32 → Completes i s fun t =>
      (if t.copyWindow core ch ≤ 32 then GoOn t q (fun _ => nextPc h q) else WaitsAt t q (.window (chanKey ch)) (some i)) ∧
      (∃ k, t.group? q.gid = some k ∧ k.ctr 2 = if (t.ops.find s.serial).isSome then g.ctr 2 + 1 else g.ctr 2) ∧ post t
    SkipsEmpty i s q g h ∧
    (acts h q g ≠ 0 → 32 ≤ s.copyWindow core ch → Completes i s fun t => WaitsAt t q (.window (chanKey ch)) none) ∧
    (∀ w, Resumes s i q w g → w.lanes ≠ 0 → Completes i s fun t =>
      (32 < s.copyWindow core ch → t = s) ∧ (s.copyWindow core ch ≤ 32 → GoOn t q (fun _ => nextPc h q) ∧ OnlyRuns s t q g)) ∧
    (mc = false → ¬ good → goes fun t => t.handle core n = s.handle core n ∧ ∀ l ∈ actors h q g, sent t l) ∧
    (mc = false → good → goes fun t => ∃ hs : Nat → Handle, hs 0 = s.handle core n ∧ hs (actors h q g).length = t.handle core n ∧
      ∀ (j : Nat) l, (actors h q g)[j]? = some l →
        let room : Prop := HasRoomAfter s core ch ((List.range j).filter fun k => takes out (hs k)).length
        (room → Accepts out (hs j) (hs (j + 1)) ∧ (takes out (hs j) = true → sent t l) ∧ (takes out (hs j) = false → Told t s.serial l 3)) ∧
        (¬ room → hs (j + 1) = hs j ∧ sent t l)) ∧
    (mc = true → goes fun t => ∀ (j : Nat) l, (actors h q g)[j]? = some l →
      let room : Prop := HasRoomAfter s core ch (((actors h q g).take j).filter fun k => mask k != 0).length
      (room → mask l = 0 → Told t s.serial l 0) ∧ ((¬ room ∨ mask l ≠ 0) → sent t l)) ∧
    (mc = true → good → ∀ l, actors h q g = [l] → HasRoom s core ch →
      let ends := (s.mcMembers g.info.wg (mask l)).filterMap fun p => if p.2.isNone then some p.1 else none
      ends.Nodup → goes fun t => ∀ e ∈ ends, Accepts false (s.handle e n) (t.handle e n))) ∧
  ∀ (s : State) core d rest page ch, (s.core core).dev = d :: rest → d.write = true → d.size = 8 → ch < 16 → page < 384 →
    d.pa = ioBase + 4096 * page + 8 * ch →
    let n := (d.data >>> 8).toNat % 256
    let bs := (s.bte (clusterOf core)).templates.get (List.replicate 64 0) (d.data.toNat % 256)
    let out := (tmplOf bs).out
    let good : Prop := tmplOk bs false (tenOf (s.tenRec d.poster.ctx (clusterOf core) (tmplOf bs).ten)) true = true
    let starts (post : State → Prop) : Prop := Completes (.apertureCopyStart core ch d.data) s fun t => (t.core core).dev = rest ∧ post t
    let stands (t : State) : Prop := ∃ r, InChannel t ch r ∧ r.core = core ∧ r.gid = d.poster.gid ∧ r.ctx = d.poster.ctx ∧ r.op = d.copy ∧ r.mc = none ∧
      r.tmplNo = d.data.toNat % 256 ∧ r.handle = n ∧ r.coord = d.data >>> 16
    let refused (t : State) : Prop := (t.bte (clusterOf core)).last.get 0 ch = 3 ∧
      ∀ op o a, d.copy = some op → Outstanding s op d.lane o a → Told t op d.lane 3
    (¬ HasRoom s core ch → starts fun t => stands t ∧ t.handle core n = s.handle core n) ∧
    (HasRoom s core ch → 64 ≤ n → starts refused) ∧
    (HasRoom s core ch → n < 64 → ¬ good → starts fun t => stands t ∧ t.handle core n = s.handle core n) ∧
    (HasRoom s core ch → n < 64 → good → starts fun t => Accepts out (s.handle core n) (t.handle core n) ∧
      (takes out (s.handle core n) = true → stands t) ∧ (takes out (s.handle core n) = false → refused t))

/-- R159 to R164: the copy at the head of a channel completes: its data stand in the handle, its code is told, and the handle changes
state, unless it is no longer bound as the copy found it; one that meets an absent page is held under a fault record.
The model's choices in it: log 55. -/
def Obligations.CopiesComplete : Prop :=
  ∀ (s : State) cluster ch r rest e, s.copyHead cluster ch = some r → s.chan cluster ch = r :: rest → r.ends = [e] → e.code = none →
    let t0 := tmplOf r.tmpl
    let ten := tenOf r.ten
    let hd := s.handle e.core r.handle
    let done (code : Nat) (t : State) : Prop := t.chan cluster ch = rest ∧ (t.bte (clusterOf r.core)).last.get 0 ch = code ∧
      (s.bound r e = true → Ends t0.out code hd (t.handle e.core r.handle)) ∧ (s.bound r e = false → t.handle e.core r.handle = hd) ∧ ∀ op o a, r.op = some op → Outstanding s op r.lane o a → Told t op r.lane code
    (∀ code, r.status = some code → Completes (.copyComplete cluster ch) s (done code)) ∧
    (∀ s' code, r.status = none → s.moveCopy r = (s', .ok [(e.core, code)]) → Completes (.copyComplete cluster ch) s (done code)) ∧
    (r.status = none → s.bound r e = true → t0.out = false → t0.vat = 0 → r.mc = none → tmplOk r.tmpl false ten true = true →
      ∀ s1 bss a, allSteps (fun s ln => s.readLine r t0 ten ln) s (tileLines t0 false 0) = (s1, .ok bss) →
        bss.flatten.length ≤ hd.len → s.allocs.find e.alloc = some a → s.stale e.alloc e.gen (a.base + hd.base) bss.flatten.length s.clock.ns s.clock.ns = false →
        Completes (.copyComplete cluster ch) s fun t => done 0 t ∧
          Placed (s.spad a.core) (t.spad a.core) (a.base + hd.base) t0.swz (t0.pitch ten) bss.flatten) ∧
    ∀ s' er, r.status = none → s.moveCopy r = (s', .error er) → Completes (.copyPageFault cluster ch) s fun t =>
      ∃ tag, t.chan cluster ch = { r with held := some tag, dec := false } :: rest ∧
        ∃ f ∈ (t.core r.core).records, f.tag = tag ∧ f.kind = 2 ∧ f.gid = r.poster.gid

/-- R163 to R166: the handle instructions, for every state of the handle.
R167 and R168: the instructions on tensor identifiers: a record with VALID = 1 that breaks a rule traps OPERAND_ENCODING, an identifier
not valid holds zeros. -/
def Obligations.HandlesAndTensorIdentifiers : Prop :=
  (∀ s q g h n,
     let hd := s.handle g.info.core n.toNat
     let now (t : State) : Handle := t.handle g.info.core n.toNat
     (∀ d i (ok : HState → Prop), (i = .hwaitFull h d n ∧ ok = fun st => st = .full ∨ st = .error) ∨
         (i = .hwaitEmpty h d n ∧ ok = fun st => st = .empty ∨ st = .unbound ∨ st = .error) → Issues s i q g → i.wf = true →
       SkipsEmpty i s q g h ∧ (acts h q g ≠ 0 → ok hd.st → Completes i s fun t => LandsIn s t h q g 1 d (statusWord hd)) ∧
       (acts h q g ≠ 0 → ¬ ok hd.st → Completes i s fun t => WaitsAt t q .handle (some i))) ∧
     (∀ e a b, let i : Instr := .hsetBind h n e a b
       Issues s i q g → ∀ w al, s.wgs.find g.info.wg = some w → s.allocs.find w.alloc = some al → acts h q g ≠ 0 →
       let off := (g.rd32 (lowest (acts h q g)) a).toNat
       let len := (g.rd32 (lowest (acts h q g)) b).toNat
       let trap (c : Cause) : Prop := Completes i s fun t => t = s.takeTrap q.gid
         { cause := c, other := false, mask := acts h q g, pc := q.pc, npc := q.pc, addr := BitVec.ofNat 64 off, run := q.lanes }
       let waits : Prop := hd.st = .filling ∨ hd.st = .draining ∨ (hd.st = .error ∧ ¬ (hd.inward = 0 ∧ hd.outward = 0))
       ((off % 16 ≠ 0 ∨ len % 16 ≠ 0) → trap .misaligned) ∧
       (off % 16 = 0 → len % 16 = 0 → (len < 16 ∨ al.size < off + len) → trap .permission) ∧
       (off % 16 = 0 → len % 16 = 0 → 16 ≤ len → off + len ≤ al.size → waits → Completes i s fun t => WaitsAt t q .handle (some i)) ∧
       (off % 16 = 0 → len % 16 = 0 → 16 ≤ len → off + len ≤ al.size → ¬ waits → Completes i s fun t => GoOn t q (fun _ => nextPc h q) ∧
         (now t).st = .empty ∧ (now t).alloc = w.alloc ∧ (now t).gen = al.gen ∧ (now t).base = off ∧ (now t).len = len ∧
         (now t).expect = e.toNat ∧ (now t).dones = 0 ∧ (now t).last = 0)) ∧
     (∀ i, i = .hsetFull h n ∨ i = .hrel h n → Issues s i q g → acts h q g ≠ 0 →
       (NoOps s q.gid → Completes i s fun t => GoOn t q (fun _ => nextPc h q) ∧
         (i = .hsetFull h n → now t = if hd.st = .empty then { hd with st := .full } else { hd with last := 3 }) ∧
         (i = .hrel h n →
           ((hd.st = .unbound ∨ hd.st = .empty) → now t = hd) ∧
           ((hd.st = .full ∨ (hd.st = .error ∧ hd.inward = 0 ∧ hd.outward = 0)) → (now t).st = .empty ∧ (now t).dones = 0 ∧ (now t).last = hd.last) ∧
           ((hd.st = .filling ∨ hd.st = .draining ∨ (hd.st = .error ∧ ¬ (hd.inward = 0 ∧ hd.outward = 0))) → now t = { hd with last := 3 }))) ∧
       ((∃ p ∈ s.ops, p.2.gid = q.gid ∧ ∀ a ∈ p.2.accs, a.typ < 9) → Completes i s fun t => WaitsAt t q .release (some i)))) ∧
  (∀ s q g h n a,
     let rec_ (t : State) (k : Nat) : List Byte := t.tenRec g.info.ctx (clusterOf g.info.core) k
     let va := (g.rd64 (lowest (acts h q g)) a).toNat
     (Issues s (.tinv h n) q g → SkipsEmpty (.tinv h n) s q g h ∧ (acts h q g ≠ 0 → Completes (.tinv h n) s fun t =>
       GoOn t q (fun _ => nextPc h q) ∧ rec_ t n.toNat = List.replicate 128 0 ∧ (∀ k, k ≠ n.toNat → k < 256 → rec_ t k = rec_ s k) ∧
       t.msys = s.msys ∧ t.cores = s.cores)) ∧
     (∀ x, Issues s (.tset h n a) q g → acts h q g ≠ 0 → Reaches s q g .read .normal va 128 x → x.pa < hbmSize → s.msys.bad x.pa 128 = false →
       let bs := (s.nearRead g.info.core x.key x.pa 128).2
       ((tenOf bs).valid = false ∨ tenChecks bs = true → Completes (.tset h n a) s fun t => GoOn t q (fun _ => nextPc h q) ∧
         rec_ t n.toNat = (if (tenOf bs).valid then bs else List.replicate 128 0) ∧ ∀ k, k ≠ n.toNat → k < 256 → rec_ t k = rec_ s k) ∧
       ((tenOf bs).valid = true → tenChecks bs = false → ∃ u : State, Completes (.tset h n a) s fun t => t = u.takeTrap q.gid
         { cause := .operandEncoding, other := false, mask := acts h q g, pc := q.pc, npc := q.pc, addr := BitVec.ofNat 64 va, run := q.lanes } ∧
         u.tensors = s.tensors)) ∧
     ∀ x, Issues s (.tget h n a) q g → acts h q g ≠ 0 → Reaches s q g .write .normal va 128 x → x.pa < hbmSize →
       Completes (.tget h n a) s fun t => GoOn t q (fun _ => nextPc h q) ∧ t.tensors = s.tensors ∧ t.msys = s.msys ∧
         ∀ i, i < (rec_ s n.toNat).length → (t.core g.info.core).l1Byte (x.pa + i) x.key = some ((rec_ s n.toNat).getD i 0, true))

-- Matrix engines

/-- R33, R68, R169 to R174: a matrix instruction (`mxb`, `mxa`, `mxdrain`, `mxdrain.add`, `mxzero`) is collective over every lane of its
group; its command takes an entry of the table and TL rises; while the table is full or the cluster is stopped, the run waits.
R177: `mxfence` waits for the group's operations and register writes; `mxwait` waits for all but the youngest commands, and raises the
first error they recorded for every lane. -/
def Obligations.MatrixCommandsAreTakenAndAwaited : Prop :=
  (∀ s q g h i kind arr, i.hdr = some h → matrixKind s q g i = some (kind, arr) → Issues s i q g →
     let cl := clusterOf g.info.core
     let busy : Prop := 32 ≤ (s.mxe cl).table.length ∨ (s.bte cl).stop = true
     let whole : Prop := acts h q g = q.lanes ∧ q.lanes = fullLanes g.info.width
     SkipsEmpty i s q g h ∧
     (acts h q g ≠ 0 → ¬ whole → Completes i s fun t => t = s.takeTrap q.gid
       { cause := .illegalConvergence, other := false, mask := q.lanes, pc := q.pc, npc := q.pc, addr := 0, run := q.lanes }) ∧
     (acts h q g ≠ 0 → whole → busy → Completes i s fun t => WaitsAt t q .engine none) ∧
     (acts h q g ≠ 0 → whole → ¬ busy → Completes i s fun t => GoOn t q (fun _ => nextPc h q) ∧
       (∃ e, (t.mxe cl) = { s.mxe cl with table := (s.mxe cl).table ++ [e] } ∧ e.id = s.serial ∧ e.kind = kind ∧ e.arr = arr ∧ e.gid = q.gid ∧
         e.prio = g.info.prio ∧ e.granted = none ∧ e.held = none ∧ e.read = false ∧ e.arrived = false) ∧
       ∃ k, t.group? q.gid = some k ∧ k.regs = { g.regs with tl := g.regs.tl + 1 } ∧
         k.cmds = g.cmds ++ [{ entry := s.serial, pc := q.pc, complete := false, err := none }])) ∧
  (∀ s q g h, q.lanes = fullLanes g.info.width → q.lanes ≠ 0 → acts h q g = q.lanes →
     (Issues s (.mxfence h) q g → NoOps s q.gid →
       (g.busy = [] → Completes (.mxfence h) s fun t => GoOn t q fun _ => nextPc h q) ∧
       (g.busy ≠ [] → Completes (.mxfence h) s fun t => WaitsAt t q .release (some (.mxfence h)))) ∧
     ∀ n, Issues s (.mxwait h n) q g →
       let cov := g.cmds.take (g.cmds.length - n.toNat)
       ((∃ c ∈ cov, c.complete = false) → Completes (.mxwait h n) s fun t => WaitsAt t q .engine (some (.mxwait h n))) ∧
       ((∀ c ∈ cov, c.complete = true ∧ c.err = none) → Completes (.mxwait h n) s fun t => GoOn t q (fun _ => nextPc h q) ∧
         ∃ k, t.group? q.gid = some k ∧ k.cmds = g.cmds.drop cov.length ∧ k.regs = g.regs) ∧
       ∀ older c younger cause, cov = older ++ c :: younger → (∀ d ∈ cov, d.complete = true) → (∀ d ∈ older, d.err = none) → c.err = some cause →
         Completes (.mxwait h n) s fun t =>
           t = (s.setGroup q.gid { g with cmds := g.cmds.map fun d => if d.entry = c.entry then { d with err := none } else d }).takeTrap q.gid
             { cause := cause, other := false, mask := q.lanes, pc := q.pc, npc := q.pc, addr := c.pc.zeroExtend 64, run := q.lanes })

/-- R176, R178, R243 and R260: a free unit grants the ready entry of highest priority, then the oldest; an entry long ready is promoted; a
drain that meets an absent page is held under a fault record; the engine arrives for the group when the command has read its operands,
unless the group is a phase ahead, and then TL falls; an arrival of a group that is no member records PERMISSION. -/
def Obligations.MatrixTableWorks : Prop :=
  ∀ (s : State) cl,
    (∀ u e0, e0 ∈ (s.mxe cl).table → Grantable s cl u e0 → (s.mxe cl).unitFree s.clock.cc u = true → Completes (.mxeGrant cl u) s fun t =>
      ∃ older e younger due array, (s.mxe cl).table = older ++ e :: younger ∧ Grantable s cl u e ∧
        (∀ x ∈ older, Grantable s cl u x → grantRank x < grantRank e) ∧ (∀ x ∈ younger, Grantable s cl u x → grantRank x ≤ grantRank e) ∧
        (t.mxe cl).table = (s.mxe cl).table.map fun x => if x.id = e.id then { x with granted := some s.clock.cc, due := due, arrayEnd := array } else x) ∧
    (∀ id, Completes (.mxeAgePromotion cl id) s fun t => (t.mxe cl).table = (s.mxe cl).table.map fun x =>
      if x.id = id ∧ x.granted = none ∧ (∃ c, x.readySince = some c ∧ c + 16384 ≤ s.clock.cc) then { x with promoted := true } else x) ∧
    (∀ id e s' er va, s.mxDue cl id = some e → e.read = false → (∃ add ten coord bank z, e.kind = .drain add ten coord bank z) →
      s.mxEffect cl e = (s', .error (er, va)) → er.cause = .pageNotPresent → Completes (.mxeDrainFault cl id) s fun t => ∃ tag,
        (∃ f ∈ (t.core e.core).records, f.tag = tag ∧ f.kind = 2 ∧ f.gid = e.poster.gid) ∧ t.msys.mem = s'.msys.mem ∧
        (t.mxe cl).table = (s.mxe cl).table.map fun x =>
          if x.id = id then { x with held := some tag, granted := none, readySince := none, promoted := false } else x) ∧
    ∀ id e k, (s.mxArrivals cl).find? (·.id == id) = some e → e.arr = some k →
      let b := s.bar (barKey e.wg 0 k)
      let through (t : State) (note : MxCmd → MxCmd) : Prop :=
        (t.mxe cl).table = (s.mxe cl).table.map (fun x => if x.id = id then { x with arrived := true } else x) ∧
        (t.mxe cl).late = (s.mxe cl).late.filter (fun x => x.id != id) ∧ Noted s t e True note
      (e.gid ∈ b.members → b.count e.gid < 2 ∧ Completes (.engineBarrierArrival cl id) s fun t =>
        Counts b (t.bar (barKey e.wg 0 k)) (oneOf e.gid) ∧ through t fun c => c) ∧
      (e.gid ∉ b.members → Completes (.engineBarrierArrival cl id) s fun t => t.bars = s.bars ∧
        through t fun c => if c.entry = id ∧ c.err = none then { c with err := some .permission } else c)

/-- R56, R58 and R171 to R176: what a command does when its operands have been read: `mxzero`, `mxb`, passes in block and raw mode,
drains; its end when its time has passed; and the cause that a failed one records.
The model's choices in it: logs 19, 20 (a command other than a drain at an absent page), 46, 55. -/
def Obligations.MatrixCommandsComplete : Prop :=
  ∀ (s : State) cl id e, s.mxDue cl id = some e →
    let m := s.mxe cl
    let same (t : State) : Prop := (t.mxe cl).ac0 = m.ac0 ∧ (t.mxe cl).ac1 = m.ac1 ∧ (t.mxe cl).acRaw = m.acRaw ∧ (t.mxe cl).bb0 = m.bb0 ∧
      (t.mxe cl).bb1 = m.bb1 ∧ (t.mxe cl).raw = m.raw
    (e.read = true → Completes (.mxeCommandComplete cl id) s fun t => CommandEnds s t cl e e.err ∧ same t ∧ t.msys = s.msys ∧ t.spads = s.spads) ∧
    (e.read = false →
    (∀ bank raw, e.kind = .zero bank raw → Completes (.mxeCommandComplete cl id) s fun t => EffectMade s t cl e ∧
      (t.mxe cl).raw = raw ∧ ((t.mxe cl).ac bank) = [] ∧ (m.raw = true ∨ raw = true → (t.mxe cl).ac (!bank) = [] ∧ (t.mxe cl).acRaw = []) ∧
      (m.raw = false → raw = false → (t.mxe cl).ac (!bank) = m.ac (!bank))) ∧
    (∀ ten coord bb s' b, e.kind = .mxb ten coord bb → s.loadB e.acc (tenOf ten) coord = (s', .ok b) → Completes (.mxeCommandComplete cl id) s fun t =>
      EffectMade s t cl e ∧ (t.mxe cl).bb bb = b ∧ (t.mxe cl).bb (!bb) = m.bb (!bb) ∧ (t.mxe cl).ac0 = m.ac0 ∧ (t.mxe cl).ac1 = m.ac1) ∧
    (∀ ten bb bank reg s' t0 reg' ra, ((∃ coord, e.kind = .mxa ten coord bb bank ∧ reg = none) ∨
        (∃ rowq w16 vb, e.kind = .mxaReg ten rowq w16 vb bb bank ∧ reg = some w16)) →
      m.passOk (tenOf ten) bb reg = true → s.passRows m.raw e = (s', .ok (t0, reg', ra)) → Completes (.mxeCommandComplete cl id) s fun t =>
        EffectMade s t cl e ∧ (t.mxe cl).raw = m.raw ∧
        (m.raw = false → ((t.mxe cl).ac (!bank)) = m.ac (!bank) ∧ ∀ i j, j < 512 →
          (i ∈ ra.rows → BlockPass ra (m.bb bb) i j ((m.ac bank).get 0 (i * 512 + j)) (((t.mxe cl).ac bank).get 0 (i * 512 + j))) ∧
          (i ∉ ra.rows → ((t.mxe cl).ac bank).get 0 (i * 512 + j) = (m.ac bank).get 0 (i * 512 + j))) ∧
        (m.raw = true → ∀ i j, j < 512 →
          (i ∈ ra.rows → RawPass ra (m.bb bb) i j (m.acRaw.get 0 (i * 512 + j)) ((t.mxe cl).acRaw.get 0 (i * 512 + j))) ∧
          (i ∉ ra.rows → (t.mxe cl).acRaw.get 0 (i * 512 + j) = m.acRaw.get 0 (i * 512 + j)))) ∧
    (∀ add ten coord bank z s' sat, e.kind = .drain add ten coord bank z →
      s.drainTile m e.acc (tenOf ten) coord add bank = (s', .ok sat) → Completes (.mxeCommandComplete cl id) s fun t =>
        EffectMade s t cl e ∧ t.msys = s'.msys ∧ t.spads = s'.spads ∧ (t.mxe cl).raw = m.raw ∧
        (z = true → if m.raw then (t.mxe cl).acRaw = [] else (t.mxe cl).ac bank = [])) ∧
    ∀ s' er va, s.mxEffect cl e = (s', .error (er, va)) → isDrainFault e (er, va) = false → Completes (.mxeCommandComplete cl id) s fun t =>
      CommandEnds s t cl e (some (if er.cause = .pageNotPresent then .permission else er.cause)) ∧ same t)

-- Synchronisation

/-- R181: `bar.g`: guard-false lanes go on at once; the others wait until every live lane of the group waits at some `bar.g`, and then each goes
on after its own.
R182 to R186 and R266: `bar.arr`, `bar.wait` and `bar.sync`: membership, tokens, phases, the wait and its acquire; Check comes when all
arrivals of a cycle are counted. A wait whose limit has passed lasts until that cause is taken (R295).
The model's choices in it: logs 59, 95. -/
def Obligations.GroupsMeetAndBarriersCount : Prop :=
  (∀ s q g h, Issues s (.barG h) q g → (Instr.barG h).wf = true → acts h q g ≠ 0 →
     let others : Prop := ∀ r ∈ g.runs, r.lanes &&& ~~~q.lanes ≠ 0 → r.atBarG = true
     (acts h q g = q.lanes → others → Completes (.barG h) s fun t => GoOn t q (fun _ => nextPc h q) ∧
       ∃ k, t.group? q.gid = some k ∧ (∀ l, q.lanes.getLsbD l = true → StandsIn k l (nextPc h q) .ready) ∧
         ∀ r ∈ g.runs, ∀ l, r.lanes.getLsbD l = true → q.lanes.getLsbD l = false → (∀ r' ∈ g.runs, r'.lanes.getLsbD l = true → r' = r) →
           StandsIn k l (r.pc + 8) .ready) ∧
     (¬ (acts h q g = q.lanes ∧ others) → Completes (.barG h) s fun t => OnlyRuns s t q g ∧ ∃ k, t.group? q.gid = some k ∧
       (∀ l, (acts h q g).getLsbD l = true → ∃ w, StandsIn k l q.pc (.waiting w) ∧ w.why = .barrier ∧ w.ins = some (.barG h)) ∧
       ∀ l, q.lanes.getLsbD l = true → (acts h q g).getLsbD l = false → StandsIn k l (nextPc h q) .ready)) ∧
  (∀ s q g h (lvl : BitVec 2) (id : BitVec 6) key lch, s.barOf g lvl.toNat id.toNat = some (key, lch) →
     let b := s.bar key
     let tok : Word := b.ph + BitVec.ofNat 32 (b.arr.get 0 q.gid + b.sent.get 0 q.gid)
     let ahead : Prop := 2 ≤ b.arr.get 0 q.gid + b.sent.get 0 q.gid
     let arrived (t : State) : Prop :=
       if lvl.toNat < 2 then Counts b (t.bar key) (oneOf q.gid)
       else (t.bar key).ph = b.ph ∧ (t.bar key).sent.get 0 q.gid = b.sent.get 0 q.gid + 1 ∧
         if lvl.toNat = 2 then (s.clock.cc + 48, Instr.gridBarrierArrival lch id.toNat q.gid) ∈ t.events
         else (∃ due, (due, Instr.gangBarrierMessage lch id.toNat (some q.gid)) ∈ t.events) ∧
           ∀ la G, s.launches.find lch = some la → la.gang = some G → TellsGang s t G (.arrival id.toNat q.gid)
     let awaits (t : State) (i : Instr) : Prop := ∃ k, t.group? q.gid = some k ∧ ∀ l, q.lanes.getLsbD l = true →
       ∃ w, StandsIn k l q.pc (.waiting w) ∧ w.why = .barrier ∧ w.tok = some tok ∧ w.ins = some i
     (∀ i, (∃ d, i = .barArr h lvl id d) ∨ i = .barSync h lvl id → Issues s i q g → acts h q g ≠ 0 →
       (q.gid ∉ b.members → Traps i s q .permission (acts h q g) 0) ∧
       (q.gid ∈ b.members → (lvl ≠ 0 ∨ Owes s q.gid) → Completes i s fun t => WaitsAt t q .release (some i)) ∧
       (q.gid ∈ b.members → lvl = 0 → NoOps s q.gid → ahead → Completes i s fun t => WaitsAt t q .barrier (some i)) ∧
       (q.gid ∈ b.members → lvl = 0 → NoOps s q.gid → ¬ ahead →
         (∀ d, i = .barArr h lvl id d → i.wf = true → Completes i s fun t => arrived t ∧ GoOn t q (fun _ => nextPc h q) ∧
           ∃ k, t.group? q.gid = some k ∧ ∀ r, d = some r → ∀ l, (acts h q g).getLsbD l = true → ReadsAs k 1 l r (tok.zeroExtend 64)) ∧
         (i = .barSync h lvl id → Completes i s fun t => arrived t ∧ awaits t i))) ∧
     (∀ i w, (∃ d, i = .barArr h lvl id d) ∨ i = .barSync h lvl id → Resumes s i q w g → w.lanes ≠ 0 → w.tok = none → q.gid ∈ b.members →
       WaitOver s w → ¬ ahead → Completes i s fun t => arrived t ∧ (∀ d, i = .barArr h lvl id d → GoOn t q fun _ => nextPc h q) ∧
         (i = .barSync h lvl id → w.ins = some i → awaits t i)) ∧
     (∀ a, Issues s (.barWait h lvl id a) q g → acts h q g ≠ 0 →
       (PhaseOver b.ph (g.rd32 (lowest (acts h q g)) a) → Completes (.barWait h lvl id a) s fun t => GoOn t q (fun _ => nextPc h q) ∧
         t.bars = s.bars ∧ Acquired s t g.info.core (barScope lvl.toNat)) ∧
       (¬ PhaseOver b.ph (g.rd32 (lowest (acts h q g)) a) → Completes (.barWait h lvl id a) s fun t =>
         t.bars = s.bars ∧ WaitsAt t q .barrier (some (.barWait h lvl id a)))) ∧
     ∀ i w t0, (∃ a, i = .barWait h lvl id a) ∨ i = .barSync h lvl id → Resumes s i q w g → w.lanes ≠ 0 → w.tok = some t0 →
       let limit : Prop := ∃ p ∈ g.pend, p.isLimit = true ∧ p.run = some q.lanes
       (PhaseOver b.ph t0 → ¬ limit → Completes i s fun t => GoOn t q (fun _ => nextPc h q) ∧ t.bars = s.bars ∧ Acquired s t g.info.core (barScope lvl.toNat)) ∧
       ((¬ PhaseOver b.ph t0 ∨ limit) → w.ins = some i → Completes i s fun t => t.bars = s.bars ∧ WaitsAt t q .barrier (some i))) ∧
  ∀ (s : State) cc key, ((s.bar key).due = false → (s.checkBars cc).bar key = s.bar key) ∧
    ((s.bar key).due = true → Checks (s.bar key) ((s.checkBars cc).bar key))

/-- R184, R187, R263 and R287: arrivals that travelled land at their barrier; a wait past its limit raises BARRIER_TIMEOUT or
GANG_INCOMPLETE, and is kept for the return.
The model's choices in it: logs 18, 80 (the token of a `bar.sync` that has still to arrive). -/
def Obligations.BarrierMessages : Prop :=
  ∀ (s : State) lch bar gid,
    let b2 := s.bar (barKey lch 2 bar)
    let b3 := s.bar (barKey lch 3 bar)
    (gid ∈ b2.members → 0 < b2.sent.get 0 gid → Completes (.gridBarrierArrival lch bar gid) s fun t =>
      (if s.gridComes lch bar = true ∨ b2.last = s.clock.cc then Counts b2 (t.bar (barKey lch 2 bar)) (oneOf gid)
       else ∃ m, Counts b2 m (oneOf gid) ∧ Checks m (t.bar (barKey lch 2 bar))) ∧ (t.bar (barKey lch 2 bar)).sent.get 0 gid = b2.sent.get 0 gid - 1) ∧
    (gid ∈ b3.members → gid < 2 ^ 40 → 0 < b3.sent.get 0 gid → Completes (.gangBarrierMessage lch bar (some gid)) s fun t =>
      Counts b3 (t.bar (barKey lch 3 bar)) (oneOf gid) ∧ (t.bar (barKey lch 3 bar)).sent.get 0 gid = b3.sent.get 0 gid - 1) ∧
    (gid ∈ b3.members → 2 ^ 40 ≤ gid → b3.arr.get 0 gid < 2 → Completes (.gangBarrierMessage lch bar (some gid)) s fun t =>
      Counts b3 (t.bar (barKey lch 3 bar)) (oneOf gid)) ∧
    ((∃ m ∈ b3.members, 2 ^ 40 ≤ m ∧ b3.arr.get 0 m < 2) → Completes (.gangBarrierMessage lch bar none) s fun t =>
      Counts b3 (t.bar (barKey lch 3 bar)) fun m => if 2 ^ 40 ≤ m ∧ b3.arr.get 0 m < 2 then b3.members.count m else 0) ∧
    ∀ lanes g pc w lvl id lim inc, s.group? gid = some g → g.barWaitOf lanes = some (pc, w) → w.atBar = some (lvl, id) →
      s.barLimit g lvl = (lim, inc) → lim ≠ 0 → lim < w.waited →
      let c : Cause := if inc then .gangIncomplete else .barrierTimeout
      let addr : Dword := s.barToken gid g w lvl id ++ BitVec.ofNat 32 (lvl * 256 + id)
      let same (p : PendTrap) : Prop := p.run = some lanes ∧ (p.cause = .barrierTimeout ∨ p.cause = .gangIncomplete)
      (∀ tok, w.tok = some tok → s.barToken gid g w lvl id = tok) ∧
      (g.sys.intrap = false → (∀ p, g.nextPend = some p → p.isLimit = true) → Completes (.barrierTimeout gid lanes) s fun t => ∃ ps,
        (∀ p, p ∈ ps ↔ p ∈ g.pend ∧ ¬ same p) ∧ t = (s.setGroup gid { g with pend := ps, sys := { g.sys with saved := some (pc, w) } }).takeTrap gid
          { cause := c, other := false, mask := lanes, pc := pc, npc := pc, addr := addr, run := lanes }) ∧
      (g.sys.intrap = true → (∀ p ∈ g.pend, ¬ same p) → Completes (.barrierTimeout gid lanes) s fun t =>
        ∃ k p, t.group? gid = some k ∧ k.pend = g.pend ++ [p] ∧ p.cause = c ∧ p.mask = lanes ∧ p.pc = some pc ∧ p.addr = addr)

/-- R188 and R189: a broadcast is delivered at every core 48 cc after it issues, a releasing one after its release; a receive takes a value
newer than its group's last, and waits for one.
R190 and R191: the dataflow channels: their checks; a send ends its release, reaches the endpoint, and in a later cycle enters the
queue while there is room, in the order of arrival; a receive takes the
oldest payload into its own window. -/
def Obligations.BroadcastsAndChannelsDeliver : Prop :=
  ((∀ s q g h (slot : BitVec 4) a,
     (Issues s (.sbcast h slot false a) q g → acts h q g ≠ 0 → Completes (.sbcast h slot false a) s fun t => GoOn t q (fun _ => nextPc h q) ∧
       t.slots = s.slots ∧ (s.clock.cc + 48, Instr.scalarBroadcastDelivery (g.info.core * 2 + g.info.part, g.info.ctx) slot.toNat
         (g.rd64 (lowest (acts h q g)) a) false) ∈ t.events) ∧
     (Issues s (.sbcast h slot true a) q g → acts h q g ≠ 0 → Completes (.sbcast h slot true a) s fun t =>
       WaitsAt t q .release (some (.sbcast h slot true a))) ∧
     ∀ w, Resumes s (.sbcast h slot true a) q w g → w.lanes ≠ 0 → WaitOver s w → Completes (.sbcast h slot true a) s fun t =>
       GoOn t q (fun _ => nextPc h q) ∧ (s.clock.cc + 48, Instr.scalarBroadcastDelivery (g.info.core * 2 + g.info.part, g.info.ctx) slot.toNat
         (g.rd64 (lowest w.lanes) a) true) ∈ t.events) ∧
   (∀ s q g h (slot : BitVec 4) d v n rel, Issues s (.sbrecv h slot d) q g → (Instr.sbrecv h slot d).wf = true → acts h q g ≠ 0 →
     s.slots.get (0, 0, false) (slotKeyOf g.info.ctx slot.toNat) = (v, n, rel) →
     (n ≠ g.bseq.get 0 slot.toNat → Completes (.sbrecv h slot d) s fun t => GoOn t q (fun _ => nextPc h q) ∧ Acquired s t g.info.core (if rel then .dev else .none) ∧
       ∃ k, t.group? q.gid = some k ∧ k.bseq.get 0 slot.toNat = n ∧ ∀ l, (acts h q g).getLsbD l = true → ReadsAs k 2 l d v) ∧
     (n = g.bseq.get 0 slot.toNat → Completes (.sbrecv h slot d) s fun t => WaitsAt t q .event (some (.sbrecv h slot d)))) ∧
   ∀ (s : State) from_ ctx slot v rel, Completes (.scalarBroadcastDelivery (from_, ctx) slot v rel) s fun t =>
     t.slots.get (0, 0, false) (slotKeyOf ctx slot) = (v, (s.slots.get (0, 0, false) (slotKeyOf ctx slot)).2.1 + 1, rel) ∧
     ∀ k, k ≠ slotKeyOf ctx slot → t.slots.get (0, 0, false) k = s.slots.get (0, 0, false) k) ∧
  (∀ s q g h (ch : BitVec 3) a k c, s.chanKeyOf g ch.toNat = some k → s.chans.find k = some c → g.info.kind = .role →
     (∀ i, (i = .chsend h ch a ∧ c.producer = g.info.role) ∨ (i = .chrecv h ch a ∧ c.consumer = g.info.role) → Issues s i q g → acts h q g ≠ 0 →
       let addr := (g.rd32 (lowest (acts h q g)) a).toNat
       (addr % 16 ≠ 0 → Traps i s q .misaligned (acts h q g) (BitVec.ofNat 64 addr)) ∧
       let free : Prop := Unwatched s q g true (i = .chsend h ch a) (i = .chrecv h ch a) addr c.bytes
       (addr % 16 = 0 → ¬ free → Traps i s q .watch (acts h q g) (BitVec.ofNat 64 addr)) ∧
       (addr % 16 = 0 → free → (∀ core off, ¬ OwnRange s g addr c.bytes core off) → Traps i s q .permission (acts h q g) (BitVec.ofNat 64 addr)) ∧
       ∀ core off, addr % 16 = 0 → free → OwnRange s g addr c.bytes core off →
         (i = .chsend h ch a → Completes i s fun t => WaitsAt t q .release (some i)) ∧
         (i = .chrecv h ch a → c.queue = [] → Completes i s fun t => WaitsAt t q .channel (some i)) ∧
         (i = .chrecv h ch a → ∀ bs rest, c.queue = bs :: rest → s.aheadOn recvSide k q.gid s.clock.cc = false → Completes i s fun t =>
           GoOn t q (fun _ => nextPc h q) ∧ t.chans.find k = some { c with queue := rest } ∧ SpadWritten (s.spad core) (t.spad core) off bs ∧
           Acquired s t g.info.core .cl)) ∧
     ∀ w core off, Resumes s (.chsend h ch a) q w g → w.lanes ≠ 0 → WaitOver s w → c.producer = g.info.role →
       let addr := (g.rd32 (lowest w.lanes) a).toNat
       addr % 16 = 0 → OwnRange s g addr c.bytes core off →
       (w.why = .channel → c.queue.length < c.slots → s.aheadOn sendSide k q.gid w.endCc = false → Completes (.chsend h ch a) s fun t =>
         GoOn t q (fun _ => nextPc h q) ∧
         t.chans.find k = some { c with queue := c.queue ++ [(s.spad core).read off c.bytes] } ∧ t.spads = s.spads) ∧
       ((w.why ≠ .channel ∨ c.slots ≤ c.queue.length ∨ s.aheadOn sendSide k q.gid w.endCc = true) → Completes (.chsend h ch a) s fun t =>
         t.chans = s.chans ∧ ∃ n, t.group? q.gid = some n ∧ ∀ l, q.lanes.getLsbD l = true → ∃ w', StandsIn n l q.pc (.waiting w') ∧ w'.why = .channel))

/-- R192 and R193: a mailbox step of one lane: `mbget` takes the oldest entry and advances GETS; `mbput`, after its release, stores the entry and advances
PUTS; a step that must wait is tried again, or with TRY sets P6; a try again makes the step.
The model's choices in it: logs 56, 96. -/
def Obligations.MailboxSteps : Prop :=
  (∀ s q g h tr d a l x hd, Issues s (.mbget h tr d a) q g → (Instr.mbget h tr d a).wf = true → acts h q g ≠ 0 → actors h q g = [l] →
    HeaderAt s q g a l x hd →
    (∀ y, 0 < hd.held → EntryAt s q g false hd y → s.msys.smapBusy = false → Completes (.mbget h tr d a) s fun t => Took s t h q (acts h q g) tr d x y hd) ∧
    (hd.held = 0 → tr = true → Completes (.mbget h tr d a) s fun t => GoOn t q (fun _ => nextPc h q) ∧ t.msys = s.msys.claims x.key x.pa 64 ∧
      ∃ k, t.group? q.gid = some k ∧ ∀ l, (acts h q g).getLsbD l = true → k.rdP 6 l = true) ∧
    (hd.held = 0 → tr = false → Completes (.mbget h tr d a) s fun t => t.msys = s.msys.claims x.key x.pa 64 ∧
      WaitsAt t q .mailbox (some (.mbget h tr d a)))) ∧
  (∀ s q g h tr a b l x hd, Issues s (.mbput h tr a b) q g → acts h q g ≠ 0 → actors h q g = [l] → HeaderAt s q g a l x hd →
    (hd.held = 2 ^ hd.log2n ∨ ∃ y, EntryAt s q g true hd y) →
    Completes (.mbput h tr a b) s fun t => WaitsAt t q .release (some (.mbput h tr a b))) ∧
  (∀ s q w g h tr a b l x hd, Resumes s (.mbput h tr a b) q w g → WaitOver s w → w.lanes = laneBit l → l < 64 → HeaderAt s q g a l x hd →
    (∀ y, hd.held < 2 ^ hd.log2n → EntryAt s q g true hd y → s.msys.smapBusy = false → Completes (.mbput h tr a b) s fun t =>
      Put s t h q x y hd (g.rd64 l b)) ∧
    (hd.held = 2 ^ hd.log2n → tr = false → Completes (.mbput h tr a b) s fun t => t.msys = s.msys.claims x.key x.pa 64 ∧
      WaitsAt t q .mailbox (some (.mbput h tr a b)))) ∧
  ∀ (s : State) gid lanes g r w i, s.group? gid = some g → g.mailboxRun lanes = some (r, w, i) → breaksBudget g.info.budget i = false →
    let q : Issue := { gid := gid, lanes := r.lanes, pc := r.pc, resume := some w }
    (((∃ h tr a b, i = .mbput h tr a b) ∨ ∃ h tr d a, i = .mbget h tr d a) → ∃ t0, exec i { s with cur := some q } = .next t0 ∧
      Completes (.mailboxStepRetry gid lanes) s fun t => t = { t0 with cur := none }) ∧
    ∀ l x y hd a, w.lanes = laneBit l → l < 64 → HeaderAt s q g a l x hd →
      (∀ h tr d, i = .mbget h tr d a → i.wf = true →
        (0 < hd.held → EntryAt s q g false hd y → s.msys.smapBusy = false → Completes (.mailboxStepRetry gid lanes) s fun t =>
          Took s t h q w.lanes tr d x y hd) ∧
        (hd.held = 0 → tr = false → Completes (.mailboxStepRetry gid lanes) s fun t => t.msys = s.msys.claims x.key x.pa 64 ∧ WaitsAt t q .mailbox (some i))) ∧
      (∀ h tr b, i = .mbput h tr a b → WaitOver s w →
        (hd.held < 2 ^ hd.log2n → EntryAt s q g true hd y → s.msys.smapBusy = false → Completes (.mailboxStepRetry gid lanes) s fun t =>
          Put s t h q x y hd (g.rd64 l b)) ∧
        (hd.held = 2 ^ hd.log2n → tr = false → Completes (.mailboxStepRetry gid lanes) s fun t => t.msys = s.msys.claims x.key x.pa 64 ∧
          WaitsAt t q .mailbox (some i)))

-- Directory, census and work graphs

/-- R194, R195, R268 and R269: the tile directory: an entry is made in the lowest free place, deleted, moved; the end of a move writes the bytes, with
their tags (R239), then the target entry, and frees the source, or gives the source back with a code.
The model's choices in it: log 55. -/
def Obligations.DirectoryKeepsTiles : Prop :=
  (∀ s q g h pin d a b, let i : Instr := .dirins h pin d a b
    Issues s i q g → i.wf = true → acts h q g ≠ 0 →
    let m := lowest (acts h q g)
    let v := g.rd64 m b
    let off := v.toNat % 2 ^ 32
    let len := v.toNat / 2 ^ 32
    ((off % 16 ≠ 0 ∨ len % 16 ≠ 0) → Traps i s q .misaligned (acts h q g) v) ∧
    ∀ w al, s.wgs.find g.info.wg = some w → s.allocs.find w.alloc = some al → off % 16 = 0 → len % 16 = 0 →
      ((len = 0 ∨ al.size < off + len) → Traps i s q .permission (acts h q g) v) ∧
      (len ≠ 0 → off + len ≤ al.size → (∀ n, n < 128 → (s.dirOf g.info.core n).st ≠ .free) →
        Completes i s fun t => LandsIn s t h q g 1 d 0xFFFFFFFF) ∧
      ∀ n, len ≠ 0 → off + len ≤ al.size → n < 128 → (s.dirOf g.info.core n).st = .free → (∀ k, k < n → (s.dirOf g.info.core k).st ≠ .free) →
        Completes i s fun t => GoOn t q (fun _ => nextPc h q) ∧ SameMemory s t ∧
          (∃ k, t.group? q.gid = some k ∧ ∀ l, (acts h q g).getLsbD l = true → ReadsAs k 1 l d (BitVec.ofNat 64 n)) ∧
          t.dirOf g.info.core n = { st := if pin then .pinned else .valid, key := g.rd64 m a, asid := (s.ctx g.info.ctx).asid, alloc := w.alloc,
                                    gen := al.gen, off := off, len := len, deferred := [] } ∧
          ∀ k, k ≠ n → t.dirOf g.info.core k = s.dirOf g.info.core k) ∧
  (∀ s q g h a, let i : Instr := .dirdel h a
    Issues s i q g → acts h q g ≠ 0 →
    let n := (g.rd32 (lowest (acts h q g)) a).toNat
    let e := s.dirOf g.info.core n
    let named : Prop := n < 128 ∧ e.asid = (s.ctx g.info.ctx).asid ∧ (e.st = .valid ∨ e.st = .pinned)
    let p6 (t : State) (b : Bool) : Prop := ∃ k, t.group? q.gid = some k ∧ ∀ l, (acts h q g).getLsbD l = true → k.rdP 6 l = b
    (named → Completes i s fun t => GoOn t q (fun _ => nextPc h q) ∧ p6 t false ∧ (t.dirOf g.info.core n).st = .free ∧
      ∀ k, k ≠ n → t.dirOf g.info.core k = s.dirOf g.info.core k) ∧
    (¬ named → Completes i s fun t => GoOn t q (fun _ => nextPc h q) ∧ p6 t true ∧ t.cores = s.cores)) ∧
  (∀ s q g h d a b, let i : Instr := .tmove h d a b
    Issues s i q g → i.wf = true → acts h q g ≠ 0 →
    let n := (g.rd32 (lowest (acts h q g)) a).toNat
    let addr := (g.rd32 (lowest (acts h q g)) b).toNat
    let e := s.dirOf g.info.core n
    let named : Prop := n < 128 ∧ e.asid = (s.ctx g.info.ctx).asid ∧ e.st = .valid
    (addr % 16 ≠ 0 → Traps i s q .misaligned (acts h q g) (BitVec.ofNat 64 addr)) ∧
    (addr % 16 = 0 → (addr < 0x80000 ∨ 0x200000 ≤ addr) → Traps i s q .permission (acts h q g) (BitVec.ofNat 64 addr)) ∧
    (addr % 16 = 0 → 0x80000 ≤ addr → addr < 0x200000 → ¬ named → Completes i s fun t => GoOn t q (fun _ => nextPc h q) ∧
      ∃ k, t.group? q.gid = some k ∧ k.regs.tl = g.regs.tl ∧ ∀ l, (acts h q g).getLsbD l = true → ReadsAs k 1 l d 3) ∧
    (addr % 16 = 0 → 0x80000 ≤ addr → addr < 0x200000 → named → Completes i s fun t => GoOn t q (fun _ => nextPc h q) ∧
      t.dirOf g.info.core n = { e with st := .moving, deferred := [] } ∧ (∃ k, t.group? q.gid = some k ∧ k.regs.tl = g.regs.tl + 1) ∧
      ∃ mv due, (t.bte (clusterOf g.info.core)).moves = (s.bte (clusterOf g.info.core)).moves ++ [mv] ∧ mv.entry = n ∧ mv.core = g.info.core ∧
        mv.op = s.serial ∧ mv.tOff = addr % 0x80000 ∧ (due, Instr.tmoveComplete (clusterOf g.info.core) mv.id) ∈ t.events)) ∧
  ∀ (s : State) cl id mv, ((s.bte cl).moves.find? fun m => m.id == id && decide (m.due ≤ s.clock.cc)) = some mv →
    let e := s.dirOf mv.core mv.entry
    let told (t : State) (code : Nat) : Prop := ∀ o a, Outstanding s mv.op a.lane o a → o.accs.head? = some a → Told t mv.op a.lane code
    let back (t : State) : Prop := t.dirOf mv.core mv.entry = { e with st := .valid, deferred := [] }
    (∀ c, mv.status = some c → Completes (.tmoveComplete cl id) s fun t => told t c ∧ back t ∧ t.spads = s.spads) ∧
    ∀ al ta, mv.status = none → s.allocs.find e.alloc = some al → s.allocs.find mv.tAlloc = some ta →
      let start := ta.base + mv.tOff
      let stale := s.stale mv.tAlloc mv.tGen start e.len mv.issued s.clock.ns
      let origin := al.base + e.off
      (stale = true → Completes (.tmoveComplete cl id) s fun t => told t 1 ∧ back t ∧ t.spads = s.spads) ∧
      (stale = false → (∀ n, n < 128 → (s.dirOf mv.target n).st ≠ .free) → Completes (.tmoveComplete cl id) s fun t => told t 9 ∧ back t) ∧
      ∀ n, stale = false → n < 128 → (s.dirOf mv.target n).st = .free → (∀ k, k < n → (s.dirOf mv.target k).st ≠ .free) →
        (mv.core, mv.entry) ≠ (mv.target, n) → Completes (.tmoveComplete cl id) s fun t =>
          told t (n * 256) ∧
          (∀ i, i < e.len → (t.spad mv.target).byte (start + i) = (s.spad al.core).byte (origin + i) ∧
            (start % 16 = 0 → (t.spad mv.target).tagOf (start + i) = (s.spad al.core).tagOf (origin + 16 * (i / 16)))) ∧
          (∀ k, (k < start ∨ start + e.len ≤ k) → (t.spad mv.target).byte k = (s.spad mv.target).byte k) ∧
          (t.dirOf mv.core mv.entry).st = .free ∧
          t.dirOf mv.target n = { e with st := .valid, alloc := mv.tAlloc, gen := mv.tGen, off := mv.tOff, deferred := [] }

/-- R196 to R199, R267, R270 to R275: a solicit opens the lowest free slot of its core and asks every directory 48 cc after its message leaves; each
core queues a responder per match and reports their number; reports and replies are counted, and `census` takes the value.
R200, R288 and R289: `nrec`, after its release, posts a record at its bin; a bin with enough records, or one that has waited long enough, starts
a group with the records in its scratchpad.
The model's choices in it: logs 21, 22, 89. -/
def Obligations.CensusesAndWorkRecordsAct : Prop :=
  ((∀ s q g h (comb : BitVec 3) d (k : Fin 64), let i : Instr := .solicit h comb d k
     Issues s i q g → i.wf = true → acts h q g = q.lanes → q.lanes ≠ 0 →
     let sreg (n : Nat) : Dword := g.regs.s.get 0 (k.val + n)
     let core := g.info.core
     let bad : Prop := (sreg 3).toNat % 4 ≠ 0 ∨ 2 ^ 48 ≤ (sreg 3).toNat
     (bad → Traps i s q .misaligned q.lanes (sreg 3)) ∧
     (¬ bad → (∀ n, n < 4 → (s.censusAt (core * 4 + n)).st ≠ .free) → Completes i s fun t => WaitsAt t q .census (some i)) ∧
     ∀ n, ¬ bad → n < 4 → (s.censusAt (core * 4 + n)).st = .free → (∀ m, m < n → (s.censusAt (core * 4 + m)).st ≠ .free) →
       Completes i s fun t => GoOn t q (fun _ => nextPc h q) ∧
         (∃ g', t.group? q.gid = some g' ∧ ∀ l, q.lanes.getLsbD l = true → ReadsAs g' 1 l d (BitVec.ofNat 64 (core * 4 + n))) ∧
         (∃ c, t.censusAt (core * 4 + n) = c ∧ c.st = .opened ∧ c.serial = s.serial ∧ c.wg = g.info.wg ∧ c.ctx = g.info.ctx ∧ c.comb = comb.toNat ∧
           c.key = sreg 0 ∧ c.mask = sreg 1 ∧ c.arg = sreg 2 ∧ c.pc = sreg 3 ∧ c.value = cenIdentity comb.toNat ∧ c.err = false) ∧
         (s.clock.cc + 49, Instr.solicitSnapshot (cenRef s.serial (core * 4 + n))) ∈ t.events) ∧
   (∀ (s : State) ref c, s.census? ref = some c → c.st = .opened → s.resident = some c.ctx → Completes (.solicitSnapshot ref) s fun t =>
     (t.censusAt (ref % 2048)).st = .counting ∧ (t.censusAt (ref % 2048)).age = 0 ∧ ∀ core, core < 384 →
       let hits := if (s.ctx c.ctx).asid = c.asid then (s.core core).dir.filter (fun p => p.2.st != .free && p.2.asid == c.asid &&
         (p.2.key &&& c.mask) == (c.key &&& c.mask)) else []
       (∃ due, due ≤ s.clock.cc + 96 ∧ (due, Instr.censusReport ref hits.length) ∈ t.events) ∧
       ((∀ p ∈ hits, (s.dirOf core p.1).st ≠ .moving) → (s.core core).spawn.length + hits.length ≤ 256 →
         (t.core core).spawn.map unslotted = (s.core core).spawn.map unslotted ++ hits.map fun p => s.spawnOf ref (s.dirOf core p.1))) ∧
   (∀ (s : State) ref c, s.census? ref = some c → c.st = .counting →
     let done (reports replies spawned : Nat) : CenState := if reports = 384 ∧ replies = spawned then .complete else .counting
     (∀ n, Completes (.censusReport ref n) s fun t =>
       t.censusAt (ref % 2048) = { c with reports := c.reports + 1, spawned := c.spawned + n, st := done (c.reports + 1) c.replies (c.spawned + n) }) ∧
     (∀ v err, Completes (.censusReply ref v err) s fun t =>
       t.censusAt (ref % 2048) = { c with replies := c.replies + 1, value := cenCombine c.comb c.value v, err := c.err || err,
                                          st := done c.reports (c.replies + 1) c.spawned }) ∧
     (s.censusLate c = true → Completes (.censusTimeout ref) s fun t => t.censusAt (ref % 2048) = { c with st := .closed, err := true } ∧
       ∀ g, s.group? c.gid = some g → ∃ k p, t.group? c.gid = some k ∧ k.pend = g.pend ++ [p] ∧ p.cause = .censusTimeout ∧
         p.addr = BitVec.ofNat 64 (ref % 2048))) ∧
   (∀ (s : State) core before e after part slot due, (s.core core).spawn = before ++ e :: after →
     (∀ b ∈ before, ∀ p n since, b.slot = some (p, n, since) → s.clock.cc < since) → e.slot = some (part, slot, due) → due ≤ s.clock.cc →
     Completes (.responderStart core) s fun t => (t.core core).spawn = before ++ after ∧ ∃ k, t.group? (gidOf core part (33 + slot) e.ctx) = some k ∧
       k.info.kind = .responder e.census false ∧ k.info.width = 8 ∧ k.info.budget = 32 ∧
       (∀ l, l < 8 → StandsIn k l (e.pc.truncate 48) .ready) ∧ k.rd64 0 (.s 0) = e.key ∧ k.rd64 0 (.s 1) = BitVec.ofNat 64 e.off ∧
       k.rd64 0 (.s 2) = e.arg ∧ k.rd64 0 (.s 3) = BitVec.ofNat 64 e.len) ∧
   (∀ s q g h a ref answered, g.info.kind = .responder ref answered →
     (Issues s (.reply h a) q g → acts h q g ≠ 0 → q.lanes = g.live → Completes (.reply h a) s fun t => WaitsAt t q .release (some (.reply h a))) ∧
     (Issues s (.reply h a) q g → acts h q g ≠ 0 → q.lanes ≠ g.live → Traps (.reply h a) s q .illegalConvergence q.lanes 0) ∧
     ∀ w, Resumes s (.reply h a) q w g → w.lanes ≠ 0 → WaitOver s w → q.lanes = g.live → Completes (.reply h a) s fun t =>
       (∃ k, t.group? q.gid = some k ∧ k.info.kind = .responder ref true ∧ ∀ l, q.lanes.getLsbD l = true → k.pcOf l = none) ∧
       ∃ due, due ≤ s.clock.cc + 96 ∧ (due, Instr.censusReply ref (if (s.censusAt (ref % 2048)).comb = 6 then 1 else g.rd64 (lowest w.lanes) a) false) ∈ t.events) ∧
   ∀ s q g h a, let n := (g.rd32 (lowest (acts h q g)) a).toNat
     let c := s.censusAt n
     let named : Prop := n < 1536 ∧ c.wg = g.info.wg ∧ c.st ≠ .free ∧ c.st ≠ .orphan
     let ended : Prop := c.st = .complete ∨ c.st = .closed
     (∀ d, let i : Instr := .census h d a
       Issues s i q g → i.wf = true → acts h q g = q.lanes → q.lanes ≠ 0 →
       (¬ named → Traps i s q .operandEncoding q.lanes (BitVec.ofNat 64 n)) ∧
       (named → ¬ ended → Completes i s fun t => WaitsAt t q .census (some i)) ∧
       (named → ended → Completes i s fun t => GoOn t q (fun _ => nextPc h q) ∧ (t.censusAt n).st = .free ∧ Acquired s t g.info.core .dev ∧
         ∃ k, t.group? q.gid = some k ∧ ∀ l, q.lanes.getLsbD l = true → ReadsAs k 2 l d c.value ∧ k.rdP 6 l = c.err)) ∧
     ∀ p : Fin 8, let i : Instr := .cenpoll h p a
       Issues s i q g → i.wf = true → acts h q g ≠ 0 →
       (¬ named → Traps i s q .operandEncoding (acts h q g) (BitVec.ofNat 64 n)) ∧
       (named → Completes i s fun t => GoOn t q (fun _ => nextPc h q) ∧ t.cores = s.cores ∧
         ∃ k, t.group? q.gid = some k ∧ ∀ l, (acts h q g).getLsbD l = true → (k.rdP p.val l = true ↔ ended))) ∧
  ((∀ s q g h a b l nd core off, actors h q g = [l] → s.nodeAt g.info.launch (g.rd32 l a).toNat = some nd →
     (g.rd32 l b).toNat % 16 = 0 → Unwatched s q g true true false (g.rd32 l b).toNat nd.reclen → OwnRange s g (g.rd32 l b).toNat nd.reclen core off →
     Issues s (.nrec h a b) q g → Completes (.nrec h a b) s fun t => WaitsAt t q .release (some (.nrec h a b))) ∧
   (∀ s s' q g h a b l core off, Issues s (.nrec h a b) q g → actors h q g = [l] → s.nodeRead g.info.launch (g.rd32 l a).toNat = (s', none) →
     (g.rd32 l b).toNat % 16 = 0 → Unwatched s q g true true false (g.rd32 l b).toNat 1 → OwnRange s g (g.rd32 l b).toNat 1 core off →
     Completes (.nrec h a b) s fun t => t = s'.takeTrap q.gid { cause := .operandEncoding, other := false, mask := acts h q g, pc := q.pc, npc := q.pc, addr := BitVec.ofNat 64 (g.rd32 l a).toNat, run := q.lanes }) ∧
   (∀ s q w g h a b l nd core off, Resumes s (.nrec h a b) q w g → WaitOver s w → w.lanes = laneBit l → l < 64 →
     s.nodeAt g.info.launch (g.rd32 l a).toNat = some nd → (g.rd32 l b).toNat % 16 = 0 →
     Unwatched s q g true true false (g.rd32 l b).toNat nd.reclen → OwnRange s g (g.rd32 l b).toNat nd.reclen core off →
     let k := binNo g.info.launch (g.rd32 l a).toNat
     let r : Nat × List Byte := (s.clock.ns, (s.spad core).read off nd.reclen)
     s.binWindow g.info.core k = 0 → (s.bin k).records.length < 64 →
     (s.bin k).records.length + 1 < nd.coalesce → nd.timer = 0 →
     (s.nodeRead g.info.launch (g.rd32 l a).toNat).1.nodeAt g.info.launch (g.rd32 l a).toNat = some nd →
     Completes (.nrec h a b) s fun t => GoOn t q (fun _ => nextPc h q) ∧ t.bin k = { s.bin k with records := (s.bin k).records ++ [r] }) ∧
   ∀ (s : State) lch n nd lr core base gen part place more, s.nodeAt lch n = some nd → s.launches.find lch = some lr →
     let b := s.bin (binNo lch n)
     s.binDue nd b = true → s.resident = some lr.ctx → s.nodePlace nd = some (core, base, gen, (part, place) :: more) →
     Completes (.nodeBinTimer lch n) s fun t =>
       let take := min b.records.length nd.coalesce
       t.bin (binNo lch n) = { b with records := b.records.drop take } ∧
       (∀ j, j < (((b.records.take take).map (·.2)).flatten).length →
         (t.spad core).byte (base + j) = (((b.records.take take).map (·.2)).flatten).getD j 0) ∧
       ∃ k, t.group? (gidOf core part place lr.ctx) = some k ∧ k.info.kind = .node ∧ k.info.width = nd.width ∧ k.info.budget = nd.regs ∧
         (∀ l, l < nd.width → l < 64 → StandsIn k l (BitVec.ofNat 48 nd.pc) .ready) ∧
         k.rd64 0 (.s 0) = BitVec.ofNat 64 take ∧ k.rd64 0 (.s 1) = 0 ∧ k.rd64 0 (.s 2) = BitVec.ofNat 64 n)

-- System calls, exceptions, debugger, system registers

/-- R201 to R204 and R307: a system call parks its lanes and posts an entry for each; the supervisor takes entries in their order, and its return, after
a release, wakes the caller with new V0 and V1; an entry that has come of age ends a `halt`.
R209, R187: `iret` and a write of SYS.TRAPRET: the lanes that entered the handler go on at SYS.TRAPNPC, INTRAP falls, `iret` restores IE; a barrier wait
goes on at its own address; the returns that are refused.
The model's choices in it: log 14. -/
def Obligations.SystemCallsAndReturns : Prop :=
  ((∀ s q g h n, let i : Instr := .sys h n
     Issues s i q g →
     (g.info.kind = .super → Traps i s q .privilege q.lanes 0) ∧
     (g.info.kind ≠ .super → acts h q g ≠ 0 → g.sys.intrap = true → Traps i s q .syscall (acts h q g) 0) ∧
     (g.info.kind ≠ .super → acts h q g ≠ 0 → g.sys.intrap = false → Completes i s fun t =>
       let c := s.core g.info.core
       let c' := t.core g.info.core
       let room := if c.svqWin = [] then 256 - c.svq.length + 32 else 32 - c.svqWin.length
       let posted := (laneList (acts h q g)).take room
       (∃ k, t.group? q.gid = some k ∧ k.regs = g.regs ∧ LanesAt k (q.lanes &&& ~~~acts h q g) (nextPc h q) .ready ∧
         (∀ l ∈ posted, StandsIn k l q.pc .syscallParked) ∧
         ∀ l, (acts h q g).getLsbD l = true → l ∉ posted → ∃ w, StandsIn k l q.pc (.waiting w) ∧ w.why = .window svqKey ∧ w.ins = some i) ∧
       c'.svq.length + c'.svqWin.length = c.svq.length + c.svqWin.length + posted.length ∧
       (c.svqWin = [] → c'.svq = c.svq ++ (posted.take (256 - c.svq.length)).map fun l =>
         { words := callWords s q g n.toNat l, kind := 0, ctx := g.info.ctx, gid := q.gid, lane := l, posted := s.time, tag := 0 }))) ∧
   (∀ s q g h d, let i : Instr := .svqpop h d
     Issues s i q g → Completes i s fun t => GoOn t q (fun _ => nextPc h q) ∧
       (t.core g.info.core).svq = (s.core g.info.core).svq.drop (laneList (acts h q g)).length ∧
       ∃ k, t.group? q.gid = some k ∧ ∀ (n l : Nat), (laneList (acts h q g))[n]? = some l →
         match (s.core g.info.core).svq[n]? with
         | some e => (∀ (j : Nat) w, e.words[j]? = some w → k.regs.v.get 0 (vKey (d.val + j) l) = w) ∧ k.rdP 6 l = false
         | none => k.rdP 6 l = true) ∧
   (∀ s q g h a b, let i : Instr := .sysret h a b
     let caller (l : Nat) := s.callerOf g.info.core (g.rd32 l a) (g.rd32 l (Reg.shift a 1))
     let missed (t : State) : Prop := ∃ k, t.group? q.gid = some k ∧ ∀ l, (acts h q g).getLsbD l = true → caller l = none → k.rdP 6 l = true
     (Issues s i q g → acts h q g ≠ 0 → (∀ l, (acts h q g).getLsbD l = true → caller l = none) → Completes i s fun t =>
       GoOn t q (fun _ => nextPc h q) ∧ missed t) ∧
     (Issues s i q g → (∃ l c, (acts h q g).getLsbD l = true ∧ caller l = some c) → Completes i s fun t =>
       WaitsAt t q .release (some i) ∧ missed t) ∧
     ∀ w l, Resumes s i q w g → WaitOver s w → w.lanes = laneBit l → l < 64 →
       ∀ gid lane c pc, callerNamed g.info.core (g.rd32 l a) (g.rd32 l (Reg.shift a 1)) = (gid, lane) → gid ≠ q.gid → s.group? gid = some c →
         c.parkedAt lane = some pc → c.pcOf lane = some pc → lane < 64 → Completes i s fun t => GoOn t q (fun _ => nextPc h q) ∧
           (∃ k, t.group? q.gid = some k ∧ k.rdP 6 l = false) ∧
           ∃ k, t.group? gid = some k ∧ StandsIn k lane (pc + 8) .ready ∧ k.rd64 lane (.v 0) = g.rd64 l b) ∧
   ∀ (s : State) core g, s.group? (superGid core) = some g → (s.ipendOf core &&& (s.core core).imask &&& 4) ≠ 0 →
     Completes (.svqAgeWake core) s fun t => ∃ k, t.group? (superGid core) = some k ∧ ∀ r ∈ g.runs, ∀ l w h, r.lanes.getLsbD l = true →
       r.st = .waiting w → w.ins = some (.halt h) → (∀ r' ∈ g.runs, r'.lanes.getLsbD l = true → r' = r) → StandsIn k l (r.pc + 8) .ready) ∧
  (∀ s q g h i, i = .iret h ∨ (∃ a, i = .trapretWrite h a) → Issues s i q g → acts h q g ≠ 0 →
     let tr := g.sys.trap
     let mine := tr.run &&& g.live
     (g.sys.intrap = false → Traps i s q .privilege (acts h q g) 0) ∧
     (g.sys.intrap = true → mine &&& ~~~q.lanes ≠ 0 → Traps i s q .illegalConvergence q.lanes 0) ∧
     (g.sys.intrap = true → mine &&& ~~~q.lanes = 0 → (tr.npc.toNat % 4 ≠ 0 ∨ 2 ^ 48 ≤ tr.npc.toNat) → Traps i s q .misaligned (acts h q g) tr.npc) ∧
     (g.sys.intrap = true → mine &&& ~~~q.lanes = 0 → tr.npc.toNat % 4 = 0 → tr.npc.toNat < 2 ^ 48 → Completes i s fun t =>
       ∃ k, t = s.setGroup q.gid k ∧ k.regs = g.regs ∧ k.sys.intrap = false ∧ k.sys.trap = tr ∧ k.sys.saved = none ∧
         k.sys.ie = (if i = .iret h then g.sys.pie else g.sys.ie) ∧
         LanesAt k (q.lanes &&& ~~~tr.run) (nextPc h q) .ready ∧
         (∀ l, (mine &&& q.lanes).getLsbD l = true → k.pcOf l = some (tr.npc.truncate 48)) ∧
         (g.sys.saved = none → LanesAt k mine (tr.npc.truncate 48) .ready) ∧
         ∀ a w, g.sys.saved = some (a, w) →
           (a = tr.npc.truncate 48 → LanesAt k mine a (.waiting { w with waited := 0 })) ∧
           (a ≠ tr.npc.truncate 48 → LanesAt k mine (tr.npc.truncate 48) .ready)))

/-- R219, R220 and R331 to R333: `brk` traps after itself, and only goes on in the debug agent; a halt request or a breakpoint stops the partition
before the picked run issues; `dbgret` ends the stop.
R337 and R338: the stall sampler takes the next slot and writes its record while there is room; it counts the samples it drops, and a cause of
its write stops it with SMPERR.
The model's choices in it: logs 13, 26, 78. -/
def Obligations.DebuggerAndSamplerObserve : Prop :=
  ((∀ s q g h code, Issues s (.brk h code) q g → acts h q g ≠ 0 →
     (g.sys.debug = true → Completes (.brk h code) s fun t => GoOn t q (fun _ => nextPc h q) ∧ OnlyRuns s t q g) ∧
     (g.sys.debug = false → Completes (.brk h code) s fun t => t = (s.setGroup q.gid g).takeTrap q.gid
       { cause := .brk, other := false, mask := acts h q g, pc := q.pc, npc := nextPc h q, addr := code.zeroExtend 64, run := q.lanes })) ∧
   (∀ s q g h ov ss, Issues s (.dbgret h ov ss) q g → acts h q g ≠ 0 → g.info.part < 2 → Completes (.dbgret h ov ss) s fun t =>
     ((t.core g.info.core).part g.info.part).stopped = none ∧ ∃ k, t.group? q.gid = some k ∧ k.sys.debug = false ∧ k.sys.shadow = none ∧
       k.sched.stepping = ss ∧ k.sched.noBp = true ∧ k.regs = g.regs ∧ k.sys.saved = g.sys.saved ∧
       (let m := g.sys.trap.run &&& g.live
        let pc := entryPc g.sys.trap.npc
        let parked (r : Run) : Prop := (∃ w, r.st = .waiting w ∧ w.ins ≠ none) ∨ (∃ tag, r.st = .faultParked tag) ∨ r.st = .syscallParked
        k.sched.noWatch = (if ov then g.sched.noWatch ++ [(m, pc)] else g.sched.noWatch) ∧
        (∀ sh, g.sys.shadow = some sh → k.sys.trap = sh.trap ∧ k.sys.intrap = sh.intrap ∧
          (pc ≠ sh.npc → LanesAt k m pc .ready) ∧
          (pc = sh.npc → ∀ l, m.getLsbD l = true →
            ((∀ r ∈ sh.runs, r.lanes.getLsbD l = false) → StandsIn k l pc .ready) ∧
            ∀ r ∈ sh.runs, r.lanes.getLsbD l = true → (∀ r' ∈ sh.runs, r'.lanes.getLsbD l = true → r' = r) →
              (r.st = .ready → StandsIn k l r.pc .ready) ∧ (parked r → StandsIn k l r.pc r.st) ∧
              (r.st ≠ .ready → ¬ parked r → StandsIn k l pc .ready))) ∧
        (g.sys.shadow = none → LanesAt k m pc .ready))) ∧
   (∀ (s : State) core part, part < 2 → Completes (.dbgHaltRequest core part) s fun t => ((t.core core).part part).haltReq = true) ∧
   ∀ (s : State) q g core part, s.cur = some q → s.group? q.gid = some g → g.info.core = core → g.info.part = part → part < 2 →
     let tr (addr : Nat) : Trap :=
       { cause := .brk, other := false, mask := q.lanes, pc := q.pc, npc := q.pc, addr := BitVec.ofNat 64 addr, run := q.lanes }
     (((s.core core).part part).attach = true → ((s.core core).part part).haltReq = true → ((s.core core).part part).stopped = none →
       g.info.kind ≠ .super → Completes (.haltRequestServe core part) s fun t => StopsAt s t q.gid g (tr 0x30000)) ∧
     ∀ n, s.breakpointAt g q.pc = some n → Completes (.pcBreakpoint core part) s fun t => StopsAt s t q.gid g (tr (0x20000 + n))) ∧
  (∀ (s : State) core part gid g, part < 2 →
     let d := (s.core core).part part
     let d' (t : State) : PartDbg := (t.core core).part part
     d.smpEn = true → d.stopped = none → nextSlot ((s.groupsOf core part).filter fun p => !p.2.isSuper && !p.2.isResponder) d.lastSlot = some (gid, g) →
     (d.smpsize.toNat ≤ (d.smphead - d.smptail).toNat → Completes (.stallSample core part) s fun t => (d' t).lastSlot = g.info.place ∧
       (d' t).smpdrop.toNat = min (d.smpdrop.toNat + 1) 0xFFFFFFFF ∧ (d' t).smphead = d.smphead ∧ t.msys = s.msys) ∧
     ((d.smphead - d.smptail).toNat < d.smpsize.toNat → Completes (.stallSample core part) s fun t => (d' t).lastSlot = g.info.place ∧
       let at_ := d.smpbase.toNat + 32 * (d.smphead.toNat % d.smpsize.toNat)
       let reach (va : Nat) := s.xlate core ((s.core core).space false) .write normalOnly va
       (∀ x : Xlated, (∀ i, i < 32 → reach (at_ + i) = (s, .ok { x with pa := x.pa + i })) → x.pa + 32 ≤ hbmSize → s.msys.smapBusy = false →
         (d' t).smphead = d.smphead + 1 ∧ (d' t).smpdrop = d.smpdrop ∧ (d' t).smpEn = true ∧ (d' t).smpErr = d.smpErr ∧
         ∃ pc blame cls why, SampledAs s g pc blame cls why ∧
           HomeWritten s.msys t.msys x.key x.pa (sampleRecord s g core part pc blame cls why)) ∧
       (((∃ e, (reach at_).2 = .error e) ∨ ∃ x, (reach at_).2 = .ok x ∧ hbmSize ≤ x.pa) →
         (d' t).smphead = d.smphead ∧ (d' t).smpEn = false ∧ (d' t).smpErr = true ∧ (d' t).smpdrop.toNat = min (d.smpdrop.toNat + 1) 0xFFFFFFFF)))

/-- R205, R206, R298, R310, R313 and R315: system registers: reads give the register, writes its writable bits; in user mode a write changes the own group
only; the writes and reads with an effect of their own.
The model's choices in it: logs 23, 27. -/
def Obligations.SystemRegistersReadAndWrite : Prop :=
  (∀ s q g h n d, let i : Instr := .sysrd h n d
    Issues s i q g → i.wf = true → acts h q g ≠ 0 → Completes i s fun t =>
      LandsIn s t h q g (sysregRegs n) d (BitVec.ofNat 64 (s.sysRead g n.toNat)) ∧
      ∀ v, (n.toNat, v) ∈ plainRegister s g → s.sysRead g n.toNat = v) ∧
  (∀ s q g h d, let i : Instr := .trapqPop h d
    Issues s i q g → i.wf = true → acts h q g ≠ 0 →
    let word (t : State) (v : Word) : Prop := GoOn t q (fun _ => nextPc h q) ∧
      ∃ k, t.group? q.gid = some k ∧ ∀ l, (acts h q g).getLsbD l = true → ReadsAs k 1 l d (v.zeroExtend 64)
    ((s.core g.info.core).trapq = [] → Completes i s fun t => word t 0 ∧ (t.core g.info.core).tgSel = none) ∧
    ∀ e rest, (s.core g.info.core).trapq = e :: rest → Completes i s fun t => word t e.word ∧ (t.core g.info.core).trapq = rest ∧
      (t.core g.info.core).tgSel = e.gid) ∧
  (∀ s q g h n a, let i : Instr := .syswr h n a
    Issues s i q g → i.wf = true → acts h q g ≠ 0 → n ≠ 0x021#10 →
    let v := writeVal g n (lowest (acts h q g)) a
    Completes i s fun t => GoOn t q (fun _ => nextPc h q) ∧
      (g.priv = false → ∃ k, t = s.setGroup q.gid k ∧ k.regs = g.regs ∧ groupWritten g k n.toNat v) ∧
      (g.priv = true → (s.core g.info.core).tgSel ≠ some q.gid → (∃ k, t.group? q.gid = some k ∧ groupWritten g k n.toNat v) ∧
        coreWritten (s.core g.info.core) (t.core g.info.core) n.toNat v ∧ (n.toNat = 0x061 → t.ctxbase = v &&& 0xFFFFFFFFF000) ∧
        (n.toNat = 0x041 → t.dbgvec = v &&& 0xFFFFFFFFFFFC) ∧
        (n.toNat = 0x016 → (t.ctx (s.ctxOf g)).cenlim = v.truncate 32) ∧ (n.toNat = 0x017 → (t.ctx (s.ctxOf g)).barlim = v.truncate 32))) ∧
  (∀ s q g h a, let m := lowest (acts h q g)
    let v1 : Nat := (g.rd32 m a).toNat
    (Issues s (.ipiWrite h a) q g → acts h q g ≠ 0 → Completes (.ipiWrite h a) s fun t => GoOn t q (fun _ => nextPc h q) ∧
      (v1 % 512 < 384 → (s.clock.cc + 48, Instr.ipiDelivery (v1 % 512)) ∈ t.events) ∧ (384 ≤ v1 % 512 → t.events = s.events)) ∧
    (Issues s (.wdogWrite h a) q g → acts h q g ≠ 0 → Completes (.wdogWrite h a) s fun t => GoOn t q (fun _ => nextPc h q) ∧
      let k := t.ctx (s.ctxOf g)
      k.wdogCore = (g.rd64 m a).toNat / 2 ^ 32 % 2 ^ 9 ∧ k.wdogLimit = (g.rd64 m a).toNat % 2 ^ 32 ∧ k.wdogCnt = 0 ∧ k.wdogArmed = true) ∧
    (Issues s (.smapStageWrite h a) q g → acts h q g ≠ 0 → Completes (.smapStageWrite h a) s fun t => GoOn t q (fun _ => nextPc h q) ∧
      t.msys.smap = s.msys.smap ∧ ∀ b, t.msys.staging.get (b % 128) b =
        if b = v1 / 2 ^ 16 % 2 ^ 11 then v1 % 2 ^ 7 else s.msys.staging.get (b % 128) b) ∧
    (Issues s (.oemodeWrite h a) q g → acts h q g ≠ 0 → Completes (.oemodeWrite h a) s fun t => GoOn t q (fun _ => nextPc h q) ∧
      t.oemode = if s.oemodeOk (g.rd32 m a) then g.rd32 m a else s.oemode) ∧
    ∀ cw, Issues s (.laneCounterClear h cw a) q g → acts h q g ≠ 0 → Completes (.laneCounterClear h cw a) s fun t => GoOn t q (fun _ => nextPc h q) ∧
      t.selLane = { s.selLane with sym := 0, corrected := 0, uncorrectable := 0, retrains := 0 })

-- Translation, caches, interrupts, groups

/-- R210: `tlbinv` removes what it names from the core's and the cluster's TLB, and goes on; with `.glob` from every TLB of the package 48 cc
later, its run waiting until 96 cc have passed.
R211: `cwb` sends the dirty bytes of its lines to their home slices and leaves the lines clean, as one operation that counts in ST, and waits for
places of its requests in the replay windows (R290); `cinv`
discards the lines from the L1, or with `.l2` writes them to HBM and drops them from their home slice.
The model's choices in it: logs 49, 66. -/
def Obligations.TranslationsAndCachesAreCleaned : Prop :=
  ((∀ s q g h kind glob a b, let i : Instr := .tlbinv h kind glob a b
     Issues s i q g → acts h q g ≠ 0 →
     let m := lowest (acts h q g)
     let va : Dword := a.elim 0 fun r => g.rd64 m r
     let asid : Nat := b.elim 0 fun r => (g.rd32 m r).toNat % 4096
     (glob = false → Completes i s fun t => GoOn t q (fun _ => nextPc h q) ∧ t.msys = s.msys ∧
       (∀ e, e ∈ (t.core g.info.core).tlb ↔ e ∈ (s.core g.info.core).tlb ∧ ¬ Named kind va asid e) ∧
       (∀ e, e ∈ (t.cluster (clusterOf g.info.core)).tlb ↔ e ∈ (s.cluster (clusterOf g.info.core)).tlb ∧ ¬ Named kind va asid e) ∧
       ∀ c, c ≠ g.info.core → t.core c = s.core c) ∧
     (glob = true → Completes i s fun t => t.cores = s.cores ∧ (s.clock.cc + 48, Instr.tlbInvalidateApply kind va asid) ∈ t.events ∧
       ∃ k, t.group? q.gid = some k ∧ ∀ l, q.lanes.getLsbD l = true → ∃ w, StandsIn k l q.pc (.waiting w) ∧ w.why = .event ∧ w.ins = some i ∧
         w.endCc = s.clock.cc + 96)) ∧
   (∀ s q w g h kind glob a b, let i : Instr := .tlbinv h kind glob a b
     Resumes s i q w g → w.lanes ≠ 0 →
     (w.endCc ≤ s.clock.cc → Completes i s fun t => GoOn t q fun _ => nextPc h q) ∧
     (s.clock.cc < w.endCc → Completes i s fun t => ∃ k, t.group? q.gid = some k ∧ ∀ l, q.lanes.getLsbD l = true → StandsIn k l q.pc (.waiting w))) ∧
   ∀ s kind va asid, Completes (.tlbInvalidateApply kind va asid) s fun t => t.msys = s.msys ∧
     (∀ c e, e ∈ (t.core c).tlb ↔ e ∈ (s.core c).tlb ∧ ¬ Named kind va asid e) ∧
     ∀ c e, e ∈ (t.cluster c).tlb ↔ e ∈ (s.cluster c).tlb ∧ ¬ Named kind va asid e) ∧
  (∀ s q g h a,
     let core := g.info.core
     let held : Prop := ∀ r, a = some r → ∀ l ∈ actors h q g, (s.xlate core (s.gspace g) .read normalOnly (g.rd64 l r).toNat).1 = s
     WindowResumes (.cwb h a) s q g h ∧
     (Issues s (.cwb h a) q g → SkipsEmpty (.cwb h a) s q g h ∧ (acts h q g ≠ 0 → Completes (.cwb h a) s fun t =>
       GoesOnce (.cwb h a) s t q g h ∧ t.spads = s.spads ∧ (held → t.msys = s.msys ∧
       (∃ k, t.group? q.gid = some k ∧ k.ctr 1 = if (t.ops.find s.serial).isSome then g.ctr 1 + 1 else g.ctr 1) ∧
       ∀ pa key, pa < 2 ^ 52 →
         (¬ Covers s q g h a pa key → (t.core core).l1Byte pa key = (s.core core).l1Byte pa key) ∧
         (Covers s q g h a pa key → ((s.core core).l1Byte pa key = none → (t.core core).l1Byte pa key = none) ∧
           ∀ b d, (s.core core).l1Byte pa key = some (b, d) → (t.core core).l1Byte pa key = some (b, false) ∧
             (d = true → ∃ n r bs, r ∈ (pathOf t core n).window ∧ r.key = key ∧ r.kind = .write bs ∧ r.pa ≤ pa ∧ bs[pa - r.pa]? = some b))))) ∧
     ∀ l2, Issues s (.cinv h l2 a) q g → SkipsEmpty (.cinv h l2 a) s q g h ∧ (acts h q g ≠ 0 → (l2 = true → a ≠ none) →
       Completes (.cinv h l2 a) s fun t => GoOn t q (fun _ => nextPc h q) ∧ t.spads = s.spads ∧
         (∃ k, t.group? q.gid = some k ∧ k.regs = g.regs) ∧ (held →
         (l2 = false → t.msys = s.msys ∧ ∀ pa key, pa < 2 ^ 52 →
           (Covers s q g h a pa key → (t.core core).l1Byte pa key = none) ∧
           (¬ Covers s q g h a pa key → (t.core core).l1Byte pa key = (s.core core).l1Byte pa key)) ∧
         (l2 = true → t.cores = s.cores ∧ (∀ pa key, Covers s q g h a pa key → t.msys.l2.find (pa / 256) = none) ∧
           (∀ pa, (¬ ∃ key, Covers s q g h a pa key) → t.msys.l2.find (pa / 256) = s.msys.l2.find (pa / 256)) ∧
           ((∀ n ln, s.msys.l2.find n = some ln → ln.ver = s.msys.ver ln.key) → ∀ key pa, t.msys.byte key pa = s.msys.byte key pa)))))

/-- R213, R214, R299 and R300: `halt` waits for an enabled pending interrupt; `tmset` sets SYS.TIMECMP and clears bit TIMER, which is set again when
SYS.TIME gets there; an interrupt takes the run that holds lane 0 to the handler.
R298 and R306: what the supervisor does with a trapped group (resume, kill, kill its workgroup) and with a fault record (retry, deny): parked
lanes issue again, or the page's absence traps; held copies and engine commands go on, or end with their code.
The model's choices in it: logs 6, 25. -/
def Obligations.SupervisorIsInterruptedAndRepairs : Prop :=
  ((∀ s q g h,
     (Issues s (.halt h) q g → SkipsEmpty (.halt h) s q g h ∧ (acts h q g ≠ 0 →
       ((s.ipendOf g.info.core &&& (s.core g.info.core).imask) ≠ 0 → Completes (.halt h) s fun t => GoOn t q fun _ => nextPc h q) ∧
       ((s.ipendOf g.info.core &&& (s.core g.info.core).imask) = 0 → Completes (.halt h) s fun t => WaitsAt t q .event (some (.halt h))))) ∧
     (∀ w, Resumes s (.halt h) q w g → (s.ipendOf g.info.core &&& (s.core g.info.core).imask) ≠ 0 →
       Completes (.halt h) s fun t => GoOn t q fun _ => nextPc h q) ∧
     ∀ rel a, Issues s (.tmset h rel a) q g → acts h q g ≠ 0 → Completes (.tmset h rel a) s fun t => GoOn t q (fun _ => nextPc h q) ∧
       (t.core g.info.core).timecmp = g.rd64 (lowest (acts h q g)) a + (if rel then BitVec.ofNat 64 s.time else 0) ∧
       (t.core g.info.core).timerArmed = true ∧ (t.core g.info.core).ipend = (s.core g.info.core).ipend &&& 0xFFFFFFFE#32) ∧
   (∀ s core, Completes (.ipiDelivery core) s fun t => t = s.modCore core fun c => { c with ipend := c.ipend ||| 2#32 }) ∧
   (∀ (s : State) core,
     ((s.core core).timerArmed = true → (s.core core).timecmp.toNat ≤ s.time → Completes (.timerCompare core) s fun t =>
       (t.core core).ipend = (s.core core).ipend ||| 1#32 ∧ (t.core core).timerArmed = false) ∧
     (((s.core core).timerArmed = false ∨ s.time < (s.core core).timecmp.toNat) → Completes (.timerCompare core) s fun t => t = s)) ∧
   ∀ (s : State) core g r e, s.group? (superGid core) = some g → g.info.core = core → g.info.kind = .super → g.pick = some (r, e) → r.lanes.getLsbD 0 = true →
     g.sys.ie = true → (s.ipendOf core &&& (s.core core).imask) ≠ 0 → g.sys.intrap = false → g.sys.trapvec ≠ 0 →
     Completes (.interruptEntry core) s fun t => ∃ k, t = s.setGroup (superGid core) k ∧ k.regs = g.regs ∧
       LanesAt k r.lanes (entryPc g.sys.trapvec) .ready ∧ k.sys.pie = true ∧ k.sys.ie = false ∧ k.sys.intrap = true ∧
       k.sys.trap = { g.sys.trap with mask := 0, npc := r.pc.zeroExtend 64, run := r.lanes }) ∧
  ((∀ (s : State) core,
     ((s.core core).tgSel = none → ∀ i, i = Instr.tgactResume core ∨ i = .tgactKill core ∨ i = .tgactKillWg core → Completes i s fun t => t = s) ∧
     ∀ gid g, (s.core core).tgSel = some gid → s.group? gid = some g →
       (g.sched.trapped = false → Completes (.tgactResume core) s fun t => t = s) ∧
       (g.sched.trapped = true → Completes (.tgactResume core) s fun t => ∃ k, t = s.setGroup gid k ∧ k.regs = g.regs ∧ k.sched.trapped = false ∧
         k.sys.intrap = false ∧ k.sys.ie = g.sys.ie ∧ k.sys.trap = g.sys.trap ∧
         (g.sys.saved = none → LanesAt k (g.sys.trap.run &&& g.live) (entryPc g.sys.trap.npc) .ready)) ∧
       (Completes (.tgactKill core) s fun t => t = s.setGroup gid { g with runs := [], sched := { g.sched with trapped := false } }) ∧
       Completes (.tgactKillWg core) s fun t => t.cores = s.cores ∧ ∀ n k, s.group? n = some k → t.group? n = some
         (if k.info.wg = g.info.wg ∧ k.info.kind ≠ .super then { k with runs := [], sched := { k.sched with trapped := false } } else k)) ∧
   (∀ (s : State) core tag r, (s.core core).records.find? (fun r => r.tag == tag) = some r →
     let gone (t : State) : Prop := (t.core core).records = (s.core core).records.filter fun x => x.tag != tag
     (∀ g rn, r.kind = 1 → s.group? r.gid = some g → rn ∈ g.runs → rn.st = .faultParked tag → (∀ x ∈ g.runs, x.st = .faultParked tag → x = rn) →
       (Completes (.fltrelRetry core tag) s fun t => gone t ∧ ∃ k, t.group? r.gid = some k ∧ k.regs = g.regs ∧ k.sys = g.sys ∧
         LanesAt k rn.lanes rn.pc .ready) ∧
       Completes (.fltrelDeny core tag) s fun t => gone t ∧ ∃ (u : State) (k : Group), u.group? r.gid = some k ∧ k.regs = g.regs ∧ k.sys = g.sys ∧
         LanesAt k rn.lanes rn.pc .ready ∧
         (g.sys.intrap = false → g.sched.resident = true → t = u.takeTrap r.gid
           { cause := .pageNotPresent, other := false, mask := rn.lanes, pc := rn.pc, npc := rn.pc, addr := r.va, run := rn.lanes }) ∧
         ((g.sys.intrap = true ∨ g.sched.resident = false) → ∃ p, t = u.pendTrap r.gid p ∧ p.cause = .pageNotPresent ∧ p.mask = rn.lanes ∧
           p.pc = some rn.pc ∧ p.addr = r.va)) ∧
     (r.kind ≠ 1 → ∀ deny : Bool, Completes (if deny then .fltrelDeny core tag else .fltrelRetry core tag) s fun t => gone t ∧
       (∀ cl ch, t.chan cl ch = (s.chan cl ch).map fun q => if q.held = some tag ∧ q.core = core
         then { q with held := none, status := if deny then some 2 else q.status } else q) ∧
       (∀ cl, deny = false → (t.mxe cl).table = (s.mxe cl).table.map fun (e : MxEntry) => if e.held = some tag ∧ e.core = core then { e with held := none } else e) ∧
       (∀ cl, deny = true → (t.mxe cl).table = (s.mxe cl).table.filter (fun e => !(e.held == some tag && e.core == core)) ∧
         ∀ e ∈ (s.mxe cl).table, e.held = some tag → e.core = core → ∀ g, s.group? e.gid = some g → ∃ k, t.group? e.gid = some k ∧
           ∀ c ∈ k.cmds, c.entry = e.id → c.complete = true ∧ c.err ≠ none) ∧
       t.stCmds = s.stCmds.map fun (q : StCmd) => if q.held = some tag ∧ q.core = core then { q with held := none, early := if deny then some 2 else q.early } else q)) ∧
   ∀ s q g h a,
     let i : Instr := .syswr h 0x021#10 a
     (Issues s i q g → acts h q g ≠ 0 → Completes i s fun t => WaitsAt t q .release (some i)) ∧
     ∀ w, Resumes s i q w g → w.lanes ≠ 0 → WaitOver s w → Completes i s fun t => GoOn t q (fun _ => nextPc h q) ∧
       let v := (g.rd32 (lowest w.lanes) a).toNat
       (v / 2 ^ 16 % 4 < 2 → (t.core g.info.core).records = (s.core g.info.core).records.filter fun x => x.tag != v % 2 ^ 16) ∧
       (2 ≤ v / 2 ^ 16 % 4 → (t.core g.info.core).records = (s.core g.info.core).records))

/-- R30, R31, R36, R310 and R332: promotion and return of groups (not in a stopped partition), retirement, the end of a workgroup, and the watchdog. -/
def Obligations.GroupsComeAndGo : Prop :=
  (∀ (s : State) gid g, s.group? gid = some g →
    (∀ c, g.priv = false → g.sched.resident = true → g.pick ≠ none → g.sched.elig = some c → 4096 ≤ s.clock.cc - max g.sched.age c →
      Completes (.groupAgePromotion gid) s fun t => t = s.setGroup gid { g with sched := { g.sched with promoted := true } }) ∧
    (∀ c, g.sched.ret = some c → c ≤ s.clock.cc → s.frozen g = false → Completes (.groupReturn gid) s fun t =>
      t = s.setGroup gid { g with sched := { g.sched with ret := none } }) ∧
    (s.frozen g = true → Completes (.groupReturn gid) s fun t => t.group? gid = some g) ∧
    (g.runs = [] → g.info.kind ≠ .super → g.regs.ld = 0 → g.regs.st = 0 → g.regs.cp = 0 → g.regs.tl = 0 → Completes (.groupRetire gid) s fun t =>
      t.group? gid = none ∧ (∀ k, k ≠ gid → t.group? k = s.group? k) ∧ (∀ e ∈ (t.core g.info.core).trapq, e.gid ≠ some gid) ∧
      ((∀ ref a, g.info.kind ≠ .responder ref a) → ∀ w, s.wgs.find g.info.wg = some w →
        t.wgs.find g.info.wg = some { w with groups := w.groups.erase gid }) ∧
      ∀ ref, g.info.kind = .responder ref false →
        ∃ due, due ≤ s.clock.cc + 96 ∧ (due, Instr.censusReply ref (cenIdentity (s.censusAt (ref % 2048)).comb) true) ∈ t.events)) ∧
  (∀ (s : State) wg w, s.wgs.find wg = some w → w.groups = [] → w.ended = false → s.wgBusy wg = false → Completes (.workgroupEnd wg) s fun t =>
    t.wgs.find wg = some { w with ended := true } ∧ t.groups = s.groups ∧
    (∀ al, s.allocs.find w.alloc = some al → t.allocs.find w.alloc = some { al with released := some s.clock.ns }) ∧
    (∀ n, (s.handle w.core n).wg = wg → (t.handle w.core n).st = .unbound) ∧
    (∀ n e, (t.core w.core).dir.find n = some e → e.alloc ≠ w.alloc) ∧
    (∀ n, (s.censusAt (w.core * 4 + n)).wg = wg → n < 4 →
      (((s.censusAt (w.core * 4 + n)).st = .opened ∨ (s.censusAt (w.core * 4 + n)).st = .counting) → (t.censusAt (w.core * 4 + n)).st = .orphan) ∧
      (((s.censusAt (w.core * 4 + n)).st = .complete ∨ (s.censusAt (w.core * 4 + n)).st = .closed) → (t.censusAt (w.core * 4 + n)).st = .free)) ∧
    ∀ i, i < 64 → t.bars.find (barKey wg 0 i) = none) ∧
  ∀ (s : State) ctx, let c := s.ctx ctx
    ((c.wdogArmed = true ∧ c.wdogLimit ≠ 0 ∧ c.wdogLimit ≤ c.wdogCnt) → Completes (.watchdogExpiry ctx) s fun t => (t.ctx ctx).wdogArmed = false ∧
      (c.wdogCore < 384 → (∀ p ∈ s.cores, ∀ e ∈ p.2.trapq, ¬ (e.gid = none ∧ e.ctx = ctx)) →
        (t.core c.wdogCore).trapq = (s.core c.wdogCore).trapq ++ [{ word := BitVec.ofNat 32 (2 ^ 31 + ctx % 64 * 2 ^ 24 + 0x25 * 2 ^ 16), gid := none, ctx := ctx }])) ∧
    (¬ (c.wdogArmed = true ∧ c.wdogLimit ≠ 0 ∧ c.wdogLimit ≤ c.wdogCnt) → Completes (.watchdogExpiry ctx) s fun t => t = s)

-- Trapped groups, fault records, contexts, time

/-- R293, R308 and R5: requests for pre-emption, their withdrawal, the slice, the beginning of a save, the switch of contexts, the change of mode.
R265 and R313: the tick of the time base; a change of the slice map is staged, writes back what moves, and takes effect at once.
The model's choices in it: logs 24, 28, 33, 65, 81. -/
def Obligations.ContextsTimeAndSliceMapSwitch : Prop :=
  ((∀ (s : State) ctx, let c := s.ctx ctx
     let comes : Prop := ∃ e ∈ s.events, e.2 = .preemptionRequest ctx
     (c.preq = false → c.saving = false → ¬ comes → Completes (.preqRequest ctx) s fun t =>
       (s.clock.cc + 48, Instr.preemptionRequest ctx) ∈ t.events ∧ (t.ctx ctx).bySuper = true ∧ t.groups = s.groups) ∧
     (c.saving = false → Completes (.preqWithdraw ctx) s fun t => (t.ctx ctx).preq = false ∧ (∀ e ∈ t.events, e.2 ≠ .preemptionRequest ctx) ∧
       ∀ gid g, s.group? gid = some g → t.group? gid = some
         (if g.info.ctx = ctx ∧ g.info.kind ≠ .super then { g with sched := { g.sched with held := false } } else g)) ∧
     (c.saving = true → Completes (.preqWithdraw ctx) s fun t => t = s) ∧
     (s.resident = some ctx → c.saving = false → c.preq = false →
       (Completes (.preemptionRequest ctx) s fun t => t = s.modCtx ctx fun c => { c with preq := true, deadline := some (s.clock.cc + c.plim) }) ∧
       (¬ comes → c.sliceUs * 1000 ≤ c.sliceUsed → Completes (.timeSliceExpiry ctx) s fun t =>
         (s.leaves ctx = true → (s.clock.cc + 48, Instr.preemptionRequest ctx) ∈ t.events ∧ t.ctxs = s.ctxs) ∧
         (s.leaves ctx = false → t = s.modCtx ctx fun c => { c with sliceUsed := 0 }))) ∧
     ∀ i forced, s.resident = some ctx → c.preq = true → c.saving = false →
       s.debugStopped ctx = false → (i = .saveBegin ctx ∧ forced = false ∨
         (i = .forcedSave ctx ∧ forced = true ∧ (∀ e ∈ s.events, e.2 ≠ .saveBegin ctx) ∧ ∃ d, c.deadline = some d ∧ d ≤ s.clock.cc)) →
       Completes i s fun t => t.ctx ctx = { c with preq := false, saving := true, forced := forced, deadline := none } ∧ t.resident = s.resident ∧
         ∀ cl, cl < 96 → (t.bte cl).stop = true) ∧
   (∀ (s : State),
     let enters (n : Nat) (t : State) : Prop := t.resident = some n ∧ (t.ctx n).st = .resident ∧ ∀ core, core < 384 →
       (t.core core).asid = (s.ctxEntry n).asid ∧ (t.core core).keyid = (s.ctxEntry n).keyid
     (∀ n, s.resident = none → s.chooseNext = some n → Completes .contextSwitch s fun t => enters n t ∧
       ∀ gid g, s.group? gid = some g → g.info.kind ≠ .super → g.info.ctx = n → ∃ k, t.group? gid = some k ∧ k.sched.resident = true) ∧
     ∀ r, s.resident = some r → (s.ctx r).saving = true → s.drained r = true → Completes .contextSwitch s fun t =>
       (s.incoming = none → t.resident = none) ∧ (∀ n, s.incoming = some n → t.resident = some n ∧ (t.ctx n).st = .resident) ∧
       (s.incoming ≠ some r → (t.ctx r).st = .saved ∧
         ∀ gid g, s.group? gid = some g → g.info.kind ≠ .super → g.info.ctx = r → ∃ k, t.group? gid = some k ∧ k.sched.resident = false)) ∧
   ∀ (s : State),
     (∀ m since, s.resident = none → s.clock.modePending = some (m, since) →
       (since + 48 ≤ s.clock.cc → (m = .lull → s.msys.lullReady = true) →
         Completes .modeChange s fun t => t.clock = { s.clock with mode := m, modePending := none }) ∧
       ((s.clock.cc < since + 48 ∨ (m = .lull ∧ s.msys.lullReady = false)) → Completes .modeChange s fun t => t = s)) ∧
     ((s.resident ≠ none ∨ s.clock.modePending = none) → Completes .modeChange s fun t => t = s)) ∧
  (∀ (s : State),
     ((∀ v rest, s.clock.ticks = v :: rest → s.clock.cc < v.due) → Completes .timeBaseTick s fun t => t = s) ∧
     (∀ v rest, s.clock.ticks = v :: rest → v.due ≤ s.clock.cc → Completes .timeBaseTick s fun t =>
       let sent := timeAfter v.ns v.frac (s.clock.ran - v.ran) v.adj
       (∃ c, t = { s with clock := c }) ∧ t.clock.ticks = rest ∧ t.clock.ns = s.clock.ns ∧ t.clock.frac = s.clock.frac ∧ t.clock.copyAdj = v.adj ∧
       t.clock.copyNs * nsUnit + t.clock.copyFrac = max (s.clock.copyNs * nsUnit + s.clock.copyFrac) (sent.1 * nsUnit + sent.2)) ∧
     (s.msys.smapBusy = true → Completes .smapStart s fun t => t = s) ∧
     (s.msys.smapBusy = false → Completes .smapStart s fun t => t.msys.smapBusy = true ∧ t.msys.smap = s.msys.smap ∧
       t.msys.smapGen = s.msys.smapGen ∧ ∃ due, s.clock.cc + 48 ≤ due ∧ (due, Instr.sliceMapSwitch) ∈ t.events) ∧
     (s.msys.smapBusy = true → Completes .sliceMapSwitch s fun t => t.msys.smapBusy = false ∧ t.msys.smapGen = (s.msys.smapGen + 1) % 8 ∧
       (∀ b, t.msys.smap.get (b % 128) b = s.msys.staging.get (b % 128) b) ∧
       ((∀ n ln, s.msys.l2.find n = some ln → ln.ver = s.msys.ver ln.key) → ∀ key pa, t.msys.byte key pa = s.msys.byte key pa)))

-- Launches and gangs

/-- R212, R279, R280, R281, R284 and R286: `launch` after its release answers the code of its block and holds an accepted launch; the launch unit reserves its
placement, starts its groups, or ends it when its window has passed.
R285 and R287: the gang protocol: ARM, ACK, COMMIT, ABORT and reports, the coordinator at TRIGGER, and a member without a report.
The model's choices in it: logs 61, 62. -/
def Obligations.LaunchesAndGangsStart : Prop :=
  ((∀ s q g h d a, let i : Instr := .launch h d a
     let va := (g.rd64 (lowest q.lanes) a).toNat
     (Issues s i q g → SkipsEmpty i s q g h ∧ (acts h q g ≠ 0 → acts h q g ≠ q.lanes → Traps i s q .illegalConvergence q.lanes 0) ∧
       (acts h q g = q.lanes → q.lanes ≠ 0 →
         (va % 256 ≠ 0 → Traps i s q .misaligned q.lanes (BitVec.ofNat 64 va)) ∧
         (∀ s' bs, va % 256 = 0 → s.vbytes g.info.core (s.gspace g) va 2560 = (s', .ok bs) → Completes i s fun t => WaitsAt t q .release (some i)))) ∧
     ∀ w s1 s' bs code gang, Resumes s i q w g → i.wf = true → w.lanes = q.lanes → q.lanes ≠ 0 → WaitOver s w → va % 256 = 0 →
       s.vbytes g.info.core (s.gspace g) va 2560 = (s1, .ok bs) → s1.launchCode g.info.core (s1.gspace g) bs = (s', code, gang) →
       Completes i s fun t => GoOn t q (fun _ => nextPc h q) ∧
         (∃ k, t.group? q.gid = some k ∧ ∀ l, q.lanes.getLsbD l = true → ReadsAs k 1 l d (BitVec.ofNat 64 code)) ∧
         (code ≠ 0 → t.launches = s'.launches) ∧
         (code = 0 → ∃ l, t.launches.find s'.serial = some l ∧ l.ctx = (blockOf bs).ctx ∧ l.roles = (blockOf bs).roles ∧ l.teams = (blockOf bs).teams ∧
           l.trigger = (blockOf bs).trigger ∧ l.va = va ∧ l.reserved = false ∧ l.st = if gang.isSome then .pending else .committed)) ∧
   ∀ (s : State) n l, s.launches.find n = some l →
     (∀ ps, l.st.final = false → l.reserved = false → l.gang = none → s.placement l = some ps → Completes (.placementReserve n) s fun t =>
       t = { s with launches := s.launches.ins n { l with placed := ps, reserved := true } }) ∧
     (∀ c, l.inject = some c → l.st = .committed → c + 48 ≤ s.clock.cc → s.resident = some l.ctx →
       (l.placed.flatMap fun p => p.spots.map fun x => gidOf p.core x.1 x.2 l.ctx).Nodup → Completes (.gridStart n) s fun t =>
         (∃ l', t.launches.find n = some l' ∧ l'.st = (if l.late then .startedLate else .started) ∧ l'.reserved = false ∧ l'.startTime = s.time) ∧
         ∀ p ∈ l.placed, p.team < l.teams → ∀ (j : Nat) x role idx r, p.spots[j]? = some x → (roleIndexed l.roles)[j]? = some (role, idx, r) →
           ∃ k, t.group? (gidOf p.core x.1 x.2 l.ctx) = some k ∧ k.info.role = role ∧ k.info.width = r.width ∧ k.info.budget = r.regs ∧
             k.info.fair = r.fair ∧ k.info.prio = r.prio ∧ k.info.ctx = l.ctx ∧ k.sys.intrap = false ∧ k.sys.fpctl = 0 ∧ k.sys.trapvec = 0 ∧
             k.info.wid = some (widOf l.wid [0, idx, p.member, p.team, (l.gang.map (·.self)).getD 0, role]) ∧
             (∀ b, b < r.width → b < 64 → StandsIn k b (BitVec.ofNat 48 r.pc) .ready) ∧
             (∀ b, b < r.sinit.length → k.regs.s.get 0 b = BitVec.ofNat 64 (r.sinit.getD b 0)) ∧ k.regs.v = [] ∧ k.regs.p = []) ∧
     (l.trigger ≠ 0 → l.st.final = false → l.inject = none → l.late = false → l.trigger + l.window < s.time →
       (l.missedMode = 1 → Completes (.launchWindowExpiry n) s fun t => t = { s with launches := s.launches.ins n { l with late := true } }) ∧
       (l.missedMode ≠ 1 → Completes (.launchWindowExpiry n) s fun t =>
         (∃ l', t.launches.find n = some l' ∧ l'.st = (if l.missedMode = 0 then .missed else .faulted) ∧ l'.reserved = false) ∧
         (t.core l.core).ipend = if l.missedMode = 0 then (s.core l.core).ipend else (s.core l.core).ipend ||| 32#32)) ∧
     (s.time ≤ l.trigger + l.window → Completes (.launchWindowExpiry n) s fun t => t = s)) ∧
  (∀ (s : State) id,
     (s.gangLaunch id = none → Completes (.gangArm id) s fun t => id ∈ t.heldArms ∧ t.launches = s.launches) ∧
     ∀ n l g, s.gangLaunch id = some (n, l, g) → s.launches.find n = some l → l.gang = some g →
       let all (a : List Nat) : Prop := ∀ d, d < g.links.length → d ≠ g.self → d ∈ a
       let now (t : State) (st : LState) (g' : Gang) : Prop := ∃ l', t.launches.find n = some l' ∧ l'.st = st ∧ l'.gang = some g'
       (l.st.final = true → Completes (.gangArm id) s fun t => id ∈ t.heldArms ∧ t.launches = s.launches) ∧
       (g.self ≠ g.coord → l.st.final = false → Completes (.gangArm id) s fun t =>
         now t (if l.st = .pending ∧ l.reserved = true then .armed else l.st) { g with armHeld := true } ∧
         (l.st = .pending → l.reserved = true → TellsMember s t g .ack g.coord)) ∧
       (∀ dev, g.self = g.coord → dev ∉ g.acks → l.st = .armed → Completes (.gangAck id dev) s fun t =>
         (¬ all (g.acks ++ [dev]) → now t .armed { g with acks := g.acks ++ [dev] } ∧ t.outbox = s.outbox) ∧
         (all (g.acks ++ [dev]) → now t .committed { g with acks := g.acks ++ [dev] } ∧
           TellsGang s t g .commit)) ∧
       (Completes (.gangCommit id) s fun t => now t (if l.st = .armed then .committed else l.st) g) ∧
       ((l.st = .pending ∨ l.st = .armed) → Completes (.gangAbort id) s fun t => now t .aborted g ∧ TellsGang s t g (.report 8)) ∧
       ((l.st ≠ .pending ∧ l.st ≠ .armed) → Completes (.gangAbort id) s fun t => t = s) ∧
       (∀ dev (code : Byte), dev < g.links.length → dev ≠ g.self → Completes (.gangReport id dev code) s fun t =>
         ((code = 4 ∨ code = 5) → now t l.st { g with started := if dev ∈ g.started then g.started else g.started ++ [dev] }) ∧
         ((code = 6 ∨ code = 7 ∨ code = 8) → now t l.st { g with incomplete := true })) ∧
       (l.trigger ≠ 0 → l.trigger ≤ s.time → Completes (.gangTriggerReached n) s fun t => id ∉ t.heldArms ∧
         (g.self = g.coord → (l.st = .pending ∨ l.st = .armed) → ¬ all g.acks → now t .aborted g ∧ TellsGang s t g .abort) ∧
         ((g.self ≠ g.coord ∨ (l.st ≠ .pending ∧ l.st ≠ .armed) ∨ all g.acks) → now t l.st g)) ∧
       ((l.st = .started ∨ l.st = .startedLate) → l.trigger ≠ 0 → l.trigger + l.window + 1000000 ≤ s.time → ¬ all g.started →
         Completes (.gangReportTimeout n) s fun t => now t l.st { g with incomplete := true }))

-- Storage and network

/-- R215, R216, R328 and R329: each acting lane of `sread` and `swrite` issues a command, one that its grant does not admit with code 0x02; a command
completes with its code, its data moved, its handle told, and its completion interrupt.
R217, R218 and R323 to R326: `nsend` sends its payload or records the status that refuses it, and completes with it; a packet that arrives is laid in
its ring, and `nrecv` takes it; the ports of an engine in Ethernet mode.
The model's choices in it: logs 30, 31, 55, 76, 77, 84. -/
def Obligations.StorageAndNetworkComplete : Prop :=
  ((∀ s q g h x wr i, (i = .sread h x ∧ wr = false) ∨ (i = .swrite h x ∧ wr = true) → Issues s i q g →
     let gr := grantOf (s.grant (s.ctxOf g) x.grant.toNat)
     SkipsEmpty i s q g h ∧ (acts h q g ≠ 0 → Completes i s fun t => GoOn t q (fun _ => nextPc h q) ∧
       (∃ k, t.group? q.gid = some k ∧ k.ctr 2 = g.ctr 2 + 1) ∧ (t.ops.find s.serial).isSome = true ∧
       ∀ l ∈ actors h q g, ∃ c ∈ t.stCmds, c.op = s.serial ∧ c.lane = l ∧ c.write = wr ∧ c.lba = (g.rd64 l x.a).toNat ∧ c.count = (g.rd32 l x.b).toNat ∧
         c.kind = x.kind ∧ c.target = (if x.kind = .global then (g.rd64 l x.c).toNat else (g.rd32 l x.c).toNat) ∧ c.handle = x.handle.toNat ∧
         c.ns = gr.nsKey ∧ c.held = none ∧
         ((65536 < c.count ∨ gr.ok = false ∨ (if wr then gr.wr else gr.rd) = false ∨ c.lba < gr.base ∨ gr.base + gr.count < c.lba + c.count) → c.early = some 2) ∧
         (actors h q g = [l] → x.kind = .handle → (c.early = none ∨ c.early = some 3) →
           Accepts wr (s.handle g.info.core x.handle.toNat) (t.handle g.info.core x.handle.toNat)))) ∧
   ∀ (s : State) id q, s.stCmds.find? (fun q => q.id == id && q.goes) = some q →
     let gr := grantOf q.grant
     let done (code : Nat) (t : State) : Prop := (∀ c ∈ t.stCmds, c.id ≠ id) ∧ (∀ o a, Outstanding s q.op q.lane o a → Told t q.op q.lane code) ∧
       (q.kind = .handle → q.early = none → Ends q.write code (s.handle q.core q.handle) (t.handle q.core q.handle)) ∧
       (gr.ok = true → gr.word ≠ 0 → gr.irq = true → gr.core < 384 → (t.core gr.core).ipend.getLsbD 3 = true)
     (∀ c failed, q.early = some c → Completes (.storageComplete id failed) s (done c)) ∧
     (q.early = none →
       (∀ failed, q.count = 0 → Completes (.storageComplete id failed) s (done 0)) ∧
       (q.count ≠ 0 → Completes (.storageComplete id true) s (done 6)) ∧
       (q.count ≠ 0 → (s.namespace_ q.ns = none ∨ ∃ n, s.namespace_ q.ns = some n ∧ n.blocks < q.lba + q.count) →
         Completes (.storageComplete id false) s fun t => done 6 t ∧ t.nvme = s.nvme) ∧
       ∀ n, q.count ≠ 0 → s.namespace_ q.ns = some n → q.lba + q.count ≤ n.blocks →
         (∀ s' bs, q.write = true → s.stCollect q (q.count * n.blk) = (s', .ok (.ok bs)) → Completes (.storageComplete id false) s fun t => done 0 t ∧
           ∃ n', t.nvme.find q.ns = some n' ∧ n'.blk = n.blk ∧ n'.blocks = n.blocks ∧
             ∀ p d, n'.data.get d p = if q.lba * n.blk ≤ p ∧ p < q.lba * n.blk + bs.length then bs.getD (p - q.lba * n.blk) 0 else n.data.get d p) ∧
         (∀ w al, q.write = false → q.kind = .spad → q.vat = none → s.wgs.find q.wg = some w → s.allocs.find w.alloc = some al →
           q.count * n.blk ≤ al.size - q.target → s.stale w.alloc al.gen (al.base + q.target) (q.count * n.blk) s.clock.ns s.clock.ns = false →
           Completes (.storageComplete id false) s fun t => done 0 t ∧ SpadWritten (s.spad al.core) (t.spad al.core) (al.base + q.target)
             ((List.range (q.count * n.blk)).map fun j => n.data.get (Config.driveByte q.ns (q.lba * n.blk + j)) (q.lba * n.blk + j))) ∧
         ∀ s' e, s.stMove q = (s', .error e) → Completes (.storageComplete id false) s fun t => ∃ tag,
           (∃ f ∈ (t.core q.core).records, f.tag = tag ∧ f.kind = 2 ∧ f.gid = q.poster.gid) ∧
           t.stCmds = s'.stCmds.map fun (r : StCmd) => if r.id = id then { r with held := some tag, dec := false } else r)) ∧
  ((∀ s q g h x, let i : Instr := .nsend h x
     let m := lowest (acts h q g)
     let e := endpointOf (s.endpoint (s.ctxOf g) x.ep.toNat)
     let most := min (e.w4 % 2 ^ 14) 9216
     Issues s i q g → SkipsEmpty i s q g h ∧
       (∀ r, x.b = some r → acts h q g ≠ 0 → (g.rd32 m x.a).toNat % 16 ≠ 0 → Traps i s q .misaligned (acts h q g) ((g.rd32 m x.a).zeroExtend 64)) ∧
       let sent (post : SendRec → State → Prop) : Prop := Completes i s fun t => GoOn t q (fun _ => nextPc h q) ∧
         (∃ k, t.group? q.gid = some k ∧ k.ctr 2 = g.ctr 2 + 1) ∧ ∃ r ∈ t.sends, r.op = s.serial ∧ r.lanes = acts h q g ∧ r.gid = q.gid ∧
           (∀ c, r.status = some c → (0, Instr.nsendComplete r.id (BitVec.ofNat 8 c)) ∈ t.events) ∧ post r t
       (∀ r, x.b = some r → acts h q g ≠ 0 → (g.rd32 m x.a).toNat % 16 = 0 →
         (¬ ∃ core off, OwnRange s g (g.rd32 m x.a).toNat (g.rd32 m r).toNat core off) → sent fun r _ => r.status = some 2) ∧
       ∀ bs, acts h q g ≠ 0 →
         ((x.b = none ∧ bs = (laneList (acts h q g)).flatMap fun l => leBytes (g.rd32 l x.a).toNat 4) ∨
          ∃ r core off, x.b = some r ∧ (g.rd32 m x.a).toNat % 16 = 0 ∧ OwnRange s g (g.rd32 m x.a).toNat (g.rd32 m r).toNat core off ∧
            bs = (s.spad core).read off (g.rd32 m r).toNat) →
         (e.ok = false → sent fun r _ => r.status = some 2) ∧
         (e.ok = true → (bs = [] ∨ most < bs.length) → sent fun r _ => r.status = some 8) ∧
         (e.ok = true → bs ≠ [] → bs.length ≤ most → e.port ∉ s.portsUp → sent fun r _ => r.status = some 0x11) ∧
         (e.ok = true → bs ≠ [] → bs.length ≤ most → e.port ∈ s.portsUp → sent fun r t => r.status = none ∧ r.payload = bs ∧
           Out.net e.port e.rod e.a24 bs (s.stampOf e.port bs) ∈ t.outbox)) ∧
   (∀ (s : State) id status r, s.sends.find? (fun r => r.id == id) = some r →
     (r.status = none → sendStatus status = false → Completes (.nsendComplete id status) s fun t => t = s) ∧
     ((r.status = none → sendStatus status = true) → Completes (.nsendComplete id status) s fun t => (∀ x ∈ t.sends, x.id ≠ id) ∧
       ∀ o a, Outstanding s r.op (lowest r.lanes) o a → Told t r.op (lowest r.lanes) (r.status.getD status.toNat))) ∧
   (∀ s q g h d a b, let i : Instr := .nrecv h d a b
     let m := lowest (acts h q g)
     let v := (g.rd64 m a).toNat
     let addr := (g.rd32 m b).toNat
     let p : Held := { ctx := s.ctxOf g, ep := v / 2 ^ 44 % 64, off := v % 2 ^ 44, len := v / 2 ^ 50 }
     let word (st : Nat) : Dword := BitVec.ofNat 64 (p.len * 65536 + st)
     Issues s i q g → i.wf = true → acts h q g ≠ 0 →
       (addr % 16 ≠ 0 → Traps i s q .misaligned (acts h q g) (BitVec.ofNat 64 addr)) ∧
       (addr % 16 = 0 → p ∉ s.packets → Completes i s fun t => LandsIn s t h q g 1 d (word 2)) ∧
       (addr % 16 = 0 → p ∈ s.packets → (¬ ∃ core off, OwnRange s g addr p.len core off) → Completes i s fun t => LandsIn s t h q g 1 d (word 8)) ∧
       (∀ core off, addr % 16 = 0 → p ∈ s.packets → OwnRange s g addr p.len core off → ¬ Unwatched s q g true false true addr p.len →
         Traps i s q .watch (acts h q g) (BitVec.ofNat 64 addr)) ∧
       let s0 := (s.claimPhys ((s.ctx (s.ctxOf g)).epbase.toNat + 64 * (64 + p.ep)) 64).claimCtx (s.ctxOf g)
       ∀ core off s' bs, addr % 16 = 0 → p ∈ s.packets → OwnRange s g addr p.len core off → Unwatched s q g true false true addr p.len →
         s0.vbytes g.info.core (s0.ctxSpace (s.ctxOf g)) ((endpointOf (s.endpoint (s.ctxOf g) (64 + p.ep))).a8 + p.off) p.len = (s', .ok bs) →
         Completes i s fun t => GoOn t q (fun _ => nextPc h q) ∧ t.packets = s.packets.erase p ∧ SpadWritten (s.spad core) (t.spad core) off bs ∧
           ∃ k, t.group? q.gid = some k ∧ ∀ l, (acts h q g).getLsbD l = true → ReadsAs k 1 l d (word 0)) ∧
   (∀ (s : State) ctx ep payload,
     let e := endpointOf (s.endpoint ctx (64 + ep))
     let core := e.w4 % 512
     let len := payload.length
     let taken : Prop := e.ok = true ∧ e.port ∈ s.portsUp ∧ 0 < len ∧ len ≤ 9216 ∧ ep < 64 ∧ core < 384
     ((¬ taken ∨ s.ringPlace ctx ep e.a16 len = none) → Completes (.ethernetPacketArrival ctx ep payload) s fun t => t = s) ∧
     let s0 := (s.claimPhys ((s.ctx ctx).epbase.toNat + 64 * (64 + ep)) 64).claimCtx ctx
     ∀ off s1 s2 s3 x v, taken → s.ringPlace ctx ep e.a16 len = some off →
       s0.vwrite core (s0.ctxSpace ctx) (e.a8 + off - 8) (leBytes s.time 8 ++ payload) = (s1, .ok ()) →
       s1.xlate core (s1.ctxSpace ctx) .atomic normalOnly e.a24 = (s2, .ok x) → x.pa < hbmSize → e.a24 % 64 = 0 →
       s2.mbStep core (s2.ctxSpace ctx) x.pa x.key (some (BitVec.ofNat 64 (len * 2 ^ 50 + ep * 2 ^ 44 + off))) = (s3, .ok v) →
       (v = none → Completes (.ethernetPacketArrival ctx ep payload) s fun t => t.packets = s.packets) ∧
       (v ≠ none → Completes (.ethernetPacketArrival ctx ep payload) s fun t => t.msys = s3.msys ∧
         t.packets = s.packets ++ [{ ctx := ctx, ep := ep, off := off, len := len }] ∧ t.ringTail.get 0 (ctx * 64 + ep) = off + len ∧
         (e.irq = true → (t.core core).ipend.getLsbD 3 = true))) ∧
   ∀ (s : State) port,
     (port < 256 → s.oemode.toNat / 4 ^ (port / 16) % 4 = 2 → port ∉ s.portsUp → Completes (.portUp port) s fun t => t = { s with portsUp := s.portsUp ++ [port] }) ∧
     ((256 ≤ port ∨ s.oemode.toNat / 4 ^ (port / 16) % 4 ≠ 2) → Completes (.portUp port) s fun t => t = s) ∧
     Completes (.portDown port) s fun t => port ∉ t.portsUp ∧ (∀ p, p ≠ port → (p ∈ t.portsUp ↔ p ∈ s.portsUp)) ∧
       (port ∈ s.portsUp → ∀ r ∈ s.sends, r.status = none → (endpointOf r.ep).port = port → { r with status := some 0x11 } ∈ t.sends))

-- Links

/-- R315 to R322 and R352: flits are delivered in their order: memory flits answer Peer accesses or are served, control flits ask for a flit again or
take a lane away, gang flits bring gang messages; a bad one is asked for again; lanes that fail retrain and rejoin; a link
with no active lane carries nothing, and after 10 ms goes DOWN and refuses what it carried; a link that has trained is UP; a tray reaches its window alone.
The model's choices in it: logs 29, 32. -/
def Obligations.LinksDeliver : Prop :=
  (∀ (s : State) n flit corrected,
    let l := s.link n
    let seq := leNat (flit.take 8) / 2 ^ 40
    let good : Prop := corrected = true ∧ flit.length = 256 ∧ leNat ((flit.drop 248).take 8) = (Config.crc32 (flit.take 248)).toNat
    (l.carries = false → Completes (.flitReceive n flit corrected) s fun t => t = s) ∧
    (l.carries = true → ¬ good → Completes (.flitReceive n flit corrected) s fun t => t = (s.emit (.resend n seq)).sendFlit n 2 (controlBody true seq)) ∧
    (l.carries = true → good → seq = l.expSeq → (∀ f ∈ l.buffered, f.1 ≠ (l.expSeq + 1) % 2 ^ 24) → Completes (.flitReceive n flit corrected) s fun t =>
      (t.link n).expSeq = (l.expSeq + 1) % 2 ^ 24 ∧ (t.link n).buffered = l.buffered ∧ (t.link n).st = .up ∧
      (t.link n).credits = l.credits + leNat (flit.take 8) / 2 ^ 24 % 4096 ∧ (t.link n).acked = leNat (flit.take 8) % 2 ^ 24 ∧
      FlitActs s t n (leNat (flit.take 8) / 2 ^ 36 % 16) ((flit.drop 8).take 240)) ∧
    (l.carries = true → good → seq ≠ l.expSeq → (seq + 2 ^ 24 - l.expSeq) % 2 ^ 24 < 2048 → (∀ f ∈ l.buffered, f.1 ≠ seq) →
      Completes (.flitReceive n flit corrected) s fun t => t = s.modLink n fun l => { l with buffered := l.buffered ++ [(seq, flit)] }) ∧
    (l.carries = true → good → seq ≠ l.expSeq → (2048 ≤ (seq + 2 ^ 24 - l.expSeq) % 2 ^ 24 ∨ ∃ f ∈ l.buffered, f.1 = seq) →
      Completes (.flitReceive n flit corrected) s fun t => t = s)) ∧
  (∀ (s : State) n lane errors corrected uncorrected,
    let l := s.link n
    let k := l.lane lane
    (k.active = true → lane < 8 → s.clock.ns < k.since + l.win * 1000000 → Completes (.laneErrorWindow n lane errors corrected uncorrected) s fun t => t = s) ∧
    (k.active = true → lane < 8 → k.since + l.win * 1000000 ≤ s.clock.ns → Completes (.laneErrorWindow n lane errors corrected uncorrected) s fun t =>
      let k' := (t.link n).lane lane
      k'.sym.toNat = min (k.sym.toNat + errors) (2 ^ 64 - 1) ∧ k'.corrected.toNat = min (k.corrected.toNat + corrected) (2 ^ 32 - 1) ∧
      k'.uncorrectable = min (k.uncorrectable + uncorrected) 65535 ∧
      (errors ≤ l.thresh → k'.active = true ∧ k'.training = k.training ∧ k'.retrains = k.retrains) ∧
      (l.thresh < errors → k'.active = false ∧ k'.training = true ∧ k'.retrains = min (k.retrains + 1) 65535 ∧
        ((t.link n).active = 0 → (t.link n).noLane = s.clock.ns) ∧ (l.st = .up → SendsFlit s t n 2 (controlBody false lane)))) ∧
    (k.training = true → lane < 8 → l.st = .up → Completes (.laneRejoin n lane) s fun t =>
      ((t.link n).lane lane).training = false ∧ (((t.link n).lane lane).active = true ↔ s.clock.mode ≠ .trade ∨ l.active < 4) ∧
      ∀ i, i ≠ lane → (t.link n).lane i = l.lane i) ∧
    (l.st ≠ .down → l.active = 0 → l.noLane + 10000000 ≤ s.clock.ns → Completes (.linkDown n) s fun t =>
      (t.link n).st = .down ∧ (t.link n).out = [] ∧ (t.link n).waiting = [] ∧ (t.link n).gang = [] ∧ ∀ r ∈ l.out ++ l.waiting, ∀ o a, Outstanding s r.op r.lane o a →
        t.ops.find r.op = none ∨ ∃ p b, t.ops.find r.op = some p ∧ b ∈ p.accs ∧ b.lane = r.lane ∧ b.done = true ∧ b.err = some .busError) ∧
    ((l.st = .down ∨ l.active ≠ 0 ∨ s.clock.ns < l.noLane + 10000000) → Completes (.linkDown n) s fun t => t = s) ∧
    (n < 256 → l.st ≠ .up → s.oemode.toNat / 4 ^ (n / 16) % 4 = 1 → l.lulled = false →
      let rises : Prop := s.clock.mode = .lull → n ∈ s.keptLinks ∧ (s.links.filter fun p => p.2.st == .up && oeField s.oemode (p.1 / 16) == 1).length < 32
      (¬ rises → Completes (.linkTrained n) s fun t => t = s) ∧
      (rises → Completes (.linkTrained n) s fun t => (t.link n).st = .up ∧
        (∀ i, i < 8 → (((t.link n).lane i).active = true ↔ s.clock.mode = .trade → i < 4)) ∧
        (t.link n).waiting = l.waiting.drop (4096 - l.out.length) ∧
        (t.link n).out = l.out ++ (l.waiting.take (4096 - l.out.length)).map (fun r => { r with sent := s.clock.ns }) ∧
        (t.link n).gang = [] ∧ ∀ m ∈ l.gang, Out.gang m ∈ t.outbox))) ∧
  ∀ (s : State) n pa bytes,
    let base := (s.traywin.toNat / 2 ^ 30 % 2 ^ 22) * 2 ^ 30
    let size := (s.traywin.toNat / 2 ^ 22 % 2 ^ 8) * 2 ^ 30
    let key := s.traywin.toNat / 2 ^ 56
    let up : Prop := (s.link n).carries = true ∧ (s.link n).tray = true
    let within : Prop := base ≤ pa ∧ pa + bytes.length ≤ base + size ∧ pa + bytes.length ≤ hbmSize
    (¬ up → ∀ w, Completes (.trayTransaction n w pa bytes) s fun t => t = s) ∧
    (up → ¬ within → ∀ w, Completes (.trayTransaction n w pa bytes) s fun t => t = s.emit (.trayDone n none)) ∧
    (up → within → s.msys.smapBusy = false → Completes (.trayTransaction n true pa bytes) s fun t => HomeWritten s.msys t.msys key pa bytes ∧
      t.outbox = s.outbox ++ [.trayDone n (some [])]) ∧
    (up → within → Completes (.trayTransaction n false pa bytes) s fun t =>
      t = (s.modMsys fun m => m.claims key pa bytes.length).emit (.trayDone n (some (s.msys.bytes key pa bytes.length))))

-- Boot, management, attestation, throttling

/-- R339, R341 to R345 and R350: a package reset stops at the first image it refuses, with a record of the step in the log: stage 1 of both slots (2), the
configuration record (3), the management firmware (4), a kernel that does not fit (6) or is not accepted (7); else it measures them and starts the
kernel's supervisor group on every core. A loss of power loses what has not been mirrored; the event log goes to its mirror.
The model's choices in it: logs 8, 34, 35, 36, 37, 40, 69, 78. -/
def Obligations.ResetBootsTheKernel : Prop :=
  (∀ (s : State),
    let stops (step : Nat) : Prop := Completes .packageReset s fun t => t.groups = [] ∧ t.mgmt.booted = false ∧
      ∃ r, t.mgmt.log.getLast? = some r ∧ r.source = 0 ∧ r.code = step
    (s.board.bootSlot = none → stops 2) ∧
    ∀ n sl, s.board.bootSlot = some n → s.board.slot n = some sl →
      ((∀ c, s.board.config = some c → s.board.acceptsConfig c = false) → stops 3) ∧
      ∀ c, s.board.config = some c → s.board.acceptsConfig c = true →
        (s.board.accepts 1 sl.firmware = false → stops 4) ∧
        (s.board.accepts 1 sl.firmware = true →
          let signed := Config.xmssVerifies sl.kernel
          let accepted : Prop := regsOk sl.kernel = true ∧ (signed = true → s.board.accepts 2 sl.kernel = true) ∧ (signed = false → c.kpolicy = 1)
          (hbmSize < c.kload + sl.kernel.length → stops 6) ∧
          (c.kload + sl.kernel.length ≤ hbmSize → ¬ accepted → stops 7) ∧
          (c.kload + sl.kernel.length ≤ hbmSize → accepted → Completes .packageReset s fun t =>
            t.mgmt.booted = true ∧ t.mgmt.firmware = true ∧ t.mgmt.bootMode = (if signed then 0 else 1) ∧ t.mgmt.bootSlot = n ∧ t.mgmt.tlimit = c.tlimit ∧
            t.clock.mode = modeOfCode c.mode ∧ t.clock.cc = 0 ∧ t.board.pendingSlot = none ∧
            (∀ (k : Nat) image, (k, image) ∈ [(0, sl.stage1), (1, c.record), (2, sl.firmware), (3, sl.kernel)] →
              t.mgmt.wm.get 0 k = BitVec.ofNat 512 (leNat (shake256 (List.replicate 64 0 ++ shake256 image)))) ∧
            (∀ j, j < sl.kernel.length → t.msys.byte 0 (c.kload + j) = sl.kernel.getD j 0) ∧
            ∀ core, core < 384 → (t.core core).ptbase = BitVec.ofNat 64 (Config.kernelPtroot sl.kernel / 4096 * 4096 % 2 ^ 52) ∧
              ∃ k, t.group? (superGid core) = some k ∧ k.info.kind = .super ∧ k.info.width = 64 ∧ k.info.budget = Config.kernelRegs sl.kernel ∧
                (∀ l, l < 64 → StandsIn k l (kernelEntry sl.kernel) .ready) ∧ k.rd64 0 (.s 0) = 0x0F0002000000 ∧ k.sys.ie = false ∧
                k.sys.intrap = false))) ∧
  (∀ (c : ConfigRec), c.record.length = 4096 → c.kpolicy = (c.record.getD 5 0).toNat ∧ c.mode = (c.record.getD 4 0).toNat ∧
    c.kload = leNat ((c.record.drop 8).take 8) ∧ c.tlimit = (BitVec.ofNat 32 (leNat ((c.record.drop 16).take 4))).toInt) ∧
  (∀ (s : State) (lost : Nat) skip, let wait := s.mgmt.log.drop (s.mgmt.log.length - s.mgmt.unmirrored)
    Completes (.powerLoss lost skip) s fun t => t.groups = [] ∧ t.mgmt.log = [] ∧ t.board.mirror = s.board.mirror ++ wait.take (wait.length - lost) ∧
      t.board.attIndex = s.board.attIndex + (if skip = true ∧ s.board.cert ≠ none then 1 else 0) ∧
      t.board.idIndex = s.board.idIndex + (if skip = true ∧ s.board.cert = none then 1 else 0) ∧ t.events = [(0, .packageReset)]) ∧
  ∀ (s : State) n, let wait := s.mgmt.log.drop (s.mgmt.log.length - s.mgmt.unmirrored)
    Completes (.eventLogMirror n) s fun t => t.board.mirror = s.board.mirror ++ wait.take n ∧ t.mgmt.unmirrored = s.mgmt.unmirrored - n ∧
      t.mgmt.log = s.mgmt.log ∧ t.groups = s.groups

/-- R5, R347 and R348: a request to the management window begins, or is refused while another runs; it ends with its code, STAT, and bit MGMT at core 0.
The model's choices in it: logs 36, 38, 39, 40, 41, 70. -/
def Obligations.ManagementAnswersRequests : Prop :=
  (∀ (s : State) i r (f : Mgmt → Mgmt),
    ((∃ b, i = .mgmtExtendRequest b ∧ r = .extend b ∧ f = fun m => { m with reqBuf := b }) ∨
     (∃ b, i = .mgmtStageUpdate b ∧ r = .stage b ∧ f = fun m => { m with reqBuf := b }) ∨
     (∃ b, i = .mgmtConfirm b ∧ r = .confirm ∧ f = fun m => { m with reqBuf := b }) ∨
     (∃ b, i = .mgmtModeRequest b ∧ r = .modeReq ∧ f = fun m => { m with reqBuf := b }) ∨
     (∃ b, i = .mgmtAttest b ∧ bufOk b = false ∧ r = .attest b ∧ f = fun m => { m with reqBuf := b }) ∨
     (∃ n, i = .extend n ∧ r = .extendReg n ∧ f = fun m => { m with extReg := n }) ∨
     (∃ n, i = .keyslot n ∧ r = .keyslot n ∧ f = id)) →
    (s.mgmt.running ≠ none → Completes i s fun t => t = { s with mgmt := { s.mgmt with busyRef := true } }) ∧
    (s.mgmt.running = none → Completes i s fun t => t.mgmt = { f s.mgmt with running := some r, stat := 1, code := 0, busyRef := false } ∧
      ∃ due, s.clock.cc ≤ due ∧ (due, Instr.mgmtRequestComplete) ∈ t.events)) ∧
  (∀ (s : State) mode, Completes (.modereq mode) s fun t => t.mgmt.modeReqVal = modeCode mode ∧ t.clock.modePending = some (mode, s.clock.cc)) ∧
  (∀ (s : State) mode since, s.clock.modePending = some (mode, since) → since + 48 ≤ s.clock.cc → (mode = .lull → s.msys.lullReady = true) →
    (s.clock.cc, Instr.modeChange) ∈ s.raiseIdle.events) ∧
  (∀ (s : State) r, s.mgmt.running = some r → s.mgmt.waitsTurn = false →
    let done (code : Nat) (t : State) : Prop := t.mgmt.running = none ∧ t.mgmt.code = code ∧ t.mgmt.stat = (if code = 0 then 2 else 3) ∧
      (t.core 0).ipend = (s.core 0).ipend ||| 128#32
    let ends (post : State → Prop) : Prop := Completes .mgmtRequestComplete s post
    (r = .badCode → ends (done 1)) ∧ (∀ b, r = .attest b → ends (done 2)) ∧
    (∀ reg buf, (r = .extendReg reg ∧ buf = s.mgmt.reqBuf) ∨ (r = .extend buf ∧ reg = s.mgmt.extReg) →
      (bufOk buf = false → ends (done 2)) ∧ (bufOk buf = true → (reg < 4 ∨ 15 < reg) → ends (done 3)) ∧
      (bufOk buf = true → 4 ≤ reg → reg ≤ 15 → ends fun t => done 0 t ∧
        (∀ n, n ≠ reg → t.mgmt.wm.get 0 n = s.mgmt.wm.get 0 n) ∧ t.mgmt.wm.get 0 reg = BitVec.ofNat 512
          (leNat (shake256 (leBytes (s.mgmt.wm.get 0 reg).toNat 64 ++ shake256 ((List.range 4096).map fun j => s.msys.byte 0 (buf + j))))))) ∧
    (r = .modeReq → ends fun t => done 0 t ∧ t.clock.modePending = some (modeOfCode (s.mgmt.modeReqVal % 4), s.clock.cc)) ∧
    (∀ n, r = .keyslot n → (bufOk s.mgmt.reqBuf = false → ends (done 2)) ∧ (bufOk s.mgmt.reqBuf = true → (n = 0 ∨ 255 < n) → ends (done 4)) ∧
      (bufOk s.mgmt.reqBuf = true → 1 ≤ n → n ≤ 255 → ends fun t => done 0 t ∧
        t.msys.ver n = .loaded (BitVec.ofNat 512 (leNat (s.msys.bytes 0 s.mgmt.reqBuf 64))) ∧ ∀ k, k ≠ n → t.msys.ver k = s.msys.ver k)) ∧
    (∀ b, r = .stage b → (bufOk b = false → ends (done 2)) ∧ (bufOk b = true →
      let head := s.msys.bytes 0 b 4096
      let bytes := s.physBytes b (Config.imageLength head)
      let kind := Config.imageKind head
      let good := Config.xmssVerifies bytes
      let newer : Prop := s.board.rollback.get 0 kind ≤ (Config.imageVersion bytes).toNat
      let active := s.board.activeSlot.getD (if s.board.strapB then 1 else 0)
      (good = false → ends (done 5)) ∧ (good = true → ¬ newer → ends (done 6)) ∧ (good = true → newer → s.board.flashFails = true → ends (done 9)) ∧
      (good = true → newer → s.board.flashFails = false → ends fun t => done 0 t ∧ t.board.pendingSlot = some (1 - active) ∧
        t.board.rollback = s.board.rollback ∧ t.board.slot active = s.board.slot active ∧ ∃ sl, t.board.slot (1 - active) = some sl ∧
          bytes = (if kind = 0 then sl.stage1 else if kind = 1 then sl.firmware else sl.kernel)))) ∧
    (r = .confirm →
      let n := s.mgmt.bootSlot
      let refused : Prop := s.mgmt.booted = false ∨ s.mgmt.bootStaged = false ∨ n = s.board.activeSlot.getD (if s.board.strapB then 1 else 0) ∨ s.board.slot n = none
      (refused → (s.board.slot n = none → s.board.flashFails = false) → ends (done 7)) ∧ (¬ refused → s.board.flashFails = true → ends (done 9)) ∧
      (¬ refused → s.board.flashFails = false → ends fun t => done 0 t ∧ t.board.activeSlot = some n ∧
        ∀ sl, s.board.slot n = some sl → ∀ k, t.board.rollback.get 0 k =
          if k = 0 then max (s.board.rollback.get 0 0) (Config.imageVersion sl.stage1).toNat
          else if k = 1 then max (s.board.rollback.get 0 1) (Config.imageVersion sl.firmware).toNat
          else if k = 2 then max (s.board.rollback.get 0 2) (Config.imageVersion sl.kernel).toNat else s.board.rollback.get 0 k)))

/-- R339, R344, R346, R347: a request for attestation, which the management firmware serves once it runs, joins its queue, where one at a time is signed under an index that has been advanced first; a
report that is signed goes to its buffer or out.
R349: sensors and throttling: a cluster above TLIMIT is throttled and logged until it is 5 °C below; package power above the budget of the mode for
10 ms.
The model's choices in it: logs 8, 35, 41, 42. -/
def Obligations.ReportsAreSignedAndHeatThrottles : Prop :=
  ((∀ (s : State) i buf nonce, s.mgmt.attests = [] →
     ((∃ b, i = .mgmtAttest b ∧ buf = some b ∧ bufOk b = true ∧ s.mgmt.running = none ∧ nonce = s.msys.bytes 0 b 32) ∨
      (∃ given, i = .attestMctpRequest given ∧ s.mgmt.firmware = true ∧ buf = none ∧ nonce = (given ++ List.replicate 32 0).take 32)) →
     Completes i s fun t => (∀ b, i = .mgmtAttest b → t.mgmt.running = some (.attest b) ∧ t.mgmt.stat = 1) ∧
       (∃ out, t.mgmt.attests = [{ buf := buf, nonce := nonce, signing := some out }] ∧
         (s.board.attIndex < 2 ^ 20 → t.board.attIndex = s.board.attIndex + 1 ∧ out.take 1104 = s.reportBody nonce ∧
           out.drop 1104 = (List.range 2820).map (Config.xmssSignature s.mgmt.seed s.board.attIndex (s.reportBody nonce))) ∧
         (2 ^ 20 ≤ s.board.attIndex → out = [] ∧ t.board = s.board)) ∧
       ∃ due, s.clock.cc ≤ due ∧ (due, Instr.mgmtRequestComplete) ∈ t.events) ∧
   (∀ (s : State) nonce, s.mgmt.firmware = false → Completes (.attestMctpRequest nonce) s fun t => t = s) ∧
   (∀ (s : State) nonce, s.mgmt.firmware = true → (∃ r ∈ s.mgmt.attests.head?, r.signing ≠ none) → Completes (.attestMctpRequest nonce) s fun t =>
     t.mgmt.attests = s.mgmt.attests ++ [{ buf := none, nonce := (nonce ++ List.replicate 32 0).take 32, signing := none }] ∧ t.board = s.board) ∧
   ∀ (s : State) r rep, s.mgmt.attests = [r] → r.signing = some rep →
     (∀ b, s.mgmt.running = some (.attest b) → r.buf = some b →
       (rep = [] → Completes .mgmtRequestComplete s fun t => t.mgmt.running = none ∧ t.mgmt.stat = 3 ∧ t.mgmt.code = 8 ∧ t.mgmt.attests = []) ∧
       (rep ≠ [] → b < hbmSize → Completes .mgmtRequestComplete s fun t => t.mgmt.running = none ∧ t.mgmt.stat = 2 ∧ t.mgmt.code = 0 ∧ t.mgmt.attests = [] ∧
         (t.core 0).ipend = (s.core 0).ipend ||| 128#32 ∧
         (s.msys.smapBusy = false → HomeWritten s.msys t.msys 0 b ((rep ++ s.board.cert.getD []).take (hbmSize - b))))) ∧
     (s.mgmt.running = none → r.buf = none → rep ≠ [] → Completes .mgmtRequestComplete s fun t => t.mgmt.attests = [] ∧
       t.outbox = s.outbox ++ [.report (rep ++ s.board.cert.getD [])])) ∧
  (∀ (s : State),
     let hot (n : Nat) (temp : Int) (t : State) : Prop := n < 96 → s.mgmt.firmware = true → s.mgmt.tlimit < temp → n ∈ t.mgmt.throttled ∧
       (n ∉ s.mgmt.throttled → ∃ r, t.mgmt.log.getLast? = some r ∧ r.source = 1 ∧ r.code = 1 ∧ r.data = n)
     (∀ n temp, Completes (.thermalThrottle n temp) s fun t => t.mgmt.sensors.get 0 n = temp ∧ hot n temp t ∧
       ((temp ≤ s.mgmt.tlimit ∨ s.mgmt.firmware = false) → t.mgmt.throttled = s.mgmt.throttled ∧ t.mgmt.log = s.mgmt.log)) ∧
     (∀ n temp, Completes (.thermalThrottleEnd n temp) s fun t => t.mgmt.sensors.get 0 n = temp ∧ hot n temp t ∧
       (temp ≤ s.mgmt.tlimit - 40 → n ∉ t.mgmt.throttled) ∧
       (s.mgmt.tlimit - 40 < temp → temp ≤ s.mgmt.tlimit → t.mgmt.throttled = s.mgmt.throttled)) ∧
     ∀ watts, let budget : Nat := match s.clock.mode with
         | .gale => 3600
         | .trade => 3100
         | .breeze => 2700
         | .lull => 1100
       let above : Prop := s.mgmt.firmware = true ∧ budget < watts
       let since := s.mgmt.powerSince.getD s.clock.ns
       Completes (.powerThrottle watts) s fun t => t.mgmt.sensors.get 0 128 = watts ∧
         (¬ above → t.mgmt.pkgThrottle = false ∧ t.mgmt.powerSince = none) ∧
         (above → t.mgmt.powerSince = some since ∧ (t.mgmt.pkgThrottle = true ↔ since + 10000000 ≤ s.clock.ns) ∧
           (since + 10000000 ≤ s.clock.ns → s.mgmt.pkgThrottle = false → ∃ r, t.mgmt.log.getLast? = some r ∧ r.source = 1 ∧ r.code = 2 ∧ r.data = watts)))

-- The machine

/-- R30, R59 to R62, R88 and R99: a step that selects a group fetches the words at its run's PC, and if they decode to an instruction
it is `exec` of that instruction, with the bookkeeping of the issue before it and the debugger's checks after it; if not, the whole run traps.
The model's choices in it: logs 4, 15. -/
def Obligations.StepRunsTheDecodedInstruction : Prop :=
  (∀ (s s1 s2 : State) gid g r e bs i l, Selects s s1 gid g r e → WordsAt s1 s2 g r bs → decodeBytes bs = .ok i l →
    l.bytes ≤ 32 - r.pc.toNat % 32 →
    (∀ t, exec i (s2.beginIssue gid g r e) = .next t → step s = .next (t.endIssue gid g.sys.debug)) ∧
    (∀ f, exec i (s2.beginIssue gid g r e) = .fault f → step s = .fault f) ∧
    (∀ f, exec i (s2.beginIssue gid g r e) = .refused f → step s = .refused f)) ∧
  ∀ (s s1 s2 : State) gid g r e bs c, Selects s s1 gid g r e → WordsAt s1 s2 g r bs →
    let long : Bool := lenOver bs (32 - r.pc.toNat % 32)
    ((long = true ∧ c = .illegalOpcode) ∨ (long = false ∧ ∃ j, decodeBytes bs = .bad j ∧ c = rejectCause j)) →
    step s = .next (((s2.beginIssue gid g r e).takeTrap gid
      { cause := c, other := false, mask := r.lanes, pc := r.pc, npc := r.pc, addr := 0, run := r.lanes }).endIssue gid g.sys.debug)

/-- R61: at a pad word the run goes on at the next 32-byte boundary above it; nothing is issued, counted or pushed. -/
def Obligations.PadWordsArePassed : Prop :=
  ∀ (s s1 s2 : State) gid g r e bs, Selects s s1 gid g r e → r.pc.toNat % 4 = 0 → WordsAt s1 s2 g r bs → bs.take 4 = leBytes 0xFFFFFFFC 4 →
    ∃ k, step s = .next (s2.setGroup gid k) ∧ (∃ rs, k = { g with runs := rs }) ∧
      ∃ pc : Pc, pc = r.pc + BitVec.ofNat 48 (32 - r.pc.toNat % 32) ∧ pc.toNat % 32 = 0 ∧
        ∀ l, r.lanes.getLsbD l = true → k.pcOf l = some pc

/-- R133: the approximated functions keep their bounds at every finite operand that is not zero, are exact where the table says so, and raise NX
elsewhere.
The model's choices in it: log 7 (the results within the bounds are free values; why fex2, flg2, fsin and fcos have 2^-50 beyond a bound). -/
def Obligations.ApproximationsKeepTheirBounds : Prop :=
  Computes .frcp specFrcp Untrapped (approximates frcpBound) ∧
  Computes .frsq specFrcp Untrapped (approximates frsqBound) ∧
  Computes .fex2 specFrcp Untrapped (approximates fex2Bound) ∧
  Computes .flg2 specFrcp Untrapped (approximates flg2Bound) ∧
  Computes .fsin specFrcp Untrapped (approximates (trigBound Real.sin)) ∧
  Computes .fcos specFrcp Untrapped (approximates (trigBound Real.cos))

/-- R17, R86 to R88: the decode checks that the state decides: a V register beyond the budget traps ILLEGAL_OPERAND; else an
instruction of a mode that the group is not in traps PRIVILEGE; for the whole run, guard notwithstanding.
An instruction or event always has a next state; only an issued instruction outside an issue has none, and no step comes there: every step of every
state goes on. -/
def Obligations.DecodeChecksTrap : Prop :=
  ((∀ (i : Instr) (s : State), (∃ t, exec i s = .next t) ∨
     (exec i s = .fault .noIssuer ∧ i.hdr ≠ none ∧ ∀ q, s.cur = some q → s.group? q.gid = none)) ∧ ∀ s : State, Safety.Runs s) ∧
  ∀ (s : State) i h q g, i.hdr = some h → s.cur = some q → q.resume = none → s.group? q.gid = some g →
    let beyond : Prop := ∃ u ∈ regUses i, ∃ k w, u = (Reg.v k, w) ∧ g.info.budget < k.val + w
    let user : Prop := g.info.kind ≠ .super ∧ g.sys.debug = false
    (beyond → Completes i s fun t => TrapsWhole s t q .illegalOperand) ∧
    (¬ beyond → user → SupervisorOnly i → Completes i s fun t => TrapsWhole s t q .privilege) ∧
    (¬ beyond → user → (∃ n a, (i = .sysrd h n a ∨ i = .syswr h n a) ∧ sysregSuper n.toNat = true) → Completes i s fun t => TrapsWhole s t q .privilege) ∧
    (¬ beyond → g.sys.debug = false → (∃ a b, i = .dbgret h a b) → Completes i s fun t => TrapsWhole s t q .privilege) ∧
    (¬ beyond → (∀ a b, g.info.kind ≠ .responder a b) → (∃ a, i = .reply h a) → Completes i s fun t => TrapsWhole s t q .privilege)

/-- R294, R296, R298, R299, R331 and R332: of the causes that lanes carry the highest is reported, with its lanes; a trap enters the
handler of a user group, or leaves the group TRAPPED and named in the trap queue; it enters the supervisor's handler, or stops the
supervisor group, which is logged; it re-enters the debug agent; a breakpoint or watch hit stops a partition with a debugger attached.
The model's choices in it: logs 13, 35, 48, 78. -/
def Obligations.TrapsAreTaken : Prop :=
  (∀ (x : X) cs, cs ≠ [] → (∀ d ∈ cs, d.1 < 64) → ∃ before c after, ∃ mask : Lanes, cs = before ++ c :: after ∧
    (∀ d ∈ before, c.2.1.rank < d.2.1.rank) ∧ (∀ d ∈ after, c.2.1.rank ≤ d.2.1.rank) ∧
    (∀ l, mask.getLsbD l = true ↔ ∃ d ∈ cs, d.1 = l ∧ d.2.1.rank = c.2.1.rank) ∧
    x.trapLanes cs = x.s.takeTrap x.gid
      { cause := c.2.1, other := cs.any (fun d => decide (c.2.1.rank < d.2.1.rank)), mask := mask, pc := x.pc, npc := x.pc, addr := c.2.2, run := x.m }) ∧
  ∀ (s : State) gid g (t : Trap), s.group? gid = some g →
    let u := s.takeTrap gid t
    let core := g.info.core
    let vec : Pc := entryPc g.sys.trapvec
    let stops : Prop := (t.cause = .brk ∨ t.cause = .watch) ∧ ((s.core core).part g.info.part).attach = true
    let usable : Prop := g.sys.trapvec ≠ 0 ∧ g.sys.trapvec.toNat % 4 = 0 ∧ g.sys.trapvec.toNat < 2 ^ 48
    let enters (sys : GSys) (vec : Pc) : Prop := ∃ k, u = s.setGroup gid k ∧ k.sys = sys ∧ k.regs = g.regs ∧ k.info = g.info ∧
      k.pend = g.pend ∧ k.cmds = g.cmds ∧ LanesAt k t.run vec .ready ∧ ∀ r ∈ k.readyRuns, r.lanes &&& t.run ≠ 0
    (g.sys.debug = true → enters { g.sys with trap := t.regs } (entryPc s.dbgvec)) ∧
    (g.sys.debug = false → g.info.kind ≠ .super → stops → StopsAt s u gid g t) ∧
    (g.sys.debug = false → g.info.kind ≠ .super → ¬ stops → g.sys.intrap = false → usable →
      enters { g.sys with trap := t.regs, intrap := true } vec) ∧
    (g.sys.debug = false → g.info.kind ≠ .super → ¬ stops → (g.sys.intrap = true ∨ ¬ usable) →
      (∃ k, u.group? gid = some k ∧ k.sys = { g.sys with trap := t.regs, intrap := true } ∧ k.sched = { g.sched with trapped := true } ∧
        k.runs = g.runs ∧ k.regs = g.regs ∧ k.pend = g.pend ∧ k.readyRuns = []) ∧
      (u.core core).trapq = (s.core core).trapq ++ [{ gid := some gid, ctx := g.info.ctx, word := BitVec.ofNat 32 (2 ^ 31 + g.info.ctx % 64 * 2 ^ 24 +
        t.cause.code * 2 ^ 16 + g.info.part * 2 ^ 8 + (if g.isResponder then 1 else 0) * 2 ^ 5 + g.slot % 32) }]) ∧
    (g.sys.debug = false → g.info.kind = .super → g.sys.intrap = false → g.sys.trapvec ≠ 0 →
      enters { g.sys with trap := t.regs, intrap := true, pie := g.sys.ie, ie := false } vec) ∧
    (g.sys.debug = false → g.info.kind = .super → (g.sys.intrap = true ∨ g.sys.trapvec = 0) →
      (∃ k, u.group? gid = some k ∧ k.sys = { g.sys with trap := t.regs } ∧ k.runs = g.runs ∧ k.regs = g.regs ∧ k.readyRuns = []) ∧
      (∃ r, u.mgmt.log.getLast? = some r ∧ r.source = 2 ∧ r.code = t.cause.code ∧ r.data = core) ∧ ∀ j, j ≠ gid → u.group? j = s.group? j)

/-- R59 to R88: words written out from their encodings decode to the instructions they stand for; one with a reserved SCOPE does not. -/
def Obligations.WrittenWordsDecode : Prop :=
  let h : Hdr := { len := .w64, u := false, gp := 7, gn := false }
  decodeTableWord 64 0x0880C0001006E201 = some (.iadd h { ty := .i32, rnd := .rne, sat := false, sub := 0, d := .v 3, a := .reg (.v 4), b := .imm7 12, c := .none }) ∧
  decodeTableWord 64 0x03FFC1F80000E051 = some (.wait h 0 63 63 63) ∧
  decodeTableWord 64 0x420000000000F919 = some (.barSync h 1 2) ∧
  decodeTableWord 64 0x000500000000FB01 = some (.sys h 5) ∧
  decodeTableWord 64 0x000000000020FB09 = some (.svqpop h 16) ∧
  decodeTableWord 64 0x000000F04000FB11 = some (.sysret h (.v 16) (.v 30)) ∧
  decodeTableWord 64 0x20000006A006F969 = some (.solicit h 1 (.v 3) 20) ∧
  decodeTableWord 64 0x069200067800F809 = some (.mxa h 6 true false (some 2) (.spad (.s 10))) ∧
  decodeTableWord 64 0x51040006600AF201 = some (.ld h { size := .b32, scope := .dev, order := .acq, nf := false, sx := false, off := .o10 0x40, base := .s 4, d := some (.v 5), b := none }) ∧
  decodeTableWord 64 0x59040006600AF201 = none

/-- R63 to R88: the words of a well-formed control, arithmetic, pixel, floating-point, conversion or cross-lane instruction read back as it. -/
def Obligations.ComputingEncodingsReadBack : Prop :=
  ∀ i r, encodeA i = some r → ReadsBack i

/-- R63 to R88: the words of a well-formed memory instruction (shape MEM) read back as it. -/
def Obligations.MemoryEncodingsReadBack : Prop :=
  ∀ i, (∃ sp m, memOf i = some (sp, m)) → ReadsBack i

/-- R63 to R88: the words of a well-formed copy, matrix, synchronisation, system or debug instruction read back as it. -/
def Obligations.EngineEncodingsReadBack : Prop :=
  ∀ i r, encodeB i = some r → memOf i = none → ReadsBack i

/-- Memory keeps its canonical form at every step. -/
def Obligations.StepsKeepMemoryCanonical : Prop :=
  ∀ s t, Memory.wf s.msys → step s = .next t → Memory.wf t.msys

/-- At reset memory is in canonical form, the registers hold the values the specification gives, and no group lives; a new group
begins with what its launch block sets and zeros (R18, R297, R300, R307, R283, R315, R330, R340). -/
def Obligations.ResetHoldsTheStatedValues : Prop :=
  let s := State.reset
  Memory.wf s.msys ∧ s.groups = [] ∧ s.wgs = [] ∧ s.dbgvec = 0 ∧ (∀ n, s.mgmt.wm.get 0 n = 0) ∧
  (∀ core, let c := s.core core
    c.ipend = 0 ∧ c.imask = 0 ∧ c.svqTimer = 200 ∧ c.svqThresh = 32 ∧ c.qbackoff = 64 ∧ c.svq = [] ∧ c.trapq = [] ∧
    ∀ p, (c.part p).attach = false ∧ (c.part p).stopped = none ∧ (c.part p).period = 1024) ∧
  (∀ n, let l := s.link n
    l.win = 1 ∧ l.keep = false ∧ l.tray = false ∧ l.thresh = 224) ∧
  (∀ ctx, (s.ctx ctx).preq = false ∧ (s.ctx ctx).wdogLimit = 0 ∧ (s.ctx ctx).wdogCnt = 0) ∧
  ∀ info pc sregs cc, let g := freshGroup info pc sregs cc
    (∀ l, (∀ n, g.rd32 l (.v n) = 0) ∧ (∀ n, g.rd32 l (.o n) = 0) ∧ (∀ n, g.rd64 l (.l n) = 0) ∧ (∀ n, n < 7 → g.rdP n l = false) ∧ g.rdP 7 l = true ∧
      ∀ n : Fin 64, g.rd64 l (.s n) = BitVec.ofNat 64 (sregs.getD n.val 0)) ∧
    g.runs = [{ lanes := fullLanes info.width, pc := pc, st := .ready, stamp := 0 }] ∧ g.sched.streak = 0 ∧
    (g.regs.ld = 0 ∧ g.regs.st = 0 ∧ g.regs.cp = 0 ∧ g.regs.tl = 0) ∧ g.sys.escapes = 0 ∧ g.sys.uniformViolation = false ∧
    g.sys.fpctl = 0 ∧ g.sys.fpstat = 0 ∧ g.sys.ie = false ∧ g.sys.intrap = false ∧ g.sys.debug = false

end
end

