-- ==== Sys2Proof/Laws/Maps.lean ====
section
/-! SUPPORT. Laws of the sparse maps: what is found after a write, and the canonical form. -/

namespace Sys2Proof.Machine

variable {α : Type}

@[simp] theorem SMap.find_nil (k : Nat) : SMap.find ([] : SMap α) k = none := rfl

theorem SMap.find_ins (m : SMap α) (k j : Nat) (v : α) : (m.ins k v).find j = if j = k then some v else m.find j := by
  induction m with
  | nil => simp [SMap.ins, SMap.find]
  | cons p t ih =>
    obtain ⟨k', v'⟩ := p
    unfold SMap.ins
    split
    · simp [SMap.find]
    · split
      · next h => subst h; simp only [SMap.find]; split <;> rfl
      · simp only [SMap.find, ih]
        split
        · next h1 h2 h3 => subst h3; simp [Ne.symm h2]
        · rfl

@[simp] theorem SMap.find_ins_self (m : SMap α) (k : Nat) (v : α) : (m.ins k v).find k = some v := by simp [SMap.find_ins]

theorem SMap.find_ins_ne (m : SMap α) {k j : Nat} (v : α) (h : j ≠ k) : (m.ins k v).find j = m.find j := by simp [SMap.find_ins, h]

theorem SMap.find_del (m : SMap α) (k j : Nat) : (m.del k).find j = if j = k then none else m.find j := by
  induction m with
  | nil => simp [SMap.del, SMap.find]
  | cons p t ih =>
    obtain ⟨k', v'⟩ := p
    unfold SMap.del
    split
    · next h => subst h; rw [ih]; simp only [SMap.find]; split <;> simp_all
    · next h =>
      simp only [SMap.find, ih]
      split
      · next h1 => subst h1; simp [Ne.symm h]
      · rfl

/-- What an index holds after a write: the value written, or what it held. -/
theorem SMap.get_put [DecidableEq α] (d : α) (m : SMap α) (k j : Nat) (v : α) :
    (SMap.put d m k v).get d j = if j = k then v else m.get d j := by
  unfold SMap.put
  by_cases hv : v = d
  · rw [if_pos hv]; unfold SMap.get; rw [SMap.find_del]; by_cases h : j = k <;> simp [h, hv]
  · rw [if_neg hv]; unfold SMap.get; rw [SMap.find_ins]; by_cases h : j = k <;> simp [h]

@[simp] theorem SMap.get_put_self [DecidableEq α] (d : α) (m : SMap α) (k : Nat) (v : α) : (SMap.put d m k v).get d k = v := by
  simp [SMap.get_put]

theorem SMap.get_put_ne [DecidableEq α] (d : α) (m : SMap α) {k j : Nat} (v : α) (h : j ≠ k) :
    (SMap.put d m k v).get d j = m.get d j := by simp [SMap.get_put, h]

theorem SMap.get_ins (d : α) (m : SMap α) (k j : Nat) (v : α) : (m.ins k v).get d j = if j = k then v else m.get d j := by
  unfold SMap.get; rw [SMap.find_ins]; by_cases h : j = k <;> simp [h]

-- The canonical form

/-- Every key of a map lies above `k`. -/
def SMap.above (k : Nat) (m : SMap α) : Prop := ∀ p ∈ m, k < p.1

/-- Keys rising and no entry equal to `d`, said by recursion. -/
theorem SMap.canon_cons [DecidableEq α] (d : α) (k : Nat) (v : α) (t : SMap α) :
    SMap.canon d ((k, v) :: t) = true ↔ v ≠ d ∧ SMap.above k t ∧ SMap.canon d t = true := by
  induction t generalizing k v with
  | nil => simp [SMap.canon, SMap.above]
  | cons p t ih =>
    obtain ⟨k', v'⟩ := p
    have h := ih k' v'
    simp only [SMap.canon, Bool.and_eq_true, decide_eq_true_eq]
    constructor
    · rintro ⟨⟨h1, h2⟩, h3⟩
      refine ⟨h1, ?_, h3⟩
      intro q hq
      rcases List.mem_cons.mp hq with rfl | hq
      · exact h2
      · exact Nat.lt_trans h2 ((h.mp h3).2.1 q hq)
    · rintro ⟨h1, h2, h3⟩
      exact ⟨⟨h1, h2 (k', v') (List.mem_cons_self ..)⟩, h3⟩

theorem SMap.above_ins {k j : Nat} {v : α} {m : SMap α} (h : SMap.above j m) (hk : j < k) : SMap.above j (m.ins k v) := by
  induction m with
  | nil => simpa [SMap.ins, SMap.above] using hk
  | cons p t ih =>
    obtain ⟨k', v'⟩ := p
    have h1 : j < k' := h (k', v') (List.mem_cons_self ..)
    have h2 : SMap.above j t := fun q hq => h q (List.mem_cons_of_mem _ hq)
    unfold SMap.ins
    split
    · intro q hq; rcases List.mem_cons.mp hq with rfl | hq
      · exact hk
      · exact h q hq
    · split
      · intro q hq; rcases List.mem_cons.mp hq with rfl | hq
        · exact hk
        · exact h2 q hq
      · intro q hq; rcases List.mem_cons.mp hq with rfl | hq
        · exact h1
        · exact ih h2 q hq

theorem SMap.above_del {k j : Nat} {m : SMap α} (h : SMap.above j m) : SMap.above j (m.del k) := by
  induction m with
  | nil => exact h
  | cons p t ih =>
    obtain ⟨k', v'⟩ := p
    have h2 : SMap.above j t := fun q hq => h q (List.mem_cons_of_mem _ hq)
    unfold SMap.del
    split
    · exact ih h2
    · intro q hq; rcases List.mem_cons.mp hq with rfl | hq
      · exact h _ (List.mem_cons_self ..)
      · exact ih h2 q hq

theorem SMap.canon_ins [DecidableEq α] (d : α) {m : SMap α} (h : SMap.canon d m = true) (k : Nat) {v : α} (hv : v ≠ d) :
    SMap.canon d (m.ins k v) = true := by
  induction m with
  | nil => simp [SMap.ins, SMap.canon, hv]
  | cons p t ih =>
    obtain ⟨k', v'⟩ := p
    obtain ⟨h1, h2, h3⟩ := (SMap.canon_cons d k' v' t).mp h
    unfold SMap.ins
    split
    · next hk =>
      refine (SMap.canon_cons d k v _).mpr ⟨hv, ?_, h⟩
      intro q hq; rcases List.mem_cons.mp hq with rfl | hq
      · exact hk
      · exact Nat.lt_trans hk (h2 q hq)
    · split
      · next hk => subst hk; exact (SMap.canon_cons d k v t).mpr ⟨hv, h2, h3⟩
      · next hk hk' => exact (SMap.canon_cons d k' v' _).mpr ⟨h1, SMap.above_ins h2 (by omega), ih h3⟩

theorem SMap.canon_del [DecidableEq α] (d : α) {m : SMap α} (h : SMap.canon d m = true) (k : Nat) : SMap.canon d (m.del k) = true := by
  induction m with
  | nil => exact h
  | cons p t ih =>
    obtain ⟨k', v'⟩ := p
    obtain ⟨h1, h2, h3⟩ := (SMap.canon_cons d k' v' t).mp h
    unfold SMap.del
    split
    · exact ih h3
    · exact (SMap.canon_cons d k' v' _).mpr ⟨h1, SMap.above_del h2, ih h3⟩

/-- A write keeps the canonical form. -/
theorem SMap.canon_put [DecidableEq α] (d : α) {m : SMap α} (h : SMap.canon d m = true) (k : Nat) (v : α) :
    SMap.canon d (SMap.put d m k v) = true := by
  unfold SMap.put
  split
  · exact SMap.canon_del d h k
  · next hv => exact SMap.canon_ins d h k hv

end Sys2Proof.Machine
end

