-- ==== Sys2Proof/Laws/State.lean ====
section
/-! SUPPORT. What each update of the state leaves as it was, field by field; every law is true by unfolding. -/

namespace Sys2Proof.Machine

-- setCore writes cores and nothing else
@[simp] theorem State.setCore_clock (s : State) (k : Nat) (c : Core) : (s.setCore k c).clock = s.clock := rfl
@[simp] theorem State.setCore_msys (s : State) (k : Nat) (c : Core) : (s.setCore k c).msys = s.msys := rfl
@[simp] theorem State.setCore_events (s : State) (k : Nat) (c : Core) : (s.setCore k c).events = s.events := rfl
@[simp] theorem State.setCore_cur (s : State) (k : Nat) (c : Core) : (s.setCore k c).cur = s.cur := rfl
@[simp] theorem State.setCore_cursor (s : State) (k : Nat) (c : Core) : (s.setCore k c).cursor = s.cursor := rfl
@[simp] theorem State.setCore_tried (s : State) (k : Nat) (c : Core) : (s.setCore k c).tried = s.tried := rfl
@[simp] theorem State.setCore_pack (s : State) (k : Nat) (c : Core) : (s.setCore k c).pack = s.pack := rfl
@[simp] theorem State.setCore_fresh (s : State) (k : Nat) (c : Core) : (s.setCore k c).fresh = s.fresh := rfl
@[simp] theorem State.setCore_serial (s : State) (k : Nat) (c : Core) : (s.setCore k c).serial = s.serial := rfl
@[simp] theorem State.setCore_groups (s : State) (k : Nat) (c : Core) : (s.setCore k c).groups = s.groups := rfl
@[simp] theorem State.setCore_wgs (s : State) (k : Nat) (c : Core) : (s.setCore k c).wgs = s.wgs := rfl
@[simp] theorem State.setCore_allocs (s : State) (k : Nat) (c : Core) : (s.setCore k c).allocs = s.allocs := rfl
@[simp] theorem State.setCore_spads (s : State) (k : Nat) (c : Core) : (s.setCore k c).spads = s.spads := rfl
@[simp] theorem State.setCore_spIn (s : State) (k : Nat) (c : Core) : (s.setCore k c).spIn = s.spIn := rfl
@[simp] theorem State.setCore_feq (s : State) (k : Nat) (c : Core) : (s.setCore k c).feq = s.feq := rfl
@[simp] theorem State.setCore_clusters (s : State) (k : Nat) (c : Core) : (s.setCore k c).clusters = s.clusters := rfl
@[simp] theorem State.setCore_ops (s : State) (k : Nat) (c : Core) : (s.setCore k c).ops = s.ops := rfl
@[simp] theorem State.setCore_rels (s : State) (k : Nat) (c : Core) : (s.setCore k c).rels = s.rels := rfl
@[simp] theorem State.setCore_ctxs (s : State) (k : Nat) (c : Core) : (s.setCore k c).ctxs = s.ctxs := rfl
@[simp] theorem State.setCore_engAreas (s : State) (k : Nat) (c : Core) : (s.setCore k c).engAreas = s.engAreas := rfl
@[simp] theorem State.setCore_ctxbase (s : State) (k : Nat) (c : Core) : (s.setCore k c).ctxbase = s.ctxbase := rfl
@[simp] theorem State.setCore_resident (s : State) (k : Nat) (c : Core) : (s.setCore k c).resident = s.resident := rfl
@[simp] theorem State.setCore_slots (s : State) (k : Nat) (c : Core) : (s.setCore k c).slots = s.slots := rfl
@[simp] theorem State.setCore_tensors (s : State) (k : Nat) (c : Core) : (s.setCore k c).tensors = s.tensors := rfl
@[simp] theorem State.setCore_bars (s : State) (k : Nat) (c : Core) : (s.setCore k c).bars = s.bars := rfl
@[simp] theorem State.setCore_chans (s : State) (k : Nat) (c : Core) : (s.setCore k c).chans = s.chans := rfl
@[simp] theorem State.setCore_launches (s : State) (k : Nat) (c : Core) : (s.setCore k c).launches = s.launches := rfl
@[simp] theorem State.setCore_heldArms (s : State) (k : Nat) (c : Core) : (s.setCore k c).heldArms = s.heldArms := rfl
@[simp] theorem State.setCore_bins (s : State) (k : Nat) (c : Core) : (s.setCore k c).bins = s.bins := rfl
@[simp] theorem State.setCore_links (s : State) (k : Nat) (c : Core) : (s.setCore k c).links = s.links := rfl
@[simp] theorem State.setCore_linkSel (s : State) (k : Nat) (c : Core) : (s.setCore k c).linkSel = s.linkSel := rfl
@[simp] theorem State.setCore_oemode (s : State) (k : Nat) (c : Core) : (s.setCore k c).oemode = s.oemode := rfl
@[simp] theorem State.setCore_traywin (s : State) (k : Nat) (c : Core) : (s.setCore k c).traywin = s.traywin := rfl
@[simp] theorem State.setCore_portsUp (s : State) (k : Nat) (c : Core) : (s.setCore k c).portsUp = s.portsUp := rfl
@[simp] theorem State.setCore_nvme (s : State) (k : Nat) (c : Core) : (s.setCore k c).nvme = s.nvme := rfl
@[simp] theorem State.setCore_stCmds (s : State) (k : Nat) (c : Core) : (s.setCore k c).stCmds = s.stCmds := rfl
@[simp] theorem State.setCore_sends (s : State) (k : Nat) (c : Core) : (s.setCore k c).sends = s.sends := rfl
@[simp] theorem State.setCore_ringTail (s : State) (k : Nat) (c : Core) : (s.setCore k c).ringTail = s.ringTail := rfl
@[simp] theorem State.setCore_packets (s : State) (k : Nat) (c : Core) : (s.setCore k c).packets = s.packets := rfl
@[simp] theorem State.setCore_dbgvec (s : State) (k : Nat) (c : Core) : (s.setCore k c).dbgvec = s.dbgvec := rfl
@[simp] theorem State.setCore_mgmt (s : State) (k : Nat) (c : Core) : (s.setCore k c).mgmt = s.mgmt := rfl
@[simp] theorem State.setCore_board (s : State) (k : Nat) (c : Core) : (s.setCore k c).board = s.board := rfl
@[simp] theorem State.setCore_outbox (s : State) (k : Nat) (c : Core) : (s.setCore k c).outbox = s.outbox := rfl

-- modCluster writes clusters and nothing else
@[simp] theorem State.modCluster_clock (s : State) (k : Nat) (f : Cluster → Cluster) : (s.modCluster k f).clock = s.clock := rfl
@[simp] theorem State.modCluster_msys (s : State) (k : Nat) (f : Cluster → Cluster) : (s.modCluster k f).msys = s.msys := rfl
@[simp] theorem State.modCluster_events (s : State) (k : Nat) (f : Cluster → Cluster) : (s.modCluster k f).events = s.events := rfl
@[simp] theorem State.modCluster_cur (s : State) (k : Nat) (f : Cluster → Cluster) : (s.modCluster k f).cur = s.cur := rfl
@[simp] theorem State.modCluster_cursor (s : State) (k : Nat) (f : Cluster → Cluster) : (s.modCluster k f).cursor = s.cursor := rfl
@[simp] theorem State.modCluster_tried (s : State) (k : Nat) (f : Cluster → Cluster) : (s.modCluster k f).tried = s.tried := rfl
@[simp] theorem State.modCluster_pack (s : State) (k : Nat) (f : Cluster → Cluster) : (s.modCluster k f).pack = s.pack := rfl
@[simp] theorem State.modCluster_fresh (s : State) (k : Nat) (f : Cluster → Cluster) : (s.modCluster k f).fresh = s.fresh := rfl
@[simp] theorem State.modCluster_serial (s : State) (k : Nat) (f : Cluster → Cluster) : (s.modCluster k f).serial = s.serial := rfl
@[simp] theorem State.modCluster_groups (s : State) (k : Nat) (f : Cluster → Cluster) : (s.modCluster k f).groups = s.groups := rfl
@[simp] theorem State.modCluster_wgs (s : State) (k : Nat) (f : Cluster → Cluster) : (s.modCluster k f).wgs = s.wgs := rfl
@[simp] theorem State.modCluster_allocs (s : State) (k : Nat) (f : Cluster → Cluster) : (s.modCluster k f).allocs = s.allocs := rfl
@[simp] theorem State.modCluster_cores (s : State) (k : Nat) (f : Cluster → Cluster) : (s.modCluster k f).cores = s.cores := rfl
@[simp] theorem State.modCluster_spads (s : State) (k : Nat) (f : Cluster → Cluster) : (s.modCluster k f).spads = s.spads := rfl
@[simp] theorem State.modCluster_spIn (s : State) (k : Nat) (f : Cluster → Cluster) : (s.modCluster k f).spIn = s.spIn := rfl
@[simp] theorem State.modCluster_feq (s : State) (k : Nat) (f : Cluster → Cluster) : (s.modCluster k f).feq = s.feq := rfl
@[simp] theorem State.modCluster_ops (s : State) (k : Nat) (f : Cluster → Cluster) : (s.modCluster k f).ops = s.ops := rfl
@[simp] theorem State.modCluster_rels (s : State) (k : Nat) (f : Cluster → Cluster) : (s.modCluster k f).rels = s.rels := rfl
@[simp] theorem State.modCluster_ctxs (s : State) (k : Nat) (f : Cluster → Cluster) : (s.modCluster k f).ctxs = s.ctxs := rfl
@[simp] theorem State.modCluster_engAreas (s : State) (k : Nat) (f : Cluster → Cluster) : (s.modCluster k f).engAreas = s.engAreas := rfl
@[simp] theorem State.modCluster_ctxbase (s : State) (k : Nat) (f : Cluster → Cluster) : (s.modCluster k f).ctxbase = s.ctxbase := rfl
@[simp] theorem State.modCluster_resident (s : State) (k : Nat) (f : Cluster → Cluster) : (s.modCluster k f).resident = s.resident := rfl
@[simp] theorem State.modCluster_slots (s : State) (k : Nat) (f : Cluster → Cluster) : (s.modCluster k f).slots = s.slots := rfl
@[simp] theorem State.modCluster_tensors (s : State) (k : Nat) (f : Cluster → Cluster) : (s.modCluster k f).tensors = s.tensors := rfl
@[simp] theorem State.modCluster_bars (s : State) (k : Nat) (f : Cluster → Cluster) : (s.modCluster k f).bars = s.bars := rfl
@[simp] theorem State.modCluster_chans (s : State) (k : Nat) (f : Cluster → Cluster) : (s.modCluster k f).chans = s.chans := rfl
@[simp] theorem State.modCluster_launches (s : State) (k : Nat) (f : Cluster → Cluster) : (s.modCluster k f).launches = s.launches := rfl
@[simp] theorem State.modCluster_heldArms (s : State) (k : Nat) (f : Cluster → Cluster) : (s.modCluster k f).heldArms = s.heldArms := rfl
@[simp] theorem State.modCluster_bins (s : State) (k : Nat) (f : Cluster → Cluster) : (s.modCluster k f).bins = s.bins := rfl
@[simp] theorem State.modCluster_links (s : State) (k : Nat) (f : Cluster → Cluster) : (s.modCluster k f).links = s.links := rfl
@[simp] theorem State.modCluster_linkSel (s : State) (k : Nat) (f : Cluster → Cluster) : (s.modCluster k f).linkSel = s.linkSel := rfl
@[simp] theorem State.modCluster_oemode (s : State) (k : Nat) (f : Cluster → Cluster) : (s.modCluster k f).oemode = s.oemode := rfl
@[simp] theorem State.modCluster_traywin (s : State) (k : Nat) (f : Cluster → Cluster) : (s.modCluster k f).traywin = s.traywin := rfl
@[simp] theorem State.modCluster_portsUp (s : State) (k : Nat) (f : Cluster → Cluster) : (s.modCluster k f).portsUp = s.portsUp := rfl
@[simp] theorem State.modCluster_nvme (s : State) (k : Nat) (f : Cluster → Cluster) : (s.modCluster k f).nvme = s.nvme := rfl
@[simp] theorem State.modCluster_stCmds (s : State) (k : Nat) (f : Cluster → Cluster) : (s.modCluster k f).stCmds = s.stCmds := rfl
@[simp] theorem State.modCluster_sends (s : State) (k : Nat) (f : Cluster → Cluster) : (s.modCluster k f).sends = s.sends := rfl
@[simp] theorem State.modCluster_ringTail (s : State) (k : Nat) (f : Cluster → Cluster) : (s.modCluster k f).ringTail = s.ringTail := rfl
@[simp] theorem State.modCluster_packets (s : State) (k : Nat) (f : Cluster → Cluster) : (s.modCluster k f).packets = s.packets := rfl
@[simp] theorem State.modCluster_dbgvec (s : State) (k : Nat) (f : Cluster → Cluster) : (s.modCluster k f).dbgvec = s.dbgvec := rfl
@[simp] theorem State.modCluster_mgmt (s : State) (k : Nat) (f : Cluster → Cluster) : (s.modCluster k f).mgmt = s.mgmt := rfl
@[simp] theorem State.modCluster_board (s : State) (k : Nat) (f : Cluster → Cluster) : (s.modCluster k f).board = s.board := rfl
@[simp] theorem State.modCluster_outbox (s : State) (k : Nat) (f : Cluster → Cluster) : (s.modCluster k f).outbox = s.outbox := rfl

-- modCtx writes ctxs and nothing else
@[simp] theorem State.modCtx_clock (s : State) (k : Nat) (f : Ctx → Ctx) : (s.modCtx k f).clock = s.clock := rfl
@[simp] theorem State.modCtx_msys (s : State) (k : Nat) (f : Ctx → Ctx) : (s.modCtx k f).msys = s.msys := rfl
@[simp] theorem State.modCtx_events (s : State) (k : Nat) (f : Ctx → Ctx) : (s.modCtx k f).events = s.events := rfl
@[simp] theorem State.modCtx_cur (s : State) (k : Nat) (f : Ctx → Ctx) : (s.modCtx k f).cur = s.cur := rfl
@[simp] theorem State.modCtx_cursor (s : State) (k : Nat) (f : Ctx → Ctx) : (s.modCtx k f).cursor = s.cursor := rfl
@[simp] theorem State.modCtx_tried (s : State) (k : Nat) (f : Ctx → Ctx) : (s.modCtx k f).tried = s.tried := rfl
@[simp] theorem State.modCtx_pack (s : State) (k : Nat) (f : Ctx → Ctx) : (s.modCtx k f).pack = s.pack := rfl
@[simp] theorem State.modCtx_fresh (s : State) (k : Nat) (f : Ctx → Ctx) : (s.modCtx k f).fresh = s.fresh := rfl
@[simp] theorem State.modCtx_serial (s : State) (k : Nat) (f : Ctx → Ctx) : (s.modCtx k f).serial = s.serial := rfl
@[simp] theorem State.modCtx_groups (s : State) (k : Nat) (f : Ctx → Ctx) : (s.modCtx k f).groups = s.groups := rfl
@[simp] theorem State.modCtx_wgs (s : State) (k : Nat) (f : Ctx → Ctx) : (s.modCtx k f).wgs = s.wgs := rfl
@[simp] theorem State.modCtx_allocs (s : State) (k : Nat) (f : Ctx → Ctx) : (s.modCtx k f).allocs = s.allocs := rfl
@[simp] theorem State.modCtx_cores (s : State) (k : Nat) (f : Ctx → Ctx) : (s.modCtx k f).cores = s.cores := rfl
@[simp] theorem State.modCtx_spads (s : State) (k : Nat) (f : Ctx → Ctx) : (s.modCtx k f).spads = s.spads := rfl
@[simp] theorem State.modCtx_spIn (s : State) (k : Nat) (f : Ctx → Ctx) : (s.modCtx k f).spIn = s.spIn := rfl
@[simp] theorem State.modCtx_feq (s : State) (k : Nat) (f : Ctx → Ctx) : (s.modCtx k f).feq = s.feq := rfl
@[simp] theorem State.modCtx_engAreas (s : State) (k : Nat) (f : Ctx → Ctx) : (s.modCtx k f).engAreas = s.engAreas := rfl
@[simp] theorem State.modCtx_clusters (s : State) (k : Nat) (f : Ctx → Ctx) : (s.modCtx k f).clusters = s.clusters := rfl
@[simp] theorem State.modCtx_ops (s : State) (k : Nat) (f : Ctx → Ctx) : (s.modCtx k f).ops = s.ops := rfl
@[simp] theorem State.modCtx_rels (s : State) (k : Nat) (f : Ctx → Ctx) : (s.modCtx k f).rels = s.rels := rfl
@[simp] theorem State.modCtx_ctxbase (s : State) (k : Nat) (f : Ctx → Ctx) : (s.modCtx k f).ctxbase = s.ctxbase := rfl
@[simp] theorem State.modCtx_resident (s : State) (k : Nat) (f : Ctx → Ctx) : (s.modCtx k f).resident = s.resident := rfl
@[simp] theorem State.modCtx_slots (s : State) (k : Nat) (f : Ctx → Ctx) : (s.modCtx k f).slots = s.slots := rfl
@[simp] theorem State.modCtx_tensors (s : State) (k : Nat) (f : Ctx → Ctx) : (s.modCtx k f).tensors = s.tensors := rfl
@[simp] theorem State.modCtx_bars (s : State) (k : Nat) (f : Ctx → Ctx) : (s.modCtx k f).bars = s.bars := rfl
@[simp] theorem State.modCtx_chans (s : State) (k : Nat) (f : Ctx → Ctx) : (s.modCtx k f).chans = s.chans := rfl
@[simp] theorem State.modCtx_launches (s : State) (k : Nat) (f : Ctx → Ctx) : (s.modCtx k f).launches = s.launches := rfl
@[simp] theorem State.modCtx_heldArms (s : State) (k : Nat) (f : Ctx → Ctx) : (s.modCtx k f).heldArms = s.heldArms := rfl
@[simp] theorem State.modCtx_bins (s : State) (k : Nat) (f : Ctx → Ctx) : (s.modCtx k f).bins = s.bins := rfl
@[simp] theorem State.modCtx_links (s : State) (k : Nat) (f : Ctx → Ctx) : (s.modCtx k f).links = s.links := rfl
@[simp] theorem State.modCtx_linkSel (s : State) (k : Nat) (f : Ctx → Ctx) : (s.modCtx k f).linkSel = s.linkSel := rfl
@[simp] theorem State.modCtx_oemode (s : State) (k : Nat) (f : Ctx → Ctx) : (s.modCtx k f).oemode = s.oemode := rfl
@[simp] theorem State.modCtx_traywin (s : State) (k : Nat) (f : Ctx → Ctx) : (s.modCtx k f).traywin = s.traywin := rfl
@[simp] theorem State.modCtx_portsUp (s : State) (k : Nat) (f : Ctx → Ctx) : (s.modCtx k f).portsUp = s.portsUp := rfl
@[simp] theorem State.modCtx_nvme (s : State) (k : Nat) (f : Ctx → Ctx) : (s.modCtx k f).nvme = s.nvme := rfl
@[simp] theorem State.modCtx_stCmds (s : State) (k : Nat) (f : Ctx → Ctx) : (s.modCtx k f).stCmds = s.stCmds := rfl
@[simp] theorem State.modCtx_sends (s : State) (k : Nat) (f : Ctx → Ctx) : (s.modCtx k f).sends = s.sends := rfl
@[simp] theorem State.modCtx_ringTail (s : State) (k : Nat) (f : Ctx → Ctx) : (s.modCtx k f).ringTail = s.ringTail := rfl
@[simp] theorem State.modCtx_packets (s : State) (k : Nat) (f : Ctx → Ctx) : (s.modCtx k f).packets = s.packets := rfl
@[simp] theorem State.modCtx_dbgvec (s : State) (k : Nat) (f : Ctx → Ctx) : (s.modCtx k f).dbgvec = s.dbgvec := rfl
@[simp] theorem State.modCtx_mgmt (s : State) (k : Nat) (f : Ctx → Ctx) : (s.modCtx k f).mgmt = s.mgmt := rfl
@[simp] theorem State.modCtx_board (s : State) (k : Nat) (f : Ctx → Ctx) : (s.modCtx k f).board = s.board := rfl
@[simp] theorem State.modCtx_outbox (s : State) (k : Nat) (f : Ctx → Ctx) : (s.modCtx k f).outbox = s.outbox := rfl

-- setBar writes bars and nothing else
@[simp] theorem State.setBar_clock (s : State) (k : Nat) (b : Barrier) : (s.setBar k b).clock = s.clock := rfl
@[simp] theorem State.setBar_msys (s : State) (k : Nat) (b : Barrier) : (s.setBar k b).msys = s.msys := rfl
@[simp] theorem State.setBar_events (s : State) (k : Nat) (b : Barrier) : (s.setBar k b).events = s.events := rfl
@[simp] theorem State.setBar_cur (s : State) (k : Nat) (b : Barrier) : (s.setBar k b).cur = s.cur := rfl
@[simp] theorem State.setBar_cursor (s : State) (k : Nat) (b : Barrier) : (s.setBar k b).cursor = s.cursor := rfl
@[simp] theorem State.setBar_tried (s : State) (k : Nat) (b : Barrier) : (s.setBar k b).tried = s.tried := rfl
@[simp] theorem State.setBar_pack (s : State) (k : Nat) (b : Barrier) : (s.setBar k b).pack = s.pack := rfl
@[simp] theorem State.setBar_fresh (s : State) (k : Nat) (b : Barrier) : (s.setBar k b).fresh = s.fresh := rfl
@[simp] theorem State.setBar_serial (s : State) (k : Nat) (b : Barrier) : (s.setBar k b).serial = s.serial := rfl
@[simp] theorem State.setBar_groups (s : State) (k : Nat) (b : Barrier) : (s.setBar k b).groups = s.groups := rfl
@[simp] theorem State.setBar_wgs (s : State) (k : Nat) (b : Barrier) : (s.setBar k b).wgs = s.wgs := rfl
@[simp] theorem State.setBar_allocs (s : State) (k : Nat) (b : Barrier) : (s.setBar k b).allocs = s.allocs := rfl
@[simp] theorem State.setBar_cores (s : State) (k : Nat) (b : Barrier) : (s.setBar k b).cores = s.cores := rfl
@[simp] theorem State.setBar_spads (s : State) (k : Nat) (b : Barrier) : (s.setBar k b).spads = s.spads := rfl
@[simp] theorem State.setBar_spIn (s : State) (k : Nat) (b : Barrier) : (s.setBar k b).spIn = s.spIn := rfl
@[simp] theorem State.setBar_feq (s : State) (k : Nat) (b : Barrier) : (s.setBar k b).feq = s.feq := rfl
@[simp] theorem State.setBar_clusters (s : State) (k : Nat) (b : Barrier) : (s.setBar k b).clusters = s.clusters := rfl
@[simp] theorem State.setBar_ops (s : State) (k : Nat) (b : Barrier) : (s.setBar k b).ops = s.ops := rfl
@[simp] theorem State.setBar_rels (s : State) (k : Nat) (b : Barrier) : (s.setBar k b).rels = s.rels := rfl
@[simp] theorem State.setBar_ctxs (s : State) (k : Nat) (b : Barrier) : (s.setBar k b).ctxs = s.ctxs := rfl
@[simp] theorem State.setBar_engAreas (s : State) (k : Nat) (b : Barrier) : (s.setBar k b).engAreas = s.engAreas := rfl
@[simp] theorem State.setBar_ctxbase (s : State) (k : Nat) (b : Barrier) : (s.setBar k b).ctxbase = s.ctxbase := rfl
@[simp] theorem State.setBar_resident (s : State) (k : Nat) (b : Barrier) : (s.setBar k b).resident = s.resident := rfl
@[simp] theorem State.setBar_slots (s : State) (k : Nat) (b : Barrier) : (s.setBar k b).slots = s.slots := rfl
@[simp] theorem State.setBar_tensors (s : State) (k : Nat) (b : Barrier) : (s.setBar k b).tensors = s.tensors := rfl
@[simp] theorem State.setBar_chans (s : State) (k : Nat) (b : Barrier) : (s.setBar k b).chans = s.chans := rfl
@[simp] theorem State.setBar_launches (s : State) (k : Nat) (b : Barrier) : (s.setBar k b).launches = s.launches := rfl
@[simp] theorem State.setBar_heldArms (s : State) (k : Nat) (b : Barrier) : (s.setBar k b).heldArms = s.heldArms := rfl
@[simp] theorem State.setBar_bins (s : State) (k : Nat) (b : Barrier) : (s.setBar k b).bins = s.bins := rfl
@[simp] theorem State.setBar_links (s : State) (k : Nat) (b : Barrier) : (s.setBar k b).links = s.links := rfl
@[simp] theorem State.setBar_linkSel (s : State) (k : Nat) (b : Barrier) : (s.setBar k b).linkSel = s.linkSel := rfl
@[simp] theorem State.setBar_oemode (s : State) (k : Nat) (b : Barrier) : (s.setBar k b).oemode = s.oemode := rfl
@[simp] theorem State.setBar_traywin (s : State) (k : Nat) (b : Barrier) : (s.setBar k b).traywin = s.traywin := rfl
@[simp] theorem State.setBar_portsUp (s : State) (k : Nat) (b : Barrier) : (s.setBar k b).portsUp = s.portsUp := rfl
@[simp] theorem State.setBar_nvme (s : State) (k : Nat) (b : Barrier) : (s.setBar k b).nvme = s.nvme := rfl
@[simp] theorem State.setBar_stCmds (s : State) (k : Nat) (b : Barrier) : (s.setBar k b).stCmds = s.stCmds := rfl
@[simp] theorem State.setBar_sends (s : State) (k : Nat) (b : Barrier) : (s.setBar k b).sends = s.sends := rfl
@[simp] theorem State.setBar_ringTail (s : State) (k : Nat) (b : Barrier) : (s.setBar k b).ringTail = s.ringTail := rfl
@[simp] theorem State.setBar_packets (s : State) (k : Nat) (b : Barrier) : (s.setBar k b).packets = s.packets := rfl
@[simp] theorem State.setBar_dbgvec (s : State) (k : Nat) (b : Barrier) : (s.setBar k b).dbgvec = s.dbgvec := rfl
@[simp] theorem State.setBar_mgmt (s : State) (k : Nat) (b : Barrier) : (s.setBar k b).mgmt = s.mgmt := rfl
@[simp] theorem State.setBar_board (s : State) (k : Nat) (b : Barrier) : (s.setBar k b).board = s.board := rfl
@[simp] theorem State.setBar_outbox (s : State) (k : Nat) (b : Barrier) : (s.setBar k b).outbox = s.outbox := rfl

-- modLink writes links and nothing else
@[simp] theorem State.modLink_clock (s : State) (k : Nat) (f : Link → Link) : (s.modLink k f).clock = s.clock := rfl
@[simp] theorem State.modLink_msys (s : State) (k : Nat) (f : Link → Link) : (s.modLink k f).msys = s.msys := rfl
@[simp] theorem State.modLink_events (s : State) (k : Nat) (f : Link → Link) : (s.modLink k f).events = s.events := rfl
@[simp] theorem State.modLink_cur (s : State) (k : Nat) (f : Link → Link) : (s.modLink k f).cur = s.cur := rfl
@[simp] theorem State.modLink_cursor (s : State) (k : Nat) (f : Link → Link) : (s.modLink k f).cursor = s.cursor := rfl
@[simp] theorem State.modLink_tried (s : State) (k : Nat) (f : Link → Link) : (s.modLink k f).tried = s.tried := rfl
@[simp] theorem State.modLink_pack (s : State) (k : Nat) (f : Link → Link) : (s.modLink k f).pack = s.pack := rfl
@[simp] theorem State.modLink_fresh (s : State) (k : Nat) (f : Link → Link) : (s.modLink k f).fresh = s.fresh := rfl
@[simp] theorem State.modLink_serial (s : State) (k : Nat) (f : Link → Link) : (s.modLink k f).serial = s.serial := rfl
@[simp] theorem State.modLink_groups (s : State) (k : Nat) (f : Link → Link) : (s.modLink k f).groups = s.groups := rfl
@[simp] theorem State.modLink_wgs (s : State) (k : Nat) (f : Link → Link) : (s.modLink k f).wgs = s.wgs := rfl
@[simp] theorem State.modLink_allocs (s : State) (k : Nat) (f : Link → Link) : (s.modLink k f).allocs = s.allocs := rfl
@[simp] theorem State.modLink_cores (s : State) (k : Nat) (f : Link → Link) : (s.modLink k f).cores = s.cores := rfl
@[simp] theorem State.modLink_spads (s : State) (k : Nat) (f : Link → Link) : (s.modLink k f).spads = s.spads := rfl
@[simp] theorem State.modLink_spIn (s : State) (k : Nat) (f : Link → Link) : (s.modLink k f).spIn = s.spIn := rfl
@[simp] theorem State.modLink_feq (s : State) (k : Nat) (f : Link → Link) : (s.modLink k f).feq = s.feq := rfl
@[simp] theorem State.modLink_clusters (s : State) (k : Nat) (f : Link → Link) : (s.modLink k f).clusters = s.clusters := rfl
@[simp] theorem State.modLink_ops (s : State) (k : Nat) (f : Link → Link) : (s.modLink k f).ops = s.ops := rfl
@[simp] theorem State.modLink_rels (s : State) (k : Nat) (f : Link → Link) : (s.modLink k f).rels = s.rels := rfl
@[simp] theorem State.modLink_ctxs (s : State) (k : Nat) (f : Link → Link) : (s.modLink k f).ctxs = s.ctxs := rfl
@[simp] theorem State.modLink_engAreas (s : State) (k : Nat) (f : Link → Link) : (s.modLink k f).engAreas = s.engAreas := rfl
@[simp] theorem State.modLink_ctxbase (s : State) (k : Nat) (f : Link → Link) : (s.modLink k f).ctxbase = s.ctxbase := rfl
@[simp] theorem State.modLink_resident (s : State) (k : Nat) (f : Link → Link) : (s.modLink k f).resident = s.resident := rfl
@[simp] theorem State.modLink_slots (s : State) (k : Nat) (f : Link → Link) : (s.modLink k f).slots = s.slots := rfl
@[simp] theorem State.modLink_tensors (s : State) (k : Nat) (f : Link → Link) : (s.modLink k f).tensors = s.tensors := rfl
@[simp] theorem State.modLink_bars (s : State) (k : Nat) (f : Link → Link) : (s.modLink k f).bars = s.bars := rfl
@[simp] theorem State.modLink_chans (s : State) (k : Nat) (f : Link → Link) : (s.modLink k f).chans = s.chans := rfl
@[simp] theorem State.modLink_launches (s : State) (k : Nat) (f : Link → Link) : (s.modLink k f).launches = s.launches := rfl
@[simp] theorem State.modLink_heldArms (s : State) (k : Nat) (f : Link → Link) : (s.modLink k f).heldArms = s.heldArms := rfl
@[simp] theorem State.modLink_bins (s : State) (k : Nat) (f : Link → Link) : (s.modLink k f).bins = s.bins := rfl
@[simp] theorem State.modLink_linkSel (s : State) (k : Nat) (f : Link → Link) : (s.modLink k f).linkSel = s.linkSel := rfl
@[simp] theorem State.modLink_oemode (s : State) (k : Nat) (f : Link → Link) : (s.modLink k f).oemode = s.oemode := rfl
@[simp] theorem State.modLink_traywin (s : State) (k : Nat) (f : Link → Link) : (s.modLink k f).traywin = s.traywin := rfl
@[simp] theorem State.modLink_portsUp (s : State) (k : Nat) (f : Link → Link) : (s.modLink k f).portsUp = s.portsUp := rfl
@[simp] theorem State.modLink_nvme (s : State) (k : Nat) (f : Link → Link) : (s.modLink k f).nvme = s.nvme := rfl
@[simp] theorem State.modLink_stCmds (s : State) (k : Nat) (f : Link → Link) : (s.modLink k f).stCmds = s.stCmds := rfl
@[simp] theorem State.modLink_sends (s : State) (k : Nat) (f : Link → Link) : (s.modLink k f).sends = s.sends := rfl
@[simp] theorem State.modLink_ringTail (s : State) (k : Nat) (f : Link → Link) : (s.modLink k f).ringTail = s.ringTail := rfl
@[simp] theorem State.modLink_packets (s : State) (k : Nat) (f : Link → Link) : (s.modLink k f).packets = s.packets := rfl
@[simp] theorem State.modLink_dbgvec (s : State) (k : Nat) (f : Link → Link) : (s.modLink k f).dbgvec = s.dbgvec := rfl
@[simp] theorem State.modLink_mgmt (s : State) (k : Nat) (f : Link → Link) : (s.modLink k f).mgmt = s.mgmt := rfl
@[simp] theorem State.modLink_board (s : State) (k : Nat) (f : Link → Link) : (s.modLink k f).board = s.board := rfl
@[simp] theorem State.modLink_outbox (s : State) (k : Nat) (f : Link → Link) : (s.modLink k f).outbox = s.outbox := rfl

-- setGroup writes groups and nothing else
@[simp] theorem State.setGroup_clock (s : State) (gid : Nat) (g : Group) : (s.setGroup gid g).clock = s.clock := rfl
@[simp] theorem State.setGroup_msys (s : State) (gid : Nat) (g : Group) : (s.setGroup gid g).msys = s.msys := rfl
@[simp] theorem State.setGroup_events (s : State) (gid : Nat) (g : Group) : (s.setGroup gid g).events = s.events := rfl
@[simp] theorem State.setGroup_cur (s : State) (gid : Nat) (g : Group) : (s.setGroup gid g).cur = s.cur := rfl
@[simp] theorem State.setGroup_cursor (s : State) (gid : Nat) (g : Group) : (s.setGroup gid g).cursor = s.cursor := rfl
@[simp] theorem State.setGroup_tried (s : State) (gid : Nat) (g : Group) : (s.setGroup gid g).tried = s.tried := rfl
@[simp] theorem State.setGroup_pack (s : State) (gid : Nat) (g : Group) : (s.setGroup gid g).pack = s.pack := rfl
@[simp] theorem State.setGroup_fresh (s : State) (gid : Nat) (g : Group) : (s.setGroup gid g).fresh = s.fresh := rfl
@[simp] theorem State.setGroup_serial (s : State) (gid : Nat) (g : Group) : (s.setGroup gid g).serial = s.serial := rfl
@[simp] theorem State.setGroup_wgs (s : State) (gid : Nat) (g : Group) : (s.setGroup gid g).wgs = s.wgs := rfl
@[simp] theorem State.setGroup_allocs (s : State) (gid : Nat) (g : Group) : (s.setGroup gid g).allocs = s.allocs := rfl
@[simp] theorem State.setGroup_cores (s : State) (gid : Nat) (g : Group) : (s.setGroup gid g).cores = s.cores := rfl
@[simp] theorem State.setGroup_spads (s : State) (gid : Nat) (g : Group) : (s.setGroup gid g).spads = s.spads := rfl
@[simp] theorem State.setGroup_spIn (s : State) (gid : Nat) (g : Group) : (s.setGroup gid g).spIn = s.spIn := rfl
@[simp] theorem State.setGroup_feq (s : State) (gid : Nat) (g : Group) : (s.setGroup gid g).feq = s.feq := rfl
@[simp] theorem State.setGroup_clusters (s : State) (gid : Nat) (g : Group) : (s.setGroup gid g).clusters = s.clusters := rfl
@[simp] theorem State.setGroup_ops (s : State) (gid : Nat) (g : Group) : (s.setGroup gid g).ops = s.ops := rfl
@[simp] theorem State.setGroup_rels (s : State) (gid : Nat) (g : Group) : (s.setGroup gid g).rels = s.rels := rfl
@[simp] theorem State.setGroup_ctxs (s : State) (gid : Nat) (g : Group) : (s.setGroup gid g).ctxs = s.ctxs := rfl
@[simp] theorem State.setGroup_engAreas (s : State) (gid : Nat) (g : Group) : (s.setGroup gid g).engAreas = s.engAreas := rfl
@[simp] theorem State.setGroup_ctxbase (s : State) (gid : Nat) (g : Group) : (s.setGroup gid g).ctxbase = s.ctxbase := rfl
@[simp] theorem State.setGroup_resident (s : State) (gid : Nat) (g : Group) : (s.setGroup gid g).resident = s.resident := rfl
@[simp] theorem State.setGroup_slots (s : State) (gid : Nat) (g : Group) : (s.setGroup gid g).slots = s.slots := rfl
@[simp] theorem State.setGroup_tensors (s : State) (gid : Nat) (g : Group) : (s.setGroup gid g).tensors = s.tensors := rfl
@[simp] theorem State.setGroup_bars (s : State) (gid : Nat) (g : Group) : (s.setGroup gid g).bars = s.bars := rfl
@[simp] theorem State.setGroup_chans (s : State) (gid : Nat) (g : Group) : (s.setGroup gid g).chans = s.chans := rfl
@[simp] theorem State.setGroup_launches (s : State) (gid : Nat) (g : Group) : (s.setGroup gid g).launches = s.launches := rfl
@[simp] theorem State.setGroup_heldArms (s : State) (gid : Nat) (g : Group) : (s.setGroup gid g).heldArms = s.heldArms := rfl
@[simp] theorem State.setGroup_bins (s : State) (gid : Nat) (g : Group) : (s.setGroup gid g).bins = s.bins := rfl
@[simp] theorem State.setGroup_links (s : State) (gid : Nat) (g : Group) : (s.setGroup gid g).links = s.links := rfl
@[simp] theorem State.setGroup_linkSel (s : State) (gid : Nat) (g : Group) : (s.setGroup gid g).linkSel = s.linkSel := rfl
@[simp] theorem State.setGroup_oemode (s : State) (gid : Nat) (g : Group) : (s.setGroup gid g).oemode = s.oemode := rfl
@[simp] theorem State.setGroup_traywin (s : State) (gid : Nat) (g : Group) : (s.setGroup gid g).traywin = s.traywin := rfl
@[simp] theorem State.setGroup_portsUp (s : State) (gid : Nat) (g : Group) : (s.setGroup gid g).portsUp = s.portsUp := rfl
@[simp] theorem State.setGroup_nvme (s : State) (gid : Nat) (g : Group) : (s.setGroup gid g).nvme = s.nvme := rfl
@[simp] theorem State.setGroup_stCmds (s : State) (gid : Nat) (g : Group) : (s.setGroup gid g).stCmds = s.stCmds := rfl
@[simp] theorem State.setGroup_sends (s : State) (gid : Nat) (g : Group) : (s.setGroup gid g).sends = s.sends := rfl
@[simp] theorem State.setGroup_ringTail (s : State) (gid : Nat) (g : Group) : (s.setGroup gid g).ringTail = s.ringTail := rfl
@[simp] theorem State.setGroup_packets (s : State) (gid : Nat) (g : Group) : (s.setGroup gid g).packets = s.packets := rfl
@[simp] theorem State.setGroup_dbgvec (s : State) (gid : Nat) (g : Group) : (s.setGroup gid g).dbgvec = s.dbgvec := rfl
@[simp] theorem State.setGroup_mgmt (s : State) (gid : Nat) (g : Group) : (s.setGroup gid g).mgmt = s.mgmt := rfl
@[simp] theorem State.setGroup_board (s : State) (gid : Nat) (g : Group) : (s.setGroup gid g).board = s.board := rfl
@[simp] theorem State.setGroup_outbox (s : State) (gid : Nat) (g : Group) : (s.setGroup gid g).outbox = s.outbox := rfl

-- modMgmt writes mgmt and nothing else
@[simp] theorem State.modMgmt_clock (s : State) (f : Mgmt → Mgmt) : (s.modMgmt f).clock = s.clock := rfl
@[simp] theorem State.modMgmt_msys (s : State) (f : Mgmt → Mgmt) : (s.modMgmt f).msys = s.msys := rfl
@[simp] theorem State.modMgmt_events (s : State) (f : Mgmt → Mgmt) : (s.modMgmt f).events = s.events := rfl
@[simp] theorem State.modMgmt_cur (s : State) (f : Mgmt → Mgmt) : (s.modMgmt f).cur = s.cur := rfl
@[simp] theorem State.modMgmt_cursor (s : State) (f : Mgmt → Mgmt) : (s.modMgmt f).cursor = s.cursor := rfl
@[simp] theorem State.modMgmt_tried (s : State) (f : Mgmt → Mgmt) : (s.modMgmt f).tried = s.tried := rfl
@[simp] theorem State.modMgmt_pack (s : State) (f : Mgmt → Mgmt) : (s.modMgmt f).pack = s.pack := rfl
@[simp] theorem State.modMgmt_fresh (s : State) (f : Mgmt → Mgmt) : (s.modMgmt f).fresh = s.fresh := rfl
@[simp] theorem State.modMgmt_serial (s : State) (f : Mgmt → Mgmt) : (s.modMgmt f).serial = s.serial := rfl
@[simp] theorem State.modMgmt_groups (s : State) (f : Mgmt → Mgmt) : (s.modMgmt f).groups = s.groups := rfl
@[simp] theorem State.modMgmt_wgs (s : State) (f : Mgmt → Mgmt) : (s.modMgmt f).wgs = s.wgs := rfl
@[simp] theorem State.modMgmt_allocs (s : State) (f : Mgmt → Mgmt) : (s.modMgmt f).allocs = s.allocs := rfl
@[simp] theorem State.modMgmt_cores (s : State) (f : Mgmt → Mgmt) : (s.modMgmt f).cores = s.cores := rfl
@[simp] theorem State.modMgmt_spads (s : State) (f : Mgmt → Mgmt) : (s.modMgmt f).spads = s.spads := rfl
@[simp] theorem State.modMgmt_spIn (s : State) (f : Mgmt → Mgmt) : (s.modMgmt f).spIn = s.spIn := rfl
@[simp] theorem State.modMgmt_feq (s : State) (f : Mgmt → Mgmt) : (s.modMgmt f).feq = s.feq := rfl
@[simp] theorem State.modMgmt_clusters (s : State) (f : Mgmt → Mgmt) : (s.modMgmt f).clusters = s.clusters := rfl
@[simp] theorem State.modMgmt_ops (s : State) (f : Mgmt → Mgmt) : (s.modMgmt f).ops = s.ops := rfl
@[simp] theorem State.modMgmt_rels (s : State) (f : Mgmt → Mgmt) : (s.modMgmt f).rels = s.rels := rfl
@[simp] theorem State.modMgmt_ctxs (s : State) (f : Mgmt → Mgmt) : (s.modMgmt f).ctxs = s.ctxs := rfl
@[simp] theorem State.modMgmt_engAreas (s : State) (f : Mgmt → Mgmt) : (s.modMgmt f).engAreas = s.engAreas := rfl
@[simp] theorem State.modMgmt_ctxbase (s : State) (f : Mgmt → Mgmt) : (s.modMgmt f).ctxbase = s.ctxbase := rfl
@[simp] theorem State.modMgmt_resident (s : State) (f : Mgmt → Mgmt) : (s.modMgmt f).resident = s.resident := rfl
@[simp] theorem State.modMgmt_slots (s : State) (f : Mgmt → Mgmt) : (s.modMgmt f).slots = s.slots := rfl
@[simp] theorem State.modMgmt_tensors (s : State) (f : Mgmt → Mgmt) : (s.modMgmt f).tensors = s.tensors := rfl
@[simp] theorem State.modMgmt_bars (s : State) (f : Mgmt → Mgmt) : (s.modMgmt f).bars = s.bars := rfl
@[simp] theorem State.modMgmt_chans (s : State) (f : Mgmt → Mgmt) : (s.modMgmt f).chans = s.chans := rfl
@[simp] theorem State.modMgmt_launches (s : State) (f : Mgmt → Mgmt) : (s.modMgmt f).launches = s.launches := rfl
@[simp] theorem State.modMgmt_heldArms (s : State) (f : Mgmt → Mgmt) : (s.modMgmt f).heldArms = s.heldArms := rfl
@[simp] theorem State.modMgmt_bins (s : State) (f : Mgmt → Mgmt) : (s.modMgmt f).bins = s.bins := rfl
@[simp] theorem State.modMgmt_links (s : State) (f : Mgmt → Mgmt) : (s.modMgmt f).links = s.links := rfl
@[simp] theorem State.modMgmt_linkSel (s : State) (f : Mgmt → Mgmt) : (s.modMgmt f).linkSel = s.linkSel := rfl
@[simp] theorem State.modMgmt_oemode (s : State) (f : Mgmt → Mgmt) : (s.modMgmt f).oemode = s.oemode := rfl
@[simp] theorem State.modMgmt_traywin (s : State) (f : Mgmt → Mgmt) : (s.modMgmt f).traywin = s.traywin := rfl
@[simp] theorem State.modMgmt_portsUp (s : State) (f : Mgmt → Mgmt) : (s.modMgmt f).portsUp = s.portsUp := rfl
@[simp] theorem State.modMgmt_nvme (s : State) (f : Mgmt → Mgmt) : (s.modMgmt f).nvme = s.nvme := rfl
@[simp] theorem State.modMgmt_stCmds (s : State) (f : Mgmt → Mgmt) : (s.modMgmt f).stCmds = s.stCmds := rfl
@[simp] theorem State.modMgmt_sends (s : State) (f : Mgmt → Mgmt) : (s.modMgmt f).sends = s.sends := rfl
@[simp] theorem State.modMgmt_ringTail (s : State) (f : Mgmt → Mgmt) : (s.modMgmt f).ringTail = s.ringTail := rfl
@[simp] theorem State.modMgmt_packets (s : State) (f : Mgmt → Mgmt) : (s.modMgmt f).packets = s.packets := rfl
@[simp] theorem State.modMgmt_dbgvec (s : State) (f : Mgmt → Mgmt) : (s.modMgmt f).dbgvec = s.dbgvec := rfl
@[simp] theorem State.modMgmt_board (s : State) (f : Mgmt → Mgmt) : (s.modMgmt f).board = s.board := rfl
@[simp] theorem State.modMgmt_outbox (s : State) (f : Mgmt → Mgmt) : (s.modMgmt f).outbox = s.outbox := rfl

-- modMsys writes msys and nothing else
@[simp] theorem State.modMsys_clock (s : State) (f : MemSys → MemSys) : (s.modMsys f).clock = s.clock := rfl
@[simp] theorem State.modMsys_events (s : State) (f : MemSys → MemSys) : (s.modMsys f).events = s.events := rfl
@[simp] theorem State.modMsys_cur (s : State) (f : MemSys → MemSys) : (s.modMsys f).cur = s.cur := rfl
@[simp] theorem State.modMsys_cursor (s : State) (f : MemSys → MemSys) : (s.modMsys f).cursor = s.cursor := rfl
@[simp] theorem State.modMsys_tried (s : State) (f : MemSys → MemSys) : (s.modMsys f).tried = s.tried := rfl
@[simp] theorem State.modMsys_pack (s : State) (f : MemSys → MemSys) : (s.modMsys f).pack = s.pack := rfl
@[simp] theorem State.modMsys_fresh (s : State) (f : MemSys → MemSys) : (s.modMsys f).fresh = s.fresh := rfl
@[simp] theorem State.modMsys_serial (s : State) (f : MemSys → MemSys) : (s.modMsys f).serial = s.serial := rfl
@[simp] theorem State.modMsys_groups (s : State) (f : MemSys → MemSys) : (s.modMsys f).groups = s.groups := rfl
@[simp] theorem State.modMsys_wgs (s : State) (f : MemSys → MemSys) : (s.modMsys f).wgs = s.wgs := rfl
@[simp] theorem State.modMsys_allocs (s : State) (f : MemSys → MemSys) : (s.modMsys f).allocs = s.allocs := rfl
@[simp] theorem State.modMsys_cores (s : State) (f : MemSys → MemSys) : (s.modMsys f).cores = s.cores := rfl
@[simp] theorem State.modMsys_spads (s : State) (f : MemSys → MemSys) : (s.modMsys f).spads = s.spads := rfl
@[simp] theorem State.modMsys_spIn (s : State) (f : MemSys → MemSys) : (s.modMsys f).spIn = s.spIn := rfl
@[simp] theorem State.modMsys_feq (s : State) (f : MemSys → MemSys) : (s.modMsys f).feq = s.feq := rfl
@[simp] theorem State.modMsys_clusters (s : State) (f : MemSys → MemSys) : (s.modMsys f).clusters = s.clusters := rfl
@[simp] theorem State.modMsys_ops (s : State) (f : MemSys → MemSys) : (s.modMsys f).ops = s.ops := rfl
@[simp] theorem State.modMsys_rels (s : State) (f : MemSys → MemSys) : (s.modMsys f).rels = s.rels := rfl
@[simp] theorem State.modMsys_ctxs (s : State) (f : MemSys → MemSys) : (s.modMsys f).ctxs = s.ctxs := rfl
@[simp] theorem State.modMsys_engAreas (s : State) (f : MemSys → MemSys) : (s.modMsys f).engAreas = s.engAreas := rfl
@[simp] theorem State.modMsys_ctxbase (s : State) (f : MemSys → MemSys) : (s.modMsys f).ctxbase = s.ctxbase := rfl
@[simp] theorem State.modMsys_resident (s : State) (f : MemSys → MemSys) : (s.modMsys f).resident = s.resident := rfl
@[simp] theorem State.modMsys_slots (s : State) (f : MemSys → MemSys) : (s.modMsys f).slots = s.slots := rfl
@[simp] theorem State.modMsys_tensors (s : State) (f : MemSys → MemSys) : (s.modMsys f).tensors = s.tensors := rfl
@[simp] theorem State.modMsys_bars (s : State) (f : MemSys → MemSys) : (s.modMsys f).bars = s.bars := rfl
@[simp] theorem State.modMsys_chans (s : State) (f : MemSys → MemSys) : (s.modMsys f).chans = s.chans := rfl
@[simp] theorem State.modMsys_launches (s : State) (f : MemSys → MemSys) : (s.modMsys f).launches = s.launches := rfl
@[simp] theorem State.modMsys_heldArms (s : State) (f : MemSys → MemSys) : (s.modMsys f).heldArms = s.heldArms := rfl
@[simp] theorem State.modMsys_bins (s : State) (f : MemSys → MemSys) : (s.modMsys f).bins = s.bins := rfl
@[simp] theorem State.modMsys_links (s : State) (f : MemSys → MemSys) : (s.modMsys f).links = s.links := rfl
@[simp] theorem State.modMsys_linkSel (s : State) (f : MemSys → MemSys) : (s.modMsys f).linkSel = s.linkSel := rfl
@[simp] theorem State.modMsys_oemode (s : State) (f : MemSys → MemSys) : (s.modMsys f).oemode = s.oemode := rfl
@[simp] theorem State.modMsys_traywin (s : State) (f : MemSys → MemSys) : (s.modMsys f).traywin = s.traywin := rfl
@[simp] theorem State.modMsys_portsUp (s : State) (f : MemSys → MemSys) : (s.modMsys f).portsUp = s.portsUp := rfl
@[simp] theorem State.modMsys_nvme (s : State) (f : MemSys → MemSys) : (s.modMsys f).nvme = s.nvme := rfl
@[simp] theorem State.modMsys_stCmds (s : State) (f : MemSys → MemSys) : (s.modMsys f).stCmds = s.stCmds := rfl
@[simp] theorem State.modMsys_sends (s : State) (f : MemSys → MemSys) : (s.modMsys f).sends = s.sends := rfl
@[simp] theorem State.modMsys_ringTail (s : State) (f : MemSys → MemSys) : (s.modMsys f).ringTail = s.ringTail := rfl
@[simp] theorem State.modMsys_packets (s : State) (f : MemSys → MemSys) : (s.modMsys f).packets = s.packets := rfl
@[simp] theorem State.modMsys_dbgvec (s : State) (f : MemSys → MemSys) : (s.modMsys f).dbgvec = s.dbgvec := rfl
@[simp] theorem State.modMsys_mgmt (s : State) (f : MemSys → MemSys) : (s.modMsys f).mgmt = s.mgmt := rfl
@[simp] theorem State.modMsys_board (s : State) (f : MemSys → MemSys) : (s.modMsys f).board = s.board := rfl
@[simp] theorem State.modMsys_outbox (s : State) (f : MemSys → MemSys) : (s.modMsys f).outbox = s.outbox := rfl

-- schedule writes events and nothing else
@[simp] theorem State.schedule_clock (s : State) (due : Nat) (i : Instr) : (s.schedule due i).clock = s.clock := rfl
@[simp] theorem State.schedule_msys (s : State) (due : Nat) (i : Instr) : (s.schedule due i).msys = s.msys := rfl
@[simp] theorem State.schedule_cur (s : State) (due : Nat) (i : Instr) : (s.schedule due i).cur = s.cur := rfl
@[simp] theorem State.schedule_cursor (s : State) (due : Nat) (i : Instr) : (s.schedule due i).cursor = s.cursor := rfl
@[simp] theorem State.schedule_tried (s : State) (due : Nat) (i : Instr) : (s.schedule due i).tried = s.tried := rfl
@[simp] theorem State.schedule_pack (s : State) (due : Nat) (i : Instr) : (s.schedule due i).pack = s.pack := rfl
@[simp] theorem State.schedule_fresh (s : State) (due : Nat) (i : Instr) : (s.schedule due i).fresh = s.fresh := rfl
@[simp] theorem State.schedule_serial (s : State) (due : Nat) (i : Instr) : (s.schedule due i).serial = s.serial := rfl
@[simp] theorem State.schedule_groups (s : State) (due : Nat) (i : Instr) : (s.schedule due i).groups = s.groups := rfl
@[simp] theorem State.schedule_wgs (s : State) (due : Nat) (i : Instr) : (s.schedule due i).wgs = s.wgs := rfl
@[simp] theorem State.schedule_allocs (s : State) (due : Nat) (i : Instr) : (s.schedule due i).allocs = s.allocs := rfl
@[simp] theorem State.schedule_cores (s : State) (due : Nat) (i : Instr) : (s.schedule due i).cores = s.cores := rfl
@[simp] theorem State.schedule_spads (s : State) (due : Nat) (i : Instr) : (s.schedule due i).spads = s.spads := rfl
@[simp] theorem State.schedule_spIn (s : State) (due : Nat) (i : Instr) : (s.schedule due i).spIn = s.spIn := rfl
@[simp] theorem State.schedule_feq (s : State) (due : Nat) (i : Instr) : (s.schedule due i).feq = s.feq := rfl
@[simp] theorem State.schedule_clusters (s : State) (due : Nat) (i : Instr) : (s.schedule due i).clusters = s.clusters := rfl
@[simp] theorem State.schedule_ops (s : State) (due : Nat) (i : Instr) : (s.schedule due i).ops = s.ops := rfl
@[simp] theorem State.schedule_rels (s : State) (due : Nat) (i : Instr) : (s.schedule due i).rels = s.rels := rfl
@[simp] theorem State.schedule_ctxs (s : State) (due : Nat) (i : Instr) : (s.schedule due i).ctxs = s.ctxs := rfl
@[simp] theorem State.schedule_engAreas (s : State) (due : Nat) (i : Instr) : (s.schedule due i).engAreas = s.engAreas := rfl
@[simp] theorem State.schedule_ctxbase (s : State) (due : Nat) (i : Instr) : (s.schedule due i).ctxbase = s.ctxbase := rfl
@[simp] theorem State.schedule_resident (s : State) (due : Nat) (i : Instr) : (s.schedule due i).resident = s.resident := rfl
@[simp] theorem State.schedule_slots (s : State) (due : Nat) (i : Instr) : (s.schedule due i).slots = s.slots := rfl
@[simp] theorem State.schedule_tensors (s : State) (due : Nat) (i : Instr) : (s.schedule due i).tensors = s.tensors := rfl
@[simp] theorem State.schedule_bars (s : State) (due : Nat) (i : Instr) : (s.schedule due i).bars = s.bars := rfl
@[simp] theorem State.schedule_chans (s : State) (due : Nat) (i : Instr) : (s.schedule due i).chans = s.chans := rfl
@[simp] theorem State.schedule_launches (s : State) (due : Nat) (i : Instr) : (s.schedule due i).launches = s.launches := rfl
@[simp] theorem State.schedule_heldArms (s : State) (due : Nat) (i : Instr) : (s.schedule due i).heldArms = s.heldArms := rfl
@[simp] theorem State.schedule_bins (s : State) (due : Nat) (i : Instr) : (s.schedule due i).bins = s.bins := rfl
@[simp] theorem State.schedule_links (s : State) (due : Nat) (i : Instr) : (s.schedule due i).links = s.links := rfl
@[simp] theorem State.schedule_linkSel (s : State) (due : Nat) (i : Instr) : (s.schedule due i).linkSel = s.linkSel := rfl
@[simp] theorem State.schedule_oemode (s : State) (due : Nat) (i : Instr) : (s.schedule due i).oemode = s.oemode := rfl
@[simp] theorem State.schedule_traywin (s : State) (due : Nat) (i : Instr) : (s.schedule due i).traywin = s.traywin := rfl
@[simp] theorem State.schedule_portsUp (s : State) (due : Nat) (i : Instr) : (s.schedule due i).portsUp = s.portsUp := rfl
@[simp] theorem State.schedule_nvme (s : State) (due : Nat) (i : Instr) : (s.schedule due i).nvme = s.nvme := rfl
@[simp] theorem State.schedule_stCmds (s : State) (due : Nat) (i : Instr) : (s.schedule due i).stCmds = s.stCmds := rfl
@[simp] theorem State.schedule_sends (s : State) (due : Nat) (i : Instr) : (s.schedule due i).sends = s.sends := rfl
@[simp] theorem State.schedule_ringTail (s : State) (due : Nat) (i : Instr) : (s.schedule due i).ringTail = s.ringTail := rfl
@[simp] theorem State.schedule_packets (s : State) (due : Nat) (i : Instr) : (s.schedule due i).packets = s.packets := rfl
@[simp] theorem State.schedule_dbgvec (s : State) (due : Nat) (i : Instr) : (s.schedule due i).dbgvec = s.dbgvec := rfl
@[simp] theorem State.schedule_mgmt (s : State) (due : Nat) (i : Instr) : (s.schedule due i).mgmt = s.mgmt := rfl
@[simp] theorem State.schedule_board (s : State) (due : Nat) (i : Instr) : (s.schedule due i).board = s.board := rfl
@[simp] theorem State.schedule_outbox (s : State) (due : Nat) (i : Instr) : (s.schedule due i).outbox = s.outbox := rfl

-- soon writes events and nothing else
@[simp] theorem State.soon_clock (s : State) (i : Instr) : (s.soon i).clock = s.clock := rfl
@[simp] theorem State.soon_msys (s : State) (i : Instr) : (s.soon i).msys = s.msys := rfl
@[simp] theorem State.soon_cur (s : State) (i : Instr) : (s.soon i).cur = s.cur := rfl
@[simp] theorem State.soon_cursor (s : State) (i : Instr) : (s.soon i).cursor = s.cursor := rfl
@[simp] theorem State.soon_tried (s : State) (i : Instr) : (s.soon i).tried = s.tried := rfl
@[simp] theorem State.soon_pack (s : State) (i : Instr) : (s.soon i).pack = s.pack := rfl
@[simp] theorem State.soon_fresh (s : State) (i : Instr) : (s.soon i).fresh = s.fresh := rfl
@[simp] theorem State.soon_serial (s : State) (i : Instr) : (s.soon i).serial = s.serial := rfl
@[simp] theorem State.soon_groups (s : State) (i : Instr) : (s.soon i).groups = s.groups := rfl
@[simp] theorem State.soon_wgs (s : State) (i : Instr) : (s.soon i).wgs = s.wgs := rfl
@[simp] theorem State.soon_allocs (s : State) (i : Instr) : (s.soon i).allocs = s.allocs := rfl
@[simp] theorem State.soon_cores (s : State) (i : Instr) : (s.soon i).cores = s.cores := rfl
@[simp] theorem State.soon_spads (s : State) (i : Instr) : (s.soon i).spads = s.spads := rfl
@[simp] theorem State.soon_spIn (s : State) (i : Instr) : (s.soon i).spIn = s.spIn := rfl
@[simp] theorem State.soon_feq (s : State) (i : Instr) : (s.soon i).feq = s.feq := rfl
@[simp] theorem State.soon_clusters (s : State) (i : Instr) : (s.soon i).clusters = s.clusters := rfl
@[simp] theorem State.soon_ops (s : State) (i : Instr) : (s.soon i).ops = s.ops := rfl
@[simp] theorem State.soon_rels (s : State) (i : Instr) : (s.soon i).rels = s.rels := rfl
@[simp] theorem State.soon_ctxs (s : State) (i : Instr) : (s.soon i).ctxs = s.ctxs := rfl
@[simp] theorem State.soon_engAreas (s : State) (i : Instr) : (s.soon i).engAreas = s.engAreas := rfl
@[simp] theorem State.soon_ctxbase (s : State) (i : Instr) : (s.soon i).ctxbase = s.ctxbase := rfl
@[simp] theorem State.soon_resident (s : State) (i : Instr) : (s.soon i).resident = s.resident := rfl
@[simp] theorem State.soon_slots (s : State) (i : Instr) : (s.soon i).slots = s.slots := rfl
@[simp] theorem State.soon_tensors (s : State) (i : Instr) : (s.soon i).tensors = s.tensors := rfl
@[simp] theorem State.soon_bars (s : State) (i : Instr) : (s.soon i).bars = s.bars := rfl
@[simp] theorem State.soon_chans (s : State) (i : Instr) : (s.soon i).chans = s.chans := rfl
@[simp] theorem State.soon_launches (s : State) (i : Instr) : (s.soon i).launches = s.launches := rfl
@[simp] theorem State.soon_heldArms (s : State) (i : Instr) : (s.soon i).heldArms = s.heldArms := rfl
@[simp] theorem State.soon_bins (s : State) (i : Instr) : (s.soon i).bins = s.bins := rfl
@[simp] theorem State.soon_links (s : State) (i : Instr) : (s.soon i).links = s.links := rfl
@[simp] theorem State.soon_linkSel (s : State) (i : Instr) : (s.soon i).linkSel = s.linkSel := rfl
@[simp] theorem State.soon_oemode (s : State) (i : Instr) : (s.soon i).oemode = s.oemode := rfl
@[simp] theorem State.soon_traywin (s : State) (i : Instr) : (s.soon i).traywin = s.traywin := rfl
@[simp] theorem State.soon_portsUp (s : State) (i : Instr) : (s.soon i).portsUp = s.portsUp := rfl
@[simp] theorem State.soon_nvme (s : State) (i : Instr) : (s.soon i).nvme = s.nvme := rfl
@[simp] theorem State.soon_stCmds (s : State) (i : Instr) : (s.soon i).stCmds = s.stCmds := rfl
@[simp] theorem State.soon_sends (s : State) (i : Instr) : (s.soon i).sends = s.sends := rfl
@[simp] theorem State.soon_ringTail (s : State) (i : Instr) : (s.soon i).ringTail = s.ringTail := rfl
@[simp] theorem State.soon_packets (s : State) (i : Instr) : (s.soon i).packets = s.packets := rfl
@[simp] theorem State.soon_dbgvec (s : State) (i : Instr) : (s.soon i).dbgvec = s.dbgvec := rfl
@[simp] theorem State.soon_mgmt (s : State) (i : Instr) : (s.soon i).mgmt = s.mgmt := rfl
@[simp] theorem State.soon_board (s : State) (i : Instr) : (s.soon i).board = s.board := rfl
@[simp] theorem State.soon_outbox (s : State) (i : Instr) : (s.soon i).outbox = s.outbox := rfl

-- emit writes outbox and nothing else
@[simp] theorem State.emit_clock (s : State) (o : Out) : (s.emit o).clock = s.clock := rfl
@[simp] theorem State.emit_msys (s : State) (o : Out) : (s.emit o).msys = s.msys := rfl
@[simp] theorem State.emit_events (s : State) (o : Out) : (s.emit o).events = s.events := rfl
@[simp] theorem State.emit_cur (s : State) (o : Out) : (s.emit o).cur = s.cur := rfl
@[simp] theorem State.emit_cursor (s : State) (o : Out) : (s.emit o).cursor = s.cursor := rfl
@[simp] theorem State.emit_tried (s : State) (o : Out) : (s.emit o).tried = s.tried := rfl
@[simp] theorem State.emit_pack (s : State) (o : Out) : (s.emit o).pack = s.pack := rfl
@[simp] theorem State.emit_fresh (s : State) (o : Out) : (s.emit o).fresh = s.fresh := rfl
@[simp] theorem State.emit_serial (s : State) (o : Out) : (s.emit o).serial = s.serial := rfl
@[simp] theorem State.emit_groups (s : State) (o : Out) : (s.emit o).groups = s.groups := rfl
@[simp] theorem State.emit_wgs (s : State) (o : Out) : (s.emit o).wgs = s.wgs := rfl
@[simp] theorem State.emit_allocs (s : State) (o : Out) : (s.emit o).allocs = s.allocs := rfl
@[simp] theorem State.emit_cores (s : State) (o : Out) : (s.emit o).cores = s.cores := rfl
@[simp] theorem State.emit_spads (s : State) (o : Out) : (s.emit o).spads = s.spads := rfl
@[simp] theorem State.emit_spIn (s : State) (o : Out) : (s.emit o).spIn = s.spIn := rfl
@[simp] theorem State.emit_feq (s : State) (o : Out) : (s.emit o).feq = s.feq := rfl
@[simp] theorem State.emit_clusters (s : State) (o : Out) : (s.emit o).clusters = s.clusters := rfl
@[simp] theorem State.emit_ops (s : State) (o : Out) : (s.emit o).ops = s.ops := rfl
@[simp] theorem State.emit_rels (s : State) (o : Out) : (s.emit o).rels = s.rels := rfl
@[simp] theorem State.emit_ctxs (s : State) (o : Out) : (s.emit o).ctxs = s.ctxs := rfl
@[simp] theorem State.emit_engAreas (s : State) (o : Out) : (s.emit o).engAreas = s.engAreas := rfl
@[simp] theorem State.emit_ctxbase (s : State) (o : Out) : (s.emit o).ctxbase = s.ctxbase := rfl
@[simp] theorem State.emit_resident (s : State) (o : Out) : (s.emit o).resident = s.resident := rfl
@[simp] theorem State.emit_slots (s : State) (o : Out) : (s.emit o).slots = s.slots := rfl
@[simp] theorem State.emit_tensors (s : State) (o : Out) : (s.emit o).tensors = s.tensors := rfl
@[simp] theorem State.emit_bars (s : State) (o : Out) : (s.emit o).bars = s.bars := rfl
@[simp] theorem State.emit_chans (s : State) (o : Out) : (s.emit o).chans = s.chans := rfl
@[simp] theorem State.emit_launches (s : State) (o : Out) : (s.emit o).launches = s.launches := rfl
@[simp] theorem State.emit_heldArms (s : State) (o : Out) : (s.emit o).heldArms = s.heldArms := rfl
@[simp] theorem State.emit_bins (s : State) (o : Out) : (s.emit o).bins = s.bins := rfl
@[simp] theorem State.emit_links (s : State) (o : Out) : (s.emit o).links = s.links := rfl
@[simp] theorem State.emit_linkSel (s : State) (o : Out) : (s.emit o).linkSel = s.linkSel := rfl
@[simp] theorem State.emit_oemode (s : State) (o : Out) : (s.emit o).oemode = s.oemode := rfl
@[simp] theorem State.emit_traywin (s : State) (o : Out) : (s.emit o).traywin = s.traywin := rfl
@[simp] theorem State.emit_portsUp (s : State) (o : Out) : (s.emit o).portsUp = s.portsUp := rfl
@[simp] theorem State.emit_nvme (s : State) (o : Out) : (s.emit o).nvme = s.nvme := rfl
@[simp] theorem State.emit_stCmds (s : State) (o : Out) : (s.emit o).stCmds = s.stCmds := rfl
@[simp] theorem State.emit_sends (s : State) (o : Out) : (s.emit o).sends = s.sends := rfl
@[simp] theorem State.emit_ringTail (s : State) (o : Out) : (s.emit o).ringTail = s.ringTail := rfl
@[simp] theorem State.emit_packets (s : State) (o : Out) : (s.emit o).packets = s.packets := rfl
@[simp] theorem State.emit_dbgvec (s : State) (o : Out) : (s.emit o).dbgvec = s.dbgvec := rfl
@[simp] theorem State.emit_mgmt (s : State) (o : Out) : (s.emit o).mgmt = s.mgmt := rfl
@[simp] theorem State.emit_board (s : State) (o : Out) : (s.emit o).board = s.board := rfl

-- modCore writes cores and nothing else
@[simp] theorem State.modCore_clock (s : State) (k : Nat) (f : Core → Core) : (s.modCore k f).clock = s.clock := rfl
@[simp] theorem State.modCore_msys (s : State) (k : Nat) (f : Core → Core) : (s.modCore k f).msys = s.msys := rfl
@[simp] theorem State.modCore_events (s : State) (k : Nat) (f : Core → Core) : (s.modCore k f).events = s.events := rfl
@[simp] theorem State.modCore_cur (s : State) (k : Nat) (f : Core → Core) : (s.modCore k f).cur = s.cur := rfl
@[simp] theorem State.modCore_cursor (s : State) (k : Nat) (f : Core → Core) : (s.modCore k f).cursor = s.cursor := rfl
@[simp] theorem State.modCore_tried (s : State) (k : Nat) (f : Core → Core) : (s.modCore k f).tried = s.tried := rfl
@[simp] theorem State.modCore_pack (s : State) (k : Nat) (f : Core → Core) : (s.modCore k f).pack = s.pack := rfl
@[simp] theorem State.modCore_fresh (s : State) (k : Nat) (f : Core → Core) : (s.modCore k f).fresh = s.fresh := rfl
@[simp] theorem State.modCore_serial (s : State) (k : Nat) (f : Core → Core) : (s.modCore k f).serial = s.serial := rfl
@[simp] theorem State.modCore_groups (s : State) (k : Nat) (f : Core → Core) : (s.modCore k f).groups = s.groups := rfl
@[simp] theorem State.modCore_wgs (s : State) (k : Nat) (f : Core → Core) : (s.modCore k f).wgs = s.wgs := rfl
@[simp] theorem State.modCore_allocs (s : State) (k : Nat) (f : Core → Core) : (s.modCore k f).allocs = s.allocs := rfl
@[simp] theorem State.modCore_spads (s : State) (k : Nat) (f : Core → Core) : (s.modCore k f).spads = s.spads := rfl
@[simp] theorem State.modCore_spIn (s : State) (k : Nat) (f : Core → Core) : (s.modCore k f).spIn = s.spIn := rfl
@[simp] theorem State.modCore_feq (s : State) (k : Nat) (f : Core → Core) : (s.modCore k f).feq = s.feq := rfl
@[simp] theorem State.modCore_clusters (s : State) (k : Nat) (f : Core → Core) : (s.modCore k f).clusters = s.clusters := rfl
@[simp] theorem State.modCore_ops (s : State) (k : Nat) (f : Core → Core) : (s.modCore k f).ops = s.ops := rfl
@[simp] theorem State.modCore_rels (s : State) (k : Nat) (f : Core → Core) : (s.modCore k f).rels = s.rels := rfl
@[simp] theorem State.modCore_ctxs (s : State) (k : Nat) (f : Core → Core) : (s.modCore k f).ctxs = s.ctxs := rfl
@[simp] theorem State.modCore_engAreas (s : State) (k : Nat) (f : Core → Core) : (s.modCore k f).engAreas = s.engAreas := rfl
@[simp] theorem State.modCore_ctxbase (s : State) (k : Nat) (f : Core → Core) : (s.modCore k f).ctxbase = s.ctxbase := rfl
@[simp] theorem State.modCore_resident (s : State) (k : Nat) (f : Core → Core) : (s.modCore k f).resident = s.resident := rfl
@[simp] theorem State.modCore_slots (s : State) (k : Nat) (f : Core → Core) : (s.modCore k f).slots = s.slots := rfl
@[simp] theorem State.modCore_tensors (s : State) (k : Nat) (f : Core → Core) : (s.modCore k f).tensors = s.tensors := rfl
@[simp] theorem State.modCore_bars (s : State) (k : Nat) (f : Core → Core) : (s.modCore k f).bars = s.bars := rfl
@[simp] theorem State.modCore_chans (s : State) (k : Nat) (f : Core → Core) : (s.modCore k f).chans = s.chans := rfl
@[simp] theorem State.modCore_launches (s : State) (k : Nat) (f : Core → Core) : (s.modCore k f).launches = s.launches := rfl
@[simp] theorem State.modCore_heldArms (s : State) (k : Nat) (f : Core → Core) : (s.modCore k f).heldArms = s.heldArms := rfl
@[simp] theorem State.modCore_bins (s : State) (k : Nat) (f : Core → Core) : (s.modCore k f).bins = s.bins := rfl
@[simp] theorem State.modCore_links (s : State) (k : Nat) (f : Core → Core) : (s.modCore k f).links = s.links := rfl
@[simp] theorem State.modCore_linkSel (s : State) (k : Nat) (f : Core → Core) : (s.modCore k f).linkSel = s.linkSel := rfl
@[simp] theorem State.modCore_oemode (s : State) (k : Nat) (f : Core → Core) : (s.modCore k f).oemode = s.oemode := rfl
@[simp] theorem State.modCore_traywin (s : State) (k : Nat) (f : Core → Core) : (s.modCore k f).traywin = s.traywin := rfl
@[simp] theorem State.modCore_portsUp (s : State) (k : Nat) (f : Core → Core) : (s.modCore k f).portsUp = s.portsUp := rfl
@[simp] theorem State.modCore_nvme (s : State) (k : Nat) (f : Core → Core) : (s.modCore k f).nvme = s.nvme := rfl
@[simp] theorem State.modCore_stCmds (s : State) (k : Nat) (f : Core → Core) : (s.modCore k f).stCmds = s.stCmds := rfl
@[simp] theorem State.modCore_sends (s : State) (k : Nat) (f : Core → Core) : (s.modCore k f).sends = s.sends := rfl
@[simp] theorem State.modCore_ringTail (s : State) (k : Nat) (f : Core → Core) : (s.modCore k f).ringTail = s.ringTail := rfl
@[simp] theorem State.modCore_packets (s : State) (k : Nat) (f : Core → Core) : (s.modCore k f).packets = s.packets := rfl
@[simp] theorem State.modCore_dbgvec (s : State) (k : Nat) (f : Core → Core) : (s.modCore k f).dbgvec = s.dbgvec := rfl
@[simp] theorem State.modCore_mgmt (s : State) (k : Nat) (f : Core → Core) : (s.modCore k f).mgmt = s.mgmt := rfl
@[simp] theorem State.modCore_board (s : State) (k : Nat) (f : Core → Core) : (s.modCore k f).board = s.board := rfl
@[simp] theorem State.modCore_outbox (s : State) (k : Nat) (f : Core → Core) : (s.modCore k f).outbox = s.outbox := rfl

-- Group.modRegs writes regs and nothing else
@[simp] theorem Group.modRegs_info (g : Group) (f : GRegs → GRegs) : (g.modRegs f).info = g.info := rfl
@[simp] theorem Group.modRegs_sched (g : Group) (f : GRegs → GRegs) : (g.modRegs f).sched = g.sched := rfl
@[simp] theorem Group.modRegs_runs (g : Group) (f : GRegs → GRegs) : (g.modRegs f).runs = g.runs := rfl
@[simp] theorem Group.modRegs_sys (g : Group) (f : GRegs → GRegs) : (g.modRegs f).sys = g.sys := rfl
@[simp] theorem Group.modRegs_pend (g : Group) (f : GRegs → GRegs) : (g.modRegs f).pend = g.pend := rfl
@[simp] theorem Group.modRegs_busy (g : Group) (f : GRegs → GRegs) : (g.modRegs f).busy = g.busy := rfl
@[simp] theorem Group.modRegs_cmds (g : Group) (f : GRegs → GRegs) : (g.modRegs f).cmds = g.cmds := rfl
@[simp] theorem Group.modRegs_bseq (g : Group) (f : GRegs → GRegs) : (g.modRegs f).bseq = g.bseq := rfl

-- Group.setTrap writes sys and nothing else
@[simp] theorem Group.setTrap_info (g : Group) (r : TrapRegs) : (g.setTrap r).info = g.info := rfl
@[simp] theorem Group.setTrap_sched (g : Group) (r : TrapRegs) : (g.setTrap r).sched = g.sched := rfl
@[simp] theorem Group.setTrap_runs (g : Group) (r : TrapRegs) : (g.setTrap r).runs = g.runs := rfl
@[simp] theorem Group.setTrap_regs (g : Group) (r : TrapRegs) : (g.setTrap r).regs = g.regs := rfl
@[simp] theorem Group.setTrap_pend (g : Group) (r : TrapRegs) : (g.setTrap r).pend = g.pend := rfl
@[simp] theorem Group.setTrap_busy (g : Group) (r : TrapRegs) : (g.setTrap r).busy = g.busy := rfl
@[simp] theorem Group.setTrap_cmds (g : Group) (r : TrapRegs) : (g.setTrap r).cmds = g.cmds := rfl
@[simp] theorem Group.setTrap_bseq (g : Group) (r : TrapRegs) : (g.setTrap r).bseq = g.bseq := rfl

-- Group.leave writes runs and nothing else
@[simp] theorem Group.leave_info (g : Group) (m : Lanes) : (g.leave m).info = g.info := rfl
@[simp] theorem Group.leave_sched (g : Group) (m : Lanes) : (g.leave m).sched = g.sched := rfl
@[simp] theorem Group.leave_regs (g : Group) (m : Lanes) : (g.leave m).regs = g.regs := rfl
@[simp] theorem Group.leave_sys (g : Group) (m : Lanes) : (g.leave m).sys = g.sys := rfl
@[simp] theorem Group.leave_pend (g : Group) (m : Lanes) : (g.leave m).pend = g.pend := rfl
@[simp] theorem Group.leave_busy (g : Group) (m : Lanes) : (g.leave m).busy = g.busy := rfl
@[simp] theorem Group.leave_cmds (g : Group) (m : Lanes) : (g.leave m).cmds = g.cmds := rfl
@[simp] theorem Group.leave_bseq (g : Group) (m : Lanes) : (g.leave m).bseq = g.bseq := rfl

-- Group.markOp writes busy and nothing else
@[simp] theorem Group.markOp_info (g : Group) (id : Nat) (c : List Nat) (m : Lanes) (pc : Pc) (src : Nat) : (g.markOp id c m pc src).info = g.info := rfl
@[simp] theorem Group.markOp_sched (g : Group) (id : Nat) (c : List Nat) (m : Lanes) (pc : Pc) (src : Nat) : (g.markOp id c m pc src).sched = g.sched := rfl
@[simp] theorem Group.markOp_runs (g : Group) (id : Nat) (c : List Nat) (m : Lanes) (pc : Pc) (src : Nat) : (g.markOp id c m pc src).runs = g.runs := rfl
@[simp] theorem Group.markOp_regs (g : Group) (id : Nat) (c : List Nat) (m : Lanes) (pc : Pc) (src : Nat) : (g.markOp id c m pc src).regs = g.regs := rfl
@[simp] theorem Group.markOp_sys (g : Group) (id : Nat) (c : List Nat) (m : Lanes) (pc : Pc) (src : Nat) : (g.markOp id c m pc src).sys = g.sys := rfl
@[simp] theorem Group.markOp_pend (g : Group) (id : Nat) (c : List Nat) (m : Lanes) (pc : Pc) (src : Nat) : (g.markOp id c m pc src).pend = g.pend := rfl
@[simp] theorem Group.markOp_cmds (g : Group) (id : Nat) (c : List Nat) (m : Lanes) (pc : Pc) (src : Nat) : (g.markOp id c m pc src).cmds = g.cmds := rfl
@[simp] theorem Group.markOp_bseq (g : Group) (id : Nat) (c : List Nat) (m : Lanes) (pc : Pc) (src : Nat) : (g.markOp id c m pc src).bseq = g.bseq := rfl

-- Group.place writes runs and nothing else
@[simp] theorem Group.place_info (g : Group) (m : Lanes) (pc : Pc) (st : RunSt) (n : Nat) : (g.place m pc st n).info = g.info := by unfold Group.place; split <;> rfl
@[simp] theorem Group.goto_info (g : Group) (m : Lanes) (pc : Pc) : (g.goto m pc).info = g.info := by simp [Group.goto]
@[simp] theorem Group.wake_info (g : Group) (m : Lanes) (pc : Pc) : (g.wake m pc).info = g.info := by simp [Group.wake]
@[simp] theorem Group.hold_info (g : Group) (m : Lanes) (pc : Pc) (st : RunSt) : (g.hold m pc st).info = g.info := by simp [Group.hold]
@[simp] theorem Group.place_sched (g : Group) (m : Lanes) (pc : Pc) (st : RunSt) (n : Nat) : (g.place m pc st n).sched = g.sched := by unfold Group.place; split <;> rfl
@[simp] theorem Group.goto_sched (g : Group) (m : Lanes) (pc : Pc) : (g.goto m pc).sched = g.sched := by simp [Group.goto]
@[simp] theorem Group.wake_sched (g : Group) (m : Lanes) (pc : Pc) : (g.wake m pc).sched = g.sched := by simp [Group.wake]
@[simp] theorem Group.hold_sched (g : Group) (m : Lanes) (pc : Pc) (st : RunSt) : (g.hold m pc st).sched = g.sched := by simp [Group.hold]
@[simp] theorem Group.place_regs (g : Group) (m : Lanes) (pc : Pc) (st : RunSt) (n : Nat) : (g.place m pc st n).regs = g.regs := by unfold Group.place; split <;> rfl
@[simp] theorem Group.goto_regs (g : Group) (m : Lanes) (pc : Pc) : (g.goto m pc).regs = g.regs := by simp [Group.goto]
@[simp] theorem Group.wake_regs (g : Group) (m : Lanes) (pc : Pc) : (g.wake m pc).regs = g.regs := by simp [Group.wake]
@[simp] theorem Group.hold_regs (g : Group) (m : Lanes) (pc : Pc) (st : RunSt) : (g.hold m pc st).regs = g.regs := by simp [Group.hold]
@[simp] theorem Group.place_sys (g : Group) (m : Lanes) (pc : Pc) (st : RunSt) (n : Nat) : (g.place m pc st n).sys = g.sys := by unfold Group.place; split <;> rfl
@[simp] theorem Group.goto_sys (g : Group) (m : Lanes) (pc : Pc) : (g.goto m pc).sys = g.sys := by simp [Group.goto]
@[simp] theorem Group.wake_sys (g : Group) (m : Lanes) (pc : Pc) : (g.wake m pc).sys = g.sys := by simp [Group.wake]
@[simp] theorem Group.hold_sys (g : Group) (m : Lanes) (pc : Pc) (st : RunSt) : (g.hold m pc st).sys = g.sys := by simp [Group.hold]
@[simp] theorem Group.place_pend (g : Group) (m : Lanes) (pc : Pc) (st : RunSt) (n : Nat) : (g.place m pc st n).pend = g.pend := by unfold Group.place; split <;> rfl
@[simp] theorem Group.goto_pend (g : Group) (m : Lanes) (pc : Pc) : (g.goto m pc).pend = g.pend := by simp [Group.goto]
@[simp] theorem Group.wake_pend (g : Group) (m : Lanes) (pc : Pc) : (g.wake m pc).pend = g.pend := by simp [Group.wake]
@[simp] theorem Group.hold_pend (g : Group) (m : Lanes) (pc : Pc) (st : RunSt) : (g.hold m pc st).pend = g.pend := by simp [Group.hold]
@[simp] theorem Group.place_busy (g : Group) (m : Lanes) (pc : Pc) (st : RunSt) (n : Nat) : (g.place m pc st n).busy = g.busy := by unfold Group.place; split <;> rfl
@[simp] theorem Group.goto_busy (g : Group) (m : Lanes) (pc : Pc) : (g.goto m pc).busy = g.busy := by simp [Group.goto]
@[simp] theorem Group.wake_busy (g : Group) (m : Lanes) (pc : Pc) : (g.wake m pc).busy = g.busy := by simp [Group.wake]
@[simp] theorem Group.hold_busy (g : Group) (m : Lanes) (pc : Pc) (st : RunSt) : (g.hold m pc st).busy = g.busy := by simp [Group.hold]
@[simp] theorem Group.place_cmds (g : Group) (m : Lanes) (pc : Pc) (st : RunSt) (n : Nat) : (g.place m pc st n).cmds = g.cmds := by unfold Group.place; split <;> rfl
@[simp] theorem Group.goto_cmds (g : Group) (m : Lanes) (pc : Pc) : (g.goto m pc).cmds = g.cmds := by simp [Group.goto]
@[simp] theorem Group.wake_cmds (g : Group) (m : Lanes) (pc : Pc) : (g.wake m pc).cmds = g.cmds := by simp [Group.wake]
@[simp] theorem Group.hold_cmds (g : Group) (m : Lanes) (pc : Pc) (st : RunSt) : (g.hold m pc st).cmds = g.cmds := by simp [Group.hold]
@[simp] theorem Group.place_bseq (g : Group) (m : Lanes) (pc : Pc) (st : RunSt) (n : Nat) : (g.place m pc st n).bseq = g.bseq := by unfold Group.place; split <;> rfl
@[simp] theorem Group.goto_bseq (g : Group) (m : Lanes) (pc : Pc) : (g.goto m pc).bseq = g.bseq := by simp [Group.goto]
@[simp] theorem Group.wake_bseq (g : Group) (m : Lanes) (pc : Pc) : (g.wake m pc).bseq = g.bseq := by simp [Group.wake]
@[simp] theorem Group.hold_bseq (g : Group) (m : Lanes) (pc : Pc) (st : RunSt) : (g.hold m pc st).bseq = g.bseq := by simp [Group.hold]

-- The other group numbers keep their groups

@[simp] theorem State.group?_setGroup (s : State) (gid : Nat) (g : Group) : (s.setGroup gid g).group? gid = some g :=
  SMap.find_ins_self _ _ _

theorem State.group?_setGroup_ne (s : State) {gid k : Nat} (g : Group) (h : k ≠ gid) : (s.setGroup gid g).group? k = s.group? k :=
  SMap.find_ins_ne _ _ h

@[simp] theorem State.core_setCore (s : State) (k : Nat) (c : Core) : (s.setCore k c).core k = c := by
  simp [State.core, State.setCore, SMap.get]

theorem State.core_setCore_ne (s : State) {k j : Nat} (c : Core) (h : j ≠ k) : (s.setCore k c).core j = s.core j := by
  simp [State.core, State.setCore, SMap.get, SMap.find_ins_ne _ _ h]

@[simp] theorem State.core_modCore (s : State) (k : Nat) (f : Core → Core) : (s.modCore k f).core k = f (s.core k) := by
  simp [State.modCore]

theorem State.core_modCore_ne (s : State) {k j : Nat} (f : Core → Core) (h : j ≠ k) : (s.modCore k f).core j = s.core j :=
  State.core_setCore_ne s _ h

end Sys2Proof.Machine
end

