-- ==== Sys2Proof/Laws/Registers.lean ====
section
/-! SUPPORT. Laws of the registers: what a register reads after a write, lane by lane. -/

namespace Sys2Proof.Machine

theorem vKey_inj {n m l k : Nat} (hl : l < 64) (hk : k < 64) : vKey n l = vKey m k ↔ n = m ∧ l = k := by
  unfold vKey; omega

-- A write of registers touches only the register files

@[simp] theorem Group.modRegs_regs (g : Group) (f : GRegs → GRegs) : (g.modRegs f).regs = f g.regs := rfl

/-- Two groups that differ in the register files V, O and S alone. -/
structure SameBut (g k : Group) : Prop where
  info : k.info = g.info
  sched : k.sched = g.sched
  runs : k.runs = g.runs
  sys : k.sys = g.sys
  pend : k.pend = g.pend
  busy : k.busy = g.busy
  cmds : k.cmds = g.cmds
  bseq : k.bseq = g.bseq
  l : k.regs.l = g.regs.l
  p : k.regs.p = g.regs.p
  ld : k.regs.ld = g.regs.ld
  st : k.regs.st = g.regs.st
  cp : k.regs.cp = g.regs.cp
  tl : k.regs.tl = g.regs.tl

theorem SameBut.refl (g : Group) : SameBut g g := by constructor <;> rfl

theorem SameBut.trans {a b c : Group} (h : SameBut a b) (k : SameBut b c) : SameBut a c where
  info := k.info.trans h.info
  sched := k.sched.trans h.sched
  runs := k.runs.trans h.runs
  sys := k.sys.trans h.sys
  pend := k.pend.trans h.pend
  busy := k.busy.trans h.busy
  cmds := k.cmds.trans h.cmds
  bseq := k.bseq.trans h.bseq
  l := k.l.trans h.l
  p := k.p.trans h.p
  ld := k.ld.trans h.ld
  st := k.st.trans h.st
  cp := k.cp.trans h.cp
  tl := k.tl.trans h.tl

theorem Group.wr32_same (g : Group) (l : Nat) (r : Reg) (x : Word) : SameBut g (g.wr32 l r x) := by
  cases r <;> constructor <;> rfl

theorem Group.wr64_same (g : Group) (l : Nat) (r : Reg) (x : Dword) : SameBut g (g.wr64 l r x) := by
  cases r <;> first
    | exact SameBut.trans (Group.wr32_same ..) (Group.wr32_same ..)
    | constructor <;> rfl

theorem Group.wr_same (g : Group) (w l : Nat) (r : Reg) (x : Quad) : SameBut g (g.wr w l r x) := by
  unfold Group.wr
  split
  · exact Group.wr32_same ..
  · split
    · exact Group.wr64_same ..
    · exact SameBut.trans (Group.wr64_same ..) (Group.wr64_same ..)

theorem Group.wrFold_same (g : Group) (w : Nat) (r : Reg) (ls : List Nat) (f : Nat → Quad) :
    SameBut g (ls.foldl (fun g l => g.wr w l r (f l)) g) := by
  induction ls generalizing g with
  | nil => exact SameBut.refl g
  | cons a t ih => exact SameBut.trans (Group.wr_same ..) (ih _)

-- Reading after writing, one register

theorem Group.rd32_wr32_v (g : Group) {l k : Nat} (hl : l < 64) (hk : k < 64) (n m : Fin 384) (x : Word) :
    (g.wr32 l (.v n) x).rd32 k (.v m) = if m = n ∧ k = l then x else g.rd32 k (.v m) := by
  simp only [Group.wr32, Group.rd32, Group.modRegs, SMap.get_put, vKey_inj hk hl, Fin.val_inj]

theorem Group.rd32_wr32_o (g : Group) {l k : Nat} (hl : l < 64) (hk : k < 64) (n m : Fin 16) (x : Word) :
    (g.wr32 l (.o n) x).rd32 k (.o m) = if m = n ∧ k = l then x else g.rd32 k (.o m) := by
  simp only [Group.wr32, Group.rd32, Group.modRegs, SMap.get_put, vKey_inj hk hl, Fin.val_inj]

theorem Group.rd64_s (g : Group) (k : Nat) (m : Fin 64) : g.rd64 k (.s m) = g.regs.s.get 0 m.val := rfl
theorem Group.rd64_v (g : Group) (k : Nat) (m : Fin 384) : g.rd64 k (.v m) = g.rd32 k (Reg.shift (.v m) 1) ++ g.rd32 k (.v m) := rfl
theorem Group.rd64_o (g : Group) (k : Nat) (m : Fin 16) : g.rd64 k (.o m) = g.rd32 k (Reg.shift (.o m) 1) ++ g.rd32 k (.o m) := rfl
theorem Group.wr32_s (g : Group) (l : Nat) (n : Fin 64) (x : Word) :
    g.wr32 l (.s n) x = g.modRegs fun q => { q with s := q.s.put 0 n.val (x.zeroExtend 64) } := rfl
theorem Group.wr64_s (g : Group) (l : Nat) (n : Fin 64) (x : Dword) : g.wr64 l (.s n) x = g.modRegs fun q => { q with s := q.s.put 0 n.val x } := rfl
theorem Group.wr64_v (g : Group) (l : Nat) (n : Fin 384) (x : Dword) :
    g.wr64 l (.v n) x = (g.wr32 l (.v n) (x.truncate 32)).wr32 l (Reg.shift (.v n) 1) ((x >>> 32).truncate 32) := rfl
theorem Group.wr64_o (g : Group) (l : Nat) (n : Fin 16) (x : Dword) :
    g.wr64 l (.o n) x = (g.wr32 l (.o n) (x.truncate 32)).wr32 l (Reg.shift (.o n) 1) ((x >>> 32).truncate 32) := rfl

/-- A write to S clears its upper half (R72). -/
theorem Group.rd64_wr32_s (g : Group) (l k : Nat) (n m : Fin 64) (x : Word) :
    (g.wr32 l (.s n) x).rd64 k (.s m) = if m = n then x.zeroExtend 64 else g.rd64 k (.s m) := by
  simp only [Group.rd64_s, Group.wr32_s, Group.modRegs_regs, SMap.get_put, Fin.val_inj]

theorem Group.rd64_wr64_s (g : Group) (l k : Nat) (n m : Fin 64) (x : Dword) :
    (g.wr64 l (.s n) x).rd64 k (.s m) = if m = n then x else g.rd64 k (.s m) := by
  simp only [Group.rd64_s, Group.wr64_s, Group.modRegs_regs, SMap.get_put, Fin.val_inj]

@[simp] theorem Group.wr32_v_o (g : Group) (l k : Nat) (n : Fin 384) (m : Fin 16) (x : Word) :
    (g.wr32 l (.v n) x).rd32 k (.o m) = g.rd32 k (.o m) := rfl
@[simp] theorem Group.wr32_o_v (g : Group) (l k : Nat) (n : Fin 16) (m : Fin 384) (x : Word) :
    (g.wr32 l (.o n) x).rd32 k (.v m) = g.rd32 k (.v m) := rfl

theorem Reg.shift_v {n : Fin 384} {k : Nat} (h : n.val + k < 384) : Reg.shift (.v n) k = .v ⟨n.val + k, h⟩ := by simp [Reg.shift, h]
theorem Reg.shift_o {n : Fin 16} {k : Nat} (h : n.val + k < 16) : Reg.shift (.o n) k = .o ⟨n.val + k, h⟩ := by simp [Reg.shift, h]

theorem halves (x : Dword) : (((x >>> 32).truncate 32 : Word) ++ (x.truncate 32 : Word) : Dword) = x := by
  apply BitVec.eq_of_getLsbD_eq
  intro i hi
  simp only [BitVec.getLsbD_append, BitVec.truncate_eq_setWidth, BitVec.getLsbD_setWidth, BitVec.getLsbD_ushiftRight]
  by_cases h : i < 32
  · simp [h]
  · simp only [h, if_false]
    have h2 : 32 + (i - 32) = i := by omega
    have h3 : i - 32 < 32 := by omega
    simp [h2, h3]

theorem Group.rd64_wr64_v (g : Group) {l k : Nat} (hl : l < 64) (hk : k < 64) (n : Fin 384) (he : n.val % 2 = 0) (x : Dword) :
    (g.wr64 l (.v n) x).rd64 k (.v n) = if k = l then x else g.rd64 k (.v n) := by
  have h1 : n.val + 1 < 384 := by omega
  have hne : (⟨n.val + 1, h1⟩ : Fin 384) ≠ n := by intro h; have := congrArg Fin.val h; simp at this
  simp only [Group.rd64_v, Group.wr64_v, Reg.shift_v h1, Group.rd32_wr32_v _ hl hk]
  by_cases h : k = l
  · simp [h, Ne.symm hne, halves]
  · simp [h]

theorem Group.rd64_wr64_o (g : Group) {l k : Nat} (hl : l < 64) (hk : k < 64) (n : Fin 16) (he : n.val % 2 = 0) (x : Dword) :
    (g.wr64 l (.o n) x).rd64 k (.o n) = if k = l then x else g.rd64 k (.o n) := by
  have h1 : n.val + 1 < 16 := by omega
  have hne : (⟨n.val + 1, h1⟩ : Fin 16) ≠ n := by intro h; have := congrArg Fin.val h; simp at this
  simp only [Group.rd64_o, Group.wr64_o, Reg.shift_o h1, Group.rd32_wr32_o _ hl hk]
  by_cases h : k = l
  · simp [h, Ne.symm hne, halves]
  · simp [h]

end Sys2Proof.Machine
end

