-- ==== Sys2Proof/Laws/Runs.lean ====
section
/-! SUPPORT. Laws of the PC table: where a lane stands after runs have moved. -/

namespace Sys2Proof.Machine

/-- A lane stands at a PC: some run holds it, and every run that holds it is there. -/
def Group.At (g : Group) (lane : Nat) (pc : Pc) : Prop :=
  (∃ r ∈ g.runs, r.lanes.getLsbD lane = true) ∧ ∀ r ∈ g.runs, r.lanes.getLsbD lane = true → r.pc = pc

theorem Group.At.pcOf {g : Group} {lane : Nat} {pc : Pc} (h : g.At lane pc) : g.pcOf lane = some pc := by
  obtain ⟨⟨r, hr, hl⟩, ha⟩ := h
  unfold Group.pcOf
  cases hf : g.runs.find? (fun r => r.lanes.getLsbD lane) with
  | none => exact absurd hl (by simpa using List.find?_eq_none.mp hf r hr)
  | some q => simp [ha q (List.mem_of_find?_eq_some hf) (by simpa using List.find?_some hf)]

theorem dropLanes_mem {m : Lanes} {rs : List Run} {r : Run} (h : r ∈ dropLanes m rs) :
    ∃ q ∈ rs, r = { q with lanes := q.lanes &&& ~~~m } := by
  unfold dropLanes at h
  obtain ⟨q, hq, rfl⟩ := List.mem_map.mp (List.mem_filter.mp h).1
  exact ⟨q, hq, rfl⟩

theorem dropLanes_off {m : Lanes} {rs : List Run} {lane : Nat} (hm : m.getLsbD lane = true) :
    ∀ r ∈ dropLanes m rs, r.lanes.getLsbD lane = false := by
  intro r hr
  obtain ⟨q, _, rfl⟩ := dropLanes_mem hr
  simp [hm]

/-- A run with a lane stays among those that keep the others. -/
theorem dropLanes_keep {m : Lanes} {rs : List Run} {q : Run} {lane : Nat} (hq : q ∈ rs) (hl : q.lanes.getLsbD lane = true)
    (hm : m.getLsbD lane = false) : { q with lanes := q.lanes &&& ~~~m } ∈ dropLanes m rs := by
  unfold dropLanes
  refine List.mem_filter.mpr ⟨List.mem_map.mpr ⟨q, hq, rfl⟩, ?_⟩
  have hlt : lane < 64 := BitVec.lt_of_getLsbD hl
  have hb : (q.lanes &&& ~~~m).getLsbD lane = true := by
    rw [BitVec.getLsbD_and, BitVec.getLsbD_not, hl, hm]; simp [hlt]
  simp only [bne_iff_ne, ne_eq]
  intro h0
  rw [h0] at hb
  simp at hb

/-- The new table holds the run put in, and the runs of the old. -/
@[simp] theorem mem_insRun {r : Run} {rs : List Run} {q : Run} : q ∈ insRun r rs ↔ q = r ∨ q ∈ rs := by
  induction rs with
  | nil => simp [insRun]
  | cons a t ih =>
    unfold insRun
    split
    · simp
    · simp [ih, or_left_comm]

/-- A lane that some run of the table holds. -/
def holds (rs : List Run) (lane : Nat) (pc : Pc) : Prop := ∃ r ∈ rs, r.lanes.getLsbD lane = true ∧ r.pc = pc

theorem joinRun_holds {r : Run} {rs : List Run} {lane : Nat} {pc : Pc} : holds (joinRun r rs) lane pc ↔ holds (r :: rs) lane pc := by
  cases rs with
  | nil => rfl
  | cons q t =>
    simp only [joinRun]
    split
    · next h => simp [holds, h.2.2, or_and_right, exists_or, or_assoc, or_left_comm]
    · rfl

/-- The merge step moves no lane (R23). -/
theorem mergeRuns_holds {rs : List Run} {lane : Nat} {pc : Pc} : holds (mergeRuns rs) lane pc ↔ holds rs lane pc := by
  induction rs with
  | nil => rfl
  | cons r t ih =>
    show holds (joinRun r (mergeRuns t)) lane pc ↔ _
    rw [joinRun_holds]
    simp only [holds, List.mem_cons, exists_eq_or_imp] at ih ⊢
    rw [ih]

/-- Lanes that are placed stand where they were placed. -/
theorem Group.at_place (g : Group) {m : Lanes} (pc : Pc) (st : RunSt) (n : Nat) {lane : Nat} (hm : m.getLsbD lane = true) :
    (g.place m pc st n).At lane pc := by
  have h0 : m ≠ 0 := by intro h; simp [h] at hm
  unfold Group.place
  rw [if_neg h0]
  constructor
  · exact ⟨_, mem_insRun.mpr (.inl rfl), hm⟩
  · intro q hq hl
    rcases mem_insRun.mp hq with rfl | h
    · rfl
    · simp [dropLanes_off hm q h] at hl

/-- Other lanes stand where they stood. -/
theorem Group.at_place_other {g : Group} {m : Lanes} {lane : Nat} {p : Pc} (hm : m.getLsbD lane = false) (h : g.At lane p)
    (pc : Pc) (st : RunSt) (n : Nat) : (g.place m pc st n).At lane p := by
  unfold Group.place
  split
  · exact h
  · obtain ⟨⟨r, hr, hl⟩, ha⟩ := h
    constructor
    · have hlt : lane < 64 := BitVec.lt_of_getLsbD hl
      exact ⟨_, mem_insRun.mpr (.inr (dropLanes_keep hr hl hm)),
        (by show (r.lanes &&& ~~~m).getLsbD lane = true; rw [BitVec.getLsbD_and, BitVec.getLsbD_not, hl, hm]; simp [hlt])⟩
    · intro q hq hl
      rcases mem_insRun.mp hq with rfl | h
      · simp [hm] at hl
      · obtain ⟨b, hb, rfl⟩ := dropLanes_mem h
        exact ha b hb (by simp at hl; exact hl.1)

theorem Group.at_goto (g : Group) {m : Lanes} (pc : Pc) {lane : Nat} (hm : m.getLsbD lane = true) : (g.goto m pc).At lane pc :=
  Group.at_place g pc _ _ hm

theorem Group.at_wake (g : Group) {m : Lanes} (pc : Pc) {lane : Nat} (hm : m.getLsbD lane = true) : (g.wake m pc).At lane pc :=
  Group.at_place g pc _ _ hm

theorem Group.at_hold (g : Group) {m : Lanes} (pc : Pc) (st : RunSt) {lane : Nat} (hm : m.getLsbD lane = true) :
    (g.hold m pc st).At lane pc := Group.at_place g pc _ _ hm

theorem Group.at_goto_other {g : Group} {m : Lanes} {lane : Nat} {p : Pc} (hm : m.getLsbD lane = false) (h : g.At lane p) (pc : Pc) :
    (g.goto m pc).At lane p := Group.at_place_other hm h pc _ _

theorem Group.at_resume (g : Group) {m : Lanes} (pc : Pc) {lane : Nat} (hm : m.getLsbD lane = true) : (g.resume m pc).At lane pc := by
  unfold Group.resume; split
  · exact Group.at_goto g pc hm
  · exact Group.at_wake g pc hm

/-- Lanes that leave the table stand nowhere. -/
theorem Group.pcOf_leave (g : Group) {m : Lanes} {lane : Nat} (hm : m.getLsbD lane = true) : (g.leave m).pcOf lane = none := by
  unfold Group.pcOf Group.leave
  rw [List.find?_eq_none.mpr]
  · rfl
  · intro r hr; simpa using dropLanes_off hm r hr

-- Sets of lanes

@[simp] theorem mem_laneList {m : Lanes} {l : Nat} : l ∈ laneList m ↔ m.getLsbD l = true := by
  unfold laneList
  rw [List.mem_filter, List.mem_range]
  exact ⟨fun h => h.2, fun h => ⟨BitVec.lt_of_getLsbD h, h⟩⟩

theorem laneList_lt {m : Lanes} {l : Nat} (h : l ∈ laneList m) : l < 64 := BitVec.lt_of_getLsbD (mem_laneList.mp h)

theorem laneList_nodup (m : Lanes) : (laneList m).Nodup := List.Nodup.filter _ List.nodup_range

theorem laneBit_getLsbD {n l : Nat} (hn : n < 64) : (laneBit n).getLsbD l = decide (l = n) := by
  unfold laneBit
  rw [BitVec.getLsbD_ofNat, Nat.testBit_two_pow]
  by_cases h : n = l
  · subst h; simp [hn]
  · simp [h, Ne.symm h]

theorem lanesOf_foldl (ls : List Nat) (m : Lanes) (l : Nat) (h : ∀ k ∈ ls, k < 64) :
    (ls.foldl (fun m n => m ||| laneBit n) m).getLsbD l = (m.getLsbD l || ls.contains l) := by
  induction ls generalizing m with
  | nil => simp
  | cons a t ih =>
    rw [List.foldl_cons, ih _ (fun k hk => h k (List.mem_cons_of_mem _ hk))]
    simp [laneBit_getLsbD (h a (List.mem_cons_self ..)), Bool.or_assoc]

theorem lanesOf_getLsbD {ls : List Nat} (h : ∀ k ∈ ls, k < 64) (l : Nat) : (lanesOf ls).getLsbD l = ls.contains l := by
  unfold lanesOf; rw [lanesOf_foldl ls 0 l h]; simp

theorem lanesWhere_getLsbD (m : Lanes) (p : Nat → Bool) (l : Nat) : (lanesWhere m p).getLsbD l = (m.getLsbD l && p l) := by
  unfold lanesWhere
  rw [lanesOf_getLsbD (fun k hk => laneList_lt (List.mem_filter.mp hk).1)]
  rw [Bool.eq_iff_iff]
  simp

/-- The guard-true lanes of a run (R67). -/
@[simp] theorem Group.guardLanes_getLsbD (g : Group) (h : Hdr) (m : Lanes) (l : Nat) :
    (g.guardLanes h m).getLsbD l = (m.getLsbD l && g.guard h l) := lanesWhere_getLsbD ..

end Sys2Proof.Machine
end

