-- ==== Sys2Proof/Laws/Issue.lean ====
section
/-! SUPPORT. Laws of the operations that meanings share: the issue of an instruction, the result of a computing instruction, and
what each leaves. -/

namespace Sys2Proof.Machine

open Sys2Proof.Safety

/-- The operands of a meaning, at a new issue. -/
def issueX (s : State) (q : Issue) (g : Group) (h : Hdr) : X :=
  { s := s, gid := q.gid, g := g, m := q.lanes, pc := q.pc, next := nextPc h q, u := h.u, resume := none, lanes := acts h q g }

/-- Everything `withIssue` can do at a new issue that passes the checks of R17 and R86. -/
theorem State.withIssue_of_issues {s : State} {i : Instr} {q : Issue} {g : Group} (hi : Issues s i q g) (h : Hdr) (body : X → State) :
    s.withIssue i h body = .next (body (issueX s q g h)) := by
  unfold State.withIssue
  rw [hi.cur]; dsimp only
  rw [hi.group]; dsimp only
  simp only [hi.new, hi.budget, hi.priv, Bool.false_eq_true, if_false, Bool.not_true]
  rfl

/-- An instruction never refuses, and faults only when no group issues. -/
theorem State.withIssue_total (s : State) (i : Instr) (h : Hdr) (body : X → State) :
    (∃ t, s.withIssue i h body = .next t) ∨ s.withIssue i h body = .fault .noIssuer := by
  unfold State.withIssue
  cases s.cur with
  | none => exact .inr rfl
  | some q =>
    dsimp only
    cases s.group? q.gid with
    | none => exact .inr rfl
    | some g =>
      dsimp only
      left
      by_cases hb : breaksBudget g.info.budget i = true
      · rw [if_pos hb]; exact ⟨_, rfl⟩
      · rw [if_neg hb]
        by_cases hp : (!g.privOk i) = true
        · rw [if_pos hp]; exact ⟨_, rfl⟩
        · rw [if_neg hp]; exact ⟨_, rfl⟩

-- Results

/-- A destination whose registers exist: even where it is a pair (R70, R71). -/
def destOk (w : Nat) : Reg → Prop
  | .v n => w = 1 ∨ (w = 2 ∧ n.val % 2 = 0)
  | .o n => w = 1 ∨ (w = 2 ∧ n.val % 2 = 0)
  | .s _ => w = 1 ∨ w = 2
  | _ => False

theorem trunc_zext64 (x : Dword) : ((x.zeroExtend 128 : Quad).truncate 64) = x := by
  simp

theorem trunc_zext32 (x : Dword) : ((x.zeroExtend 128 : Quad).truncate 32) = x.truncate 32 := by
  apply BitVec.eq_of_getLsbD_eq; intro i hi; simp [hi]

/-- One lane's write of a result, read back in that lane. -/
theorem Group.readsAs_wr_self (g : Group) {w l : Nat} {d : Reg} (hl : l < 64) (hd : destOk w d) (v : Dword) :
    ReadsAs (g.wr w l d (v.zeroExtend 128)) w l d v := by
  cases d <;> simp only [destOk] at hd
  case v n =>
    rcases hd with rfl | ⟨rfl, he⟩
    · simp only [ReadsAs, Group.wr, if_true, Nat.reduceEqDiff, if_false, trunc_zext32, Group.rd32_wr32_v _ hl hl, and_self]
    · simp only [ReadsAs, Group.wr, if_true, Nat.reduceEqDiff, if_false, trunc_zext64, Group.rd64_wr64_v _ hl hl n he]
  case o n =>
    rcases hd with rfl | ⟨rfl, he⟩
    · simp only [ReadsAs, Group.wr, if_true, Nat.reduceEqDiff, if_false, trunc_zext32, Group.rd32_wr32_o _ hl hl, and_self]
    · simp only [ReadsAs, Group.wr, if_true, Nat.reduceEqDiff, if_false, trunc_zext64, Group.rd64_wr64_o _ hl hl n he]
  case s n =>
    rcases hd with rfl | rfl
    · have : ∀ k : Group, k.rd32 l (.s n) = (k.rd64 l (.s n)).truncate 32 := fun _ => rfl
      simp only [ReadsAs, Group.wr, if_true, Nat.reduceEqDiff, if_false, trunc_zext32, this, Group.rd64_wr32_s]
      simp
    · simp only [ReadsAs, Group.wr, if_true, Nat.reduceEqDiff, if_false, trunc_zext64, Group.rd64_wr64_s]

/-- A write of a V or O destination in another lane changes nothing in this one. -/
theorem Group.readsAs_wr_other (g : Group) {w l k : Nat} {d : Reg} (hl : l < 64) (hk : k < 64) (hne : k ≠ l) (hd : destOk w d)
    (hs : ∀ n, d ≠ .s n) (v x : Dword) (h : ReadsAs g w k d x) : ReadsAs (g.wr w l d (v.zeroExtend 128)) w k d x := by
  cases d <;> simp only [destOk] at hd
  case v n =>
    rcases hd with rfl | ⟨rfl, he⟩
    · simpa [ReadsAs, Group.wr, Group.rd32_wr32_v _ hl hk, hne] using h
    · simpa [ReadsAs, Group.wr, Group.rd64_wr64_v _ hl hk n he, hne] using h
  case o n =>
    rcases hd with rfl | ⟨rfl, he⟩
    · simpa [ReadsAs, Group.wr, Group.rd32_wr32_o _ hl hk, hne] using h
    · simpa [ReadsAs, Group.wr, Group.rd64_wr64_o _ hl hk n he, hne] using h
  case s n => exact absurd rfl (hs n)

/-- The destination after every lane of a list has written its own value. -/
theorem Group.readsAs_fold (g : Group) {w : Nat} {d : Reg} (hd : destOk w d) (hs : ∀ n, d ≠ .s n) (f : Nat → Dword) (ls : List Nat)
    (hn : ls.Nodup) (hlt : ∀ l ∈ ls, l < 64) {l : Nat} (hl : l ∈ ls) :
    ReadsAs (ls.foldl (fun g l => g.wr w l d ((f l).zeroExtend 128)) g) w l d (f l) := by
  have keep : ∀ (ls : List Nat) (g : Group), (∀ k ∈ ls, k < 64 ∧ k ≠ l) → ReadsAs g w l d (f l) →
      ReadsAs (ls.foldl (fun g l => g.wr w l d ((f l).zeroExtend 128)) g) w l d (f l) := by
    intro ls
    induction ls with
    | nil => intro g _ h; exact h
    | cons a t ih =>
      intro g hk h
      refine ih _ (fun k hk' => hk k (List.mem_cons_of_mem _ hk')) ?_
      exact Group.readsAs_wr_other g (hk a (List.mem_cons_self ..)).1 (hlt l hl) (Ne.symm (hk a (List.mem_cons_self ..)).2) hd hs _ _ h
  induction ls generalizing g with
  | nil => cases hl
  | cons a t ih =>
    rw [List.foldl_cons]
    rcases List.mem_cons.mp hl with rfl | h
    · refine keep t _ ?_ (Group.readsAs_wr_self g (hlt l (List.mem_cons_self ..)) hd _)
      intro k hk
      exact ⟨hlt k (List.mem_cons_of_mem _ hk), fun he => (List.nodup_cons.mp hn).1 (he ▸ hk)⟩
    · exact ih _ (List.nodup_cons.mp hn).2 (fun k hk => hlt k (List.mem_cons_of_mem _ hk)) h

/-- An S destination written with one value reads it in every lane. -/
theorem Group.readsAs_fold_s (g : Group) {w : Nat} {n : Fin 64} (hd : destOk w (.s n)) (v : Dword) (ls : List Nat) (h : ls ≠ []) (l : Nat) :
    ReadsAs (ls.foldl (fun g l => g.wr w l (.s n) (v.zeroExtend 128)) g) w l (.s n) v := by
  have one : ∀ (g : Group) (k l : Nat), ReadsAs (g.wr w k (.s n) (v.zeroExtend 128)) w l (.s n) v := by
    intro g k l
    simp only [destOk] at hd
    rcases hd with rfl | rfl
    · have : ∀ k : Group, k.rd32 l (.s n) = (k.rd64 l (.s n)).truncate 32 := fun _ => rfl
      simp only [ReadsAs, Group.wr, if_true, Nat.reduceEqDiff, if_false, trunc_zext32, this, Group.rd64_wr32_s]
      simp
    · simp only [ReadsAs, Group.wr, if_true, Nat.reduceEqDiff, if_false, trunc_zext64, Group.rd64_wr64_s]
  induction ls generalizing g with
  | nil => exact absurd rfl h
  | cons a t ih =>
    rw [List.foldl_cons]
    by_cases ht : t = []
    · subst ht; exact one g a l
    · exact ih _ ht

-- The last-result file does not hold V, O, S or P

theorem Group.pushFold_frame (g : Group) (vals : List (Nat × Dword)) :
    let k := vals.foldl (fun g p => Group.pushL g p.1 p.2) g
    k.info = g.info ∧ k.sched = g.sched ∧ k.runs = g.runs ∧ k.sys = g.sys ∧ k.pend = g.pend ∧ k.busy = g.busy ∧ k.cmds = g.cmds ∧
      k.regs.v = g.regs.v ∧ k.regs.o = g.regs.o ∧ k.regs.s = g.regs.s ∧ k.regs.p = g.regs.p ∧ k.regs.ld = g.regs.ld ∧
      k.regs.st = g.regs.st ∧ k.regs.cp = g.regs.cp ∧ k.regs.tl = g.regs.tl ∧ k.bseq = g.bseq := by
  induction vals generalizing g with
  | nil => exact ⟨rfl, rfl, rfl, rfl, rfl, rfl, rfl, rfl, rfl, rfl, rfl, rfl, rfl, rfl, rfl, rfl⟩
  | cons a t ih => exact ih (g.pushL a.1 a.2)

end Sys2Proof.Machine
end

