-- ==== Sys2Proof/Laws/Result.lean ====
section
/-! SUPPORT. The law of `X.finish`: everything that a computing instruction with one result leaves. -/

namespace Sys2Proof.Machine

open Sys2Proof.Safety

-- Predicates

theorem Group.rdP_wrP (g : Group) {n l k : Nat} (hn : n ≠ 7) (hl : l < 64) (hk : k < 64) (m : Nat) (b : Bool) :
    (g.wrP n l b).rdP m k = if m = n ∧ k = l then b else g.rdP m k := by
  unfold Group.rdP Group.wrP
  simp only [Group.modRegs_regs, SMap.get_put]
  by_cases hm : m = n
  · subst hm
    by_cases hkl : k = l
    · subst hkl; cases b <;> simp [hn, laneBit_getLsbD hk]
    · have hb : (laneBit l)[k]'hk = false := by rw [← BitVec.getLsbD_eq_getElem, laneBit_getLsbD hl]; simp [hkl]
      cases b <;> simp [hkl, hk, hb]
  · simp [hm]

theorem Group.wrP_frame (g : Group) (n l : Nat) (b : Bool) : let k := g.wrP n l b
    k.info = g.info ∧ k.sched = g.sched ∧ k.runs = g.runs ∧ k.sys = g.sys ∧ k.pend = g.pend ∧ k.busy = g.busy ∧ k.cmds = g.cmds ∧
      k.regs.v = g.regs.v ∧ k.regs.o = g.regs.o ∧ k.regs.s = g.regs.s ∧ k.regs.l = g.regs.l ∧ k.regs.ld = g.regs.ld ∧
      k.regs.st = g.regs.st ∧ k.regs.cp = g.regs.cp ∧ k.regs.tl = g.regs.tl ∧ k.bseq = g.bseq :=
  ⟨rfl, rfl, rfl, rfl, rfl, rfl, rfl, rfl, rfl, rfl, rfl, rfl, rfl, rfl, rfl, rfl⟩

/-- A predicate written in several lanes. -/
theorem Group.rdP_wrPAll (g : Group) {n : Nat} (hn : n ≠ 7) (ls : List Nat) (f : Nat → Bool) (hlt : ∀ l ∈ ls, l < 64) {k : Nat} (hk : k < 64) (m : Nat) :
    (g.wrPAll n ls f).rdP m k = if m = n ∧ k ∈ ls then f k else g.rdP m k := by
  unfold Group.wrPAll
  induction ls generalizing g with
  | nil => simp
  | cons a t ih =>
    rw [List.foldl_cons, ih _ (fun l hl => hlt l (List.mem_cons_of_mem _ hl)), Group.rdP_wrP _ hn (hlt a (List.mem_cons_self ..)) hk]
    by_cases hm : m = n <;> by_cases ha : k = a <;> by_cases hkt : k ∈ t <;> simp [hm, ha, hkt]

theorem Group.wrPAll_frame (g : Group) (n : Nat) (ls : List Nat) (f : Nat → Bool) : let k := g.wrPAll n ls f
    k.info = g.info ∧ k.sched = g.sched ∧ k.runs = g.runs ∧ k.sys = g.sys ∧ k.pend = g.pend ∧ k.busy = g.busy ∧ k.cmds = g.cmds ∧
      k.regs.v = g.regs.v ∧ k.regs.o = g.regs.o ∧ k.regs.s = g.regs.s ∧ k.regs.l = g.regs.l ∧ k.regs.ld = g.regs.ld ∧
      k.regs.st = g.regs.st ∧ k.regs.cp = g.regs.cp ∧ k.regs.tl = g.regs.tl ∧ k.bseq = g.bseq := by
  unfold Group.wrPAll
  induction ls generalizing g with
  | nil => exact ⟨rfl, rfl, rfl, rfl, rfl, rfl, rfl, rfl, rfl, rfl, rfl, rfl, rfl, rfl, rfl, rfl⟩
  | cons a t ih => exact ih (g.wrP n a (f a))

/-- Two groups with the same register files read alike. -/
theorem Group.rd32_congr {g k : Group} (hi : k.info = g.info) (hv : k.regs.v = g.regs.v) (ho : k.regs.o = g.regs.o) (hl : k.regs.l = g.regs.l)
    (hs : k.regs.s = g.regs.s) (hp : k.regs.p = g.regs.p) (l : Nat) (r : Reg) : k.rd32 l r = g.rd32 l r := by
  cases r <;> simp [Group.rd32, Group.rdP, Group.wid, hi, hv, ho, hl, hs, hp]

theorem sameReg_of_files {g k : Group} (hi : k.info = g.info) (hv : k.regs.v = g.regs.v) (ho : k.regs.o = g.regs.o)
    (hs : k.regs.s = g.regs.s) (hp : k.regs.p = g.regs.p) (l : Nat) (r : Reg) : SameReg g k l r := by
  cases r <;> simp [SameReg, Group.rd32, Group.rd64_s, Group.rdP, Group.wid, hi, hv, ho, hs, hp]

/-- A write of a destination leaves the other registers, and in another lane the destination too. -/
theorem Group.sameReg_wr32 (g : Group) {l k : Nat} (hl : l < 64) (hk : k < 64) (d : Reg) (x : Word) (r : Reg)
    (h : r ≠ d ∨ (k ≠ l ∧ ∀ n, d ≠ .s n)) : SameReg g (g.wr32 l d x) k r := by
  have same := Group.wr32_same g l d x
  cases d with
  | v n => cases r with
    | v m =>
      simp only [SameReg, Group.rd32_wr32_v _ hl hk]
      rw [if_neg]; rintro ⟨rfl, rfl⟩; rcases h with h | h
      · exact h rfl
      · exact h.1 rfl
    | _ => simp [SameReg, Group.rd32, Group.rd64_s, Group.rdP, Group.wid, Group.wr32, Group.modRegs]
  | o n => cases r with
    | o m =>
      simp only [SameReg, Group.rd32_wr32_o _ hl hk]
      rw [if_neg]; rintro ⟨rfl, rfl⟩; rcases h with h | h
      · exact h rfl
      · exact h.1 rfl
    | _ => simp [SameReg, Group.rd32, Group.rd64_s, Group.rdP, Group.wid, Group.wr32, Group.modRegs]
  | s n => cases r with
    | s m =>
      simp only [SameReg, Group.rd64_wr32_s]
      rw [if_neg]; rintro rfl; rcases h with h | h
      · exact h rfl
      · exact h.2 m rfl
    | _ => simp [SameReg, Group.rd32, Group.rdP, Group.wid, Group.wr32, Group.modRegs]
  | _ => cases r <;> trivial

theorem sameReg_refl (g : Group) (l : Nat) (r : Reg) : SameReg g g l r := by cases r <;> simp [SameReg]

theorem sameReg_trans {a b c : Group} {l : Nat} {r : Reg} (h : SameReg a b l r) (k : SameReg b c l r) : SameReg a c l r := by
  cases r <;> simp only [SameReg] at * <;> first | trivial | exact k.trans h

theorem Group.sameReg_wr64 (g : Group) {l k : Nat} (hl : l < 64) (hk : k < 64) (d : Reg) (x : Dword) (r : Reg)
    (h : (r ≠ d ∧ r ≠ Reg.shift d 1) ∨ (k ≠ l ∧ ∀ n, d ≠ .s n)) : SameReg g (g.wr64 l d x) k r := by
  cases d with
  | v n =>
    rw [Group.wr64_v]
    refine sameReg_trans (Group.sameReg_wr32 g hl hk (.v n) _ r ?_) (Group.sameReg_wr32 _ hl hk (Reg.shift (.v n) 1) _ r ?_)
    · rcases h with h | h
      · exact .inl h.1
      · exact .inr ⟨h.1, by simp⟩
    · rcases h with h | h
      · exact .inl h.2
      · refine .inr ⟨h.1, ?_⟩
        intro m; unfold Reg.shift; dsimp only; split <;> simp
  | o n =>
    rw [Group.wr64_o]
    refine sameReg_trans (Group.sameReg_wr32 g hl hk (.o n) _ r ?_) (Group.sameReg_wr32 _ hl hk (Reg.shift (.o n) 1) _ r ?_)
    · rcases h with h | h
      · exact .inl h.1
      · exact .inr ⟨h.1, by simp⟩
    · rcases h with h | h
      · exact .inl h.2
      · refine .inr ⟨h.1, ?_⟩
        intro m; unfold Reg.shift; dsimp only; split <;> simp
  | s n => cases r with
    | s m =>
      simp only [SameReg, Group.rd64_wr64_s]
      rw [if_neg]; rintro rfl; rcases h with h | h
      · exact h.1 rfl
      · exact h.2 m rfl
    | _ => simp [SameReg, Group.rd32, Group.rdP, Group.wid, Group.wr64, Group.modRegs]
  | _ => exact sameReg_refl g k r

theorem Group.sameReg_wr (g : Group) {w l k : Nat} (hw : w = 1 ∨ w = 2) (hl : l < 64) (hk : k < 64) (d : Reg) (x : Quad) (r : Reg)
    (h : ¬ names d w r ∨ (k ≠ l ∧ ∀ n, d ≠ .s n)) : SameReg g (g.wr w l d x) k r := by
  unfold Group.wr
  rcases hw with rfl | rfl
  · exact Group.sameReg_wr32 g hl hk d _ r (h.imp (fun h hr => h (.inl hr)) id)
  · rw [if_neg (by decide), if_pos rfl]
    exact Group.sameReg_wr64 g hl hk d _ r (h.imp (fun h => ⟨fun hr => h (.inl hr), fun hr => h (.inr ⟨rfl, hr⟩)⟩) id)

theorem Group.sameReg_fold (g : Group) {w k : Nat} (hw : w = 1 ∨ w = 2) (hk : k < 64) (d : Reg) (f : Nat → Quad) (r : Reg) (ls : List Nat)
    (hlt : ∀ l ∈ ls, l < 64) (h : ¬ names d w r ∨ (k ∉ ls ∧ ∀ n, d ≠ .s n)) : SameReg g (ls.foldl (fun g l => g.wr w l d (f l)) g) k r := by
  induction ls generalizing g with
  | nil => exact sameReg_refl g k r
  | cons a t ih =>
    rw [List.foldl_cons]
    refine sameReg_trans (Group.sameReg_wr g hw (hlt a (List.mem_cons_self ..)) hk d _ r ?_)
      (ih _ (fun l hl => hlt l (List.mem_cons_of_mem _ hl)) ?_)
    · exact h.imp id fun h => ⟨fun e => h.1 (e ▸ List.mem_cons_self ..), h.2⟩
    · exact h.imp id fun h => ⟨fun e => h.1 (List.mem_cons_of_mem _ e), h.2⟩

-- The law of `finish`

/-- The operands of a meaning at a new issue, with the uniform-violation bit as R32 leaves it. -/
def issueU (s : State) (q : Issue) (g : Group) (h : Hdr) (b : Bool) : X :=
  { issueX s q g h with g := { g with sys := { g.sys with uniformViolation := b } } }

theorem issueX_uniform (s : State) (q : Issue) (g : Group) (h : Hdr) (f : Nat → List Dword) :
    ∃ b, (issueX s q g h).uniform f = issueU s q g h b := by
  unfold X.uniform
  split
  · exact ⟨g.sys.uniformViolation, rfl⟩
  · exact ⟨true, rfl⟩

theorem issueX_uniformU (s : State) (q : Issue) (g : Group) (h : Hdr) (f : Nat → List Dword) :
    ∃ b, (issueX s q g h).uniformU f = issueU s q g h b := by
  unfold X.uniformU
  split
  · exact issueX_uniform s q g h f
  · exact ⟨g.sys.uniformViolation, rfl⟩

/-- The flags that the lanes of a list raise. -/
def unionOf (ls : List Nat) (res : Nat → Res) : Fl := ls.foldl (fun a l => a ||| (res l).fl) 0

/-- A destination that the result law covers: a P register, or registers that exist; S only with one value for all lanes. -/
def landsOk (h : Hdr) (q : Issue) (g : Group) (w : Nat) (d : Reg) (res : Nat → Res) : Prop :=
  (∃ n, d = .p n ∧ n.val ≠ 7 ∧ w = 1 ∧ ∀ l, (res l).val = bool64 ((res l).val.getLsbD 0)) ∨
  (destOk w d ∧ (w = 1 ∨ w = 2) ∧ ∀ n, d = .s n → ∀ l k, (acts h q g).getLsbD l = true → (acts h q g).getLsbD k = true → (res l).val = (res k).val)

/-- The group after the destination has been written in the lanes of `ls`. -/
def written (g : Group) (w : Nat) (d : Reg) (ls : List Nat) (res : Nat → Res) : Group :=
  match d with
  | .p n => g.wrPAll n.val ls fun l => (res l).val.getLsbD 0
  | _ => ls.foldl (fun g l => g.wr w l d ((res l).val.zeroExtend 128)) g

theorem wrFold_frame (g : Group) (w : Nat) (d : Reg) (ls : List Nat) (f : Nat → Quad) : let k := ls.foldl (fun g l => g.wr w l d (f l)) g
    k.info = g.info ∧ k.sched = g.sched ∧ k.runs = g.runs ∧ k.sys = g.sys ∧ k.pend = g.pend ∧ k.busy = g.busy ∧ k.cmds = g.cmds ∧
      k.regs.ld = g.regs.ld ∧ k.regs.st = g.regs.st ∧ k.regs.cp = g.regs.cp ∧ k.regs.tl = g.regs.tl :=
  have h := Group.wrFold_same g w d ls f
  ⟨h.info, h.sched, h.runs, h.sys, h.pend, h.busy, h.cmds, h.ld, h.st, h.cp, h.tl⟩

theorem written_frame (g : Group) (w : Nat) (d : Reg) (ls : List Nat) (res : Nat → Res) : let k := written g w d ls res
    k.info = g.info ∧ k.sched = g.sched ∧ k.runs = g.runs ∧ k.sys = g.sys ∧ k.pend = g.pend ∧ k.busy = g.busy ∧ k.cmds = g.cmds ∧
      k.regs.ld = g.regs.ld ∧ k.regs.st = g.regs.st ∧ k.regs.cp = g.regs.cp ∧ k.regs.tl = g.regs.tl := by
  unfold written
  cases d with
  | p n => obtain ⟨h1, h2, h3, h4, h5, h6, h7, _, _, _, _, h8, h9, h10, h11, _⟩ := Group.wrPAll_frame g n.val ls fun l => (res l).val.getLsbD 0
           exact ⟨h1, h2, h3, h4, h5, h6, h7, h8, h9, h10, h11⟩
  | _ => exact wrFold_frame ..

/-- A group whose V, O, S and P files and work identifier are those of another reads as it does. -/
structure SameFiles (g k : Group) : Prop where
  info : k.info = g.info
  v : k.regs.v = g.regs.v
  o : k.regs.o = g.regs.o
  s : k.regs.s = g.regs.s
  p : k.regs.p = g.regs.p

theorem SameFiles.readsAs {g k : Group} (h : SameFiles g k) {w l : Nat} {d : Reg} {v : Dword} (hd : (∃ n, d = .p n ∧ w = 1) ∨ destOk w d)
    (hr : ReadsAs g w l d v) : ReadsAs k w l d v := by
  have e32 : ∀ r, (∀ n, r ≠ .l n) → k.rd32 l r = g.rd32 l r := by
    intro r hr
    cases r <;> simp [Group.rd32, Group.rdP, Group.wid, h.info, h.v, h.o, h.s, h.p]
    case l n => exact absurd rfl (hr n)
  unfold ReadsAs at *
  rcases hd with ⟨n, rfl, rfl⟩ | hd
  · simpa [e32] using hr
  · cases d <;> simp only [destOk] at hd
    case v n =>
      have hs : ∀ m, Reg.shift (.v n) 1 ≠ .l m := by intro m; unfold Reg.shift; dsimp only; split <;> simp
      split
      · rw [Group.rd64_v, e32 _ hs, e32 _ (by simp), ← Group.rd64_v]; rw [if_pos ‹_›] at hr; exact hr
      · rw [if_neg ‹_›] at hr; rw [e32 _ (by simp)]; exact hr
    case o n =>
      have hs : ∀ m, Reg.shift (.o n) 1 ≠ .l m := by intro m; unfold Reg.shift; dsimp only; split <;> simp
      split
      · rw [Group.rd64_o, e32 _ hs, e32 _ (by simp), ← Group.rd64_o]; rw [if_pos ‹_›] at hr; exact hr
      · rw [if_neg ‹_›] at hr; rw [e32 _ (by simp)]; exact hr
    case s n =>
      split
      · rw [Group.rd64_s, h.s, ← Group.rd64_s]; rw [if_pos ‹_›] at hr; exact hr
      · rw [if_neg ‹_›] at hr; rw [e32 _ (by simp)]; exact hr

/-- The destination of the result law reads the result in every lane that wrote it. -/
theorem written_readsAs {h : Hdr} {q : Issue} {g : Group} {w : Nat} {d : Reg} {res : Nat → Res} (hd : landsOk h q g w d res) (k : Group)
    {l : Nat} (hl : (acts h q g).getLsbD l = true) : ReadsAs (written k w d (laneList (acts h q g)) res) w l d (res l).val := by
  have hlt : ∀ m ∈ laneList (acts h q g), m < 64 := fun m hm => laneList_lt hm
  have hmem := mem_laneList.mpr hl
  rcases hd with ⟨n, rfl, hn, rfl, hb⟩ | ⟨hd, hw, hs⟩
  · unfold written ReadsAs
    simp only [Nat.reduceEqDiff, if_false, Group.rd32, Group.rdP_wrPAll k hn _ _ hlt (hlt l hmem)]
    rw [hb l]
    simp only [hmem, and_self, if_true, bool64]
    cases (res l).val.getLsbD 0 <;> simp
  · by_cases hds : ∃ n, d = .s n
    · obtain ⟨n, rfl⟩ := hds
      have hfold : ∀ (ls : List Nat) (k : Group), (∀ m ∈ ls, (acts h q g).getLsbD m = true) →
          ls.foldl (fun g m => g.wr w m (.s n) ((res m).val.zeroExtend 128)) k = ls.foldl (fun g m => g.wr w m (.s n) ((res l).val.zeroExtend 128)) k := by
        intro ls
        induction ls with
        | nil => intro k _; rfl
        | cons a t ih =>
          intro k hm
          rw [List.foldl_cons, List.foldl_cons, hs n rfl a l (hm a (List.mem_cons_self ..)) hl]
          exact ih _ fun m hm' => hm m (List.mem_cons_of_mem _ hm')
      unfold written
      simp only
      rw [hfold _ _ fun m hm => mem_laneList.mp hm]
      exact Group.readsAs_fold_s k hd _ _ (List.ne_nil_of_mem hmem) l
    · have hne : ∀ n, d ≠ .s n := fun n e => hds ⟨n, e⟩
      have : written k w d (laneList (acts h q g)) res =
          (laneList (acts h q g)).foldl (fun g l => g.wr w l d ((res l).val.zeroExtend 128)) k := by
        cases d <;> first | rfl | exact absurd hd (by simp [destOk])
      rw [this]
      exact Group.readsAs_fold k hd hne (fun l => (res l).val) _ (laneList_nodup _) hlt hmem

/-- Registers beside the destination, and the destination in other lanes, read as before. -/
theorem written_sameReg {h : Hdr} {q : Issue} {g : Group} {w : Nat} {d : Reg} {res : Nat → Res} (hd : landsOk h q g w d res) (k : Group)
    {l : Nat} (hl : l < 64) (r : Reg) (hr : ¬ names d w r ∨ ((acts h q g).getLsbD l = false ∧ ∀ n, d ≠ .s n)) :
    SameReg k (written k w d (laneList (acts h q g)) res) l r := by
  have hlt : ∀ m ∈ laneList (acts h q g), m < 64 := fun m hm => laneList_lt hm
  rcases hd with ⟨n, rfl, hn, rfl, hb⟩ | ⟨hd, hw, hs⟩
  · unfold written
    obtain ⟨h1, _, _, _, _, _, _, h8, h9, h10, h11, _⟩ := Group.wrPAll_frame k n.val (laneList (acts h q g)) fun l => (res l).val.getLsbD 0
    cases r with
    | p m =>
      simp only [SameReg, Group.rd32, Group.rdP_wrPAll k hn _ _ hlt hl]
      congr 1
      rw [eq_iff_iff, if_neg]
      rintro ⟨hm, hmem⟩
      rcases hr with hr | hr
      · exact hr (.inl (by rw [Fin.val_inj] at hm; rw [hm]))
      · rw [mem_laneList, hr.1] at hmem; cases hmem
    | l _ => trivial
    | s m => simp only [SameReg, Group.rd64_s, h10]
    | v m => simp only [SameReg, Group.rd32, h8]
    | o m => simp only [SameReg, Group.rd32, h9]
    | _ => simp only [SameReg, Group.rd32, Group.wid, h1]
  · have : written k w d (laneList (acts h q g)) res =
        (laneList (acts h q g)).foldl (fun g l => g.wr w l d ((res l).val.zeroExtend 128)) k := by
      cases d <;> first | rfl | exact absurd hd (by simp [destOk])
    rw [this]
    exact Group.sameReg_fold k hw hl d _ r _ hlt (hr.imp id fun e => ⟨fun hm => by (rw [mem_laneList, e.1] at hm; exact absurd hm (by simp)), e.2⟩)

theorem State.freshSerial_snd (s : State) : (s.newSerial).2 = { s with serial := s.serial + 1 } := rfl

/-- What `mark` leaves: the group with pending writes, and a state that differs in its events and its number counter. -/
theorem X.mark_spec (x : X) (ws : List (Nat × Lanes)) (src lat : Nat) :
    ∃ ev sn bs, x.mark ws src lat = { x with s := { x.s with events := ev, serial := sn }, g := { x.g with busy := bs } } := by
  unfold X.mark
  dsimp only
  split
  · exact ⟨x.s.events, x.s.serial, x.g.busy, rfl⟩
  · exact ⟨_, _, _, rfl⟩

/-- Everything that `finish` leaves at a new issue when no class of exception traps: the result in each guard-true lane, the run at
`next`, the flags added to SYS.FPSTAT, and all else as it was. -/
theorem X.finish_spec (s : State) (q : Issue) (g : Group) (h : Hdr) (b : Bool) (d : Reg) (w : Nat) (res : Nat → Res) (lat src : Nat)
    (hd : landsOk h q g w d res) (ht : fpTraps (g.sys.fpctl) (laneList (acts h q g)) (fun l => (res l).fl) = []) :
    Lands ((issueU s q g h b).finish d w res lat src) h q g w d (fun l => (res l).val) ∧
    Raises ((issueU s q g h b).finish d w res lat src) q g (unionOf (laneList (acts h q g)) res) ∧
    ResultFrame s ((issueU s q g h b).finish d w res lat src) h q g w d := by
  by_cases h0 : ((issueU s q g h b).lanes = 0 && (issueU s q g h b).u) = true
  · have hf : (issueU s q g h b).finish d w res lat src = (issueU s q g h b).done := by unfold X.finish; rw [if_pos h0]
    have hz : acts h q g = 0 := by simp only [Bool.and_eq_true, decide_eq_true_eq] at h0; exact h0.1
    rw [hf]
    have hnone : ∀ l, (acts h q g).getLsbD l = false := by intro l; rw [hz]; simp
    have hlist : laneList (acts h q g) = [] := by
      rw [List.eq_nil_iff_forall_not_mem]; intro l hl; rw [mem_laneList, hnone l] at hl; cases hl
    have hg : (issueU s q g h b).done.group? q.gid = some ((issueU s q g h b).g.goto q.lanes (nextPc h q)) := SMap.find_ins_self ..
    refine ⟨⟨_, hg, fun l hl => ?_, fun l hl => (Group.at_goto _ _ hl).pcOf⟩, ⟨_, hg, ?_⟩, ?_⟩
    · rw [hnone l] at hl; cases hl
    · rw [hlist]; simp [unionOf, issueU]
    · refine ⟨⟨fun _ _ => rfl, fun _ _ => rfl⟩, ⟨rfl, rfl, rfl, rfl, rfl⟩, fun k hk => SMap.find_ins_ne _ _ hk, _, hg, ?_, ?_, ?_, ?_, ?_, ?_, ?_⟩
      · simp [issueU, issueX]
      · simp [SameSys, issueU, issueX]
      · simp [issueU, issueX]
      · simp [issueU, issueX]
      · simp [issueU, issueX]
      · intro l _ r _; exact sameReg_of_files (by simp [issueU, issueX]) (by simp [issueU, issueX]) (by simp [issueU, issueX]) (by simp [issueU, issueX]) (by simp [issueU, issueX]) l r
      · intro l _ _ _ r; exact sameReg_of_files (by simp [issueU, issueX]) (by simp [issueU, issueX]) (by simp [issueU, issueX]) (by simp [issueU, issueX]) (by simp [issueU, issueX]) l r
  · -- the group before the run goes on
    let g0 : Group := (issueU s q g h b).g
    let g1 : Group := written g0 w d (laneList (acts h q g)) res
    obtain ⟨ev, sn, k, hk, hfin⟩ : ∃ (ev : List (Nat × Instr)) (sn : Nat) (k : Group), (k.info = g1.info ∧ k.regs.v = g1.regs.v ∧ k.regs.o = g1.regs.o ∧ k.regs.s = g1.regs.s ∧
        k.regs.p = g1.regs.p ∧ k.sys = { g1.sys with fpstat := g1.sys.fpstat ||| unionOf (laneList (acts h q g)) res } ∧ k.pend = g1.pend ∧
        k.cmds = g1.cmds ∧ k.regs.ld = g1.regs.ld ∧ k.regs.st = g1.regs.st ∧ k.regs.cp = g1.regs.cp ∧ k.regs.tl = g1.regs.tl) ∧
        (issueU s q g h b).finish d w res lat src =
          State.setGroup { s with events := ev, serial := sn } q.gid (k.goto q.lanes (nextPc h q)) := by
      let vals := (laneList q.lanes).map fun l => (l, if w = 2 then g1.rd64 l d else (g1.rd32 l d).zeroExtend 64)
      let g2 : Group := if pushes d = true then vals.foldl (fun g p => g.pushL p.1 p.2) g1 else g1
      let g3 : Group := { g2 with sys := { g2.sys with fpstat := g2.sys.fpstat ||| unionOf (laneList (acts h q g)) res } }
      have hg2 : g2.info = g1.info ∧ g2.regs.v = g1.regs.v ∧ g2.regs.o = g1.regs.o ∧ g2.regs.s = g1.regs.s ∧ g2.regs.p = g1.regs.p ∧
          g2.sys = g1.sys ∧ g2.pend = g1.pend ∧ g2.cmds = g1.cmds ∧ g2.regs.ld = g1.regs.ld ∧ g2.regs.st = g1.regs.st ∧
          g2.regs.cp = g1.regs.cp ∧ g2.regs.tl = g1.regs.tl := by
        have e := Group.pushFold_frame g1 vals
        by_cases hp : pushes d = true
        · have e2 : g2 = vals.foldl (fun g p => g.pushL p.1 p.2) g1 := if_pos hp
          rw [e2]
          obtain ⟨e1, _, _, e4, e5, _, e7, e8, e9, e10, e11, e12, e13, e14, e15, _⟩ := e
          exact ⟨e1, e8, e9, e10, e11, e4, e5, e7, e12, e13, e14, e15⟩
        · have e2 : g2 = g1 := if_neg hp
          rw [e2]; exact ⟨rfl, rfl, rfl, rfl, rfl, rfl, rfl, rfl, rfl, rfl, rfl, rfl⟩
      obtain ⟨ev, sn, bs, hm⟩ := X.mark_spec { issueU s q g h b with g := g3 } ((issueU s q g h b).writesOf d w (pushes d)) src lat
      have hsys : g3.sys.fpctl = g.sys.fpctl := by
        show g2.sys.fpctl = _
        rw [hg2.2.2.2.2.2.1]
        rw [show g1.sys = g0.sys from (written_frame g0 w d (laneList (acts h q g)) res).2.2.2.1]
        rfl
      refine ⟨ev, sn, { g3 with busy := bs }, ⟨hg2.1, hg2.2.1, hg2.2.2.1, hg2.2.2.2.1, hg2.2.2.2.2.1, ?_, hg2.2.2.2.2.2.2.1,
        hg2.2.2.2.2.2.2.2.1, hg2.2.2.2.2.2.2.2.2.1, hg2.2.2.2.2.2.2.2.2.2.1, hg2.2.2.2.2.2.2.2.2.2.2.1, hg2.2.2.2.2.2.2.2.2.2.2.2⟩, ?_⟩
      · show ({ g2.sys with fpstat := g2.sys.fpstat ||| unionOf (laneList (acts h q g)) res } : GSys) = _
        rw [hg2.2.2.2.2.2.1]
      · have hstart : (issueU s q g h b).finish d w res lat src =
            (({ issueU s q g h b with g := g3 } : X).mark ((issueU s q g h b).writesOf d w (pushes d)) src lat).doneFp
              (fpTraps g3.sys.fpctl (laneList (acts h q g)) fun l => (res l).fl) := by
          unfold X.finish; rw [if_neg h0]
          cases d <;> rfl
        rw [hstart, hsys, ht, hm]
        rfl
    have hw := written_frame g0 w d (laneList (acts h q g)) res
    have w1 : g1.info = g.info := hw.1
    have w2 : g1.sys = { g.sys with uniformViolation := b } := hw.2.2.2.1
    have w3 : g1.pend = g.pend := hw.2.2.2.2.1
    have w4 : g1.cmds = g.cmds := hw.2.2.2.2.2.2.1
    have w5 : g1.regs.ld = g.regs.ld ∧ g1.regs.st = g.regs.st ∧ g1.regs.cp = g.regs.cp ∧ g1.regs.tl = g.regs.tl := hw.2.2.2.2.2.2.2
    have hgr : ((issueU s q g h b).finish d w res lat src).group? q.gid = some (k.goto q.lanes (nextPc h q)) := by
      rw [hfin]; exact SMap.find_ins_self ..
    have hfiles : SameFiles g1 (k.goto q.lanes (nextPc h q)) :=
      ⟨by simp [hk.1], by simp [hk.2.1], by simp [hk.2.2.1], by simp [hk.2.2.2.1], by simp [hk.2.2.2.2.1]⟩
    have hfr : ∀ l, l < 64 → ∀ r, (¬ names d w r ∨ ((acts h q g).getLsbD l = false ∧ ∀ n, d ≠ .s n)) →
        SameReg g (k.goto q.lanes (nextPc h q)) l r := by
      intro l hl r hr
      refine sameReg_trans (b := g0) (sameReg_of_files rfl rfl rfl rfl rfl l r) (sameReg_trans (b := g1) (written_sameReg hd g0 hl r hr) ?_)
      exact sameReg_of_files hfiles.info hfiles.v hfiles.o hfiles.s hfiles.p l r
    refine ⟨⟨_, hgr, fun l hl => ?_, fun l hl => (Group.at_goto _ _ hl).pcOf⟩, ⟨_, hgr, ?_⟩, ?_⟩
    · refine hfiles.readsAs ?_ (written_readsAs hd g0 hl)
      rcases hd with ⟨n, h1, _, h2, _⟩ | ⟨h1, _⟩
      · exact .inl ⟨n, h1, h2⟩
      · exact .inr h1
    · rw [Group.goto_sys, hk.2.2.2.2.2.1, w2]
    · rw [hfin] at hgr ⊢
      refine ⟨⟨fun _ _ => rfl, fun _ _ => rfl⟩, ⟨rfl, rfl, rfl, rfl, rfl⟩, fun k hk => SMap.find_ins_ne _ _ hk, _, hgr, ?_, ?_, ?_, ?_, ?_, ?_, ?_⟩
      · rw [Group.goto_info, hk.1, w1]
      · rw [SameSys, Group.goto_sys, hk.2.2.2.2.2.1, w2]
      · rw [Group.goto_pend, hk.2.2.2.2.2.2.1, w3]
      · rw [Group.goto_cmds, hk.2.2.2.2.2.2.2.1, w4]
      · rw [Group.goto_regs, hk.2.2.2.2.2.2.2.2.1, hk.2.2.2.2.2.2.2.2.2.1, hk.2.2.2.2.2.2.2.2.2.2.1, hk.2.2.2.2.2.2.2.2.2.2.2]; exact w5
      · intro l hl r hr; exact hfr l hl r (.inl hr)
      · intro l hl ha hs r; exact hfr l hl r (.inr ⟨ha, hs⟩)

-- The law of `arith`

/-- The lane whose operands a lane of the issuing run uses (R32). -/
theorem issueX_srcLane (s : State) (q : Issue) (g : Group) (h : Hdr) (l : Nat) : (issueX s q g h).srcLane l = source h q g l := rfl

/-- Everything that a computing instruction of shape ARITH leaves, when no class of exception traps: `f` of the operands of the
source lane is the result of each guard-true lane. -/
theorem X.arith_spec (s : State) (q : Issue) (g : Group) (h : Hdr) (sp : ArithSpec) (a : Arith) (lat src : Nat)
    (f : Nat → Dword → Dword → Dword → Res) (res : Nat → Res)
    (hres : ∀ l, res l = (let m := source h q g l; let v := a.vals sp g m; f m v.1 v.2.1 v.2.2))
    (hd : landsOk h q g (sp.dst a.ty).width a.d res) (ht : fpTraps (g.sys.fpctl) (laneList (acts h q g)) (fun l => (res l).fl) = []) :
    Lands ((issueX s q g h).arith sp a lat src f) h q g (sp.dst a.ty).width a.d (fun l => (res l).val) ∧
    Raises ((issueX s q g h).arith sp a lat src f) q g (unionOf (laneList (acts h q g)) res) ∧
    ResultFrame s ((issueX s q g h).arith sp a lat src f) h q g (sp.dst a.ty).width a.d := by
  obtain ⟨b, hb⟩ := issueX_uniformU s q g h fun l => let v := a.vals sp g l; [v.1, v.2.1, v.2.2]
  have he : (issueX s q g h).arith sp a lat src f = (issueU s q g h b).finish a.d (sp.dst a.ty).width res lat src := by
    have hr : res = fun l => if h.u then f (lowest (acts h q g)) (a.vals sp g (lowest (acts h q g))).1 (a.vals sp g (lowest (acts h q g))).2.1
        (a.vals sp g (lowest (acts h q g))).2.2 else f l (a.vals sp g l).1 (a.vals sp g l).2.1 (a.vals sp g l).2.2 := by
      funext l; rw [hres l]; unfold source; cases h.u <;> rfl
    unfold X.arith
    rw [show ((issueX s q g h).uniformU fun l => let v := a.vals sp (issueX s q g h).g l; [v.1, v.2.1, v.2.2]) = issueU s q g h b from hb, hr]
    rfl
  rw [he]
  exact X.finish_spec s q g h b a.d _ res lat src hd ht

-- Destinations

/-- A destination of R70 in V, O or S; with S, U = 1, and every lane has one result. -/
theorem landsOk_dst {h : Hdr} {q : Issue} {g : Group} {w : Nat} {d : Reg} (hd : (Pos.dst w).ok h.u d = true) (hw : w = 1 ∨ w = 2) (r : Nat → Res) :
    landsOk h q g w d fun l => r (source h q g l) := by
  refine .inr ⟨?_, hw, ?_⟩
  · cases d with
    | v n =>
      have he : (n.val % w == 0) = true := hd
      rcases hw with rfl | rfl
      · exact .inl rfl
      · exact .inr ⟨rfl, by simpa using he⟩
    | o n =>
      have he : (n.val % w == 0) = true := hd
      rcases hw with rfl | rfl
      · exact .inl rfl
      · exact .inr ⟨rfl, by simpa using he⟩
    | s n => exact hw
    | _ => exact absurd (show false = true from hd) (by decide)
  · rintro n rfl l k _ _
    have hu : (h.u && w != 4) = true := hd
    rw [Bool.and_eq_true] at hu
    simp [source, hu.1]

/-- A predicate destination: P0 to P6. -/
theorem landsOk_pdst {h : Hdr} {q : Issue} {g : Group} {d : Reg} (hd : Pos.pdst.ok h.u d = true) (r : Nat → Bool) (fl : Nat → Fl) :
    landsOk h q g 1 d fun l => { val := bool64 (r l), fl := fl l } := by
  refine .inl ?_
  cases d with
  | p n =>
    have hn : decide (n.val < 7) = true := hd
    exact ⟨n, rfl, by simp at hn; omega, rfl, fun l => by
      show bool64 (r l) = bool64 ((bool64 (r l)).getLsbD 0)
      cases r l <;> decide⟩
  | _ => exact absurd (show false = true from hd) (by decide)

theorem Ty.regs_cases (t : Ty) : t.regs = 1 ∨ t.regs = 2 := by unfold Ty.regs; split <;> simp

/-- No trap while no class of SYS.FPCTL traps. -/
theorem fpTraps_untrapped {g : Group} (h : Untrapped g) (ls : List Nat) (fl : Nat → Fl) : fpTraps g.sys.fpctl ls fl = [] := by
  have bit : ∀ i, i < 5 → g.sys.fpctl.getLsbD i = false := by
    intro i hi
    have := congrArg (fun x : Word => x.getLsbD i) h
    simp only [BitVec.getLsbD_and] at this
    have hb : (0x1F#32).getLsbD i = true := by interval_cases i <;> rfl
    rw [hb] at this; simpa using this
  simp only [fpTraps, fpClasses, List.filterMap_cons, List.filterMap_nil, bit 0 (by decide), bit 1 (by decide), bit 2 (by decide),
    bit 3 (by decide), bit 4 (by decide), Bool.false_and, Bool.false_eq_true, if_false]

/-- No trap from an instruction that raises no class of exception. -/
theorem fpTraps_quiet (c : Word) (ls : List Nat) (fl : Nat → Fl) (h : ∀ l i, i < 5 → (fl l).getLsbD i = false) : fpTraps c ls fl = [] := by
  have e : ∀ i, i < 5 → (ls.filter fun l => (fl l).getLsbD i) = [] := by
    intro i hi; rw [List.filter_eq_nil_iff]; intro l _; simp [h l i hi]
  have z : ((lanesOf [] : Lanes) != 0) = false := by decide
  simp only [fpTraps, fpClasses, List.filterMap_cons, List.filterMap_nil, e 0 (by decide), e 1 (by decide), e 2 (by decide),
    e 3 (by decide), e 4 (by decide), z, Bool.and_false, Bool.false_eq_true, if_false]

end Sys2Proof.Machine
end

