-- ==== Sys2Proof/Laws/Compute.lean ====
section
/-! SUPPORT. The law of the computing instructions as `Computes` says it: from the rule of one lane, everything that an issue leaves. -/

namespace Sys2Proof.Machine

open Sys2Proof.Safety

theorem source_source (h : Hdr) (q : Issue) (g : Group) (l : Nat) : source h q g (source h q g l) = source h q g l := by
  unfold source; split <;> rfl

theorem unionOf_eq (ls : List Nat) (res : Nat → Res) : unionOf ls res = flagsOf ls fun l => (res l).fl := rfl

/-- A group meets `pre` only where no class traps, or the instruction raises no class that could. -/
def quietIn (pre : Group → Prop) (f : Group → Issue → Arith → Nat → Dword → Dword → Dword → Res) : Prop :=
  (∀ g, pre g → Untrapped g) ∨ ∀ g q a m u v w i, i < 5 → (f g q a m u v w).fl.getLsbD i = false

theorem quietIn.traps {pre : Group → Prop} {f : Group → Issue → Arith → Nat → Dword → Dword → Dword → Res} (hq : quietIn pre f) {g : Group}
    (hp : pre g) (ls : List Nat) (fl : Nat → Fl) (hfl : ∀ l, ∃ q a m u v w, fl l = (f g q a m u v w).fl) : fpTraps g.sys.fpctl ls fl = [] := by
  rcases hq with h | h
  · exact fpTraps_untrapped (h g hp) _ _
  · refine fpTraps_quiet _ _ _ fun l i hi => ?_
    obtain ⟨q, a, m, u, v, w, e⟩ := hfl l
    rw [e]; exact h _ _ _ _ _ _ _ _ hi

theorem Computes.intro {mk : Hdr → Arith → Instr} {sp : ArithSpec} {pre : Group → Prop} {rule : LaneRule} (lat src : Arith → Nat)
    (f : Group → Issue → Arith → Nat → Dword → Dword → Dword → Res)
    (hex : ∀ s q g h a, Issues s (mk h a) q g → exec (mk h a) s =
      .next ((issueX s q g h).arith sp a (lat a) (src a) fun m u v w => f g q a (source h q g m) u v w))
    (hwf : ∀ h a, (mk h a).wf = true → sp.wf h a = true)
    (hdst : (∀ t, ∃ w, sp.dst t = .dst w ∧ (w = 1 ∨ w = 2)) ∨
      ((∀ t, sp.dst t = .pdst) ∧ ∀ g q h a m, sp.wf h a = true → ∃ b,
        (f g q a m (a.vals sp g m).1 (a.vals sp g m).2.1 (a.vals sp g m).2.2).val = bool64 b))
    (hq : quietIn pre f)
    (hrule : ∀ g q h a m, sp.wf h a = true → rule g q m a (a.vals sp g m).1 (a.vals sp g m).2.1 (a.vals sp g m).2.2
      (f g q a m (a.vals sp g m).1 (a.vals sp g m).2.1 (a.vals sp g m).2.2).val
      (f g q a m (a.vals sp g m).1 (a.vals sp g m).2.1 (a.vals sp g m).2.2).fl) :
    Computes mk sp pre rule := by
  intro s q g h a hi hw hp
  let r (m : Nat) : Res := f g q a m (a.vals sp g m).1 (a.vals sp g m).2.1 (a.vals sp g m).2.2
  let res (l : Nat) : Res := r (source h q g l)
  have hwf' := hwf h a hw
  have hd : (sp.dst a.ty).ok h.u a.d = true := by
    unfold ArithSpec.wf at hwf'
    simp only [Bool.and_eq_true] at hwf'
    exact hwf'.1.2
  have hres : ∀ l, res l = (let m := source h q g l; let v := a.vals sp g m
      (fun m u v w => f g q a (source h q g m) u v w) m v.1 v.2.1 v.2.2) := by
    intro l; show r _ = _; simp only [source_source]; rfl
  have hl : landsOk h q g (sp.dst a.ty).width a.d res := by
    rcases hdst with hdst | ⟨hdst, hb⟩
    · obtain ⟨w, e, hw12⟩ := hdst a.ty
      rw [e] at hd ⊢
      exact landsOk_dst hd hw12 r
    · rw [hdst a.ty] at hd ⊢
      have e : ∀ l, res l = { val := bool64 ((res l).val.getLsbD 0), fl := (res l).fl } := by
        intro l
        obtain ⟨b, hb⟩ := hb g q h a (source h q g l) hwf'
        have hv : (res l).val = bool64 b := hb
        rw [hv]
        have : (bool64 b).getLsbD 0 = b := by cases b <;> rfl
        rw [this, ← hv]
      have e2 : res = fun l => { val := bool64 ((res l).val.getLsbD 0), fl := (res l).fl } := funext e
      rw [e2]
      exact landsOk_pdst hd (fun l => (res l).val.getLsbD 0) fun l => (res l).fl
  have ht : fpTraps g.sys.fpctl (laneList (acts h q g)) (fun l => (res l).fl) = [] :=
    hq.traps hp _ _ fun l => ⟨q, a, source h q g l, _, _, _, rfl⟩
  have key := X.arith_spec s q g h sp a (lat a) (src a) (fun m u v w => f g q a (source h q g m) u v w) res hres hl ht
  refine ⟨fun l => (res l).val, fun l => (res l).fl, fun l _ => hrule g q h a (source h q g l) hwf', _, hex s q g h a hi, key.1, ?_, key.2.2⟩
  rw [← unionOf_eq]
  exact key.2.1

/-- The same for an instruction whose meaning issues it and computes. -/
theorem exec_of_withIssue {i : Instr} {h : Hdr} {body : X → State} {s : State} {q : Issue} {g : Group} (he : exec i s = s.withIssue i h body)
    (hi : Issues s i q g) : exec i s = .next (body (issueX s q g h)) := by rw [he]; exact State.withIssue_of_issues hi h body

end Sys2Proof.Machine
end

