-- ==== Sys2Proof/Laws/Memory.lean ====
section
/-! SUPPORT. Every memory operation keeps the canonical form of memory; bytes written read back. -/

namespace Sys2Proof.Machine

open Sys2Proof.Safety

-- The canonical form

theorem canon_putFold (d : Byte) (ks : List Nat) (f : Nat → Nat) (v : Nat → Byte) {m : SMap Byte} (h : SMap.canon d m = true) :
    SMap.canon d (ks.foldl (fun a i => SMap.put d a (f i) (v i)) m) = true := by
  induction ks generalizing m with
  | nil => exact h
  | cons a t ih => exact ih (SMap.canon_put d h _ _)

theorem MemSys.backSector_wf {m : MemSys} (h : Memory.wf m) (line : Nat) (l : L2Line) (sec : Nat) : Memory.wf (m.backSector line l sec) := by
  unfold MemSys.backSector
  split
  · exact canon_putFold _ _ _ _ h
  · exact h

theorem MemSys.backLine_wf {m : MemSys} (h : Memory.wf m) (line : Nat) : Memory.wf (m.backLine line) := by
  unfold MemSys.backLine
  cases m.l2.find line with
  | none => exact h
  | some l =>
    have : ∀ (ks : List Nat) (m : MemSys), Memory.wf m → Memory.wf (ks.foldl (fun a sec => a.backSector line l sec) m) := by
      intro ks; induction ks with
      | nil => exact fun _ h => h
      | cons a t ih => exact fun m hm => ih _ (MemSys.backSector_wf hm line l a)
    exact this (List.range 8) m h

theorem MemSys.touch_wf {m : MemSys} (h : Memory.wf m) (key pa : Nat) : Memory.wf (m.touch key pa) := by
  unfold MemSys.touch
  dsimp only
  cases m.l2.find (pa / 256) with
  | none => exact h
  | some l =>
    dsimp only
    split
    · exact h
    · exact MemSys.backLine_wf h _

theorem MemSys.write1_wf {m : MemSys} (h : Memory.wf m) (key pa : Nat) (b : Byte) : Memory.wf (m.write1 key pa b) := by
  have ht := MemSys.touch_wf h key pa
  unfold MemSys.write1
  dsimp only
  cases (m.touch key pa).l2.find (pa / 256) <;> exact ht

theorem MemSys.write_wf {m : MemSys} (h : Memory.wf m) (key pa : Nat) (bs : List Byte) : Memory.wf (m.write key pa bs) := by
  induction bs generalizing m pa with
  | nil => exact h
  | cons b t ih => exact ih (MemSys.write1_wf h key pa b) (pa + 1)

/-- What keeps the form one by one keeps it over a list. -/
theorem MemSys.foldl_wf {f : MemSys → Nat → MemSys} (hf : ∀ m i, Memory.wf m → Memory.wf (f m i)) (l : List Nat) {m : MemSys} (h : Memory.wf m) :
    Memory.wf (l.foldl f m) := by
  induction l generalizing m with
  | nil => exact h
  | cons a t ih => exact ih (hf _ _ h)

theorem MemSys.through_wf {m : MemSys} (h : Memory.wf m) (pa n : Nat) : Memory.wf (m.through pa n) := by
  unfold MemSys.through
  split
  · exact h
  · refine MemSys.foldl_wf (fun m i hm => ?_) _ h
    split
    · exact MemSys.backLine_wf hm _
    · exact hm

theorem MemSys.claim_wf {m : MemSys} (h : Memory.wf m) (key pa : Nat) : Memory.wf (m.claim key pa) := by
  unfold MemSys.claim
  split
  · split
    · exact h
    · exact MemSys.touch_wf h key pa
  · exact h

theorem MemSys.claims_wf {m : MemSys} (h : Memory.wf m) (key pa n : Nat) : Memory.wf (m.claims key pa n) := by
  unfold MemSys.claims
  split
  · exact h
  · exact MemSys.foldl_wf (fun m i hm => MemSys.claim_wf hm key _) _ h

theorem walkClaims_wf (va lvl table : Nat) {m : MemSys} (h : Memory.wf m) : Memory.wf (walkClaims va lvl table m) := by
  induction lvl generalizing table m with
  | zero =>
    unfold walkClaims
    dsimp only
    split
    · exact h
    · exact MemSys.claims_wf h ..
  | succ l ih =>
    unfold walkClaims
    dsimp only
    split
    · exact h
    · split
      · exact ih _ (MemSys.claims_wf h ..)
      · exact MemSys.claims_wf h ..

/-- Memory is in canonical form. -/
def State.MemOk (s : State) : Prop := Memory.wf s.msys

/-- The write-back of the lines that move at a change of the slice map (R313). -/
theorem MemSys.backMoving_wf {m : MemSys} (h : Memory.wf m) : Memory.wf m.backMoving := by
  unfold MemSys.backMoving
  have : ∀ (l : List (Nat × L2Line)) (m : MemSys), Memory.wf m → Memory.wf (l.foldl (fun m l => m.backLine l.1) m) := by
    intro l
    induction l with
    | nil => exact fun m h => h
    | cons a t ih => exact fun m h => ih _ (MemSys.backLine_wf h a.1)
  exact this _ m h

theorem State.memOk_of_msys {s t : State} (h : s.MemOk) (e : t.msys = s.msys) : t.MemOk := by unfold State.MemOk; rw [e]; exact h

theorem State.memOk_ite {c : Prop} [Decidable c] {s t : State} (h : s.MemOk) (k : t.MemOk) : (if c then s else t).MemOk := by
  split <;> assumption

theorem State.homeWrite_memOk {s : State} (h : s.MemOk) (key pa : Nat) (bs : List Byte) : (s.homeWrite key pa bs).MemOk :=
  MemSys.through_wf (MemSys.write_wf (m := s.msys.mend pa bs.length) h key pa bs) pa bs.length

theorem State.homeRead_memOk {s : State} (h : s.MemOk) (key pa n : Nat) : (s.homeRead key pa n).2.MemOk := MemSys.claims_wf h key pa n

@[simp] theorem State.fillTlb_msys (s : State) (core asid va : Nat) (t : TlbEntry) : (s.fillTlb core asid va t).msys = s.msys := rfl

theorem State.walkXlate_memOk {s : State} (h : s.MemOk) (core : Nat) (sp : Space) (acc : Access) (ok : Nat → Bool) (va : Nat) :
    (s.walkXlate core sp acc ok va).1.MemOk := by
  have hc : (s.modMsys (walkClaims va 3 sp.root)).MemOk := walkClaims_wf va 3 sp.root h
  unfold State.walkXlate
  dsimp only
  split
  · exact hc
  · exact hc
  · split
    · exact hc
    · exact State.memOk_of_msys (State.memOk_ite hc (State.homeWrite_memOk hc ..)) rfl

theorem State.xlate_memOk {s : State} (h : s.MemOk) (core : Nat) (sp : Space) (acc : Access) (ok : Nat → Bool) (va : Nat) :
    (s.xlate core sp acc ok va).1.MemOk := by
  unfold State.xlate
  split
  · exact h
  · dsimp only
    split
    · exact State.walkXlate_memOk h ..
    · split
      · exact h
      · split
        · exact State.walkXlate_memOk h ..
        · exact h

theorem State.vbyte_memOk {s : State} (h : s.MemOk) (core : Nat) (sp : Space) (va : Nat) : (s.vbyte core sp va).1.MemOk := by
  have hx := State.xlate_memOk h core sp .read normalOnly va
  unfold State.vbyte
  split
  · next e => rw [e] at hx; exact hx
  · next e =>
    rw [e] at hx
    split
    · exact hx
    · split
      · exact hx
      · exact MemSys.claim_wf hx _ _

theorem State.vbytes_memOk {s : State} (h : s.MemOk) (core : Nat) (sp : Space) (va n : Nat) : (s.vbytes core sp va n).1.MemOk := by
  induction n generalizing s va with
  | zero => exact h
  | succ n ih =>
    have hx := State.vbyte_memOk h core sp va
    unfold State.vbytes
    split
    · next e => rw [e] at hx; exact hx
    · next e =>
      rw [e] at hx
      have hy := ih hx (va + 1)
      split <;> next e' => rw [e'] at hy; exact hy

theorem State.vwrite_memOk {s : State} (h : s.MemOk) (core : Nat) (sp : Space) (va : Nat) (bs : List Byte) :
    (s.vwrite core sp va bs).1.MemOk := by
  induction bs generalizing s va with
  | nil => exact h
  | cons b t ih =>
    have hx := State.xlate_memOk h core sp .write normalOnly va
    unfold State.vwrite
    split
    · next e => rw [e] at hx; exact hx
    · next e =>
      rw [e] at hx
      split
      · refine ih ?_ (va + 1)
        exact State.homeWrite_memOk hx _ _ _
      · exact hx

@[simp] theorem State.modSpad_msys (s : State) (core : Nat) (f : Spad → Spad) : (s.modSpad core f).msys = s.msys := rfl

theorem State.spIncoming_memOk {s : State} (h : s.MemOk) (dst off : Nat) (bs : List Byte) (alloc gen tag issued arrived : Nat) :
    (s.spIncoming dst off bs alloc gen tag issued arrived).1.MemOk := by
  unfold State.spIncoming; split <;> exact h

-- Reading after writing at the home slice

/-- The line of an address is held under the key of the last access to it. -/
theorem MemSys.touch_held (m : MemSys) (key pa : Nat) : ∃ l, (m.touch key pa).l2.find (pa / 256) = some l ∧ l.key = key := by
  unfold MemSys.touch
  dsimp only
  cases h : m.l2.find (pa / 256) with
  | none => exact ⟨_, SMap.find_ins_self .., rfl⟩
  | some l =>
    dsimp only
    split
    · next e => exact ⟨l, h, e⟩
    · exact ⟨_, SMap.find_ins_self .., rfl⟩

/-- An access under the key that holds the line changes nothing. -/
theorem MemSys.touch_of_held {m : MemSys} {key pa : Nat} {l : L2Line} (h : m.l2.find (pa / 256) = some l) (hk : l.key = key) :
    m.touch key pa = m := by
  unfold MemSys.touch
  simp only [h, hk, if_true]

/-- A byte written under a key reads back under it. -/
theorem MemSys.byte_write1_self (m : MemSys) (key pa : Nat) (b : Byte) : (m.write1 key pa b).byte key pa = b := by
  obtain ⟨l, hl, hk⟩ := MemSys.touch_held m key pa
  have hw : m.write1 key pa b =
      { m.touch key pa with l2 := (m.touch key pa).l2.ins (pa / 256) { l with data := l.data.ins (pa % 256) b } } := by
    unfold MemSys.write1; simp only [hl]
  have hf : (m.write1 key pa b).l2.find (pa / 256) = some { l with data := l.data.ins (pa % 256) b } := by rw [hw]; exact SMap.find_ins_self ..
  unfold MemSys.byte
  rw [MemSys.touch_of_held hf hk]
  unfold MemSys.lineByte
  rw [hf]
  simp

end Sys2Proof.Machine
end

