-- ==== Sys2Proof/Laws/Time.lean ====
section
/-! SUPPORT. Laws of the clock and of entry addresses. -/

namespace Sys2Proof.Machine

/-- A time counted in units of 1 / (12 * 10^9) ns advances by the rate alone. -/
theorem timeAfter_units (ns frac k : Nat) (adj : Int) :
    (timeAfter ns frac k adj).1 * nsUnit + (timeAfter ns frac k adj).2 = ns * nsUnit + frac + k * ((10 ^ 9 : Int) + adj).toNat := by
  have h := Nat.div_add_mod (frac + k * ((10 ^ 9 : Int) + adj).toNat) nsUnit
  simp only [timeAfter, Nat.add_mul]
  rw [Nat.mul_comm nsUnit] at h
  omega

/-- The fraction is one. -/
theorem timeAfter_frac (ns frac k : Nat) (adj : Int) : (timeAfter ns frac k adj).2 < nsUnit := Nat.mod_lt _ (by decide)

@[simp] theorem Clock.advance_cc (c : Clock) : c.advance.cc = c.cc + 1 := rfl
@[simp] theorem Clock.advance_mode (c : Clock) : c.advance.mode = c.mode := rfl
@[simp] theorem Clock.advance_modePending (c : Clock) : c.advance.modePending = c.modePending := rfl
@[simp] theorem Clock.advance_ticks (c : Clock) : c.advance.ticks = c.ticks := rfl
@[simp] theorem Clock.advance_adj (c : Clock) : c.advance.adj = c.adj := rfl
@[simp] theorem Clock.advance_copyAdj (c : Clock) : c.advance.copyAdj = c.copyAdj := rfl

/-- An address that an entry goes to is a multiple of 4 (R60). -/
theorem entryPc_aligned (x : Dword) : (entryPc x).toNat % 4 = 0 := by
  have h : (entryPc x).extractLsb' 0 2 = 0 := by
    ext i hi
    have : i = 0 ∨ i = 1 := by omega
    rcases this with rfl | rfl <;> simp [entryPc]
  have := congrArg BitVec.toNat h
  simpa [BitVec.extractLsb'] using this

end Sys2Proof.Machine
end

