-- ==== Sys2Proof/Laws/Values.lean ====
section
/-! SUPPORT. Laws of values: packed results, integers wrapped and clamped, bits, pixels and comparisons, as the rules of Safety.Values say them. -/

namespace Sys2Proof.Machine
open Sys2Proof.Safety

theorem packed_fst_aux (w : Nat) (f : Nat → Nat × Fl) (n : Nat) :
    (packed w n f).1 < 2 ^ (w * n) ∧ (∀ e, e < n → elem w e (packed w n f).1 = (f e).1 % 2 ^ w) ∧
    (packed w n f).2 = flagsOf (List.range n) fun e => (f e).2 := by
  induction n with
  | zero => simp [packed, flagsOf]
  | succ n ih =>
    obtain ⟨h1, h2, h3⟩ := ih
    have hs : packed w (n+1) f = ((packed w n f).1 + (f n).1 % 2 ^ w * 2 ^ (w * n), (packed w n f).2 ||| (f n).2) := by
      unfold packed; rw [List.range_succ, List.foldl_append]; rfl
    rw [hs]
    have hp : 0 < 2 ^ w := Nat.two_pow_pos w
    have hpn : 0 < 2 ^ (w * n) := Nat.two_pow_pos _
    have hm : (f n).1 % 2 ^ w < 2 ^ w := Nat.mod_lt _ hp
    refine ⟨?_, ?_, ?_⟩
    · have : 2 ^ (w * (n+1)) = 2 ^ w * 2 ^ (w * n) := by rw [Nat.mul_succ, Nat.pow_add, Nat.mul_comm]
      rw [this]
      calc _ < 2 ^ (w*n) + (f n).1 % 2 ^ w * 2 ^ (w * n) := by simpa using h1
        _ = ((f n).1 % 2^w + 1) * 2 ^ (w*n) := by ring
        _ ≤ _ := Nat.mul_le_mul_right _ hm
    · intro e he
      unfold elem
      rcases Nat.lt_succ_iff_lt_or_eq.mp he with h | h
      · have hsplit : 2 ^ (w * n) = 2 ^ (w * e) * (2 ^ w * 2 ^ (w * (n - e - 1))) := by
          rw [← Nat.pow_add, ← Nat.pow_add]; congr 1
          obtain ⟨k, rfl⟩ : ∃ k, n = e + 1 + k := ⟨n - e - 1, by omega⟩
          have : e + 1 + k - e - 1 = k := by omega
          rw [this]; ring
        have := h2 e h
        unfold elem at this
        dsimp only
        rw [hsplit, show (f n).1 % 2 ^ w * (2 ^ (w * e) * (2 ^ w * 2 ^ (w * (n - e - 1)))) = 2 ^ (w*e) * (2 ^ w * ((f n).1 % 2 ^ w * 2 ^ (w * (n - e - 1)))) by ring,
          Nat.add_mul_div_left _ _ (Nat.two_pow_pos _), Nat.add_mul_mod_self_left, this]
      · subst h
        dsimp only
        rw [Nat.add_mul_div_right _ _ hpn, Nat.div_eq_of_lt h1, Nat.zero_add, Nat.mod_mod]
    · rw [h3, flagsOf, flagsOf, List.range_succ, List.foldl_append]; rfl

theorem elem_eq (w e : Nat) (x : Dword) : elem w e x.toNat = (x.extractLsb' (w * e) w).toNat := by
  simp [elem, Nat.shiftRight_eq_div_pow]

theorem toInt_eq (sg : Bool) (w : Nat) (hw : 0 < w) (b : BitVec w) : toInt sg w b.toNat = intOf sg b := by
  unfold toInt intOf
  have : b.toNat % 2 ^ w = b.toNat := Nat.mod_eq_of_lt b.isLt
  simp only [this]
  cases sg
  · simp
  · rw [if_pos rfl, BitVec.toInt_eq_toNat_cond]
    obtain ⟨k, rfl⟩ : ∃ k, w = k + 1 := ⟨w - 1, by omega⟩
    have h2 : 2 ^ (k+1) = 2 * 2 ^ k := by ring
    simp only [Bool.true_and, Nat.add_sub_cancel, decide_eq_true_eq]
    by_cases h : b.toNat ≥ 2 ^ k
    · rw [if_pos h, if_neg (by omega)]; push_cast; rfl
    · rw [if_neg h, if_pos (by omega)]

theorem wrapInt_eq (w : Nat) (v : Int) : wrapInt w v = (BitVec.ofInt w v).toNat := by
  simp [wrapInt, BitVec.toNat_ofInt]

/-- The element of a packed result. -/
theorem extract_packed (w n : Nat) (hw : w * n ≤ 64) (f : Nat → Nat × Fl) {e : Nat} (he : e < n) :
    ((Res.of (packed w n f)).val.extractLsb' (w * e) w).toNat = (f e).1 % 2 ^ w := by
  obtain ⟨h1, h2, _⟩ := packed_fst_aux w f n
  rw [← elem_eq]
  have : (Res.of (packed w n f)).val.toNat = (packed w n f).1 := by
    show (BitVec.ofNat 64 _).toNat = _
    rw [BitVec.toNat_ofNat, Nat.mod_eq_of_lt]
    exact lt_of_lt_of_le h1 (Nat.pow_le_pow_right (by decide) hw)
  rw [this, h2 e he]

theorem satInt_spec (sg : Bool) (w : Nat) (hw : 0 < w) (v : Int) :
    intOf sg (BitVec.ofNat w (satInt sg w v).1) = max (intMin sg w) (min v (intMax sg w)) ∧
    ((satInt sg w v).2 = decide (max (intMin sg w) (min v (intMax sg w)) ≠ v)) ∧ (satInt sg w v).1 < 2 ^ w := by
  have hlt : ∀ x, wrapInt w x < 2 ^ w := fun x => by rw [wrapInt_eq]; exact BitVec.isLt _
  have hof : ∀ x, BitVec.ofNat w (wrapInt w x) = BitVec.ofInt w x := fun x => by rw [wrapInt_eq]; apply BitVec.eq_of_toNat_eq; rw [BitVec.toNat_ofNat, Nat.mod_eq_of_lt (BitVec.isLt _)]
  obtain ⟨k, rfl⟩ : ∃ k, w = k + 1 := ⟨w - 1, by omega⟩
  have hp : (0 : Int) < 2 ^ k := by positivity
  have h2 : (2 : Int) ^ (k+1) = 2 * 2 ^ k := by ring
  have hle : intMin sg (k+1) ≤ intMax sg (k+1) := by
    unfold intMin intMax; cases sg <;> simp <;> omega
  have hin : ∀ x, intMin sg (k+1) ≤ x → x ≤ intMax sg (k+1) → intOf sg (BitVec.ofInt (k+1) x) = x := by
    intro x h1 h3
    unfold intOf
    cases sg
    · simp only [intMin, intMax, Bool.false_eq_true, if_false] at h1 h3 ⊢
      rw [BitVec.toNat_ofInt, Int.toNat_of_nonneg (Int.emod_nonneg _ (by positivity))]
      apply Int.emod_eq_of_lt h1; push_cast; omega
    · simp only [intMin, intMax, if_true, Nat.add_sub_cancel] at h1 h3 ⊢
      rw [BitVec.toInt_ofInt]
      rw [Int.bmod_eq_of_le]
      · push_cast; rw [h2]; omega
      · push_cast; rw [h2]; omega
  unfold satInt
  simp only
  split
  · rename_i h
    refine ⟨?_, ?_, hlt _⟩
    · rw [hof, hin _ le_rfl hle]; omega
    · simp; omega
  · split
    · rename_i h h'
      refine ⟨?_, ?_, hlt _⟩
      · rw [hof, hin _ hle le_rfl]; omega
      · simp; omega
    · rename_i h h'
      refine ⟨?_, ?_, hlt _⟩
      · rw [hof, hin _ (by omega) (by omega)]; omega
      · simp; omega

theorem intShape_bounds (t : Ty) : 0 < elemWidth t ∧ elemWidth t * elemCount t ≤ 64 := by cases t <;> simp [elemWidth, elemCount, intShape]

theorem flagsOf_any (n : Nat) (p : Nat → Bool) : flagsOf (List.range n) (fun e => flIf (p e) flISAT) = if (List.range n).any p then flISAT else 0 := by
  have aux : ∀ (ls : List Nat) (a : Fl), (a = 0 ∨ a = flISAT) → ls.foldl (fun a l => a ||| flIf (p l) flISAT) a = if a = flISAT ∨ ls.any p = true then flISAT else 0 := by
    intro ls
    induction ls with
    | nil => intro a ha; rcases ha with rfl | rfl <;> simp [flISAT]
    | cons x t ih =>
      intro a ha
      rw [List.foldl_cons, ih _ (by rcases ha with rfl | rfl <;> cases p x <;> simp [flIf, flISAT])]
      rcases ha with rfl | rfl <;> cases hp : p x <;> simp [flIf, flISAT, hp]
  unfold flagsOf
  rw [aux _ _ (.inl rfl)]
  simp [flISAT]

theorem intOp_rule (f : Nat → Int → Int → Int → Int) (g : Group) (q : Issue) (m : Nat) (a : Arith) (u v w : Dword) :
    integerRule f g q m a u v w (intOp a.ty a.sat f u v w).val (intOp a.ty a.sat f u v w).fl := by
  obtain ⟨hw0, hwn⟩ := intShape_bounds a.ty
  have hel : ∀ e x, toInt (intShape a.ty).1 (elemWidth a.ty) (elem (elemWidth a.ty) e (x : Dword).toNat) = element a.ty e x := by
    intro e x; rw [elem_eq, toInt_eq _ _ hw0]; rfl
  let x (e : Nat) : Int := f (elemWidth a.ty) (element a.ty e u) (element a.ty e v) (element a.ty e w)
  have hop : intOp a.ty a.sat f u v w = Res.of (packed (elemWidth a.ty) (elemCount a.ty) fun e => narrow a.sat (intShape a.ty).1 (elemWidth a.ty) (x e)) := by
    unfold intOp
    show Res.of (packed (elemWidth a.ty) (elemCount a.ty) _) = _
    congr 2
    funext e
    show narrow a.sat (intShape a.ty).1 (elemWidth a.ty) (f (elemWidth a.ty) (toInt (intShape a.ty).1 (elemWidth a.ty) (elem (elemWidth a.ty) e u.toNat)) (toInt (intShape a.ty).1 (elemWidth a.ty) (elem (elemWidth a.ty) e v.toNat)) (toInt (intShape a.ty).1 (elemWidth a.ty) (elem (elemWidth a.ty) e w.toNat))) = _
    rw [hel e u, hel e v, hel e w]
  have hcl : ∀ y, clamp a.ty y = max (intMin (intShape a.ty).1 (elemWidth a.ty)) (min y (intMax (intShape a.ty).1 (elemWidth a.ty))) := fun _ => rfl
  rw [hop]
  refine ⟨fun e he => ?_, ?_⟩
  · have hx := extract_packed (elemWidth a.ty) (elemCount a.ty) hwn (fun e => narrow a.sat (intShape a.ty).1 (elemWidth a.ty) (x e)) he
    have hval : ((Res.of (packed (elemWidth a.ty) (elemCount a.ty) fun e => narrow a.sat (intShape a.ty).1 (elemWidth a.ty) (x e))).val.extractLsb' (elemWidth a.ty * e) (elemWidth a.ty)) =
        BitVec.ofNat _ (narrow a.sat (intShape a.ty).1 (elemWidth a.ty) (x e)).1 := by
      apply BitVec.eq_of_toNat_eq; rw [hx, BitVec.toNat_ofNat]
    by_cases hs : a.sat = true
    · rw [if_pos hs]
      unfold element
      rw [hval]
      rw [hs]
      exact (satInt_spec _ _ hw0 _).1
    · rw [if_neg hs, hval]
      rw [Bool.not_eq_true] at hs; rw [hs]
      show BitVec.ofNat _ (wrapInt _ _) = _
      apply BitVec.eq_of_toNat_eq; rw [wrapInt_eq, BitVec.toNat_ofNat, Nat.mod_eq_of_lt (BitVec.isLt _)]
  · show (packed _ _ _).2 = _
    rw [(packed_fst_aux _ _ _).2.2]
    by_cases hs : a.sat = true
    · simp only [narrow, hs, if_true, (satInt_spec _ _ hw0 _).2.1, Bool.true_and]
      rw [flagsOf_any]
      congr 1
      simp only [hcl, x]
      congr 2; funext e; simp [bne, decide_not, beq_eq_decide]
    · have h0 : ∀ e, (narrow a.sat (intShape a.ty).1 (elemWidth a.ty) (x e)).2 = flIf false flISAT := by intro e; simp [narrow, hs, flIf]
      simp only [h0]
      rw [flagsOf_any]; simp [hs]

theorem intOp_low (t : Ty) (sat : Bool) (f : Nat → Int → Int → Int → Int) (u v w : Dword) (i : Nat) (hi : i < 5) : (intOp t sat f u v w).fl.getLsbD i = false := by
  have h : (intOp t sat f u v w).fl = _ := (packed_fst_aux _ _ _).2.2
  rw [h]
  have aux : ∀ (ls : List Nat) (p : Nat → Fl) (x : Fl), x.getLsbD i = false → (∀ e, (p e).getLsbD i = false) → (ls.foldl (fun a l => a ||| p l) x).getLsbD i = false := by
    intro ls p
    induction ls with
    | nil => intro x hx _; exact hx
    | cons y t ih => intro x hx hp; rw [List.foldl_cons]; exact ih _ (by rw [BitVec.getLsbD_or, hx, hp]; rfl) hp
  refine aux _ _ _ (by simp) fun e => ?_
  have hz : ∀ b : Bool, (flIf b flISAT).getLsbD i = false := by intro b; cases b <;> interval_cases i <;> decide
  cases sat
  · simp [narrow]
  · exact hz _

end Sys2Proof.Machine
end

