-- ==== Sys2Proof/Tests/Bench.lean ====
section
/-! SUPPORT. The bench of the tests: small states in which one instruction is issued, and one well-formed instruction of every kind. -/

namespace Sys2Proof.Tests

open Sys2Proof.Machine
open Sys2Proof.Safety

-- States

def tInfo : GInfo :=
  { kind := .role, ctx := 1, core := 0, part := 0, place := 0, wg := 1, launch := 1, role := 0, width := 64, budget := 384, fair := 64,
    prio := 0, wid := none }

/-- A user group of 64 lanes; a supervisor group in its handler; a responder; a group in the debug agent. -/
def tUser : Group := freshGroup tInfo 0x1000 [] 0
def tSuper : Group := freshGroup { tInfo with kind := .super } 0x1000 [] 0
def tReply : Group := freshGroup { tInfo with kind := .responder 2048 false } 0x1000 [] 0
def tAgent : Group := { tUser with sys := { tUser.sys with debug := true } }

def tIssue : Issue := { gid := 7, lanes := fullLanes 64, pc := 0x1000, resume := none }

def tWg : Workgroup := { ctx := 1, core := 0, launch := 1, team := 0, member := 0, members := [(0, 1)], alloc := 1, groups := [7], ended := false }
def tAlloc : Alloc := { core := 0, base := 0, size := 4096, gen := 1, wg := 1, released := none }

/-- The entry of a 1 GiB page of type 0 at address 0, read, written and fetched in user mode, accessed and dirty. -/
def tPte : Dword := BitVec.ofNat 64 (2 ^ 55 + 2 ^ 11 + 2 ^ 9 + 2 ^ 8 + 2 ^ 7 + 2 ^ 6 + 5 * 2 + 1)

def tCore : Core := { Core.reset with tlb := [{ va := 0, size := 2 ^ 30, asid := 0, glob := false, pte := tPte, ptePa := 0x2000 }] }

/-- Nothing is due, one workgroup with 4 KiB of scratchpad lives on core 0, whose TLB maps the first GiB to itself. -/
def tState : State := { State.reset with events := [], wgs := [(1, tWg)], allocs := [(1, tAlloc)], cores := [(0, tCore)] }

/-- Group 7 issues in a state. -/
def State.issuing (s : State) (g : Group) (q : Issue) : State := { s with groups := [(7, g)], cur := some q }

abbrev tRun : State := State.issuing tState tUser tIssue

/-- The instruction in progress passes the checks that the state decides. -/
def issuable (g : Group) (i : Instr) : Bool := !breaksBudget g.info.budget i && g.privOk i

theorem issues_of {g : Group} {i : Instr} (s : State) (h : issuable g i = true) : Issues (State.issuing s g tIssue) i tIssue g := by
  unfold issuable at h
  simp only [Bool.and_eq_true, Bool.not_eq_true'] at h
  exact ⟨rfl, rfl, rfl, h.1, h.2⟩

/-- A resumed instruction. -/
def tWait (w : Wait) : Issue := { tIssue with resume := some w }

theorem resumes_of {g : Group} {i : Instr} (s : State) (w : Wait) (h : issuable g i = true) :
    Resumes (State.issuing s g (tWait w)) i (tWait w) w g := by
  unfold issuable at h
  simp only [Bool.and_eq_true, Bool.not_eq_true'] at h
  exact ⟨rfl, rfl, rfl, h.1, h.2⟩

-- Instructions

def tH : Hdr := { len := .w64, u := false, gp := 7, gn := false }
def tA (ty : Ty) (n : Nat) : Arith :=
  { ty := ty, rnd := .rne, sat := false, sub := 0, d := .v 0, a := .reg (.v 2), b := if n < 2 then .none else .reg (.v 4)
    c := if n < 3 then .none else .reg (.v 6) }
def tM : MemArg := { size := .b32, scope := .none, order := .rlx, nf := false, sx := false, off := .o10 0, base := .s 4, d := none, b := none }
def tH3 : Hdr := { tH with len := .w96 }

def tInstrs0 : List Instr :=
  [.nop tH, .bra tH (.rel20 4), .brany tH 1 (.rel20 4), .brall tH 1 (.rel20 4), .call tH (.v 2) (.rel20 4), .ret tH (.v 2),
   .jmp tH (.v 2) 1, .exit tH, .yield tH, .wait tH 0 1 2 3]
def tInstrs1 : List Instr :=
  [.pset tH { tA .b32 1 with d := .p 0 }, .pand tH { tA .b32 2 with d := .p 0, a := .reg (.p 1), b := .reg (.p 2) },
   .por tH { tA .b32 2 with d := .p 0, a := .reg (.p 1), b := .reg (.p 2) },
   .pxor tH { tA .b32 2 with d := .p 0, a := .reg (.p 1), b := .reg (.p 2) }, .pnot tH { tA .b32 1 with d := .p 0, a := .reg (.p 1) },
   .iadd tH (tA .i32 2), .isub tH (tA .i32 2), .imul tH (tA .i32 2), .imulhi tH (tA .i32 2), .imad tH3 (tA .i32 3)]
def tInstrs2 : List Instr :=
  [.imin tH (tA .i32 2), .imax tH (tA .i32 2), .iabs tH (tA .i32 1), .ineg tH (tA .i32 1), .and tH (tA .b32 2), .or tH (tA .b32 2),
   .xor tH (tA .b32 2), .not tH (tA .b32 1), .andn tH (tA .b32 2), .shl tH (tA .b32 2)]
def tInstrs3 : List Instr :=
  [.shr tH (tA .b32 2), .sar tH (tA .i32 2), .rol tH (tA .b32 2), .ror tH (tA .b32 2), .popc tH (tA .b32 1), .clz tH (tA .b32 1),
   .brev tH (tA .b32 1), .bfe tH (tA .n32 2), .bfi tH3 (tA .b32 3), .sel tH3 { tA .b32 3 with c := .reg (.p 1) }]
def tInstrs4 : List Instr :=
  [.icmp tH { tA .i32 2 with d := .p 0 }, .lea tH (tA .n32 2), .mov tH (tA .b32 1), .pxext tH (tA .p10 2), .pxins tH3 (tA .p12 3),
   .pxavg tH (tA .n8x4 2), .pxabd tH (tA .n8x4 2), .pxsad tH3 (tA .n8x4 3), .pxclp tH3 (tA .n8x4 3), .pxnrm tH3 (tA .n16x2 3)]
def tInstrs5 : List Instr :=
  [.pxdot tH3 (tA .n8x4 3), .fadd tH (tA .f32 2), .fsub tH (tA .f32 2), .fmul tH (tA .f32 2), .ffma tH3 (tA .f32 3),
   .fmin tH (tA .f32 2), .fmax tH (tA .f32 2), .fabs tH (tA .f32 1), .fneg tH (tA .f32 1), .fcmp tH { tA .f32 2 with d := .p 0 }]
def tInstrs6 : List Instr :=
  [.fclass tH (tA .f32 1), .frcp tH (tA .f32 1), .frsq tH (tA .f32 1), .fex2 tH (tA .f32 1), .flg2 tH (tA .f32 1),
   .fsin tH (tA .f32 1), .fcos tH (tA .f32 1),
   .cvt tH { dty := .f32, sty := .i32, rnd := .rne, elem := 0, d := .v 0, a := .reg (.v 2), b := .none },
   .cvpk tH { dty := .f16x2, sty := .f32, rnd := .rne, elem := 0, d := .v 0, a := .reg (.v 2), b := .reg (.v 4) },
   .shfl tH (tA .b32 2)]
def tInstrs7 : List Instr :=
  [.vote tH { tA .b32 1 with d := .p 0, a := .reg (.p 1) }, .ballot tH { tA .b64 1 with a := .reg (.p 1) }, .red tH (tA .i32 1),
   .scan tH (tA .i32 1), .ld tH { tM with d := some (.v 0) }, .st tH { tM with b := some (.v 2) },
   .lds tH { tM with d := some (.v 0) }, .sts tH { tM with b := some (.v 2) }, .ldfeKeep tH { tM with d := some (.v 0) },
   .ldfeClear tH { tM with d := some (.v 0) }]
def tInstrs8 : List Instr :=
  [.stfeKeep tH { tM with b := some (.v 2) }, .stfeClear tH { tM with b := some (.v 2) }, .pref tH { tM with size := .b8 },
   .fence tH .dev .acq, .atomAdd tH { tM with scope := .dev, b := some (.v 2) },
   .atomMin tH { tM with scope := .dev, b := some (.v 2) }, .atomMax tH { tM with scope := .dev, b := some (.v 2) },
   .atomAnd tH { tM with scope := .dev, b := some (.v 2) }, .atomOr tH { tM with scope := .dev, b := some (.v 2) },
   .atomXor tH { tM with scope := .dev, b := some (.v 2) }]
def tInstrs9 : List Instr :=
  [.atomExch tH { tM with scope := .dev, b := some (.v 2) }, .atomCas tH { tM with scope := .dev, b := some (.v 2) },
   .cpy tH { tmpl := 1, handle := 2, chan := 3, d := none, a := .v 2, b := none },
   .cpyMc tH { tmpl := 1, handle := 2, chan := 3, d := none, a := .v 2, b := some (.v 4) }, .hwaitFull tH (.v 0) 3,
   .hwaitEmpty tH (.v 0) 3, .hsetBind tH 3 1 (.v 2) (.v 3), .hsetFull tH 3, .hrel tH 3, .tset tH 5 (.v 2)]
def tInstrs10 : List Instr :=
  [.tget tH 5 (.v 2), .tinv tH 5, .mxb tH 5 false none (.s 2), .mxa tH 5 false true (some 2) (.spad (.s 2)),
   .mxa tH 5 true false none (.regs 1 true 8), .mxfence tH, .mxwait tH 2, .mxdrain tH 5 false true (.s 2),
   .mxdrainAdd tH 5 true false (.s 2), .mxzero tH false true]
def tInstrs11 : List Instr :=
  [.barG tH, .barArr tH 0 3 (some (.v 0)), .barWait tH 0 3 (.v 2), .barSync tH 0 3, .sbcast tH 2 false (.v 2), .sbrecv tH 2 (.v 2),
   .chsend tH 3 (.v 2), .chrecv tH 3 (.v 2), .mbput tH true (.v 2) (.v 4), .mbget tH true (.v 2) (.v 4)]
def tInstrs12 : List Instr :=
  [.dirins tH true (.v 1) (.v 2) (.v 4), .dirdel tH (.v 2), .tmove tH (.v 1) (.v 2) (.v 4), .solicit tH 0 (.v 1) 8, .reply tH (.v 2),
   .census tH (.v 2) (.v 4), .cenpoll tH 1 (.v 2), .nrec tH (.v 2) (.v 4), .sys tH 5, .svqpop tH 16]
def tInstrs13 : List Instr :=
  [.sysret tH (.v 2) (.v 4), .iret tH, .sysrd tH 0x010 (.v 2), .trapqPop tH (.v 2), .syswr tH 0x002 (.v 2), .trapretWrite tH (.v 2),
   .ipiWrite tH (.v 2), .wdogWrite tH (.v 2), .smapStageWrite tH (.v 2), .oemodeWrite tH (.v 2)]
def tInstrs14 : List Instr :=
  [.laneCounterClear tH true (.v 2), .tlbinv tH .page true (some (.v 2)) (some (.v 4)), .tlbinv tH .all true none none,
   .cwb tH (some (.v 2)), .cinv tH true (some (.v 2)), .launch tH (.v 1) (.v 2), .halt tH, .tmset tH true (.v 2),
   .sread tH3 { grant := 1, kind := .spad, tmpl := none, fua := false, handle := 0, d := none, a := .v 2, b := .v 4, c := .v 5 },
   .swrite tH3 { grant := 1, kind := .spad, tmpl := none, fua := false, handle := 0, d := none, a := .v 2, b := .v 4, c := .v 5 }]
def tInstrs15 : List Instr :=
  [.nsend tH { ep := 3, d := none, a := .v 2, b := none }, .nrecv tH (.v 1) (.v 2) (.v 4), .brk tH 7, .dbgret tH true false]

/-- One well-formed instruction of every kind that is issued. -/
def tInstrs : List Instr :=
  tInstrs0 ++ tInstrs1 ++ tInstrs2 ++ tInstrs3 ++ tInstrs4 ++ tInstrs5 ++ tInstrs6 ++ tInstrs7 ++
  tInstrs8 ++ tInstrs9 ++ tInstrs10 ++ tInstrs11 ++ tInstrs12 ++ tInstrs13 ++ tInstrs14 ++ tInstrs15

/-- Every instruction of the list is well-formed and issues in one of the groups. -/
theorem tInstrs_issue : tInstrs.all (fun i => i.wf && (issuable tUser i || issuable tSuper i || issuable tReply i || issuable tAgent i)) = true := by
  decide +kernel

end Sys2Proof.Tests
end

