-- ==== Sys2Proof/Tests/Slice0.lean ====
section
/-! SUPPORT. Tests of this model's own: ill-formed instructions, words written out from the encoding tables of R59 to R88, and small
executions whose results are worked examples of the specification. -/

namespace Sys2Proof.Tests

-- one theorem after the other: many kernel evaluations at once take too much memory
set_option Elab.async false

open Sys2Proof.Machine
open Sys2Proof.Safety

-- Well-formedness: an ill-formed instruction for each check

def illFormed0 : List Instr :=
  [.bra tH3 (.rel20 4), .call tH .zero (.rel20 4), .ret tH (.v 3), .exit { tH with u := true }, .wait tH3 0 0 0 0, .yield { tH with gn := true },
   .pset tH (tA .b32 1), .pand tH { tA .b32 2 with d := .p 7, a := .reg (.p 1), b := .reg (.p 2) }]
def illFormed1 : List Instr :=
  [.iadd tH (tA .b32 2), .imul tH3 (tA .i32 2), .imad tH (tA .i32 3), .iabs tH (tA .n32 1), .and tH (tA .i32 2), .shl tH { tA .b32 2 with sat := true },
   .sar tH (tA .n32 2), .iadd tH (tA .i64 2 |> fun a => { a with d := .v 1 }), .lea tH { tA .n32 2 with rnd := .rz }]
def illFormed2 : List Instr :=
  [.icmp tH { tA .i32 2 with d := .p 0, sub := 6 }, .pxext tH (tA .i32 2), .pxnrm tH3 { tA .n16x2 3 with sat := true }, .fadd tH (tA .i32 2),
   .ffma tH (tA .f32 3), .fcmp tH { tA .f32 2 with d := .v 0 }, .frcp tH (tA .f16 1), .cvt tH { dty := .f32, sty := .f32, rnd := .rne, elem := 0, d := .v 0, a := .reg (.v 2), b := .none },
   .shfl tH { tA .b32 2 with sub := 4 }]
def illFormed3 : List Instr :=
  [.ld tH { tM with d := some (.v 0), order := .acq }, .ld tH { tM with d := some (.v 1), size := .b64 }, .ld tH { tM with d := some (.v 0), sx := true },
   .st tH tM, .lds tH { tM with base := .l 0, d := some (.v 0) }, .pref tH { tM with d := some (.v 0) }, .fence tH .none .acq, .fence tH .dev .rlx,
   .atomAdd tH { tM with scope := .dev, d := some (.v 0), b := some (.v 2) }]
def illFormed4 : List Instr :=
  [.hsetBind tH 3 0 (.v 2) (.v 3), .tset tH 5 (.v 3), .mxa tH 5 true false none (.regs 1 true 6), .mxzero tH true true, .barSync tH 1 16, .sbrecv tH 2 (.o 0),
   .solicit tH 7 (.v 1) 8, .solicit tH 0 (.v 1) 61, .cenpoll tH 7 (.v 2), .mbput tH true (.l 0) (.v 4)]
def illFormed5 : List Instr :=
  [.sys { tH with u := true } 5, .svqpop tH 8, .sysrd tH 0x3FF (.v 2), .syswr tH 0x00F (.v 2), .cinv tH true none, .tlbinv tH .page true none none,
   .sread tH { grant := 1, kind := .spad, tmpl := none, fua := false, handle := 0, d := none, a := .v 2, b := .v 4, c := .v 5 }, .nop { tH with len := .w96 },
   .bra { tH with gn := true } (.rel20 4)]

theorem test_wf_refuses : (illFormed0 ++ illFormed1 ++ illFormed2 ++ illFormed3 ++ illFormed4 ++ illFormed5).filter (·.wf) = [] := by decide +kernel

-- Words, field by field (R63): CLASS, B, A, D, OP; guard P7, U = 0, length 64

def tWord (cls b a d op : Nat) : Nat := cls * 2 ^ 44 + b * 2 ^ 35 + a * 2 ^ 26 + d * 2 ^ 17 + 7 * 2 ^ 13 + op * 2 ^ 3 + 1

/-- R84: OFFSET −1. -/
theorem test_decode_control : decodeTableWord 64 (tWord 0xFFFFF 0 0 0 0x002) = some (.bra tH (.rel20 0xFFFFF)) := by decide

/-- R78, R79: TYPE 0x0B, SAT; A = V4, B = S1 (405), D = V3. -/
theorem test_decode_integer : decodeTableWord 64 (tWord (0x0B * 2 ^ 15 + 2 ^ 12) 405 4 3 0x040) =
    some (.iadd tH { ty := .i8x4, rnd := .rne, sat := true, sub := 0, d := .v 3, a := .reg (.v 4), b := .reg (.s 1), c := .none }) := by decide

/-- R125: TYPE 0x0A, IM = 1, and the parameter in the imm32 of the 96-bit form. -/
theorem test_decode_pixel : decodeTableWord 96 (0x00040800 * 2 ^ 64 + tWord (0x0A * 2 ^ 15 + 2 ^ 11) 4 2 0 0x106 + 1) =
    some (.pxnrm { tH with len := .w96 } { ty := .n16x2, rnd := .rne, sat := false, sub := 0, d := .v 0, a := .reg (.v 2), b := .reg (.v 4), c := .imm32 0x00040800 }) := by
  decide

/-- `ffma.f32.rz V10, L0, S2, O3`, from the notes on encoding. -/
theorem test_decode_float : decodeTableWord 96 (0x0183 * 2 ^ 64 + 0x6A000CB6 * 2 ^ 32 + 0x4014EA1A) =
    some (.ffma { tH with len := .w96 } { ty := .f32, rnd := .rz, sat := false, sub := 0, d := .v 10, a := .reg (.l 0), b := .reg (.s 2), c := .reg (.o 3) }) := by decide

/-- `iadd.i64 V8:V9, V8:V9, #0x0000_0004_0000_0100`, from the notes on encoding. -/
theorem test_decode_imm64 : decodeTableWord 128 (0x4 * 2 ^ 96 + 0x100 * 2 ^ 64 + 0x18800000 * 2 ^ 32 + 0x2010E203) =
    some (.iadd { tH with len := .w128 } { ty := .i64, rnd := .rne, sat := false, sub := 0, d := .v 8, a := .reg (.v 8), b := .imm64 0x400000100, c := .none }) := by decide

/-- R135: TYPE the destination (FP32), IMM7 the source (UINT8, 0x08), SUB the element. -/
theorem test_decode_convert : decodeTableWord 64 (tWord (0x0D * 2 ^ 15 + 3 * 2 ^ 7 + 0x08) 0 2 0 0x1C0) =
    some (.cvt tH { dty := .f32, sty := .n8, rnd := .rne, elem := 3, d := .v 0, a := .reg (.v 2), b := .none }) := by decide

/-- R139: SUB 3 `.xor`. -/
theorem test_decode_cross : decodeTableWord 64 (tWord (3 * 2 ^ 7) 4 2 0 0x200) = some (.shfl tH { tA .b32 2 with sub := 3 }) := by decide

/-- R82, R156: SIZE 3, SCOPE 5 `.sys`, ORDER 3 `.ar`, RET; OFF10 −8. -/
theorem test_decode_atomic : decodeTableWord 64 (tWord (3 * 2 ^ 17 + 5 * 2 ^ 14 + 3 * 2 ^ 12 + 2 ^ 10 + 0x3F8) 4 2 6 0x24A) =
    some (.atomAdd tH { size := .b64, scope := .sys, order := .ar, nf := false, sx := true, off := .o10 0x3F8, base := .v 2, d := some (.v 6), b := some (.v 4) }) := by
  decide

/-- R82, R83: SIZE 2, SCOPE 4 `.dev`, ORDER 1 `.acq`, OFF10 0x40, the base S4 (408); SCOPE 6 is reserved. -/
theorem test_decode_load : [4, 6].map (fun scope => decodeTableWord 64 (tWord (2 * 2 ^ 17 + scope * 2 ^ 14 + 2 ^ 12 + 0x40) 0 408 5 0x240)) =
    [some (.ld tH { size := .b32, scope := .dev, order := .acq, nf := false, sx := false, off := .o10 0x40, base := .s 4, d := some (.v 5), b := none }), none] := by decide

/-- R174: RAW of `mxzero`; R182, R183: LVL 1 and ID 2 of `bar.sync`; R201: the code of `sys`. -/
theorem test_decode_engines : decodeTableWord 64 (tWord (2 ^ 9) 0 0 0 0x306) = some (.mxzero tH false true) ∧
    decodeTableWord 64 (tWord (2 ^ 18 + 2 * 2 ^ 12) 0 0 0 0x323) = some (.barSync tH 1 2) ∧
    decodeTableWord 64 (tWord (5 * 2 ^ 4) 0 0 0 0x360) = some (.sys tH 5) := by decide

/-- R159: TMPL, HANDLE, CHAN, STW. -/
theorem test_decode_copy : decodeTableWord 64 (tWord (1 * 2 ^ 12 + 2 * 2 ^ 6 + 3 * 2 ^ 2 + 2) 0 2 8 0x2C0) =
    some (.cpy tH { tmpl := 1, handle := 2, chan := 3, d := some (.v 8), a := .v 2, b := none }) := by decide

/-- R219. -/
theorem test_decode_debug : decodeTableWord 64 (tWord (0xBEEF * 2 ^ 4) 0 0 0 0x3B0) = some (.brk tH 0xBEEF) := by decide

/-- R87: an unassigned opcode, a reserved register code, a one in an unused bit, a predicate P7 as destination, an odd pair. -/
theorem test_decode_refuses :
    [tWord 0 0 0 0 0x000, tWord 0 0 0 0 0x3C0, tWord (0x01 * 2 ^ 15) 480 4 3 0x040, tWord 1 0 0 0 0x008, tWord 0 469 469 475 0x00C,
     tWord (0x03 * 2 ^ 15) 8 8 9 0x040].map (decodeTableWord 64) = List.replicate 6 none := by decide

/-- R88: of several faults in one word the first check decides. -/
theorem test_decode_order :
    (decodeQuad (BitVec.ofNat 128 (tWord 0 480 480 480 0x3C0)), decodeQuad (BitVec.ofNat 128 (tWord (0x1F * 2 ^ 15) 480 4 3 0x040)),
      decodeQuad (BitVec.ofNat 128 (tWord (0x01 * 2 ^ 15) 480 4 3 0x040)), decodeQuad (BitVec.ofNat 128 0)) =
    (.bad .illegalOpcode, .bad .illegalModifier, .bad .illegalOperand, .bad .illegalOpcode) := by decide

-- Executions

/-- A register of the lanes after an instruction of the group of 8 lanes that issues. -/
def tGroup8 (vs : List (Nat × Nat × Word)) : Group :=
  { freshGroup { tInfo with width := 8 } 0x1000 [] 0 with
    regs := { (freshGroup tInfo 0x1000 [] 0).regs with v := vs.foldl (fun m p => m.put 0 (vKey p.1 p.2.1) p.2.2) [] } }

def tExec (i : Instr) (g : Group) (q : Issue) : Option Group :=
  match exec i (State.issuing tState g q) with
  | .next t => t.group? 7
  | _ => none

def tIssue8 (lanes : Lanes) (pc : Pc) : Issue := { gid := 7, lanes := lanes, pc := pc, resume := none }

/-- V0 of a lane after an instruction on V2, V4, V6 of lane 0. -/
def tRun3 (i : Instr) (a b c : Word) : Option Word := (tExec i (tGroup8 [(2, 0, a), (4, 0, b), (6, 0, c)]) (tIssue8 1 0x1000)).map fun k => k.rd32 0 (.v 0)

/-- The table of "Saturating packed arithmetic". -/
theorem test_iadd_packed : tRun3 (.iadd tH (tA .i8x4 2)) 0x7F801005 0x01FFF0FD 0 = some 0x807F0002 ∧
    tRun3 (.iadd tH { tA .i8x4 2 with sat := true }) 0x7F801005 0x01FFF0FD 0 = some 0x7F800002 := by decide +kernel

/-- The table of "Shifts by large counts". -/
theorem test_shifts : tRun3 (.shl tH (tA .b32 2)) 1 32 0 = some 0 ∧ tRun3 (.rol tH (tA .b32 2)) 0x80000001 33 0 = some 3 ∧
    tRun3 (.sar tH (tA .i32 2)) 0x80000000 40 0 = some 0xFFFFFFFF ∧ tRun3 (.shr tH (tA .n16x2 2)) 0xF0001234 0x00100004 0 = some 0x00000123 := by decide +kernel

/-- The example of R125. -/
theorem test_pxnrm : tRun3 (.pxnrm tH3 (tA .n16x2 3)) 0x01230FED 0x00000800 0x00040800 = some 0x8000927F := by decide +kernel

/-- The example of R46: ∞ − ∞ in lane 9 at PC 0x123450. -/
theorem test_made_nan :
    (tExec (.fsub tH (tA .f32 2)) { tUser with regs := { tUser.regs with v := [(vKey 2 9, 0x7F800000), (vKey 4 9, 0x7F800000)] } } (tIssue8 (laneBit 9) 0x123450)).map
      (fun k => (k.rd32 9 (.v 0), k.sys.fpstat &&& 1)) = some (0x7FC98D10, 1) := by decide +kernel

/-- The table of R143. -/
def tFold (i : Instr) : Option (List Word) :=
  (tExec i (tGroup8 [(2, 1, 5), (2, 4, 7), (2, 6, 2)]) (tIssue8 0x52 0x1000)).map fun k => [1, 4, 6, 0].map fun l => k.rd32 l (.v 0)

theorem test_folds : tFold (.scan tH { tA .i32 1 with sub := 0 }) = some [5, 12, 14, 0] ∧ tFold (.scan tH { tA .i32 1 with sub := 8 }) = some [0, 5, 12, 0] ∧
    tFold (.red tH { tA .i32 1 with sub := 2 }) = some [7, 7, 7, 0] := by decide +kernel

/-- R103, R84: a branch back by one word; the guard-false lanes go on. -/
theorem test_bra : (tExec (.bra { tH with gp := 0 } (.rel20 0xFFFFF)) { tGroup8 [] with regs := { (tGroup8 []).regs with p := [(0, 1)] } } (tIssue8 3 0x1000)).map
    (fun k => (k.pcOf 0, k.pcOf 1)) = some (some 0xFFC, some 0x1008) := by decide +kernel

/-- R104, R294: a return to an odd address traps, and the handler's registers name it. -/
theorem test_ret_misaligned : (tExec (.ret tH (.v 2)) { tGroup8 [(2, 0, 0x2002)] with sys := { tUser.sys with trapvec := 0x4000 } } (tIssue8 1 0x1000)).map
    (fun k => (k.pcOf 0, k.sys.intrap, k.sys.trap.pc, k.sys.trap.addr, k.sys.trap.mask)) = some (some 0x4000, true, 0x1000, 0x2002, 1) := by decide +kernel

/-- R74: an instruction with a V destination pushes its result. -/
theorem test_push : (tExec (.iadd tH (tA .i32 2)) (tGroup8 [(2, 0, 40), (4, 0, 2)]) (tIssue8 1 0x1000)).map (fun k => k.rd64 0 (.l 0)) = some 42 := by decide +kernel

/-- R151: bytes that a store of the own scratchpad leaves. -/
theorem test_sts : (match exec (.sts tH { tM with b := some (.v 2) }) (State.issuing tState (tGroup8 [(2, 0, 0x11223344)]) (tIssue8 1 0x1000)) with
    | .next t => some ((t.spad 0).read 0 4)
    | _ => none) = some [0x44, 0x33, 0x22, 0x11] := by decide +kernel

/-- The fetch: a `nop` placed for the next step moves the run by its 8 bytes. -/
theorem test_step : (match step (State.reset.withFetchWord 64 (tWord 0 0 0 0 0x001)) with
    | .next t => (t.group? (superGid 0)).map fun k => (k.pcOf 0, k.sched.issues)
    | _ => none) = some (some 0x10008, 1) := by decide +kernel

end Sys2Proof.Tests
end

