-- ==== Sys2Proof/Tests/Witnesses.lean ====
section
/-! SUPPORT. Witnesses: for each statement with hypotheses, a concrete state and operands that meet them together. -/

namespace Sys2Proof.Tests

-- one theorem after the other: many kernel evaluations at once take too much memory
set_option Elab.async false

open Sys2Proof.Machine
open Sys2Proof.Safety

-- Control flow

/-- `tInstrs_issue` and this: every instruction of the bench meets the premise `Issues` of its statement, with guard-true lanes. -/
theorem witness_Issues : ∀ i ∈ tInstrs, i.wf = true ∧ ∃ g, Issues (State.issuing tState g tIssue) i tIssue g := by
  intro i hi
  have h := List.all_eq_true.mp tInstrs_issue i hi
  simp only [Bool.and_eq_true, Bool.or_eq_true] at h
  rcases h with ⟨hw, ((h | h) | h) | h⟩ <;> exact ⟨hw, _, issues_of _ h⟩

theorem witness_acts : acts tH tIssue tUser = tIssue.lanes ∧ acts tH tIssue tUser ≠ 0 := by decide +kernel

theorem witness_BranchesMoveTheRun : (acts tH tIssue tUser).getLsbD 0 = true ∧
    Issues tRun (.brany tH 7 (.rel20 4)) tIssue tUser ∧ tUser.rdP 7 0 = true := ⟨by decide +kernel, issues_of _ (by decide +kernel), rfl⟩

/-- A target that is good in every lane, and one that is bad. -/
theorem witness_CallsAndReturnsTransfer : Issues tRun (.jmp tH (.s 2) 4) tIssue tUser ∧
    (tUser.rd64 0 (.s 2)).toNat < 2 ^ 48 ∧ ((BitVec.ofInt 48 16 : Pc)).toNat % 4 = 0 ∧
    ∃ g : Group, Issues (State.issuing tState g tIssue) (.ret tH (.s 2)) tIssue g ∧ (acts tH tIssue g).getLsbD 0 = true ∧
      (g.rd64 0 (.s 2)).toNat % 4 ≠ 0 :=
  ⟨issues_of _ (by decide +kernel), by decide, by decide, tUser.wr64 0 (.s 2) 2, issues_of _ (by decide +kernel), by decide +kernel, by decide +kernel⟩

/-- Exits in both kinds of group, and a wait below and above its limits. -/
theorem witness_RunsLeaveYieldAndWait : Issues tRun (.exit tH) tIssue tUser ∧ tUser.info.kind ≠ .super ∧
    Issues (State.issuing tState tSuper tIssue) (.exit tH) tIssue tSuper ∧ tSuper.info.kind = .super ∧ acts tH tIssue tSuper ≠ 0 ∧
    Issues tRun (.wait tH 0 1 2 3) tIssue tUser ∧ tUser.regs.ld ≤ 0 ∧
    ∃ g : Group, Issues (State.issuing tState g tIssue) (.wait tH 0 1 2 3) tIssue g ∧ ¬ g.regs.ld ≤ 0 :=
  ⟨issues_of _ (by decide +kernel), by decide, issues_of _ (by decide +kernel), rfl, by decide +kernel, issues_of _ (by decide +kernel), by decide,
    { tUser with regs := { tUser.regs with ld := 1 } }, issues_of _ (by decide +kernel), by decide⟩

-- Computing instructions

/-- The premises of `Computes`, `Converts` and `Crosses`, for the thirteen statements on computing instructions. -/
theorem witness_Computes : Untrapped tUser ∧ (∀ i ∈ tInstrs1 ++ tInstrs2 ++ tInstrs3 ++ tInstrs4 ++ tInstrs5 ++ tInstrs6,
    i.wf = true ∧ issuable tUser i = true) ∧ ∀ i, issuable tUser i = true → Issues tRun i tIssue tUser := by
  refine ⟨rfl, ?_, fun i h => issues_of _ h⟩
  have : (tInstrs1 ++ tInstrs2 ++ tInstrs3 ++ tInstrs4 ++ tInstrs5 ++ tInstrs6).all (fun i => i.wf && issuable tUser i) = true := by decide +kernel
  intro i hi
  simpa using List.all_eq_true.mp this i hi

theorem witness_RoundingIsCorrect : fmt32 = fmt32 ∧ 0 < 1 := ⟨rfl, by decide⟩

theorem tNoPower (k : ℤ) : (3 : ℝ) ≠ (2 : ℝ) ^ k := by
  intro h
  rcases le_or_gt k 1 with hk | hk
  · have : (2 : ℝ) ^ k ≤ (2 : ℝ) ^ (1 : ℤ) := zpow_le_zpow_right₀ (by norm_num) hk
    rw [← h] at this; norm_num at this
  · have : (2 : ℝ) ^ (2 : ℤ) ≤ (2 : ℝ) ^ k := zpow_le_zpow_right₀ (by norm_num) hk
    rw [← h] at this; norm_num at this

/-- The operand 3, which is no power of two; 1, which is; and one beyond 1,024 π. -/
theorem witness_ApproximationsKeepTheirBounds :
    (fmt32.expo 0x40400000 ≠ 255 ∧ 0x40400000 % 2 ^ 31 ≠ 0 ∧ fpValue fmt32 0x40400000 = 3 ∧ fpValue fmt32 0x3F800000 = 1 ∧ fpValue fmt32 0x49800000 = 2 ^ 20) ∧
    (¬ ∃ k : ℤ, |(3 : ℝ)| = (2 : ℝ) ^ k) ∧ (∃ k : ℤ, |(1 : ℝ)| = (2 : ℝ) ^ k ∧ -127 ≤ k ∧ k ≤ 126) ∧ |(3 : ℝ)| ≤ 1024 * Real.pi ∧
    1024 * Real.pi < |(2 ^ 20 : ℝ)| := by
  refine ⟨by decide +kernel, ?_, ⟨0, by norm_num⟩, ?_, ?_⟩
  · rintro ⟨k, h⟩
    rw [abs_of_pos (by norm_num)] at h
    exact tNoPower k h
  · rw [abs_of_pos (by norm_num)]
    linarith [Real.pi_gt_three]
  · rw [abs_of_pos (by norm_num)]
    linarith [Real.pi_le_four]

-- Memory instructions

/-- An access to address 0 of the page that the TLB maps. -/
theorem tReaches (acc : Access) (rule : TypeRule) (n : Nat) (h : acc ≠ .fetch) (hr : rule.ok 0 = true) :
    Reaches tRun tIssue tUser acc rule 0 n { pa := 0, key := 0, typ := 0 } := by
  refine ⟨Nat.zero_mod n, .inr (.inr (.inr rfl)), ?_⟩
  cases acc <;> first | exact absurd rfl h | (unfold State.xlate; cases rule <;> simp_all [TypeRule.ok] <;> rfl)

/-- An access to address 0 of the workgroup's own scratchpad. -/
theorem tTargets (rd wr : Bool) (l : Nat) : Targets tRun tIssue tUser rd wr (tM.saddr tUser l) 4 0 0 1 1 := by
  have e : tM.saddr tUser l = 0 := rfl
  rw [e]
  exact ⟨rfl, .inr (.inr (.inr rfl)), by decide +kernel⟩

theorem witness_LoadsAndStoresBegin :
    Issues tRun (.ld tH { tM with d := some (.v 0) }) tIssue tUser ∧ acts tH tIssue tUser ≠ 0 ∧
    (∀ l ∈ actors tH tIssue tUser, Reaches tRun tIssue tUser .read (.plain 4) (tM.gaddr tUser l) 4 { pa := 0, key := 0, typ := 0 }) ∧
    Issues tRun (.sts tH { tM with b := some (.v 2) }) tIssue tUser ∧
    ∀ l ∈ actors tH tIssue tUser, Targets tRun tIssue tUser false true (tM.saddr tUser l) 4 0 0 1 1 :=
  ⟨issues_of _ (by decide +kernel), by decide +kernel, fun _ _ => tReaches .read (.plain 4) 4 (by decide) rfl, issues_of _ (by decide +kernel),
    fun l _ => tTargets false true l⟩

theorem witness_AtomicsBegin : Issues tRun (.atomCas tH { tM with scope := .dev, b := some (.v 2) }) tIssue tUser ∧ acts tH tIssue tUser ≠ 0 ∧
    ∀ l ∈ actors tH tIssue tUser, Reaches tRun tIssue tUser .atomic (.atomic false) (tM.gaddr tUser l) 4 { pa := 0, key := 0, typ := 0 } :=
  ⟨issues_of _ (by decide +kernel), by decide +kernel, fun _ _ => tReaches .atomic (.atomic false) 4 (by decide) rfl⟩

def tOne : Issue := { tIssue with lanes := 1 }

/-- A store, a load or an atomic of lane 0 at address 0, and a store of the own scratchpad. -/
def tBegun (kind : OpKind) (scope : Scope) : MemOp :=
  opOf tOne tUser tH { tM with scope := scope, b := some (.v 2) } kind 0 (carrying tUser tM (globalAccs tH tOne tUser tM fun _ => { pa := 0, key := 0, typ := 0 }))
def tBegunSp (kind : OpKind) : MemOp := opOf tOne tUser tH tM kind 0 (spadAccs tH tOne tUser tM fun _ => (0, 0, 1, 1))
/-- Core 0 with the first sector in its L1. -/
def tHeld : State := { tRun with cores := [(0, { tCore with l1 := (List.range 32).map fun i => (i, (1, false)) })] }

theorem tOnce {s : State} {o : MemOp} (h : (o.accs.all fun a => a.typ == 0 && (s.core 0).inL1 o a) = true) : ∀ a ∈ o.accs, AtOnce s 0 o a := by
  intro a ha
  have := List.all_eq_true.mp h a ha
  simp only [Bool.and_eq_true, beq_iff_eq] at this
  unfold AtOnce; rw [this.1]; exact .inr this.2

theorem tNotOnce {s : State} {o : MemOp} {a : LaneAcc} (ht : a.typ = 0) (hp : a.pa < hbmSize) (hl : (s.core 0).inL1 o a = false) : ¬ AtOnce s 0 o a := by
  unfold AtOnce; rw [ht, hl]; simp; exact hp

/-- Accesses that can be made as they issue, and one that cannot; a release that nothing holds, one that its scope holds, one that an access holds. -/
theorem witness_AccessesStart :
    ((∀ a ∈ (tBegun .store .none).accs, AtOnce tRun 0 (tBegun .store .none) a) ∧ ∀ a ∈ (tBegun .load .none).accs, AtOnce tHeld 0 (tBegun .load .none) a) ∧
    (∀ a ∈ (tBegun .atomNoRet .none).accs, AtOnce tHeld 0 (tBegun .atomNoRet .none) a) ∧ (∀ a ∈ (tBegunSp .load).accs, AtOnce tRun 0 (tBegunSp .load) a) ∧
    (∃ a ∈ (tBegun .load .none).accs, ¬ AtOnce tRun 0 (tBegun .load .none) a) ∧
    (nearScope .none = true ∧ ¬ Owes tRun 7 ∧ RoomFor tRun 0 (tBegun .store .none)) ∧ nearScope .dev = false ∧ Owes { tRun with ops := [(5, tBegun .load .none)] } 7 := by
  have hs : ((tBegun .store .none).accs.all fun a => a.typ == 0 && (tRun.core 0).inL1 (tBegun .store .none) a) = true := by decide +kernel
  refine ⟨⟨tOnce hs, tOnce (by decide +kernel)⟩, tOnce (by decide +kernel), ?_, ⟨_, .head _, ?_⟩,
    ⟨rfl, (by rintro ⟨p, hp, -⟩; cases hp), ?_⟩, rfl, _, .head _, rfl, by decide +kernel⟩
  · intro a ha
    have : ((tBegunSp .load).accs.all fun a => a.typ == 4 && a.key == 0) = true := by decide +kernel
    have := List.all_eq_true.mp this a ha
    simp only [Bool.and_eq_true, beq_iff_eq] at this
    unfold AtOnce; rw [this.1]; exact ⟨this.2, rfl, rfl⟩
  · exact tNotOnce (by decide +kernel) (by decide +kernel) (by decide +kernel)
  · intro a ha
    have := List.all_eq_true.mp hs a ha
    simp only [Bool.and_eq_true] at this
    exact .inl this.2

-- Events of the memory system

/-- A load of lane 0 that is under way. -/
def tAcc (typ : Nat) : LaneAcc := LaneAcc.at_ 0 0 0 0 typ 1 1
def tLoad (typ : Nat) : MemOp := opOf tIssue tUser tH { tM with d := some (.v 0) } .load 0 [tAcc typ]
def tLoads (typ : Nat) : State := { tRun with ops := [(5, tLoad typ)] }

/-- It is outstanding in every state that holds it. -/
theorem tOut {s : State} {typ : Nat} (h : s.ops = [(5, tLoad typ)]) : Outstanding s 5 0 (tLoad typ) (tAcc typ) := by
  refine ⟨?_, rfl⟩
  unfold SMap.find; rw [h]; rfl

def tSpReq (bytes : Option (List Byte)) (fe : Option (Option Bool × Bool)) : SpReq :=
  { src := 0, dst := 0, off := 16, len := 4, bytes := bytes, alloc := 1, gen := 1, tag := 0, issued := 0, op := 5, lane := 0, fe := fe, rank := 0, arr := 0, arrNs := 0 }

/-- A full/empty load on its granule, and a store that waits for EMPTY at the port. -/
theorem witness_FullEmptyAccessesAreServed : Issues tRun (.ldfeKeep tH { tM with d := some (.v 0) }) tIssue tUser ∧
    (∀ l ∈ actors tH tIssue tUser, Targets tRun tIssue tUser true false (tM.saddr tUser l) 4 0 0 1 1) ∧
    ∃ (s : State) (r : SpReq), s.feq = [] ++ r :: [] ∧ r.dst = 0 ∧ s.feReady r = true ∧ r.fe = some (some false, true) ∧ r.arr ≠ s.clock.cc ∧ s.spStale r = false ∧
      Outstanding s r.op r.lane (tLoad 4) (tAcc 4) :=
  ⟨issues_of _ (by decide +kernel), fun l _ => tTargets true false l, { tLoads 4 with feq := [tSpReq (some [1, 2, 3, 4]) (some (some false, true))], clock := { Clock.reset with cc := 1 } },
    tSpReq (some [1, 2, 3, 4]) (some (some false, true)), rfl, rfl, by decide +kernel, rfl, by decide, by decide +kernel, tOut rfl⟩

/-- A store of the own scratchpad; a plain and a stale write at the port, and one that waits behind a request of its core. -/
theorem witness_ScratchpadsStoreAndServe : Issues tRun (.sts tH { tM with b := some (.v 2) }) tIssue tUser ∧ acts tH tIssue tUser ≠ 0 ∧
    isRel tM.order = false ∧ tRun.spBehind 0 0 = false ∧ (∀ l ∈ actors tH tIssue tUser, Targets tRun tIssue tUser false true (tM.saddr tUser l) 4 0 0 1 1 ∧ 0 = tUser.info.core) ∧
    (∃ s : State, s.spIn = [] ++ tSpReq (some [1]) none :: [] ∧ s.spBehind 0 0 = false ∧ s.stale 1 1 16 1 0 s.clock.ns = false) ∧
    (∃ s : State, s.spIn = [] ++ tSpReq (some [1]) none :: [] ∧ s.spBehind 0 0 = false ∧ s.stale 1 1 16 1 0 s.clock.ns = true) ∧
    ∃ s : State, s.spIn = [] ++ tSpReq (some [1]) none :: [] ∧ s.spBehind 0 0 = true :=
  ⟨issues_of _ (by decide +kernel), by decide +kernel, rfl, rfl, fun l _ => ⟨tTargets false true l, rfl⟩,
    ⟨{ tRun with spIn := [tSpReq (some [1]) none] }, rfl, rfl, by decide +kernel⟩,
    ⟨{ tRun with spIn := [tSpReq (some [1]) none], allocs := [(1, { tAlloc with gen := 2 })] }, rfl, rfl, by decide +kernel⟩,
    { tRun with spIn := [tSpReq (some [1]) none], feq := [tSpReq none (some (none, true))] }, rfl, by decide +kernel⟩

theorem witness_PrefetchAndReadAhead : Issues tRun (.pref tH { tM with size := .b8 }) tIssue tUser ∧ 255 < 256 ∧ (hbmSize - 256) % 256 = 0 ∧ hbmSize - 256 < hbmSize ∧ MemSys.reset.bad (hbmSize - 256) 256 = false ∧
    ∃ m : MemSys, m.bad (hbmSize - 256) 256 = true :=
  ⟨issues_of _ (by decide +kernel), by decide, by decide, by decide, by decide +kernel, { MemSys.reset with ecc := [(hbmSize - 256) / 32] }, by decide +kernel⟩

def tClose : Close := { serial := 1, phase := 0, announced := [(0, 1)], reached := [0], answered := [] }

/-- A fence with nothing and with a load to wait for; a close that reaches slice 1, and one that slice 0 can answer. -/
theorem witness_FencesAndPhasesOrder : Issues tRun (.fence tH .dev .acq) tIssue tUser ∧ (Instr.fence tH .dev .acq).wf = true ∧
    tRun.loadsOf 7 (acts tH tIssue tUser) = [] ∧
    Issues (State.issuing (tLoads 0) tUser tIssue) (.fence tH .dev .acq) tIssue tUser ∧ (tLoads 0).loadsOf 7 (acts tH tIssue tUser) ≠ [] ∧
    ∃ s : State, (s.core 0).closes = [] ++ tClose :: [] ∧ ClosesAt s 0 1 tClose ∧ CountsMatch s 0 0 tClose := by
  refine ⟨issues_of _ (by decide +kernel), by decide +kernel, by decide +kernel, issues_of _ (by decide +kernel), by decide +kernel,
    { tRun with cores := [(0, { tCore with closes := [tClose] })], msys := { MemSys.reset with counts := [(countKey 0 0 0, 1)] } }, rfl, ?_, ?_⟩
  · exact ⟨by decide, by rintro ⟨_, r, hr, _⟩; cases hr⟩
  · exact ⟨by decide, by decide, by decide +kernel⟩

def tRel (scope : Scope) (close : Option Nat) : Rel := { gid := 7, core := 0, scope := scope, waitOps := [], close := close, op := none, sent := 0 }

/-- A releasing fence with nothing to wait for, with an access, with copies; one that goes on and one that waits; releases that are near, closed,
still to send their close, and behind an access. -/
theorem witness_ReleasesComplete :
    (Issues tRun (.fence tH .grp .rel) tIssue tUser ∧ (Instr.fence tH .grp .rel).wf = true ∧ nearScope .grp = true ∧ ¬ Owes tRun 7 ∧ tRun.copiesOf 7 = []) ∧
    (Issues (State.issuing (tLoads 0) tUser tIssue) (.fence tH .dev .rel) tIssue tUser ∧ (Instr.fence tH .dev .rel).wf = true ∧ Owes (tLoads 0) 7) ∧
    (tLoads 9).copiesOf 7 ≠ [] ∧
    (let i := Instr.fence tH .dev .ar
     let w (n : Nat) := { Wait.of .release (some i) 1 with ops := [n] }
     ∀ n, Resumes (State.issuing (tLoads 0) tUser (tWait (w n))) i (tWait (w n)) (w n) tUser ∧ (w n).lanes ≠ 0 ∧ (WaitOver (tLoads 0) (w n) ↔ n ≠ 5)) ∧
    (nearScope (tRel .grp none).scope = true ∧ ∃ s : State, s.rels.find 3 = some (tRel .grp none)) ∧
    (∃ s : State, s.rels.find 3 = some (tRel .sys (some 9)) ∧ (∀ c ∈ (s.core 0).closes, c.serial ≠ 9) ∧ ∀ d ∈ (s.core 0).dev, d.write = true → d.gid ≠ 7) ∧
    (∃ s : State, s.rels.find 3 = some (tRel .dev none) ∧ (s.core 0).closes.length < 3) ∧
    ∃ s : State, s.rels.find 3 = some { tRel .dev none with waitOps := [5] } ∧ s.ops.find 5 ≠ none := by
  refine ⟨⟨issues_of _ (by decide +kernel), by decide +kernel, rfl, (by rintro ⟨p, hp, -⟩; cases hp), by decide +kernel⟩,
    ⟨issues_of _ (by decide +kernel), by decide +kernel, _, .head _, rfl, by decide +kernel⟩, by decide +kernel,
    fun n => ⟨⟨rfl, rfl, rfl, by decide +kernel, by decide +kernel⟩, (by decide : (1 : Lanes) ≠ 0), ?_⟩,
    ⟨rfl, { tRun with rels := [(3, tRel .grp none)] }, rfl⟩, ⟨{ tRun with rels := [(3, tRel .sys (some 9))] }, rfl, (by rintro c ⟨⟩), (by rintro d ⟨⟩)⟩,
    ⟨{ tRun with rels := [(3, tRel .dev none)] }, rfl, by decide⟩, { tLoads 0 with rels := [(3, { tRel .dev none with waitOps := [5] })] }, rfl, by decide⟩
  constructor
  · rintro ⟨-, h⟩ rfl
    exact absurd (h 5 (.head _)) (by decide)
  · intro h
    refine ⟨(by rintro r ⟨⟩), fun id hid => ?_⟩
    rw [List.mem_singleton.mp hid]
    simpa [tLoads, SMap.find, eq_comm] using h

/-- A load of V0 whose data are back; a pending write of a pipeline. -/
theorem witness_ResultsReturn : ∃ (s : State) (o : MemOp) (a : LaneAcc), s.ops.find 5 = some o ∧ o.ready = true ∧ s.group? o.gid = some tUser ∧
    o.d = some (.v 0) ∧ fits o.size (.v 0) ∧ o.u = false ∧ (o.accs.map (·.lane)).Nodup ∧ a ∈ o.accs ∧ a.lane < 64 ∧ a.err = none ∧ a.done = true :=
  ⟨{ tRun with ops := [(5, { tLoad 0 with ready := true, accs := [{ tAcc 0 with done := true, back := some [1, 2, 3, 4] }] })] },
    { tLoad 0 with ready := true, accs := [{ tAcc 0 with done := true, back := some [1, 2, 3, 4] }] }, { tAcc 0 with done := true, back := some [1, 2, 3, 4] },
    by decide +kernel, rfl, rfl, rfl, rfl, rfl, by decide, by decide, by decide, rfl, rfl⟩

def tReq (kind : ReqKind) (pa : Nat) : Req := { op := some 5, lane := 0, kind := kind, pa := pa, len := 4, key := 0, phase := 0, due := 0 }
def tPath (st : PathSt) (rs : List Req) : State := { tLoads 0 with cores := [(0, { tCore with paths := [(0, { window := rs, queue := [], st := st, nacks := 2 })] })] }

/-- A request whose bucket slice 0 owns, and one of another slice. -/
theorem witness_SliceRequests :
    (Heads (tPath .flowing [tReq (.write [1, 2, 3, 4]) 0]) 0 0 (tReq (.write [1, 2, 3, 4]) 0) [] ∧ MemSys.reset.sliceOf 0 = 0 ∧
      Outstanding (tPath .flowing [tReq (.write [1, 2, 3, 4]) 0]) 5 0 (tLoad 0) (tAcc 0)) ∧
    Heads (tPath .flowing [tReq .read 256]) 0 0 (tReq .read 256) [] ∧ MemSys.reset.sliceOf 256 ≠ 0 :=
  ⟨⟨⟨rfl, rfl⟩, by decide +kernel, tOut rfl⟩, ⟨rfl, rfl⟩, by decide +kernel⟩

/-- A near atomic whose sector has come to the slice's queue. -/
theorem witness_NearAtomicReturns : let o := { tLoad 0 with atom := some (.add, [(0, 1, 0)]) }
    let s := { tPath .flowing [] with ops := [(5, o)], cores := [(0, { tCore with paths := [(0, { window := [], queue := [tReq .read 0], st := .flowing, nacks := 0 })] })] }
    exec (.l2SliceRequest 0 0 true) s = .next s ∧ (pathOf s 0 0).queue = tReq .read 0 :: [] ∧ s.msys.sliceOf 0 = 0 ∧ s.msys.bad 0 4 = false ∧
      Outstanding s 5 0 o (tAcc 0) ∧ nearScope o.scope = true :=
  ⟨rfl, rfl, by decide +kernel, by decide +kernel, ⟨rfl, rfl⟩, rfl⟩

/-- A path in each state, and a load of lane 0 that is in flight, in time and late. -/
theorem witness_RefusedAndLateAccessesEnd : (pathOf (tPath .nacked []) 0 0).st = .nacked ∧ (pathOf (tPath (.backoff 0) []) 0 0).st = .backoff 0 ∧
    (pathOf (tPath .remapped []) 0 0).st = .remapped ∧ Outstanding (tLoads 0) 5 0 (tLoad 0) (tAcc 0) ∧ (tLoads 0).sentAt 5 (tLoad 0) (tAcc 0) = some 0 ∧
    (tLoads 0).clock.ns < 0 + 64000 ∧ ∃ s : State, Outstanding s 5 0 (tLoad 0) (tAcc 0) ∧ s.sentAt 5 (tLoad 0) (tAcc 0) = some 0 ∧
      0 + 64000 ≤ s.clock.ns :=
  ⟨rfl, rfl, rfl, tOut rfl, by decide +kernel, by decide, { tLoads 0 with clock := { Clock.reset with ns := 64000 } }, tOut rfl,
    by decide +kernel, by decide⟩

def tDev (write strict : Bool) (pa : Nat) : DevReq :=
  { op := 5, lane := 0, write := write, pa := pa, size := 8, data := 1, strict := strict, gid := 7, pc := 0x1000, va := 0, nf := false,
    inTrap := false, lanes := 1, wg := 1, space := State.gspace tRun tUser, poster := tUser.poster 7, copy := some 5 }
def tDevs (d : DevReq) : State := { tLoads 2 with cores := [(0, { tCore with dev := [d] })] }

/-- A read of a status word of the aperture, a write that starts no copy, posted and waited for; a busy and an idle engine. -/
theorem witness_DeviceAndConfigurationAccesses :
    (((tDevs (tDev false true ioBase)).core 0).dev = tDev false true ioBase :: [] ∧ Outstanding (tDevs (tDev false true ioBase)) 5 0 (tLoad 2) (tAcc 2)) ∧
    (∀ strict, let d := tDev true strict (ioBase + 0x2000000)
      ((tDevs d).core 0).dev = d :: [] ∧ apertureStart d = none ∧ (tDevs d).group? d.gid = some tUser) ∧
    (∃ d, d = tDev true true (ioBase + 0x1000000 + 0x4100) ∧ apertureStart d = none) ∧
    ((tRun.bte 0).stop = false ∧ ∃ s : State, (s.bte 0).stop = true ∧ (∀ c ∈ (s.bte 0).chans, ∀ r ∈ c.2, r.accepted = false) ∧ (s.bte 0).moves = [] ∧
      s.resident = none) :=
  ⟨⟨rfl, tOut rfl⟩, fun strict => ⟨rfl, by cases strict <;> decide +kernel, rfl⟩, ⟨_, rfl, by decide +kernel⟩, rfl,
    { tRun with clusters := [(0, { Cluster.reset with bte := { Cluster.reset.bte with stop := true } })] }, rfl, by decide, rfl, rfl⟩

/-- Tables that map the first GiB to itself, without A and D; and an address that nothing maps. -/
def tTables : State := ((tRun.homeWrite 0 0x1000 (leBytes (0x2000 + 1) 8)).homeWrite 0 0x2000 (leBytes (2 ^ 9 + 2 ^ 7 + 2 ^ 6 + 5 * 2 + 1) 8)).modCore 0
  fun c => { c with ptbase := 0x1000, tlb := [] }

theorem witness_WalksSetAccessed : let sp := (tTables.core 0).space true
    (∃ e pa, walk tTables.msys sp.root 0 = .leaf e pa ∧ leafCheck sp .write anyType e = none) ∧
    ∀ e pa, walk tTables.msys sp.root (2 ^ 47) = .leaf e pa → leafCheck sp .write anyType e ≠ none := by
  refine ⟨⟨0x2CB, 0x2000, by decide +kernel, by decide +kernel⟩, ?_⟩
  have h : walk tTables.msys ((tTables.core 0).space true).root (2 ^ 47) = .absent 0 3 := by decide +kernel
  intro e pa he; rw [h] at he; cases he

-- Copies, handles and tensor identifiers

theorem of_ok {σ ε α : Type} [DecidableEq α] {p : σ × Except ε α} (a : α)
    (h : (match p.2 with
      | .ok b => decide (b = a)
      | .error _ => false) = true) : ∃ s', p = (s', .ok a) := by
  obtain ⟨s', r⟩ := p
  cases r with
  | error => simp at h
  | ok b => exact ⟨s', by simp at h; rw [h]⟩

theorem of_error {σ ε α : Type} {p : σ × Except ε α} (f : ε → Bool)
    (h : (match p.2 with
      | .ok _ => false
      | .error e => f e) = true) : ∃ s' e, p = (s', .error e) ∧ f e = true := by
  obtain ⟨s', r⟩ := p
  cases r with
  | error e => exact ⟨s', e, rfl, h⟩
  | ok => simp at h

/-- A template of one line of four elements of tensor 5, inward or outward; a tensor of four 32-bit elements at an address. -/
def tTmpl (out : Nat) : List Byte := leBytes (2 ^ 31 + out * 2 ^ 30 + 5 * 2 ^ 32 + 4 * 2 ^ 64 + 2 ^ 96 + 2 ^ 128) 64
def tTen (base : Nat) : List Byte :=
  leBytes (base + 4 * 2 ^ 128 + 2 ^ 160 + 2 ^ 192 + 2 ^ 224 + 2 ^ 256 + (2 ^ 31 + 4 * 2 ^ 24 + 2 ^ 17) * 2 ^ 704) 128

def tHandle : Handle := { Handle.reset with st := .filling, alloc := 1, gen := 1, len := 16, expect := 1, accepted := 1, inward := 1 }

def tCopy (base : Nat) (status : Option Nat) : CopyRec :=
  { id := 9, core := 0, gid := 7, ctx := 1, wg := 1, pc := 0x1000, space := State.gspace tRun tUser, tmplNo := 1, handle := 2, coord := 0, mc := none,
    op := some 5, lane := 0, accepted := true, tmpl := tTmpl 0, ten := tTen base, ends := [{ rank := 0, core := 0, alloc := 1, gen := 1, code := none }],
    tenEnd := none, issued := 0, status := status, held := none, due := 0, since := none, dec := false, poster := tUser.poster 7 }

/-- Core 0 with handle 2 filling; channel 3 of cluster 0 holds copies. -/
def tCopies (rs : List CopyRec) : State :=
  { tLoads 9 with
    cores := [(0, { tCore with handles := [(2, tHandle)] })]
    clusters := [(0, { Cluster.reset with bte := { Cluster.reset.bte with templates := [(1, tTmpl 0)], chans := [(3, rs)] } })]
    tensors := [(tenKey 1 0 5, tTen 0)] }

def tCpy : CopyArg := { tmpl := 1, handle := 2, chan := 3, d := none, a := .v 2, b := none }

/-- A channel with room, with a full replay window, with a good template for one lane; and a copy stored to the aperture. -/
theorem witness_CopiesAreSent :
    (Issues tRun (.cpy tH tCpy) tIssue tUser ∧ acts tH tIssue tUser ≠ 0 ∧ tRun.copyWindow 0 3 < 32) ∧
    32 ≤ (tCopies (List.replicate 32 { tCopy 0 none with accepted := false })).copyWindow 0 3 ∧
    (let s := State.issuing (tCopies []) tUser tOne
     Issues s (.cpy tH tCpy) tOne tUser ∧ (actors tH tOne tUser).length = 1 ∧ HasRoom s 0 3 ∧
      let bs := (s.bte 0).templates.get (List.replicate 64 0) 1
      tmplOk bs false (tenOf (s.tenRec 1 0 (tmplOf bs).ten)) true = true) ∧
    (∀ w, Resumes (State.issuing tState tUser (tWait w)) (.cpy tH tCpy) (tWait w) w tUser) ∧
    (HasRoomAfter (tCopies []) 0 3 7 ∧ ¬ HasRoomAfter (tCopies []) 0 3 8 ∧ takes false tHandle = false ∧ takes false { tHandle with expect := 2 } = true ∧
      tCpy.b.elim 0 (fun r => (tUser.rd32 0 r).toNat) % 16 = 0 ∧ ((tUser.wr32 0 (.v 2) 5).rd32 0 (.v 2)).toNat % 16 ≠ 0 ∧
      tmplOk ((tRun.bte 0).templates.get (List.replicate 64 0) 1) false (tenOf []) true = false) ∧
    (∀ data, ∃ (s : State) (d : DevReq), (s.core 0).dev = d :: [] ∧ d.write = true ∧ d.size = 8 ∧ 383 < 384 ∧ d.pa = ioBase + 4096 * 383 + 8 * 3 ∧
      d.data = data ∧ HasRoom s 0 3) ∧
    ((0x201 : Dword) >>> 8).toNat % 256 < 64 ∧ 64 ≤ ((0xFF01 : Dword) >>> 8).toNat % 256 := by
  refine ⟨⟨issues_of _ (by decide +kernel), by decide +kernel, by decide +kernel⟩, by decide +kernel,
    ⟨⟨rfl, rfl, rfl, by decide +kernel, by decide +kernel⟩, by decide +kernel, ⟨by decide +kernel, by decide +kernel, rfl⟩, by decide +kernel⟩, ?_⟩
  exact ⟨fun w => resumes_of _ w (by decide +kernel),
    ⟨⟨by decide +kernel, by decide +kernel, rfl⟩, (by rintro ⟨-, h, -⟩; revert h; decide +kernel), by decide, by decide, by decide, by decide +kernel,
      by decide +kernel⟩,
    fun data => ⟨tDevs { tDev true true (ioBase + 4096 * 383 + 8 * 3) with data := data }, _, rfl, rfl, rfl, by decide, rfl, rfl, ⟨rfl, Nat.lt_of_sub_eq_succ rfl, rfl⟩⟩,
    by decide, by decide⟩

/-- A copy and a matrix command whose accesses have been under way for 64 µs; a copy whose handle has been bound anew. -/
theorem witness_EngineAccessesAreLate :
    (let r := { tCopy 0 none with since := some 0 }
     let s := { tCopies [r] with clock := { Clock.reset with ns := 64000 } }
     s.ops.find 9 = none ∧ (s.chan 0 3)[0]? = some r ∧ ∃ t0, r.since = some t0 ∧ t0 + 64000 ≤ s.clock.ns) ∧
    (tCopies []).bound (tCopy 0 none) { rank := 0, core := 0, alloc := 1, gen := 2, code := none } = false ∧
    (tCopies []).bound (tCopy 0 none) { rank := 0, core := 0, alloc := 1, gen := 1, code := none } = true :=
  ⟨⟨rfl, rfl, 0, rfl, by decide⟩, by decide +kernel, by decide +kernel⟩

/-- A copy that had a status at its acceptance, one that completes, one whose page is absent. -/
theorem witness_CopiesComplete : (∀ base status, let s := tCopies [tCopy base status]
      s.copyHead 0 3 = some (tCopy base status) ∧ s.chan 0 3 = tCopy base status :: [] ∧ ∃ e, (tCopy base status).ends = [e] ∧ e.code = none) ∧
    (tCopy 0 (some 6)).status = some 6 ∧
    (let s := tCopies [tCopy 0 none]
     ∃ s', s.moveCopy (tCopy 0 none) = (s', .ok [(0, 0)])) ∧
    (let s := tCopies [tCopy 0 none]
     let r := tCopy 0 none
     (tmplOf r.tmpl).out = false ∧ (tmplOf r.tmpl).vat = 0 ∧ tmplOk r.tmpl false (tenOf r.ten) true = true ∧
      (∃ s1, allSteps (fun s ln => s.readLine r (tmplOf r.tmpl) (tenOf r.ten) ln) s (tileLines (tmplOf r.tmpl) false 0) = (s1, .ok [List.replicate 16 0])) ∧
      [List.replicate 16 (0 : Byte)].flatten.length ≤ (s.handle 0 2).len ∧ s.allocs.find 1 = some tAlloc ∧
      s.stale 1 1 0 16 s.clock.ns s.clock.ns = false) ∧
    (let s := tCopies [tCopy (2 ^ 40) none]
     ∃ s' er, s.moveCopy (tCopy (2 ^ 40) none) = (s', .error er)) := by
  refine ⟨fun base status => ⟨?_, rfl, _, rfl, rfl⟩, rfl, of_ok _ (by decide +kernel),
    ⟨by decide +kernel, by decide +kernel, by decide +kernel, of_ok _ (by decide +kernel), by decide +kernel, rfl, by decide +kernel⟩, ?_⟩
  · have hv : (tmplOf (tTmpl 0)).vat = 0 := by decide +kernel
    have hd : (tCopy base status).decodes = false := by simp [CopyRec.decodes, tCopy, hv]
    show (if _ && _ && _ && (!(tCopy base status).decodes || _) then some (tCopy base status) else none) = _
    rw [hd]; rfl
  obtain ⟨s', er, h, -⟩ := of_error (p := (tCopies [tCopy (2 ^ 40) none]).moveCopy (tCopy (2 ^ 40) none)) (fun _ => true) (by decide +kernel)
  exact ⟨s', er, h⟩

/-- Registers V2 and V3 of lane 0: a place and a length. -/
def tBind (off len : Word) : Group := (tUser.wr32 0 (.v 2) off).wr32 0 (.v 3) len
def tBinds (off len : Word) (st : HState) : State :=
  { State.issuing tState (tBind off len) tIssue with cores := [(0, { tCore with handles := [(3, { Handle.reset with st := st })] })] }

/-- Handles in a state that ends a wait and in one that does not; a bind of each kind; instructions with and without accesses that
come before them; good and bad tensor records. -/
theorem witness_HandlesAndTensorIdentifiers :
    (Issues tRun (.hwaitEmpty tH (.v 0) 3) tIssue tUser ∧ (tRun.handle 0 3).st = .unbound ∧ Issues tRun (.hwaitFull tH (.v 0) 3) tIssue tUser) ∧
    (∀ st, Issues (tBinds 0 16 st) (.hsetBind tH 3 1 (.v 2) (.v 3)) tIssue (tBind 0 16) ∧ ((tBinds 0 16 st).handle 0 3).st = st) ∧
    ((tBind 8 16).rd32 0 (.v 2)).toNat % 16 ≠ 0 ∧ ((tBind 0 0).rd32 0 (.v 3)).toNat % 16 = 0 ∧ ((tBind 0 0).rd32 0 (.v 3)).toNat < 16 ∧
    (tBinds 0 16 .empty).wgs.find 1 = some tWg ∧ (tBinds 0 16 .empty).allocs.find 1 = some tAlloc ∧ acts tH tIssue (tBind 0 16) ≠ 0 ∧
    ((tBind 0 16).rd32 0 (.v 2)).toNat + ((tBind 0 16).rd32 0 (.v 3)).toNat ≤ tAlloc.size ∧ 16 ≤ ((tBind 0 16).rd32 0 (.v 3)).toNat ∧
    NoOps tRun 7 ∧ (∃ p ∈ (tLoads 0).ops, p.2.gid = 7 ∧ ∀ a ∈ p.2.accs, a.typ < 9) ∧
    (Issues tRun (.tset tH 5 (.v 2)) tIssue tUser ∧ Reaches tRun tIssue tUser .read .normal 0 128 { pa := 0, key := 0, typ := 0 } ∧
      Reaches tRun tIssue tUser .write .normal 0 128 { pa := 0, key := 0, typ := 0 } ∧ tRun.msys.bad 0 128 = false ∧
      (tenOf (tRun.nearRead 0 0 0 128).2).valid = false) ∧
    (∃ s : State, Reaches s tIssue tUser .read .normal 0 128 { pa := 0, key := 0, typ := 0 } ∧ s.msys.bad 0 128 = false ∧
      tenChecks (s.nearRead 0 0 0 128).2 = true) ∧
    ∃ s : State, Reaches s tIssue tUser .read .normal 0 128 { pa := 0, key := 0, typ := 0 } ∧ s.msys.bad 0 128 = false ∧
      (tenOf (s.nearRead 0 0 0 128).2).valid = true ∧ tenChecks (s.nearRead 0 0 0 128).2 = false :=
  ⟨⟨issues_of _ (by decide +kernel), rfl, issues_of _ (by decide +kernel)⟩, fun st => ⟨⟨rfl, rfl, rfl, by decide +kernel, by decide +kernel⟩, rfl⟩,
    by decide +kernel, by decide +kernel, by decide +kernel, rfl, rfl, by decide +kernel, by decide +kernel, by decide +kernel,
    (by rintro p ⟨⟩), ⟨_, .head _, rfl, by decide +kernel⟩,
    ⟨issues_of _ (by decide +kernel), tReaches _ _ _ (by decide) rfl, tReaches _ _ _ (by decide) rfl, by decide +kernel, by decide +kernel⟩,
    ⟨tRun.homeWrite 0 0 (tTen 0), ⟨by decide, .inr (.inr (.inr rfl)), rfl⟩, by decide +kernel, by decide +kernel⟩,
    tRun.homeWrite 0 0 (leBytes (2 ^ 735) 128), ⟨by decide, .inr (.inr (.inr rfl)), rfl⟩, by decide +kernel, by decide +kernel, by decide +kernel⟩

-- Matrix engines

def tMxe (m : Mxe) : State := { tRun with clusters := [(0, { Cluster.reset with mxe := m })] }

def tEntry (kind : MxKind) (granted : Option Nat) : MxEntry :=
  { id := 9, gid := 7, core := 0, ctx := 1, wg := 1, pc := 0x1000, space := State.gspace tRun tUser, prio := 0, kind := kind, tgt := none, arr := none,
    readySince := none, promoted := false, granted := granted, arrayEnd := 0, due := 0, read := false, err := none, arrived := false,
    since := none, held := none, poster := tUser.poster 7 }

def tTable (kind : MxKind) (granted : Option Nat) : State := tMxe { Mxe.reset with table := [tEntry kind granted] }

def tCmd (complete : Bool) (err : Option Cause) : MxCmd := { entry := 9, pc := 0x1000, complete := complete, err := err }
def tCmds (cs : List MxCmd) : Group := { tUser with cmds := cs }

theorem witness_MatrixCommandsAreTakenAndAwaited :
    (Issues tRun (.mxzero tH false true) tIssue tUser ∧ matrixKind tRun tIssue tUser (.mxzero tH false true) = some (.zero false true, none) ∧
      acts tH tIssue tUser ≠ 0 ∧ acts tH tIssue tUser = tIssue.lanes ∧ tIssue.lanes = fullLanes tUser.info.width ∧
      ¬ (32 ≤ (tRun.mxe 0).table.length ∨ (tRun.bte 0).stop = true)) ∧
    32 ≤ ((tMxe { Mxe.reset with table := List.replicate 32 (tEntry (.zero false true) none) }).mxe 0).table.length ∧
    (Issues (State.issuing tState tUser tOne) (.mxzero tH false true) tOne tUser ∧ acts tH tOne tUser ≠ 0 ∧ tOne.lanes ≠ fullLanes tUser.info.width) ∧
    (Issues tRun (.mxfence tH) tIssue tUser ∧ NoOps tRun 7 ∧ tUser.busy = []) ∧
    (∀ cs, Issues (State.issuing tState (tCmds cs) tIssue) (.mxwait tH 0) tIssue (tCmds cs) ∧ (tCmds cs).cmds.take ((tCmds cs).cmds.length - 0) = cs) ∧
    (∃ c ∈ [tCmd false none], c.complete = false) ∧ (∀ c ∈ [tCmd true none], c.complete = true ∧ c.err = none) ∧
    [tCmd true (some .permission)] = [] ++ tCmd true (some .permission) :: [] ∧ ∀ d ∈ [tCmd true (some .permission)], d.complete = true := by
  refine ⟨⟨issues_of _ (by decide +kernel), rfl, by decide +kernel, by decide +kernel, by decide +kernel, by decide +kernel⟩, by decide +kernel,
    ⟨⟨rfl, rfl, rfl, by decide +kernel, by decide +kernel⟩, by decide +kernel, by decide +kernel⟩,
    ⟨issues_of _ (by decide +kernel), (by rintro p ⟨⟩), rfl⟩, fun cs => ⟨issues_of _ (by unfold issuable; rfl), by simp [tCmds]⟩,
    ⟨_, .head _, rfl⟩, by decide, rfl, by decide⟩

/-- An FP32 tensor, at an address; one with the coordinates of the tile outside it. -/
def tTen5 (base : Nat) : List Byte :=
  leBytes (base + 4 * 2 ^ 128 + 2 ^ 160 + 2 ^ 192 + 2 ^ 224 + 2 ^ 256 + (2 ^ 31 + 5 * 2 ^ 24 + 2 ^ 17) * 2 ^ 704) 128

/-- An entry to grant, a drain whose page is absent, an engine that is still to arrive at a barrier it is no member of, and at one it is. -/
theorem witness_MatrixTableWorks :
    (let s := tTable (.zero false true) none
     Grantable s 0 .bank (tEntry (.zero false true) none) ∧ tEntry (.zero false true) none ∈ (s.mxe 0).table ∧ (s.mxe 0).unitFree 0 .bank = true) ∧
    (let e := tEntry (.drain false (tTen5 (2 ^ 40)) 0 false false) (some 0)
     let s := tMxe { Mxe.reset with table := [e] }
     s.mxDue 0 9 = some e ∧ (∃ s' er va, s.mxEffect 0 e = (s', .error (er, va)) ∧ er.cause = .pageNotPresent) ∧ s.group? e.gid = some tUser) ∧
    (let e := { tEntry (.zero false true) (some 0) with read := true, arr := some 2 }
     let s := tMxe { Mxe.reset with table := [e] }
     (s.mxArrivals 0).find? (·.id == 9) = some e ∧ e.gid ∉ (s.bar (barKey e.wg 0 2)).members ∧
      let s' : State := { s with bars := [(barKey 1 0 2, { Barrier.reset with members := [7] })] }
      (s'.mxArrivals 0).find? (·.id == 9) = some e ∧ e.gid ∈ (s'.bar (barKey e.wg 0 2)).members) := by
  refine ⟨⟨⟨rfl, rfl, rfl, by decide +kernel⟩, .head _, by decide +kernel⟩, ⟨by decide +kernel, ?_, rfl⟩, by decide +kernel, by decide +kernel, by decide +kernel, by decide +kernel⟩
  obtain ⟨s', ⟨er, va⟩, h, hc⟩ := of_error (p := (tMxe { Mxe.reset with table := [tEntry (.drain false (tTen5 (2 ^ 40)) 0 false false) (some 0)] }).mxEffect 0
    (tEntry (.drain false (tTen5 (2 ^ 40)) 0 false false) (some 0))) (fun e => e.1.cause == .pageNotPresent) (by decide +kernel)
  exact ⟨s', er, va, h, by simpa using hc⟩

theorem tAll {σ α β ε : Type} {f : σ → α → σ × Except ε β} {s : σ} {l : List α} (b : β) (h : ∀ a ∈ l, f s a = (s, .ok b)) :
    allSteps f s l = (s, .ok (l.map fun _ => b)) := by
  induction l with
  | nil => rfl
  | cons a t ih => simp [allSteps, h a (.head _), ih fun c hc => h c (.tail _ hc)]

/-- A tile whose first coordinate is 1 lies outside a tensor of four columns. -/
theorem tOutside (bs : List Byte) (h : (tenOf bs).order = false) (h0 : (tenOf bs).dim 0 = 4) (i j : Nat) :
    (tenOf bs).inside (mxElem (tenOf bs) 1 256 512 i j) = false := by
  have e : Dword.field 1 (16 * 0) 16 = 1 := by decide
  have r : List.range 5 = [0, 1, 2, 3, 4] := rfl
  simp only [Ten.inside, mxElem, h, r, Bool.false_eq_true, if_false, List.all_cons, List.getD_cons_zero, e, h0]
  have : decide (1 * 512 + j < 4) = false := by simp; omega
  rw [this]; rfl

/-- An INT8 tensor of four columns. -/
def tTen0 : List Byte := leBytes (4 * 2 ^ 128 + 2 ^ 160 + 2 ^ 192 + 2 ^ 224 + 2 ^ 256 + (2 ^ 31 + 2 ^ 17) * 2 ^ 704) 128

def tPass : MxEntry := tEntry (.mxaReg (leBytes ((2 ^ 31 + 2 ^ 23) * 2 ^ 704) 128) 0 false 0 false false) (some 0)
def tPassed : State := tMxe { Mxe.reset with bb0 := { BBuf.reset with loaded := true, scl := true }, table := [tPass] }

/-- An entry of every kind that is due: a zeroing, a B operand and a drain of tiles outside their tensors, a pass of rows from registers, and a
pass of an empty B buffer. -/
theorem witness_MatrixCommandsComplete :
    (∀ kind, (tTable kind (some 0)).mxDue 0 9 = some (tEntry kind (some 0))) ∧
    (∃ s' b, (tTable (.mxb tTen0 1 false) (some 0)).loadB (tEntry (.mxb tTen0 1 false) (some 0)).acc (tenOf tTen0) 1 = (s', .ok b)) ∧
    (tPassed.mxDue 0 9 = some tPass ∧ (∃ s' ra, tPassed.passRows (tPassed.mxe 0).raw tPass = (s', .ok (tenOf (leBytes ((2 ^ 31 + 2 ^ 23) * 2 ^ 704) 128), some false, ra))) ∧
      (tPassed.mxe 0).passOk (tenOf (leBytes ((2 ^ 31 + 2 ^ 23) * 2 ^ 704) 128)) false (some false) = true) ∧
    (let e := tEntry (.drain false (tTen5 0) 1 false false) (some 0)
     ∃ s' sat, (tTable e.kind (some 0)).drainTile Mxe.reset e.acc (tenOf (tTen5 0)) 1 false false = (s', .ok sat)) ∧
    (∃ s' er va, (tTable tPass.kind (some 0)).mxEffect 0 tPass = (s', .error (er, va)) ∧ isDrainFault tPass (er, va) = false) ∧
    let e := { tEntry (.zero false true) (some 0) with read := true }
    (tMxe { Mxe.reset with table := [e] }).mxDue 0 9 = some e ∧ e.read = true := by
  refine ⟨fun kind => by cases kind <;> rfl, ?_, ⟨by decide +kernel, ⟨_, _, rfl⟩, by decide +kernel⟩, ?_, ?_, by decide +kernel, rfl⟩
  · have hv : (!(tenOf tTen0).valid || decide ((tenOf tTen0).fmt > 3)) = false := by decide +kernel
    have hs : (!(tenOf tTen0).scl) = true := by decide +kernel
    have hb := tAll (f := fun s (p : Nat × Nat) => State.mxRead s (tEntry (.mxb tTen0 1 false) (some 0)).acc (tenOf tTen0) (mxElem (tenOf tTen0) 1 256 512 p.1 p.2))
      (s := tTable (.mxb tTen0 1 false) (some 0)) (l := indexPairs 256 512) 0 (fun p _ => by
        have hf : mxInt (tenOf tTen0).fmt (tenOf tTen0).fill = some 0 := by decide +kernel
        simp only [State.mxRead, tOutside tTen0 (by decide +kernel) (by decide +kernel), Bool.not_false, if_true, hf])
    unfold State.loadB
    rw [hv, hs]
    simp only [Bool.false_eq_true, if_false, hb, if_true]
    exact ⟨_, _, rfl⟩
  · have hb := tAll (f := fun s (p : Nat × Nat) => State.drainPlaces s (tEntry (.drain false (tTen5 0) 1 false false) (some 0)).acc (tenOf (tTen5 0)) (mxElem (tenOf (tTen5 0)) 1 256 512 p.1 p.2))
      (s := tTable (.drain false (tTen5 0) 1 false false) (some 0)) (l := indexPairs 256 512) [] (fun p _ => by
        simp only [State.drainPlaces, Ten.writes, tOutside (tTen5 0) (by decide +kernel) (by decide +kernel), Bool.not_false, if_true, allSteps])
    have hok : (!((tenOf (tTen5 0)).valid && (if Mxe.reset.raw then (tenOf (tTen5 0)).fmt == 4 else (drainFmt (tenOf (tTen5 0)).fmt).isSome))) = false := by decide +kernel
    have hsp : (tenOf (tTen5 0)).sp = false := by decide +kernel
    have he : ∀ s : State, s.msys.ecc = [] → s.engMend [] = (s.modMsys fun m => { m with ecc := m.ecc.filter fun k => !([] : List Nat).contains k }, true) := by
      intro s h; simp [State.engMend, h]
    have hf : ∀ l : List (Nat × Nat), ((l.map fun _ => ([] : List (Nat × Nat × BitWrite))).flatMap fun l => l.map (·.2.1)) = [] := by
      intro l; induction l with
      | nil => rfl
      | cons a t ih => simp
    unfold State.drainTile
    simp only [hok, hsp, Bool.false_eq_true, if_false, Bool.false_and]
    rw [show (tEntry (.drain false (tTen5 0) 1 false false) (some 0)).kind = .drain false (tTen5 0) 1 false false from rfl, hb]
    simp only [hf, he _ (show (tTable (.drain false (tTen5 0) 1 false false) (some 0)).msys.ecc = [] from rfl)]
    exact ⟨_, _, rfl⟩
  · obtain ⟨s', ⟨er, va⟩, h, hc⟩ := of_error (p := (tTable tPass.kind (some 0)).mxEffect 0 tPass) (fun e => !isDrainFault tPass e) (by decide +kernel)
    exact ⟨s', er, va, h, by simpa using hc⟩

end Sys2Proof.Tests
end

