-- ==== Sys2Proof/Tests/WitnessesSystem.lean ====
section
/-! SUPPORT. Witnesses, continued: synchronisation, the system, input and output, management, the machine. -/

namespace Sys2Proof.Tests

-- one theorem after the other: many kernel evaluations at once take too much memory
set_option Elab.async false

open Sys2Proof.Machine
open Sys2Proof.Safety

-- Synchronisation

/-- A group that issues an instruction in a state of one group. -/
theorem issues_in (s : State) (g : Group) (q : Issue) (i : Instr) (hq : q.gid = 7) (hr : q.resume = none) (h : issuable g i = true) :
    Issues (State.issuing s g q) i q g := by
  unfold issuable at h
  simp only [Bool.and_eq_true, Bool.not_eq_true'] at h
  exact ⟨rfl, hr, by rw [hq]; rfl, h.1, h.2⟩

theorem resumes_in (s : State) (g : Group) (q : Issue) (w : Wait) (i : Instr) (hq : q.gid = 7) (hr : q.resume = some w) (h : issuable g i = true) :
    Resumes (State.issuing s g q) i q w g := by
  unfold issuable at h
  simp only [Bool.and_eq_true, Bool.not_eq_true'] at h
  exact ⟨rfl, hr, by rw [hq]; rfl, h.1, h.2⟩

def tBarred (b : Barrier) : State := { State.issuing tState tUser tIssue with bars := [(barKey 1 0 2, b)] }
def tMember : Barrier := { Barrier.reset with members := [7] }
def tW (why : Why) (i : Instr) (lanes : Lanes) : Wait := { Wait.of why (some i) lanes with tok := none }

/-- A group whose other lanes are elsewhere; a barrier with and without the group, behind and ahead; waits with and without a token. -/
theorem witness_GroupsMeetAndBarriersCount :
    (Issues tRun (.barG tH) tIssue tUser ∧ (Instr.barG tH).wf = true ∧ acts tH tIssue tUser ≠ 0 ∧ acts tH tIssue tUser = tIssue.lanes ∧
      (∀ r ∈ tUser.runs, r.lanes &&& ~~~tIssue.lanes ≠ 0 → r.atBarG = true) ∧
      ∃ q : Issue, Issues (State.issuing tState tUser q) (.barG tH) q tUser ∧ ¬ ∀ r ∈ tUser.runs, r.lanes &&& ~~~q.lanes ≠ 0 → r.atBarG = true) ∧
    (∀ b, (tBarred b).barOf tUser 0 2 = some (barKey 1 0 2, 1) ∧ (tBarred b).bar (barKey 1 0 2) = b ∧
      (∀ d, Issues (tBarred b) (.barArr tH 0 2 (some d)) tIssue tUser ∨ d ≠ .v 0) ∧ Issues (tBarred b) (.barSync tH 0 2) tIssue tUser ∧
      Issues (tBarred b) (.barWait tH 0 2 (.v 2)) tIssue tUser) ∧
    7 ∉ Barrier.reset.members ∧ 7 ∈ tMember.members ∧ NoOps (tBarred tMember) 7 ∧ ¬ 2 ≤ tMember.arr.get 0 7 + tMember.sent.get 0 7 ∧
    (∃ b : Barrier, 7 ∈ b.members ∧ 2 ≤ b.arr.get 0 7 + b.sent.get 0 7) ∧ (∃ s : State, Owes s 7) ∧
    PhaseOver 1 0 ∧ ¬ PhaseOver 0 0 ∧
    (∀ t, let w := { tW .barrier (.barSync tH 0 2) 1 with tok := t }
      Resumes (State.issuing tState tUser (tWait w)) (.barSync tH 0 2) (tWait w) w tUser ∧ WaitOver (State.issuing tState tUser (tWait w)) w ∧ w.lanes ≠ 0) := by
  refine ⟨⟨issues_of _ (by decide +kernel), by decide +kernel, by decide +kernel, by decide +kernel, by decide +kernel,
      tOne, issues_in _ _ _ _ rfl rfl (by decide +kernel), by decide +kernel⟩,
    fun b => ⟨rfl, rfl, fun d => ?_, ⟨rfl, rfl, rfl, by decide +kernel, by decide +kernel⟩, rfl, rfl, rfl, by decide +kernel, by decide +kernel⟩,
    by decide, by decide, (by rintro p ⟨⟩), by decide, ⟨{ tMember with arr := [(7, 1)], sent := [(7, 1)] }, by decide, by decide⟩,
    ⟨tLoads 0, _, .head _, rfl, by decide +kernel⟩, by decide, by decide,
    fun t => ⟨resumes_in _ _ _ _ _ rfl rfl (by decide +kernel), ⟨by rintro r ⟨⟩, by rintro id ⟨⟩⟩, (by decide : (1 : Lanes) ≠ 0)⟩⟩
  by_cases h : d = .v 0
  · subst h; exact .inl ⟨rfl, rfl, rfl, by decide +kernel, by decide +kernel⟩
  · exact .inr h

/-- A group waiting at a barrier for longer than its limit, in and outside a handler. -/
def tLate (intrap : Bool) : Group :=
  { tUser with
    runs := [{ lanes := fullLanes 64, pc := 0x1000, st := .waiting { tW .barrier (.barSync tH 0 2) (fullLanes 64) with tok := some 0, waited := 1001 }, stamp := 0 }]
    sys := { tUser.sys with intrap := intrap } }

theorem witness_BarrierMessages :
    (∃ s : State, 7 ∈ (s.bar (barKey 1 2 4)).members ∧ 0 < (s.bar (barKey 1 2 4)).sent.get 0 7) ∧
    (∃ s : State, 7 ∈ (s.bar (barKey 1 3 4)).members ∧ 7 < 2 ^ 40 ∧ 0 < (s.bar (barKey 1 3 4)).sent.get 0 7) ∧
    (∃ s : State, remoteMember 1 ∈ (s.bar (barKey 1 3 4)).members ∧ 2 ^ 40 ≤ remoteMember 1 ∧ (s.bar (barKey 1 3 4)).arr.get 0 (remoteMember 1) < 2) ∧
    (∃ g : Group, (∃ p ∈ g.pend, p.isLimit = true ∧ p.run = some tIssue.lanes) ∧ Resumes (State.issuing tState g (tWait (tW .barrier (.barSync tH 0 2) 1)))
      (.barSync tH 0 2) (tWait (tW .barrier (.barSync tH 0 2) 1)) (tW .barrier (.barSync tH 0 2) 1) g) ∧
    ∀ intrap, let s : State := { State.issuing tState (tLate intrap) tIssue with ctxs := [(1, { Ctx.reset with barlim := 1 })] }
      let w : Wait := { tW .barrier (.barSync tH 0 2) (fullLanes 64) with tok := some 0, waited := 1001 }
      s.group? 7 = some (tLate intrap) ∧ (tLate intrap).barWaitOf (fullLanes 64) = some (0x1000, w) ∧ w.atBar = some (0, 2) ∧
        w.tok = some 0 ∧ s.barLimit (tLate intrap) 0 = (1000, false) ∧ 1000 < w.waited ∧ (tLate intrap).pend = [] ∧ (tLate intrap).nextPend = none := by
  refine ⟨⟨{ tRun with bars := [(barKey 1 2 4, { tMember with sent := [(7, 1)] })] }, by decide +kernel, by decide +kernel⟩,
    ⟨{ tRun with bars := [(barKey 1 3 4, { tMember with sent := [(7, 1)] })] }, by decide +kernel, by decide, by decide +kernel⟩,
    ⟨{ tRun with bars := [(barKey 1 3 4, { tMember with members := [remoteMember 1] })] }, by decide +kernel, by decide, by decide +kernel⟩,
    ⟨{ tUser with pend := [{ cause := .barrierTimeout, mask := 1, pc := none, npc := none, addr := 0, inTrap := false, run := some tIssue.lanes, other := false }] }, ⟨_, .head _, rfl, rfl⟩,
      resumes_in _ _ _ _ _ rfl rfl (by decide +kernel)⟩, fun intrap => ?_⟩
  exact ⟨rfl, by rfl, rfl, rfl, by cases intrap <;> decide +kernel, by decide, rfl, rfl⟩

/-- A watchpoint on the first 4 KiB of the scratchpad. -/
def tWatch : PartDbg := { PartDbg.reset with wctl := [(0, 0x80000B0C)] }
def tWatched (s : State) : State := { s with cores := [(0, { tCore with part0 := tWatch })] }

theorem tFree (sp rd wr : Bool) (a n : Nat) : PartDbg.reset.watches sp rd wr a n = false := by
  simp [PartDbg.watches, PartDbg.reset, SMap.get, SMap.find]

theorem tUnwatched {s : State} {q : Issue} {g : Group} {sp rd wr : Bool} {a n : Nat} (hd : g.sys.debug = false) (hn : ((s.core g.info.core).part g.info.part).stopped = none)
    (hw : g.sched.noWatch = [])
    (h : ((s.core g.info.core).part g.info.part).watches sp rd wr a n = true) : ¬ Unwatched s q g sp rd wr a n := by
  simp [Unwatched, hd, hn, hw, h]

def tChan (queue : List (List Byte)) : Channel := { slots := 2, bytes := 16, producer := 0, consumer := 0, queue := queue }
def tChans (g : Group) (queue : List (List Byte)) (q : Issue) : State := { State.issuing tState g q with chans := [(3, tChan queue)] }

/-- Broadcasts in both forms; a channel empty, with a payload and full; payloads well placed, misaligned and outside the window. -/
theorem witness_BroadcastsAndChannelsDeliver :
    (∀ rel, Issues tRun (.sbcast tH 2 rel (.v 2)) tIssue tUser) ∧
    (let i := Instr.sbcast tH 2 true (.v 2)
     let w := Wait.of .release (some i) 1
     Resumes (State.issuing tState tUser (tWait w)) i (tWait w) w tUser ∧ WaitOver (State.issuing tState tUser (tWait w)) w) ∧
    (Issues tRun (.sbrecv tH 2 (.v 2)) tIssue tUser ∧ (Instr.sbrecv tH 2 (.v 2)).wf = true ∧ tRun.slots.get (0, 0, false) (slotKeyOf 1 2) = (0, 0, false) ∧
      tUser.bseq.get 0 2 = 0 ∧ ∃ s : State, s.slots.get (0, 0, false) (slotKeyOf 1 2) = (5, 1, false)) ∧
    (∀ qs, (tChans tUser qs tIssue).chanKeyOf tUser 3 = some 3 ∧ (tChans tUser qs tIssue).chans.find 3 = some (tChan qs) ∧
      Issues (tChans tUser qs tIssue) (.chsend tH 3 (.v 2)) tIssue tUser ∧ Issues (tChans tUser qs tIssue) (.chrecv tH 3 (.v 2)) tIssue tUser ∧
      OwnRange (tChans tUser qs tIssue) tUser 0 16 0 0 ∧ (tChans tUser qs tIssue).aheadOn recvSide 3 7 0 = false ∧
      ∀ rd wr, Unwatched (tChans tUser qs tIssue) tIssue tUser true rd wr 0 16) ∧
    (let s := tWatched (tChans tUser [] tIssue)
     s.chanKeyOf tUser 3 = some 3 ∧ s.chans.find 3 = some (tChan []) ∧ Issues s (.chsend tH 3 (.v 2)) tIssue tUser ∧ Issues s (.chrecv tH 3 (.v 2)) tIssue tUser ∧
      ¬ Unwatched s tIssue tUser true true false 0 16 ∧ ¬ Unwatched s tIssue tUser true false true 0 16) ∧
    tUser.info.kind = .role ∧ (tChan []).producer = tUser.info.role ∧ (tUser.rd32 0 (.v 2)).toNat % 16 = 0 ∧ ((tBind 8 0).rd32 0 (.v 2)).toNat % 16 ≠ 0 ∧
    (∀ core off, ¬ OwnRange (tChans (tBind 4096 0) [] tIssue) (tBind 4096 0) 4096 16 core off) ∧
    (let i := Instr.chsend tH 3 (.v 2)
     ∀ why, let w := Wait.of why (some i) 1
     Resumes (tChans tUser [] (tWait w)) i (tWait w) w tUser ∧ WaitOver (tChans tUser [] (tWait w)) w ∧ (tChans tUser [] (tWait w)).aheadOn sendSide 3 7 0 = false) ∧
    (tChan []).queue.length < (tChan []).slots ∧ (tChan [[], []]).slots ≤ (tChan [[], []]).queue.length := by
  refine ⟨fun rel => issues_of _ (by cases rel <;> decide +kernel), ⟨resumes_in _ _ _ _ _ rfl rfl (by decide +kernel), by rintro r ⟨⟩, by rintro id ⟨⟩⟩,
    ⟨issues_of _ (by decide +kernel), by decide +kernel, rfl, rfl, { tRun with slots := [(slotKeyOf 1 2, (5, 1, false))] }, by decide +kernel⟩,
    fun qs => ⟨rfl, rfl, ⟨rfl, rfl, rfl, by decide +kernel, by decide +kernel⟩, ⟨rfl, rfl, rfl, by decide +kernel, by decide +kernel⟩,
      ⟨tWg, tAlloc, rfl, rfl, by decide, rfl, rfl⟩, by rfl, fun rd wr => .inr (.inr (.inr (tFree true rd wr 0 16)))⟩,
    ⟨rfl, rfl, ⟨rfl, rfl, rfl, by decide +kernel, by decide +kernel⟩, ⟨rfl, rfl, rfl, by decide +kernel, by decide +kernel⟩, tUnwatched rfl rfl rfl (by decide +kernel),
      tUnwatched rfl rfl rfl (by decide +kernel)⟩,
    rfl, rfl, by decide +kernel, by decide +kernel, ?_, fun why => ⟨⟨rfl, rfl, rfl, by decide +kernel, by decide +kernel⟩, ⟨by rintro r ⟨⟩, by rintro id ⟨⟩⟩, by rfl⟩,
    by decide, by decide⟩
  rintro core off ⟨w, al, hw, ha, hle, -, -⟩
  cases hw; cases ha
  exact absurd hle (by decide)

/-- A mailbox of two entries at address 0, its entries at 256: so many puts, no gets. -/
def tBox (puts : Nat) (s : State) : State := s.homeWrite 0 0 (leBytes (256 + 2 ^ 64 + puts * 2 ^ 128) 64)
def tOneWait (w : Wait) : Issue := { tOne with resume := some w }

/-- The header, and the entries of a put and of a get, in a state in which lane 0 of group 7 steps the mailbox. -/
def tBoxed (puts : Nat) (g : Group) (q : Issue) : Prop :=
  let s := tBox puts (State.issuing tState g q)
  s.msys.smapBusy = false ∧ ∃ hd, hd.held = puts ∧ hd.log2n = 1 ∧ (∀ a, (a = .v 2 ∨ a = .v 4) → HeaderAt s q g a 0 { pa := 0, key := 0, typ := 0 } hd) ∧
    ∀ put, ∃ y, EntryAt s q g put hd y

theorem tBox_msys (puts : Nat) (g : Group) (q : Issue) : (tBox puts (State.issuing tState g q)).msys = (tBox puts tRun).msys := by
  simp only [tBox, State.homeWrite, State.modMsys, State.issuing]

theorem tLanded (puts pa key n : Nat) (g : Group) (q : Issue) : Landed (tBox puts (State.issuing tState g q)) 0 pa key n := by
  intro i _
  rfl

theorem tBoxed_of (puts : Nat) (h : puts ≤ 2) (rs : List Run) (q : Issue) : tBoxed puts { tUser with runs := rs } q := by
  have hp : puts = 0 ∨ puts = 1 ∨ puts = 2 := by omega
  have hm := tBox_msys puts { tUser with runs := rs } q
  unfold tBoxed
  refine ⟨by rw [hm]; rcases hp with rfl | rfl | rfl <;> decide +kernel, mbHeader ((tBox puts tRun).msys.bytes 0 0 64), ?_, ?_, ?_, ?_⟩
  · rcases hp with rfl | rfl | rfl <;> decide +kernel
  · rcases hp with rfl | rfl | rfl <;> decide +kernel
  · intro a ha
    have hx : (Group.rd64 { tUser with runs := rs } 0 a).toNat = 0 := by
      have : (tUser.rd64 0 a).toNat = 0 := by rcases ha with rfl | rfl <;> decide +kernel
      exact this
    have hb : (tBox puts tRun).msys.bad 0 64 = false ∧ (mbHeader ((tBox puts tRun).msys.bytes 0 0 64)).ok = true := by
      rcases hp with rfl | rfl | rfl <;> exact ⟨by decide +kernel, by decide +kernel⟩
    have hr : Reaches (tBox puts (State.issuing tState { tUser with runs := rs } q)) q { tUser with runs := rs } .atomic .normal
        (Group.rd64 { tUser with runs := rs } 0 a).toNat 64 { pa := 0, key := 0, typ := 0 } := by
      rw [hx]; exact ⟨rfl, .inr (.inr (.inr (tFree false _ _ _ _))), rfl⟩
    exact ⟨rfl, tLanded _ _ _ _ _ _, hr, by decide, by rw [hm]; exact hb.1, by rw [hm], hb.2⟩
  · intro put
    have hh : let hd := mbHeader ((tBox puts tRun).msys.bytes 0 0 64)
        hd.base = 256 ∧ hd.puts = puts ∧ hd.gets = 0 ∧ hd.log2n = 1 := by rcases hp with rfl | rfl | rfl <;> decide +kernel
    have hb : (tBox puts tRun).msys.bad (256 + 8 * ((if put then puts else 0) % 2 ^ 1)) 8 = false := by
      rcases hp with rfl | rfl | rfl <;> cases put <;> decide +kernel
    have hv : 256 + 8 * ((if put then puts else 0) % 2 ^ 1) < hbmSize := by rcases hp with rfl | rfl | rfl <;> cases put <;> decide +kernel
    refine ⟨⟨256 + 8 * ((if put then puts else 0) % 2 ^ 1), 0, 0⟩, ?_⟩
    unfold EntryAt
    simp only [hh.1, hh.2.1, hh.2.2.1, hh.2.2.2]
    refine ⟨tLanded _ _ _ _ _ _, .inr (.inr (.inr (tFree false _ _ _ _))), hv, by rw [hm]; exact hb, ?_⟩
    rcases hp with rfl | rfl | rfl <;> cases put <;> rfl

theorem witness_MailboxSteps :
    (∀ puts, puts ≤ 2 → let s := tBox puts (State.issuing tState tUser tOne)
      Issues s (.mbget tH true (.v 2) (.v 4)) tOne tUser ∧ (Instr.mbget tH true (.v 2) (.v 4)).wf = true ∧ Issues s (.mbput tH true (.v 2) (.v 4)) tOne tUser ∧
      acts tH tOne tUser ≠ 0 ∧ actors tH tOne tUser = [0] ∧ tBoxed puts tUser tOne) ∧
    (let i := Instr.mbput tH true (.v 2) (.v 4)
     let w := Wait.of .release (some i) 1
     let s := tBox 1 (State.issuing tState tUser (tOneWait w))
     Resumes s i (tOneWait w) w tUser ∧ WaitOver s w ∧ w.lanes = laneBit 0 ∧ tBoxed 1 tUser (tOneWait w)) ∧
    ∀ i, (i = .mbget tH false (.v 2) (.v 4) ∨ i = .mbput tH true (.v 2) (.v 4)) → ∀ puts, puts ≤ 2 →
     let w := Wait.of .mailbox (some i) 1
     let r : Run := { lanes := 1, pc := 0x1000, st := .waiting w, stamp := 0 }
     let g := { tUser with runs := [r] }
     let s := tBox puts (State.issuing tState g { gid := 7, lanes := r.lanes, pc := r.pc, resume := some w })
     s.group? 7 = some g ∧ g.mailboxRun 1 = some (r, w, i) ∧ breaksBudget g.info.budget i = false ∧ WaitOver s w ∧ w.lanes = laneBit 0 ∧
       tBoxed puts g { gid := 7, lanes := r.lanes, pc := r.pc, resume := some w } ∧ i.wf = true := by
  refine ⟨fun puts hp => ⟨⟨rfl, rfl, rfl, by decide +kernel, by decide +kernel⟩, by decide +kernel, ⟨rfl, rfl, rfl, by decide +kernel, by decide +kernel⟩,
      by decide +kernel, by decide +kernel, tBoxed_of puts hp _ _⟩,
    ⟨⟨rfl, rfl, rfl, by decide +kernel, by decide +kernel⟩, ⟨by rintro r ⟨⟩, by rintro id ⟨⟩⟩, rfl, tBoxed_of 1 (by decide) _ _⟩, ?_⟩
  intro i hi puts hp
  rcases hi with rfl | rfl <;>
    exact ⟨rfl, rfl, by decide +kernel, ⟨by rintro r ⟨⟩, by rintro id ⟨⟩⟩, rfl, tBoxed_of puts hp _ _, by decide +kernel⟩

-- Directory, census and work graphs

def tDirs (g : Group) (dir : SMap DirEntry) (q : Issue) : State := { State.issuing tState g q with cores := [(0, { tCore with dir := dir })] }
def tTile : DirEntry := { DirEntry.reset with st := .valid, alloc := 1, gen := 1, len := 16 }
/-- V4 and V5 of lane 0: offset and length of a tile. -/
def tTileAt (off len : Word) : Group := (tUser.wr32 0 (.v 4) off).wr32 0 (.v 5) len
def tFullDir : SMap DirEntry := (List.range 128).map fun n => (n, tTile)
def tMove (status : Option Nat) : Move :=
  { id := 9, core := 0, gid := 7, op := 5, entry := 0, target := 0, tAlloc := 1, tGen := 1, tOff := 64, status := status, issued := 0, due := 0 }
def tMoves (dir : SMap DirEntry) (mv : Move) : State :=
  { tLoads 10 with
    cores := [(0, { tCore with dir := dir })]
    clusters := [(0, { Cluster.reset with bte := { Cluster.reset.bte with moves := [mv] } })] }

/-- An insertion of each outcome, a deletion that names an entry and one that does not, a move, and a move that ends: refused, into a free place,
into a full directory, stale. -/
theorem witness_DirectoryKeepsTiles :
    (let i := Instr.dirins tH true (.v 1) (.v 2) (.v 4)
     Issues (tDirs (tTileAt 0 16) [] tIssue) i tIssue (tTileAt 0 16) ∧ i.wf = true ∧ acts tH tIssue (tTileAt 0 16) ≠ 0 ∧
     ((tTileAt 0 16).rd64 0 (.v 4)).toNat = 16 * 2 ^ 32 ∧ ((tTileAt 8 16).rd64 0 (.v 4)).toNat % 16 ≠ 0 ∧ ((tTileAt 0 0).rd64 0 (.v 4)).toNat / 2 ^ 32 = 0 ∧
     0 + 16 ≤ tAlloc.size ∧ ((tDirs tUser [] tIssue).dirOf 0 0).st = .free ∧ ∀ n, n < 128 → ((tDirs tUser tFullDir tIssue).dirOf 0 n).st ≠ .free) ∧
    (Issues (tDirs tUser [(0, tTile)] tIssue) (.dirdel tH (.v 2)) tIssue tUser ∧ (tUser.rd32 0 (.v 2)).toNat < 128 ∧
      ((tDirs tUser [(0, tTile)] tIssue).dirOf 0 0).asid = ((tDirs tUser [(0, tTile)] tIssue).ctx 1).asid ∧
      ((tDirs tUser [(0, tTile)] tIssue).dirOf 0 0).st = .valid ∧ ((tDirs tUser [] tIssue).dirOf 0 0).st ≠ .valid) ∧
    (let g := tUser.wr32 0 (.v 4) 0x80000
     Issues (tDirs g [(0, tTile)] tIssue) (.tmove tH (.v 1) (.v 2) (.v 4)) tIssue g ∧ (g.rd32 0 (.v 4)).toNat % 16 = 0 ∧ 0x80000 ≤ (g.rd32 0 (.v 4)).toNat ∧
      (g.rd32 0 (.v 4)).toNat < 0x200000 ∧ (tUser.rd32 0 (.v 4)).toNat < 0x80000) ∧
    (∀ st, ((((tMoves [(0, tTile)] (tMove st)).bte 0).moves.find? fun m => m.id == 9 && decide (m.due ≤ 0)) = some (tMove st)) ∧
      (tMoves [(0, tTile)] (tMove st)).allocs.find ((tMoves [(0, tTile)] (tMove st)).dirOf 0 0).alloc = some tAlloc ∧
      Outstanding (tMoves [(0, tTile)] (tMove st)) 5 0 (tLoad 10) (tAcc 10)) ∧
    (let s := tMoves [(0, tTile)] (tMove none); s.stale 1 1 64 16 0 s.clock.ns = false) ∧ (0, 0) ≠ (0, 1) ∧ ((tMoves [(0, tTile)] (tMove none)).dirOf 0 1).st = .free ∧
    (∀ n, n < 128 → ((tMoves tFullDir (tMove none)).dirOf 0 n).st ≠ .free) ∧ (let s := tMoves [(0, tTile)] { tMove none with tGen := 0 }; s.stale 1 0 64 16 0 s.clock.ns = true) := by
  have full : ∀ n, n < 128 → (tFullDir.get DirEntry.reset n).st ≠ .free := by
    have : ((List.range 128).all fun n => (tFullDir.get DirEntry.reset n).st != .free) = true := by decide +kernel
    intro n hn
    simpa using List.all_eq_true.mp this n (List.mem_range.mpr hn)
  refine ⟨⟨⟨rfl, rfl, rfl, by decide +kernel, by decide +kernel⟩, by decide +kernel, by decide +kernel, by decide +kernel, by decide +kernel, by decide +kernel,
      by decide, rfl, full⟩,
    ⟨⟨rfl, rfl, rfl, by decide +kernel, by decide +kernel⟩, by decide +kernel, rfl, rfl, by decide⟩,
    ⟨⟨rfl, rfl, rfl, by decide +kernel, by decide +kernel⟩, by decide +kernel, by decide +kernel, by decide +kernel, by decide +kernel⟩,
    fun st => ⟨rfl, rfl, tOut rfl⟩, by decide +kernel, by decide, rfl, full, by decide +kernel⟩

def tCensus (st : CenState) : Census := { Census.reset with st := st, serial := 1, wg := 1, gid := 7, ctx := 1 }
def tCens (g : Group) (c : Census) (q : Issue) : State :=
  { State.issuing tState g q with
    cores := [(0, { tCore with census := [(0, c)], dir := [(0, tTile)] })]
    resident := some 1
    ctxs := [(1, { Ctx.reset with cenlim := 1 })] }

def tNode : Node := { pc := 0x2000, reclen := 16, coalesce := 2, width := 8, regs := 8, timer := 0, prio := 0, ok := true }
def tLaunch : Launch :=
  { core := 0, space := { root := 0, asid := 0, key := 0, user := true }, va := 0, ctx := 1, st := .started, wid := [], team := 1, teams := 1,
    scratch := 4096, graph := 0x100, trigger := 0, window := 0, missedMode := 0, roles := [], bars := [], chans := [], placed := [], reserved := false,
    inject := none, startTime := 0, late := false, gang := none, teamBase := 0 }
def tGraph (s : State) : State :=
  { s.homeWrite 0 0x100 (leBytes (0x2000 + 16 * 2 ^ 64 + 2 * 2 ^ 80 + 8 * 2 ^ 88 + 8 * 2 ^ 96 + 128 * 2 ^ 128) 32) with
    launches := [(1, tLaunch)], resident := some 1 }
def tSpawn : Spawn := { census := cenRef 1 0, key := 0, alloc := 1, off := 0, len := 16, arg := 0, pc := 0x2000, ctx := 1, slot := some (0, 0, 8) }

theorem of_none {α β : Type} {p : α × Option β} (h : p.2.isNone = true) : ∃ a, p = (a, none) :=
  ⟨p.1, Prod.ext rfl (Option.isNone_iff_eq_none.mp h)⟩

/-- A solicit with and without a free slot and with a bad address; a census in each state; a responder to start and to reply; a record for a valid
node and for none, and a bin that is due. -/
theorem witness_CensusesAndWorkRecordsAct :
    (let i := Instr.solicit tH 0 (.v 1) 8
     Issues tRun i tIssue tUser ∧ i.wf = true ∧ acts tH tIssue tUser = tIssue.lanes ∧ (tUser.regs.s.get 0 (8 + 3)).toNat % 4 = 0 ∧
     (tRun.censusAt 0).st = .free ∧ ∃ s : State, ∀ n, n < 4 → (s.censusAt (0 * 4 + n)).st ≠ .free) ∧
    (∀ st, st ≠ .free → (tCens tUser (tCensus st) tIssue).census? (cenRef 1 0) = some (tCensus st)) ∧
    (tCens tUser { tCensus .counting with age := 1000 } tIssue).censusLate { tCensus .counting with age := 1000 } = true ∧
    (tCens tUser (tCensus .opened) tIssue).resident = some (tCensus .opened).ctx ∧
    (∃ s : State, (s.core 0).spawn = [{ tSpawn with slot := some (1, 0, 9) }] ++ tSpawn :: [] ∧ (∀ b ∈ [{ tSpawn with slot := some (1, 0, 9) }], ∀ p n since, b.slot = some (p, n, since) → s.clock.cc < since) ∧
      tSpawn.slot = some (0, 0, 8) ∧ 8 ≤ s.clock.cc) ∧
    (Issues (State.issuing tState tReply tIssue) (.reply tH (.v 2)) tIssue tReply ∧ tReply.info.kind = .responder 2048 false ∧ tIssue.lanes = tReply.live ∧
      tOne.lanes ≠ tReply.live ∧ Issues (State.issuing tState tReply tOne) (.reply tH (.v 2)) tOne tReply ∧
      let w := Wait.of .release (some (.reply tH (.v 2))) (fullLanes 64)
      Resumes (State.issuing tState tReply (tWait w)) (.reply tH (.v 2)) (tWait w) w tReply ∧ WaitOver (State.issuing tState tReply (tWait w)) w) ∧
    (∀ st, Issues (tCens tUser (tCensus st) tIssue) (.census tH (.v 2) (.v 4)) tIssue tUser ∧ Issues (tCens tUser (tCensus st) tIssue) (.cenpoll tH 1 (.v 2)) tIssue tUser ∧
      ((tCens tUser (tCensus st) tIssue).censusAt 0).wg = tUser.info.wg ∧ ((tCens tUser (tCensus st) tIssue).censusAt 0).st = st) ∧
    (let s := tGraph (State.issuing tState tUser tOne)
     actors tH tOne tUser = [0] ∧ s.nodeAt 1 (tUser.rd32 0 (.v 2)).toNat = some tNode ∧ (∃ s', s.nodeRead 1 1 = (s', none)) ∧ (tUser.rd32 0 (.v 4)).toNat % 16 = 0 ∧
      OwnRange s tUser 0 tNode.reclen 0 0 ∧ OwnRange s tUser 0 1 0 0 ∧ (∀ n, Unwatched s tOne tUser true true false 0 n) ∧
      Issues s (.nrec tH (.v 2) (.v 4)) tOne tUser ∧
      let w := Wait.of .release (some (.nrec tH (.v 2) (.v 4))) 1
      let s' := tGraph (State.issuing tState tUser (tOneWait w))
      Resumes s' (.nrec tH (.v 2) (.v 4)) (tOneWait w) w tUser ∧ WaitOver s' w ∧ w.lanes = laneBit 0 ∧ s'.binWindow 0 (binNo 1 0) = 0 ∧
      (s'.bin (binNo 1 0)).records.length + 1 < tNode.coalesce ∧ tNode.timer = 0 ∧ (s'.nodeRead 1 0).1.nodeAt 1 0 = some tNode ∧ OwnRange s' tUser 0 tNode.reclen 0 0) ∧
    (let s : State := { tGraph tRun with bins := [(binNo 1 0, { records := [(0, [1]), (0, [2])], waiting := [] })] }
     s.nodeAt 1 0 = some tNode ∧ s.launches.find 1 = some tLaunch ∧ s.binDue tNode (s.bin (binNo 1 0)) = true ∧ s.resident = some tLaunch.ctx ∧
      ∃ core base gen part place more, s.nodePlace tNode = some (core, base, gen, (part, place) :: more)) := by
  refine ⟨⟨issues_of _ (by decide +kernel), by decide +kernel, by decide +kernel, by decide +kernel, rfl,
      { tRun with cores := [(0, { tCore with census := [(0, tCensus .opened), (1, tCensus .opened), (2, tCensus .opened), (3, tCensus .opened)] })] }, ?_⟩,
    fun st h => ?_, by decide +kernel, rfl,
    ⟨{ tRun with cores := [(0, { tCore with spawn := [{ tSpawn with slot := some (1, 0, 9) }, tSpawn] })], clock := { Clock.reset with cc := 8 } }, rfl, ?_, rfl, by decide⟩,
    ⟨issues_of _ (by decide +kernel), rfl, by decide +kernel, by decide +kernel, issues_in _ _ _ _ rfl rfl (by decide +kernel),
      resumes_in _ _ _ _ _ rfl rfl (by decide +kernel), by rintro r ⟨⟩, by rintro id ⟨⟩⟩,
    fun st => ⟨⟨rfl, rfl, rfl, by decide +kernel, by decide +kernel⟩, ⟨rfl, rfl, rfl, by decide +kernel, by decide +kernel⟩, rfl, rfl⟩,
    ⟨by decide +kernel, by decide +kernel, of_none (by decide +kernel), by decide +kernel, ⟨tWg, tAlloc, rfl, rfl, by decide, rfl, rfl⟩,
      ⟨tWg, tAlloc, rfl, rfl, by decide, rfl, rfl⟩, fun n => .inr (.inr (.inr (tFree _ _ _ _ _))),
      ⟨rfl, rfl, by decide +kernel, by decide +kernel, by decide +kernel⟩, ⟨rfl, rfl, by decide +kernel, by decide +kernel, by decide +kernel⟩,
      ⟨by rintro r ⟨⟩, by rintro id ⟨⟩⟩, rfl, by decide +kernel, by decide +kernel, rfl, by decide +kernel, ⟨tWg, tAlloc, rfl, rfl, by decide, rfl, rfl⟩⟩, ?_⟩
  · intro n hn
    have : n = 0 ∨ n = 1 ∨ n = 2 ∨ n = 3 := by omega
    rcases this with rfl | rfl | rfl | rfl <;> decide +kernel
  · cases st <;> first | exact absurd rfl h | rfl
  · intro b hb p n since h
    rw [List.mem_singleton] at hb; subst hb; cases h; decide
  · refine ⟨by decide +kernel, rfl, by decide +kernel, rfl, ?_⟩
    have : ((({ tGraph tRun with bins := [(binNo 1 0, { records := [(0, [1]), (0, [2])], waiting := [] })] } : State).nodePlace tNode).any
      fun p => !p.2.2.2.isEmpty) = true := by decide +kernel
    obtain ⟨⟨core, base, gen, more⟩, h, hm⟩ := (Option.any_eq_true _ _).mp this
    cases more with
    | nil => simp at hm
    | cons a t => exact ⟨core, base, gen, a.1, a.2, t, h⟩

-- System calls, exceptions, debugger, system registers

def tCallGid : Nat := gidOf 0 0 0 1
def tCaller : Group := { tUser with runs := [{ lanes := 1, pc := 0x3000, st := .syscallParked, stamp := 0 }] }
/-- The supervisor with V2, V3 naming lane 0 of the caller. -/
def tReturner : Group := tSuper.wr32 0 (.v 2) (BitVec.ofNat 32 (2 ^ 22))
def tCalled (q : Issue) : State := { State.issuing tState tReturner q with groups := [(7, tReturner), (tCallGid, tCaller)] }

theorem tOnly : ∀ l, (acts tH tOne tReturner).getLsbD l = true →
    (State.issuing tState tReturner tOne).callerOf 0 (tReturner.rd32 l (.v 2)) (tReturner.rd32 l (.v 3)) = none := by
  have h : (acts tH tOne tReturner) = 1 := by decide +kernel
  intro l hl
  rw [h] at hl
  have : l = 0 := by
    by_contra n
    obtain ⟨k, rfl⟩ := Nat.exists_eq_succ_of_ne_zero n
    simp [BitVec.getLsbD, Nat.testBit_succ] at hl
  subst this; decide +kernel

def tSvqEntry : SvqEntry := { words := List.replicate 16 1, kind := 0, ctx := 1, gid := 7, lane := 0, posted := 0, tag := 0 }

/-- A group in its handler, whose return address is given. -/
def tTrapped (g : Group) (npc : Dword) : Group :=
  { g with sys := { g.sys with intrap := true, trap := { g.sys.trap with run := fullLanes 64, npc := npc } } }

/-- Calls of the user, of a handler and of the supervisor; a return to a parked caller and to none; a halted supervisor with an entry of age; returns
from a handler, good, misaligned and with lanes elsewhere; and no handler. -/
theorem witness_SystemCallsAndReturns :
    (Issues tRun (.sys tH 5) tIssue tUser ∧ tUser.info.kind ≠ .super ∧ acts tH tIssue tUser ≠ 0 ∧ tUser.sys.intrap = false ∧ (tRun.core 0).svqWin = [] ∧
      (tRun.core 0).svq.length + (laneList (acts tH tIssue tUser)).length ≤ 256) ∧
    (Issues (State.issuing tState tSuper tIssue) (.sys tH 5) tIssue tSuper ∧ tSuper.info.kind = .super) ∧
    Issues (State.issuing tState tSuper tIssue) (.svqpop tH 16) tIssue tSuper ∧
    (let i := Instr.sysret tH (.v 2) (.v 4)
     let w := Wait.of .release (some i) 1
     Resumes (tCalled (tOneWait w)) i (tOneWait w) w tReturner ∧ WaitOver (tCalled (tOneWait w)) w ∧ w.lanes = laneBit 0 ∧
      callerNamed 0 (tReturner.rd32 0 (.v 2)) (tReturner.rd32 0 (.v 3)) = (tCallGid, 0) ∧ tCallGid ≠ 7 ∧ tCaller.parkedAt 0 = some 0x3000 ∧
      (tCalled (tOneWait w)).group? tCallGid = some tCaller ∧ tCaller.pcOf 0 = some 0x3000 ∧
      Issues (tCalled tOne) i tOne tReturner ∧ (acts tH tOne tReturner).getLsbD 0 = true ∧
      (tCalled tOne).callerOf 0 (tReturner.rd32 0 (.v 2)) (tReturner.rd32 0 (.v 3)) = some (tCallGid, 0) ∧
      Issues (State.issuing tState tReturner tOne) i tOne tReturner ∧ ∀ l, (acts tH tOne tReturner).getLsbD l = true →
        (State.issuing tState tReturner tOne).callerOf 0 (tReturner.rd32 l (.v 2)) (tReturner.rd32 l (.v 3)) = none) ∧
    (∃ s : State, ∃ g, s.group? (superGid 0) = some g ∧ (s.ipendOf 0 &&& (s.core 0).imask &&& 4) ≠ 0) ∧
    Issues (State.issuing tState (tTrapped tUser 2) tIssue) (.trapretWrite tH (.v 2)) tIssue (tTrapped tUser 2) ∧
    Issues (State.issuing tState (tTrapped tSuper 0x1008) tIssue) (.iret tH) tIssue (tTrapped tSuper 0x1008) ∧
    Issues (State.issuing tState tSuper tIssue) (.iret tH) tIssue tSuper ∧ tSuper.sys.intrap = false ∧ (tTrapped tUser 0).sys.intrap = true ∧
    ((tTrapped tUser 0).sys.trap.run &&& (tTrapped tUser 0).live) &&& ~~~tOne.lanes ≠ 0 ∧
    ((tTrapped tUser 0).sys.trap.run &&& (tTrapped tUser 0).live) &&& ~~~tIssue.lanes = 0 ∧
    (tTrapped tUser 2).sys.trap.npc.toNat % 4 ≠ 0 ∧ (tTrapped tUser 0x1008).sys.trap.npc.toNat % 4 = 0 ∧ (tTrapped tUser 0x1008).sys.trap.npc.toNat < 2 ^ 48 := by
  exact ⟨⟨issues_of _ (by decide +kernel), by decide, by decide +kernel, rfl, rfl, by decide +kernel⟩, ⟨issues_of _ (by decide +kernel), rfl⟩,
    issues_of _ (by decide +kernel), ⟨⟨rfl, rfl, rfl, by decide +kernel, by decide +kernel⟩, ⟨by rintro r ⟨⟩, by rintro id ⟨⟩⟩, rfl, by decide +kernel,
      by decide, by decide +kernel, rfl, by decide +kernel, ⟨rfl, rfl, rfl, by decide +kernel, by decide +kernel⟩, by decide +kernel, by decide +kernel,
      ⟨rfl, rfl, rfl, by decide +kernel, by decide +kernel⟩, tOnly⟩,
    ⟨{ tRun with groups := [(superGid 0, tSuper)], cores := [(0, { tCore with imask := 4, svq := [{ tSvqEntry with kind := 1 }] })] }, tSuper, by decide +kernel, by decide +kernel⟩,
    issues_of _ (by decide +kernel), issues_of _ (by decide +kernel), issues_of _ (by decide +kernel), rfl, rfl, by decide +kernel, by decide +kernel, by decide, by decide, by decide⟩

def tPart : PartDbg := { PartDbg.reset with attach := true, haltReq := true, bp := [(1, 0x1001)] }
def tParts (d : PartDbg) : State := { State.issuing tState tUser tIssue with cores := [(0, { tCore with part0 := d })] }

def tShadow (rs : List Run) : Shadow := { trap := tUser.sys.trap, intrap := true, npc := 0x2000, runs := rs }
/-- The agent after a stop of lanes that had a state of their own; it returns them to a PC. -/
def tReturns (npc : Dword) (rs : List Run) : Group :=
  { tAgent with sys := { tAgent.sys with shadow := some (tShadow rs), trap := { tAgent.sys.trap with run := fullLanes 64, npc := npc } } }

theorem witness_DebuggerAndSamplerObserve :
    (Issues tRun (.brk tH 7) tIssue tUser ∧ acts tH tIssue tUser ≠ 0 ∧ tUser.sys.debug = false) ∧
    (Issues (State.issuing tState tAgent tIssue) (.brk tH 7) tIssue tAgent ∧ tAgent.sys.debug = true ∧
      Issues (State.issuing tState tAgent tIssue) (.dbgret tH true false) tIssue tAgent ∧ tAgent.info.part < 2) ∧
    (let s := tParts tPart
     s.cur = some tIssue ∧ s.group? tIssue.gid = some tUser ∧ ((s.core 0).part 0).attach = true ∧ ((s.core 0).part 0).haltReq = true ∧
      ((s.core 0).part 0).stopped = none ∧ s.breakpointAt tUser tIssue.pc = some 1) ∧
    (∀ npc rs, let g := tReturns npc rs
     Issues (State.issuing tState g tIssue) (.dbgret tH true true) tIssue g ∧ acts tH tIssue g ≠ 0 ∧ g.sys.shadow = some (tShadow rs) ∧
      g.sys.trap.npc = npc) ∧ entryPc 0x2000 = (tShadow []).npc ∧ entryPc 0x3000 ≠ (tShadow []).npc ∧
    (let parked : Run := { lanes := 2, pc := 0x2000, st := .faultParked 3, stamp := 0 }
     let moved : Run := { lanes := 1, pc := 0x2008, st := .ready, stamp := 0 }
     (moved.lanes.getLsbD 0 = true ∧ ∀ r ∈ (tShadow [moved, parked]).runs, r.lanes.getLsbD 0 = true → r = moved) ∧
     (parked.lanes.getLsbD 1 = true ∧ ∀ r ∈ (tShadow [moved, parked]).runs, r.lanes.getLsbD 1 = true → r = parked) ∧
     ∀ r ∈ (tShadow [moved, parked]).runs, r.lanes.getLsbD 2 = false) ∧
    (let s := tParts { PartDbg.reset with smpEn := true, smpsize := 4 }
     (∀ i, i < 32 → s.xlate 0 ((s.core 0).space false) .write normalOnly i = (s, .ok { pa := i, key := 0, typ := 0 })) ∧ s.msys.smapBusy = false) ∧
    (let s := tParts { PartDbg.reset with smpEn := true, smpsize := 4, smpbase := 2 ^ 40 }
     ∃ s' e, s.xlate 0 ((s.core 0).space false) .write normalOnly (2 ^ 40) = (s', .error e)) ∧
    (∀ size, (size = 0 ∨ size = 4) → let d := { PartDbg.reset with smpEn := true, smpsize := size }
      ((tParts d).core 0).part 0 = d ∧ d.smpEn = true ∧ d.stopped = none ∧
      nextSlot (((tParts d).groupsOf 0 0).filter fun p => !p.2.isSuper && !p.2.isResponder) d.lastSlot = some (7, tUser)) ∧
    (0 : Word).toNat ≤ ((0 : Word) - 0).toNat ∧ ((0 : Word) - 0).toNat < (4 : Word).toNat := by
  refine ⟨⟨issues_of _ (by decide +kernel), by decide +kernel, rfl⟩, ⟨issues_of _ (by decide +kernel), rfl, issues_of _ (by decide +kernel), by decide⟩,
    ⟨rfl, rfl, rfl, rfl, rfl, by decide +kernel⟩,
    fun npc rs => ⟨issues_in _ _ _ _ rfl rfl (by rfl), (by rw [show acts tH tIssue (tReturns npc rs) = acts tH tIssue tUser from rfl]; decide +kernel), rfl, rfl⟩, by decide, by decide, by decide +kernel,
    ⟨fun i hi => ?_, rfl⟩, ?_, fun size h => ⟨rfl, rfl, rfl, by rcases h with rfl | rfl <;> decide +kernel⟩, by decide, by decide⟩
  · interval_cases i <;> rfl
  · obtain ⟨s', e, h, -⟩ := of_error (p := (tParts { PartDbg.reset with smpEn := true, smpsize := 4, smpbase := 2 ^ 40 }).xlate 0 (((tParts { PartDbg.reset with smpEn := true, smpsize := 4, smpbase := 2 ^ 40 }).core 0).space false) .write normalOnly (2 ^ 40)) (fun _ => true) (by decide +kernel)
    exact ⟨s', e, h⟩

theorem witness_SystemRegistersReadAndWrite :
    (Issues tRun (.sysrd tH 0x010 (.v 2)) tIssue tUser ∧ (Instr.sysrd tH 0x010 (.v 2)).wf = true ∧ acts tH tIssue tUser ≠ 0 ∧
      ((0x010#10).toNat, tRun.time) ∈ plainRegister tRun tUser) ∧
    (Issues (State.issuing tState tSuper tIssue) (.trapqPop tH (.v 2)) tIssue tSuper ∧ (Instr.trapqPop tH (.v 2)).wf = true ∧ (tRun.core 0).trapq = [] ∧
      ∃ (s : State) (e : TrapQEntry), (s.core 0).trapq = e :: []) ∧
    (Issues tRun (.syswr tH 0x002 (.v 2)) tIssue tUser ∧ (Instr.syswr tH 0x002 (.v 2)).wf = true ∧ (0x002 : BitVec 10) ≠ 0x021#10 ∧ tUser.priv = false) ∧
    (Issues (State.issuing tState tSuper tIssue) (.syswr tH 0x061 (.v 2)) tIssue tSuper ∧ tSuper.priv = true ∧ (tRun.core 0).tgSel ≠ some 7) ∧
    (∀ i ∈ [Instr.ipiWrite tH (.v 2), .wdogWrite tH (.v 2), .smapStageWrite tH (.v 2), .oemodeWrite tH (.v 2), .laneCounterClear tH true (.v 2)],
      Issues (State.issuing tState tSuper tIssue) i tIssue tSuper) ∧ (tSuper.rd32 0 (.v 2)).toNat % 512 < 384 := by
  refine ⟨⟨issues_of _ (by decide +kernel), by decide +kernel, by decide +kernel, .tail _ (.tail _ (.tail _ (.tail _ (.tail _ (.tail _ (.tail _ (.tail _ (.tail _ (.head _)))))))))⟩,
    ⟨issues_of _ (by decide +kernel), by decide +kernel, rfl, { tRun with cores := [(0, { tCore with trapq := [{ word := 1, gid := none, ctx := 1 }] })] }, _, rfl⟩,
    ⟨issues_of _ (by decide +kernel), by decide +kernel, by decide, rfl⟩, ⟨issues_of _ (by decide +kernel), rfl, by decide⟩, fun i hi => ?_, by decide +kernel⟩
  have : ([Instr.ipiWrite tH (.v 2), .wdogWrite tH (.v 2), .smapStageWrite tH (.v 2), .oemodeWrite tH (.v 2), .laneCounterClear tH true (.v 2)].all
    (issuable tSuper)) = true := by decide +kernel
  exact issues_of _ (List.all_eq_true.mp this i hi)

-- Translation, caches, interrupts, groups

theorem tZeros : ∀ l ∈ actors tH tIssue tUser, (tUser.rd64 l (.v 2)).toNat = 0 := by decide +kernel

/-- Invalidations at the core and of the package, before and after the second has had its time; lines named and all lines. -/
theorem witness_TranslationsAndCachesAreCleaned :
    (∀ glob, Issues (State.issuing tState tSuper tIssue) (.tlbinv tH .page glob (some (.v 2)) (some (.v 4))) tIssue tSuper) ∧
    (let i := Instr.tlbinv tH .all true none none
     let w := { Wait.of .event (some i) 1 with endCc := 96 }
     Resumes (State.issuing tState tSuper (tWait w)) i (tWait w) w tSuper ∧ 0 < w.endCc ∧ ∃ s : State, w.endCc ≤ s.clock.cc) ∧
    (Issues tRun (.cwb tH (some (.v 2))) tIssue tUser ∧ acts tH tIssue tUser ≠ 0 ∧ Covers tRun tIssue tUser tH (some (.v 2)) 7 0 ∧ Covers tRun tIssue tUser tH none 7 0 ∧
      ∀ l ∈ actors tH tIssue tUser, (tRun.xlate 0 (tRun.gspace tUser) .read normalOnly (tUser.rd64 l (.v 2)).toNat).1 = tRun) ∧
    (∀ k, let w := Wait.of (.window k) (some (.cwb tH (some (.v 2)))) 1
     Resumes (State.issuing tState tUser (tWait w)) (.cwb tH (some (.v 2))) (tWait w) w tUser ∧ w.why = .window k) ∧
    Issues (State.issuing tState tSuper tIssue) (.cinv tH false none) tIssue tSuper ∧
    Issues (State.issuing tState tSuper tIssue) (.cinv tH true (some (.v 2))) tIssue tSuper := by
  refine ⟨fun glob => issues_of _ (by cases glob <;> decide +kernel), ⟨resumes_in _ _ _ _ _ rfl rfl (by decide +kernel), by decide,
      { tRun with clock := { Clock.reset with cc := 96 } }, by decide⟩,
    ⟨issues_of _ (by decide +kernel), by decide +kernel, .inr ⟨.v 2, 0, rfl, by decide +kernel, { pa := 0, key := 0, typ := 0 }, rfl, by decide, rfl, rfl⟩, .inl rfl, fun l hl => by rw [tZeros l hl]; rfl⟩,
    fun k => ⟨resumes_in _ _ _ _ _ rfl rfl (by decide +kernel), rfl⟩,
    issues_of _ (by decide +kernel), issues_of _ (by decide +kernel)⟩

def tPending : Core := { tCore with ipend := 1, imask := 1 }
def tInterrupted : Group := { tSuper with sys := { tSuper.sys with ie := true, trapvec := 0x4000 } }
def tParked : Group := { tUser with runs := [{ lanes := fullLanes 64, pc := 0x1000, st := .faultParked 3, stamp := 0 }] }
def tRecord (kind : Nat) : FaultRec := { tag := 3, kind := kind, ctx := 1, gid := 7, words := List.replicate 16 0 }

/-- With and without an enabled interrupt pending; the timer early and late; a group selected, trapped and not; records of each kind. -/
theorem witness_SupervisorIsInterruptedAndRepairs :
    (Issues (State.issuing tState tSuper tIssue) (.halt tH) tIssue tSuper ∧ acts tH tIssue tSuper ≠ 0 ∧ (tRun.ipendOf 0 &&& (tRun.core 0).imask) = 0 ∧
      ∃ s : State, Issues s (.halt tH) tIssue tSuper ∧ (s.ipendOf 0 &&& (s.core 0).imask) ≠ 0) ∧
    Issues (State.issuing tState tSuper tIssue) (.tmset tH true (.v 2)) tIssue tSuper ∧
    (∃ s : State, (s.core 0).timerArmed = true ∧ (s.core 0).timecmp.toNat ≤ s.time) ∧ (tRun.core 0).timerArmed = false ∧
    (∃ (s : State) (r : Run) (e : Bool), s.group? (superGid 0) = some tInterrupted ∧ tInterrupted.info.core = 0 ∧ tInterrupted.info.kind = .super ∧ tInterrupted.pick = some (r, e) ∧ r.lanes.getLsbD 0 = true ∧
      (s.ipendOf 0 &&& (s.core 0).imask) ≠ 0 ∧ tInterrupted.sys.ie = true ∧ tInterrupted.sys.intrap = false ∧ tInterrupted.sys.trapvec ≠ 0) ∧
    ((tRun.core 0).tgSel = none ∧ ∃ (s : State) (g : Group), (s.core 0).tgSel = some 7 ∧ s.group? 7 = some g ∧ g.sched.trapped = true ∧ g.sys.saved = none) ∧
    (∀ kind, ∃ s : State, ((s.core 0).records.find? fun r => r.tag == 3) = some (tRecord kind) ∧ s.group? 7 = some tParked ∧
      ∃ rn ∈ tParked.runs, rn.st = .faultParked 3 ∧ ∀ x ∈ tParked.runs, x.st = .faultParked 3 → x = rn) ∧
    (let i := Instr.syswr tH 0x021#10 (.v 2)
     let w := Wait.of .release (some i) 1
     Issues (State.issuing tState tSuper tIssue) i tIssue tSuper ∧ Resumes (State.issuing tState tSuper (tWait w)) i (tWait w) w tSuper ∧
      WaitOver (State.issuing tState tSuper (tWait w)) w) := by
  refine ⟨⟨issues_of _ (by decide +kernel), by decide +kernel, by decide +kernel, { State.issuing tState tSuper tIssue with cores := [(0, tPending)] },
      ⟨rfl, rfl, rfl, by decide +kernel, by decide +kernel⟩, by decide +kernel⟩,
    issues_of _ (by decide +kernel), ⟨{ tRun with cores := [(0, { tCore with timerArmed := true })] }, rfl, by decide +kernel⟩, rfl,
    ⟨{ tRun with groups := [(superGid 0, tInterrupted)], cores := [(0, tPending)] }, { lanes := fullLanes 64, pc := 0x1000, st := .ready, stamp := 0 }, false,
      by decide +kernel, rfl, rfl, by decide +kernel, by decide +kernel, by decide +kernel, rfl, rfl, by decide⟩,
    ⟨rfl, { tRun with groups := [(7, { tUser with sched := { tUser.sched with trapped := true } })], cores := [(0, { tCore with tgSel := some 7 })] },
      { tUser with sched := { tUser.sched with trapped := true } }, rfl, rfl, rfl, rfl⟩,
    fun kind => ⟨{ tRun with groups := [(7, tParked)], cores := [(0, { tCore with records := [tRecord kind] })] }, rfl, rfl, _, .head _, rfl, ?_⟩,
    issues_of _ (by decide +kernel), resumes_in _ _ _ _ _ rfl rfl (by decide +kernel), ⟨by rintro r ⟨⟩, by rintro id ⟨⟩⟩⟩
  intro x hx _
  simpa [tParked] using hx

/-- A group that has waited long for an issue, one that returns, one that has ended; a workgroup that has ended; a watchdog that expires. -/
theorem witness_GroupsComeAndGo :
    (∃ (s : State) (g : Group), s.group? 7 = some g ∧ g.priv = false ∧ g.sched.resident = true ∧ g.pick ≠ none ∧ g.sched.elig = some 0 ∧ 4096 ≤ s.clock.cc - max g.sched.age 0) ∧
    (∃ (s : State) (g : Group), s.group? 7 = some g ∧ g.sched.ret = some 0 ∧ 0 ≤ s.clock.cc ∧ s.frozen g = false) ∧
    (∃ (s : State) (g : Group), s.group? 7 = some g ∧ s.frozen g = true) ∧
    (∃ (s : State) (g : Group), s.group? 7 = some g ∧ g.runs = [] ∧ g.info.kind ≠ .super ∧ g.regs.ld = 0 ∧ g.regs.st = 0 ∧ g.regs.cp = 0 ∧ g.regs.tl = 0) ∧
    (∃ (s : State) (w : Workgroup), s.wgs.find 1 = some w ∧ w.groups = [] ∧ w.ended = false ∧ s.wgBusy 1 = false ∧ s.allocs.find w.alloc = some tAlloc) ∧
    ∃ s : State, ((s.ctx 1).wdogArmed = true ∧ (s.ctx 1).wdogLimit ≠ 0 ∧ (s.ctx 1).wdogLimit ≤ (s.ctx 1).wdogCnt) ∧ (s.ctx 1).wdogCore < 384 ∧
      ∀ p ∈ s.cores, ∀ e ∈ p.2.trapq, ¬ (e.gid = none ∧ e.ctx = 1) := by
  let g : Group := { tUser with sched := { tUser.sched with active := true, elig := some 0 } }
  refine ⟨⟨{ tRun with groups := [(7, g)], clock := { Clock.reset with cc := 4096 } }, g, rfl, rfl, rfl, by decide +kernel, rfl, by decide⟩,
    ⟨{ tRun with groups := [(7, { tUser with sched := { tUser.sched with ret := some 0 } })] }, _, rfl, rfl, by decide, by decide +kernel⟩,
    ⟨tParts { PartDbg.reset with stopped := some 7 }, tUser, rfl, by decide +kernel⟩,
    ⟨{ tRun with groups := [(7, { tUser with runs := [] })] }, _, rfl, rfl, by decide, rfl, rfl, rfl, rfl⟩,
    ⟨{ tRun with wgs := [(1, { tWg with groups := [] })] }, _, rfl, rfl, rfl, by decide +kernel, rfl⟩,
    { tRun with ctxs := [(1, { Ctx.reset with wdogArmed := true, wdogLimit := 1, wdogCnt := 1 })] }, by decide +kernel, by decide +kernel, ?_⟩
  intro p hp e he
  simp only [tRun, State.issuing, tState, List.mem_singleton] at hp
  subst hp; cases he

-- Contexts, time and the slice map

/-- An entry of the context list at address 0x1000 that is valid and runs. -/
def tList (s : State) : State := { s.homeWrite 0 0x1000 (leBytes (3 * 2 ^ 30) 64) with ctxbase := 0x1000 }

def tCtx (preq saving : Bool) : Ctx := { Ctx.reset with st := .resident, preq := preq, saving := saving, deadline := if preq then some 0 else none }
def tResident (c : Ctx) : State := { tState with resident := some 1, ctxs := [(1, c)] }

/-- A context that is not, is, and has been asked to leave; a slice at its end; a save that may begin, at a boundary and forced; a switch to a context from
none and from one that is saved; a mode that is pending; a time base and a slice map at their bounds. -/
theorem witness_ContextsTimeAndSliceMapSwitch :
    ((tResident (tCtx false false)).ctx 1).preq = false ∧ ((tResident (tCtx false false)).ctx 1).saving = false ∧
    (¬ ∃ e ∈ (tResident (tCtx false false)).events, e.2 = .preemptionRequest 1) ∧ ((tResident (tCtx false true)).ctx 1).saving = true ∧
    (tResident (tCtx false false)).resident = some 1 ∧ ((tResident (tCtx false false)).ctx 1).sliceUs * 1000 ≤ ((tResident (tCtx false false)).ctx 1).sliceUsed ∧
    (let s := tResident (tCtx true false)
     s.resident = some 1 ∧ (s.ctx 1).preq = true ∧ (s.ctx 1).saving = false ∧ s.debugStopped 1 = false ∧ (∀ e ∈ s.events, e.2 ≠ .saveBegin 1) ∧
      (s.ctx 1).deadline = some 0 ∧ 0 ≤ s.clock.cc) ∧
    ((tList tState).resident = none ∧ (tList tState).chooseNext = some 0) ∧
    (let s := tResident (tCtx false true)
     s.resident = some 1 ∧ (s.ctx 1).saving = true ∧ s.drained 1 = true ∧ s.incoming = none) ∧
    (∃ s : State, s.resident = none ∧ s.clock.modePending = some (.gale, 0) ∧ 0 + 48 ≤ s.clock.cc ∧ (Mode.gale = .lull → s.msys.lullReady = true)) ∧
    (∃ s : State, s.resident = none ∧ s.clock.modePending = some (.lull, 0) ∧ s.msys.lullReady = false) ∧ tRun.clock.modePending = none ∧
    tRun.clock.ticks = [] ∧ (∃ (s : State) (v : Tick), s.clock.ticks = v :: [] ∧ v.due ≤ s.clock.cc) ∧
    (∃ (s : State) (v : Tick), s.clock.ticks = v :: [] ∧ s.clock.cc < v.due) ∧ tRun.msys.smapBusy = false ∧ (∃ s : State, s.msys.smapBusy = true) := by
  refine ⟨rfl, rfl, ?_, rfl, rfl, by decide +kernel, ⟨rfl, rfl, rfl, by decide +kernel, (by rintro e ⟨⟩), rfl, by decide⟩, ⟨rfl, by decide +kernel⟩,
    ⟨rfl, rfl, by decide +kernel, by decide +kernel⟩,
    ⟨{ tRun with clock := { Clock.reset with modePending := some (.gale, 0), cc := 48 } }, rfl, rfl, by decide, by rintro ⟨⟩⟩,
    ⟨{ tRun with clock := { Clock.reset with modePending := some (.lull, 0) } }, rfl, rfl, by decide +kernel⟩, rfl, rfl,
    ⟨{ tRun with clock := { Clock.reset with ticks := [{ due := 0, ran := 0, ns := 0, frac := 0, adj := 0 }] } }, _, rfl, by decide⟩,
    ⟨{ tRun with clock := { Clock.reset with ticks := [{ due := 1, ran := 0, ns := 0, frac := 0, adj := 0 }] } }, _, rfl, by decide⟩, rfl, { tRun with msys := { MemSys.reset with smapBusy := true } }, rfl⟩
  rintro ⟨e, he, -⟩
  cases he

-- Launches and gangs

/-- A committed launch, and a gang of two devices whose coordinator is device 0. -/
def tWaiting (st : LState) (trigger : Nat) : Launch := { tLaunch with st := st, trigger := trigger }
def tGang (self : Nat) : Gang := { id := 9, self := self, coord := 0, links := [0, 0], armHeld := false, acks := [], started := [], incomplete := false }
def tGanged (st : LState) (self trigger : Nat) : Launch := { tWaiting st trigger with gang := some (tGang self) }
def tLaunches (l : Launch) : State := { tState with launches := [(3, l)] }

/-- A block that is read, aligned and misaligned, new and resumed; a placement, a start, and windows open and past; gangs at the coordinator and at a
member, in time and late. -/
theorem witness_LaunchesAndGangsStart :
    (let i := Instr.launch tH (.v 1) (.v 2)
     let w := Wait.of .release (some i) (fullLanes 64)
     Issues (State.issuing tState tSuper tIssue) i tIssue tSuper ∧ i.wf = true ∧ acts tH tIssue tSuper = tIssue.lanes ∧ (tSuper.rd64 0 (.v 2)).toNat % 256 = 0 ∧
      ((tSuper.wr32 0 (.v 2) 8).rd64 0 (.v 2)).toNat % 256 ≠ 0 ∧
      (∃ s', (State.issuing tState tSuper tIssue).vbytes 0 (State.gspace tState tSuper) 0 2560 = (s', .ok (List.replicate 2560 0))) ∧
      Resumes (State.issuing tState tSuper (tWait w)) i (tWait w) w tSuper ∧ WaitOver (State.issuing tState tSuper (tWait w)) w ∧ w.lanes = tIssue.lanes ∧
      ∀ (s1 : State) bs, ∃ s' code gang, s1.launchCode 0 (s1.gspace tSuper) bs = (s', code, gang)) ∧
    (let s := tLaunches (tWaiting .committed 0)
     s.launches.find 3 = some (tWaiting .committed 0) ∧ (tWaiting .committed 0).st.final = false ∧ ∃ ps, s.placement (tWaiting .committed 0) = some ps) ∧
    (∃ s : State, ∃ l : Launch, s.launches.find 3 = some l ∧ l.inject = some 0 ∧ l.st = .committed ∧ 0 + 48 ≤ s.clock.cc ∧ s.resident = some l.ctx ∧
      (l.placed.flatMap fun p => p.spots.map fun x => gidOf p.core x.1 x.2 l.ctx).Nodup ∧ l.placed ≠ []) ∧
    (∃ s : State, s.launches.find 3 = some (tWaiting .committed 5) ∧ (tWaiting .committed 5).trigger + (tWaiting .committed 5).window < s.time) ∧
    (tLaunches (tWaiting .committed 5)).time ≤ (tWaiting .committed 5).trigger + (tWaiting .committed 5).window ∧
    tState.gangLaunch 9 = none ∧
    (∀ st self, (tLaunches (tGanged st self 5)).gangLaunch 9 = some (3, tGanged st self 5, tGang self) ∧
      (tLaunches (tGanged st self 5)).launches.find 3 = some (tGanged st self 5) ∧ (tGanged st self 5).gang = some (tGang self)) ∧
    (tGang 1).self ≠ (tGang 1).coord ∧ (tGang 0).self = (tGang 0).coord ∧ (1 < (tGang 0).links.length ∧ 1 ≠ (tGang 0).self) ∧
    (∃ s : State, s.gangLaunch 9 = some (3, tGanged .started 0 5, tGang 0) ∧ (tGanged .started 0 5).trigger + (tGanged .started 0 5).window + 1000000 ≤ s.time ∧
      ¬ ∀ d, d < (tGang 0).links.length → d ≠ (tGang 0).self → d ∈ (tGang 0).started) := by
  let p : Placed := { team := 0, member := 0, core := 0, base := 0, gen := 1, spots := [(0, 0)] }
  let at_ (ns : Nat) (l : Launch) : State := { tLaunches l with clock := { Clock.reset with ns := ns, copyNs := ns, cc := 48 }, resident := some 1 }
  refine ⟨⟨issues_of _ (by decide +kernel), by decide +kernel, by decide +kernel, by decide +kernel, by decide +kernel, of_ok _ (by decide +kernel),
      resumes_in _ _ _ _ _ rfl rfl (by decide +kernel), ⟨by rintro r ⟨⟩, by rintro id ⟨⟩⟩, rfl, fun _ _ => ⟨_, _, _, rfl⟩⟩,
    ⟨rfl, rfl, Option.isSome_iff_exists.mp (by decide +kernel)⟩,
    ⟨at_ 0 { tWaiting .committed 0 with inject := some 0, placed := [p] }, _, rfl, rfl, rfl, by decide, rfl, by decide, by simp⟩,
    ⟨at_ 6 (tWaiting .committed 5), rfl, by decide⟩, by decide, rfl, fun st self => ⟨rfl, rfl, rfl⟩, by decide, rfl, by decide,
    ⟨at_ 2000000 (tGanged .started 0 5), rfl, by decide, ?_⟩⟩
  intro h
  exact absurd (h 1 (by decide) (by decide)) (by decide)

-- Storage and network

/-- Grant 1 of the resident context: read and write of 64 blocks from 0. -/
def tGrants (s : State) : State := s.homeWrite 0 0 (leBytes (7 * 2 ^ 29 * 2 ^ 256 + 64 * 2 ^ 384) 64)
def tStArg : StorageArg := { grant := 1, kind := .spad, tmpl := none, fua := false, handle := 0, d := none, a := .v 2, b := .v 4, c := .v 5 }
def tStCmd (write : Bool) (count : Nat) (early : Option Nat) (kind : StKind) (target : Nat) : StCmd :=
  { id := 9, write := write, op := 5, lane := 0, gid := 7, core := 0, ctx := 1, wg := 1, pc := 0x1000, space := State.gspace tRun tUser, ns := 0, lba := 0,
    count := count, kind := kind, target := target, handle := 0, gen := 0, vat := none, grant := leBytes (7 * 2 ^ 29 + 64 * 2 ^ 128) 32, early := early,
    held := none, issued := 0, due := 0, dec := false, poster := tUser.poster 7 }
theorem tGoes (write : Bool) (count : Nat) (early : Option Nat) (kind : StKind) (target : Nat) :
    [tStCmd write count early kind target].find? (fun q => q.id == 9 && q.goes) = some (tStCmd write count early kind target) := by
  simp [tStCmd, StCmd.goes]

def tDisk : Namespace := { blk := 16, blocks := 64, data := [] }
def tStore (q : StCmd) : State := { tLoads 10 with stCmds := [q], nvme := [(0, tDisk)] }

/-- A send endpoint 3, and a receive endpoint 0 whose ring has 64 bytes and whose mailbox lies at 512, at port 1, which is up. -/
def tEnds (s : State) : State :=
  { (s.homeWrite 0 (64 * 3) (leBytes (2 ^ 31 + 1 + 2 ^ 10 * 2 ^ 32) 64)).homeWrite 0 (64 * 64) (leBytes (2 ^ 31 + 1 + 0x8000 * 2 ^ 64 + 64 * 2 ^ 128 + 0x4000 * 2 ^ 192) 64) with
    portsUp := [1] }
def tPacket : Held := { ctx := 1, ep := 0, off := 0, len := 0 }

/-- Commands with and without a grant; one of each outcome at its completion; sends that are refused and one that goes out, its completion; a packet
that is held and one that is not; a packet that arrives and finds room; ports of both kinds of engine. -/
theorem witness_StorageAndNetworkComplete :
    (Issues tRun (.sread tH tStArg) tIssue tUser ∧ Issues tRun (.swrite tH tStArg) tIssue tUser ∧ acts tH tIssue tUser ≠ 0 ∧
      (grantOf (tRun.grant 1 1)).ok = false ∧ (grantOf ((tGrants tRun).grant 1 1)).ok = true ∧ (grantOf ((tGrants tRun).grant 1 1)).count = 64) ∧
    (∀ write count early kind target, let q := tStCmd write count early kind target
      (tStore q).stCmds.find? (fun q => q.id == 9 && q.goes) = some q ∧ Outstanding (tStore q) q.op q.lane (tLoad 10) (tAcc 10) ∧
        (tStore q).namespace_ q.ns = some tDisk) ∧ (∃ (s : State) (n : Nat), s.namespace_ 0 = some { tDisk with blocks := n } ∧ n < 0 + 2) ∧
    (0 + 2 ≤ tDisk.blocks ∧ ¬ 0 + 65 ≤ tDisk.blocks) ∧
    (∃ s', (tStore (tStCmd true 1 none .spad 0)).stCollect (tStCmd true 1 none .spad 0) (1 * 16) = (s', .ok (.ok (List.replicate 16 0)))) ∧
    (let q := tStCmd false 1 none .spad 0
     (tStore q).wgs.find q.wg = some tWg ∧ (tStore q).allocs.find tWg.alloc = some tAlloc ∧ q.count * tDisk.blk ≤ tAlloc.size - q.target ∧
      (tStore q).stale 1 1 0 16 (tStore q).clock.ns (tStore q).clock.ns = false) ∧
    (let q := tStCmd false 1 none .global (2 ^ 40)
     ∃ s' e, (tStore q).stMove q = (s', .error e) ∧ s'.group? q.gid = some tUser) ∧
    (let x : SendArg := { ep := 3, d := none, a := .v 2, b := none }
     let s := tEnds tRun
     Issues s (.nsend tH x) tIssue tUser ∧ (endpointOf (s.endpoint 1 3)).ok = true ∧ (endpointOf (tRun.endpoint 1 3)).ok = false ∧
      min ((endpointOf (s.endpoint 1 3)).w4 % 2 ^ 14) 9216 = 1024 ∧ (endpointOf (s.endpoint 1 3)).port ∈ s.portsUp ∧
      ((laneList (acts tH tIssue tUser)).flatMap fun l => leBytes (tUser.rd32 l (.v 2)).toNat 4).length = 256) ∧
    (∃ (s : State) (r : SendRec), s.sends.find? (fun r => r.id == 9) = some r ∧ r.status = none ∧ sendStatus 0x11 = true ∧
      Outstanding s r.op (lowest r.lanes) (tLoad 10) (tAcc 10)) ∧
    (Issues tRun (.nrecv tH (.v 1) (.v 2) (.v 4)) tIssue tUser ∧ (Instr.nrecv tH (.v 1) (.v 2) (.v 4)).wf = true ∧ tPacket ∉ tRun.packets ∧
      ∃ s : State, tPacket ∈ s.packets ∧ Issues s (.nrecv tH (.v 1) (.v 2) (.v 4)) tIssue tUser ∧ OwnRange s tUser 0 tPacket.len 0 0 ∧ Unwatched s tIssue tUser true false true 0 tPacket.len ∧
        ∃ s', s.vbytes 0 (s.ctxSpace 1) 0 0 = (s', .ok [])) ∧
    (∃ (g : Group) (s : State), Issues s (.nrecv tH (.v 1) (.v 2) (.v 4)) tIssue g ∧ (g.rd64 0 (.v 2)).toNat = 16 * 2 ^ 50 ∧ (g.rd32 0 (.v 4)).toNat = 0 ∧
      ({ tPacket with len := 16 } ∈ s.packets) ∧ OwnRange s g 0 16 0 0 ∧ ¬ Unwatched s tIssue g true false true 0 16) ∧
    (let s := tEnds tRun
     let e := endpointOf (s.endpoint 1 64)
     (e.ok = true ∧ e.port ∈ s.portsUp ∧ 0 < [1].length ∧ [1].length ≤ 9216 ∧ 0 < 64 ∧ e.w4 % 512 < 384) ∧ s.ringPlace 1 0 e.a16 1 = some 16 ∧
      ∃ s1, s.vwrite 0 (s.ctxSpace 1) (e.a8 + 16 - 8) (leBytes s.time 8 ++ [1]) = (s1, .ok ()) ∧
        (∃ s2, s1.xlate 0 (s1.ctxSpace 1) .atomic normalOnly e.a24 = (s2, .ok { pa := 0x4000, key := 0, typ := 0 })) ∧ e.a24 % 64 = 0) ∧
    (tRun.oemode.toNat / 4 ^ (1 / 16) % 4 ≠ 2 ∧ ∃ s : State, 1 < 256 ∧ s.oemode.toNat / 4 ^ (1 / 16) % 4 = 2 ∧ 1 ∉ s.portsUp) := by
  refine ⟨⟨issues_of _ (by decide +kernel), issues_of _ (by decide +kernel), by decide +kernel, by decide +kernel, by decide +kernel, by decide +kernel⟩,
    fun write count early kind target => ⟨tGoes _ _ _ _ _, tOut rfl, rfl⟩,
    ⟨{ tRun with nvme := [(0, { tDisk with blocks := 1 })] }, 1, rfl, by decide⟩, by decide, ?_, ⟨rfl, rfl, by decide, by decide +kernel⟩, ?_,
    ⟨⟨rfl, rfl, rfl, by decide +kernel, by decide +kernel⟩, by decide +kernel, by decide +kernel, by decide +kernel, by decide +kernel, by decide +kernel⟩,
    ⟨{ tLoads 10 with sends := [{ id := 9, op := 5, lanes := 1, gid := 7, core := 0, ctx := 1, ep := [], status := none, payload := [] }] }, _, rfl, rfl, by decide, tOut rfl⟩,
    ⟨issues_of _ (by decide +kernel), by decide +kernel, by rintro ⟨⟩, { tRun with packets := [tPacket] }, .head _, ⟨rfl, rfl, rfl, by decide +kernel, by decide +kernel⟩,
      ⟨tWg, tAlloc, rfl, rfl, by decide, rfl, rfl⟩, .inr (.inr (.inr (tFree _ _ _ _ _))), _, rfl⟩,
    ⟨tUser.wr64 0 (.v 2) (BitVec.ofNat 64 (16 * 2 ^ 50)), tWatched { State.issuing tState (tUser.wr64 0 (.v 2) (BitVec.ofNat 64 (16 * 2 ^ 50))) tIssue with packets := [{ tPacket with len := 16 }] },
      ⟨rfl, rfl, rfl, by decide +kernel, by decide +kernel⟩, by decide +kernel, by decide +kernel, .head _, ⟨tWg, tAlloc, rfl, rfl, by decide, rfl, rfl⟩,
      tUnwatched rfl rfl rfl (by decide +kernel)⟩,
    ⟨by decide +kernel, by decide +kernel, ?_⟩, by decide, { tRun with oemode := 2 }, by decide, by decide, by decide⟩
  · exact ⟨_, rfl⟩
  · obtain ⟨s', er, h, -⟩ := of_error (p := (tStore (tStCmd false 1 none .global (2 ^ 40))).stMove (tStCmd false 1 none .global (2 ^ 40))) (fun _ => true) (by decide +kernel)
    refine ⟨s', er, h, ?_⟩
    have e : ((tStore (tStCmd false 1 none .global (2 ^ 40))).stMove (tStCmd false 1 none .global (2 ^ 40))).1.group? 7 = some tUser := by decide +kernel
    rw [h] at e; exact e
  · obtain ⟨s1, h1⟩ := of_ok (p := (tEnds tRun).vwrite 0 ((tEnds tRun).ctxSpace 1) (0x8000 + 16 - 8) (leBytes (tEnds tRun).time 8 ++ [1])) () (by decide +kernel)
    have e : s1 = ((tEnds tRun).vwrite 0 ((tEnds tRun).ctxSpace 1) (0x8000 + 16 - 8) (leBytes (tEnds tRun).time 8 ++ [1])).1 := by rw [h1]
    have a : (endpointOf ((tEnds tRun).endpoint 1 64)).a8 = 0x8000 := by decide +kernel
    refine ⟨s1, by rw [a]; exact h1, ?_⟩
    rw [e]
    exact ⟨of_ok _ (by decide +kernel), by decide +kernel⟩

-- Links

theorem leNat_leBytes (n k : Nat) : leNat (leBytes n k) = n % 256 ^ k := by
  induction k generalizing n with
  | zero => simp [leBytes, leNat, Nat.mod_one]
  | succ k ih =>
    rw [leBytes, leNat, ih, BitVec.toNat_ofNat, pow_succ (256 : Nat) k, Nat.mul_comm (256 ^ k) 256, Nat.mod_mul]

theorem length_leBytes (n k : Nat) : (leBytes n k).length = k := by
  induction k generalizing n with
  | zero => rfl
  | succ k ih => simp [leBytes, ih]

/-- A flit of a kind and sequence number with the CRC that its bytes have. -/
def tFlitHead (head : Nat) : List Byte := leBytes head 8 ++ List.replicate 240 0
def tFlit (head : Nat) : List Byte := tFlitHead head ++ leBytes (Config.crc32 (tFlitHead head)).toNat 8

theorem tFlit_good (head : Nat) : (tFlit head).length = 256 ∧ leNat (((tFlit head).drop 248).take 8) = (Config.crc32 ((tFlit head).take 248)).toNat ∧
    leNat ((tFlit head).take 8) = head % 2 ^ 64 := by
  have h : (tFlitHead head).length = 248 := by rw [tFlitHead, List.length_append, length_leBytes, List.length_replicate]
  refine ⟨by rw [tFlit, List.length_append, h, length_leBytes], ?_, ?_⟩
  · rw [tFlit, List.drop_left' h, List.take_left' h, List.take_of_length_le (by simp [length_leBytes]), leNat_leBytes]
    exact Nat.mod_eq_of_lt (Nat.lt_of_lt_of_le (BitVec.isLt _) (by norm_num))
  · rw [tFlit, tFlitHead, List.append_assoc, List.take_left' (length_leBytes _ _), leNat_leBytes]; norm_num

def tLink (l : Link) : State := { tLoads 3 with links := [(2, l)], oemode := 1 }
def tPeer : PeerReq := { core := 0, op := 5, lane := 0, kind := .read, pa := 0, len := 4, sent := 0, late := false }
def tLinkUp : Link := { Link.reset with st := .up, out := [tPeer], lanes := [(1, { KLane.reset with active := true })] }

/-- Good flits in their order, ahead of it and behind, and a bad one; lanes that count, train and rejoin; a link without lanes, one that trains; a tray's
access within its window, outside it, and at a link that has none. -/
theorem witness_LinksDeliver :
    (∀ head, let s := tLink { tLinkUp with expSeq := 1 }
      (s.link 2).carries = true ∧ (tFlit head).length = 256 ∧ leNat (((tFlit head).drop 248).take 8) = (Config.crc32 ((tFlit head).take 248)).toNat ∧
        leNat ((tFlit head).take 8) / 2 ^ 40 = head % 2 ^ 64 / 2 ^ 40 ∧ (∀ f ∈ (s.link 2).buffered, f.1 ≠ 2) ∧ (s.link 2).out = tPeer :: [] ∧
        Outstanding s tPeer.op tPeer.lane (tLoad 3) (tAcc 3)) ∧
    (2 ^ 40 + 2 ^ 36) % 2 ^ 64 / 2 ^ 40 = 1 ∧ (2 ^ 40 + 2 ^ 36) / 2 ^ 36 % 16 = 1 ∧ 5 * 2 ^ 40 % 2 ^ 64 / 2 ^ 40 ≠ 1 ∧ (5 + 2 ^ 24 - 1) % 2 ^ 24 < 2048 ∧
    2048 ≤ (0 + 2 ^ 24 - 1) % 2 ^ 24 ∧ ([] : List Byte).length ≠ 256 ∧ (tRun.link 2).carries = false ∧ ({ tLinkUp with lanes := [] } : Link).carries = false ∧
    (((tLink tLinkUp).link 2).lane 1).active = true ∧ 200 ≤ ((tLink tLinkUp).link 2).thresh ∧ ((tLink tLinkUp).link 2).thresh < 300 ∧
    tRun.clock.ns < (tLinkUp.lane 1).since + tLinkUp.win * 1000000 ∧ (∃ s : State, (s.link 2) = tLinkUp ∧ (tLinkUp.lane 1).since + tLinkUp.win * 1000000 ≤ s.clock.ns) ∧
    (∃ l : Link, (l.lane 1).training = true ∧ l.st = .up) ∧ (∃ l : Link, l.st ≠ .down ∧ l.active = 0 ∧ l.noLane + 10000000 ≤ 10000000) ∧
    (let s := tLink { Link.reset with st := .training }
     2 < 256 ∧ (s.link 2).st ≠ .up ∧ s.oemode.toNat / 4 ^ (2 / 16) % 4 = 1 ∧ (s.link 2).lulled = false ∧ s.clock.mode ≠ .lull) ∧
    (∃ s : State, (s.link 2).st ≠ .up ∧ s.oemode.toNat / 4 ^ (2 / 16) % 4 = 1 ∧ s.clock.mode = .lull ∧ 2 ∉ s.keptLinks) ∧
    (let s := { tLink { tLinkUp with tray := true } with traywin := 2 ^ 22 }
     s.msys.smapBusy = false ∧ ((s.link 2).carries = true ∧ (s.link 2).tray = true) ∧
      ((s.traywin.toNat / 2 ^ 30 % 2 ^ 22) * 2 ^ 30 ≤ 2 ^ 30 - 1 ∧
        (2 ^ 30 - 1) + [1].length ≤ (s.traywin.toNat / 2 ^ 30 % 2 ^ 22) * 2 ^ 30 + (s.traywin.toNat / 2 ^ 22 % 2 ^ 8) * 2 ^ 30 ∧ (2 ^ 30 - 1) + [1].length ≤ hbmSize) ∧
      ¬ 2 ^ 30 + [1].length ≤ (s.traywin.toNat / 2 ^ 30 % 2 ^ 22) * 2 ^ 30 + (s.traywin.toNat / 2 ^ 22 % 2 ^ 8) * 2 ^ 30) ∧
    (tLink tLinkUp).link 2 = tLinkUp ∧ tLinkUp.tray = false := by
  refine ⟨fun head => ⟨rfl, (tFlit_good head).1, (tFlit_good head).2.1, by rw [(tFlit_good head).2.2], (by rintro f ⟨⟩), rfl, tOut rfl⟩, by decide, by decide, by decide,
    by decide, by decide, by decide, by decide, by decide, rfl, by decide, by decide, by decide,
    ⟨{ tLink tLinkUp with clock := { Clock.reset with ns := 1000000 } }, rfl, by decide⟩,
    ⟨{ tLinkUp with lanes := [(1, { KLane.reset with training := true })] }, rfl, rfl⟩, ⟨{ tLinkUp with lanes := [] }, by decide, by decide, by decide⟩,
    ⟨by decide, by decide, by decide, rfl, by decide⟩,
    ⟨{ tLink { Link.reset with st := .training } with clock := { Clock.reset with mode := .lull } }, by decide, by decide, rfl, by decide +kernel⟩,
    ⟨rfl, ⟨rfl, rfl⟩, by decide +kernel, by decide +kernel⟩, rfl, rfl⟩

-- Boot, management, attestation, throttling

/-- A configuration record with KPOLICY and KLOAD, TLIMIT 95 °C. -/
def tRecord4K (kpolicy kload : Nat) : List Byte := leBytes (kpolicy * 2 ^ 40 + kload * 2 ^ 64 + 760 * 2 ^ 128) 24 ++ List.replicate 4072 0
def tConfig (kpolicy kload : Nat) (sig : List Byte) : ConfigRec := { record := tRecord4K kpolicy kload, signature := sig }
def tBoard (sl : Slot) (c : Option ConfigRec) : Board := { Board.reset with slotA := some sl, config := c }

theorem tAccepts (sl : Slot) (c : Option ConfigRec) (k : Nat) (i : Image) : (tBoard sl c).accepts k i = Config.xmssVerifies i := by
  simp [Board.accepts, Board.fresh, tBoard, Board.reset, SMap.get, SMap.find]

theorem tConfig_ok : ∀ kpolicy, kpolicy < 2 → ∀ sig, (tConfig kpolicy 0x200000 sig).ok = true ∧ (tConfig kpolicy 0x200000 sig).kpolicy = kpolicy ∧
    (tConfig kpolicy 0x200000 sig).kload = 0x200000 ∧ (tConfig kpolicy 0x200000 sig).record.length = 4096 := by
  have h : ∀ kpolicy, kpolicy < 2 → (tConfig kpolicy 0x200000 []).ok = true ∧ (tConfig kpolicy 0x200000 []).kpolicy = kpolicy ∧
      (tConfig kpolicy 0x200000 []).kload = 0x200000 ∧ (tConfig kpolicy 0x200000 []).record.length = 4096 := by decide +kernel
  exact fun k hk sig => h k hk

/-- A board without images. Log 8: which bytes verify is open, so for each stop, and for the start, what the bytes of the images must be. -/
theorem witness_ResetBootsTheKernel : State.reset.board.bootSlot = none ∧
    ∀ sl : Slot, Config.xmssVerifies sl.stage1 = true →
      (∀ c, (tBoard sl c).bootSlot = some 0 ∧ (tBoard sl c).slot 0 = some sl ∧ (tBoard sl c).config = c) ∧
      (∀ c, (none : Option ConfigRec) = some c → (tBoard sl none).acceptsConfig c = false) ∧
      (let c : ConfigRec := { record := [], signature := [] }
       (tBoard sl (some c)).acceptsConfig c = false) ∧
      ∀ kpolicy, kpolicy < 2 → ∀ sig, let c := tConfig kpolicy 0x200000 sig
        Config.xmssVerifies (c.record ++ sig) = true → (tBoard sl (some c)).acceptsConfig c = true ∧ c.record.length = 4096 ∧
          ((tBoard sl (some c)).accepts 1 sl.firmware = Config.xmssVerifies sl.firmware) ∧
          (hbmSize < sl.kernel.length → hbmSize < c.kload + sl.kernel.length) ∧ (sl.kernel.length ≤ 4096 → c.kload + sl.kernel.length ≤ hbmSize) ∧
          (Config.xmssVerifies sl.kernel = false → kpolicy = 0 → ¬ (Config.xmssVerifies sl.kernel = false → c.kpolicy = 1)) ∧
          (regsOk sl.kernel = true → (Config.xmssVerifies sl.kernel = true ∨ kpolicy = 1) → regsOk sl.kernel = true ∧
            (Config.xmssVerifies sl.kernel = true → (tBoard sl (some c)).accepts 2 sl.kernel = true) ∧ (Config.xmssVerifies sl.kernel = false → c.kpolicy = 1)) := by
  refine ⟨rfl, fun sl h => ⟨fun c => ⟨?_, rfl, rfl⟩, (by rintro c ⟨⟩), ?_, fun kp hk sig => ?_⟩⟩
  · have b : (tBoard sl c).bootable 0 = true := by
      have : (tBoard sl c).bootable 0 = (tBoard sl c).accepts 0 sl.stage1 := rfl
      rw [this, tAccepts, h]
    have n : (tBoard sl c).named = 0 := rfl
    unfold Board.bootSlot
    rw [n, b]; rfl
  · have : ({ record := [], signature := [] } : ConfigRec).ok = false := by decide
    simp [Board.acceptsConfig, this]
  · obtain ⟨ok, hp, hl, hr⟩ := tConfig_ok kp hk sig
    intro c hv
    refine ⟨?_, hr, tAccepts _ _ _ _, fun hb => by omega, fun hb => ?_, fun hu h0 hi => ?_, fun hg ho => ⟨hg, fun hs => by rw [tAccepts]; exact hs, fun hn => ?_⟩⟩
    · have f : (tBoard sl (some c)).fresh 3 c.version = true := by simp [Board.fresh, tBoard, Board.reset, SMap.get, SMap.find]
      have v : Config.xmssVerifies (c.record ++ c.signature) = true := hv
      simp only [Board.acceptsConfig, v, f, Bool.and_true, Bool.true_and]
      exact ok
    · have : c.kload = 0x200000 := hl
      rw [this]; exact Nat.le_trans (Nat.add_le_add_left hb _) (by decide)
    · have := hi hu
      rw [show c.kpolicy = kp from hp, h0] at this; cases this
    · rcases ho with ho | ho
      · rw [ho] at hn; cases hn
      · rw [show c.kpolicy = kp from hp, ho]

/-- The window while no request and while one runs; each request at its end, with a good and a bad buffer and register. -/
theorem witness_ManagementAnswersRequests :
    (tRun.mgmt.running = none ∧ ∃ s : State, s.mgmt.running ≠ none) ∧
    (∀ r, let s : State := { tRun with mgmt := { Mgmt.reset with running := some r, reqBuf := 4096, extReg := 4 } }
      s.mgmt.running = some r ∧ ((∀ b, r ≠ .attest b) → s.mgmt.waitsTurn = false)) ∧
    bufOk 4096 = true ∧ bufOk (hbmSize - 4096) = true ∧ bufOk hbmSize = false ∧ bufOk 8 = false ∧ (4 ≤ 4 ∧ 15 ≤ 15 ∧ ¬ 4 ≤ 3) ∧
    (∃ s : State, s.clock.modePending = some (.gale, 0) ∧ 0 + 48 ≤ s.clock.cc ∧ (Mode.gale = .lull → s.msys.lullReady = true)) ∧
    (∀ fails, ∃ s : State, s.mgmt.running = some .confirm ∧ ¬ (s.mgmt.booted = false ∨ s.mgmt.bootStaged = false ∨ s.mgmt.bootSlot = s.board.activeSlot.getD (if s.board.strapB then 1 else 0) ∨
      s.board.slot s.mgmt.bootSlot = none) ∧ s.board.flashFails = fails) ∧
    (∀ (kind : Nat) (v : Word), tRun.board.rollback.get 0 kind ≤ v.toNat ∧
      ∃ s : State, s.mgmt.running = some (.stage 4096) ∧ ¬ s.board.rollback.get 0 kind ≤ v.toNat) := by
  refine ⟨⟨rfl, { tRun with mgmt := { Mgmt.reset with running := some .confirm } }, by simp⟩, fun r => ⟨rfl, fun h => ?_⟩, by decide, by decide, by decide, by decide, by decide,
    ⟨{ tRun with clock := { Clock.reset with modePending := some (.gale, 0), cc := 48 } }, rfl, by decide, by rintro ⟨⟩⟩,
    fun fails => ⟨{ tRun with mgmt := { Mgmt.reset with running := some .confirm, booted := true, bootSlot := 1, bootStaged := true }, board := { Board.reset with slotB := some { stage1 := [], firmware := [], kernel := [] }, flashFails := fails } },
      rfl, ?_, rfl⟩,
    fun kind v => ⟨Nat.zero_le _, { tRun with mgmt := { Mgmt.reset with running := some (.stage 4096) }, board := { Board.reset with rollback := [(kind, 2 ^ 32)] } }, rfl, ?_⟩⟩
  · cases r <;> first | exact absurd rfl (h _) | rfl
  · rintro (h | h | h | h) <;> cases h
  · have : ({ Board.reset with rollback := [(kind, 2 ^ 32)] } : Board).rollback.get 0 kind = 2 ^ 32 := by simp [SMap.get, SMap.find]
    show ¬ ({ Board.reset with rollback := [(kind, 2 ^ 32)] } : Board).rollback.get 0 kind ≤ v.toNat
    rw [this]; exact Nat.not_le.mpr v.isLt

/-- Requests that begin and that wait, reports that are signed and not; temperatures on both sides of the limit. -/
theorem witness_ReportsAreSignedAndHeatThrottles :
    (tRun.mgmt.firmware = false ∧ ∃ s : State, s.mgmt.firmware = true ∧ s.mgmt.attests = [] ∧ s.mgmt.tlimit < 1 ∧ s.mgmt.pkgThrottle = false ∧ s.clock.mode = .gale ∧
      s.mgmt.powerSince.getD s.clock.ns + 10000000 ≤ s.clock.ns ∧ 5 ∉ s.mgmt.throttled) ∧
    (tRun.mgmt.attests = [] ∧ bufOk 4096 = true ∧ tRun.mgmt.running = none ∧ tRun.board.attIndex < 2 ^ 20 ∧ ∃ s : State, 2 ^ 20 ≤ s.board.attIndex ∧ s.mgmt.attests = []) ∧
    (∀ rep buf, ∃ (s : State) (r : AttestReq), s.mgmt.attests = [r] ∧ r.signing = some rep ∧ r.buf = buf ∧ (∃ r ∈ s.mgmt.attests.head?, r.signing ≠ none) ∧
      s.mgmt.running = buf.map .attest ∧ s.msys.smapBusy = false) ∧ 4096 < hbmSize ∧ ([1] : List Byte) ≠ [] ∧ tRun.mgmt.tlimit < 1 ∧ 0 ≤ tRun.mgmt.tlimit ∧ (-40 : Int) ≤ tRun.mgmt.tlimit - 40 ∧
    3600 < 3601 := by
  refine ⟨⟨rfl, { tRun with mgmt := { Mgmt.reset with firmware := true, powerSince := some 0 }, clock := { Clock.reset with ns := 10000000 } }, rfl, rfl, by decide, rfl, rfl, by decide,
      by decide⟩, ⟨rfl, by decide, rfl, by decide, { tRun with board := { Board.reset with attIndex := 2 ^ 20 } }, by decide, rfl⟩, fun rep buf => ?_, by decide, by decide, by decide,
    by decide, by decide, by decide⟩
  exact ⟨{ tRun with mgmt := { Mgmt.reset with attests := [{ buf := buf, nonce := [], signing := some rep }], running := buf.map .attest } },
    { buf := buf, nonce := [], signing := some rep }, rfl, rfl, rfl, ⟨_, rfl, by simp⟩, rfl, rfl⟩

-- The machine

/-- Core 0 with a TLB entry that also lets fetch. -/
def tCode : SMap Core := [(0, { tCore with tlb := [{ va := 0, size := 2 ^ 30, asid := 0, glob := false, pte := tPte ||| 1024#64, ptePa := 0x2000 }] })]

/-- One user group with a nop, resp. a pad word, at its PC, packed beside the group that issued. -/
def tPacked (w : Nat) : State :=
  { tState with
    msys := (tState.homeWrite 0 0x1000 (leBytes w 8)).msys
    cores := tCode
    groups := [(7, { tUser with sched := { tUser.sched with active := true } })]
    pack := [7]
    tried := true }

/-- The state at the issue. -/
def tAt (w : Nat) : State := { tPacked w with pack := [] }

theorem tPacked_selects (w : Nat) :
    Selects (tPacked w) (tAt w) 7 { tUser with sched := { tUser.sched with active := true } }
      { lanes := fullLanes 64, pc := 0x1000, st := .ready, stamp := 0 } false :=
  ⟨rfl, by rfl, rfl, .inl ⟨[], rfl, rfl⟩, rfl, by rfl, by rfl, rfl, rfl, rfl, rfl⟩

def tReady : Run := { lanes := fullLanes 64, pc := 0x1000, st := .ready, stamp := 0 }
def tActive : Group := { tUser with sched := { tUser.sched with active := true } }

theorem tWords (s0 : State) (hb : s0.msys.bad 0x1000 16 = false) :
    let s := { s0 with cores := tCode }
    WordsAt s (s.modMsys fun m => m.claims 0 0x1000 16) tActive tReady (s.msys.bytes 0 0x1000 16) := by
  intro s
  have e : min (32 - tReady.pc.toNat % 32) 16 = 16 := by decide
  unfold WordsAt
  rw [e]
  exact ⟨s, { pa := 0x1000, key := 0, typ := 0 }, rfl, by decide, hb, rfl, rfl⟩

theorem tWords_of {s : State} (hs : s.cores = tCode) (hb : s.msys.bad 0x1000 16 = false) :
    WordsAt s (s.modMsys fun m => m.claims 0 0x1000 16) tActive tReady (s.msys.bytes 0 0x1000 16) := by
  have h := tWords s hb
  have e : ({ s with cores := tCode } : State) = s := by rw [← hs]
  rw [e] at h
  exact h

theorem tPacked_cores (w : Nat) : (tAt w).cores = tCode := rfl

/-- A `nop` at the PC of a group whose turn it is; a word of no instruction there; a word that would be too long at the end of a block. -/
theorem witness_StepRunsTheDecodedInstruction : (∃ w, lenOver ((tAt w).msys.bytes 0 0x1000 16) (32 - (0x101C : Pc).toNat % 32) = true) ∧ (∃ w i l, Selects (tPacked w) (tAt w) 7 tActive tReady false ∧
    WordsAt (tAt w) ((tAt w).modMsys fun m => m.claims 0 0x1000 16) tActive tReady ((tAt w).msys.bytes 0 0x1000 16) ∧
    decodeBytes ((tAt w).msys.bytes 0 0x1000 16) = .ok i l ∧ l.bytes ≤ 32 - tReady.pc.toNat % 32 ∧
    ∃ t, exec i (State.beginIssue ((tAt w).modMsys fun m => m.claims 0 0x1000 16) 7 tActive tReady false) = .next t) ∧
    ∃ w j, Selects (tPacked w) (tAt w) 7 tActive tReady false ∧
      WordsAt (tAt w) ((tAt w).modMsys fun m => m.claims 0 0x1000 16) tActive tReady ((tAt w).msys.bytes 0 0x1000 16) ∧
      lenOver ((tAt w).msys.bytes 0 0x1000 16) (32 - tReady.pc.toNat % 32) = false ∧
      decodeBytes ((tAt w).msys.bytes 0 0x1000 16) = .bad j := by
  have d : decodeBytes ((tAt (((encode (.nop tH)).getD 0).toNat)).msys.bytes 0 0x1000 16) = .ok (.nop tH) .w64 := by decide +kernel
  refine ⟨⟨0x59040006600AF201, by decide +kernel⟩, ⟨_, _, _, tPacked_selects _, tWords_of (tPacked_cores _) (by decide +kernel), d, by decide, ?_⟩, 0x59040006600AF201, ?_⟩
  · simp only [exec]; exact ⟨_, rfl⟩
  · have h : (match decodeBytes ((tAt 0x59040006600AF201).msys.bytes 0 0x1000 16) with
      | .bad _ => true
      | _ => false) = true := by decide +kernel
    cases hd : decodeBytes ((tAt 0x59040006600AF201).msys.bytes 0 0x1000 16) with
    | bad j => exact ⟨j, tPacked_selects _, tWords_of (tPacked_cores _) (by decide +kernel), by decide +kernel, rfl⟩
    | _ => rw [hd] at h; cases h

/-- A pad word there. -/
theorem witness_PadWordsArePassed : Selects (tPacked 0xFFFFFFFC) (tAt 0xFFFFFFFC) 7 tActive tReady false ∧ tReady.pc.toNat % 4 = 0 ∧
    WordsAt (tAt 0xFFFFFFFC) ((tAt 0xFFFFFFFC).modMsys fun m => m.claims 0 0x1000 16) tActive tReady ((tAt 0xFFFFFFFC).msys.bytes 0 0x1000 16) ∧
    ((tAt 0xFFFFFFFC).msys.bytes 0 0x1000 16).take 4 = leBytes 0xFFFFFFFC 4 :=
  ⟨tPacked_selects _, by decide, tWords_of (tPacked_cores _) (by decide +kernel), by decide +kernel⟩

/-- A register at and beyond the budget; instructions of each privilege in a user group. -/
theorem witness_DecodeChecksTrap :
    (∃ g : Group, ∃ u ∈ regUses (.iadd tH { tA .i32 2 with d := .v 12 }), ∃ k w, u = (Reg.v k, w) ∧ g.info.budget < k.val + w) ∧
    tRun.cur = some tIssue ∧ tIssue.resume = none ∧ tRun.group? tIssue.gid = some tUser ∧
    tUser.info.kind ≠ .super ∧ tUser.sys.debug = false ∧ (∀ a b, tUser.info.kind ≠ .responder a b) ∧ SupervisorOnly (.halt tH) ∧ sysregSuper (0x014#10).toNat = true ∧
    ∀ i ∈ [Instr.halt tH, .sysrd tH 0x014 (.v 2), .dbgret tH true true, .reply tH (.v 2)], i.hdr = some tH ∧ breaksBudget 384 i = false := by
  refine ⟨⟨{ tUser with info := { tUser.info with budget := 12 } }, (.v 12, 1), by decide +kernel, 12, 1, rfl, by decide⟩, rfl, rfl, rfl, by decide, rfl, (by intro a b; simp [tUser, freshGroup, tInfo]),
    ⟨tH, by simp⟩, by decide, ?_⟩
  intro i hi
  have : ([Instr.halt tH, .sysrd tH 0x014 (.v 2), .dbgret tH true true, .reply tH (.v 2)].all fun i => i.hdr == some tH && !breaksBudget 384 i) = true := by decide +kernel
  simpa using List.all_eq_true.mp this i hi

/-- Lanes with two causes; groups of each kind, with a handler and without, with a debugger attached and without. -/
theorem witness_TrapsAreTaken :
    (∃ cs : List (Nat × Cause × Dword), cs ≠ [] ∧ ∀ d ∈ cs, d.1 < 64) ∧
    (tAgent.sys.debug = true ∧ tUser.sys.debug = false ∧ tUser.info.kind ≠ .super ∧ tUser.sys.intrap = false ∧ tUser.sys.trapvec = 0) ∧
    (((tParts tPart).core tUser.info.core).part tUser.info.part).attach = true ∧ ((tRun.core tUser.info.core).part tUser.info.part).attach = false ∧
    (∃ g : Group, g.sys.debug = false ∧ g.info.kind ≠ .super ∧ g.sys.intrap = false ∧ g.sys.trapvec ≠ 0 ∧ g.sys.trapvec.toNat % 4 = 0 ∧ g.sys.trapvec.toNat < 2 ^ 48) ∧
    (tInterrupted.sys.debug = false ∧ tInterrupted.info.kind = .super ∧ tInterrupted.sys.intrap = false ∧ tInterrupted.sys.trapvec ≠ 0) ∧
    (tSuper.sys.debug = false ∧ tSuper.info.kind = .super ∧ tSuper.sys.trapvec = 0) ∧ ∀ g : Group, ∃ s : State, s.group? 7 = some g :=
  ⟨⟨[(0, .misaligned, 1), (63, .permission, 2)], by simp, by decide⟩, ⟨rfl, rfl, by decide, rfl, rfl⟩, rfl, rfl,
    ⟨{ tUser with sys := { tUser.sys with trapvec := 0x4000 } }, rfl, by decide, rfl, by decide, by decide, by decide⟩,
    ⟨rfl, rfl, rfl, by decide⟩, ⟨rfl, rfl, rfl⟩, fun g => ⟨State.issuing tState g tIssue, rfl⟩⟩

/-- Every instruction of the bench falls under exactly one of the three statements on encodings, and is well-formed. -/
theorem witness_EncodingsReadBack :
    (tInstrs.all fun i => i.wf && ((encodeA i).isSome || (memOf i).isSome || ((encodeB i).isSome && (memOf i).isNone))) = true ∧
    (tInstrs.any fun i => (encodeA i).isSome) = true ∧ (tInstrs.any fun i => (memOf i).isSome) = true ∧
    (tInstrs.any fun i => (encodeB i).isSome && (memOf i).isNone) = true := by decide +kernel

theorem witness_StepsKeepMemoryCanonical : Memory.wf State.reset.msys ∧ ∃ t, step State.reset = .next t := by
  refine ⟨by decide, ?_⟩
  unfold step
  simp only [comeAbout, exec]
  exact ⟨_, rfl⟩

end Sys2Proof.Tests
end

/-! Requests to the management window (R5, R347, R348): how one begins, what each request does to the machine and the code it ends with, and how
it is reported. -/

namespace Sys2Proof.Machine

open Sys2Proof.Safety

-- The event list

theorem mem_insEvent {due : Nat} {i : Instr} {evs : List (Nat × Instr)} {e : Nat × Instr} : e ∈ insEvent due i evs ↔ e = (due, i) ∨ e ∈ evs := by
  induction evs with
  | nil => simp [insEvent]
  | cons d t ih =>
    obtain ⟨d, j⟩ := d
    unfold insEvent
    split
    · simp
    · simp only [List.mem_cons, ih]; tauto

@[simp] theorem State.mem_schedule {s : State} {due : Nat} {i : Instr} {e : Nat × Instr} :
    e ∈ (s.schedule due i).events ↔ e = (due, i) ∨ e ∈ s.events := mem_insEvent

/-- An event whose condition holds in this cycle stands in the list. -/
theorem State.mem_raise {s : State} {c : Bool} (hc : c = true) (i : Instr) : (s.clock.cc, i) ∈ (s.raise c i).events := by
  simp [State.raise, hc, State.cc]

-- A request begins, or is refused

theorem State.mgmtBegin_of_running {s : State} (h : s.mgmt.running ≠ none) (r : MReq) (f : Mgmt → Mgmt) :
    s.mgmtBegin r f = { s with mgmt := { s.mgmt with busyRef := true } } := by
  simp [State.mgmtBegin, Option.isSome_iff_ne_none, h, State.modMgmt]

/-- The request runs, and its end is set in motion after a free latency (log 1). -/
theorem State.mgmtBegin_of_idle {s : State} (h : s.mgmt.running = none) (r : MReq) (f : Mgmt → Mgmt) :
    s.mgmtBegin r f = (({ s with fresh := s.fresh + 1 }).modMgmt fun m => { f m with running := some r, stat := 1, code := 0, busyRef := false }).schedule
      (s.clock.cc + Config.freeLatency s.fresh) .mgmtRequestComplete := by
  simp [State.mgmtBegin, h, State.freeLat, State.cc]

/-- Outside the buffers that R348 allows no report is signed: the request begins as the others do. -/
theorem exec_mgmtAttest_of_badBuf {b : Nat} (hb : bufOk b = false) (s : State) :
    exec (.mgmtAttest b) s = .next (s.mgmtBegin (.attest b) fun m => { m with reqBuf := b }) := by
  have e : exec (.mgmtAttest b) s = execMgmtAttest b s := rfl
  simp [e, execMgmtAttest, hb]

theorem completes_of_mgmtBegin {i : Instr} {s : State} {r : MReq} {f : Mgmt → Mgmt} (he : exec i s = .next (s.mgmtBegin r f)) :
    (s.mgmt.running ≠ none → Completes i s fun t => t = { s with mgmt := { s.mgmt with busyRef := true } }) ∧
    (s.mgmt.running = none → Completes i s fun t => t.mgmt = { f s.mgmt with running := some r, stat := 1, code := 0, busyRef := false } ∧
      ∃ due, s.clock.cc ≤ due ∧ (due, Instr.mgmtRequestComplete) ∈ t.events) := by
  refine ⟨fun h => ⟨_, he, State.mgmtBegin_of_running h r f⟩, fun h => ⟨_, he, ?_⟩⟩
  rw [State.mgmtBegin_of_idle h]
  exact ⟨rfl, _, Nat.le_add_right _ _, State.mem_schedule.mpr (.inl rfl)⟩

-- The mode (R5)

theorem State.raiseIdle_modeChange {s : State} {mode : Mode} {since : Nat} (hp : s.clock.modePending = some (mode, since)) (hc : since + 48 ≤ s.clock.cc)
    (hl : mode = .lull → s.msys.lullReady = true) : (s.clock.cc, Instr.modeChange) ∈ s.raiseIdle.events := by
  have due : (decide (since + 48 ≤ s.cc) && !(mode == .lull && !s.msys.lullReady)) = true := by
    have : since + 48 ≤ s.cc := hc
    by_cases hm : mode = .lull <;> simp [hm, this, hl]
  unfold State.raiseIdle
  split <;> simp only [State.schedule_clock, hp] <;> exact State.mem_raise due _

-- A request ends (R348)

/-- A request has ended with a code: nothing runs, STAT says so, and MGMT (bit 7) stands in SYS.IPEND of core 0. -/
def Ended (s : State) (code : Nat) (t : State) : Prop :=
  t.mgmt.running = none ∧ t.mgmt.code = code ∧ t.mgmt.stat = (if code = 0 then 2 else 3) ∧ (t.core 0).ipend = (s.core 0).ipend ||| 128#32

theorem State.mgmtEnd_ended {s u : State} (hc : u.cores = s.cores) (code : Nat) : Ended s code (u.mgmtEnd code) := by
  refine ⟨rfl, rfl, rfl, ?_⟩
  have : u.core 0 = s.core 0 := by simp [State.core, hc]
  rw [← this]
  exact congrArg Core.ipend (State.core_modCore (u.modMgmt _) 0 _)

@[simp] theorem State.mgmtEnd_msys (s : State) (code : Nat) : (s.mgmtEnd code).msys = s.msys := rfl
@[simp] theorem State.mgmtEnd_wm (s : State) (code : Nat) : (s.mgmtEnd code).mgmt.wm = s.mgmt.wm := rfl

@[simp] theorem State.modMgmt_mgmt (s : State) (f : Mgmt → Mgmt) : (s.modMgmt f).mgmt = f s.mgmt := rfl
@[simp] theorem State.claimPhys_cores (s : State) (pa n : Nat) : (s.claimPhys pa n).cores = s.cores := by unfold State.claimPhys; split <;> rfl
@[simp] theorem State.claimPhys_mgmt (s : State) (pa n : Nat) : (s.claimPhys pa n).mgmt = s.mgmt := by unfold State.claimPhys; split <;> rfl

-- EXTEND and its request: a measurement of the buffer

theorem State.extendWm_of_badBuf {buf : Nat} (hb : bufOk buf = false) (s : State) (reg : Nat) : s.extendWm reg buf = (s, 2) := by
  simp [State.extendWm, hb]

theorem State.extendWm_of_badReg {reg buf : Nat} (hb : bufOk buf = true) (hr : reg < 4 ∨ 15 < reg) (s : State) : s.extendWm reg buf = (s, 3) := by
  simp [State.extendWm, hb, hr]

theorem State.extendWm_of_ok {reg buf : Nat} (hb : bufOk buf = true) (h4 : 4 ≤ reg) (h15 : reg ≤ 15) (s : State) :
    s.extendWm reg buf = ((s.claimPhys buf 4096).modMgmt fun m => m.extend reg (s.msys.bytes 0 buf 4096), 0) := by
  have hbuf : ¬ (!bufOk buf) = true := by simp [hb]
  have hreg : ¬ (decide (reg < 4) || decide (reg > 15)) = true := by simp; omega
  exact (if_neg hbuf).trans (if_neg hreg)

theorem State.extendWm_cores (s : State) (reg buf : Nat) : (s.extendWm reg buf).1.cores = s.cores := by
  cases hb : bufOk buf with
  | false => rw [State.extendWm_of_badBuf hb]
  | true =>
    by_cases hr : reg < 4 ∨ 15 < reg
    · rw [State.extendWm_of_badReg hb hr]
    · rw [State.extendWm_of_ok hb (by omega) (by omega), State.modMgmt_cores, State.claimPhys_cores]

theorem Mgmt.extend_wm_self (m : Mgmt) (n : Nat) (image : List Byte) :
    (m.extend n image).wm.get 0 n = BitVec.ofNat 512 (leNat (shake256 (leBytes (m.wm.get 0 n).toNat 64 ++ shake256 image))) := SMap.get_put_self 0 _ n _

theorem Mgmt.extend_wm_ne (m : Mgmt) {n k : Nat} (h : k ≠ n) (image : List Byte) : (m.extend n image).wm.get 0 k = m.wm.get 0 k :=
  SMap.get_put_ne 0 _ _ h

-- KEYSLOT

theorem State.loadKey_of_badBuf {s : State} (hb : bufOk s.mgmt.reqBuf = false) (slot : Nat) : s.loadKey slot = (s, 2) := by
  simp [State.loadKey, hb]

theorem State.loadKey_of_badSlot {s : State} {slot : Nat} (hb : bufOk s.mgmt.reqBuf = true) (h : slot = 0 ∨ 255 < slot) : s.loadKey slot = (s, 4) := by
  simp [State.loadKey, hb, h]

theorem State.loadKey_of_ok {s : State} {slot : Nat} (hb : bufOk s.mgmt.reqBuf = true) (h1 : 1 ≤ slot) (h255 : slot ≤ 255) :
    s.loadKey slot = (s.modMsys fun m => { m.claims 0 s.mgmt.reqBuf 64 with
      keySlots := m.keySlots.put keyZero slot (.loaded (BitVec.ofNat 512 (leNat (s.msys.bytes 0 s.mgmt.reqBuf 64)))) }, 0) := by
  have : ¬ (slot = 0 ∨ 255 < slot) := by omega
  simp [State.loadKey, hb, this, MemSys.nat]

theorem State.loadKey_cores (s : State) (slot : Nat) : (s.loadKey slot).1.cores = s.cores := by
  unfold State.loadKey
  split
  · rfl
  split <;> rfl

-- Staging an image (R351 step 1)

/-- The image that a request for staging finds in its buffer. -/
def State.stagedImage (s : State) (buf : Nat) : Image := s.physBytes buf (Config.imageLength (s.msys.bytes 0 buf 4096))
def State.stagedKind (s : State) (buf : Nat) : Nat := Config.imageKind (s.msys.bytes 0 buf 4096)

/-- The board with an image in its inactive slot, which boots next. -/
def Board.stage (b : Board) (kind : Nat) (i : Image) : Board :=
  let sl := ((b.slot b.inactive).getD slotNone).put kind i
  { (if b.inactive = 0 then { b with slotA := some sl } else { b with slotB := some sl }) with pendingSlot := some b.inactive }

/-- The image has been read, whether the board takes it or not. -/
def State.stageRead (s : State) (buf : Nat) : State := s.modMsys fun m => m.claims 0 buf (s.stagedImage buf).length

theorem State.stage_of_badBuf {buf : Nat} (hb : bufOk buf = false) (s : State) : s.stage buf = (s, 2) := by simp [State.stage, hb]

section
variable {s : State} {buf : Nat} (hb : bufOk buf = true)
include hb

/-- The checks stand in the order of their codes. -/
theorem State.stage_of_buf : s.stage buf =
    if !Config.xmssVerifies (s.stagedImage buf) then (s.stageRead buf, 5)
    else if !s.board.fresh (s.stagedKind buf) (Config.imageVersion (s.stagedImage buf)).toNat then (s.stageRead buf, 6)
    else if s.board.flashFails then (s.stageRead buf, 9)
    else ({ s.stageRead buf with board := s.board.stage (s.stagedKind buf) (s.stagedImage buf) }, 0) :=
  if_neg (by simp [hb])

theorem State.stage_of_unsigned (hv : Config.xmssVerifies (s.stagedImage buf) = false) : s.stage buf = (s.stageRead buf, 5) := by
  simp [State.stage_of_buf hb, hv]

variable (hv : Config.xmssVerifies (s.stagedImage buf) = true)
include hv

theorem State.stage_of_old (hn : ¬ s.board.rollback.get 0 (s.stagedKind buf) ≤ (Config.imageVersion (s.stagedImage buf)).toNat) :
    s.stage buf = (s.stageRead buf, 6) := by
  simp [State.stage_of_buf hb, hv, Board.fresh, hn]

variable (hn : s.board.rollback.get 0 (s.stagedKind buf) ≤ (Config.imageVersion (s.stagedImage buf)).toNat)
include hn

theorem State.stage_of_flashFails (hf : s.board.flashFails = true) : s.stage buf = (s.stageRead buf, 9) := by
  simp [State.stage_of_buf hb, hv, Board.fresh, hn, hf]

theorem State.stage_of_ok (hf : s.board.flashFails = false) :
    s.stage buf = ({ s.stageRead buf with board := s.board.stage (s.stagedKind buf) (s.stagedImage buf) }, 0) := by
  simp [State.stage_of_buf hb, hv, Board.fresh, hn, hf]

end

theorem State.stage_cores (s : State) (buf : Nat) : (s.stage buf).1.cores = s.cores := by
  cases hb : bufOk buf with
  | false => rw [State.stage_of_badBuf hb]
  | true =>
    rw [State.stage_of_buf hb]
    split
    · rfl
    split
    · rfl
    split <;> rfl

theorem Slot.put_reads (sl : Slot) (kind : Nat) (i : Image) :
    i = if kind = 0 then (sl.put kind i).stage1 else if kind = 1 then (sl.put kind i).firmware else (sl.put kind i).kernel := by
  unfold Slot.put
  split
  · rfl
  · split <;> rfl

theorem Board.stage_rollback (b : Board) (kind : Nat) (i : Image) : (b.stage kind i).rollback = b.rollback := by
  simp only [Board.stage]; split <;> rfl

theorem Board.stage_slot_inactive (b : Board) (kind : Nat) (i : Image) :
    (b.stage kind i).slot b.inactive = some (((b.slot b.inactive).getD slotNone).put kind i) := by
  by_cases h : b.inactive = 0 <;> simp [Board.stage, Board.slot, h]

/-- The active slot is no slot 0 when slot 0 is the inactive one, and slot 0 when it is not. -/
theorem Board.stage_slot_active (b : Board) (kind : Nat) (i : Image) : (b.stage kind i).slot b.active = b.slot b.active := by
  by_cases h : b.inactive = 0
  · have : b.active ≠ 0 := by unfold Board.inactive at h; omega
    simp [Board.stage, Board.slot, h, this]
  · have : b.active = 0 := by unfold Board.inactive at h; omega
    simp [Board.stage, Board.slot, h, this]

-- Confirming what has booted (R351 step 3)

/-- What a confirmation is refused for: nothing has booted from a slot that was staged and is another than the active one. -/
def State.ConfirmRefused (s : State) : Prop :=
  s.mgmt.booted = false ∨ s.mgmt.bootStaged = false ∨ s.mgmt.bootSlot = s.board.active ∨ s.board.slot s.mgmt.bootSlot = none

/-- The flash is tried before the slot is read. -/
theorem State.confirm_of_refused {s : State} (h : s.ConfirmRefused) (hf : s.board.slot s.mgmt.bootSlot = none → s.board.flashFails = false) :
    s.confirm = (s, 7) := by
  unfold State.confirm
  dsimp only
  split
  · rfl
  next hno =>
    simp only [Bool.or_eq_true, Bool.not_eq_true', decide_eq_true_eq, not_or] at hno
    obtain ⟨⟨hb, hs⟩, ha⟩ := hno
    have hn : s.board.slot s.mgmt.bootSlot = none := by
      rcases h with h | h | h | h
      · exact absurd h hb
      · exact absurd h hs
      · exact absurd h ha
      · exact h
    simp [hf hn, hn]

theorem State.confirm_of_allowed {s : State} (h : ¬ s.ConfirmRefused) : ∃ sl, s.board.slot s.mgmt.bootSlot = some sl ∧
    s.confirm = if s.board.flashFails = true then (s, 9) else ({ s with board := { s.board.raise sl with activeSlot := some s.mgmt.bootSlot } }, 0) := by
  simp only [State.ConfirmRefused, not_or, Bool.not_eq_false] at h
  obtain ⟨hb, hs, ha, hn⟩ := h
  obtain ⟨sl, hsl⟩ := Option.ne_none_iff_exists'.mp hn
  exact ⟨sl, hsl, by simp [State.confirm, hb, hs, ha, hsl]⟩

theorem State.confirm_cores (s : State) : s.confirm.1.cores = s.cores := by
  unfold State.confirm
  dsimp only
  split
  · rfl
  split
  · rfl
  split <;> rfl

theorem Board.raise_rollback (b : Board) (sl : Slot) (k : Nat) : (b.raise sl).rollback.get 0 k =
    if k = 0 then max (b.rollback.get 0 0) (Config.imageVersion sl.stage1).toNat
    else if k = 1 then max (b.rollback.get 0 1) (Config.imageVersion sl.firmware).toNat
    else if k = 2 then max (b.rollback.get 0 2) (Config.imageVersion sl.kernel).toNat else b.rollback.get 0 k := by
  by_cases h0 : k = 0
  · simp [Board.raise, SMap.get_put, h0]
  by_cases h1 : k = 1
  · simp [Board.raise, SMap.get_put, h1]
  by_cases h2 : k = 2
  · simp [Board.raise, SMap.get_put, h2]
  simp [Board.raise, SMap.get_put, h0, h1, h2]

-- The end of the request that runs

/-- No request reaches a core: only its report does. -/
theorem State.mgmtDo_cores (s : State) (r : MReq) : (s.mgmtDo r).1.cores = s.cores := by
  cases r with
  | badCode | attest | modeReq => rfl
  | extend buf => exact s.extendWm_cores _ buf
  | extendReg reg => exact s.extendWm_cores reg _
  | stage buf => exact s.stage_cores buf
  | confirm => exact s.confirm_cores
  | keyslot slot => exact s.loadKey_cores slot

section
variable {s u : State} {r : MReq} {code : Nat} (hr : s.mgmt.running = some r) (hw : s.mgmt.waitsTurn = false)
include hr hw

theorem exec_mgmtRequestComplete : exec .mgmtRequestComplete s = .next ((s.mgmtDo r).1.mgmtEnd (s.mgmtDo r).2) := by
  have e : exec .mgmtRequestComplete s = execMgmtRequestComplete s := rfl
  simp [e, execMgmtRequestComplete, hw, hr]

/-- The request that runs ends with its code, and what it did stands. -/
theorem completes_request_and (hd : s.mgmtDo r = (u, code)) {post : State → Prop} (hp : post (u.mgmtEnd code)) :
    Completes .mgmtRequestComplete s fun t => Ended s code t ∧ post t := by
  have hc : u.cores = s.cores := by rw [← s.mgmtDo_cores r, hd]
  have he := exec_mgmtRequestComplete hr hw
  rw [hd] at he
  exact ⟨_, he, State.mgmtEnd_ended hc code, hp⟩

theorem completes_request (hd : s.mgmtDo r = (u, code)) : Completes .mgmtRequestComplete s (Ended s code) := by
  obtain ⟨t, he, hend, -⟩ := completes_request_and hr hw hd (post := fun _ => True) trivial
  exact ⟨t, he, hend⟩

/-- Either form of an extension, once its register and its buffer are known. -/
theorem completes_extend {reg buf : Nat} (hd : s.mgmtDo r = s.extendWm reg buf) :
    (bufOk buf = false → Completes .mgmtRequestComplete s (Ended s 2)) ∧
    (bufOk buf = true → (reg < 4 ∨ 15 < reg) → Completes .mgmtRequestComplete s (Ended s 3)) ∧
    (bufOk buf = true → 4 ≤ reg → reg ≤ 15 → Completes .mgmtRequestComplete s fun t => Ended s 0 t ∧
      (∀ n, n ≠ reg → t.mgmt.wm.get 0 n = s.mgmt.wm.get 0 n) ∧
      t.mgmt.wm.get 0 reg = BitVec.ofNat 512 (leNat (shake256 (leBytes (s.mgmt.wm.get 0 reg).toNat 64 ++ shake256 (s.msys.bytes 0 buf 4096))))) := by
  refine ⟨fun hb => completes_request hr hw (hd.trans (State.extendWm_of_badBuf hb s reg)),
    fun hb hreg => completes_request hr hw (hd.trans (State.extendWm_of_badReg hb hreg s)),
    fun hb h4 h15 => completes_request_and hr hw (hd.trans (State.extendWm_of_ok hb h4 h15 s)) ⟨fun n hn => ?_, ?_⟩⟩
  · simp only [State.mgmtEnd_wm, State.modMgmt_mgmt, State.claimPhys_mgmt, Mgmt.extend_wm_ne _ hn]
  · simp only [State.mgmtEnd_wm, State.modMgmt_mgmt, State.claimPhys_mgmt, Mgmt.extend_wm_self]

theorem completes_keyslot {n : Nat} (h : r = .keyslot n) :
    (bufOk s.mgmt.reqBuf = false → Completes .mgmtRequestComplete s (Ended s 2)) ∧
    (bufOk s.mgmt.reqBuf = true → (n = 0 ∨ 255 < n) → Completes .mgmtRequestComplete s (Ended s 4)) ∧
    (bufOk s.mgmt.reqBuf = true → 1 ≤ n → n ≤ 255 → Completes .mgmtRequestComplete s fun t => Ended s 0 t ∧
      t.msys.ver n = .loaded (BitVec.ofNat 512 (leNat (s.msys.bytes 0 s.mgmt.reqBuf 64))) ∧ ∀ k, k ≠ n → t.msys.ver k = s.msys.ver k) := by
  subst h
  refine ⟨fun hb => completes_request hr hw (State.loadKey_of_badBuf hb n), fun hb hn => completes_request hr hw (State.loadKey_of_badSlot hb hn),
    fun hb h1 h255 => completes_request_and hr hw (State.loadKey_of_ok hb h1 h255) ⟨?_, fun k hk => ?_⟩⟩
  · simp [State.modMsys, MemSys.ver]
  · simp [State.modMsys, MemSys.ver, SMap.get_put_ne _ _ _ hk]

theorem completes_stage {b : Nat} (h : r = .stage b) (hb : bufOk b = true) :
    let bytes := s.stagedImage b
    let kind := s.stagedKind b
    let newer : Prop := s.board.rollback.get 0 kind ≤ (Config.imageVersion bytes).toNat
    (Config.xmssVerifies bytes = false → Completes .mgmtRequestComplete s (Ended s 5)) ∧
    (Config.xmssVerifies bytes = true → ¬ newer → Completes .mgmtRequestComplete s (Ended s 6)) ∧
    (Config.xmssVerifies bytes = true → newer → s.board.flashFails = true → Completes .mgmtRequestComplete s (Ended s 9)) ∧
    (Config.xmssVerifies bytes = true → newer → s.board.flashFails = false → Completes .mgmtRequestComplete s fun t => Ended s 0 t ∧
      t.board = s.board.stage kind bytes) := by
  subst h
  exact ⟨fun hv => completes_request hr hw (State.stage_of_unsigned hb hv), fun hv hn => completes_request hr hw (State.stage_of_old hb hv hn),
    fun hv hn hf => completes_request hr hw (State.stage_of_flashFails hb hv hn hf),
    fun hv hn hf => completes_request_and hr hw (State.stage_of_ok hb hv hn hf) rfl⟩

theorem completes_confirm (h : r = .confirm) :
    let n := s.mgmt.bootSlot
    (s.ConfirmRefused → (s.board.slot n = none → s.board.flashFails = false) → Completes .mgmtRequestComplete s (Ended s 7)) ∧
    (¬ s.ConfirmRefused → s.board.flashFails = true → Completes .mgmtRequestComplete s (Ended s 9)) ∧
    (¬ s.ConfirmRefused → s.board.flashFails = false → Completes .mgmtRequestComplete s fun t => Ended s 0 t ∧
      ∃ sl, s.board.slot n = some sl ∧ t.board = { s.board.raise sl with activeSlot := some n }) := by
  subst h
  refine ⟨fun h hf => completes_request hr hw (State.confirm_of_refused h hf), fun h hf => ?_, fun h hf => ?_⟩
  · obtain ⟨sl, -, hd⟩ := State.confirm_of_allowed h
    exact completes_request hr hw (hd.trans (if_pos hf))
  · obtain ⟨sl, hsl, hd⟩ := State.confirm_of_allowed h
    exact completes_request_and hr hw (hd.trans (if_neg (by simp [hf]))) ⟨sl, hsl, rfl⟩

end

/-- Settles O48: each request begins through `mgmtBegin` and ends through `mgmtDo`, whose answer is read off request by request. -/
theorem managementAnswersRequests : Obligations.ManagementAnswersRequests := by
  refine ⟨fun s i r f h => completes_of_mgmtBegin ?_, fun s mode => ⟨_, rfl, rfl, rfl⟩, fun s mode since => State.raiseIdle_modeChange,
    fun s r hr hw => ⟨?badCode, ?attest, ?extend, ?modeReq, ?keyslot, ?stage, ?confirm⟩⟩
  · rcases h with ⟨b, rfl, rfl, rfl⟩ | ⟨b, rfl, rfl, rfl⟩ | ⟨b, rfl, rfl, rfl⟩ | ⟨b, rfl, rfl, rfl⟩ | ⟨b, rfl, hb, rfl, rfl⟩ | ⟨n, rfl, rfl, rfl⟩ |
      ⟨n, rfl, rfl, rfl⟩
    case inr.inr.inr.inr.inl => exact exec_mgmtAttest_of_badBuf hb s
    all_goals rfl
  case badCode => rintro rfl; exact completes_request hr hw rfl
  case attest => rintro b rfl; exact completes_request hr hw rfl
  case extend =>
    rintro reg buf (⟨rfl, rfl⟩ | ⟨rfl, rfl⟩)
    · exact completes_extend hr hw rfl
    · exact completes_extend hr hw rfl
  case modeReq => rintro rfl; exact completes_request_and hr hw rfl rfl
  case keyslot => exact fun n => completes_keyslot hr hw
  case stage =>
    intro b h
    refine ⟨fun hb => ?_, fun hb => ?_⟩
    · subst h; exact completes_request hr hw (State.stage_of_badBuf hb s)
    · obtain ⟨h5, h6, h9, h0⟩ := completes_stage hr hw h hb
      refine ⟨h5, h6, h9, fun hv hn hf => ?_⟩
      obtain ⟨t, he, hend, hboard⟩ := h0 hv hn hf
      refine ⟨t, he, hend, ?_⟩
      rw [hboard]
      exact ⟨rfl, s.board.stage_rollback _ _, s.board.stage_slot_active _ _, _, s.board.stage_slot_inactive _ _, Slot.put_reads _ _ _⟩
  case confirm =>
    intro h
    obtain ⟨h7, h9, h0⟩ := completes_confirm hr hw h
    refine ⟨h7, h9, fun hn hf => ?_⟩
    obtain ⟨t, he, hend, sl, hsl, hboard⟩ := h0 hn hf
    refine ⟨t, he, hend, ?_⟩
    rw [hboard]
    refine ⟨rfl, fun sl' hsl' k => ?_⟩
    obtain rfl : sl = sl' := Option.some.inj (hsl.symm.trans hsl')
    exact s.board.raise_rollback sl k

end Sys2Proof.Machine

/-! Every instruction and event has a next state, and so has every step (R17, R86 to R88); what the issue of a run comes to (R30, R59 to R62, R99). -/

namespace Sys2Proof.Machine

open Sys2Proof.Safety

-- An instruction issued by a group that lives

section
variable {s : State} {q : Issue} {g : Group} (hq : s.cur = some q) (hg : s.group? q.gid = some g)
include hq hg

theorem State.withIssue_next (i : Instr) (h : Hdr) (body : X → State) : ∃ t, s.withIssue i h body = .next t := by
  unfold State.withIssue
  rw [hq]; dsimp only
  rw [hg]; dsimp only
  split
  · exact ⟨_, rfl⟩
  split <;> exact ⟨_, rfl⟩

/-- R17 comes before the mode (R88). -/
theorem State.withIssue_of_breaksBudget {i : Instr} (hb : breaksBudget g.info.budget i = true) (h : Hdr) (body : X → State) :
    ∃ t, s.withIssue i h body = .next t ∧ TrapsWhole s t q .illegalOperand := by
  unfold State.withIssue
  rw [hq]; dsimp only
  rw [hg]; dsimp only
  exact ⟨_, if_pos hb, rfl⟩

theorem State.withIssue_of_not_privOk {i : Instr} (hb : breaksBudget g.info.budget i = false) (hp : g.privOk i = false) (h : Hdr) (body : X → State) :
    ∃ t, s.withIssue i h body = .next t ∧ TrapsWhole s t q .privilege := by
  unfold State.withIssue
  rw [hq]; dsimp only
  rw [hg]; dsimp only
  rw [if_neg (by simp [hb]), if_pos (by simp [hp])]
  exact ⟨_, rfl, rfl⟩

end

-- What the meaning of an instruction is

theorem exec_of_encodeA {i : Instr} {r : Raw} (hi : encodeA i = some r) (s : State) : ∃ h body, exec i s = s.withIssue i h body := by
  unfold encodeA at hi
  split at hi
  case h_75 => cases hi
  all_goals (delta exec; exact ⟨_, _, rfl⟩)

theorem exec_of_encodeB {i : Instr} {r : Raw} (hi : encodeB i = some r) (s : State) : ∃ h body, exec i s = s.withIssue i h body := by
  unfold encodeB at hi
  split at hi
  case h_80 => cases hi
  all_goals (delta exec; exact ⟨_, _, rfl⟩)

/-- An instruction that some encoding stands for is issued: its meaning is an effect behind the checks of R17 and R86. -/
theorem exec_of_hdr {i : Instr} (hi : i.hdr ≠ none) (s : State) : ∃ h body, exec i s = s.withIssue i h body := by
  cases hA : encodeA i with
  | some r => exact exec_of_encodeA hA s
  | none =>
    cases hB : encodeB i with
    | some r => exact exec_of_encodeB hB s
    | none => exact absurd (by simp [Instr.hdr, encodeRaw, hA, hB]) hi

/-- A step of a mailbox wait issues for the group that waits. -/
theorem execMailboxStepRetry_next (gid : Nat) (lanes : Lanes) (s : State) : ∃ t, execMailboxStepRetry gid lanes s = .next t := by
  cases hg : s.group? gid with
  | none => exact ⟨s, by simp [execMailboxStepRetry, hg]⟩
  | some g =>
    cases hr : g.mailboxRun lanes with
    | none => exact ⟨s, by simp [execMailboxStepRetry, hg, hr]⟩
    | some r =>
      obtain ⟨r, w, i⟩ := r
      simp only [execMailboxStepRetry, hg, hr, Option.bind_some]
      have issued := State.withIssue_next (s := { s with cur := some { gid := gid, lanes := r.lanes, pc := r.pc, resume := some w } }) rfl hg
      split
      · exact ⟨_, rfl⟩
      · next hn =>
        split at hn
        · exact (issued _ _ _).elim fun t ht => absurd ht (hn t)
        · exact (issued _ _ _).elim fun t ht => absurd ht (hn t)
        · exact absurd rfl (hn _)

/-- An event carries no encoding, and has a next state in every state. -/
theorem exec_of_event {i : Instr} (hi : i.hdr = none) (s : State) : ∃ t, exec i s = .next t := by
  cases i
  case mailboxStepRetry gid lanes => exact execMailboxStepRetry_next gid lanes s
  case mxa h t bb bank arr src => cases src <;> exact absurd hi (Option.some_ne_none _)
  -- every other constructor is issued, or is an event whose meaning is `.next` of a state
  all_goals first
    | exact absurd hi (Option.some_ne_none _)
    | exact ⟨_, rfl⟩

theorem exec_next {s : State} {q : Issue} {g : Group} (hq : s.cur = some q) (hg : s.group? q.gid = some g) (i : Instr) : ∃ t, exec i s = .next t := by
  by_cases hi : i.hdr = none
  · exact exec_of_event hi s
  · obtain ⟨h, body, he⟩ := exec_of_hdr hi s
    rw [he]
    exact State.withIssue_next hq hg i h body

theorem exec_outcome (i : Instr) (s : State) : (∃ t, exec i s = .next t) ∨
    (exec i s = .fault .noIssuer ∧ i.hdr ≠ none ∧ ∀ q, s.cur = some q → s.group? q.gid = none) := by
  by_cases hi : i.hdr = none
  · exact .inl (exec_of_event hi s)
  obtain ⟨h, body, he⟩ := exec_of_hdr hi s
  rcases s.withIssue_total i h body with ht | hf
  · exact .inl (he ▸ ht)
  · refine .inr ⟨he.trans hf, hi, fun q hq => Option.eq_none_iff_forall_not_mem.mpr fun g hg => ?_⟩
    obtain ⟨t, ht⟩ := State.withIssue_next hq hg i h body
    rw [hf] at ht
    cases ht

-- The checks that the state decides (R17, R86 to R88)

theorem breaksBudget_iff {n : Nat} {i : Instr} : breaksBudget n i = true ↔ ∃ u ∈ regUses i, ∃ k w, u = (Reg.v k, w) ∧ n < k.val + w := by
  unfold breaksBudget
  rw [List.any_eq_true]
  refine exists_congr fun u => and_congr_right fun _ => ?_
  obtain ⟨r, w⟩ := u
  cases r <;> simp

theorem Group.priv_of_user {g : Group} (hk : g.info.kind ≠ .super) (hd : g.sys.debug = false) : g.priv = false := by
  simp [Group.priv, Group.isSuper, hk, hd]

theorem Group.isResponder_eq_false {g : Group} (h : ∀ a b, g.info.kind ≠ .responder a b) : g.isResponder = false := by
  unfold Group.isResponder
  split
  · next r hr => exact absurd hr (h _ _)
  · rfl

theorem Group.privOk_of_supervisorOnly {g : Group} {i : Instr} (hi : SupervisorOnly i) : g.privOk i = g.priv := by
  obtain ⟨h, ⟨d, rfl⟩ | ⟨a, b, rfl⟩ | rfl | ⟨k, gl, a, b, rfl⟩ | ⟨l, a, rfl⟩ | ⟨d, a, rfl⟩ | rfl | ⟨k, a, rfl⟩ | ⟨d, rfl⟩ | ⟨a, rfl⟩ | ⟨a, rfl⟩ | ⟨a, rfl⟩ |
    ⟨a, rfl⟩ | ⟨w, a, rfl⟩⟩ := hi <;> rfl

-- Steps

theorem comeAbout_next (i : Instr) (s : State) : ∃ t, comeAbout i s = .next t := by
  unfold comeAbout
  split
  · exact ⟨s, rfl⟩
  · next hi => exact exec_of_event (by simpa using hi) s

@[simp] theorem State.beginIssue_cur (s : State) (gid : Nat) (g : Group) (r : Run) (e : Bool) :
    (s.beginIssue gid g r e).cur = some { gid := gid, lanes := r.lanes, pc := r.pc, resume := none } := rfl

@[simp] theorem State.group?_beginIssue (s : State) (gid : Nat) (g : Group) (r : Run) (e : Bool) :
    (s.beginIssue gid g r e).group? gid = some (g.issued r e s.cc) := s.group?_setGroup gid _

theorem exec_beginIssue_next (i : Instr) (s : State) (gid : Nat) (g : Group) (r : Run) (e : Bool) : ∃ t, exec i (s.beginIssue gid g r e) = .next t :=
  exec_next (State.beginIssue_cur s gid g r e) (State.group?_beginIssue s gid g r e) i

theorem issueGroup_next (s : State) (gid : Nat) : ∃ t, issueGroup s gid = .next t := by
  unfold issueGroup
  split
  · exact ⟨_, rfl⟩
  split
  · exact ⟨_, rfl⟩
  split
  · exact ⟨_, rfl⟩
  dsimp only
  split
  · exact ⟨_, rfl⟩
  split
  · exact exec_of_event rfl _
  split
  · exact exec_of_event rfl _
  split
  · exact exec_of_event rfl _
  split
  · exact ⟨_, rfl⟩
  · exact ⟨_, rfl⟩
  · exact ⟨_, rfl⟩
  · next s i _ _ =>
    obtain ⟨t, ht⟩ := exec_beginIssue_next i s gid _ _ _
    rw [ht]
    exact ⟨_, rfl⟩

theorem step_next (s : State) : Safety.Runs s := by
  unfold Safety.Runs step
  split
  · exact comeAbout_next _ _
  split
  · exact exec_of_event rfl _
  split
  · exact ⟨_, rfl⟩
  split
  · exact issueGroup_next _ _
  split
  · exact issueGroup_next _ _
  · exact ⟨_, rfl⟩

/-- Settles O53: an instruction's meaning stands behind the two checks of `withIssue`, and an event's is a next state. -/
theorem decodeChecksTrap : Obligations.DecodeChecksTrap := by
  refine ⟨⟨exec_outcome, step_next⟩, fun s i h q g hi hq _ hg => ?_⟩
  obtain ⟨h', body, he⟩ := exec_of_hdr (i := i) (by simp [hi]) s
  have mode (hb : ¬ ∃ u ∈ regUses i, ∃ k w, u = (Reg.v k, w) ∧ g.info.budget < k.val + w) (hp : g.privOk i = false) :
      Completes i s fun t => TrapsWhole s t q .privilege := by
    rw [Completes, he]
    exact State.withIssue_of_not_privOk hq hg (Bool.eq_false_iff.mpr (mt breaksBudget_iff.mp hb)) hp h' body
  refine ⟨fun hb => ?_, fun hb ⟨hk, hd⟩ hS => mode hb ?_, fun hb ⟨hk, hd⟩ ⟨n, a, hn, hs⟩ => mode hb ?_, fun hb hd ⟨a, b, hn⟩ => mode hb ?_,
    fun hb hk ⟨a, hn⟩ => mode hb ?_⟩
  · rw [Completes, he]
    exact State.withIssue_of_breaksBudget hq hg (breaksBudget_iff.mpr hb) h' body
  · rw [Group.privOk_of_supervisorOnly hS, Group.priv_of_user hk hd]
  · rcases hn with rfl | rfl <;> simp [Group.privOk, Group.priv_of_user hk hd, hs]
  · subst hn; exact hd
  · subst hn; exact Group.isResponder_eq_false hk

end Sys2Proof.Machine

/-! The issue of a run (R30, R59 to R62, R88, R99): the words at its PC, what they decode to, and the step that issues it. -/

namespace Sys2Proof.Machine

open Sys2Proof.Safety

-- The first word of the bytes fetched (R59, R60)

theorem leNat_take (bs : List Byte) (n : Nat) : leNat (bs.take n) = leNat bs % 256 ^ n := by
  induction bs generalizing n with
  | nil => simp [leNat]
  | cons b t ih =>
    cases n with
    | zero => simp [leNat, Nat.mod_one]
    | succ n =>
      rw [List.take_succ_cons, leNat, leNat, ih, Nat.pow_succ', Nat.mod_mul, Nat.add_mul_mod_self_left, Nat.mod_eq_of_lt b.isLt,
        Nat.add_mul_div_left _ _ (by decide), Nat.div_eq_of_lt b.isLt, Nat.zero_add]

theorem firstWord_eq (bs : List Byte) : (BitVec.ofNat 128 (leNat bs)).extractLsb' 0 32 = BitVec.ofNat 32 (leNat (bs.take 4)) := by
  apply BitVec.eq_of_toNat_eq
  rw [leNat_take]
  simp only [BitVec.extractLsb'_toNat, BitVec.toNat_ofNat, Nat.shiftRight_zero]
  omega

theorem lenOf_of_decodeBytes {bs : List Byte} {i : Instr} {l : Len} (h : decodeBytes bs = .ok i l) :
    lenOf (BitVec.ofNat 32 (leNat (bs.take 4))) = some l := by
  rw [← firstWord_eq]
  unfold decodeBytes decodeQuad at h
  split at h
  · split at h <;> cases h
  · next l' hl =>
    split at h
    · cases h; exact hl
    · cases h

/-- An instruction within its 32-byte block is not too long. -/
theorem lenOver_of_decodeBytes {bs : List Byte} {i : Instr} {l : Len} {room : Nat} (h : decodeBytes bs = .ok i l) (hl : l.bytes ≤ room) :
    lenOver bs room = false := by
  simp [lenOver, lenOf_of_decodeBytes h, hl]

-- The fetch

section
variable {s1 s2 : State} {g : Group} {r : Run} {bs : List Byte} (hw : WordsAt s1 s2 g r bs)
include hw

theorem fetch_of_long (hl : lenOver bs (32 - r.pc.toNat % 32) = true) : s1.fetch g r.pc = (s2, .bad .illegalOpcode) := by
  obtain ⟨s', x, hx, hpa, hbad, rfl, rfl⟩ := hw
  simp [State.fetch, hx, hbad, State.homeRead, hl, Nat.not_le.mpr hpa]

theorem fetch_of_bad {j : Reject} (hl : lenOver bs (32 - r.pc.toNat % 32) = false) (hd : decodeBytes bs = .bad j) : s1.fetch g r.pc = (s2, .bad j) := by
  obtain ⟨s', x, hx, hpa, hbad, rfl, rfl⟩ := hw
  simp [State.fetch, hx, hbad, State.homeRead, hl, hd, Nat.not_le.mpr hpa]

theorem fetch_of_ok {i : Instr} {l : Len} (hd : decodeBytes bs = .ok i l) (hl : l.bytes ≤ 32 - r.pc.toNat % 32) : s1.fetch g r.pc = (s2, .ok i l) := by
  have ho := lenOver_of_decodeBytes hd hl
  obtain ⟨s', x, hx, hpa, hbad, rfl, rfl⟩ := hw
  simp [State.fetch, hx, hbad, State.homeRead, ho, hd, Nat.not_le.mpr hpa]

end

-- The step that issues

theorem State.rejectRun_eq (s : State) (gid : Nat) (g : Group) (r : Run) (j : Reject) : s.rejectRun gid g r j =
    s.takeTrap gid { cause := rejectCause j, other := false, mask := r.lanes, pc := r.pc, npc := r.pc, addr := 0, run := r.lanes } := rfl

/-- The outcome of an issue, the debugger's checks made after it (R220, R333). -/
def afterIssue (gid : Nat) (agent : Bool) : Host.Outcome State Fault Refusal → Host.Outcome State Fault Refusal
  | .next t => .next (t.endIssue gid agent)
  | .fault f => .fault f
  | .refused f => .refused f

section
variable {s s1 s2 : State} {gid : Nat} {g : Group} {r : Run} {e : Bool} (hs : Selects s s1 gid g r e)
include hs

theorem step_of_selects : step s = issueGroup s1 gid := by
  obtain ⟨hquiet, hend, hbegun, hturn⟩ := hs
  have ht : ¬ (!s.tried) = true := by simp [hbegun]
  unfold step
  rcases hturn with ⟨rest, hp, rfl⟩ | ⟨hp, s0, p, pk, hsel, rfl⟩
  · simp only [hquiet, hend, if_neg ht, hp]
  · simp only [hquiet, hend, if_neg ht, hp, hsel]

theorem step_of_bad {j : Reject} (hf : s1.fetch g r.pc = (s2, .bad j)) :
    step s = .next (((s2.beginIssue gid g r e).rejectRun gid g r j).endIssue gid g.sys.debug) := by
  rw [step_of_selects hs]
  obtain ⟨-, -, -, -, hg, hel, hpick, hpend, hint, hhalt, hbp⟩ := hs
  simp [issueGroup, hg, hel, hpick, hpend, hint, hhalt, hbp, hf]

theorem step_of_ok {i : Instr} {l : Len} (hf : s1.fetch g r.pc = (s2, .ok i l)) :
    step s = afterIssue gid g.sys.debug (exec i (s2.beginIssue gid g r e)) := by
  rw [step_of_selects hs]
  obtain ⟨-, -, -, -, hg, hel, hpick, hpend, hint, hhalt, hbp⟩ := hs
  simp only [issueGroup, hg, hel, hpick, hpend, hint, hhalt, hbp, hf, Bool.not_true, Bool.false_eq_true, if_false, Option.isSome_none]
  cases exec i (s2.beginIssue gid g r e) <;> rfl

end

/-- Settles O50: the selection leaves the issue of the run, and the issue is what its words decode to. -/
theorem stepRunsTheDecodedInstruction : Obligations.StepRunsTheDecodedInstruction := by
  refine ⟨fun s s1 s2 gid g r e bs i l hs hw hd hl => ?ok, fun s s1 s2 gid g r e bs c hs hw hc => ?bad⟩
  case ok =>
    rw [step_of_ok hs (fetch_of_ok hw hd hl)]
    exact ⟨fun t hx => by rw [hx]; rfl, fun f hx => by rw [hx]; rfl, fun f hx => by rw [hx]; rfl⟩
  case bad =>
    rcases hc with ⟨hlong, rfl⟩ | ⟨hlong, j, hd, rfl⟩
    · rw [step_of_bad hs (fetch_of_long hw hlong), State.rejectRun_eq]; rfl
    · rw [step_of_bad hs (fetch_of_bad hw hlong hd), State.rejectRun_eq]

end Sys2Proof.Machine

/-! Reset (R297, R300, R307, R308, R310, R315, R330, R340) and the group that a launch begins (R18). -/

namespace Sys2Proof.Machine

open Sys2Proof.Safety

/-- The S registers of a launch block, written one after the other, hold its values. -/
theorem get_putAll (vals : List Nat) (k n : Nat) (m : SMap Dword) :
    ((vals.zipIdx k).foldl (fun m p => m.put 0 p.2 (BitVec.ofNat 64 p.1)) m).get 0 n =
      if k ≤ n ∧ n < k + vals.length then BitVec.ofNat 64 (vals.getD (n - k) 0) else m.get 0 n := by
  induction vals generalizing k m with
  | nil => simp
  | cons v vs ih =>
    rw [List.zipIdx_cons, List.foldl_cons, ih, List.length_cons]
    rcases Nat.lt_trichotomy n k with h | rfl | h
    · rw [if_neg (by omega), if_neg (by omega), SMap.get_put_ne _ _ _ (by omega)]
    · rw [if_neg (by omega), if_pos (by omega), SMap.get_put_self, Nat.sub_self, List.getD_cons_zero]
    · rw [SMap.get_put_ne _ _ _ (by omega), show n - k = n - (k + 1) + 1 by omega, List.getD_cons_succ]
      exact if_congr (by omega) rfl rfl

section
variable (info : GInfo) (pc : Pc) (sregs : List Nat) (cc l : Nat)

theorem freshGroup_rdP {n : Nat} (hn : n < 7) : (freshGroup info pc sregs cc).rdP n l = false := by
  have hp : (freshGroup info pc sregs cc).regs.p = [] := rfl
  simp [Group.rdP, hp, SMap.get, Nat.ne_of_lt hn]

theorem freshGroup_rd64_s (n : Fin 64) : (freshGroup info pc sregs cc).rd64 l (.s n) = BitVec.ofNat 64 (sregs.getD n.val 0) := by
  have h : (freshGroup info pc sregs cc).rd64 l (.s n) = _ := get_putAll sregs 0 n.val []
  rw [h, Nat.zero_add, Nat.sub_zero]
  split
  · rfl
  · rw [List.getD_eq_default _ _ (by omega)]; rfl

end

theorem part_reset (p : Nat) : Core.reset.part p = PartDbg.reset := ite_self _

/-- Settles O60: nothing is listed at reset, so every core, link and context holds its reset record, which is read off field by field. -/
theorem resetHoldsTheStatedValues : Obligations.ResetHoldsTheStatedValues := by
  refine ⟨rfl, rfl, rfl, rfl, fun _ => rfl, fun core => ⟨rfl, rfl, rfl, rfl, rfl, rfl, rfl, fun p => ?part⟩, fun _ => ⟨rfl, rfl, rfl, rfl⟩,
    fun _ => ⟨rfl, rfl, rfl⟩, fun info pc sregs cc =>
      ⟨fun l => ⟨fun _ => rfl, fun _ => rfl, fun _ => rfl, fun n => freshGroup_rdP info pc sregs cc l, rfl, freshGroup_rd64_s info pc sregs cc l⟩,
        rfl, rfl, ⟨rfl, rfl, rfl, rfl⟩, rfl, rfl, rfl, rfl, rfl, rfl, rfl⟩⟩
  rw [show State.reset.core core = Core.reset from rfl, part_reset p]
  exact ⟨rfl, rfl, rfl⟩

end Sys2Proof.Machine

/-! Matrix commands (R33, R68, R169 to R174, R177): how one is taken or waits, what `mxfence` and `mxwait` wait for. -/

namespace Sys2Proof.Machine

open Sys2Proof.Safety

-- Where the lanes of an issue go

theorem Group.standsIn_place (g : Group) {m : Lanes} (pc : Pc) (st : RunSt) (n : Nat) {l : Nat} (hl : m.getLsbD l = true) :
    StandsIn (g.place m pc st n) l pc st := by
  have h0 : m ≠ 0 := by rintro rfl; simp at hl
  unfold Group.place
  rw [if_neg h0]
  exact ⟨_, mem_insRun.mpr (.inl rfl), hl, rfl, rfl⟩

theorem Group.place_eq (g : Group) (m : Lanes) (pc : Pc) (st : RunSt) (n : Nat) : ∃ rs, g.place m pc st n = { g with runs := rs } := by
  unfold Group.place
  split
  · exact ⟨g.runs, rfl⟩
  · exact ⟨_, rfl⟩

section
variable (x : X) {q : Issue} (hgid : x.gid = q.gid) (hm : x.m = q.lanes)
include hgid hm

theorem X.goOn_done : GoOn x.done q fun _ => x.next := by
  refine ⟨x.move x.m x.next, hgid ▸ x.s.group?_setGroup x.gid _, fun l hl => ?_⟩
  unfold X.move
  split
  · exact (x.g.at_wake x.next (hm ▸ hl)).pcOf
  · exact (x.g.at_goto x.next (hm ▸ hl)).pcOf

theorem X.waitsAt_wait (hpc : x.pc = q.pc) (w : Wait) : WaitsAt (x.wait w) q w.why w.ins :=
  ⟨x.g.hold x.m x.pc (.waiting w), hgid ▸ x.s.group?_setGroup x.gid _, fun _ hl => ⟨w, hpc ▸ x.g.standsIn_place x.pc _ _ (hm ▸ hl), rfl, rfl⟩⟩

end

theorem issueX_done_onlyRuns (s : State) (q : Issue) (g : Group) (h : Hdr) : OnlyRuns s (issueX s q g h).done q g := by
  obtain ⟨rs, e⟩ := g.place_eq q.lanes (nextPc h q) .ready (stampOf q.lanes g.runs g.sched.issues)
  exact ⟨rs, congrArg (s.setGroup q.gid) e⟩

@[simp] theorem State.cluster_modCluster (s : State) (k : Nat) (f : Cluster → Cluster) : (s.modCluster k f).cluster k = f (s.cluster k) := by
  simp [State.cluster, State.modCluster, SMap.get]

@[simp] theorem State.mxe_modMxe (s : State) (k : Nat) (f : Mxe → Mxe) : (s.modMxe k f).mxe k = f (s.mxe k) := by
  simp [State.mxe, State.modMxe]

theorem X.mxe_done (x : X) (k : Nat) : x.done.mxe k = x.s.mxe k := rfl

-- A matrix instruction is collective over every lane of its group (R33, R68, R169)

section
variable (s : State) (q : Issue) (g : Group) (h : Hdr) (body : X → State)

theorem X.matrix_of_empty (h0 : acts h q g = 0) : (issueX s q g h).matrix body = (issueX s q g h).done := if_pos h0

/-- Its operands are taken as with U = 1. -/
theorem X.matrix_of_whole (h0 : acts h q g ≠ 0) (ha : acts h q g = q.lanes) (hf : q.lanes = fullLanes g.info.width) :
    (issueX s q g h).matrix body = body (issueX s q g { h with u := true }) :=
  (if_neg h0).trans ((if_pos ha).trans (if_neg (not_not_intro hf)))

theorem X.matrix_of_part (h0 : acts h q g ≠ 0) (hw : ¬ (acts h q g = q.lanes ∧ q.lanes = fullLanes g.info.width)) :
    (issueX s q g h).matrix body = s.takeTrap q.gid
      { cause := .illegalConvergence, other := false, mask := q.lanes, pc := q.pc, npc := q.pc, addr := 0, run := q.lanes } := by
  refine (if_neg h0).trans ?_
  by_cases ha : acts h q g = q.lanes
  · exact (if_pos ha).trans (if_pos fun hf => hw ⟨ha, hf⟩)
  · exact if_neg ha

end

-- Commands (R170 to R174)

theorem X.command_of_busy (x : X) (hb : 32 ≤ (x.s.mxe (clusterOf x.core)).table.length ∨ (x.s.bte (clusterOf x.core)).stop = true)
    (arr : Option Nat) (ten : Option (List Byte)) (kind : MxKind) : x.command arr ten kind = x.retryLater .engine :=
  if_pos (by simpa using hb)

/-- A command is taken: its entry comes last in the table, TL rises, and the group notes it. -/
theorem X.command_of_free (x : X) (hb : ¬ (32 ≤ (x.s.mxe (clusterOf x.core)).table.length ∨ (x.s.bte (clusterOf x.core)).stop = true))
    (arr : Option Nat) (ten : Option (List Byte)) (kind : MxKind) :
    ∃ e : MxEntry, x.command arr ten kind =
        { x with s := { x.s with serial := x.s.serial + 1 }.modMxe (clusterOf x.core) fun m => { m with table := m.table ++ [e] }
                 g := { x.g.incCtr 3 with cmds := x.g.cmds ++ [({ entry := x.s.serial, pc := x.pc, complete := false, err := none } : MxCmd)] } }.done ∧
      e.id = x.s.serial ∧ e.kind = kind ∧ e.arr = arr ∧ e.gid = x.gid ∧ e.prio = x.g.info.prio ∧ e.granted = none ∧ e.held = none ∧ e.read = false ∧
      e.arrived = false := by
  refine ⟨_, if_neg (mt (by simp) hb), ?_⟩
  exact ⟨rfl, rfl, rfl, rfl, rfl, rfl, rfl, rfl, rfl⟩

/-- The coordinates are those of the lowest lane (R33). -/
theorem issueX_coord (s : State) {q : Issue} {g : Group} {h : Hdr} (ha : acts h q g = q.lanes) (a : Reg) :
    ∃ b, (issueX s q g { h with u := true }).coord a = (issueU s q g { h with u := true } b, g.rd64 (lowest q.lanes) a) := by
  obtain ⟨b, hb⟩ := issueX_uniform s q g { h with u := true } fun l => [g.rd64 l a]
  have hlow : (issueX s q g { h with u := true }).low = lowest q.lanes := congrArg lowest ha
  exact ⟨b, Prod.ext hb (congrArg (g.rd64 · a) hlow)⟩

/-- The command that a matrix instruction makes of its operands. -/
theorem exec_matrix {s : State} {q : Issue} {g : Group} {h : Hdr} {i : Instr} {kind : MxKind} {arr : Option Nat} (hh : i.hdr = some h)
    (hk : matrixKind s q g i = some (kind, arr)) (hi : Issues s i q g) : ∃ body, exec i s = .next ((issueX s q g h).matrix body) ∧
      (acts h q g = q.lanes → ∃ b ten, body (issueX s q g { h with u := true }) = (issueU s q g { h with u := true } b).command arr ten kind) := by
  unfold matrixKind at hk
  dsimp only at hk
  split at hk
  case h_7 => cases hk
  all_goals
    cases hk
    obtain rfl : _ = h := Option.some.inj hh
    delta exec
    refine ⟨_, State.withIssue_of_issues hi _ _, fun ha => ?_⟩
  case h_3 | h_6 => exact ⟨g.sys.uniformViolation, none, rfl⟩
  case h_1 a | h_2 a | h_4 a | h_5 a =>
    obtain ⟨b, hb⟩ := issueX_coord s ha a
    dsimp only
    rw [hb]
    exact ⟨b, _, rfl⟩

-- What `mxfence` and `mxwait` wait for (R177)

/-- With no operation of the group outstanding a release at `.wg` is complete at once. -/
theorem X.release_of_noOps (x : X) (hn : NoOps x.s x.gid) : ∃ s, x.release .wg = ({ x with s := s }, none) := by
  have hw : (x.flush.ops.filterMap fun p => if p.2.gid = x.gid && p.2.accs.all (fun a => a.typ < 9) then some p.1 else none) = [] :=
    List.filterMap_eq_nil_iff.mpr fun p hp => by simp [hn p hp]
  have hg : x.flush.group? x.gid = some x.g := x.s.group?_setGroup x.gid x.g
  have hd (m : SMap Rel) (k : Nat) : (m.del k).find k = none := by simp [SMap.find_del]
  unfold X.release State.beginRel State.newSerial
  dsimp only
  rw [hw]
  simp only [State.relStep, SMap.find_ins_self, List.any_nil, Bool.false_eq_true, ↓reduceIte, nearScope, State.endRel, Option.bind_none, hd,
    Option.isSome_none, Prod.mk.injEq, mk.injEq, and_self, and_true, true_and, exists_and_right, ↓existsAndEq]
  exact congrArg (Option.getD · x.g) hg

/-- What a matrix instruction that the whole group issues comes to. -/
theorem matrix_of_whole_issue {s : State} {q : Issue} {g : Group} {h : Hdr} {i : Instr} {body : X → State} (hi : Issues s i q g)
    (he : exec i s = s.withIssue i h fun x => x.matrix body) (hf : q.lanes = fullLanes g.info.width) (h0 : q.lanes ≠ 0) (ha : acts h q g = q.lanes) :
    exec i s = .next (body (issueX s q g { h with u := true })) := by
  rw [exec_of_withIssue he hi, X.matrix_of_whole s q g h body (ha ▸ h0) ha hf]

/-- The commands that an `mxwait` waits for: all but the youngest. -/
abbrev Group.covered (g : Group) (n : BitVec 6) : List MxCmd := g.cmds.take (g.cmds.length - n.toNat)

theorem exec_mxfence (h : Hdr) (s : State) : exec (.mxfence h) s = s.withIssue (.mxfence h) h fun x => x.matrix fun x =>
    x.afterRel (.mxfence h) .wg fun x w => if x.g.busy.isEmpty then x.done else x.wait w := rfl

theorem X.afterRel_of_noOps (x : X) (hr : x.resume = none) (hn : NoOps x.s x.gid) (i : Instr) (body : X → Wait → State) :
    ∃ s, x.afterRel i .wg body = body { x with s := s } (Wait.of .release (some i) x.lanes) := by
  obtain ⟨s, hs⟩ := x.release_of_noOps hn
  exact ⟨s, by simp [X.afterRel, hr, hs, Wait.over_, Wait.of]⟩

section
variable {s : State} {q : Issue} {g : Group} {h : Hdr} (hf : q.lanes = fullLanes g.info.width) (h0 : q.lanes ≠ 0) (ha : acts h q g = q.lanes)
include hf h0 ha

theorem completes_mxfence (hi : Issues s (.mxfence h) q g) (hn : NoOps s q.gid) :
    (g.busy = [] → Completes (.mxfence h) s fun t => GoOn t q fun _ => nextPc h q) ∧
    (g.busy ≠ [] → Completes (.mxfence h) s fun t => WaitsAt t q .release (some (.mxfence h))) := by
  have he := matrix_of_whole_issue hi (exec_mxfence h s) hf h0 ha
  obtain ⟨s', hs⟩ := X.afterRel_of_noOps (issueX s q g { h with u := true }) rfl hn (.mxfence h) fun x w => if x.g.busy.isEmpty then x.done else x.wait w
  rw [hs] at he
  exact ⟨fun hb => ⟨_, he.trans (congrArg _ (if_pos (List.isEmpty_iff.mpr hb))), X.goOn_done _ rfl rfl⟩,
    fun hb => ⟨_, he.trans (congrArg _ (if_neg (mt List.isEmpty_iff.mp hb))), X.waitsAt_wait _ rfl rfl rfl _⟩⟩

section
variable {n : BitVec 6} (hi : Issues s (.mxwait h n) q g)
include hi

theorem completes_mxwait_of_incomplete (hc : ∃ c ∈ g.covered n, c.complete = false) :
    Completes (.mxwait h n) s fun t => WaitsAt t q .engine (some (.mxwait h n)) := by
  have e : exec (.mxwait h n) s = execMxwait h n s := rfl
  have hany : ((g.covered n).any fun c => !c.complete) = true := by simpa using hc
  exact ⟨_, (matrix_of_whole_issue hi e hf h0 ha).trans (congrArg _ (if_pos hany)), X.waitsAt_wait _ rfl rfl rfl _⟩

variable (hc : ∀ c ∈ g.covered n, c.complete = true)
include hc

/-- The commands that an `mxwait` has covered are forgotten. -/
theorem completes_mxwait_of_clean (herr : ∀ c ∈ g.covered n, c.err = none) :
    Completes (.mxwait h n) s fun t => GoOn t q (fun _ => nextPc h q) ∧
      ∃ k, t.group? q.gid = some k ∧ k.cmds = g.cmds.drop (g.covered n).length ∧ k.regs = g.regs := by
  have e : exec (.mxwait h n) s = execMxwait h n s := rfl
  have hany : ¬ ((g.covered n).any fun c => !c.complete) = true := by simpa using hc
  have hfind : (g.covered n).find? (·.err.isSome) = none := by simpa using herr
  have he := (matrix_of_whole_issue hi e hf h0 ha).trans (congrArg _ (if_neg hany))
  dsimp only [issueX] at he
  rw [hfind] at he
  exact ⟨_, he, X.goOn_done _ rfl rfl, _, State.group?_setGroup .., Group.goto_cmds .., Group.goto_regs ..⟩

/-- The first error of the covered commands is raised once, at the address of its command. -/
theorem completes_mxwait_of_error {older younger : List MxCmd} {c : MxCmd} {cause : Cause} (hcov : g.covered n = older ++ c :: younger)
    (hold : ∀ d ∈ older, d.err = none) (herr : c.err = some cause) :
    Completes (.mxwait h n) s fun t =>
      t = (s.setGroup q.gid { g with cmds := g.cmds.map fun d => if d.entry = c.entry then { d with err := none } else d }).takeTrap q.gid
        { cause := cause, other := false, mask := q.lanes, pc := q.pc, npc := q.pc, addr := c.pc.zeroExtend 64, run := q.lanes } := by
  have e : exec (.mxwait h n) s = execMxwait h n s := rfl
  have hany : ¬ ((g.covered n).any fun c => !c.complete) = true := by simpa using hc
  have hfind : (g.covered n).find? (·.err.isSome) = some c := by
    rw [hcov, List.find?_append, List.find?_eq_none.mpr fun d hd => by simp [hold d hd], List.find?_cons_of_pos (by simp [herr])]
    rfl
  have he := (matrix_of_whole_issue hi e hf h0 ha).trans (congrArg _ (if_neg hany))
  dsimp only [issueX] at he
  rw [hfind] at he
  dsimp only at he
  rw [herr] at he
  refine ⟨_, he, ?_⟩
  rw [hf]
  rfl

end

end

/-- Settles O28: what a matrix instruction issues is a command, which is taken or waits as the table says. -/
theorem matrixCommandsAreTakenAndAwaited : Obligations.MatrixCommandsAreTakenAndAwaited := by
  refine ⟨fun s q g h i kind arr hh hk hi => ?_, fun s q g h hf h0 ha => ⟨fun hi hn => completes_mxfence hf h0 ha hi hn, fun n hi =>
    ⟨completes_mxwait_of_incomplete hf h0 ha hi, fun hc => completes_mxwait_of_clean hf h0 ha hi (fun c m => (hc c m).1) fun c m => (hc c m).2,
      fun older c younger cause hcov hc hold herr => completes_mxwait_of_error hf h0 ha hi hc hcov hold herr⟩⟩⟩
  obtain ⟨body, he, hbody⟩ := exec_matrix hh hk hi
  refine ⟨fun h0 => ⟨_, he, ?empty⟩, fun h0 hw => ⟨_, he, ?part⟩, fun h0 hw hb => ⟨_, he, ?busy⟩, fun h0 hw hb => ⟨_, he, ?free⟩⟩
  case empty =>
    rw [X.matrix_of_empty s q g h body h0]
    exact ⟨X.goOn_done _ rfl rfl, issueX_done_onlyRuns s q g h⟩
  case part => exact X.matrix_of_part s q g h body h0 hw
  case busy =>
    obtain ⟨b, ten, hc⟩ := hbody hw.1
    rw [X.matrix_of_whole s q g h body h0 hw.1 hw.2, hc, X.command_of_busy _ hb]
    exact X.waitsAt_wait _ rfl rfl rfl _
  case free =>
    obtain ⟨b, ten, hc⟩ := hbody hw.1
    obtain ⟨e, hcmd, hentry⟩ := X.command_of_free (issueU s q g { h with u := true } b) hb arr ten kind
    rw [X.matrix_of_whole s q g h body h0 hw.1 hw.2, hc, hcmd]
    exact ⟨X.goOn_done _ rfl rfl, ⟨e, (X.mxe_done ..).trans (State.mxe_modMxe ..), hentry⟩, _, State.group?_setGroup .., Group.goto_regs .., Group.goto_cmds ..⟩

end Sys2Proof.Machine

/-! Groups and workgroups come and go (R30, R31, R36, R310, R332): promotion, return and retirement, the end of a workgroup, the watchdog. -/

namespace Sys2Proof.Machine

open Sys2Proof.Safety

-- Sparse maps through `map` and `filter`

theorem SMap.mem_of_find {α : Type} {m : SMap α} {k : Nat} {v : α} (h : m.find k = some v) : (k, v) ∈ m := by
  induction m with
  | nil => cases h
  | cons p t ih =>
    unfold SMap.find at h
    split at h
    next hk => cases h; subst hk; exact .head _
    next => exact .tail _ (ih h)

/-- A map of the entries that keeps their keys. -/
theorem SMap.find_map {α β : Type} {f : Nat × α → Nat × β} (hf : ∀ p, (f p).1 = p.1) (m : SMap α) (k : Nat) :
    SMap.find (m.map f) k = (m.find k).map fun v => (f (k, v)).2 := by
  induction m with
  | nil => rfl
  | cons p t ih =>
    rw [List.map_cons]
    show (if k = (f p).1 then some (f p).2 else SMap.find (t.map f) k) = (if k = p.1 then some p.2 else SMap.find t k).map _
    rw [hf, ih]
    split
    next hk => subst hk; rfl
    next => rfl

/-- Every value mapped, the value of an unlisted key included. -/
theorem SMap.get_map {α : Type} (d : α) (f : α → α) (hd : f d = d) (m : SMap α) (k : Nat) :
    SMap.get d (m.map fun p => (p.1, f p.2)) k = f (m.get d k) := by
  unfold SMap.get
  rw [SMap.find_map (f := fun p => (p.1, f p.2)) (fun _ => rfl)]
  cases m.find k with
  | none => exact hd.symm
  | some v => rfl

-- Parts of the state through updates

theorem State.core_modCore_keeps {β : Type} (part : Core → β) {f : Core → Core} (hf : ∀ c, part (f c) = part c) (s : State) (j k : Nat) :
    part ((s.modCore j f).core k) = part (s.core k) := by
  by_cases h : k = j
  · rw [h, State.core_modCore, hf]
  · rw [State.core_modCore_ne _ _ h]

/-- Responders that take slots start 8 cc later; nothing else of these parts changes. -/
theorem State.kickSpawns_keeps (s : State) (core n : Nat) : (s.kickSpawns core n).groups = s.groups ∧ (s.kickSpawns core n).wgs = s.wgs ∧
    (∀ e ∈ s.events, e ∈ (s.kickSpawns core n).events) ∧ ∀ k, ((s.kickSpawns core n).core k).trapq = (s.core k).trapq := by
  induction n generalizing s with
  | zero => exact ⟨rfl, rfl, fun _ h => h, fun _ => rfl⟩
  | succ n ih =>
    unfold State.kickSpawns
    split
    · exact ⟨rfl, rfl, fun _ h => h, fun _ => rfl⟩
    split
    · exact ⟨rfl, rfl, fun _ h => h, fun _ => rfl⟩
    · obtain ⟨hg, hw, he, hc⟩ := ih ((s.modCore core fun c => { c with spawn := takeSlot _ c.spawn }).schedule (s.cc + 8) (.responderStart core))
      exact ⟨hg, hw, fun e h => he e (State.mem_schedule.mpr (.inr h)), fun k => (hc k).trans
        (State.core_modCore_keeps (f := fun c => { c with spawn := takeSlot _ c.spawn }) Core.trapq (fun _ => rfl) s core k)⟩

-- Retirement (R36)

theorem State.unanswered_groups (s : State) (g : Group) : (s.unanswered g).groups = s.groups := by unfold State.unanswered; split <;> rfl
theorem State.unanswered_wgs (s : State) (g : Group) : (s.unanswered g).wgs = s.wgs := by unfold State.unanswered; split <;> rfl
theorem State.unanswered_cores (s : State) (g : Group) : (s.unanswered g).cores = s.cores := by unfold State.unanswered; split <;> rfl

/-- A responder that has not replied is answered within 96 cc (R197, R267). -/
theorem State.unanswered_events {s : State} {g : Group} {ref : Nat} (hk : g.info.kind = .responder ref false) :
    ∃ due, due ≤ s.clock.cc + 96 ∧ (due, Instr.censusReply ref (cenIdentity (s.censusAt (ref % 2048)).comb) true) ∈ (s.unanswered g).events := by
  unfold State.unanswered
  rw [hk]
  exact ⟨s.cc + Config.freeLatency s.fresh % 96, Nat.add_le_add_left (Nat.mod_lt _ (by decide)).le _, State.mem_schedule.mpr (.inl rfl)⟩

section
variable {s : State} {gid : Nat} {g : Group} (hg : s.group? gid = some g) (hr : g.retires = true)
include hg hr

theorem State.retire_events : (s.retire gid).events = (s.unanswered g).events := by
  simp only [State.retire, hg, hr, Bool.not_true, Bool.false_eq_true, if_false]
  split <;> rfl

theorem State.retire_groups : (s.retire gid).groups = s.groups.del gid := by
  rw [← s.unanswered_groups g]
  simp only [State.retire, hg, hr, Bool.not_true, Bool.false_eq_true, if_false]
  split <;> rfl

theorem State.retire_trapq : ((s.retire gid).core g.info.core).trapq = (s.core g.info.core).trapq.filter (·.gid != some gid) := by
  have hc : (s.core g.info.core).trapq = ((s.unanswered g).core g.info.core).trapq := by simp only [State.core, State.unanswered_cores]
  have hm := State.core_modCore ((s.unanswered g).leaveBars gid) g.info.core fun c => { c with trapq := c.trapq.filter (·.gid != some gid) }
  rw [hc]
  simp only [State.retire, hg, hr, Bool.not_true, Bool.false_eq_true, if_false]
  split
  · exact congrArg Core.trapq hm
  · exact congrArg Core.trapq hm

theorem State.retire_wgs (hk : g.isResponder = false) {w : Workgroup} (hw : s.wgs.find g.info.wg = some w) :
    (s.retire gid).wgs.find g.info.wg = some { w with groups := w.groups.erase gid } := by
  simp only [State.retire, hg, hr, hk, Bool.not_true, Bool.false_eq_true, if_false]
  show SMap.find ((s.unanswered g).wgs.map _) _ = _
  rw [State.unanswered_wgs, SMap.find_map (fun p => by split <;> rfl), hw]
  simp

end

-- The end of a workgroup (R36, R274)

/-- A handle at the end of a workgroup. -/
def Handle.endWg (h : Handle) (wg : Nat) : Handle := if h.wg = wg then { h with st := .unbound, inward := 0, outward := 0 } else h

/-- What a core keeps of a workgroup that ends: its handles unbound, no directory entry of its allocation, its census slots without a home. -/
def Core.endWg (c : Core) (wg alloc : Nat) : Core :=
  { c with
    handles := c.handles.map fun p => (p.1, p.2.endWg wg)
    dir := c.dir.filter fun p => p.2.alloc != alloc
    census := c.census.map fun p => (p.1, p.2.orphan wg) }

theorem Handle.endWg_st {h : Handle} {wg : Nat} (hh : h.wg = wg) : (h.endWg wg).st = .unbound := by simp [Handle.endWg, hh]

theorem Census.orphan_st_of_awaited {c : Census} {wg : Nat} (hc : c.wg = wg) (h : c.st = .opened ∨ c.st = .counting) : (c.orphan wg).st = .orphan := by
  rcases h with h | h <;> simp [Census.orphan, hc, h]

theorem Census.orphan_st_of_done {c : Census} {wg : Nat} (hc : c.wg = wg) (h : c.st = .complete ∨ c.st = .closed) : (c.orphan wg).st = .free := by
  rcases h with h | h <;> simp [Census.orphan, Census.reset, hc, h]

section
variable {s : State} {wg : Nat} {w : Workgroup} (hw : s.wgs.find wg = some w) (he : s.wgEnds wg = true)
include hw he

theorem State.endWg_wgs : (s.endWg wg).wgs = s.wgs.ins wg { w with ended := true } := by
  simp only [State.endWg, hw, he, Bool.not_true, Bool.false_eq_true, if_false]
  rfl

theorem State.endWg_groups : (s.endWg wg).groups = s.groups := by
  simp only [State.endWg, hw, he, Bool.not_true, Bool.false_eq_true, if_false]
  rfl

theorem State.endWg_alloc {al : Alloc} (ha : s.allocs.find w.alloc = some al) :
    (s.endWg wg).allocs.find w.alloc = some { al with released := some s.clock.ns } := by
  simp only [State.endWg, hw, he, Bool.not_true, Bool.false_eq_true, if_false]
  show SMap.find (s.allocs.map _) _ = _
  rw [SMap.find_map (fun p => by split <;> rfl), ha]
  simp

theorem State.endWg_core : (s.endWg wg).core w.core = (s.core w.core).endWg wg w.alloc := by
  have hc : (s.endWg wg).cores = (s.modCore w.core fun c => c.endWg wg w.alloc).cores := by
    simp only [State.endWg, hw, he, Bool.not_true, Bool.false_eq_true, if_false]
    rfl
  simp only [State.core, hc]
  exact State.core_modCore s w.core _

theorem State.endWg_handle (n : Nat) : (s.endWg wg).handle w.core n = (s.handle w.core n).endWg wg := by
  unfold State.handle
  rw [State.endWg_core hw he]
  exact SMap.get_map _ (Handle.endWg · wg) (by unfold Handle.endWg; split <;> rfl) _ _

theorem State.endWg_censusAt {n : Nat} (hn : n < 4) : (s.endWg wg).censusAt (w.core * 4 + n) = (s.censusAt (w.core * 4 + n)).orphan wg := by
  have hd : (w.core * 4 + n) / 4 = w.core := by omega
  unfold State.censusAt
  rw [hd, State.endWg_core hw he]
  exact SMap.get_map _ (Census.orphan · wg) (by unfold Census.orphan; split <;> rfl) _ _

theorem State.endWg_dir {n : Nat} {e : DirEntry} (h : ((s.endWg wg).core w.core).dir.find n = some e) : e.alloc ≠ w.alloc := by
  rw [State.endWg_core hw he] at h
  simpa using (List.mem_filter.mp (SMap.mem_of_find h)).2

theorem State.endWg_bar {i : Nat} (hi : i < 64) : (s.endWg wg).bars.find (barKey wg 0 i) = none := by
  have howner : barKey wg 0 i / 256 = wg := by unfold barKey; omega
  have hlvl : barKey wg 0 i / 64 % 4 = 0 := by unfold barKey; omega
  by_contra hn
  obtain ⟨b, hb⟩ := Option.ne_none_iff_exists'.mp hn
  have hmem := SMap.mem_of_find hb
  simp only [State.endWg, hw, he, Bool.not_true, Bool.false_eq_true, if_false] at hmem
  have hkept := (List.mem_filter.mp hmem).2
  simp [howner, hlvl] at hkept

end

-- The watchdog (R310)

/-- The watchdog of a context after its expiry. -/
def Ctx.disarm (c : Ctx) : Ctx := { c with wdogArmed := false }

theorem State.ctx_modCtx_self (s : State) (k : Nat) (f : Ctx → Ctx) : (s.modCtx k f).ctx k = f (s.ctx k) := by
  simp [State.ctx, State.modCtx, SMap.get]

/-- Without an entry of the context in any trap queue. -/
theorem no_isWdogOf {m : SMap Core} {ctx : Nat} (h : ∀ p ∈ m, ∀ e ∈ p.2.trapq, ¬ (e.gid = none ∧ e.ctx = ctx)) :
    m.any (fun p => p.2.trapq.any (isWdogOf ctx)) = false := by
  refine List.any_eq_false.mpr fun p hp hany => ?_
  obtain ⟨e, he, hq⟩ := List.any_eq_true.mp hany
  exact h p hp e he (by simpa [isWdogOf] using hq)

/-- Settles O42: each case is the law of the operation that the event runs, under the conditions that make its guard true. -/
theorem groupsComeAndGo : Obligations.GroupsComeAndGo := by
  refine ⟨fun s gid g hg => ⟨fun c hp hr hpick hel hc => ?promote, fun c hret hc hf => ?ret, fun hf => ?frozen, fun h0 hk hl hst hcp htl => ?retire⟩,
    fun s wg w hw hgr hend hbusy => ?ends, fun s ctx => ⟨fun hdue => ?expires, fun hdue => ?passes⟩⟩
  case promote =>
    have hpr : s.promotes g = true := by simp [State.promotes, hp, hr, Option.isSome_iff_ne_none.mpr hpick, hel, State.cc, hc]
    exact ⟨_, rfl, by simp [hg, hpr]⟩
  case ret =>
    have hr : s.returns g = true := by simp [State.returns, hf, hret, State.cc, hc]
    exact ⟨_, rfl, by simp [State.modGroup, hg, hr]⟩
  case frozen =>
    have hr : s.returns g = false := by simp [State.returns, hf]
    exact ⟨_, rfl, by simp [State.modGroup, hg, hr]⟩
  case retire =>
    have hr : g.retires = true := by simp [Group.retires, Group.isSuper, h0, hk, hl, hst, hcp, htl]
    obtain ⟨hgroups, hwgs, hevents, htrapq⟩ := (s.retire gid).kickSpawns_keeps g.info.core 4
    have hlook (k : Nat) : ((s.retire gid).kickSpawn g.info.core).group? k = if k = gid then none else s.group? k := by
      unfold State.group? State.kickSpawn
      rw [hgroups, State.retire_groups hg hr, SMap.find_del]
    refine ⟨(s.retire gid).kickSpawn g.info.core, ?_, by simp [hlook], fun k hne => by simp [hlook, hne], fun e he => ?_,
      fun hn w hw => ?_, fun ref href => ?_⟩
    · show Host.Outcome.next _ = _
      simp [hg, hr]
    · rw [State.kickSpawn, htrapq, State.retire_trapq hg hr] at he
      simpa using (List.mem_filter.mp he).2
    · rw [State.kickSpawn, hwgs]
      exact State.retire_wgs hg hr (Group.isResponder_eq_false hn) hw
    · obtain ⟨due, hdue, hmem⟩ := State.unanswered_events (s := s) href
      exact ⟨due, hdue, hevents _ (by rwa [State.retire_events hg hr])⟩
  case ends =>
    have he : s.wgEnds wg = true := by simp [State.wgEnds, hw, hgr, hend, hbusy]
    refine ⟨s.endWg wg, rfl, ?_, State.endWg_groups hw he, fun al ha => State.endWg_alloc hw he ha, fun n hn => ?_,
      fun n e h => State.endWg_dir hw he h, fun n hn h4 => ?_, fun i hi => State.endWg_bar hw he hi⟩
    · rw [State.endWg_wgs hw he, SMap.find_ins_self]
    · rw [State.endWg_handle hw he, Handle.endWg_st hn]
    · rw [State.endWg_censusAt hw he h4]
      exact ⟨Census.orphan_st_of_awaited hn, Census.orphan_st_of_done hn⟩
  case expires =>
    have hd : (s.ctx ctx).wdogDue = true := by simpa [Ctx.wdogDue, and_assoc] using hdue
    refine ⟨_, rfl, ?_, fun hcore hno => ?_⟩
    · rw [if_neg (by simp [hd])]
      dsimp only
      split
      · rw [State.ctx_modCtx_self]
      · exact congrArg Ctx.wdogArmed (State.ctx_modCtx_self s ctx Ctx.disarm)
    · rw [if_neg (by simp [hd]), if_neg (by simp [no_isWdogOf hno, hcore])]
      exact congrArg Core.trapq (State.core_modCore (s.modCtx ctx Ctx.disarm) _ _)
  case passes =>
    have hd : (s.ctx ctx).wdogDue = false := by simpa [Ctx.wdogDue, and_assoc] using hdue
    exact ⟨s, by show Host.Outcome.next _ = _; simp [hd], rfl⟩

end Sys2Proof.Machine

/-! Rounding (R40): the two neighbours of a value, the one that a mode chooses, and the code that `Fmt.round` delivers. -/

namespace Sys2Proof.Machine

open Sys2Proof.Safety

-- The choice of a mode between two neighbours

/-- The mode takes the upper neighbour `hi` of a magnitude `x`, not the lower one `lo`, which is odd or not (R40). -/
def roundsUp (rnd : Rnd) (neg : Bool) (lo hi x : ℚ) (odd : Prop) : Prop :=
  match rnd with
  | .rz => False
  | .rp => neg = false ∧ lo < x
  | .rm => neg = true ∧ lo < x
  | .rne => lo + hi < 2 * x ∨ (lo + hi = 2 * x ∧ odd)

/-- The mode takes the upper neighbour of a value above both: what becomes infinity (R40). -/
def roundsAway (rnd : Rnd) (neg : Bool) : Bool := rnd == .rne || (rnd == .rp && !neg) || (rnd == .rm && neg)

theorem roundsUp_mul {rnd : Rnd} {neg : Bool} {lo hi x c : ℚ} {odd : Prop} (hc : 0 < c) :
    roundsUp rnd neg (lo * c) (hi * c) (x * c) odd ↔ roundsUp rnd neg lo hi x odd := by
  have hadd : lo * c + hi * c = (lo + hi) * c := by ring
  have htwo : 2 * (x * c) = 2 * x * c := by ring
  cases rnd <;> simp only [roundsUp, hadd, htwo, mul_lt_mul_iff_left₀ hc, mul_left_inj' hc.ne']

theorem roundsUp.away {rnd : Rnd} {neg : Bool} {lo hi x : ℚ} {odd : Prop} (h : roundsUp rnd neg lo hi x odd) : roundsAway rnd neg = true := by
  cases rnd with
  | rne => rfl
  | rz => exact h.elim
  | rp => simp [roundsAway, h.1]
  | rm => simp [roundsAway, h.1]

theorem roundsUp_of_above {rnd : Rnd} {neg : Bool} {lo hi x : ℚ} {odd : Prop} (hlo : lo < x) (hhi : hi ≤ x) :
    roundsUp rnd neg lo hi x odd ↔ roundsAway rnd neg = true := by
  cases rnd with
  | rne => exact iff_of_true (.inl (by linarith)) rfl
  | rz => simp [roundsUp, roundsAway]
  | rp => simp [roundsUp, roundsAway, hlo]
  | rm => simp [roundsUp, roundsAway, hlo]

theorem not_roundsUp_of_eq {rnd : Rnd} {neg : Bool} {lo hi x : ℚ} {odd : Prop} (hlo : lo = x) (hhi : x < hi) : ¬ roundsUp rnd neg lo hi x odd := by
  cases rnd with
  | rne => rintro (h | ⟨h, _⟩) <;> linarith
  | rz => exact id
  | rp => exact fun h => hlo.not_lt h.2
  | rm => exact fun h => hlo.not_lt h.2

theorem roundsTo_of_neighbour {f : Fmt} {rnd : Rnd} {neg : Bool} {x : ℚ} {k r : Nat} (hk : k < f.inf false) (hlo : codeValue f k ≤ x)
    (hhi : x < codeValue f (k + 1) ∨ k + 1 = f.inf false)
    (hup : roundsUp rnd neg (codeValue f k) (codeValue f (k + 1)) x (k % 2 = 1) → r = k + 1)
    (hdown : ¬ roundsUp rnd neg (codeValue f k) (codeValue f (k + 1)) x (k % 2 = 1) → r = k) : RoundsTo f rnd neg x r := by
  cases rnd <;> exact ⟨k, hk, hlo, hhi, hup, hdown⟩

theorem RoundsTo.le_inf {f : Fmt} {rnd : Rnd} {neg : Bool} {x : ℚ} {r : Nat} (h : RoundsTo f rnd neg x r) : r ≤ f.inf false := by
  obtain ⟨k, hk, _, _, hup, hdown⟩ := h
  by_cases hu : r = k
  · omega
  · exact (hup (not_not.mp fun h => hu (hdown h))) ▸ hk

-- Rounding to an integer

/-- `p` is the magnitude `x` rounded to an integer by a mode, with whether that is inexact; `n` is the integer below `x`. -/
structure RoundedAt (rnd : Rnd) (neg : Bool) (x : ℚ) (n : Nat) (p : Nat × Bool) : Prop where
  lower : (n : ℚ) ≤ x
  upper : x < n + 1
  up : roundsUp rnd neg n (n + 1) x (n % 2 = 1) → p.1 = n + 1
  down : ¬ roundsUp rnd neg n (n + 1) x (n % 2 = 1) → p.1 = n
  inexact : p.2 = true ↔ (n : ℚ) ≠ x

theorem RoundedAt.cases {rnd : Rnd} {neg : Bool} {x : ℚ} {n : Nat} {p : Nat × Bool} (h : RoundedAt rnd neg x n p) : p.1 = n ∨ p.1 = n + 1 := by
  by_cases hu : roundsUp rnd neg n (n + 1) x (n % 2 = 1)
  · exact .inr (h.up hu)
  · exact .inl (h.down hu)

theorem roundBits_spec (rnd : Rnd) (neg : Bool) (m sh : Nat) :
    RoundedAt rnd neg ((m : ℚ) / 2 ^ sh) (m / 2 ^ sh) (roundBits rnd neg m sh) := by
  have hp : (0 : ℚ) < 2 ^ sh := by positivity
  have hm : (m : ℚ) = (m / 2 ^ sh : Nat) * 2 ^ sh + (m % 2 ^ sh : Nat) := by exact_mod_cast (Nat.div_add_mod' m (2 ^ sh)).symm
  have hr : m % 2 ^ sh < 2 ^ sh := Nat.mod_lt _ (Nat.two_pow_pos sh)
  unfold roundBits
  generalize m / 2 ^ sh = q at *
  generalize m % 2 ^ sh = r at *
  obtain ⟨y, hy⟩ : ∃ y : ℚ, y * 2 ^ sh = r := ⟨r / 2 ^ sh, div_mul_cancel₀ _ hp.ne'⟩
  have hx : (m : ℚ) / 2 ^ sh = q + y := by rw [hm, ← hy, ← add_mul, mul_div_cancel_right₀ _ hp.ne']
  have hy0 : 0 ≤ y := by
    rw [← mul_nonneg_iff_of_pos_right hp, hy]
    exact Nat.cast_nonneg r
  have hy1 : y < 1 := by
    rw [← mul_lt_mul_iff_left₀ hp, hy, one_mul]
    exact_mod_cast hr
  have hzero : y = 0 ↔ r = 0 := by
    rw [← mul_left_inj' hp.ne', hy, zero_mul]
    exact Nat.cast_eq_zero
  have hhalf : 1 < 2 * y ↔ 2 ^ sh < 2 * r := by
    rw [← mul_lt_mul_iff_left₀ hp, one_mul, mul_assoc, hy]
    exact_mod_cast Iff.rfl
  have htie : 2 * y = 1 ↔ 2 * r = 2 ^ sh := by
    rw [← mul_left_inj' hp.ne', one_mul, mul_assoc, hy]
    exact_mod_cast Iff.rfl
  have habove : (q : ℚ) < q + y ↔ r ≠ 0 := by rw [lt_add_iff_pos_right, hy0.lt_iff_ne', ne_eq, hzero]
  have hmore : (q : ℚ) + (q + 1) < 2 * (q + y) ↔ 2 ^ sh < 2 * r := by rw [← hhalf]; constructor <;> intro h <;> linarith
  have heq : (q : ℚ) + (q + 1) = 2 * (q + y) ↔ 2 * r = 2 ^ sh := by rw [← htie]; constructor <;> intro h <;> linarith
  rw [hx]
  refine ⟨by linarith, by linarith, ?up, ?down, ?inexact⟩
  case inexact => simp [hzero]
  all_goals
    cases rnd <;> simp only [roundsUp, habove, hmore, heq] <;> intro h <;> simp_all

/-- A magnitude m * 2^e in units of 2^q. -/
theorem roundTo_spec (rnd : Rnd) (neg : Bool) (m : Nat) (e q : Int) :
    ∃ n, RoundedAt rnd neg (m * (2 : ℚ) ^ (e - q)) n (roundTo rnd neg m e q) := by
  unfold roundTo
  split
  next h =>
    have hx : (m : ℚ) * 2 ^ (e - q) = (m * 2 ^ (e - q).toNat : Nat) := by
      conv_lhs => rw [← Int.toNat_of_nonneg (sub_nonneg.mpr h)]
      push_cast
      rfl
    rw [hx]
    exact ⟨_, le_rfl, lt_add_one _, fun hu => absurd hu (not_roundsUp_of_eq rfl (lt_add_one _)), fun _ => rfl, by simp⟩
  next h =>
    have hx : (m : ℚ) * 2 ^ (e - q) = m / 2 ^ (q - e).toNat := by
      rw [← neg_sub, zpow_neg, ← div_eq_mul_inv, ← zpow_natCast, Int.toNat_of_nonneg (by omega)]
    rw [hx]
    exact ⟨_, roundBits_spec rnd neg m _⟩

-- Formats

/-- What R38 says of the three formats. -/
structure Fmt.Ieee (f : Fmt) : Prop where
  frac : 0 < f.mb
  bias : 0 < f.bias
  expMax : f.expMax = 2 * f.bias + 1
  width : (f.expMax + 1) * 2 ^ f.mb = 2 ^ (f.w - 1)

theorem Fmt.ieee {f : Fmt} (h : f = fmt32 ∨ f = fmt16 ∨ f = fmtB16) : f.Ieee := by
  rcases h with rfl | rfl | rfl <;> exact ⟨by decide, by decide, by decide, by decide⟩

@[simp] theorem Fmt.signBit_false (f : Fmt) : f.signBit false = 0 := rfl

theorem Fmt.inf_eq (f : Fmt) (neg : Bool) : f.inf neg = f.signBit neg + f.inf false := by simp [Fmt.inf]

theorem Fmt.Ieee.inf_false {f : Fmt} (hf : f.Ieee) : f.inf false = (2 * f.bias + 1) * 2 ^ f.mb := by simp [Fmt.inf, hf.expMax]

theorem Fmt.Ieee.inf_pos {f : Fmt} (hf : f.Ieee) : 0 < f.inf false := by
  rw [hf.inf_false]
  positivity

-- Codes: `n` units of 2^(j + 1 - bias - mb), where `n` has a leading bit unless the exponent is the lowest

/-- `n` is a significand for the exponent field that `j` stands for: at most the next power of two, and with its leading bit unless subnormal. -/
def Fmt.Significand (f : Fmt) (n j : Nat) : Prop := n ≤ 2 ^ (f.mb + 1) ∧ (j = 0 ∨ 2 ^ f.mb ≤ n)

/-- One unit in the last place for the exponent field that `j` stands for. -/
def Fmt.ulp (f : Fmt) (j : Nat) : ℚ := (2 : ℚ) ^ ((j : Int) + 1 - f.bias - f.mb)

theorem Fmt.ulp_pos (f : Fmt) (j : Nat) : 0 < f.ulp j := by unfold Fmt.ulp; positivity

theorem Fmt.ulp_succ (f : Fmt) (j : Nat) : f.ulp (j + 1) = 2 * f.ulp j := by
  unfold Fmt.ulp
  rw [← zpow_one_add₀ two_ne_zero]
  congr 1
  push_cast
  ring

/-- A code below the next binade. -/
theorem codeValue_of_lt (f : Fmt) {n j : Nat} (hn : n < 2 ^ (f.mb + 1)) (hj : j = 0 ∨ 2 ^ f.mb ≤ n) :
    codeValue f (n + j * 2 ^ f.mb) = n * f.ulp j := by
  have hp := Nat.two_pow_pos f.mb
  unfold codeValue Fmt.ulp
  by_cases hlow : n < 2 ^ f.mb
  · obtain rfl : j = 0 := hj.resolve_right hlow.not_ge
    simp [Nat.div_eq_of_lt hlow]
  · obtain ⟨k, rfl⟩ := Nat.exists_eq_add_of_le (not_lt.mp hlow)
    have hk : k < 2 ^ f.mb := by rw [pow_succ] at hn; omega
    have hcode : 2 ^ f.mb + k + j * 2 ^ f.mb = k + (j + 1) * 2 ^ f.mb := by ring
    rw [hcode, Nat.add_mul_div_right _ _ hp, Nat.add_mul_mod_self_right, Nat.div_eq_of_lt hk, Nat.mod_eq_of_lt hk, if_neg (by omega)]
    push_cast
    rw [zero_add]

theorem Fmt.Significand.codeValue {f : Fmt} {n j : Nat} (h : f.Significand n j) : codeValue f (n + j * 2 ^ f.mb) = n * f.ulp j := by
  rcases h.1.lt_or_eq with hlt | rfl
  · exact codeValue_of_lt f hlt h.2
  · have hcode : 2 ^ (f.mb + 1) + j * 2 ^ f.mb = 2 ^ f.mb + (j + 1) * 2 ^ f.mb := by ring
    rw [hcode, codeValue_of_lt f (Nat.pow_lt_pow_succ (by decide)) (.inr le_rfl), f.ulp_succ]
    push_cast
    ring

/-- The bits that `Fmt.round` writes. -/
theorem Fmt.Significand.bits {f : Fmt} {n j : Nat} (h : f.Significand n j) :
    (if n < 2 ^ f.mb then n
      else n / 2 ^ (Nat.log2 n - f.mb) + ((((j : Int) + 1 - f.bias - f.mb) + (Nat.log2 n - f.mb : Nat) + f.bias + f.mb - 1).toNat * 2 ^ f.mb)) =
    n + j * 2 ^ f.mb := by
  split
  next hlow =>
    obtain rfl : j = 0 := h.2.resolve_right hlow.not_ge
    simp
  next hlow =>
    have hexp (s : Nat) : (((j : Int) + 1 - f.bias - f.mb) + (s : Nat) + f.bias + f.mb - 1).toNat = j + s := by omega
    rw [hexp]
    rcases h.1.lt_or_eq with hlt | rfl
    · have hlog : Nat.log2 n = f.mb := (Nat.log2_eq_iff (by omega)).mpr ⟨by omega, hlt⟩
      simp [hlog]
    · rw [Nat.log2_two_pow, Nat.add_sub_cancel_left, pow_one, Nat.pow_succ, Nat.mul_div_cancel _ two_pos]
      ring

/-- The exponent of a significand passes the greatest one where its code reaches that of infinity. -/
theorem Fmt.Significand.overflows {f : Fmt} (hf : f.Ieee) {n j : Nat} (h : f.Significand n j) (h0 : n ≠ 0) :
    (Nat.log2 n : Int) + ((j : Int) + 1 - f.bias - f.mb) > f.bias ↔ f.inf false ≤ n + j * 2 ^ f.mb := by
  have hp := Nat.two_pow_pos f.mb
  have hb := hf.bias
  rw [hf.inf_false]
  by_cases hlow : n < 2 ^ f.mb
  · obtain rfl : j = 0 := h.2.resolve_right hlow.not_ge
    have hlog : Nat.log2 n < f.mb := (Nat.log2_lt h0).mpr hlow
    refine iff_of_false (by omega) ?_
    nlinarith
  rcases h.1.lt_or_eq with hlt | rfl
  · have hlog : Nat.log2 n = f.mb := (Nat.log2_eq_iff h0).mpr ⟨by omega, hlt⟩
    rw [hlog]
    obtain ⟨k, rfl⟩ := Nat.exists_eq_add_of_le (not_lt.mp hlow)
    have hk : k < 2 ^ f.mb := by rw [pow_succ] at hlt; omega
    have hcode : 2 ^ f.mb + k + j * 2 ^ f.mb = k + (j + 1) * 2 ^ f.mb := by ring
    rw [hcode, ← Nat.le_div_iff_mul_le hp, Nat.add_mul_div_right _ _ hp, Nat.div_eq_of_lt hk]
    omega
  · have hcode : 2 ^ (f.mb + 1) + j * 2 ^ f.mb = (j + 2) * 2 ^ f.mb := by ring
    rw [Nat.log2_two_pow, hcode, Nat.mul_le_mul_right_iff hp]
    push_cast
    omega

-- The unit in the last place of an exact value

/-- The exponent field, less one, of the binade of m * 2^e; 0 for a subnormal value. -/
def Fmt.binade (f : Fmt) (m : Nat) (e : Int) : Nat := (Nat.log2 m + e + f.bias - 1).toNat

/-- The exponent of the unit that `Fmt.round` rounds to. -/
theorem Fmt.unit_eq (f : Fmt) (m : Nat) (e : Int) :
    max ((Nat.log2 m : Int) + e) (1 - f.bias) - f.mb = (f.binade m e : Int) + 1 - f.bias - f.mb := by
  unfold Fmt.binade
  omega

theorem two_zpow_le_mul {m : Nat} (hm : 0 < m) (d : Int) : (2 : ℚ) ^ (Nat.log2 m + d) ≤ m * 2 ^ d := by
  rw [zpow_add₀ two_ne_zero, zpow_natCast]
  exact mul_le_mul_of_nonneg_right (by exact_mod_cast Nat.log2_self_le hm.ne') (by positivity)

theorem mul_lt_two_zpow (m : Nat) (d : Int) : (m : ℚ) * 2 ^ d < 2 ^ (Nat.log2 m + d + 1) := by
  rw [add_right_comm, zpow_add₀ two_ne_zero]
  exact mul_lt_mul_of_pos_right (by exact_mod_cast Nat.lt_log2_self) (by positivity)

/-- The integer below an exact value, in units of its last place, is a significand below the next power of two. -/
theorem Fmt.significand_of_floor {f : Fmt} {m : Nat} (hm : 0 < m) {e q : Int} (hq : q = (f.binade m e : Int) + 1 - f.bias - f.mb) {n : Nat}
    (hlo : (n : ℚ) ≤ m * 2 ^ (e - q)) (hhi : (m : ℚ) * 2 ^ (e - q) < n + 1) :
    n < 2 ^ (f.mb + 1) ∧ (f.binade m e = 0 ∨ 2 ^ f.mb ≤ n) := by
  constructor
  · have h : (n : ℚ) < 2 ^ ((f.mb : Int) + 1) := hlo.trans_lt ((mul_lt_two_zpow m _).trans_le
      (zpow_le_zpow_right₀ one_le_two (by unfold Fmt.binade at hq; omega)))
    exact_mod_cast h
  · refine or_iff_not_imp_left.mpr fun hj => ?_
    have h : (2 : ℚ) ^ (f.mb : Int) < n + 1 := (zpow_le_zpow_right₀ one_le_two (by unfold Fmt.binade at hq hj; omega)).trans_lt
      ((two_zpow_le_mul hm _).trans_lt hhi)
    exact Nat.lt_succ_iff.mp (by exact_mod_cast h)

-- What `Fmt.round` delivers

/-- A code from that of infinity on, as its mode delivers it (R40). -/
def Fmt.overflow (f : Fmt) (rnd : Rnd) (neg : Bool) (k : Nat) : Nat :=
  if f.inf false ≤ k then (if roundsAway rnd neg then f.inf false else f.inf false - 1) else k

theorem Fmt.round_eq_overflow {f : Fmt} (hf : f.Ieee) {rnd : Rnd} {neg : Bool} {m : Nat} {e : Int} (hm : 0 < m)
    (hn : f.Significand (roundTo rnd neg m e ((f.binade m e : Int) + 1 - f.bias - f.mb)).1 (f.binade m e)) :
    (f.round false rnd neg m e).1 = f.signBit neg +
      f.overflow rnd neg ((roundTo rnd neg m e ((f.binade m e : Int) + 1 - f.bias - f.mb)).1 + f.binade m e * 2 ^ f.mb) := by
  have hinf := hf.inf_pos
  unfold Fmt.round
  simp only [hm.ne', if_false, f.unit_eq, Bool.false_and, Bool.false_eq_true]
  generalize roundTo rnd neg m e _ = p at hn ⊢
  generalize f.binade m e = j at hn ⊢
  by_cases h0 : p.1 = 0
  · have hj : j = 0 := hn.2.resolve_right (by rw [h0]; exact (Nat.two_pow_pos _).not_ge)
    simp [h0, hj, Fmt.overflow, hinf.not_ge]
  · simp only [h0, if_false, hn.overflows hf h0, hn.bits, Fmt.overflow, Fmt.maxFin, f.inf_eq neg]
    split
    · rw [apply_ite (f.signBit neg + ·), ← Nat.add_sub_assoc hinf]
      rfl
    · rfl

/-- The code of infinity is what follows the greatest significand of the greatest binade. -/
theorem Fmt.Ieee.inf_eq_top {f : Fmt} (hf : f.Ieee) : f.inf false = 2 ^ (f.mb + 1) + (2 * f.bias - 1) * 2 ^ f.mb := by
  have hb := hf.bias
  rw [hf.inf_false, pow_succ, mul_comm (2 ^ f.mb) 2, ← add_mul]
  congr 1
  omega

/-- The value of infinity's code, and that of the greatest finite one, in the units of the greatest binade. -/
theorem Fmt.Ieee.codeValue_inf {f : Fmt} (hf : f.Ieee) : codeValue f (f.inf false) = 2 ^ (f.mb + 1) * f.ulp (2 * f.bias - 1) ∧
    codeValue f (f.inf false - 1) = (2 ^ (f.mb + 1) - 1) * f.ulp (2 * f.bias - 1) := by
  have hp := Nat.two_pow_pos f.mb
  have hbelow : 2 ^ f.mb ≤ 2 ^ (f.mb + 1) - 1 := by rw [pow_succ]; omega
  constructor
  · rw [hf.inf_eq_top, Fmt.Significand.codeValue ⟨le_rfl, .inr (by omega)⟩]
    push_cast
    rfl
  · rw [hf.inf_eq_top, Nat.sub_add_comm (Nat.two_pow_pos _), codeValue_of_lt f (Nat.sub_one_lt (Nat.two_pow_pos _).ne') (.inr hbelow),
      Nat.cast_sub (Nat.two_pow_pos _)]
    push_cast
    rfl

/-- A value whose code below it does not lie below that of infinity is no less than what infinity stands for. -/
theorem Fmt.Ieee.codeValue_inf_le {f : Fmt} (hf : f.Ieee) {n j : Nat} (hn : n < 2 ^ (f.mb + 1)) (hj : j = 0 ∨ 2 ^ f.mb ≤ n)
    (h : f.inf false ≤ n + j * 2 ^ f.mb) : codeValue f (f.inf false) ≤ n * f.ulp j := by
  have hb := hf.bias
  have hj2 : 2 * f.bias ≤ j := by
    by_contra hlt
    have hle : j * 2 ^ f.mb ≤ (2 * f.bias - 1) * 2 ^ f.mb := Nat.mul_le_mul_right _ (by omega)
    have hinf := hf.inf_eq_top
    omega
  have hlead : 2 ^ f.mb ≤ n := hj.resolve_left (by omega)
  have hulp : f.ulp (2 * f.bias - 1 + 1) ≤ f.ulp j := zpow_le_zpow_right₀ one_le_two (by omega)
  calc codeValue f (f.inf false) = 2 ^ f.mb * f.ulp (2 * f.bias - 1 + 1) := by rw [hf.codeValue_inf.1, f.ulp_succ]; ring
    _ ≤ n * f.ulp j := mul_le_mul (by exact_mod_cast hlead) hulp (f.ulp_pos _).le n.cast_nonneg

/-- From what infinity stands for on, the mode takes infinity or the greatest finite value. -/
theorem Fmt.Ieee.roundsTo_of_above {f : Fmt} (hf : f.Ieee) {rnd : Rnd} {neg : Bool} {x : ℚ} (hx : codeValue f (f.inf false) ≤ x) :
    RoundsTo f rnd neg x (if roundsAway rnd neg then f.inf false else f.inf false - 1) := by
  have hinf := hf.inf_pos
  have hsucc : f.inf false - 1 + 1 = f.inf false := Nat.sub_add_cancel hinf
  have hbelow : codeValue f (f.inf false - 1) < x := by
    refine lt_of_lt_of_le ?_ hx
    rw [hf.codeValue_inf.1, hf.codeValue_inf.2]
    exact mul_lt_mul_of_pos_right (by linarith) (f.ulp_pos _)
  refine roundsTo_of_neighbour (Nat.sub_lt hinf one_pos) hbelow.le (.inr hsucc) (fun h => ?_) (fun h => ?_) <;>
    rw [hsucc, roundsUp_of_above hbelow hx] at h <;> simp [h, hsucc]

/-- A nonzero exact value is rounded to the code that the mode chooses, with the sign put before it. -/
theorem Fmt.Ieee.round_roundsTo {f : Fmt} (hf : f.Ieee) (rnd : Rnd) (neg : Bool) {m : Nat} (hm : 0 < m) (e : Int) :
    ∃ r, RoundsTo f rnd neg (m * (2 : ℚ) ^ e) r ∧ (f.round false rnd neg m e).1 = f.signBit neg + r := by
  obtain ⟨n, hn⟩ := roundTo_spec rnd neg m e ((f.binade m e : Int) + 1 - f.bias - f.mb)
  obtain ⟨hlt, hlead⟩ := Fmt.significand_of_floor hm rfl hn.lower hn.upper
  have hround := Fmt.round_eq_overflow hf hm (rnd := rnd) (neg := neg) (e := e)
  generalize roundTo rnd neg m e _ = p at hn hround
  have hx : (m : ℚ) * 2 ^ e = m * 2 ^ (e - ((f.binade m e : Int) + 1 - f.bias - f.mb)) * f.ulp (f.binade m e) := by
    rw [Fmt.ulp, mul_assoc, ← zpow_add₀ two_ne_zero, sub_add_cancel]
  generalize (m : ℚ) * 2 ^ (e - ((f.binade m e : Int) + 1 - f.bias - f.mb)) = x at hn hx
  generalize f.binade m e = j at hlead hround hx
  have hulp := f.ulp_pos j
  have hk := codeValue_of_lt f hlt hlead
  have hk1 : codeValue f (n + j * 2 ^ f.mb + 1) = (n + 1) * f.ulp j := by
    rw [add_right_comm, Fmt.Significand.codeValue ⟨hlt, hlead.imp_right Nat.le_succ_of_le⟩]
    push_cast
    rfl
  refine ⟨_, ?_, hround ⟨?_, ?_⟩⟩
  case refine_2 => rcases hn.cases with h | h <;> omega
  case refine_3 => exact hlead.imp_right fun h => by rcases hn.cases with h' | h' <;> omega
  by_cases hover : f.inf false ≤ n + j * 2 ^ f.mb
  · have hcode : f.inf false ≤ p.1 + j * 2 ^ f.mb := by rcases hn.cases with h | h <;> omega
    rw [Fmt.overflow, if_pos hcode]
    exact hf.roundsTo_of_above ((hf.codeValue_inf_le hlt hlead hover).trans (hx ▸ mul_le_mul_of_nonneg_right hn.lower hulp.le))
  · have hscale := roundsUp_mul (rnd := rnd) (neg := neg) (lo := n) (hi := n + 1) (x := x) (odd := n % 2 = 1) hulp
    have hodd : (n + j * 2 ^ f.mb) % 2 = n % 2 := by
      obtain ⟨k, hk⟩ := Nat.exists_eq_add_of_le' hf.frac
      rw [hk, pow_succ, ← mul_assoc, Nat.add_mul_mod_self_right]
    refine roundsTo_of_neighbour (not_le.mp hover) (by rw [hk, hx]; exact mul_le_mul_of_nonneg_right hn.lower hulp.le)
      (.inl (by rw [hk1, hx]; exact mul_lt_mul_of_pos_right hn.upper hulp)) (fun h => ?_) (fun h => ?_) <;>
      rw [hk, hk1, hx, hodd, hscale] at h
    · have hcode : p.1 + j * 2 ^ f.mb = n + j * 2 ^ f.mb + 1 := by rw [hn.up h]; ring
      have haway := h.away
      rw [hcode, Fmt.overflow, haway]
      split
      · simp only [if_true]
        omega
      · rfl
    · rw [hn.down h, Fmt.overflow, if_neg hover]

/-- Settles O9: the code that `Fmt.round` assembles is one of the two neighbours of the value in its binade, the one that the mode chooses. -/
theorem roundingIsCorrect : Obligations.RoundingIsCorrect :=
  fun _ hf rnd neg _ e hm => (Fmt.ieee hf).round_roundsTo rnd neg hm e

end Sys2Proof.Machine

/-! Values of formats (R38, R39) and of conversions between them (R48, R50). -/

namespace Sys2Proof.Machine

open Sys2Proof.Safety

-- What an encoding denotes (R39)

theorem Fmt.dec_of_isNaN {f : Fmt} {x : Nat} (h : f.isNaN x = true) : f.dec x = .nan (!f.isSNaN x) := by
  have ⟨he, hf⟩ : f.expo x = f.expMax ∧ f.frac x ≠ 0 := by simpa [Fmt.isNaN] using h
  simp [Fmt.dec, Fmt.isSNaN, h, he, hf, ← decide_not, ge_iff_le]

theorem Fmt.dec_of_isInf {f : Fmt} {x : Nat} (h : isInf f x) : f.dec x = .inf (f.sign x) := by
  simp [Fmt.dec, h.1, h.2]

theorem Fmt.isNaN_of_isInf {f : Fmt} {x : Nat} (h : isInf f x) : f.isNaN x = false := by
  simp [Fmt.isNaN, h.2]

/-- The significand and exponent of a finite encoding, whose value they give. -/
theorem Fmt.dec_of_finite {f : Fmt} {x : Nat} (hn : f.isNaN x = false) (hi : ¬ isInf f x) :
    ∃ m e, f.dec x = .fin (f.sign x) m e ∧ fpValue f x = (if f.sign x then -1 else 1) * m * (2 : ℚ) ^ e := by
  have he : f.expo x ≠ f.expMax := by
    intro he
    by_cases hf : f.frac x = 0
    · exact hi ⟨he, hf⟩
    · simp [Fmt.isNaN, he, hf] at hn
  suffices h : ∃ m e, f.dec x = .fin (f.sign x) m e by
    obtain ⟨m, e, h⟩ := h
    exact ⟨m, e, h, by rw [fpValue, h]; rfl⟩
  by_cases h0 : f.expo x = 0
  · exact ⟨_, _, (if_neg he).trans (if_pos h0)⟩
  · exact ⟨_, _, (if_neg he).trans (if_neg h0)⟩

-- Rounded values

theorem signed_mul_eq_zero {neg : Bool} {m : Nat} {e : Int} : (if neg then -1 else 1) * m * (2 : ℚ) ^ e = 0 ↔ m = 0 := by
  have he : (2 : ℚ) ^ e ≠ 0 := zpow_ne_zero e two_ne_zero
  cases neg <;> simp [he]

/-- Of a value that is not zero, what `Fmt.round` gives is what `Delivers` asks. -/
theorem delivers_round {f : Fmt} {v : FpEnv} {neg : Bool} {m : Nat} {e : Int} {x : ℚ} (hm : 0 < m)
    (hx : x = (if neg then -1 else 1) * m * (2 : ℚ) ^ e) : Delivers f v x (f.round v.ftz v.rnd neg m e).1 (f.round v.ftz v.rnd neg m e).2 := by
  have hpos : 0 < (m : ℚ) * 2 ^ e := mul_pos (by exact_mod_cast hm) (by positivity)
  have habs : |x| = m * 2 ^ e := by
    rw [hx, mul_assoc, abs_mul, abs_of_pos hpos]
    cases neg <;> simp
  have hneg : decide (x < 0) = neg := by
    rw [hx, mul_assoc]
    cases neg <;> simp [hpos, hpos.le]
  exact ⟨m, e, hm, habs, by rw [hneg]⟩

theorem Fmt.round_zero (f : Fmt) (ftz : Bool) (rnd : Rnd) (neg : Bool) (e : Int) : f.round ftz rnd neg 0 e = (f.signBit neg, 0) := rfl

/-- The flush of R41 puts a zero in the place of the code or leaves it. -/
theorem Fmt.round_ftz (f : Fmt) (ftz : Bool) (rnd : Rnd) (neg : Bool) (m : Nat) (e : Int) :
    (f.round ftz rnd neg m e).1 = f.signBit neg ∨ (f.round ftz rnd neg m e).1 = (f.round false rnd neg m e).1 := by
  unfold Fmt.round
  dsimp only
  generalize (if (roundTo rnd neg m e _).1 < 2 ^ f.mb then _ else _) = bits
  split
  · exact .inr rfl
  split
  · exact .inr rfl
  split
  · exact .inr rfl
  split
  · exact .inl rfl
  · exact .inr rfl

theorem Fmt.Ieee.signBit_add_lt {f : Fmt} (hf : f.Ieee) (neg : Bool) {k : Nat} (hk : k < 2 ^ (f.w - 1)) : f.signBit neg + k < 2 ^ f.w := by
  have hw : f.w - 1 + 1 = f.w := by
    refine Nat.sub_add_cancel (Nat.one_le_iff_ne_zero.mpr fun h0 => ?_)
    have hp := Nat.one_lt_two_pow hf.frac.ne'
    have h := hf.width
    have hle := Nat.mul_le_mul_left (f.expMax + 1) hp
    rw [h, h0, hf.expMax] at hle
    omega
  have htwo : 2 ^ f.w = 2 ^ (f.w - 1) * 2 := by rw [← pow_succ, hw]
  rw [htwo]
  unfold Fmt.signBit
  split <;> omega

theorem Fmt.Ieee.inf_false_lt {f : Fmt} (hf : f.Ieee) : f.inf false < 2 ^ (f.w - 1) := by
  rw [← hf.width, Fmt.inf, f.signBit_false, zero_add, add_mul, one_mul]
  exact Nat.lt_add_of_pos_right (Nat.two_pow_pos _)

theorem Fmt.Ieee.inf_lt {f : Fmt} (hf : f.Ieee) (neg : Bool) : f.inf neg < 2 ^ f.w := by
  rw [f.inf_eq]
  exact hf.signBit_add_lt neg hf.inf_false_lt

theorem Fmt.Ieee.round_lt {f : Fmt} (hf : f.Ieee) (ftz : Bool) (rnd : Rnd) (neg : Bool) (m : Nat) (e : Int) :
    (f.round ftz rnd neg m e).1 < 2 ^ f.w := by
  have hzero : f.signBit neg < 2 ^ f.w := hf.signBit_add_lt neg (Nat.two_pow_pos _)
  rcases Nat.eq_zero_or_pos m with rfl | hm
  · exact hzero
  obtain ⟨r, hr, hround⟩ := hf.round_roundsTo rnd neg hm e
  have hr' := RoundsTo.le_inf hr
  rcases f.round_ftz ftz rnd neg m e with h | h
  · exact h ▸ hzero
  · rw [h, hround]
    exact hf.signBit_add_lt neg (hr'.trans_lt hf.inf_false_lt)

-- A quotient rounded to an integer

/-- The mode that does to a magnitude of the other sign what `rnd` does. -/
def mirrored : Rnd → Rnd
  | .rp => .rm
  | .rm => .rp
  | rnd => rnd

theorem roundsUp_mirrored (rnd : Rnd) (lo hi x : ℚ) (odd : Prop) : roundsUp (mirrored rnd) false lo hi x odd ↔ roundsUp rnd true lo hi x odd := by
  cases rnd <;> simp [mirrored, roundsUp]

theorem RoundedAt.mirrored {rnd : Rnd} {x : ℚ} {n : Nat} {p : Nat × Bool} (h : RoundedAt rnd true x n p) : RoundedAt (mirrored rnd) false x n p :=
  ⟨h.lower, h.upper, fun hu => h.up ((roundsUp_mirrored ..).mp hu), fun hu => h.down ((roundsUp_mirrored ..).not.mp hu), h.inexact⟩

theorem RoundedQuotient.neg {rnd : Rnd} {n k : Int} {m : Nat} (h : RoundedQuotient rnd n m k) :
    RoundedQuotient (mirrored rnd) (-n) m (-k) := by
  have h0 : -k * m = -(k * m) := by ring
  have h1 : (-k + 1) * m = -((k - 1) * m) := by ring
  have h2 : (-k - 1) * m = -((k + 1) * m) := by ring
  cases rnd <;> simp only [RoundedQuotient, mirrored, h0, h1, h2] at h ⊢ <;> omega

theorem RoundedAt.inexact_iff {rnd : Rnd} {neg : Bool} {x : ℚ} {n : Nat} {p : Nat × Bool} (h : RoundedAt rnd neg x n p) :
    p.2 = true ↔ (p.1 : ℚ) ≠ x := by
  rw [h.inexact]
  by_cases hx : (n : ℚ) = x
  · rw [h.down (not_roundsUp_of_eq hx h.upper)]
  · refine iff_of_true hx ?_
    rcases h.cases with hp | hp <;> rw [hp]
    · exact hx
    · push_cast
      exact h.upper.ne'

/-- The integer that a mode rounds a quotient to is one only. -/
theorem RoundedAt.eq_of_quotient {rnd : Rnd} {x : ℚ} {n m : Nat} {p : Nat × Bool} {a k : Int} (h : RoundedAt rnd false x n p) (hm : 0 < m)
    (hx : x = a / m) (hk : RoundedQuotient rnd a m k) : k = p.1 := by
  have hmq : (0 : ℚ) < m := by exact_mod_cast hm
  have hxm : x * m = a := by rw [hx, div_mul_cancel₀ _ hmq.ne']
  have hlo : (n : Int) * m ≤ a := by
    have := mul_le_mul_of_nonneg_right h.lower hmq.le
    rw [hxm] at this
    exact_mod_cast this
  have hhi : a < ((n : Int) + 1) * m := by
    have := mul_lt_mul_of_pos_right h.upper hmq
    rw [hxm] at this
    exact_mod_cast this
  have hup := h.up
  have hdown := h.down
  rw [← roundsUp_mul hmq, hxm] at hup hdown
  have hk0 {i j : Int} (h : i * m ≤ j * m) : i ≤ j := le_of_mul_le_mul_right h (by exact_mod_cast hm)
  have hk1 {i j : Int} (h : i * m < j * m) : i < j := lt_of_mul_lt_mul_right h (Int.natCast_nonneg m)
  cases rnd with
  | rm =>
    have h1 := hk1 (hk.1.trans_lt hhi)
    have h2 := hk1 (hlo.trans_lt hk.2)
    rw [hdown (by simp [roundsUp])]
    omega
  | rz =>
    have hk := hk.1 ((by positivity : (0 : Int) ≤ n * m).trans hlo)
    have h1 := hk1 (hk.1.trans_lt hhi)
    have h2 := hk1 (hlo.trans_lt hk.2)
    rw [hdown id]
    omega
  | rp =>
    have h1 := hk1 (hk.1.trans hhi)
    have h2 := hk0 (hlo.trans hk.2)
    by_cases hn : (n : Int) * m < a
    · rw [hup ⟨rfl, by exact_mod_cast hn⟩]
      have := hk1 (hn.trans_le hk.2)
      omega
    · rw [hdown fun h => hn (by exact_mod_cast h.2)]
      obtain rfl : (n : Int) * m = a := le_antisymm hlo (not_lt.mp hn)
      have := hk1 hk.1
      omega
  | rne =>
    obtain ⟨hnear, heven⟩ := hk
    have hsucc : ((n : Int) + 1) * m = n * m + m := by ring
    have hhalf : roundsUp .rne false (n * m) ((n + 1) * m) a (n % 2 = 1) ↔ 2 * ((n : Int) * m) + m < 2 * a ∨ (2 * ((n : Int) * m) + m = 2 * a ∧ n % 2 = 1) := by
      rw [show 2 * ((n : Int) * m) + m = n * m + (n + 1) * m by ring]
      unfold roundsUp
      exact_mod_cast Iff.rfl
    rw [hhalf] at hup hdown
    have h1 : k < n + 2 := hk1 (by linarith [show ((n : Int) + 2) * m = (n + 1) * m + m by ring, show k * m < (n + 1) * m + m by omega])
    have h2 : n < k + 1 := hk1 (by linarith [show (k + 1) * m = k * m + m by ring, show (n : Int) * m < k * m + m by omega])
    rcases (by omega : k = n ∨ k = n + 1) with rfl | rfl
    · rw [hdown (by omega)]
    · rw [hsucc] at hnear heven
      rw [hup (by omega)]
      push_cast
      rfl

/-- A finite encoding rounded to an integer: the integer of R50, and whether it is another value. -/
theorem roundTo_of_quotient {rnd : Rnd} {neg : Bool} {m : Nat} {e : Int} {a k : Int} {d : Nat} (hd : 0 < d)
    (hx : (if neg then -1 else 1) * m * (2 : ℚ) ^ e = a / d) (hk : RoundedQuotient rnd a d k) :
    (if neg then -((roundTo rnd neg m e 0).1 : Int) else (roundTo rnd neg m e 0).1) = k ∧ ((roundTo rnd neg m e 0).2 = true ↔ k * d ≠ a) := by
  obtain ⟨n, hn⟩ := roundTo_spec rnd neg m e 0
  rw [sub_zero] at hn
  have hdq : (d : ℚ) ≠ 0 := by exact_mod_cast hd.ne'
  generalize roundTo rnd neg m e 0 = p at hn
  cases neg with
  | false =>
    have hx : (m : ℚ) * 2 ^ e = a / d := by simpa using hx
    obtain rfl := hn.eq_of_quotient hd hx hk
    refine ⟨rfl, hn.inexact_iff.trans (not_congr ?_)⟩
    rw [hx, eq_div_iff hdq]
    exact_mod_cast Iff.rfl
  | true =>
    have hx : (m : ℚ) * 2 ^ e = (-a : Int) / d := by
      push_cast
      rw [neg_div, ← hx]
      simp
    have hp := hn.mirrored.eq_of_quotient hd hx (RoundedQuotient.neg hk)
    obtain rfl : k = -p.1 := by omega
    refine ⟨rfl, hn.inexact_iff.trans (not_congr ?_)⟩
    rw [hx, eq_div_iff hdq, neg_mul, neg_eq_iff_eq_neg]
    exact_mod_cast Iff.rfl

-- Integers (R49, R50)

theorem toInt_eq_intOf (sg : Bool) {w : Nat} (hw : 0 < w) (x : Nat) : toInt sg w x = intOf sg (BitVec.ofNat w x) := by
  rw [← toInt_eq sg w hw, BitVec.toNat_ofNat]
  simp only [toInt, Nat.mod_mod]

theorem wrapInt_lt (w : Nat) (v : Int) : wrapInt w v < 2 ^ w := wrapInt_eq w v ▸ BitVec.isLt _

theorem intMin_le_intMax (sg : Bool) (w : Nat) : intMin sg w ≤ intMax sg w := by
  have h1 : (0 : Int) < 2 ^ w := by positivity
  have h2 : (0 : Int) < 2 ^ (w - 1) := by positivity
  unfold intMin intMax
  split <;> omega

/-- A value within the range of a type reads back as itself. -/
theorem intOf_wrapInt {sg : Bool} {w : Nat} (hw : 0 < w) {v : Int} (hlo : intMin sg w ≤ v) (hhi : v ≤ intMax sg w) :
    intOf sg (BitVec.ofNat w (wrapInt w v)) = v := by
  have h := (satInt_spec sg w hw v).1
  rwa [satInt, if_neg hlo.not_gt, if_neg hhi.not_gt, min_eq_left hhi, max_eq_right hlo] at h

-- Conversions of one value (R50)

theorem flIf_eq (b : Bool) (f : Fl) : flIf b f = if b = true then f else 0 := rfl

section
variable (v : FpEnv) (d s : Ty) (x : Nat)

theorem convertRule_fp_fp (hd : d.isFp = true) (hs : s.isFp = true) :
    convertRule v d s x (cvtFpFp (fpShape s).1 (fpShape d).1 v x).1 (cvtFpFp (fpShape s).1 (fpShape d).1 v x).2 := by
  simp only [convertRule, hd, hs, cvtFpFp]
  generalize (fpShape s).1.flush v.ftz x = z
  refine ⟨fun hn => ?_, fun hi => ?_, fun hn hi => ?_⟩
  · simp [Fmt.dec_of_isNaN hn, flIf]
  · simp [Fmt.dec_of_isInf hi]
  · obtain ⟨m, e, hdec, hval⟩ := Fmt.dec_of_finite hn hi
    rw [hdec]
    refine ⟨fun h0 => ?_, fun h0 => delivers_round (Nat.pos_of_ne_zero ?_) hval⟩
    · obtain rfl := signed_mul_eq_zero.mp (hval ▸ h0)
      exact ⟨rfl, rfl⟩
    · exact fun hm => h0 (hval ▸ signed_mul_eq_zero.mpr hm)

theorem convertRule_fp_int (hd : d.isFp = true) (hs : s.isFp = false) :
    convertRule v d s x (cvtIntFp (fpShape d).1 v (toInt (intShape s).1 (elemWidth s) x)).1
      (cvtIntFp (fpShape d).1 v (toInt (intShape s).1 (elemWidth s) x)).2 := by
  simp only [convertRule, hd, hs]
  rw [toInt_eq_intOf _ (intShape_bounds s).1]
  generalize intOf (intShape s).1 (BitVec.ofNat (elemWidth s) x) = i
  refine ⟨fun h0 => by simp [cvtIntFp, h0], fun h0 => ?_⟩
  rw [cvtIntFp, if_neg h0]
  refine delivers_round (Int.natAbs_pos.mpr h0) ?_
  rw [zpow_zero, mul_one]
  rcases lt_or_gt_of_ne h0 with hneg | hpos
  · simp [hneg, abs_of_neg hneg, Nat.cast_natAbs]
  · simp [hpos.not_gt, abs_of_pos hpos, Nat.cast_natAbs]

theorem convertRule_int_fp (hd : d.isFp = false) (hs : s.isFp = true) :
    convertRule v d s x (cvtFpInt (fpShape s).1 v (intShape d).1 (elemWidth d) x).1 (cvtFpInt (fpShape s).1 v (intShape d).1 (elemWidth d) x).2 := by
  have hw := (intShape_bounds d).1
  simp only [convertRule, hd, hs, cvtFpInt]
  generalize (fpShape s).1.flush v.ftz x = z
  refine ⟨fun hn => ?_, fun hi => ?_, fun hn hi n m k hq hm hk => ?_⟩
  · simp [Fmt.dec_of_isNaN hn, intOf]
  · rw [Fmt.dec_of_isInf hi]
    refine ⟨?_, rfl⟩
    dsimp only
    split
    · exact intOf_wrapInt hw le_rfl (intMin_le_intMax _ _)
    · exact intOf_wrapInt hw (intMin_le_intMax _ _) le_rfl
  · obtain ⟨m', e, hdec, hval⟩ := Fmt.dec_of_finite hn hi
    obtain ⟨hint, hinexact⟩ := roundTo_of_quotient hm (hval ▸ hq) hk
    obtain ⟨hsat, hclamped, -⟩ := satInt_spec (intShape d).1 (elemWidth d) hw k
    rw [hdec]
    dsimp only
    rw [hint]
    refine ⟨hsat, ?_⟩
    rw [hclamped]
    simp only [flIf_eq, hinexact, decide_eq_true_eq]
    rfl

theorem convertRule_int_int (hd : d.isFp = false) (hs : s.isFp = false) :
    convertRule v d s x (cvtIntInt (intShape s).1 (elemWidth s) (intShape d).1 (elemWidth d) x).1
      (cvtIntInt (intShape s).1 (elemWidth s) (intShape d).1 (elemWidth d) x).2 := by
  simp only [convertRule, hd, hs, cvtIntInt]
  rw [toInt_eq_intOf _ (intShape_bounds s).1]
  by_cases hwide : elemWidth s < elemWidth d
  · simp only [if_pos hwide]
    exact ⟨Int.toNat_of_nonneg (Int.emod_nonneg _ (by positivity)), trivial⟩
  · simp only [if_neg hwide]
    obtain ⟨hsat, hclamped, -⟩ := satInt_spec (intShape d).1 (elemWidth d) (intShape_bounds d).1 (intOf (intShape s).1 (BitVec.ofNat (elemWidth s) x))
    refine ⟨hsat, ?_⟩
    rw [hclamped]
    simp only [flIf_eq, decide_eq_true_eq]
    rfl

end

-- The width of a converted value

theorem fpShape_ieee (t : Ty) : (fpShape t).1.Ieee := Fmt.ieee (by cases t <;> decide)

theorem Fmt.Ieee.dec_nan_lt {f : Fmt} (hf : f.Ieee) (neg : Bool) {k : Nat} (hk : k < 2 ^ (f.mb - 1)) : f.inf neg + 2 ^ (f.mb - 1) + k < 2 ^ f.w := by
  have hhalf : 2 ^ f.mb = 2 ^ (f.mb - 1) + 2 ^ (f.mb - 1) := by rw [← mul_two, ← pow_succ, Nat.sub_add_cancel hf.frac]
  have hw : f.inf false + 2 ^ f.mb = 2 ^ (f.w - 1) := by rw [← hf.width, Fmt.inf, f.signBit_false, zero_add, add_mul, one_mul]
  rw [f.inf_eq, add_assoc, add_assoc]
  exact hf.signBit_add_lt neg (by omega)

theorem cvtNaN_lt {src dst : Fmt} (h : dst = fmt32 ∨ dst = fmt16 ∨ dst = fmtB16) (hne : src ≠ dst) (x : Nat) : cvtNaN src dst x < 2 ^ dst.w := by
  unfold cvtNaN
  rw [if_neg hne]
  refine (Fmt.ieee h).dec_nan_lt _ ?_
  have hlane : (if src.mb = 23 then src.frac x / 65536 % 64 else if src.mb = 10 then src.frac x / 8 % 64 else src.frac x % 64) < 64 := by
    split_ifs <;> exact Nat.mod_lt _ (by decide)
  have hfold : (if src.mb = 7 then 0 else src.frac x % 8) < 8 := by
    split_ifs
    · decide
    · exact Nat.mod_lt _ (by decide)
  generalize (if src.mb = 23 then _ else _) = lane at hlane ⊢
  generalize (if src.mb = 7 then _ else _) = fold at hfold ⊢
  rcases h with rfl | rfl | rfl <;> simp only [fmt32, fmt16, fmtB16, Nat.reduceEqDiff, if_true, if_false, Nat.reduceSub, Nat.reducePow] <;> omega

section
variable (v : FpEnv) {d s : Ty} (x : Nat)

theorem cvtFpFp_lt {src dst : Fmt} (h : dst = fmt32 ∨ dst = fmt16 ∨ dst = fmtB16) (hne : src ≠ dst) : (cvtFpFp src dst v x).1 < 2 ^ dst.w := by
  unfold cvtFpFp
  dsimp only
  cases src.dec (src.flush v.ftz x) with
  | nan q => exact cvtNaN_lt h hne _
  | inf n => exact (Fmt.ieee h).inf_lt n
  | fin n m e => exact (Fmt.ieee h).round_lt ..

theorem cvtIntFp_lt {dst : Fmt} (h : dst.Ieee) (i : Int) : (cvtIntFp dst v i).1 < 2 ^ dst.w := by
  unfold cvtIntFp
  split
  · exact Nat.two_pow_pos _
  · exact h.round_lt ..

theorem cvtFpInt_lt (src : Fmt) (sg : Bool) {w : Nat} (hw : 0 < w) : (cvtFpInt src v sg w x).1 < 2 ^ w := by
  unfold cvtFpInt
  dsimp only
  cases src.dec (src.flush v.ftz x) with
  | nan q => exact Nat.two_pow_pos w
  | inf n => exact wrapInt_lt w _
  | fin n m e => exact (satInt_spec sg w hw _).2.2

theorem cvtIntInt_lt (ss : Bool) (sw : Nat) (ds : Bool) {dw : Nat} (hw : 0 < dw) : (cvtIntInt ss sw ds dw x).1 < 2 ^ dw := by
  unfold cvtIntInt
  dsimp only
  split
  · exact wrapInt_lt dw _
  · exact (satInt_spec ds dw hw _).2.2

/-- One value between two types of R135: as R50 says, and within the element of the destination. -/
theorem cvtVal_spec (hne : d ≠ s) :
    convertRule v d s x (cvtVal v d s x).1 (cvtVal v d s x).2 ∧ (cvtVal v d s x).1 < 2 ^ cvtWidth d := by
  have hwi : d.isFp = false → cvtWidth d = elemWidth d := by cases d <;> decide
  have hwf : d.isFp = true → cvtWidth d = (fpShape d).1.w := by cases d <;> decide
  have hfmt : (fpShape d).1 = fmt32 ∨ (fpShape d).1 = fmt16 ∨ (fpShape d).1 = fmtB16 := by cases d <;> decide
  cases hdf : d.isFp <;> cases hsf : s.isFp <;> simp only [cvtVal, hdf, hsf]
  · exact ⟨convertRule_int_int v d s x hdf hsf, hwi hdf ▸ cvtIntInt_lt x _ _ _ (intShape_bounds d).1⟩
  · exact ⟨convertRule_int_fp v d s x hdf hsf, hwi hdf ▸ cvtFpInt_lt v x _ _ (intShape_bounds d).1⟩
  · exact ⟨convertRule_fp_int v d s x hdf hsf, hwf hdf ▸ cvtIntFp_lt v (fpShape_ieee d) _⟩
  · have hsrc : (fpShape s).1 ≠ (fpShape d).1 := by revert hne hdf hsf; cases d <;> cases s <;> decide
    exact ⟨convertRule_fp_fp v d s x hdf hsf, hwf hdf ▸ cvtFpFp_lt v x hfmt hsrc⟩

end

-- The register of a converted value (R49, R79)

theorem extendTo_eq (t : Ty) (x : Nat) :
    extendTo t x = if t.isFp || decide (elemWidth t ≥ 32) then x else wrapInt 32 (toInt (intShape t).1 (elemWidth t) x) := rfl

theorem truncate_extendTo {t : Ty} (ht : t ∈ tysCvt) {r : Nat} (hr : r < 2 ^ cvtWidth t) :
    (BitVec.ofNat 64 (extendTo t r)).truncate (bitWidth t) =
      if t.isFp || !(intShape t).1 then BitVec.ofNat (bitWidth t) r else (BitVec.ofNat (cvtWidth t) r).signExtend (bitWidth t) := by
  have htrunc (y : Nat) : (BitVec.ofNat 64 y).truncate (bitWidth t) = BitVec.ofNat (bitWidth t) y :=
    BitVec.setWidth_ofNat_of_le (by unfold bitWidth; split <;> decide) y
  rw [htrunc, extendTo_eq]
  by_cases hfull : (t.isFp || decide (elemWidth t ≥ 32)) = true
  · have hw : t.isFp = false → cvtWidth t = bitWidth t := by revert ht hfull; cases t <;> decide
    rw [if_pos hfull]
    split
    · rfl
    next hs =>
      rw [Bool.or_eq_true, not_or, Bool.not_eq_true] at hs
      rw [hw hs.1, BitVec.signExtend_eq]
  · have hw : cvtWidth t = elemWidth t ∧ bitWidth t = 32 ∧ t.isFp = false ∧ elemWidth t < 32 := by revert ht hfull; cases t <;> decide
    obtain ⟨hcvt, hbits, hint, hlt⟩ := hw
    rw [if_neg hfull]
    rw [hcvt] at hr ⊢
    rw [hbits, hint, toInt_eq_intOf _ (intShape_bounds t).1, wrapInt_eq, BitVec.ofNat_toNat, BitVec.setWidth_eq, Bool.false_or]
    cases (intShape t).1 with
    | true => rfl
    | false =>
      show BitVec.ofInt 32 ((BitVec.ofNat (elemWidth t) r).toNat : Int) = BitVec.ofNat 32 r
      rw [BitVec.toNat_ofNat, Nat.mod_eq_of_lt hr, BitVec.ofInt_natCast]

end Sys2Proof.Machine

/-! The conversions as `Converts` says them (R135 to R137). -/

namespace Sys2Proof.Machine

open Sys2Proof.Safety

/-- Everything that a conversion leaves while no class of exception traps, where its meaning computes `f` of the operands of the source lane and
`rule` says what `f` gives. -/
theorem Converts.intro {mk : Hdr → Cvt → Instr} {w : Cvt → Nat} {rule : Group → Issue → Nat → Cvt → Dword → Dword → Dword → Fl → Prop}
    (f : Group → Issue → Nat → Cvt → Dword → Dword → Res)
    (hex : ∀ s q g h c, Issues s (mk h c) q g → exec (mk h c) s =
      .next ((issueX s q g h).cvtWith c (w c) fun l u v => f g q (source h q g l) c u v))
    (hdst : ∀ h c, (mk h c).wf = true → (Pos.dst (w c)).ok h.u c.d = true ∧ (w c = 1 ∨ w c = 2))
    (hrule : ∀ h c g q m u v, (mk h c).wf = true → rule g q m c u v (f g q m c u v).val (f g q m c u v).fl) : Converts mk w rule := by
  intro s q g h c hi hwf hu
  let r (m : Nat) : Res := f g q m c (Cvt.vals c g m).1 (Cvt.vals c g m).2
  let res (l : Nat) : Res := r (source h q g l)
  obtain ⟨b, hb⟩ := issueX_uniformU s q g h fun l => let v := Cvt.vals c g l; [v.1, v.2]
  obtain ⟨hd, hw⟩ := hdst h c hwf
  have he : (issueX s q g h).cvtWith c (w c) (fun l u v => f g q (source h q g l) c u v) = (issueU s q g h b).finish c.d (w c) res 6 0 := by
    unfold X.cvtWith
    rw [show ((issueX s q g h).uniformU fun l => let v := Cvt.vals c (issueX s q g h).g l; [v.1, v.2]) = issueU s q g h b from hb]
    rfl
  obtain ⟨hlands, hraises, hframe⟩ := X.finish_spec s q g h b c.d (w c) res 6 0 (landsOk_dst hd hw r) (fpTraps_untrapped hu _ _)
  rw [← he] at hlands hraises hframe
  exact ⟨fun l => (res l).val, fun l => (res l).fl, fun l _ => hrule h c g q _ _ _ hwf, _, hex s q g h c hi, hlands, unionOf_eq _ res ▸ hraises, hframe⟩

-- `cvt` (R135, R136)

theorem Instr.wfA_of_wf {i : Instr} (h : i.wf = true) : wfA i = true := by
  unfold Instr.wf at h
  simp only [Bool.and_eq_true] at h
  exact h.1.1

/-- The result of `cvt` in a lane. -/
def cvtRes (g : Group) (q : Issue) (m : Nat) (c : Cvt) (u : Dword) : Res :=
  let r := cvtVal { ftz := g.ftz, rnd := c.rnd, lane := m, pc := q.pc } c.dty c.sty (elem (cvtWidth c.sty) c.elem.toNat u.toNat)
  { val := BitVec.ofNat 64 (extendTo c.dty r.1), fl := r.2 }

theorem cvt_wf {h : Hdr} {c : Cvt} (hwf : (Instr.cvt h c).wf = true) : c.dty ∈ tysCvt ∧ c.dty ≠ c.sty ∧ (Pos.dst c.dty.regs).ok h.u c.d = true := by
  have hwf : c.wf false h = true := Instr.wfA_of_wf hwf
  simp only [Cvt.wf, cvtModOk, Bool.false_eq_true, if_false, Bool.and_eq_true, bne_iff_ne, List.contains_iff_mem] at hwf
  tauto

theorem cvtRes_rule {h : Hdr} {c : Cvt} (hwf : (Instr.cvt h c).wf = true) (g : Group) (q : Issue) (m : Nat) (u : Dword) :
    cvtRule g q m c u (cvtRes g q m c u).val (cvtRes g q m c u).fl := by
  obtain ⟨hty, hne, -⟩ := cvt_wf hwf
  obtain ⟨hconv, hlt⟩ := cvtVal_spec { ftz := g.ftz, rnd := c.rnd, lane := m, pc := q.pc } (elem (cvtWidth c.sty) c.elem.toNat u.toNat) hne
  exact ⟨_, hlt, elem_eq .. ▸ hconv, truncate_extendTo hty hlt⟩

theorem exec_cvt {s : State} {q : Issue} {g : Group} {h : Hdr} {c : Cvt} (hi : Issues s (.cvt h c) q g) :
    exec (.cvt h c) s = .next ((issueX s q g h).cvtWith c c.dty.regs fun l u _ => cvtRes g q (source h q g l) c u) := by
  rw [show exec (.cvt h c) s = execCvt h c s from rfl, execCvt, State.withIssue_of_issues hi]
  rfl

-- `cvpk` (R137)

/-- The result of `cvpk` in a lane: the number and the width of its elements, and the source of each. -/
def cvpkRes (g : Group) (q : Issue) (m : Nat) (c : Cvt) (u v : Dword) : Res :=
  let one (y : Nat) : Nat × Fl := cvtVal { ftz := g.ftz, rnd := c.rnd, lane := m, pc := q.pc } (elemTy c.dty) (elemTy c.sty) y
  Res.of (if c.sty == .i16x2 then packed 8 4 fun i => one (if i < 2 then elem 16 i u.toNat else elem 16 (i - 2) v.toNat)
          else packed 16 2 fun i => one ((if i = 0 then u.toNat else v.toNat) % 2 ^ 32))

theorem cvpk_wf {h : Hdr} {c : Cvt} (hwf : (Instr.cvpk h c).wf = true) :
    elemTy c.dty ≠ elemTy c.sty ∧ cvtWidth (elemTy c.dty) = (if c.sty == .i16x2 then 8 else 16) ∧ (Pos.dst 1).ok h.u c.d = true := by
  have hwf : c.wf true h = true := Instr.wfA_of_wf hwf
  simp only [Cvt.wf, cvpkModOk, if_true, Bool.and_eq_true] at hwf
  obtain ⟨⟨⟨⟨⟨⟨hpair, -⟩, -⟩, -⟩, hd⟩, -⟩, -⟩ := hwf
  have hregs : c.dty.regs = 1 := by revert hpair; cases c.dty <;> cases c.sty <;> decide
  rw [hregs] at hd
  refine ⟨?_, ?_, hd⟩ <;> revert hpair <;> cases c.dty <;> cases c.sty <;> decide

/-- Elements that are each converted, as they stand in a packed result. -/
theorem packed_convertRule {env : FpEnv} {d s : Ty} (hne : d ≠ s) {w n : Nat} (hwn : w * n ≤ 64) (hw : cvtWidth d = w) (src : Nat → Nat) :
    let p := Res.of (packed w n fun i => cvtVal env d s (src i))
    ∃ fls : Nat → Fl, (∀ i, i < n → convertRule env d s (src i) (p.val.extractLsb' (w * i) w).toNat (fls i)) ∧ p.fl = flagsOf (List.range n) fls := by
  refine ⟨_, fun i hi => ?_, (packed_fst_aux ..).2.2⟩
  obtain ⟨hconv, hlt⟩ := cvtVal_spec env (src i) hne
  rw [extract_packed w n hwn _ hi, Nat.mod_eq_of_lt (hw ▸ hlt)]
  exact hconv

theorem cvpkRes_rule {h : Hdr} {c : Cvt} (hwf : (Instr.cvpk h c).wf = true) (g : Group) (q : Issue) (m : Nat) (u v : Dword) :
    cvpkRule g q m c u v (cvpkRes g q m c u v).val (cvpkRes g q m c u v).fl := by
  obtain ⟨hne, hw, -⟩ := cvpk_wf hwf
  unfold cvpkRule cvpkRes
  generalize (c.sty == .i16x2) = four at hw ⊢
  cases four with
  | true =>
    have hel (x : Dword) (i : Nat) : (x.extractLsb' (16 * i) 16).toNat = elem 16 i x.toNat := (elem_eq 16 i x).symm
    simp only [hel]
    exact packed_convertRule (w := 8) (n := 4) hne (by decide) hw _
  | false =>
    have hlow (x : Dword) : (x.truncate 32 : Word).toNat = x.toNat % 2 ^ 32 := BitVec.toNat_setWidth ..
    simp only [hlow, ← apply_ite (· % 2 ^ 32)]
    exact packed_convertRule (w := 16) (n := 2) hne (by decide) hw _

theorem exec_cvpk {s : State} {q : Issue} {g : Group} {h : Hdr} {c : Cvt} (hi : Issues s (.cvpk h c) q g) :
    exec (.cvpk h c) s = .next ((issueX s q g h).cvtWith c 1 fun l u v => cvpkRes g q (source h q g l) c u v) := by
  rw [show exec (.cvpk h c) s = execCvpk h c s from rfl, execCvpk, State.withIssue_of_issues hi]
  rfl

/-- Settles O12: each element is what `cvtVal` gives, which is the value of R50 in the width of its type. -/
theorem conversionsCompute : Obligations.ConversionsCompute :=
  ⟨Converts.intro (fun g q m c u _ => cvtRes g q m c u) (fun _ _ _ _ _ hi => exec_cvt hi)
      (fun _ c hwf => ⟨(cvt_wf hwf).2.2, Ty.regs_cases c.dty⟩) fun _ _ g q m u _ hwf => cvtRes_rule hwf g q m u,
    Converts.intro cvpkRes (fun _ _ _ _ _ hi => exec_cvpk hi)
      (fun _ _ hwf => ⟨(cvpk_wf hwf).2.2, .inl rfl⟩) fun _ _ g q m u v hwf => cvpkRes_rule hwf g q m u v⟩

end Sys2Proof.Machine

/-! What the accesses of an engine leave alone: the groups, the clock and the matrix engines (R171 to R173, R236). -/

namespace Sys2Proof.Machine

open Sys2Proof.Safety

/-- A state with the groups, the clock and the matrix engines of another. -/
structure SameEngines (s t : State) : Prop where
  groups : t.groups = s.groups
  clock : t.clock = s.clock
  mxe : ∀ k, t.mxe k = s.mxe k

theorem SameEngines.refl (s : State) : SameEngines s s := ⟨rfl, rfl, fun _ => rfl⟩

theorem SameEngines.trans {s t u : State} (h : SameEngines s t) (h' : SameEngines t u) : SameEngines s u :=
  ⟨h'.groups.trans h.groups, h'.clock.trans h.clock, fun k => (h'.mxe k).trans (h.mxe k)⟩

-- Updates of other parts of the state

section
variable (s : State)

theorem SameEngines.modMsys (f : MemSys → MemSys) : SameEngines s (s.modMsys f) := ⟨rfl, rfl, fun _ => rfl⟩
theorem SameEngines.modCore (k : Nat) (f : Core → Core) : SameEngines s (s.modCore k f) := ⟨rfl, rfl, fun _ => rfl⟩
theorem SameEngines.modSpad (k : Nat) (f : Spad → Spad) : SameEngines s (s.modSpad k f) := ⟨rfl, rfl, fun _ => rfl⟩
theorem SameEngines.homeWrite (key pa : Nat) (bs : List Byte) : SameEngines s (s.homeWrite key pa bs) := ⟨rfl, rfl, fun _ => rfl⟩

theorem SameEngines.modCluster (k : Nat) {f : Cluster → Cluster} (hf : ∀ c, (f c).mxe = c.mxe) : SameEngines s (s.modCluster k f) := by
  refine ⟨rfl, rfl, fun j => ?_⟩
  unfold State.mxe
  by_cases h : j = k
  · rw [h, State.cluster_modCluster, hf]
  · rw [State.cluster, State.modCluster, SMap.get_ins, if_neg h]
    rfl

theorem SameEngines.fillTlb (core asid va : Nat) (t : TlbEntry) : SameEngines s (s.fillTlb core asid va t) := by
  unfold State.fillTlb
  dsimp only
  exact (modCore s core _).trans (modCluster (s.modCore core _) (clusterOf core) (f := fun c => { c with tlb := _ }) fun _ => rfl)

theorem SameEngines.ite {s : State} {c : Prop} [Decidable c] {t u : State} (ht : SameEngines s t) (hu : SameEngines s u) :
    SameEngines s (if c then t else u) := by
  split
  · exact ht
  · exact hu

-- Accesses

theorem SameEngines.walkXlate (core : Nat) (sp : Space) (acc : Access) (ok : Nat → Bool) (va : Nat) :
    SameEngines s (s.walkXlate core sp acc ok va).1 := by
  have hclaims := modMsys s (walkClaims va 3 sp.root)
  unfold State.walkXlate
  dsimp only
  split
  · exact hclaims
  · exact hclaims
  · split
    · exact hclaims
    · dsimp only
      exact (SameEngines.ite hclaims (hclaims.trans (homeWrite _ ..))).trans (fillTlb _ ..)

theorem SameEngines.xlate (core : Nat) (sp : Space) (acc : Access) (ok : Nat → Bool) (va : Nat) : SameEngines s (s.xlate core sp acc ok va).1 := by
  unfold State.xlate
  split
  · exact refl s
  dsimp only
  split
  · exact walkXlate s ..
  · split
    · exact refl s
    · split
      · exact walkXlate s ..
      · exact refl s

theorem SameEngines.vbyte (core : Nat) (sp : Space) (va : Nat) : SameEngines s (s.vbyte core sp va).1 := by
  have h := xlate s core sp .read normalOnly va
  unfold State.vbyte
  generalize s.xlate core sp .read normalOnly va = p at h
  obtain ⟨s1, r⟩ := p
  cases r with
  | error c => exact h
  | ok x =>
    dsimp only at h ⊢
    split
    · exact h
    · split
      · exact h
      · dsimp only
        exact h.trans (modMsys s1 _)

theorem SameEngines.engByte (a : EngAcc) (sp : Bool) (addr : Nat) : SameEngines s (s.engByte a sp addr).1 := by
  unfold State.engByte
  split
  · split
    · exact refl s
    · split <;> exact refl s
  · exact vbyte s ..

theorem SameEngines.mxByte (a : EngAcc) (t : Ten) (o : Nat) : SameEngines s (s.mxByte a t o).1 := by
  have h := engByte s a t.sp (t.at_ o)
  unfold State.mxByte
  generalize s.engByte a t.sp (t.at_ o) = p at h
  obtain ⟨s1, r⟩ := p
  cases r with
  | error e => exact h
  | ok b =>
    dsimp only
    split
    · split
      · split <;> exact h
      · exact h
    · exact h

theorem SameEngines.engTarget (a : EngAcc) (sp : Bool) (w : BitWrite) : SameEngines s (s.engTarget a sp w).1 := by
  unfold State.engTarget
  split
  · split
    · exact refl s
    · split <;> exact refl s
  · have h := xlate s a.core a.sp .write normalOnly w.addr
    generalize s.xlate a.core a.sp .write normalOnly w.addr = p at h
    obtain ⟨s1, r⟩ := p
    cases r with
    | error e => exact h
    | ok x =>
      dsimp only
      split <;> exact h

theorem SameEngines.engPut (core : Nat) (sp : Bool) (tag : Nat) (t : Nat × Nat × BitWrite) : SameEngines s (s.engPut core sp tag t) := by
  unfold State.engPut
  split
  · exact modSpad s ..
  · exact (homeWrite s ..).trans (modCore _ ..)

theorem SameEngines.engMend (pas : List Nat) : SameEngines s (s.engMend pas).1 := by
  unfold State.engMend
  dsimp only
  split
  · dsimp only
    exact modMsys s _
  · exact refl s

/-- Steps that each leave the engines alone do so together. -/
theorem SameEngines.allSteps {α β ε : Type} {f : State → α → State × Except ε β} (hf : ∀ s a, SameEngines s (f s a).1) (l : List α) :
    SameEngines s (allSteps f s l).1 := by
  induction l generalizing s with
  | nil => exact refl s
  | cons a t ih =>
    have h := hf s a
    unfold Machine.allSteps
    generalize f s a = p at h
    obtain ⟨s1, r⟩ := p
    cases r with
    | error e => exact h
    | ok b =>
      have ht := h.trans (ih s1)
      dsimp only at ht ⊢
      generalize Machine.allSteps f s1 t = p at ht
      obtain ⟨s2, r⟩ := p
      cases r <;> exact ht

/-- A chain of updates, each of which leaves the engines alone. -/
theorem SameEngines.foldl {β α : Type} {part : β → State} {f : β → α → β} (hf : ∀ b a, SameEngines (part b) (part (f b a))) (l : List α) (b : β) :
    SameEngines (part b) (part (l.foldl f b)) := by
  induction l generalizing b with
  | nil => exact refl _
  | cons a t ih => exact (hf b a).trans (ih _)

-- Operands and destinations of the matrix engines

theorem SameEngines.mxRead (a : EngAcc) (t : Ten) (e : List Nat) : SameEngines s (s.mxRead a t e).1 := by
  have hbytes := allSteps s (f := fun s o => s.mxByte a t o) (fun s o => mxByte s a t o) ((bitBytes (t.bitOff e) t.bits).map (·.1))
  unfold State.mxRead
  dsimp only
  split
  · split <;> exact refl s
  · generalize Machine.allSteps _ s _ = p at hbytes
    obtain ⟨s1, r⟩ := p
    cases r with
    | error er => exact hbytes
    | ok bs =>
      dsimp only
      split <;> exact hbytes

theorem SameEngines.mxScale (a : EngAcc) (t : Ten) (lineDim kDim line blk : Nat) : SameEngines s (s.mxScale a t lineDim kDim line blk).1 := by
  have h := engByte s a t.sp (t.scaleBase + line * t.sstr + blk)
  unfold State.mxScale
  split
  · exact refl s
  · generalize s.engByte a t.sp _ = p at h
    obtain ⟨s1, r⟩ := p
    cases r <;> exact h

theorem SameEngines.loadB (a : EngAcc) (t : Ten) (coord : Dword) : SameEngines s (s.loadB a t coord).1 := by
  have hvals := allSteps s (f := fun s p => s.mxRead a t (mxElem t coord 256 512 p.1 p.2)) (fun s _ => mxRead s ..) (indexPairs 256 512)
  unfold State.loadB
  split
  · exact refl s
  dsimp only
  generalize Machine.allSteps _ s _ = p at hvals
  obtain ⟨s1, r⟩ := p
  cases r with
  | error e => exact hvals
  | ok vs =>
    dsimp only
    split
    · exact hvals
    · have hscales := hvals.trans (allSteps s1 (f := fun s p => s.mxScale a t (if t.order then 1 else 0) (1 - if t.order then 1 else 0)
        ((mxOrigin t coord 256 512).2 + p.2) ((mxOrigin t coord 256 512).1 / 64 + p.1)) (fun s _ => mxScale s ..) (indexPairs 4 512))
      generalize Machine.allSteps _ s1 _ = p at hscales ⊢
      obtain ⟨s2, r⟩ := p
      cases r <;> exact hscales

theorem SameEngines.loadA (raw : Bool) (a : EngAcc) (t : Ten) (coord : Dword) : SameEngines s (s.loadA raw a t coord).1 := by
  have hvals := allSteps s (f := fun s p => s.mxRead a t (mxElem t coord 256 256 p.1 p.2)) (fun s _ => mxRead s ..) (indexPairs 256 256)
  unfold State.loadA
  dsimp only
  generalize Machine.allSteps _ s _ = p at hvals
  obtain ⟨s1, r⟩ := p
  cases r with
  | error e => exact hvals
  | ok vs =>
    dsimp only
    split
    · exact hvals
    · have hscales := hvals.trans (allSteps s1 (f := fun s p => s.mxScale a t (1 - if t.order then 1 else 0) (if t.order then 1 else 0)
        ((mxOrigin t coord 256 256).1 + p.1) ((mxOrigin t coord 256 256).2 / 64 + p.2)) (fun s _ => mxScale s ..) (indexPairs 256 4))
      generalize Machine.allSteps _ s1 _ = p at hscales ⊢
      obtain ⟨s2, r⟩ := p
      cases r <;> exact hscales

theorem SameEngines.passRows (raw : Bool) (e : MxEntry) : SameEngines s (s.passRows raw e).1 := by
  unfold State.passRows
  split
  · next ten coord _ _ _ =>
    have h := loadA s raw e.acc (tenOf ten) coord
    dsimp only
    generalize s.loadA raw e.acc (tenOf ten) coord = p at h
    obtain ⟨s1, r⟩ := p
    cases r <;> exact h
  · split <;> exact refl s
  · exact refl s

theorem SameEngines.drainPlaces (a : EngAcc) (t : Ten) (e : List Nat) : SameEngines s (s.drainPlaces a t e).1 :=
  allSteps s (fun s _ => engTarget s ..) _

theorem SameEngines.drainTile (m : Mxe) (a : EngAcc) (t : Ten) (coord : Dword) (add bank : Bool) :
    SameEngines s (s.drainTile m a t coord add bank).1 := by
  have hplaces := allSteps s (f := fun s p => s.drainPlaces a t (mxElem t coord 256 512 p.1 p.2)) (fun s _ => drainPlaces s ..) (indexPairs 256 512)
  unfold State.drainTile
  generalize indexPairs 256 512 = ps at hplaces ⊢
  dsimp only
  generalize (t.valid && if m.raw = true then _ else _) = ok
  split
  · exact refl s
  split
  · unfold State.staleTile
    dsimp only
    exact modCore s _ _
  generalize Machine.allSteps _ s _ = p at hplaces ⊢
  obtain ⟨s1, r⟩ := p
  cases r with
  | error e => exact hplaces
  | ok places =>
    dsimp only at hplaces ⊢
    generalize (if t.sp = true then [] else places.flatMap _) = pas
    generalize hmend : (if (add && _) = true then (s1, false) else State.engMend s1 _) = mend
    have hmended : SameEngines s mend.1 := by
      rw [← hmend]
      split
      · exact hplaces
      · exact hplaces.trans (engMend s1 _)
    obtain ⟨s2, b⟩ := mend
    cases b with
    | false => exact hmended
    | true =>
      refine hmended.trans (foldl (part := Prod.fst) (fun q p => ?_) _ (s2, false))
      split
      · exact refl q.1
      · exact foldl (part := fun s => s) (fun s _ => engPut s ..) _ q.1

end

end Sys2Proof.Machine

/-! The effect and the end of a matrix command (R76, R176, R242, R260): what the engine, the group and the memory hold after each. -/

namespace Sys2Proof.Machine

open Sys2Proof.Safety

-- A group through an update

theorem State.group?_modGroup (s : State) (gid : Nat) (f : Group → Group) : (s.modGroup gid f).group? gid = (s.group? gid).map f := by
  unfold State.modGroup
  cases h : s.group? gid with
  | none => exact h
  | some g => exact State.group?_setGroup ..

/-- An update of a group changes its entry in the list of groups and nothing else. -/
theorem State.modGroup_eq (s : State) (gid : Nat) (f : Group → Group) : ∃ gs, s.modGroup gid f = { s with groups := gs } := by
  unfold State.modGroup
  split
  · exact ⟨_, rfl⟩
  · exact ⟨s.groups, rfl⟩

section
variable (s : State) (gid : Nat) (f : Group → Group)

@[simp] theorem State.modGroup_mxe (k : Nat) : (s.modGroup gid f).mxe k = s.mxe k := by
  obtain ⟨gs, h⟩ := s.modGroup_eq gid f
  rw [h]
  rfl

@[simp] theorem State.modGroup_cc : (s.modGroup gid f).cc = s.cc := by
  obtain ⟨gs, h⟩ := s.modGroup_eq gid f
  rw [h]
  rfl

@[simp] theorem State.modGroup_msys : (s.modGroup gid f).msys = s.msys := by
  obtain ⟨gs, h⟩ := s.modGroup_eq gid f
  rw [h]

@[simp] theorem State.modGroup_spads : (s.modGroup gid f).spads = s.spads := by
  obtain ⟨gs, h⟩ := s.modGroup_eq gid f
  rw [h]

end

@[simp] theorem State.modMxe_groups (s : State) (k : Nat) (f : Mxe → Mxe) : (s.modMxe k f).groups = s.groups := rfl
@[simp] theorem State.modMxe_cc (s : State) (k : Nat) (f : Mxe → Mxe) : (s.modMxe k f).cc = s.cc := rfl
@[simp] theorem State.modMxe_msys (s : State) (k : Nat) (f : Mxe → Mxe) : (s.modMxe k f).msys = s.msys := rfl
@[simp] theorem State.modMxe_spads (s : State) (k : Nat) (f : Mxe → Mxe) : (s.modMxe k f).spads = s.spads := rfl

-- What a group notes of a command

theorem noted_of_groups {s t : State} (h : t.groups = s.groups) (e : MxEntry) : Noted s t e False id := by
  intro g hg
  exact ⟨g, by rw [State.group?, h]; exact hg, (List.map_id _).symm, False.elim, fun _ => rfl⟩

theorem noted_modGroup (s : State) (e : MxEntry) {f : Group → Group} {falls : Prop} {note : MxCmd → MxCmd}
    (hcmds : ∀ g, (f g).cmds = g.cmds.map note) (hfalls : falls → ∀ g, (f g).regs.tl = g.regs.tl - 1)
    (hstays : ¬ falls → ∀ g, (f g).regs.tl = g.regs.tl) : Noted s (s.modGroup e.gid f) e falls note := by
  intro g hg
  exact ⟨f g, by rw [State.group?_modGroup, hg]; rfl, hcmds g, fun h => hfalls h g, fun h => hstays h g⟩

/-- One after the other; TL falls once at most. -/
theorem noted_trans {s t u : State} {e : MxEntry} {p q r : Prop} {note note' : MxCmd → MxCmd} (h : Noted s t e p note) (h' : Noted t u e q note')
    (hr : r ↔ p ∨ q) (hone : ¬ (p ∧ q)) : Noted s u e r (note' ∘ note) := by
  intro g hg
  obtain ⟨k, hk, hcmds, hfall, hstay⟩ := h g hg
  obtain ⟨k', hk', hcmds', hfall', hstay'⟩ := h' k hk
  refine ⟨k', hk', by rw [hcmds', hcmds, List.map_map], fun hr' => ?_, fun hr' => ?_⟩
  · rcases hr.mp hr' with hp | hq
    · rw [hstay' fun hq => hone ⟨hp, hq⟩, hfall hp]
    · rw [hfall' hq, hstay fun hp => hone ⟨hp, hq⟩]
  · rw [hstay' fun hq => hr' (hr.mpr (.inr hq)), hstay fun hp => hr' (hr.mpr (.inl hp))]

/-- After a step that the group does not notice. -/
theorem noted_of_unnoted {s t u : State} {e : MxEntry} {p : Prop} {note : MxCmd → MxCmd} (h : Noted s t e False id) (h' : Noted t u e p note) :
    Noted s u e p note := noted_trans h h' (false_or _).symm.to_iff And.left

theorem noted_mxDrop (s : State) (e : MxEntry) : Noted s (s.mxDrop e) e True id :=
  noted_modGroup s e (fun _ => (List.map_id _).symm) (fun _ _ => rfl) fun h => absurd trivial h

theorem noted_mxTell (s : State) (e : MxEntry) (err : Option Cause) : Noted s (s.mxTell e err) e False (completed e err) :=
  noted_modGroup s e (fun _ => rfl) False.elim fun _ _ => rfl

theorem noted_mxFlag (s : State) (e : MxEntry) (bit : Nat) (on : Bool) : Noted s (s.mxFlag e bit on) e False id := by
  unfold State.mxFlag
  split
  · exact noted_modGroup s e (fun _ => (List.map_id _).symm) False.elim fun _ _ => rfl
  · exact noted_of_groups rfl e

-- TL falls, or does not, as a command goes on

def State.mxDropIf (s : State) (c : Bool) (e : MxEntry) : State := if c then s.mxDrop e else s

section
variable (s : State) (c : Bool) (e : MxEntry)

@[simp] theorem State.mxDropIf_mxe (k : Nat) : (s.mxDropIf c e).mxe k = s.mxe k := by cases c <;> simp [State.mxDropIf, State.mxDrop]
@[simp] theorem State.mxDropIf_cc : (s.mxDropIf c e).cc = s.cc := by cases c <;> simp [State.mxDropIf, State.mxDrop]
@[simp] theorem State.mxDropIf_msys : (s.mxDropIf c e).msys = s.msys := by cases c <;> simp [State.mxDropIf, State.mxDrop]
@[simp] theorem State.mxDropIf_spads : (s.mxDropIf c e).spads = s.spads := by cases c <;> simp [State.mxDropIf, State.mxDrop]

theorem noted_mxDropIf : Noted s (s.mxDropIf c e) e (c = true) id := by
  cases c with
  | true => simpa [State.mxDropIf] using noted_mxDrop s e
  | false => simpa [State.mxDropIf] using noted_of_groups (s := s) rfl e

end

-- The buffers and banks of an engine

/-- An engine with the operands, accumulators and mode of another (R170). -/
structure SameBanks (m m' : Mxe) : Prop where
  ac0 : m'.ac0 = m.ac0
  ac1 : m'.ac1 = m.ac1
  acRaw : m'.acRaw = m.acRaw
  bb0 : m'.bb0 = m.bb0
  bb1 : m'.bb1 = m.bb1
  raw : m'.raw = m.raw

theorem SameBanks.ac {m m' : Mxe} (h : SameBanks m m') (n : Bool) : m'.ac n = m.ac n := by
  cases n
  · exact h.ac0
  · exact h.ac1

theorem SameBanks.bb {m m' : Mxe} (h : SameBanks m m') (n : Bool) : m'.bb n = m.bb n := by
  cases n
  · exact h.bb0
  · exact h.bb1

theorem SameBanks.trans {m m' m'' : Mxe} (h : SameBanks m m') (h' : SameBanks m' m'') : SameBanks m m'' :=
  ⟨h'.ac0.trans h.ac0, h'.ac1.trans h.ac1, h'.acRaw.trans h.acRaw, h'.bb0.trans h.bb0, h'.bb1.trans h.bb1, h'.raw.trans h.raw⟩

/-- A step that leaves an engine's buffers and banks, the memory and the scratchpads alone. -/
structure OnlyTable (s t : State) (cl : Nat) : Prop where
  banks : SameBanks (s.mxe cl) (t.mxe cl)
  msys : t.msys = s.msys
  spads : t.spads = s.spads

theorem OnlyTable.trans {s t u : State} {cl : Nat} (h : OnlyTable s t cl) (h' : OnlyTable t u cl) : OnlyTable s u cl :=
  ⟨h.banks.trans h'.banks, h'.msys.trans h.msys, h'.spads.trans h.spads⟩

-- The end of a command

/-- An engine without a command's entry; an arrival that still waits is kept. -/
def Mxe.without (m : Mxe) (e : MxEntry) : Mxe :=
  { m with table := m.table.filter (·.id != e.id), late := if e.arr.isSome && !e.arrived then m.late ++ [e] else m.late }

theorem State.mxFinish_eq (s : State) (cl : Nat) (e : MxEntry) :
    s.mxFinish cl e = ((s.modMxe cl (·.without e)).mxDropIf (e.arr.isNone && !e.arrived) e).mxTell e e.err := rfl

theorem State.mxFinish_mxe (s : State) (cl : Nat) (e : MxEntry) : (s.mxFinish cl e).mxe cl = (s.mxe cl).without e := by
  simp [State.mxFinish_eq, State.mxTell]

theorem State.mxFinish_onlyTable (s : State) (cl : Nat) (e : MxEntry) : OnlyTable s (s.mxFinish cl e) cl :=
  ⟨s.mxFinish_mxe cl e ▸ ⟨rfl, rfl, rfl, rfl, rfl, rfl⟩, by simp [State.mxFinish_eq, State.mxTell], by simp [State.mxFinish_eq, State.mxTell]⟩

theorem commandEnds_mxFinish (s : State) (cl : Nat) (e : MxEntry) : CommandEnds s (s.mxFinish cl e) cl e e.err := by
  unfold CommandEnds
  rw [State.mxFinish_mxe]
  refine ⟨rfl, fun h => if_neg ?_, fun h => ⟨e, if_pos ?_, rfl, rfl, rfl⟩, ?_⟩
  · rcases h with h | h <;> simp [h]
  · simp [Option.isSome_iff_ne_none, h.1, h.2]
  · have hdrop := noted_of_unnoted (noted_of_groups (State.modMxe_groups s cl (·.without e)) e) (noted_mxDropIf _ (e.arr.isNone && !e.arrived) e)
    exact noted_trans hdrop (noted_mxTell _ e e.err) (by simp) And.right

/-- The end of a command after its effect: what changed before it is the entry's own fields and, where `p` holds, TL. -/
theorem CommandEnds.of_later {s t u : State} {cl : Nat} {e e' : MxEntry} {err : Option Cause} {p : Prop} (h : CommandEnds t u cl e' err)
    (hid : e'.id = e.id) (hgid : e'.gid = e.gid) (harr : e'.arr = e.arr) (harrived : e.arr ≠ none → e'.arrived = e.arrived)
    (htable : (t.mxe cl).table.filter (fun x => x.id != e.id) = (s.mxe cl).table.filter fun x => x.id != e.id)
    (hlate : (t.mxe cl).late = (s.mxe cl).late) (hnoted : Noted s t e p id)
    (hfalls : (e.arr = none ∧ e.arrived = false) ↔ p ∨ (e.arr = none ∧ e'.arrived = false)) (hone : ¬ (p ∧ e.arr = none ∧ e'.arrived = false)) :
    CommandEnds s u cl e err := by
  obtain ⟨htable', hkept, hwaits, hnoted'⟩ := h
  rw [hid, htable] at htable'
  rw [harr, hlate] at hkept hwaits
  refine ⟨htable', fun h => hkept ?_, fun h => ?_, ?_⟩
  · by_cases h0 : e.arr = none
    · exact .inl h0
    · exact .inr ((harrived h0).trans (h.resolve_left h0))
  · obtain ⟨x, hx, hxid, hxgid, hxarr⟩ := hwaits ⟨h.1, (harrived h.1).trans h.2⟩
    exact ⟨x, hx, hxid.trans hid, hxgid.trans hgid, hxarr⟩
  · have hnoted' : Noted t u e (e.arr = none ∧ e'.arrived = false) (completed e err) := by
      unfold Noted completed at hnoted' ⊢
      rwa [hid, hgid, harr] at hnoted'
    exact noted_trans hnoted hnoted' hfalls hone

-- The effect of a command

/-- An entry after its effect. -/
def MxEntry.made (e : MxEntry) : MxEntry := { e with read := true, arrived := e.arr.isNone }

/-- An entry after an effect that failed. -/
def MxEntry.failed (e : MxEntry) (c : Cause) (cc : Nat) : MxEntry := { e with read := true, err := some c, due := cc }

/-- What an effect leaves of the machine: the clock, the engine's table and its group's commands and TL. -/
structure EffectKeeps (s t : State) (cl : Nat) (e : MxEntry) : Prop where
  cc : t.cc = s.cc
  table : (t.mxe cl).table = (s.mxe cl).table
  late : (t.mxe cl).late = (s.mxe cl).late
  noted : Noted s t e False id

theorem SameEngines.effectKeeps {s t : State} (h : SameEngines s t) (cl : Nat) (e : MxEntry) : EffectKeeps s t cl e :=
  ⟨congrArg Clock.cc h.clock, by rw [h.mxe], by rw [h.mxe], noted_of_groups h.groups e⟩

theorem State.mxDue_id {s : State} {cl id : Nat} {e : MxEntry} (h : s.mxDue cl id = some e) : e.id = id := by
  unfold State.mxDue at h
  dsimp only at h
  split at h
  next => cases h
  next x us hfind =>
    obtain ⟨-, hx⟩ := Option.ite_none_right_eq_some.mp h
    cases hx
    simpa using List.find?_some hfind

/-- The state that a command's effect leaves in `t`, before it ends. -/
def State.mxMade (t : State) (cl : Nat) (e : MxEntry) : State := (t.modEntry cl e.id MxEntry.made).mxDropIf e.arr.isNone e

section
variable {s t : State} {cl id : Nat} {e : MxEntry} (hdue : s.mxDue cl id = some e)
include hdue

theorem State.mxComplete_of_read (hread : e.read = true) : s.mxComplete cl id = s.mxFinish cl e := by
  unfold State.mxComplete
  rw [hdue]
  exact if_pos hread

theorem State.mxComplete_of_ok (hread : e.read = false) {u : Unit} (heff : s.mxEffect cl e = (t, .ok u)) :
    s.mxComplete cl id = if e.due ≤ (t.mxMade cl e).cc then (t.mxMade cl e).mxFinish cl e.made else t.mxMade cl e := by
  unfold State.mxComplete
  rw [hdue]
  simp only [hread, Bool.false_eq_true, if_false, State.mxMake, heff]
  rfl

theorem State.mxComplete_of_error (hread : e.read = false) {er : EngErr} (heff : s.mxEffect cl e = (t, .error er)) (hdrain : isDrainFault e er = false)
    (hcc : t.cc = s.cc) : s.mxComplete cl id =
      (t.modEntry cl e.id (·.failed (if er.1.cause = .pageNotPresent then .permission else er.1.cause) s.cc)).mxFinish cl
        (e.failed (if er.1.cause = .pageNotPresent then .permission else er.1.cause) s.cc) := by
  unfold State.mxComplete
  rw [hdue]
  simp only [hread, Bool.false_eq_true, if_false, State.mxMake, heff, hdrain, beq_iff_eq]
  exact if_pos hcc.ge

end

theorem Mxe.modEntry_filter (m : Mxe) (id : Nat) (f : MxEntry → MxEntry) (hf : ∀ x, (f x).id = x.id) :
    (m.modEntry id f).table.filter (fun x => x.id != id) = m.table.filter fun x => x.id != id := by
  unfold Mxe.modEntry
  dsimp only
  induction m.table with
  | nil => rfl
  | cons x t ih => by_cases hx : x.id = id <;> simp [hx, hf, ih]

/-- A command that fails ends at once, and nothing else of the engine changes. -/
theorem commandEnds_of_error {s t : State} {cl : Nat} {e : MxEntry} (hk : EffectKeeps s t cl e) (c : Cause) :
    CommandEnds s ((t.modEntry cl e.id (·.failed c s.cc)).mxFinish cl (e.failed c s.cc)) cl e (some c) := by
  refine CommandEnds.of_later (commandEnds_mxFinish _ cl (e.failed c s.cc)) (p := False) rfl rfl rfl (fun _ => rfl) ?_ ?_ ?_ (false_or _).symm.to_iff And.left
  · rw [State.modEntry, State.mxe_modMxe, Mxe.modEntry_filter _ _ (·.failed c s.cc) fun _ => rfl, hk.table]
  · rw [State.modEntry, State.mxe_modMxe]
    exact hk.late
  · exact noted_of_unnoted hk.noted (noted_of_groups (State.modMxe_groups t cl _) e)

section
variable {s t : State} {cl : Nat} {e : MxEntry}

theorem State.mxMade_mxe (t : State) (cl : Nat) (e : MxEntry) : (t.mxMade cl e).mxe cl = (t.mxe cl).modEntry e.id MxEntry.made := by
  simp [State.mxMade, State.modEntry]

theorem State.mxMade_cc (t : State) (cl : Nat) (e : MxEntry) : (t.mxMade cl e).cc = t.cc := by simp [State.mxMade, State.modEntry]

theorem State.mxMade_onlyTable (t : State) (cl : Nat) (e : MxEntry) : OnlyTable t (t.mxMade cl e) cl :=
  ⟨t.mxMade_mxe cl e ▸ ⟨rfl, rfl, rfl, rfl, rfl, rfl⟩, by simp [State.mxMade, State.modEntry], by simp [State.mxMade, State.modEntry]⟩

/-- TL falls with the effect of a command without an arrival. -/
theorem EffectKeeps.noted_mxMade (hk : EffectKeeps s t cl e) : Noted s (t.mxMade cl e) e (e.arr = none) id := by
  have hdrop := noted_mxDropIf (t.modEntry cl e.id MxEntry.made) e.arr.isNone e
  rw [Option.isNone_iff_eq_none] at hdrop
  exact noted_of_unnoted hk.noted (noted_of_unnoted (noted_of_groups (State.modMxe_groups t cl _) e) hdrop)

/-- A command whose effect is made stays in the table until its time has passed, and ends then. -/
theorem EffectKeeps.effectMade (hk : EffectKeeps s t cl e) :
    EffectMade s (if e.due ≤ (t.mxMade cl e).cc then (t.mxMade cl e).mxFinish cl e.made else t.mxMade cl e) cl e := by
  rw [t.mxMade_cc, hk.cc]
  constructor
  · intro hlt
    rw [if_neg hlt.not_ge, State.mxMade_mxe]
    refine ⟨?_, hk.late, hk.noted_mxMade⟩
    show (t.mxe cl).table.map _ = _
    rw [hk.table]
    rfl
  · intro hle
    rw [if_pos hle]
    refine CommandEnds.of_later (e := { e with arrived := false }) (commandEnds_mxFinish _ cl e.made) (p := e.arr = none) rfl rfl rfl (fun h => ?_)
      ?_ ?_ hk.noted_mxMade ?_ ?_
    · simpa [MxEntry.made, Option.isSome_iff_ne_none] using h
    · rw [State.mxMade_mxe]
      exact (Mxe.modEntry_filter _ e.id MxEntry.made fun _ => rfl).trans (by rw [hk.table])
    · rw [State.mxMade_mxe]
      exact hk.late
    · simp [MxEntry.made]
    · simp [MxEntry.made]

/-- What `mxeCommandComplete` does where the effect is made. -/
theorem completes_of_ok {id : Nat} (hdue : s.mxDue cl id = some e) (hread : e.read = false) {u : Unit} (heff : s.mxEffect cl e = (t, .ok u))
    (hk : EffectKeeps s t cl e) {post : State → Prop} (hpost : ∀ v, EffectMade s v cl e → OnlyTable t v cl → post v) :
    Completes (.mxeCommandComplete cl id) s post := by
  refine ⟨_, congrArg Host.Outcome.next (State.mxComplete_of_ok hdue hread heff), hpost _ hk.effectMade ?_⟩
  split
  · exact (t.mxMade_onlyTable cl e).trans (State.mxFinish_onlyTable _ cl _)
  · exact t.mxMade_onlyTable cl e

end

end Sys2Proof.Machine

/-! Passes of the matrix engine (R56, R58, R172): an element over the K-blocks or over k, and every element of the accumulator. -/

namespace Sys2Proof.Machine

open Sys2Proof.Safety

-- The exact sum of two finite values, rounded once

theorem signed_eq_mul_zpow (neg : Bool) (m : Nat) {e e0 : Int} (h : e0 ≤ e) :
    (if neg then -1 else 1) * m * (2 : ℚ) ^ e = (((if neg then -1 else 1) * (m * 2 ^ (e - e0).toNat : Nat) : Int) : ℚ) * 2 ^ e0 := by
  have hpow : (2 : ℚ) ^ e = 2 ^ (e - e0).toNat * 2 ^ e0 := by
    rw [← zpow_natCast, Int.toNat_of_nonneg (sub_nonneg.mpr h), ← zpow_add₀ two_ne_zero, sub_add_cancel]
  rw [hpow]
  cases neg <;> push_cast <;> ring

/-- An integer times a power of two, as sign and magnitude. -/
theorem intCast_mul_zpow (i e : Int) : (i : ℚ) * 2 ^ e = (if decide (i < 0) then -1 else 1) * i.natAbs * (2 : ℚ) ^ e := by
  rcases lt_or_ge i 0 with h | h
  · simp [h, abs_of_neg h, Nat.cast_natAbs]
  · simp [h.not_gt, abs_of_nonneg h, Nat.cast_natAbs]

theorem Fmt.addFin_spec (f : Fmt) (v : FpEnv) (n1 : Bool) (m1 : Nat) (e1 : Int) (n2 : Bool) (m2 : Nat) (e2 : Int) :
    ∃ i e : Int, (if n1 then -1 else 1) * m1 * (2 : ℚ) ^ e1 + (if n2 then -1 else 1) * m2 * (2 : ℚ) ^ e2 = i * 2 ^ e ∧
      f.addFin v n1 m1 e1 n2 m2 e2 =
        if i = 0 then (f.signBit (if n1 = n2 then n1 else v.rnd == .rm), 0) else f.round v.ftz v.rnd (decide (i < 0)) i.natAbs e := by
  refine ⟨_, min e1 e2, ?_, rfl⟩
  rw [signed_eq_mul_zpow n1 m1 (min_le_left e1 e2), signed_eq_mul_zpow n2 m2 (min_le_right e1 e2), ← add_mul, ← Int.cast_add]

theorem Fmt.addFin_sumOf (f : Fmt) (v : FpEnv) (n1 : Bool) (m1 : Nat) (e1 : Int) (n2 : Bool) (m2 : Nat) (e2 : Int) :
    SumOf f v ((if n1 then -1 else 1) * m1 * (2 : ℚ) ^ e1) ((if n2 then -1 else 1) * m2 * (2 : ℚ) ^ e2) n1 n2
      (f.addFin v n1 m1 e1 n2 m2 e2).1 (f.addFin v n1 m1 e1 n2 m2 e2).2 := by
  obtain ⟨i, e, hsum, hadd⟩ := f.addFin_spec v n1 m1 e1 n2 m2 e2
  have hzero : (i : ℚ) * 2 ^ e = 0 ↔ i = 0 := by simp [zpow_ne_zero]
  rw [hadd, SumOf, hsum, ne_eq, hzero]
  refine ⟨fun hi => ?_, fun hi => ?_⟩
  · rw [if_neg hi]
    exact delivers_round (Int.natAbs_pos.mpr hi) (intCast_mul_zpow i e)
  · rw [if_pos hi]
    exact ⟨rfl, rfl⟩

theorem Fmt.Ieee.addFin_lt {f : Fmt} (hf : f.Ieee) (v : FpEnv) (n1 : Bool) (m1 : Nat) (e1 : Int) (n2 : Bool) (m2 : Nat) (e2 : Int) :
    (f.addFin v n1 m1 e1 n2 m2 e2).1 < 2 ^ f.w := by
  obtain ⟨i, e, -, hadd⟩ := f.addFin_spec v n1 m1 e1 n2 m2 e2
  rw [hadd]
  split
  · exact hf.signBit_add_lt _ (Nat.two_pow_pos _)
  · exact hf.round_lt ..

/-- Finite values whose sum is zero have different signs, unless both are zero. -/
theorem sign_ne_of_sum_eq_zero {neg : Bool} {m : Nat} {i e e' : Int} (hi : i ≠ 0)
    (h : (if neg then -1 else 1) * m * (2 : ℚ) ^ e + i * 2 ^ e' = 0) : neg ≠ decide (i < 0) := by
  have hm : 0 ≤ (m : ℚ) * 2 ^ e := by positivity
  have hp : (0 : ℚ) < 2 ^ e' := by positivity
  rintro rfl
  rcases lt_or_gt_of_ne hi with hneg | hpos
  · have : (i : ℚ) * 2 ^ e' < 0 := mul_neg_of_neg_of_pos (by exact_mod_cast hneg) hp
    simp only [hneg, decide_true, if_true] at h
    linarith
  · have : 0 < (i : ℚ) * 2 ^ e' := mul_pos (by exact_mod_cast hpos) hp
    simp only [hpos.not_gt, decide_false, Bool.false_eq_true, if_false] at h
    linarith

-- Block-scaled passes (R56)

theorem foldl_range_add (g : Nat → Int) (n : Nat) : (List.range n).foldl (fun a k => a + g k) 0 = ∑ k ∈ Finset.range n, g k := by
  induction n with
  | zero => rfl
  | succ n ih => rw [List.range_succ, List.foldl_append, ih, Finset.sum_range_succ]; rfl

theorem mxDot_eq (ra : ARows) (bb : BBuf) (i j b : Nat) : mxDot ra.vals bb.vals i j b = blockDot ra bb i j b := by
  unfold mxDot blockDot
  rw [foldl_range_add]
  simp only [add_assoc]

/-- The exact sum is rounded once; one of zero is +0. -/
theorem mxRound_spec {c : Nat} (hc : fmt32.expo c ≠ fmt32.expMax) {dot : Int} (hdot : dot ≠ 0) (sc : Int) :
    let x : ℚ := fpValue fmt32 c + dot * (2 : ℚ) ^ sc
    (x = 0 → mxRound c dot sc = 0) ∧ (x ≠ 0 → ∃ fl, Delivers fmt32 { ftz := false, rnd := .rne, lane := 0, pc := 0 } x (mxRound c dot sc) fl) ∧
      mxRound c dot sc < 2 ^ 32 := by
  have hn : fmt32.isNaN c = false := by simp [Fmt.isNaN, hc]
  obtain ⟨m, e, hdec, hval⟩ := Fmt.dec_of_finite hn fun h => hc h.1
  have hround : mxRound c dot sc = (fmt32.addFin mxEnv (fmt32.sign c) m e (decide (dot < 0)) dot.natAbs sc).1 := by
    unfold mxRound
    rw [hdec]
    rfl
  obtain ⟨hsum, hzero⟩ := fmt32.addFin_sumOf mxEnv (fmt32.sign c) m e (decide (dot < 0)) dot.natAbs sc
  rw [← hval, ← intCast_mul_zpow] at hsum hzero
  rw [hround]
  refine ⟨fun hx => ?_, fun hx => ⟨_, hsum hx⟩, (Fmt.ieee (.inl rfl)).addFin_lt ..⟩
  rw [(hzero hx).2, if_neg (sign_ne_of_sum_eq_zero hdot (hval ▸ hx))]
  rfl

/-- One K-block. -/
def blockStep (ra : ARows) (bb : BBuf) (i j : Nat) (p : Word × Bool) (b : Nat) : Word × Bool :=
  let ea := ra.scales.get 0 (i * 512 + b)
  let eb := bb.scales.get 0 (b * 512 + j)
  let c := p.1.toNat
  if ea = -128 || eb = -128 then p else
  let dot := mxDot ra.vals bb.vals i j b
  if dot = 0 || fmt32.expo c == fmt32.expMax then p
  else
    let r := mxRound c dot (ea + eb)
    (BitVec.ofNat 32 r, p.2 || fmt32.expo r == fmt32.expMax)

theorem blockElem_eq (ra : ARows) (bb : BBuf) (i j : Nat) (c : Word) : blockElem ra bb i j c = (List.range 4).foldl (blockStep ra bb i j) (c, false) := rfl

theorem blockStep_spec (ra : ARows) (bb : BBuf) (i j : Nat) (p : Word × Bool) (b : Nat) :
    BlockStep (blockDot ra bb i j b) (ra.scales.get 0 (i * 512 + b)) (bb.scales.get 0 (b * 512 + j)) p.1 (blockStep ra bb i j p b).1 := by
  unfold BlockStep blockStep
  rw [mxDot_eq]
  generalize ra.scales.get 0 (i * 512 + b) = ea
  generalize bb.scales.get 0 (b * 512 + j) = eb
  generalize blockDot ra bb i j b = dot
  by_cases h : ea = -128 ∨ eb = -128 ∨ dot = 0 ∨ fmt32.expo p.1.toNat = fmt32.expMax
  · rw [if_pos h]
    by_cases hz : ea = -128 ∨ eb = -128
    · simp [hz]
    · have hz' : dot = 0 ∨ fmt32.expo p.1.toNat = fmt32.expMax := by tauto
      simp [hz, hz']
  · rw [if_neg h]
    obtain ⟨hea, heb, hdot, hc⟩ : ea ≠ -128 ∧ eb ≠ -128 ∧ dot ≠ 0 ∧ fmt32.expo p.1.toNat ≠ fmt32.expMax := by tauto
    obtain ⟨hzero, hround, hlt⟩ := mxRound_spec hc hdot (ea + eb)
    have hnat : (BitVec.ofNat 32 (mxRound p.1.toNat dot (ea + eb))).toNat = mxRound p.1.toNat dot (ea + eb) := by
      rw [BitVec.toNat_ofNat, Nat.mod_eq_of_lt hlt]
    simp only [hea, heb, hdot, hc, decide_false, Bool.or_self, Bool.false_eq_true, if_false, beq_iff_eq, Bool.false_or, hnat]
    exact ⟨fun hx => by rw [hzero hx]; rfl, hround⟩

theorem foldl_range_succ {α : Type} (f : α → Nat → α) (a : α) (n : Nat) :
    (List.range (n + 1)).foldl f a = f ((List.range n).foldl f a) n := by rw [List.range_succ, List.foldl_append]; rfl

theorem blockElem_pass (ra : ARows) (bb : BBuf) (i j : Nat) (c : Word) : BlockPass ra bb i j c (blockElem ra bb i j c).1 :=
  ⟨fun n => ((List.range n).foldl (blockStep ra bb i j) (c, false)).1, rfl, rfl, fun b _ => by
    dsimp only
    rw [foldl_range_succ]
    exact blockStep_spec ..⟩

-- Raw passes (R58)

theorem clampTo_40 (t : Int) : clampTo 40 t = max (-(2 ^ 39)) (min (2 ^ 39 - 1) t) := rfl

theorem rawElem_pass (ra : ARows) (bb : BBuf) (i j : Nat) (c : Int) : RawPass ra bb i j c (rawElem ra bb i j c).1 := by
  unfold rawElem
  refine ⟨fun n => ((List.range n).foldl _ (c, false)).1, rfl, rfl, fun k _ => ?_⟩
  dsimp only
  rw [foldl_range_succ, clampTo_40]

-- Every element of the accumulator

/-- An update of each of several elements by its own function of what stands there. -/
def SMap.update {α β : Type} [DecidableEq α] (d : α) (key : β → Nat) (f : β → α → α) (m : SMap α) (p : β) : SMap α :=
  m.put d (key p) (f p (m.get d (key p)))

theorem SMap.get_foldl_update {α β : Type} [DecidableEq α] (d : α) (key : β → Nat) (f : β → α → α) (ps : List β) (hnd : (ps.map key).Nodup)
    (m : SMap α) : (∀ p ∈ ps, (ps.foldl (SMap.update d key f) m).get d (key p) = f p (m.get d (key p))) ∧
      ∀ k, k ∉ ps.map key → (ps.foldl (SMap.update d key f) m).get d k = m.get d k := by
  induction ps generalizing m with
  | nil => exact ⟨fun _ h => absurd h List.not_mem_nil, fun _ _ => rfl⟩
  | cons a t ih =>
    rw [List.map_cons, List.nodup_cons] at hnd
    obtain ⟨hmem, hother⟩ := ih hnd.2 (SMap.update d key f m a)
    have hstep (k : Nat) (hk : k ≠ key a) : (SMap.update d key f m a).get d k = m.get d k := SMap.get_put_ne d m _ hk
    refine ⟨fun p hp => ?_, fun k hk => ?_⟩
    · rcases List.mem_cons.mp hp with rfl | hp
      · exact (hother _ hnd.1).trans (SMap.get_put_self d m _ _)
      · rw [List.foldl_cons, hmem p hp, hstep]
        exact fun h => hnd.1 (h ▸ List.mem_map_of_mem hp)
    · rw [List.map_cons, List.mem_cons, not_or] at hk
      rw [List.foldl_cons, hother k hk.2, hstep k hk.1]

/-- Where an element of the accumulator stands. -/
def elemKey (p : Nat × Nat) : Nat := p.1 * 512 + p.2

/-- The elements of a pass, row by row. -/
def passElems (rows : List Nat) : List (Nat × Nat) := rows ×ˢ List.range 512

theorem mem_passElems {rows : List Nat} {p : Nat × Nat} : p ∈ passElems rows ↔ p.1 ∈ rows ∧ p.2 < 512 := by
  rw [passElems, List.mem_product, List.mem_range]

theorem passElems_nodup {rows : List Nat} (h : rows.Nodup) : ((passElems rows).map elemKey).Nodup := by
  refine (h.product List.nodup_range).map_on fun p hp q hq heq => ?_
  have hp2 := (mem_passElems.mp hp).2
  have hq2 := (mem_passElems.mp hq).2
  unfold elemKey at heq
  exact Prod.ext (by omega) (by omega)

theorem elemKey_mem {rows : List Nat} {i j : Nat} (hj : j < 512) : i * 512 + j ∈ (passElems rows).map elemKey ↔ i ∈ rows := by
  refine ⟨fun h => ?_, fun h => List.mem_map.mpr ⟨(i, j), mem_passElems.mpr ⟨h, hj⟩, rfl⟩⟩
  obtain ⟨p, hp, heq⟩ := List.mem_map.mp h
  obtain ⟨hrow, hp2⟩ := mem_passElems.mp hp
  unfold elemKey at heq
  obtain rfl : p.1 = i := by omega
  exact hrow

/-- One element of a pass. -/
def Mxe.passElem (bb : BBuf) (bank : Bool) (ra : ARows) (p : Mxe × Bool) (x : Nat × Nat) : Mxe × Bool :=
  if p.1.raw then
    let r := rawElem ra bb x.1 x.2 (p.1.acRaw.get 0 (elemKey x))
    ({ p.1 with acRaw := p.1.acRaw.put 0 (elemKey x) r.1 }, p.2 || r.2)
  else
    let r := blockElem ra bb x.1 x.2 ((p.1.ac bank).get 0 (elemKey x))
    (p.1.setAc bank ((p.1.ac bank).put 0 (elemKey x) r.1), p.2 || r.2)

theorem Mxe.pass_eq (m : Mxe) (bb bank : Bool) (ra : ARows) : m.pass bb bank ra = (passElems ra.rows).foldl (Mxe.passElem (m.bb bb) bank ra) (m, false) := by
  unfold Mxe.pass passElems
  generalize (m, false) = p
  induction ra.rows generalizing p with
  | nil => rfl
  | cons i t ih =>
    rw [List.foldl_cons, ih, List.product_cons, List.foldl_append, List.foldl_map]
    rfl

@[simp] theorem Mxe.ac_setAc (m : Mxe) (n : Bool) (a : SMap Word) : (m.setAc n a).ac n = a := by cases n <;> rfl
@[simp] theorem Mxe.ac_setAc_not (m : Mxe) (n : Bool) (a : SMap Word) : (m.setAc n a).ac (!n) = m.ac (!n) := by cases n <;> rfl
@[simp] theorem Mxe.raw_setAc (m : Mxe) (n : Bool) (a : SMap Word) : (m.setAc n a).raw = m.raw := by cases n <;> rfl

/-- In block mode a pass updates the elements of its bank. -/
theorem Mxe.foldl_passElem_block (bb : BBuf) (bank : Bool) (ra : ARows) (ps : List (Nat × Nat)) (p : Mxe × Bool) (hraw : p.1.raw = false) :
    (ps.foldl (Mxe.passElem bb bank ra) p).1.ac (!bank) = p.1.ac (!bank) ∧
    (ps.foldl (Mxe.passElem bb bank ra) p).1.ac bank = ps.foldl (SMap.update 0 elemKey fun x c => (blockElem ra bb x.1 x.2 c).1) (p.1.ac bank) := by
  induction ps generalizing p with
  | nil => exact ⟨rfl, rfl⟩
  | cons x t ih =>
    have hstep : (Mxe.passElem bb bank ra p x).1 =
        p.1.setAc bank (SMap.update 0 elemKey (fun x c => (blockElem ra bb x.1 x.2 c).1) (p.1.ac bank) x) := by
      rw [Mxe.passElem, hraw]
      rfl
    obtain ⟨hother, hbank⟩ := ih (Mxe.passElem bb bank ra p x) (by rw [hstep, Mxe.raw_setAc, hraw])
    rw [List.foldl_cons, List.foldl_cons, hother, hbank, hstep, Mxe.ac_setAc, Mxe.ac_setAc_not]
    exact ⟨rfl, rfl⟩

/-- In raw mode a pass updates the elements of the raw bank. -/
theorem Mxe.foldl_passElem_raw (bb : BBuf) (bank : Bool) (ra : ARows) (ps : List (Nat × Nat)) (p : Mxe × Bool) (hraw : p.1.raw = true) :
    (ps.foldl (Mxe.passElem bb bank ra) p).1.acRaw = ps.foldl (SMap.update 0 elemKey fun x c => (rawElem ra bb x.1 x.2 c).1) p.1.acRaw := by
  induction ps generalizing p with
  | nil => rfl
  | cons x t ih =>
    have hstep : (Mxe.passElem bb bank ra p x).1 =
        { p.1 with acRaw := SMap.update 0 elemKey (fun x c => (rawElem ra bb x.1 x.2 c).1) p.1.acRaw x } := by
      rw [Mxe.passElem, hraw]
      rfl
    rw [List.foldl_cons, List.foldl_cons, ih _ (by rw [hstep, hraw]), hstep]

theorem Mxe.pass_block_other (m : Mxe) (bb bank : Bool) (ra : ARows) (hraw : m.raw = false) : (m.pass bb bank ra).1.ac (!bank) = m.ac (!bank) := by
  rw [Mxe.pass_eq, (Mxe.foldl_passElem_block _ bank ra _ (m, false) hraw).1]

section
variable (m : Mxe) (bb bank : Bool) {ra : ARows} (hrows : ra.rows.Nodup)
include hrows

theorem Mxe.pass_block (hraw : m.raw = false) {i j : Nat} (hj : j < 512) :
    (i ∈ ra.rows → BlockPass ra (m.bb bb) i j ((m.ac bank).get 0 (i * 512 + j)) (((m.pass bb bank ra).1.ac bank).get 0 (i * 512 + j))) ∧
    (i ∉ ra.rows → ((m.pass bb bank ra).1.ac bank).get 0 (i * 512 + j) = (m.ac bank).get 0 (i * 512 + j)) := by
  rw [Mxe.pass_eq, (Mxe.foldl_passElem_block _ bank ra _ (m, false) hraw).2]
  obtain ⟨hin, hout⟩ := SMap.get_foldl_update 0 elemKey (fun x c => (blockElem ra (m.bb bb) x.1 x.2 c).1) _ (passElems_nodup hrows) (m.ac bank)
  refine ⟨fun hi => ?_, fun hi => hout _ ((elemKey_mem hj).not.mpr hi)⟩
  rw [show i * 512 + j = elemKey (i, j) from rfl, hin _ (mem_passElems.mpr ⟨hi, hj⟩)]
  exact blockElem_pass ..

theorem Mxe.pass_raw (hraw : m.raw = true) {i j : Nat} (hj : j < 512) :
    (i ∈ ra.rows → RawPass ra (m.bb bb) i j (m.acRaw.get 0 (i * 512 + j)) ((m.pass bb bank ra).1.acRaw.get 0 (i * 512 + j))) ∧
    (i ∉ ra.rows → (m.pass bb bank ra).1.acRaw.get 0 (i * 512 + j) = m.acRaw.get 0 (i * 512 + j)) := by
  rw [Mxe.pass_eq, Mxe.foldl_passElem_raw _ bank ra _ (m, false) hraw]
  obtain ⟨hin, hout⟩ := SMap.get_foldl_update 0 elemKey (fun x c => (rawElem ra (m.bb bb) x.1 x.2 c).1) _ (passElems_nodup hrows) m.acRaw
  refine ⟨fun hi => ?_, fun hi => hout _ ((elemKey_mem hj).not.mpr hi)⟩
  rw [show i * 512 + j = elemKey (i, j) from rfl, hin _ (mem_passElems.mpr ⟨hi, hj⟩)]
  exact rawElem_pass ..

end

end Sys2Proof.Machine

/-! The completion of matrix commands (R56, R58, R171 to R176): the effect of each kind of command, and its end. -/

namespace Sys2Proof.Machine

open Sys2Proof.Safety

-- What an effect keeps

section
variable (s : State) (e : MxEntry) (bit : Nat) (on : Bool)

@[simp] theorem State.mxFlag_mxe (k : Nat) : (s.mxFlag e bit on).mxe k = s.mxe k := by cases on <;> simp [State.mxFlag]
@[simp] theorem State.mxFlag_cc : (s.mxFlag e bit on).cc = s.cc := by cases on <;> simp [State.mxFlag]
@[simp] theorem State.mxFlag_msys : (s.mxFlag e bit on).msys = s.msys := by cases on <;> simp [State.mxFlag]
@[simp] theorem State.mxFlag_spads : (s.mxFlag e bit on).spads = s.spads := by cases on <;> simp [State.mxFlag]

end

section
variable {s t : State} {cl : Nat} {e : MxEntry} (h : EffectKeeps s t cl e)
include h

theorem EffectKeeps.mxFlag (bit : Nat) (on : Bool) : EffectKeeps s (t.mxFlag e bit on) cl e :=
  ⟨by rw [State.mxFlag_cc, h.cc], by rw [State.mxFlag_mxe, h.table], by rw [State.mxFlag_mxe, h.late],
    noted_of_unnoted h.noted (noted_mxFlag t e bit on)⟩

theorem EffectKeeps.modMxe {f : Mxe → Mxe} (htable : ∀ m, (f m).table = m.table) (hlate : ∀ m, (f m).late = m.late) :
    EffectKeeps s (t.modMxe cl f) cl e :=
  ⟨h.cc, by rw [State.mxe_modMxe, htable, h.table], by rw [State.mxe_modMxe, hlate, h.late],
    noted_of_unnoted h.noted (noted_of_groups (State.modMxe_groups t cl f) e)⟩

end

-- Updates of an engine's buffers and banks

theorem Mxe.setBb_keeps (m : Mxe) (n : Bool) (b : BBuf) : (m.setBb n b).table = m.table ∧ (m.setBb n b).late = m.late ∧
    (m.setBb n b).bb n = b ∧ (m.setBb n b).bb (!n) = m.bb (!n) ∧ (m.setBb n b).ac0 = m.ac0 ∧ (m.setBb n b).ac1 = m.ac1 := by
  cases n <;> exact ⟨rfl, rfl, rfl, rfl, rfl, rfl⟩

@[simp] theorem Mxe.table_setAc (m : Mxe) (n : Bool) (a : SMap Word) : (m.setAc n a).table = m.table := by cases n <;> rfl
@[simp] theorem Mxe.late_setAc (m : Mxe) (n : Bool) (a : SMap Word) : (m.setAc n a).late = m.late := by cases n <;> rfl

theorem Mxe.zero_keeps (m : Mxe) (bank raw : Bool) : (m.zero bank raw).table = m.table ∧ (m.zero bank raw).late = m.late := by
  unfold Mxe.zero
  split
  · exact ⟨rfl, rfl⟩
  split
  · exact ⟨rfl, rfl⟩
  · simp

/-- The bank reads zero in the mode asked for, and where either mode is raw both banks do (R174). -/
theorem Mxe.zero_spec (m : Mxe) (bank raw : Bool) : (m.zero bank raw).raw = raw ∧ (m.zero bank raw).ac bank = [] ∧
    (m.raw = true ∨ raw = true → (m.zero bank raw).ac (!bank) = [] ∧ (m.zero bank raw).acRaw = []) ∧
    (m.raw = false → raw = false → (m.zero bank raw).ac (!bank) = m.ac (!bank)) := by
  unfold Mxe.zero
  split
  next h => cases bank <;> simp [h, Mxe.ac]
  split
  next h h' => cases bank <;> simp [h, h', Mxe.ac]
  next h h' => simp_all

/-- A raw or block bank made zero by a drain with Z (R173). -/
def Mxe.drained (bank : Bool) (m : Mxe) : Mxe := if m.raw then { m with acRaw := [] } else m.setAc bank []

theorem Mxe.drained_keeps (m : Mxe) (bank : Bool) : (m.drained bank).table = m.table ∧ (m.drained bank).late = m.late ∧ (m.drained bank).raw = m.raw := by
  unfold Mxe.drained
  split
  · exact ⟨rfl, rfl, rfl⟩
  · simp

theorem Mxe.drained_spec (m : Mxe) (bank : Bool) : if m.raw then (m.drained bank).acRaw = [] else (m.drained bank).ac bank = [] := by
  unfold Mxe.drained
  split
  · rfl
  · simp

-- The effect of each kind of command

section
variable {s s' : State} {cl : Nat} {e : MxEntry}

theorem State.mxEffect_zero {bank raw : Bool} (hkind : e.kind = .zero bank raw) : s.mxEffect cl e = (s.modMxe cl (·.zero bank raw), .ok ()) := by
  unfold State.mxEffect
  rw [hkind]

theorem State.mxEffect_mxb {ten : List Byte} {coord : Dword} {bb : Bool} {b : BBuf} (hkind : e.kind = .mxb ten coord bb)
    (hload : s.loadB e.acc (tenOf ten) coord = (s', .ok b)) : s.mxEffect cl e = (s'.modMxe cl (·.setBb bb b), .ok ()) := by
  unfold State.mxEffect
  rw [hkind]
  dsimp only
  rw [hload]

theorem State.mxEffect_mxb_of_error {ten : List Byte} {coord : Dword} {bb : Bool} {er : EngErr} (hkind : e.kind = .mxb ten coord bb)
    (hload : s.loadB e.acc (tenOf ten) coord = (s', .error er)) : s.mxEffect cl e = (s', .error er) := by
  unfold State.mxEffect
  simp only [hkind, hload]

/-- The engine with the accumulators of another. -/
def Mxe.withAcc (r q : Mxe) : Mxe := { q with ac0 := r.ac0, ac1 := r.ac1, acRaw := r.acRaw }

theorem Mxe.ac_withAcc (r q : Mxe) (n : Bool) : (r.withAcc q).ac n = r.ac n := by cases n <;> rfl

/-- The command is a pass, of rows in a tensor or in registers; `reg`: their width is 16 bits. -/
def MxKind.passOf (k : MxKind) (ten : List Byte) (bb bank : Bool) (reg : Option Bool) : Prop :=
  (∃ coord, k = .mxa ten coord bb bank ∧ reg = none) ∨ ∃ rowq w16 vb, k = .mxaReg ten rowq w16 vb bb bank ∧ reg = some w16

section
variable {ten : List Byte} {bb bank : Bool} {reg : Option Bool} (hkind : e.kind.passOf ten bb bank reg)
include hkind

theorem State.mxEffect_pass_of_not_ok (hok : (s.mxe cl).passOk (tenOf ten) bb reg = false) :
    s.mxEffect cl e = (s, .error (errOf .operandEncoding, 0)) := by
  unfold State.mxEffect
  rcases hkind with ⟨coord, hkind, rfl⟩ | ⟨rowq, w16, vb, hkind, rfl⟩ <;> simp only [hkind, hok, Bool.not_false, if_true]

variable (hok : (s.mxe cl).passOk (tenOf ten) bb reg = true)
include hok

theorem State.mxEffect_pass_of_error {er : EngErr} (hrows : s.passRows (s.mxe cl).raw e = (s', .error er)) : s.mxEffect cl e = (s', .error er) := by
  unfold State.mxEffect
  rcases hkind with ⟨coord, hkind, rfl⟩ | ⟨rowq, w16, vb, hkind, rfl⟩ <;> simp only [hkind, hok, hrows, Bool.not_true, Bool.false_eq_true, if_false]

theorem State.mxEffect_pass {reg' : Option Bool} {t0 : Ten} {ra : ARows} (hrows : s.passRows (s.mxe cl).raw e = (s', .ok (t0, reg', ra))) :
    s.mxEffect cl e =
      ((s'.modMxe cl ((s.mxe cl).pass bb bank ra).1.withAcc).mxFlag e (if (s.mxe cl).raw then 8 else 9) ((s.mxe cl).pass bb bank ra).2, .ok ()) := by
  unfold State.mxEffect
  rcases hkind with ⟨coord, hkind, rfl⟩ | ⟨rowq, w16, vb, hkind, rfl⟩ <;>
    simp only [hkind, hok, hrows, Bool.not_true, Bool.false_eq_true, if_false] <;> rfl

end

theorem State.mxEffect_drain {add bank z : Bool} {ten : List Byte} {coord : Dword} {sat : Bool} (hkind : e.kind = .drain add ten coord bank z)
    (hdrain : s.drainTile (s.mxe cl) e.acc (tenOf ten) coord add bank = (s', .ok sat)) : s.mxEffect cl e =
      (if z then (s'.mxFlag e 8 sat).modMxe cl (·.drained bank) else s'.mxFlag e 8 sat, .ok ()) := by
  unfold State.mxEffect
  rw [hkind]
  dsimp only
  rw [hdrain]
  rfl

theorem State.mxEffect_drain_of_error {add bank z : Bool} {ten : List Byte} {coord : Dword} {er : EngErr} (hkind : e.kind = .drain add ten coord bank z)
    (hdrain : s.drainTile (s.mxe cl) e.acc (tenOf ten) coord add bank = (s', .error er)) : s.mxEffect cl e = (s', .error er) := by
  unfold State.mxEffect
  simp only [hkind, hdrain]

theorem State.loadA_rows {raw : Bool} {a : EngAcc} {t : Ten} {coord : Dword} {r : ARows} (h : s.loadA raw a t coord = (s', .ok r)) :
    r.rows = List.range 256 := by
  unfold State.loadA at h
  generalize indexPairs 256 256 = ps at h
  dsimp only at h
  generalize allSteps _ s ps = p at h
  obtain ⟨s1, vs⟩ := p
  cases vs with
  | error er => cases h
  | ok vs =>
    dsimp only at h
    split at h
    · rw [← Except.ok.inj (Prod.mk.inj h).2]
    · generalize allSteps _ s1 _ = p at h
      obtain ⟨s2, ss⟩ := p
      cases ss with
      | error er => cases h
      | ok ss => rw [← Except.ok.inj (Prod.mk.inj h).2]

/-- The rows of a pass are different ones. -/
theorem State.passRows_nodup {raw : Bool} {t0 : Ten} {reg : Option Bool} {ra : ARows} (h : s.passRows raw e = (s', .ok (t0, reg, ra))) : ra.rows.Nodup := by
  unfold State.passRows at h
  cases hkind : e.kind with
  | mxa ten coord bb bank =>
    rw [hkind] at h
    dsimp only at h
    cases hload : s.loadA raw e.acc (tenOf ten) coord with
    | mk s1 r =>
      rw [hload] at h
      cases r with
      | error er => cases h
      | ok r =>
        cases h
        exact State.loadA_rows hload ▸ List.nodup_range
  | mxaReg ten rowq w16 vb bb bank =>
    rw [hkind] at h
    dsimp only at h
    cases hg : s.group? e.gid with
    | none =>
      rw [hg] at h
      cases h
      exact List.nodup_nil
    | some g =>
      rw [hg] at h
      cases h
      exact List.nodup_range.map fun a b hab => Nat.add_left_cancel hab
  | _ =>
    rw [hkind] at h
    cases h

/-- An effect fails where its accesses `p` do, in the state that they leave. -/
theorem SameEngines.of_failed {α : Type} {p : State × Except EngErr α} {effect : State × Except EngErr Unit} {er : EngErr} (hsame : SameEngines s p.1)
    (herror : ∀ {s1 er'}, p = (s1, .error er') → effect = (s1, .error er')) (hok : ∀ {s1 a}, p = (s1, .ok a) → effect.2 = .ok ())
    (h : effect = (s', .error er)) : SameEngines s s' := by
  obtain ⟨s1, r⟩ := p
  cases r with
  | error er' =>
    obtain rfl := congrArg Prod.fst ((herror rfl).symm.trans h)
    exact hsame
  | ok a => exact absurd ((hok rfl).symm.trans (congrArg Prod.snd h)) (by simp)

/-- An effect that fails leaves the groups, the clock and the engines alone. -/
theorem SameEngines.mxEffect_error {er : EngErr} (h : s.mxEffect cl e = (s', .error er)) : SameEngines s s' := by
  have hpass {ten : List Byte} {bb bank : Bool} {reg : Option Bool} (hkind : e.kind.passOf ten bb bank reg) : SameEngines s s' := by
    cases hok : (s.mxe cl).passOk (tenOf ten) bb reg with
    | true =>
      exact of_failed (passRows s (s.mxe cl).raw e) (fun hrows => State.mxEffect_pass_of_error hkind hok hrows)
        (fun hrows => congrArg Prod.snd (State.mxEffect_pass hkind hok hrows)) h
    | false =>
      obtain rfl := congrArg Prod.fst ((State.mxEffect_pass_of_not_ok hkind hok).symm.trans h)
      exact refl s
  cases hkind : e.kind with
  | zero bank raw => exact absurd ((State.mxEffect_zero hkind).symm.trans h) (by simp)
  | mxa ten coord bb bank => exact hpass (.inl ⟨coord, hkind, rfl⟩)
  | mxaReg ten rowq w16 vb bb bank => exact hpass (.inr ⟨rowq, w16, vb, hkind, rfl⟩)
  | mxb ten coord bb =>
    exact of_failed (loadB s e.acc (tenOf ten) coord) (fun hload => State.mxEffect_mxb_of_error hkind hload)
      (fun hload => congrArg Prod.snd (State.mxEffect_mxb hkind hload)) h
  | drain add ten coord bank z =>
    exact of_failed (drainTile s (s.mxe cl) e.acc (tenOf ten) coord add bank) (fun hdrain => State.mxEffect_drain_of_error hkind hdrain)
      (fun hdrain => congrArg Prod.snd (State.mxEffect_drain hkind hdrain)) h

end

/-- Settles O30: the effect of a command is that of its kind, and what the engine, the group and the memory hold after it and after its end is read off. -/
theorem matrixCommandsComplete : Obligations.MatrixCommandsComplete := by
  intro s cl id e hdue
  refine ⟨fun hread => ?read, fun hread => ⟨fun bank raw hkind => ?zero, fun ten coord bb s' b hkind hload => ?mxb,
    fun ten bb bank reg s' t0 reg' ra hkind hok hrows => ?pass, fun add ten coord bank z s' sat hkind hdrain => ?drain, fun s' er va heff hdrain => ?fails⟩⟩
  case read =>
    obtain ⟨hbanks, hmsys, hspads⟩ := s.mxFinish_onlyTable cl e
    exact ⟨_, congrArg Host.Outcome.next (State.mxComplete_of_read hdue hread), commandEnds_mxFinish s cl e,
      ⟨hbanks.ac0, hbanks.ac1, hbanks.acRaw, hbanks.bb0, hbanks.bb1, hbanks.raw⟩, hmsys, hspads⟩
  case zero =>
    have hkeeps := ((SameEngines.refl s).effectKeeps cl e).modMxe (fun m => (m.zero_keeps bank raw).1) fun m => (m.zero_keeps bank raw).2
    refine completes_of_ok hdue hread (State.mxEffect_zero hkind) hkeeps fun t hmade honly => ⟨hmade, ?_⟩
    have hbanks := honly.banks
    rw [State.mxe_modMxe] at hbanks
    rw [hbanks.raw, hbanks.ac, hbanks.ac, hbanks.acRaw]
    exact Mxe.zero_spec ..
  case mxb =>
    have hsame := hload ▸ SameEngines.loadB s e.acc (tenOf ten) coord
    have hkeeps := (hsame.effectKeeps cl e).modMxe (fun m => (m.setBb_keeps bb b).1) fun m => (m.setBb_keeps bb b).2.1
    refine completes_of_ok hdue hread (State.mxEffect_mxb hkind hload) hkeeps fun t hmade honly => ⟨hmade, ?_⟩
    have hbanks := honly.banks
    rw [State.mxe_modMxe, hsame.mxe] at hbanks
    rw [hbanks.bb, hbanks.bb, hbanks.ac0, hbanks.ac1]
    exact ((s.mxe cl).setBb_keeps bb b).2.2
  case pass =>
    have hsame := hrows ▸ SameEngines.passRows s (s.mxe cl).raw e
    have hnodup := State.passRows_nodup hrows
    have hkeeps := ((hsame.effectKeeps cl e).modMxe (f := ((s.mxe cl).pass bb bank ra).1.withAcc) (fun _ => rfl) fun _ => rfl).mxFlag
      (if (s.mxe cl).raw then 8 else 9) ((s.mxe cl).pass bb bank ra).2
    refine completes_of_ok hdue hread (State.mxEffect_pass hkind hok hrows) hkeeps fun t hmade honly => ⟨hmade, ?_⟩
    have hbanks := honly.banks
    rw [State.mxFlag_mxe, State.mxe_modMxe, hsame.mxe] at hbanks
    rw [hbanks.raw, hbanks.ac, hbanks.ac, hbanks.acRaw, Mxe.ac_withAcc, Mxe.ac_withAcc]
    exact ⟨rfl, fun hraw => ⟨Mxe.pass_block_other _ _ _ _ hraw, fun i j hj => Mxe.pass_block _ _ _ hnodup hraw hj⟩,
      fun hraw i j hj => Mxe.pass_raw _ _ _ hnodup hraw hj⟩
  case drain =>
    have hsame := hdrain ▸ SameEngines.drainTile s (s.mxe cl) e.acc (tenOf ten) coord add bank
    have hflag := (hsame.effectKeeps cl e).mxFlag 8 sat
    have hkeeps : EffectKeeps s (if z then (s'.mxFlag e 8 sat).modMxe cl (·.drained bank) else s'.mxFlag e 8 sat) cl e := by
      split
      · exact hflag.modMxe (fun m => (m.drained_keeps bank).1) fun m => (m.drained_keeps bank).2.1
      · exact hflag
    refine completes_of_ok hdue hread (State.mxEffect_drain hkind hdrain) hkeeps fun t hmade honly => ⟨hmade, ?_⟩
    obtain ⟨hbanks, hmsys, hspads⟩ := honly
    rw [hmsys, hspads, hbanks.raw, hbanks.ac, hbanks.acRaw]
    cases z with
    | true =>
      simp only [if_true, State.modMxe_msys, State.modMxe_spads, State.mxe_modMxe, State.mxFlag_msys, State.mxFlag_spads, State.mxFlag_mxe, hsame.mxe]
      exact ⟨trivial, trivial, ((s.mxe cl).drained_keeps bank).2.2, fun _ => (s.mxe cl).drained_spec bank⟩
    | false => simp [hsame.mxe]
  case fails =>
    have hsame := SameEngines.mxEffect_error heff
    have hkeeps := hsame.effectKeeps cl e
    refine ⟨_, congrArg Host.Outcome.next (State.mxComplete_of_error hdue hread heff hdrain hkeeps.cc), commandEnds_of_error hkeeps _, ?_⟩
    generalize (if er.cause = .pageNotPresent then Cause.permission else er.cause) = c
    have hbanks := (State.mxFinish_onlyTable (s'.modEntry cl e.id (·.failed c s.cc)) cl (e.failed c s.cc)).banks
    rw [State.modEntry, State.mxe_modMxe, hsame.mxe] at hbanks
    exact ⟨hbanks.ac0, hbanks.ac1, hbanks.acRaw, hbanks.bb0, hbanks.bb1, hbanks.raw⟩

end Sys2Proof.Machine

/-! The fields of a word and the codes of R63, R69 and R79 read back as they were written. -/

namespace Sys2Proof

open Sys2Proof.Safety

-- Fields of a quad

theorem extractLsb'_setWidth_of_width_le {w k s n : Nat} (x : BitVec w) (h : w ≤ s) : (x.setWidth k).extractLsb' s n = 0#n := by
  ext i hi
  simp [BitVec.getLsbD_of_ge x (s + i) (by omega)]

theorem setWidth_extractLsb'_of_high_eq_zero (x : BitVec 64) (h : x.extractLsb' 32 32 = 0#32) : (x.extractLsb' 0 32).setWidth 64 = x := by
  have h' := congrArg BitVec.toNat h
  apply BitVec.eq_of_toNat_eq
  simp only [BitVec.toNat_setWidth, BitVec.extractLsb'_toNat, BitVec.toNat_ofNat, Nat.shiftRight_eq_div_pow] at h' ⊢
  omega

/-- Bits of EXT beyond the instruction's length are zero (R59). -/
def Raw.extFits (r : Raw) : Prop :=
  match r.len with
  | .w64 => r.ext = 0#64
  | .w96 => r.ext.extractLsb' 32 32 = 0#32
  | .w128 => True

theorem Raw.extFits_of_ext_eq_zero {r : Raw} (h : r.ext = 0#64) : r.extFits := by
  unfold Raw.extFits
  cases r.len with
  | w64 => exact h
  | w96 => rw [h]; rfl
  | w128 => trivial

theorem Raw.lenOf_pack (r : Raw) : lenOf (r.pack.extractLsb' 0 32) = some r.len := by
  have h : (r.pack.extractLsb' 0 32).extractLsb' 0 2 = r.len.bits := by
    unfold Raw.pack
    rw [BitVec.extractLsb'_extractLsb'_of_le (by decide)]
    simp (disch := decide) only [BitVec.extractLsb'_append_eq_of_add_le, BitVec.extractLsb'_eq_self]
  rw [lenOf, h]
  cases r.len <;> rfl

theorem Raw.unpack_pack {r : Raw} (hx : r.extFits) : Raw.unpack r.len r.pack = r := by
  obtain ⟨len, u, op, gp, gn, d, a, b, cls, ext⟩ := r
  unfold Raw.unpack Raw.pack
  simp (disch := decide) only [BitVec.getLsbD_append, BitVec.extractLsb'_append_eq_of_add_le, BitVec.extractLsb'_append_eq_of_le,
    BitVec.extractLsb'_eq_self, Nat.reduceSub, Nat.reduceLT, if_true, if_false, BitVec.getLsbD_ofBool]
  cases len with
  | w64 => simp [show ext = 0#64 from hx]
  | w96 => simp [setWidth_extractLsb'_of_high_eq_zero ext hx]
  | w128 => simp

-- Codes read back

theorem Reg.ofCode_code (r : Reg) : Reg.ofCode r.code = some r := by
  cases r with
  | v n | o n | l n | s n | p n =>
    have := n.isLt
    unfold Reg.code Reg.ofCode
    rw [BitVec.toNat_ofNat, Nat.mod_eq_of_lt (by omega)]
    dsimp only
    repeat rw [dif_neg (by omega)]
    split
    · simp
    · omega
  | zero | lane | widlo | widhi => decide

theorem Ty.ofCode_code (t : Ty) : Ty.ofCode t.code = some t := by cases t <;> rfl

theorem Rnd.ofCode_code (m : Rnd) : Rnd.ofCode m.code = m := by cases m <;> rfl

theorem Size.ofCode_code (z : Size) : Size.ofCode z.code = some z := by cases z <;> rfl

theorem Scope.ofCode_code (c : Scope) : Scope.ofCode c.code = some c := by cases c <;> rfl

theorem Order.ofCode_code (o : Order) : Order.ofCode o.code = o := by cases o <;> rfl

theorem TlbKind.ofCode_code (k : TlbKind) : TlbKind.ofCode k.code = k := by cases k <;> rfl

theorem StKind.ofCode_code (k : StKind) : StKind.ofCode k.code = k := by cases k <;> rfl

-- Operands read back

theorem Pos.read_code {u : Bool} {p : Pos} {r : Reg} (h : p.ok u r = true) : p.read u r.code = .ok r := by
  simp [Pos.read, Reg.ofCode_code, h]

theorem Pos.readOpt_codeOpt {u : Bool} {p : Option Pos} {r : Option Reg} (h : Pos.okOpt u p r = true) : Pos.readOpt u p (Reg.codeOpt r) = .ok r := by
  cases p <;> cases r
  case none.none => rfl
  case some.some p r => simp [Pos.readOpt, Reg.codeOpt, Pos.read_code (show p.ok u r = true from h), Except.map]
  all_goals cases h

theorem requireZero_zero : requireZero 0#9 = .ok () := rfl

/-- The three operand fields of a raw form read back as the registers that stand in them. -/
theorem Raw.regs_raw {h : Hdr} {op : BitVec 10} {cls : BitVec 20} {ext : BitVec 64} {pd pa pb : Option Pos} {d a b : Option Reg}
    {k : Option Reg → Option Reg → Option Reg → Option Instr} {i : Instr}
    (hd : Pos.okOpt h.u pd d = true) (ha : Pos.okOpt h.u pa a = true) (hb : Pos.okOpt h.u pb b = true) (hk : k d a b = some i) :
    (h.raw op (Reg.codeOpt d) (Reg.codeOpt a) (Reg.codeOpt b) cls ext).regs pd pa pb k = .ok i := by
  unfold Raw.regs Hdr.raw
  simp [Pos.readOpt_codeOpt hd, Pos.readOpt_codeOpt ha, Pos.readOpt_codeOpt hb, hk, bind, Except.bind, pure, Except.pure]

-- The instruction that a raw form decodes to

/-- The opcodes of R86 with their decoders. -/
def operations : List (Nat × (Raw → Except Reject Instr)) := opTable1 ++ opTable2 ++ opTable3 ++ opTable4

theorem Hdr.gp_eq_seven_iff (h : Hdr) : BitVec.ofFin h.gp = 7#3 ↔ h.gp = 7 := by
  rw [← BitVec.toFin_inj]
  rfl

theorem decodeRaw_raw {h : Hdr} {op : BitVec 10} {d a b : BitVec 9} {cls : BitVec 20} {ext : BitVec 64} {x : Except Reject Instr}
    (hg : h.nopGuard = false) (ho : opFind operations op.toNat (h.raw op d a b cls ext) = some x) : decodeRaw (h.raw op d a b cls ext) = x := by
  have hn : ¬ (BitVec.ofFin h.gp = 7#3 ∧ h.gn = true) := by
    rw [Hdr.gp_eq_seven_iff]
    simpa [Hdr.nopGuard] using hg
  unfold decodeRaw
  refine (if_neg hn).trans ?_
  have ho' : opFind (opTable1 ++ opTable2 ++ opTable3 ++ opTable4) (h.raw op d a b cls ext).op.toNat (h.raw op d a b cls ext) = some x := ho
  rw [ho']

theorem readsBack_of_decodeRaw {i : Instr} {r : Raw} (he : encodeRaw i = some r) (hd : i.wf = true → r.extFits ∧ decodeRaw r = .ok i) :
    ReadsBack i := by
  intro hw
  obtain ⟨hx, hd⟩ := hd hw
  refine ⟨r.pack, by simp [encode, he], r.hdr, by simp [Instr.hdr, he], ?_⟩
  unfold decodeQuad
  rw [Raw.lenOf_pack]
  dsimp only
  rw [Raw.unpack_pack hx, hd]
  rfl

/-- An instruction reads back when the decoder of its opcode reads it from its raw form. -/
theorem readsBack_of_decoder {i : Instr} {h : Hdr} {op : BitVec 10} {d a b : BitVec 9} {cls : BitVec 20} {ext : BitVec 64}
    {f : Raw → Except Reject Instr} (he : encodeRaw i = some (h.raw op d a b cls ext)) (hw : i.wf = (wfA i && wfB i && !h.nopGuard))
    (hf : ∀ r, opFind operations op.toNat r = some (f r))
    (hd : wfA i = true → wfB i = true → (h.raw op d a b cls ext).extFits ∧ f (h.raw op d a b cls ext) = .ok i) : ReadsBack i := by
  refine readsBack_of_decodeRaw he fun hwf => ?_
  simp only [hw, Bool.and_eq_true, Bool.not_eq_true'] at hwf
  obtain ⟨⟨hA, hB⟩, hg⟩ := hwf
  obtain ⟨hx, hi⟩ := hd hA hB
  exact ⟨hx, (decodeRaw_raw hg (hf _)).trans hi⟩

end Sys2Proof

/-! The shapes of R65 and R78 to R84, and the encodings of control and computing instructions. -/

namespace Sys2Proof

open Sys2Proof.Safety

-- Shape ARITH (R78 to R81)

@[simp] theorem Src.code_reg (r : Reg) : (Src.reg r).code = r.code := rfl

@[simp] theorem Src.code_none : Src.none.code = 0#9 := rfl

theorem Last.field_code {u : Bool} {p : Pos} {y : Src} (h : y.ok u p true = true) : y.last.field u p y.code = .ok y := by
  cases y with
  | reg r => simp [Last.field, Src.last, Src.code, Pos.read_code (show p.ok u r = true from h), Except.map]
  | none => cases h
  | imm7 v | imm32 v | imm64 v => rfl

theorem Last.src_read_ext {u : Bool} {p : Pos} {y : Src} (h : y.ok u p true = true) :
    y.last.src (p.read u ((y.last.ext y.code).extractLsb' 0 9)) = .ok y := by
  cases y with
  | reg r =>
    simp [Last.src, Src.last, Last.ext, Src.code, BitVec.extractLsb'_setWidth_of_le, Pos.read_code (show p.ok u r = true from h), Except.map]
  | none => cases h
  | imm7 v | imm32 v | imm64 v => rfl

/-- A source that is not the last is a register of its position. -/
theorem Src.exists_reg {u : Bool} {p : Pos} {y : Src} (h : y.ok u p false = true) : ∃ r, y = .reg r ∧ p.ok u r = true := by
  cases y <;> simp_all [Src.ok]

section
variable {op : BitVec 10} {n : Nat} {h : Hdr} {x : Arith}

theorem encodeArith_cls : let r := encodeArith op n h x; let l := (x.lastSrc n).last
    r.cls.extractLsb' 15 5 = x.ty.code ∧ r.cls.extractLsb' 13 2 = x.rnd.code ∧ r.cls.getLsbD 12 = x.sat ∧ r.cls.getLsbD 11 = (l != .reg) ∧
    r.cls.extractLsb' 7 4 = x.sub ∧ r.cls.extractLsb' 0 7 = l.imm7Field := by
  intro r l
  simp (disch := decide) only [r, l, encodeArith, Hdr.raw, BitVec.getLsbD_append, BitVec.extractLsb'_append_eq_of_add_le, BitVec.extractLsb'_append_eq_of_le,
    BitVec.extractLsb'_eq_self, Nat.reduceSub, Nat.reduceLT, if_true, if_false, BitVec.getLsbD_ofBool]
  simp

theorem Raw.last_encodeArith {k : Nat} (hl : Last.lenOk k h.len (x.lastSrc n).last = true) :
    (encodeArith op n h x).last = some (x.lastSrc n).last := by
  obtain ⟨-, -, -, him, -, hi7⟩ := encodeArith_cls (op := op) (n := n) (h := h) (x := x)
  have hlen : (encodeArith op n h x).len = h.len := rfl
  have hext : (encodeArith op n h x).ext = (x.lastSrc n).last.ext x.c.code := rfl
  unfold Raw.last
  rw [him, hi7, hlen, hext]
  generalize (x.lastSrc n).last = l at hl
  generalize h.len = len at hl
  cases l with
  | reg => simp [Last.imm7Field, Last.ext, extractLsb'_setWidth_of_width_le]
  | imm7 v =>
    cases len with
    | w64 => rfl
    | w96 | w128 => cases hl
  | imm32 v =>
    cases len with
    | w96 => simp [show (Last.imm32 v != .reg) = true from rfl, Last.imm7Field, Last.ext, BitVec.extractLsb'_setWidth_of_le]
    | w64 | w128 => cases hl
  | imm64 v =>
    cases len with
    | w128 => rfl
    | w64 | w96 => cases hl

theorem extFits_encodeArith {k : Nat} (hl : Last.lenOk k h.len (x.lastSrc n).last = true) (hc : k ≤ 2 → x.c.code = 0#9) :
    (encodeArith op n h x).extFits := by
  have hlen : (encodeArith op n h x).len = h.len := rfl
  have hext : (encodeArith op n h x).ext = (x.lastSrc n).last.ext x.c.code := rfl
  unfold Raw.extFits
  rw [hlen, hext]
  generalize (x.lastSrc n).last = l at hl
  cases l <;> cases hh : h.len <;> simp_all [Last.lenOk, Last.ext, extractLsb'_setWidth_of_width_le]

/-- The sources of an instruction read back, and a C that its positions do not name is absent. -/
theorem arithSrcs_encodeArith {ps : List Pos} (hs : x.srcsOk h.u ps = true) (hn : ps.length = n) :
    arithSrcs h.u ps (x.lastSrc n).last (encodeArith op n h x) = .ok (x.a, x.b, x.c) ∧ (n ≤ 2 → x.c.code = 0#9) := by
  subst hn
  match ps with
  | [] => cases hs
  | [pa] =>
    simp only [Arith.srcsOk, Bool.and_eq_true, beq_iff_eq] at hs
    obtain ⟨⟨ha, hb⟩, hc⟩ := hs
    have ha' : x.a.last.field h.u pa x.a.code = .ok x.a := Last.field_code ha
    refine ⟨?_, fun _ => by rw [hc]; rfl⟩
    simp [arithSrcs, encodeArith, Hdr.raw, Arith.lastSrc, ha', hb, hc, requireZero, bind, Except.bind, pure, Except.pure]
  | [pa, pb] =>
    simp only [Arith.srcsOk, Bool.and_eq_true, beq_iff_eq] at hs
    obtain ⟨⟨ha, hb⟩, hc⟩ := hs
    obtain ⟨a, ha, hra⟩ := Src.exists_reg ha
    have hb' : x.b.last.field h.u pb x.b.code = .ok x.b := Last.field_code hb
    refine ⟨?_, fun _ => by rw [hc]; rfl⟩
    simp [arithSrcs, encodeArith, Hdr.raw, Arith.lastSrc, ha, Pos.read_code hra, hb', hc, bind, Except.bind, pure, Except.pure]
  | [pa, pb, pc] =>
    simp only [Arith.srcsOk, Bool.and_eq_true] at hs
    obtain ⟨⟨ha, hb⟩, hc⟩ := hs
    obtain ⟨a, ha, hra⟩ := Src.exists_reg ha
    obtain ⟨b, hb, hrb⟩ := Src.exists_reg hb
    have hc' : x.c.last.src (pc.read h.u (x.c.last.ext x.c.code |>.extractLsb' 0 9)) = .ok x.c := Last.src_read_ext hc
    refine ⟨?_, fun h3 => absurd h3 (Nat.lt_irrefl 2)⟩
    simp [arithSrcs, encodeArith, Hdr.raw, Arith.lastSrc, ha, hb, Pos.read_code hra, Pos.read_code hrb, hc', bind, Except.bind, pure, Except.pure]
  | _ :: _ :: _ :: _ :: _ => cases hs

theorem decodeArith_encodeArith {sp : ArithSpec} {mk : Hdr → Arith → Instr} (hn : (sp.srcs x.ty).length = n) (hw : sp.wf h x = true) :
    (encodeArith op n h x).extFits ∧ decodeArith sp mk (encodeArith op n h x) = .ok (mk h x) := by
  simp only [ArithSpec.wf, hn, Bool.and_eq_true] at hw
  obtain ⟨⟨⟨h64, hmod⟩, hd⟩, hs⟩ := hw
  have hl : Last.lenOk n h.len (x.lastSrc n).last = true := by
    simp only [ArithSpec.modOk, Bool.and_eq_true, hn] at hmod
    obtain ⟨⟨⟨-, hl⟩, -⟩, -⟩ := hmod
    exact hl
  obtain ⟨hty, hrnd, hsat, -, hsub, -⟩ := encodeArith_cls (op := op) (n := n) (h := h) (x := x)
  obtain ⟨hsrc, hc⟩ := arithSrcs_encodeArith (op := op) hs hn
  refine ⟨extFits_encodeArith hl hc, ?_⟩
  have hlen : (encodeArith op n h x).len = h.len := rfl
  have hu : (encodeArith op n h x).u = h.u := rfl
  have hdc : (encodeArith op n h x).d = x.d.code := rfl
  have hh : (encodeArith op n h x).hdr = h := rfl
  unfold decodeArith
  have hno : ¬ (sp.only64 && h.len != .w64) = true := by cases hs : sp.only64 <;> simp_all
  simp only [hty, hrnd, hsat, hsub, Raw.last_encodeArith hl, Ty.ofCode_code, Rnd.ofCode_code, hlen, hu, hdc, hh, hmod, if_true,
    if_neg hno, Pos.read_code hd, hsrc, bind, Except.bind, pure, Except.pure]
end

/-- An instruction of shape ARITH reads back. -/
theorem readsBack_of_arith {sp : ArithSpec} {mk : Hdr → Arith → Instr} {op : BitVec 10} {n : Nat} {h : Hdr} {x : Arith}
    (he : encodeRaw (mk h x) = some (encodeArith op n h x)) (hw : (mk h x).wf = (wfA (mk h x) && wfB (mk h x) && !h.nopGuard))
    (hA : wfA (mk h x) = sp.wf h x) (hf : ∀ r, opFind operations op.toNat r = some (decodeArith sp mk r))
    (hn : ∀ t, (sp.srcs t).length = n) : ReadsBack (mk h x) :=
  readsBack_of_decoder he hw hf fun ha _ => decodeArith_encodeArith (hn x.ty) (hA ▸ ha)


-- cvt and cvpk (R135 to R137)

section
variable {op : BitVec 10} {h : Hdr} {x : Cvt}

theorem encodeCvt_cls : let r := encodeCvt op h x
    r.cls.extractLsb' 15 5 = x.dty.code ∧ r.cls.extractLsb' 13 2 = x.rnd.code ∧ r.cls.getLsbD 12 = false ∧
    r.cls.getLsbD 11 = (x.b.last != .reg) ∧ r.cls.extractLsb' 7 4 = x.elem ∧ r.cls.extractLsb' 5 2 = 0#2 ∧ r.cls.extractLsb' 0 5 = x.sty.code := by
  intro r
  simp (disch := decide) only [r, encodeCvt, Hdr.raw, BitVec.getLsbD_append, BitVec.extractLsb'_append_eq_of_add_le, BitVec.extractLsb'_append_eq_of_le,
    BitVec.extractLsb'_eq_self, Nat.reduceSub, Nat.reduceLT, if_false, BitVec.getLsbD_ofBool]
  simp

/-- The last sources that go with the length of `cvt` and `cvpk` (R80, R137). -/
def Cvt.lastFits (len : Len) (l : Last) : Prop := l = .reg ∨ (∃ v, len = .w96 ∧ l = .imm32 v) ∨ ∃ v, len = .w128 ∧ l = .imm64 v

theorem Cvt.lastFits_of_cvpkModOk {len : Len} {d s : Ty} {m : Rnd} {e : BitVec 4} {l : Last} (h : cvpkModOk len d s m e l = true) :
    Cvt.lastFits len l := by
  simp only [cvpkModOk, Bool.and_eq_true] at h
  obtain ⟨-, h⟩ := h
  cases l with
  | reg => exact .inl rfl
  | imm7 v => cases len <;> cases h
  | imm32 v =>
    cases len with
    | w96 => exact .inr (.inl ⟨v, rfl, rfl⟩)
    | w64 | w128 => cases h
  | imm64 v =>
    cases len with
    | w128 => exact .inr (.inr ⟨v, rfl, rfl⟩)
    | w64 | w96 => cases h

theorem encodeCvt_last (hl : Cvt.lastFits h.len x.b.last) : (encodeCvt op h x).extFits ∧ (encodeCvt op h x).lastCvt = some x.b.last := by
  obtain ⟨-, -, -, him, -, -, -⟩ := encodeCvt_cls (op := op) (h := h) (x := x)
  have hlen : (encodeCvt op h x).len = h.len := rfl
  have hext : (encodeCvt op h x).ext = x.b.last.ext 0#9 := rfl
  unfold Raw.lastCvt
  rw [him]
  rcases hl with hl | ⟨v, hw, hl⟩ | ⟨v, hw, hl⟩
  · rw [hl] at hext ⊢
    exact ⟨Raw.extFits_of_ext_eq_zero hext, by rw [hext]; rfl⟩
  · unfold Raw.extFits
    rw [hext, hl, hlen, hw]
    refine ⟨extractLsb'_setWidth_of_width_le v (Nat.le_refl 32), ?_⟩
    simp [show (Last.imm32 v != .reg) = true from rfl, Last.ext, BitVec.extractLsb'_setWidth_of_le]
  · unfold Raw.extFits
    rw [hext, hl, hlen, hw]
    exact ⟨trivial, rfl⟩

theorem decodeCvt_encodeCvt {pk : Bool} (hw : x.wf pk h = true) :
    (encodeCvt op h x).extFits ∧ decodeCvt pk (encodeCvt op h x) = .ok (if pk then .cvpk h x else .cvt h x) := by
  simp only [Cvt.wf, Bool.and_eq_true] at hw
  obtain ⟨⟨⟨hm, hd⟩, ha⟩, hb⟩ := hw
  obtain ⟨a, ha, hra⟩ := Src.exists_reg ha
  obtain ⟨hdty, hrnd, h12, -, helem, h5, hsty⟩ := encodeCvt_cls (op := op) (h := h) (x := x)
  have hlen : (encodeCvt op h x).len = h.len := rfl
  have hu : (encodeCvt op h x).u = h.u := rfl
  have hdc : (encodeCvt op h x).d = x.d.code := rfl
  have hac : (encodeCvt op h x).a = a.code := congrArg Src.code ha
  have hbc : (encodeCvt op h x).b = x.b.code := rfl
  have hh : (encodeCvt op h x).hdr = h := rfl
  cases pk with
  | true =>
    rw [if_pos rfl] at hb hm
    obtain ⟨hx, hlast⟩ := encodeCvt_last (op := op) (Cvt.lastFits_of_cvpkModOk hm)
    refine ⟨hx, ?_⟩
    unfold decodeCvt
    simp only [hdty, hrnd, h12, helem, h5, hsty, hlast, Ty.ofCode_code, Rnd.ofCode_code, hlen, hm, hu, hdc, hac, hbc, hh, Pos.read_code hd,
      Pos.read_code hra, Last.field_code hb, ← ha, if_true, and_self, bind, Except.bind, pure, Except.pure]
  | false =>
    simp only [Bool.false_eq_true, if_false, beq_iff_eq] at hb hm
    have hlr : x.b.last = .reg := by rw [hb]; rfl
    obtain ⟨hx, hlast⟩ := encodeCvt_last (op := op) (h := h) (x := x) (.inl hlr)
    have hb0 : x.b.code = 0#9 := by rw [hb]; rfl
    refine ⟨hx, ?_⟩
    unfold decodeCvt
    simp only [hdty, hrnd, h12, helem, h5, hsty, hlast, hlr, Ty.ofCode_code, Rnd.ofCode_code, hlen, hm, hu, hdc, hac, hbc, hb0, hh, Pos.read_code hd,
      Pos.read_code hra, requireZero_zero, ← ha, ← hb, Bool.false_eq_true, if_true, if_false, BEq.rfl, Bool.true_and, and_self, Except.map, bind, Except.bind, pure, Except.pure]
end

theorem readsBack_of_cvt {pk : Bool} {op : BitVec 10} {h : Hdr} {x : Cvt} (he : encodeRaw (if pk then .cvpk h x else .cvt h x) = some (encodeCvt op h x))
    (hf : ∀ r, opFind operations op.toNat r = some (decodeCvt pk r)) : ReadsBack (if pk then .cvpk h x else .cvt h x) := by
  cases pk with
  | true => exact readsBack_of_decoder he rfl hf fun ha _ => decodeCvt_encodeCvt (pk := true) ha
  | false => exact readsBack_of_decoder he rfl hf fun ha _ => decodeCvt_encodeCvt (pk := false) ha

-- Shape OWN (R65, R88)

theorem own_of_legal {r : Raw} {m : Bool} {k : Except Reject Instr} (hl : r.len = .w64) (hm : m = true) : own r m k = k := by
  simp [own, hl, hm]

@[simp] theorem Hdr.w64_eq_true (h : Hdr) : h.w64 = true ↔ h.len = .w64 := by simp [Hdr.w64]

@[simp] theorem Hdr.w64n_eq_true (h : Hdr) : h.w64n = true ↔ h.len = .w64 ∧ h.u = false := by simp [Hdr.w64n]

@[simp] theorem Pos.okOpt_some_some (u : Bool) (p : Pos) (r : Reg) : Pos.okOpt u (some p) (some r) = p.ok u r := rfl

@[simp] theorem Pos.okOpt_none_none (u : Bool) : Pos.okOpt u none none = true := rfl

section
variable (h : Hdr) (op : BitVec 10) (d a b : BitVec 9) (cls : BitVec 20) (ext : BitVec 64)

@[simp] theorem Hdr.raw_hdr : (h.raw op d a b cls ext).hdr = h := rfl
@[simp] theorem Hdr.raw_len : (h.raw op d a b cls ext).len = h.len := rfl
@[simp] theorem Hdr.raw_d : (h.raw op d a b cls ext).d = d := rfl
@[simp] theorem Hdr.raw_a : (h.raw op d a b cls ext).a = a := rfl
@[simp] theorem Hdr.raw_b : (h.raw op d a b cls ext).b = b := rfl
@[simp] theorem Hdr.raw_ext : (h.raw op d a b cls ext).ext = ext := rfl
@[simp] theorem Hdr.raw_u : (h.raw op d a b cls ext).u = h.u := rfl
@[simp] theorem Hdr.raw_cls : (h.raw op d a b cls ext).cls = cls := rfl
@[simp] theorem Hdr.raw_c (lo w : Nat) : (h.raw op d a b cls ext).c lo w = cls.extractLsb' (lo - 44) w := rfl
@[simp] theorem Hdr.raw_cb (n : Nat) : (h.raw op d a b cls ext).cb n = cls.getLsbD (n - 44) := rfl
end

/-- An instruction of shape OWN reads back when its modifiers are legal and its operands stand where its description says. -/
theorem readsBack_of_own {i : Instr} {h : Hdr} {op : BitVec 10} {cls : BitVec 20} (d a b : Option Reg)
    {m : Raw → Bool} {pd pa pb : Raw → Option Pos} {k : Raw → Option Reg → Option Reg → Option Reg → Option Instr}
    (he : encodeRaw i = some (h.raw op (Reg.codeOpt d) (Reg.codeOpt a) (Reg.codeOpt b) cls 0#64))
    (hw : i.wf = (wfA i && wfB i && !h.nopGuard))
    (hf : ∀ r, opFind operations op.toNat r = some (own r (m r) (r.regs (pd r) (pa r) (pb r) (k r))))
    (hd : wfA i = true → wfB i = true → let r := h.raw op (Reg.codeOpt d) (Reg.codeOpt a) (Reg.codeOpt b) cls 0#64
      h.len = .w64 ∧ m r = true ∧ Pos.okOpt h.u (pd r) d = true ∧ Pos.okOpt h.u (pa r) a = true ∧ Pos.okOpt h.u (pb r) b = true ∧
        k r d a b = some i) : ReadsBack i := by
  refine readsBack_of_decoder he hw hf fun hA hB => ?_
  obtain ⟨hl, hm, hpd, hpa, hpb, hk⟩ := hd hA hB
  exact ⟨Raw.extFits_of_ext_eq_zero rfl, (own_of_legal hl hm).trans (Raw.regs_raw hpd hpa hpb hk)⟩

-- Shape BR (R84)

section
variable {op : BitVec 10} {h : Hdr} {d a : BitVec 9} {t : Target}

theorem decodeTarget_encodeBr (ht : t.wf h = true) : (encodeBr op h d a t).extFits ∧ decodeTarget (encodeBr op h d a t) = some t := by
  have hl : (encodeBr op h d a t).len = t.len := beq_iff_eq.mp ht
  have hc : (encodeBr op h d a t).cls = t.cls := rfl
  have hx : (encodeBr op h d a t).ext = t.ext := rfl
  unfold Raw.extFits decodeTarget
  rw [hl, hc, hx]
  cases t with
  | rel20 w => exact ⟨rfl, rfl⟩
  | rel32 w => exact ⟨extractLsb'_setWidth_of_width_le w (Nat.le_refl 32), by simp [Target.len, Target.cls, Target.ext, BitVec.extractLsb'_setWidth_of_le]⟩
  | abs w =>
    refine ⟨trivial, ?_⟩
    simp (disch := decide) [Target.len, Target.cls, Target.ext, -Nat.reduceAdd, BitVec.extractLsb'_append_eq_of_add_le, BitVec.extractLsb'_append_eq_of_le]
end

theorem readP_pcode (p : Fin 8) : readP .psrc (Fin8.pcode p) = .ok p := by
  simp [readP, Fin8.pcode, Pos.read_code (u := false) (p := .psrc) (r := .p p) rfl]

/-- An instruction of shape BR reads back when its operands do. -/
theorem readsBack_of_br {i : Instr} {h : Hdr} {op : BitVec 10} {d a : BitVec 9} {t : Target} {f : Raw → Target → Except Reject Instr}
    (he : encodeRaw i = some (encodeBr op h d a t)) (hw : i.wf = (wfA i && wfB i && !h.nopGuard))
    (hf : ∀ r, opFind operations op.toNat r = some (decodeBr r (f r))) (ht : wfA i = true → t.wf h = true)
    (hd : wfA i = true → f (encodeBr op h d a t) t = .ok i) : ReadsBack i := by
  refine readsBack_of_decoder he hw hf fun hA _ => ?_
  obtain ⟨hx, hdec⟩ := decodeTarget_encodeBr (op := op) (d := d) (a := a) (ht hA)
  refine ⟨hx, ?_⟩
  change decodeBr (encodeBr op h d a t) _ = _
  rw [decodeBr, hdec]
  exact hd hA

/-- A `nop` reads back, with the guard of R67 at every length. -/
theorem readsBack_nop (h : Hdr) : ReadsBack (.nop h) := by
  refine readsBack_of_decodeRaw rfl fun hw => ⟨Raw.extFits_of_ext_eq_zero rfl, ?_⟩
  by_cases hg : h.nopGuard = true
  · have hn : BitVec.ofFin h.gp = 7#3 ∧ h.gn = true := by
      rw [Hdr.gp_eq_seven_iff]
      simpa [Hdr.nopGuard] using hg
    exact if_pos hn
  · have hl : h.len = .w64 := by simpa [Instr.wf, wfA, wfB, hg] using hw
    have ho : opFind operations (0x001#10).toNat (h.raw 0x001#10 0#9 0#9 0#9 0#20 0#64) = some _ := rfl
    refine (decodeRaw_raw (by simpa using hg) ho).trans ?_
    exact (own_of_legal hl rfl).trans (Raw.regs_raw (d := none) (a := none) (b := none) rfl rfl rfl rfl)

theorem readsBack_wait (h : Hdr) (ld st cp tl : BitVec 6) : ReadsBack (.wait h ld st cp tl) := by
  refine readsBack_of_decoder rfl rfl (fun _ => rfl) fun hA _ => ?_
  obtain ⟨hl, hu⟩ := (Hdr.w64n_eq_true h).mp hA
  refine ⟨Raw.extFits_of_ext_eq_zero rfl, (own_of_legal hl ?_).trans ?_⟩
  · simp (disch := decide) [Hdr.raw, hu, Raw.c, -Nat.reduceAdd, BitVec.extractLsb'_append_eq_of_add_le, BitVec.extractLsb'_append_eq_of_le]
  · simp (disch := decide) [Hdr.raw, Raw.c, Raw.hdr, requireZero, -Nat.reduceAdd, BitVec.extractLsb'_append_eq_of_add_le, BitVec.extractLsb'_append_eq_of_le, bind, Except.bind,
      pure, Except.pure]

/-- Settles O56, shape by shape: a control instruction of its own, a branch, or one of shape ARITH, whose decoder reads every field that its encoder writes. -/
theorem computingEncodingsReadBack : Obligations.ComputingEncodingsReadBack := by
  intro i r hr
  cases i
  case nop h => exact readsBack_nop h
  case wait h ld st cp tl => exact readsBack_wait h ld st cp tl
  case exit h | yield h =>
    exact readsBack_of_own none none none rfl rfl (fun _ => rfl) fun hA _ => by simpa [wfA] using hA
  case ret h a | jmp h a off =>
    exact readsBack_of_own none (some a) none rfl rfl (fun _ => rfl) fun hA _ => by simpa [wfA] using hA
  case bra h t =>
    exact readsBack_of_br rfl rfl (fun _ => rfl) id fun _ => rfl
  case brany h p t | brall h p t =>
    refine readsBack_of_br rfl rfl (fun _ => rfl) id fun _ => ?_
    simp [encodeBr, Hdr.raw, readP_pcode, requireZero, Raw.hdr, bind, Except.bind, pure, Except.pure]
  case call h d t =>
    have hw : wfA (.call h d t) = true → t.wf h = true ∧ (Pos.dstS 2).ok h.u d = true := (Bool.and_eq_true_iff).mp
    exact readsBack_of_br rfl rfl (fun _ => rfl) (fun hA => (hw hA).1) fun hA =>
      Raw.regs_raw (d := some d) (a := none) (b := none) (hw hA).2 rfl rfl rfl
  case cvt h x => exact readsBack_of_cvt (pk := false) rfl fun _ => rfl
  case cvpk h x => exact readsBack_of_cvt (pk := true) rfl fun _ => rfl
  case pset | pand | por | pxor | pnot | iadd | isub | imul | imulhi | imad | imin | imax | iabs | ineg | and | or | xor | not | andn | shl | shr | sar | rol | ror |
      popc | clz | brev | bfe | bfi | sel | icmp | lea | mov | pxext | pxins | pxavg | pxabd | pxsad | pxclp | pxnrm | pxdot | fadd | fsub | fmul | ffma |
      fmin | fmax | fabs | fneg | fcmp | fclass | frcp | frsq | fex2 | flg2 | fsin | fcos | shfl | vote | ballot | red | scan =>
    exact readsBack_of_arith rfl rfl rfl (fun _ => rfl) fun _ => rfl
  all_goals cases hr

end Sys2Proof

/-! The encodings of memory instructions (R82, R83). -/

namespace Sys2Proof

open Sys2Proof.Safety

-- Shape MEM (R82, R83)

section
variable {op : BitVec 10} {h : Hdr} {m : MemArg}

theorem encodeMem_cls : let r := encodeMem op h m
    r.cls.extractLsb' 17 3 = m.size.code ∧ r.cls.extractLsb' 14 3 = m.scope.code ∧ r.cls.extractLsb' 12 2 = m.order.code ∧
    r.cls.getLsbD 11 = m.nf ∧ r.cls.getLsbD 10 = m.sx ∧ r.cls.extractLsb' 0 10 = m.off.low := by
  intro r
  simp (disch := decide) only [r, encodeMem, Hdr.raw, BitVec.getLsbD_append, BitVec.extractLsb'_append_eq_of_add_le, BitVec.extractLsb'_append_eq_of_le,
    BitVec.extractLsb'_eq_self, Nat.reduceSub, Nat.reduceLT, if_true, if_false, BitVec.getLsbD_ofBool]
  simp

theorem encodeMem_off (hl : h.len = m.off.len) : (encodeMem op h m).extFits ∧ (encodeMem op h m).off = some m.off := by
  obtain ⟨-, -, -, -, -, hlow⟩ := encodeMem_cls (op := op) (h := h) (m := m)
  have hlen : (encodeMem op h m).len = m.off.len := hl
  have hext : (encodeMem op h m).ext = m.off.ext := rfl
  unfold Raw.extFits Raw.off
  rw [hlow, hlen, hext]
  cases m.off with
  | o10 v => exact ⟨rfl, rfl⟩
  | i32 v => exact ⟨extractLsb'_setWidth_of_width_le v (Nat.le_refl 32), by simp [Off.len, Off.low, Off.ext, BitVec.extractLsb'_setWidth_of_le]⟩
  | i64 v => exact ⟨trivial, rfl⟩

theorem decodeMem_encodeMem {sp : MemSpec} {mk : Hdr → MemArg → Instr} (hw : sp.wf h m = true) :
    (encodeMem op h m).extFits ∧ decodeMem sp mk (encodeMem op h m) = .ok (mk h m) := by
  simp only [MemSpec.wf, Bool.and_eq_true, beq_iff_eq] at hw
  obtain ⟨⟨⟨⟨⟨hmod, hl⟩, hd⟩, ha⟩, hb⟩, hcas⟩ := hw
  obtain ⟨hsize, hscope, horder, hnf, hsx, -⟩ := encodeMem_cls (op := op) (h := h) (m := m)
  obtain ⟨hx, hoff⟩ := encodeMem_off (op := op) hl
  have hu : (encodeMem op h m).u = h.u := rfl
  have hdc : (encodeMem op h m).d = Reg.codeOpt m.d := rfl
  have hac : (encodeMem op h m).a = m.base.code := rfl
  have hbc : (encodeMem op h m).b = Reg.codeOpt m.b := rfl
  have hh : (encodeMem op h m).hdr = h := rfl
  refine ⟨hx, ?_⟩
  unfold decodeMem
  simp only [hsize, hscope, horder, hnf, hsx, hoff, Size.ofCode_code, Scope.ofCode_code, Order.ofCode_code, hmod, hcas, hu, hdc, hac, hbc, hh,
    Pos.readOpt_codeOpt hd, Pos.read_code ha, Pos.readOpt_codeOpt hb, if_true, bind, Except.bind, pure, Except.pure]
end

/-- An instruction of shape MEM reads back. -/
theorem readsBack_of_mem {sp : MemSpec} {mk : Hdr → MemArg → Instr} {op : BitVec 10} {h : Hdr} {m : MemArg}
    (he : encodeRaw (mk h m) = some (encodeMem op h m)) (hw : (mk h m).wf = (wfA (mk h m) && wfB (mk h m) && !h.nopGuard))
    (hB : wfB (mk h m) = sp.wf h m) (hf : ∀ r, opFind operations op.toNat r = some (decodeMem sp mk r)) : ReadsBack (mk h m) :=
  readsBack_of_decoder he hw hf fun _ hb => decodeMem_encodeMem (hB ▸ hb)

/-- Settles O57: one decoder reads every instruction of shape MEM. -/
theorem memoryEncodingsReadBack : Obligations.MemoryEncodingsReadBack := by
  rintro i ⟨sp, m, hm⟩
  cases i
  case ld | st | lds | sts | ldfeKeep | ldfeClear | stfeKeep | stfeClear | pref | atomAdd | atomMin | atomMax | atomAnd | atomOr | atomXor |
      atomExch | atomCas =>
    exact readsBack_of_mem rfl rfl rfl fun _ => rfl
  all_goals cases hm

end Sys2Proof

/-! The encodings of copies, engines, synchronisation and the system (R159 to R220). -/

namespace Sys2Proof

open Sys2Proof.Safety

-- Shape OWN: copies, matrix, synchronisation, system (R159 to R220)

theorem arrCls_getLsbD_four (arr : Option (BitVec 4)) : (arrCls arr).getLsbD 4 = arr.isSome := by
  cases arr with
  | none => rfl
  | some k => simp [arrCls, -Nat.reduceAdd, -BitVec.getLsbD_eq_getElem, BitVec.getLsbD_append]

theorem arrCls_extractLsb' (arr : Option (BitVec 4)) : (arrCls arr).extractLsb' 0 4 = arr.getD 0#4 := by
  cases arr with
  | none => rfl
  | some k => simp (disch := decide) [arrCls, -Nat.reduceAdd, BitVec.extractLsb'_append_eq_of_add_le]

/-- ARR and BAR read back, and BAR is zero with ARR = 0. -/
theorem arrCls_legal (arr : Option (BitVec 4)) : (arrCls arr).getLsbD 4 = true ∨ (arrCls arr).extractLsb' 0 4 = 0#4 := by
  cases arr <;> simp [arrCls_getLsbD_four, arrCls_extractLsb', -BitVec.getLsbD_eq_getElem]

theorem arrCls_readBack (arr : Option (BitVec 4)) : (if (arrCls arr).getLsbD 4 = true then some ((arrCls arr).extractLsb' 0 4) else none) = arr := by
  cases arr <;> simp [arrCls_getLsbD_four, arrCls_extractLsb', -BitVec.getLsbD_eq_getElem]

theorem TlbKind.code_ne_three (k : TlbKind) : k.code ≠ 3#2 := by cases k <;> decide

theorem mkSyswr_of_not_contains {h : Hdr} {n : BitVec 10} {a : Reg}
    (hn : [0x00F#10, 0x01C#10, 0x013#10, 0x071#10, 0x07C#10, 0x078#10, 0x079#10].contains n = false) : mkSyswr h n a = .syswr h n a := by
  simp only [List.contains_cons, List.contains_nil, Bool.or_eq_false_iff, beq_eq_false_iff_ne] at hn
  simp [mkSyswr, hn]

@[simp] theorem Pos.okOpt_if_isSome (u : Bool) (p : Pos) (r : Option Reg) :
    Pos.okOpt u (if r.isSome = true then some p else none) r = (r.isNone || Pos.okOpt u (some p) r) := by cases r <;> rfl

@[simp] theorem Pos.okOpt_if_eq_none (u : Bool) (p : Pos) (r : Option Reg) [Decidable (r = none)] :
    Pos.okOpt u (if r = none then none else some p) r = (r.isNone || Pos.okOpt u (some p) r) := by cases r <;> simp [Pos.okOpt]

@[simp] theorem Pos.okOpt_none_eq_true (u : Bool) (r : Option Reg) : Pos.okOpt u none r = true ↔ r = none := by cases r <;> simp [Pos.okOpt]

@[simp] theorem Pos.ok_vOnly_v (u : Bool) (m : Nat) (n : Fin 384) : (Pos.vOnly m).ok u (.v n) = (n.val % m == 0) := rfl

@[simp] theorem Pos.ok_pdst_p (u : Bool) (n : Fin 8) : Pos.pdst.ok u (.p n) = decide (n.val < 7) := rfl

@[simp] theorem Pos.ok_sFour_s (u : Bool) (n : Fin 64) : Pos.sFour.ok u (.s n) = decide (n.val ≤ 60) := rfl

theorem opFind_append (t u : List (Nat × (Raw → Except Reject Instr))) (n : Nat) (r : Raw) :
    opFind (t ++ u) n r = (opFind t n r).or (opFind u n r) := by
  induction t with
  | nil => rfl
  | cons p t ih =>
    rw [List.cons_append, opFind, opFind, ih]
    split <;> rfl

theorem opFind_of_forall_ne {t : List (Nat × (Raw → Except Reject Instr))} {n : Nat} (h : ∀ k ∈ t.map Prod.fst, k ≠ n) (r : Raw) : opFind t n r = none := by
  induction t with
  | nil => rfl
  | cons p t ih =>
    rw [opFind, if_neg (h p.1 (by simp)), ih fun k hk => h k (by simp_all)]

/-- The opcodes of copies, engines, synchronisation and the system stand above all others (R86). -/
theorem opFind_operations_engine {n : Nat} (hn : 0x2C0 ≤ n) (r : Raw) : opFind operations n r = opFind (opTable3 ++ opTable4) n r := by
  have h1 : ∀ k ∈ opTable1.map Prod.fst, k < 0x2C0 := by decide
  have h2 : ∀ k ∈ opTable2.map Prod.fst, k < 0x2C0 := by decide
  have absent {t : List (Nat × (Raw → Except Reject Instr))} (ht : ∀ k ∈ t.map Prod.fst, k < 0x2C0) : opFind t n r = none :=
    opFind_of_forall_ne (fun k hk => Nat.ne_of_lt (Nat.lt_of_lt_of_le (ht k hk) hn)) r
  simp [operations, opFind_append, absent h1, absent h2]

/-- An engine or system instruction reads back when its modifiers are legal and its operands stand where its description says. -/
theorem readsBack_of_engine {i : Instr} {h : Hdr} {op : BitVec 10} {cls : BitVec 20} (d a b : Option Reg)
    {m : Raw → Bool} {pd pa pb : Raw → Option Pos} {k : Raw → Option Reg → Option Reg → Option Reg → Option Instr}
    (he : encodeRaw i = some (h.raw op (Reg.codeOpt d) (Reg.codeOpt a) (Reg.codeOpt b) cls 0#64))
    (hw : i.wf = (wfA i && wfB i && !h.nopGuard)) (hop : 0x2C0 ≤ op.toNat)
    (hf : ∀ r, opFind (opTable3 ++ opTable4) op.toNat r = some (own r (m r) (r.regs (pd r) (pa r) (pb r) (k r))))
    (hd : wfB i = true → let r := h.raw op (Reg.codeOpt d) (Reg.codeOpt a) (Reg.codeOpt b) cls 0#64
      h.len = .w64 ∧ m r = true ∧ Pos.okOpt h.u (pd r) d = true ∧ Pos.okOpt h.u (pa r) a = true ∧ Pos.okOpt h.u (pb r) b = true ∧
        k r d a b = some i) : ReadsBack i :=
  readsBack_of_own d a b he hw (fun r => (opFind_operations_engine hop r).trans (hf r)) fun _ hB => hd hB

theorem readsBack_of_sysregRead {i : Instr} {h : Hdr} {n : BitVec 10} {d : Reg} (he : encodeRaw i = some (h.raw 0x364#10 d.code 0#9 0#9 (n ++ 0#10) 0#64))
    (hw : i.wf = (wfA i && wfB i && !h.nopGuard))
    (hB : wfB i = true → h.len = .w64 ∧ (sysregWidth n).isSome = true ∧ (sysrdPos n).ok h.u d = true ∧ mkSysrd h n d = i) : ReadsBack i := by
  refine readsBack_of_engine (some d) none none he hw (by decide) (fun _ => rfl) fun hwf => ?_
  obtain ⟨hl, hr, hd, hi⟩ := hB hwf
  simp (disch := decide) [hl, hr, hd, hi, -Nat.reduceAdd, BitVec.extractLsb'_append_eq_of_add_le, BitVec.extractLsb'_append_eq_of_le]

theorem readsBack_of_sysregWrite {i : Instr} {h : Hdr} {n : BitVec 10} {a : Reg} (he : encodeRaw i = some (encodeWr h n a))
    (hw : i.wf = (wfA i && wfB i && !h.nopGuard))
    (hB : wfB i = true → h.len = .w64 ∧ (sysregWidth n).isSome = true ∧ (Pos.src (sysregRegs n)).ok h.u a = true ∧ mkSyswr h n a = i) : ReadsBack i := by
  refine readsBack_of_engine none (some a) none he hw (by decide) (fun _ => rfl) fun hwf => ?_
  obtain ⟨hl, hr, ha, hi⟩ := hB hwf
  simp (disch := decide) [hl, hr, ha, hi, -Nat.reduceAdd, BitVec.extractLsb'_append_eq_of_add_le, BitVec.extractLsb'_append_eq_of_le]

theorem readsBack_fence (h : Hdr) (sc : Scope) (o : Order) : ReadsBack (.fence h sc o) := by
  refine readsBack_of_decoder rfl rfl (fun _ => rfl) fun _ hB => ⟨Raw.extFits_of_ext_eq_zero rfl, ?_⟩
  simp only [wfB, Bool.and_eq_true, Hdr.w64n_eq_true] at hB
  obtain ⟨⟨⟨hl, hu⟩, hsc⟩, ho⟩ := hB
  unfold decodeFence
  simp (disch := decide) [hl, hu, hsc, ho, Scope.ofCode_code, Order.ofCode_code, requireZero, -Nat.reduceAdd, BitVec.extractLsb'_append_eq_of_add_le,
    BitVec.extractLsb'_append_eq_of_le, bind, Except.bind, pure, Except.pure]

theorem readsBack_hsetBind (h : Hdr) (n : BitVec 6) (e : BitVec 8) (a b : Reg) : ReadsBack (.hsetBind h n e a b) := by
  refine readsBack_of_decoder rfl rfl (fun _ => rfl) fun _ hB => ⟨Raw.extFits_of_ext_eq_zero rfl, ?_⟩
  simp only [wfB, Bool.and_eq_true, Hdr.w64_eq_true] at hB
  obtain ⟨⟨⟨hl, he⟩, ha⟩, hb⟩ := hB
  simp (disch := decide) [decodeHset, own, hl, he, -Nat.reduceAdd, BitVec.extractLsb'_append_eq_of_add_le, BitVec.extractLsb'_append_eq_of_le]
  exact Raw.regs_raw (d := none) (a := some a) (b := some b) rfl ha hb rfl

theorem readsBack_hsetFull (h : Hdr) (n : BitVec 6) : ReadsBack (.hsetFull h n) := by
  refine readsBack_of_decoder rfl rfl (fun _ => rfl) fun _ hB => ⟨Raw.extFits_of_ext_eq_zero rfl, ?_⟩
  simp (disch := decide) [decodeHset, own, Raw.bare, (Hdr.w64_eq_true h).mp hB, -Nat.reduceAdd, BitVec.extractLsb'_append_eq_of_add_le, BitVec.extractLsb'_append_eq_of_le]
  exact Raw.regs_raw (d := none) (a := none) (b := none) rfl rfl rfl rfl

theorem readsBack_mxa_spad (h : Hdr) (t : BitVec 8) (bb bank : Bool) (arr : Option (BitVec 4)) (a : Reg) : ReadsBack (.mxa h t bb bank arr (.spad a)) := by
  refine readsBack_of_decoder rfl rfl (fun r => (opFind_operations_engine (by decide) r).trans rfl) fun _ hB => ⟨Raw.extFits_of_ext_eq_zero rfl, ?_⟩
  obtain ⟨hl, ha⟩ := Bool.and_eq_true_iff.mp hB
  simp (disch := decide) [decodeMxa, own, (Hdr.w64_eq_true h).mp hl, Raw.arr, arrCls_legal, arrCls_readBack, -Nat.reduceAdd, -BitVec.getLsbD_eq_getElem, BitVec.getLsbD_append,
    BitVec.extractLsb'_append_eq_of_add_le, BitVec.extractLsb'_append_eq_of_le]
  exact Raw.regs_raw (d := none) (a := some a) (b := none) rfl ha rfl rfl

theorem readsBack_mxa_regs (h : Hdr) (t : BitVec 8) (bb bank : Bool) (arr : Option (BitVec 4)) (q : BitVec 2) (w : Bool) (vb : Fin 384) :
    ReadsBack (.mxa h t bb bank arr (.regs q w vb)) := by
  refine readsBack_of_decoder rfl rfl (fun r => (opFind_operations_engine (by decide) r).trans rfl) fun _ hB => ⟨Raw.extFits_of_ext_eq_zero rfl, ?_⟩
  simp only [wfB, Bool.and_eq_true, Hdr.w64_eq_true, decide_eq_true_eq] at hB
  obtain ⟨⟨hl, hv⟩, hroom⟩ := hB
  simp (disch := decide) [decodeMxa, own, hl, Raw.arr, arrCls_legal, arrCls_readBack, -Nat.reduceAdd, -BitVec.getLsbD_eq_getElem, BitVec.getLsbD_append,
    BitVec.extractLsb'_append_eq_of_add_le, BitVec.extractLsb'_append_eq_of_le]
  exact Raw.regs_raw (d := none) (a := none) (b := some (.v vb)) rfl rfl hv (if_pos hroom)

-- sread and swrite (R215)

section
variable {op : BitVec 10} {h : Hdr} {x : StorageArg}

theorem encodeStorage_cls : let r := encodeStorage op h x
    r.c 58 6 = x.grant ∧ r.c 56 2 = x.kind.code ∧ r.cb 55 = x.tmpl.isSome ∧ r.cb 54 = x.d.isSome ∧ r.cb 53 = x.fua ∧ r.c 44 9 = 0#9 := by
  intro r
  simp (disch := decide) [r, encodeStorage, -Nat.reduceAdd, -BitVec.getLsbD_eq_getElem, BitVec.getLsbD_append, BitVec.extractLsb'_append_eq_of_add_le,
    BitVec.extractLsb'_append_eq_of_le]

theorem encodeStorage_ext : let e := (encodeStorage op h x).ext
    e.extractLsb' 32 32 = 0#32 ∧ e.extractLsb' 24 8 = x.tmpl.getD 0#8 ∧ e.extractLsb' 18 6 = x.handle ∧ e.extractLsb' 9 9 = 0#9 ∧ e.extractLsb' 0 9 = x.c.code := by
  intro e
  simp (disch := decide) [e, encodeStorage, -Nat.reduceAdd, BitVec.extractLsb'_append_eq_of_add_le, BitVec.extractLsb'_append_eq_of_le]

theorem decodeStorage_encodeStorage {wr : Bool} (hw : x.wf wr h = true) :
    (encodeStorage op h x).extFits ∧ decodeStorage wr (encodeStorage op h x) = .ok (if wr then .swrite h x else .sread h x) := by
  simp only [StorageArg.wf, Bool.and_eq_true, beq_iff_eq] at hw
  obtain ⟨⟨⟨⟨⟨⟨⟨hl, hvat⟩, hfua⟩, hhandle⟩, hd⟩, ha⟩, hb⟩, hc⟩ := hw
  obtain ⟨hgrant, hkind, htmpl, hstw, hf, hzero⟩ := encodeStorage_cls (op := op) (h := h) (x := x)
  obtain ⟨hhigh, ht, hh, hmid, hcc⟩ := encodeStorage_ext (op := op) (h := h) (x := x)
  have hlen : (encodeStorage op h x).len = .w96 := hl
  have hu : (encodeStorage op h x).u = h.u := rfl
  have hdc : (encodeStorage op h x).d = Reg.codeOpt x.d := rfl
  have hac : (encodeStorage op h x).a = x.a.code := rfl
  have hbc : (encodeStorage op h x).b = x.b.code := rfl
  have hhdr : (encodeStorage op h x).hdr = h := rfl
  refine ⟨by unfold Raw.extFits; rw [hlen]; exact hhigh, ?_⟩
  have hd' : Pos.okOpt h.u (if x.d.isSome = true then some (.dst 1) else none) x.d = true := (Pos.okOpt_if_isSome h.u (.dst 1) x.d).trans hd
  have hkc : (x.kind.code != 3#2) = true := by cases x.kind <;> rfl
  have htm : (if x.tmpl.isSome = true then some (x.tmpl.getD 0#8) else none) = x.tmpl := by cases x.tmpl <;> rfl
  have htz : (x.tmpl.isSome || x.tmpl.getD 0#8 == 0#8) = true := by cases x.tmpl <;> rfl
  have hvat' : (!x.tmpl.isSome || !wr) = true := by rw [Option.not_isSome]; exact hvat
  unfold decodeStorage
  simp only [hlen, hgrant, hkind, htmpl, hstw, hf, hzero, ht, hh, hmid, hcc, hu, hdc, hac, hbc, hhdr, StKind.ofCode_code, hkc, htz, htm, hvat', hfua, hhandle,
    Pos.readOpt_codeOpt hd', Pos.read_code ha, Pos.read_code hb, Pos.read_code hc, bne_self_eq_false, BEq.rfl, Bool.and_self, Bool.false_eq_true, if_true, if_false, bind, Except.bind, pure, Except.pure]
end

theorem readsBack_of_storage {i : Instr} {wr : Bool} {op : BitVec 10} {h : Hdr} {x : StorageArg} (hi : i = if wr then .swrite h x else .sread h x)
    (he : encodeRaw i = some (encodeStorage op h x)) (hw : i.wf = (wfA i && wfB i && !h.nopGuard)) (hB : wfB i = x.wf wr h)
    (hf : ∀ r, opFind operations op.toNat r = some (decodeStorage wr r)) : ReadsBack i :=
  readsBack_of_decoder he hw hf fun _ hb => hi ▸ decodeStorage_encodeStorage (hB ▸ hb)

/-- Settles O58: an instruction with fields of its own reads back operand by operand; `fence`, `hset`, `mxa`, the system registers, `sread` and `swrite` have
lemmas of their own. -/
theorem engineEncodingsReadBack : Obligations.EngineEncodingsReadBack := by
  intro i r hr hm
  cases i
  case hrel h n | tinv h n | mxfence h | mxwait h n | mxzero h bank raw | barG h | barSync h l n | sys h n | iret h | halt h | brk h n | dbgret h ov ss =>
    refine readsBack_of_engine none none none rfl rfl (by decide) (fun _ => rfl) fun hB => ?_
    simpa (disch := decide) [wfB, and_assoc, and_comm, and_left_comm, -Nat.reduceAdd, -BitVec.getLsbD_eq_getElem, BitVec.getLsbD_append, BitVec.extractLsb'_append_eq_of_add_le,
      BitVec.extractLsb'_append_eq_of_le] using hB
  case hwaitFull h d n | hwaitEmpty h d n | sbrecv h n d =>
    refine readsBack_of_engine (some d) none none rfl rfl (by decide) (fun _ => rfl) fun hB => ?_
    simpa (disch := decide) [wfB, and_assoc, and_comm, and_left_comm, -Nat.reduceAdd, -BitVec.getLsbD_eq_getElem, BitVec.getLsbD_append, BitVec.extractLsb'_append_eq_of_add_le,
      BitVec.extractLsb'_append_eq_of_le] using hB
  case tset h t a | tget h t a | mxdrain h t bank z a | mxdrainAdd h t bank z a | sbcast h n rel a | chsend h n a | chrecv h n a | dirdel h a | reply h a | barWait h l n a |
      tmset h rel a =>
    refine readsBack_of_engine none (some a) none rfl rfl (by decide) (fun _ => rfl) fun hB => ?_
    simpa (disch := decide) [wfB, and_assoc, and_comm, and_left_comm, -Nat.reduceAdd, -BitVec.getLsbD_eq_getElem, BitVec.getLsbD_append, BitVec.extractLsb'_append_eq_of_add_le,
      BitVec.extractLsb'_append_eq_of_le] using hB
  case mxb h t bb arr a =>
    refine readsBack_of_engine none (some a) none rfl rfl (by decide) (fun _ => rfl) fun hB => ?_
    simpa (disch := decide) [wfB, and_assoc, and_comm, and_left_comm, -Nat.reduceAdd, -BitVec.getLsbD_eq_getElem, BitVec.getLsbD_append, BitVec.extractLsb'_append_eq_of_add_le,
      BitVec.extractLsb'_append_eq_of_le, Raw.arr, arrCls_legal, arrCls_readBack] using hB
  case mbget h t d a | census h d a | launch h d a =>
    refine readsBack_of_engine (some d) (some a) none rfl rfl (by decide) (fun _ => rfl) fun hB => ?_
    simpa (disch := decide) [wfB, and_assoc, and_comm, and_left_comm, -Nat.reduceAdd, -BitVec.getLsbD_eq_getElem, BitVec.getLsbD_append, BitVec.extractLsb'_append_eq_of_add_le,
      BitVec.extractLsb'_append_eq_of_le] using hB
  case mbput h t a b | nrec h a b | sysret h a b =>
    refine readsBack_of_engine none (some a) (some b) rfl rfl (by decide) (fun _ => rfl) fun hB => ?_
    simpa (disch := decide) [wfB, and_assoc, and_comm, and_left_comm, -Nat.reduceAdd, -BitVec.getLsbD_eq_getElem, BitVec.getLsbD_append, BitVec.extractLsb'_append_eq_of_add_le,
      BitVec.extractLsb'_append_eq_of_le] using hB
  case dirins h pin d a b | tmove h d a b | nrecv h d a b =>
    refine readsBack_of_engine (some d) (some a) (some b) rfl rfl (by decide) (fun _ => rfl) fun hB => ?_
    simpa (disch := decide) [wfB, and_assoc, and_comm, and_left_comm, -Nat.reduceAdd, -BitVec.getLsbD_eq_getElem, BitVec.getLsbD_append, BitVec.extractLsb'_append_eq_of_add_le,
      BitVec.extractLsb'_append_eq_of_le] using hB
  case svqpop h n =>
    refine readsBack_of_engine (some (.v n)) none none rfl rfl (by decide) (fun _ => rfl) fun hB => ?_
    simpa (disch := decide) [wfB, and_assoc, and_comm, and_left_comm, -Nat.reduceAdd, -BitVec.getLsbD_eq_getElem, BitVec.getLsbD_append, BitVec.extractLsb'_append_eq_of_add_le,
      BitVec.extractLsb'_append_eq_of_le] using hB
  case cenpoll h p a =>
    refine readsBack_of_engine (some (.p p)) (some a) none rfl rfl (by decide) (fun _ => rfl) fun hB => ?_
    simpa (disch := decide) [wfB, and_assoc, and_comm, and_left_comm, -Nat.reduceAdd, -BitVec.getLsbD_eq_getElem, BitVec.getLsbD_append, BitVec.extractLsb'_append_eq_of_add_le,
      BitVec.extractLsb'_append_eq_of_le] using hB
  case solicit h c d k =>
    refine readsBack_of_engine (some d) (some (.s k)) none rfl rfl (by decide) (fun _ => rfl) fun hB => ?_
    simpa (disch := decide) [wfB, and_assoc, and_comm, and_left_comm, -Nat.reduceAdd, -BitVec.getLsbD_eq_getElem, BitVec.getLsbD_append, BitVec.extractLsb'_append_eq_of_add_le,
      BitVec.extractLsb'_append_eq_of_le] using hB
  case tlbinv h k g a b =>
    refine readsBack_of_engine none a b rfl rfl (by decide) (fun _ => rfl) fun hB => ?_
    simpa (disch := decide) [wfB, and_assoc, and_comm, and_left_comm, -Nat.reduceAdd, -BitVec.getLsbD_eq_getElem, BitVec.getLsbD_append, BitVec.extractLsb'_append_eq_of_add_le,
      BitVec.extractLsb'_append_eq_of_le, TlbKind.ofCode_code, TlbKind.code_ne_three] using hB
  case barArr h l n d =>
    refine readsBack_of_engine d none none rfl rfl (by decide) (fun _ => rfl) fun hB => ?_
    simpa (disch := decide) [wfB, and_assoc, and_comm, and_left_comm, -Nat.reduceAdd, -BitVec.getLsbD_eq_getElem, BitVec.getLsbD_append, BitVec.extractLsb'_append_eq_of_add_le,
      BitVec.extractLsb'_append_eq_of_le] using hB
  case cwb h a | cinv h l2 a =>
    refine readsBack_of_engine none a none rfl rfl (by decide) (fun _ => rfl) fun hB => ?_
    simpa (disch := decide) [wfB, and_assoc, and_comm, and_left_comm, or_comm, -Nat.reduceAdd, -BitVec.getLsbD_eq_getElem, BitVec.getLsbD_append, BitVec.extractLsb'_append_eq_of_add_le,
      BitVec.extractLsb'_append_eq_of_le] using hB
  case cpy h x | cpyMc h x | nsend h x =>
    refine readsBack_of_engine x.d (some x.a) x.b rfl rfl (by decide) (fun _ => rfl) fun hB => ?_
    simpa (disch := decide) [wfB, and_assoc, and_comm, and_left_comm, -Nat.reduceAdd, -BitVec.getLsbD_eq_getElem, BitVec.getLsbD_append, BitVec.extractLsb'_append_eq_of_add_le,
      BitVec.extractLsb'_append_eq_of_le] using hB
  case sysrd h n d =>
    refine readsBack_of_sysregRead rfl rfl fun hB => ?_
    simp only [wfB, Bool.and_eq_true, bne_iff_ne, Hdr.w64_eq_true] at hB
    obtain ⟨⟨⟨hl, hr⟩, hn⟩, hd⟩ := hB
    exact ⟨hl, hr, hd, if_neg hn⟩
  case trapqPop h d =>
    refine readsBack_of_sysregRead rfl rfl fun hB => ?_
    obtain ⟨hl, hd⟩ := Bool.and_eq_true_iff.mp hB
    exact ⟨(Hdr.w64_eq_true h).mp hl, rfl, hd, rfl⟩
  case syswr h n a =>
    refine readsBack_of_sysregWrite rfl rfl fun hB => ?_
    simp only [wfB, Bool.and_eq_true, Bool.not_eq_true', Hdr.w64_eq_true] at hB
    obtain ⟨⟨⟨hl, hr⟩, hn⟩, ha⟩ := hB
    exact ⟨hl, hr, ha, mkSyswr_of_not_contains hn⟩
  case trapretWrite h a | ipiWrite h a | wdogWrite h a | smapStageWrite h a | oemodeWrite h a =>
    refine readsBack_of_sysregWrite rfl rfl fun hB => ?_
    obtain ⟨hl, ha⟩ := Bool.and_eq_true_iff.mp hB
    exact ⟨(Hdr.w64_eq_true h).mp hl, rfl, ha, rfl⟩
  case laneCounterClear h cw a =>
    refine readsBack_of_sysregWrite rfl rfl fun hB => ?_
    obtain ⟨hl, ha⟩ := Bool.and_eq_true_iff.mp hB
    cases cw <;> exact ⟨(Hdr.w64_eq_true h).mp hl, rfl, ha, rfl⟩
  case fence h sc o => exact readsBack_fence h sc o
  case hsetBind h n e a b => exact readsBack_hsetBind h n e a b
  case hsetFull h n => exact readsBack_hsetFull h n
  case mxa h t bb bank arr src =>
    cases src with
    | spad a => exact readsBack_mxa_spad h t bb bank arr a
    | regs q w vb => exact readsBack_mxa_regs h t bb bank arr q w vb
  case ld | st | lds | sts | ldfeKeep | ldfeClear | stfeKeep | stfeClear | pref | atomAdd | atomMin | atomMax | atomAnd | atomOr | atomXor |
      atomExch | atomCas =>
    cases hm
  case sread h x => exact readsBack_of_storage (wr := false) rfl rfl rfl rfl fun r => (opFind_operations_engine (by decide) r).trans rfl
  case swrite h x => exact readsBack_of_storage (wr := true) rfl rfl rfl rfl fun r => (opFind_operations_engine (by decide) r).trans rfl
  all_goals cases hr

end Sys2Proof

/-! A pad word (R61), and the words written out from their encodings. -/

namespace Sys2Proof.Machine

open Sys2Proof.Safety

/-- Bytes that begin with the pad word decode to it. -/
theorem decodeBytes_of_padWord {bs : List Byte} (h : bs.take 4 = leBytes 0xFFFFFFFC 4) : decodeBytes bs = .pad := by
  have hw : BitVec.ofNat 32 (leNat (bs.take 4)) = padWord := by rw [h]; rfl
  unfold decodeBytes decodeQuad
  rw [firstWord_eq, hw]
  rfl

theorem lenOver_of_padWord {bs : List Byte} (h : bs.take 4 = leBytes 0xFFFFFFFC 4) (room : Nat) : lenOver bs room = false := by
  unfold lenOver
  rw [h]
  rfl

theorem fetch_of_padWord {s1 s2 : State} {g : Group} {r : Run} {bs : List Byte} (hw : WordsAt s1 s2 g r bs) (h : bs.take 4 = leBytes 0xFFFFFFFC 4) :
    s1.fetch g r.pc = (s2, .pad) := by
  obtain ⟨s', x, hx, hpa, hbad, rfl, rfl⟩ := hw
  simp [State.fetch, hx, hbad, State.homeRead, lenOver_of_padWord h, decodeBytes_of_padWord h, Nat.not_le.mpr hpa]

theorem step_of_pad {s s1 s2 : State} {gid : Nat} {g : Group} {r : Run} {e : Bool} (hs : Selects s s1 gid g r e) (hf : s1.fetch g r.pc = (s2, .pad)) :
    step s = .next (s2.setGroup gid (g.goto r.lanes (padNext r.pc))) := by
  rw [step_of_selects hs]
  obtain ⟨-, -, -, -, hg, hel, hpick, hpend, hint, hhalt, hbp⟩ := hs
  simp [issueGroup, hg, hel, hpick, hpend, hint, hhalt, hbp, hf]

theorem padNext_toNat_mod (pc : Pc) : (padNext pc).toNat % 32 = 0 := by
  simp only [padNext, pcAdd, BitVec.toNat_add, BitVec.toNat_ofNat]
  omega

/-- Settles O51: the fetch finds the pad word, and the step moves the run's lanes alone. -/
theorem padWordsArePassed : Obligations.PadWordsArePassed := by
  intro s s1 s2 gid g r e bs hs _ hw hpad
  exact ⟨_, step_of_pad hs (fetch_of_padWord hw hpad), g.place_eq _ _ _ _, padNext r.pc, rfl, padNext_toNat_mod r.pc,
    fun l hl => (g.at_goto (padNext r.pc) hl).pcOf⟩

/-- Settles O55, each word by evaluating the decoder. -/
theorem writtenWordsDecode : Obligations.WrittenWordsDecode := by
  refine ⟨?_, ?_, ?_, ?_, ?_, ?_, ?_, ?_, ?_, ?_⟩ <;> decide

end Sys2Proof.Machine

/-! Returned data (R76, R148, R151): the registers after them in a state in which a lane beyond 63 stands among an operation's lanes. -/

namespace Sys2Proof.Tests

open Sys2Proof.Machine
open Sys2Proof.Safety

/-- Lane 0 of an 8-byte load, whose data are zeros. -/
def strayAcc0 : LaneAcc := { tAcc 0 with done := true, back := some (leBytes 0 8) }

/-- A lane 64, which no run holds, whose data are ones: its V0 lies where lane 0 has V1. -/
def strayAcc64 : LaneAcc := { tAcc 0 with lane := 64, done := true, back := some (leBytes (2 ^ 64 - 1) 8) }

def strayLoad : MemOp := { tLoad 0 with size := 8, ready := true, accs := [strayAcc0, strayAcc64] }

def strayState : State := { tRun with ops := [(5, strayLoad)] }

theorem strayState_dataReturn : ((strayState.dataReturn 0 5 []).group? 7).map (fun k => k.rd64 0 (.v 0)) = some 0xFFFFFFFF00000000#64 := by
  decide +kernel

/-- Refutes O20: the operation's lanes are not bounded in its statement but for the lane that reads; data of a lane 64 overwrite the upper
half of what lane 0 of the load of a pair received. -/
theorem not_resultsReturn : ¬ Obligations.ResultsReturn := by
  rintro ⟨hload, -⟩
  obtain ⟨t, ht, -, k, hk, -, hread⟩ := hload strayState 0 5 [] strayLoad tUser rfl rfl rfl
  cases ht
  have hhold := hread (.v 0) rfl rfl rfl (by decide) strayAcc0 (List.mem_cons_self ..) (by decide) rfl rfl
  have hzero : k.rd64 0 (.v 0) = 0 := hhold
  have hones := strayState_dataReturn
  rw [show (strayState.dataReturn 0 5 []).group? 7 = some k from hk, Option.map_some, hzero] at hones
  exact absurd hones (by decide)

end Sys2Proof.Tests

/-! The bytes of an L1 (R224), and what stays of the accesses that are on their way (R223, R224, R227, R320). -/

namespace Sys2Proof.Machine

open Sys2Proof.Safety

-- The bytes of an L1 (R224)

theorem l1Key_inj {p r k j : Nat} (hp : p < 2 ^ 52) (hr : r < 2 ^ 52) : l1Key p k = l1Key r j ↔ p = r ∧ k = j := by
  unfold l1Key
  omega

theorem Core.l1Byte_l1Set (c : Core) {p r : Nat} (k j : Nat) (b : Byte) (d : Bool) (hp : p < 2 ^ 52) (hr : r < 2 ^ 52) :
    (c.l1Set r j b d).l1Byte p k = if p = r ∧ k = j then some (b, d) else c.l1Byte p k := by
  unfold Core.l1Byte Core.l1Set
  simp only [SMap.find_ins, l1Key_inj hp hr]

/-- A byte list indexed past its head. -/
theorem getD_sub_cons {b : Byte} {bs : List Byte} {p r : Nat} (h : r + 1 ≤ p) : (b :: bs).getD (p - r) 0 = bs.getD (p - (r + 1)) 0 := by
  rw [show p - r = (p - (r + 1)) + 1 by omega, List.getD_cons_succ]

theorem Core.l1Byte_l1Write (bs : List Byte) (c : Core) {p r k j : Nat} (d : Bool) (hp : p < 2 ^ 52) (hr : r + bs.length ≤ 2 ^ 52) :
    (c.l1Write j d r bs).l1Byte p k = if k = j ∧ r ≤ p ∧ p < r + bs.length then some (bs.getD (p - r) 0, d) else c.l1Byte p k := by
  induction bs generalizing c r with
  | nil => rw [if_neg (by rintro ⟨-, h1, h2⟩; exact absurd h2 (Nat.not_lt.mpr h1))]; rfl
  | cons b t ih =>
    rw [List.length_cons] at hr ⊢
    rw [Core.l1Write, ih _ (by omega), Core.l1Byte_l1Set c k j b d hp (by omega)]
    by_cases hh : k = j ∧ r + 1 ≤ p ∧ p < r + 1 + t.length
    · rw [if_pos hh, if_pos (by omega), getD_sub_cons hh.2.1]
    · rw [if_neg hh]
      by_cases hb : p = r ∧ k = j
      · obtain ⟨rfl, rfl⟩ := hb
        rw [if_pos (by simp), if_pos (by omega), Nat.sub_self]
        rfl
      · rw [if_neg hb, if_neg (by omega)]

/-- The copy that an L1 holds of a byte takes a value, clean. -/
def Core.l1Renew (c : Core) (key pa : Nat) (b : Byte) : Core := if (c.l1Byte pa key).isSome then c.l1Set pa key b false else c

theorem Core.l1Through_cons (c : Core) (key pa : Nat) (b : Byte) (t : List Byte) :
    c.l1Through key pa (b :: t) = (c.l1Renew key pa b).l1Through key (pa + 1) t := by
  unfold Core.l1Renew
  rw [Core.l1Through]
  cases c.l1Byte pa key <;> rfl

theorem Core.l1Byte_l1Renew (c : Core) {p r : Nat} (k j : Nat) (b : Byte) (hp : p < 2 ^ 52) (hr : r < 2 ^ 52) :
    (c.l1Renew j r b).l1Byte p k = if p = r ∧ k = j then (c.l1Byte p k).map fun _ => (b, false) else c.l1Byte p k := by
  unfold Core.l1Renew
  by_cases h : p = r ∧ k = j
  · obtain ⟨rfl, rfl⟩ := h
    rw [if_pos (And.intro rfl rfl)]
    cases hc : c.l1Byte p k with
    | none => simpa using hc
    | some e => simp [Core.l1Byte_l1Set c k k b false hp hr]
  · rw [if_neg h]
    split
    · rw [Core.l1Byte_l1Set c k j b false hp hr, if_neg h]
    · rfl

theorem Core.l1Byte_l1Through (bs : List Byte) (c : Core) {p r k j : Nat} (hp : p < 2 ^ 52) (hr : r + bs.length ≤ 2 ^ 52) :
    (c.l1Through j r bs).l1Byte p k =
      if k = j ∧ r ≤ p ∧ p < r + bs.length then (c.l1Byte p k).map fun _ => (bs.getD (p - r) 0, false) else c.l1Byte p k := by
  induction bs generalizing c r with
  | nil => rw [if_neg (by rintro ⟨-, h1, h2⟩; exact absurd h2 (Nat.not_lt.mpr h1))]; rfl
  | cons b t ih =>
    rw [List.length_cons] at hr ⊢
    rw [Core.l1Through_cons, ih _ (by omega), Core.l1Byte_l1Renew c k j b hp (by omega)]
    by_cases hh : k = j ∧ r + 1 ≤ p ∧ p < r + 1 + t.length
    · rw [if_pos hh, if_neg (by omega), if_pos (by omega), getD_sub_cons hh.2.1]
    · rw [if_neg hh]
      by_cases hb : p = r ∧ k = j
      · obtain ⟨rfl, rfl⟩ := hb
        rw [if_pos (by simp), if_pos (by omega), Nat.sub_self]
        rfl
      · rw [if_neg hb, if_neg (by omega)]

theorem Core.l1Write_eq (bs : List Byte) (c : Core) (j : Nat) (d : Bool) (r : Nat) : ∃ m, c.l1Write j d r bs = { c with l1 := m } := by
  induction bs generalizing c r with
  | nil => exact ⟨c.l1, rfl⟩
  | cons b t ih => exact ih (c.l1Set r j b d) (r + 1)

theorem Core.l1Through_eq (bs : List Byte) (c : Core) (j r : Nat) : ∃ m, c.l1Through j r bs = { c with l1 := m } := by
  induction bs generalizing c r with
  | nil => exact ⟨c.l1, rfl⟩
  | cons b t ih =>
    rw [Core.l1Through_cons, Core.l1Renew]
    split
    · exact ih (c.l1Set r j b false) (r + 1)
    · exact ih c (r + 1)

/-- A write to a scratchpad leaves the full bits. -/
theorem Spad.isFull_write (bs : List Byte) (p : Spad) (tag off a : Nat) : (p.write tag off bs).isFull a = p.isFull a := by
  induction bs generalizing p off with
  | nil => rfl
  | cons b t ih => exact ih _ _

-- What accesses on their way leave standing

/-- What has been sent stays on its way from one state to another. -/
structure Flow (core : Nat) (s t : State) : Prop where
  behind : t.spBehind core core = s.spBehind core core
  feq : ∀ r ∈ s.feq, r ∈ t.feq
  spIn : ∀ r ∈ s.spIn, r ∈ t.spIn
  dev : ∀ d ∈ (s.core core).dev, d ∈ (t.core core).dev
  window : ∀ n, ∀ r ∈ (pathOf s core n).window, r ∈ (pathOf t core n).window
  linkSt : ∀ k, (t.link k).st = (s.link k).st
  peer : ∀ k r, (r ∈ (s.link k).waiting ∨ r ∈ (s.link k).out) →
    ∃ n, { r with sent := n } ∈ (t.link k).waiting ∨ { r with sent := n } ∈ (t.link k).out

theorem Flow.refl (core : Nat) (s : State) : Flow core s s :=
  ⟨rfl, fun _ h => h, fun _ h => h, fun _ h => h, fun _ _ h => h, fun _ => rfl, fun _ r h => ⟨r.sent, h⟩⟩

theorem Flow.trans {core : Nat} {s t u : State} (h : Flow core s t) (h' : Flow core t u) : Flow core s u where
  behind := h'.behind.trans h.behind
  feq r hr := h'.feq r (h.feq r hr)
  spIn r hr := h'.spIn r (h.spIn r hr)
  dev d hd := h'.dev d (h.dev d hd)
  window n r hr := h'.window n r (h.window n r hr)
  linkSt k := (h'.linkSt k).trans (h.linkSt k)
  peer k r hr := by
    obtain ⟨n, hn⟩ := h.peer k r hr
    obtain ⟨i, hi⟩ := h'.peer k _ hn
    exact ⟨i, hi⟩

section
variable {t : State} {core id : Nat} {o : MemOp} {a : LaneAcc}

theorem travels_normal (h : a.typ = 0) : Travels t core id o a ↔
    if nearScope o.scope then Asks t core id a.lane .read (sectorOf a.pa) 32 a.key else Asks t core id a.lane (requestOf o a) a.pa o.size a.key := by
  simp only [Travels, h]

theorem travels_peer (h : a.typ = 1) : Travels t core id o a ↔
    ∃ r, (r ∈ (t.link (a.pa / 2 ^ 44)).waiting ∨ r ∈ (t.link (a.pa / 2 ^ 44)).out) ∧ r.core = core ∧ r.op = id ∧ r.lane = a.lane ∧
      r.kind = requestOf o a ∧ r.pa = a.pa % 2 ^ 44 ∧ r.len = o.size := by
  simp only [Travels, h]

theorem travels_port (h : a.typ = 4) : Travels t core id o a ↔
    ∃ r, (if a.key = core then r ∈ t.feq else r ∈ t.spIn) ∧ r.src = core ∧ r.dst = a.key ∧ r.off = a.pa ∧ r.len = o.size ∧ r.op = id ∧
      r.lane = a.lane ∧ r.alloc = a.alloc ∧ r.gen = a.gen ∧ r.fe = o.fe ∧ r.bytes = if o.kind = .store then some a.data else none := by
  simp only [Travels, h]

theorem travels_device (h : a.typ = 2 ∨ a.typ = 3) : Travels t core id o a ↔
    ∃ d ∈ (t.core core).dev, d.op = id ∧ d.lane = a.lane ∧ d.pa = a.pa ∧ d.size = o.size ∧ d.write = (o.kind == .store) ∧
      d.strict = (a.typ == 3) ∧ d.data = BitVec.ofNat 64 (leNat a.data) := by
  rcases h with h | h <;> simp only [Travels, h]

end

theorem Asks.flow {core id lane pa len key : Nat} {kind : ReqKind} {s t : State} (h : Flow core s t) (hq : Asks s core id lane kind pa len key) :
    Asks t core id lane kind pa len key := by
  obtain ⟨n, r, hr, hf⟩ := hq
  exact ⟨n, r, h.window n r hr, hf⟩

/-- The memory types of accesses: of global addresses (R303) and of scratchpads. -/
theorem typ_cases {n : Nat} (h : n ≤ 4) : n = 0 ∨ n = 1 ∨ n = 4 ∨ n = 2 ∨ n = 3 := by omega

/-- An access on its way stays on its way. -/
theorem Travels.flow {core id : Nat} {o : MemOp} {a : LaneAcc} {s t : State} (ha : a.typ ≤ 4) (h : Flow core s t) (ht : Travels s core id o a) :
    Travels t core id o a := by
  rcases typ_cases ha with h0 | h1 | h4 | hd
  · rw [travels_normal h0] at ht ⊢
    split at ht
    · rw [if_pos ‹_›]; exact Asks.flow h ht
    · rw [if_neg ‹_›]; exact Asks.flow h ht
  · rw [travels_peer h1] at ht ⊢
    obtain ⟨r, hr, hf⟩ := ht
    obtain ⟨n, hn⟩ := h.peer _ r hr
    exact ⟨_, hn, hf⟩
  · rw [travels_port h4] at ht ⊢
    obtain ⟨r, hr, hf⟩ := ht
    refine ⟨r, ?_, hf⟩
    split at hr
    · rw [if_pos ‹_›]; exact h.feq r hr
    · rw [if_neg ‹_›]; exact h.spIn r hr
  · rw [travels_device hd] at ht ⊢
    obtain ⟨d, hd', hf⟩ := ht
    exact ⟨d, h.dev d hd', hf⟩

/-- The turn of a core's requests at its own port depends on the requests there, the allocations, the clock and the full bits. -/
theorem State.spBehind_congr {s t : State} (core : Nat) (hq : t.feq = s.feq) (hc : t.clock = s.clock) (ha : t.allocs = s.allocs)
    (hp : ∀ k off, (t.spad k).isFull off = (s.spad k).isFull off) : t.spBehind core core = s.spBehind core core := by
  have hs (r : SpReq) : t.spStale r = s.spStale r := by unfold State.spStale State.stale; rw [ha]
  have hr (r : SpReq) : t.feReady r = s.feReady r := by unfold State.feReady; rw [hs]; simp only [hp]
  unfold State.spBehind State.cc
  rw [hq, hc]
  simp only [hr]

/-- Updates of the core's own lists that only grow. -/
theorem Flow.modCore {core : Nat} (s : State) (f : Core → Core) (hd : ∀ d ∈ (s.core core).dev, d ∈ (f (s.core core)).dev)
    (hw : ∀ n, ∀ r ∈ ((s.core core).paths.get Path.reset n).window, r ∈ ((f (s.core core)).paths.get Path.reset n).window) :
    Flow core s (s.modCore core f) where
  behind := rfl
  feq _ h := h
  spIn _ h := h
  dev d h := by rw [State.core_modCore]; exact hd d h
  window n r h := by unfold pathOf; rw [State.core_modCore]; exact hw n r h
  linkSt _ := rfl
  peer _ r h := ⟨r.sent, h⟩

/-- A change of the L1 alone. -/
theorem Flow.ofL1 {core : Nat} (s : State) (f : Core → Core) (hf : ∃ m, f (s.core core) = { s.core core with l1 := m }) : Flow core s (s.modCore core f) := by
  obtain ⟨m, hm⟩ := hf
  exact Flow.modCore s f (fun d h => by rw [hm]; exact h) fun n r h => by rw [hm]; exact h

/-- Requests and their answers stand in the cores, the links and at the ports; the rest may change. -/
theorem Flow.ofSame {s t : State} (core : Nat) (hc : t.cores = s.cores) (hl : t.links = s.links) (hf : t.feq = s.feq) (hi : t.spIn = s.spIn)
    (hp : t.spads = s.spads) (hk : t.clock = s.clock) (ha : t.allocs = s.allocs) : Flow core s t where
  behind := State.spBehind_congr core hf hk ha fun k off => by unfold State.spad; rw [hp]
  feq _ h := hf ▸ h
  spIn _ h := hi ▸ h
  dev _ h := by unfold State.core; rw [hc]; exact h
  window n r h := by unfold pathOf State.core; rw [hc]; exact h
  linkSt k := by unfold State.link; rw [hl]
  peer k r h := ⟨r.sent, by unfold State.link; rw [hl]; exact h⟩

-- A request to a slice

/-- A request comes last in a replay window of a core, whose phase counts stand as given. -/
def Core.asking (c : Core) (n : Nat) (r : Req) (sent : SMap Nat) : Core :=
  let p := c.paths.get Path.reset n
  { c with paths := c.paths.ins n { p with window := p.window ++ [r] }, sent := sent }

/-- A request that leaves a core stands last in a replay window; of the core, its phase counts change besides. -/
theorem State.sendReq_eq (s : State) (core : Nat) (op : Option Nat) (lane : Nat) (kind : ReqKind) (pa len key : Nat) :
    ∃ n sent phase due, s.sendReq core op lane kind pa len key = { s with fresh := s.fresh + 1 }.modCore core fun c =>
        c.asking n { op := op, lane := lane, kind := kind, pa := pa, len := len, key := key, phase := phase, due := due } sent := by
  let n := (s.core core).pathFor (s.msys.sliceOf pa) pa
  let k := (s.core core).phase * 128 + n
  refine ⟨n, if kind.isWrite then (s.core core).sent.put 0 k ((s.core core).sent.get 0 k + 1) else (s.core core).sent, (s.core core).phase,
    s.cc + Sys2Proof.Config.freeLatency s.fresh, ?_⟩
  unfold State.sendReq State.freeLat Core.asking State.modCore
  dsimp only
  split <;> rfl

theorem Core.mem_window_asking {c : Core} {n k : Nat} {r q : Req} {sent : SMap Nat} :
    q ∈ ((c.asking n r sent).paths.get Path.reset k).window ↔ q ∈ (c.paths.get Path.reset k).window ∨ (k = n ∧ q = r) := by
  unfold Core.asking
  rw [SMap.get_ins]
  by_cases h : k = n
  · subst h; simp
  · simp [h]

-- One access goes its way

/-- A byte of the L1 after a store's access has been made. -/
def storedByte (o : MemOp) (a : LaneAcc) (pa key : Nat) (e : Option (Byte × Bool)) : Option (Byte × Bool) :=
  if LaneAcc.covers a o.size pa key then
    if nearScope o.scope then some (a.data.getD (pa - a.pa) 0, true) else e.map fun _ => (a.data.getD (pa - a.pa) 0, false)
  else e

/-- What an access of a load or store does on its way, beside its answer. -/
structure Sends (core id : Nat) (o : MemOp) (a : LaneAcc) (s w : State) : Prop where
  flow : Flow core s w
  groups : w.groups = s.groups
  op : w.ops.find id = s.ops.find id
  serial : s.serial ≤ w.serial
  room : ∀ k, ((w.link k).window core).length ≤ ((s.link k).window core).length + 1
  loads : o.kind = .load → (w.core core).l1 = (s.core core).l1 ∧ w.spads = s.spads
  stores : o.kind = .store → ∀ pa key, pa < 2 ^ 52 → (w.core core).l1Byte pa key = storedByte o a pa key ((s.core core).l1Byte pa key)
  travels : ¬ AtOnce s core o a ∨ (a.typ = 2 ∧ deviceAnswers 2 a.pa = true) → Travels w core id o a

theorem storedByte_of_not_covers {o : MemOp} {a : LaneAcc} (h : a.typ ≠ 0 ∨ hbmSize ≤ a.pa) (pa key : Nat) (e : Option (Byte × Bool)) :
    storedByte o a pa key e = e := by
  refine if_neg ?_
  unfold LaneAcc.covers
  simp only [Bool.and_eq_true, beq_iff_eq, decide_eq_true_eq]
  omega

/-- An access that sends nothing. -/
theorem Sends.refl {core id : Nat} {o : MemOp} {a : LaneAcc} {s : State} (hc : a.typ ≠ 0 ∨ hbmSize ≤ a.pa ∨ o.kind = .load) (hd : AtOnce s core o a)
    (h2 : ¬ (a.typ = 2 ∧ deviceAnswers 2 a.pa = true)) : Sends core id o a s s where
  flow := Flow.refl core s
  groups := rfl
  op := rfl
  serial := le_rfl
  room _ := Nat.le_succ _
  loads _ := ⟨rfl, rfl⟩
  stores hk pa key _ := by
    refine (storedByte_of_not_covers ?_ pa key _).symm
    rcases hc with h | h | h
    · exact .inl h
    · exact .inr h
    · exact absurd (hk.symm.trans h) (by decide)
  travels h := absurd h (not_or.mpr ⟨not_not_intro hd, h2⟩)

end Sys2Proof.Machine

/-! How each access of a load or store goes: to the L1 or its slice, over a link, to a scratchpad port, to a device (R149, R223, R224, R227, R320). -/

namespace Sys2Proof.Machine

open Sys2Proof.Safety

section
variable {s : State} {core : Nat} {o : MemOp} {a : LaneAcc}

theorem atOnce_normal (h : a.typ = 0) : AtOnce s core o a ↔ hbmSize ≤ a.pa ∨ (s.core core).inL1 o a = true := by simp only [AtOnce, h]

theorem atOnce_peer (h : a.typ = 1) : AtOnce s core o a ↔ (s.link (a.pa / 2 ^ 44)).st = .down ∨ hbmSize ≤ a.pa % 2 ^ 44 := by simp only [AtOnce, h]

theorem atOnce_port (h : a.typ = 4) : AtOnce s core o a ↔ a.key = core ∧ o.fe = none ∧ s.spBehind core core = false := by simp only [AtOnce, h]

theorem atOnce_device (h : a.typ = 2 ∨ a.typ = 3) : AtOnce s core o a ↔ (a.typ = 2 ∧ o.kind = .store) ∨ deviceAnswers a.typ a.pa = false := by
  rcases h with h | h <;> simp [AtOnce, h]

theorem foundAtOnce_normal (h : a.typ = 0) : foundAtOnce s core o a =
    if hbmSize ≤ a.pa then (none, some .busError) else (some ((s.core core).l1Read a.pa a.key o.size), none) := by simp only [foundAtOnce, h]

theorem foundAtOnce_port (h : a.typ = 4) : foundAtOnce s core o a = (some ((s.spad core).read a.pa o.size), none) := by simp only [foundAtOnce, h]

theorem foundAtOnce_absent (h : a.typ = 1 ∨ a.typ = 2 ∨ a.typ = 3) : foundAtOnce s core o a = (none, some .busError) := by
  rcases h with h | h | h <;> simp only [foundAtOnce, h]

/-- In the L1, with a store, whether the core holds the bytes makes no difference. -/
theorem Core.inL1_store (c : Core) (hk : o.kind = .store) (h : a.typ = 0) : c.inL1 o a = nearScope o.scope := by
  simp [Core.inL1, hk, h]

theorem Core.inL1_load (c : Core) (hk : o.kind = .load) (h : a.typ = 0) : c.inL1 o a = (nearScope o.scope && c.l1Holds a.pa a.key o.size) := by
  simp [Core.inL1, hk, h, show (OpKind.load == OpKind.store) = false from rfl]

theorem requestOf_store (hk : o.kind = .store) : requestOf o a = .write a.data := by simp only [requestOf, hk]

theorem requestOf_load (hk : o.kind = .load) (ha : o.atom = none) : requestOf o a = .read := by simp only [requestOf, hk, ha]

end

/-- The answer of an access that is performed, or refused, at once; any other has none yet. -/
def Performs (core id : Nat) (o : MemOp) (a : LaneAcc) (s w t : State) : Prop :=
  (¬ AtOnce s core o a ∧ t = w) ∨
  (AtOnce s core o a ∧ ∃ ans, t = w.laneDone id a.lane ans.1 ans.2 ∧ (o.kind = .load → ans = foundAtOnce s core o a))

/-- An access that is answered at once and sends nothing. -/
theorem performs_at_once {core id : Nat} {o : MemOp} {a : LaneAcc} {s t : State} (hc : a.typ ≠ 0 ∨ hbmSize ≤ a.pa ∨ o.kind = .load)
    (hat : AtOnce s core o a) (h2 : ¬ (a.typ = 2 ∧ deviceAnswers 2 a.pa = true)) (ans : Option (List Byte) × Option Cause)
    (he : t = s.laneDone id a.lane ans.1 ans.2) (hf : o.kind = .load → ans = foundAtOnce s core o a) :
    ∃ w, Sends core id o a s w ∧ Performs core id o a s w t := ⟨s, Sends.refl hc hat h2, .inr ⟨hat, ans, he, hf⟩⟩

/-- A request to a slice, behind what the access has changed in the L1. -/
theorem Sends.asks {core id : Nat} {o : MemOp} {a : LaneAcc} {s u : State} {kind : ReqKind} {pa len : Nat} (hu : Flow core s u)
    (hg : u.groups = s.groups) (ho : u.ops = s.ops) (hn : u.serial = s.serial) (hk : u.links = s.links) (hp : u.spads = s.spads)
    (hl : o.kind = .load → (u.core core).l1 = (s.core core).l1)
    (hs : o.kind = .store → ∀ p key, p < 2 ^ 52 → (u.core core).l1Byte p key = storedByte o a p key ((s.core core).l1Byte p key))
    (ht : ∀ t, Asks t core id a.lane kind pa len a.key → Travels t core id o a) :
    Sends core id o a s (u.sendReq core (some id) a.lane kind pa len a.key) := by
  obtain ⟨n, sent, phase, due, he⟩ := State.sendReq_eq u core (some id) a.lane kind pa len a.key
  rw [he]
  set v : State := { u with fresh := u.fresh + 1 }
  set f : Core → Core := fun c => c.asking n ⟨some id, a.lane, kind, pa, len, a.key, phase, due⟩ sent
  have hl1 : ((v.modCore core f).core core).l1 = (u.core core).l1 := by rw [State.core_modCore]; rfl
  refine ⟨(hu.trans (Flow.ofSame core (t := v) rfl rfl rfl rfl rfl rfl rfl)).trans
      (Flow.modCore v f (fun d h => h) fun k r h => Core.mem_window_asking.mpr (.inl h)), hg, congrArg (SMap.find · id) ho, hn.ge,
    fun k => by rw [show (v.modCore core f).link k = s.link k from congrArg (SMap.get Link.reset · k) hk]; exact Nat.le_succ _,
    fun h => ⟨hl1.trans (hl h), hp⟩, fun h p key hpa => ?_, fun _ => ht _ ?_⟩
  · unfold Core.l1Byte
    rw [hl1]
    exact hs h p key hpa
  · exact ⟨n, _, by unfold pathOf; rw [State.core_modCore]; exact Core.mem_window_asking.mpr (.inr ⟨rfl, rfl⟩), rfl, rfl, rfl, rfl, rfl, rfl⟩

/-- A request to a slice for a load. -/
theorem Sends.asks_load {core id : Nat} {o : MemOp} {a : LaneAcc} (s : State) {kind : ReqKind} {pa len : Nat} (hk : o.kind = .load)
    (ht : ∀ t, Asks t core id a.lane kind pa len a.key → Travels t core id o a) :
    Sends core id o a s (s.sendReq core (some id) a.lane kind pa len a.key) :=
  Sends.asks (Flow.refl core s) rfl rfl rfl rfl rfl (fun _ => rfl) (fun h => absurd (hk.symm.trans h) (by decide)) ht

/-- Loads and stores: no atomics, no full/empty accesses, each lane once. -/
structure LoadOrStore (o : MemOp) : Prop where
  kind : o.kind = .load ∨ o.kind = .store
  atom : o.atom = none
  fe : o.fe = none
  size : o.size ≤ 16
  typ : ∀ a ∈ o.accs, a.typ ≤ 4
  data : o.kind = .store → ∀ a ∈ o.accs, a.data.length = o.size
  lanes : (o.accs.map (·.lane)).Nodup
  fresh : ∀ a ∈ o.accs, a.done = false

section
variable {s : State} {core id : Nat} {o : MemOp} {a : LaneAcc}

theorem State.startNormal_absent (h : hbmSize ≤ a.pa) : s.startNormal core id o a = s.laneDone id a.lane none (some .busError) := if_pos h

theorem State.startNormal_load (hk : o.kind = .load) (h : ¬ hbmSize ≤ a.pa) : s.startNormal core id o a =
    if nearScope o.scope then
      if (s.core core).l1Holds a.pa a.key o.size then s.laneDone id a.lane (some ((s.core core).l1Read a.pa a.key o.size)) none
      else s.sendReq core (some id) a.lane .read (sectorOf a.pa) 32 a.key
    else s.sendReq core (some id) a.lane .read a.pa o.size a.key := by
  unfold State.startNormal
  rw [if_neg h]
  simp only [hk]

theorem State.startNormal_store (hk : o.kind = .store) (h : ¬ hbmSize ≤ a.pa) : s.startNormal core id o a =
    if nearScope o.scope then (s.modCore core fun k => k.l1Write a.key true a.pa a.data).laneDone id a.lane none none
    else (s.modCore core fun k => k.l1Through a.key a.pa a.data).sendReq core (some id) a.lane (.write a.data) a.pa o.size a.key := by
  unfold State.startNormal
  rw [if_neg h]
  simp only [hk]

theorem covers_iff {n pa key : Nat} (ht : a.typ = 0) (h : ¬ hbmSize ≤ a.pa) :
    LaneAcc.covers a n pa key = true ↔ key = a.key ∧ a.pa ≤ pa ∧ pa < a.pa + n := by
  unfold LaneAcc.covers
  simp only [ht, Bool.and_eq_true, beq_iff_eq, decide_eq_true_eq, true_and, eq_comm (a := key)]
  omega

theorem hbm_end {n : Nat} (hn : n ≤ 16) (h : ¬ hbmSize ≤ a.pa) : a.pa + n ≤ 2 ^ 52 := by
  have hb : hbmSize ≤ 2 ^ 40 := by decide
  omega

/-- Bytes stored near. -/
theorem Core.l1Byte_store_near (c : Core) (hn : nearScope o.scope = true) (ht : a.typ = 0) (h : ¬ hbmSize ≤ a.pa) (hs : o.size ≤ 16)
    (hd : a.data.length = o.size) {pa : Nat} (key : Nat) (hp : pa < 2 ^ 52) :
    (c.l1Write a.key true a.pa a.data).l1Byte pa key = storedByte o a pa key (c.l1Byte pa key) := by
  rw [Core.l1Byte_l1Write _ _ _ hp (hd ▸ hbm_end hs h), hd, storedByte, if_pos hn]
  simp only [covers_iff ht h]

/-- Bytes stored past the copies that the L1 holds. -/
theorem Core.l1Byte_store_far (c : Core) (hn : ¬ nearScope o.scope = true) (ht : a.typ = 0) (h : ¬ hbmSize ≤ a.pa) (hs : o.size ≤ 16)
    (hd : a.data.length = o.size) {pa : Nat} (key : Nat) (hp : pa < 2 ^ 52) :
    (c.l1Through a.key a.pa a.data).l1Byte pa key = storedByte o a pa key (c.l1Byte pa key) := by
  rw [Core.l1Byte_l1Through _ _ hp (hd ▸ hbm_end hs h), hd, storedByte, if_neg hn]
  simp only [covers_iff ht h]

theorem startNormal_sends (hl : LoadOrStore o) (ha : a ∈ o.accs) (ht : a.typ = 0) :
    ∃ w, Sends core id o a s w ∧ Performs core id o a s w (s.startNormal core id o a) := by
  have h2 : ¬ (a.typ = 2 ∧ deviceAnswers 2 a.pa = true) := fun h => by rw [ht] at h; exact absurd h.1 (by decide)
  by_cases hp : hbmSize ≤ a.pa
  · have hat : AtOnce s core o a := (atOnce_normal ht).mpr (.inl hp)
    exact performs_at_once (.inr (.inl hp)) hat h2 (none, some .busError) (State.startNormal_absent hp) fun _ => by rw [foundAtOnce_normal ht, if_pos hp]
  rcases hl.kind with hk | hk
  · have hat : AtOnce s core o a ↔ nearScope o.scope = true ∧ (s.core core).l1Holds a.pa a.key o.size = true := by
      rw [atOnce_normal ht, or_iff_right hp, Core.inL1_load _ hk ht, Bool.and_eq_true]
    rw [State.startNormal_load hk hp]
    split
    · next hn =>
      split
      · next hh =>
        exact performs_at_once (.inr (.inr hk)) (hat.mpr ⟨hn, hh⟩) h2 (some _, none) rfl fun _ => by rw [foundAtOnce_normal ht, if_neg hp]
      · next hh =>
        refine ⟨_, Sends.asks_load s hk (fun t h => ?_), .inl ⟨fun h => hh (hat.mp h).2, rfl⟩⟩
        rw [travels_normal ht, if_pos hn]
        exact h
    · next hn =>
      refine ⟨_, Sends.asks_load s hk (fun t h => ?_), .inl ⟨fun h => hn (hat.mp h).1, rfl⟩⟩
      rw [travels_normal ht, if_neg hn, requestOf_load hk hl.atom]
      exact h
  · have hld : o.kind ≠ .load := by rw [hk]; decide
    have hat : AtOnce s core o a ↔ nearScope o.scope = true := by rw [atOnce_normal ht, or_iff_right hp, Core.inL1_store _ hk ht]
    rw [State.startNormal_store hk hp]
    split
    · next hn =>
      refine ⟨s.modCore core fun k => k.l1Write a.key true a.pa a.data,
        ⟨Flow.ofL1 s _ (Core.l1Write_eq ..), rfl, rfl, le_rfl, fun _ => Nat.le_succ _, fun h => absurd h hld, fun _ pa key hpa => ?_,
          fun h => absurd h (not_or.mpr ⟨not_not_intro (hat.mpr hn), h2⟩)⟩, .inr ⟨hat.mpr hn, (none, none), rfl, fun h => absurd h hld⟩⟩
      rw [State.core_modCore]
      exact Core.l1Byte_store_near _ hn ht hp hl.size (hl.data hk a ha) key hpa
    · next hn =>
      refine ⟨_, Sends.asks (Flow.ofL1 s _ (Core.l1Through_eq ..)) rfl rfl rfl rfl rfl (fun h => absurd h hld)
        (fun _ pa key hpa => by rw [State.core_modCore]; exact Core.l1Byte_store_far _ hn ht hp hl.size (hl.data hk a ha) key hpa) (fun t h => ?_),
        .inl ⟨mt hat.mp hn, rfl⟩⟩
      rw [travels_normal ht, if_neg hn, requestOf_store hk]
      exact h

end

-- Accesses over a link (R320)

theorem State.link_setLink (s : State) (k j : Nat) (f : Link → Link) : (s.modLink k f).link j = if j = k then f (s.link k) else s.link j := by
  unfold State.link State.modLink
  exact SMap.get_ins ..

/-- Links and the device's outputs alone differ, and of a link neither its state nor the accesses on it. -/
structure SameWires (s t : State) : Prop where
  eq : ∃ ls os, t = { s with links := ls, outbox := os }
  link : ∀ k, (t.link k).st = (s.link k).st ∧ (t.link k).waiting = (s.link k).waiting ∧ (t.link k).out = (s.link k).out

theorem SameWires.sendFlit (s : State) (k kind : Nat) (body : List Byte) : SameWires s (s.sendFlit k kind body) where
  eq := ⟨_, _, rfl⟩
  link j := by
    have he (t : State) (o : Out) : (t.emit o).link j = t.link j := rfl
    rw [State.sendFlit, he, State.link_setLink]
    split
    · next e => subst e; exact ⟨rfl, rfl, rfl⟩
    · exact ⟨rfl, rfl, rfl⟩

theorem SameWires.trans {s t u : State} (h : SameWires s t) (h' : SameWires t u) : SameWires s u where
  eq := by
    obtain ⟨ls, os, rfl⟩ := h.eq
    obtain ⟨ls', os', rfl⟩ := h'.eq
    exact ⟨ls', os', rfl⟩
  link k := by
    obtain ⟨h1, h2, h3⟩ := h.link k
    obtain ⟨h1', h2', h3'⟩ := h'.link k
    exact ⟨h1'.trans h1, h2'.trans h2, h3'.trans h3⟩

theorem SameWires.flits (rs : List PeerReq) (s : State) (k : Nat) : SameWires s (rs.foldl (fun s r => s.sendFlit k 1 r.body) s) := by
  induction rs generalizing s with
  | nil => exact ⟨⟨_, _, rfl⟩, fun _ => ⟨rfl, rfl, rfl⟩⟩
  | cons r t ih => exact (SameWires.sendFlit s k 1 r.body).trans (ih _)

/-- Accesses that wait for a link stay there or go out, whatever goes out over it. -/
structure Wired (s t : State) : Prop where
  eq : ∃ ls os, t = { s with links := ls, outbox := os }
  st : ∀ k, (t.link k).st = (s.link k).st
  waiting : ∀ k, (t.link k).waiting.Sublist (s.link k).waiting
  peer : ∀ k r, (r ∈ (s.link k).waiting ∨ r ∈ (s.link k).out) →
    ∃ n, { r with sent := n } ∈ (t.link k).waiting ∨ { r with sent := n } ∈ (t.link k).out

theorem Wired.flowLink (s : State) (k : Nat) : Wired s (s.flowLink k) := by
  unfold State.flowLink
  dsimp only
  split
  · exact ⟨⟨_, _, rfl⟩, fun _ => rfl, fun _ => .refl _, fun _ r h => ⟨r.sent, h⟩⟩
  · set n := 4096 - (s.link k).out.length
    set rs := ((s.link k).waiting.take n).map fun r : PeerReq => { r with sent := s.clock.ns } with hrs
    set f : Link → Link := fun l => { l with out := l.out ++ rs, waiting := l.waiting.drop n }
    have h := SameWires.flits rs (s.modLink k f) k
    have hk (j : Nat) := s.link_setLink k j f
    refine ⟨?_, fun j => ?_, fun j => ?_, fun j r hr => ?_⟩
    · obtain ⟨ls, os, e⟩ := h.eq
      exact ⟨ls, os, e⟩
    · rw [(h.link j).1, hk]
      split
      · next e => rw [e]
      · rfl
    · rw [(h.link j).2.1, hk]
      split
      · next e => rw [e]; exact List.drop_sublist ..
      · exact .refl _
    · rw [(h.link j).2.1, (h.link j).2.2, hk]
      split
      · next e =>
        subst e
        show ∃ i, _ ∈ (s.link j).waiting.drop n ∨ _ ∈ (s.link j).out ++ rs
        rcases hr with hr | hr
        · rw [← List.take_append_drop n (s.link j).waiting] at hr
          rcases List.mem_append.mp hr with hr | hr
          · exact ⟨s.clock.ns, .inr (List.mem_append_right _ (hrs ▸ List.mem_map_of_mem hr))⟩
          · exact ⟨r.sent, .inl hr⟩
        · exact ⟨r.sent, .inr (List.mem_append_left _ hr)⟩
      · exact ⟨r.sent, hr⟩

theorem Wired.flow {s t : State} (h : Wired s t) (core : Nat) : Flow core s t := by
  obtain ⟨ls, os, e⟩ := h.eq
  have hc : t.cores = s.cores := by rw [e]
  have hf : t.feq = s.feq := by rw [e]
  have hi : t.spIn = s.spIn := by rw [e]
  have hp : t.spads = s.spads := by rw [e]
  have hk : t.clock = s.clock := by rw [e]
  have ha : t.allocs = s.allocs := by rw [e]
  exact { behind := State.spBehind_congr core hf hk ha fun k off => by unfold State.spad; rw [hp]
          feq := fun r hr => hf ▸ hr
          spIn := fun r hr => hi ▸ hr
          dev := fun d hd => by unfold State.core; rw [hc]; exact hd
          window := fun n r hr => by unfold pathOf State.core; rw [hc]; exact hr
          linkSt := h.st
          peer := h.peer }

/-- An access takes its place among those that wait for a link. -/
theorem Flow.wait (core : Nat) (s : State) (k : Nat) (r : PeerReq) : Flow core s (s.modLink k fun l => { l with waiting := l.waiting ++ [r] }) := by
  have hk (j : Nat) := s.link_setLink k j fun l => { l with waiting := l.waiting ++ [r] }
  exact { behind := rfl
          feq := fun _ h => h
          spIn := fun _ h => h
          dev := fun _ h => h
          window := fun _ _ h => h
          linkSt := fun j => by rw [hk]; split
                                · next e => rw [e]
                                · rfl
          peer := fun j q hq => by
            refine ⟨q.sent, ?_⟩
            rw [hk]
            split
            · next e => subst e; exact hq.imp (List.mem_append_left _) fun h => h
            · exact hq }

section
variable {s : State} {core id : Nat} {o : MemOp} {a : LaneAcc}

theorem State.sendPeer_refused {kind : ReqKind} {lane pa len : Nat} (h : (s.link (pa / 2 ^ 44)).st = .down ∨ hbmSize ≤ pa % 2 ^ 44) :
    s.sendPeer core id lane kind pa len = s.laneDone id lane none (some .busError) := by
  refine if_pos ?_
  simpa using h

/-- An access over a link, as it waits for it. -/
def peerReq (s : State) (core id lane : Nat) (kind : ReqKind) (pa len : Nat) : PeerReq :=
  { core := core, op := id, lane := lane, kind := kind, pa := pa % 2 ^ 44, len := len, sent := s.clock.ns, late := false }

theorem State.sendPeer_taken {kind : ReqKind} {lane pa len : Nat} (h : ¬ ((s.link (pa / 2 ^ 44)).st = .down ∨ hbmSize ≤ pa % 2 ^ 44)) :
    s.sendPeer core id lane kind pa len =
      (s.modLink (pa / 2 ^ 44) fun l => { l with waiting := l.waiting ++ [peerReq s core id lane kind pa len] }).flowLink (pa / 2 ^ 44) := by
  refine if_neg ?_
  simpa using h

/-- The state in which an access over a link waits for it. -/
def State.peerWaiting (s : State) (k : Nat) (r : PeerReq) : State := s.modLink k fun l => { l with waiting := l.waiting ++ [r] }

theorem Sends.peer (ht : a.typ = 1) :
    Sends core id o a s ((s.peerWaiting (a.pa / 2 ^ 44) (peerReq s core id a.lane (requestOf o a) a.pa o.size)).flowLink (a.pa / 2 ^ 44)) := by
  set k := a.pa / 2 ^ 44
  set r := peerReq s core id a.lane (requestOf o a) a.pa o.size
  set u := s.peerWaiting k r
  have hk (j : Nat) : u.link j = if j = k then { s.link k with waiting := (s.link k).waiting ++ [r] } else s.link j :=
    s.link_setLink k j fun l => { l with waiting := l.waiting ++ [r] }
  have hw := Wired.flowLink u k
  obtain ⟨ls, os, e⟩ := hw.eq
  refine ⟨(Flow.wait core s k r).trans (hw.flow core), by rw [e]; rfl, by rw [e]; rfl, by rw [e]; exact le_rfl, fun j => ?_,
    fun _ => by rw [e]; exact ⟨rfl, rfl⟩, fun _ pa key _ => ?_, fun _ => ?_⟩
  · refine ((hw.waiting j).filter _).length_le.trans ?_
    rw [hk]
    unfold Link.window
    split
    · next ej => subst ej; rw [List.filter_append, List.length_append]; exact Nat.add_le_add_left (List.length_filter_le _ [r]) _
    · exact Nat.le_succ _
  · rw [storedByte_of_not_covers (.inl (by omega)), e]
    rfl
  · rw [travels_peer ht]
    obtain ⟨n, hn⟩ := hw.peer k r (.inl (by rw [hk, if_pos rfl]; exact List.mem_append_right _ (List.mem_singleton_self r)))
    exact ⟨_, hn, rfl, rfl, rfl, rfl, rfl, rfl⟩

theorem State.startAcc_peer (hl : LoadOrStore o) (ht : a.typ = 1) : s.startAcc core id o a = s.sendPeer core id a.lane (requestOf o a) a.pa o.size := by
  unfold State.startAcc
  simp only [ht]
  rcases hl.kind with hk | hk
  · simp only [hk, hl.atom, requestOf]
  · simp only [hk, requestOf]

theorem startPeer_sends (hl : LoadOrStore o) (ht : a.typ = 1) : ∃ w, Sends core id o a s w ∧ Performs core id o a s w (s.startAcc core id o a) := by
  have h2 : ¬ (a.typ = 2 ∧ deviceAnswers 2 a.pa = true) := fun h => by omega
  rw [State.startAcc_peer hl ht]
  by_cases h : (s.link (a.pa / 2 ^ 44)).st = .down ∨ hbmSize ≤ a.pa % 2 ^ 44
  · have hat : AtOnce s core o a := (atOnce_peer ht).mpr h
    exact performs_at_once (.inl (by omega)) hat h2 (none, some .busError) (State.sendPeer_refused h) fun _ => (foundAtOnce_absent (.inl ht)).symm
  · exact ⟨_, Sends.peer ht, .inl ⟨mt (atOnce_peer ht).mp h, State.sendPeer_taken h⟩⟩

-- Accesses at scratchpad ports (R227)

theorem mem_insFe {r q : SpReq} {l : List SpReq} : q ∈ insFe r l ↔ q = r ∨ q ∈ l := by
  induction l with
  | nil => simp [insFe]
  | cons b t ih =>
    unfold insFe
    split
    · simp
    · simp [ih, or_left_comm]

/-- A request at a scratchpad port, as its core sends it. -/
def portReq (s : State) (core id : Nat) (o : MemOp) (a : LaneAcc) : SpReq :=
  { src := core, dst := a.key, off := a.pa, len := o.size, bytes := if o.kind = .store then some a.data else none, alloc := a.alloc, gen := a.gen,
    tag := 0, issued := s.clock.ns, op := id, lane := a.lane, fe := o.fe, rank := if a.key = core then 0 else 1 + s.memberNo o.gid,
    arr := s.cc, arrNs := s.clock.ns }

theorem State.startAcc_port (ht : a.typ = 4) : s.startAcc core id o a = s.sendSp core id o a := by
  unfold State.startAcc
  simp only [ht]

theorem State.sendSp_away (hk : a.key ≠ core) : s.sendSp core id o a = { s with spIn := s.spIn ++ [portReq s core id o a] } := by
  unfold State.sendSp
  simp only [portReq, beq_iff_eq]
  exact if_pos hk

theorem State.sendSp_here (hf : o.fe = none) (hk : a.key = core) : s.sendSp core id o a =
    if s.spBehind core core then s.queueFe (portReq s core id o a)
    else if o.kind = .store then (s.modSpad core fun p => p.write 0 a.pa a.data).laneDone id a.lane none none
    else s.laneDone id a.lane (some ((s.spad core).read a.pa o.size)) none := by
  unfold State.sendSp
  simp only [portReq, beq_iff_eq, hf]
  exact if_neg (not_not_intro hk)

/-- A core's request that reaches its own port behind others of it is behind them still. -/
theorem Flow.queueFe {r : SpReq} (hb : s.spBehind core core = true) : Flow core s (s.queueFe r) where
  behind := by
    rw [hb]
    obtain ⟨q, hq, hf⟩ := List.any_eq_true.mp hb
    exact List.any_eq_true.mpr ⟨q, mem_insFe.mpr (.inr hq), hf⟩
  feq _ h := mem_insFe.mpr (.inr h)
  spIn _ h := h
  dev _ h := h
  window _ _ h := h
  linkSt _ := rfl
  peer _ r h := ⟨r.sent, h⟩

theorem State.spad_modSpad (k j : Nat) (f : Spad → Spad) : (s.modSpad k f).spad j = if j = k then f (s.spad k) else s.spad j := by
  unfold State.spad State.modSpad
  exact SMap.get_ins ..

theorem Flow.modSpad {off : Nat} {bs : List Byte} : Flow core s (s.modSpad core fun p => p.write 0 off bs) where
  behind := State.spBehind_congr core rfl rfl rfl fun k x => by
    rw [State.spad_modSpad]
    split
    · next e => rw [e, Spad.isFull_write]
    · rfl
  feq _ h := h
  spIn _ h := h
  dev _ h := h
  window _ _ h := h
  linkSt _ := rfl
  peer _ r h := ⟨r.sent, h⟩

/-- A request to another core's port goes out last. -/
theorem Flow.spInAppend (r : SpReq) : Flow core s { s with spIn := s.spIn ++ [r] } where
  behind := rfl
  feq _ h := h
  spIn _ h := List.mem_append_left _ h
  dev _ h := h
  window _ _ h := h
  linkSt _ := rfl
  peer _ r h := ⟨r.sent, h⟩

theorem startPort_sends (hl : LoadOrStore o) (ht : a.typ = 4) : ∃ w, Sends core id o a s w ∧ Performs core id o a s w (s.startAcc core id o a) := by
  have h2 : ¬ (a.typ = 2 ∧ deviceAnswers 2 a.pa = true) := fun h => by omega
  have hc (pa key : Nat) (e : Option (Byte × Bool)) : storedByte o a pa key e = e := storedByte_of_not_covers (.inl (by omega)) pa key e
  rw [State.startAcc_port ht]
  by_cases hk : a.key = core
  · rw [State.sendSp_here hl.fe hk]
    have hat : AtOnce s core o a ↔ s.spBehind core core = false := by rw [atOnce_port ht]; exact ⟨fun h => h.2.2, fun h => ⟨hk, hl.fe, h⟩⟩
    split
    · next hb =>
      refine ⟨_, ⟨Flow.queueFe hb, rfl, rfl, le_rfl, fun _ => Nat.le_succ _, fun _ => ⟨rfl, rfl⟩, fun _ pa key _ => (hc pa key _).symm, fun _ => ?_⟩,
        .inl ⟨fun h => by rw [hat.mp h] at hb; exact absurd hb (by decide), rfl⟩⟩
      rw [travels_port ht]
      exact ⟨_, by rw [if_pos hk]; exact mem_insFe.mpr (.inl rfl), rfl, rfl, rfl, rfl, rfl, rfl, rfl, rfl, rfl, rfl⟩
    · next hb =>
      have hd : AtOnce s core o a := hat.mpr (Bool.eq_false_iff.mpr hb)
      split
      · next hst =>
        have hld : o.kind ≠ .load := by rw [hst]; decide
        exact ⟨_, ⟨Flow.modSpad, rfl, rfl, le_rfl, fun _ => Nat.le_succ _, fun h => absurd h hld, fun _ pa key _ => (hc pa key _).symm,
          fun h => absurd h (not_or.mpr ⟨not_not_intro hd, h2⟩)⟩, .inr ⟨hd, (none, none), rfl, fun h => absurd h hld⟩⟩
      · exact performs_at_once (.inl (by omega)) hd h2 (some _, none) rfl fun _ => (foundAtOnce_port ht).symm
  · rw [State.sendSp_away hk]
    refine ⟨{ s with spIn := s.spIn ++ [portReq s core id o a] }, ⟨Flow.spInAppend .., rfl, rfl, le_rfl, fun _ => Nat.le_succ _, fun _ => ⟨rfl, rfl⟩,
      fun _ pa key _ => (hc pa key _).symm, fun _ => ?_⟩, .inl ⟨fun h => hk ((atOnce_port ht).mp h).1, rfl⟩⟩
    rw [travels_port ht]
    exact ⟨_, by rw [if_neg hk]; exact List.mem_append_right _ (List.mem_singleton_self _), rfl, rfl, rfl, rfl, rfl, rfl, rfl, rfl, rfl, rfl⟩

end

section
variable {s : State} {core id : Nat} {o : MemOp} {a : LaneAcc}

-- Device accesses (R223)

theorem State.startAcc_device (ht : a.typ = 2 ∨ a.typ = 3) : s.startAcc core id o a = s.sendDevice core id o a := by
  unfold State.startAcc
  rcases ht with ht | ht <;> simp only [ht]

theorem State.sendDevice_absent (h : deviceAnswers a.typ a.pa = false) : s.sendDevice core id o a = s.laneDone id a.lane none (some .busError) := by
  unfold State.sendDevice
  rw [h]
  rfl

/-- The device access of a lane. -/
structure IsDevReq (id : Nat) (o : MemOp) (a : LaneAcc) (r : DevReq) : Prop where
  op : r.op = id
  lane : r.lane = a.lane
  pa : r.pa = a.pa
  size : r.size = o.size
  write : r.write = (o.kind == .store)
  strict : r.strict = (a.typ == 3)
  data : r.data = BitVec.ofNat 64 (leNat a.data)

/-- A device access as its core sends it; the copy that it may start has no number yet. -/
def devReq (s : State) (core id : Nat) (o : MemOp) (a : LaneAcc) : DevReq :=
  let g := s.group? o.gid
  { op := id, lane := a.lane, write := o.kind == .store, pa := a.pa, size := o.size, data := BitVec.ofNat 64 (leNat a.data), strict := a.typ == 3, gid := o.gid,
    pc := o.pc, va := a.va, nf := o.nf, inTrap := o.inTrap, lanes := if o.u then o.lanes else laneBit a.lane,
    wg := (g.map (·.info.wg)).getD 0, space := (g.map s.gspace).getD ((s.core core).space true), poster := g.elim (.of o.gid) (·.poster o.gid), copy := none }

/-- The copy that a device access starts is an operation of a number of its own (R256). -/
def State.withCopy (s : State) (r : DevReq) : DevReq × State :=
  if (apertureStart r).isNone then (r, s)
  else ({ r with copy := some s.serial },
    { s with serial := s.serial + 1, ops := s.ops.ins s.serial (copyOp r.poster.gid r.pc false r.lanes none [r.lane] 4) })

theorem State.withCopy_eq (s : State) (r : DevReq) : ∃ copy n ops, s.withCopy r = ({ r with copy := copy }, { s with serial := n, ops := ops }) ∧
    s.serial ≤ n ∧ ∀ k, k ≠ s.serial → SMap.find ops k = s.ops.find k := by
  unfold State.withCopy
  split
  · exact ⟨r.copy, s.serial, s.ops, rfl, le_rfl, fun _ _ => rfl⟩
  · exact ⟨_, _, _, rfl, Nat.le_succ _, fun k hk => SMap.find_ins_ne _ _ hk⟩

theorem State.sendDevice_answered (h : deviceAnswers a.typ a.pa = true) : s.sendDevice core id o a =
    let p := s.withCopy (devReq s core id o a)
    let w := p.2.modCore core fun c => { c with dev := c.dev ++ [p.1] }
    if o.kind == .store && a.typ == 2 then w.laneDone id a.lane none none else w := by
  unfold State.sendDevice
  rw [h]
  rfl

/-- A device access comes last on the core's path. -/
theorem State.sendDevice_taken (h : deviceAnswers a.typ a.pa = true) : ∃ r n ops, IsDevReq id o a r ∧ s.serial ≤ n ∧
    (∀ k, k ≠ s.serial → SMap.find ops k = s.ops.find k) ∧
    s.sendDevice core id o a =
      let w := { s with serial := n, ops := ops }.modCore core fun c => { c with dev := c.dev ++ [r] }
      if o.kind = .store ∧ a.typ = 2 then w.laneDone id a.lane none none else w := by
  obtain ⟨copy, n, ops, e, hn, ho⟩ := s.withCopy_eq (devReq s core id o a)
  refine ⟨{ devReq s core id o a with copy := copy }, n, ops, ⟨rfl, rfl, rfl, rfl, rfl, rfl, rfl⟩, hn, ho, ?_⟩
  rw [State.sendDevice_answered h, e]
  simp only [Bool.and_eq_true, beq_iff_eq]

theorem Sends.device (hs : id < s.serial) (ht : a.typ = 2 ∨ a.typ = 3) {r : DevReq} (hr : IsDevReq id o a r) {n : Nat} (hn : s.serial ≤ n) {ops : SMap MemOp}
    (ho : ∀ k, k ≠ s.serial → SMap.find ops k = s.ops.find k) :
    Sends core id o a s ({ s with serial := n, ops := ops }.modCore core fun c => { c with dev := c.dev ++ [r] }) := by
  set u : State := { s with serial := n, ops := ops }
  set f : Core → Core := fun c => { c with dev := c.dev ++ [r] }
  have hc : (u.modCore core f).core core = f (s.core core) := State.core_modCore u core f
  refine ⟨(Flow.ofSame (s := s) core (t := u) rfl rfl rfl rfl rfl rfl rfl).trans (Flow.modCore u f (fun d h => List.mem_append_left _ h) fun _ _ h => h),
    rfl, ho id hs.ne, hn, fun _ => Nat.le_succ _, fun _ => ⟨by rw [hc], rfl⟩, fun _ pa key _ => ?_, fun _ => ?_⟩
  · rw [storedByte_of_not_covers (.inl (by omega)), hc]
    rfl
  · rw [travels_device ht, hc]
    exact ⟨r, List.mem_append_right _ (List.mem_singleton_self r), hr.op, hr.lane, hr.pa, hr.size, hr.write, hr.strict, hr.data⟩

theorem startDevice_sends (hs : id < s.serial) (ht : a.typ = 2 ∨ a.typ = 3) :
    ∃ w, Sends core id o a s w ∧ Performs core id o a s w (s.startAcc core id o a) := by
  rw [State.startAcc_device ht]
  cases hd : deviceAnswers a.typ a.pa with
  | false =>
    have hat : AtOnce s core o a := (atOnce_device ht).mpr (.inr hd)
    have h2 : ¬ (a.typ = 2 ∧ deviceAnswers 2 a.pa = true) := by rintro ⟨h, h'⟩; rw [h, h'] at hd; exact absurd hd (by decide)
    exact performs_at_once (.inl (by omega)) hat h2 (none, some .busError) (State.sendDevice_absent hd) fun _ => (foundAtOnce_absent (.inr ht)).symm
  | true =>
    obtain ⟨r, n, ops, hr, hn, ho, e⟩ := State.sendDevice_taken (s := s) (core := core) (id := id) (o := o) hd
    have hat : AtOnce s core o a ↔ o.kind = .store ∧ a.typ = 2 := by rw [atOnce_device ht, hd]; simp [and_comm]
    refine ⟨_, Sends.device hs ht hr hn ho, ?_⟩
    rw [e]
    dsimp only
    split
    · next h => exact .inr ⟨hat.mpr h, (none, none), rfl, fun hk => absurd (h.1.symm.trans hk) (by decide)⟩
    · next h => exact .inl ⟨mt hat.mp h, rfl⟩

/-- What an access of a load or store does as it is started (R149, R224, R227, R320, R223). -/
theorem startAcc_sends (hl : LoadOrStore o) (ha : a ∈ o.accs) (hs : id < s.serial) :
    ∃ w, Sends core id o a s w ∧ Performs core id o a s w (s.startAcc core id o a) := by
  rcases typ_cases (hl.typ a ha) with h | h | h | h
  · rw [show s.startAcc core id o a = s.startNormal core id o a by unfold State.startAcc; simp only [h]]
    exact startNormal_sends hl ha h
  · exact startPeer_sends hl h
  · exact startPort_sends hl h
  · exact startDevice_sends hs h

end

end Sys2Proof.Machine

/-! An operation of loads or stores: its answers, its end, and its accesses one after the other (R76, R148, R149). -/

namespace Sys2Proof.Machine

open Sys2Proof.Safety

-- An operation is answered, lane by lane (R76, R148)

/-- A write that ends wakes runs; of the group, nothing else that is spoken of here changes. -/
theorem Group.unmark_keeps (g : Group) (id : Nat) : (g.unmark id).info = g.info ∧ (g.unmark id).regs = g.regs := by
  unfold Group.unmark
  refine List.foldlRecOn (motive := fun k : Group => k.info = g.info ∧ k.regs = g.regs) _ _ ⟨rfl, rfl⟩ fun k hk r _ => ?_
  split
  · split
    · dsimp only
      split <;> simpa using hk
    · exact hk
  · split
    · dsimp only
      split <;> simpa using hk
    · exact hk
  · exact hk

theorem Group.ctr_congr {g k : Group} (h : k.regs = g.regs) (c : Nat) : k.ctr c = g.ctr c := by
  unfold Group.ctr
  rw [h]

theorem Group.ctr_decCtr (g : Group) (c : Nat) : (g.decCtr c).ctr c = g.ctr c - 1 := by
  match c with
  | 0 | 1 | 2 | 3 => rfl
  | _ + 4 => rfl

theorem Group.ctr_incCtr (g : Group) {c : Nat} (h : c ≤ 3) : (g.incCtr c).ctr c = g.ctr c + 1 := by
  match c, h with
  | 0, _ | 1, _ | 2, _ | 3, _ => rfl

theorem Group.ctr_wrPAll (g : Group) (n : Nat) (ls : List Nat) (f : Nat → Bool) (c : Nat) : (g.wrPAll n ls f).ctr c = g.ctr c := by
  obtain ⟨-, -, -, -, -, -, -, -, -, -, -, hld, hst, hcp, htl, -⟩ := g.wrPAll_frame n ls f
  match c with
  | 0 => exact hld
  | 1 => exact hst
  | 2 => exact hcp
  | 3 => exact htl
  | _ + 4 => rfl

/-- A group stands with a counter at a value. -/
def CtrAt (s : State) (gid c : Nat) (g : Group) (n : Nat) : Prop := ∃ k, s.group? gid = some k ∧ k.info = g.info ∧ k.ctr c = n

theorem CtrAt.of_groups {s t : State} {gid c n : Nat} {g : Group} (h : CtrAt s gid c g n) (e : t.groups = s.groups) : CtrAt t gid c g n := by
  obtain ⟨k, hk, hr⟩ := h
  exact ⟨k, by unfold State.group?; rw [e]; exact hk, hr⟩

theorem CtrAt.modGroup {s : State} {gid c n m : Nat} {g : Group} (h : CtrAt s gid c g n) (f : Group → Group) (hi : ∀ k, (f k).info = k.info)
    (hc : ∀ k, k.ctr c = n → (f k).ctr c = m) : CtrAt (s.modGroup gid f) gid c g m := by
  obtain ⟨k, hk, hki, hkc⟩ := h
  exact ⟨f k, by rw [State.group?_modGroup, hk]; rfl, (hi k).trans hki, hc k hkc⟩

/-- An operation ends (R76, R148): it is gone and its counter falls; of the rest, groups alone change. -/
theorem State.endOp_spec {s : State} (id : Nat) {p : MemOp} {g : Group} {n : Nat} (h : CtrAt s p.gid p.ctr g (n + 1)) :
    (∃ gs, s.endOp id p = { s with ops := s.ops.del id, groups := gs }) ∧ CtrAt (s.endOp id p) p.gid p.ctr g n := by
  unfold State.endOp
  dsimp only
  set s' : State := { s with ops := s.ops.del id }
  set f : Group → Group := fun g => ((if p.nf then g.wrPAll 6 (laneList p.lanes) (fun l => p.lanesBad.contains l) else g).decCtr p.ctr).unmark id with hf
  have hi (k : Group) : (f k).info = k.info := by
    rw [hf]
    dsimp only
    rw [(Group.unmark_keeps _ id).1]
    show (ite _ _ _ : Group).info = _
    split
    · exact (k.wrPAll_frame 6 _ _).1
    · rfl
  have hc (k : Group) (hk : k.ctr p.ctr = n + 1) : (f k).ctr p.ctr = n := by
    rw [hf]
    dsimp only
    rw [Group.ctr_congr (Group.unmark_keeps _ id).2, Group.ctr_decCtr]
    split
    · rw [Group.ctr_wrPAll, hk, Nat.add_sub_cancel]
    · rw [hk, Nat.add_sub_cancel]
  have hg : CtrAt s' p.gid p.ctr g (n + 1) := h
  have hd := hg.modGroup f hi hc
  obtain ⟨gs, e⟩ := s'.modGroup_eq p.gid f
  have he : ∃ gs, s'.modGroup p.gid f = { s with ops := s.ops.del id, groups := gs } := ⟨gs, e⟩
  split
  · split
    · exact ⟨he, hd⟩
    · refine ⟨?_, hd.modGroup _ (fun _ => rfl) fun _ hk => hk⟩
      unfold State.pendTrap
      obtain ⟨gs', e'⟩ := (s'.modGroup p.gid f).modGroup_eq p.gid fun g => { g with pend := g.pend ++ [_] }
      exact ⟨gs', by rw [e', e]⟩
  · exact ⟨he, hd⟩

/-- An operation with the answer of one lane. -/
def MemOp.answered (p : MemOp) (lane : Nat) (back : Option (List Byte)) (err : Option Cause) : MemOp :=
  { p with accs := p.accs.map fun a => if a.lane == lane && !a.done then { a with back := back, err := err, done := true } else a }

theorem fixedOp_answered (p : MemOp) (lane : Nat) (back : Option (List Byte)) (err : Option Cause) : fixedOp (p.answered lane back err) = fixedOp p := by
  have h : (p.answered lane back err).accs.map fixedAcc = p.accs.map fixedAcc := by
    unfold MemOp.answered
    rw [List.map_map]
    refine List.map_congr_left fun a _ => ?_
    rw [Function.comp]
    split <;> rfl
  unfold fixedOp
  rw [h]
  rfl

section
variable {s : State} {id : Nat} {r : MemOp} (hf : s.ops.find id = some r)
include hf

theorem State.opCheck_waiting (hd : ∃ a ∈ r.accs, a.done = false) : s.opCheck id = s := by
  obtain ⟨a, ha, hd⟩ := hd
  have hb : r.accs.all (·.done) = false := List.all_eq_false.mpr ⟨a, ha, by simp [hd]⟩
  unfold State.opCheck
  simp only [hf, hb, Bool.not_false, Bool.or_true, if_true]

variable (hr : r.ready = false) (hd : ∀ a ∈ r.accs, a.done = true)
include hr hd

theorem State.opCheck_store (hk : r.kind = .store) : s.opCheck id = s.endOp id r := by
  unfold State.opCheck
  simp only [hf, hr, List.all_eq_true.mpr hd, hk, Bool.not_true, Bool.or_false, Bool.false_eq_true, if_false]

theorem State.opCheck_load (hk : r.kind = .load) :
    ∃ due f, s.opCheck id = { s with ops := s.ops.ins id { r with ready := true, due := due }, fresh := f } := by
  unfold State.opCheck
  simp only [hf, hr, List.all_eq_true.mpr hd, hk, Bool.not_true, Bool.or_false, Bool.false_eq_true, if_false]
  unfold State.dataDue
  split
  · exact ⟨_, s.fresh, rfl⟩
  · exact ⟨_, s.fresh + 1, rfl⟩

end

section
variable {s : State} {id : Nat} {p : MemOp} (hp : s.ops.find id = some p) (hr : p.ready = false) (lane : Nat) (back : Option (List Byte)) (err : Option Cause)
include hp hr

/-- A store whose last lane is performed ends. -/
theorem State.laneDone_last_store {g : Group} {n : Nat} (hg : CtrAt s p.gid p.ctr g (n + 1)) (hk : p.kind = .store)
    (hd : ∀ a ∈ (p.answered lane back err).accs, a.done = true) :
    (∃ ops gs, s.laneDone id lane back err = { s with ops := ops, groups := gs }) ∧ (s.laneDone id lane back err).ops.find id = none ∧
      CtrAt (s.laneDone id lane back err) p.gid p.ctr g n := by
  set r := p.answered lane back err
  set u : State := { s with ops := s.ops.ins id r } with hu
  have e : s.laneDone id lane back err = u.endOp id r := by
    unfold State.laneDone State.modOp
    rw [hp]
    exact State.opCheck_store (SMap.find_ins_self ..) hr hd hk
  obtain ⟨⟨gs, e'⟩, hc⟩ := State.endOp_spec (s := u) id (p := r) hg
  rw [e]
  exact ⟨⟨_, gs, e'⟩, by rw [e']; exact (SMap.find_del ..).trans (if_pos rfl), hc⟩

/-- Any other answer leaves the operation standing. -/
theorem State.laneDone_stands
    (hd : p.kind = .load ∨ ∃ a ∈ (p.answered lane back err).accs, a.done = false) :
    (∃ ops f, s.laneDone id lane back err = { s with ops := ops, fresh := f }) ∧
      ∃ p', (s.laneDone id lane back err).ops.find id = some p' ∧ fixedOp p' = fixedOp p ∧ p'.accs = (p.answered lane back err).accs ∧
        ((∃ a ∈ p'.accs, a.done = false) → p'.ready = false) := by
  set r := p.answered lane back err with hrdef
  set u : State := { s with ops := s.ops.ins id r } with hu
  have hf : u.ops.find id = some r := SMap.find_ins_self ..
  have e : s.laneDone id lane back err = u.opCheck id := by
    unfold State.laneDone State.modOp
    rw [hp]
    rfl
  rw [e]
  by_cases hw : ∃ a ∈ r.accs, a.done = false
  · rw [State.opCheck_waiting hf hw]
    exact ⟨⟨_, s.fresh, rfl⟩, r, hf, fixedOp_answered .., rfl, fun _ => hr⟩
  · have hall : ∀ a ∈ r.accs, a.done = true := fun a ha => by
      by_contra h
      exact hw ⟨a, ha, Bool.eq_false_iff.mpr h⟩
    obtain ⟨due, f, e'⟩ := State.opCheck_load hf hr hall (hd.resolve_right hw)
    rw [e']
    exact ⟨⟨_, f, rfl⟩, _, SMap.find_ins_self .., fixedOp_answered p lane back err, rfl, fun h => absurd h hw⟩

end

-- The accesses of an operation, one after the other (R149)

/-- An access of an operation that has been started: unchanged but for its answer, which it has if it was performed, or refused, at once. -/
structure Settled (b : State) (core : Nat) (o : MemOp) (a a' : LaneAcc) : Prop where
  fixed : fixedAcc a' = fixedAcc a
  done : a'.done = true ↔ AtOnce b core o a
  found : o.kind = .load → AtOnce b core o a → (a'.back, a'.err) = foundAtOnce b core o a

/-- An operation stands with the accesses `ps` started and `rs` not yet. -/
def Stands (b : State) (core id : Nat) (o : MemOp) (ps rs : List LaneAcc) (t : State) : Prop :=
  ∃ p ps', t.ops.find id = some p ∧ fixedOp p = fixedOp o ∧ p.accs = ps' ++ rs ∧ List.Forall₂ (Settled b core o) ps ps' ∧ (rs ≠ [] → p.ready = false)

/-- The state with the accesses `ps` of an operation started and `rs` not yet. -/
structure Going (b : State) (core id : Nat) (o : MemOp) (g : Group) (n : Nat) (ps rs : List LaneAcc) (t : State) : Prop where
  flow : Flow core b t
  serial : id < t.serial
  room : ∀ k, ((t.link k).window core).length ≤ ((b.link k).window core).length + ps.length
  loads : o.kind = .load → (t.core core).l1 = (b.core core).l1 ∧ t.spads = b.spads
  stores : o.kind = .store → ∀ pa key, pa < 2 ^ 52 →
    (t.core core).l1Byte pa key = ps.foldl (fun e a => storedByte o a pa key e) ((b.core core).l1Byte pa key)
  travels : ∀ a ∈ ps, (¬ AtOnce b core o a ∨ (a.typ = 2 ∧ deviceAnswers 2 a.pa = true)) → Travels t core id o a
  gone : rs = [] ∧ o.kind = .store ∧ (∀ a ∈ ps, AtOnce b core o a) → t.ops.find id = none ∧ CtrAt t o.gid o.ctr g n
  stands : ¬ (rs = [] ∧ o.kind = .store ∧ ∀ a ∈ ps, AtOnce b core o a) → Stands b core id o ps rs t ∧ CtrAt t o.gid o.ctr g (n + 1)

section
variable {b t w : State} {core id n : Nat} {o : MemOp} {a : LaneAcc} {g : Group} {ps rs : List LaneAcc}

/-- Whether an access is performed at once does not change as others before it are started. -/
theorem Going.atOnce (h : Going b core id o g n ps rs t) (hl : LoadOrStore o) (ha : a ∈ o.accs) : AtOnce t core o a ↔ AtOnce b core o a := by
  rcases typ_cases (hl.typ a ha) with h0 | h1 | h4 | hd
  · rw [atOnce_normal h0, atOnce_normal h0]
    rcases hl.kind with hk | hk
    · have e : (t.core core).l1Holds a.pa a.key o.size = (b.core core).l1Holds a.pa a.key o.size := by
        unfold Core.l1Holds Core.l1Byte
        rw [(h.loads hk).1]
      rw [Core.inL1_load _ hk h0, Core.inL1_load _ hk h0, e]
    · rw [Core.inL1_store _ hk h0, Core.inL1_store _ hk h0]
  · rw [atOnce_peer h1, atOnce_peer h1, h.flow.linkSt]
  · rw [atOnce_port h4, atOnce_port h4, h.flow.behind]
  · rw [atOnce_device hd, atOnce_device hd]

theorem Going.foundAtOnce (h : Going b core id o g n ps rs t) (hl : LoadOrStore o) (ha : a ∈ o.accs) (hk : o.kind = .load) :
    foundAtOnce t core o a = foundAtOnce b core o a := by
  obtain ⟨hl1, hsp⟩ := h.loads hk
  rcases typ_cases (hl.typ a ha) with h0 | h1 | h4 | hd
  · rw [foundAtOnce_normal h0, foundAtOnce_normal h0]
    unfold Core.l1Read Core.l1Byte
    rw [hl1]
  · rw [foundAtOnce_absent (.inl h1), foundAtOnce_absent (.inl h1)]
  · rw [foundAtOnce_port h4, foundAtOnce_port h4]
    unfold State.spad
    rw [hsp]
  · rw [foundAtOnce_absent (.inr hd), foundAtOnce_absent (.inr hd)]

theorem Settled.lane {a' : LaneAcc} (h : Settled b core o a a') : a'.lane = a.lane := by
  have e : (fixedAcc a').lane = (fixedAcc a).lane := by rw [h.fixed]
  exact e

theorem settled_all_done {ps' : List LaneAcc} (h : List.Forall₂ (Settled b core o) ps ps') :
    (∀ a' ∈ ps', a'.done = true) ↔ ∀ a ∈ ps, AtOnce b core o a := by
  induction h with
  | nil => simp
  | cons ha _ ih => simp only [List.forall_mem_cons, ih, ha.done]

theorem settled_lanes {ps' : List LaneAcc} (h : List.Forall₂ (Settled b core o) ps ps') : ps'.map (·.lane) = ps.map (·.lane) := by
  induction h with
  | nil => rfl
  | cons ha _ ih => rw [List.map_cons, List.map_cons, ih, ha.lane]

/-- The answer of one lane among accesses of other lanes. -/
theorem answered_accs {p : MemOp} {ps' : List LaneAcc} (hp : p.accs = ps' ++ a :: rs) (hps : a.lane ∉ ps'.map (·.lane)) (hrs : a.lane ∉ rs.map (·.lane))
    (hd : a.done = false) (back : Option (List Byte)) (err : Option Cause) :
    (p.answered a.lane back err).accs = ps' ++ { a with back := back, err := err, done := true } :: rs := by
  have same (l : List LaneAcc) (h : a.lane ∉ l.map (·.lane)) :
      l.map (fun x => if x.lane == a.lane && !x.done then { x with back := back, err := err, done := true } else x) = l := by
    refine (List.map_congr_left fun x hx => ?_).trans (List.map_id l)
    have hne : x.lane ≠ a.lane := fun e => h (e ▸ List.mem_map_of_mem hx)
    simp [hne]
  unfold MemOp.answered
  rw [hp, List.map_append, List.map_cons, same ps' hps, same rs hrs]
  simp [hd]

theorem fixedOp_keeps {p : MemOp} (h : fixedOp p = fixedOp o) : p.kind = o.kind ∧ p.gid = o.gid ∧ p.ctr = o.ctr := by
  have e : ((fixedOp p).kind, (fixedOp p).gid, (fixedOp p).ctr) = ((fixedOp o).kind, (fixedOp o).gid, (fixedOp o).ctr) := by rw [h]
  obtain ⟨hk, hc⟩ := Prod.mk.inj e
  exact ⟨hk, Prod.mk.inj hc⟩

theorem mem_of_split (ho : o.accs = ps ++ a :: rs) : a ∈ o.accs := ho ▸ List.mem_append_right _ (List.mem_cons_self ..)

section
variable (hl : LoadOrStore o) (ho : o.accs = ps ++ a :: rs)
include hl ho

/-- The lanes before and after an access are others. -/
theorem lane_of_split : a.lane ∉ ps.map (·.lane) ∧ a.lane ∉ rs.map (·.lane) := by
  have h := hl.lanes
  rw [ho, List.map_append, List.map_cons] at h
  obtain ⟨-, hr, hd⟩ := List.nodup_append.mp h
  exact ⟨fun hm => hd _ hm _ (List.mem_cons_self ..) rfl, (List.nodup_cons.mp hr).1⟩

/-- The operation after an access that is still to be answered. -/
theorem Stands.away (h : Stands b core id o ps (a :: rs) t) (hw : w.ops.find id = t.ops.find id) (hat : ¬ AtOnce b core o a) :
    Stands b core id o (ps ++ [a]) rs w := by
  obtain ⟨p, ps', hp, hf, hpa, hset, hr⟩ := h
  have hd := hl.fresh a (mem_of_split ho)
  refine ⟨p, ps' ++ [a], hw.trans hp, hf, by rw [hpa, List.append_assoc]; rfl,
    List.rel_append hset (.cons ⟨rfl, ?_, fun _ h => absurd h hat⟩ .nil), fun _ => hr (by simp)⟩
  rw [hd]
  exact ⟨fun h => absurd h (by decide), fun h => absurd h hat⟩

/-- The operation after an access that is answered at once. -/
theorem Stands.answered (h : Stands b core id o ps (a :: rs) t) (hw : w.ops.find id = t.ops.find id) (hg : CtrAt w o.gid o.ctr g (n + 1))
    (hat : AtOnce b core o a) (ans : Option (List Byte) × Option Cause) (hans : o.kind = .load → ans = foundAtOnce b core o a) :
    (∃ ops gs f, w.laneDone id a.lane ans.1 ans.2 = { w with ops := ops, groups := gs, fresh := f }) ∧
    (rs = [] ∧ o.kind = .store ∧ (∀ x ∈ ps ++ [a], AtOnce b core o x) →
      (w.laneDone id a.lane ans.1 ans.2).ops.find id = none ∧ CtrAt (w.laneDone id a.lane ans.1 ans.2) o.gid o.ctr g n) ∧
    (¬ (rs = [] ∧ o.kind = .store ∧ ∀ x ∈ ps ++ [a], AtOnce b core o x) →
      Stands b core id o (ps ++ [a]) rs (w.laneDone id a.lane ans.1 ans.2) ∧ CtrAt (w.laneDone id a.lane ans.1 ans.2) o.gid o.ctr g (n + 1)) := by
  obtain ⟨p, ps', hp, hf, hpa, hset, hr⟩ := h
  obtain ⟨hkind, hgid, hctr⟩ := fixedOp_keeps hf
  have hready : p.ready = false := hr (by simp)
  have hp' : w.ops.find id = some p := hw.trans hp
  obtain ⟨hps, hrs⟩ := lane_of_split hl ho
  have haccs := answered_accs hpa (settled_lanes hset ▸ hps) hrs (hl.fresh a (mem_of_split ho)) ans.1 ans.2
  set a' : LaneAcc := { a with back := ans.1, err := ans.2, done := true } with ha'
  have hset' : List.Forall₂ (Settled b core o) (ps ++ [a]) (ps' ++ [a']) :=
    List.rel_append hset (.cons ⟨rfl, ⟨fun _ => hat, fun _ => rfl⟩, fun hk _ => hans hk⟩ .nil)
  have haccs' : (p.answered a.lane ans.1 ans.2).accs = (ps' ++ [a']) ++ rs := by rw [haccs, List.append_assoc]; rfl
  by_cases hall : rs = [] ∧ o.kind = .store ∧ ∀ x ∈ ps ++ [a], AtOnce b core o x
  · obtain ⟨hrs0, hst, hx⟩ := hall
    have hdone : ∀ x ∈ (p.answered a.lane ans.1 ans.2).accs, x.done = true := by
      rw [haccs', hrs0, List.append_nil]
      exact (settled_all_done hset').mpr hx
    obtain ⟨⟨ops, gs, e⟩, hnone, hc⟩ := State.laneDone_last_store hp' hready a.lane ans.1 ans.2 (hgid ▸ hctr ▸ hg) (hkind.trans hst) hdone
    exact ⟨⟨ops, gs, w.fresh, e⟩, fun _ => ⟨hnone, hgid ▸ hctr ▸ hc⟩, fun h => absurd ⟨hrs0, hst, hx⟩ h⟩
  · have hd : p.kind = .load ∨ ∃ x ∈ (p.answered a.lane ans.1 ans.2).accs, x.done = false := by
      refine (hl.kind.imp hkind.trans fun hst => ?_)
      rw [haccs']
      by_contra hcon
      refine hall ⟨?_, hst, (settled_all_done hset').mp fun x hx => ?_⟩
      · cases rs with
        | nil => rfl
        | cons x t => exact absurd ⟨x, List.mem_append_right _ (List.mem_cons_self ..), hl.fresh x (ho ▸ by simp)⟩ hcon
      · by_contra h
        exact hcon ⟨x, List.mem_append_left _ hx, Bool.eq_false_iff.mpr h⟩
    obtain ⟨⟨ops, f, e⟩, p', hfind, hfix, hpa', hrdy⟩ := State.laneDone_stands hp' hready a.lane ans.1 ans.2 hd
    refine ⟨⟨ops, w.groups, f, e⟩, fun h => absurd h hall, fun _ => ⟨⟨p', ps' ++ [a'], hfind, hfix.trans hf, hpa'.trans haccs', hset', fun hne => ?_⟩,
      hg.of_groups (by rw [e])⟩⟩
    obtain ⟨x, hx⟩ := List.exists_mem_of_ne_nil rs hne
    exact hrdy ⟨x, by rw [hpa', haccs']; exact List.mem_append_right _ hx, hl.fresh x (ho ▸ List.mem_append_right _ (List.mem_cons_of_mem _ hx))⟩

end

end

section
variable {b t : State} {core id n : Nat} {o : MemOp} {a : LaneAcc} {g : Group} {ps rs : List LaneAcc}

/-- Before its first access an operation stands. -/
theorem Going.start (hs : id < b.serial) (hne : o.accs ≠ []) {p : MemOp} (hp : b.ops.find id = some p) (hf : fixedOp p = fixedOp o) (hpa : p.accs = o.accs)
    (hr : p.ready = false) (hg : CtrAt b o.gid o.ctr g (n + 1)) : Going b core id o g n [] o.accs b where
  flow := Flow.refl core b
  serial := hs
  room _ := Nat.le_add_right ..
  loads _ := ⟨rfl, rfl⟩
  stores _ _ _ _ := rfl
  travels _ h := absurd h (by simp)
  gone h := absurd h.1 hne
  stands _ := ⟨⟨p, [], hp, hf, hpa, .nil, fun _ => hr⟩, hg⟩

/-- One more access is started. -/
theorem Going.step (hl : LoadOrStore o) (ho : o.accs = ps ++ a :: rs) (h : Going b core id o g n ps (a :: rs) t) :
    Going b core id o g n (ps ++ [a]) rs (t.startAcc core id o a) := by
  have ha : a ∈ o.accs := mem_of_split ho
  obtain ⟨hst, hct⟩ := h.stands (by simp)
  obtain ⟨w, hw, hp⟩ := startAcc_sends (core := core) hl ha h.serial
  have hat := h.atOnce hl ha
  have hcw : CtrAt w o.gid o.ctr g (n + 1) := hct.of_groups hw.groups
  obtain ⟨⟨ops, gs, f, e⟩, hgone, hstands⟩ : (∃ ops gs f, t.startAcc core id o a = { w with ops := ops, groups := gs, fresh := f }) ∧
      (rs = [] ∧ o.kind = .store ∧ (∀ x ∈ ps ++ [a], AtOnce b core o x) →
        (t.startAcc core id o a).ops.find id = none ∧ CtrAt (t.startAcc core id o a) o.gid o.ctr g n) ∧
      (¬ (rs = [] ∧ o.kind = .store ∧ ∀ x ∈ ps ++ [a], AtOnce b core o x) →
        Stands b core id o (ps ++ [a]) rs (t.startAcc core id o a) ∧ CtrAt (t.startAcc core id o a) o.gid o.ctr g (n + 1)) := by
    rcases hp with ⟨hno, e⟩ | ⟨hyes, ans, e, hans⟩
    · rw [e]
      have hno' : ¬ AtOnce b core o a := mt hat.mpr hno
      exact ⟨⟨_, _, _, rfl⟩, fun h => absurd (h.2.2 a (by simp)) hno', fun _ => ⟨hst.away hl ho hw.op hno', hcw⟩⟩
    · rw [e]
      exact hst.answered hl ho hw.op hcw (hat.mp hyes) ans fun hk => (hans hk).trans (h.foundAtOnce hl ha hk)
  have hwt : Flow core w (t.startAcc core id o a) := by rw [e]; exact Flow.ofSame core rfl rfl rfl rfl rfl rfl rfl
  refine { flow := h.flow.trans (hw.flow.trans hwt), serial := ?_, room := fun k => ?_, loads := fun hk => ?_, stores := fun hk pa key hpa => ?_,
           travels := fun x hx hxa => ?_, gone := hgone, stands := hstands }
  · rw [e]
    exact lt_of_lt_of_le h.serial hw.serial
  · rw [e, List.length_append]
    exact (hw.room k).trans (Nat.add_le_add_right (h.room k) 1)
  · obtain ⟨h1, h2⟩ := hw.loads hk
    obtain ⟨h1', h2'⟩ := h.loads hk
    rw [e]
    exact ⟨h1.trans h1', h2.trans h2'⟩
  · rw [List.foldl_append, ← h.stores hk pa key hpa, e]
    exact hw.stores hk pa key hpa
  · rcases List.mem_append.mp hx with hx | hx
    · exact Travels.flow (hl.typ x (ho ▸ List.mem_append_left _ hx)) (hw.flow.trans hwt) (h.travels x hx hxa)
    · obtain rfl := List.mem_singleton.mp hx
      exact Travels.flow (hl.typ x ha) hwt (hw.travels (hxa.imp_left (mt hat.mp)))

/-- All the accesses of an operation are started. -/
theorem Going.fold (hl : LoadOrStore o) (ho : o.accs = ps ++ rs) (h : Going b core id o g n ps rs t) :
    Going b core id o g n o.accs [] (rs.foldl (fun s a => s.startAcc core id o a) t) := by
  induction rs generalizing ps t with
  | nil => rwa [ho, List.append_nil]
  | cons a rs ih =>
    refine ih (ps := ps ++ [a]) (by rw [ho, List.append_assoc]; rfl) (h.step hl ho)

-- What the statement says of an operation that has started

/-- A byte of the L1 once the access of a store that covers it last has been made; none covers it: as it was. -/
def lastStored (o : MemOp) (pa : Nat) (e : Option (Byte × Bool)) : Option LaneAcc → Option (Byte × Bool)
  | some a => if nearScope o.scope then some (a.data.getD (pa - a.pa) 0, true) else e.map fun _ => (a.data.getD (pa - a.pa) 0, false)
  | none => e

/-- Of the accesses of a store that cover a byte, the last decides. -/
theorem foldl_storedByte (o : MemOp) (pa key : Nat) (e : Option (Byte × Bool)) (l : List LaneAcc) :
    l.foldl (fun e a => storedByte o a pa key e) e = lastStored o pa e (l.filter fun a => LaneAcc.covers a o.size pa key).getLast? := by
  induction l using List.reverseRecOn with
  | nil => rfl
  | append_singleton l a ih =>
    rw [List.foldl_append, List.foldl_cons, List.foldl_nil, ih, List.filter_append, storedByte, List.filter_cons, List.filter_nil]
    split
    · rw [List.getLast?_concat]
      unfold lastStored
      split
      · rfl
      · cases (l.filter fun a => LaneAcc.covers a o.size pa key).getLast? <;> cases e <;> simp
    · rw [List.append_nil]

end

end Sys2Proof.Machine

/-! The issue of a memory instruction whose lanes have no cause (R144 to R147), and the operation that it launches (R76, R228). -/

namespace Sys2Proof.Machine

open Sys2Proof.Safety

-- The issue of a memory instruction whose lanes have no cause (R144 to R147)

section
variable {s : State} {q : Issue} {g : Group} {h : Hdr} {b : Bool}

theorem issueU_watchHit {sp rd wr : Bool} {a n : Nat} (hu : Unwatched s q g sp rd wr a n) : (issueU s q g h b).watchHit sp rd wr a n = false := by
  rcases hu with hd | hs | ⟨m, hm, hl⟩ | hw
  · have e : (issueU s q g h b).g.sys.debug = true := hd
    simp [X.watchHit, e]
  · have e : (((issueU s q g h b).s.core (issueU s q g h b).core).part (issueU s q g h b).g.info.part).stopped.isNone = false := by
      rw [Option.isNone_eq_false_iff, Option.isSome_iff_ne_none]
      exact hs
    simp only [X.watchHit, e, Bool.and_false, Bool.false_and]
  · have e : ((issueU s q g h b).g.sched.noWatch.all fun p => p.2 != (issueU s q g h b).pc || (issueU s q g h b).m &&& p.1 == 0) = false := by
      refine List.all_eq_false.mpr ⟨_, hm, ?_⟩
      simpa [issueU, issueX] using hl
    simp only [X.watchHit, e, Bool.and_false, Bool.false_and]
  · have e : (((issueU s q g h b).s.core (issueU s q g h b).core).part (issueU s q g h b).g.info.part).watches sp rd wr a n = false := hw
    simp only [X.watchHit, e, Bool.and_false]

/-- A lane without a cause. -/
def LaneCheck.ok (l va : Nat) (a : LaneAcc) : LaneCheck := { lane := l, va := va, acc := a, err := none }

theorem issueU_checkGlobal {acc : Access} {rule : TypeRule} {va n l : Nat} {x : Xlated} (hr : Reaches s q g acc rule va n x) :
    (issueU s q g h b).checkGlobal acc rule n n l va = (issueU s q g h b, .ok l va (.at_ l va x.pa x.key x.typ 0 0)) := by
  obtain ⟨ha, hw, hx⟩ := hr
  have hx' : (issueU s q g h b).s.xlate (issueU s q g h b).core ((issueU s q g h b).s.gspace (issueU s q g h b).g) acc rule.ok va = (s, .ok x) := hx
  unfold X.checkGlobal
  rw [if_neg (not_not_intro ha), issueU_watchHit hw, hx']
  rfl

theorem issueU_checkSp {rd wr : Bool} {a n l core off alloc gen : Nat} (ht : Targets s q g rd wr a n core off alloc gen) :
    (issueU s q g h b).checkSp rd wr n n l a = .ok l a (.at_ l a off core 4 alloc gen) := by
  obtain ⟨ha, hw, hx⟩ := ht
  have hx' : (issueU s q g h b).s.spTarget (issueU s q g h b).g.info.wg a n = .ok (core, off, alloc, gen) := hx
  unfold X.checkSp
  rw [if_neg (not_not_intro ha), issueU_watchHit hw, hx']
  rfl

theorem X.checkEach_of_same {x : X} {f : X → Nat → X × LaneCheck} {c : Nat → LaneCheck} (ls : List Nat) (hf : ∀ l ∈ ls, f x l = (x, c l)) :
    X.checkEach f x ls = (x, ls.map c) := by
  induction ls with
  | nil => rfl
  | cons l t ih =>
    rw [X.checkEach, hf l (List.mem_cons_self ..)]
    dsimp only
    rw [ih fun k hk => hf k (List.mem_cons_of_mem _ hk)]
    rfl

/-- With no cause in any lane the accesses are made and the run goes on (R147). -/
theorem X.memOutcome_of_ok (x : X) (nf : Bool) (acc : Access) {ls : List Nat} (hne : ls ≠ []) (va : Nat → Nat) (a : Nat → LaneAcc)
    (perform : X → List LaneAcc → X) (fin : X → Lanes → State) :
    x.memOutcome nf acc (ls.map fun l => LaneCheck.ok l (va l) (a l)) perform fin = fin (perform x (ls.map a)) x.m := by
  have hbad : ((ls.map fun l => LaneCheck.ok l (va l) (a l)).filterMap fun c => c.err.map fun e => (c, e)) = [] := by
    refine List.filterMap_eq_nil_iff.mpr fun c hc => ?_
    obtain ⟨l, -, rfl⟩ := List.mem_map.mp hc
    rfl
  have hgood : (((ls.map fun l => LaneCheck.ok l (va l) (a l)).filter fun c => c.err.isNone).map (·.acc)) = ls.map a := by
    rw [List.filter_eq_self.mpr fun c hc => by obtain ⟨l, -, rfl⟩ := List.mem_map.mp hc; rfl, List.map_map]
    rfl
  have hem : (ls.map a).isEmpty = false := by simpa using hne
  unfold X.memOutcome
  dsimp only
  rw [hbad, hgood, hem]
  rfl

theorem actors_ne_nil (ha : acts h q g ≠ 0) : actors h q g ≠ [] := by
  have hl : laneList (acts h q g) ≠ [] := fun e => ha (BitVec.eq_of_getLsbD_eq fun i _ => by
    have hi : (acts h q g).getLsbD i = false := by rw [← Bool.not_eq_true, ← mem_laneList, e]; exact List.not_mem_nil
    rw [hi]
    exact BitVec.getLsbD_zero.symm)
  unfold actors
  split
  · simpa using hl
  · exact hl

theorem actors_nodup : (actors h q g).Nodup := by
  unfold actors
  split
  · exact (laneList_nodup _).sublist (List.take_sublist ..)
  · exact laneList_nodup _

theorem lanesOf_laneList (m : Lanes) : lanesOf (laneList m) = m := by
  refine BitVec.eq_of_getLsbD_eq fun i _ => ?_
  rw [lanesOf_getLsbD (fun _ => laneList_lt), Bool.eq_iff_iff, List.contains_iff_mem, mem_laneList]

theorem issueU_maskAll (ha : acts h q g ≠ 0) : (issueU s q g h b).maskAll (actors h q g) = acts h q g := by
  have hne : (actors h q g).isEmpty = false := by simpa using actors_ne_nil ha
  unfold X.maskAll
  rw [hne]
  show (if (h.u && !false) = true then acts h q g else lanesOf (actors h q g)) = _
  unfold actors
  cases h.u with
  | true => rfl
  | false => exact lanesOf_laneList _

/-- The operation that the issue makes is the one of R82 and R83. -/
theorem issueU_memOp (ha : acts h q g ≠ 0) {m : MemArg} {kind : OpKind} {ctr : Nat} {accs : List LaneAcc} (hl : accs.map (·.lane) = actors h q g) :
    (issueU s q g h b).memOp m kind ctr accs = opOf q g h m kind ctr accs := by
  unfold X.memOp
  rw [hl, issueU_maskAll ha]
  rfl

theorem globalAccs_lanes (m : MemArg) (x : Nat → Xlated) : (globalAccs h q g m x).map (·.lane) = actors h q g := by
  unfold globalAccs
  rw [List.map_map]
  exact List.map_id _

theorem spadAccs_lanes (m : MemArg) (x : Nat → Nat × Nat × Nat × Nat) : (spadAccs h q g m x).map (·.lane) = actors h q g := by
  unfold spadAccs
  rw [List.map_map]
  exact List.map_id _

theorem carrying_lanes (m : MemArg) (accs : List LaneAcc) : (carrying g m accs).map (·.lane) = accs.map (·.lane) := by
  unfold carrying
  rw [List.map_map]
  rfl

end

/-- The memory type of a page is a field of 2 bits (R303). -/
theorem State.xlate_typ {s t : State} {core : Nat} {sp : Space} {acc : Access} {ok : Nat → Bool} {va : Nat} {x : Xlated}
    (h : s.xlate core sp acc ok va = (t, .ok x)) : x.typ ≤ 3 := by
  have hleaf (v : Nat) (e : Dword) : (leafXlate sp v e).typ ≤ 3 :=
    Nat.le_of_lt_succ (Nat.mod_lt _ (by decide))
  have hwalk {t : State} {x : Xlated} (h : s.walkXlate core sp acc ok va = (t, .ok x)) : x.typ ≤ 3 := by
    unfold State.walkXlate at h
    dsimp only at h
    split at h
    · cases h
    · cases h
    · split at h
      · cases h
      · cases h; exact hleaf ..
  unfold State.xlate at h
  split at h
  · cases h
  · dsimp only at h
    split at h
    · exact hwalk h
    · split at h
      · cases h
      · split at h
        · exact hwalk h
        · cases h; exact hleaf ..

/-- Two states alike in all that decides how an access goes: cores, links, scratchpads and their ports. -/
structure Alike (s b : State) : Prop where
  cores : b.cores = s.cores
  links : b.links = s.links
  spads : b.spads = s.spads
  feq : b.feq = s.feq
  clock : b.clock = s.clock
  allocs : b.allocs = s.allocs

section
variable {s b t : State} {q : Issue} {g : Group} {o : MemOp} {core : Nat}

theorem Alike.core_eq (h : Alike s b) (k : Nat) : b.core k = s.core k := by unfold State.core; rw [h.cores]

theorem Alike.spad_eq (h : Alike s b) (k : Nat) : b.spad k = s.spad k := by unfold State.spad; rw [h.spads]

theorem Alike.link_eq (h : Alike s b) (k : Nat) : b.link k = s.link k := by unfold State.link; rw [h.links]

theorem Alike.atOnce (h : Alike s b) (o : MemOp) (a : LaneAcc) : AtOnce b core o a ↔ AtOnce s core o a := by
  unfold AtOnce
  rw [h.core_eq, h.link_eq, State.spBehind_congr core h.feq h.clock h.allocs fun k off => by rw [h.spad_eq]]

theorem Alike.foundAtOnce (h : Alike s b) (o : MemOp) (a : LaneAcc) : foundAtOnce b core o a = foundAtOnce s core o a := by
  unfold Safety.foundAtOnce
  rw [h.core_eq, h.spad_eq]

/-- An operation all of whose accesses have been started has started as the statement says (R76). -/
theorem Going.starts {n : Nat} (hl : LoadOrStore o) (hb : Alike s b) (hgid : o.gid = q.gid) (hn : g.ctr o.ctr = n)
    (h : Going b g.info.core s.serial o g n o.accs [] t) : Starts s t q g o := by
  have hwhole : ((o.kind = .store ∨ o.kind = .atomNoRet) ∧ ∀ a ∈ o.accs, AtOnce s g.info.core o a) ↔
      ([] : List LaneAcc) = [] ∧ o.kind = .store ∧ ∀ a ∈ o.accs, AtOnce b g.info.core o a := by
    have hk : (o.kind = .store ∨ o.kind = .atomNoRet) ↔ o.kind = .store := by rcases hl.kind with hk | hk <;> simp [hk]
    simp only [hk, hb.atOnce, true_and]
  refine ⟨fun hw => ?_, fun hw => ?_, fun a ha hx => h.travels a ha (hx.imp_left (mt (hb.atOnce o a).mp)), fun hk a ha hat => ?_⟩
  · obtain ⟨hnone, k, hg, -, hc⟩ := h.gone (hwhole.mp hw)
    exact ⟨hnone, k, hgid ▸ hg, hc.trans hn.symm⟩
  · obtain ⟨⟨p, _, hp, hf, -⟩, k, hg, -, hc⟩ := h.stands (mt hwhole.mpr hw)
    exact ⟨p, k, hp, hf, hgid ▸ hg, by rw [hc, hn]⟩
  · obtain ⟨⟨p, ps', hp, -, hpa, hset, -⟩, -⟩ := h.stands fun hw => absurd (hk.symm.trans hw.2.1) (by decide)
    obtain ⟨i, hi, rfl⟩ := List.getElem_of_mem ha
    obtain ⟨hlen, hget⟩ := List.forall₂_iff_get.mp hset
    have hs := hget i hi (hlen ▸ hi)
    simp only [List.get_eq_getElem] at hs
    have hfound := hs.found hk ((hb.atOnce o _).mpr hat)
    rw [hb.foundAtOnce] at hfound
    refine ⟨p, ps'[i]'(hlen ▸ hi), hp, by rw [hpa, List.append_nil]; exact List.getElem_mem _, hs.lane, hs.done.mpr ((hb.atOnce o _).mpr hat), ?_, ?_⟩
    · rw [← hfound]
    · rw [← hfound]

/-- The L1 after a store (R149, R224). -/
theorem Going.storedInL1 {id n : Nat} (hk : o.kind = .store) (hb : Alike s b) (h : Going b g.info.core id o g n o.accs [] t) : StoredInL1 s t q g o := by
  intro pa key hpa
  rw [h.stores hk pa key hpa, foldl_storedByte, hb.core_eq]
  unfold lastStored
  cases (o.accs.filter fun a => LaneAcc.covers a o.size pa key).getLast? <;> rfl

-- The runs of the group move on

variable {k : Group} (hk : t.group? q.gid = some k) (rs : List Run)
include hk

theorem ended_moved (h : Safety.Ended s t q g o) : Safety.Ended s (t.setGroup q.gid { k with runs := rs }) q g o := by
  obtain ⟨hnone, k', hk', hc⟩ := h
  obtain rfl : k = k' := Option.some.inj (hk.symm.trans hk')
  exact ⟨hnone, _, State.group?_setGroup .., hc⟩

theorem begins_moved (h : Begins s t q g o) : Begins s (t.setGroup q.gid { k with runs := rs }) q g o := by
  obtain ⟨p, k', hp, hf, hk', hc⟩ := h
  obtain rfl : k = k' := Option.some.inj (hk.symm.trans hk')
  exact ⟨p, _, hp, hf, State.group?_setGroup .., hc⟩

theorem starts_moved (h : Starts s t q g o) : Starts s (t.setGroup q.gid { k with runs := rs }) q g o := by
  obtain ⟨hend, hbeg, htr, hans⟩ := h
  exact ⟨fun hw => ended_moved hk rs (hend hw), fun hw => begins_moved hk rs (hbeg hw), htr, hans⟩

theorem startsInOrder_moved {order : Order} {effect : State → State → Issue → Group → MemOp → Prop}
    (he : effect s t q g o → effect s (t.setGroup q.gid { k with runs := rs }) q g o) (h : StartsInOrder order effect s t q g o) :
    StartsInOrder order effect s (t.setGroup q.gid { k with runs := rs }) q g o := by
  obtain ⟨hnow, hrel⟩ := h
  refine ⟨fun ho => ⟨starts_moved hk rs (hnow ho).1, he (hnow ho).2⟩, fun ho => ⟨fun hw => ?_, fun hn hw hr => ?_⟩⟩
  · obtain ⟨hb, hsp, hli, hp⟩ := (hrel ho).1 hw
    exact ⟨begins_moved hk rs hb, hsp, hli, hp⟩
  · obtain ⟨hst, heff⟩ := (hrel ho).2 hn hw hr
    exact ⟨starts_moved hk rs hst, he heff⟩

end

-- An operation is launched (R76, R228)

/-- What of the issue in progress an operation leaves; its group is the state's. -/
structure Launched (x y : X) : Prop where
  gid : y.gid = x.gid
  m : y.m = x.m
  pc : y.pc = x.pc
  next : y.next = x.next
  lanes : y.lanes = x.lanes
  resume : y.resume = x.resume
  info : y.g.info = x.g.info
  group : y.s.group? x.gid = some y.g

theorem X.launched_sync {x x' : X} {f : State → State} {c n : Nat} {g : Group} (hx : x' = { x with s := x'.s, g := x'.g }) (hi : g.info = x.g.info)
    (hg : CtrAt (f x'.flush) x.gid c g n) : Launched x (x'.sync f) ∧ (x'.sync f).s = f x'.flush := by
  obtain ⟨k, hk, hki, -⟩ := hg
  have hgid : x'.gid = x.gid := by rw [hx]
  have e : (x'.sync f).g = k := by
    unfold X.sync
    dsimp only
    rw [hgid, hk]
    rfl
  refine ⟨⟨hgid, ?_, ?_, ?_, ?_, ?_, by rw [e, hki, hi], by rw [e]; exact hk⟩, rfl⟩
  all_goals
    rw [hx]
    rfl

section
variable (x : X) (o : MemOp) (codes : List Nat)

/-- The group of an operation that begins: its counter has risen, its writes are pending (R76, R355). -/
def X.launchG (x : X) (o : MemOp) (codes : List Nat) : Group :=
  (x.g.incCtr o.ctr).markOp x.s.serial (if codes.isEmpty && !o.nf then [] else if o.nf then codes ++ [474] else codes) o.lanes x.pc o.kind.src

/-- The state in which an operation begins. -/
def X.launchS (x : X) (o : MemOp) (codes : List Nat) : State := { x.s with serial := x.s.serial + 1 }.setGroup x.gid (x.launchG o codes)

end

/-- The state in which the accesses of an operation are sent. -/
def State.sending (s : State) (id : Nat) (o : MemOp) : State := { s with ops := s.ops.ins id { o with sent := s.clock.ns, sentCc := s.cc, held := none } }

theorem State.startOp_eq {s : State} {core id : Nat} {o : MemOp} (h : s.ops.find id = some o) :
    s.startOp core id = o.accs.foldl (fun s a => s.startAcc core id o a) (s.sending id o) := by
  unfold State.startOp
  rw [h]
  rfl

/-- All of an operation's accesses are sent. -/
theorem going_sending {s : State} {core id n : Nat} {o : MemOp} {g : Group} (hne : o.accs ≠ []) (hs : id < s.serial) (hr : o.ready = false)
    (hg : CtrAt s o.gid o.ctr g (n + 1)) : Going (s.sending id o) core id o g n [] o.accs (s.sending id o) :=
  Going.start (b := s.sending id o) hs hne (SMap.find_ins_self ..) rfl rfl hr hg

section
variable {s : State} {q : Issue} {g : Group} (h : Hdr) (b : Bool) {o : MemOp} (codes : List Nat)

theorem launchS_ctr (hgid : o.gid = q.gid) (hctr : o.ctr ≤ 3) :
    CtrAt ((issueU s q g h b).launchS o codes) o.gid o.ctr g (g.ctr o.ctr + 1) := by
  refine ⟨(issueU s q g h b).launchG o codes, hgid ▸ State.group?_setGroup .., rfl, ?_⟩
  exact (Group.ctr_congr rfl o.ctr).trans (Group.ctr_incCtr _ hctr)

/-- Whether or not the operation has ended, its group stands. -/
theorem Going.ctrAt {b t : State} {core id n : Nat} {ps rs : List LaneAcc} (hg : Going b core id o g n ps rs t) : ∃ m, CtrAt t o.gid o.ctr g m := by
  by_cases hw : rs = [] ∧ o.kind = .store ∧ ∀ a ∈ ps, AtOnce b core o a
  · exact ⟨n, (hg.gone hw).2⟩
  · exact ⟨n + 1, (hg.stands hw).2⟩

/-- An operation that no release holds starts at once. -/
theorem launchOp_starts (hl : LoadOrStore o) (hne : o.accs ≠ []) (hr : o.ready = false) (hgid : o.gid = q.gid) (hctr : o.ctr ≤ 3) :
    Launched (issueU s q g h b) ((issueU s q g h b).launchOp o codes none).1 ∧ Starts s ((issueU s q g h b).launchOp o codes none).1.s q g o ∧
      (o.kind = .store → StoredInL1 s ((issueU s q g h b).launchOp o codes none).1.s q g o) := by
  set u : State := { (issueU s q g h b).launchS o codes with ops := s.ops.ins s.serial o } with hu
  have hcu : CtrAt u o.gid o.ctr g (g.ctr o.ctr + 1) := launchS_ctr h b codes hgid hctr
  have hb : Alike s (u.sending s.serial o) := ⟨rfl, rfl, rfl, rfl, rfl, rfl⟩
  have hgo : Going (u.sending s.serial o) g.info.core s.serial o g (g.ctr o.ctr) o.accs [] (u.startOp g.info.core s.serial) := by
    rw [State.startOp_eq (SMap.find_ins_self ..)]
    exact (going_sending (id := s.serial) hne (Nat.lt_succ_self s.serial) hr hcu).fold hl rfl
  obtain ⟨m, hm⟩ := hgo.ctrAt
  obtain ⟨hlaunch, hs⟩ := X.launched_sync (x := issueU s q g h b)
    (x' := { issueU s q g h b with s := { s with serial := s.serial + 1 }, g := (issueU s q g h b).launchG o codes })
    (f := fun s' => ({ s' with ops := s'.ops.ins s.serial o } : State).startOp g.info.core s.serial) rfl rfl (hgid ▸ hm)
  refine ⟨hlaunch, ?_, fun hk => ?_⟩
  · exact hgo.starts hl hb hgid rfl
  · exact hgo.storedInL1 hk hb

end

-- A release holds the accesses of its operation (R228)

theorem SMap.find_isSome_of_mem {α : Type} {m : SMap α} {p : Nat × α} (h : p ∈ m) : (m.find p.1).isSome = true := by
  induction m with
  | nil => cases h
  | cons e t ih =>
    unfold SMap.find
    split
    · rfl
    · next hne =>
      rcases List.mem_cons.mp h with rfl | h
      · exact absurd rfl hne
      · exact ih h

/-- The operations of a group that a release must await (R228). -/
def owedOps (s : State) (gid : Nat) : List Nat :=
  s.ops.filterMap fun p => if p.2.gid = gid && p.2.accs.all (fun a => a.typ < 9) then some p.1 else none

theorem owedOps_eq_nil {s : State} {gid : Nat} (h : ¬ Owes s gid) : owedOps s gid = [] := by
  refine List.filterMap_eq_nil_iff.mpr fun p hp => if_neg fun hc => h ⟨p, hp, ?_⟩
  simpa using hc

theorem owes_mem {s : State} {gid : Nat} (h : Owes s gid) : ∃ k ∈ owedOps s gid, (s.ops.find k).isSome = true := by
  obtain ⟨p, hp, hg, ht⟩ := h
  exact ⟨p.1, List.mem_filterMap.mpr ⟨p, hp, if_pos (by simpa using ⟨hg, ht⟩)⟩, SMap.find_isSome_of_mem hp⟩

/-- Dirty bytes go home in requests: cores alone change, and latencies are drawn. -/
theorem State.writeBack_eq (s : State) (core : Nat) (op : Option Nat) (lane : Nat) (p : Nat → Bool) :
    ∃ cs f, s.writeBack core op lane p = { s with cores := cs, fresh := f } := by
  have hfold (l : List (Nat × Nat × List Byte)) (s : State) :
      ∃ cs f, l.foldl (fun s r => s.sendReq core op lane (.write r.2.2) r.1 r.2.2.length r.2.1) s = { s with cores := cs, fresh := f } := by
    induction l generalizing s with
    | nil => exact ⟨s.cores, s.fresh, rfl⟩
    | cons r t ih =>
      obtain ⟨cs, f, e⟩ := ih (s.sendReq core op lane (.write r.2.2) r.1 r.2.2.length r.2.1)
      obtain ⟨n, sent, ph, due, e'⟩ := State.sendReq_eq s core op lane (.write r.2.2) r.1 r.2.2.length r.2.1
      exact ⟨cs, f, by rw [List.foldl_cons, e, e']; rfl⟩
  exact hfold _ _

section
variable {v : State} {id : Nat} {r : Rel} (hf : v.rels.find id = some r)
include hf

theorem State.relStep_owed (hw : ∃ k ∈ r.waitOps, (v.ops.find k).isSome = true) : v.relStep id = v := by
  unfold State.relStep
  rw [hf]
  exact if_pos (List.any_eq_true.mpr hw)

theorem State.relStep_near (hw : r.waitOps = []) (hn : nearScope r.scope = true) : v.relStep id = v.endRel id r := by
  unfold State.relStep
  rw [hf]
  simp only [hw, List.any_nil, Bool.false_eq_true, if_false, hn, if_true]

/-- A release beyond `.wg` sends the dirty bytes home and closes the phase; its operation is held. -/
theorem State.relStep_far (hw : r.waitOps = []) (hn : nearScope r.scope = false) (hc : r.close = none) :
    ∃ cs f n rl, v.relStep id = { v with cores := cs, fresh := f, serial := n, rels := rl } := by
  obtain ⟨cs, f, e⟩ := v.writeBack_eq r.core none 0 fun _ => true
  unfold State.relStep
  rw [hf]
  simp only [hw, List.any_nil, Bool.false_eq_true, if_false, hn, hc]
  split
  · exact ⟨v.cores, v.fresh, v.serial, v.rels, rfl⟩
  · rw [e]
    exact ⟨_, f, _, _, rfl⟩

end

/-- A release that is complete sends the accesses that it held, where they find places. -/
theorem State.endRel_of_held {v t : State} {id k : Nat} {r : Rel} {o : MemOp} (hr : r.op = some k) (ho : v.ops.find k = some o) (hh : o.held = some id)
    (hs : (v.sending k o).sendHeld r.core k o r.sent (o.accs.drop r.sent) = (o.accs.length, t)) : v.endRel id r = { t with rels := t.rels.del id } := by
  have hb : (r.op.bind fun k => (v.ops.find k).bind fun o => if o.held == some id then some (k, o) else none) = some (k, o) := by
    simp [hr, ho, hh]
  unfold State.endRel
  rw [hb]
  unfold State.sending at hs
  dsimp only
  rw [hs]
  exact if_pos rfl

section
variable {b t : State} {core id n : Nat} {o : MemOp} {g : Group} {ps rs : List LaneAcc}

/-- Accesses of a near store that find places are sent one after the other. -/
theorem Going.sendHeld (hl : LoadOrStore o) (ho : o.accs = ps ++ rs) (hk : o.kind = .store) (hn : nearScope o.scope = true)
    (hroom : ∀ a ∈ o.accs, a.typ = 1 → ((b.link (a.pa / 2 ^ 44)).window core).length + o.accs.length ≤ 32) (h : Going b core id o g n ps rs t) (i : Nat) :
    t.sendHeld core id o i rs = (i + rs.length, rs.foldl (fun s a => s.startAcc core id o a) t) := by
  induction rs generalizing ps t i with
  | nil => rfl
  | cons a rs ih =>
    have ha : a ∈ o.accs := mem_of_split ho
    have hfree : (!(t.core core).inL1 o a && (t.noPlace core a.typ a.pa).isSome) = false := by
      by_cases h0 : a.typ = 0
      · rw [Core.inL1_store _ hk h0, hn]
        rfl
      · by_cases h1 : a.typ = 1
        · have hr := h.room (a.pa / 2 ^ 44)
          have hb := hroom a ha h1
          rw [ho, List.length_append, List.length_cons] at hb
          have hlt : ¬ ((t.link (a.pa / 2 ^ 44)).window core).length ≥ windowSize := by unfold windowSize; omega
          have hp : t.noPlace core a.typ a.pa = none := by
            unfold State.noPlace
            rw [if_pos h1]
            refine if_neg ?_
            rw [Bool.and_eq_true, decide_eq_true_eq]
            exact fun hc => hlt hc.2
          rw [hp, Option.isSome_none, Bool.and_false]
        · simp [State.noPlace, h0, h1]
    rw [State.sendHeld, hfree, if_neg (by simp), ih (ps := ps ++ [a]) (by rw [ho, List.append_assoc]; rfl) (h.step hl ho), List.length_cons, List.foldl_cons,
      Nat.add_right_comm, Nat.add_assoc]

end

section
variable {b t : State} {core id n : Nat} {o : MemOp} {g : Group} {ps rs : List LaneAcc}

/-- However many of its accesses find places, the group of the operation stands. -/
theorem Going.sendHeld_ctrAt (hl : LoadOrStore o) (ho : o.accs = ps ++ rs) (h : Going b core id o g n ps rs t) (i : Nat) :
    ∃ m, CtrAt (t.sendHeld core id o i rs).2 o.gid o.ctr g m := by
  induction rs generalizing ps t i with
  | nil => exact h.ctrAt
  | cons a rs ih =>
    rw [State.sendHeld]
    split
    · exact h.ctrAt
    · exact ih (ps := ps ++ [a]) (by rw [ho, List.append_assoc]; rfl) (h.step hl ho) (i + 1)

theorem State.modOp_groups (s : State) (id : Nat) (f : MemOp → MemOp) : (s.modOp id f).groups = s.groups := by
  unfold State.modOp
  split <;> rfl

theorem State.endRel_groups {v : State} {id k : Nat} {r : Rel} {o : MemOp} (hr : r.op = some k) (ho : v.ops.find k = some o) (hh : o.held = some id) :
    (v.endRel id r).groups = ((v.sending k o).sendHeld r.core k o r.sent (o.accs.drop r.sent)).2.groups := by
  have hb : (r.op.bind fun k => (v.ops.find k).bind fun o => if o.held == some id then some (k, o) else none) = some (k, o) := by
    simp [hr, ho, hh]
  unfold State.endRel
  rw [hb]
  unfold State.sending
  dsimp only
  split
  · rfl
  · exact State.modOp_groups ..

end

/-- The release of an operation of an issue, with the operations that it awaits (R228). -/
def issuedRel (s : State) (q : Issue) (g : Group) (sc : Scope) : Rel :=
  { gid := q.gid, core := g.info.core, scope := sc, waitOps := owedOps s q.gid, close := none, op := some s.serial, sent := 0 }

/-- An operation under the release of the next number. -/
def MemOp.heldBy (o : MemOp) (n : Nat) : MemOp := { o with held := some n }

/-- The state in which a release holds an operation. -/
def State.holding (u : State) (id : Nat) (o : MemOp) (r : Rel) : State :=
  { u with serial := id + 2, rels := u.rels.ins (id + 1) r, ops := u.ops.ins id (o.heldBy (id + 1)) }

theorem LoadOrStore.heldBy {o : MemOp} (h : LoadOrStore o) (n : Nat) : LoadOrStore (o.heldBy n) :=
  ⟨h.kind, h.atom, h.fe, h.size, h.typ, h.data, h.lanes, h.fresh⟩

section
variable {s : State} {q : Issue} {g : Group} (h : Hdr) (b : Bool) {o : MemOp} (codes : List Nat)

/-- The state in which an operation of an issue is held. -/
def launchHeld (s : State) (q : Issue) (g : Group) (h : Hdr) (b : Bool) (o : MemOp) (codes : List Nat) : State :=
  ((issueU s q g h b).launchS o codes).holding s.serial o (issuedRel s q g o.scope)

/-- A held operation has begun, with none of its accesses made, as long as its operation and its group stand so. -/
theorem begins_of_held {t : State} (hp : t.ops.find s.serial = some (o.heldBy (s.serial + 1))) (hg : CtrAt t o.gid o.ctr g (g.ctr o.ctr + 1))
    (hgid : o.gid = q.gid) : Begins s t q g o := by
  obtain ⟨k, hk, -, hc⟩ := hg
  exact ⟨_, k, hp, rfl, hgid ▸ hk, hc⟩

/-- An operation under a release starts as the statement says (R228). -/
theorem launchOp_inOrder (hl : LoadOrStore o) (hk : o.kind = .store) (hne : o.accs ≠ []) (hr : o.ready = false) (hgid : o.gid = q.gid) (hctr : o.ctr ≤ 3) :
    let y := ((issueU s q g h b).launchOp o codes (some o.scope)).1
    Launched (issueU s q g h b) y ∧
      ((nearScope o.scope = false ∨ Owes s q.gid) → Begins s y.s q g o ∧ y.s.spads = s.spads ∧ y.s.links = s.links ∧
        ∃ p, y.s.ops.find s.serial = some p ∧ p.held ≠ none ∧ ∀ a ∈ p.accs, a.done = false) ∧
      (nearScope o.scope = true → ¬ Owes s q.gid → RoomFor s g.info.core o → Starts s y.s q g o ∧ StoredInL1 s y.s q g o) := by
  intro y
  set v := launchHeld s q g h b o codes with hv
  set r := issuedRel s q g o.scope
  set o' := o.heldBy (s.serial + 1) with ho'
  have hf : v.rels.find (s.serial + 1) = some r := SMap.find_ins_self ..
  have hp : v.ops.find s.serial = some o' := SMap.find_ins_self ..
  have hcv : CtrAt v o.gid o.ctr g (g.ctr o.ctr + 1) := launchS_ctr h b codes hgid hctr
  have hgo : Going (v.sending s.serial o') g.info.core s.serial o' g (g.ctr o.ctr) [] o'.accs (v.sending s.serial o') :=
    going_sending hne (Nat.lt_add_of_pos_right (by decide)) hr hcv
  have hb : Alike s (v.sending s.serial o') := ⟨rfl, rfl, rfl, rfl, rfl, rfl⟩
  have hys {c n : Nat} (hg : CtrAt (v.relStep (s.serial + 1)) q.gid c g n) : Launched (issueU s q g h b) y ∧ y.s = v.relStep (s.serial + 1) :=
    X.launched_sync (x := issueU s q g h b)
      (x' := { issueU s q g h b with s := { s with serial := s.serial + 1 }, g := (issueU s q g h b).launchG o codes })
      (f := fun s' => let p := s'.beginRel q.gid g.info.core o.scope (some s.serial)
        ({ p.2 with ops := p.2.ops.ins s.serial (o.heldBy p.1) } : State).relStep p.1) rfl rfl hg
  have hheld (hfar : nearScope o.scope = false ∨ Owes s q.gid) : (v.relStep (s.serial + 1)).ops = v.ops ∧ (v.relStep (s.serial + 1)).groups = v.groups ∧
      (v.relStep (s.serial + 1)).spads = v.spads ∧ (v.relStep (s.serial + 1)).links = v.links := by
    by_cases how : Owes s q.gid
    · obtain ⟨k, hk, hkf⟩ := owes_mem how
      have hkv : (v.ops.find k).isSome = true := by
        rw [show v.ops.find k = if k = s.serial then some o' else s.ops.find k from SMap.find_ins ..]
        split
        · rfl
        · exact hkf
      rw [State.relStep_owed hf ⟨k, hk, hkv⟩]
      exact ⟨rfl, rfl, rfl, rfl⟩
    · obtain ⟨cs, f, n, rl, e⟩ := State.relStep_far hf (owedOps_eq_nil how) (hfar.resolve_right how) rfl
      rw [e]
      exact ⟨rfl, rfl, rfl, rfl⟩
  by_cases hfar : nearScope o.scope = false ∨ Owes s q.gid
  · obtain ⟨hops, hgroups, hsp, hli⟩ := hheld hfar
    have hcr := hcv.of_groups hgroups
    obtain ⟨hlaunch, hy⟩ := hys (hgid ▸ hcr)
    rw [hy]
    refine ⟨hlaunch, fun _ => ⟨begins_of_held (hops ▸ hp) hcr hgid, hsp, hli, o', hops ▸ hp, by simp [ho', MemOp.heldBy], hl.fresh⟩, fun hn hw => ?_⟩
    exact absurd hfar (not_or.mpr ⟨by simp [hn], hw⟩)
  · obtain ⟨hn, how⟩ := not_or.mp hfar
    have hnear : nearScope o.scope = true := by simpa using hn
    have hend : v.relStep (s.serial + 1) = v.endRel (s.serial + 1) r := State.relStep_near hf (owedOps_eq_nil how) hnear
    have hl' := hl.heldBy (s.serial + 1)
    have hgroups : (v.relStep (s.serial + 1)).groups = ((v.sending s.serial o').sendHeld g.info.core s.serial o' 0 o'.accs).2.groups := by
      rw [hend]
      exact State.endRel_groups rfl hp rfl
    obtain ⟨m, hm⟩ := hgo.sendHeld_ctrAt hl' rfl 0
    obtain ⟨hlaunch, hy⟩ := hys (hgid ▸ hm.of_groups hgroups)
    rw [hy]
    refine ⟨hlaunch, fun h => absurd h hfar, fun _ _ hroom => ?_⟩
    have hpeers : ∀ a ∈ o'.accs, a.typ = 1 → (((v.sending s.serial o').link (a.pa / 2 ^ 44)).window g.info.core).length + o'.accs.length ≤ 32 := by
      intro a ha h1
      rcases hroom a ha with hin | hin
      · simp [Core.inL1, h1] at hin
      · exact hin.2 h1
    have hall := hgo.sendHeld hl' rfl hk hnear hpeers 0
    rw [Nat.zero_add] at hall
    have hfin := hgo.fold hl' rfl
    rw [hend, State.endRel_of_held (t := o'.accs.foldl (fun w a => w.startAcc g.info.core s.serial o' a) (v.sending s.serial o')) rfl hp rfl hall]
    have hst := hfin.starts (q := q) hl' hb hgid rfl
    have hl1 := hfin.storedInL1 (q := q) (show o'.kind = .store from hk) hb
    exact ⟨hst, hl1⟩

end

end Sys2Proof.Machine

/-! Loads and stores begin (R144 to R147, R149 to R151, R223, R224, R227, R228, R290, R320). -/

namespace Sys2Proof.Machine

open Sys2Proof.Safety

-- The run of a memory instruction (R147, R290)

section
variable {s : State} {q : Issue} {g : Group} {h : Hdr}

theorem issueX_global_of_empty (h0 : acts h q g = 0) (i : Instr) (m : MemArg) (c : Option Reg) (acc : Access) (rule : TypeRule)
    (perform : X → List LaneAcc → X) : (issueX s q g h).global i m c acc rule perform = (issueX s q g h).done :=
  (if_neg (by simp [X.onWindow, issueX])).trans (if_pos h0)

theorem issueX_scratch_of_empty (h0 : acts h q g = 0) (m : MemArg) (rd wr : Bool) (perform : X → List LaneAcc → X) (fin : X → Lanes → State) :
    (issueX s q g h).scratch m rd wr perform fin = (issueX s q g h).done := if_pos h0

theorem issueX_global_of_ok {m : MemArg} {acc : Access} {rule : TypeRule} {x : Nat → Xlated} (h0 : acts h q g ≠ 0)
    (hx : ∀ l ∈ actors h q g, Reaches s q g acc rule (m.gaddr g l) m.size.bytes (x l)) (i : Instr) (c : Option Reg) (perform : X → List LaneAcc → X) :
    ∃ b, (issueX s q g h).global i m c acc rule perform = (perform (issueU s q g h b) (globalAccs h q g m x)).afterWindow i s q.lanes := by
  obtain ⟨b, hb⟩ := issueX_uniformU s q g h fun l => (issueX s q g h).memVals m c (m.gaddr g l) l
  refine ⟨b, (if_neg (by simp [X.onWindow, issueX])).trans ((if_neg h0).trans ?_)⟩
  have hb' : (issueX s q g h).uniformU (fun l => (issueX s q g h).memVals m c (m.gaddr (issueX s q g h).g l) l) = issueU s q g h b := hb
  have hc := X.checkEach_of_same (x := issueU s q g h b) (f := fun x l => x.checkGlobal acc rule m.size.bytes m.size.bytes l (m.gaddr x.g l))
    (c := fun l => LaneCheck.ok l (m.gaddr g l) (.at_ l (m.gaddr g l) (x l).pa (x l).key (x l).typ 0 0)) (issueU s q g h b).acting
    fun l hl => issueU_checkGlobal (hx l hl)
  dsimp only
  rw [hb', hc]
  exact X.memOutcome_of_ok _ m.nf acc (actors_ne_nil h0) _ _ perform _

theorem issueX_scratch_of_ok {m : MemArg} {rd wr : Bool} {x : Nat → Nat × Nat × Nat × Nat} (h0 : acts h q g ≠ 0)
    (hx : ∀ l ∈ actors h q g, Targets s q g rd wr (m.saddr g l) m.size.bytes (x l).1 (x l).2.1 (x l).2.2.1 (x l).2.2.2)
    (perform : X → List LaneAcc → X) (fin : X → Lanes → State) :
    ∃ b, (issueX s q g h).scratch m rd wr perform fin = fin (perform (issueU s q g h b) (spadAccs h q g m x)) q.lanes := by
  obtain ⟨b, hb⟩ := issueX_uniformU s q g h fun l => (issueX s q g h).memVals m none (m.saddr g l) l
  refine ⟨b, (if_neg h0).trans ?_⟩
  have hb' : (issueX s q g h).uniformU (fun l => (issueX s q g h).memVals m none (m.saddr (issueX s q g h).g l) l) = issueU s q g h b := hb
  have hc : (issueU s q g h b).acting.map (fun l => (issueU s q g h b).checkSp rd wr m.size.bytes m.size.bytes l (m.saddr (issueU s q g h b).g l)) =
      (actors h q g).map fun l => LaneCheck.ok l (m.saddr g l) (.at_ l (m.saddr g l) (x l).2.1 (x l).1 4 (x l).2.2.1 (x l).2.2.2) :=
    List.map_congr_left fun l hl => issueU_checkSp (hx l hl)
  rw [hb', hc]
  exact X.memOutcome_of_ok _ m.nf _ (actors_ne_nil h0) _ _ perform fin

variable {b : Bool} {y : X} (hy : Launched (issueU s q g h b) y)
include hy

/-- Lanes that go on move their run alone. -/
theorem Launched.advance : GoOn (y.advance q.lanes) q (fun _ => nextPc h q) ∧ ∃ rs, y.advance q.lanes = y.s.setGroup q.gid { y.g with runs := rs } := by
  have hm : y.move q.lanes y.next = y.g.goto q.lanes (nextPc h q) := by
    unfold X.move
    rw [hy.resume, hy.next]
    rfl
  have e : y.advance q.lanes = y.s.setGroup q.gid (y.g.goto q.lanes (nextPc h q)) := by
    unfold X.advance
    rw [hm, hy.gid]
    rfl
  rw [e]
  obtain ⟨rs, hrs⟩ := y.g.place_eq q.lanes (nextPc h q) .ready (stampOf q.lanes y.g.runs y.g.sched.issues)
  exact ⟨⟨_, State.group?_setGroup .., fun l hl => (y.g.at_goto (nextPc h q) hl).pcOf⟩, rs, congrArg (y.s.setGroup q.gid) hrs⟩

/-- The run goes on, or waits for places in a window. -/
theorem Launched.afterWindow (i : Instr) : GoesOnce i s (y.afterWindow i s q.lanes) q g h ∧
    ∃ rs, y.afterWindow i s q.lanes = y.s.setGroup q.gid { y.g with runs := rs } := by
  have hcore : y.core = g.info.core := congrArg GInfo.core hy.info
  have hov (rs : List Run) : (y.s.setGroup q.gid { y.g with runs := rs }).overrun s g.info.core = y.s.overrun s g.info.core := rfl
  unfold X.afterWindow
  rw [hcore]
  cases ho : y.s.overrun s g.info.core with
  | none =>
    obtain ⟨hgo, rs, e⟩ := hy.advance
    dsimp only
    refine ⟨?_, rs, e⟩
    unfold GoesOnce
    rw [show (y.advance q.lanes).overrun s g.info.core = none by rw [e, hov, ho]]
    exact hgo
  | some k =>
    dsimp only
    obtain ⟨rs, hrs⟩ := y.g.place_eq q.lanes y.pc (.waiting (Wait.of (.window k) (some i) y.lanes)) (stampOf q.lanes y.g.runs y.g.sched.issues)
    have e : y.s.setGroup y.gid (y.g.hold q.lanes y.pc (.waiting (Wait.of (.window k) (some i) y.lanes))) = y.s.setGroup q.gid { y.g with runs := rs } := by
      rw [hy.gid]
      exact congrArg (y.s.setGroup q.gid) hrs
    refine ⟨?_, rs, e⟩
    unfold GoesOnce
    rw [show (y.s.setGroup y.gid _).overrun s g.info.core = some k by rw [e, hov, ho]]
    refine ⟨y.g.hold q.lanes y.pc (.waiting (Wait.of (.window k) (some i) y.lanes)), by rw [hy.gid]; exact State.group?_setGroup .., fun l hl => ?_⟩
    have hpc : y.pc = q.pc := hy.pc
    exact ⟨_, by rw [← hpc]; exact y.g.standsIn_place y.pc _ _ hl, rfl, rfl⟩

end

-- A run that waited for places of its requests (R290)

/-- The operands of a meaning, as its run goes on with a wait. -/
def resumeX (s : State) (q : Issue) (g : Group) (h : Hdr) (w : Wait) : X := { issueX s q g h with resume := some w, lanes := w.lanes }

theorem State.withIssue_of_resumes {s : State} {i : Instr} {q : Issue} {w : Wait} {g : Group} (hr : Resumes s i q w g) (h : Hdr) (body : X → State) :
    s.withIssue i h body = .next (body (resumeX s q g h w)) := by
  unfold State.withIssue
  rw [hr.cur]
  dsimp only
  rw [hr.group]
  dsimp only
  simp only [hr.on, hr.budget, hr.priv, Bool.false_eq_true, if_false, Bool.not_true]
  rfl

theorem resumeX_done_onlyRuns (s : State) (q : Issue) (g : Group) (h : Hdr) (w : Wait) : OnlyRuns s (resumeX s q g h w).done q g := by
  obtain ⟨rs, e⟩ := g.place_eq q.lanes (nextPc h q) .ready g.sched.issues
  exact ⟨rs, congrArg (s.setGroup q.gid) e⟩

theorem windowResumes_of_global {i : Instr} {m : MemArg} {c : Option Reg} {acc : Access} {rule : TypeRule} {perform : X → List LaneAcc → X} {s : State}
    {q : Issue} {g : Group} {h : Hdr} (he : exec i s = s.withIssue i h fun x => x.global i m c acc rule perform) : WindowResumes i s q g h := by
  intro w k hr hw
  have hon : (resumeX s q g h w).onWindow = true := by simp [X.onWindow, resumeX, hw]
  refine ⟨_, he.trans (State.withIssue_of_resumes hr h _), fun hb => ?_, fun hb => ?_⟩
  · exact (if_pos hon).trans (if_pos hb)
  · have e : (resumeX s q g h w).global i m c acc rule perform = (resumeX s q g h w).done := (if_pos hon).trans (if_neg (Bool.eq_false_iff.mp hb))
    rw [e]
    exact ⟨X.goOn_done _ rfl rfl, resumeX_done_onlyRuns s q g h w⟩

-- Loads and stores

theorem size_bytes_le (z : Size) : z.bytes ≤ 16 := by cases z <;> decide

section
variable {s : State} {q : Issue} {g : Group} {h : Hdr} {m : MemArg}

theorem loadOrStore_opOf {kind : OpKind} {ctr : Nat} {accs : List LaneAcc} (hk : kind = .load ∨ kind = .store) (hl : accs.map (·.lane) = actors h q g)
    (ht : ∀ a ∈ accs, a.typ ≤ 4) (hf : ∀ a ∈ accs, a.done = false) (hd : kind = .store → ∀ a ∈ accs, a.data.length = m.size.bytes) :
    LoadOrStore (opOf q g h m kind ctr accs) :=
  ⟨hk, rfl, rfl, size_bytes_le m.size, ht, hd, by show (accs.map (·.lane)).Nodup; rw [hl]; exact actors_nodup, hf⟩

/-- Accesses of the acting lanes, in ascending LANE order, none of them answered. -/
structure Accesses (q : Issue) (g : Group) (h : Hdr) (accs : List LaneAcc) : Prop where
  lanes : accs.map (·.lane) = actors h q g
  typ : ∀ a ∈ accs, a.typ ≤ 4
  fresh : ∀ a ∈ accs, a.done = false

theorem accesses_global {acc : Access} {rule : TypeRule} {x : Nat → Xlated}
    (hx : ∀ l ∈ actors h q g, Reaches s q g acc rule (m.gaddr g l) m.size.bytes (x l)) : Accesses q g h (globalAccs h q g m x) := by
  refine ⟨globalAccs_lanes m x, fun a ha => ?_, fun a ha => ?_⟩
  all_goals obtain ⟨l, hl, rfl⟩ := List.mem_map.mp ha
  · exact (State.xlate_typ (hx l hl).2.2).trans (by decide)
  · rfl

theorem accesses_spad (x : Nat → Nat × Nat × Nat × Nat) : Accesses q g h (spadAccs h q g m x) := by
  refine ⟨spadAccs_lanes m x, fun a ha => ?_, fun a ha => ?_⟩
  all_goals obtain ⟨l, -, rfl⟩ := List.mem_map.mp ha
  · exact le_rfl
  · rfl

theorem Accesses.carrying {accs : List LaneAcc} (h' : Accesses q g h accs) : Accesses q g h (carrying g m accs) := by
  refine ⟨(carrying_lanes m accs).trans h'.lanes, fun a ha => ?_, fun a ha => ?_⟩
  all_goals obtain ⟨b, hb, rfl⟩ := List.mem_map.mp ha
  · exact h'.typ b hb
  · exact h'.fresh b hb

theorem Accesses.ne_nil {accs : List LaneAcc} (h' : Accesses q g h accs) (h0 : acts h q g ≠ 0) : accs ≠ [] := fun e =>
  actors_ne_nil h0 (by rw [← h'.lanes, e]; rfl)

variable (b : Bool) {accs : List LaneAcc} (h0 : acts h q g ≠ 0) (ha : Accesses q g h accs)
include h0 ha

/-- A load begins its operation (R76, R150). -/
theorem launch_load (codes : List Nat) :
    let x := issueU s q g h b
    let y := (x.launchOp (x.memOp m .load 0 accs) codes none).1
    Launched x y ∧ Starts s y.s q g (opOf q g h m .load 0 accs) := by
  intro x y
  have e : x.memOp m .load 0 accs = opOf q g h m .load 0 accs := issueU_memOp h0 ha.lanes
  have hl : LoadOrStore (opOf q g h m .load 0 accs) :=
    loadOrStore_opOf (.inl rfl) ha.lanes ha.typ ha.fresh fun h => absurd h (by decide)
  have hs := launchOp_starts (s := s) (g := g) h b codes hl (ha.ne_nil h0) rfl rfl (show (0 : Nat) ≤ 3 by decide)
  rw [← e] at hs
  rw [← e]
  exact ⟨hs.1, hs.2.1⟩

/-- A store begins its operation, in the order that it asks for (R76, R150, R228). -/
theorem launch_store (codes : List Nat) :
    let x := issueU s q g h b
    let o := opOf q g h m .store 1 (carrying g m accs)
    let y := (x.launchOp (x.memOp m .store 1 (x.withData m accs)) codes (relOf m)).1
    Launched x y ∧ StartsInOrder m.order StoredInL1 s y.s q g o := by
  intro x o y
  have hc : Accesses q g h (carrying g m accs) := ha.carrying
  have e : x.memOp m .store 1 (x.withData m accs) = o := issueU_memOp h0 hc.lanes
  have hl : LoadOrStore o := loadOrStore_opOf (.inr rfl) hc.lanes hc.typ hc.fresh fun _ a ha => by
    obtain ⟨c, -, rfl⟩ := List.mem_map.mp ha
    exact Tests.length_leBytes _ _
  have hy : y = (x.launchOp o codes (relOf m)).1 := by rw [← e]
  rw [hy]
  unfold relOf
  cases hr : isRel m.order with
  | false =>
    obtain ⟨hlaunch, hst, hl1⟩ := launchOp_starts (s := s) h b codes hl (hc.ne_nil h0) rfl rfl (show (1 : Nat) ≤ 3 by decide)
    exact ⟨hlaunch, fun _ => ⟨hst, hl1 rfl⟩, fun h => absurd (hr.symm.trans h) (by decide)⟩
  | true =>
    obtain ⟨hlaunch, hord⟩ := launchOp_inOrder (s := s) h b codes hl rfl (hc.ne_nil h0) rfl rfl (show (1 : Nat) ≤ 3 by decide)
    exact ⟨hlaunch, fun h => absurd (hr.symm.trans h) (by decide), fun _ => hord⟩

end

/-- Where the effect is none, an operation that starts in order with an effect starts in order. -/
theorem startsInOrder_noEffect {order : Order} {effect : State → State → Issue → Group → MemOp → Prop} {s t : State} {q : Issue} {g : Group} {o : MemOp}
    (h : StartsInOrder order effect s t q g o) : StartsInOrder order Safety.noEffect s t q g o :=
  ⟨fun ho => ⟨(h.1 ho).1, trivial⟩, fun ho => ⟨(h.2 ho).1, fun hn hw hr => ⟨((h.2 ho).2 hn hw hr).1, trivial⟩⟩⟩

section
variable {i : Hdr → MemArg → Instr} {op : Issue → Group → Hdr → MemArg → List LaneAcc → MemOp}
  {starts : State → State → Issue → Group → MemOp → Prop} {s : State} {q : Issue} {g : Group} {h : Hdr} {m : MemArg} {perform : X → List LaneAcc → X}
  (hp : ∀ b accs, acts h q g ≠ 0 → Accesses q g h accs →
    Launched (issueU s q g h b) (perform (issueU s q g h b) accs) ∧ starts s (perform (issueU s q g h b) accs).s q g (op q g h m accs))
  (hm : ∀ t k rs o, t.group? q.gid = some k → starts s t q g o → starts s (t.setGroup q.gid { k with runs := rs }) q g o)
include hp hm

/-- A MEM instruction on global addresses begins what its accesses begin. -/
theorem globalBegins_of {acc : Access} {rule : MemArg → TypeRule}
    (he : exec (i h m) s = s.withIssue (i h m) h fun x => x.global (i h m) m none acc (rule m) perform) : GlobalBegins i acc rule op starts s q g h m := by
  intro hi
  rw [State.withIssue_of_issues hi] at he
  refine ⟨fun h0 => ⟨_, he, ?_⟩, fun x h0 hx => ⟨_, he, ?_⟩⟩
  · rw [issueX_global_of_empty h0]
    exact ⟨X.goOn_done _ rfl rfl, issueX_done_onlyRuns s q g h⟩
  · obtain ⟨b, e⟩ := issueX_global_of_ok h0 hx (i h m) none perform
    obtain ⟨hy, hst⟩ := hp b _ h0 (accesses_global hx)
    obtain ⟨hgo, rs, e'⟩ := hy.afterWindow (i h m)
    rw [e]
    exact ⟨hgo, by rw [e']; exact hm _ _ rs _ hy.group hst⟩

/-- The same on scratchpad addresses. -/
theorem spadBegins_of {rd wr : Bool} (he : exec (i h m) s = s.withIssue (i h m) h fun x => x.scratch m rd wr perform X.advance) :
    SpadBegins i rd wr op passes starts s q g h m := by
  intro hi
  rw [State.withIssue_of_issues hi] at he
  refine ⟨fun h0 => ⟨_, he, ?_⟩, fun x h0 hx => ⟨_, he, ?_⟩⟩
  · rw [issueX_scratch_of_empty h0]
    exact ⟨X.goOn_done _ rfl rfl, issueX_done_onlyRuns s q g h⟩
  · obtain ⟨b, e⟩ := issueX_scratch_of_ok h0 hx perform X.advance
    obtain ⟨hy, hst⟩ := hp b _ h0 (accesses_spad x)
    obtain ⟨hgo, rs, e'⟩ := hy.advance
    rw [e]
    exact ⟨hgo, by rw [e']; exact hm _ _ rs _ hy.group hst⟩

end

/-- Settles O14: one access after the other, with what has been sent and what has been answered as the invariant (`Going`). -/
theorem loadsAndStoresBegin : Obligations.LoadsAndStoresBegin := by
  refine ⟨fun s q g h m => ⟨?ld, ?lds⟩, fun s q g h m => ⟨?st, ?sts⟩, fun s _ _ h m => ⟨?ldWindow, ?stWindow⟩⟩
  case ld =>
    exact globalBegins_of (fun b _ h0 ha => launch_load b h0 ha (memCodes m)) (fun _ _ rs _ hk => starts_moved hk rs) (show _ = execLd h m s from rfl)
  case lds =>
    exact spadBegins_of (fun b _ h0 ha => launch_load b h0 ha (memCodes m)) (fun _ _ rs _ hk => starts_moved hk rs) (show _ = execLds h m s from rfl)
  case st =>
    exact globalBegins_of (fun b _ h0 ha => launch_store b h0 ha []) (fun _ _ rs _ hk => startsInOrder_moved hk rs id) (show _ = execSt h m s from rfl)
  case sts =>
    exact spadBegins_of (fun b _ h0 ha => (launch_store b h0 ha []).imp_right startsInOrder_noEffect) (fun _ _ rs _ hk => startsInOrder_moved hk rs id)
      (show _ = execSts h m s from rfl)
  case ldWindow => exact windowResumes_of_global (show _ = execLd h m s from rfl)
  case stWindow => exact windowResumes_of_global (show _ = execSt h m s from rfl)

end Sys2Proof.Machine

/-! Integers and bits (R109 to R111): what the shared shapes `X.intArith` and `X.bits` compute, for every instruction that has them. -/

namespace Sys2Proof.Machine

open Sys2Proof.Safety

/-- Positions of a destination of the TYPE's own width, or of a fixed one. -/
theorem dstT_cases (t : Ty) : ∃ w, dstT t = .dst w ∧ (w = 1 ∨ w = 2) := ⟨t.regs, rfl, Ty.regs_cases t⟩

-- Integers (R110)

/-- An instruction whose meaning applies `f` to the exact integers that its elements denote. -/
theorem computes_intArith {mk : Hdr → Arith → Instr} {sp : ArithSpec} {f : Nat → Int → Int → Int → Int} (lat : Arith → Nat)
    (hex : ∀ s h a, exec (mk h a) s = s.withIssue (mk h a) h fun x => x.intArith sp a (lat a) f)
    (hwf : ∀ h a, (mk h a).wf = true → sp.wf h a = true) (hdst : sp.dst = dstT) : Computes mk sp Safety.always (integerRule f) :=
  Computes.intro lat (fun _ => 0) (fun _ _ a _ u v w => intOp a.ty a.sat f u v w) (fun s _ _ h a hi => exec_of_withIssue (hex s h a) hi) hwf
    (.inl fun t => hdst ▸ dstT_cases t) (.inr fun _ _ a _ u v w i hi => intOp_low a.ty a.sat f u v w i hi)
    fun g q _ a m _ => intOp_rule f g q m a _ _ _

/-- Settles O5: each instruction applies its function to the exact integers. -/
theorem integersCompute : Obligations.IntegersCompute := by
  have hmulhi : (fun (w : Nat) (x y _ : Int) => x * y / 2 ^ w) = fun w x y _ => Int.fdiv (x * y) (2 ^ w) := by
    funext w x y _
    exact (Int.fdiv_eq_ediv_of_nonneg _ (by positivity)).symm
  have habs : (fun (_ : Nat) (x _ _ : Int) => |x|) = fun _ x _ _ => (x.natAbs : Int) := by
    funext _ x _ _
    exact Int.abs_eq_natAbs x
  refine ⟨?iadd, ?isub, ?imul, ?imulhi, ?imad, ?imin, ?imax, ?iabs, ?ineg⟩
  case iadd => exact computes_intArith (fun _ => 4) (fun _ _ _ => rfl) (fun _ _ => Instr.wfA_of_wf) rfl
  case isub => exact computes_intArith (fun _ => 4) (fun _ _ _ => rfl) (fun _ _ => Instr.wfA_of_wf) rfl
  case imul => exact computes_intArith (fun a => mulLat a.ty) (fun _ _ _ => rfl) (fun _ _ => Instr.wfA_of_wf) rfl
  case imulhi => exact hmulhi ▸ computes_intArith (fun a => mulLat a.ty) (fun _ _ _ => rfl) (fun _ _ => Instr.wfA_of_wf) rfl
  case imad => exact computes_intArith (fun a => mulLat a.ty) (fun _ _ _ => rfl) (fun _ _ => Instr.wfA_of_wf) rfl
  case imin => exact computes_intArith (fun _ => 4) (fun _ _ _ => rfl) (fun _ _ => Instr.wfA_of_wf) rfl
  case imax => exact computes_intArith (fun _ => 4) (fun _ _ _ => rfl) (fun _ _ => Instr.wfA_of_wf) rfl
  case iabs => exact habs ▸ computes_intArith (fun _ => 4) (fun _ _ _ => rfl) (fun _ _ => Instr.wfA_of_wf) rfl
  case ineg => exact computes_intArith (fun _ => 4) (fun _ _ _ => rfl) (fun _ _ => Instr.wfA_of_wf) rfl

-- Bits (R111)

/-- The result of an instruction on the bits of its TYPE's width. -/
def bitsRes (f : Nat → Nat → Nat → Nat → Nat) (a : Arith) (u v w : Dword) : Res :=
  Res.ofNat (f (bitWidth a.ty) (u.toNat % 2 ^ bitWidth a.ty) v.toNat w.toNat % 2 ^ bitWidth a.ty)

theorem bitWidth_cases (t : Ty) : bitWidth t = 32 ∨ bitWidth t = 64 := by unfold bitWidth; split <;> simp

theorem bitWidth_le (t : Ty) : bitWidth t ≤ 64 := by rcases bitWidth_cases t with h | h <;> omega

theorem getLsbD_bitsRes (f : Nat → Nat → Nat → Nat → Nat) (a : Arith) (u v w : Dword) {i : Nat} (hi : i < bitWidth a.ty) :
    (bitsRes f a u v w).val.getLsbD i = (f (bitWidth a.ty) (u.toNat % 2 ^ bitWidth a.ty) v.toNat w.toNat).testBit i := by
  have hi64 : i < 64 := hi.trans_le (bitWidth_le a.ty)
  rw [bitsRes, Res.ofNat, BitVec.getLsbD_ofNat, Nat.testBit_mod_two_pow]
  simp only [hi, hi64, decide_true, Bool.true_and]

theorem truncate_bitsRes (f : Nat → Nat → Nat → Nat → Nat) (a : Arith) (u v w : Dword) :
    (bitsRes f a u v w).val.truncate (bitWidth a.ty) = BitVec.ofNat _ (f (bitWidth a.ty) (u.toNat % 2 ^ bitWidth a.ty) v.toNat w.toNat) := by
  apply BitVec.eq_of_getLsbD_eq
  intro i hi
  rw [BitVec.truncate_eq_setWidth, BitVec.getLsbD_setWidth, getLsbD_bitsRes f a u v w hi, BitVec.getLsbD_ofNat]

/-- An instruction whose meaning applies `f` to the bits of its operands. -/
theorem computes_bits {mk : Hdr → Arith → Instr} {sp : ArithSpec} {f : Arith → Nat → Nat → Nat → Nat → Nat} {rule : LaneRule}
    (hex : ∀ s h a, exec (mk h a) s = s.withIssue (mk h a) h fun x => x.bits sp a (f a))
    (hwf : ∀ h a, (mk h a).wf = true → sp.wf h a = true) (hdst : ∀ t, ∃ w, sp.dst t = .dst w ∧ (w = 1 ∨ w = 2))
    (hrule : ∀ g q m a u v w, rule g q m a u v w (bitsRes (f a) a u v w).val 0) : Computes mk sp Safety.always rule :=
  Computes.intro (fun _ => 4) (fun _ => 0) (fun _ _ a _ u v w => bitsRes (f a) a u v w) (fun s _ _ h a hi => exec_of_withIssue (hex s h a) hi) hwf
    (.inl hdst) (.inr fun _ _ _ _ _ _ _ _ _ => BitVec.getLsbD_zero) fun g q _ a m _ => hrule g q m a _ _ _

/-- One of shape R111, whose function of numbers is `F` of the bits at each width. -/
theorem computes_bitsRule {mk : Hdr → Arith → Instr} {sp : ArithSpec} {f : Nat → Nat → Nat → Nat → Nat} {F : (w : Nat) → BitVec w → BitVec w → BitVec w}
    (hex : ∀ s h a, exec (mk h a) s = s.withIssue (mk h a) h fun x => x.bits sp a f)
    (hwf : ∀ h a, (mk h a).wf = true → sp.wf h a = true) (hdst : sp.dst = dstT)
    (hF : ∀ (k : Nat) (u v w : Dword) (i : Nat), i < k → (f k (u.toNat % 2 ^ k) v.toNat w.toNat).testBit i = (F k (u.truncate k) (v.truncate k)).getLsbD i) :
    Computes mk sp Safety.always (bitsRule F) := by
  refine computes_bits hex hwf (hdst ▸ dstT_cases) fun _ _ _ a u v w => ⟨?_, rfl⟩
  rw [truncate_bitsRes]
  apply BitVec.eq_of_getLsbD_eq
  intro i hi
  rw [BitVec.getLsbD_ofNat, hF _ u v w i hi]
  simp [hi]

theorem testBit_ones_sub {w x i : Nat} (hx : x < 2 ^ w) (hi : i < w) : (ones w - x).testBit i = !x.testBit i := by
  rw [ones, Nat.sub_sub, Nat.add_comm 1 x, Nat.testBit_two_pow_sub_succ hx]
  simp [hi]

/-- Settles O6: each instruction is its function of the operands' bits. -/
theorem bitsCompute : Obligations.BitsCompute := by
  have hmod (x k : Nat) : x % 2 ^ k < 2 ^ k := Nat.mod_lt _ (Nat.two_pow_pos k)
  refine ⟨?and, ?or, ?xor, ?andn, ?not⟩
  case and =>
    exact computes_bitsRule (fun _ _ _ => rfl) (fun _ _ => Instr.wfA_of_wf) rfl fun _ _ _ _ _ hi => by
      simp [hi, Nat.testBit_mod_two_pow, BitVec.testBit_toNat]
  case or =>
    exact computes_bitsRule (fun _ _ _ => rfl) (fun _ _ => Instr.wfA_of_wf) rfl fun _ _ _ _ _ hi => by
      simp [hi, Nat.testBit_mod_two_pow, BitVec.testBit_toNat]
  case xor =>
    exact computes_bitsRule (fun _ _ _ => rfl) (fun _ _ => Instr.wfA_of_wf) rfl fun _ _ _ _ _ hi => by
      simp [hi, Nat.testBit_mod_two_pow, BitVec.testBit_toNat]
  case andn =>
    exact computes_bitsRule (fun _ _ _ => rfl) (fun _ _ => Instr.wfA_of_wf) rfl fun _ _ _ _ _ hi => by
      simp [hi, testBit_ones_sub (hmod _ _) hi, Nat.testBit_mod_two_pow, BitVec.testBit_toNat]
  case not =>
    exact computes_bitsRule (fun _ _ _ => rfl) (fun _ _ => Instr.wfA_of_wf) rfl fun _ _ _ _ _ hi => by
      simp [hi, testBit_ones_sub (hmod _ _) hi, Nat.testBit_mod_two_pow, BitVec.testBit_toNat]

end Sys2Proof.Machine

/-! Shifts, rotations, counts and bit fields (R112 to R114). -/

namespace Sys2Proof.Machine

open Sys2Proof.Safety

-- Shifts and rotations (R112)

theorem flagsOf_zero (n : Nat) : flagsOf (List.range n) (fun _ => 0) = 0 := by
  simpa [flIf] using flagsOf_any n fun _ => false

/-- The result of a shift or rotation, whose count is the element of B for the packed types and B as 32 bits for the others. -/
def shiftRes (f : Nat → Nat → Nat → Nat) (a : Arith) (u v : Dword) : Res :=
  Res.of (packed (elemWidth a.ty) (elemCount a.ty) fun i =>
    (f (elemWidth a.ty) (elem (elemWidth a.ty) i u.toNat) (if elemCount a.ty = 2 then elem 16 i v.toNat else v.toNat % 2 ^ 32), 0))

theorem fl_packed_quiet (w n : Nat) (f : Nat → Nat) : (Res.of (packed w n fun i => (f i, 0))).fl = 0 :=
  (packed_fst_aux w _ n).2.2.trans (flagsOf_zero n)

/-- An instruction whose meaning moves each element by its count, as `F` does. -/
theorem computes_shift {mk : Hdr → Arith → Instr} {sp : ArithSpec} {f : Nat → Nat → Nat → Nat} {F : (w : Nat) → BitVec w → Nat → BitVec w}
    (hex : ∀ s h a, exec (mk h a) s = s.withIssue (mk h a) h fun x => x.shift sp a f)
    (hwf : ∀ h a, (mk h a).wf = true → sp.wf h a = true) (hdst : sp.dst = dstT)
    (hF : ∀ k (x : BitVec k) n, 0 < k → f k x.toNat n % 2 ^ k = (F k x n).toNat) : Computes mk sp Safety.always (shiftRule F) := by
  refine Computes.intro (fun _ => 4) (fun _ => 0) (fun _ _ a _ u v _ => shiftRes f a u v) (fun s _ _ h a hi => exec_of_withIssue (hex s h a) hi) hwf
    (.inl fun t => hdst ▸ dstT_cases t) (.inr fun _ _ _ _ _ _ _ i _ => ?_) fun _ _ _ a _ _ => ⟨fun e he => ?_, fl_packed_quiet ..⟩
  · exact (congrArg (BitVec.getLsbD · i) (fl_packed_quiet ..)).trans BitVec.getLsbD_zero
  · obtain ⟨hw, hwn⟩ := intShape_bounds a.ty
    apply BitVec.eq_of_toNat_eq
    refine (extract_packed _ _ hwn _ he).trans ?_
    dsimp only
    rw [elem_eq, elem_eq 16, hF _ _ _ hw, BitVec.truncate_eq_setWidth, BitVec.toNat_setWidth]

theorem shl_eq (k : Nat) (x : BitVec k) (n : Nat) : (if n < k then x.toNat * 2 ^ n else 0) % 2 ^ k = (x <<< n).toNat := by
  rw [BitVec.toNat_shiftLeft, Nat.shiftLeft_eq]
  split
  · rfl
  next h => rw [Nat.zero_mod, Nat.mod_eq_zero_of_dvd (Nat.dvd_mul_left_of_dvd (Nat.pow_dvd_pow 2 (not_lt.mp h)) _)]

theorem shr_eq (k : Nat) (x : BitVec k) (n : Nat) : (if n < k then x.toNat / 2 ^ n else 0) % 2 ^ k = (x >>> n).toNat := by
  rw [BitVec.toNat_ushiftRight, Nat.shiftRight_eq_div_pow]
  split
  · exact Nat.mod_eq_of_lt ((Nat.div_le_self _ _).trans_lt x.isLt)
  next h => rw [Nat.zero_mod, Nat.div_eq_of_lt (x.isLt.trans_le (Nat.pow_le_pow_right two_pos (not_lt.mp h)))]

/-- A shift by the width already leaves the sign alone. -/
theorem toInt_ediv_min (k : Nat) (x : BitVec k) (n : Nat) : x.toInt / 2 ^ min n k = x.toInt / 2 ^ n := by
  rcases le_total n k with h | h
  · rw [min_eq_left h]
  · have hk : (2 : Int) ^ k ≤ 2 ^ n := pow_le_pow_right₀ one_le_two h
    have hp : (0 : Int) < 2 ^ k := by positivity
    have hlo := BitVec.le_two_mul_toInt (x := x)
    have hhi := BitVec.two_mul_toInt_lt (x := x)
    rw [min_eq_right h]
    rcases le_or_gt 0 x.toInt with h0 | h0
    · rw [Int.ediv_eq_zero_of_lt h0 (by omega), Int.ediv_eq_zero_of_lt h0 (by omega)]
    · rw [Int.ediv_eq_neg_one_of_neg_of_le h0 (by omega), Int.ediv_eq_neg_one_of_neg_of_le h0 (by omega)]

theorem sar_eq (k : Nat) (x : BitVec k) (n : Nat) (hk : 0 < k) :
    wrapInt k (Int.fdiv (toInt true k x.toNat) (2 ^ min n k)) % 2 ^ k = (x.sshiftRight n).toNat := by
  rw [toInt_eq true k hk, Int.fdiv_eq_ediv_of_nonneg _ (by positivity), Nat.mod_eq_of_lt (wrapInt_lt ..), wrapInt_eq]
  congr 1
  rw [show intOf true x = x.toInt from rfl, toInt_ediv_min, ← BitVec.ofInt_toInt (x := x.sshiftRight n), BitVec.toInt_sshiftRight,
    Int.shiftRight_eq_div_pow]
  push_cast
  rfl

theorem rotl_eq (k : Nat) (x : BitVec k) (n : Nat) (hk : 0 < k) : rotl k x.toNat n = (x.rotateLeft n).toNat := by
  have hs : n % k < k := Nat.mod_lt n hk
  rw [BitVec.toNat_rotateLeft, rotl, Nat.shiftLeft_eq, Nat.shiftRight_eq_div_pow]
  generalize n % k = s at hs ⊢
  have hpow : 2 ^ k = 2 ^ s * 2 ^ (k - s) := by rw [← pow_add, Nat.add_sub_cancel' hs.le]
  have hlow : x.toNat / 2 ^ (k - s) < 2 ^ s := Nat.div_lt_of_lt_mul (by rw [mul_comm, ← hpow]; exact x.isLt)
  rw [mul_comm, hpow, Nat.mul_mod_mul_left, Nat.two_pow_add_eq_or_of_lt hlow]

/-- A rotation right is one left by what is missing to the width. -/
theorem rotateLeft_sub (k : Nat) (x : BitVec k) (n : Nat) (hk : 0 < k) : x.rotateLeft (k - n % k) = x.rotateRight n := by
  have hs : n % k < k := Nat.mod_lt n hk
  apply BitVec.eq_of_getLsbD_eq
  intro i hi
  rw [BitVec.getLsbD_rotateLeft, BitVec.getLsbD_rotateRight]
  generalize n % k = s at hs ⊢
  rcases Nat.eq_zero_or_pos s with rfl | h0
  · simp [hi]
  · have hm : (k - s) % k = k - s := Nat.mod_eq_of_lt (by omega)
    have hsub : k - (k - s) = s := by omega
    rw [hm, hsub]

theorem ror_eq (k : Nat) (x : BitVec k) (n : Nat) (hk : 0 < k) : rotl k x.toNat (k - n % k) = (x.rotateRight n).toNat := by
  rw [rotl_eq k x _ hk, rotateLeft_sub k x n hk]

-- Counts and reversal (R113)

theorem truncate_bitsRes_of_le (f : Nat → Nat → Nat → Nat → Nat) (a : Arith) (u v w : Dword) {k : Nat} (hk : k ≤ bitWidth a.ty) :
    (bitsRes f a u v w).val.truncate k = BitVec.ofNat k (f (bitWidth a.ty) (u.toNat % 2 ^ bitWidth a.ty) v.toNat w.toNat) := by
  apply BitVec.eq_of_getLsbD_eq
  intro i hi
  rw [BitVec.truncate_eq_setWidth, BitVec.getLsbD_setWidth, getLsbD_bitsRes f a u v w (hi.trans_le hk), BitVec.getLsbD_ofNat]

theorem le_bitWidth (t : Ty) : 32 ≤ bitWidth t := by rcases bitWidth_cases t with h | h <;> omega

theorem testBit_mod_toNat (u : Dword) {k i : Nat} (hi : i < k) : (u.toNat % 2 ^ k).testBit i = u.getLsbD i := by
  rw [Nat.testBit_mod_two_pow, BitVec.testBit_toNat]
  simp [hi]

theorem popcount_eq (k : Nat) (u : Dword) : popcount k (u.toNat % 2 ^ k) = (List.range k).countP (u.getLsbD ·) := by
  rw [popcount, ← List.countP_eq_length_filter]
  refine List.countP_congr fun i hi => ?_
  rw [testBit_mod_toNat u (List.mem_range.mp hi)]

/-- The zeros above the highest one bit. -/
theorem countZeros_spec {k x : Nat} (hx : x < 2 ^ k) : countZeros k x ≤ k ∧
    (∀ i, k - countZeros k x ≤ i → x.testBit i = false) ∧ (countZeros k x < k → x.testBit (k - 1 - countZeros k x) = true) := by
  unfold countZeros
  split
  next h0 => exact ⟨le_rfl, fun i _ => by rw [h0, Nat.zero_testBit], fun h => absurd h (lt_irrefl _)⟩
  next h0 =>
    have hlog : Nat.log2 x < k := (Nat.log2_lt h0).mpr hx
    refine ⟨by omega, fun i hi => Nat.testBit_lt_two_pow ((Nat.log2_lt h0).mp (by omega)), fun _ => ?_⟩
    rw [show k - 1 - (k - 1 - Nat.log2 x) = Nat.log2 x by omega]
    exact Nat.testBit_log2 h0

/-- The bits of `u` below `n`, in the reverse order, as they stand at the top of `k` bits. -/
theorem reverseBits_prefix (k u n : Nat) (hn : n ≤ k) :
    ∃ a, (List.range n).foldl (fun r i => if u.testBit i then r + 2 ^ (k - 1 - i) else r) 0 = 2 ^ (k - n) * a ∧
      ∀ j, j < n → a.testBit j = u.testBit (n - 1 - j) := by
  induction n with
  | zero => exact ⟨0, rfl, fun _ h => absurd h (Nat.not_lt_zero _)⟩
  | succ n ih =>
    obtain ⟨a, ha, hbits⟩ := ih (Nat.le_of_succ_le hn)
    refine ⟨2 * a + (u.testBit n).toNat, ?_, fun j hj => ?_⟩
    · rw [List.range_succ, List.foldl_append, ha, show k - n = k - (n + 1) + 1 by omega, pow_succ]
      show (if u.testBit n then 2 ^ (k - (n + 1)) * 2 * a + 2 ^ (k - 1 - n) else 2 ^ (k - (n + 1)) * 2 * a) = _
      rw [show k - 1 - n = k - (n + 1) by omega]
      cases u.testBit n <;> (simp; ring)
    · cases j with
      | zero => cases h : u.testBit n <;> simp [h, Nat.testBit_zero, Nat.add_mod]
      | succ j =>
        have hdiv : (2 * a + (u.testBit n).toNat) / 2 = a := by have := (u.testBit n).toNat_lt; omega
        rw [Nat.testBit_succ, hdiv, hbits j (by omega)]
        congr 1
        omega

theorem testBit_reverseBits {k i : Nat} (u : Nat) (hi : i < k) : (reverseBits k u).testBit i = u.testBit (k - 1 - i) := by
  obtain ⟨a, ha, hbits⟩ := reverseBits_prefix k u k le_rfl
  rw [reverseBits, ha, Nat.sub_self, pow_zero, one_mul, hbits i hi]

-- Bit fields (R114)

theorem fieldPos_eq (f : Dword) : fieldPos f = f.toNat % 256 := by simp [fieldPos]

theorem fieldLen_eq (f : Dword) : fieldLen f = f.toNat / 256 % 256 := by simp [fieldLen, Nat.shiftRight_eq_div_pow]

theorem fieldOf_toNat (k : Nat) (f : Dword) :
    fieldOf k f.toNat = if fieldPos f ≥ k ∨ fieldLen f = 0 then none else some (fieldPos f, min (fieldLen f) (k - fieldPos f)) := by
  simp [fieldOf, fieldPos_eq, fieldLen_eq]

theorem ofNat_field (u : Dword) {k pos len : Nat} (h : pos + len ≤ k) : BitVec.ofNat len (u.toNat % 2 ^ k / 2 ^ pos) = u.extractLsb' pos len := by
  apply BitVec.eq_of_getLsbD_eq
  intro i hi
  rw [BitVec.getLsbD_ofNat, Nat.testBit_div_two_pow, testBit_mod_toNat u (by omega), BitVec.getLsbD_extractLsb', Nat.add_comm i]

theorem bfeVal_eq (signed : Bool) (k : Nat) (u f : Dword) :
    BitVec.ofNat k (bfeVal signed k (u.toNat % 2 ^ k) f.toNat) =
      if fieldPos f ≥ k ∨ fieldLen f = 0 then 0
      else if signed then (u.extractLsb' (fieldPos f) (min (fieldLen f) (k - fieldPos f))).signExtend k
        else (u.extractLsb' (fieldPos f) (min (fieldLen f) (k - fieldPos f))).zeroExtend k := by
  unfold bfeVal
  rw [fieldOf_toNat]
  by_cases h : fieldPos f ≥ k ∨ fieldLen f = 0
  · simp only [if_pos h]
    rfl
  · simp only [if_neg h]
    rw [toInt_eq_intOf _ (by omega), ofNat_field u (by omega), wrapInt_eq, BitVec.ofNat_toNat, BitVec.setWidth_eq]
    cases signed with
    | true => rfl
    | false =>
      refine (BitVec.ofInt_natCast ..).trans ?_
      rw [BitVec.ofNat_toNat]
      rfl

theorem testBit_bfiVal {k i : Nat} (u v f : Dword) (hi : i < k) :
    (bfiVal k (u.toNat % 2 ^ k) v.toNat f.toNat).testBit i =
      if fieldPos f ≤ i ∧ i < fieldPos f + fieldLen f then v.getLsbD (i - fieldPos f) else u.getLsbD i := by
  unfold bfiVal
  rw [fieldOf_toNat]
  by_cases h : fieldPos f ≥ k ∨ fieldLen f = 0
  · simp only [if_pos h]
    rw [testBit_mod_toNat u hi, if_neg (by omega)]
  · simp only [if_neg h]
    obtain ⟨len, hlen⟩ : ∃ len, min (fieldLen f) (k - fieldPos f) = len := ⟨_, rfl⟩
    have hin : i < fieldPos f + fieldLen f ↔ i < fieldPos f + len := by omega
    simp only [hlen, hin]
    generalize fieldPos f = pos
    have hlow : u.toNat % 2 ^ k % 2 ^ pos < 2 ^ pos := Nat.mod_lt _ (Nat.two_pow_pos _)
    have hmid : v.toNat % 2 ^ len < 2 ^ len := Nat.mod_lt _ (Nat.two_pow_pos _)
    have hsum : u.toNat % 2 ^ k % 2 ^ pos + v.toNat % 2 ^ len * 2 ^ pos + u.toNat % 2 ^ k / 2 ^ (pos + len) * 2 ^ (pos + len) =
        2 ^ pos * (2 ^ len * (u.toNat % 2 ^ k / 2 ^ (pos + len)) + v.toNat % 2 ^ len) + u.toNat % 2 ^ k % 2 ^ pos := by ring
    rw [hsum, Nat.testBit_two_pow_mul_add _ hlow, Nat.testBit_two_pow_mul_add _ hmid, Nat.testBit_mod_two_pow, Nat.testBit_div_two_pow,
      testBit_mod_toNat u hi]
    by_cases h1 : i < pos
    · simp [h1, h1.not_ge]
    · by_cases h2 : i < pos + len
      · rw [if_neg h1, if_pos (by omega), if_pos ⟨by omega, h2⟩, testBit_mod_toNat v (by omega)]
      · rw [if_neg h1, if_neg (by omega), if_neg (by omega), show i - pos - len + (pos + len) = i by omega, testBit_mod_toNat u hi]

/-- Settles O7: the count of a shift is taken as it stands, and the other instructions are functions of the bits of their operands. -/
theorem shiftsAndFieldsCompute : Obligations.ShiftsAndFieldsCompute := by
  refine ⟨⟨?shl, ?shr, ?sar, ?rol, ?ror⟩, ?popc, ?clz, ?brev, ?bfe, ?bfi⟩
  case shl => exact computes_shift (fun _ _ _ => rfl) (fun _ _ => Instr.wfA_of_wf) rfl fun k x n _ => shl_eq k x n
  case shr => exact computes_shift (fun _ _ _ => rfl) (fun _ _ => Instr.wfA_of_wf) rfl fun k x n _ => shr_eq k x n
  case sar => exact computes_shift (fun _ _ _ => rfl) (fun _ _ => Instr.wfA_of_wf) rfl sar_eq
  case rol =>
    exact computes_shift (fun _ _ _ => rfl) (fun _ _ => Instr.wfA_of_wf) rfl fun k x n hk => by
      rw [rotl_eq k x n hk, BitVec.toNat_mod_cancel]
  case ror =>
    exact computes_shift (fun _ _ _ => rfl) (fun _ _ => Instr.wfA_of_wf) rfl fun k x n hk => by
      rw [ror_eq k x n hk, BitVec.toNat_mod_cancel]
  case popc =>
    refine computes_bits (fun _ _ _ => rfl) (fun _ _ => Instr.wfA_of_wf) (fun _ => ⟨1, rfl, .inl rfl⟩) fun _ _ _ a u v w => ⟨?_, rfl⟩
    rw [truncate_bitsRes_of_le _ a u v w (le_bitWidth _), popcount_eq]
  case clz =>
    refine computes_bits (fun _ _ _ => rfl) (fun _ _ => Instr.wfA_of_wf) (fun _ => ⟨1, rfl, .inl rfl⟩) fun _ _ _ a u v w => ⟨rfl, ?_⟩
    obtain ⟨hle, hzeros, hone⟩ := countZeros_spec (Nat.mod_lt u.toNat (Nat.two_pow_pos (bitWidth a.ty)))
    refine ⟨_, hle, truncate_bitsRes_of_le _ a u v w (le_bitWidth _), fun i hi hlt => ?_, fun hlt => ?_⟩
    · rw [← testBit_mod_toNat u hlt, hzeros i hi]
    · rw [← testBit_mod_toNat u (k := bitWidth a.ty) (by omega), hone hlt]
  case brev =>
    refine computes_bits (fun _ _ _ => rfl) (fun _ _ => Instr.wfA_of_wf) dstT_cases fun _ _ _ a u v w => ⟨rfl, fun i hi => ?_⟩
    rw [getLsbD_bitsRes _ a u v w hi, testBit_reverseBits _ hi, testBit_mod_toNat u (by omega)]
  case bfe =>
    refine computes_bits (fun _ _ _ => rfl) (fun _ _ => Instr.wfA_of_wf) dstT_cases fun _ _ _ a u v w => ⟨rfl, ?_⟩
    rw [truncate_bitsRes, bfeVal_eq]
  case bfi =>
    refine computes_bits (fun _ _ _ => rfl) (fun _ _ => Instr.wfA_of_wf) dstT_cases fun _ _ _ a u v w => ⟨rfl, fun i hi => ?_⟩
    rw [getLsbD_bitsRes _ a u v w hi, testBit_bfiVal u v w hi]

end Sys2Proof.Machine

/-! Predicates (R108), selection, comparison, address computation and move (R115 to R118). -/

namespace Sys2Proof.Machine

open Sys2Proof.Safety

-- Operands

/-- What a predicate operand reads as. -/
theorem srcVal_psrc {u b : Bool} {y : Src} (hy : y.ok u .psrc b = true) (hr : y.last = .reg) (t : Ty) (g : Group) (m : Nat) :
    ∃ p, srcVal t .psrc g m y = bool64 p := by
  obtain ⟨r, rfl⟩ : ∃ r, y = .reg r := by
    cases y with
    | reg r => exact ⟨r, rfl⟩
    | none => cases hy
    | _ => cases hr
  cases r with
  | p n =>
    refine ⟨g.rdP n.val m, ?_⟩
    show ((if g.rdP n.val m then 1 else 0 : Word)).zeroExtend 64 = _
    cases g.rdP n.val m <;> rfl
  | _ => cases hy

theorem ArithSpec.srcsOk_of_wf {sp : ArithSpec} {h : Hdr} {a : Arith} (hwf : sp.wf h a = true) : a.srcsOk h.u (sp.srcs a.ty) = true := by
  simp only [ArithSpec.wf, Bool.and_eq_true] at hwf
  exact hwf.2

theorem ArithSpec.immOk_of_wf {sp : ArithSpec} {h : Hdr} {a : Arith} (hwf : sp.wf h a = true) :
    sp.immOk (a.lastSrc (sp.srcs a.ty).length).last = true := by
  simp only [ArithSpec.wf, ArithSpec.modOk, Bool.and_eq_true] at hwf
  exact hwf.1.1.2.2

theorem isReg_iff {l : Last} : l.isReg = true ↔ l = .reg := by cases l <;> simp [Last.isReg]

/-- The operands of `pand`, `por` and `pxor`. -/
theorem vals_pbin {h : Hdr} {a : Arith} (hwf : specPbin.wf h a = true) (g : Group) (m : Nat) :
    ∃ p q, (a.vals specPbin g m).1 = bool64 p ∧ (a.vals specPbin g m).2.1 = bool64 q := by
  have hs : (a.a.ok h.u .psrc false && a.b.ok h.u .psrc true && a.c == .none) = true := ArithSpec.srcsOk_of_wf hwf
  simp only [Bool.and_eq_true] at hs
  obtain ⟨⟨ha, hb⟩, -⟩ := hs
  obtain ⟨p, hp⟩ := srcVal_psrc ha (by cases h' : a.a <;> simp_all [Src.ok, Src.last]) a.ty g m
  obtain ⟨q, hq⟩ := srcVal_psrc hb (isReg_iff.mp (ArithSpec.immOk_of_wf hwf)) a.ty g m
  exact ⟨p, q, hp, hq⟩

-- Predicates (R108)

theorem isBit_bool64 {b : Bool} {p : Prop} (h : b = true ↔ p) : isBit (bool64 b) p := by
  cases b with
  | true => exact ⟨fun _ => rfl, fun hn => absurd (h.mp rfl) hn⟩
  | false => exact ⟨fun hp => absurd (h.mpr hp) Bool.false_ne_true, fun _ => rfl⟩

/-- An instruction with a predicate result, which is a bit whatever well-formed operands it has. -/
theorem computes_pred {mk : Hdr → Arith → Instr} {sp : ArithSpec} {f : Arith → Dword → Dword → Dword} {p : Arith → Dword → Dword → Prop}
    (hex : ∀ s h a, exec (mk h a) s = s.withIssue (mk h a) h fun x => x.arith sp a 4 0 fun _ u v _ => { val := f a u v, fl := 0 })
    (hwf : ∀ h a, (mk h a).wf = true → sp.wf h a = true) (hdst : sp.dst = dstP)
    (hbit : ∀ g m h a, sp.wf h a = true → ∃ b : Bool, f a (a.vals sp g m).1 (a.vals sp g m).2.1 = bool64 b ∧
      (b = true ↔ p a (a.vals sp g m).1 (a.vals sp g m).2.1)) :
    Computes mk sp Safety.always fun _ _ _ a u v _ d fl => isBit d (p a u v) ∧ fl = 0 := by
  refine Computes.intro (fun _ => 4) (fun _ => 0) (fun _ _ a _ u v _ => { val := f a u v, fl := 0 })
    (fun s _ _ h a hi => exec_of_withIssue (hex s h a) hi) hwf (.inr ⟨fun t => congrFun hdst t, fun g _ h a m hw => ?_⟩)
    (.inr fun _ _ _ _ _ _ _ _ _ => BitVec.getLsbD_zero) fun g _ h a m hw => ⟨?_, rfl⟩
  · obtain ⟨b, hb, -⟩ := hbit g m h a hw
    exact ⟨b, hb⟩
  · obtain ⟨b, hb, hp⟩ := hbit g m h a hw
    exact hb ▸ isBit_bool64 hp

/-- A bitwise function of two predicates. -/
theorem bool64_pbin {f : Dword → Dword → Dword} {k : Bool → Bool → Bool} {P : Dword → Dword → Prop} (hf : ∀ p q, f (bool64 p) (bool64 q) = bool64 (k p q))
    (hP : ∀ p q, k p q = true ↔ P (bool64 p) (bool64 q)) (g : Group) (m : Nat) (h : Hdr) (a : Arith) (hwf : specPbin.wf h a = true) :
    ∃ b : Bool, f (a.vals specPbin g m).1 (a.vals specPbin g m).2.1 = bool64 b ∧
      (b = true ↔ P (a.vals specPbin g m).1 (a.vals specPbin g m).2.1) := by
  obtain ⟨p, q, hp, hq⟩ := vals_pbin hwf g m
  rw [hp, hq]
  exact ⟨k p q, hf p q, hP p q⟩

-- Selection, comparison, address computation and move (R115 to R118)

/-- An instruction with one result of a fixed or of the TYPE's width, that raises nothing. -/
theorem computes_value {mk : Hdr → Arith → Instr} {sp : ArithSpec} {rule : LaneRule} (lat : Nat) (f : Arith → Dword → Dword → Dword → Dword)
    (hex : ∀ s h a, exec (mk h a) s = s.withIssue (mk h a) h fun x => x.arith sp a lat 0 fun _ u v w => { val := f a u v w, fl := 0 })
    (hwf : ∀ h a, (mk h a).wf = true → sp.wf h a = true) (hdst : ∀ t, ∃ w, sp.dst t = .dst w ∧ (w = 1 ∨ w = 2))
    (hrule : ∀ g q h m a u v w, sp.wf h a = true → rule g q m a u v w (f a u v w) 0) : Computes mk sp Safety.always rule :=
  Computes.intro (fun _ => lat) (fun _ => 0) (fun _ _ a _ u v w => { val := f a u v w, fl := 0 }) (fun s _ _ h a hi => exec_of_withIssue (hex s h a) hi)
    hwf (.inl hdst) (.inr fun _ _ _ _ _ _ _ _ _ => BitVec.getLsbD_zero) fun g q h a m hw => hrule g q h m a _ _ _ hw

theorem element_zero (t : Ty) (x : Dword) : element t 0 x = toInt (intShape t).1 (elemWidth t) x.toNat := by
  rw [toInt_eq_intOf _ (intShape_bounds t).1]
  rfl

theorem intCond_iff (c : Nat) (x y : Int) : intCond c x y = true ↔ Safety.holds c x y := by
  unfold intCond Safety.holds
  split <;> simp

theorem extend_shiftLeft (signed : Bool) (v : Word) (n : Nat) :
    (if signed then v.signExtend 64 else v.zeroExtend 64 : Dword) <<< n = BitVec.ofInt 64 (intOf signed v * 2 ^ n) := by
  have hext : (if signed then v.signExtend 64 else v.zeroExtend 64 : Dword) = BitVec.ofInt 64 (intOf signed v) := by
    cases signed with
    | true => rfl
    | false => exact (BitVec.ofNat_toNat ..).symm.trans (BitVec.ofInt_natCast ..).symm
  have hpow : BitVec.twoPow 64 n = BitVec.ofInt 64 (2 ^ n) := by
    apply BitVec.eq_of_toNat_eq
    rw [BitVec.toNat_twoPow, show (2 : Int) ^ n = ((2 ^ n : Nat) : Int) by push_cast; rfl, BitVec.ofInt_natCast, BitVec.toNat_ofNat]
  rw [hext, BitVec.shiftLeft_eq_mul_twoPow, hpow, BitVec.ofInt_mul]

/-- Settles O4: predicate operands are bits, on which the bitwise functions are those of R108; the others are read off their operands. -/
theorem predicatesAndSelectionsCompute : Obligations.PredicatesAndSelectionsCompute := by
  refine ⟨⟨?pset, ?pand, ?por, ?pxor, ?pnot⟩, ?sel, ?icmp, ?lea, ?mov⟩
  case pset =>
    exact computes_pred (fun _ _ _ => rfl) (fun _ _ => Instr.wfA_of_wf) rfl fun _ _ _ _ _ => ⟨_, rfl, bne_iff_ne⟩
  case pand =>
    exact computes_pred (fun _ _ _ => rfl) (fun _ _ => Instr.wfA_of_wf) rfl
      (bool64_pbin (f := (· &&& ·)) (k := and) (P := fun u v => u ≠ 0 ∧ v ≠ 0) (by decide) (by decide))
  case por =>
    exact computes_pred (fun _ _ _ => rfl) (fun _ _ => Instr.wfA_of_wf) rfl
      (bool64_pbin (f := (· ||| ·)) (k := or) (P := fun u v => u ≠ 0 ∨ v ≠ 0) (by decide) (by decide))
  case pxor =>
    exact computes_pred (fun _ _ _ => rfl) (fun _ _ => Instr.wfA_of_wf) rfl
      (bool64_pbin (f := (· ^^^ ·)) (k := xor) (P := fun u v => u ≠ v) (by decide) (by decide))
  case pnot =>
    exact computes_pred (fun _ _ _ => rfl) (fun _ _ => Instr.wfA_of_wf) rfl fun _ _ _ _ _ => ⟨_, rfl, beq_iff_eq⟩
  case sel => exact computes_value 4 _ (fun _ _ _ => rfl) (fun _ _ => Instr.wfA_of_wf) dstT_cases fun _ _ _ _ _ _ _ _ _ => ⟨rfl, rfl⟩
  case icmp =>
    exact computes_pred (fun _ _ _ => rfl) (fun _ _ => Instr.wfA_of_wf) rfl fun _ _ _ a _ =>
      ⟨_, rfl, by rw [element_zero, element_zero]; exact intCond_iff ..⟩
  case lea =>
    exact computes_value 4 _ (fun _ _ _ => rfl) (fun _ _ => Instr.wfA_of_wf) (fun _ => ⟨2, rfl, .inr rfl⟩) fun _ _ _ _ _ _ _ _ _ =>
      ⟨congrArg _ (extend_shiftLeft ..), rfl⟩
  case mov => exact computes_value 4 _ (fun _ _ _ => rfl) (fun _ _ => Instr.wfA_of_wf) dstT_cases fun _ _ _ _ _ _ _ _ _ => ⟨rfl, rfl⟩

end Sys2Proof.Machine

/-! Packed pixels (R119 to R126). -/

namespace Sys2Proof.Machine

open Sys2Proof.Safety

-- Elements of operands and of packed results

theorem element_eq_toInt (t : Ty) (e : Nat) (x : Dword) : element t e x = toInt (intShape t).1 (elemWidth t) (elem (elemWidth t) e x.toNat) := by
  rw [elem_eq, toInt_eq _ _ (intShape_bounds t).1]
  rfl

theorem element_packed (t : Ty) (f : Nat → Nat × Fl) {e : Nat} (he : e < elemCount t) :
    element t e (Res.of (packed (elemWidth t) (elemCount t) f)).val = toInt (intShape t).1 (elemWidth t) (f e).1 := by
  obtain ⟨hw, hwn⟩ := intShape_bounds t
  rw [element, ← toInt_eq _ _ hw, extract_packed _ _ hwn f he]
  simp only [toInt, Nat.mod_mod]

theorem toInt_unsigned {w x : Nat} (hx : x < 2 ^ w) : toInt false w x = x := by simp [toInt, Nat.mod_eq_of_lt hx]

theorem elem_lt (w i x : Nat) : elem w i x < 2 ^ w := Nat.mod_lt _ (Nat.two_pow_pos w)

theorem intOf_bounds (sg : Bool) {w : Nat} (b : BitVec w) : intMin sg w ≤ intOf sg b ∧ intOf sg b ≤ intMax sg w := by
  cases sg with
  | false =>
    exact ⟨Int.natCast_nonneg _, Int.le_sub_one_of_lt (show ((b.toNat : Nat) : Int) < 2 ^ w by exact_mod_cast b.isLt)⟩
  | true => exact ⟨BitVec.le_toInt b, Int.le_sub_one_of_lt BitVec.toInt_lt⟩

theorem element_bounds (t : Ty) (e : Nat) (x : Dword) : least t ≤ element t e x ∧ element t e x ≤ greatest t :=
  intOf_bounds _ _

theorem toInt_wrapInt {sg : Bool} {w : Nat} (hw : 0 < w) {v : Int} (hlo : intMin sg w ≤ v) (hhi : v ≤ intMax sg w) : toInt sg w (wrapInt w v) = v := by
  rw [toInt_eq_intOf _ hw, intOf_wrapInt hw hlo hhi]

theorem packed_spec {w n : Nat} (hwn : w * n ≤ 64) (f : Nat → Nat × Fl) :
    (∀ i, i < n → (Res.of (packed w n f)).val.extractLsb' (w * i) w = BitVec.ofNat w (f i).1) ∧
    (Res.of (packed w n f)).fl = flagsOf (List.range n) fun i => (f i).2 :=
  ⟨fun _ hi => BitVec.eq_of_toNat_eq ((extract_packed w n hwn f hi).trans (BitVec.toNat_ofNat ..).symm), (packed_fst_aux w f n).2.2⟩

-- Quotients by a power of two (R40)

theorem mirrored_mirrored (rnd : Rnd) : mirrored (mirrored rnd) = rnd := by cases rnd <;> rfl

theorem roundBits_mirrored (rnd : Rnd) (m sh : Nat) : roundBits (mirrored rnd) false m sh = roundBits rnd true m sh := by
  cases rnd <;> simp [roundBits, mirrored]

theorem roundedQuotient_roundBits_pos (rnd : Rnd) (m sh : Nat) : RoundedQuotient rnd m (2 ^ sh) (roundBits rnd false m sh).1 := by
  have hr : m % 2 ^ sh < 2 ^ sh := Nat.mod_lt _ (Nat.two_pow_pos sh)
  have hm : m = m / 2 ^ sh * 2 ^ sh + m % 2 ^ sh := (Nat.div_add_mod' m _).symm
  unfold roundBits
  generalize m / 2 ^ sh = k at *
  generalize m % 2 ^ sh = r at *
  generalize 2 ^ sh = M at *
  have hmi : (m : Int) = k * M + r := by exact_mod_cast hm
  have h1 : ((k : Int) + 1) * M = k * M + M := by ring
  have h2 : ((k : Int) - 1) * M = k * M - M := by ring
  have h3 : ((k : Int) + 1 + 1) * M = k * M + 2 * M := by ring
  cases rnd with
  | rne => simp only [RoundedQuotient]; split <;> simp_all <;> omega
  | rz => simp only [RoundedQuotient, Bool.false_eq_true, if_false]; omega
  | rp => simp only [RoundedQuotient]; split <;> simp_all; omega
  | rm => simp only [RoundedQuotient, Bool.false_and, Bool.false_eq_true, if_false]; omega

/-- A magnitude rounded by its mode, under its sign, is the rounded quotient. -/
theorem roundedQuotient_roundBits (rnd : Rnd) (neg : Bool) (m sh : Nat) :
    RoundedQuotient rnd (if neg then -(m : Int) else m) (2 ^ sh) (if neg then -((roundBits rnd neg m sh).1 : Int) else (roundBits rnd neg m sh).1) := by
  cases neg with
  | false => exact roundedQuotient_roundBits_pos rnd m sh
  | true =>
    have h := RoundedQuotient.neg (roundedQuotient_roundBits_pos (mirrored rnd) m sh)
    rwa [mirrored_mirrored, roundBits_mirrored] at h

/-- Half of a number is rounded to no more than half of the next. -/
theorem RoundedQuotient.two_mul_le {rnd : Rnd} {n x : Int} (h : RoundedQuotient rnd n 2 x) : 2 * x ≤ n + 1 := by
  cases rnd <;> simp only [RoundedQuotient] at h <;> omega

theorem ArithSpec.ty_mem_of_wf {sp : ArithSpec} {h : Hdr} {a : Arith} (hwf : sp.wf h a = true) : a.ty ∈ sp.tys := by
  simp only [ArithSpec.wf, ArithSpec.modOk, Bool.and_eq_true, List.contains_iff_mem] at hwf
  tauto

-- Element by element (R122, R124)

/-- An instruction whose meaning gives each element of its result from the elements of its operands. -/
theorem computes_packed {mk : Hdr → Arith → Instr} {sp : ArithSpec} {f : Arith → Nat → Dword → Dword → Dword → Nat} {P : Rnd → Int → Int → Int → Int → Prop}
    (hex : ∀ s h a, exec (mk h a) s = s.withIssue (mk h a) h fun x => x.arith sp a 6 0 fun _ u v w =>
      Res.of (packed (elemWidth a.ty) (elemCount a.ty) fun i => (f a i u v w, 0)))
    (hwf : ∀ h a, (mk h a).wf = true → sp.wf h a = true) (hdst : sp.dst = dstT)
    (hP : ∀ a u v w e, a.ty ∈ sp.tys →
      P a.rnd (element a.ty e u) (element a.ty e v) (element a.ty e w) (toInt (intShape a.ty).1 (elemWidth a.ty) (f a e u v w))) :
    Computes mk sp Safety.always (pixelRule P) := by
  refine Computes.intro (fun _ => 6) (fun _ => 0) (fun _ _ a _ u v w => Res.of (packed (elemWidth a.ty) (elemCount a.ty) fun i => (f a i u v w, 0)))
    (fun s _ _ h a hi => exec_of_withIssue (hex s h a) hi) hwf (.inl fun t => hdst ▸ dstT_cases t) (.inr fun _ _ _ _ _ _ _ i _ => ?_)
    fun _ _ _ a _ hw => ⟨fun e he => ?_, fl_packed_quiet ..⟩
  · exact (congrArg (BitVec.getLsbD · i) (fl_packed_quiet ..)).trans BitVec.getLsbD_zero
  · rw [element_packed a.ty _ he]
    exact hP a _ _ _ e (ArithSpec.ty_mem_of_wf hw)


/-- The same where the meaning computes each element from the elements of its operands. -/
theorem computes_pixels {mk : Hdr → Arith → Instr} {sp : ArithSpec} {f : Arith → Nat → Nat → Nat → Nat} {P : Rnd → Int → Int → Int → Int → Prop}
    (hex : ∀ s h a, exec (mk h a) s = s.withIssue (mk h a) h fun x => x.pixels sp a (f a))
    (hwf : ∀ h a, (mk h a).wf = true → sp.wf h a = true) (hdst : sp.dst = dstT)
    (hP : ∀ a u v w e, a.ty ∈ sp.tys → P a.rnd (element a.ty e u) (element a.ty e v) (element a.ty e w) (toInt (intShape a.ty).1 (elemWidth a.ty)
      (f a (elem (elemWidth a.ty) e u.toNat) (elem (elemWidth a.ty) e v.toNat) (elem (elemWidth a.ty) e w.toNat)))) :
    Computes mk sp Safety.always (pixelRule P) :=
  computes_packed (f := fun a i u v w => f a (elem (elemWidth a.ty) i u.toNat) (elem (elemWidth a.ty) i v.toNat) (elem (elemWidth a.ty) i w.toNat))
    hex hwf hdst hP

theorem intShape_pixels {t : Ty} (h : t ∈ [Ty.n8x4, .n16x2]) : (intShape t).1 = false := by
  revert h; cases t <;> decide

/-- An element of a TYPE of packed samples. -/
theorem element_pixels {t : Ty} (h : t ∈ [Ty.n8x4, .n16x2]) (e : Nat) (x : Dword) : element t e x = elem (elemWidth t) e x.toNat := by
  rw [element_eq_toInt, intShape_pixels h, toInt_unsigned (elem_lt ..)]

/-- Half of a sum of two samples is a sample. -/
theorem pxavg_spec (rnd : Rnd) {k x y : Nat} (hx : x < 2 ^ k) (hy : y < 2 ^ k) :
    RoundedQuotient rnd (x + y) 2 (roundBits rnd false (x + y) 1).1 ∧ (roundBits rnd false (x + y) 1).1 < 2 ^ k := by
  have h := roundedQuotient_roundBits_pos rnd (x + y) 1
  rw [pow_one, Nat.cast_add] at h
  exact ⟨h, by have := RoundedQuotient.two_mul_le h; omega⟩

theorem absDiff_eq (x y : Nat) : (absDiff x y : Int) = |(x : Int) - y| := by
  rw [Int.abs_eq_natAbs, absDiff]
  omega

theorem absDiff_lt {k x y : Nat} (hx : x < 2 ^ k) (hy : y < 2 ^ k) : absDiff x y < 2 ^ k := by
  unfold absDiff
  omega

/-- An element of the result of `pxclp`. -/
def pxclpElem (t : Ty) (i : Nat) (u v c : Dword) : Nat :=
  let el (y : Dword) : Int := toInt (intShape t).1 (elemWidth t) (elem (elemWidth t) i y.toNat)
  wrapInt (elemWidth t) (min (max (el u) (el v)) (el c))

theorem toInt_pxclpElem (t : Ty) (i : Nat) (u v c : Dword) :
    toInt (intShape t).1 (elemWidth t) (pxclpElem t i u v c) = min (max (element t i u) (element t i v)) (element t i c) := by
  obtain ⟨hu, -⟩ := element_bounds t i u
  obtain ⟨hc, hc'⟩ := element_bounds t i c
  simp only [pxclpElem, ← element_eq_toInt]
  exact toInt_wrapInt (intShape_bounds t).1 (le_min (hu.trans (le_max_left _ _)) hc) ((min_le_right _ _).trans hc')

-- Sums (R123, R126)

theorem foldl_add_eq_sum (f : Nat → Int) (ls : List Nat) (x : Int) : ls.foldl (fun t i => t + f i) x = x + (ls.map f).sum := by
  induction ls generalizing x with
  | nil => simp
  | cons i t ih => rw [List.foldl_cons, ih, List.map_cons, List.sum_cons, add_assoc]

theorem flIf_ISAT_low (b : Bool) {i : Nat} (hi : i < 5) : (flIf b flISAT).getLsbD i = false := by
  cases b with
  | false => exact BitVec.getLsbD_zero
  | true => interval_cases i <;> rfl

theorem narrow_low (sat sg : Bool) (w : Nat) (v : Int) {i : Nat} (hi : i < 5) : (narrow sat sg w v).2.getLsbD i = false := by
  cases sat with
  | false => exact BitVec.getLsbD_zero
  | true => exact flIf_ISAT_low _ hi

/-- The 32-bit type of a sum. -/
def sumTy (sg : Bool) : Ty := if sg then .i32 else .n32

theorem intShape_sumTy (sg : Bool) : intShape (sumTy sg) = (sg, 32, 1) := by cases sg <;> rfl

theorem clamp_sumTy (sg : Bool) (x : Int) : clamp (sumTy sg) x = max (intMin sg 32) (min x (intMax sg 32)) := by cases sg <;> rfl

theorem element_sumTy (sg : Bool) (x : Dword) : element (sumTy sg) 0 x = intOf sg (x.truncate 32) := by
  rw [element_eq_toInt, elemWidth, intShape_sumTy, toInt_eq_intOf sg (show 0 < 32 by decide)]
  congr 1
  apply BitVec.eq_of_toNat_eq
  simp [elem]

/-- A sum as it is delivered: wrapped, or with SAT clamped. -/
theorem narrow_sum (sat sg : Bool) (x : Int) :
    (if sat then element (sumTy sg) 0 (Res.of (narrow sat sg 32 x)).val = clamp (sumTy sg) x
      else (Res.of (narrow sat sg 32 x)).val.truncate 32 = BitVec.ofInt 32 x) ∧
    (Res.of (narrow sat sg 32 x)).fl = if sat && clamp (sumTy sg) x != x then flISAT else 0 := by
  have htrunc (y : Nat) : (BitVec.ofNat 64 y).truncate 32 = BitVec.ofNat 32 y := BitVec.setWidth_ofNat_of_le (by decide) y
  obtain ⟨hval, hclamps, -⟩ := satInt_spec sg 32 (by decide) x
  cases sat with
  | false =>
    refine ⟨(htrunc _).trans ?_, rfl⟩
    show BitVec.ofNat 32 (wrapInt 32 x) = _
    rw [wrapInt_eq, BitVec.ofNat_toNat, BitVec.setWidth_eq]
  | true =>
    refine ⟨?_, ?_⟩
    · rw [if_pos rfl, element_sumTy, clamp_sumTy, ← hval]
      exact congrArg (intOf sg) (htrunc _)
    · show flIf (satInt sg 32 x).2 flISAT = _
      rw [hclamps, clamp_sumTy, flIf_eq]
      simp [bne_iff_ne]

/-- An instruction whose meaning adds to C a term for each element pair of A and B. -/
theorem computes_sum {mk : Hdr → Arith → Instr} {sp : ArithSpec} {term : Arith → Dword → Dword → Nat → Int} {n : Arith → Nat} (sg : Ty → Bool)
    (sum : Arith → Dword → Dword → Dword → Int)
    (hex : ∀ s h a, exec (mk h a) s = s.withIssue (mk h a) h fun x => x.arith sp a 6 0 fun _ u v c => Res.of (narrow a.sat (sg a.ty) 32 (sum a u v c)))
    (hwf : ∀ h a, (mk h a).wf = true → sp.wf h a = true) (hdst : sp.dst = dstT) (hsg : ∀ t ∈ sp.tys, (intShape t).1 = sg t)
    (hsum : ∀ a u v c, a.ty ∈ sp.tys → sum a u v c = element (sumTy (sg a.ty)) 0 c + ((List.range (n a)).map (term a u v)).sum) :
    Computes mk sp Safety.always (sumRule .n32 term n) := by
  refine Computes.intro (fun _ => 6) (fun _ => 0) (fun _ _ a _ u v c => Res.of (narrow a.sat (sg a.ty) 32 (sum a u v c)))
    (fun s _ _ h a hi => exec_of_withIssue (hex s h a) hi) hwf (.inl fun t => hdst ▸ dstT_cases t) (.inr fun _ _ _ _ _ _ _ _ hi => narrow_low _ _ _ _ hi)
    fun _ _ _ a _ hw => ?_
  have ht := ArithSpec.ty_mem_of_wf hw
  unfold sumRule
  rw [hsum a _ _ _ ht, hsg a.ty ht]
  exact narrow_sum a.sat _ _

/-- The sum of `pxsad`. -/
def pxsadSum (a : Arith) (u v c : Dword) : Nat :=
  (List.range (elemCount a.ty)).foldl (fun t i => t + absDiff (elem (elemWidth a.ty) i u.toNat) (elem (elemWidth a.ty) i v.toNat)) (c.toNat % 2 ^ 32)

theorem pxsadSum_eq (a : Arith) (u v c : Dword) (ht : a.ty ∈ specPxsad.tys) : (pxsadSum a u v c : Int) =
    element (sumTy false) 0 c + ((List.range (elemCount a.ty)).map fun e => |element a.ty e u - element a.ty e v|).sum := by
  have hc : element (sumTy false) 0 c = (c.toNat % 2 ^ 32 : Nat) := by
    rw [element_sumTy]
    exact congrArg Nat.cast (BitVec.toNat_setWidth ..)
  simp only [hc, element_pixels ht, ← absDiff_eq, ← foldl_add_eq_sum]
  exact List.foldl_hom (Nat.cast : Nat → Int) (fun _ _ => (Nat.cast_add ..).symm) |>.symm

/-- The sum of `pxdot`. -/
def pxdotSum (a : Arith) (u v c : Dword) : Int :=
  (List.range 4).foldl (fun t i => t + toInt (a.ty == .i8x4) 8 (elem 8 i u.toNat) * toInt (a.ty == .i8x4) 8 (elem 8 i v.toNat))
    (toInt (a.ty == .i8x4) 32 c.toNat)

theorem pxdotSum_eq (a : Arith) (u v c : Dword) (ht : a.ty ∈ specPxdot.tys) :
    pxdotSum a u v c = element (sumTy (a.ty == .i8x4)) 0 c + ((List.range 4).map fun e => element a.ty e u * element a.ty e v).sum := by
  obtain ⟨hsg, hw⟩ : (intShape a.ty).1 = (a.ty == .i8x4) ∧ elemWidth a.ty = 8 := by
    revert ht; cases a.ty <;> decide
  rw [pxdotSum, foldl_add_eq_sum, element_eq_toInt, elemWidth, intShape_sumTy]
  simp only [element_eq_toInt a.ty, hsg, hw]
  congr 1
  simp [elem, toInt]

-- Samples at any place (R120, R121)

theorem sampleBits_le (t : Ty) : sampleBits t ≤ 14 := by cases t <;> decide

theorem offset_eq (v : Dword) : (v.extractLsb' 0 5).toNat = v.toNat % 32 := by simp

theorem field_eq (u : Dword) (o n : Nat) : Dword.field u o n = (u.extractLsb' o n).toNat := by
  simp [Dword.field, Nat.shiftRight_eq_div_pow]

/-- Two samples side by side. -/
theorem ofNat_pair {n : Nat} (hn : n ≤ 16) (x y : BitVec n) :
    BitVec.ofNat 32 (x.toNat + y.toNat * 65536) = (y.zeroExtend 16 ++ x.zeroExtend 16 : Word) := by
  have hx : x.toNat < 2 ^ 16 := x.isLt.trans_le (Nat.pow_le_pow_right two_pos hn)
  have hy : y.toNat < 2 ^ 16 := y.isLt.trans_le (Nat.pow_le_pow_right two_pos hn)
  apply BitVec.eq_of_toNat_eq
  rw [BitVec.toNat_append, Nat.shiftLeft_eq, ← Nat.shiftLeft_eq, ← Nat.shiftLeft_add_eq_or_of_lt (by simp; omega)]
  simp [Nat.shiftLeft_eq]
  omega

/-- The result of `pxext`. -/
def pxextVal (a : Arith) (u v : Dword) : Nat :=
  let o := v.toNat % 32
  let n := sampleBits a.ty
  if a.sub = 0#4 then Dword.field u o n else Dword.field u o n + Dword.field u (o + n) n * 65536

theorem truncate_pxextVal (a : Arith) (u v : Dword) : (BitVec.ofNat 64 (pxextVal a u v)).truncate 32 =
    if a.sub = 0#4 then (u.extractLsb' (v.extractLsb' 0 5).toNat (sampleBits a.ty)).zeroExtend 32
    else ((u.extractLsb' ((v.extractLsb' 0 5).toNat + sampleBits a.ty) (sampleBits a.ty)).zeroExtend 16 ++
      (u.extractLsb' (v.extractLsb' 0 5).toNat (sampleBits a.ty)).zeroExtend 16 : Word) := by
  refine (BitVec.setWidth_ofNat_of_le (by decide) _).trans ?_
  rw [offset_eq, pxextVal, field_eq, field_eq]
  split
  · exact BitVec.ofNat_toNat ..
  · exact ofNat_pair ((sampleBits_le _).trans (by decide)) _ _

/-- A field of `n` bits put in place of those at `o`. -/
theorem testBit_replaced {u p o n i : Nat} (hp : p < 2 ^ n) :
    (u % 2 ^ o + p * 2 ^ o + u / 2 ^ (o + n) * 2 ^ (o + n)).testBit i = if o ≤ i ∧ i < o + n then p.testBit (i - o) else u.testBit i := by
  have hlow : u % 2 ^ o < 2 ^ o := Nat.mod_lt _ (Nat.two_pow_pos o)
  have hsum : u % 2 ^ o + p * 2 ^ o + u / 2 ^ (o + n) * 2 ^ (o + n) = 2 ^ o * (2 ^ n * (u / 2 ^ (o + n)) + p) + u % 2 ^ o := by ring
  rw [hsum, Nat.testBit_two_pow_mul_add _ hlow, Nat.testBit_two_pow_mul_add _ hp, Nat.testBit_mod_two_pow, Nat.testBit_div_two_pow]
  by_cases h1 : i < o
  · simp [h1, h1.not_ge]
  · by_cases h2 : i < o + n
    · rw [if_neg h1, if_pos (by omega), if_pos ⟨by omega, h2⟩]
    · rw [if_neg h1, if_neg (by omega), if_neg (by omega), show i - o - n + (o + n) = i by omega]

/-- The sample that `pxins` inserts, and whether it is clamped. -/
theorem pxins_sample (sat : Bool) (b n : Nat) :
    (if (sat && decide (b ≥ 2 ^ n)) = true then 2 ^ n - 1 else b % 2 ^ n) = (if sat then min b (2 ^ n - 1) else b % 2 ^ n) ∧
    (sat && decide (b ≥ 2 ^ n)) = (sat && decide (b > 2 ^ n - 1)) := by
  have hp := Nat.two_pow_pos n
  have hge : b ≥ 2 ^ n ↔ b > 2 ^ n - 1 := by omega
  cases sat with
  | false => simp
  | true =>
    refine ⟨?_, by simp only [hge]⟩
    by_cases h : b ≥ 2 ^ n
    · simp only [h, decide_true, Bool.and_self, if_true]
      omega
    · simp only [h, decide_false, Bool.and_false, Bool.false_eq_true, if_false, if_true, Nat.mod_eq_of_lt (not_le.mp h)]
      omega

/-- The result of `pxins`. -/
def pxinsRes (a : Arith) (u v w : Dword) : Res :=
  let n := sampleBits a.ty
  let o := w.toNat % 32
  let b := v.toNat % 2 ^ 32
  let clamps := a.sat && decide (b ≥ 2 ^ n)
  let p := if clamps then 2 ^ n - 1 else b % 2 ^ n
  { val := BitVec.ofNat 64 (u.toNat % 2 ^ o + p * 2 ^ o + u.toNat / 2 ^ (o + n) * 2 ^ (o + n)), fl := flIf clamps flISAT }

theorem exec_pxins {s : State} {q : Issue} {g : Group} {h : Hdr} {a : Arith} (hi : Issues s (.pxins h a) q g) :
    exec (.pxins h a) s = .next ((issueX s q g h).arith specPxins a 6 0 fun _ => pxinsRes a) := by
  rw [show exec (.pxins h a) s = execPxins h a s from rfl, execPxins, State.withIssue_of_issues hi]
  rfl

theorem pxinsRes_rule (g : Group) (q : Issue) (m : Nat) (a : Arith) (u v w : Dword) :
    pxinsRule g q m a u v w (pxinsRes a u v w).val (pxinsRes a u v w).fl := by
  have hb : (v.truncate 32 : Word).toNat = v.toNat % 2 ^ 32 := BitVec.toNat_setWidth ..
  obtain ⟨hp, hclamps⟩ := pxins_sample a.sat (v.toNat % 2 ^ 32) (sampleBits a.ty)
  have hlt : (if (a.sat && decide (v.toNat % 2 ^ 32 ≥ 2 ^ sampleBits a.ty)) = true then 2 ^ sampleBits a.ty - 1
      else v.toNat % 2 ^ 32 % 2 ^ sampleBits a.ty) < 2 ^ sampleBits a.ty := by
    split
    · exact Nat.sub_one_lt (Nat.two_pow_pos _).ne'
    · exact Nat.mod_lt _ (Nat.two_pow_pos _)
  unfold pxinsRule pxinsRes
  simp only [hb, offset_eq, ← hp, ← hclamps]
  refine ⟨fun i hi => ?_, rfl⟩
  rw [BitVec.getLsbD_ofNat, testBit_replaced hlt, BitVec.testBit_toNat]
  simp [hi]

-- Samples normalised to INT8 (R125)

/-- One sample: the rounded quotient, clamped. -/
theorem normSample_spec (rnd : Rnd) (sample p : Nat) :
    ∃ x : Int, RoundedQuotient rnd (sample - (BitVec.ofNat 16 p).toInt) (2 ^ (p / 65536 % 32)) x ∧
      (BitVec.ofNat 8 (normSample rnd sample p).1).toInt = max (-128) (min x 127) ∧
      (normSample rnd sample p).2 = flIf (max (-128) (min x 127) != x) flISAT := by
  have hf : toInt true 16 p = (BitVec.ofNat 16 p).toInt := toInt_eq_intOf true (by decide) p
  unfold normSample
  rw [hf]
  generalize (sample : Int) - (BitVec.ofNat 16 p).toInt = d
  have hd : (if decide (d < 0) then -(d.natAbs : Int) else d.natAbs) = d := by
    by_cases h0 : d < 0
    · rw [if_pos (decide_eq_true h0)]; omega
    · rw [if_neg (by simpa using h0)]; omega
  have h := roundedQuotient_roundBits rnd (decide (d < 0)) d.natAbs (p / 65536 % 32)
  rw [hd] at h
  simp only [decide_eq_true_eq] at h ⊢
  obtain ⟨hval, hclamps, -⟩ := satInt_spec true 8 (by decide) (if d < 0 then -((roundBits rnd (decide (d < 0)) d.natAbs (p / 65536 % 32)).1 : Int)
    else (roundBits rnd (decide (d < 0)) d.natAbs (p / 65536 % 32)).1)
  refine ⟨_, h, hval, ?_⟩
  show flIf _ flISAT = _
  rw [hclamps, decide_not, ← beq_eq_decide]
  rfl

/-- The result of `pxnrm`. -/
def pxnrmRes (a : Arith) (u v c : Dword) : Res :=
  Res.of (packed 8 4 fun i => normSample a.rnd (if i < 2 then elem 16 i u.toNat else elem 16 (i - 2) v.toNat) c.toNat)

/-- The sample that element `i` of the result of `pxnrm` is made from. -/
def pxnrmSample (u v : Dword) (i : Nat) : Nat := if i < 2 then elem 16 i u.toNat else elem 16 (i - 2) v.toNat

theorem pxnrmRes_spec (a : Arith) (u v c : Dword) :
    (∀ i, i < 4 → (pxnrmRes a u v c).val.extractLsb' (8 * i) 8 = BitVec.ofNat 8 (normSample a.rnd (pxnrmSample u v i) c.toNat).1) ∧
    (pxnrmRes a u v c).fl = flagsOf (List.range 4) fun i => (normSample a.rnd (pxnrmSample u v i) c.toNat).2 :=
  packed_spec (by decide) _

theorem pxnrmRes_rule (g : Group) (q : Issue) (m : Nat) (a : Arith) (u v c : Dword) :
    pxnrmRule g q m a u v c (pxnrmRes a u v c).val (pxnrmRes a u v c).fl := by
  have hs : (c.extractLsb' 16 5).toNat = c.toNat / 65536 % 32 := by simp [Nat.shiftRight_eq_div_pow]
  have hf : c.extractLsb' 0 16 = BitVec.ofNat 16 c.toNat := rfl
  have hel (x : Dword) (i : Nat) : (x.extractLsb' (16 * i) 16).toNat = elem 16 i x.toNat := (elem_eq 16 i x).symm
  obtain ⟨hres, hres_fl⟩ := pxnrmRes_spec a u v c
  choose x hquot hval hfl using fun i => normSample_spec a.rnd (pxnrmSample u v i) c.toNat
  unfold pxnrmRule
  simp only [hs, hf, hel, ← Nat.cast_ite]
  refine ⟨x, fun i _ => hquot i, fun i hi => by rw [hres i hi, hval i], ?_⟩
  rw [hres_fl]
  simp only [hfl, flagsOf_any]

theorem exec_pxnrm {s : State} {q : Issue} {g : Group} {h : Hdr} {a : Arith} (hi : Issues s (.pxnrm h a) q g) :
    exec (.pxnrm h a) s = .next ((issueX s q g h).arith specPxnrm a 6 0 fun _ => pxnrmRes a) := by
  rw [show exec (.pxnrm h a) s = execPxnrm h a s from rfl, execPxnrm, State.withIssue_of_issues hi]
  rfl

theorem normSample_low (rnd : Rnd) (sample p : Nat) {i : Nat} (hi : i < 5) : (normSample rnd sample p).2.getLsbD i = false := narrow_low _ _ _ _ hi

theorem flagsOf_low {fls : Nat → Fl} {i : Nat} (h : ∀ e, (fls e).getLsbD i = false) (ls : List Nat) : (flagsOf ls fls).getLsbD i = false := by
  unfold flagsOf
  refine List.foldlRecOn (motive := fun x : Word => x.getLsbD i = false) ls _ BitVec.getLsbD_zero fun x hx e _ => ?_
  rw [BitVec.getLsbD_or, hx, h e, Bool.or_self]

theorem pxnrmRes_low (a : Arith) (u v c : Dword) {i : Nat} (hi : i < 5) : (pxnrmRes a u v c).fl.getLsbD i = false := by
  rw [(pxnrmRes_spec a u v c).2]
  exact flagsOf_low (fun _ => normSample_low _ _ _ hi) _

/-- Settles O8: the elements, sums and samples of each instruction. -/
theorem pixelsCompute : Obligations.PixelsCompute := by
  refine ⟨?pxext, ?pxins, ?pxavg, ?pxabd, ?pxsad, ?pxclp, ?pxnrm, ?pxdot⟩
  case pxext =>
    exact computes_value 6 (fun a u v _ => BitVec.ofNat 64 (pxextVal a u v)) (fun _ _ _ => rfl) (fun _ _ => Instr.wfA_of_wf) dstT_cases
      fun _ _ _ _ a u v _ _ => ⟨rfl, truncate_pxextVal a u v⟩
  case pxins =>
    exact Computes.intro (fun _ => 6) (fun _ => 0) (fun _ _ a _ => pxinsRes a) (fun _ _ _ _ _ hi => exec_pxins hi)
      (fun _ _ => Instr.wfA_of_wf) (.inl fun _ => ⟨2, rfl, .inr rfl⟩) (.inr fun _ _ _ _ _ _ _ _ hi => flIf_ISAT_low _ hi)
      fun g q _ a m _ => pxinsRes_rule g q m a _ _ _
  case pxavg =>
    refine computes_pixels (fun _ _ _ => rfl) (fun _ _ => Instr.wfA_of_wf) rfl fun a u v w e ht => ?_
    obtain ⟨hquot, hlt⟩ := pxavg_spec a.rnd (elem_lt (elemWidth a.ty) e u.toNat) (elem_lt (elemWidth a.ty) e v.toNat)
    rw [element_pixels ht, element_pixels ht, intShape_pixels ht, toInt_unsigned hlt]
    exact hquot
  case pxabd =>
    refine computes_pixels (fun _ _ _ => rfl) (fun _ _ => Instr.wfA_of_wf) rfl fun a u v w e ht => ?_
    rw [element_pixels ht, element_pixels ht, intShape_pixels ht,
      toInt_unsigned (absDiff_lt (elem_lt (elemWidth a.ty) e u.toNat) (elem_lt (elemWidth a.ty) e v.toNat))]
    exact absDiff_eq _ _
  case pxsad =>
    exact computes_sum (fun _ => false) (fun a u v c => pxsadSum a u v c) (fun _ _ _ => rfl) (fun _ _ => Instr.wfA_of_wf) rfl
      (fun _ => intShape_pixels) pxsadSum_eq
  case pxclp =>
    exact computes_packed (f := fun a i u v w => pxclpElem a.ty i u v w) (fun _ _ _ => rfl) (fun _ _ => Instr.wfA_of_wf) rfl fun a u v w e _ =>
      toInt_pxclpElem a.ty e u v w
  case pxnrm =>
    exact Computes.intro (fun _ => 6) (fun _ => 0) (fun _ _ a _ => pxnrmRes a) (fun _ _ _ _ _ hi => exec_pxnrm hi)
      (fun _ _ => Instr.wfA_of_wf) (.inl dstT_cases)
      (.inr fun _ _ a _ u v w _ hi => pxnrmRes_low a u v w hi)
      fun g q _ a m _ => pxnrmRes_rule g q m a _ _ _
  case pxdot =>
    exact computes_sum (· == .i8x4) pxdotSum (fun _ _ _ => rfl) (fun _ _ => Instr.wfA_of_wf) rfl (by decide) pxdotSum_eq

end Sys2Proof.Machine

/-! Control flow (R102 to R107): where the lanes of the issuing run go. -/

namespace Sys2Proof.Machine

open Sys2Proof.Safety

-- Groups that differ in their PC tables alone

/-- A group that differs from another in its PC table alone. -/
def MovedFrom (g k : Group) : Prop := ∃ rs, k = { g with runs := rs }

theorem MovedFrom.refl (g : Group) : MovedFrom g g := ⟨g.runs, rfl⟩

theorem MovedFrom.place {g k : Group} (h : MovedFrom g k) (m : Lanes) (pc : Pc) (st : RunSt) (n : Nat) : MovedFrom g (k.place m pc st n) := by
  obtain ⟨rs, rfl⟩ := h
  exact Group.place_eq _ m pc st n

theorem MovedFrom.goto {g k : Group} (h : MovedFrom g k) (m : Lanes) (pc : Pc) : MovedFrom g (k.goto m pc) := h.place ..

theorem MovedFrom.leave {g k : Group} (h : MovedFrom g k) (m : Lanes) : MovedFrom g (k.leave m) := by
  obtain ⟨rs, rfl⟩ := h
  exact ⟨_, rfl⟩

theorem MovedFrom.gotoEach (g : Group) (m : Lanes) (f : Nat → Pc) : MovedFrom g (g.gotoEach m f) :=
  List.foldlRecOn (motive := MovedFrom g) _ _ (MovedFrom.refl g) fun _ h _ _ => h.place ..

theorem MovedFrom.onlyRuns {g k : Group} (h : MovedFrom g k) (s : State) (q : Issue) : OnlyRuns s (s.setGroup q.gid k) q g := by
  obtain ⟨rs, rfl⟩ := h
  exact ⟨rs, rfl⟩

/-- Lanes that go to several destinations each stand at their own. -/
theorem Group.at_gotoEach (g : Group) {m : Lanes} (f : Nat → Pc) {l : Nat} (hl : m.getLsbD l = true) : (g.gotoEach m f).At l (f l) := by
  have key (n : Nat) (pcs : List Pc) (k : Group) (h : f l ∈ pcs ∨ k.At l (f l)) :
      (pcs.foldl (fun g pc => g.place (lanesWhere m fun l => f l == pc) pc .ready n) k).At l (f l) := by
    induction pcs generalizing k with
    | nil => exact h.resolve_left List.not_mem_nil
    | cons pc pcs ih =>
      refine ih _ ?_
      have hmask : (lanesWhere m fun l => f l == pc).getLsbD l = (f l == pc) := by rw [lanesWhere_getLsbD, hl, Bool.true_and]
      by_cases hpc : f l = pc
      · rw [hpc]
        exact .inr (k.at_place _ _ _ (hmask.trans (beq_iff_eq.mpr hpc)))
      · refine h.imp (fun h => (List.mem_cons.mp h).resolve_left hpc) fun h => Group.at_place_other ?_ h _ _ _
        rw [hmask, beq_eq_false_iff_ne.mpr hpc]
  exact key _ _ g (.inl (List.mem_eraseDups.mpr (List.mem_map_of_mem (mem_laneList.mpr hl))))

-- Branches (R84, R102, R103)

theorem targetPc_eq (pc : Pc) (tg : Target) : targetPc pc tg = branchTarget pc tg := by
  have hrel {w : Nat} (v : BitVec w) : pc + sextWords w v = BitVec.ofInt 48 (pc.toNat + 4 * v.toInt) := by
    have hpc : BitVec.ofInt 48 (pc.toNat : Int) = pc := (BitVec.ofInt_natCast ..).trans (BitVec.ofNat_toNat ..)
    rw [BitVec.ofInt_add, BitVec.ofInt_mul, hpc, mul_comm]
    rfl
  cases tg with
  | rel20 w => exact hrel w
  | rel32 w => exact hrel w
  | abs a =>
    apply BitVec.eq_of_toNat_eq
    simp [targetPc, branchTarget, mul_comm]

/-- Where the lanes of a run stand of which some have been sent elsewhere and the rest to another place. -/
theorem Group.at_branch (g : Group) {m taken : Lanes} (pc next : Pc) {l : Nat}
    (hl : m.getLsbD l = true) : ((g.goto taken pc).goto (m &&& ~~~taken) next).At l (if taken.getLsbD l then pc else next) := by
  have hlt : l < 64 := BitVec.lt_of_getLsbD hl
  by_cases ht : taken.getLsbD l = true
  · rw [if_pos ht]
    exact Group.at_goto_other (by simp [ht, hlt]) (g.at_goto pc ht) next
  · rw [if_neg ht]
    rw [Bool.not_eq_true] at ht
    exact Group.at_goto _ next (by rw [BitVec.getLsbD_and, BitVec.getLsbD_not, hl, ht]; simp [hlt])

section
variable (s : State) (q : Issue) (g : Group) (h : Hdr) (tg : Target) (f : Nat → Bool)

theorem mem_issueX_list {l : Nat} : l ∈ (issueX s q g h).list ↔ (acts h q g).getLsbD l = true := mem_laneList

theorem issueX_any : (issueX s q g h).list.any f = true ↔ ∃ l, (acts h q g).getLsbD l = true ∧ f l = true := by
  simp only [List.any_eq_true, mem_issueX_list]

theorem issueX_all : (issueX s q g h).list.all f = true ↔ ∀ l, (acts h q g).getLsbD l = true → f l = true := by
  simp only [List.all_eq_true, mem_issueX_list]

/-- A run that branches as a whole or not at all. -/
theorem issueX_branchIf {c : Bool} {p : Prop} (hc : c = true ↔ p) : OnlyRuns s ((issueX s q g h).branchIf c tg) q g ∧
    ∃ pcs : Nat → Pc, GoOn ((issueX s q g h).branchIf c tg) q pcs ∧ ∀ l, q.lanes.getLsbD l = true →
      ((acts h q g).getLsbD l = true → p → pcs l = branchTarget q.pc tg) ∧ (¬ ((acts h q g).getLsbD l = true ∧ p) → pcs l = nextPc h q) := by
  cases c with
  | false =>
    have hp : ¬ p := fun hp => Bool.false_ne_true (hc.mpr hp)
    exact ⟨issueX_done_onlyRuns s q g h, _, X.goOn_done _ rfl rfl, fun l _ => ⟨fun _ h => absurd h hp, fun _ => rfl⟩⟩
  | true =>
    have hp : p := hc.mp rfl
    refine ⟨(((MovedFrom.refl g).goto _ _).goto _ _).onlyRuns s q, _,
      ⟨_, s.group?_setGroup q.gid _, fun l hl => (g.at_branch _ _ hl).pcOf⟩, fun l _ => ⟨fun ha _ => ?_, fun ha => ?_⟩⟩
    · exact (if_pos ha).trans (targetPc_eq ..)
    · exact if_neg fun h => ha ⟨h, hp⟩

end

/-- Settles O1: a branch is taken by the guard-true lanes, and a vote decides for all of them. -/
theorem branchesMoveTheRun : Obligations.BranchesMoveTheRun := by
  refine fun s q g h => ⟨fun hi => ?nop, fun tg => ⟨fun hi => ?bra, fun p => ⟨fun hi => ?brany, fun hi => ?brall⟩⟩⟩
  case nop => exact ⟨_, exec_of_withIssue rfl hi, X.goOn_done _ rfl rfl, issueX_done_onlyRuns s q g h⟩
  case bra => exact ⟨_, exec_of_withIssue (body := fun x => x.branchIf true tg) rfl hi, issueX_branchIf s q g h tg (iff_of_true rfl trivial)⟩
  case brany =>
    exact ⟨_, exec_of_withIssue (body := fun x => x.branchIf (x.list.any (x.g.rdP p.val)) tg) rfl hi, issueX_branchIf s q g h tg (issueX_any ..)⟩
  case brall =>
    exact ⟨_, exec_of_withIssue (body := fun x => x.branchIf (x.list.all (x.g.rdP p.val)) tg) rfl hi, issueX_branchIf s q g h tg (issueX_all ..)⟩

-- Leaving, yielding and waiting (R105 to R107)

/-- A lane that no run holds stays out of the table when others are placed. -/
theorem Group.pcOf_place_none {g : Group} {l : Nat} (hg : g.pcOf l = none) {m : Lanes} (hm : m.getLsbD l = false) (pc : Pc) (st : RunSt) (n : Nat) :
    (g.place m pc st n).pcOf l = none := by
  have hg : ∀ r ∈ g.runs, r.lanes.getLsbD l = false := by simpa [Group.pcOf] using hg
  unfold Group.place
  split
  · simpa [Group.pcOf] using hg
  · simp only [Group.pcOf, Option.map_eq_none_iff, List.find?_eq_none, mem_insRun]
    rintro r (rfl | hr)
    · simp [hm]
    · obtain ⟨r', hr', rfl⟩ := dropLanes_mem hr
      simp [hg r' hr']

/-- Where the lanes of a run stand of which some have left the table. -/
theorem Group.pcOf_leave_goto (g : Group) {m gone : Lanes} (next : Pc) {l : Nat} (hl : m.getLsbD l = true) :
    ((g.leave gone).goto (m &&& ~~~gone) next).pcOf l = if gone.getLsbD l then none else some next := by
  have hlt : l < 64 := BitVec.lt_of_getLsbD hl
  cases hgone : gone.getLsbD l with
  | true => exact Group.pcOf_place_none (g.pcOf_leave hgone) (by simp [hgone, hlt]) _ _ _
  | false => exact (Group.at_goto _ next (by rw [BitVec.getLsbD_and, BitVec.getLsbD_not, hl, hgone]; simp [hlt])).pcOf

theorem isSuper_iff (g : Group) : g.isSuper = true ↔ g.info.kind = .super := by simp [Group.isSuper]

section
variable {s : State} {q : Issue} {g : Group} {h : Hdr}

theorem exec_exit (hi : Issues s (.exit h) q g) : exec (.exit h) s = .next (if g.isSuper && acts h q g != 0 then
    s.takeTrap q.gid { cause := .privilege, other := false, mask := acts h q g, pc := q.pc, npc := q.pc, addr := 0, run := q.lanes }
    else s.setGroup q.gid ((g.leave (acts h q g)).goto (q.lanes &&& ~~~acts h q g) (nextPc h q))) := by
  rw [show exec (.exit h) s = execExit h s from rfl, execExit, State.withIssue_of_issues hi]
  rfl

/-- The group as `yield` marks it (R106, R308). -/
def yielded (s : State) (g : Group) : Group :=
  { g with sched := { g.sched with age := s.cc, held := !g.isSuper && (s.ctx g.info.ctx).preq && !s.partlyArrived g.info.wg } }

theorem exec_yield (hi : Issues s (.yield h) q g) : exec (.yield h) s =
    .next (if acts h q g = 0 then (issueX s q g h).done else ((issueX s q g h).modG (yielded s)).done) := by
  rw [show exec (.yield h) s = execYield h s from rfl, execYield, State.withIssue_of_issues hi]
  rfl

theorem exec_wait {ld st cp tl : BitVec 6} (hi : Issues s (.wait h ld st cp tl) q g) : exec (.wait h ld st cp tl) s =
    .next (if decide (acts h q g = 0) || g.countersAt ld st cp tl then (issueX s q g h).done
      else (issueX s q g h).wait (Wait.of .counters (some (.wait h ld st cp tl)) (acts h q g))) := by
  rw [show exec (.wait h ld st cp tl) s = execWait h ld st cp tl s from rfl, execWait, State.withIssue_of_issues hi]
  rfl

/-- Placing lanes changes the PC table alone, whatever else is changed with it. -/
theorem X.done_eq_setGroup (x : X) : ∃ rs, x.done = x.s.setGroup x.gid { x.g with runs := rs } := by
  unfold X.done X.advance X.move
  split
  · obtain ⟨rs, e⟩ := x.g.place_eq x.m x.next .ready x.g.sched.issues
    exact ⟨rs, congrArg _ e⟩
  · obtain ⟨rs, e⟩ := x.g.place_eq x.m x.next .ready (stampOf x.m x.g.runs x.g.sched.issues)
    exact ⟨rs, congrArg _ e⟩

theorem issueX_wait_onlyRuns (w : Wait) : OnlyRuns s ((issueX s q g h).wait w) q g := ((MovedFrom.refl g).place ..).onlyRuns s q

end

/-- Settles O3: each instruction is a movement of its lanes, and `yield` marks its group as well. -/
theorem runsLeaveYieldAndWait : Obligations.RunsLeaveYieldAndWait := by
  refine ⟨fun s q g h hi => ⟨fun hk => ?exit, fun hk h0 => ?privilege⟩, fun s q g h hi => ?yield, fun s q g h ld st cp tl hi => ?wait⟩
  case exit =>
    have hc : ¬ (g.isSuper && acts h q g != 0) = true := by
      rw [Bool.and_eq_true, isSuper_iff, bne_iff_ne]
      tauto
    rw [Completes, exec_exit hi, if_neg hc]
    exact ⟨_, rfl, (((MovedFrom.refl g).leave _).goto _ _).onlyRuns s q, _, s.group?_setGroup q.gid _, fun l hl => g.pcOf_leave_goto _ hl⟩
  case privilege =>
    have hc : (g.isSuper && acts h q g != 0) = true := by rw [Bool.and_eq_true, isSuper_iff, bne_iff_ne]; exact ⟨hk, h0⟩
    exact ⟨_, exec_exit hi, if_pos hc⟩
  case yield =>
    rw [Completes, exec_yield hi]
    by_cases h0 : acts h q g = 0
    · obtain ⟨rs, e⟩ := (issueX s q g h).done_eq_setGroup
      rw [if_pos h0]
      refine ⟨_, rfl, X.goOn_done _ rfl rfl, _, ?_, e, rfl, rfl, rfl, fun _ => rfl, fun h => absurd h0 h⟩
      rw [e]
      exact s.group?_setGroup q.gid _
    · obtain ⟨rs, e⟩ := ((issueX s q g h).modG (yielded s)).done_eq_setGroup
      rw [if_neg h0]
      refine ⟨_, rfl, X.goOn_done _ rfl rfl, _, ?_, e, rfl, rfl, rfl, fun h => absurd h h0, fun _ => ⟨rfl, ?_⟩⟩
      · rw [e]
        exact s.group?_setGroup q.gid _
      · show (!g.isSuper && (s.ctx g.info.ctx).preq && !s.partlyArrived g.info.wg) = true ↔ _
        rw [Bool.and_eq_true, Bool.and_eq_true, Bool.not_eq_true', Bool.not_eq_true', ← Bool.not_eq_true g.isSuper, isSuper_iff, and_assoc]
  case wait =>
    have hbelow : (decide (acts h q g = 0) || g.countersAt ld st cp tl) = true ↔
        acts h q g = 0 ∨ (g.regs.ld ≤ ld.toNat ∧ g.regs.st ≤ st.toNat ∧ g.regs.cp ≤ cp.toNat ∧ g.regs.tl ≤ tl.toNat) := by
      simp [Group.countersAt, and_assoc]
    rw [Completes, exec_wait hi]
    by_cases hc : (decide (acts h q g = 0) || g.countersAt ld st cp tl) = true
    · rw [if_pos hc]
      refine ⟨_, rfl, issueX_done_onlyRuns s q g h, fun _ => X.goOn_done _ rfl rfl, fun hn => ?_⟩
      have := hbelow.mp hc
      tauto
    · rw [if_neg hc]
      exact ⟨_, rfl, issueX_wait_onlyRuns _, fun hb => absurd (hbelow.mpr hb) hc, fun _ => X.waitsAt_wait _ rfl rfl rfl _⟩

-- What a transfer leaves as it was

/-- A state that differs in its events, its number counter and the issuing group, which reads as before but in a destination. -/
theorem resultFrame_setGroup {s : State} {h : Hdr} {q : Issue} {g k : Group} {w : Nat} {d : Reg} (ev : List (Nat × Instr)) (sn : Nat)
    (hinfo : k.info = g.info) (hsys : SameSys g k) (hpend : k.pend = g.pend) (hcmds : k.cmds = g.cmds)
    (hcounts : k.regs.ld = g.regs.ld ∧ k.regs.st = g.regs.st ∧ k.regs.cp = g.regs.cp ∧ k.regs.tl = g.regs.tl)
    (hregs : ∀ l, l < 64 → ∀ r, (¬ names d w r ∨ ((acts h q g).getLsbD l = false ∧ ∀ n, d ≠ .s n)) → SameReg g k l r) :
    ResultFrame s (State.setGroup { s with events := ev, serial := sn } q.gid k) h q g w d :=
  ⟨⟨fun _ _ => rfl, fun _ _ => rfl⟩, ⟨rfl, rfl, rfl, rfl, rfl⟩, fun _ hk => SMap.find_ins_ne _ _ hk, k, SMap.find_ins_self .., hinfo, hsys, hpend, hcmds,
    hcounts, fun l hl r hr => hregs l hl r (.inl hr), fun l hl ha hs r => hregs l hl r (.inr ⟨ha, hs⟩)⟩

-- `call` (R103)

section
variable {s : State} {q : Issue} {g : Group} {h : Hdr} {d : Reg} {tg : Target}

/-- The result of `call`: the address of the following instruction. -/
def callRes (h : Hdr) (q : Issue) (_ : Nat) : Res := { val := (nextPc h q).zeroExtend 64, fl := 0 }

/-- A destination whose description names S (R70). -/
theorem landsOk_dstS (hd : (Pos.dstS 2).ok h.u d = true) : landsOk h q g 2 d (callRes h q) := by
  refine .inr ⟨?_, .inr rfl, fun _ _ _ _ _ _ => rfl⟩
  cases d with
  | v n => exact .inr ⟨rfl, beq_iff_eq.mp hd⟩
  | o n => exact .inr ⟨rfl, beq_iff_eq.mp hd⟩
  | s n => exact .inr rfl
  | _ => cases hd

/-- `call` leaves its result as `written` says, and moves its lanes. -/
theorem exec_call (hi : Issues s (.call h d tg) q g) (hd : (Pos.dstS 2).ok h.u d = true) : ∃ ev sn bs,
    exec (.call h d tg) s = .next (State.setGroup { s with events := ev, serial := sn } q.gid
      ((({ written g 2 d (laneList (acts h q g)) (callRes h q) with busy := bs } : Group).goto (acts h q g) (targetPc q.pc tg)).goto
        (q.lanes &&& ~~~acts h q g) (nextPc h q))) := by
  have hput : (issueX s q g h).putAll 2 d ((pcDword (nextPc h q)).zeroExtend 128) =
      { issueX s q g h with g := written g 2 d (laneList (acts h q g)) (callRes h q) } := by
    cases d with
    | p n => cases hd
    | _ => rfl
  rw [show exec (.call h d tg) s = execCall h d tg s from rfl, execCall, State.withIssue_of_issues hi]
  obtain ⟨ev, sn, bs, hmark⟩ := X.mark_spec { issueX s q g h with g := written g 2 d (laneList (acts h q g)) (callRes h q) }
    (({ issueX s q g h with g := written g 2 d (laneList (acts h q g)) (callRes h q) } : X).writesOf d 2 false) 0 4
  refine ⟨ev, sn, bs, congrArg Host.Outcome.next ?_⟩
  dsimp only
  rw [show (issueX s q g h).next = nextPc h q from rfl, hput, hmark]
  rfl

theorem completes_call (hi : Issues s (.call h d tg) q g) (hwf : (Instr.call h d tg).wf = true) : Completes (.call h d tg) s fun t =>
    (∃ k, t.group? q.gid = some k ∧ ∀ l, (acts h q g).getLsbD l = true → ReadsAs k 2 l d ((nextPc h q).zeroExtend 64)) ∧
    GoOn t q (fun l => if (acts h q g).getLsbD l then branchTarget q.pc tg else nextPc h q) ∧ ResultFrame s t h q g 2 d := by
  have hd : (Pos.dstS 2).ok h.u d = true := ((Bool.and_eq_true ..).mp (Instr.wfA_of_wf hwf)).2
  have hlands : landsOk h q g 2 d (callRes h q) := landsOk_dstS hd
  obtain ⟨ev, sn, bs, he⟩ := exec_call hi hd
  obtain ⟨hinfo, -, -, hsys, hpend, -, hcmds, hld, hst, hcp, htl⟩ := written_frame g 2 d (laneList (acts h q g)) (callRes h q)
  have hreads {l : Nat} (hl : (acts h q g).getLsbD l = true) := written_readsAs hlands g hl
  have hsame {l : Nat} (hl : l < 64) (r : Reg) (hr : ¬ names d 2 r ∨ ((acts h q g).getLsbD l = false ∧ ∀ n, d ≠ .s n)) := written_sameReg hlands g hl r hr
  generalize written g 2 d (laneList (acts h q g)) (callRes h q) = g1 at *
  have hmoved := ((MovedFrom.refl ({ g1 with busy := bs } : Group)).goto (acts h q g) (targetPc q.pc tg)).goto (q.lanes &&& ~~~acts h q g) (nextPc h q)
  refine ⟨_, he, ⟨_, SMap.find_ins_self .., fun l hl => ?_⟩, ⟨_, SMap.find_ins_self .., fun l hl => ?_⟩, ?_⟩
  · obtain ⟨rs, hk⟩ := hmoved
    rw [hk]
    exact SameFiles.readsAs ⟨rfl, rfl, rfl, rfl, rfl⟩ (.inr (hlands.resolve_left (by rintro ⟨n, rfl, -⟩; cases hd)).1) (hreads hl)
  · rw [← targetPc_eq]
    exact (Group.at_branch _ _ _ hl).pcOf
  · obtain ⟨rs, hk⟩ := hmoved
    rw [hk]
    exact resultFrame_setGroup ev sn hinfo (by rw [SameSys, hsys]) hpend hcmds ⟨hld, hst, hcp, htl⟩ fun l hl r hr =>
      sameReg_trans (hsame hl r hr) (sameReg_of_files rfl rfl rfl rfl rfl l r)

end

-- Indirect transfers (R104)

theorem laneList_lanesWhere (m : Lanes) (p : Nat → Bool) : laneList (lanesWhere m p) = (laneList m).filter p := by
  simp only [laneList, List.filter_filter, lanesWhere_getLsbD]
  exact List.filter_congr fun _ _ => Bool.and_comm ..

theorem lowest_lanesWhere (m : Lanes) (p : Nat → Bool) : lowest (lanesWhere m p) = ((laneList m).filter p).headD 0 := by
  rw [lowest, laneList_lanesWhere]

/-- The PC that a register and an offset name (R104). -/
theorem dwordPc_add (x : Dword) (off : BitVec 20) : dwordPc x + sextWords 20 off = BitVec.ofInt 48 (x.toNat + 4 * off.toInt) := by
  have hx : BitVec.ofInt 48 (x.toNat : Int) = dwordPc x := (BitVec.ofInt_natCast ..).trans (BitVec.ofNat_toNat ..)
  rw [BitVec.ofInt_add, BitVec.ofInt_mul, hx, mul_comm]
  rfl

/-- A register or target that R104 refuses. -/
theorem badTarget_iff (x : Dword) (pc : Pc) : (Dword.field x 48 16 != 0 || pc.toNat % 4 != 0) = true ↔ ¬ (x.toNat < 2 ^ 48 ∧ pc.toNat % 4 = 0) := by
  have hx := x.isLt
  have hfield : Dword.field x 48 16 ≠ 0 ↔ ¬ x.toNat < 2 ^ 48 := by
    unfold Dword.field
    omega
  rw [Bool.or_eq_true, bne_iff_ne, bne_iff_ne, hfield]
  tauto

section
variable (s : State) (q : Issue) (g : Group) (h : Hdr) (a : Reg) (off : BitVec 20)

/-- The register of an indirect transfer, as its source lane reads it. -/
def jumpVal (l : Nat) : Dword := g.rd64 (source h q g l) a

def jumpDest (l : Nat) : Pc := BitVec.ofInt 48 ((jumpVal q g h a l).toNat + 4 * off.toInt)

/-- The lanes whose register or target is bad. -/
def jumpBad (l : Nat) : Bool := Dword.field (jumpVal q g h a l) 48 16 != 0 || (jumpDest q g h a off l).toNat % 4 != 0

theorem jumpBad_iff (l : Nat) : jumpBad q g h a off l = true ↔ ¬ ((jumpVal q g h a l).toNat < 2 ^ 48 ∧ (jumpDest q g h a off l).toNat % 4 = 0) :=
  badTarget_iff ..

/-- The trap of an indirect transfer: its lanes and the register of the lowest of them (R104). -/
def jumpTrap : Trap where
  cause := .misaligned
  other := false
  mask := lanesWhere (acts h q g) (jumpBad q g h a off)
  pc := q.pc
  npc := q.pc
  addr := jumpVal q g h a (lowest (lanesWhere (acts h q g) (jumpBad q g h a off)))
  run := q.lanes

theorem issueX_indirect : ∃ b, (issueX s q g h).indirect a off =
    if ((laneList (acts h q g)).filter (jumpBad q g h a off)).isEmpty then
      s.setGroup q.gid (({ g with sys := { g.sys with uniformViolation := b } } : Group).gotoEach q.lanes fun l =>
        if (acts h q g).getLsbD l then jumpDest q g h a off l else nextPc h q)
    else s.takeTrap q.gid (jumpTrap q g h a off) := by
  obtain ⟨b, hb⟩ := issueX_uniformU s q g h fun l => [g.rd64 l a]
  refine ⟨b, ?_⟩
  unfold X.indirect
  rw [show ((issueX s q g h).uniformU fun l => [(issueX s q g h).g.rd64 l a]) = issueU s q g h b from hb, jumpTrap, lowest_lanesWhere]
  simp only [dwordPc_add]
  rfl

variable {s q g h a off} {i : Instr}

theorem exec_indirect (hi : i = .jmp h a off ∨ (i = .ret h a ∧ off = 0)) (hq : Issues s i q g) : exec i s = .next ((issueX s q g h).indirect a off) := by
  rcases hi with rfl | ⟨rfl, rfl⟩
  · rw [show exec (.jmp h a off) s = execJmp h a off s from rfl, execJmp, State.withIssue_of_issues hq]
  · rw [show exec (.ret h a) s = execRet h a s from rfl, execRet, State.withIssue_of_issues hq]

end

/-- Settles O2: `call` writes one value in its lanes before they branch; an indirect transfer looks for bad lanes first. -/
theorem callsAndReturnsTransfer : Obligations.CallsAndReturnsTransfer := by
  refine ⟨fun s q g h d tg hi hwf => completes_call hi hwf, fun s q g h a off i hi hq => ⟨fun hgood => ?goes, fun hbad => ?traps⟩⟩
  case goes =>
    obtain ⟨b, hind⟩ := issueX_indirect s q g h a off
    have hnone : ((laneList (acts h q g)).filter (jumpBad q g h a off)).isEmpty = true := by
      rw [List.isEmpty_iff, List.filter_eq_nil_iff]
      exact fun l hl hb => (jumpBad_iff q g h a off l).mp hb (hgood l (mem_laneList.mp hl))
    rw [if_pos hnone] at hind
    refine ⟨_, (exec_indirect hi hq).trans (congrArg _ hind), ⟨_, s.group?_setGroup q.gid _, fun l hl => (Group.at_gotoEach _ _ hl).pcOf⟩, ?_⟩
    obtain ⟨rs, hk⟩ := MovedFrom.gotoEach ({ g with sys := { g.sys with uniformViolation := b } } : Group) q.lanes fun l =>
      if (acts h q g).getLsbD l then jumpDest q g h a off l else nextPc h q
    rw [hk]
    exact resultFrame_setGroup s.events s.serial rfl rfl rfl rfl ⟨rfl, rfl, rfl, rfl⟩ fun l _ r _ => sameReg_of_files rfl rfl rfl rfl rfl l r
  case traps =>
    obtain ⟨b, hind⟩ := issueX_indirect s q g h a off
    obtain ⟨l, hl, hb⟩ := hbad
    have hsome : ¬ ((laneList (acts h q g)).filter (jumpBad q g h a off)).isEmpty = true := by
      rw [List.isEmpty_iff]
      exact List.ne_nil_of_mem (List.mem_filter.mpr ⟨mem_laneList.mpr hl, (jumpBad_iff q g h a off l).mpr hb⟩)
    rw [if_neg hsome] at hind
    refine ⟨lanesWhere (acts h q g) (jumpBad q g h a off), fun l => ?_, _, (exec_indirect hi hq).trans (congrArg _ hind), rfl⟩
    rw [lanesWhere_getLsbD, Bool.and_eq_true, jumpBad_iff]
    rfl

end Sys2Proof.Machine

/-! Floating-point arithmetic (R38 to R47, R127, R128): elements on their own, NaN operands, sums and products. -/

namespace Sys2Proof.Machine

open Sys2Proof.Safety

-- The issuing lanes

theorem lowest_lt (m : Lanes) : lowest m < 64 := by
  cases hm : laneList m with
  | nil => rw [lowest, hm]; decide
  | cons l ls => rw [lowest, hm]; exact laneList_lt (hm ▸ List.mem_cons_self)

theorem source_lt {h : Hdr} {q : Issue} {g : Group} {l : Nat} (hl : l < 64) : source h q g l < 64 := by
  unfold source
  split
  · exact lowest_lt _
  · exact hl

/-- A rule may take it that its lane is one of the 64. -/
theorem computes_of_lanes {mk : Hdr → Arith → Instr} {sp : ArithSpec} {pre : Group → Prop} {rule : LaneRule}
    (hc : Computes mk sp pre fun g q m a u v w d fl => m < 64 → rule g q m a u v w d fl) : Computes mk sp pre rule := by
  intro s q g h a hi hw hp
  obtain ⟨res, fl, hrule, hdone⟩ := hc s q g h a hi hw hp
  exact ⟨res, fl, fun l hl => hrule l hl (source_lt (BitVec.lt_of_getLsbD hl)), hdone⟩

-- Element by element

/-- On operands of the width of a format, an operation keeps a rule of their flushed values, and its result has that width. -/
def FpMeets (op : Fmt → FpEnv → Nat → Nat → Nat → Nat × Fl) (rule : FpRule) : Prop :=
  ∀ f v x y z, (f = fmt32 ∨ f = fmt16 ∨ f = fmtB16) → v.lane < 64 → x < 2 ^ f.w → y < 2 ^ f.w → z < 2 ^ f.w →
    rule f v (f.flush v.ftz x) (f.flush v.ftz y) (f.flush v.ftz z) (op f v x y z).1 (op f v x y z).2 ∧ (op f v x y z).1 < 2 ^ f.w

theorem fpShape_mem (t : Ty) : (fpShape t).1 = fmt32 ∨ (fpShape t).1 = fmt16 ∨ (fpShape t).1 = fmtB16 := by cases t <;> decide

theorem fpShape_le (t : Ty) : (fpShape t).1.w * (fpShape t).2 ≤ 64 := by cases t <;> decide

/-- The environment of one lane. -/
def laneEnv (g : Group) (q : Issue) (a : Arith) (m : Nat) : FpEnv := { ftz := g.ftz, rnd := a.rnd, lane := m, pc := q.pc }

/-- What one lane of an FP instruction gives. -/
def fpRes (op : Fmt → FpEnv → Nat → Nat → Nat → Nat × Fl) (g : Group) (q : Issue) (a : Arith) (m : Nat) (u v w : Dword) : Res :=
  Res.of (packed (fpShape a.ty).1.w (fpShape a.ty).2 fun i => op (fpShape a.ty).1 (laneEnv g q a m)
    (elem (fpShape a.ty).1.w i u.toNat) (elem (fpShape a.ty).1.w i v.toNat) (elem (fpShape a.ty).1.w i w.toNat))

theorem toNat_packed_lt {w n : Nat} (hwn : w * n ≤ 64) (f : Nat → Nat × Fl) : (Res.of (packed w n f)).val.toNat < 2 ^ (w * n) := by
  have hlt := (packed_fst_aux w f n).1
  have h64 := hlt.trans_le (Nat.pow_le_pow_right two_pos hwn)
  rwa [Res.of, BitVec.toNat_ofNat, Nat.mod_eq_of_lt h64]

theorem fpRes_rule {op : Fmt → FpEnv → Nat → Nat → Nat → Nat × Fl} {rule : FpRule} (h : FpMeets op rule) (g : Group) (q : Issue) (a : Arith)
    {m : Nat} (hm : m < 64) (u v w : Dword) : fpRule rule g q m a u v w (fpRes op g q a m u v w).val (fpRes op g q a m u v w).fl := by
  have hwn := fpShape_le a.ty
  have hmem := fpShape_mem a.ty
  unfold fpRes
  refine ⟨_, fun e he => ?_, toNat_packed_lt hwn _, (packed_spec hwn _).2⟩
  have hel (x : Dword) : elem (fpShape a.ty).1.w e x.toNat < 2 ^ (fpShape a.ty).1.w := elem_eq _ _ x ▸ BitVec.isLt _
  obtain ⟨hrule, hlt⟩ := h _ (laneEnv g q a m) _ _ _ hmem hm (hel u) (hel v) (hel w)
  dsimp only
  rw [(packed_spec hwn _).1 e he, BitVec.toNat_ofNat, Nat.mod_eq_of_lt hlt]
  simpa only [elem_eq, laneEnv] using hrule

theorem computes_fp {mk : Hdr → Arith → Instr} {sp : ArithSpec} {op : Fmt → FpEnv → Nat → Nat → Nat → Nat × Fl} {rule : FpRule}
    (hex : ∀ s h a, exec (mk h a) s = s.withIssue (mk h a) h fun x => x.fp sp a op)
    (hwf : ∀ h a, (mk h a).wf = true → sp.wf h a = true) (hdst : sp.dst = dstT) (hop : FpMeets op rule) : Computes mk sp Untrapped (fpRule rule) :=
  computes_of_lanes <| Computes.intro (fun _ => 6) (fun _ => 0) (fun g q a => fpRes op g q a) (fun s _ _ h a hi => exec_of_withIssue (hex s h a) hi)
    hwf (.inl fun t => hdst ▸ dstT_cases t) (.inl fun _ h => h) fun g q _ a _ _ hm => fpRes_rule hop g q a hm _ _ _

-- Operands: flushed (R41), NaN (R46, R47)

theorem Fmt.Ieee.flush_lt {f : Fmt} (hf : f.Ieee) (ftz : Bool) {x : Nat} (hx : x < 2 ^ f.w) : f.flush ftz x < 2 ^ f.w := by
  unfold Fmt.flush
  split
  · exact hf.signBit_add_lt _ (Nat.two_pow_pos _)
  · exact hx

theorem Fmt.quiet_lt {f : Fmt} (hf : f = fmt32 ∨ f = fmt16 ∨ f = fmtB16) {x : Nat} (hx : x < 2 ^ f.w) : f.quiet x < 2 ^ f.w := by
  unfold Fmt.quiet
  split
  next h =>
    have hlow : x % 2 ^ f.mb < 2 ^ (f.mb - 1) := of_decide_eq_true ((Bool.and_eq_true ..).mp h).2
    rcases hf with rfl | rfl | rfl <;> simp only [fmt32, fmt16, fmtB16] at hx hlow ⊢ <;> omega
  · exact hx

theorem foldPc_lt (pc : Pc) : foldPc pc < 65536 :=
  Nat.xor_lt_two_pow (n := 16) (Nat.xor_lt_two_pow (Nat.mod_lt _ (by decide)) (Nat.mod_lt _ (by decide))) (Nat.mod_lt _ (by decide))

theorem Fmt.origin_lt {f : Fmt} (hf : f = fmt32 ∨ f = fmt16 ∨ f = fmtB16) {v : FpEnv} (hv : v.lane < 64) : f.origin v < 2 ^ f.w := by
  have hfold := foldPc_lt v.pc
  unfold Fmt.origin
  rcases hf with rfl | rfl | rfl
  · have : fmt32.inf false = 0x7F800000 := by decide
    simp only [fmt32, if_true] at this ⊢
    omega
  · have : fmt16.inf false = 0x7C00 := by decide
    simp only [fmt16, if_true, Nat.reduceEqDiff, if_false] at this ⊢
    omega
  · have : fmtB16.inf false = 0x7F80 := by decide
    simp only [fmtB16, Nat.reduceEqDiff, if_false] at this ⊢
    omega

theorem Fmt.firstNaN_of_anyNaN {f : Fmt} {xs : List Nat} (h : anyNaN f xs) : ∃ x ∈ xs, xs.find? f.isNaN = some x ∧ f.firstNaN xs = some (f.quiet x) := by
  obtain ⟨y, hy, hn⟩ := h
  obtain ⟨x, hx⟩ := Option.isSome_iff_exists.mp (List.find?_isSome.mpr ⟨y, hy, hn⟩)
  exact ⟨x, List.mem_of_find?_eq_some hx, hx, by rw [Fmt.firstNaN, hx]; rfl⟩

theorem Fmt.firstNaN_of_not_anyNaN {f : Fmt} {xs : List Nat} (h : ¬ anyNaN f xs) : f.firstNaN xs = none := by
  rw [Fmt.firstNaN, List.find?_eq_none.mpr fun x hx hn => h ⟨x, hx, hn⟩]
  rfl

theorem Fmt.nanResult {f : Fmt} {xs : List Nat} {x : Nat} (hx : xs.find? f.isNaN = some x) {nv : Prop} {b : Bool} (hb : b = true ↔ nv) :
    NanResult f xs nv (f.quiet x) (f.snanFl xs ||| flIf b flNV) := by
  have hs : xs.any f.isSNaN = true ↔ ∃ x ∈ xs, f.isSNaN x = true := List.any_eq_true
  refine ⟨⟨x, hx, rfl⟩, ?_⟩
  rw [← hs, ← hb, Fmt.snanFl]
  cases xs.any f.isSNaN <;> cases b <;> decide

/-- A NaN operand before anything else: made quiet, with its flags. -/
def Fmt.nanElse (f : Fmt) (xs : List Nat) (nv : Bool) (k : Nat × Fl) : Nat × Fl :=
  match f.firstNaN xs with
  | some r => (r, f.snanFl xs ||| flIf nv flNV)
  | none => k

theorem Fmt.nanElse_spec {f : Fmt} (hf : f = fmt32 ∨ f = fmt16 ∨ f = fmtB16) {xs : List Nat} (hxs : ∀ x ∈ xs, x < 2 ^ f.w) {nv : Prop} {b : Bool}
    (hb : b = true ↔ nv) {k : Nat × Fl} {numbers : Nat → Fl → Prop} (hk : ¬ anyNaN f xs → numbers k.1 k.2 ∧ k.1 < 2 ^ f.w) :
    ((anyNaN f xs → NanResult f xs nv (f.nanElse xs b k).1 (f.nanElse xs b k).2) ∧
      (¬ anyNaN f xs → numbers (f.nanElse xs b k).1 (f.nanElse xs b k).2)) ∧ (f.nanElse xs b k).1 < 2 ^ f.w := by
  by_cases h : anyNaN f xs
  · obtain ⟨x, hmem, hfind, hfirst⟩ := Fmt.firstNaN_of_anyNaN h
    rw [Fmt.nanElse, hfirst]
    exact ⟨⟨fun _ => Fmt.nanResult hfind hb, fun hn => absurd h hn⟩, Fmt.quiet_lt hf (hxs x hmem)⟩
  · rw [Fmt.nanElse, Fmt.firstNaN_of_not_anyNaN h]
    exact ⟨⟨fun hn => absurd hn h, fun h => (hk h).1⟩, (hk h).2⟩

/-- The operands of an instruction after their flush. -/
theorem Fmt.forall_flush_lt {f : Fmt} (hf : f = fmt32 ∨ f = fmt16 ∨ f = fmtB16) (ftz : Bool) {xs : List Nat} (hxs : ∀ x ∈ xs, x < 2 ^ f.w) :
    ∀ x ∈ xs.map (f.flush ftz), x < 2 ^ f.w := by
  simpa using fun x hx => (Fmt.ieee hf).flush_lt ftz (hxs x hx)

-- Sums (R128)

/-- A number is infinite or finite. -/
theorem Fmt.number_cases {f : Fmt} {x : Nat} (hn : f.isNaN x = false) : (isInf f x ∧ f.dec x = .inf (f.sign x)) ∨
    (¬ isInf f x ∧ ∃ m e, f.dec x = .fin (f.sign x) m e ∧ fpValue f x = (if f.sign x then -1 else 1) * m * (2 : ℚ) ^ e) := by
  by_cases hi : isInf f x
  · exact .inl ⟨hi, Fmt.dec_of_isInf hi⟩
  · exact .inr ⟨hi, Fmt.dec_of_finite hn hi⟩

theorem Fmt.addFp_numbers {f : Fmt} (v : FpEnv) {x y : Nat} (hx : f.isNaN x = false) (hy : f.isNaN y = false) :
    addNumbers f v x y (f.addFp v (f.dec x) (f.dec y)).1 (f.addFp v (f.dec x) (f.dec y)).2 := by
  unfold addNumbers
  rcases Fmt.number_cases hx with ⟨hix, hdx⟩ | ⟨hix, m, e, hdx, hvx⟩ <;>
    rcases Fmt.number_cases hy with ⟨hiy, hdy⟩ | ⟨hiy, m', e', hdy, hvy⟩ <;>
    simp only [hix, hiy, hdx, hdy, Fmt.addFp, true_implies, false_implies, not_true, not_false_iff, true_and, and_true]
  · split <;> simp_all
  · rw [hvx, hvy]
    exact f.addFin_sumOf ..

theorem Fmt.addFp_lt {f : Fmt} (hf : f = fmt32 ∨ f = fmt16 ∨ f = fmtB16) {v : FpEnv} (hv : v.lane < 64) (a b : Fp) : (f.addFp v a b).1 < 2 ^ f.w := by
  have hinf := (Fmt.ieee hf).inf_lt
  have horigin := Fmt.origin_lt hf hv
  unfold Fmt.addFp
  split
  · split
    · exact hinf _
    · exact horigin
  · exact hinf _
  · exact hinf _
  · exact (Fmt.ieee hf).addFin_lt ..
  · exact horigin

theorem not_anyNaN_pair {f : Fmt} {x y : Nat} : (¬ anyNaN f [x, y]) ↔ f.isNaN x = false ∧ f.isNaN y = false := by
  simp [anyNaN]

theorem not_anyNaN_triple {f : Fmt} {x y z : Nat} : (¬ anyNaN f [x, y, z]) ↔ f.isNaN x = false ∧ f.isNaN y = false ∧ f.isNaN z = false := by
  simp [anyNaN]

theorem Fmt.add_eq (f : Fmt) (v : FpEnv) (x y : Nat) : f.add v x y = f.nanElse [f.flush v.ftz x, f.flush v.ftz y] false
    (f.addFp v (f.dec (f.flush v.ftz x)) (f.dec (f.flush v.ftz y))) := by
  unfold Fmt.add Fmt.nanElse
  dsimp only
  cases f.firstNaN [f.flush v.ftz x, f.flush v.ftz y] with
  | none => rfl
  | some r => exact congrArg (Prod.mk r) BitVec.or_zero.symm

theorem fpMeets_add : FpMeets (fun f v x y _ => f.add v x y) faddRule := by
  intro f v x y z hf hv hx hy _
  simp only [Fmt.add_eq]
  refine Fmt.nanElse_spec (numbers := addNumbers f v _ _) hf (Fmt.forall_flush_lt hf v.ftz (xs := [x, y]) (by simp [hx, hy]))
    (iff_of_eq Bool.false_eq_true) fun hn => ?_
  obtain ⟨hnx, hny⟩ := not_anyNaN_pair.mp hn
  exact ⟨Fmt.addFp_numbers v hnx hny, Fmt.addFp_lt hf hv _ _⟩

-- The other sign

theorem flipSign_testBit (f : Fmt) (x i : Nat) : (flipSign f x).testBit i = (x.testBit i ^^ decide (f.w - 1 = i)) := by
  rw [flipSign, Nat.testBit_xor, Nat.testBit_two_pow]

theorem Fmt.sign_eq_testBit (f : Fmt) (x : Nat) : f.sign x = x.testBit (f.w - 1) := by
  rw [Fmt.sign, Nat.testBit_eq_decide_div_mod_eq]
  rfl

theorem flipSign_spec {f : Fmt} (hf : f = fmt32 ∨ f = fmt16 ∨ f = fmtB16) (x : Nat) :
    f.expo (flipSign f x) = f.expo x ∧ f.frac (flipSign f x) = f.frac x ∧ f.sign (flipSign f x) = !f.sign x := by
  have hw : f.mb < f.w - 1 := by rcases hf with rfl | rfl | rfl <;> decide
  refine ⟨Nat.eq_of_testBit_eq fun i => ?_, Nat.eq_of_testBit_eq fun i => ?_, ?_⟩
  · simp only [Fmt.expo, Nat.testBit_mod_two_pow, Nat.testBit_div_two_pow, flipSign_testBit]
    by_cases hi : i < f.w - 1 - f.mb
    · rw [decide_eq_false (by omega : ¬ f.w - 1 = i + f.mb), Bool.xor_false]
    · simp [hi]
  · simp only [Fmt.frac, Nat.testBit_mod_two_pow, flipSign_testBit]
    by_cases hi : i < f.mb
    · rw [decide_eq_false (by omega : ¬ f.w - 1 = i), Bool.xor_false]
    · simp [hi]
  · rw [f.sign_eq_testBit, f.sign_eq_testBit, flipSign_testBit, decide_eq_true rfl, Bool.xor_true]

theorem isNaN_flipSign {f : Fmt} (hf : f = fmt32 ∨ f = fmt16 ∨ f = fmtB16) (x : Nat) : f.isNaN (flipSign f x) = f.isNaN x := by
  obtain ⟨he, hfr, -⟩ := flipSign_spec hf x
  rw [Fmt.isNaN, Fmt.isNaN, he, hfr]

theorem Fmt.sub_eq (f : Fmt) (v : FpEnv) (x y : Nat) : f.sub v x y = f.nanElse [f.flush v.ftz x, f.flush v.ftz y] false
    (f.addFp v (f.dec (f.flush v.ftz x)) (f.dec (flipSign f (f.flush v.ftz y)))) := by
  unfold Fmt.sub Fmt.nanElse
  dsimp only
  cases f.firstNaN [f.flush v.ftz x, f.flush v.ftz y] with
  | none => rfl
  | some r => exact congrArg (Prod.mk r) BitVec.or_zero.symm

theorem fpMeets_sub : FpMeets (fun f v x y _ => f.sub v x y) fsubRule := by
  intro f v x y z hf hv hx hy _
  simp only [Fmt.sub_eq]
  refine Fmt.nanElse_spec (numbers := addNumbers f v _ _) hf (Fmt.forall_flush_lt hf v.ftz (xs := [x, y]) (by simp [hx, hy]))
    (iff_of_eq Bool.false_eq_true) fun hn => ?_
  obtain ⟨hnx, hny⟩ := not_anyNaN_pair.mp hn
  exact ⟨Fmt.addFp_numbers v hnx ((isNaN_flipSign hf _).trans hny), Fmt.addFp_lt hf hv _ _⟩

-- Products

/-- What the product of two numbers is: none for 0 × ∞, or infinite, or finite. -/
theorem mulFp_cases {f : Fmt} {x y : Nat} (hx : f.isNaN x = false) (hy : f.isNaN y = false) :
    (zeroTimesInf f x y ∧ mulFp (f.dec x) (f.dec y) = none) ∨
    (¬ zeroTimesInf f x y ∧ (isInf f x ∨ isInf f y) ∧ mulFp (f.dec x) (f.dec y) = some (.inf (f.sign x ^^ f.sign y))) ∨
    (¬ zeroTimesInf f x y ∧ ¬ isInf f x ∧ ¬ isInf f y ∧ ∃ m e, mulFp (f.dec x) (f.dec y) = some (.fin (f.sign x ^^ f.sign y) m e) ∧
      fpValue f x * fpValue f y = (if f.sign x ^^ f.sign y then -1 else 1) * m * (2 : ℚ) ^ e) := by
  unfold zeroTimesInf
  rcases Fmt.number_cases hx with ⟨hix, hdx⟩ | ⟨hix, m, e, hdx, hvx⟩ <;> rcases Fmt.number_cases hy with ⟨hiy, hdy⟩ | ⟨hiy, m', e', hdy, hvy⟩
  · simp [hix, hiy, hdx, hdy, mulFp]
  · rw [hvy, signed_mul_eq_zero]
    by_cases h0 : m' = 0 <;> simp [hix, hiy, hdx, hdy, hy, mulFp, h0]
  · rw [hvx, signed_mul_eq_zero]
    by_cases h0 : m = 0 <;> simp [hix, hiy, hdx, hdy, hx, mulFp, h0]
  · refine .inr (.inr ⟨by simp [hix, hiy], hix, hiy, m * m', e + e', by rw [hdx, hdy]; rfl, ?_⟩)
    rw [hvx, hvy, zpow_add₀ two_ne_zero]
    cases f.sign x <;> cases f.sign y <;> push_cast <;> simp <;> ring

/-- A product as `fmul` delivers it. -/
def Fmt.mulFin (f : Fmt) (v : FpEnv) (p : Option Fp) : Nat × Fl :=
  match p with
  | none => (f.origin v, flNV)
  | some (.inf n) => (f.inf n, 0)
  | some (.fin n m e) => f.round v.ftz v.rnd n m e
  | some (.nan _) => (f.origin v, flNV)

theorem Fmt.mulFin_lt {f : Fmt} (hf : f = fmt32 ∨ f = fmt16 ∨ f = fmtB16) {v : FpEnv} (hv : v.lane < 64) (p : Option Fp) : (f.mulFin v p).1 < 2 ^ f.w := by
  unfold Fmt.mulFin
  split
  · exact Fmt.origin_lt hf hv
  · exact (Fmt.ieee hf).inf_lt _
  · exact (Fmt.ieee hf).round_lt ..
  · exact Fmt.origin_lt hf hv

theorem Fmt.mul_eq (f : Fmt) (v : FpEnv) (x y : Nat) : f.mul v x y = f.nanElse [f.flush v.ftz x, f.flush v.ftz y] false
    (f.mulFin v (mulFp (f.dec (f.flush v.ftz x)) (f.dec (f.flush v.ftz y)))) := by
  unfold Fmt.mul Fmt.nanElse
  dsimp only
  cases f.firstNaN [f.flush v.ftz x, f.flush v.ftz y] with
  | none => rfl
  | some r => exact congrArg (Prod.mk r) BitVec.or_zero.symm

/-- x × y for operands that are not NaN (R128). -/
def mulNumbers (f : Fmt) (v : FpEnv) (x y r : Nat) (fl : Fl) : Prop :=
  (zeroTimesInf f x y → r = f.origin v ∧ fl = flNV) ∧
  (¬ zeroTimesInf f x y → (isInf f x ∨ isInf f y) → r = f.inf (f.sign x ^^ f.sign y) ∧ fl = 0) ∧
  (¬ isInf f x → ¬ isInf f y →
    (fpValue f x * fpValue f y ≠ 0 → Delivers f v (fpValue f x * fpValue f y) r fl) ∧
    (fpValue f x * fpValue f y = 0 → r = f.signBit (f.sign x ^^ f.sign y) ∧ fl = 0))

theorem Fmt.mulFin_numbers {f : Fmt} (v : FpEnv) {x y : Nat} (hx : f.isNaN x = false) (hy : f.isNaN y = false) :
    mulNumbers f v x y (f.mulFin v (mulFp (f.dec x) (f.dec y))).1 (f.mulFin v (mulFp (f.dec x) (f.dec y))).2 := by
  rcases mulFp_cases hx hy with ⟨hz, hp⟩ | ⟨hz, hi, hp⟩ | ⟨hz, hix, hiy, m, e, hp, hval⟩ <;> rw [hp]
  · exact ⟨fun _ => ⟨rfl, rfl⟩, fun h => absurd hz h, fun hx hy => by rcases hz with ⟨h, -⟩ | ⟨h, -⟩ <;> contradiction⟩
  · exact ⟨fun h => absurd h hz, fun _ _ => ⟨rfl, rfl⟩, fun hx hy => (hi.elim hx hy).elim⟩
  · refine ⟨fun h => absurd h hz, fun _ hi => (hi.elim hix hiy).elim, fun _ _ => ⟨fun h0 => ?_, fun h0 => ?_⟩⟩
    · rw [hval] at h0 ⊢
      exact delivers_round (Nat.pos_of_ne_zero fun hm => h0 (signed_mul_eq_zero.mpr hm)) rfl
    · rw [hval, signed_mul_eq_zero] at h0
      subst h0
      exact ⟨rfl, rfl⟩

theorem fpMeets_mul : FpMeets (fun f v x y _ => f.mul v x y) fmulRule := by
  intro f v x y z hf hv hx hy _
  simp only [Fmt.mul_eq]
  refine Fmt.nanElse_spec (numbers := mulNumbers f v _ _) hf (Fmt.forall_flush_lt hf v.ftz (xs := [x, y]) (by simp [hx, hy]))
    (iff_of_eq Bool.false_eq_true) fun hn => ?_
  obtain ⟨hnx, hny⟩ := not_anyNaN_pair.mp hn
  exact ⟨Fmt.mulFin_numbers v hnx hny, Fmt.mulFin_lt hf hv _⟩

-- Fused products

/-- A product of numbers and a number, as `ffma` delivers their sum. -/
def Fmt.fmaFin (f : Fmt) (v : FpEnv) (p : Option Fp) (c : Fp) : Nat × Fl :=
  match p with
  | none => (f.origin v, flNV)
  | some p => f.addFp v p c

theorem Fmt.fmaFin_lt {f : Fmt} (hf : f = fmt32 ∨ f = fmt16 ∨ f = fmtB16) {v : FpEnv} (hv : v.lane < 64) (p : Option Fp) (c : Fp) :
    (f.fmaFin v p c).1 < 2 ^ f.w := by
  cases p with
  | none => exact Fmt.origin_lt hf hv
  | some p => exact Fmt.addFp_lt hf hv p c

/-- One operand denotes zero and the other infinity. -/
def isZeroInf (a b : Fp) : Bool :=
  match a, b with
  | .inf _, .fin _ 0 _ | .fin _ 0 _, .inf _ => true
  | _, _ => false

theorem isZeroInf_iff (f : Fmt) (x y : Nat) : isZeroInf (f.dec x) (f.dec y) = true ↔ zeroTimesInf f x y := by
  unfold zeroTimesInf
  by_cases hx : f.isNaN x = true
  · have hix : ¬ isInf f x := fun h => by simp [Fmt.isNaN_of_isInf h] at hx
    simp [Fmt.dec_of_isNaN hx, hx, hix, isZeroInf]
  by_cases hy : f.isNaN y = true
  · have hiy : ¬ isInf f y := fun h => by simp [Fmt.isNaN_of_isInf h] at hy
    simp [Fmt.dec_of_isNaN hy, hy, hiy, isZeroInf]
  rw [Bool.not_eq_true] at hx hy
  rcases Fmt.number_cases hx with ⟨hix, hdx⟩ | ⟨hix, m, e, hdx, hvx⟩ <;> rcases Fmt.number_cases hy with ⟨hiy, hdy⟩ | ⟨hiy, m', e', hdy, hvy⟩
  · simp [hix, hiy, hdx, hdy, isZeroInf]
  · rw [hvy, signed_mul_eq_zero]
    cases m' <;> simp [hix, hiy, hdx, hdy, hy, isZeroInf]
  · rw [hvx, signed_mul_eq_zero]
    cases m <;> simp [hix, hiy, hdx, hdy, hx, isZeroInf]
  · simp [hix, hiy, hdx, hdy, isZeroInf]

theorem Fmt.fma_eq (f : Fmt) (v : FpEnv) (x y z : Nat) : f.fma v x y z = f.nanElse [f.flush v.ftz x, f.flush v.ftz y, f.flush v.ftz z]
    (isZeroInf (f.dec (f.flush v.ftz x)) (f.dec (f.flush v.ftz y)))
    (f.fmaFin v (mulFp (f.dec (f.flush v.ftz x)) (f.dec (f.flush v.ftz y))) (f.dec (f.flush v.ftz z))) := rfl

/-- x × y + z for operands that are not NaN (R128). -/
def fmaNumbers (f : Fmt) (v : FpEnv) (x y z r : Nat) (fl : Fl) : Prop :=
  (zeroTimesInf f x y → r = f.origin v ∧ fl = flNV) ∧
  (¬ zeroTimesInf f x y → (isInf f x ∨ isInf f y) → isInf f z → (f.sign x ^^ f.sign y) ≠ f.sign z → r = f.origin v ∧ fl = flNV) ∧
  (¬ zeroTimesInf f x y → (isInf f x ∨ isInf f y) → (isInf f z → (f.sign x ^^ f.sign y) = f.sign z) → r = f.inf (f.sign x ^^ f.sign y) ∧ fl = 0) ∧
  (¬ isInf f x → ¬ isInf f y → isInf f z → r = f.inf (f.sign z) ∧ fl = 0) ∧
  (¬ isInf f x → ¬ isInf f y → ¬ isInf f z →
    SumOf f v (fpValue f x * fpValue f y) (fpValue f z) (f.sign x ^^ f.sign y) (f.sign z) r fl)

theorem Fmt.fmaFin_numbers {f : Fmt} (v : FpEnv) {x y z : Nat} (hx : f.isNaN x = false) (hy : f.isNaN y = false) (hz : f.isNaN z = false) :
    fmaNumbers f v x y z (f.fmaFin v (mulFp (f.dec x) (f.dec y)) (f.dec z)).1 (f.fmaFin v (mulFp (f.dec x) (f.dec y)) (f.dec z)).2 := by
  rcases mulFp_cases hx hy with ⟨h0, hp⟩ | ⟨h0, hi, hp⟩ | ⟨h0, hix, hiy, m, e, hp, hval⟩ <;> rw [hp]
  · have hni : ¬ isInf f x → ¬ isInf f y → False := fun hx hy => by rcases h0 with ⟨h, -⟩ | ⟨h, -⟩ <;> contradiction
    exact ⟨fun _ => ⟨rfl, rfl⟩, fun h => absurd h0 h, fun h => absurd h0 h, fun hx hy => (hni hx hy).elim, fun hx hy => (hni hx hy).elim⟩
  · refine ⟨fun h => absurd h h0, fun _ _ hiz hs => ?_, fun _ _ hs => ?_, fun hx hy => (hi.elim hx hy).elim, fun hx hy => (hi.elim hx hy).elim⟩
    · simp [Fmt.fmaFin, Fmt.dec_of_isInf hiz, Fmt.addFp, hs]
    · rcases Fmt.number_cases hz with ⟨hiz, hdz⟩ | ⟨hiz, m', e', hdz, -⟩
      · simp [Fmt.fmaFin, hdz, Fmt.addFp, hs hiz]
      · simp [Fmt.fmaFin, hdz, Fmt.addFp]
  · refine ⟨fun h => absurd h h0, fun _ hi => (hi.elim hix hiy).elim, fun _ hi => (hi.elim hix hiy).elim, fun _ _ hiz => ?_, fun _ _ hiz => ?_⟩
    · rw [Fmt.dec_of_isInf hiz]
      exact ⟨rfl, rfl⟩
    · obtain ⟨m', e', hdz, hvz⟩ := Fmt.dec_of_finite hz hiz
      rw [hdz, hval, hvz]
      exact f.addFin_sumOf ..

theorem fpMeets_fma : FpMeets (fun f v x y z => f.fma v x y z) ffmaRule := by
  intro f v x y z hf hv hx hy hz
  simp only [Fmt.fma_eq]
  refine Fmt.nanElse_spec (numbers := fmaNumbers f v _ _ _) hf (Fmt.forall_flush_lt hf v.ftz (xs := [x, y, z]) (by simp [hx, hy, hz]))
    (isZeroInf_iff f _ _) fun hn => ?_
  obtain ⟨hnx, hny, hnz⟩ := not_anyNaN_triple.mp hn
  exact ⟨Fmt.fmaFin_numbers v hnx hny hnz, Fmt.fmaFin_lt hf hv _ _⟩

/-- Settles O10: each operation looks for a NaN first; of numbers, an exact sum or product is rounded once. -/
theorem floatArithmeticComputes : Obligations.FloatArithmeticComputes :=
  ⟨computes_fp (fun _ _ _ => rfl) (fun _ _ => Instr.wfA_of_wf) rfl fpMeets_add,
   computes_fp (fun _ _ _ => rfl) (fun _ _ => Instr.wfA_of_wf) rfl fpMeets_sub,
   computes_fp (fun _ _ _ => rfl) (fun _ _ => Instr.wfA_of_wf) rfl fpMeets_mul,
   computes_fp (fun _ _ _ => rfl) (fun _ _ => Instr.wfA_of_wf) rfl fpMeets_fma⟩

end Sys2Proof.Machine

/-! The order, the sign and the class of FP values (R129 to R132), and the special operands of the approximated functions (R134). -/

namespace Sys2Proof.Machine

open Sys2Proof.Safety

-- Sign and magnitude

/-- A code is its sign bit and its magnitude. -/
theorem Fmt.code_eq {f : Fmt} (hf : f = fmt32 ∨ f = fmt16 ∨ f = fmtB16) {x : Nat} (hx : x < 2 ^ f.w) : x = f.signBit (f.sign x) + x % 2 ^ (f.w - 1) := by
  unfold Fmt.signBit Fmt.sign
  rcases hf with rfl | rfl | rfl <;> simp only [fmt32, fmt16, fmtB16, beq_iff_eq] at hx ⊢ <;> split <;> omega

theorem Fmt.key_eq (f : Fmt) (x : Nat) :
    f.key x = if f.sign x then -((x % 2 ^ (f.w - 1) : Nat) : Int) - 1 else (x % 2 ^ (f.w - 1) : Nat) := by
  unfold Fmt.key
  push_cast
  rfl

theorem below_iff {f : Fmt} (hf : f = fmt32 ∨ f = fmt16 ∨ f = fmtB16) {x y : Nat} (hx : x < 2 ^ f.w) (hy : y < 2 ^ f.w) :
    below f x y ↔ f.key x ≤ f.key y := by
  have hcx := Fmt.code_eq hf hx
  have hcy := Fmt.code_eq hf hy
  rw [f.key_eq, f.key_eq]
  unfold below
  generalize x % 2 ^ (f.w - 1) = a at *
  generalize y % 2 ^ (f.w - 1) = b at *
  generalize f.sign x = s at *
  generalize f.sign y = s' at *
  cases s <;> cases s' <;> simp only [Fmt.signBit, Bool.false_eq_true, if_false, if_true, true_iff, false_iff] at hcx hcy ⊢ <;> omega

/-- The lesser of two values, or with `mx` the greater (R129). -/
def Fmt.pick (f : Fmt) (mx : Bool) (x y : Nat) : Nat := if decide (f.key x < f.key y) != mx then x else y

theorem Fmt.pick_cases (f : Fmt) (mx : Bool) (x y : Nat) : f.pick mx x y = x ∨ f.pick mx x y = y := by
  unfold Fmt.pick
  split
  · exact .inl rfl
  · exact .inr rfl

theorem Fmt.pick_key (f : Fmt) (mx : Bool) (x y : Nat) :
    if mx then f.key x ≤ f.key (f.pick mx x y) ∧ f.key y ≤ f.key (f.pick mx x y)
    else f.key (f.pick mx x y) ≤ f.key x ∧ f.key (f.pick mx x y) ≤ f.key y := by
  unfold Fmt.pick
  by_cases h : f.key x < f.key y <;> cases mx <;> simp [h] <;> omega

theorem Fmt.minMax_eq (f : Fmt) (v : FpEnv) (mx : Bool) (x y : Nat) : f.minMax v mx x y =
    f.nanElse [f.flush v.ftz x, f.flush v.ftz y] false (f.pick mx (f.flush v.ftz x) (f.flush v.ftz y), 0) := by
  unfold Fmt.minMax Fmt.nanElse
  dsimp only
  cases f.firstNaN [f.flush v.ftz x, f.flush v.ftz y] with
  | none => rfl
  | some r => exact congrArg (Prod.mk r) BitVec.or_zero.symm

/-- What R129 gives of numbers. -/
def minMaxNumbers (f : Fmt) (greater : Bool) (x y r : Nat) (fl : Fl) : Prop :=
  fl = 0 ∧ (r = x ∨ r = y) ∧ if greater then below f x r ∧ below f y r else below f r x ∧ below f r y

theorem fpMeets_minMax (greater : Bool) : FpMeets (fun f v x y _ => f.minMax v greater x y) (fminRule greater) := by
  intro f v x y z hf hv hx hy _
  simp only [Fmt.minMax_eq]
  have hx' := (Fmt.ieee hf).flush_lt v.ftz hx
  have hy' := (Fmt.ieee hf).flush_lt v.ftz hy
  refine Fmt.nanElse_spec (numbers := minMaxNumbers f greater _ _) hf (Fmt.forall_flush_lt hf v.ftz (xs := [x, y]) (by simp [hx, hy]))
    (iff_of_eq Bool.false_eq_true) fun _ => ?_
  generalize f.flush v.ftz x = a at *
  generalize f.flush v.ftz y = b at *
  have hr : f.pick greater a b < 2 ^ f.w := by rcases f.pick_cases greater a b with h | h <;> rwa [h]
  refine ⟨⟨rfl, f.pick_cases .., ?_⟩, hr⟩
  rw [below_iff hf hx' hr, below_iff hf hy' hr, below_iff hf hr hx', below_iff hf hr hy']
  exact f.pick_key ..

theorem Fmt.signOp_eq (f : Fmt) (v : FpEnv) (neg : Bool) (x : Nat) : f.signOp v neg x =
    f.nanElse [f.flush v.ftz x] false (if neg then flipSign f (f.flush v.ftz x) else f.flush v.ftz x % 2 ^ (f.w - 1), 0) := by
  unfold Fmt.signOp Fmt.nanElse Fmt.firstNaN
  dsimp only
  rw [List.find?_cons]
  cases f.isNaN (f.flush v.ftz x) with
  | false => rfl
  | true => exact congrArg (Prod.mk _) BitVec.or_zero.symm

theorem fpMeets_signOp {neg : Bool} {rule : FpRule} (hrule : ∀ f v x y z r fl, rule f v x y z r fl ↔ (anyNaN f [x] → NanResult f [x] False r fl) ∧
    (¬ anyNaN f [x] → fl = 0 ∧ r = if neg then flipSign f x else x % 2 ^ (f.w - 1))) : FpMeets (fun f v x _ _ => f.signOp v neg x) rule := by
  intro f v x y z hf hv hx _ _
  simp only [Fmt.signOp_eq, hrule]
  have hx' := (Fmt.ieee hf).flush_lt v.ftz hx
  refine Fmt.nanElse_spec (numbers := fun r fl => fl = 0 ∧ r = if neg then flipSign f (f.flush v.ftz x) else f.flush v.ftz x % 2 ^ (f.w - 1)) hf
    (Fmt.forall_flush_lt hf v.ftz (xs := [x]) (by simp [hx])) (iff_of_eq Bool.false_eq_true) fun _ => ⟨⟨rfl, rfl⟩, ?_⟩
  have hhalf : 2 ^ (f.w - 1) < 2 ^ f.w := by rcases hf with rfl | rfl | rfl <;> decide
  cases neg with
  | true => exact Nat.xor_lt_two_pow hx' hhalf
  | false => exact (Nat.mod_lt _ (Nat.two_pow_pos _)).trans hhalf

-- Comparison (R131) and class (R132)

/-- The integer by which the model compares: −0 and +0 are one. -/
theorem fpKey_eq (f : Fmt) (x : Nat) :
    (if f.sign x && (if x % 2 ^ (f.w - 1) = 0 then 0 else f.key x) != 0 then (if x % 2 ^ (f.w - 1) = 0 then 0 else f.key x) + 1
      else if x % 2 ^ (f.w - 1) = 0 then 0 else f.key x) = fpKey f x := by
  unfold fpKey
  rw [f.key_eq]
  generalize x % 2 ^ (f.w - 1) = a
  by_cases ha : a = 0
  · simp [ha]
  · cases f.sign x with
    | false => simp [ha]
    | true =>
      have : (-(a : Int) - 1) ≠ 0 := by omega
      simp [ha, this]

/-- R81 of two values. -/
def fpCond (f : Fmt) (c x y : Nat) : Prop :=
  match c with
  | 6 => ¬ anyNaN f [x, y]
  | 7 => anyNaN f [x, y]
  | 1 => anyNaN f [x, y] ∨ fpKey f x ≠ fpKey f y
  | c => ¬ anyNaN f [x, y] ∧ Safety.holds c (fpKey f x) (fpKey f y)

theorem anyNaN_pair {f : Fmt} {x y : Nat} : anyNaN f [x, y] ↔ (f.isNaN x || f.isNaN y) = true := by simp [anyNaN]

theorem Fmt.cmp_fst {f : Fmt} {ftz : Bool} {c : Nat} (hc : c < 8) (x y : Nat) :
    (f.cmp ftz c x y).1 = true ↔ fpCond f c (f.flush ftz x) (f.flush ftz y) := by
  unfold Fmt.cmp fpCond
  simp only [fpKey_eq, anyNaN_pair]
  generalize (f.isNaN _ || f.isNaN _) = uno
  generalize fpKey f (f.flush ftz x) = a
  generalize fpKey f (f.flush ftz y) = b
  interval_cases c <;> cases uno <;> simp [Safety.holds]

theorem Fmt.cmp_snd (f : Fmt) (ftz : Bool) (c x y : Nat) : (f.cmp ftz c x y).2 =
    if 2 ≤ c ∧ c ≤ 5 then flIf (f.isNaN (f.flush ftz x) || f.isNaN (f.flush ftz y)) flNV else f.snanFl [f.flush ftz x, f.flush ftz y] := rfl

theorem Fmt.cmp_flags {f : Fmt} {ftz : Bool} {c : Nat} (hc : c < 8) (x y : Nat) :
    let nv := if c = 0 ∨ c = 1 ∨ c = 6 ∨ c = 7 then ∃ z ∈ [f.flush ftz x, f.flush ftz y], f.isSNaN z = true else anyNaN f [f.flush ftz x, f.flush ftz y]
    (nv → (f.cmp ftz c x y).2 = flNV) ∧ (¬ nv → (f.cmp ftz c x y).2 = 0) := by
  intro nv
  have key (b : Bool) (p : Prop) (h : b = true ↔ p) : (p → flIf b flNV = flNV) ∧ (¬ p → flIf b flNV = 0) := by
    rw [← h, flIf_eq]
    exact ⟨fun hb => if_pos hb, fun hb => if_neg hb⟩
  rw [f.cmp_snd]
  by_cases hq : 2 ≤ c ∧ c ≤ 5
  · rw [if_pos hq, show nv = anyNaN f _ from if_neg (by omega)]
    exact key _ _ anyNaN_pair.symm
  · rw [if_neg hq, show nv = ∃ z ∈ _, f.isSNaN z = true from if_pos (by omega)]
    exact key _ _ List.any_eq_true

theorem ArithSpec.subOk_of_wf {sp : ArithSpec} {h : Hdr} {a : Arith} (hwf : sp.wf h a = true) : sp.subOk a.ty a.sub.toNat = true := by
  simp only [ArithSpec.wf, ArithSpec.modOk, Bool.and_eq_true] at hwf
  tauto

theorem computes_fcmp : Computes .fcmp specFcmp Untrapped fcmpRule := by
  refine Computes.intro (fun _ => 6) (fun _ => 0) (fun g _ a _ u v _ =>
      { val := bool64 ((fpShape a.ty).1.cmp g.ftz a.sub.toNat (elem (fpShape a.ty).1.w 0 u.toNat) (elem (fpShape a.ty).1.w 0 v.toNat)).1
        fl := ((fpShape a.ty).1.cmp g.ftz a.sub.toNat (elem (fpShape a.ty).1.w 0 u.toNat) (elem (fpShape a.ty).1.w 0 v.toNat)).2 })
    (fun s q g h a hi => by rw [show exec (.fcmp h a) s = execFcmp h a s from rfl, execFcmp, State.withIssue_of_issues hi]; rfl)
    (fun _ _ => Instr.wfA_of_wf) (.inr ⟨fun _ => rfl, fun _ _ _ _ _ _ => ⟨_, rfl⟩⟩)
    (.inl fun _ h => h) fun g q h a m hw => ?_
  have hc : a.sub.toNat < 8 := of_decide_eq_true (ArithSpec.subOk_of_wf hw)
  simp only [elem_eq]
  exact ⟨isBit_bool64 (Fmt.cmp_fst hc _ _), Fmt.cmp_flags hc _ _⟩

/-- The number of the bit that R132 gives a class. -/
def classBit (f : Fmt) (x : Nat) : Nat :=
  if f.expo x = f.expMax then if f.frac x = 0 then (if f.sign x then 0 else 7) else if f.frac x < 2 ^ (f.mb - 1) then 8 else 9
  else if f.expo x = 0 then if f.frac x = 0 then (if f.sign x then 3 else 4) else if f.sign x then 2 else 5
  else if f.sign x then 1 else 6

theorem Fmt.classOf_eq (f : Fmt) (x : Nat) : f.classOf x = 2 ^ classBit f x := by
  have hsub : f.isSub x = (f.expo x == 0 && f.frac x != 0) := rfl
  unfold Fmt.classOf Fmt.dec classBit
  rw [hsub]
  by_cases htop : f.expo x = f.expMax
  · by_cases hfr : f.frac x = 0
    · cases hs : f.sign x <;> simp [htop, hfr]
    · by_cases hq : f.frac x < 2 ^ (f.mb - 1) <;> simp [htop, hfr, hq]
  · by_cases hlow : f.expo x = 0
    · have h0 : 0 ≠ f.expMax := hlow ▸ htop
      by_cases hfr : f.frac x = 0 <;> cases hs : f.sign x <;> simp [h0, hlow, hfr]
    · cases hs : f.sign x <;> simp [htop, hlow]

theorem classBit_spec {f : Fmt} (h0 : f.expMax ≠ 0) (x : Nat) :
    (f.expo x = f.expMax → f.frac x = 0 → classBit f x = if f.sign x then 0 else 7) ∧
    (f.expo x = f.expMax → f.frac x ≠ 0 → classBit f x = if f.frac x < 2 ^ (f.mb - 1) then 8 else 9) ∧
    (f.expo x = 0 → f.frac x = 0 → classBit f x = if f.sign x then 3 else 4) ∧
    (f.expo x = 0 → f.frac x ≠ 0 → classBit f x = if f.sign x then 2 else 5) ∧
    (f.expo x ≠ f.expMax → f.expo x ≠ 0 → classBit f x = if f.sign x then 1 else 6) := by
  unfold classBit
  refine ⟨fun h hfr => ?_, fun h hfr => ?_, fun h hfr => ?_, fun h hfr => ?_, fun h hfr => ?_⟩
  · rw [if_pos h, if_pos hfr]
  · rw [if_pos h, if_neg hfr]
  · rw [if_neg (h ▸ h0.symm), if_pos h, if_pos hfr]
  · rw [if_neg (h ▸ h0.symm), if_pos h, if_neg hfr]
  · rw [if_neg h, if_neg hfr]

theorem computes_fclass : Computes .fclass specFclass Safety.always fclassRule := by
  refine Computes.intro (fun _ => 6) (fun _ => 0) (fun _ _ a _ u _ _ => Res.ofNat ((fpShape a.ty).1.classOf (elem (fpShape a.ty).1.w 0 u.toNat)))
    (fun s q g h a hi => by rw [show exec (.fclass h a) s = execFclass h a s from rfl, execFclass, State.withIssue_of_issues hi])
    (fun _ _ => Instr.wfA_of_wf) (.inl fun t => dstT_cases t) (.inr fun _ _ _ _ _ _ _ _ _ => BitVec.getLsbD_zero) fun g q h a m _ => ⟨rfl, ?_⟩
  simp only [elem_eq, Fmt.classOf_eq]
  exact ⟨_, rfl, classBit_spec (by rcases fpShape_mem a.ty with h | h | h <;> rw [h] <;> decide) _⟩

-- Functions of one FP32 operand

/-- A rule of the environment, the flushed operand, the result and its flags. -/
def approxRule (P : FpEnv → Nat → Nat → Fl → Prop) : LaneRule := fun g q m _ u _ _ d fl =>
  P { ftz := g.ftz, rnd := .rne, lane := m, pc := q.pc } (fmt32.flush g.ftz (u.extractLsb' 0 32).toNat) (d.truncate 32 : Word).toNat fl

/-- What one lane of an approximated function gives. -/
def approxRes (free : Word → Word) (f : FpEnv → Word → Nat → Nat × Fl) (g : Group) (q : Issue) (m : Nat) (u : Dword) : Res :=
  Res.of (f { ftz := g.ftz, rnd := .rne, lane := m, pc := q.pc } (free (BitVec.ofNat 32 (fmt32.flush g.ftz (u.toNat % 2 ^ 32))))
    (fmt32.flush g.ftz (u.toNat % 2 ^ 32)))

theorem toNat_truncate_of {r : Nat × Fl} (h : r.1 < 2 ^ 32) : ((Res.of r).val.truncate 32 : Word).toNat = r.1 := by
  rw [Res.of, BitVec.truncate_eq_setWidth, BitVec.toNat_setWidth, BitVec.toNat_ofNat, Nat.mod_mod_of_dvd _ (by decide), Nat.mod_eq_of_lt h]

theorem computes_approx {mk : Hdr → Arith → Instr} {lat : Nat} {free : Word → Word} {f : FpEnv → Word → Nat → Nat × Fl}
    {P : FpEnv → Nat → Nat → Fl → Prop} (hex : ∀ s h a, exec (mk h a) s = s.withIssue (mk h a) h fun x => x.approxOp a lat free f)
    (hwf : ∀ h a, (mk h a).wf = true → specFrcp.wf h a = true)
    (hlt : ∀ v c x, v.lane < 64 → x < 2 ^ 32 → (f v c x).1 < 2 ^ 32)
    (hP : ∀ v c x, x < 2 ^ 32 → P v x (f v c x).1 (f v c x).2) : Computes mk specFrcp Untrapped (approxRule P) := by
  refine computes_of_lanes <| Computes.intro (fun _ => lat) (fun _ => 0) (fun g q _ m u _ _ => approxRes free f g q m u)
    (fun s _ _ h a hi => exec_of_withIssue (hex s h a) hi) hwf (.inl fun t => dstT_cases t) (.inl fun _ h => h) fun g q h a m _ hm => ?_
  have hx (u : Dword) : (u.extractLsb' 0 32).toNat = u.toNat % 2 ^ 32 := (elem_eq 32 0 u).symm.trans (by simp [elem])
  have hlt32 (u : Dword) : fmt32.flush g.ftz (u.toNat % 2 ^ 32) < 2 ^ 32 := (Fmt.ieee (.inl rfl)).flush_lt _ (Nat.mod_lt _ (Nat.two_pow_pos 32))
  unfold approxRule approxRes
  rw [hx, toNat_truncate_of (hlt { ftz := g.ftz, rnd := .rne, lane := m, pc := q.pc } _ _ hm (hlt32 _))]
  exact hP _ _ _ (hlt32 _)

-- Special operands (R134)

/-- A result of the table: the NaN of R46 where it names none. -/
def specialVal (v : FpEnv) (p : Option Nat × Fl) : Nat × Fl := (p.1.getD (fmt32.origin v), p.2)

theorem fp32_zero_of_mod {x : Nat} (h : x % 2 ^ 31 = 0) : fmt32.expo x = 0 ∧ fmt32.frac x = 0 := by
  unfold Fmt.expo Fmt.frac fmt32
  dsimp only
  omega

theorem fp32_mod_eq {x : Nat} (he : fmt32.expo x = 0) (hf : fmt32.frac x = 0) : x % 2 ^ 31 = 0 := by
  unfold Fmt.expo Fmt.frac fmt32 at *
  dsimp only at he hf
  omega

theorem fp32_dec_zero {x : Nat} (h : x % 2 ^ 31 = 0) : fmt32.dec x = .fin (fmt32.sign x) 0 (-149) := by
  obtain ⟨he, hf⟩ := fp32_zero_of_mod h
  unfold Fmt.dec
  rw [he, hf]
  rfl

/-- A finite value that is not zero has a significand that is not zero. -/
theorem fp32_dec_finite {x : Nat} (h : x % 2 ^ 31 ≠ 0) (he : fmt32.expo x ≠ 255) : ∃ m e, fmt32.dec x = .fin (fmt32.sign x) (m + 1) e := by
  have hm : fmt32.expMax = 255 := by decide
  unfold Fmt.dec
  dsimp only
  rw [hm, if_neg he]
  by_cases h0 : fmt32.expo x = 0
  · obtain ⟨k, hk⟩ := Nat.exists_eq_succ_of_ne_zero fun hf => h (fp32_mod_eq h0 hf)
    exact ⟨k, _, by rw [if_pos h0, hk]⟩
  · rw [if_neg h0]
    exact ⟨2 ^ fmt32.mb - 1 + fmt32.frac x, _, by congr 1; have := Nat.two_pow_pos fmt32.mb; omega⟩

/-- What R134 says of a function's result at its special operands. -/
def KeepsTable (sp : Special) (v : FpEnv) (x r : Nat) (fl : Fl) : Prop :=
  (fmt32.isNaN x = true → NanResult fmt32 [x] False r fl) ∧
  (isInf fmt32 x → fl = (sp.inf (fmt32.sign x)).2 ∧ r = (sp.inf (fmt32.sign x)).1.getD (fmt32.origin v)) ∧
  (x % 2 ^ 31 = 0 → fl = (sp.zero (fmt32.sign x)).2 ∧ r = (sp.zero (fmt32.sign x)).1.getD (fmt32.origin v)) ∧
  ∀ p, sp.negative = some p → fmt32.sign x = true → x % 2 ^ 31 ≠ 0 → fmt32.expo x ≠ 255 → fl = p.2 ∧ r = p.1.getD (fmt32.origin v)

theorem Fmt.nanResult_single {f : Fmt} {x : Nat} (h : f.isNaN x = true) : NanResult f [x] False (f.quiet x) (flIf (!(!f.isSNaN x)) flNV) := by
  have hfind : [x].find? f.isNaN = some x := List.find?_cons_of_pos h
  have hany : f.snanFl [x] = flIf (!(!f.isSNaN x)) flNV := by simp [Fmt.snanFl]
  have hor (fl : Fl) : fl ||| flIf false flNV = fl := BitVec.or_zero
  have hres := Fmt.nanResult hfind (iff_of_eq Bool.false_eq_true)
  rwa [hany, hor] at hres

/-- A function that goes by what its operand denotes keeps the table when it does so for each kind of operand. -/
theorem keepsTable_of_dec {sp : Special} {f : FpEnv → Word → Nat → Nat × Fl}
    (hnan : ∀ v c x q, fmt32.dec x = .nan q → f v c x = (fmt32.quiet x, flIf (!q) flNV))
    (hinf : ∀ v c x s, fmt32.dec x = .inf s → f v c x = specialVal v (sp.inf s))
    (hzero : ∀ v c x s e, fmt32.dec x = .fin s 0 e → f v c x = specialVal v (sp.zero s))
    (hneg : ∀ p, sp.negative = some p → ∀ v c x m e, fmt32.dec x = .fin true (m + 1) e → f v c x = specialVal v p) (v : FpEnv) (c : Word) (x : Nat) :
    KeepsTable sp v x (f v c x).1 (f v c x).2 := by
  refine ⟨fun h => ?_, fun h => ?_, fun h => ?_, fun p hp hs h0 he => ?_⟩
  · rw [hnan v c x _ (Fmt.dec_of_isNaN h)]
    exact Fmt.nanResult_single h
  · rw [hinf v c x _ (Fmt.dec_of_isInf h)]
    exact ⟨rfl, rfl⟩
  · rw [hzero v c x _ _ (fp32_dec_zero h)]
    exact ⟨rfl, rfl⟩
  · obtain ⟨m, e, hdec⟩ := fp32_dec_finite h0 he
    rw [hneg p hp v c x m e (hs ▸ hdec)]
    exact ⟨rfl, rfl⟩

theorem fp32_inf (s : Bool) : fmt32.inf s = if s then minusInf else plusInf := by cases s <;> decide

theorem fp32_signBit (s : Bool) : fmt32.signBit s = if s then minusZero else 0 := by cases s <;> decide

section
variable (v : FpEnv) (c : Word) (x : Nat)

theorem frcp_special : KeepsTable frcpSpecial v x (frcpVal v c x).1 (frcpVal v c x).2 := by
  refine keepsTable_of_dec (fun v c x q h => ?_) (fun v c x s h => ?_) (fun v c x s e h => ?_) (fun p hp => absurd hp (by simp [frcpSpecial])) v c x
  · rw [frcpVal, h]
  · rw [frcpVal, h]
    cases s <;> simp [specialVal, frcpSpecial, fp32_signBit]
  · rw [frcpVal, h]
    cases s <;> simp [specialVal, frcpSpecial, fp32_inf]

theorem frsq_special : KeepsTable frsqSpecial v x (frsqVal v c x).1 (frsqVal v c x).2 := by
  refine keepsTable_of_dec (fun v c x q h => ?_) (fun v c x s h => ?_) (fun v c x s e h => ?_) (fun p hp v c x m e h => ?_) v c x
  · rw [frsqVal, h]
  · rw [frsqVal, h]
    cases s <;> simp [specialVal, frsqSpecial, invalid]
  · rw [frsqVal, h]
    cases s <;> simp [specialVal, frsqSpecial, invalid, fp32_inf]
  · rw [frsqVal, h, ← Option.some.inj hp]
    rfl

theorem fex2_special : KeepsTable fex2Special v x (fex2Val v c x).1 (fex2Val v c x).2 := by
  refine keepsTable_of_dec (fun v c x q h => ?_) (fun v c x s h => ?_) (fun v c x s e h => ?_) (fun p hp => absurd hp (by simp [fex2Special])) v c x
  · rw [fex2Val, h]
  · rw [fex2Val, h]
    cases s <;> simp [specialVal, fex2Special, fp32_inf]
  · rw [fex2Val, h]
    simp [specialVal, fex2Special, plusOne]

theorem flg2_special : KeepsTable flg2Special v x (flg2Val v c x).1 (flg2Val v c x).2 := by
  refine keepsTable_of_dec (fun v c x q h => ?_) (fun v c x s h => ?_) (fun v c x s e h => ?_) (fun p hp v c x m e h => ?_) v c x
  · rw [flg2Val, h]
  · rw [flg2Val, h]
    cases s <;> simp [specialVal, flg2Special, invalid, fp32_inf]
  · rw [flg2Val, h]
    simp [specialVal, flg2Special, invalid, fp32_inf]
  · rw [flg2Val, h, ← Option.some.inj hp]
    rfl

theorem fsin_special : KeepsTable fsinSpecial v x (trigVal false v c x).1 (trigVal false v c x).2 := by
  refine keepsTable_of_dec (f := trigVal false) (fun v c x q h => ?_) (fun v c x s h => ?_) (fun v c x s e h => ?_) (fun p hp => absurd hp (by simp [fsinSpecial])) v c x
  · rw [trigVal, h]
  · rw [trigVal, h]
    simp [specialVal, fsinSpecial, invalid]
  · rw [trigVal, h]
    cases s <;> simp [specialVal, fsinSpecial, invalid, fp32_signBit]

theorem fcos_special : KeepsTable fcosSpecial v x (trigVal true v c x).1 (trigVal true v c x).2 := by
  refine keepsTable_of_dec (f := trigVal true) (fun v c x q h => ?_) (fun v c x s h => ?_) (fun v c x s e h => ?_) (fun p hp => absurd hp (by simp [fcosSpecial])) v c x
  · rw [trigVal, h]
  · rw [trigVal, h]
    simp [specialVal, fcosSpecial, invalid, plusOne]
  · rw [trigVal, h]
    simp [specialVal, fcosSpecial, invalid, plusOne]

end

-- The width of the results

section
variable {v : FpEnv} (hv : v.lane < 64) (c : Word) {x : Nat} (hx : x < 2 ^ 32)

theorem fp32_ieee : fmt32.Ieee := Fmt.ieee (.inl rfl)

theorem approx_lt (ftz : Bool) (cand : Word) (neg : Bool) (n : Nat) (e : Int) (keeps : Nat → Bool) : (approx ftz cand neg n e keeps).1 < 2 ^ 32 := by
  unfold approx
  refine fp32_ieee.flush_lt ftz ?_
  split
  · exact cand.isLt
  · exact fp32_ieee.round_lt ..

theorem exactPow_lt (ftz neg : Bool) (k : Int) : (exactPow ftz neg k).1 < 2 ^ 32 := fp32_ieee.round_lt ..

include hx

theorem frcpVal_lt : (frcpVal v c x).1 < 2 ^ 32 := by
  unfold frcpVal
  split
  · exact Fmt.quiet_lt (.inl rfl) hx
  · exact fp32_ieee.signBit_add_lt _ (Nat.two_pow_pos _)
  · exact fp32_ieee.inf_lt _
  · split
    · exact exactPow_lt ..
    · exact approx_lt ..

theorem fex2Val_lt : (fex2Val v c x).1 < 2 ^ 32 := by
  unfold fex2Val
  split
  · exact Fmt.quiet_lt (.inl rfl) hx
  · exact fp32_ieee.inf_lt _
  · exact Nat.two_pow_pos _
  · decide
  · split
    · split
      · exact approx_lt ..
      · exact fp32_ieee.inf_lt _
    · dsimp only
      split
      · exact exactPow_lt ..
      · exact approx_lt ..

include hv

theorem frsqVal_lt : (frsqVal v c x).1 < 2 ^ 32 := by
  unfold frsqVal
  split
  · exact Fmt.quiet_lt (.inl rfl) hx
  · exact Nat.two_pow_pos _
  · exact Fmt.origin_lt (.inl rfl) hv
  · exact fp32_ieee.inf_lt _
  · exact Fmt.origin_lt (.inl rfl) hv
  · dsimp only
    split
    · exact exactPow_lt ..
    · exact approx_lt ..

theorem flg2Val_lt : (flg2Val v c x).1 < 2 ^ 32 := by
  unfold flg2Val
  split
  · exact Fmt.quiet_lt (.inl rfl) hx
  · exact fp32_ieee.inf_lt _
  · exact Fmt.origin_lt (.inl rfl) hv
  · exact fp32_ieee.inf_lt _
  · exact Fmt.origin_lt (.inl rfl) hv
  · dsimp only
    split
    · split
      · exact Nat.two_pow_pos _
      · exact fp32_ieee.round_lt ..
    · exact approx_lt ..

theorem trigVal_lt (cos : Bool) : (trigVal cos v c x).1 < 2 ^ 32 := by
  unfold trigVal
  split
  · exact Fmt.quiet_lt (.inl rfl) hx
  · exact Fmt.origin_lt (.inl rfl) hv
  · split
    · decide
    · exact fp32_ieee.signBit_add_lt _ (Nat.two_pow_pos _)
  · split
    · exact approx_lt ..
    · refine fp32_ieee.flush_lt _ ?_
      split
      · exact c.isLt
      · exact Nat.two_pow_pos _

end

-- Exact values

/-- A value that is a whole number of units of its last place is delivered as it is, unless it is flushed, and raises nothing. -/
theorem Fmt.Ieee.round_exact {f : Fmt} (hf : f.Ieee) (ftz : Bool) (rnd : Rnd) (neg : Bool) {m : Nat} {e : Int} (hm : 0 < m) {n : Nat}
    (hn : roundTo rnd neg m e ((f.binade m e : Int) + 1 - f.bias - f.mb) = (n, false)) (hsig : f.Significand n (f.binade m e))
    (hfin : n + f.binade m e * 2 ^ f.mb < f.inf false) (hflush : ftz = false ∨ 2 ^ f.mb ≤ n + f.binade m e * 2 ^ f.mb) :
    f.round ftz rnd neg m e = (f.signBit neg + (n + f.binade m e * 2 ^ f.mb), 0) := by
  have hkeep : (ftz && n + f.binade m e * 2 ^ f.mb != 0 && decide (n + f.binade m e * 2 ^ f.mb < 2 ^ f.mb)) = false := by
    rcases hflush with h | h
    · simp [h]
    · simp [h.not_gt]
  unfold Fmt.round
  simp only [hm.ne', if_false, f.unit_eq, hn]
  by_cases h0 : n = 0
  · have hj : f.binade m e = 0 := hsig.2.resolve_right (by rw [h0]; exact (Nat.two_pow_pos _).not_ge)
    simp [h0, hj, flIf]
  · simp only [h0, if_false, hsig.overflows hf h0, hsig.bits, hfin.not_ge, hkeep, Bool.and_false, Bool.false_eq_true, flIf]
    rfl

/-- A power of two with a normal exponent is delivered as it is. -/
theorem exactPow_normal (ftz neg : Bool) {k : Int} (hlo : -126 ≤ k) (hhi : k ≤ 127) :
    exactPow ftz neg k = (fmt32.signBit neg + (k + 127).toNat * 2 ^ 23, 0) := by
  have hlog : Nat.log2 1 = 0 := Nat.log2_two_pow (n := 0)
  have hbin : fmt32.binade 1 k = (k + 126).toNat := by
    unfold Fmt.binade
    rw [hlog]
    simp only [fmt32]
    omega
  have hround : roundTo .rne neg 1 k ((fmt32.binade 1 k : Int) + 1 - fmt32.bias - fmt32.mb) = (2 ^ 23, false) := by
    rw [hbin, roundTo, if_pos (by simp only [fmt32]; omega), one_mul]
    simp only [fmt32]
    congr 2
    omega
  have hcode : 2 ^ 23 + fmt32.binade 1 k * 2 ^ fmt32.mb = (k + 127).toNat * 2 ^ 23 := by
    rw [hbin]
    simp only [fmt32]
    omega
  have hinf : fmt32.inf false = 255 * 2 ^ 23 := by decide
  rw [exactPow, fp32_ieee.round_exact ftz .rne neg one_pos hround ⟨by decide, .inr (by decide)⟩ (by rw [hcode, hinf]; omega)
    (.inr (by rw [hcode]; simp only [fmt32]; omega)), hcode]

/-- `frcp` of a finite operand that is not zero. -/
theorem frcpVal_fin (v : FpEnv) (c : Word) {x : Nat} {s : Bool} {m : Nat} {e : Int} (hm : m ≠ 0) (h : fmt32.dec x = .fin s m e) :
    frcpVal v c x = if isPow2 m then exactPow v.ftz s (-((Nat.log2 m : Int) + e))
      else approx v.ftz c s (2 ^ (64 + Nat.log2 m) / m) (-e - 64 - (Nat.log2 m : Int))
        (nearRecip s m e (ulpExp (2 ^ (64 + Nat.log2 m) / m) (-e - 64 - (Nat.log2 m : Int)))) := by
  obtain ⟨k, rfl⟩ := Nat.exists_eq_succ_of_ne_zero hm
  rw [frcpVal, h]
  rfl

/-- The reciprocal of a power of two (R133). -/
theorem frcp_power (v : FpEnv) (c : Word) {x : Nat} (hf : fmt32.frac x = 0) (hlo : 1 ≤ fmt32.expo x) (hhi : fmt32.expo x ≤ 253) :
    frcpVal v c x = (fmt32.signBit (fmt32.sign x) + (254 - fmt32.expo x) * 2 ^ 23, 0) := by
  have hmax : fmt32.expMax = 255 := by decide
  have hdec : fmt32.dec x = .fin (fmt32.sign x) (2 ^ 23) ((fmt32.expo x : Int) - 150) := by
    unfold Fmt.dec
    simp only [hmax]
    rw [if_neg (by omega), if_neg (by omega), hf]
    simp only [fmt32]
    congr 1
    omega
  have hpow : isPow2 (2 ^ 23) = true := by rw [isPow2, Nat.log2_two_pow]; rfl
  rw [frcpVal_fin v c (by decide) hdec, if_pos hpow, Nat.log2_two_pow, exactPow_normal _ _ (by omega) (by omega)]
  congr 3
  omega

/-- Settles O11: each goes by what its operand denotes, NaN first; the order of sign and magnitude is that of the codes. -/
theorem floatOrderAndSpecialOperands : Obligations.FloatOrderAndSpecialOperands := by
  refine ⟨⟨?fmin, ?fmax, ?fabs, ?fneg, computes_fcmp, computes_fclass⟩, ?frcp, ?frsq, ?fex2, ?flg2, ?fsin, ?fcos⟩
  case fmin => exact computes_fp (fun _ _ _ => rfl) (fun _ _ => Instr.wfA_of_wf) rfl (fpMeets_minMax false)
  case fmax => exact computes_fp (fun _ _ _ => rfl) (fun _ _ => Instr.wfA_of_wf) rfl (fpMeets_minMax true)
  case fabs => exact computes_fp (fun _ _ _ => rfl) (fun _ _ => Instr.wfA_of_wf) rfl (fpMeets_signOp (neg := false) fun _ _ _ _ _ _ _ => Iff.rfl)
  case fneg => exact computes_fp (fun _ _ _ => rfl) (fun _ _ => Instr.wfA_of_wf) rfl (fpMeets_signOp (neg := true) fun _ _ _ _ _ _ _ => Iff.rfl)
  case frcp =>
    exact computes_approx (P := fun v x r fl => KeepsTable frcpSpecial v x r fl ∧ (fmt32.frac x = 0 → 1 ≤ fmt32.expo x → fmt32.expo x ≤ 253 →
        r = fmt32.signBit (fmt32.sign x) + (254 - fmt32.expo x) * 2 ^ 23 ∧ fl = 0))
      (fun _ _ _ => rfl) (fun _ _ => Instr.wfA_of_wf) (fun _ c _ _ hx => frcpVal_lt c hx) fun v c x _ =>
        ⟨frcp_special v c x, fun hf hlo hhi => by rw [frcp_power v c hf hlo hhi]; exact ⟨rfl, rfl⟩⟩
  case frsq =>
    exact computes_approx (fun _ _ _ => rfl) (fun _ _ => Instr.wfA_of_wf) (fun _ c _ hv hx => frsqVal_lt hv c hx) fun v c x _ => frsq_special v c x
  case fex2 =>
    exact computes_approx (fun _ _ _ => rfl) (fun _ _ => Instr.wfA_of_wf) (fun _ c _ _ hx => fex2Val_lt c hx) fun v c x _ => fex2_special v c x
  case flg2 =>
    exact computes_approx (fun _ _ _ => rfl) (fun _ _ => Instr.wfA_of_wf) (fun _ c _ hv hx => flg2Val_lt hv c hx) fun v c x _ => flg2_special v c x
  case fsin =>
    exact computes_approx (fun _ _ _ => rfl) (fun _ _ => Instr.wfA_of_wf) (fun _ c _ hv hx => trigVal_lt hv c hx false) fun v c x _ => fsin_special v c x
  case fcos =>
    exact computes_approx (fun _ _ _ => rfl) (fun _ _ => Instr.wfA_of_wf) (fun _ c _ hv hx => trigVal_lt hv c hx true) fun v c x _ => fcos_special v c x

end Sys2Proof.Machine

/-! Approximated functions (R133): values of FP32 codes, what rounding to the nearest and the checks of a candidate leave of an error. -/

namespace Sys2Proof.Machine

open Sys2Proof.Safety

-- FP32 codes

/-- The value of an FP32 code, as a real number. -/
abbrev fp32Val (r : Nat) : ℝ := ((fpValue fmt32 r : ℚ) : ℝ)

/-- The sign of a value. -/
def signOf (neg : Bool) : ℝ := if neg then -1 else 1

theorem abs_signOf (neg : Bool) : |signOf neg| = 1 := by cases neg <;> simp [signOf]

theorem signOf_mul_self (neg : Bool) : signOf neg * signOf neg = 1 := by cases neg <;> simp [signOf]

theorem abs_signOf_mul (neg : Bool) (x : ℝ) : |signOf neg * x| = |x| := by rw [abs_mul, abs_signOf, one_mul]

theorem abs_signOf_mul_sub (neg : Bool) (x y : ℝ) : |signOf neg * x - signOf neg * y| = |x - y| := by rw [← mul_sub, abs_signOf_mul]

theorem cast_sign (neg : Bool) : (((if neg then -1 else 1 : ℚ)) : ℝ) = signOf neg := by cases neg <;> simp [signOf]

theorem cast_value (neg : Bool) (m : Nat) (e : Int) : ((Fp.value (.fin neg m e) : ℚ) : ℝ) = signOf neg * (m * (2 : ℝ) ^ e) := by
  rw [Fp.value, mul_assoc, Rat.cast_mul, cast_sign]
  push_cast
  rfl

theorem fp32_inf_false : fmt32.inf false = 255 * 2 ^ 23 := by decide

theorem fp32_fields (neg : Bool) {k : Nat} (hk : k < 2 ^ 31) :
    fmt32.sign (fmt32.signBit neg + k) = neg ∧ fmt32.expo (fmt32.signBit neg + k) = k / 2 ^ 23 ∧ fmt32.frac (fmt32.signBit neg + k) = k % 2 ^ 23 := by
  unfold Fmt.sign Fmt.expo Fmt.frac Fmt.signBit
  cases neg <;> simp only [fmt32, Bool.false_eq_true, if_false, if_true, beq_iff_eq, beq_eq_false_iff_ne] <;> omega

/-- The fields and the value of a finite code. -/
theorem fp32_code (neg : Bool) {k : Nat} (hk : k < fmt32.inf false) :
    fmt32.expo (fmt32.signBit neg + k) ≠ 255 ∧ fp32Val (fmt32.signBit neg + k) = signOf neg * ((codeValue fmt32 k : ℚ) : ℝ) := by
  rw [fp32_inf_false] at hk
  obtain ⟨hs, he, hf⟩ := fp32_fields neg (hk.trans (by decide))
  have hmax : fmt32.expMax = 255 := by decide
  have hne : k / 2 ^ 23 ≠ 255 := by omega
  have hval : fpValue fmt32 (fmt32.signBit neg + k) = (if neg then -1 else 1) * codeValue fmt32 k := by
    unfold fpValue Fmt.dec codeValue
    simp only [hs, he, hf, hmax, hne, if_false, show fmt32.mb = 23 from rfl]
    split
    next h => rw [Fp.value, mul_assoc, Nat.mod_eq_of_lt (by omega)]
    next => rw [Fp.value, mul_assoc]
  refine ⟨he ▸ hne, ?_⟩
  rw [fp32Val, hval, Rat.cast_mul, cast_sign]

theorem fp32_inf_fields (neg : Bool) :
    fmt32.expo (fmt32.inf neg) = 255 ∧ fmt32.frac (fmt32.inf neg) = 0 ∧ fmt32.sign (fmt32.inf neg) = neg := by
  cases neg <;> decide

/-- A finite operand that is not zero: its significand and exponent. -/
theorem fp32_operand {x : Nat} (he : fmt32.expo x ≠ 255) (h0 : x % 2 ^ 31 ≠ 0) :
    ∃ m e, fmt32.dec x = .fin (fmt32.sign x) m e ∧ 0 < m ∧ m < 2 ^ 24 ∧ -149 ≤ e ∧ e ≤ 104 ∧ fp32Val x = signOf (fmt32.sign x) * (m * (2 : ℝ) ^ e) := by
  have hmax : fmt32.expMax = 255 := by decide
  have hlt : fmt32.expo x < 256 := Nat.mod_lt _ (by decide)
  have hfr : fmt32.frac x < 2 ^ 23 := Nat.mod_lt _ (by decide)
  suffices h : ∃ m e, fmt32.dec x = .fin (fmt32.sign x) m e ∧ 0 < m ∧ m < 2 ^ 24 ∧ -149 ≤ e ∧ e ≤ 104 by
    obtain ⟨m, e, hdec, h1, h2, h3, h4⟩ := h
    refine ⟨m, e, hdec, h1, h2, h3, h4, ?_⟩
    rw [fp32Val, fpValue, hdec, cast_value]
  unfold Fmt.dec
  simp only [hmax, he, if_false]
  by_cases hz : fmt32.expo x = 0
  · rw [if_pos hz]
    exact ⟨_, _, rfl, Nat.pos_of_ne_zero fun hf => h0 (fp32_mod_eq hz hf), by omega, by decide, by decide⟩
  · rw [if_neg hz]
    exact ⟨_, _, rfl, by simp only [fmt32]; omega, by simp only [fmt32] at hfr ⊢; omega, by simp only [fmt32] at hz ⊢; omega,
      by simp only [fmt32] at he hlt ⊢; omega⟩

theorem fp32_subnormal {r : Nat} (h : fmt32.expo r = 0) : |fp32Val r| < (2 : ℝ) ^ (-126 : ℤ) := by
  have hfr : (fmt32.frac r : ℝ) < 2 ^ 23 := by exact_mod_cast Nat.mod_lt r (Nat.two_pow_pos 23)
  have hval : fp32Val r = signOf (fmt32.sign r) * (fmt32.frac r * (2 : ℝ) ^ (-149 : ℤ)) := by
    unfold fp32Val fpValue Fmt.dec
    simp only [h, show (0 : Nat) ≠ fmt32.expMax by decide, if_false, if_true, cast_value]
    rfl
  rw [hval, abs_signOf_mul, abs_of_nonneg (by positivity), show (-126 : ℤ) = 23 + -149 by norm_num, zpow_add₀ two_ne_zero]
  exact mul_lt_mul_of_pos_right (by exact_mod_cast hfr) (by positivity)

theorem fp32_zero (neg : Bool) : fp32Val (fmt32.signBit neg) = 0 ∧ fmt32.expo (fmt32.signBit neg) = 0 := by
  obtain ⟨-, he, -⟩ := fp32_fields neg (k := 0) (by decide)
  have h := (fp32_code neg (k := 0) (by decide)).2
  simp only [Nat.add_zero] at he h
  refine ⟨h.trans ?_, he⟩
  simp [codeValue]

-- The flush of a result (R41)

theorem fp32_flush_cases (ftz : Bool) (r : Nat) :
    fmt32.flush ftz r = r ∨ (ftz = true ∧ fmt32.expo r = 0 ∧ fmt32.expo (fmt32.flush ftz r) = 0 ∧ fp32Val (fmt32.flush ftz r) = 0) := by
  unfold Fmt.flush
  split
  next h =>
    obtain ⟨hz, he⟩ := fp32_zero (fmt32.sign r)
    simp only [Bool.and_eq_true, Fmt.isSub, beq_iff_eq] at h
    exact .inr ⟨h.1, h.2.1, he, hz⟩
  next => exact .inl rfl

theorem fp32_flush_eq {ftz : Bool} {r : Nat} (h : ftz = false ∨ fmt32.expo (fmt32.flush ftz r) ≠ 0) : fmt32.flush ftz r = r := by
  rcases fp32_flush_cases ftz r with hr | ⟨hf, -, he, -⟩
  · exact hr
  · rcases h with h | h
    · rw [h] at hf; cases hf
    · exact absurd he h

theorem fp32_flush_normal (ftz : Bool) {r : Nat} (h : fmt32.expo r ≠ 0) : fmt32.flush ftz r = r := by
  rcases fp32_flush_cases ftz r with hr | ⟨-, he, -⟩
  · exact hr
  · exact absurd he h

/-- A flush moves a result by less than the least normal number. -/
theorem fp32_flush_near (ftz : Bool) {r : Nat} (hr : fmt32.expo r ≠ 255) :
    fmt32.expo (fmt32.flush ftz r) ≠ 255 ∧ |fp32Val (fmt32.flush ftz r) - fp32Val r| ≤ (2 : ℝ) ^ (-126 : ℤ) := by
  rcases fp32_flush_cases ftz r with h | ⟨-, he, he', hv⟩
  · rw [h, sub_self, abs_zero]
    exact ⟨hr, by positivity⟩
  · rw [he', hv, zero_sub, abs_neg]
    exact ⟨by decide, (fp32_subnormal he).le⟩

-- Rounding to the nearest

/-- The exponent of the unit in the last place of a value. -/
def unitExp (m : Nat) (e : Int) : Int := max ((Nat.log2 m : Int) + e) (-126) - 23

theorem RoundedAt.near {neg : Bool} {x : ℚ} {n : Nat} {p : Nat × Bool} (h : RoundedAt .rne neg x n p) : |(p.1 : ℚ) - x| ≤ 1 / 2 := by
  have hlo := h.lower
  have hhi := h.upper
  by_cases hu : roundsUp .rne neg n (n + 1) x (n % 2 = 1)
  · have hn := h.up hu
    have : (2 * n + 1 : ℚ) ≤ 2 * x := by rcases hu with h | ⟨h, -⟩ <;> linarith
    rw [hn, abs_le]
    push_cast
    constructor <;> linarith
  · have hn := h.down hu
    have : 2 * x ≤ 2 * n + 1 := by
      by_contra hlt
      exact hu (.inl (by linarith))
    rw [hn, abs_le]
    constructor <;> linarith

/-- A significand that reaches the code of infinity stands for a value within half a unit of 2^128, or above. -/
theorem fp32_overflow_le {n p j : Nat} {X : ℚ} (hover : fmt32.inf false ≤ p + j * 2 ^ fmt32.mb) (hsig : fmt32.Significand p j)
    (hlead : j = 0 ∨ 2 ^ fmt32.mb ≤ n) (hlo : (n : ℚ) ≤ X) (hnear : |(p : ℚ) - X| ≤ 1 / 2) :
    (2 : ℚ) ^ (128 : ℤ) - 2 ^ (103 : ℤ) ≤ X * fmt32.ulp j := by
  have hp := hsig.1
  rw [fp32_inf_false] at hover
  simp only [fmt32] at hover hp hlead
  by_cases hj : 254 ≤ j
  · have hn : (2 ^ 23 : ℚ) ≤ n := by exact_mod_cast hlead.resolve_left (by omega)
    have hulp : (2 : ℚ) ^ (105 : ℤ) ≤ fmt32.ulp j := zpow_le_zpow_right₀ one_le_two (by simp only [fmt32]; omega)
    calc (2 : ℚ) ^ (128 : ℤ) - 2 ^ (103 : ℤ) ≤ 2 ^ 23 * 2 ^ (105 : ℤ) := by norm_num
      _ ≤ X * fmt32.ulp j := mul_le_mul (hn.trans hlo) hulp (by positivity) (by linarith [show (0 : ℚ) ≤ 2 ^ 23 by norm_num])
  · obtain rfl : j = 253 := by omega
    have hX : (2 ^ 24 : ℚ) - 1 / 2 ≤ X := by
      have h24 : ((2 ^ 24 : Nat) : ℚ) ≤ p := by exact_mod_cast (by omega : 2 ^ 24 ≤ p)
      push_cast at h24
      linarith [(abs_le.mp hnear).2]
    calc (2 : ℚ) ^ (128 : ℤ) - 2 ^ (103 : ℤ) ≤ (2 ^ 24 - 1 / 2) * 2 ^ (104 : ℤ) := by norm_num
      _ ≤ X * 2 ^ (104 : ℤ) := mul_le_mul_of_nonneg_right hX (by positivity)

/-- What rounding to the nearest gives: infinity for a value from half a unit below 2^128 on, else a number within half a unit. -/
theorem fp32_round_near (neg : Bool) {m : Nat} (hm : 0 < m) (e : Int) :
    ((fmt32.round false .rne neg m e).1 = fmt32.inf neg ∧ (2 : ℝ) ^ (128 : ℤ) - 2 ^ (103 : ℤ) ≤ m * (2 : ℝ) ^ e) ∨
    (fmt32.expo (fmt32.round false .rne neg m e).1 ≠ 255 ∧
      |fp32Val (fmt32.round false .rne neg m e).1 - signOf neg * (m * (2 : ℝ) ^ e)| ≤ (2 : ℝ) ^ (unitExp m e - 1)) := by
  obtain ⟨n, hn⟩ := roundTo_spec .rne neg m e ((fmt32.binade m e : Int) + 1 - fmt32.bias - fmt32.mb)
  obtain ⟨hlt, hlead⟩ := Fmt.significand_of_floor (f := fmt32) hm rfl hn.lower hn.upper
  have hround := Fmt.round_eq_overflow fp32_ieee hm (rnd := .rne) (neg := neg) (e := e)
  have hx : (m : ℚ) * 2 ^ e = m * 2 ^ (e - ((fmt32.binade m e : Int) + 1 - fmt32.bias - fmt32.mb)) * fmt32.ulp (fmt32.binade m e) := by
    rw [Fmt.ulp, mul_assoc, ← zpow_add₀ two_ne_zero, sub_add_cancel]
  have hunit : (fmt32.ulp (fmt32.binade m e) : ℚ) = 2 ^ (unitExp m e) := by
    rw [Fmt.ulp, ← fmt32.unit_eq]
    rfl
  generalize roundTo .rne neg m e _ = p at hn hround
  generalize (m : ℚ) * 2 ^ (e - ((fmt32.binade m e : Int) + 1 - fmt32.bias - fmt32.mb)) = X at hn hx
  have hnear := hn.near
  have hsig : fmt32.Significand p.1 (fmt32.binade m e) :=
    ⟨by rcases hn.cases with h | h <;> omega, hlead.imp_right fun h => by rcases hn.cases with h' | h' <;> omega⟩
  have hulp := fmt32.ulp_pos (fmt32.binade m e)
  have hdiff : |(p.1 : ℚ) * fmt32.ulp (fmt32.binade m e) - m * 2 ^ e| ≤ 1 / 2 * fmt32.ulp (fmt32.binade m e) := by
    rw [hx, ← sub_mul, abs_mul, abs_of_pos hulp]
    exact mul_le_mul_of_nonneg_right hnear hulp.le
  rw [hround hsig]
  by_cases hover : fmt32.inf false ≤ p.1 + fmt32.binade m e * 2 ^ fmt32.mb
  · refine .inl ⟨by rw [Fmt.overflow, if_pos hover, fmt32.inf_eq neg]; rfl, ?_⟩
    have hle : (2 : ℚ) ^ (128 : ℤ) - 2 ^ (103 : ℤ) ≤ m * 2 ^ e := hx ▸ fp32_overflow_le hover hsig hlead hn.lower hnear
    have h := (Rat.cast_le (K := ℝ)).mpr hle
    norm_num at h ⊢
    exact h
  · obtain ⟨he, hv⟩ := fp32_code neg (not_le.mp hover)
    rw [Fmt.overflow, if_neg hover]
    refine .inr ⟨he, ?_⟩
    rw [hunit] at hdiff
    have h := (Rat.cast_le (K := ℝ)).mpr hdiff
    have hhalf : (1 / 2 : ℝ) * 2 ^ unitExp m e = 2 ^ (unitExp m e - 1) := by
      rw [zpow_sub_one₀ two_ne_zero]
      ring
    push_cast at h
    rw [hhalf] at h
    rw [hv, hsig.codeValue, abs_signOf_mul_sub, hunit]
    push_cast
    exact h

-- The checks of a candidate

theorem intCast_toNat_pow {a b : Int} (h : b ≤ a) : (((2 : Nat) ^ (a - b).toNat : Nat) : ℝ) = (2 : ℝ) ^ (a - b) := by
  rw [Nat.cast_pow, Nat.cast_two, ← zpow_natCast, Int.toNat_of_nonneg (by omega)]

theorem cast_signed (neg : Bool) (n : Nat) : ((((if neg then -1 else 1 : Int)) * (n : Int) : Int) : ℝ) = signOf neg * n := by
  cases neg <;> simp [signOf]

theorem expo_ne_of_dec {c : Nat} {s : Bool} {m : Nat} {e : Int} (h : fmt32.dec c = .fin s m e) : fmt32.expo c ≠ 255 := by
  intro he
  unfold Fmt.dec at h
  simp only [show fmt32.expMax = 255 by decide, he, if_true] at h
  split at h <;> cases h

theorem fp32Val_of_dec {c : Nat} {s : Bool} {m : Nat} {e : Int} (h : fmt32.dec c = .fin s m e) : fp32Val c = signOf s * (m * (2 : ℝ) ^ e) := by
  rw [fp32Val, fpValue, h, cast_value]

/-- A candidate that passes is a number within the tolerance. -/
theorem nearFp_spec {neg : Bool} {n : Nat} {e : Int} {tol : Nat} {te : Int} {c : Nat} (h : nearFp neg n e tol te c = true) :
    fmt32.expo c ≠ 255 ∧ |fp32Val c - signOf neg * (n * (2 : ℝ) ^ e)| ≤ tol * (2 : ℝ) ^ te := by
  unfold nearFp at h
  split at h
  next s m ex hdec =>
    refine ⟨expo_ne_of_dec hdec, ?_⟩
    dsimp only at h
    obtain ⟨q, hq⟩ : ∃ q, q = min (min e ex) te := ⟨_, rfl⟩
    rw [← hq] at h
    have hp : (0 : ℝ) < 2 ^ q := by positivity
    have hscale (k : Nat) (a : Int) (ha : q ≤ a) : (k : ℝ) * 2 ^ a = ((k * 2 ^ (a - q).toNat : Nat) : ℝ) * 2 ^ q := by
      rw [Nat.cast_mul, intCast_toNat_pow ha, mul_assoc, ← zpow_add₀ two_ne_zero, sub_add_cancel]
    have hle := (Int.cast_le (R := ℝ)).mpr (Int.ofNat_le.mpr (of_decide_eq_true h))
    rw [Int.natCast_natAbs, Int.cast_abs, Int.cast_sub, cast_signed, cast_signed, Int.cast_natCast] at hle
    rw [fp32Val_of_dec hdec, hscale m ex (by omega), hscale n e (by omega), hscale tol te (by omega), ← mul_assoc, ← mul_assoc, ← sub_mul, abs_mul,
      abs_of_pos hp]
    exact mul_le_mul_of_nonneg_right hle hp.le
  next => cases h

/-- Flags of an approximated function. -/
theorem inexact_or (a b : Bool) : Inexact (flNX ||| flIf a flOF ||| flIf b flUF) := by
  unfold Inexact
  cases a <;> cases b <;> decide

/-- What `approx` delivers, after its flush: the candidate, or the value approximated, with half a unit more, rounded. -/
theorem approx_spec (ftz : Bool) (cand : Word) (neg : Bool) (n : Nat) (e : Int) (keeps : Nat → Bool) :
    Inexact (approx ftz cand neg n e keeps).2 ∧ ∃ r, (approx ftz cand neg n e keeps).1 = fmt32.flush ftz r ∧
      (keeps r = true ∨ r = (fmt32.round false .rne neg (2 * n + 1) (e - 1)).1) := by
  refine ⟨inexact_or _ _, _, rfl, ?_⟩
  split
  next h => exact .inl h
  next => exact .inr rfl

theorem log2_two_mul_add_one {n : Nat} (hn : 0 < n) : Nat.log2 (2 * n + 1) = Nat.log2 n + 1 := by
  rw [Nat.log2_eq_iff (by omega)]
  have h1 := Nat.log2_self_le hn.ne'
  have h2 := @Nat.lt_log2_self n
  rw [pow_succ] at h2 ⊢
  rw [pow_succ]
  omega

theorem unitExp_half {n : Nat} (hn : 0 < n) (e : Int) : unitExp (2 * n + 1) (e - 1) = ulpExp n e := by
  unfold unitExp ulpExp
  rw [log2_two_mul_add_one hn]
  push_cast
  congr 2
  ring

theorem two_zpow_log2_le {m : Nat} (hm : 0 < m) (e : Int) : (2 : ℝ) ^ ((Nat.log2 m : Int) + e) ≤ m * 2 ^ e := by
  rw [zpow_add₀ two_ne_zero, zpow_natCast]
  exact mul_le_mul_of_nonneg_right (by exact_mod_cast Nat.log2_self_le hm.ne') (by positivity)

theorem lt_two_zpow_log2 (m : Nat) (e : Int) : (m : ℝ) * 2 ^ e < 2 ^ ((Nat.log2 m : Int) + e + 1) := by
  rw [add_right_comm, zpow_add₀ two_ne_zero]
  exact mul_lt_mul_of_pos_right (by exact_mod_cast Nat.lt_log2_self) (by positivity)

/-- The unit that a check of a candidate uses is no more than that of any value from the value approximated on. -/
theorem ulpExp_le {n : Nat} (hn : 0 < n) {e k : Int} (h : (n : ℝ) * 2 ^ e < 2 ^ (k + 1)) : ulpExp n e ≤ max k (-126) - 23 := by
  have hlt := (zpow_lt_zpow_iff_right₀ one_lt_two).mp ((two_zpow_log2_le hn e).trans_lt h)
  unfold ulpExp
  omega

-- Errors in units of the last place

theorem signOf_mul_neg_iff {neg : Bool} {Y : ℝ} (hY : 0 < Y) : signOf neg * Y < 0 ↔ neg = true := by
  cases neg <;> simp [signOf, hY, hY.le]

theorem withinUlps_finite {u y : ℝ} {r : Nat} (hr : fmt32.expo r ≠ 255)
    (h : ∀ k : ℤ, (2 : ℝ) ^ k ≤ |y| → |y| < (2 : ℝ) ^ (k + 1) → |fp32Val r - y| ≤ u * (2 : ℝ) ^ (max k (-126) - 23)) : WithinUlps u y r :=
  ⟨fun he => absurd he hr, fun _ => h⟩

theorem withinUlps_exact {u y : ℝ} (hu : 0 ≤ u) {r : Nat} (hr : fmt32.expo r ≠ 255) (hv : fp32Val r = y) : WithinUlps u y r :=
  withinUlps_finite hr fun k _ _ => by
    rw [hv, sub_self, abs_zero]
    positivity

/-- A value approximated by `n` units of 2^e: many, and near enough to be, rounded, within one unit in the last place. -/
structure Approximated (n : Nat) (e : Int) (Y : ℝ) : Prop where
  pos : 0 < Y
  digits : 2 ^ 60 ≤ n
  binade : ∀ k : ℤ, Y < 2 ^ (k + 1) → (n : ℝ) * 2 ^ e < 2 ^ (k + 1)
  near : |(n : ℝ) * 2 ^ e - Y| ≤ 2 ^ (19 : ℤ) * 2 ^ e

theorem Approximated.unit_le {n : Nat} {e : Int} {Y : ℝ} (h : Approximated n e Y) {k : Int} (hk : Y < 2 ^ (k + 1)) : ulpExp n e ≤ max k (-126) - 23 :=
  ulpExp_le ((Nat.two_pow_pos 60).trans_le h.digits) (h.binade k hk)

theorem le_ulpExp {n : Nat} {d : Nat} (h : 2 ^ d ≤ n) (e : Int) : (d : Int) + e - 23 ≤ ulpExp n e := by
  have hlog : d ≤ Nat.log2 n := (Nat.le_log2 (by have := Nat.two_pow_pos d; omega)).mpr h
  unfold ulpExp
  omega

theorem Approximated.half_near {n : Nat} {e : Int} {Y : ℝ} (h : Approximated n e Y) :
    |((2 * n + 1 : Nat) : ℝ) * 2 ^ (e - 1) - Y| ≤ 2 ^ (20 : ℤ) * 2 ^ e := by
  have hp : (0 : ℝ) < 2 ^ e := by positivity
  have hhalf : ((2 * n + 1 : Nat) : ℝ) * 2 ^ (e - 1) = n * 2 ^ e + 2 ^ e / 2 := by
    rw [zpow_sub_one₀ two_ne_zero]
    push_cast
    ring
  rw [hhalf]
  have hnear := abs_le.mp h.near
  norm_num at hnear ⊢
  rw [abs_le]
  constructor <;> linarith

/-- The value approximated, rounded, is within one unit in the last place of the value. -/
theorem Approximated.round_within {n : Nat} {e : Int} {Y : ℝ} (h : Approximated n e Y) (neg : Bool) {u : ℝ} (hu : 1 ≤ u) :
    WithinUlps u (signOf neg * Y) (fmt32.round false .rne neg (2 * n + 1) (e - 1)).1 := by
  have hn : 0 < n := (Nat.two_pow_pos 60).trans_le h.digits
  have hhalf := h.half_near
  have hsmall (k : Int) (hk : Y < 2 ^ (k + 1)) : (2 : ℝ) ^ (20 : ℤ) * 2 ^ e ≤ 2 ^ (max k (-126) - 23 - 1) := by
    rw [← zpow_add₀ two_ne_zero]
    refine zpow_le_zpow_right₀ one_le_two ?_
    have := le_ulpExp h.digits e
    have := h.unit_le hk
    omega
  rcases fp32_round_near neg (m := 2 * n + 1) (by omega) (e - 1) with ⟨hr, hle⟩ | ⟨hr, hle⟩
  · obtain ⟨he, hf, hs⟩ := fp32_inf_fields neg
    rw [hr]
    refine ⟨fun _ => ⟨hf, by rw [hs, signOf_mul_neg_iff h.pos], ?_⟩, fun hne => absurd he hne⟩
    rw [abs_signOf_mul, abs_of_pos h.pos]
    by_cases hY : (2 : ℝ) ^ (128 : ℤ) ≤ Y
    · norm_num at hY ⊢
      linarith
    · have hs := hsmall 127 (not_le.mp hY)
      have hb := (abs_le.mp hhalf).2
      norm_num at hs hb hle ⊢
      linarith
  · refine withinUlps_finite hr fun k hlo hhi => ?_
    rw [abs_signOf_mul, abs_of_pos h.pos] at hlo hhi
    have hs := hsmall k hhi
    have hunit : (2 : ℝ) ^ (ulpExp n e - 1) ≤ 2 ^ (max k (-126) - 23 - 1) :=
      zpow_le_zpow_right₀ one_le_two (by have := h.unit_le hhi; omega)
    rw [unitExp_half hn] at hle
    have htwo : (2 : ℝ) ^ (max k (-126) - 23) = 2 * 2 ^ (max k (-126) - 23 - 1) := by
      rw [← zpow_one_add₀ two_ne_zero]
      congr 1
      ring
    calc |fp32Val (fmt32.round false .rne neg (2 * n + 1) (e - 1)).1 - signOf neg * Y|
        ≤ |fp32Val (fmt32.round false .rne neg (2 * n + 1) (e - 1)).1 - signOf neg * (((2 * n + 1 : Nat) : ℝ) * 2 ^ (e - 1))| +
          |signOf neg * (((2 * n + 1 : Nat) : ℝ) * 2 ^ (e - 1)) - signOf neg * Y| := abs_sub_le ..
      _ ≤ 2 ^ (max k (-126) - 23 - 1) + 2 ^ (max k (-126) - 23 - 1) := by
          rw [abs_signOf_mul_sub]
          exact add_le_add (hle.trans hunit) (hhalf.trans hs)
      _ = 1 * 2 ^ (max k (-126) - 23) := by rw [htwo]; ring
      _ ≤ u * 2 ^ (max k (-126) - 23) := mul_le_mul_of_nonneg_right hu (by positivity)

/-- A candidate near the value approximated is as near to the value, but for 2^-50 of a unit. -/
theorem Approximated.nearFp_within {n : Nat} {e : Int} {Y : ℝ} (h : Approximated n e Y) (hn : 2 ^ 100 ≤ n) {neg : Bool} {tol c : Nat}
    (hc : nearFp neg n e tol (ulpExp n e) c = true) : WithinUlps (tol + 1 / 2 ^ 50) (signOf neg * Y) c := by
  obtain ⟨hr, hle⟩ := nearFp_spec hc
  refine withinUlps_finite hr fun k hlo hhi => ?_
  rw [abs_signOf_mul, abs_of_pos h.pos] at hlo hhi
  have hunit : (2 : ℝ) ^ ulpExp n e ≤ 2 ^ (max k (-126) - 23) := zpow_le_zpow_right₀ one_le_two (h.unit_le hhi)
  have hsmall : (2 : ℝ) ^ (19 : ℤ) * 2 ^ e ≤ 1 / 2 ^ 50 * 2 ^ (max k (-126) - 23) := by
    rw [← zpow_add₀ two_ne_zero, one_div, ← zpow_natCast, ← zpow_neg, ← zpow_add₀ two_ne_zero]
    refine zpow_le_zpow_right₀ one_le_two ?_
    have := le_ulpExp hn e
    have := h.unit_le hhi
    omega
  calc |fp32Val c - signOf neg * Y| ≤ |fp32Val c - signOf neg * (n * 2 ^ e)| + |signOf neg * (n * 2 ^ e) - signOf neg * Y| := abs_sub_le ..
    _ ≤ tol * 2 ^ (max k (-126) - 23) + 1 / 2 ^ 50 * 2 ^ (max k (-126) - 23) := by
        rw [abs_signOf_mul_sub]
        exact add_le_add (hle.trans (mul_le_mul_of_nonneg_left hunit tol.cast_nonneg)) (h.near.trans hsmall)
    _ = (tol + 1 / 2 ^ 50) * 2 ^ (max k (-126) - 23) := by ring

end Sys2Proof.Machine

/-! Reciprocal and reciprocal square root (R133). -/

namespace Sys2Proof.Machine

open Sys2Proof.Safety

-- Exact results

theorem log2_mul_two_pow {m : Nat} (hm : 0 < m) (d : Nat) : Nat.log2 (m * 2 ^ d) = Nat.log2 m + d := by
  have h1 := Nat.log2_self_le hm.ne'
  have h2 := @Nat.lt_log2_self m
  rw [Nat.log2_eq_iff (Nat.mul_pos hm (Nat.two_pow_pos d)).ne', add_right_comm, pow_add, pow_add]
  exact ⟨Nat.mul_le_mul_right _ h1, Nat.mul_lt_mul_of_pos_right h2 (Nat.two_pow_pos d)⟩

/-- A value that FP32 has is delivered as it is, unless it is flushed, and raises nothing. -/
theorem fp32_round_exact (ftz neg : Bool) {m : Nat} {e : Int} (hm : 0 < m) (hunit : unitExp m e ≤ e) (hhi : (Nat.log2 m : Int) + e ≤ 127)
    (hflush : ftz = false ∨ -126 ≤ (Nat.log2 m : Int) + e) :
    Exact (signOf neg * (m * (2 : ℝ) ^ e)) (fmt32.round ftz .rne neg m e).1 (fmt32.round ftz .rne neg m e).2 := by
  have hq : (fmt32.binade m e : Int) + 1 - fmt32.bias - fmt32.mb = unitExp m e := (fmt32.unit_eq m e).symm
  obtain ⟨d, hd⟩ : ∃ d : Nat, e = unitExp m e + d := ⟨(e - unitExp m e).toNat, by omega⟩
  have hround : roundTo .rne neg m e ((fmt32.binade m e : Int) + 1 - fmt32.bias - fmt32.mb) = (m * 2 ^ d, false) := by
    rw [hq, roundTo, if_pos hunit, show (e - unitExp m e).toNat = d by omega]
  have hX : (m : ℚ) * 2 ^ (e - ((fmt32.binade m e : Int) + 1 - fmt32.bias - fmt32.mb)) = (m * 2 ^ d : Nat) := by
    rw [hq, show e - unitExp m e = (d : Int) by omega]
    push_cast
    rw [zpow_natCast]
  obtain ⟨hlt, hlead⟩ := Fmt.significand_of_floor (f := fmt32) hm rfl (n := m * 2 ^ d) hX.ge (by rw [hX]; exact lt_add_one _)
  have hsig : fmt32.Significand (m * 2 ^ d) (fmt32.binade m e) := ⟨hlt.le, hlead⟩
  have hpos : 0 < m * 2 ^ d := Nat.mul_pos hm (Nat.two_pow_pos d)
  have hlog := log2_mul_two_pow hm d
  have hfin : m * 2 ^ d + fmt32.binade m e * 2 ^ fmt32.mb < fmt32.inf false := by
    rw [← not_le, ← hsig.overflows fp32_ieee hpos.ne', hq, hlog]
    simp only [fmt32]
    omega
  have hnormal : ftz = false ∨ 2 ^ fmt32.mb ≤ m * 2 ^ d + fmt32.binade m e * 2 ^ fmt32.mb := hflush.imp_right fun h => by
    refine Nat.le_add_right_of_le ?_
    rw [← Nat.le_log2 hpos.ne', hlog]
    unfold unitExp at hd
    simp only [fmt32]
    omega
  rw [fp32_ieee.round_exact ftz .rne neg hm hround hsig hfin hnormal]
  obtain ⟨he, hv⟩ := fp32_code neg hfin
  refine ⟨he, ?_, rfl⟩
  show fp32Val _ = _
  have hulp : fmt32.ulp (fmt32.binade m e) = 2 ^ unitExp m e := by rw [Fmt.ulp, hq]
  rw [hv, hsig.codeValue, hulp]
  congr 1
  push_cast
  conv_rhs => rw [hd, zpow_add₀ two_ne_zero, zpow_natCast]
  ring

theorem log2_one : Nat.log2 1 = 0 := Nat.log2_two_pow (n := 0)

theorem exactPow_exact (ftz neg : Bool) {k : Int} (hlo : -149 ≤ k) (hhi : k ≤ 127) (hflush : ftz = false ∨ -126 ≤ k) :
    Exact (signOf neg * (2 : ℝ) ^ k) (exactPow ftz neg k).1 (exactPow ftz neg k).2 := by
  have h := fp32_round_exact ftz neg one_pos (e := k) (by unfold unitExp; rw [log2_one]; omega) (by rw [log2_one]; omega)
    (hflush.imp_right fun h => by rw [log2_one]; omega)
  rwa [Nat.cast_one, one_mul] at h

/-- A power of two, rounded where FP32 has it not. -/
theorem exactPow_within (ftz neg : Bool) (k : Int) {u : ℝ} (hu : 1 ≤ u) (hr : ftz = false ∨ fmt32.expo (exactPow ftz neg k).1 ≠ 0) :
    WithinUlps u (signOf neg * (2 : ℝ) ^ k) (exactPow ftz neg k).1 := by
  have hftz : (exactPow ftz neg k).1 = (exactPow false neg k).1 := by
    rcases hr with rfl | hr
    · rfl
    · exact (fmt32.round_ftz ftz .rne neg 1 k).resolve_left fun h => hr (by rw [exactPow, h]; exact (fp32_zero neg).2)
  rw [hftz, exactPow]
  have hp : (0 : ℝ) < 2 ^ k := by positivity
  have hnear := fp32_round_near neg one_pos k
  rw [Nat.cast_one, one_mul] at hnear
  rcases hnear with ⟨h, hle⟩ | ⟨h, hle⟩
  · obtain ⟨he, hf, hs⟩ := fp32_inf_fields neg
    rw [h]
    refine ⟨fun _ => ⟨hf, by rw [hs, signOf_mul_neg_iff hp], ?_⟩, fun hne => absurd he hne⟩
    rw [abs_signOf_mul, abs_of_pos hp]
    norm_num at hle ⊢
    linarith
  · refine withinUlps_finite h fun j _ hj => hle.trans ?_
    rw [abs_signOf_mul, abs_of_pos hp, zpow_lt_zpow_iff_right₀ one_lt_two] at hj
    calc (2 : ℝ) ^ (unitExp 1 k - 1) ≤ 2 ^ (max j (-126) - 23) := zpow_le_zpow_right₀ one_le_two (by unfold unitExp; rw [log2_one]; omega)
      _ ≤ u * 2 ^ (max j (-126) - 23) := le_mul_of_one_le_left (by positivity) hu

-- Powers of two among the operands

theorem isPow2_iff {m : Nat} : isPow2 m = true ↔ ∃ k, m = 2 ^ k := by
  unfold isPow2
  simp only [Bool.and_eq_true, bne_iff_ne, beq_iff_eq]
  constructor
  · exact fun h => ⟨_, h.2⟩
  · rintro ⟨k, rfl⟩
    rw [Nat.log2_two_pow]
    exact ⟨(Nat.two_pow_pos k).ne', rfl⟩

theorem isPow2_value {m : Nat} (h : isPow2 m = true) (e : Int) : (m : ℝ) * 2 ^ e = 2 ^ ((Nat.log2 m : Int) + e) := by
  obtain ⟨k, rfl⟩ := isPow2_iff.mp h
  rw [Nat.log2_two_pow, zpow_add₀ two_ne_zero, zpow_natCast]
  push_cast
  rfl

/-- A significand and exponent denote a power of two only where the significand is one. -/
theorem isPow2_of_value {m : Nat} (hm : 0 < m) {e k : Int} (h : (m : ℝ) * 2 ^ e = 2 ^ k) : isPow2 m = true ∧ k = (Nat.log2 m : Int) + e := by
  have hmk : (m : ℝ) = 2 ^ (k - e) := by rw [zpow_sub₀ two_ne_zero, ← h, mul_div_cancel_right₀ _ (by positivity)]
  have h1 : (1 : ℝ) ≤ m := by exact_mod_cast hm
  have hle : 0 ≤ k - e := by
    by_contra hlt
    have := zpow_lt_one_of_neg₀ (one_lt_two (α := ℝ)) (not_le.mp hlt)
    rw [← hmk] at this
    linarith
  obtain ⟨d, hd⟩ : ∃ d : Nat, k - e = d := ⟨_, (Int.toNat_of_nonneg hle).symm⟩
  rw [hd, zpow_natCast] at hmk
  have hm2 : m = 2 ^ d := by exact_mod_cast hmk
  refine ⟨isPow2_iff.mpr ⟨d, hm2⟩, ?_⟩
  rw [hm2, Nat.log2_two_pow]
  omega

-- The reciprocal

/-- The floor of a value in units of 2^e approximates it. -/
theorem approximated_of_floor {n : Nat} {e : Int} {Y : ℝ} (hn : 2 ^ 60 ≤ n) (hlo : (n : ℝ) * 2 ^ e ≤ Y) (hhi : Y ≤ (n + 1) * 2 ^ e) :
    Approximated n e Y := by
  have hp : (0 : ℝ) < 2 ^ e := by positivity
  have hn0 : (0 : ℝ) < n := by exact_mod_cast (Nat.two_pow_pos 60).trans_le hn
  refine ⟨(mul_pos hn0 hp).trans_le hlo, hn, fun k hk => hlo.trans_lt hk, ?_⟩
  rw [abs_le]
  norm_num
  constructor <;> linarith

theorem nearRecip_spec {neg : Bool} {m : Nat} (hm : 0 < m) {e te : Int} {c : Nat} (h : nearRecip neg m e te c = true) :
    fmt32.expo c ≠ 255 ∧ |fp32Val c - signOf neg * (1 / (m * (2 : ℝ) ^ e))| ≤ 2 ^ te := by
  unfold nearRecip at h
  split at h
  next s mc ec hdec =>
    refine ⟨expo_ne_of_dec hdec, ?_⟩
    dsimp only at h
    obtain ⟨q, hq⟩ : ∃ q, q = min (min 0 (ec + e)) (te + e) := ⟨_, rfl⟩
    rw [← hq] at h
    have hp : (0 : ℝ) < 2 ^ q := by positivity
    have hD : (0 : ℝ) < m * 2 ^ e := mul_pos (by exact_mod_cast hm) (by positivity)
    have hscale (k : Nat) (a : Int) (ha : q ≤ a) : ((k * 2 ^ (a - q).toNat : Nat) : ℝ) * 2 ^ q = k * 2 ^ a := by
      rw [Nat.cast_mul, intCast_toNat_pow ha, mul_assoc, ← zpow_add₀ two_ne_zero, sub_add_cancel]
    have hsign : (((if s = neg then 1 else -1 : Int)) : ℝ) = signOf neg * signOf s := by cases s <;> cases neg <;> simp [signOf]
    have hone : (2 : ℝ) ^ (-q).toNat * 2 ^ q = 1 := by
      rw [← zpow_natCast, Int.toNat_of_nonneg (by omega), ← zpow_add₀ two_ne_zero, neg_add_cancel, zpow_zero]
    have hle := mul_le_mul_of_nonneg_right ((Int.cast_le (R := ℝ)).mpr (Int.ofNat_le.mpr (of_decide_eq_true h))) hp.le
    rw [Int.natCast_natAbs, Int.cast_abs, Int.cast_sub, Int.cast_mul, hsign, Int.cast_natCast, Int.cast_natCast, ← abs_of_pos hp, ← abs_mul,
      abs_of_pos hp, sub_mul, mul_assoc, hscale _ _ (by omega), hscale _ _ (by omega), Int.cast_pow, Int.cast_ofNat, hone] at hle
    rw [fp32Val_of_dec hdec, ← mul_le_mul_iff_left₀ hD]
    have hval : (signOf s * (mc * 2 ^ ec) - signOf neg * (1 / (m * 2 ^ e))) * (m * 2 ^ e) =
        signOf neg * (signOf neg * signOf s * (((mc * m : Nat) : ℝ) * 2 ^ (ec + e)) - 1) := by
      rw [zpow_add₀ two_ne_zero]
      push_cast
      field_simp
      linear_combination (-signOf s * mc * m * 2 ^ ec * 2 ^ e) * signOf_mul_self neg
    calc |signOf s * (mc * 2 ^ ec) - signOf neg * (1 / (m * 2 ^ e))| * (m * 2 ^ e)
        = |signOf neg * signOf s * (((mc * m : Nat) : ℝ) * 2 ^ (ec + e)) - 1| := by rw [← abs_of_pos hD, ← abs_mul, abs_of_pos hD, hval, abs_signOf_mul]
      _ ≤ m * 2 ^ (te + e) := hle
      _ = 2 ^ te * (m * 2 ^ e) := by rw [zpow_add₀ two_ne_zero]; ring
  next => cases h

theorem recip_approximated {m : Nat} (hm : 0 < m) (e : Int) :
    Approximated (2 ^ (64 + Nat.log2 m) / m) (-e - 64 - (Nat.log2 m : Int)) (1 / (m * (2 : ℝ) ^ e)) := by
  have hD : (0 : ℝ) < m * 2 ^ e := mul_pos (by exact_mod_cast hm) (by positivity)
  have hlow : 2 ^ 60 * m ≤ 2 ^ (64 + Nat.log2 m) := by
    have h := (@Nat.lt_log2_self m).le
    calc 2 ^ 60 * m ≤ 2 ^ 60 * 2 ^ (Nat.log2 m + 1) := Nat.mul_le_mul_left _ h
      _ = 2 ^ (61 + Nat.log2 m) := by rw [← pow_add]; congr 1; omega
      _ ≤ 2 ^ (64 + Nat.log2 m) := Nat.pow_le_pow_right two_pos (by omega)
  have hdiv : 2 ^ (64 + Nat.log2 m) / m * m ≤ 2 ^ (64 + Nat.log2 m) := Nat.div_mul_le_self ..
  have hmod : 2 ^ (64 + Nat.log2 m) ≤ (2 ^ (64 + Nat.log2 m) / m + 1) * m := by
    rw [mul_comm]
    exact (Nat.lt_mul_div_succ _ hm).le
  have hunit : (2 : ℝ) ^ (-e - 64 - (Nat.log2 m : Int)) * (m * 2 ^ e) * 2 ^ (64 + Nat.log2 m) = m := by
    rw [mul_left_comm, mul_assoc, ← zpow_natCast (2 : ℝ) (64 + _), ← zpow_add₀ two_ne_zero, ← zpow_add₀ two_ne_zero]
    rw [show -e - 64 - (Nat.log2 m : Int) + e + ((64 + Nat.log2 m : Nat) : Int) = 0 by push_cast; ring, zpow_zero, mul_one]
  have hp : (0 : ℝ) < 2 ^ (64 + Nat.log2 m) := by positivity
  have hscale (k : ℝ) : k * 2 ^ (-e - 64 - (Nat.log2 m : Int)) * (m * 2 ^ e) * 2 ^ (64 + Nat.log2 m) = k * m := by
    rw [mul_assoc k, mul_assoc k, hunit]
  refine approximated_of_floor ((Nat.le_div_iff_mul_le hm).mpr hlow) ?_ ?_
  · rw [le_div_iff₀ hD, ← mul_le_mul_iff_left₀ hp, hscale, one_mul]
    exact_mod_cast hdiv
  · rw [div_le_iff₀ hD, ← mul_le_mul_iff_left₀ hp, hscale, one_mul]
    exact_mod_cast hmod

/-- `frcp` keeps its bound (R133). -/
theorem frcp_bound (v : FpEnv) (c : Word) {x : Nat} (he : fmt32.expo x ≠ 255) (h0 : x % 2 ^ 31 ≠ 0) :
    frcpBound v.ftz (fp32Val x) (frcpVal v c x).1 (frcpVal v c x).2 := by
  obtain ⟨m, e, hdec, hm, hm24, hlo, hhi, hval⟩ := fp32_operand he h0
  have hlog : Nat.log2 m < 24 := (Nat.log2_lt hm.ne').mpr hm24
  have hpos : (0 : ℝ) < m * 2 ^ e := mul_pos (by exact_mod_cast hm) (by positivity)
  have hrecip : 1 / fp32Val x = signOf (fmt32.sign x) * (1 / (m * 2 ^ e)) := by
    rw [hval]
    cases fmt32.sign x <;> simp [signOf]
  have habs : |fp32Val x| = m * 2 ^ e := by rw [hval, abs_signOf_mul, abs_of_pos hpos]
  unfold frcpBound
  rw [habs, hrecip, frcpVal_fin v c hm.ne' hdec]
  by_cases hpow : isPow2 m = true
  · have hinv : 1 / (m * (2 : ℝ) ^ e) = 2 ^ (-((Nat.log2 m : Int) + e)) := by rw [isPow2_value hpow, zpow_neg, one_div]
    rw [if_pos hpow, hinv]
    refine ⟨exactPow_within _ _ _ le_rfl, ?_, fun h => absurd ⟨_, isPow2_value hpow e⟩ h⟩
    rintro ⟨k, hk, hk1, hk2⟩
    obtain ⟨-, rfl⟩ := isPow2_of_value hm hk
    exact exactPow_exact _ _ (by omega) (by omega) (hk2.imp_right fun h => by omega)
  · rw [if_neg hpow]
    obtain ⟨hnx, r, hr, hcase⟩ := approx_spec v.ftz c (fmt32.sign x) (2 ^ (64 + Nat.log2 m) / m) (-e - 64 - (Nat.log2 m : Int))
      (nearRecip (fmt32.sign x) m e (ulpExp (2 ^ (64 + Nat.log2 m) / m) (-e - 64 - (Nat.log2 m : Int))))
    have happrox := recip_approximated hm e
    refine ⟨fun hf => ?_, fun ⟨k, hk, _⟩ => absurd (isPow2_of_value hm hk).1 hpow, fun _ => hnx⟩
    rw [hr] at hf ⊢
    rw [fp32_flush_eq hf]
    rcases hcase with hkeep | rfl
    · obtain ⟨hne, hle⟩ := nearRecip_spec hm hkeep
      refine withinUlps_finite hne fun k _ hk => hle.trans ?_
      rw [abs_signOf_mul, abs_of_pos happrox.pos] at hk
      rw [one_mul]
      exact zpow_le_zpow_right₀ one_le_two (happrox.unit_le hk)
    · exact happrox.round_within _ le_rfl

-- The reciprocal square root

theorem le_inv_sqrt_iff {t X : ℝ} (ht : 0 ≤ t) (hX : 0 < X) : t ≤ 1 / Real.sqrt X ↔ t ^ 2 * X ≤ 1 := by
  rw [le_div_iff₀ (Real.sqrt_pos.mpr hX), ← sq_le_one_iff₀ (mul_nonneg ht (Real.sqrt_nonneg X)), mul_pow, Real.sq_sqrt hX.le]

theorem inv_sqrt_le_iff {t X : ℝ} (ht : 0 ≤ t) (hX : 0 < X) : 1 / Real.sqrt X ≤ t ↔ 1 ≤ t ^ 2 * X := by
  rw [div_le_iff₀ (Real.sqrt_pos.mpr hX), ← one_le_sq_iff₀ (mul_nonneg ht (Real.sqrt_nonneg X)), mul_pow, Real.sq_sqrt hX.le]

theorem two_pow_toNat (p : Int) : (2 : ℝ) ^ p.toNat = 2 ^ p * 2 ^ (-p).toNat := by
  rw [← zpow_natCast, ← zpow_natCast, ← zpow_add₀ two_ne_zero]
  congr 1
  omega

theorem nearRoot_spec {m : Nat} (hm : 0 < m) {e te : Int} {c : Nat} (h : nearRoot m e te c = true) :
    fmt32.expo c ≠ 255 ∧ |fp32Val c - 1 / Real.sqrt (m * (2 : ℝ) ^ e)| ≤ 2 * 2 ^ te := by
  unfold nearRoot at h
  split at h
  next s mc ec hdec =>
    refine ⟨expo_ne_of_dec hdec, ?_⟩
    obtain ⟨q, hq⟩ : ∃ q, q = min ec te := ⟨_, rfl⟩
    simp only [← hq, Bool.and_eq_true, Bool.not_eq_true', decide_eq_true_eq, Bool.or_eq_true] at h
    obtain ⟨⟨rfl, hupper⟩, hlower⟩ := h
    obtain ⟨u, hu⟩ : ∃ u, u = 2 * 2 ^ (te - q).toNat := ⟨_, rfl⟩
    obtain ⟨k, hk⟩ : ∃ k, k = mc * 2 ^ (ec - q).toNat := ⟨_, rfl⟩
    rw [← hu, ← hk] at hupper hlower
    have hX : (0 : ℝ) < m * 2 ^ e := mul_pos (by exact_mod_cast hm) (by positivity)
    have hp : (0 : ℝ) < 2 ^ q := by positivity
    have hone : (0 : ℝ) < 2 ^ (-(2 * q + e)).toNat := by positivity
    have hup (x : Nat) : ((x * x * m * 2 ^ (2 * q + e).toNat : Nat) : ℝ) = (x * 2 ^ q) ^ 2 * (m * 2 ^ e) * 2 ^ (-(2 * q + e)).toNat := by
      push_cast
      rw [two_pow_toNat, zpow_add₀ two_ne_zero, two_mul q, zpow_add₀ two_ne_zero]
      ring
    have hkq : (k : ℝ) * 2 ^ q = mc * 2 ^ ec := by
      rw [hk, Nat.cast_mul, intCast_toNat_pow (by omega), mul_assoc, ← zpow_add₀ two_ne_zero, sub_add_cancel]
    have huq : (u : ℝ) * 2 ^ q = 2 * 2 ^ te := by
      rw [hu, Nat.cast_mul, intCast_toNat_pow (by omega), mul_assoc, ← zpow_add₀ two_ne_zero, sub_add_cancel, Nat.cast_two]
    have hval : fp32Val c = k * 2 ^ q := by rw [fp32Val_of_dec hdec, hkq]; simp [signOf]
    have hle : 1 / Real.sqrt (m * 2 ^ e) ≤ ((k + u : Nat) : ℝ) * 2 ^ q := by
      have h := (Nat.cast_le (α := ℝ)).mpr hupper
      rw [hup, Nat.cast_pow, Nat.cast_two] at h
      exact (inv_sqrt_le_iff (by positivity) hX).mpr (le_of_mul_le_mul_right (by rwa [one_mul]) hone)
    have hge : (k : ℝ) * 2 ^ q - u * 2 ^ q ≤ 1 / Real.sqrt (m * 2 ^ e) := by
      rw [← sub_mul]
      by_cases hku : k ≤ u
      · have h0 : (k : ℝ) - u ≤ 0 := sub_nonpos.mpr (by exact_mod_cast hku)
        exact (mul_nonpos_of_nonpos_of_nonneg h0 hp.le).trans (by positivity)
      · have h := (Nat.cast_le (α := ℝ)).mpr (hlower.resolve_left hku)
        rw [hup, Nat.cast_pow, Nat.cast_two] at h
        rw [← Nat.cast_sub (not_le.mp hku).le]
        exact (le_inv_sqrt_iff (by positivity) hX).mpr (le_of_mul_le_mul_right (by rwa [one_mul]) hone)
    rw [hval, ← huq, abs_le]
    push_cast at hle
    constructor <;> linarith
  next => cases h

/-- The significand of a value with an even exponent. -/
def evenMant (m : Nat) (e : Int) : Nat := if e % 2 = 0 then m else 2 * m

def evenExp (e : Int) : Int := if e % 2 = 0 then e else e - 1

theorem evenExp_half (e : Int) : evenExp e = 2 * (evenExp e / 2) := by unfold evenExp; split <;> omega

theorem even_value (m : Nat) (e : Int) : (evenMant m e : ℝ) * 2 ^ evenExp e = m * 2 ^ e := by
  unfold evenMant evenExp
  split
  · rfl
  · rw [zpow_sub_one₀ two_ne_zero]
    push_cast
    ring

theorem root_approximated {m : Nat} (hm : 0 < m) (hm24 : m < 2 ^ 24) (e : Int) :
    Approximated (Nat.sqrt (2 ^ 200 / evenMant m e)) (-(evenExp e / 2) - 100) (1 / Real.sqrt (m * (2 : ℝ) ^ e)) := by
  have hX : (0 : ℝ) < m * 2 ^ e := mul_pos (by exact_mod_cast hm) (by positivity)
  have hmant : 0 < evenMant m e ∧ evenMant m e < 2 ^ 25 := by unfold evenMant; split <;> omega
  have hlo : Nat.sqrt (2 ^ 200 / evenMant m e) ^ 2 * evenMant m e ≤ 2 ^ 200 := (Nat.le_div_iff_mul_le hmant.1).mp (Nat.sqrt_le' _)
  have hhi : 2 ^ 200 ≤ (Nat.sqrt (2 ^ 200 / evenMant m e) + 1) ^ 2 * evenMant m e :=
    ((Nat.div_lt_iff_lt_mul hmant.1).mp (Nat.lt_succ_sqrt' _)).le
  have hlarge : 2 ^ 60 ≤ Nat.sqrt (2 ^ 200 / evenMant m e) := by
    rw [Nat.le_sqrt', Nat.le_div_iff_mul_le hmant.1]
    calc (2 ^ 60) ^ 2 * evenMant m e ≤ (2 ^ 60) ^ 2 * 2 ^ 25 := Nat.mul_le_mul_left _ hmant.2.le
      _ ≤ 2 ^ 200 := by norm_num
  have hsq (t : ℝ) : (t * 2 ^ (-(evenExp e / 2) - 100)) ^ 2 * (m * 2 ^ e) * 2 ^ 200 = t ^ 2 * evenMant m e := by
    have hone : ((2 : ℝ) ^ (-(evenExp e / 2) - 100)) ^ 2 * 2 ^ evenExp e * 2 ^ 200 = 1 := by
      rw [← zpow_natCast, ← zpow_mul, ← zpow_natCast (2 : ℝ) 200, ← zpow_add₀ two_ne_zero, ← zpow_add₀ two_ne_zero]
      have := evenExp_half e
      rw [show (-(evenExp e / 2) - 100) * ((2 : Nat) : Int) + evenExp e + ((200 : Nat) : Int) = 0 by push_cast; omega, zpow_zero]
    rw [← even_value m e]
    linear_combination (t ^ 2 * evenMant m e) * hone
  have hp : (0 : ℝ) < 2 ^ 200 := by positivity
  generalize Nat.sqrt (2 ^ 200 / evenMant m e) = n at *
  refine approximated_of_floor hlarge ?_ ?_
  · rw [le_inv_sqrt_iff (by positivity) hX, ← mul_le_mul_iff_left₀ hp, hsq, one_mul]
    exact_mod_cast hlo
  · rw [inv_sqrt_le_iff (by positivity) hX, ← mul_le_mul_iff_left₀ hp, hsq, one_mul]
    exact_mod_cast hhi

/-- A result within a few units of a normal value is normal. -/
theorem normal_of_withinUlps {u y : ℝ} {r : Nat} (h : WithinUlps u y r) (hu : u ≤ 3) (hy : (2 : ℝ) ^ (-100 : ℤ) ≤ |y|) : fmt32.expo r ≠ 0 := by
  intro hr
  obtain ⟨k, hk⟩ := exists_mem_Ico_zpow ((by positivity : (0 : ℝ) < 2 ^ (-100 : ℤ)).trans_le hy) one_lt_two
  have hk100 : -100 < k + 1 := (zpow_lt_zpow_iff_right₀ one_lt_two).mp (hy.trans_lt hk.2)
  have hnear := h.2 (by rw [hr]; decide) k hk.1 hk.2
  have hsub := fp32_subnormal hr
  rw [show max k (-126) - 23 = k + -23 by omega, zpow_add₀ two_ne_zero] at hnear
  have htri : |y| ≤ |fp32Val r - y| + |fp32Val r| := by
    have := abs_sub_le y (fp32Val r) 0
    rwa [sub_zero, sub_zero, abs_sub_comm] at this
  have hk1 : (2 : ℝ) ^ (-100 : ℤ) ≤ 2 ^ k := zpow_le_zpow_right₀ one_le_two (by omega)
  have hu' : u * (2 ^ k * 2 ^ (-23 : ℤ)) ≤ 3 * (2 ^ k * 2 ^ (-23 : ℤ)) := mul_le_mul_of_nonneg_right hu (by positivity)
  have hlo := hk.1
  norm_num at hnear hsub hk1 hu' hlo
  linarith

theorem frsqVal_fin (v : FpEnv) (c : Word) {x : Nat} {m : Nat} {e : Int} (hm : m ≠ 0) (h : fmt32.dec x = .fin false m e) :
    frsqVal v c x = if isPow2 m && ((Nat.log2 m : Int) + e) % 2 == 0 then exactPow v.ftz false (-(((Nat.log2 m : Int) + e) / 2))
      else approx v.ftz c false (Nat.sqrt (2 ^ 200 / evenMant m e)) (-(evenExp e / 2) - 100)
        (nearRoot m e (ulpExp (Nat.sqrt (2 ^ 200 / evenMant m e)) (-(evenExp e / 2) - 100))) := by
  obtain ⟨k, rfl⟩ := Nat.exists_eq_succ_of_ne_zero hm
  rw [frsqVal, h]
  rfl

theorem sign_of_pos {x : Nat} {Y : ℝ} (hY : 0 < Y) (h : 0 < signOf (fmt32.sign x) * Y) : fmt32.sign x = false := by
  cases hs : fmt32.sign x with
  | false => rfl
  | true =>
    rw [hs, signOf] at h
    simp only [if_true] at h
    linarith

/-- `frsq` keeps its bound (R133). -/
theorem frsq_bound (v : FpEnv) (c : Word) {x : Nat} (he : fmt32.expo x ≠ 255) (h0 : x % 2 ^ 31 ≠ 0) :
    frsqBound v.ftz (fp32Val x) (frsqVal v c x).1 (frsqVal v c x).2 := by
  obtain ⟨m, e, hdec, hm, hm24, hlo, hhi, hval⟩ := fp32_operand he h0
  have hlog : Nat.log2 m < 24 := (Nat.log2_lt hm.ne').mpr hm24
  have hpos : (0 : ℝ) < m * 2 ^ e := mul_pos (by exact_mod_cast hm) (by positivity)
  intro hx
  have hs := sign_of_pos hpos (hval ▸ hx)
  have hX : fp32Val x = m * 2 ^ e := by rw [hval, hs]; simp [signOf]
  rw [hs] at hdec
  rw [hX, frsqVal_fin v c hm.ne' hdec]
  have hfour (k : ℤ) : (4 : ℝ) ^ k = 2 ^ (2 * k) := by rw [zpow_mul]; norm_num
  by_cases hpow : (isPow2 m && ((Nat.log2 m : Int) + e) % 2 == 0) = true
  · rw [if_pos hpow]
    rw [Bool.and_eq_true, beq_iff_eq] at hpow
    obtain ⟨j, hj⟩ : ∃ j : Int, (Nat.log2 m : Int) + e = 2 * j := ⟨_, (Int.mul_ediv_cancel' (Int.dvd_of_emod_eq_zero hpow.2)).symm⟩
    have hXj : (m : ℝ) * 2 ^ e = 4 ^ j := by rw [isPow2_value hpow.1, hj, hfour]
    have hroot : 1 / Real.sqrt (m * 2 ^ e) = 2 ^ (-j) := by
      rw [hXj, hfour, mul_comm, zpow_mul, zpow_ofNat, Real.sqrt_sq (by positivity), zpow_neg, one_div]
    have hexact := exactPow_exact v.ftz false (k := -j) (by omega) (by omega) (.inr (by omega))
    rw [show (((Nat.log2 m : Int) + e) / 2) = j by omega, hroot]
    rw [show signOf false = 1 from rfl, one_mul] at hexact
    refine ⟨withinUlps_exact (by norm_num) hexact.1 hexact.2.1, fun k hk => ?_, fun h => absurd ⟨j, hXj⟩ h⟩
    rw [hfour] at hk
    obtain rfl : k = j := by have := (isPow2_of_value hm hk).2; omega
    exact hexact
  · rw [if_neg hpow]
    obtain ⟨hnx, r, hr, hcase⟩ := approx_spec v.ftz c false (Nat.sqrt (2 ^ 200 / evenMant m e)) (-(evenExp e / 2) - 100)
      (nearRoot m e (ulpExp (Nat.sqrt (2 ^ 200 / evenMant m e)) (-(evenExp e / 2) - 100)))
    have happrox := root_approximated hm hm24 e
    have hwithin : WithinUlps 2 (1 / Real.sqrt (m * 2 ^ e)) r := by
      rcases hcase with hkeep | rfl
      · obtain ⟨hne, hle⟩ := nearRoot_spec hm hkeep
        refine withinUlps_finite hne fun k _ hk => hle.trans ?_
        rw [abs_of_pos happrox.pos] at hk
        exact mul_le_mul_of_nonneg_left (zpow_le_zpow_right₀ one_le_two (happrox.unit_le hk)) (by norm_num)
      · have h := happrox.round_within false (u := 2) (by norm_num)
        rwa [show signOf false = 1 from rfl, one_mul] at h
    have hlarge : (2 : ℝ) ^ (-100 : ℤ) ≤ |1 / Real.sqrt (m * 2 ^ e)| := by
      have hm' : (m : ℝ) ≤ 2 ^ 24 := by exact_mod_cast hm24.le
      have he' : (2 : ℝ) ^ e ≤ 2 ^ (104 : ℤ) := zpow_le_zpow_right₀ one_le_two hhi
      rw [abs_of_pos happrox.pos, le_inv_sqrt_iff (by positivity) hpos]
      calc ((2 : ℝ) ^ (-100 : ℤ)) ^ 2 * (m * 2 ^ e) ≤ ((2 : ℝ) ^ (-100 : ℤ)) ^ 2 * (2 ^ 24 * 2 ^ (104 : ℤ)) := by gcongr
        _ ≤ 1 := by norm_num
    rw [hr, fp32_flush_normal _ (normal_of_withinUlps hwithin (by norm_num) hlarge)]
    refine ⟨hwithin, fun k hk => absurd ?_ hpow, fun _ => hnx⟩
    rw [hfour] at hk
    obtain ⟨hpow2, hk2⟩ := isPow2_of_value hm hk
    rw [hpow2, Bool.true_and, beq_iff_eq]
    omega

end Sys2Proof.Machine

/-! Powers of two (R133): the fixed-point value from which the bounds of `fex2` are measured. -/

namespace Sys2Proof.Machine

open Sys2Proof.Safety

-- The roots of two

theorem two_rpow_half (t : ℝ) : (2 : ℝ) ^ (t / 2) * 2 ^ (t / 2) = 2 ^ t := by
  rw [← Real.rpow_add two_pos, add_halves]

theorem one_le_two_rpow {t : ℝ} (ht : 0 ≤ t) : (1 : ℝ) ≤ 2 ^ t := Real.one_le_rpow one_le_two ht

/-- A root of two at scale 2^-256, from below, after `a` floors. -/
structure RootNear (root : Nat) (t : ℝ) (a : Nat) : Prop where
  large : 2 ^ 256 ≤ root
  upper : (root : ℝ) ≤ 2 ^ 256 * (2 : ℝ) ^ t
  lower : (1 - a * (1 / 2 ^ 256)) * (2 ^ 256 * (2 : ℝ) ^ t) ≤ root

theorem RootNear.sqrt {root : Nat} {t : ℝ} {a : Nat} (h : RootNear root t a) (ht : 0 ≤ t) (ha : a ≤ 256) :
    RootNear (Nat.sqrt (root * 2 ^ 256)) (t / 2) (a + 1) := by
  have hW : (2 : ℝ) ^ 256 ≤ 2 ^ 256 * (2 : ℝ) ^ (t / 2) := le_mul_of_one_le_right (by positivity) (one_le_two_rpow (by linarith))
  have hWW : (2 ^ 256 * (2 : ℝ) ^ (t / 2)) ^ 2 = 2 ^ 256 * (2 : ℝ) ^ t * 2 ^ 256 := by rw [← two_rpow_half t]; ring
  have hle : ((Nat.sqrt (root * 2 ^ 256) : Nat) : ℝ) ^ 2 ≤ root * 2 ^ 256 := by exact_mod_cast Nat.sqrt_le' (root * 2 ^ 256)
  have hlt : (root : ℝ) * 2 ^ 256 ≤ ((Nat.sqrt (root * 2 ^ 256) : Nat) + 1 : ℝ) ^ 2 := by exact_mod_cast (Nat.lt_succ_sqrt' (root * 2 ^ 256)).le
  have hb0 : 0 ≤ 1 - (a : ℝ) * (1 / 2 ^ 256) := by
    have : (a : ℝ) ≤ 256 := by exact_mod_cast ha
    linarith
  have hb1 : 1 - (a : ℝ) * (1 / 2 ^ 256) ≤ 1 := sub_le_self _ (by positivity)
  have hup := mul_le_mul_of_nonneg_right h.upper (by positivity : (0 : ℝ) ≤ 2 ^ 256)
  have hlow := mul_le_mul_of_nonneg_right h.lower (by positivity : (0 : ℝ) ≤ 2 ^ 256)
  have hlarge : 2 ^ 256 ≤ Nat.sqrt (root * 2 ^ 256) := by
    rw [Nat.le_sqrt', pow_two]
    exact Nat.mul_le_mul_right _ h.large
  rw [mul_assoc, ← hWW] at hlow
  rw [← hWW] at hup
  refine ⟨hlarge, ?_, ?_⟩ <;> generalize 2 ^ 256 * (2 : ℝ) ^ (t / 2) = W at *
  · exact (pow_le_pow_iff_left₀ (by positivity) (by linarith [show (0 : ℝ) < 2 ^ 256 by positivity]) two_ne_zero).mp (hle.trans hup)
  · have hsq : (1 - (a : ℝ) * (1 / 2 ^ 256)) * W ≤ Nat.sqrt (root * 2 ^ 256) + 1 := by
      refine (pow_le_pow_iff_left₀ (mul_nonneg hb0 (by linarith [show (0 : ℝ) < 2 ^ 256 by positivity])) (by positivity) two_ne_zero).mp ?_
      refine le_trans ?_ (hlow.trans hlt)
      rw [mul_pow]
      exact mul_le_mul_of_nonneg_right (by rw [pow_two]; exact mul_le_of_le_one_left hb0 hb1) (sq_nonneg W)
    push_cast
    linarith

/-- One factor of the product, from below. -/
theorem RootNear.mul {root : Nat} {t : ℝ} {a : Nat} (h : RootNear root t a) (ht : 0 ≤ t) (ha : a ≤ 254) {acc : Nat} (hacc : 2 ^ 256 ≤ acc) :
    2 ^ 256 ≤ acc * root / 2 ^ 256 ∧ ((acc * root / 2 ^ 256 : Nat) : ℝ) ≤ acc * (2 : ℝ) ^ t ∧
    (1 - 1 / 2 ^ 248) * (acc * (2 : ℝ) ^ t) ≤ ((acc * root / 2 ^ 256 : Nat) : ℝ) := by
  have hp : (0 : ℝ) < 2 ^ 256 := by positivity
  have hle : ((acc * root / 2 ^ 256 : Nat) : ℝ) * 2 ^ 256 ≤ acc * root := by exact_mod_cast Nat.div_mul_le_self ..
  have hlt : (acc : ℝ) * root ≤ (((acc * root / 2 ^ 256 : Nat) : ℝ) + 1) * 2 ^ 256 := by
    exact_mod_cast (Nat.lt_mul_div_succ (acc * root) (Nat.two_pow_pos 256)).le.trans_eq (mul_comm ..)
  have hA : (2 : ℝ) ^ 256 ≤ acc * (2 : ℝ) ^ t := (by exact_mod_cast hacc : (2 : ℝ) ^ 256 ≤ acc).trans
    (le_mul_of_one_le_right acc.cast_nonneg (one_le_two_rpow ht))
  have hup := mul_le_mul_of_nonneg_left h.upper (by positivity : (0 : ℝ) ≤ acc)
  have hlow := mul_le_mul_of_nonneg_left h.lower (by positivity : (0 : ℝ) ≤ acc)
  refine ⟨(Nat.le_div_iff_mul_le (Nat.two_pow_pos 256)).mpr (Nat.mul_le_mul hacc h.large), ?_, ?_⟩
  · rw [← mul_le_mul_iff_left₀ hp]
    linarith
  · have ha' : (a : ℝ) * (1 / 2 ^ 256) * (acc * (2 : ℝ) ^ t) ≤ 254 * (1 / 2 ^ 256) * (acc * (2 : ℝ) ^ t) := by
      have : (a : ℝ) ≤ 254 := by exact_mod_cast ha
      gcongr
    rw [← mul_le_mul_iff_left₀ hp]
    linarith

/-- The model's product of roots, from below: `k` bits are left, of the weight that the next root squared has. -/
theorem pow2Fix_near (k : Nat) : ∀ (frac root acc : Nat) (t : ℝ) (a : Nat), k ≤ 160 → frac < 2 ^ 160 → 2 ^ (160 - k) ∣ frac → 0 ≤ t →
    RootNear root t a → a + k ≤ 160 → 2 ^ 256 ≤ acc →
    (1 - k * (1 / 2 ^ 248)) * (acc * (2 : ℝ) ^ (t * (frac / 2 ^ 160))) ≤ pow2Fix k frac root acc ∧
    (pow2Fix k frac root acc : ℝ) ≤ acc * (2 : ℝ) ^ (t * (frac / 2 ^ 160)) := by
  induction k with
  | zero =>
    intro frac root acc t a _ hfrac hdvd _ _ _ _
    obtain rfl : frac = 0 := Nat.eq_zero_of_dvd_of_lt hdvd hfrac
    simp [pow2Fix]
  | succ k ih =>
    intro frac root acc t a hk hfrac hdvd ht hroot ha hacc
    have hroot' := hroot.sqrt ht (by omega)
    have hdvd2 : 2 ^ (160 - k) ∣ 2 * frac := by
      rw [show 160 - k = 160 - (k + 1) + 1 by omega, pow_succ, mul_comm]
      exact Nat.mul_dvd_mul_left 2 hdvd
    unfold pow2Fix
    dsimp only
    split
    next hbit =>
      have hmul := hroot'.mul (by linarith) (by omega) hacc
      obtain ⟨hlo, hhi⟩ := ih (2 * frac - 2 ^ 160) _ (acc * Nat.sqrt (root * 2 ^ 256) / 2 ^ 256) (t / 2) (a + 1) (by omega) (by omega)
        (Nat.dvd_sub hdvd2 (Nat.pow_dvd_pow 2 (by omega))) (by linarith) hroot' (by omega) hmul.1
      have hexp : (2 : ℝ) ^ (t * (frac / 2 ^ 160)) = 2 ^ (t / 2) * 2 ^ (t / 2 * (((2 * frac - 2 ^ 160 : Nat) : ℝ) / 2 ^ 160)) := by
        rw [← Real.rpow_add two_pos, Nat.cast_sub hbit]
        congr 1
        push_cast
        ring
      have hB : (0 : ℝ) < 2 ^ (t / 2 * (((2 * frac - 2 ^ 160 : Nat) : ℝ) / 2 ^ 160)) := by positivity
      generalize (2 : ℝ) ^ (t / 2 * (((2 * frac - 2 ^ 160 : Nat) : ℝ) / 2 ^ 160)) = B at *
      rw [hexp, ← mul_assoc (acc : ℝ)]
      have hup := mul_le_mul_of_nonneg_right hmul.2.1 hB.le
      have hlow := mul_le_mul_of_nonneg_right hmul.2.2 hB.le
      have hP : 0 ≤ (acc : ℝ) * 2 ^ (t / 2) * B := by positivity
      rw [mul_assoc] at hlow
      generalize (acc : ℝ) * 2 ^ (t / 2) * B = P at *
      have hk0 : 0 ≤ 1 - (k : ℝ) * (1 / 2 ^ 248) := by
        have : (k : ℝ) ≤ 160 := by exact_mod_cast (by omega : k ≤ 160)
        linarith
      refine ⟨?_, hhi.trans hup⟩
      calc (1 - ((k + 1 : Nat) : ℝ) * (1 / 2 ^ 248)) * P
          ≤ (1 - (k : ℝ) * (1 / 2 ^ 248)) * ((1 - 1 / 2 ^ 248) * P) := by
            have : 0 ≤ (k : ℝ) * (1 / 2 ^ 248) * (1 / 2 ^ 248) * P := by positivity
            push_cast
            linarith
        _ ≤ (1 - (k : ℝ) * (1 / 2 ^ 248)) * (((acc * Nat.sqrt (root * 2 ^ 256) / 2 ^ 256 : Nat) : ℝ) * B) := mul_le_mul_of_nonneg_left hlow hk0
        _ ≤ _ := hlo
    next hbit =>
      obtain ⟨hlo, hhi⟩ := ih (2 * frac) _ acc (t / 2) (a + 1) (by omega) (by omega) hdvd2 (by linarith) hroot' (by omega) hacc
      have hexp : t / 2 * (((2 * frac : Nat) : ℝ) / 2 ^ 160) = t * (frac / 2 ^ 160) := by push_cast; ring
      rw [hexp] at hlo hhi
      refine ⟨le_trans (mul_le_mul_of_nonneg_right ?_ (by positivity)) hlo, hhi⟩
      push_cast
      linarith

-- The powers that `fex2` approximates

/-- A finite FP32 value is an integer at scale 2^-160. -/
theorem fix160_cast (s : Bool) (m : Nat) {e : Int} (he : -149 ≤ e) : ((fix160 s m e : Int) : ℝ) = signOf s * (m * (2 : ℝ) ^ e) * 2 ^ 160 := by
  unfold fix160
  rw [cast_signed, Nat.cast_mul, show e + 160 = e - -160 by ring, intCast_toNat_pow (by omega), zpow_sub₀ two_ne_zero, zpow_neg, div_inv_eq_mul,
    show (2 : ℝ) ^ (160 : ℤ) = 2 ^ 160 from zpow_natCast 2 160]
  ring

/-- 2 to the power i / 2^160. -/
noncomputable def powOf (i : Int) : ℝ := (2 : ℝ) ^ ((i : ℝ) / 2 ^ 160)

theorem powOf_eq (i : Int) : powOf i = 2 ^ (i / 2 ^ 160) * (2 : ℝ) ^ ((((i % 2 ^ 160).toNat : Nat) : ℝ) / 2 ^ 160) := by
  have hmod : (((i % 2 ^ 160).toNat : Nat) : ℝ) = ((i % 2 ^ 160 : Int) : ℝ) := by
    exact_mod_cast congrArg (Int.cast (R := ℝ)) (Int.toNat_of_nonneg (Int.emod_nonneg i (by norm_num)))
  have hi : (i : ℝ) = ((i / 2 ^ 160 : Int) : ℝ) * 2 ^ 160 + ((i % 2 ^ 160 : Int) : ℝ) := by
    have h := congrArg (Int.cast (R := ℝ)) (Int.ediv_mul_add_emod i (2 ^ 160)).symm
    rw [Int.cast_add, Int.cast_mul, Int.cast_pow, Int.cast_ofNat] at h
    exact h
  rw [powOf, hmod, ← Real.rpow_intCast, ← Real.rpow_add two_pos]
  congr 1
  rw [hi]
  field_simp

/-- The value that `fex2` approximates. -/
def powMant (i : Int) : Nat := pow2Fix 160 (i % 2 ^ 160).toNat (2 ^ 257) (2 ^ 256)

theorem pow_approximated (i : Int) : 2 ^ 100 ≤ powMant i ∧ Approximated (powMant i) (i / 2 ^ 160 - 256) (powOf i) := by
  have hfrac : (i % 2 ^ 160).toNat < 2 ^ 160 := by
    have := Int.emod_lt_of_pos i (by norm_num : (0 : Int) < 2 ^ 160)
    have := Int.emod_nonneg i (by norm_num : (2 : Int) ^ 160 ≠ 0)
    omega
  have h257 : ((2 ^ 257 : Nat) : ℝ) = 2 ^ 256 * 2 := by rw [Nat.cast_pow, Nat.cast_two, pow_succ (2 : ℝ) 256]
  have hroot : RootNear (2 ^ 257) 1 0 := by
    refine ⟨by gcongr <;> norm_num, ?_, ?_⟩ <;> rw [h257, Real.rpow_one]
    rw [Nat.cast_zero, zero_mul, sub_zero, one_mul]
  obtain ⟨hlo, hhi⟩ := pow2Fix_near 160 _ _ _ 1 0 le_rfl hfrac (by simp) zero_le_one hroot (by norm_num) (le_refl (2 ^ 256))
  rw [one_mul] at hlo hhi
  rw [powOf_eq, powMant]
  have hB1 : (1 : ℝ) ≤ 2 ^ ((((i % 2 ^ 160).toNat : Nat) : ℝ) / 2 ^ 160) := one_le_two_rpow (by positivity)
  have hB2 : (2 : ℝ) ^ ((((i % 2 ^ 160).toNat : Nat) : ℝ) / 2 ^ 160) ≤ 2 := by
    refine (Real.rpow_le_rpow_of_exponent_le one_le_two ((div_le_one (by positivity)).mpr ?_)).trans_eq (Real.rpow_one 2)
    exact_mod_cast hfrac.le
  generalize (2 : ℝ) ^ ((((i % 2 ^ 160).toNat : Nat) : ℝ) / 2 ^ 160) = B at *
  generalize pow2Fix 160 (i % 2 ^ 160).toNat (2 ^ 257) (2 ^ 256) = n at *
  push_cast at hlo hhi
  have hlarge : 2 ^ 100 ≤ n := by
    have h : (2 : ℝ) ^ 100 ≤ n := le_trans (by linarith) hlo
    exact_mod_cast h
  have hp : (0 : ℝ) < 2 ^ (i / 2 ^ 160) := by positivity
  have hexp : (2 : ℝ) ^ (i / 2 ^ 160 - 256) * 2 ^ 256 = 2 ^ (i / 2 ^ 160) := by
    rw [← zpow_natCast (2 : ℝ) 256, ← zpow_add₀ two_ne_zero]
    congr 1
    push_cast
    ring
  have hq : (0 : ℝ) < 2 ^ (i / 2 ^ 160 - 256) := by positivity
  rw [← hexp] at hp ⊢
  obtain ⟨q, hqe⟩ : ∃ q, q = (2 : ℝ) ^ (i / 2 ^ 160 - 256) := ⟨_, rfl⟩
  rw [← hqe] at hp hq ⊢
  have hle : (n : ℝ) * q ≤ q * 2 ^ 256 * B := by
    have := mul_le_mul_of_nonneg_right hhi hq.le
    linarith
  refine ⟨hlarge, ⟨mul_pos hp (by linarith), (Nat.pow_le_pow_right two_pos (by norm_num)).trans hlarge, fun k hk => ?_, ?_⟩⟩
  · exact hqe ▸ hle.trans_lt hk
  · have hnear : q * 2 ^ 256 * B - n * q ≤ 2 ^ (19 : ℤ) * q := by
      have h1 := mul_le_mul_of_nonneg_right hlo hq.le
      have h2 := mul_le_mul_of_nonneg_right hB2 hq.le
      norm_num at h1 h2 ⊢
      linarith
    rw [← hqe, abs_sub_comm, abs_of_nonneg (sub_nonneg.mpr hle)]
    exact hnear

theorem fex2Val_fin (v : FpEnv) (c : Word) {x : Nat} {s : Bool} {m : Nat} {e : Int} (hm : m ≠ 0) (h : fmt32.dec x = .fin s m e) :
    fex2Val v c x =
      if (Nat.log2 m : Int) + e ≥ 9 then
        if s then approx v.ftz c false 1 (-600) (nearFp false 1 (-600) 2 (-149)) else (fmt32.inf false, flOF ||| flNX)
      else if (fix160 s m e % 2 ^ 160).toNat = 0 ∧ fix160 s m e / 2 ^ 160 ≥ -149 then exactPow v.ftz false (fix160 s m e / 2 ^ 160)
      else approx v.ftz c false (powMant (fix160 s m e)) (fix160 s m e / 2 ^ 160 - 256)
        (nearFp false (powMant (fix160 s m e)) (fix160 s m e / 2 ^ 160 - 256) 2 (ulpExp (powMant (fix160 s m e)) (fix160 s m e / 2 ^ 160 - 256))) := by
  obtain ⟨k, rfl⟩ := Nat.exists_eq_succ_of_ne_zero hm
  rw [fex2Val, h]
  rfl

/-- Far below the least number any small result keeps the bound. -/
theorem fex2_tiny_within {y : ℝ} (hy0 : 0 < y) (hy : y ≤ (2 : ℝ) ^ (-512 : ℤ)) {r : Nat}
    (hr : nearFp false 1 (-600) 2 (-149) r = true ∨ r = (fmt32.round false .rne false (2 * 1 + 1) (-600 - 1)).1) :
    WithinUlps (2 + 1 / 2 ^ 50) y r := by
  have hunit : unitExp (2 * 1 + 1) (-600 - 1) = -149 := by
    have hlog : Nat.log2 (2 * 1 + 1) = 1 := (Nat.log2_eq_iff (by decide)).mpr (by decide)
    unfold unitExp
    rw [hlog]
    norm_num
  have hsmall {a : Int} (ha : a ≤ -512) : (2 : ℝ) ^ a ≤ 2 ^ (-220 : ℤ) := zpow_le_zpow_right₀ one_le_two (by omega)
  have hy' := hy.trans (hsmall le_rfl)
  have hmain : ∃ z : ℝ, 0 ≤ z ∧ z ≤ 3 * 2 ^ (-220 : ℤ) ∧ fmt32.expo r ≠ 255 ∧ |fp32Val r - z| ≤ 2 * 2 ^ (-149 : ℤ) := by
    rcases hr with hr | rfl
    · obtain ⟨he, hle⟩ := nearFp_spec hr
      have h := hsmall (a := -600) (by decide)
      rw [signOf, if_neg Bool.false_ne_true, one_mul, Nat.cast_one, one_mul] at hle
      exact ⟨_, by positivity, h.trans (le_mul_of_one_le_left (by positivity) (by norm_num)), he, hle⟩
    · have h := hsmall (a := -600 - 1) (by decide)
      have hz : ((2 * 1 + 1 : Nat) : ℝ) * 2 ^ (-600 - 1 : ℤ) ≤ 3 * 2 ^ (-220 : ℤ) := by
        rw [show ((2 * 1 + 1 : Nat) : ℝ) = 3 by norm_num]
        linarith
      rcases fp32_round_near false (m := 2 * 1 + 1) (by decide) (-600 - 1) with ⟨-, hle⟩ | ⟨he, hle⟩
      · have hbig := hle.trans hz
        norm_num at hbig
      · rw [hunit, signOf, if_neg Bool.false_ne_true, one_mul] at hle
        refine ⟨_, by positivity, hz, he, hle.trans ?_⟩
        norm_num
  obtain ⟨z, hz0, hz, he, hle⟩ := hmain
  refine withinUlps_finite he fun k _ _ => ?_
  have hulp : (2 : ℝ) ^ (-149 : ℤ) ≤ 2 ^ (max k (-126) - 23) := zpow_le_zpow_right₀ one_le_two (by omega)
  calc |fp32Val r - y| ≤ |fp32Val r - z| + |z - y| := abs_sub_le ..
    _ ≤ 2 * 2 ^ (-149 : ℤ) + 3 * 2 ^ (-220 : ℤ) := add_le_add hle (abs_le.mpr ⟨by linarith [show (0 : ℝ) < 2 ^ (-220 : ℤ) by positivity], by linarith⟩)
    _ ≤ (2 + 1 / 2 ^ 50) * 2 ^ (-149 : ℤ) := by norm_num
    _ ≤ (2 + 1 / 2 ^ 50) * 2 ^ (max k (-126) - 23) := mul_le_mul_of_nonneg_left hulp (by positivity)

/-- `fex2` keeps its bound (R133). -/
theorem fex2_bound (v : FpEnv) (c : Word) {x : Nat} (he : fmt32.expo x ≠ 255) (h0 : x % 2 ^ 31 ≠ 0) :
    fex2Bound v.ftz (fp32Val x) (fex2Val v c x).1 (fex2Val v c x).2 := by
  obtain ⟨m, e, hdec, hm, -, hlo, -, hval⟩ := fp32_operand he h0
  have hpos : (0 : ℝ) < m * 2 ^ e := mul_pos (by exact_mod_cast hm) (by positivity)
  rw [fex2Val_fin v c hm.ne' hdec]
  by_cases hbig : (Nat.log2 m : Int) + e ≥ 9
  · rw [if_pos hbig]
    have hX : (512 : ℝ) ≤ m * 2 ^ e := by
      refine le_trans ?_ ((zpow_le_zpow_right₀ one_le_two hbig).trans (two_zpow_log2_le hm e))
      norm_num
    have hnot (k : ℤ) (hk : fp32Val x = k) : ¬ (-149 ≤ k ∧ k ≤ 127) := by
      have habs : (512 : ℝ) ≤ |(k : ℝ)| := by rwa [← hk, hval, abs_signOf_mul, abs_of_pos hpos]
      have habs' : 512 ≤ |k| := by exact_mod_cast habs
      rw [le_abs] at habs'
      omega
    cases hs : fmt32.sign x with
    | true =>
      rw [if_pos rfl]
      obtain ⟨hnx, r, hr, hcase⟩ := approx_spec v.ftz c false 1 (-600) (nearFp false 1 (-600) 2 (-149))
      refine ⟨fun hf => ?_, fun k hk h1 h2 _ => absurd ⟨h1, h2⟩ (hnot k hk), fun _ => hnx⟩
      rw [hr] at hf ⊢
      rw [fp32_flush_eq hf]
      refine fex2_tiny_within (by positivity) ?_ hcase
      rw [← Real.rpow_intCast]
      refine Real.rpow_le_rpow_of_exponent_le one_le_two ?_
      rw [hval, hs, signOf, if_pos rfl]
      push_cast
      linarith
    | false =>
      rw [if_neg Bool.false_ne_true]
      refine ⟨fun _ => ?_, fun k hk h1 h2 _ => absurd ⟨h1, h2⟩ (hnot k hk), fun _ => by unfold Inexact; decide⟩
      have hy : (2 : ℝ) ^ (128 : ℤ) ≤ 2 ^ fp32Val x := by
        rw [← Real.rpow_intCast]
        refine Real.rpow_le_rpow_of_exponent_le one_le_two ?_
        rw [hval, hs, signOf, if_neg Bool.false_ne_true]
        push_cast
        linarith
      have hpow : (0 : ℝ) < 2 ^ fp32Val x := by positivity
      obtain ⟨hie, hif, his⟩ := fp32_inf_fields false
      refine ⟨fun _ => ⟨hif, by rw [his]; simp [hpow.le], ?_⟩, fun hne => absurd hie hne⟩
      rw [abs_of_pos hpow]
      norm_num at hy ⊢
      linarith
  · rw [if_neg hbig]
    have hfix : fp32Val x = (fix160 (fmt32.sign x) m e : ℝ) / 2 ^ 160 := by
      rw [fix160_cast _ _ hlo, ← hval, mul_div_cancel_right₀ _ (by positivity)]
    have hy : (2 : ℝ) ^ fp32Val x = powOf (fix160 (fmt32.sign x) m e) := by rw [hfix, powOf]
    have hint (k : ℤ) (hk : fp32Val x = k) : fix160 (fmt32.sign x) m e = k * 2 ^ 160 := by
      rw [hfix, div_eq_iff (by positivity)] at hk
      exact_mod_cast hk
    unfold fex2Bound
    rw [hy]
    generalize fix160 (fmt32.sign x) m e = i at *
    by_cases hcond : (i % 2 ^ 160).toNat = 0 ∧ i / 2 ^ 160 ≥ -149
    · rw [if_pos hcond]
      have hi : i = i / 2 ^ 160 * 2 ^ 160 := by omega
      have hpow : powOf i = signOf false * 2 ^ (i / 2 ^ 160) := by
        rw [powOf_eq, hcond.1, Nat.cast_zero, zero_div, Real.rpow_zero, mul_one, signOf, if_neg Bool.false_ne_true, one_mul]
      rw [hpow]
      refine ⟨exactPow_within _ _ _ (by norm_num), fun k hk h1 h2 h3 => ?_, fun h => absurd ⟨i / 2 ^ 160, ?_⟩ h⟩
      · obtain rfl : i / 2 ^ 160 = k := by have := hint k hk; omega
        have hexact := exactPow_exact v.ftz false h1 h2 h3
        rwa [show signOf false = 1 from rfl, one_mul] at hexact
      · rw [hfix, div_eq_iff (by positivity)]
        exact_mod_cast hi
    · rw [if_neg hcond]
      obtain ⟨hlarge, happrox⟩ := pow_approximated i
      obtain ⟨hnx, r, hr, hcase⟩ := approx_spec v.ftz c false (powMant i) (i / 2 ^ 160 - 256)
        (nearFp false (powMant i) (i / 2 ^ 160 - 256) 2 (ulpExp (powMant i) (i / 2 ^ 160 - 256)))
      refine ⟨fun hf => ?_, fun k hk h1 _ _ => absurd ?_ hcond, fun _ => hnx⟩
      · rw [hr] at hf ⊢
        have hone : signOf false * powOf i = powOf i := one_mul _
        rw [fp32_flush_eq hf, ← hone]
        rcases hcase with hkeep | rfl
        · exact happrox.nearFp_within hlarge hkeep
        · exact happrox.round_within false (by norm_num)
      · have := hint k hk
        constructor <;> omega

end Sys2Proof.Machine

/-! Logarithms (R133): the fixed-point value from which the bounds of `flg2` are measured. -/

namespace Sys2Proof.Machine

open Sys2Proof.Safety

-- The logarithm, bit by bit

theorem half_lt_log_two : (1 / 2 : ℝ) < Real.log 2 := by linarith [Real.log_two_gt_d9]

/-- Dropping the fraction of a large quotient hardly changes its logarithm. -/
theorem logb_div_near {a b : Nat} (hb : 0 < b) (hn : 2 ^ 256 ≤ a / b) :
    Real.logb 2 (a / b : Nat) ≤ Real.logb 2 a - Real.logb 2 b ∧ Real.logb 2 a - Real.logb 2 b - 1 / 2 ^ 250 ≤ Real.logb 2 (a / b : Nat) := by
  have hb' : (0 : ℝ) < b := by exact_mod_cast hb
  have hle : ((a / b : Nat) : ℝ) ≤ a / b := Nat.cast_div_le
  have hlt : (a : ℝ) / b ≤ ((a / b : Nat) : ℝ) + 1 := by
    rw [div_le_iff₀ hb']
    exact_mod_cast (Nat.lt_mul_div_succ a hb).le.trans_eq (mul_comm ..)
  have hn' : (2 : ℝ) ^ 256 ≤ (a / b : Nat) := by exact_mod_cast hn
  generalize ((a / b : Nat) : ℝ) = n at *
  have hpos : 0 < n := lt_of_lt_of_le (by positivity) hn'
  have hz : (0 : ℝ) < a / b := hpos.trans_le hle
  have ha : (a : ℝ) ≠ 0 := fun h => by rw [h, zero_div] at hz; exact lt_irrefl _ hz
  rw [← Real.logb_div ha hb'.ne']
  generalize (a : ℝ) / b = z at *
  refine ⟨Real.logb_le_logb_of_le one_lt_two hpos hle, ?_⟩
  have hlog : Real.log (z / n) ≤ 1 / 2 ^ 256 := by
    refine (Real.log_le_sub_one_of_pos (div_pos hz hpos)).trans ?_
    rw [sub_le_iff_le_add, div_le_iff₀ hpos]
    have : 1 ≤ (1 / 2 ^ 256 : ℝ) * n := by linarith
    linarith
  have hdiv : Real.logb 2 z - Real.logb 2 n = Real.log (z / n) / Real.log 2 := by
    rw [← Real.logb_div hz.ne' hpos.ne', Real.logb]
  have hquot : Real.log (z / n) / Real.log 2 ≤ 1 / 2 ^ 250 := by
    rw [div_le_iff₀ (by linarith [half_lt_log_two])]
    linarith [half_lt_log_two]
  linarith

theorem logb_two_pow (n : Nat) : Real.logb 2 ((2 ^ n : Nat) : ℝ) = n := by
  rw [Nat.cast_pow, Nat.cast_two, Real.logb_pow, Real.logb_self_eq_one one_lt_two, mul_one]

theorem logb_mul_self {y : Nat} (hy : 0 < y) : Real.logb 2 ((y * y : Nat) : ℝ) = 2 * Real.logb 2 y := by
  have hpos : (y : ℝ) ≠ 0 := by exact_mod_cast hy.ne'
  rw [Nat.cast_mul, Real.logb_mul hpos hpos]
  ring

theorem logb_bounds {y : Nat} (hlo : 2 ^ 256 ≤ y) (hhi : y < 2 ^ 257) : 256 ≤ Real.logb 2 y ∧ Real.logb 2 y ≤ 257 := by
  have hpos : (0 : ℝ) < y := by exact_mod_cast (Nat.two_pow_pos 256).trans_le hlo
  have h1 := Real.logb_le_logb_of_le one_lt_two (by exact_mod_cast Nat.two_pow_pos 256) ((Nat.cast_le (α := ℝ)).mpr hlo)
  have h2 := Real.logb_le_logb_of_le one_lt_two hpos ((Nat.cast_le (α := ℝ)).mpr hhi.le)
  rw [logb_two_pow] at h1 h2
  exact ⟨by exact_mod_cast h1, by exact_mod_cast h2⟩

/-- The model's bits of a logarithm, from below. -/
theorem log2Fix_near (k : Nat) : ∀ (y acc : Nat), 2 ^ 256 ≤ y → y < 2 ^ 257 →
    (log2Fix k y acc : ℝ) ≤ 2 ^ k * (acc + (Real.logb 2 y - 256)) ∧
    2 ^ k * (acc + (Real.logb 2 y - 256)) - 1 - (2 ^ k - 1) * (1 / 2 ^ 250) ≤ log2Fix k y acc := by
  induction k with
  | zero =>
    intro y acc hlo hhi
    obtain ⟨h1, h2⟩ := logb_bounds hlo hhi
    simp only [log2Fix, pow_zero, one_mul, sub_self, zero_mul, sub_zero]
    constructor <;> linarith
  | succ k ih =>
    intro y acc hlo hhi
    have hy : 0 < y := (Nat.two_pow_pos 256).trans_le hlo
    have hbig : 2 ^ 256 ≤ y * y / 2 ^ 256 := (Nat.le_div_iff_mul_le (Nat.two_pow_pos 256)).mpr (Nat.mul_le_mul hlo hlo)
    have hp : (0 : ℝ) < 2 ^ k := by positivity
    unfold log2Fix
    dsimp only
    split
    next hge =>
      have hdd : y * y / 2 ^ 256 / 2 = y * y / 2 ^ 257 := by rw [Nat.div_div_eq_div_mul, ← pow_succ]
      have hlo' : 2 ^ 256 ≤ y * y / 2 ^ 257 := by rw [← hdd]; omega
      have hhi' : y * y / 2 ^ 257 < 2 ^ 257 := by
        rw [Nat.div_lt_iff_lt_mul (Nat.two_pow_pos 257)]
        exact Nat.mul_lt_mul'' hhi hhi
      obtain ⟨h1, h2⟩ := logb_div_near (Nat.two_pow_pos 257) hlo'
      rw [logb_mul_self hy, logb_two_pow] at h1 h2
      obtain ⟨ih1, ih2⟩ := ih _ (2 * acc + 1) hlo' hhi'
      rw [hdd, pow_succ (2 : ℝ) k]
      generalize Real.logb 2 (y * y / 2 ^ 257 : Nat) = l at *
      have h1' := mul_le_mul_of_nonneg_left h1 hp.le
      have h2' := mul_le_mul_of_nonneg_left h2 hp.le
      push_cast at *
      constructor <;> linarith
    next hlt =>
      obtain ⟨h1, h2⟩ := logb_div_near (Nat.two_pow_pos 256) hbig
      rw [logb_mul_self hy, logb_two_pow] at h1 h2
      obtain ⟨ih1, ih2⟩ := ih _ (2 * acc) hbig (not_le.mp hlt)
      rw [pow_succ (2 : ℝ) k]
      generalize Real.logb 2 (y * y / 2 ^ 256 : Nat) = l at *
      have h1' := mul_le_mul_of_nonneg_left h1 hp.le
      have h2' := mul_le_mul_of_nonneg_left h2 hp.le
      push_cast at *
      constructor <;> linarith

-- The logarithm of a value

/-- The fraction that the model computes for a significand. -/
def logFrac (m : Nat) : Nat := log2Fix 160 (m * 2 ^ 256 / 2 ^ Nat.log2 m) 0

theorem logFrac_near {m : Nat} (hm : 0 < m) (hm24 : m < 2 ^ 24) :
    (logFrac m : ℝ) ≤ 2 ^ 160 * (Real.logb 2 m - Nat.log2 m) ∧ 2 ^ 160 * (Real.logb 2 m - Nat.log2 m) - 2 ≤ logFrac m := by
  have hlog : Nat.log2 m < 24 := (Nat.log2_lt hm.ne').mpr hm24
  have hsplit : 2 ^ 256 = 2 ^ (256 - Nat.log2 m) * 2 ^ Nat.log2 m := by rw [← pow_add]; congr 1; omega
  have hdiv : m * 2 ^ 256 / 2 ^ Nat.log2 m = m * 2 ^ (256 - Nat.log2 m) := by
    rw [hsplit, ← mul_assoc, Nat.mul_div_cancel _ (Nat.two_pow_pos _)]
  have hlo : 2 ^ 256 ≤ m * 2 ^ (256 - Nat.log2 m) := by
    rw [hsplit, mul_comm]
    exact Nat.mul_le_mul_right _ (Nat.log2_self_le hm.ne')
  have hhi : m * 2 ^ (256 - Nat.log2 m) < 2 ^ 257 := by
    calc m * 2 ^ (256 - Nat.log2 m) < 2 ^ (Nat.log2 m + 1) * 2 ^ (256 - Nat.log2 m) :=
          Nat.mul_lt_mul_of_pos_right Nat.lt_log2_self (Nat.two_pow_pos _)
      _ = 2 ^ 257 := by rw [← pow_add]; congr 1; omega
  have hval : Real.logb 2 ((m * 2 ^ (256 - Nat.log2 m) : Nat) : ℝ) - 256 = Real.logb 2 m - Nat.log2 m := by
    rw [Nat.cast_mul, Real.logb_mul (by exact_mod_cast hm.ne') (by exact_mod_cast (Nat.two_pow_pos _).ne'), logb_two_pow, Nat.cast_sub (by omega)]
    push_cast
    ring
  obtain ⟨h1, h2⟩ := log2Fix_near 160 _ 0 hlo hhi
  rw [← hdiv, hdiv, hval] at h1 h2
  rw [logFrac, hdiv]
  push_cast at h1 h2
  rw [zero_add] at h1 h2
  have hsmall : ((2 : ℝ) ^ 160 - 1) * (1 / 2 ^ 250) ≤ 1 := by norm_num
  exact ⟨h1, by linarith⟩

/-- The logarithm at scale 2^-160, from below. -/
def logFix (m : Nat) (e : Int) : Int := ((Nat.log2 m : Int) + e) * 2 ^ 160 + logFrac m

theorem logb_value {m : Nat} (hm : 0 < m) (e : Int) : Real.logb 2 (m * (2 : ℝ) ^ e) = Real.logb 2 m + e := by
  rw [Real.logb_mul (by exact_mod_cast hm.ne') (by positivity), ← Real.rpow_intCast, Real.logb_rpow two_pos (by norm_num)]

/-- A significand that is no power of two: its fraction lies well between the integers. -/
theorem logFrac_bounds {m : Nat} (hm : 0 < m) (hm24 : m < 2 ^ 24) (hpow : ¬ isPow2 m = true) :
    0 < logFrac m ∧ logFrac m < 2 ^ 160 ∧ Real.logb 2 m < Nat.log2 m + 1 := by
  obtain ⟨h1, h2⟩ := logFrac_near hm hm24
  have hpos : (0 : ℝ) < m := by exact_mod_cast hm
  have hlt : 2 ^ Nat.log2 m < m := lt_of_le_of_ne (Nat.log2_self_le hm.ne') fun h => hpow (isPow2_iff.mpr ⟨_, h.symm⟩)
  have hup : Real.logb 2 m < Nat.log2 m + 1 := by
    have h := Real.logb_lt_logb one_lt_two hpos (by exact_mod_cast Nat.lt_log2_self : (m : ℝ) < (2 ^ (Nat.log2 m + 1) : Nat))
    rw [logb_two_pow] at h
    exact_mod_cast h
  have hlow : 1 / 2 ^ 24 ≤ Real.logb 2 m - Nat.log2 m := by
    have hp : (0 : ℝ) < (2 ^ Nat.log2 m : Nat) := by exact_mod_cast Nat.two_pow_pos _
    rw [← logb_two_pow (Nat.log2 m), ← Real.logb_div hpos.ne' hp.ne', Real.logb, le_div_iff₀ (by linarith [half_lt_log_two])]
    refine le_trans ?_ (Real.one_sub_inv_le_log_of_pos (div_pos hpos hp))
    rw [inv_div]
    have hone : ((2 ^ Nat.log2 m : Nat) : ℝ) + 1 ≤ m := by exact_mod_cast hlt
    have hm' : (m : ℝ) ≤ 2 ^ 24 := by exact_mod_cast hm24.le
    have hfrac : ((2 ^ Nat.log2 m : Nat) : ℝ) / m ≤ 1 - 1 / 2 ^ 24 := by
      rw [div_le_iff₀ hpos]
      linarith
    linarith [Real.log_two_lt_d9]
  refine ⟨?_, ?_, hup⟩
  · have h : (0 : ℝ) < logFrac m := by linarith
    exact_mod_cast h
  · have h : (logFrac m : ℝ) < 2 ^ 160 := by linarith
    exact_mod_cast h

/-- An operand that is no power of two: the sign and the size of what the model computes. -/
structure LogNear (lg : Int) (i : Int) (y : ℝ) : Prop where
  near : |(i : ℝ) * 2 ^ (-160 : ℤ) - y| ≤ 2 * 2 ^ (-160 : ℤ)
  below : (i : ℝ) * 2 ^ (-160 : ℤ) ≤ y
  floor : lg * 2 ^ 160 < i ∧ i < (lg + 1) * 2 ^ 160
  between : (lg : ℝ) < y ∧ y < lg + 1

theorem logFix_near {m : Nat} (hm : 0 < m) (hm24 : m < 2 ^ 24) (hpow : ¬ isPow2 m = true) (e : Int) :
    LogNear ((Nat.log2 m : Int) + e) (logFix m e) (Real.logb 2 (m * (2 : ℝ) ^ e)) := by
  obtain ⟨h1, h2⟩ := logFrac_near hm hm24
  obtain ⟨h3, h4, h5⟩ := logFrac_bounds hm hm24 hpow
  have h3' : (0 : ℝ) < logFrac m := by exact_mod_cast h3
  have hi : ((logFix m e : Int) : ℝ) * 2 ^ (-160 : ℤ) = Nat.log2 m + e + logFrac m * 2 ^ (-160 : ℤ) := by
    unfold logFix
    push_cast
    norm_num
    ring
  have hp : (0 : ℝ) < 2 ^ (-160 : ℤ) := by positivity
  have h1' := mul_le_mul_of_nonneg_right h1 hp.le
  have h2' := mul_le_mul_of_nonneg_right h2 hp.le
  have hinv : (2 : ℝ) ^ 160 * (Real.logb 2 m - Nat.log2 m) * 2 ^ (-160 : ℤ) = Real.logb 2 m - Nat.log2 m := by norm_num; ring
  rw [hinv] at h1'
  rw [sub_mul, hinv] at h2'
  have hf := mul_pos h3' hp
  rw [logb_value hm]
  refine ⟨?_, ?_, ?_, ?_⟩
  · rw [hi, abs_le]
    constructor <;> linarith
  · rw [hi]
    linarith
  · unfold logFix
    constructor <;> omega
  · push_cast
    constructor <;> linarith

-- Absolute errors

theorem signOf_natAbs (i : Int) : signOf (decide (i < 0)) * (i.natAbs : ℝ) = i := by
  rcases lt_or_ge i 0 with h | h
  · simp [signOf, h, abs_of_neg, Nat.cast_natAbs]
  · simp [signOf, h.not_gt, abs_of_nonneg, h, Nat.cast_natAbs]

/-- A value of at most 2 in fixed point, with a tolerance of at least 2^-22: the result is within it, but for the flush. -/
theorem approx_near_abs (ftz : Bool) (c : Word) {i : Int} (hi : i.natAbs < 2 ^ 161) {te : Int} (hte : -22 ≤ te) :
    fmt32.expo (approx ftz c (decide (i < 0)) i.natAbs (-160) (nearFp (decide (i < 0)) i.natAbs (-160) 1 te)).1 ≠ 255 ∧
    |fp32Val (approx ftz c (decide (i < 0)) i.natAbs (-160) (nearFp (decide (i < 0)) i.natAbs (-160) 1 te)).1 - i * 2 ^ (-160 : ℤ)| ≤
      2 ^ te + 2 ^ (-126 : ℤ) := by
  obtain ⟨-, r, hr, hcase⟩ := approx_spec ftz c (decide (i < 0)) i.natAbs (-160) (nearFp (decide (i < 0)) i.natAbs (-160) 1 te)
  have hmain : fmt32.expo r ≠ 255 ∧ |fp32Val r - i * 2 ^ (-160 : ℤ)| ≤ 2 ^ te := by
    have hval : signOf (decide (i < 0)) * ((i.natAbs : ℝ) * 2 ^ (-160 : ℤ)) = i * 2 ^ (-160 : ℤ) := by rw [← mul_assoc, signOf_natAbs]
    rcases hcase with hkeep | rfl
    · have h := nearFp_spec hkeep
      rwa [hval, Nat.cast_one, one_mul] at h
    · have hz : ((2 * i.natAbs + 1 : Nat) : ℝ) * 2 ^ (-160 - 1 : ℤ) = i.natAbs * 2 ^ (-160 : ℤ) + 2 ^ (-161 : ℤ) := by
        push_cast
        norm_num
        ring
      have hn : (i.natAbs : ℝ) ≤ 2 ^ 161 := by exact_mod_cast hi.le
      rcases fp32_round_near (decide (i < 0)) (m := 2 * i.natAbs + 1) (by omega) (-160 - 1) with ⟨-, hle⟩ | ⟨he, hle⟩
      · have hsum := hle.trans_eq hz
        have h2 : (i.natAbs : ℝ) * 2 ^ (-160 : ℤ) ≤ 2 ^ 161 * 2 ^ (-160 : ℤ) := mul_le_mul_of_nonneg_right hn (by positivity)
        norm_num at hsum h2
        linarith
      · refine ⟨he, ?_⟩
        have hlog : Nat.log2 (2 * i.natAbs + 1) < 163 := (Nat.log2_lt (by omega)).mpr (by omega)
        have hunit : (2 : ℝ) ^ (unitExp (2 * i.natAbs + 1) (-160 - 1) - 1) ≤ 2 ^ (-23 : ℤ) :=
          zpow_le_zpow_right₀ one_le_two (by unfold unitExp; omega)
        have hte' : (2 : ℝ) ^ (-22 : ℤ) ≤ 2 ^ te := zpow_le_zpow_right₀ one_le_two hte
        have hhalf : |signOf (decide (i < 0)) * (((2 * i.natAbs + 1 : Nat) : ℝ) * 2 ^ (-160 - 1 : ℤ)) - i * 2 ^ (-160 : ℤ)| ≤ 2 ^ (-161 : ℤ) := by
          rw [← hval, hz, abs_signOf_mul_sub, add_sub_cancel_left, abs_of_pos (by positivity)]
        have htri := abs_sub_le (fp32Val (fmt32.round false .rne (decide (i < 0)) (2 * i.natAbs + 1) (-160 - 1)).1)
          (signOf (decide (i < 0)) * (((2 * i.natAbs + 1 : Nat) : ℝ) * 2 ^ (-160 - 1 : ℤ))) (i * 2 ^ (-160 : ℤ))
        have hsum : (2 : ℝ) ^ (-23 : ℤ) + 2 ^ (-161 : ℤ) ≤ 2 ^ (-22 : ℤ) := by norm_num
        linarith
  obtain ⟨he, hle⟩ := hmain
  obtain ⟨he', hflush⟩ := fp32_flush_near ftz he
  rw [hr]
  refine ⟨he', ?_⟩
  have htri := abs_sub_le (fp32Val (fmt32.flush ftz r)) (fp32Val r) (i * 2 ^ (-160 : ℤ))
  linarith

-- `flg2`

/-- Away from 1 the fixed point has digits enough to be rounded. -/
theorem log_approximated {lg i : Int} {y : ℝ} (h : LogNear lg i y) (hlg : 1 ≤ lg ∨ lg ≤ -2) :
    2 ^ 100 ≤ i.natAbs ∧ Approximated i.natAbs (-160) |y| ∧ y = signOf (decide (i < 0)) * |y| ∧ 1 ≤ |y| := by
  obtain ⟨hnear, hbelow, ⟨hf1, hf2⟩, hb1, hb2⟩ := h
  have hp : (0 : ℝ) < 2 ^ (-160 : ℤ) := by positivity
  have hlarge : 2 ^ 100 ≤ i.natAbs := by omega
  have h60 : 2 ^ 60 ≤ i.natAbs := (Nat.pow_le_pow_right two_pos (by norm_num)).trans hlarge
  have hnear' : (2 : ℝ) * 2 ^ (-160 : ℤ) ≤ 2 ^ (19 : ℤ) * 2 ^ (-160 : ℤ) := by norm_num
  rcases hlg with hlg | hlg
  · have hlg' : (1 : ℝ) ≤ lg := by exact_mod_cast hlg
    have hi : ¬ i < 0 := by omega
    have hn : (i.natAbs : ℝ) = i := by rw [Nat.cast_natAbs, abs_of_nonneg (not_lt.mp hi)]
    have hy : |y| = y := abs_of_pos (by linarith)
    rw [hy, decide_eq_false hi, signOf, if_neg Bool.false_ne_true, one_mul]
    refine ⟨hlarge, ⟨by linarith, h60, fun k hk => ?_, ?_⟩, rfl, by linarith⟩
    · rw [hn]
      exact hbelow.trans_lt hk
    · rw [hn]
      exact hnear.trans hnear'
  · have hlg' : (lg : ℝ) ≤ -2 := by exact_mod_cast hlg
    have hi : i < 0 := by omega
    have hn : (i.natAbs : ℝ) = -i := by rw [Nat.cast_natAbs, abs_of_neg hi, Int.cast_neg]
    have hy : |y| = -y := abs_of_neg (by linarith)
    rw [hy, decide_eq_true hi, signOf, if_pos rfl]
    refine ⟨hlarge, ⟨by linarith, h60, fun k hk => ?_, ?_⟩, by ring, by linarith⟩
    · have hk0 : 0 < k + 1 := (one_lt_zpow_iff_right₀ one_lt_two).mp (by linarith : (1 : ℝ) < 2 ^ (k + 1))
      obtain ⟨d, hd⟩ : ∃ d : Nat, k + 1 = d := ⟨_, (Int.toNat_of_nonneg hk0.le).symm⟩
      rw [hd, zpow_natCast] at hk ⊢
      have hint : -lg - 1 < (2 : Int) ^ d := by
        have : ((-lg - 1 : Int) : ℝ) < ((2 ^ d : Int) : ℝ) := by push_cast; linarith
        exact_mod_cast this
      have hle : (-lg : ℝ) ≤ 2 ^ d := by exact_mod_cast (by omega : -lg ≤ (2 : Int) ^ d)
      have hlt : ((-i : Int) : ℝ) < ((-lg * 2 ^ 160 : Int) : ℝ) := by exact_mod_cast (by omega : -i < -lg * 2 ^ 160)
      have hscale := mul_lt_mul_of_pos_right hlt hp
      rw [hn]
      push_cast at hscale
      norm_num at hscale ⊢
      linarith
    · rw [hn, show -(i : ℝ) * 2 ^ (-160 : ℤ) - -y = -(i * 2 ^ (-160 : ℤ) - y) by ring, abs_neg]
      exact hnear.trans hnear'

theorem flg2Val_fin (v : FpEnv) (c : Word) {x : Nat} {m : Nat} {e : Int} (hm : m ≠ 0) (h : fmt32.dec x = .fin false m e) :
    flg2Val v c x = if isPow2 m then
        if (Nat.log2 m : Int) + e = 0 then (0, 0)
        else fmt32.round v.ftz .rne ((Nat.log2 m : Int) + e < 0) ((Nat.log2 m : Int) + e).natAbs 0
      else approx v.ftz c (logFix m e < 0) (logFix m e).natAbs (-160) (nearFp (logFix m e < 0) (logFix m e).natAbs (-160)
        (if (Nat.log2 m : Int) + e = 0 ∨ (Nat.log2 m : Int) + e = -1 then 1 else 2)
        (if (Nat.log2 m : Int) + e = 0 ∨ (Nat.log2 m : Int) + e = -1 then -22 else ulpExp (logFix m e).natAbs (-160))) := by
  obtain ⟨k, rfl⟩ := Nat.exists_eq_succ_of_ne_zero hm
  rw [flg2Val, h]
  rfl

/-- The logarithm of a power of two. -/
theorem round_log_exact (ftz : Bool) {lg : Int} (hlo : -149 ≤ lg) (hhi : lg ≤ 127) :
    let r := if lg = 0 then (0, 0) else fmt32.round ftz .rne (lg < 0) lg.natAbs 0
    Exact lg r.1 r.2 := by
  dsimp only
  split
  next h =>
    obtain ⟨hv, he⟩ := fp32_zero false
    rw [h]
    exact ⟨by decide, by rw [Int.cast_zero]; exact hv, rfl⟩
  next h =>
    have hlog : Nat.log2 lg.natAbs < 24 := (Nat.log2_lt (by omega)).mpr (by omega)
    have hexact := fp32_round_exact ftz (decide (lg < 0)) (m := lg.natAbs) (e := 0) (by omega) (by unfold unitExp; omega) (by omega) (.inr (by omega))
    rwa [zpow_zero, mul_one, signOf_natAbs] at hexact

/-- `flg2` keeps its bound (R133). -/
theorem flg2_bound (v : FpEnv) (c : Word) {x : Nat} (he : fmt32.expo x ≠ 255) (h0 : x % 2 ^ 31 ≠ 0) :
    flg2Bound v.ftz (fp32Val x) (flg2Val v c x).1 (flg2Val v c x).2 := by
  obtain ⟨m, e, hdec, hm, hm24, hlo, hhi, hval⟩ := fp32_operand he h0
  have hlog : Nat.log2 m < 24 := (Nat.log2_lt hm.ne').mpr hm24
  have hpos : (0 : ℝ) < m * 2 ^ e := mul_pos (by exact_mod_cast hm) (by positivity)
  intro hx
  have hs := sign_of_pos hpos (hval ▸ hx)
  have hX : fp32Val x = m * 2 ^ e := by rw [hval, hs]; simp [signOf]
  rw [hs] at hdec
  rw [hX, flg2Val_fin v c hm.ne' hdec]
  by_cases hpow : isPow2 m = true
  · rw [if_pos hpow]
    have hlogb : Real.logb 2 (m * 2 ^ e) = (((Nat.log2 m : Int) + e : Int) : ℝ) := by
      rw [isPow2_value hpow, ← Real.rpow_intCast, Real.logb_rpow two_pos (by norm_num)]
    have hexact := round_log_exact v.ftz (lg := (Nat.log2 m : Int) + e) (by omega) (by omega)
    dsimp only at hexact
    rw [hlogb]
    refine ⟨fun _ _ => ⟨hexact.1, ?_⟩, fun _ => withinUlps_exact (by norm_num) hexact.1 hexact.2.1, fun k hk => ?_,
      fun h => absurd ⟨_, isPow2_value hpow e⟩ h⟩
    · rw [hexact.2.1, sub_self, abs_zero]
      positivity
    · obtain ⟨-, rfl⟩ := isPow2_of_value hm hk
      exact hexact
  · rw [if_neg hpow]
    have hnear := logFix_near hm hm24 hpow e
    have hnot (k : ℤ) (hk : (m : ℝ) * 2 ^ e = 2 ^ k) : False := hpow (isPow2_of_value hm hk).1
    have hlower := two_zpow_log2_le hm e
    have hupper := lt_two_zpow_log2 m e
    have hnx := fun tol te => (approx_spec v.ftz c (logFix m e < 0) (logFix m e).natAbs (-160)
      (nearFp (logFix m e < 0) (logFix m e).natAbs (-160) tol te)).1
    generalize (Nat.log2 m : Int) + e = lg at *
    refine ⟨fun h1 h2 => ?_, fun h => ?_, fun k hk => (hnot k hk).elim, fun _ => hnx _ _⟩
    · have hhalf : lg = 0 ∨ lg = -1 := by
        have h3 : (2 : ℝ) ^ (-1 : ℤ) < 2 ^ (lg + 1) := lt_of_le_of_lt (by norm_num at h1 ⊢; exact h1) hupper
        have h4 : (2 : ℝ) ^ lg ≤ 2 ^ (1 : ℤ) := hlower.trans (by norm_num at h2 ⊢; exact h2)
        rw [zpow_lt_zpow_iff_right₀ one_lt_two] at h3
        rw [zpow_le_zpow_iff_right₀ one_lt_two] at h4
        have h5 : lg ≠ 1 := by
          rintro rfl
          refine hnot 1 (le_antisymm ?_ hlower)
          rw [zpow_one]
          exact h2
        omega
      rw [if_pos hhalf, if_pos hhalf]
      obtain ⟨hfin, hle⟩ := approx_near_abs v.ftz c (i := logFix m e) (by have := hnear.floor; omega) (te := -22) le_rfl
      refine ⟨hfin, (abs_sub_le _ ((logFix m e : ℝ) * 2 ^ (-160 : ℤ)) _).trans ((add_le_add hle hnear.near).trans ?_)⟩
      norm_num
    · have haway : 1 ≤ lg ∨ lg ≤ -2 := by
        rcases h with h | h
        · have h3 : (2 : ℝ) ^ lg < 2 ^ (-1 : ℤ) := hlower.trans_lt (by norm_num at h ⊢; exact h)
          rw [zpow_lt_zpow_iff_right₀ one_lt_two] at h3
          omega
        · have h3 : (2 : ℝ) ^ (1 : ℤ) < 2 ^ (lg + 1) := lt_trans (by rwa [zpow_one]) hupper
          rw [zpow_lt_zpow_iff_right₀ one_lt_two] at h3
          omega
      have hhalf : ¬ (lg = 0 ∨ lg = -1) := by omega
      rw [if_neg hhalf, if_neg hhalf]
      obtain ⟨hlarge, happrox, hsign, hsize⟩ := log_approximated hnear haway
      obtain ⟨-, r, hr, hcase⟩ := approx_spec v.ftz c (logFix m e < 0) (logFix m e).natAbs (-160)
        (nearFp (logFix m e < 0) (logFix m e).natAbs (-160) 2 (ulpExp (logFix m e).natAbs (-160)))
      have hwithin : WithinUlps (2 + 1 / 2 ^ 50) (Real.logb 2 (m * 2 ^ e)) r := by
        rw [hsign]
        rcases hcase with hkeep | rfl
        · exact happrox.nearFp_within hlarge hkeep
        · exact happrox.round_within _ (by norm_num)
      rw [hr, fp32_flush_normal _ (normal_of_withinUlps hwithin (by norm_num) (le_trans (by norm_num) hsize))]
      exact hwithin

end Sys2Proof.Machine

/-! Sine and cosine (R133): the fixed-point series from which the bounds of `fsin` and `fcos` are measured. -/

namespace Sys2Proof.Machine

open Sys2Proof.Safety

-- The series in fixed point

/-- The partial sum that the model's series follows: `z` the square of the argument, `t` the first term. -/
noncomputable def trigSum : Nat → Nat → ℝ → ℝ → ℝ
  | 0, _, _, _ => 0
  | n + 1, j, z, t => t + trigSum n (j + 2) z (-(t * z) / ((j + 1) * (j + 2)))

theorem int_div_near (a : Int) {b : Int} (hb : 0 < b) : |((a / b : Int) : ℝ) - a / b| ≤ 1 := by
  have hb' : (0 : ℝ) < b := by exact_mod_cast hb
  have h1 : ((a / b : Int) : ℝ) * b ≤ a := by exact_mod_cast Int.ediv_mul_le a hb.ne'
  have h2 : (a : ℝ) ≤ (((a / b : Int) : ℝ) + 1) * b := by exact_mod_cast (Int.lt_ediv_add_one_mul_self a hb).le
  rw [← le_div_iff₀ hb'] at h1
  rw [← div_le_iff₀ hb'] at h2
  rw [abs_le]
  constructor <;> linarith

/-- One term from the one before. -/
theorem trigTerm_near {j : Nat} {x2 term : Int} {t z C : ℝ} (hz0 : 0 ≤ z) (hz : z ≤ 10) (hx : |(x2 : ℝ) / 2 ^ 160 - z| ≤ 1 / 2 ^ 160)
    (hx0 : 0 ≤ x2) (hxz : (x2 : ℝ) / 2 ^ 160 ≤ z) (hterm : |(term : ℝ) - t| ≤ C) (ht : |t| ≤ C * 2 ^ 160) (hC : 1 ≤ C) :
    |((-(term * x2 / 2 ^ 160) / ((j + 1) * (j + 2) : Nat) : Int) : ℝ) - -(t * z) / ((j + 1) * (j + 2))| ≤ 7 * C ∧
    |-(t * z) / ((j + 1) * (j + 2))| ≤ 7 * C * 2 ^ 160 := by
  have hD : (2 : ℝ) ≤ ((j : ℝ) + 1) * (j + 2) := by
    have : (0 : ℝ) ≤ j := j.cast_nonneg
    nlinarith
  have hD0 : (0 : ℝ) < ((j : ℝ) + 1) * (j + 2) := by linarith
  have hdiv {a : ℝ} : |a / (((j : ℝ) + 1) * (j + 2))| ≤ |a| / 2 := by
    rw [abs_div, abs_of_pos hD0]
    exact div_le_div_of_nonneg_left (abs_nonneg a) two_pos hD
  have h1 := int_div_near (term * x2) (b := 2 ^ 160) (by norm_num)
  have h2 := int_div_near (-(term * x2 / 2 ^ 160)) (b := (((j + 1) * (j + 2) : Nat) : Int)) (by positivity)
  have hX0 : 0 ≤ (x2 : ℝ) / 2 ^ 160 := div_nonneg (by exact_mod_cast hx0) (by positivity)
  have h3 : |(term : ℝ) * (x2 / 2 ^ 160) - t * z| ≤ 11 * C := by
    have hsplit : (term : ℝ) * (x2 / 2 ^ 160) - t * z = (term - t) * (x2 / 2 ^ 160) + t * (x2 / 2 ^ 160 - z) := by ring
    rw [hsplit]
    refine (abs_add_le _ _).trans ?_
    rw [abs_mul, abs_mul, abs_of_nonneg hX0]
    have ha : |(term : ℝ) - t| * (x2 / 2 ^ 160) ≤ C * 10 := mul_le_mul hterm (by linarith) hX0 (by linarith)
    have hb : |t| * |(x2 : ℝ) / 2 ^ 160 - z| ≤ C * 2 ^ 160 * (1 / 2 ^ 160) := mul_le_mul ht hx (abs_nonneg _) (by positivity)
    have hc : C * 2 ^ 160 * (1 / 2 ^ 160) = C := by field_simp
    linarith
  generalize hq : term * x2 / 2 ^ 160 = q at *
  have h4 : |(q : ℝ) - t * z| ≤ 1 + 11 * C := by
    have h5 : |(q : ℝ) - term * (x2 / 2 ^ 160)| ≤ 1 := by
      rw [mul_div_assoc']
      rw [Int.cast_mul, Int.cast_pow, Int.cast_ofNat] at h1
      exact h1
    exact (abs_sub_le _ _ _).trans (add_le_add h5 h3)
  constructor
  · have h6 : |(-(q : ℝ)) / ((j + 1) * (j + 2)) - -(t * z) / ((j + 1) * (j + 2))| ≤ (1 + 11 * C) / 2 := by
      rw [← sub_div, neg_sub_neg]
      refine hdiv.trans (div_le_div_of_nonneg_right ?_ two_pos.le)
      rwa [abs_sub_comm]
    push_cast at h2 ⊢
    refine (abs_sub_le _ _ _).trans ((add_le_add h2 h6).trans ?_)
    linarith
  · refine hdiv.trans ?_
    rw [abs_neg, abs_mul, abs_of_nonneg hz0]
    have h7 : |t| * z ≤ C * 2 ^ 160 * 10 := mul_le_mul ht hz hz0 (by positivity)
    have h8 : 0 ≤ C * 2 ^ 160 := by positivity
    linarith

/-- The model's series, in whose terms each error grows at most sevenfold. -/
theorem trigSeries_near (n : Nat) : ∀ (j : Nat) (x2 term acc : Int) (t z C : ℝ), 0 ≤ z → z ≤ 10 → |(x2 : ℝ) / 2 ^ 160 - z| ≤ 1 / 2 ^ 160 →
    0 ≤ x2 → (x2 : ℝ) / 2 ^ 160 ≤ z → |(term : ℝ) - t| ≤ C → |t| ≤ C * 2 ^ 160 → 1 ≤ C →
    |(trigSeries n j x2 term acc : ℝ) - (acc + trigSum n j z t)| ≤ C * (7 ^ n - 1) := by
  induction n with
  | zero => intros; simp [trigSeries, trigSum]
  | succ n ih =>
    intro j x2 term acc t z C hz0 hz hx hx0 hxz hterm ht hC
    obtain ⟨hterm', ht'⟩ := trigTerm_near (j := j) hz0 hz hx hx0 hxz hterm ht hC
    have h := ih (j + 2) x2 _ (acc + term) _ z (7 * C) hz0 hz hx hx0 hxz hterm' ht' (by linarith)
    have hpow : (1 : ℝ) ≤ 7 ^ n := one_le_pow₀ (by norm_num)
    unfold trigSeries trigSum
    dsimp only
    generalize (trigSeries n (j + 2) x2 _ (acc + term) : ℝ) = S at *
    generalize trigSum n (j + 2) z _ = R at *
    rw [Int.cast_add] at h
    have hsplit : S - ((acc : ℝ) + (t + R)) = (S - (acc + term + R)) + (term - t) := by ring
    rw [hsplit, pow_succ]
    refine (abs_add_le _ _).trans ((add_le_add h hterm).trans ?_)
    linarith

-- The series and the functions

theorem trigSum_eq (n : Nat) (r : ℝ) : ∀ (j : Nat) (c : ℝ), trigSum n j (r ^ 2) (c * (r ^ j / j.factorial)) =
    c * ∑ i ∈ Finset.range n, (-1) ^ i * (r ^ (j + 2 * i) / (j + 2 * i).factorial) := by
  induction n with
  | zero => simp [trigSum]
  | succ n ih =>
    intro j c
    have hnext : -(c * (r ^ j / j.factorial) * r ^ 2) / ((j + 1) * (j + 2)) = -c * (r ^ (j + 2) / (j + 2).factorial) := by
      have hf : ((j + 2).factorial : ℝ) = (j + 2) * ((j + 1) * j.factorial) := by
        rw [Nat.factorial_succ, Nat.factorial_succ]
        push_cast
        ring
      have hj : (j.factorial : ℝ) ≠ 0 := by exact_mod_cast j.factorial_ne_zero
      rw [hf, pow_add]
      field_simp
    rw [trigSum, hnext, ih, Finset.sum_range_succ', mul_add, Finset.mul_sum, Finset.mul_sum]
    rw [add_comm]
    congr 1
    · refine Finset.sum_congr rfl fun i _ => ?_
      rw [show j + 2 + 2 * i = j + 2 * (i + 1) by ring, pow_succ]
      ring
    · simp

/-- The partial sums of the exponential on the imaginary axis. -/
theorem sum_range_imaginary (n : Nat) (r : ℝ) : ∑ m ∈ Finset.range (2 * n), ((r : ℂ) * Complex.I) ^ m / (m.factorial : ℂ) =
    ((∑ i ∈ Finset.range n, (-1) ^ i * (r ^ (0 + 2 * i) / (0 + 2 * i).factorial) : ℝ) : ℂ) +
    ((∑ i ∈ Finset.range n, (-1) ^ i * (r ^ (1 + 2 * i) / (1 + 2 * i).factorial) : ℝ) : ℂ) * Complex.I := by
  induction n with
  | zero => simp
  | succ n ih =>
    have hI : (Complex.I) ^ (2 * n) = (-1) ^ n := by rw [pow_mul, Complex.I_sq]
    rw [show 2 * (n + 1) = 2 * n + 1 + 1 by ring, Finset.sum_range_succ, Finset.sum_range_succ, ih, Finset.sum_range_succ _ n, Finset.sum_range_succ _ n,
      mul_pow, mul_pow, pow_succ Complex.I, hI, zero_add, add_comm 1 (2 * n)]
    push_cast
    ring

/-- Of an argument up to 4 the first 32 terms give sine and cosine. -/
theorem trig_series_near {r : ℝ} (hr : |r| ≤ 4) :
    |(∑ i ∈ Finset.range 32, (-1) ^ i * (r ^ (0 + 2 * i) / (0 + 2 * i).factorial)) - Real.cos r| ≤ 1 / 2 ^ 100 ∧
    |(∑ i ∈ Finset.range 32, (-1) ^ i * (r ^ (1 + 2 * i) / (1 + 2 * i).factorial)) - Real.sin r| ≤ 1 / 2 ^ 100 := by
  have hnorm : ‖(r : ℂ) * Complex.I‖ = |r| := by simp
  have hbound := Complex.exp_bound' (x := (r : ℂ) * Complex.I) (n := 2 * 32) (by rw [hnorm, div_le_iff₀ (by positivity)]; push_cast; linarith)
  rw [sum_range_imaginary, hnorm, Complex.exp_mul_I, ← Complex.ofReal_cos, ← Complex.ofReal_sin] at hbound
  have hsmall : |r| ^ (2 * 32) / ((2 * 32 : Nat).factorial : ℝ) * 2 ≤ 1 / 2 ^ 100 := by
    calc |r| ^ (2 * 32) / ((2 * 32 : Nat).factorial : ℝ) * 2 ≤ 4 ^ (2 * 32) / ((2 * 32 : Nat).factorial : ℝ) * 2 := by gcongr
      _ ≤ 1 / 2 ^ 100 := by norm_num [Nat.factorial]
  generalize (∑ i ∈ Finset.range 32, (-1) ^ i * (r ^ (0 + 2 * i) / (0 + 2 * i).factorial) : ℝ) = a at *
  generalize (∑ i ∈ Finset.range 32, (-1) ^ i * (r ^ (1 + 2 * i) / (1 + 2 * i).factorial) : ℝ) = b at *
  have hsplit : ((Real.cos r : ℝ) : ℂ) + (Real.sin r : ℝ) * Complex.I - ((a : ℂ) + (b : ℂ) * Complex.I) =
      ((Real.cos r - a : ℝ) : ℂ) + ((Real.sin r - b : ℝ) : ℂ) * Complex.I := by
    push_cast
    ring
  have hparts (x y : ℝ) : ((x : ℂ) + (y : ℂ) * Complex.I).re = x ∧ ((x : ℂ) + (y : ℂ) * Complex.I).im = y := by simp
  rw [hsplit] at hbound
  have hle := hbound.trans hsmall
  have hre := (Complex.abs_re_le_norm _).trans hle
  have him := (Complex.abs_im_le_norm _).trans hle
  rw [(hparts _ _).1] at hre
  rw [(hparts _ _).2] at him
  rw [abs_sub_comm a, abs_sub_comm b]
  exact ⟨hre, him⟩

-- The reduced argument

/-- What is left of an argument at scale 2^-160 modulo the model's 2 π. -/
def reduced (i : Int) : Int := if 2 * (i % twoPiFix) > twoPiFix then i % twoPiFix - twoPiFix else i % twoPiFix

theorem trigFix_eq (cos s : Bool) (m : Nat) (e : Int) : trigFix cos s m e =
    if cos then trigSeries 32 0 (reduced (fix160 s m e) * reduced (fix160 s m e) / 2 ^ 160) (2 ^ 160) 0
    else trigSeries 32 1 (reduced (fix160 s m e) * reduced (fix160 s m e) / 2 ^ 160) (reduced (fix160 s m e)) 0 := rfl

theorem reduced_spec (i : Int) : ∃ j : Int, reduced i = i - j * twoPiFix ∧ |2 * reduced i| ≤ twoPiFix := by
  have hpos : (0 : Int) < twoPiFix := by decide
  have h0 := Int.emod_nonneg i hpos.ne'
  have h1 := Int.emod_lt_of_pos i hpos
  have hi := Int.ediv_mul_add_emod i twoPiFix
  unfold reduced
  generalize (twoPiFix : Int) = P at *
  split
  · exact ⟨i / P + 1, by linarith, abs_le.mpr ⟨by linarith, by linarith⟩⟩
  · exact ⟨i / P, by linarith, abs_le.mpr ⟨by linarith, by linarith⟩⟩

/-- The model's 2 π. -/
theorem twoPiFix_near : |(twoPiFix : ℝ) / 2 ^ 160 - 2 * Real.pi| ≤ 1 / 2 ^ 64 := by
  have h1 := Real.pi_gt_d20
  have h2 := Real.pi_lt_d20
  have h3 : (6.28318530717958647692 : ℝ) ≤ (twoPiFix : ℝ) / 2 ^ 160 := by norm_num [twoPiFix]
  have h4 : (twoPiFix : ℝ) / 2 ^ 160 ≤ 6.28318530717958647693 := by norm_num [twoPiFix]
  rw [abs_le]
  constructor <;> norm_num at * <;> linarith

/-- The reduced argument is near one that has the same sine and cosine. -/
theorem reduced_near {i : Int} {x : ℝ} (hx : (i : ℝ) / 2 ^ 160 = x) (hi : |x| ≤ 3217) :
    |(reduced i : ℝ) / 2 ^ 160| ≤ 3.15 ∧ ∃ j : Int, |(reduced i : ℝ) / 2 ^ 160 - (x - j * (2 * Real.pi))| ≤ 1 / 2 ^ 54 := by
  obtain ⟨j, hj, hle⟩ := reduced_spec i
  have hP := twoPiFix_near
  have hp : (0 : ℝ) < 2 ^ 160 := by positivity
  have h3 : (6.28 : ℝ) ≤ (twoPiFix : ℝ) / 2 ^ 160 := by norm_num [twoPiFix]
  have h4 : (twoPiFix : ℝ) / 2 ^ 160 ≤ 6.29 := by norm_num [twoPiFix]
  have hr : (reduced i : ℝ) / 2 ^ 160 = x - j * ((twoPiFix : ℝ) / 2 ^ 160) := by
    rw [hj, ← hx]
    push_cast
    ring
  have hsmall : |(reduced i : ℝ) / 2 ^ 160| ≤ 3.15 := by
    have h : |(2 * (reduced i : ℝ))| ≤ twoPiFix := by exact_mod_cast hle
    rw [abs_mul, abs_two] at h
    rw [abs_div, abs_of_pos hp]
    have := div_le_div_of_nonneg_right h hp.le
    rw [mul_div_assoc] at this
    linarith
  refine ⟨hsmall, j, ?_⟩
  have hjb : |(j : ℝ)| ≤ 1024 := by
    have h : |(j : ℝ) * ((twoPiFix : ℝ) / 2 ^ 160)| ≤ 3221 := by
      rw [show (j : ℝ) * ((twoPiFix : ℝ) / 2 ^ 160) = x - (reduced i : ℝ) / 2 ^ 160 by rw [hr]; ring]
      refine (abs_sub _ _).trans ?_
      linarith
    rw [abs_mul, abs_of_pos (by linarith : (0 : ℝ) < (twoPiFix : ℝ) / 2 ^ 160)] at h
    have := mul_le_mul_of_nonneg_left h3 (abs_nonneg (j : ℝ))
    linarith
  rw [hr, show x - j * ((twoPiFix : ℝ) / 2 ^ 160) - (x - j * (2 * Real.pi)) = -(j * ((twoPiFix : ℝ) / 2 ^ 160 - 2 * Real.pi)) by ring, abs_neg, abs_mul]
  calc |(j : ℝ)| * |(twoPiFix : ℝ) / 2 ^ 160 - 2 * Real.pi| ≤ 1024 * (1 / 2 ^ 64) := mul_le_mul hjb hP (abs_nonneg _) (by norm_num)
    _ = 1 / 2 ^ 54 := by norm_num

/-- Sine or cosine. -/
noncomputable def trigFn (cos : Bool) : ℝ → ℝ := if cos then Real.cos else Real.sin

/-- The model's series of a reduced argument. -/
theorem trigSeries_sum {r : Int} (hr : |(r : ℝ) / 2 ^ 160| ≤ 3.15) (j : Nat) {term : Int}
    (hterm : (term : ℝ) = 2 ^ 160 * (((r : ℝ) / 2 ^ 160) ^ j / j.factorial)) (ht : |(term : ℝ)| ≤ 4 * 2 ^ 160) :
    |(trigSeries 32 j (r * r / 2 ^ 160) term 0 : ℝ) * 2 ^ (-160 : ℤ) -
      ∑ i ∈ Finset.range 32, (-1) ^ i * (((r : ℝ) / 2 ^ 160) ^ (j + 2 * i) / (j + 2 * i).factorial)| ≤ 1 / 2 ^ 60 := by
  have hp : (0 : ℝ) < 2 ^ 160 := by positivity
  have hz : ((r : ℝ) / 2 ^ 160) ^ 2 ≤ 10 := by
    rw [← sq_abs]
    have := pow_le_pow_left₀ (abs_nonneg _) hr 2
    linarith [show (3.15 : ℝ) ^ 2 ≤ 10 by norm_num]
  have hsq : ((r : ℝ) / 2 ^ 160) ^ 2 = (r * r : ℝ) / 2 ^ 160 / 2 ^ 160 := by ring
  have hle : ((r * r / 2 ^ 160 : Int) : ℝ) * 2 ^ 160 ≤ r * r := by
    have h := Int.ediv_mul_le (r * r) (by norm_num : (2 : Int) ^ 160 ≠ 0)
    have h' := (Int.cast_le (R := ℝ)).mpr h
    rwa [Int.cast_mul, Int.cast_mul, Int.cast_pow, Int.cast_ofNat] at h'
  have hxz : ((r * r / 2 ^ 160 : Int) : ℝ) / 2 ^ 160 ≤ ((r : ℝ) / 2 ^ 160) ^ 2 := by
    rw [hsq]
    exact div_le_div_of_nonneg_right ((le_div_iff₀ hp).mpr hle) hp.le
  have hx : |((r * r / 2 ^ 160 : Int) : ℝ) / 2 ^ 160 - ((r : ℝ) / 2 ^ 160) ^ 2| ≤ 1 / 2 ^ 160 := by
    have h := int_div_near (r * r) (b := 2 ^ 160) (by norm_num)
    rw [Int.cast_mul, Int.cast_pow, Int.cast_ofNat] at h
    rw [hsq, ← sub_div, abs_div, abs_of_pos hp]
    exact div_le_div_of_nonneg_right h hp.le
  have hx0 : 0 ≤ r * r / 2 ^ 160 := Int.ediv_nonneg (mul_self_nonneg r) (by norm_num)
  have h := trigSeries_near 32 j _ term 0 term _ 4 (sq_nonneg _) hz hx hx0 hxz (by simp) ht (by norm_num)
  have hsum : trigSum 32 j (((r : ℝ) / 2 ^ 160) ^ 2) term = 2 ^ 160 *
      ∑ i ∈ Finset.range 32, (-1) ^ i * (((r : ℝ) / 2 ^ 160) ^ (j + 2 * i) / (j + 2 * i).factorial) := by rw [hterm, trigSum_eq]
  rw [Int.cast_zero, zero_add, hsum] at h
  generalize (∑ i ∈ Finset.range 32, (-1) ^ i * (((r : ℝ) / 2 ^ 160) ^ (j + 2 * i) / (j + 2 * i).factorial) : ℝ) = S at *
  have hscale := mul_le_mul_of_nonneg_right h (by positivity : (0 : ℝ) ≤ 2 ^ (-160 : ℤ))
  rw [← abs_of_pos (by positivity : (0 : ℝ) < 2 ^ (-160 : ℤ)), ← abs_mul, abs_of_pos (by positivity : (0 : ℝ) < 2 ^ (-160 : ℤ)), sub_mul,
    show (2 : ℝ) ^ 160 * S * 2 ^ (-160 : ℤ) = S by norm_num; ring] at hscale
  exact hscale.trans (by norm_num)

/-- Sine and cosine of the model, at scale 2^-160. -/
theorem trigFix_near (cos s : Bool) (m : Nat) {e : Int} (he : -149 ≤ e) {x : ℝ} (hx : x = signOf s * (m * (2 : ℝ) ^ e)) (hle : |x| ≤ 3217) :
    |(trigFix cos s m e : ℝ) * 2 ^ (-160 : ℤ) - trigFn cos x| ≤ 1 / 2 ^ 53 := by
  have hfix : (fix160 s m e : ℝ) / 2 ^ 160 = x := by rw [fix160_cast _ _ he, ← hx, mul_div_cancel_right₀ _ (by positivity)]
  obtain ⟨hsmall, j, hj⟩ := reduced_near hfix hle
  rw [trigFix_eq]
  generalize reduced (fix160 s m e) = r at *
  obtain ⟨hcos, hsin⟩ := trig_series_near (hsmall.trans (by norm_num))
  have hbudget : (1 : ℝ) / 2 ^ 60 + (1 / 2 ^ 100 + 1 / 2 ^ 54) ≤ 1 / 2 ^ 53 := by norm_num
  cases cos with
  | true =>
    have h := trigSeries_sum hsmall 0 (term := 2 ^ 160) (by norm_num) (by norm_num)
    have hshift : |Real.cos ((r : ℝ) / 2 ^ 160) - Real.cos x| ≤ 1 / 2 ^ 54 := by
      rw [← Real.cos_sub_int_mul_two_pi x j]
      exact (Real.abs_cos_sub_cos_le _ _).trans hj
    rw [if_pos rfl, trigFn, if_pos rfl]
    exact (abs_sub_le _ _ _).trans ((add_le_add h ((abs_sub_le _ _ _).trans (add_le_add hcos hshift))).trans hbudget)
  | false =>
    have hr : (r : ℝ) = 2 ^ 160 * (((r : ℝ) / 2 ^ 160) ^ 1 / Nat.factorial 1) := by
      rw [pow_one, Nat.factorial_one, Nat.cast_one, div_one]
      field_simp
    have hlarge : |(r : ℝ)| ≤ 4 * 2 ^ 160 := by
      rw [abs_div, abs_of_pos (by positivity : (0 : ℝ) < 2 ^ 160), div_le_iff₀ (by positivity)] at hsmall
      linarith [show (0 : ℝ) < 2 ^ 160 by positivity]
    have h := trigSeries_sum hsmall 1 (term := r) hr hlarge
    have hshift : |Real.sin ((r : ℝ) / 2 ^ 160) - Real.sin x| ≤ 1 / 2 ^ 54 := by
      rw [← Real.sin_sub_int_mul_two_pi x j]
      exact (Real.abs_sin_sub_sin_le _ _).trans hj
    rw [if_neg Bool.false_ne_true, trigFn, if_neg Bool.false_ne_true]
    exact (abs_sub_le _ _ _).trans ((add_le_add h ((abs_sub_le _ _ _).trans (add_le_add hsin hshift))).trans hbudget)

-- The range of the reduction

theorem exists_significand (f : Fmt) (k : Nat) : ∃ n j, k = n + j * 2 ^ f.mb ∧ n < 2 ^ (f.mb + 1) ∧ (j = 0 ∨ 2 ^ f.mb ≤ n) := by
  have hp := Nat.two_pow_pos f.mb
  have hmod := Nat.mod_lt k hp
  by_cases h : k < 2 ^ f.mb
  · exact ⟨k, 0, by simp, h.trans (Nat.pow_lt_pow_succ (by decide)), .inl rfl⟩
  · obtain ⟨q, hq⟩ := Nat.exists_eq_add_of_le' ((Nat.one_le_div_iff hp).mpr (not_lt.mp h))
    have hk := Nat.div_add_mod' k (2 ^ f.mb)
    rw [hq, add_mul, one_mul] at hk
    exact ⟨2 ^ f.mb + k % 2 ^ f.mb, q, by omega, by rw [pow_succ]; omega, .inr (Nat.le_add_right ..)⟩

/-- Codes stand in the order of their values. -/
theorem codeValue_mono (f : Fmt) : Monotone (codeValue f) := by
  refine monotone_nat_of_le_succ fun k => ?_
  obtain ⟨n, j, rfl, hn, hj⟩ := exists_significand f k
  have hsucc : n + j * 2 ^ f.mb + 1 = n + 1 + j * 2 ^ f.mb := by ring
  rw [hsucc, codeValue_of_lt f hn hj, Fmt.Significand.codeValue ⟨hn, hj.imp_right Nat.le_succ_of_le⟩]
  exact mul_le_mul_of_nonneg_right (by push_cast; linarith) (f.ulp_pos j).le

/-- The magnitude of a finite code. -/
theorem fp32_abs {x : Nat} (hx : x < 2 ^ 32) (he : fmt32.expo x ≠ 255) :
    x % 2 ^ 31 < fmt32.inf false ∧ |fp32Val x| = ((codeValue fmt32 (x % 2 ^ 31) : ℚ) : ℝ) := by
  have hcode := Fmt.code_eq (f := fmt32) (.inl rfl) hx
  have hlt : x % 2 ^ 31 < fmt32.inf false := by
    rw [fp32_inf_false]
    unfold Fmt.expo at he
    simp only [fmt32] at he
    omega
  obtain ⟨-, hv⟩ := fp32_code (fmt32.sign x) hlt
  refine ⟨hlt, ?_⟩
  have h0 : (0 : ℚ) ≤ codeValue fmt32 (x % 2 ^ 31) := by
    have := codeValue_mono fmt32 (Nat.zero_le (x % 2 ^ 31))
    simpa [codeValue] using this
  rw [show fp32Val x = fp32Val (fmt32.signBit (fmt32.sign x) + x % 2 ^ 31) from congrArg fp32Val hcode, hv, abs_signOf_mul,
    abs_of_nonneg (by exact_mod_cast h0)]

/-- Beyond the range of the reduction the free value is taken where it is no more than 1. -/
theorem fp32_free_le_one (c : Word) : fmt32.expo (if c.toNat % 2 ^ 31 ≤ 0x3F800000 then c.toNat else 0) ≠ 255 ∧
    |fp32Val (if c.toNat % 2 ^ 31 ≤ 0x3F800000 then c.toNat else 0)| ≤ 1 := by
  have key {r : Nat} (hr : r < 2 ^ 32) (hle : r % 2 ^ 31 ≤ 0x3F800000) : fmt32.expo r ≠ 255 ∧ |fp32Val r| ≤ 1 := by
    have he : fmt32.expo r ≠ 255 := by
      unfold Fmt.expo
      simp only [fmt32]
      omega
    have h := codeValue_mono fmt32 hle
    have hone : codeValue fmt32 0x3F800000 = 1 := by norm_num [codeValue, fmt32]
    rw [hone] at h
    refine ⟨he, ?_⟩
    rw [(fp32_abs hr he).2]
    exact_mod_cast h
  split
  next h => exact key c.isLt h
  next => exact key (Nat.two_pow_pos 32) (Nat.zero_le _)

theorem trigVal_fin (cos : Bool) (v : FpEnv) (c : Word) {x : Nat} {s : Bool} {m : Nat} {e : Int} (hm : m ≠ 0) (h : fmt32.dec x = .fin s m e) :
    trigVal cos v c x = if x % 2 ^ 31 ≤ 0x45490FDA then
        approx v.ftz c (trigFix cos s m e < 0) (trigFix cos s m e).natAbs (-160)
          (nearFp (trigFix cos s m e < 0) (trigFix cos s m e).natAbs (-160) 1 (-21))
      else (fmt32.flush v.ftz (if c.toNat % 2 ^ 31 ≤ 0x3F800000 then c.toNat else 0),
        flNX ||| flIf (fmt32.expo (if c.toNat % 2 ^ 31 ≤ 0x3F800000 then c.toNat else 0) == 0 &&
          fmt32.frac (if c.toNat % 2 ^ 31 ≤ 0x3F800000 then c.toNat else 0) != 0) flUF) := by
  obtain ⟨k, rfl⟩ := Nat.exists_eq_succ_of_ne_zero hm
  rw [trigVal, h]
  rfl

/-- `fsin` and `fcos` keep their bound (R133). -/
theorem trig_bound (cos : Bool) (v : FpEnv) (c : Word) {x : Nat} (hx : x < 2 ^ 32) (he : fmt32.expo x ≠ 255) (h0 : x % 2 ^ 31 ≠ 0) :
    trigBound (trigFn cos) v.ftz (fp32Val x) (trigVal cos v c x).1 (trigVal cos v c x).2 := by
  obtain ⟨m, e, hdec, hm, -, hlo, -, hval⟩ := fp32_operand he h0
  obtain ⟨-, habs⟩ := fp32_abs hx he
  have hpi1 := Real.pi_gt_d20
  have hpi2 := Real.pi_lt_d20
  rw [trigVal_fin cos v c hm.ne' hdec]
  by_cases hrange : x % 2 ^ 31 ≤ 0x45490FDA
  · have hmax : |fp32Val x| ≤ 13176794 / 4096 := by
      have h := codeValue_mono fmt32 hrange
      rw [habs]
      have h' : codeValue fmt32 0x45490FDA = 13176794 / 4096 := by norm_num [codeValue, fmt32]
      rw [h'] at h
      have hcast := (Rat.cast_le (K := ℝ)).mpr h
      rwa [Rat.cast_div, Rat.cast_ofNat, Rat.cast_ofNat] at hcast
    have hnear := trigFix_near cos (fmt32.sign x) m hlo hval (hmax.trans (by norm_num))
    have hone : |trigFn cos (fp32Val x)| ≤ 1 := by
      cases cos with
      | true => exact Real.abs_cos_le_one _
      | false => exact Real.abs_sin_le_one _
    rw [if_pos hrange]
    generalize trigFix cos (fmt32.sign x) m e = t at *
    have ht : t.natAbs < 2 ^ 161 := by
      have htri := (abs_sub_abs_le_abs_sub ((t : ℝ) * 2 ^ (-160 : ℤ)) (trigFn cos (fp32Val x))).trans hnear
      have h : |(t : ℝ) * 2 ^ (-160 : ℤ)| < 2 := ((sub_le_iff_le_add.mp htri).trans (add_le_add le_rfl hone)).trans_lt (by norm_num)
      rw [abs_mul, abs_of_pos (by positivity : (0 : ℝ) < 2 ^ (-160 : ℤ))] at h
      have h' : |(t : ℝ)| < 2 ^ 161 := by
        norm_num at h ⊢
        linarith
      have h'' : |t| < 2 ^ 161 := by exact_mod_cast h'
      rw [abs_lt] at h''
      omega
    obtain ⟨hfin, hle⟩ := approx_near_abs v.ftz c ht (te := -21) (by norm_num)
    refine ⟨hfin, (approx_spec ..).1, fun _ => ?_, fun h => absurd h (not_lt.mpr ?_)⟩
    · refine (abs_sub_le _ ((t : ℝ) * 2 ^ (-160 : ℤ)) _).trans ((add_le_add hle hnear).trans ?_)
      norm_num
    · linarith
  · have hmin : 13176795 / 4096 ≤ |fp32Val x| := by
      have h := codeValue_mono fmt32 (show 0x45490FDB ≤ x % 2 ^ 31 by omega)
      rw [habs]
      have h' : codeValue fmt32 0x45490FDB = 13176795 / 4096 := by norm_num [codeValue, fmt32]
      rw [h'] at h
      have hcast := (Rat.cast_le (K := ℝ)).mpr h
      rwa [Rat.cast_div, Rat.cast_ofNat, Rat.cast_ofNat] at hcast
    rw [if_neg hrange]
    obtain ⟨hfin, hone⟩ := fp32_free_le_one c
    generalize (if c.toNat % 2 ^ 31 ≤ 0x3F800000 then c.toNat else 0) = r at *
    refine ⟨(fp32_flush_near v.ftz hfin).1, ?_, fun h => absurd h (not_le.mpr (by linarith)), fun _ => ?_⟩
    · have hnx (b : Bool) : Inexact (flNX ||| flIf b flUF) := by
        unfold Inexact
        cases b <;> decide
      exact hnx _
    · show |fp32Val (fmt32.flush v.ftz r)| ≤ 1
      rcases fp32_flush_cases v.ftz r with h | ⟨-, -, -, h⟩
      · rwa [h]
      · rw [h, abs_zero]
        exact zero_le_one

/-- An approximated function that keeps its bound at every finite operand that is not zero. -/
theorem computes_approximates {mk : Hdr → Arith → Instr} {lat : Nat} {free : Word → Word} {f : FpEnv → Word → Nat → Nat × Fl} {keeps : Bound}
    (hex : ∀ s h a, exec (mk h a) s = s.withIssue (mk h a) h fun x => x.approxOp a lat free f)
    (hwf : ∀ h a, (mk h a).wf = true → specFrcp.wf h a = true) (hlt : ∀ v c x, v.lane < 64 → x < 2 ^ 32 → (f v c x).1 < 2 ^ 32)
    (hkeeps : ∀ v c x, x < 2 ^ 32 → fmt32.expo x ≠ 255 → x % 2 ^ 31 ≠ 0 → keeps v.ftz (fp32Val x) (f v c x).1 (f v c x).2) :
    Computes mk specFrcp Untrapped (approximates keeps) :=
  computes_approx (P := fun v x r fl => fmt32.expo x ≠ 255 → x % 2 ^ 31 ≠ 0 → keeps v.ftz (fp32Val x) r fl) hex hwf hlt hkeeps

/-- Settles O52: each function keeps its bound around a value computed in fixed point, whose own error is far less. -/
theorem approximationsKeepTheirBounds : Obligations.ApproximationsKeepTheirBounds := by
  refine ⟨?frcp, ?frsq, ?fex2, ?flg2, ?fsin, ?fcos⟩
  case frcp =>
    exact computes_approximates (fun _ _ _ => rfl) (fun _ _ => Instr.wfA_of_wf) (fun _ c _ _ hx => frcpVal_lt c hx) fun v c _ _ => frcp_bound v c
  case frsq =>
    exact computes_approximates (fun _ _ _ => rfl) (fun _ _ => Instr.wfA_of_wf) (fun _ c _ hv hx => frsqVal_lt hv c hx) fun v c _ _ => frsq_bound v c
  case fex2 =>
    exact computes_approximates (fun _ _ _ => rfl) (fun _ _ => Instr.wfA_of_wf) (fun _ c _ _ hx => fex2Val_lt c hx) fun v c _ _ => fex2_bound v c
  case flg2 =>
    exact computes_approximates (fun _ _ _ => rfl) (fun _ _ => Instr.wfA_of_wf) (fun _ c _ hv hx => flg2Val_lt hv c hx) fun v c _ _ => flg2_bound v c
  case fsin =>
    exact computes_approximates (fun _ _ _ => rfl) (fun _ _ => Instr.wfA_of_wf) (fun _ c _ hv hx => trigVal_lt hv c hx false) fun v c _ hx =>
      trig_bound false v c hx
  case fcos =>
    exact computes_approximates (fun _ _ _ => rfl) (fun _ _ => Instr.wfA_of_wf) (fun _ c _ hv hx => trigVal_lt hv c hx true) fun v c _ hx =>
      trig_bound true v c hx

end Sys2Proof.Machine

/-! Atomics (R156, R157, R228): one that ends as it issues, at an address that nobody has. -/

namespace Sys2Proof.Tests

open Sys2Proof.Machine
open Sys2Proof.Safety

/-- An atomic without RET, acquiring at `.cl`, of lane 0 at address 0. -/
def lostAtomic : MemArg := { tM with scope := .cl, order := .acq }

/-- The page of `tPte`, at a physical address that nobody has. -/
def lostPte : Dword := tPte ||| BitVec.ofNat 64 (2 ^ 40)

def lostXlated : Xlated := { pa := 2 ^ 40, key := 0, typ := 0 }

/-- Core 0 with that page in its TLB, and one clean byte in its L1. -/
def lostCore : Core := { Core.reset with tlb := [{ va := 0, size := 2 ^ 30, asid := 0, glob := false, pte := lostPte, ptePa := 0x2000 }], l1 := [(0, (1, false))] }

def lostState : State := State.issuing { tState with cores := [(0, lostCore)] } tUser tOne

/-- The byte at address 0 in the L1 of core 0, after a step. -/
def firstByte : Host.Outcome State Fault Refusal → Option (Byte × Bool)
  | .next t => (t.core 0).l1Byte 0 0
  | _ => none

theorem lostState_issues : Issues lostState (.atomAdd tH lostAtomic) tOne tUser := ⟨rfl, rfl, rfl, by decide +kernel, by decide +kernel⟩

theorem lostState_reaches (l : Nat) : Reaches lostState tOne tUser .atomic (.atomic false) (lostAtomic.gaddr tUser l) 4 lostXlated := by
  have e : lostAtomic.gaddr tUser l = 0 := rfl
  rw [e]
  exact ⟨rfl, .inr (.inr (.inr rfl)), by unfold State.xlate; rfl⟩

/-- The atomic meets BUS_ERROR and ends; its acquire drops the clean byte. -/
theorem lostState_firstByte : firstByte (exec (.atomAdd tH lostAtomic) lostState) = none := by decide +kernel

/-- Refutes O15: a wide acquiring atomic without RET whose address nobody has ends as it issues, and its acquire part drops the clean bytes
of the L1, where the statement has them stay. -/
theorem not_atomicsBegin : ¬ Obligations.AtomicsBegin := by
  intro h
  obtain ⟨hadd, -⟩ := h lostState tOne tUser tH lostAtomic
  obtain ⟨t, ht, -, hstart, -⟩ := (hadd lostState_issues).2 (fun _ => lostXlated) (by decide +kernel) fun l _ => lostState_reaches l
  obtain ⟨-, hl1⟩ := hstart rfl
  have hkept : (t.core 0).l1Byte 0 0 = some (1, false) := hl1 _ _ rfl 0 0 (by decide)
  have hgone := lostState_firstByte
  rw [ht] at hgone
  exact absurd (hkept.symm.trans hgone) (by decide)

end Sys2Proof.Tests

/-! What accesses to memory leave alone: the groups, the operations, the allocations, the clock, the handles and the channels (R162, R236, R305). -/

namespace Sys2Proof.Machine

open Sys2Proof.Safety

/-- Between two states lie accesses to memory alone: they change memory, L1s, TLBs and counts, and the scratchpads unless they only read. -/
structure Accessed (reads : Prop) (s t : State) : Prop where
  groups : t.groups = s.groups
  ops : t.ops = s.ops
  allocs : t.allocs = s.allocs
  clock : t.clock = s.clock
  handles : ∀ k, (t.core k).handles = (s.core k).handles
  bte : ∀ k, t.bte k = s.bte k
  spads : reads → t.spads = s.spads

theorem Accessed.refl {reads : Prop} (s : State) : Accessed reads s s := ⟨rfl, rfl, rfl, rfl, fun _ => rfl, fun _ => rfl, fun _ => rfl⟩

theorem Accessed.trans {reads : Prop} {s t u : State} (h : Accessed reads s t) (h' : Accessed reads t u) : Accessed reads s u :=
  ⟨h'.groups.trans h.groups, h'.ops.trans h.ops, h'.allocs.trans h.allocs, h'.clock.trans h.clock, fun k => (h'.handles k).trans (h.handles k),
    fun k => (h'.bte k).trans (h.bte k), fun hr => (h'.spads hr).trans (h.spads hr)⟩

/-- Accesses that only read are accesses. -/
theorem Accessed.mono {reads more : Prop} {s t : State} (h : Accessed reads s t) (hr : more → reads) : Accessed more s t :=
  { h with spads := fun hm => h.spads (hr hm) }

section
variable {reads : Prop} (s : State)

-- Updates of the parts that accesses change

theorem Accessed.modMsys (f : MemSys → MemSys) : Accessed reads s (s.modMsys f) := ⟨rfl, rfl, rfl, rfl, fun _ => rfl, fun _ => rfl, fun _ => rfl⟩

theorem Accessed.modCore (k : Nat) {f : Core → Core} (hf : ∀ c, (f c).handles = c.handles) : Accessed reads s (s.modCore k f) :=
  ⟨rfl, rfl, rfl, rfl, fun j => State.core_modCore_keeps (·.handles) hf s k j, fun _ => rfl, fun _ => rfl⟩

theorem Accessed.modSpad (hr : ¬ reads) (k : Nat) (f : Spad → Spad) : Accessed reads s (s.modSpad k f) :=
  ⟨rfl, rfl, rfl, rfl, fun _ => rfl, fun _ => rfl, fun h => absurd h hr⟩

theorem Accessed.modCluster (k : Nat) {f : Cluster → Cluster} (hf : ∀ c, (f c).bte = c.bte) : Accessed reads s (s.modCluster k f) := by
  refine ⟨rfl, rfl, rfl, rfl, fun _ => rfl, fun j => ?_, fun _ => rfl⟩
  unfold State.bte
  by_cases h : j = k
  · rw [h, State.cluster_modCluster, hf]
  · rw [State.cluster, State.modCluster, SMap.get_ins, if_neg h]
    rfl

theorem Accessed.fillTlb (core asid va : Nat) (t : TlbEntry) : Accessed reads s (s.fillTlb core asid va t) := by
  have hcore : Accessed reads s (s.modCore core fun c => { c with tlb := (t :: c.tlb.filter fun x => !x.hits asid va).take 192 }) :=
    modCore s core fun _ => rfl
  exact hcore.trans (modCluster _ (clusterOf core) (f := fun c => { c with tlb := (t :: c.tlb.filter fun x => !x.hits asid va).take 4096 }) fun _ => rfl)

theorem Accessed.ite {s : State} {c : Prop} [Decidable c] {t u : State} (ht : Accessed reads s t) (hu : Accessed reads s u) :
    Accessed reads s (if c then t else u) := by
  split
  · exact ht
  · exact hu

-- Translation and bytes

theorem Accessed.walkXlate (core : Nat) (sp : Space) (acc : Access) (ok : Nat → Bool) (va : Nat) :
    Accessed reads s (s.walkXlate core sp acc ok va).1 := by
  have hclaims : Accessed reads s (s.modMsys (walkClaims va 3 sp.root)) := modMsys s _
  unfold State.walkXlate
  dsimp only
  split
  · exact hclaims
  · exact hclaims
  · split
    · exact hclaims
    · exact (ite hclaims (hclaims.trans (modMsys _ _))).trans (fillTlb _ ..)

theorem Accessed.xlate (core : Nat) (sp : Space) (acc : Access) (ok : Nat → Bool) (va : Nat) : Accessed reads s (s.xlate core sp acc ok va).1 := by
  unfold State.xlate
  split
  · exact refl s
  dsimp only
  split
  · exact walkXlate s ..
  · split
    · exact refl s
    · split
      · exact walkXlate s ..
      · exact refl s

end

end Sys2Proof.Machine

/-! Prefetch (R154) and lines read ahead (R222, R230). -/

namespace Sys2Proof.Machine

open Sys2Proof.Safety

-- `pref`

/-- What is left of the state by lanes that prefetch. -/
structure Prefetched (s t : State) : Prop where
  groups : t.groups = s.groups
  ops : t.ops = s.ops
  spads : t.spads = s.spads

theorem Prefetched.trans {s t u : State} (h : Prefetched s t) (h' : Prefetched t u) : Prefetched s u :=
  ⟨h'.groups.trans h.groups, h'.ops.trans h.ops, h'.spads.trans h.spads⟩

theorem Accessed.prefetched {s t : State} (h : Accessed True s t) : Prefetched s t := ⟨h.groups, h.ops, h.spads trivial⟩

/-- A lane of `pref` translates its address, and has a line held or asked for. -/
theorem X.prefetch_spec (x : X) (l2 : Bool) (va : Nat) : ∃ t, x.prefetch l2 va = { x with s := t } ∧ Prefetched x.s t := by
  have hx : Accessed True x.s (x.s.xlate x.core (x.s.gspace x.g) .read normalOnly va).1 := Accessed.xlate x.s ..
  unfold X.prefetch
  generalize x.s.xlate x.core (x.s.gspace x.g) .read normalOnly va = p at hx
  obtain ⟨t, r⟩ := p
  cases r with
  | error e => exact ⟨t, rfl, hx.prefetched⟩
  | ok y =>
    dsimp only
    split
    · exact ⟨t, rfl, hx.prefetched⟩
    · split
      · exact ⟨_, rfl, hx.prefetched.trans ⟨rfl, rfl, rfl⟩⟩
      · exact ⟨_, rfl, hx.prefetched.trans ⟨rfl, rfl, rfl⟩⟩

theorem X.prefetch_fold (l2 : Bool) (va : X → Nat → Nat) (ls : List Nat) (x : X) :
    ∃ t, ls.foldl (fun x l => x.prefetch l2 (va x l)) x = { x with s := t } ∧ Prefetched x.s t := by
  induction ls generalizing x with
  | nil => exact ⟨x.s, rfl, rfl, rfl, rfl⟩
  | cons l ls ih =>
    obtain ⟨t, e, h⟩ := x.prefetch_spec l2 (va x l)
    obtain ⟨u, e', h'⟩ := ih { x with s := t }
    exact ⟨u, by rw [List.foldl_cons, e, e'], h.trans h'⟩

/-- A prefetch, with or without acting lanes, lets its run go on in a state that is as it was beside memory, L1 and TLBs. -/
theorem exec_pref {s : State} {q : Issue} {g : Group} {h : Hdr} {m : MemArg} (hi : Issues s (.pref h m) q g) :
    ∃ b t, exec (.pref h m) s = .next { issueU s q g h b with s := t }.done ∧ Prefetched s t := by
  have he := exec_of_withIssue (show exec (.pref h m) s = execPref h m s from rfl) hi
  by_cases h0 : acts h q g = 0
  · exact ⟨g.sys.uniformViolation, s, he.trans (congrArg _ (if_pos h0)), rfl, rfl, rfl⟩
  · obtain ⟨b, hb⟩ := issueX_uniformU s q g h fun l => [BitVec.ofNat 64 (m.gaddr g l)]
    obtain ⟨t, ht, hk⟩ := X.prefetch_fold (m.scope == .cl) (fun x l => m.gaddr x.g l) (issueU s q g h b).acting (issueU s q g h b)
    have hbody : ((issueX s q g h).unlessEmpty fun x =>
        let x := x.uniformU fun l => [BitVec.ofNat 64 (m.gaddr x.g l)]
        (x.acting.foldl (fun x l => x.prefetch (m.scope == .cl) (m.gaddr x.g l)) x).done) = { issueU s q g h b with s := t }.done := by
      refine (if_neg h0).trans ?_
      have hb' : ((issueX s q g h).uniformU fun l => [BitVec.ofNat 64 (m.gaddr (issueX s q g h).g l)]) = issueU s q g h b := hb
      dsimp only
      rw [hb', ht]
    exact ⟨b, t, he.trans (congrArg _ hbody), hk⟩

theorem completes_pref {s : State} {q : Issue} {g : Group} {h : Hdr} {m : MemArg} (hi : Issues s (.pref h m) q g) :
    Completes (.pref h m) s fun t => GoOn t q (fun _ => nextPc h q) ∧
      ∃ k, t.group? q.gid = some k ∧ k.regs = g.regs ∧ SameSys g k ∧ k.pend = g.pend ∧ k.info = g.info ∧ k.busy = g.busy ∧
        SameOthers s t q.gid ∧ t.spads = s.spads ∧ t.ops = s.ops := by
  obtain ⟨b, t, he, hk⟩ := exec_pref hi
  refine ⟨_, he, X.goOn_done _ rfl rfl, (issueU s q g h b).g.goto q.lanes (nextPc h q), State.group?_setGroup .., Group.goto_regs .., ?_, Group.goto_pend .., Group.goto_info .., Group.goto_busy ..,
    fun k hne => ?_, hk.spads, hk.ops⟩
  · rw [SameSys, Group.goto_sys]
    rfl
  · refine (State.group?_setGroup_ne _ _ hne).trans ?_
    unfold State.group?
    rw [hk.groups]

-- Lines read ahead

/-- A byte that comes in takes its place in the L1 unless a dirty one stands there (R224). -/
def Core.l1Take (c : Core) (key pa : Nat) (b : Byte) : Core :=
  match c.l1Byte pa key with
  | some (_, true) => c
  | _ => c.l1Set pa key (c.newest pa key b) false

theorem Core.l1Take_eq (c : Core) (key pa : Nat) (b : Byte) : ∃ m, c.l1Take key pa b = { c with l1 := m } := by
  unfold Core.l1Take
  split
  · exact ⟨c.l1, rfl⟩
  · exact ⟨_, rfl⟩

theorem Core.l1Fill_eq (bs : List Byte) (c : Core) (key pa : Nat) : ∃ m, c.l1Fill key pa bs = { c with l1 := m } := by
  induction bs generalizing c pa with
  | nil => exact ⟨c.l1, rfl⟩
  | cons b t ih =>
    obtain ⟨m, hm⟩ := c.l1Take_eq key pa b
    obtain ⟨n, hn⟩ := ih (c.l1Take key pa b) (pa + 1)
    exact ⟨n, hn.trans (by rw [hm])⟩

/-- A byte of the L1 after bytes from home have come in: a dirty one stays, any other is the last value sent for it, or the one that came. -/
def filledByte (c : Core) (key pa : Nat) (b : Byte) : Option (Byte × Bool) :=
  match c.l1Byte pa key with
  | some (d, true) => some (d, true)
  | _ => some ((c.pending pa key).getD b, false)

theorem Core.l1Byte_l1Take_self (c : Core) {pa : Nat} (key : Nat) (b : Byte) (hp : pa < 2 ^ 52) : (c.l1Take key pa b).l1Byte pa key = filledByte c key pa b := by
  unfold Core.l1Take filledByte
  split
  · next d h => exact h
  · rw [Core.l1Byte_l1Set c key key _ false hp hp, if_pos ⟨rfl, rfl⟩]
    rfl

theorem Core.l1Byte_l1Take_ne (c : Core) {pa r : Nat} (key : Nat) (b : Byte) (hp : pa < 2 ^ 52) (hr : r < 2 ^ 52) (hne : r ≠ pa) :
    (c.l1Take key pa b).l1Byte r key = c.l1Byte r key := by
  unfold Core.l1Take
  split
  · rfl
  · rw [Core.l1Byte_l1Set c key key _ false hr hp, if_neg fun h => hne h.1]

theorem Core.pending_l1Take (c : Core) (key pa : Nat) (b : Byte) (r : Nat) : (c.l1Take key pa b).pending r key = c.pending r key := by
  obtain ⟨m, hm⟩ := c.l1Take_eq key pa b
  rw [hm]
  rfl

theorem Core.l1Byte_l1Fill (bs : List Byte) (c : Core) {pa r : Nat} (key : Nat) (hp : pa + bs.length ≤ 2 ^ 52) (hr : r < 2 ^ 52) :
    (c.l1Fill key pa bs).l1Byte r key = if pa ≤ r ∧ r < pa + bs.length then filledByte c key r (bs.getD (r - pa) 0) else c.l1Byte r key := by
  induction bs generalizing c pa with
  | nil => rw [if_neg (by rw [List.length_nil]; omega)]; rfl
  | cons b t ih =>
    rw [List.length_cons] at hp ⊢
    have e : (c.l1Fill key pa (b :: t)).l1Byte r key = ((c.l1Take key pa b).l1Fill key (pa + 1) t).l1Byte r key := rfl
    rw [e, ih (c.l1Take key pa b) (by omega)]
    by_cases hr' : r = pa
    · subst hr'
      rw [if_neg (by omega), if_pos (by omega), c.l1Byte_l1Take_self key b hr, Nat.sub_self, List.getD_cons_zero]
    · have hf (x : Byte) : filledByte (c.l1Take key pa b) key r x = filledByte c key r x := by
        unfold filledByte
        rw [c.l1Byte_l1Take_ne key b (by omega) hr hr', c.pending_l1Take]
      rw [hf, c.l1Byte_l1Take_ne key b (by omega) hr hr']
      by_cases hin : pa + 1 ≤ r ∧ r < pa + 1 + t.length
      · rw [if_pos hin, if_pos (by omega), getD_sub_cons hin.1]
      · rw [if_neg hin, if_neg (by omega)]

section
variable {s : State} {core key pa : Nat} (ha : pa % 256 = 0) (hp : pa < hbmSize)
include ha hp

/-- The line number of READ_AHEAD says its address and its key. -/
theorem readAhead_line : (key * 2 ^ 44 + pa / 256) % 2 ^ 44 * 256 = pa ∧ (key * 2 ^ 44 + pa / 256) / 2 ^ 44 = key := by
  unfold hbmSize at hp
  omega

theorem exec_readAhead : exec (.readAhead core (key * 2 ^ 44 + pa / 256)) s = .next (if s.msys.bad pa 256 then s else
    (s.modMsys fun m => m.claims key pa 256).modCore core fun c => c.l1Fill key pa (s.msys.bytes key pa 256)) := by
  obtain ⟨e, e'⟩ := readAhead_line (key := key) ha hp
  have he : exec (.readAhead core (key * 2 ^ 44 + pa / 256)) s = execReadAhead core (key * 2 ^ 44 + pa / 256) s := rfl
  rw [he]
  unfold execReadAhead
  dsimp only
  rw [e, e']
  cases hb : s.msys.bad pa 256 with
  | true => simp
  | false => simp [Nat.not_le.mpr hp, State.homeRead]

theorem completes_readAhead (hb : s.msys.bad pa 256 = false) : Completes (.readAhead core (key * 2 ^ 44 + pa / 256)) s fun t =>
    (∃ l1, t = (s.modMsys fun m => m.claims key pa 256).modCore core fun c => { c with l1 := l1 }) ∧
    ∀ i, i < 256 → (t.core core).l1Byte (pa + i) key = filledByte (s.core core) key (pa + i) (s.msys.byte key (pa + i)) := by
  refine ⟨_, exec_readAhead ha hp, ?_, fun i hi => ?_⟩
  all_goals rw [hb, if_neg (by simp)]
  · obtain ⟨m, hm⟩ := Core.l1Fill_eq (s.msys.bytes key pa 256) (s.core core) key pa
    exact ⟨m, congrArg ((s.modMsys fun m => m.claims key pa 256).setCore core) hm⟩
  · have hlen : (s.msys.bytes key pa 256).length = 256 := by simp [MemSys.bytes]
    have hget : (s.msys.bytes key pa 256).getD i 0 = s.msys.byte key (pa + i) := by simp [MemSys.bytes, List.getD_eq_getElem?_getD, hi]
    unfold hbmSize at hp
    rw [State.core_modCore, Core.l1Byte_l1Fill _ _ key (by rw [hlen]; omega) (by omega), hlen, if_pos (by omega), Nat.add_sub_cancel_left, hget]
    rfl

end

/-- Settles O18: a prefetch changes memory, L1 and TLBs at most; a line read ahead comes in byte by byte. -/
theorem prefetchAndReadAhead : Obligations.PrefetchAndReadAhead := by
  refine ⟨fun s q g h m hi => completes_pref hi, fun s core key pa _ ha hp => ⟨fun hb => ⟨_, exec_readAhead ha hp, if_pos hb⟩, fun hb => ?_⟩⟩
  exact completes_readAhead ha hp hb

end Sys2Proof.Machine

/-! The reservation table of a matrix engine (R176, R178, R243, R260): what a unit grants, promotion, a drain held on a fault, the arrival. -/

namespace Sys2Proof.Machine

open Sys2Proof.Safety

-- Grants (R243)

theorem le_foldl_max {l : List Nat} {n k : Nat} (h : k ≤ n ∨ k ∈ l) : k ≤ l.foldl max n := by
  induction l generalizing n with
  | nil => simpa using h
  | cons a t ih =>
    refine ih ?_
    rcases h with h | h
    · exact .inl (le_max_of_le_left h)
    · rcases List.mem_cons.mp h with rfl | h
      · exact .inl (le_max_right ..)
      · exact .inr h

theorem foldl_max_mem {l : List Nat} (n : Nat) (h : l.foldl max n ≠ n) : l.foldl max n ∈ l := by
  induction l generalizing n with
  | nil => exact absurd rfl h
  | cons a t ih =>
    rw [List.foldl_cons] at h ⊢
    by_cases hm : t.foldl max (max n a) = max n a
    · rw [hm] at h ⊢
      rcases max_choice n a with e | e
      · exact absurd e h
      · rw [e]; exact List.mem_cons_self ..
    · exact List.mem_cons_of_mem _ (ih _ hm)

/-- A list with an element has one of the highest rank, before which every rank is lower. -/
theorem find_highest {α : Type} {l : List α} (rank : α → Nat) (h : l ≠ []) : ∃ a before after,
    l.find? (fun x => rank x == (l.map rank).foldl max 0) = some a ∧ l = before ++ a :: after ∧ (∀ x ∈ before, rank x < rank a) ∧ ∀ x ∈ after, rank x ≤ rank a := by
  have hle (x : α) (hx : x ∈ l) : rank x ≤ (l.map rank).foldl max 0 := le_foldl_max (.inr (List.mem_map_of_mem hx))
  have hex : ∃ x ∈ l, rank x = (l.map rank).foldl max 0 := by
    by_cases h0 : (l.map rank).foldl max 0 = 0
    · obtain ⟨x, hx⟩ := List.exists_mem_of_ne_nil l h
      exact ⟨x, hx, (Nat.le_zero.mp (h0 ▸ hle x hx)).trans h0.symm⟩
    · obtain ⟨x, hx, e⟩ := List.mem_map.mp (foldl_max_mem 0 h0)
      exact ⟨x, hx, e⟩
  obtain ⟨x, hx, e⟩ := hex
  cases hf : l.find? (fun x => rank x == (l.map rank).foldl max 0) with
  | none => exact absurd (List.find?_eq_none.mp hf x hx) (by simp [e])
  | some a =>
    obtain ⟨ha, before, after, hl, hb⟩ := List.find?_eq_some_iff_append.mp hf
    have ha' : rank a = (l.map rank).foldl max 0 := by simpa using ha
    refine ⟨a, before, after, rfl, hl, fun y hy => ?_, fun y hy => ?_⟩
    · have hne : rank y ≠ (l.map rank).foldl max 0 := by simpa using hb y hy
      exact ha' ▸ lt_of_le_of_ne (hle y (hl ▸ List.mem_append_left _ hy)) hne
    · exact ha' ▸ hle y (hl ▸ List.mem_append_right _ (List.mem_cons_of_mem _ hy))

/-- A list whose filtered elements split at one of them splits there itself. -/
theorem split_of_filter {α : Type} {p : α → Bool} {l before after : List α} {a : α} (h : l.filter p = before ++ a :: after) :
    ∃ older younger, l = older ++ a :: younger ∧ older.filter p = before ∧ younger.filter p = after ∧ p a = true := by
  obtain ⟨older, rest, hl, ho, hr⟩ := List.filter_eq_append_iff.mp h
  obtain ⟨skipped, younger, hr', hs, ha, hy⟩ := List.filter_eq_cons_iff.mp hr
  refine ⟨older ++ skipped, younger, by rw [hl, hr', List.append_assoc], ?_, hy, ha⟩
  rw [List.filter_append, ho, List.filter_eq_nil_iff.mpr hs, List.append_nil]

/-- The entries that a unit may grant, in the order of the table. -/
def Mxe.grantable (m : Mxe) (cc : Nat) (u : MxUnit) : List MxEntry :=
  m.table.filter fun e => e.kind.unit == u && e.granted.isNone && e.held.isNone && m.ready cc e

theorem mem_grantable {s : State} {cl : Nat} {u : MxUnit} {l : List MxEntry} {e : MxEntry} :
    e ∈ l.filter (fun e => e.kind.unit == u && e.granted.isNone && e.held.isNone && (s.mxe cl).ready s.clock.cc e) ↔ e ∈ l ∧ Grantable s cl u e := by
  simp [List.mem_filter, Grantable, and_assoc]

theorem Mxe.grantee_of_free {m : Mxe} {cc : Nat} {u : MxUnit} (hf : m.unitFree cc u = true) :
    m.grantee cc u = (m.grantable cc u).find? fun e => grantRank e == ((m.grantable cc u).map grantRank).foldl max 0 := by
  unfold Mxe.grantee
  rw [hf]
  rfl

/-- A free unit grants the entry of the highest rank, and of those the oldest. -/
theorem grantee_spec {s : State} {cl : Nat} {u : MxUnit} {e0 : MxEntry} (he : e0 ∈ (s.mxe cl).table) (hg : Grantable s cl u e0)
    (hf : (s.mxe cl).unitFree s.clock.cc u = true) : ∃ older e younger, (s.mxe cl).grantee s.clock.cc u = some e ∧
      (s.mxe cl).table = older ++ e :: younger ∧ Grantable s cl u e ∧ (∀ x ∈ older, Grantable s cl u x → grantRank x < grantRank e) ∧
      ∀ x ∈ younger, Grantable s cl u x → grantRank x ≤ grantRank e := by
  have hne : (s.mxe cl).grantable s.clock.cc u ≠ [] := List.ne_nil_of_mem (mem_grantable.mpr ⟨he, hg⟩)
  obtain ⟨e, before, after, hfind, hl, hb, ha⟩ := find_highest grantRank hne
  obtain ⟨older, younger, ht, ho, hy, -⟩ := split_of_filter hl
  have hmem : e ∈ (s.mxe cl).grantable s.clock.cc u := hl ▸ List.mem_append_right _ (List.mem_cons_self ..)
  refine ⟨older, e, younger, (Mxe.grantee_of_free hf).trans hfind, ht, (mem_grantable.mp hmem).2, fun x hx hgx => ?_, fun x hx hgx => ?_⟩
  · exact hb x (ho ▸ mem_grantable.mpr ⟨hx, hgx⟩)
  · exact ha x (hy ▸ mem_grantable.mpr ⟨hx, hgx⟩)

/-- The times of a command take a latency of the hardware, and change nothing else. -/
theorem State.mxTime_state (s : State) (cl : Nat) (m : Mxe) (e : MxEntry) : (s.mxTime cl m e).1 = { s with fresh := s.fresh + 1 } := by
  unfold State.mxTime
  dsimp only [State.freeLat]
  split <;> rfl

theorem State.mxGrant_table {s : State} {cl : Nat} {u : MxUnit} {e : MxEntry} (he : (s.mxe cl).grantee s.clock.cc u = some e) :
    ∃ due array, ((s.mxGrant cl u).mxe cl).table =
      (s.mxe cl).table.map fun x => if x.id = e.id then { x with granted := some s.clock.cc, due := due, arrayEnd := array } else x := by
  refine ⟨(s.mxTime cl (s.mxe cl) e).2.1, (s.mxTime cl (s.mxe cl) e).2.2, ?_⟩
  have hs := s.mxTime_state cl (s.mxe cl) e
  have hg : (s.mxe cl).grantee s.cc u = some e := he
  unfold State.mxGrant
  dsimp only
  rw [hg]
  dsimp only
  rw [State.mxe_modMxe, hs]
  split <;> rfl

-- Promotion (R243)

theorem exec_mxeAgePromotion (cl id : Nat) (s : State) : ∃ t, exec (.mxeAgePromotion cl id) s = .next t ∧
    (t.mxe cl).table = (s.mxe cl).table.map fun x =>
      if x.id = id ∧ x.granted = none ∧ (∃ c, x.readySince = some c ∧ c + 16384 ≤ s.clock.cc) then { x with promoted := true } else x := by
  refine ⟨_, rfl, ?_⟩
  rw [State.mxe_modMxe]
  refine List.map_congr_left fun x _ => ?_
  by_cases hid : x.id = id
  · cases hr : x.readySince with
    | none => simp [hid, hr]
    | some c => by_cases hc : c + 16384 ≤ s.clock.cc <;> simp [hid, hr, hc, State.cc]
  · simp [hid]

-- A drain held on a fault (R176, R306)

/-- An entry of the supervisor queue, posted or held in its window: of the state, one core and the events change. -/
theorem State.svqPost_eq (s : State) (core : Nat) (e : SvqEntry) :
    ∃ svq win ev, s.svqPost core e = { s.modCore core fun c => { c with svq := svq, svqWin := win } with events := ev } := by
  unfold State.svqPost
  dsimp only
  split
  · exact ⟨_, (s.core core).svqWin, s.events, rfl⟩
  · split
    · exact ⟨(s.core core).svq, _, _, rfl⟩
    · exact ⟨(s.core core).svq, _, s.events, rfl⟩

theorem State.svqPost_records (s : State) (core k : Nat) (e : SvqEntry) : ((s.svqPost core e).core k).records = (s.core k).records := by
  obtain ⟨svq, win, ev, h⟩ := s.svqPost_eq core e
  rw [h]
  exact State.core_modCore_keeps (f := fun c => { c with svq := svq, svqWin := win }) (·.records) (fun _ => rfl) s core k

/-- A record that stands in a core stands there stamped. -/
theorem Core.mem_stampRecords {c : Core} {r : FaultRec} (h : r ∈ c.records) :
    ∃ f ∈ c.stampRecords.records, f.tag = r.tag ∧ f.kind = r.kind ∧ f.gid = r.gid := by
  refine ⟨_, List.mem_map_of_mem h, ?_⟩
  split <;> exact ⟨rfl, rfl, rfl⟩

/-- A fault record stands in its core under its tag; of the state, cores and events change. -/
theorem State.postFault_spec (s : State) (p : Poster) (core : Nat) (f : FaultInfo) :
    (∃ r ∈ ((s.postFault p core f).2.core core).records, r.tag = (s.postFault p core f).1 ∧ r.kind = f.kind ∧ r.gid = p.gid) ∧
      ∃ cs ev, (s.postFault p core f).2 = { s with cores := cs, events := ev } := by
  unfold State.postFault
  dsimp only
  generalize SvqEntry.mk .. = e
  generalize hr : FaultRec.mk .. = r
  generalize hs' : s.modCore core _ = s'
  obtain ⟨svq, win, ev, h⟩ := s'.svqPost_eq core e
  have hmem : r ∈ ((s'.svqPost core e).core core).records := by
    rw [State.svqPost_records, ← hs', State.core_modCore]
    exact List.mem_append_right _ (List.mem_singleton_self r)
  obtain ⟨f', hf', htag, hkind, hgid⟩ := Core.mem_stampRecords hmem
  refine ⟨⟨f', by rwa [State.core_modCore], by rw [htag, ← hr], by rw [hkind, ← hr], by rw [hgid, ← hr]⟩, ?_⟩
  rw [h, ← hs']
  exact ⟨_, _, rfl⟩

theorem State.mxFault_eq {s s' : State} {cl id : Nat} {e : MxEntry} {er : XErr} {va : Nat} (hdue : s.mxDue cl id = some e) (hread : e.read = false)
    (heff : s.mxEffect cl e = (s', .error (er, va))) (hfault : isDrainFault e (er, va) = true) :
    ∃ f : FaultInfo, f.kind = 2 ∧ s.mxFault cl id = (s'.postFault e.poster e.core f).2.modEntry cl id fun x =>
      { x with held := some (s'.postFault e.poster e.core f).1, granted := none, readySince := none, promoted := false } := by
  unfold State.mxFault
  rw [hdue]
  dsimp only
  rw [heff]
  dsimp only
  rw [hread, hfault]
  exact ⟨_, rfl, rfl⟩

/-- A drain that fails has touched memory and the L1s at most. -/
theorem mxEffect_drain_error {s s' : State} {cl : Nat} {e : MxEntry} {er : EngErr} (hk : ∃ add ten coord bank z, e.kind = .drain add ten coord bank z)
    (heff : s.mxEffect cl e = (s', .error er)) : SameEngines s s' := by
  obtain ⟨add, ten, coord, bank, z, hk⟩ := hk
  have h := SameEngines.drainTile s (s.mxe cl) e.acc (tenOf ten) coord add bank
  unfold State.mxEffect at heff
  rw [hk] at heff
  dsimp only at heff
  generalize s.drainTile (s.mxe cl) e.acc (tenOf ten) coord add bank = p at h heff
  obtain ⟨t, r⟩ := p
  cases r with
  | error er' => obtain ⟨rfl, -⟩ := Prod.mk.inj heff; exact h
  | ok sat => cases heff

theorem isDrainFault_of_drain {e : MxEntry} {er : EngErr} (hk : ∃ add ten coord bank z, e.kind = .drain add ten coord bank z)
    (hc : er.1.cause = .pageNotPresent) : isDrainFault e er = true := by
  obtain ⟨add, ten, coord, bank, z, hk⟩ := hk
  simp [isDrainFault, hk, hc]

theorem State.modEntry_table (s : State) (cl id : Nat) (f : MxEntry → MxEntry) :
    ((s.modEntry cl id f).mxe cl).table = (s.mxe cl).table.map fun x => if x.id = id then f x else x := by
  rw [State.modEntry, State.mxe_modMxe]
  rfl

theorem mxFault_holds {s s' : State} {cl id : Nat} {e : MxEntry} {er : XErr} {va : Nat} (hdue : s.mxDue cl id = some e) (hread : e.read = false)
    (hk : ∃ add ten coord bank z, e.kind = .drain add ten coord bank z) (heff : s.mxEffect cl e = (s', .error (er, va)))
    (hc : er.cause = .pageNotPresent) : ∃ tag,
      (∃ f ∈ ((s.mxFault cl id).core e.core).records, f.tag = tag ∧ f.kind = 2 ∧ f.gid = e.poster.gid) ∧ (s.mxFault cl id).msys.mem = s'.msys.mem ∧
      ((s.mxFault cl id).mxe cl).table = (s.mxe cl).table.map fun x =>
        if x.id = id then { x with held := some tag, granted := none, readySince := none, promoted := false } else x := by
  obtain ⟨f, hkind, h⟩ := State.mxFault_eq hdue hread heff (isDrainFault_of_drain hk hc)
  obtain ⟨⟨r, hr, htag, hrk, hgid⟩, cs, ev, hs⟩ := s'.postFault_spec e.poster e.core f
  have hmxe : (s'.postFault e.poster e.core f).2.mxe cl = s.mxe cl := by rw [hs]; exact (mxEffect_drain_error hk heff).mxe cl
  refine ⟨(s'.postFault e.poster e.core f).1, ⟨r, ?_, htag, hrk.trans hkind, hgid⟩, ?_, ?_⟩
  · rw [h]; exact hr
  · rw [h]
    change (s'.postFault e.poster e.core f).2.msys.mem = _
    rw [hs]
  · rw [h, State.modEntry_table, hmxe]

-- The arrival of the engine (R178, R260)

/-- What an arrival does once the barrier or the note of the group has it. -/
theorem State.mxArrival_eq {s : State} {cl id : Nat} {e : MxEntry} (h : (s.mxArrivals cl).find? (·.id == id) = some e) :
    s.mxArrival cl id = ((s.mxArrive e).modMxe cl fun m =>
      { (m.modEntry id fun e => { e with arrived := true }) with late := m.late.filter (·.id != id) }).mxDrop e := by
  unfold State.mxArrival
  rw [h]

theorem State.modGroup_bars (s : State) (gid : Nat) (f : Group → Group) : (s.modGroup gid f).bars = s.bars := by
  obtain ⟨gs, h⟩ := s.modGroup_eq gid f
  rw [h]

theorem State.mxArrival_bars {s : State} {cl id : Nat} {e : MxEntry} (h : (s.mxArrivals cl).find? (·.id == id) = some e) :
    (s.mxArrival cl id).bars = (s.mxArrive e).bars := by
  rw [State.mxArrival_eq h, State.mxDrop, State.modGroup_bars]
  rfl

/-- After the arrival the entry has arrived, no late one waits, and TL falls. -/
theorem mxArrival_through {s : State} {cl id : Nat} {e : MxEntry} (h : (s.mxArrivals cl).find? (·.id == id) = some e) {note : MxCmd → MxCmd}
    (hmxe : (s.mxArrive e).mxe cl = s.mxe cl) (hnote : Noted s (s.mxArrive e) e False note) :
    ((s.mxArrival cl id).mxe cl).table = (s.mxe cl).table.map (fun x => if x.id = id then { x with arrived := true } else x) ∧
      ((s.mxArrival cl id).mxe cl).late = (s.mxe cl).late.filter (fun x => x.id != id) ∧ Noted s (s.mxArrival cl id) e True note := by
  rw [State.mxArrival_eq h]
  refine ⟨?_, ?_, noted_trans (t := State.modMxe _ _ _) (p := False) (q := True) (note' := fun c => c) hnote (noted_mxDrop _ e) (by simp) (by simp)⟩ <;>
    rw [State.mxDrop, State.modGroup_mxe, State.mxe_modMxe, hmxe]
  rfl

theorem find_arrivals {s : State} {cl id : Nat} {e : MxEntry} (h : (s.mxArrivals cl).find? (·.id == id) = some e) : e.id = id ∧ s.mxAhead e = false := by
  obtain ⟨-, hahead⟩ := List.mem_filter.mp (List.mem_of_find?_eq_some h)
  exact ⟨by simpa using List.find?_some h, by simpa using hahead⟩

theorem mxArrive_member {s : State} {e : MxEntry} {k : Nat} (ha : e.arr = some k) (hm : e.gid ∈ (s.bar (barKey e.wg 0 k)).members) :
    s.mxArrive e = s.setBar (barKey e.wg 0 k) ((s.bar (barKey e.wg 0 k)).land e.gid) := by
  simp [State.mxArrive, ha, hm]

theorem mxArrive_stranger {s : State} {e : MxEntry} {k : Nat} (ha : e.arr = some k) (hm : e.gid ∉ (s.bar (barKey e.wg 0 k)).members) :
    s.mxArrive e = s.modGroup e.gid fun g => { g with cmds := g.cmds.map fun c => if c.entry = e.id ∧ c.err = none then { c with err := some .permission } else c } := by
  simp [State.mxArrive, ha, hm]

theorem Barrier.land_counts (b : Barrier) (gid : Nat) : Counts b (b.land gid) (oneOf gid) := by
  refine ⟨rfl, rfl, rfl, fun m => ?_⟩
  unfold Barrier.land oneOf
  dsimp only
  rw [SMap.get_put]
  split
  · next h => rw [h]
  · rfl

/-- Settles O29: grants by rank and age, promotion, a drain held on a fault, and the engine's arrival. -/
theorem matrixTableWorks : Obligations.MatrixTableWorks := by
  unfold Obligations.MatrixTableWorks
  refine fun s cl => ⟨fun u e0 he hg hf => ?_, fun id => exec_mxeAgePromotion cl id s, fun id e s' er va hdue hread hk heff hc => ?_, fun id e k he ha => ?_⟩
  · obtain ⟨older, e, younger, hgrant, ht, hge, ho, hy⟩ := grantee_spec he hg hf
    obtain ⟨due, array, htable⟩ := State.mxGrant_table hgrant
    exact ⟨_, rfl, older, e, younger, due, array, ht, hge, ho, hy, htable⟩
  · exact ⟨_, rfl, mxFault_holds hdue hread hk heff hc⟩
  · obtain ⟨hid, hahead⟩ := find_arrivals he
    refine ⟨fun hm => ⟨?_, _, rfl, ?_, mxArrival_through he ?_ ?_⟩, fun hm => ⟨_, rfl, ?_, mxArrival_through he ?_ ?_⟩⟩
    · simpa [State.mxAhead, ha, hm] using hahead
    · have hbar : (s.mxArrival cl id).bar (barKey e.wg 0 k) = (s.bar (barKey e.wg 0 k)).land e.gid := by
        rw [State.bar, State.mxArrival_bars he, mxArrive_member ha hm, State.setBar, SMap.get_ins, if_pos rfl]
      exact hbar ▸ Barrier.land_counts ..
    · rw [mxArrive_member ha hm]; rfl
    · rw [mxArrive_member ha hm]; exact noted_of_groups rfl e
    · rw [State.mxArrival_bars he, mxArrive_stranger ha hm]
      exact State.modGroup_bars ..
    · rw [mxArrive_stranger ha hm, State.modGroup_mxe]
    · rw [mxArrive_stranger ha hm, ← hid]
      exact noted_modGroup s e (fun _ => rfl) False.elim fun _ _ => rfl

end Sys2Proof.Machine

/-! The release part of an instruction (R158, R228): what it leaves when it is complete at once, and when it stands. -/

namespace Sys2Proof.Machine

open Sys2Proof.Safety

/-- A release that has just begun. -/
def X.newRel (x : X) (scope : Scope) : Rel :=
  { gid := x.gid, core := x.core, scope := scope, waitOps := owedOps x.s x.gid, close := none, op := none, sent := 0 }

/-- The state in which the release of an instruction has begun. -/
def X.begun (x : X) (scope : Scope) : State :=
  { x.flush with serial := x.s.serial + 1, rels := x.s.rels.ins x.s.serial (x.newRel scope) }

section
variable (x : X) (scope : Scope)

theorem X.release_eq : x.release scope = ({ x with s := (x.begun scope).relStep x.s.serial
                                                   g := (((x.begun scope).relStep x.s.serial).group? x.gid).getD x.g },
    if (((x.begun scope).relStep x.s.serial).rels.find x.s.serial).isSome then some x.s.serial else none) := rfl

theorem X.begun_find : (x.begun scope).rels.find x.s.serial = some (x.newRel scope) := SMap.find_ins_self ..

theorem X.begun_group : ((x.begun scope).group? x.gid).getD x.g = x.g := by
  rw [show (x.begun scope).group? x.gid = some x.g from x.s.group?_setGroup x.gid x.g]
  rfl

/-- A release that stands after its first step. -/
theorem X.release_stands {t : State} {y : Rel} (ht : (x.begun scope).relStep x.s.serial = t) (hg : t.groups = (x.begun scope).groups)
    (hy : t.rels.find x.s.serial = some y) : x.release scope = ({ x with s := t }, some x.s.serial) := by
  rw [X.release_eq, ht, hy, State.group?, hg]
  exact congrArg (fun g => (({ x with s := t, g := g } : X), some x.s.serial)) (x.begun_group scope)

/-- With accesses of the group outstanding a release stands. -/
theorem X.release_owed (ho : Owes x.s x.gid) : x.release scope = ({ x with s := x.begun scope }, some x.s.serial) :=
  X.release_stands x scope (State.relStep_owed (X.begun_find x scope) (owes_mem ho)) rfl (X.begun_find x scope)

/-- With none outstanding a release within the workgroup is complete at once. -/
theorem X.release_near (hn : nearScope scope = true) (ho : ¬ Owes x.s x.gid) :
    x.release scope = ({ x with s := { x.begun scope with rels := (x.begun scope).rels.del x.s.serial } }, none) := by
  have hstep : (x.begun scope).relStep x.s.serial = { x.begun scope with rels := (x.begun scope).rels.del x.s.serial } :=
    State.relStep_near (X.begun_find x scope) (owedOps_eq_nil ho) hn
  rw [X.release_eq, hstep]
  dsimp only
  rw [SMap.find_del, if_pos rfl]
  exact congrArg (fun g => (({ x with s := _, g := g } : X), none)) (x.begun_group scope)

/-- Beyond the workgroup it stands until its close has been answered. -/
theorem State.relStep_far_stands {v : State} {id : Nat} {r : Rel} (hf : v.rels.find id = some r) (hw : r.waitOps = []) (hn : nearScope r.scope = false)
    (hc : r.close = none) : ∃ t y, v.relStep id = t ∧ t.groups = v.groups ∧ t.ops = v.ops ∧ t.rels.find id = some y ∧ y.gid = r.gid ∧ y.scope = r.scope ∧ y.op = r.op := by
  obtain ⟨cs, f, e⟩ := v.writeBack_eq r.core none 0 fun _ => true
  unfold State.relStep
  rw [hf]
  simp only [hw, List.any_nil, Bool.false_eq_true, if_false, hn, hc]
  split
  · exact ⟨v, r, rfl, rfl, rfl, hf, rfl, rfl, rfl⟩
  · rw [e]
    exact ⟨_, _, rfl, rfl, rfl, SMap.find_ins_self .., rfl, rfl, rfl⟩

/-- A release that must wait, or whose scope is wider than the workgroup, stands. -/
theorem X.release_later (hl : nearScope scope = false ∨ Owes x.s x.gid) : ∃ t y, x.release scope = ({ x with s := t }, some x.s.serial) ∧
    t.ops = x.s.ops ∧ t.rels.find x.s.serial = some y ∧ y.gid = x.gid ∧ y.scope = scope ∧ y.op = none := by
  by_cases ho : Owes x.s x.gid
  · exact ⟨_, _, X.release_owed x scope ho, rfl, X.begun_find x scope, rfl, rfl, rfl⟩
  · obtain ⟨t, y, ht, hg, hops, hy, hgid, hscope, hop⟩ :=
      State.relStep_far_stands (X.begun_find x scope) (owedOps_eq_nil ho) (hl.resolve_right ho) rfl
    exact ⟨t, y, X.release_stands x scope ht hg hy, hops, hy, hgid, hscope, hop⟩

end

theorem not_owes_of_noOps {s : State} {gid : Nat} (h : NoOps s gid) : ¬ Owes s gid := fun ⟨p, hp, hg, _⟩ => h p hp hg

end Sys2Proof.Machine

/-! Handle instructions (R163 to R166): what each does for every state of the handle. -/

namespace Sys2Proof.Machine

open Sys2Proof.Safety

-- One result for every acting lane (R179)

/-- A result that a once-acting instruction writes alike in its lanes. -/
theorem landsOk_const {h : Hdr} {q : Issue} {g : Group} {w : Nat} {d : Reg} (hd : destOk w d) (hw : w = 1 ∨ w = 2) (v : Dword) :
    landsOk h q g w d fun _ => { val := v, fl := 0 } := .inr ⟨hd, hw, fun _ _ _ _ _ _ => rfl⟩

theorem putAll_eq_written {h : Hdr} {q : Issue} {g : Group} {w : Nat} {d : Reg} (hd : destOk w d) (s : State) (v : Dword) :
    (issueX s q g h).putAll w d (v.zeroExtend 128) =
      { issueX s q g h with g := written g w d (laneList (acts h q g)) fun _ => { val := v, fl := 0 } } := by
  cases d with
  | p n => exact absurd hd not_false
  | _ => rfl

/-- It lands in them, the run goes on, and nothing else changes. -/
theorem landsIn_putAll_done {h : Hdr} {q : Issue} {g : Group} {w : Nat} {d : Reg} (hd : destOk w d) (hw : w = 1 ∨ w = 2) (s : State) (v : Dword) :
    LandsIn s ((issueX s q g h).putAll w d (v.zeroExtend 128)).done h q g w d v := by
  have hlands : landsOk h q g w d fun _ => { val := v, fl := 0 } := landsOk_const hd hw v
  obtain ⟨hinfo, -, -, hsys, hpend, -, hcmds, hld, hst, hcp, htl⟩ := written_frame g w d (laneList (acts h q g)) fun _ => { val := v, fl := 0 }
  have hreads {l : Nat} (hl : (acts h q g).getLsbD l = true) := written_readsAs hlands g hl
  have hsame {l : Nat} (hl : l < 64) (r : Reg) (hr : ¬ names d w r ∨ ((acts h q g).getLsbD l = false ∧ ∀ n, d ≠ .s n)) := written_sameReg hlands g hl r hr
  rw [putAll_eq_written hd]
  generalize written g w d (laneList (acts h q g)) (fun _ => { val := v, fl := 0 }) = k at *
  obtain ⟨rs, hk⟩ := k.place_eq q.lanes (nextPc h q) .ready (stampOf q.lanes k.runs k.sched.issues)
  have hdone : ({ issueX s q g h with g := k } : X).done = s.setGroup q.gid { k with runs := rs } := congrArg (s.setGroup q.gid) hk
  refine ⟨⟨{ k with runs := rs }, hdone ▸ s.group?_setGroup _ _, fun l hl => ?_⟩, X.goOn_done _ rfl rfl, ?_⟩
  · exact SameFiles.readsAs ⟨rfl, rfl, rfl, rfl, rfl⟩ (.inr hd) (hreads hl)
  · rw [hdone]
    exact resultFrame_setGroup s.events s.serial hinfo (by rw [SameSys, hsys]) hpend hcmds ⟨hld, hst, hcp, htl⟩ fun l hl r hr =>
      sameReg_trans (hsame hl r hr) (sameReg_of_files rfl rfl rfl rfl rfl l r)

theorem Instr.wfB_of_wf {i : Instr} (h : i.wf = true) : wfB i = true := by
  unfold Instr.wf at h
  simp only [Bool.and_eq_true] at h
  exact h.1.2

theorem destOk_of_dst {u : Bool} {d : Reg} (hd : (Pos.dst 1).ok u d = true) : destOk 1 d := by
  cases d with
  | v n => exact .inl rfl
  | o n => exact .inl rfl
  | s n => exact .inl rfl
  | _ => cases hd

-- Waits on a handle (R165)

/-- The status word as `hwait` gives it. -/
theorem Handle.word_eq (h : Handle) : (h.word.zeroExtend 128 : Quad) = (statusWord h).zeroExtend 128 := by
  have hc : statusWord h = BitVec.ofNat 64 ((h.st.code * 2 ^ 28 + h.dones % 256 * 2 ^ 20 + h.expect * 2 ^ 12 + h.last) % 2 ^ 32) := by
    unfold statusWord HState.code
    cases h.st <;> rfl
  rw [hc]
  unfold Handle.word
  apply BitVec.eq_of_toNat_eq
  simp only [BitVec.truncate_eq_setWidth, BitVec.toNat_setWidth, BitVec.toNat_ofNat]
  omega

section
variable {s : State} {q : Issue} {g : Group} {h : Hdr}

theorem completes_hwait {i : Instr} {d : Reg} {n : BitVec 6} {ok : HState → Bool}
    (he : exec i s = s.withIssue i h fun x => x.hwait i n d ok) (hi : Issues s i q g) (hd : destOk 1 d) :
    SkipsEmpty i s q g h ∧
    (acts h q g ≠ 0 → ok (s.handle g.info.core n.toNat).st = true → Completes i s fun t => LandsIn s t h q g 1 d (statusWord (s.handle g.info.core n.toNat))) ∧
    (acts h q g ≠ 0 → ok (s.handle g.info.core n.toNat).st = false → Completes i s fun t => WaitsAt t q .handle (some i)) := by
  have he := exec_of_withIssue he hi
  refine ⟨fun h0 => ⟨_, he, ?_⟩, fun h0 hok => ⟨_, he, ?_⟩, fun h0 hok => ⟨_, he, ?_⟩⟩
  · rw [show (issueX s q g h).hwait i n d ok = (issueX s q g h).done from if_pos h0]
    exact ⟨X.goOn_done _ rfl rfl, issueX_done_onlyRuns ..⟩
  · rw [show (issueX s q g h).hwait i n d ok = ((issueX s q g h).putAll 1 d ((s.handle g.info.core n.toNat).word.zeroExtend 128)).done from
      (if_neg h0).trans (if_pos hok), Handle.word_eq]
    exact landsIn_putAll_done hd (.inl rfl) s _
  · rw [show (issueX s q g h).hwait i n d ok = (issueX s q g h).wait (Wait.of .handle (some i) (acts h q g)) from
      (if_neg h0).trans (if_neg (Bool.eq_false_iff.mp hok))]
    exact X.waitsAt_wait _ rfl rfl rfl _

theorem hwaits {n : BitVec 6} {d : Reg} {i : Instr} {ok : HState → Prop}
    (hc : (i = .hwaitFull h d n ∧ ok = fun st => st = .full ∨ st = .error) ∨ (i = .hwaitEmpty h d n ∧ ok = fun st => st = .empty ∨ st = .unbound ∨ st = .error))
    (hi : Issues s i q g) (hwf : i.wf = true) : SkipsEmpty i s q g h ∧
    (acts h q g ≠ 0 → ok (s.handle g.info.core n.toNat).st → Completes i s fun t => LandsIn s t h q g 1 d (statusWord (s.handle g.info.core n.toNat))) ∧
    (acts h q g ≠ 0 → ¬ ok (s.handle g.info.core n.toNat).st → Completes i s fun t => WaitsAt t q .handle (some i)) := by
  rcases hc with ⟨rfl, rfl⟩ | ⟨rfl, rfl⟩
  · obtain ⟨hs, hl, hw⟩ := completes_hwait (ok := fun st => st == .full || st == .error) rfl hi
      (destOk_of_dst (u := h.u) ((Bool.and_eq_true ..).mp (Instr.wfB_of_wf hwf)).2)
    exact ⟨hs, fun h0 hok => hl h0 (by simpa using hok), fun h0 hok => hw h0 (by simpa using hok)⟩
  · obtain ⟨hs, hl, hw⟩ := completes_hwait (ok := fun st => st == .empty || st == .unbound || st == .error) rfl hi
      (destOk_of_dst (u := h.u) ((Bool.and_eq_true ..).mp (Instr.wfB_of_wf hwf)).2)
    exact ⟨hs, fun h0 hok => hl h0 (by simpa [or_assoc] using hok), fun h0 hok => hw h0 (by simpa [and_assoc] using hok)⟩

end

-- Changes of a handle

theorem State.handle_modHandle (s : State) (core n : Nat) (f : Handle → Handle) : (s.modHandle core n f).handle core n = f (s.handle core n) := by
  unfold State.modHandle State.handle
  rw [State.core_modCore, SMap.get_ins, if_pos rfl]

/-- The run goes on with a change of the handle. -/
theorem X.done_modHandle (x : X) (n : Nat) (f : Handle → Handle) :
    ((x.modS fun s => s.modHandle x.core n f).done).handle x.core n = f (x.s.handle x.core n) := State.handle_modHandle ..

-- `hset.bind` (R164)

section
variable {s : State} {q : Issue} {g : Group} {h : Hdr}

/-- The operands of a once-acting instruction, with the uniform-violation bit as R32 leaves it. -/
theorem issueX_once (s : State) (q : Issue) (g : Group) (h : Hdr) (f : Nat → List Dword) :
    ∃ b, (issueX s q g h).once f = issueU s q g { h with u := true } b := by
  obtain ⟨b, hb⟩ := issueX_uniform s q g h f
  exact ⟨b, congrArg (fun x : X => { x with u := true }) hb⟩

/-- With a guard-true lane an instruction acts. -/
theorem issueX_acting {body : X → State} (h0 : acts h q g ≠ 0) : (issueX s q g h).unlessEmpty body = body (issueX s q g h) := if_neg h0

/-- A trap discards what the issue noted of its operands. -/
theorem issueU_trap (s : State) (q : Issue) (g : Group) (h : Hdr) (b : Bool) (c : Cause) (addr : Dword) :
    (issueU s q g h b).trap c (acts h q g) addr = s.takeTrap q.gid
      { cause := c, other := false, mask := acts h q g, pc := q.pc, npc := q.pc, addr := addr, run := q.lanes } := rfl

/-- The states in which `hset.bind` waits. -/
def Handle.bindWaits (hd : Handle) : Prop := hd.st = .filling ∨ hd.st = .draining ∨ (hd.st = .error ∧ ¬ (hd.inward = 0 ∧ hd.outward = 0))

/-- The same as `hset.bind` asks it. -/
def Handle.waitsBind (hd : Handle) : Bool :=
  match hd.st with
  | .filling | .draining => true
  | .error => !hd.idle
  | _ => false

theorem Handle.waitsBind_iff (hd : Handle) : hd.waitsBind = true ↔ hd.bindWaits := by
  unfold Handle.waitsBind Handle.bindWaits Handle.idle
  cases hd.st <;> simp [imp_iff_not_or]

/-- What `hset.bind` comes to once its workgroup's allocation is known. -/
theorem exec_hsetBind {n : BitVec 6} {e : BitVec 8} {a b : Reg} (hi : Issues s (.hsetBind h n e a b) q g) {w : Workgroup} {al : Alloc}
    (hw : s.wgs.find g.info.wg = some w) (hal : s.allocs.find w.alloc = some al) (h0 : acts h q g ≠ 0) :
    let off := (g.rd32 (lowest (acts h q g)) a).toNat
    let len := (g.rd32 (lowest (acts h q g)) b).toNat
    let hd := s.handle g.info.core n.toNat
    ∃ v, let x := issueU s q g { h with u := true } v
      exec (.hsetBind h n e a b) s = .next (
        if off % 16 ≠ 0 || len % 16 ≠ 0 then x.trap .misaligned (acts h q g) (BitVec.ofNat 64 off)
        else if len < 16 || off + len > al.size then x.trap .permission (acts h q g) (BitVec.ofNat 64 off)
        else if hd.waitsBind then x.wait (Wait.of .handle (some (.hsetBind h n e a b)) (acts h q g))
        else (x.modS fun s => s.modHandle x.core n.toNat fun hd =>
          { hd.toEmpty with alloc := w.alloc, gen := al.gen, base := off, len := len, expect := e.toNat, last := 0, wg := x.g.info.wg }).done) := by
  obtain ⟨v, hv⟩ := issueX_once s q g h fun l => [(g.rd32 l a).zeroExtend 64, (g.rd32 l b).zeroExtend 64]
  refine ⟨v, ?_⟩
  have hfound : (s.wgs.find g.info.wg).bind (fun w => (s.allocs.find w.alloc).map fun al => (w, al)) = some (w, al) := by rw [hw]; simp [hal]
  rw [show exec (.hsetBind h n e a b) s = execHsetBind h n e a b s from rfl, execHsetBind, State.withIssue_of_issues hi, issueX_acting h0]
  refine congrArg Host.Outcome.next ?_
  dsimp only
  rw [show (issueX s q g h).g = g from rfl, hv]
  dsimp only [issueU, issueX]
  rw [hfound]
  rfl

/-- `hset.bind` in its four outcomes: misaligned, outside the allocation, waiting, bound. -/
theorem completes_hsetBind {n : BitVec 6} {e : BitVec 8} {a b : Reg} (hi : Issues s (.hsetBind h n e a b) q g) {w : Workgroup} {al : Alloc}
    (hw : s.wgs.find g.info.wg = some w) (hal : s.allocs.find w.alloc = some al) (h0 : acts h q g ≠ 0) :
    let off := (g.rd32 (lowest (acts h q g)) a).toNat
    let len := (g.rd32 (lowest (acts h q g)) b).toNat
    let hd := s.handle g.info.core n.toNat
    let i : Instr := .hsetBind h n e a b
    let trap (c : Cause) : Prop := Completes i s fun t => t = s.takeTrap q.gid
      { cause := c, other := false, mask := acts h q g, pc := q.pc, npc := q.pc, addr := BitVec.ofNat 64 off, run := q.lanes }
    ((off % 16 ≠ 0 ∨ len % 16 ≠ 0) → trap .misaligned) ∧
    (off % 16 = 0 → len % 16 = 0 → (len < 16 ∨ al.size < off + len) → trap .permission) ∧
    (off % 16 = 0 → len % 16 = 0 → 16 ≤ len → off + len ≤ al.size → hd.bindWaits → Completes i s fun t => WaitsAt t q .handle (some i)) ∧
    (off % 16 = 0 → len % 16 = 0 → 16 ≤ len → off + len ≤ al.size → ¬ hd.bindWaits → Completes i s fun t => GoOn t q (fun _ => nextPc h q) ∧
      t.handle g.info.core n.toNat =
        { hd.toEmpty with alloc := w.alloc, gen := al.gen, base := off, len := len, expect := e.toNat, last := 0, wg := g.info.wg }) := by
  intro off len hd i trap
  obtain ⟨v, he⟩ := exec_hsetBind hi hw hal h0
  refine ⟨fun hmis => ⟨_, he, ?_⟩, fun ho hl hper => ⟨_, he, ?_⟩, fun ho hl hlen hsize hwait => ⟨_, he, ?_⟩, fun ho hl hlen hsize hfree => ⟨_, he, ?_⟩⟩
  · rw [if_pos (by simpa using hmis)]
    exact issueU_trap s q g { h with u := true } v _ _
  all_goals rw [if_neg (by simpa using ⟨ho, hl⟩)]
  · rw [if_pos (by simpa using hper)]
    exact issueU_trap s q g { h with u := true } v _ _
  all_goals rw [if_neg (by simpa using ⟨hlen, hsize⟩)]
  · rw [if_pos (hd.waitsBind_iff.mpr hwait)]
    exact X.waitsAt_wait _ rfl rfl rfl _
  · rw [if_neg (mt hd.waitsBind_iff.mp hfree)]
    exact ⟨X.goOn_done _ rfl rfl, X.done_modHandle _ _ _⟩

-- `hset.full` and `hrel` (R165, R166)

/-- What `hset.full` and `hrel` make of a handle. -/
def Handle.filled (hd : Handle) : Handle :=
  match hd.st with
  | .empty => { hd with st := .full }
  | _ => hd.refuse

def Handle.released (hd : Handle) : Handle :=
  match hd.st with
  | .unbound | .empty => hd
  | .full => hd.toEmpty
  | .error => if hd.idle then hd.toEmpty else hd.refuse
  | _ => hd.refuse

theorem Handle.filled_eq (hd : Handle) : hd.filled = if hd.st = .empty then { hd with st := .full } else { hd with last := 3 } := by
  obtain ⟨st⟩ := hd
  cases st <;> rfl

theorem Handle.released_spec (hd : Handle) :
    ((hd.st = .unbound ∨ hd.st = .empty) → hd.released = hd) ∧
    ((hd.st = .full ∨ (hd.st = .error ∧ hd.inward = 0 ∧ hd.outward = 0)) → hd.released.st = .empty ∧ hd.released.dones = 0 ∧ hd.released.last = hd.last) ∧
    ((hd.st = .filling ∨ hd.st = .draining ∨ (hd.st = .error ∧ ¬ (hd.inward = 0 ∧ hd.outward = 0))) → hd.released = { hd with last := 3 }) := by
  obtain ⟨st, alloc, gen, base, len, expect, dones, last, accepted, inward, outward, outBad, wg⟩ := hd
  cases st
  case error => by_cases hidle : inward = 0 ∧ outward = 0 <;> simp [Handle.released, Handle.toEmpty, Handle.refuse, Handle.idle, hidle]
  all_goals simp [Handle.released, Handle.toEmpty, Handle.refuse]

/-- A change of a handle behind a release: made at once with nothing of the group outstanding, else the run waits. -/
theorem completes_handleRelease {i : Instr} {n : BitVec 6} {f : Handle → Handle} (hi : Issues s i q g) (h0 : acts h q g ≠ 0)
    (he : exec i s = s.withIssue i h fun x => x.unlessEmpty fun x => x.afterRel i .wg fun x _ => (x.modS fun s => s.modHandle x.core n.toNat f).done) :
    (NoOps s q.gid → Completes i s fun t => GoOn t q (fun _ => nextPc h q) ∧ t.handle g.info.core n.toNat = f (s.handle g.info.core n.toNat)) ∧
    (Owes s q.gid → Completes i s fun t => WaitsAt t q .release (some i)) := by
  have he := exec_of_withIssue he hi
  rw [issueX_acting h0] at he
  refine ⟨fun hn => ⟨_, he, ?_⟩, fun ho => ⟨_, he, ?_⟩⟩
  · unfold X.afterRel
    rw [show (issueX s q g h).resume = none from rfl]
    dsimp only
    rw [X.release_near _ _ rfl (not_owes_of_noOps hn)]
    exact ⟨X.goOn_done _ rfl rfl, X.done_modHandle _ _ _⟩
  · unfold X.afterRel
    rw [show (issueX s q g h).resume = none from rfl]
    dsimp only
    rw [X.release_owed _ _ ho, if_neg ?_]
    · exact X.waitsAt_wait _ rfl rfl rfl _
    · simp [Wait.over_, Wait.of, X.begun]

theorem completes_hsetFull {n : BitVec 6} (hi : Issues s (.hsetFull h n) q g) (h0 : acts h q g ≠ 0) :
    (NoOps s q.gid → Completes (.hsetFull h n) s fun t =>
      GoOn t q (fun _ => nextPc h q) ∧ t.handle g.info.core n.toNat = (s.handle g.info.core n.toNat).filled) ∧
    (Owes s q.gid → Completes (.hsetFull h n) s fun t => WaitsAt t q .release (some (.hsetFull h n))) :=
  completes_handleRelease hi h0 rfl

theorem completes_hrel {n : BitVec 6} (hi : Issues s (.hrel h n) q g) (h0 : acts h q g ≠ 0) :
    (NoOps s q.gid → Completes (.hrel h n) s fun t =>
      GoOn t q (fun _ => nextPc h q) ∧ t.handle g.info.core n.toNat = (s.handle g.info.core n.toNat).released) ∧
    (Owes s q.gid → Completes (.hrel h n) s fun t => WaitsAt t q .release (some (.hrel h n))) :=
  completes_handleRelease hi h0 rfl

end

end Sys2Proof.Machine

/-! The instructions on tensor identifiers (R167, R168), and handles and identifiers together. -/

namespace Sys2Proof.Machine

open Sys2Proof.Safety

-- Identifiers

theorem tenKey_inj {ctx cluster k n : Nat} : tenKey ctx cluster k = tenKey ctx cluster n ↔ k = n := by
  unfold tenKey
  omega

theorem State.tenRec_setTen (s : State) (ctx cluster k n : Nat) (bs : List Byte) :
    (s.setTen ctx cluster n bs).tenRec ctx cluster k = if k = n then bs else s.tenRec ctx cluster k := by
  unfold State.setTen State.tenRec
  rw [SMap.get_put]
  exact if_congr tenKey_inj rfl rfl

section
variable {s : State} {q : Issue} {g : Group} {h : Hdr}

/-- An identifier set as the run goes on: it alone changes. -/
theorem tenRec_done (x : X) (u : State) (n : BitVec 8) (bs : List Byte) (ctx cluster : Nat) (hu : u.tensors = s.tensors) :
    let t := ({ x with s := u.setTen ctx cluster n.toNat bs } : X).done
    t.tenRec ctx cluster n.toNat = bs ∧ ∀ k, k ≠ n.toNat → k < 256 → t.tenRec ctx cluster k = s.tenRec ctx cluster k := by
  refine ⟨((u.tenRec_setTen ctx cluster _ _ bs).trans (if_pos rfl)), fun k hne _ => ((u.tenRec_setTen ctx cluster _ _ bs).trans (if_neg hne)).trans ?_⟩
  unfold State.tenRec
  rw [hu]

theorem completes_tinv {n : BitVec 8} (hi : Issues s (.tinv h n) q g) : SkipsEmpty (.tinv h n) s q g h ∧
    (acts h q g ≠ 0 → Completes (.tinv h n) s fun t => GoOn t q (fun _ => nextPc h q) ∧
      t.tenRec g.info.ctx (clusterOf g.info.core) n.toNat = List.replicate 128 0 ∧
      (∀ k, k ≠ n.toNat → k < 256 → t.tenRec g.info.ctx (clusterOf g.info.core) k = s.tenRec g.info.ctx (clusterOf g.info.core) k) ∧
      t.msys = s.msys ∧ t.cores = s.cores) := by
  have he : exec (.tinv h n) s = .next ((issueX s q g h).unlessEmpty fun x =>
      (x.modS fun s => s.setTen x.g.info.ctx (clusterOf x.core) n.toNat (List.replicate 128 0)).done) := by
    rw [show exec (.tinv h n) s = execTinv h n s from rfl, execTinv, State.withIssue_of_issues hi]
  refine ⟨fun h0 => ⟨_, he, ?_⟩, fun h0 => ⟨_, he, ?_⟩⟩
  · rw [X.unlessEmpty, if_pos (show (issueX s q g h).lanes = 0 from h0)]
    exact ⟨X.goOn_done _ rfl rfl, issueX_done_onlyRuns ..⟩
  · rw [issueX_acting h0]
    obtain ⟨hrec, hothers⟩ := tenRec_done (s := s) (issueX s q g h) s n (List.replicate 128 0) g.info.ctx (clusterOf g.info.core) rfl
    exact ⟨X.goOn_done _ rfl rfl, hrec, hothers, rfl, rfl⟩

-- The 128-byte access of `tset` and `tget` (R147, R168)

/-- An access without a cause, to the memory, of bytes without an uncorrectable error if it reads. -/
theorem tensorAccess_of_reaches {a : Reg} {acc : Access} {x : Xlated} (h0 : acts h q g ≠ 0)
    (hr : Reaches s q g acc .normal (g.rd64 (lowest (acts h q g)) a).toNat 128 x) (hp : x.pa < hbmSize)
    (hb : acc = .read → s.msys.bad x.pa 128 = false) (body : X → Nat → Nat → State) :
    ∃ b, (issueX s q g h).tensorAccess a acc body = body (issueU s q g { h with u := true } b) x.pa x.key := by
  obtain ⟨b, hb'⟩ := issueX_once s q g h fun l => [g.rd64 l a]
  refine ⟨b, ?_⟩
  have hbad : (acc == .read && (issueU s q g { h with u := true } b).s.msys.bad x.pa 128) = false := by
    cases acc
    case read => exact hb rfl
    all_goals rfl
  unfold X.tensorAccess
  rw [issueX_acting h0]
  dsimp only
  have hc : (issueU s q g { h with u := true } b).checkGlobal acc .normal 128 128 (issueU s q g { h with u := true } b).low
      ((issueU s q g { h with u := true } b).g.rd64 (issueU s q g { h with u := true } b).low a).toNat = _ :=
    issueU_checkGlobal (h := { h with u := true }) hr
  rw [show (issueX s q g h).g = g from rfl, hb', hc]
  dsimp only [LaneCheck.ok, LaneAcc.at_]
  simp only [Option.isSome_none, Bool.false_eq_true, if_false, ge_iff_le, Nat.not_le.mpr hp, hbad]

/-- A read through the L1 leaves the identifiers alone. -/
theorem State.nearRead_tensors (s : State) (core key pa n : Nat) : (s.nearRead core key pa n).1.tensors = s.tensors := by
  unfold State.nearRead
  dsimp only
  split <;> rfl

/-- Bytes written into the L1 under one key stand there. -/
theorem Core.l1Byte_l1Write_key (bs : List Byte) (c : Core) (p r key : Nat) (d : Bool) :
    (c.l1Write key d r bs).l1Byte p key = if r ≤ p ∧ p < r + bs.length then some (bs.getD (p - r) 0, d) else c.l1Byte p key := by
  induction bs generalizing c r with
  | nil => rw [if_neg (by rintro ⟨h1, h2⟩; exact absurd h2 (Nat.not_lt.mpr h1))]; rfl
  | cons b t ih =>
    have hset : (c.l1Set r key b d).l1Byte p key = if p = r then some (b, d) else c.l1Byte p key := by
      unfold Core.l1Byte Core.l1Set
      rw [SMap.find_ins]
      exact if_congr (by unfold l1Key; omega) rfl rfl
    rw [Core.l1Write, ih, hset, List.length_cons]
    by_cases hlater : r + 1 ≤ p ∧ p < r + 1 + t.length
    · rw [if_pos hlater, if_pos (by omega), getD_sub_cons hlater.1]
    · rw [if_neg hlater]
      by_cases hpr : p = r
      · rw [if_pos hpr, if_pos (by omega), hpr, Nat.sub_self]
        rfl
      · rw [if_neg hpr, if_neg (by omega)]

theorem completes_tset {n : BitVec 8} {a : Reg} {x : Xlated} (hi : Issues s (.tset h n a) q g) (h0 : acts h q g ≠ 0)
    (hr : Reaches s q g .read .normal (g.rd64 (lowest (acts h q g)) a).toNat 128 x) (hp : x.pa < hbmSize) (hb : s.msys.bad x.pa 128 = false) :
    let bs := (s.nearRead g.info.core x.key x.pa 128).2
    ((tenOf bs).valid = false ∨ tenChecks bs = true → Completes (.tset h n a) s fun t => GoOn t q (fun _ => nextPc h q) ∧
      t.tenRec g.info.ctx (clusterOf g.info.core) n.toNat = (if (tenOf bs).valid then bs else List.replicate 128 0) ∧
      ∀ k, k ≠ n.toNat → k < 256 → t.tenRec g.info.ctx (clusterOf g.info.core) k = s.tenRec g.info.ctx (clusterOf g.info.core) k) ∧
    ((tenOf bs).valid = true → tenChecks bs = false → ∃ u : State, Completes (.tset h n a) s fun t => t = u.takeTrap q.gid
      { cause := .operandEncoding, other := false, mask := acts h q g, pc := q.pc, npc := q.pc,
        addr := BitVec.ofNat 64 (g.rd64 (lowest (acts h q g)) a).toNat, run := q.lanes } ∧ u.tensors = s.tensors) := by
  intro bs
  obtain ⟨b, hbody⟩ := tensorAccess_of_reaches h0 hr hp (fun _ => hb) fun x pa key =>
    let r := x.s.nearRead x.core key pa 128
    if !(tenOf r.2).valid || tenChecks r.2 then { x with s := r.1.setTen x.g.info.ctx (clusterOf x.core) n.toNat (tenStored r.2) }.done
    else { x with s := r.1 }.trap .operandEncoding x.lanes (x.g.rd64 x.low a)
  have he : exec (.tset h n a) s = .next _ :=
    (show exec (.tset h n a) s = execTset h n a s from rfl).trans ((State.withIssue_of_issues hi h _).trans (congrArg Host.Outcome.next hbody))
  refine ⟨fun hok => ?_, fun hv hc => ?_⟩
  · have hcond : (!(tenOf bs).valid || tenChecks bs) = true := by simpa using hok
    obtain ⟨hrec, hothers⟩ := tenRec_done (s := s) (issueU s q g { h with u := true } b) (s.nearRead g.info.core x.key x.pa 128).1 n (tenStored bs) g.info.ctx
      (clusterOf g.info.core) (State.nearRead_tensors ..)
    exact ⟨_, he.trans (congrArg Host.Outcome.next (if_pos hcond)), X.goOn_done _ rfl rfl, hrec, hothers⟩
  · have hcond : ¬ (!(tenOf bs).valid || tenChecks bs) = true := by simp [hv, hc]
    refine ⟨(s.nearRead g.info.core x.key x.pa 128).1, _, he.trans (congrArg Host.Outcome.next (if_neg hcond)), ?_, State.nearRead_tensors ..⟩
    rw [BitVec.ofNat_toNat, BitVec.setWidth_eq]
    rfl

theorem completes_tget {n : BitVec 8} {a : Reg} {x : Xlated} (hi : Issues s (.tget h n a) q g) (h0 : acts h q g ≠ 0)
    (hr : Reaches s q g .write .normal (g.rd64 (lowest (acts h q g)) a).toNat 128 x) (hp : x.pa < hbmSize) :
    let rec_ := s.tenRec g.info.ctx (clusterOf g.info.core) n.toNat
    Completes (.tget h n a) s fun t => GoOn t q (fun _ => nextPc h q) ∧ t.tensors = s.tensors ∧ t.msys = s.msys ∧
      ∀ i, i < rec_.length → (t.core g.info.core).l1Byte (x.pa + i) x.key = some (rec_.getD i 0, true) := by
  intro rec_
  obtain ⟨b, hbody⟩ := tensorAccess_of_reaches h0 hr hp (fun hacc => nomatch hacc) fun x pa key =>
    (x.modS fun s => s.modCore x.core fun c => c.l1Write key true pa (s.tenRec x.g.info.ctx (clusterOf x.core) n.toNat)).done
  refine ⟨_, (show exec (.tget h n a) s = execTget h n a s from rfl).trans
    ((State.withIssue_of_issues hi h _).trans (congrArg Host.Outcome.next hbody)), X.goOn_done _ rfl rfl, rfl, rfl, fun i hlt => ?_⟩
  have hcore : (s.modCore g.info.core fun c => c.l1Write x.key true x.pa rec_).core g.info.core = (s.core g.info.core).l1Write x.key true x.pa rec_ :=
    State.core_modCore ..
  change ((s.modCore g.info.core fun c => c.l1Write x.key true x.pa rec_).core g.info.core).l1Byte (x.pa + i) x.key = _
  rw [hcore, Core.l1Byte_l1Write_key, if_pos ⟨Nat.le_add_right .., Nat.add_lt_add_left hlt _⟩, Nat.add_sub_cancel_left]

end

/-- Settles O27: the handle instructions by the state of the handle, the identifiers by the record that is read. -/
theorem handlesAndTensorIdentifiers : Obligations.HandlesAndTensorIdentifiers := by
  unfold Obligations.HandlesAndTensorIdentifiers
  refine ⟨fun s q g h n => ⟨fun d i ok hc hi hwf => hwaits hc hi hwf, fun e a b hi w al hw hal h0 => ?_, fun i hcase hi h0 => ?_⟩,
    fun s q g h n a => ⟨completes_tinv, fun x hi h0 hr hp hb => completes_tset hi h0 hr hp hb, fun x hi h0 hr hp => completes_tget hi h0 hr hp⟩⟩
  · obtain ⟨hmis, hper, hwait, hbind⟩ := completes_hsetBind hi hw hal h0
    refine ⟨hmis, hper, hwait, fun ho hl hlen hsize hfree => ?_⟩
    obtain ⟨t, he, hgo, hnow⟩ := hbind ho hl hlen hsize hfree
    refine ⟨t, he, hgo, ?_⟩
    dsimp only
    rw [hnow]
    exact ⟨rfl, rfl, rfl, rfl, rfl, rfl, rfl, rfl⟩
  · rcases hcase with rfl | rfl
    · obtain ⟨hdone, hwait⟩ := completes_hsetFull hi h0
      refine ⟨fun hn => ?_, hwait⟩
      obtain ⟨t, he, hgo, hnow⟩ := hdone hn
      exact ⟨t, he, hgo, fun _ => hnow.trans (Handle.filled_eq _), nofun⟩
    · obtain ⟨hdone, hwait⟩ := completes_hrel hi h0
      refine ⟨fun hn => ?_, hwait⟩
      obtain ⟨t, he, hgo, hnow⟩ := hdone hn
      exact ⟨t, he, hgo, nofun, fun _ => by dsimp only; rw [hnow]; exact Handle.released_spec _⟩

end Sys2Proof.Machine

/-! Answers to the accesses of an operation, of whatever kind (R76, R148): what they change, and when the operation ends. -/

namespace Sys2Proof.Machine

open Sys2Proof.Safety

/-- Between two states lie answers alone: operations, groups, latencies drawn, and L1s that an acquire has cleaned. -/
structure Answering (s t : State) : Prop where
  eq : ∃ ops gs f cs, t = { s with ops := ops, groups := gs, fresh := f, cores := cs }
  core : ∀ k, ∃ m, t.core k = { s.core k with l1 := m }

theorem Answering.refl (s : State) : Answering s s := ⟨⟨_, _, _, _, rfl⟩, fun _ => ⟨_, rfl⟩⟩

theorem Answering.trans {s t u : State} (h : Answering s t) (h' : Answering t u) : Answering s u := by
  obtain ⟨ops, gs, f, cs, rfl⟩ := h.eq
  obtain ⟨ops', gs', f', cs', rfl⟩ := h'.eq
  refine ⟨⟨ops', gs', f', cs', rfl⟩, fun k => ?_⟩
  obtain ⟨m, hm⟩ := h.core k
  obtain ⟨m', hm'⟩ := h'.core k
  exact ⟨m', by rw [hm', hm]⟩

theorem Answering.spads {s t : State} (h : Answering s t) : t.spads = s.spads := by
  obtain ⟨ops, gs, f, cs, rfl⟩ := h.eq
  rfl

theorem Answering.spad {s t : State} (h : Answering s t) (k : Nat) : t.spad k = s.spad k := congrArg (SMap.get Spad.reset · k) h.spads

/-- No core has changed. -/
theorem Answering.of_groups {s : State} (ops : SMap MemOp) (gs : SMap Group) (f : Nat) : Answering s { s with ops := ops, groups := gs, fresh := f } :=
  ⟨⟨_, _, _, _, rfl⟩, fun _ => ⟨_, rfl⟩⟩

theorem Answering.modGroup (s : State) (gid : Nat) (f : Group → Group) : Answering s (s.modGroup gid f) := by
  obtain ⟨gs, e⟩ := s.modGroup_eq gid f
  rw [e]
  exact of_groups s.ops gs s.fresh

theorem Answering.acquireAt (s : State) (core : Nat) (scope : Scope) : Answering s (s.acquireAt core scope) := by
  unfold State.acquireAt
  split
  · exact refl s
  · refine ⟨⟨_, _, _, _, rfl⟩, fun k => ?_⟩
    by_cases h : k = core
    · exact ⟨_, by rw [h, State.core_modCore]; rfl⟩
    · exact ⟨(s.core k).l1, by rw [State.core_modCore_ne _ _ h]⟩

/-- The end of an operation changes operations and groups. -/
theorem State.endOp_eq (s : State) (id : Nat) (p : MemOp) : ∃ gs, s.endOp id p = { s with ops := s.ops.del id, groups := gs } := by
  unfold State.endOp State.pendTrap
  dsimp only
  generalize hf : (fun g : Group => ((if p.nf = true then _ else g).decCtr p.ctr).unmark id) = f
  obtain ⟨gs, e⟩ := ({ s with ops := s.ops.del id } : State).modGroup_eq p.gid f
  rw [e]
  split
  · split
    · exact ⟨gs, rfl⟩
    · exact State.modGroup_eq _ _ _
  · exact ⟨gs, rfl⟩

-- The counter of the operation (R76)

theorem SameBut.ctr {g k : Group} (h : SameBut g k) (c : Nat) : k.ctr c = g.ctr c := by
  match c with
  | 0 => exact h.ld
  | 1 => exact h.st
  | 2 => exact h.cp
  | 3 => exact h.tl
  | _ + 4 => rfl

theorem MemOp.writeD_ctr (o : MemOp) (g : Group) (c : Nat) : (o.writeD g).ctr c = g.ctr c := by
  unfold MemOp.writeD
  split
  · rfl
  · refine List.foldlRecOn (motive := fun k : Group => k.ctr c = g.ctr c) _ _ rfl fun k hk a _ => ?_
    split
    · exact hk
    · exact ((Group.wrFold_same k _ _ _ _).ctr c).trans hk

/-- The group of an operation that ends, with the counter one lower. -/
theorem State.endOp_ctr {s : State} (id : Nat) {p : MemOp} {g : Group} (h : s.group? p.gid = some g) :
    ∃ k, (s.endOp id p).group? p.gid = some k ∧ k.ctr p.ctr = g.ctr p.ctr - 1 := by
  unfold State.endOp State.pendTrap
  dsimp only
  generalize hf : (fun g : Group => ((if p.nf = true then _ else g).decCtr p.ctr).unmark id) = f
  have hctr : (f g).ctr p.ctr = g.ctr p.ctr - 1 := by
    rw [← hf]
    dsimp only
    rw [Group.ctr_congr (Group.unmark_keeps _ id).2, Group.ctr_decCtr]
    split
    · rw [Group.ctr_wrPAll]
    · rfl
  have hg : (({ s with ops := s.ops.del id } : State).modGroup p.gid f).group? p.gid = some (f g) := by
    rw [State.group?_modGroup, show ({ s with ops := s.ops.del id } : State).group? p.gid = some g from h]
    rfl
  split
  · split
    · exact ⟨f g, hg, hctr⟩
    · exact ⟨_, (State.group?_modGroup ..).trans (congrArg (Option.map _) hg), hctr⟩
  · exact ⟨f g, hg, hctr⟩

-- The check after an answer

/-- The time at which data are due takes a latency at most. -/
theorem State.dataDue_eq (s : State) (core : Nat) (o : MemOp) : ∃ due f, s.dataDue core o = (due, { s with fresh := f }) := by
  unfold State.dataDue
  split
  · exact ⟨_, s.fresh, rfl⟩
  · exact ⟨_, s.fresh + 1, rfl⟩

/-- An operation that ends after the check: it is gone, and its counter has fallen; or it stands with its accesses. -/
theorem State.opCheck_spec {s : State} {id : Nat} {p : MemOp} (hp : s.ops.find id = some p) : Answering s (s.opCheck id) ∧
    ((∃ r, (s.opCheck id).ops.find id = some r ∧ r.accs = p.accs) ∨
      ((s.opCheck id).ops.find id = none ∧ ∀ g, s.group? p.gid = some g → ∃ k, (s.opCheck id).group? p.gid = some k ∧ k.ctr p.ctr = g.ctr p.ctr - 1)) := by
  have hends (u : State) (hu : Answering s u) (hg : ∀ g, s.group? p.gid = some g → ∃ k, u.group? p.gid = some k ∧ k.ctr p.ctr = g.ctr p.ctr) :
      Answering s (u.endOp id p) ∧ (u.endOp id p).ops.find id = none ∧
        ∀ g, s.group? p.gid = some g → ∃ k, (u.endOp id p).group? p.gid = some k ∧ k.ctr p.ctr = g.ctr p.ctr - 1 := by
    obtain ⟨gs, e⟩ := u.endOp_eq id p
    refine ⟨hu.trans (e ▸ Answering.of_groups _ gs u.fresh), by rw [e]; exact (SMap.find_del ..).trans (if_pos rfl), fun g hgs => ?_⟩
    obtain ⟨k, hk, hc⟩ := hg g hgs
    obtain ⟨k', hk', hc'⟩ := State.endOp_ctr id hk
    exact ⟨k', hk', by rw [hc', hc]⟩
  unfold State.opCheck
  rw [hp]
  dsimp only
  split
  · exact ⟨.refl s, .inl ⟨p, hp, rfl⟩⟩
  · split
    case h_1 => exact (hends s (.refl s) fun g hg => ⟨g, hg, rfl⟩).imp_right .inr
    case h_2 =>
      refine (hends _ ?_ fun g hg => ⟨g, ?_, rfl⟩).imp_right .inr
      · split
        · exact Answering.acquireAt ..
        · exact .refl s
      · split
        · unfold State.acquireAt
          split <;> exact hg
        · exact hg
    case h_5 =>
      refine (hends _ (Answering.modGroup ..) fun g hg => ⟨p.writeD g, ?_, p.writeD_ctr g _⟩).imp_right .inr
      rw [State.group?_modGroup, hg]
      rfl
    all_goals
      obtain ⟨due, f, e⟩ := s.dataDue_eq (((s.group? p.gid).map (·.info.core)).getD 0) p
      rw [e]
      exact ⟨Answering.of_groups _ s.groups f, .inl ⟨_, SMap.find_ins_self .., rfl⟩⟩

/-- The answer to an outstanding access: the operation says it, or has ended (R76). -/
theorem State.laneDone_spec {s : State} {id lane : Nat} {o : MemOp} {a : LaneAcc} (h : Outstanding s id lane o a) (back : Option (List Byte))
    (err : Option Cause) : Answered s (s.laneDone id lane back err) id lane o back err := by
  obtain ⟨ho, ha⟩ := h
  have hmem := List.mem_of_find?_eq_some ha
  have hlane : (a.lane == lane && !a.done) = true := List.find?_some (p := fun b : LaneAcc => b.lane == lane && !b.done) ha
  have e : s.laneDone id lane back err = ({ s with ops := s.ops.ins id (o.answered lane back err) } : State).opCheck id := by
    unfold State.laneDone State.modOp
    rw [ho]
    rfl
  rw [e]
  obtain ⟨-, hst | hend⟩ := State.opCheck_spec (s := { s with ops := s.ops.ins id (o.answered lane back err) }) (SMap.find_ins_self ..)
  · obtain ⟨r, hr, haccs⟩ := hst
    refine .inl ⟨r, { a with back := back, err := err, done := true }, hr, ?_, beq_iff_eq.mp ((Bool.and_eq_true ..).mp hlane).1, rfl, rfl, rfl⟩
    rw [haccs]
    exact List.mem_map.mpr ⟨a, hmem, if_pos hlane⟩
  · exact .inr hend

theorem State.laneDone_answering (s : State) (id lane : Nat) (back : Option (List Byte)) (err : Option Cause) :
    Answering s (s.laneDone id lane back err) := by
  unfold State.laneDone State.modOp
  cases ho : s.ops.find id with
  | none =>
    unfold State.opCheck
    dsimp only
    rw [ho]
    exact .refl s
  | some o =>
    exact (Answering.of_groups _ s.groups s.fresh).trans (State.opCheck_spec (s := { s with ops := _ }) (SMap.find_ins_self ..)).1

/-- An operation that has been answered is of the kind that it was. -/
theorem State.laneDone_store {s : State} {id : Nat} (hk : ∀ p, s.ops.find id = some p → p.kind = .store) (lane : Nat) (back : Option (List Byte))
    (err : Option Cause) : (∃ ops gs, s.laneDone id lane back err = { s with ops := ops, groups := gs }) ∧
      ∀ p, (s.laneDone id lane back err).ops.find id = some p → p.kind = .store := by
  cases ho : s.ops.find id with
  | none =>
    have e : s.laneDone id lane back err = s := by
      unfold State.laneDone State.modOp State.opCheck
      rw [ho]
      dsimp only
      rw [ho]
    rw [e]
    exact ⟨⟨_, _, rfl⟩, hk⟩
  | some o =>
    have e : s.laneDone id lane back err = ({ s with ops := s.ops.ins id (o.answered lane back err) } : State).opCheck id := by
      unfold State.laneDone State.modOp
      rw [ho]
      rfl
    have hf : ({ s with ops := s.ops.ins id (o.answered lane back err) } : State).ops.find id = some (o.answered lane back err) := SMap.find_ins_self ..
    have hkind : (o.answered lane back err).kind = .store := hk o ho
    rw [e]
    unfold State.opCheck
    rw [hf]
    dsimp only
    rw [hkind]
    split
    · exact ⟨⟨_, s.groups, rfl⟩, fun p hp => Option.some.inj (hf.symm.trans hp) ▸ hkind⟩
    · dsimp only
      obtain ⟨gs, e⟩ := ({ s with ops := s.ops.ins id (o.answered lane back err) } : State).endOp_eq id (o.answered lane back err)
      rw [e]
      refine ⟨⟨_, gs, rfl⟩, fun p hp => ?_⟩
      have hgone : (SMap.del (s.ops.ins id (o.answered lane back err)) id).find id = none := (SMap.find_del ..).trans (if_pos rfl)
      exact absurd (hp.symm.trans hgone) (by simp)

end Sys2Proof.Machine

/-! The scratchpad ports (R149, R151, R153, R227, R238): stores of the core's own, and what reaches a port from outside. -/

namespace Sys2Proof.Machine

open Sys2Proof.Safety

-- Bytes of a scratchpad

theorem Spad.byte_write (bs : List Byte) (p : Spad) (tag off x : Nat) :
    (p.write tag off bs).byte x = if off ≤ x ∧ x < off + bs.length then bs.getD (x - off) 0 else p.byte x := by
  induction bs generalizing p off with
  | nil => rw [if_neg (by rintro ⟨h1, h2⟩; exact absurd h2 (Nat.not_lt.mpr h1))]; rfl
  | cons b t ih =>
    rw [Spad.write, ih, List.length_cons]
    have hput : ({ p with bytes := p.bytes.put 0 off b, tag := p.tag.put 0 (off / 16) tag } : Spad).byte x = if x = off then b else p.byte x := SMap.get_put ..
    rw [hput]
    by_cases hlater : off + 1 ≤ x ∧ x < off + 1 + t.length
    · rw [if_pos hlater, if_pos (by omega), getD_sub_cons hlater.1]
    · rw [if_neg hlater]
      by_cases hx : x = off
      · rw [if_pos hx, if_pos (by omega), hx, Nat.sub_self]
        rfl
      · rw [if_neg hx, if_neg (by omega)]

theorem Spad.tagOf_write (bs : List Byte) (p : Spad) (tag off : Nat) :
    (∀ i, i < bs.length → (p.write tag off bs).tagOf (off + i) = tag) ∧ ∀ x, p.tagOf x = tag → (p.write tag off bs).tagOf x = tag := by
  induction bs generalizing p off with
  | nil => exact ⟨nofun, fun _ h => h⟩
  | cons b t ih =>
    rw [Spad.write]
    obtain ⟨hin, hkeep⟩ := ih { p with bytes := p.bytes.put 0 off b, tag := p.tag.put 0 (off / 16) tag } (off + 1)
    have hput (x : Nat) : ({ p with bytes := p.bytes.put 0 off b, tag := p.tag.put 0 (off / 16) tag } : Spad).tagOf x =
        if x / 16 = off / 16 then tag else p.tagOf x := SMap.get_put ..
    refine ⟨fun i hi => ?_, fun x hx => hkeep x ?_⟩
    · cases i with
      | zero => exact hkeep off (by rw [hput, if_pos rfl])
      | succ j => rw [show off + (j + 1) = off + 1 + j by omega]; exact hin j (Nat.lt_of_succ_lt_succ hi)
    · rw [hput]
      split
      · rfl
      · exact hx

theorem spadWritten_write (p : Spad) (off : Nat) (bs : List Byte) : SpadWritten p (p.write 0 off bs) off bs := by
  refine ⟨fun i hi => ⟨?_, (Spad.tagOf_write bs p 0 off).1 i hi⟩, fun x hx => ?_, fun x => Spad.isFull_write bs p 0 off x⟩
  · rw [Spad.byte_write, if_pos ⟨Nat.le_add_right .., Nat.add_lt_add_left hi _⟩, Nat.add_sub_cancel_left]
  · rw [Spad.byte_write, if_neg (by omega)]

-- Stores of the core's own scratchpad (R149, R151)

/-- The scratchpad after the writes of accesses, one after the other. -/
def Spad.stored (p : Spad) (accs : List LaneAcc) : Spad := accs.foldl (fun p a => p.write 0 a.pa a.data) p

theorem Spad.isFull_stored (p : Spad) (accs : List LaneAcc) (x : Nat) : (p.stored accs).isFull x = p.isFull x := by
  refine List.foldlRecOn (motive := fun k : Spad => k.isFull x = p.isFull x) _ _ rfl fun k hk a _ => ?_
  rw [Spad.isFull_write, hk]

/-- A byte is what the last access that covers it stores. -/
theorem Spad.byte_stored (p : Spad) (accs : List LaneAcc) (n x : Nat) (hn : ∀ a ∈ accs, a.data.length = n) :
    (p.stored accs).byte x = match (accs.filter fun a => decide (a.pa ≤ x ∧ x < a.pa + n)).getLast? with
      | some a => a.data.getD (x - a.pa) 0
      | none => p.byte x := by
  induction accs using List.reverseRecOn with
  | nil => rfl
  | append_singleton l a ih =>
    have hl : (p.stored (l ++ [a])).byte x = if a.pa ≤ x ∧ x < a.pa + n then a.data.getD (x - a.pa) 0 else (p.stored l).byte x := by
      rw [Spad.stored, List.foldl_append, List.foldl_cons, List.foldl_nil, Spad.byte_write, hn a (by simp)]
      rfl
    rw [hl, List.filter_append, List.filter_cons, List.filter_nil, ih fun b hb => hn b (List.mem_append_left _ hb)]
    by_cases hc : a.pa ≤ x ∧ x < a.pa + n
    · simp [hc]
    · simp [hc]

/-- The accesses of a store of the core's own scratchpad, from one state to another. -/
structure StoredHere (core id : Nat) (s t : State) (accs : List LaneAcc) : Prop where
  behind : t.spBehind core core = s.spBehind core core
  kind : ∀ p, t.ops.find id = some p → p.kind = .store
  cores : t.cores = s.cores
  msys : t.msys = s.msys
  spad : t.spad core = (s.spad core).stored accs
  others : ∀ c, c ≠ core → t.spad c = s.spad c

section
variable {core id : Nat} {o : MemOp} {s t : State} {accs : List LaneAcc}

theorem StoredHere.step (h : StoredHere core id s t accs) {a : LaneAcc} (hb : s.spBehind core core = false) (hk : o.kind = .store) (hf : o.fe = none)
    (ht : a.typ = 4) (ha : a.key = core) : StoredHere core id s (t.startAcc core id o a) (accs ++ [a]) := by
  have e : t.startAcc core id o a = (t.modSpad core fun p => p.write 0 a.pa a.data).laneDone id a.lane none none := by
    rw [State.startAcc_port ht, State.sendSp_here hf ha, if_neg (by rw [h.behind, hb]; decide), if_pos hk]
  obtain ⟨⟨ops, gs, e'⟩, hkind⟩ := State.laneDone_store (s := t.modSpad core fun p => p.write 0 a.pa a.data) h.kind a.lane none none
  rw [← e] at e' hkind
  have hspad (c : Nat) : (t.startAcc core id o a).spad c = if c = core then (t.spad core).write 0 a.pa a.data else t.spad c := by
    rw [e']
    exact State.spad_modSpad core c fun p => p.write 0 a.pa a.data
  refine ⟨?_, hkind, ?_, ?_, ?_, fun c hc => ?_⟩
  · rw [e']
    exact (Flow.modSpad (s := t) (core := core)).behind.trans h.behind
  · rw [e']; exact h.cores
  · rw [e']; exact h.msys
  · rw [hspad, if_pos rfl, h.spad, Spad.stored, Spad.stored, List.foldl_append]
    rfl
  · rw [hspad, if_neg hc, h.others c hc]

theorem StoredHere.fold (hb : s.spBehind core core = false) (hk : o.kind = .store) (hf : o.fe = none) (rest : List LaneAcc)
    (hr : ∀ a ∈ rest, a.typ = 4 ∧ a.key = core) (h : StoredHere core id s t accs) :
    StoredHere core id s (rest.foldl (fun s a => s.startAcc core id o a) t) (accs ++ rest) := by
  induction rest generalizing t accs with
  | nil => rwa [List.append_nil]
  | cons a l ih =>
    obtain ⟨ht, ha⟩ := hr a (List.mem_cons_self ..)
    have hs := ih (fun b hb => hr b (List.mem_cons_of_mem _ hb)) (h.step hb hk hf ht ha)
    rwa [List.append_assoc] at hs

end

-- Requests from outside (R153, R227, R238)

theorem takeFirst_split {α : Type} {p : α → Bool} {before after : List α} {a : α} (ha : p a = true) (hb : ∀ x ∈ before, p x = false) :
    takeFirst p (before ++ a :: after) = some (a, before ++ after) := by
  induction before with
  | nil => simp [takeFirst, ha]
  | cons x t ih =>
    rw [List.cons_append, takeFirst, hb x (List.mem_cons_self ..), ih fun y hy => hb y (List.mem_cons_of_mem _ hy)]
    rfl

/-- A request takes its place behind those that came before it or with it and of no higher rank. -/
theorem insFe_split (r : SpReq) (l : List SpReq) : ∃ b a, l = b ++ a ∧ insFe r l = b ++ r :: a ∧
    (∀ q ∈ b, q.arr ≤ r.arr ∧ (q.arr = r.arr → q.rank ≤ r.rank)) ∧ ∀ q, a.head? = some q → r.arr < q.arr ∨ (q.arr = r.arr ∧ r.rank < q.rank) := by
  induction l with
  | nil => exact ⟨[], [], rfl, rfl, nofun, nofun⟩
  | cons q t ih =>
    unfold insFe
    split
    · next hc =>
      refine ⟨[], q :: t, rfl, rfl, nofun, fun x hx => ?_⟩
      obtain rfl := Option.some.inj hx
      exact hc.imp_right fun h => ⟨h.1.symm, h.2⟩
    · next hc =>
      obtain ⟨b, a, hl, hi, hb, ha⟩ := ih
      refine ⟨q :: b, a, by rw [hl]; rfl, by rw [hi]; rfl, fun x hx => ?_, ha⟩
      rcases List.mem_cons.mp hx with rfl | hx
      · omega
      · exact hb x hx

theorem Core.stalewr_addStale (c : Core) (n : Nat) : (c.addStale n).stalewr.toNat = min (c.stalewr.toNat + n) 0xFFFFFFFF := by
  unfold Core.addStale
  rw [BitVec.toNat_ofNat]
  exact Nat.mod_eq_of_lt (by omega)

section
variable {s : State} {core : Nat} {r : SpReq} {before after : List SpReq}

theorem spArrive_eq (hi : s.spIn = before ++ r :: after) (hr : r.dst = core) (hb : ∀ q ∈ before, q.dst ≠ core) :
    s.spArrive core = if r.fe.isSome || s.spBehind r.src core then ({ s with spIn := before ++ after } : State).queueFe r
      else ({ s with spIn := before ++ after } : State).spPerform { r with arrNs := s.clock.ns } := by
  unfold State.spArrive
  rw [hi, takeFirst_split (by simpa using hr) fun q hq => by simpa using hb q hq]
  rfl

/-- An answer given when neither groups nor operations have changed since. -/
theorem answered_of_same {u : State} (hg : u.groups = s.groups) (ho : u.ops = s.ops) {id lane : Nat} {o : MemOp} {a : LaneAcc} (h : Outstanding s id lane o a)
    (back : Option (List Byte)) (err : Option Cause) : Answered s (u.laneDone id lane back err) id lane o back err := by
  have h' : Outstanding u id lane o a := ⟨by rw [ho]; exact h.1, h.2⟩
  exact (State.laneDone_spec h' back err).imp_right fun ⟨hnone, hctr⟩ => ⟨hnone, fun g hk => hctr g (by rw [State.group?, hg]; exact hk)⟩

/-- A request performed at its port is answered. -/
theorem spPerform_answered {o : MemOp} {a : LaneAcc} (h : Outstanding s r.op r.lane o a) : Answered s (s.spPerform r) r.op r.lane o
    (if r.bytes.isSome then none else some (if s.spStale r then List.replicate r.len 0 else (s.spad r.dst).read r.off r.len)) none := by
  unfold State.spPerform State.spIncoming
  cases r.bytes with
  | none =>
    dsimp only
    split <;> exact State.laneDone_spec h _ _
  | some bs =>
    dsimp only
    split <;> exact answered_of_same (by rfl) (by rfl) h _ _

/-- What a request performed at its port changes: a stale write is counted, another stored, a read changes neither cores nor scratchpads. -/
theorem spPerform_eq : ∃ u : State, Answering u (s.spPerform r) ∧ u.feq = s.feq ∧ u.spIn = s.spIn ∧ match r.bytes with
    | none => u = s
    | some bs => u = if s.stale r.alloc r.gen r.off bs.length r.issued r.arrNs then s.modCore r.dst fun c => c.addStale (spans r.off bs.length)
        else s.modSpad r.dst fun p => p.write r.tag r.off bs := by
  unfold State.spPerform State.spIncoming
  cases r.bytes with
  | none =>
    refine ⟨s, ?_, rfl, rfl, rfl⟩
    dsimp only
    split <;> exact State.laneDone_answering ..
  | some bs =>
    dsimp only
    split
    · exact ⟨_, State.laneDone_answering .., rfl, rfl, rfl⟩
    · exact ⟨_, State.laneDone_answering .., rfl, rfl, rfl⟩

/-- A read is stale once the allocation is gone. -/
theorem State.spStale_of_read (hn : r.bytes = none) : s.spStale r = match s.allocs.find r.alloc with
    | none => true
    | some a => a.released.isSome || a.gen != r.gen := by
  unfold State.spStale
  rw [hn] <;> rfl

/-- A request that need not wait is performed as it reaches its port. -/
theorem spArrive_performed (hi : s.spIn = before ++ r :: after) (hr : r.dst = core) (hb : ∀ q ∈ before, q.dst ≠ core) (hf : r.fe = none)
    (hbehind : s.spBehind r.src core = false) : (s.spArrive core).spIn = before ++ after ∧ (s.spArrive core).feq = s.feq ∧
      (∀ o a, Outstanding s r.op r.lane o a → Answered s (s.spArrive core) r.op r.lane o
        (if r.bytes.isSome then none else some (if s.spStale r then List.replicate r.len 0 else (s.spad core).read r.off r.len)) none) ∧
      ∀ bs, r.bytes = some bs → r.tag = 0 → if s.stale r.alloc r.gen r.off bs.length r.issued s.clock.ns
        then (s.spArrive core).spads = s.spads ∧
          ((s.spArrive core).core core).stalewr.toNat = min ((s.core core).stalewr.toNat + spans r.off bs.length) 0xFFFFFFFF
        else SpadWritten (s.spad core) ((s.spArrive core).spad core) r.off bs := by
  subst hr
  set u : State := { s with spIn := before ++ after }
  set r' : SpReq := { r with arrNs := s.clock.ns }
  have e : s.spArrive r.dst = u.spPerform r' := by
    rw [spArrive_eq hi rfl hb, if_neg (by simp [hf, hbehind])]
  obtain ⟨v, hans, hfeq, hin, hv⟩ := spPerform_eq (s := u) (r := r')
  obtain ⟨ops, gs, f, cs, he⟩ := hans.eq
  rw [e]
  refine ⟨by rw [he]; exact hin, by rw [he]; exact hfeq, fun o a ho => ?_, fun bs hbs ht => ?_⟩
  · have ho' : Outstanding u r'.op r'.lane o a := ho
    have hback : (if r'.bytes.isSome then none else some (if u.spStale r' then List.replicate r'.len 0 else (u.spad r'.dst).read r'.off r'.len)) =
        if r.bytes.isSome then none else some (if s.spStale r then List.replicate r.len 0 else (s.spad r.dst).read r.off r.len) := by
      cases hbytes : r.bytes with
      | none =>
        rw [State.spStale_of_read hbytes, State.spStale_of_read (r := r') hbytes]
        rfl
      | some bs => rw [Option.isSome_some, if_pos rfl, if_pos rfl]
    exact hback ▸ spPerform_answered ho'
  · have hbs' : r'.bytes = some bs := hbs
    rw [hbs'] at hv
    dsimp only at hv
    rw [show r'.tag = 0 from ht] at hv
    split
    · next hst =>
      rw [if_pos (show u.stale r'.alloc r'.gen r'.off bs.length r'.issued r'.arrNs = true from hst)] at hv
      have hstalewr : ((u.spPerform r').core r.dst).stalewr = (v.core r.dst).stalewr := by
        obtain ⟨m, hm⟩ := hans.core r.dst
        rw [hm]
      have hcore : v.core r.dst = (s.core r.dst).addStale (spans r.off bs.length) := by
        rw [hv]
        exact State.core_modCore ..
      exact ⟨by rw [hans.spads, hv]; rfl, by rw [hstalewr, hcore, Core.stalewr_addStale]⟩
    · next hst =>
      rw [if_neg (show ¬ u.stale r'.alloc r'.gen r'.off bs.length r'.issued r'.arrNs = true from hst)] at hv
      have hspad : (u.spPerform r').spad r.dst = (s.spad r.dst).write 0 r.off bs := by
        rw [hans.spad, hv]
        exact (State.spad_modSpad r.dst r.dst _).trans (if_pos rfl)
      rw [hspad]
      exact spadWritten_write ..

end

/-- What reaches a scratchpad port from outside. -/
theorem completes_scratchpadIncoming {s : State} {core : Nat} {r : SpReq} {before after : List SpReq} (hi : s.spIn = before ++ r :: after)
    (hr : r.dst = core) (hb : ∀ q ∈ before, q.dst ≠ core) : Completes (.scratchpadIncomingWrite core) s fun t => t.spIn = before ++ after ∧
      ((r.fe ≠ none ∨ s.spBehind r.src core = true) → t.spads = s.spads ∧ ∃ b a, s.feq = b ++ a ∧
        t.feq = b ++ { r with arr := s.cc, arrNs := s.clock.ns } :: a ∧ (∀ q ∈ b, q.arr ≤ s.cc ∧ (q.arr = s.cc → q.rank ≤ r.rank)) ∧
        ∀ q, a.head? = some q → s.cc < q.arr ∨ (q.arr = s.cc ∧ r.rank < q.rank)) ∧
      (r.fe = none → s.spBehind r.src core = false → t.feq = s.feq ∧
        (∀ o a, Outstanding s r.op r.lane o a → Answered s t r.op r.lane o
          (if r.bytes.isSome then none else some (if s.spStale r then List.replicate r.len 0 else (s.spad core).read r.off r.len)) none) ∧
        ∀ bs, r.bytes = some bs → r.tag = 0 → if s.stale r.alloc r.gen r.off bs.length r.issued s.clock.ns
          then t.spads = s.spads ∧ (t.core core).stalewr.toNat = min ((s.core core).stalewr.toNat + spans r.off bs.length) 0xFFFFFFFF
          else SpadWritten (s.spad core) (t.spad core) r.off bs) := by
  refine ⟨s.spArrive core, rfl, ?_⟩
  by_cases hw : r.fe ≠ none ∨ s.spBehind r.src core = true
  · have e : s.spArrive core = ({ s with spIn := before ++ after } : State).queueFe r := by
      rw [spArrive_eq hi hr hb, if_pos (by simpa [Option.isSome_iff_ne_none] using hw)]
    obtain ⟨b, a, hl, hq, hbefore, hafter⟩ := insFe_split { r with arr := s.cc, arrNs := s.clock.ns } s.feq
    rw [e]
    exact ⟨rfl, fun _ => ⟨rfl, b, a, hl, hq, hbefore, hafter⟩, fun hf hn => absurd hw (by simp [hf, hn])⟩
  · obtain ⟨hf, hn⟩ := not_or.mp hw
    have hf' : r.fe = none := not_not.mp hf
    have hn' : s.spBehind r.src core = false := Bool.eq_false_iff.mpr hn
    obtain ⟨hin, hfeq, hans, hwr⟩ := spArrive_performed hi hr hb hf' hn'
    exact ⟨hin, fun h => absurd h hw, fun _ _ => ⟨hfeq, hans, hwr⟩⟩

-- A store at issue (R149, R151)

section
variable {s : State} {q : Issue} {g : Group} {h : Hdr} {m : MemArg}

/-- The accesses of a store to the core's own scratchpad, launched, are made one after the other. -/
theorem launchOp_storedHere (b : Bool) (codes : List Nat) {o : MemOp} (hk : o.kind = .store) (hf : o.fe = none)
    (hb : s.spBehind g.info.core g.info.core = false) (ha : ∀ a ∈ o.accs, a.typ = 4 ∧ a.key = g.info.core) :
    StoredHere g.info.core s.serial s ((issueU s q g h b).launchOp o codes none).1.s o.accs := by
  set u : State := { (issueU s q g h b).launchS o codes with ops := s.ops.ins s.serial o } with hu
  have hstart : StoredHere g.info.core s.serial s (u.sending s.serial o) [] := by
    refine ⟨rfl, fun p hp => ?_, rfl, rfl, rfl, fun _ _ => rfl⟩
    rw [← Option.some.inj ((SMap.find_ins_self ..).symm.trans hp)]
    exact hk
  have e : ((issueU s q g h b).launchOp o codes none).1.s = o.accs.foldl (fun w a => w.startAcc g.info.core s.serial o a) (u.sending s.serial o) :=
    State.startOp_eq (s := u) (core := g.info.core) (id := s.serial) (o := o) (SMap.find_ins_self ..)
  rw [e]
  have hfold := hstart.fold hb hk hf o.accs ha
  rwa [List.nil_append] at hfold

/-- The bytes that the accesses of a store cover, by lane. -/
theorem carrying_covering (x : Nat → Nat × Nat × Nat × Nat) (a : Nat) :
    ((carrying g m (spadAccs h q g m x)).filter fun c => decide (c.pa ≤ a ∧ a < c.pa + m.size.bytes)).getLast? =
      (((actors h q g).filter fun l => decide ((x l).2.1 ≤ a ∧ a < (x l).2.1 + m.size.bytes)).getLast?).map fun l =>
        { LaneAcc.at_ l (m.saddr g l) (x l).2.1 (x l).1 4 (x l).2.2.1 (x l).2.2.2 with data := leBytes (dataOf g m.size.bytes l m.b) m.size.bytes } := by
  unfold carrying spadAccs
  rw [List.map_map, List.filter_map, List.getLast?_map]
  rfl

theorem completes_sts {x : Nat → Nat × Nat × Nat × Nat} (hi : Issues s (.sts h m) q g) (h0 : acts h q g ≠ 0) (hrel : isRel m.order = false)
    (hb : s.spBehind g.info.core g.info.core = false)
    (hx : ∀ l ∈ actors h q g, Targets s q g false true (m.saddr g l) m.size.bytes (x l).1 (x l).2.1 (x l).2.2.1 (x l).2.2.2 ∧ (x l).1 = g.info.core) :
    Completes (.sts h m) s fun t => (∀ c, c ≠ g.info.core → t.spad c = s.spad c) ∧ t.msys = s.msys ∧ t.cores = s.cores ∧
      (∀ a, (t.spad g.info.core).isFull a = (s.spad g.info.core).isFull a) ∧
      ∀ a, (t.spad g.info.core).byte a =
        match ((actors h q g).filter fun l => decide ((x l).2.1 ≤ a ∧ a < (x l).2.1 + m.size.bytes)).getLast? with
        | some l => (leBytes (dataOf g m.size.bytes l m.b) m.size.bytes).getD (a - (x l).2.1) 0
        | none => (s.spad g.info.core).byte a := by
  obtain ⟨b, e⟩ := issueX_scratch_of_ok h0 (fun l hl => (hx l hl).1)
    (fun x accs => (x.launchOp (x.memOp m .store 1 (x.withData m accs)) [] (relOf m)).1) X.advance
  set accs := carrying g m (spadAccs h q g m x)
  have hop : (issueU s q g h b).memOp m .store 1 ((issueU s q g h b).withData m (spadAccs h q g m x)) = opOf q g h m .store 1 accs :=
    issueU_memOp h0 (carrying_lanes m _ |>.trans (spadAccs_lanes m x))
  have haccs : ∀ a ∈ accs, a.typ = 4 ∧ a.key = g.info.core := by
    intro a ha
    obtain ⟨c, hc, rfl⟩ := List.mem_map.mp ha
    obtain ⟨l, hl, rfl⟩ := List.mem_map.mp hc
    exact ⟨rfl, (hx l hl).2⟩
  have hlen : ∀ a ∈ accs, a.data.length = m.size.bytes := by
    intro a ha
    obtain ⟨c, -, rfl⟩ := List.mem_map.mp ha
    exact Tests.length_leBytes _ _
  have hst := launchOp_storedHere (s := s) (q := q) (g := g) (h := h) b [] (o := opOf q g h m .store 1 accs) rfl rfl hb haccs
  refine ⟨_, (show exec (.sts h m) s = execSts h m s from rfl).trans (State.withIssue_of_issues hi h _), ?_⟩
  dsimp only
  rw [e, hop, show relOf m = none by simp [relOf, hrel]]
  have hspad := hst.spad
  refine ⟨hst.others, hst.msys, hst.cores, fun a => ?_, fun a => ?_⟩
  · exact (congrArg (Spad.isFull · a) hspad).trans (Spad.isFull_stored ..)
  · refine (congrArg (Spad.byte · a) hspad).trans ((Spad.byte_stored _ _ m.size.bytes a hlen).trans ?_)
    rw [carrying_covering]
    cases ((actors h q g).filter fun l => decide ((x l).2.1 ≤ a ∧ a < (x l).2.1 + m.size.bytes)).getLast? <;> rfl

end

/-- Settles O17: a store's accesses one after the other on the own scratchpad; the first request of a port from outside. -/
theorem scratchpadsStoreAndServe : Obligations.ScratchpadsStoreAndServe :=
  ⟨fun _ _ _ _ _ _ hi h0 hrel hb hx => completes_sts hi h0 hrel hb hx, fun _ _ _ _ _ hin hr hbefore => completes_scratchpadIncoming hin hr hbefore⟩

end Sys2Proof.Machine

/-! Full/empty accesses (R152, R153, R227): how they begin, and the service of a port. -/

namespace Sys2Proof.Machine

open Sys2Proof.Safety

-- The full bits

theorem Spad.isFull_setFull (p : Spad) (off x : Nat) (b : Bool) : (p.setFull off b).isFull x = if x / 16 = off / 16 then b else p.isFull x := SMap.get_put ..

-- The service of a port (R152, R153, R227)

section
variable {s : State} {core : Nat} {r : SpReq} {want : Option Bool} {after : Bool}

/-- A request that is not at the port, or of a core whose turn has passed, is passed over. -/
theorem FeTurn.next_skip (a : FeTurn) (h : r.dst ≠ core ∨ r.src ∈ a.behind) : a.next core r = a := by
  unfold FeTurn.next
  exact if_pos (by simpa using h)

/-- Requests that cannot be served, and came before this cycle or from other cores than one's, leave the state and that core's turn. -/
theorem feTurn_unready {before : List SpReq} (src : Nat) (hb : ∀ q ∈ before, q.dst = core → s.feReady q = false ∧ (q.arr = s.cc → q.src ≠ src))
    (a : FeTurn) (hs : a.s = s) (hu : a.used = []) (hsrc : src ∉ a.behind) :
    ∃ bh, before.foldl (fun a r => a.next core r) a = { s := s, used := [], behind := bh } ∧ src ∉ bh := by
  induction before generalizing a with
  | nil => exact ⟨a.behind, by subst hs; rw [← hu]; rfl, hsrc⟩
  | cons q t ih =>
    have ht := fun x hx => hb x (List.mem_cons_of_mem _ hx)
    rw [List.foldl_cons]
    by_cases hskip : q.dst ≠ core ∨ q.src ∈ a.behind
    · rw [FeTurn.next_skip a hskip]
      exact ih ht a hs hu hsrc
    · obtain ⟨hd, hbh⟩ := not_or.mp hskip
      obtain ⟨hready, harr⟩ := hb q (List.mem_cons_self ..) (not_not.mp hd)
      have hcond : ¬ (q.dst != core || a.behind.contains q.src) = true := by simpa using hskip
      unfold FeTurn.next
      rw [if_neg hcond, hs, hready]
      split
      · next hcc => exact ih ht _ rfl hu (by simpa using ⟨fun e => harr (beq_iff_eq.mp hcc) e.symm, hsrc⟩)
      · exact ih ht _ hs hu hsrc

/-- The first request that can be served is served. -/
theorem FeTurn.next_served {bh : List Nat} (hr : r.dst = core) (hbh : r.src ∉ bh) (harr : r.arr ≠ s.cc) (hready : s.feReady r = true)
    (hf : r.fe = some (want, after)) : ({ s := s, used := [], behind := bh } : FeTurn).next core r = { s := s.feServe1 r, used := [r.off / 16], behind := bh } := by
  unfold FeTurn.next
  rw [if_neg (by simp [hr, hbh]), if_neg (by simpa using harr), if_neg (by simp [hready]), if_neg (by simp), if_pos (by simp [hf])]

theorem State.feServe1_feq : (s.feServe1 r).feq = s.feq.erase r := by
  obtain ⟨u, hans, hfeq, -, -⟩ := spPerform_eq (s := { s with feq := s.feq.erase r }) (r := r)
  have hp : (({ s with feq := s.feq.erase r } : State).spPerform r).feq = s.feq.erase r := by
    obtain ⟨ops, gs, f, cs, e⟩ := hans.eq
    rw [e]
    exact hfeq
  unfold State.feServe1
  dsimp only
  split
  · split <;> exact hp
  · exact hp

/-- A full/empty request for a granule that has had its turn stays. -/
theorem FeTurn.next_keeps {q : SpReq} (a : FeTurn) (hq : q.fe ≠ none) (hu : q.off / 16 ∈ a.used) (hm : q ∈ a.s.feq) :
    q.off / 16 ∈ (a.next core r).used ∧ q ∈ (a.next core r).s.feq := by
  unfold FeTurn.next
  split
  · exact ⟨hu, hm⟩
  · split
    · exact ⟨hu, hm⟩
    · split
      · exact ⟨hu, hm⟩
      · split
        · exact ⟨hu, hm⟩
        · next hserve =>
          have hne : q ≠ r := by
            rintro rfl
            exact hserve (by simpa [Option.isSome_iff_ne_none] using ⟨hq, hu⟩)
          refine ⟨?_, ?_⟩
          · dsimp only
            split
            · exact List.mem_cons_of_mem _ hu
            · exact hu
          · dsimp only
            rw [State.feServe1_feq]
            exact (List.mem_erase_of_ne hne).mpr hm

theorem feTurn_keeps {q : SpReq} (l : List SpReq) (a : FeTurn) (hq : q.fe ≠ none) (hu : q.off / 16 ∈ a.used) (hm : q ∈ a.s.feq) :
    q ∈ (l.foldl (fun a r => a.next core r) a).s.feq := by
  induction l generalizing a with
  | nil => exact hm
  | cons x t ih =>
    obtain ⟨hu', hm'⟩ := a.next_keeps (core := core) (r := x) hq hu hm
    exact ih _ hu' hm'

/-- Requests at other ports are passed over. -/
theorem feTurn_elsewhere (l : List SpReq) (a : FeTurn) (hl : ∀ q ∈ l, q.dst ≠ core) : l.foldl (fun a r => a.next core r) a = a := by
  induction l with
  | nil => rfl
  | cons x t ih =>
    rw [List.foldl_cons, FeTurn.next_skip a (.inl (hl x (List.mem_cons_self ..))), ih fun q hq => hl q (List.mem_cons_of_mem _ hq)]

variable {before later : List SpReq}

/-- The service of a port goes on from its first request that can be served. -/
theorem feServe_from (hq : s.feq = before ++ r :: later) (hr : r.dst = core) (hready : s.feReady r = true) (hf : r.fe = some (want, after))
    (hb : ∀ q ∈ before, q.dst = core → s.feReady q = false ∧ (q.arr = s.clock.cc → q.src ≠ r.src)) (harr : r.arr ≠ s.clock.cc) :
    ∃ bh, s.feServe core = (later.foldl (fun a r => FeTurn.next a core r) { s := s.feServe1 r, used := [r.off / 16], behind := bh }).s := by
  obtain ⟨bh, e, hbh⟩ := feTurn_unready r.src hb { s := s, used := [], behind := [] } rfl rfl (by simp)
  refine ⟨bh, ?_⟩
  unfold State.feServe
  rw [hq, List.foldl_append, e, List.foldl_cons, FeTurn.next_served hr hbh harr hready hf]

/-- It is taken out of the queue. -/
theorem erase_first (hr : s.feReady r = true) (hb : ∀ q ∈ before, q.dst = core → s.feReady q = false) (hd : r.dst = core) :
    (before ++ r :: later).erase r = before ++ later := by
  have hn : r ∉ before := fun hm => by rw [hb r hm hd] at hr; cases hr
  rw [List.erase_append_right _ hn, List.erase_cons_head]

/-- A scratchpad after a request that is not stale. -/
def Spad.served (p : Spad) (r : SpReq) : Spad :=
  match r.bytes with
  | none => p
  | some bs => p.write r.tag r.off bs

theorem Spad.isFull_served (p : Spad) (r : SpReq) (x : Nat) : (p.served r).isFull x = p.isFull x := by
  unfold Spad.served
  split
  · rfl
  · exact Spad.isFull_write ..

theorem spPerform_spad (hst : s.spStale r = false) : (s.spPerform r).spad r.dst = (s.spad r.dst).served r := by
  obtain ⟨v, hans, -, -, hv⟩ := spPerform_eq (s := s) (r := r)
  rw [hans.spad]
  unfold Spad.served
  unfold State.spStale at hst
  cases hbytes : r.bytes with
  | none =>
    rw [hbytes] at hv
    exact congrArg (State.spad · r.dst) hv
  | some bs =>
    rw [hbytes] at hv hst
    dsimp only at hv hst ⊢
    rw [hv, hst, if_neg Bool.false_ne_true, State.spad_modSpad, if_pos rfl]

/-- A request that is not stale is served in one step with the bit of its granule. -/
theorem feServe1_spec (hr : r.dst = core) (hf : r.fe = some (want, after)) (hst : s.spStale r = false) :
    ((s.feServe1 r).spad core).isFull r.off = after ∧
      (∀ a, a / 16 ≠ r.off / 16 → ((s.feServe1 r).spad core).isFull a = (s.spad core).isFull a) ∧
      (∀ o a, Outstanding s r.op r.lane o a → Answered s (s.feServe1 r) r.op r.lane o
        (match r.bytes with
          | some _ => none
          | none => some ((s.spad core).read r.off r.len)) none) ∧
      match r.bytes with
      | none => ((s.feServe1 r).spad core).bytes = (s.spad core).bytes
      | some bs => (∀ i, i < bs.length → ((s.feServe1 r).spad core).byte (r.off + i) = bs.getD i 0) ∧
        ∀ a, (a < r.off ∨ r.off + bs.length ≤ a) → ((s.feServe1 r).spad core).byte a = (s.spad core).byte a := by
  subst hr
  set u : State := { s with feq := s.feq.erase r }
  have e : s.feServe1 r = (u.spPerform r).modSpad r.dst fun p => p.setFull r.off after := by
    unfold State.feServe1
    dsimp only
    rw [hf]
    exact if_neg (Bool.eq_false_iff.mp hst)
  have hspad : (s.feServe1 r).spad r.dst = ((s.spad r.dst).served r).setFull r.off after := by
    rw [e, State.spad_modSpad, if_pos rfl, spPerform_spad (s := u) hst]
    rfl
  refine ⟨by rw [hspad, Spad.isFull_setFull, if_pos rfl], fun x hx => by rw [hspad, Spad.isFull_setFull, if_neg hx, Spad.isFull_served], fun o a ho => ?_, ?_⟩
  · have hans := spPerform_answered (s := u) (r := r) (o := o) (a := a) ho
    rw [show u.spStale r = false from hst, if_neg Bool.false_ne_true] at hans
    rw [e]
    cases hbytes : r.bytes with
    | none => rw [hbytes] at hans; exact hans
    | some bs => rw [hbytes] at hans; exact hans
  · rw [hspad, Spad.served]
    cases hbytes : r.bytes with
    | none => rfl
    | some bs =>
      have hbyte (x : Nat) : (((s.spad r.dst).write r.tag r.off bs).setFull r.off after).byte x = ((s.spad r.dst).write r.tag r.off bs).byte x := rfl
      refine ⟨fun i hi => ?_, fun x hx => ?_⟩
      · rw [hbyte, Spad.byte_write, if_pos ⟨Nat.le_add_right .., Nat.add_lt_add_left hi _⟩, Nat.add_sub_cancel_left]
      · rw [hbyte, Spad.byte_write, if_neg (by omega)]

end

/-- The service of a port in one cycle. -/
theorem completes_fullEmptyServe {s : State} {core : Nat} {before later : List SpReq} {r : SpReq} {want : Option Bool} {after : Bool}
    (hq : s.feq = before ++ r :: later) (hr : r.dst = core) (hready : s.feReady r = true) (hf : r.fe = some (want, after))
    (hb : ∀ q ∈ before, q.dst = core → s.feReady q = false ∧ (q.arr = s.clock.cc → q.src ≠ r.src)) (harr : r.arr ≠ s.clock.cc) :
    (Completes (.fullEmptyServe core) s fun t => ∀ q ∈ later, q.dst = core → q.fe ≠ none → q.off / 16 = r.off / 16 → q ∈ t.feq) ∧
    (s.spStale r = false → (want = none ∨ want = some ((s.spad core).isFull r.off)) ∧ ((∀ q ∈ later, q.dst ≠ core) →
    Completes (.fullEmptyServe core) s fun t => t.feq = before ++ later ∧ (t.spad core).isFull r.off = after ∧
      (∀ a, a / 16 ≠ r.off / 16 → (t.spad core).isFull a = (s.spad core).isFull a) ∧
      (∀ o a, Outstanding s r.op r.lane o a → Answered s t r.op r.lane o
        (match r.bytes with
          | some _ => none
          | none => some ((s.spad core).read r.off r.len)) none) ∧
      match r.bytes with
      | none => (t.spad core).bytes = (s.spad core).bytes
      | some bs => (∀ i, i < bs.length → (t.spad core).byte (r.off + i) = bs.getD i 0) ∧
        ∀ a, (a < r.off ∨ r.off + bs.length ≤ a) → (t.spad core).byte a = (s.spad core).byte a)) := by
  obtain ⟨bh, e⟩ := feServe_from hq hr hready hf hb harr
  have hfeq : (s.feServe1 r).feq = before ++ later := by
    rw [State.feServe1_feq, hq, erase_first hready (fun q hm hd => (hb q hm hd).1) hr]
  refine ⟨⟨_, rfl, fun q hm _ hfe hg => ?_⟩, fun hst => ⟨?_, fun hl => ⟨_, rfl, ?_⟩⟩⟩
  · rw [e]
    exact feTurn_keeps later _ hfe (by simp [hg]) (by rw [hfeq]; exact List.mem_append_right _ hm)
  · cases want with
    | none => exact .inl rfl
    | some w =>
      refine .inr ?_
      unfold State.feReady at hready
      rw [hst, hf, Bool.false_or, hr] at hready
      rw [beq_iff_eq.mp hready]
  · rw [e, feTurn_elsewhere later _ hl]
    obtain ⟨hbit, hothers, hans, hbytes⟩ := feServe1_spec hr hf hst
    exact ⟨hfeq, hbit, hothers, hans, hbytes⟩

-- How they begin (R152, R153)

section
variable {s : State} {q : Issue} {g : Group} {h : Hdr} {o : MemOp}

theorem startAcc_fullEmpty {core id : Nat} {a : LaneAcc} (hf : o.fe ≠ none) (ht : a.typ = 4) (t : State) :
    ∃ i f, t.startAcc core id o a = { t with spIn := i, feq := f } := by
  rw [State.startAcc_port ht]
  unfold State.sendSp
  dsimp only
  split
  · exact ⟨_, t.feq, rfl⟩
  · split
    · exact ⟨t.spIn, _, rfl⟩
    · next hn => exact absurd hn hf

/-- Full/empty accesses that are sent stand at their ports. -/
theorem startOp_fullEmpty {core id : Nat} (hf : o.fe ≠ none) (ha : ∀ a ∈ o.accs, a.typ = 4) {t : State} (ho : t.ops.find id = some o) :
    ∃ i f, t.startOp core id = { t.sending id o with spIn := i, feq := f } := by
  rw [State.startOp_eq ho]
  refine List.foldlRecOn (motive := fun u : State => ∃ i f, u = { t.sending id o with spIn := i, feq := f }) _ _ ⟨_, _, rfl⟩ fun u hu a hm => ?_
  obtain ⟨i, f, rfl⟩ := hu
  exact startAcc_fullEmpty hf (ha a hm) _

variable (b : Bool) (codes : List Nat) (hgid : o.gid = q.gid) (hctr : o.ctr ≤ 3)
include hgid hctr

/-- A full/empty load begins. -/
theorem launchOp_fullEmpty (hf : o.fe ≠ none) (ha : ∀ a ∈ o.accs, a.typ = 4) :
    let y := ((issueU s q g h b).launchOp o codes none).1
    Launched (issueU s q g h b) y ∧ Begins s y.s q g o := by
  intro y
  set u : State := { (issueU s q g h b).launchS o codes with ops := s.ops.ins s.serial o } with hu
  obtain ⟨i, f, e⟩ := startOp_fullEmpty (core := g.info.core) hf ha (t := u) (id := s.serial) (SMap.find_ins_self ..)
  have hc : CtrAt (u.startOp g.info.core s.serial) q.gid o.ctr g (g.ctr o.ctr + 1) := by
    have hcu : CtrAt u o.gid o.ctr g (g.ctr o.ctr + 1) := launchS_ctr h b codes hgid hctr
    rw [← hgid, e]
    exact hcu.of_groups rfl
  obtain ⟨hlaunch, hs⟩ := X.launched_sync (x := issueU s q g h b)
    (x' := { issueU s q g h b with s := { s with serial := s.serial + 1 }, g := (issueU s q g h b).launchG o codes })
    (f := fun s' => ({ s' with ops := s'.ops.ins s.serial o } : State).startOp g.info.core s.serial) rfl rfl hc
  refine ⟨hlaunch, ?_⟩
  obtain ⟨k, hk, -, hk'⟩ := hc
  have hy : y.s = u.startOp g.info.core s.serial := hs
  rw [hy]
  refine ⟨{ o with sent := u.clock.ns, sentCc := u.cc, held := none }, k, ?_, rfl, hk, hk'⟩
  rw [e]
  exact SMap.find_ins_self ..

/-- A full/empty store begins, held by its release. -/
theorem launchOp_fullEmpty_held (hfar : nearScope o.scope = false) :
    let y := ((issueU s q g h b).launchOp o codes (some o.scope)).1
    Launched (issueU s q g h b) y ∧ Begins s y.s q g o := by
  intro y
  set v := launchHeld s q g h b o codes with hv
  have hf : v.rels.find (s.serial + 1) = some (issuedRel s q g o.scope) := SMap.find_ins_self ..
  have hp : v.ops.find s.serial = some (o.heldBy (s.serial + 1)) := SMap.find_ins_self ..
  have hcv : CtrAt v o.gid o.ctr g (g.ctr o.ctr + 1) := launchS_ctr h b codes hgid hctr
  have hkeeps : (v.relStep (s.serial + 1)).ops = v.ops ∧ (v.relStep (s.serial + 1)).groups = v.groups := by
    by_cases how : Owes s q.gid
    · obtain ⟨k, hk, hkf⟩ := owes_mem how
      have hkv : (v.ops.find k).isSome = true := by
        rw [show v.ops.find k = if k = s.serial then some (o.heldBy (s.serial + 1)) else s.ops.find k from SMap.find_ins ..]
        split
        · rfl
        · exact hkf
      rw [State.relStep_owed hf ⟨k, hk, hkv⟩]
      exact ⟨rfl, rfl⟩
    · obtain ⟨cs, f, n, rl, e⟩ := State.relStep_far hf (owedOps_eq_nil how) hfar rfl
      rw [e]
      exact ⟨rfl, rfl⟩
  have hcr := hcv.of_groups hkeeps.2
  obtain ⟨hlaunch, hy⟩ := X.launched_sync (x := issueU s q g h b)
    (x' := { issueU s q g h b with s := { s with serial := s.serial + 1 }, g := (issueU s q g h b).launchG o codes })
    (f := fun s' => let p := s'.beginRel q.gid g.info.core o.scope (some s.serial)
      ({ p.2 with ops := p.2.ops.ins s.serial (o.heldBy p.1) } : State).relStep p.1) rfl rfl (hgid ▸ hcr)
  refine ⟨hlaunch, ?_⟩
  rw [show y.s = v.relStep (s.serial + 1) from hy]
  exact begins_of_held (hkeeps.1 ▸ hp) hcr hgid

end

section
variable {s : State} {q : Issue} {g : Group} {h : Hdr} {b : Bool} {y : X} {o : MemOp}

theorem acts_and_lanes (h : Hdr) (q : Issue) (g : Group) : acts h q g &&& q.lanes = acts h q g := by
  refine BitVec.eq_of_getLsbD_eq fun l _ => ?_
  rw [BitVec.getLsbD_and, acts, Group.guardLanes_getLsbD]
  cases q.lanes.getLsbD l <;> simp

/-- The run of a full/empty access that has begun waits for it (R153). -/
theorem Launched.feWait (hy : Launched (issueU s q g h b) y) (h0 : acts h q g ≠ 0) (hst : Begins s y.s q g o) (hgid : o.gid = q.gid) (hfe : o.fe ≠ none)
    (hpc : o.pc = q.pc) (hl : o.lanes = acts h q g) (i : Instr) : (∃ k, (y.feWait i q.lanes).group? q.gid = some k ∧ ∀ l, q.lanes.getLsbD l = true →
      ∃ w, StandsIn k l q.pc (.waiting w) ∧ w.why = .ops ∧ w.ins = some i) ∧ ∃ rs, y.feWait i q.lanes = y.s.setGroup q.gid { y.g with runs := rs } := by
  obtain ⟨p, -, hp, hfix, -⟩ := hst
  have hpg : p.gid = o.gid := (show (fixedOp p).gid = (fixedOp o).gid by rw [hfix])
  have hpf : p.fe = o.fe := (show (fixedOp p).fe = (fixedOp o).fe by rw [hfix])
  have hpp : p.pc = o.pc := (show (fixedOp p).pc = (fixedOp o).pc by rw [hfix])
  have hpl : p.lanes = o.lanes := (show (fixedOp p).lanes = (fixedOp o).lanes by rw [hfix])
  have hids : (y.s.ops.filterMap fun p => if p.2.gid = y.gid && p.2.fe.isSome && p.2.pc == y.pc && p.2.lanes &&& q.lanes != 0 then some p.1 else none).isEmpty =
      false := by
    rw [List.isEmpty_eq_false_iff]
    refine List.ne_nil_of_mem (List.mem_filterMap.mpr ⟨(s.serial, p), SMap.mem_of_find hp, if_pos ?_⟩)
    have hyg : y.gid = q.gid := hy.gid
    have hyp : y.pc = q.pc := hy.pc
    simpa [hyg, hyp, hpg, hgid, hpp, hpc, hpl, hl, acts_and_lanes, hpf, Option.isSome_iff_ne_none, hfe] using h0
  have hyg : y.gid = q.gid := hy.gid
  have hyp : y.pc = q.pc := hy.pc
  unfold X.feWait
  dsimp only
  rw [if_neg (by rw [hids]; decide), hyg, hyp]
  refine ⟨⟨_, State.group?_setGroup .., fun l hlane => ⟨_, y.g.standsIn_place q.pc _ _ hlane, rfl, rfl⟩⟩, ?_⟩
  obtain ⟨rs, hrs⟩ := y.g.place_eq q.lanes q.pc (.waiting _) (stampOf q.lanes y.g.runs y.g.sched.issues)
  exact ⟨rs, congrArg (y.s.setGroup q.gid) hrs⟩

end

/-- A full/empty access begins what its accesses begin, and its run waits. -/
theorem feBegins_of {i : Hdr → MemArg → Instr} {op : Issue → Group → Hdr → MemArg → List LaneAcc → MemOp} {s : State} {q : Issue} {g : Group} {h : Hdr}
    {m : MemArg} {perform : X → List LaneAcc → X} {rd wr : Bool}
    (hp : ∀ b accs, acts h q g ≠ 0 → accs.map (·.lane) = actors h q g → (∀ a ∈ accs, a.typ = 4) →
      Launched (issueU s q g h b) (perform (issueU s q g h b) accs) ∧ Begins s (perform (issueU s q g h b) accs).s q g (op q g h m accs))
    (ho : ∀ accs, (op q g h m accs).gid = q.gid ∧ (op q g h m accs).fe ≠ none ∧ (op q g h m accs).pc = q.pc ∧ (op q g h m accs).lanes = acts h q g)
    (he : exec (i h m) s = s.withIssue (i h m) h fun x => x.afterOps (x.scratch m rd wr perform fun x l => x.feWait (i h m) l)) :
    SpadBegins i rd wr op (waitsFor i) Begins s q g h m := by
  intro hi
  rw [State.withIssue_of_issues hi] at he
  refine ⟨fun h0 => ⟨_, he, ?_⟩, fun x h0 hx => ⟨_, he, ?_⟩⟩
  · rw [show (issueX s q g h).afterOps _ = _ from rfl, issueX_scratch_of_empty h0]
    exact ⟨X.goOn_done _ rfl rfl, issueX_done_onlyRuns s q g h⟩
  · obtain ⟨b, e⟩ := issueX_scratch_of_ok h0 hx perform fun x l => x.feWait (i h m) l
    obtain ⟨hy, hst⟩ := hp b (spadAccs h q g m x) h0 (spadAccs_lanes m x) fun a ha => by
      obtain ⟨l, -, rfl⟩ := List.mem_map.mp ha
      rfl
    obtain ⟨hgid, hfe, hpc, hl⟩ := ho (spadAccs h q g m x)
    obtain ⟨hw, rs, e'⟩ := hy.feWait h0 hst hgid hfe hpc hl (i h m)
    rw [show (issueX s q g h).afterOps _ = _ from rfl, e]
    refine ⟨hw, ?_⟩
    rw [e']
    exact begins_moved hy.group rs hst

section
variable {s : State} {q : Issue} {g : Group} {h : Hdr} {m : MemArg}

theorem ldfe_begins {i : Hdr → MemArg → Instr} {after : Bool} (he : exec (i h m) s = s.withIssue (i h m) h fun x => x.ldfe (i h m) m after) :
    SpadBegins i true false (fun q g h m a => { opOf q g h m .load 0 a with scope := .cl, acq := true, fe := some (some true, after) })
      (waitsFor i) Begins s q g h m := by
  refine feBegins_of (fun b accs h0 hlanes htyp => ?_) (fun accs => ⟨rfl, by simp, rfl, rfl⟩) he
  have e : (issueU s q g h b).memOp m .load 0 accs = opOf q g h m .load 0 accs := issueU_memOp h0 hlanes
  rw [e]
  exact launchOp_fullEmpty b (memCodes m) rfl (show (0 : Nat) ≤ 3 by decide) (by simp) htyp

theorem stfe_begins {i : Hdr → MemArg → Instr} {want : Option Bool} (he : exec (i h m) s = s.withIssue (i h m) h fun x => x.stfe (i h m) m want) :
    SpadBegins i false true (fun q g h m a => { opOf q g h m .store 1 (carrying g m a) with scope := .cl, fe := some (want, true) })
      (waitsFor i) Begins s q g h m := by
  refine feBegins_of (fun b accs h0 hlanes _ => ?_) (fun accs => ⟨rfl, by simp, rfl, rfl⟩) he
  have e : (issueU s q g h b).memOp m .store 1 ((issueU s q g h b).withData m accs) = opOf q g h m .store 1 (carrying g m accs) :=
    issueU_memOp h0 ((carrying_lanes m accs).trans hlanes)
  rw [e]
  exact launchOp_fullEmpty_held b [] rfl (show (1 : Nat) ≤ 3 by decide) rfl

end

/-- Settles O16: the accesses begin and their run waits; a port serves the first request that can be served. -/
theorem fullEmptyAccessesAreServed : Obligations.FullEmptyAccessesAreServed :=
  ⟨fun _ _ _ _ _ => ⟨ldfe_begins rfl, ldfe_begins rfl, stfe_begins rfl, stfe_begins rfl⟩,
    fun _ _ _ _ _ _ _ hq hr hready hf hb harr => completes_fullEmptyServe hq hr hready hf hb harr⟩

end Sys2Proof.Machine

/-! Fences (R155, R228): what they wait for and what they leave; releases, and the closes of phases (R229). -/

namespace Sys2Proof.Machine

open Sys2Proof.Safety

-- A run that waits

/-- The lanes of a run that waits stand at the instruction with the wait. -/
theorem X.standsIn_wait (x : X) {q : Issue} (hgid : x.gid = q.gid) (hm : x.m = q.lanes) (hpc : x.pc = q.pc) (w : Wait) :
    ∃ k, (x.wait w).group? q.gid = some k ∧ ∀ l, q.lanes.getLsbD l = true → StandsIn k l q.pc (.waiting w) :=
  ⟨x.g.hold x.m x.pc (.waiting w), hgid ▸ x.s.group?_setGroup x.gid _, fun _ hl => hpc ▸ x.g.standsIn_place x.pc _ _ (hm ▸ hl)⟩

-- What a fence waits for

theorem Wait.over_iff (w : Wait) (s : State) : w.over_ s = true ↔ WaitOver s w := by
  unfold Wait.over_ WaitOver
  cases w.rel <;> simp

/-- The operations whose numbers a list of them holds are outstanding. -/
theorem loadsOf_outstanding {s : State} {gid : Nat} {m : Lanes} {i : Nat} (h : i ∈ s.loadsOf gid m) : (s.ops.find i).isSome = true := by
  obtain ⟨p, hp, hi⟩ := List.mem_filterMap.mp h
  split at hi
  · rw [← Option.some.inj hi]; exact SMap.find_isSome_of_mem hp
  · cases hi

theorem copiesOf_outstanding {s : State} {gid i : Nat} (h : i ∈ s.copiesOf gid) : (s.ops.find i).isSome = true := by
  obtain ⟨p, hp, hi⟩ := List.mem_filterMap.mp h
  split at hi
  · rw [← Option.some.inj hi]; exact SMap.find_isSome_of_mem hp
  · cases hi

/-- A wait for an operation that is outstanding is not over. -/
theorem not_over_of_outstanding {w : Wait} {s : State} {i : Nat} (hi : i ∈ w.ops) (ho : (s.ops.find i).isSome = true) : ¬ w.over_ s = true := by
  rw [Wait.over_iff]
  intro h
  rw [h.2 i hi] at ho
  cases ho

/-- The operations that a fence waits for. -/
def fenceOps (s : State) (gid : Nat) (m : Lanes) (order : Order) : List Nat :=
  (if isAcq order then s.loadsOf gid m else []) ++ if isRel order then s.copiesOf gid else []

/-- The wait of a fence. -/
def fenceWait (i : Instr) (m : Lanes) (ops : List Nat) (r : Option Nat) : Wait := { Wait.of .release (some i) m with ops := ops, rel := r }

/-- The acquire part of a fence changes cores, and of the own core drops the clean bytes. -/
theorem State.fenceDone_eq (s : State) (core : Nat) (scope : Scope) (order : Order) : ∃ cs, s.fenceDone core scope order = { s with cores := cs } := by
  unfold State.fenceDone State.acquireAt
  split
  · split
    · exact ⟨s.cores, rfl⟩
    · exact ⟨_, rfl⟩
  · exact ⟨s.cores, rfl⟩

theorem State.fenceDone_acquired (s : State) (core : Nat) (scope : Scope) (order : Order) :
    Acquired s (s.fenceDone core scope order) core (if isAcq order then scope else .none) := by
  unfold Acquired State.fenceDone State.acquireAt
  cases isAcq order with
  | false => rfl
  | true => by_cases hn : nearScope scope = true <;> simp [hn, Core.l1Acquire]

section
variable {s : State} {q : Issue} {g : Group} {h : Hdr} {scope : Scope} {order : Order}

/-- What a fence comes to at its issue: its release part begins, and then it passes or waits. -/
theorem exec_fence (hi : Issues s (.fence h scope order) q g) (h0 : acts h q g ≠ 0) :
    let p := if isRel order then (issueX s q g h).release scope else (issueX s q g h, none)
    let w := fenceWait (.fence h scope order) (acts h q g) (fenceOps s q.gid (acts h q g) order) p.2
    exec (.fence h scope order) s = .next (if w.over_ p.1.s then (p.1.modS fun s => s.fenceDone p.1.core scope order).done else p.1.wait w) := by
  rw [show exec (.fence h scope order) s = execFence h scope order s from rfl, execFence, State.withIssue_of_issues hi, issueX_acting h0]
  unfold fenceOps
  cases isRel order
  · rw [if_neg Bool.false_ne_true, if_neg Bool.false_ne_true, List.append_nil]
    rfl
  · rfl

theorem completes_fence_empty (hi : Issues s (.fence h scope order) q g) (h0 : acts h q g = 0) :
    Completes (.fence h scope order) s fun t => GoOn t q (fun _ => nextPc h q) ∧ OnlyRuns s t q g := by
  refine ⟨(issueX s q g h).done, ?_, X.goOn_done _ rfl rfl, issueX_done_onlyRuns ..⟩
  rw [show exec (.fence h scope order) s = execFence h scope order s from rfl, execFence, State.withIssue_of_issues hi]
  exact congrArg Host.Outcome.next (if_pos h0)

/-- An acquire fence with no load outstanding passes. -/
theorem completes_fence_acquire (hi : Issues s (.fence h scope order) q g) (hwf : (Instr.fence h scope order).wf = true) (h0 : acts h q g ≠ 0)
    (hrel : isRel order = false) (hl : s.loadsOf q.gid (acts h q g) = []) : Completes (.fence h scope order) s fun t =>
      GoOn t q (fun _ => nextPc h q) ∧ t.msys = s.msys ∧ t.spads = s.spads ∧
      (t.core g.info.core).l1 = if nearScope scope then (s.core g.info.core).l1 else (s.core g.info.core).l1.filter (·.2.2) := by
  have hacq : isAcq order = true := by
    cases order
    case rlx => exact absurd (Instr.wfB_of_wf hwf) (by simp [wfB])
    case acq => rfl
    all_goals cases hrel
  have he := exec_fence hi h0
  have hover : (fenceWait (.fence h scope order) (acts h q g) (fenceOps s q.gid (acts h q g) order) none).over_ s = true := by
    simp [Wait.over_, fenceWait, fenceOps, hrel, hl, Wait.of]
  dsimp only at he
  rw [hrel, if_neg Bool.false_ne_true] at he
  refine ⟨_, he.trans (congrArg Host.Outcome.next (if_pos hover)), X.goOn_done _ rfl rfl, ?_⟩
  obtain ⟨cs, e⟩ := s.fenceDone_eq g.info.core scope order
  have hl1 := s.fenceDone_acquired g.info.core scope order
  rw [hacq, if_pos rfl] at hl1
  have hmsys : (s.fenceDone g.info.core scope order).msys = s.msys := by rw [e]
  have hspads : (s.fenceDone g.info.core scope order).spads = s.spads := by rw [e]
  exact ⟨hmsys, hspads, hl1⟩

/-- The release part of a fence leaves the operations as they are. -/
theorem release_keeps_ops (scope : Scope) (x : X) : ∃ t r, x.release scope = ({ x with s := t }, r) ∧ t.ops = x.s.ops := by
  by_cases hl : nearScope scope = false ∨ Owes x.s x.gid
  · obtain ⟨t, y, e, hops, -⟩ := x.release_later scope hl
    exact ⟨t, _, e, hops⟩
  · obtain ⟨hn, ho⟩ := not_or.mp hl
    exact ⟨_, _, x.release_near scope (by simpa using hn) ho, rfl⟩

/-- A fence that some outstanding operation holds waits. -/
theorem completes_fence_waits (hi : Issues s (.fence h scope order) q g) (h0 : acts h q g ≠ 0) {i : Nat}
    (hm : i ∈ fenceOps s q.gid (acts h q g) order) (ho : (s.ops.find i).isSome = true) : Completes (.fence h scope order) s fun t =>
      ∃ r k, t.group? q.gid = some k ∧ ∀ l, q.lanes.getLsbD l = true →
        StandsIn k l q.pc (.waiting (fenceWait (.fence h scope order) (acts h q g) (fenceOps s q.gid (acts h q g) order) r)) := by
  have he := exec_fence hi h0
  dsimp only at he
  obtain ⟨t, r, e, hops⟩ : ∃ t r, (if isRel order then (issueX s q g h).release scope else (issueX s q g h, none)) = ({ issueX s q g h with s := t }, r) ∧
      t.ops = s.ops := by
    split
    · exact release_keeps_ops scope (issueX s q g h)
    · exact ⟨s, none, rfl, rfl⟩
  rw [e] at he
  refine ⟨_, he.trans (congrArg Host.Outcome.next (if_neg (not_over_of_outstanding (i := i) hm ?_))), r, X.standsIn_wait _ rfl rfl rfl _⟩
  rw [show ({ issueX s q g h with s := t } : X).s.ops = s.ops from hops]
  exact ho

theorem mem_fenceOps_of_load (hacq : isAcq order = true) {i : Nat} (hi : i ∈ s.loadsOf q.gid (acts h q g)) : i ∈ fenceOps s q.gid (acts h q g) order := by
  unfold fenceOps
  rw [if_pos hacq]
  exact List.mem_append_left _ hi

theorem mem_fenceOps_of_copy (hrel : isRel order = true) {i : Nat} (hi : i ∈ s.copiesOf q.gid) : i ∈ fenceOps s q.gid (acts h q g) order := by
  unfold fenceOps
  rw [if_pos hrel]
  exact List.mem_append_right _ hi

/-- A releasing fence with nothing to wait for passes, and its release is gone. -/
theorem completes_fence_release (hi : Issues s (.fence h scope order) q g) (h0 : acts h q g ≠ 0) (hrel : isRel order = true)
    (hn : nearScope scope = true) (ho : ¬ Owes s q.gid) (hl : ¬ (isAcq order = true ∧ s.loadsOf q.gid (acts h q g) ≠ [])) (hc : s.copiesOf q.gid = []) :
    Completes (.fence h scope order) s fun t => GoOn t q (fun _ => nextPc h q) ∧ t.msys = s.msys ∧ t.spads = s.spads ∧ t.cores = s.cores ∧
      t.rels.find s.serial = none ∧ ∀ r, r ≠ s.serial → t.rels.find r = s.rels.find r := by
  have he := exec_fence hi h0
  dsimp only at he
  rw [if_pos hrel, (issueX s q g h).release_near scope hn ho] at he
  have hops : fenceOps s q.gid (acts h q g) order = [] := by
    unfold fenceOps
    rw [if_pos hrel, hc, List.append_nil]
    split
    · next hacq => exact not_not.mp fun hne => hl ⟨hacq, hne⟩
    · rfl
  have hdone (v : State) : v.fenceDone g.info.core scope order = v := by
    unfold State.fenceDone State.acquireAt
    rw [if_pos hn, ite_self]
  generalize hv : ({ (issueX s q g h).begun scope with rels := ((issueX s q g h).begun scope).rels.del (issueX s q g h).s.serial } : State) = v at he
  have hover : (fenceWait (.fence h scope order) (acts h q g) (fenceOps s q.gid (acts h q g) order) none).over_ v = true := by
    rw [hops]
    rfl
  have hsame : ({ issueX s q g h with s := v } : X).modS (fun s => s.fenceDone g.info.core scope order) = { issueX s q g h with s := v } :=
    congrArg (fun s => ({ issueX s q g h with s := s } : X)) (hdone v)
  have he' : exec (.fence h scope order) s = .next (({ issueX s q g h with s := v } : X).modS fun s => s.fenceDone g.info.core scope order).done :=
    he.trans (congrArg Host.Outcome.next (if_pos hover))
  rw [hsame, ← hv] at he'
  refine ⟨_, he', X.goOn_done _ rfl rfl, rfl, rfl, rfl, SMap.find_del .. |>.trans (if_pos rfl), fun r hr => ?_⟩
  exact (SMap.find_del ..).trans ((if_neg hr).trans (SMap.find_ins_ne _ _ hr))

/-- A fence whose release must wait waits for it. -/
theorem completes_fence_later (hi : Issues s (.fence h scope order) q g) (h0 : acts h q g ≠ 0) (hrel : isRel order = true)
    (hl : nearScope scope = false ∨ Owes s q.gid) : Completes (.fence h scope order) s fun t =>
      ∃ r x, t.rels.find r = some x ∧ x.gid = q.gid ∧ x.scope = scope ∧ x.op = none ∧
        ∃ k, t.group? q.gid = some k ∧ ∀ l, q.lanes.getLsbD l = true →
          StandsIn k l q.pc (.waiting (fenceWait (.fence h scope order) (acts h q g) (fenceOps s q.gid (acts h q g) order) (some r))) := by
  have he := exec_fence hi h0
  obtain ⟨t, y, e, -, hy, hgid, hscope, hop⟩ := (issueX s q g h).release_later scope hl
  dsimp only at he
  rw [if_pos hrel, e] at he
  have hy : t.rels.find s.serial = some y := hy
  have hover : ¬ (fenceWait (.fence h scope order) (acts h q g) (fenceOps s q.gid (acts h q g) order) (some s.serial)).over_ t = true := by
    rw [Wait.over_iff]
    intro hw
    rw [hw.1 s.serial rfl] at hy
    cases hy
  exact ⟨_, he.trans (congrArg Host.Outcome.next (if_neg hover)), s.serial, y, hy, hgid, hscope, hop, X.standsIn_wait _ rfl rfl rfl _⟩

end

-- A fence that goes on with its wait

theorem completes_fence_resumed {s : State} {q : Issue} {w : Wait} {g : Group} {h : Hdr} {scope : Scope} {order : Order}
    (hr : Resumes s (.fence h scope order) q w g) (h0 : w.lanes ≠ 0) :
    (WaitOver s w → Completes (.fence h scope order) s fun t => GoOn t q (fun _ => nextPc h q) ∧
      Acquired s t g.info.core (if isAcq order then scope else .none)) ∧
    (¬ WaitOver s w → Completes (.fence h scope order) s fun t => ∃ k, t.group? q.gid = some k ∧
      ∀ l, q.lanes.getLsbD l = true → StandsIn k l q.pc (.waiting w)) := by
  have he : exec (.fence h scope order) s = .next (if w.over_ s then
      ((resumeX s q g h w).modS fun s => s.fenceDone g.info.core scope order).done else (resumeX s q g h w).wait w) := by
    rw [show exec (.fence h scope order) s = execFence h scope order s from rfl, execFence, State.withIssue_of_resumes hr]
    exact congrArg Host.Outcome.next (if_neg h0)
  refine ⟨fun hw => ⟨_, he.trans (congrArg Host.Outcome.next (if_pos (w.over_iff s |>.mpr hw))), X.goOn_done _ rfl rfl, s.fenceDone_acquired ..⟩,
    fun hw => ⟨_, he.trans (congrArg Host.Outcome.next (if_neg (mt (w.over_iff s).mp hw))), X.standsIn_wait _ rfl rfl rfl _⟩⟩

-- A release goes on (R228)

theorem State.core_sendReq (s : State) (core : Nat) (op : Option Nat) (lane : Nat) (kind : ReqKind) (pa len key : Nat) :
    ∃ paths sent, (s.sendReq core op lane kind pa len key).core core = { s.core core with paths := paths, sent := sent } := by
  obtain ⟨n, sent, phase, due, e⟩ := State.sendReq_eq s core op lane kind pa len key
  rw [e, State.core_modCore]
  exact ⟨_, _, rfl⟩

/-- Dirty bytes that go home leave the core their clean copies. -/
theorem State.core_writeBack (s : State) (core : Nat) (op : Option Nat) (lane : Nat) (p : Nat → Bool) :
    ∃ paths sent, (s.writeBack core op lane p).core core =
      { s.core core with l1 := (s.core core).l1.map (fun e => if p e.1 then (e.1, e.2.1, false) else e), paths := paths, sent := sent } := by
  unfold State.writeBack
  refine List.foldlRecOn (motive := fun t : State => ∃ paths sent, t.core core = { s.core core with
    l1 := (s.core core).l1.map (fun e => if p e.1 then (e.1, e.2.1, false) else e), paths := paths, sent := sent }) _ _ ?_ fun t ht r _ => ?_
  · rw [State.core_modCore]
    exact ⟨_, _, rfl⟩
  · obtain ⟨paths, sent, e⟩ := ht
    obtain ⟨paths', sent', e'⟩ := t.core_sendReq core op lane (.write r.2.2) r.1 r.2.2.length r.2.1
    exact ⟨paths', sent', by rw [e', e]⟩

/-- A close begins in the open phase. -/
theorem State.core_beginClose (s : State) (core : Nat) : ∃ k, ((s.beginClose core).2.core core).closes = (s.core core).closes ++ [k] ∧
    k.serial = (s.beginClose core).1 ∧ k.phase = (s.core core).phase ∧ ((s.beginClose core).2.core core).l1 = (s.core core).l1 := by
  have e : ∃ c : Core, (s.beginClose core).2.core core = c ∧ c.l1 = (s.core core).l1 ∧
      ∃ k, c.closes = (s.core core).closes ++ [k] ∧ k.serial = s.serial ∧ k.phase = (s.core core).phase :=
    ⟨_, State.core_modCore .., rfl, _, rfl, rfl, rfl⟩
  obtain ⟨c, hc, hl1, k, hk, hser, hph⟩ := e
  rw [hc]
  exact ⟨k, hk, hser, hph, hl1⟩

theorem Core.l1Byte_clean {c d : Core} (h : d.l1 = c.l1.map fun e => (e.1, e.2.1, false)) (pa key : Nat) :
    d.l1Byte pa key = (c.l1Byte pa key).map fun e => (e.1, false) := by
  rw [Core.l1Byte, h]
  exact SMap.find_map (f := fun e : Nat × Byte × Bool => (e.1, e.2.1, false)) (fun _ => rfl) ..

section
variable {s : State} {id : Nat} {r : Rel}

/-- A release with none of its accesses outstanding. -/
theorem clear_any (hc : ∀ o ∈ r.waitOps, s.ops.find o = none) : (r.waitOps.any fun o => (s.ops.find o).isSome) = false := by
  rw [List.any_eq_false]
  intro o ho
  rw [hc o ho]
  decide

/-- What the close of a release still waits for. -/
theorem closed_iff {k : Nat} : ((s.core r.core).closes.any (·.serial == k) || (r.scope == .sys && s.posted r)) = false ↔
    (∀ c ∈ (s.core r.core).closes, c.serial ≠ k) ∧ (r.scope = .sys → ∀ d ∈ (s.core r.core).dev, d.write = true → d.gid ≠ r.gid) := by
  simp [State.posted, List.any_eq_false]

theorem relStep_completes (hf : s.rels.find id = some r) (hop : r.op = none) (hc : ∀ o ∈ r.waitOps, s.ops.find o = none)
    (he : nearScope r.scope = true ∨ ∃ k, r.close = some k ∧ (∀ c ∈ (s.core r.core).closes, c.serial ≠ k) ∧
      (r.scope = .sys → ∀ d ∈ (s.core r.core).dev, d.write = true → d.gid ≠ r.gid)) : s.relStep id = { s with rels := s.rels.del id } := by
  have hend : s.endRel id r = { s with rels := s.rels.del id } := by
    unfold State.endRel
    rw [hop]
    rfl
  unfold State.relStep
  rw [hf]
  dsimp only
  rw [clear_any hc, if_neg Bool.false_ne_true]
  split
  · exact hend
  · next hn =>
    obtain ⟨k, hk, hcl⟩ := he.resolve_left hn
    rw [hk]
    exact (if_neg (by rw [closed_iff.mpr hcl]; exact Bool.false_ne_true)).trans hend

/-- A release that waits stays as it is. -/
theorem relStep_waits (hf : s.rels.find id = some r) (hw : (∃ o ∈ r.waitOps, s.ops.find o ≠ none) ∨
    (nearScope r.scope = false ∧ ∃ k, r.close = some k ∧ ¬ ((∀ c ∈ (s.core r.core).closes, c.serial ≠ k) ∧
      (r.scope = .sys → ∀ d ∈ (s.core r.core).dev, d.write = true → d.gid ≠ r.gid)))) : s.relStep id = s := by
  rcases hw with ⟨o, ho, hs⟩ | ⟨hn, k, hk, hcl⟩
  · exact State.relStep_owed hf ⟨o, ho, Option.isSome_iff_ne_none.mpr hs⟩
  · rw [← closed_iff, Bool.not_eq_false] at hcl
    unfold State.relStep
    rw [hf]
    dsimp only
    split
    · rfl
    · rw [hn, if_neg Bool.false_ne_true, hk]
      exact if_pos hcl

/-- Beyond the workgroup the dirty bytes of the core go home, and its phase closes. -/
theorem relStep_closes (hf : s.rels.find id = some r) (hc : ∀ o ∈ r.waitOps, s.ops.find o = none) (hn : nearScope r.scope = false)
    (hk : r.close = none) (hl : (s.core r.core).closes.length < 3) :
    (∀ pa key, ((s.relStep id).core r.core).l1Byte pa key = ((s.core r.core).l1Byte pa key).map fun e => (e.1, false)) ∧
    ∃ x k, (s.relStep id).rels.find id = some x ∧ x.close = some k ∧ ∃ c ∈ ((s.relStep id).core r.core).closes, c.serial = k ∧
      c.phase = (s.core r.core).phase := by
  obtain ⟨paths, sent, hw⟩ := s.core_writeBack r.core none 0 fun _ => true
  obtain ⟨k, hcl, hser, hph, hl1⟩ := (s.writeBack r.core none 0 fun _ => true).core_beginClose r.core
  have e : s.relStep id = { ((s.writeBack r.core none 0 fun _ => true).beginClose r.core).2 with
      rels := (((s.writeBack r.core none 0 fun _ => true).beginClose r.core).2.rels.ins id
        { r with close := some ((s.writeBack r.core none 0 fun _ => true).beginClose r.core).1 }) } := by
    unfold State.relStep
    rw [hf]
    dsimp only
    rw [clear_any hc, if_neg Bool.false_ne_true, hn, if_neg Bool.false_ne_true, hk]
    exact if_neg (Nat.not_le.mpr hl)
  rw [hw] at hl1 hph
  rw [e]
  refine ⟨Core.l1Byte_clean hl1, _, _, SMap.find_ins_self .., rfl, k, ?_, hser, hph⟩
  show k ∈ (((s.writeBack r.core none 0 fun _ => true).beginClose r.core).2.core r.core).closes
  rw [hcl]
  exact List.mem_append_right _ (List.mem_singleton_self k)

end

-- Closes at the slices (R229)

theorem closeReaches_iff (s : State) (core slice : Nat) (k : Close) : closeReaches (s.core core) slice k = true ↔ ClosesAt s core slice k := by
  unfold closeReaches ClosesAt Core.closeBlocked pathOf
  simp [imp_iff_not_or]

theorem closeAnswers_iff (s : State) (core slice : Nat) (k : Close) : closeAnswers s core slice k = true ↔ CountsMatch s core slice k := by
  unfold closeAnswers CountsMatch
  simp [and_assoc]

theorem markFirst_split {p : Close → Bool} {f : Close → Close} {older younger : List Close} {k : Close} (ho : ∀ j ∈ older, ¬ p j = true)
    (hk : p k = true) : markFirst p f (older ++ k :: younger) = older ++ f k :: younger := by
  induction older with
  | nil => exact if_pos hk
  | cons j l ih =>
    rw [List.cons_append, markFirst, if_neg (ho j (List.mem_cons_self ..)), ih fun x hx => ho x (List.mem_cons_of_mem _ hx)]
    rfl

/-- The oldest close leaves a list when it is whole. -/
def dropWhole (whole : Close → Bool) : List Close → List Close
  | [] => []
  | k :: t => if whole k then t else k :: t

theorem dropWhole_three (whole : Close → Bool) (l : List Close) :
    dropWhole whole (dropWhole whole (dropWhole whole l)) = (l.take 3).dropWhile whole ++ l.drop 3 := by
  cases l with
  | nil => rfl
  | cons a l =>
    by_cases ha : whole a = true
    · cases l with
      | nil => simp [dropWhole, ha]
      | cons b l =>
        by_cases hb : whole b = true
        · cases l with
          | nil => simp [dropWhole, ha, hb]
          | cons c l => by_cases hc : whole c = true <;> simp [dropWhole, ha, hb, hc]
        · cases l <;> simp [dropWhole, ha, hb]
    · simp [dropWhole, ha]

/-- The slices that a close waits for have all answered it. -/
def MemSys.whole (m : MemSys) (k : Close) : Bool := (m.closeSlices k).all k.answered.contains

theorem State.closeDone_spec (s : State) (core : Nat) :
    ((s.closeDone core).core core).closes = dropWhole s.msys.whole (s.core core).closes ∧ (s.closeDone core).msys = s.msys := by
  unfold State.closeDone MemSys.whole
  cases hc : (s.core core).closes with
  | nil => exact ⟨hc, rfl⟩
  | cons k t =>
    dsimp only [dropWhole]
    split
    · rw [State.core_modCore]
      exact ⟨rfl, rfl⟩
    · exact ⟨hc, rfl⟩

theorem completes_closeMessage {s : State} {core slice : Nat} {older younger : List Close} {k : Close}
    (hl : (s.core core).closes = older ++ k :: younger) (ho : ∀ j ∈ older, ¬ ClosesAt s core slice j) (hk : ClosesAt s core slice k) :
    Completes (.phaseCloseMessage core slice) s fun t =>
      t = s.modCore core fun c => { c with closes := older ++ { k with reached := k.reached ++ [slice] } :: younger } := by
  refine ⟨s.closeArrive core slice, rfl, ?_⟩
  unfold State.closeArrive State.modCore
  dsimp only
  rw [hl, markFirst_split (fun j hj => mt (closeReaches_iff ..).mp (ho j hj)) ((closeReaches_iff ..).mpr hk)]

theorem completes_closeAnswer {s : State} {core slice : Nat} {older younger : List Close} {k : Close}
    (hl : (s.core core).closes = older ++ k :: younger) (ho : ∀ j ∈ older, ¬ CountsMatch s core slice j) (hk : CountsMatch s core slice k) :
    Completes (.phaseCloseAnswer core slice) s fun t =>
      let all := older ++ { k with answered := k.answered ++ [slice] } :: younger
      ∃ u : State, t = u.relAll ∧ (u.core core).closes = (all.take 3).dropWhile s.msys.whole ++ all.drop 3 ∧
        ∀ n, u.msys.counts.get 0 n = if n = countKey core k.phase slice then 0 else s.msys.counts.get 0 n := by
  have hob : ∀ j ∈ older, ¬ closeAnswers s core slice j = true := fun j hj => mt (closeAnswers_iff ..).mp (ho j hj)
  have hkb := (closeAnswers_iff ..).mpr hk
  have hfind : (s.core core).closes.find? (closeAnswers s core slice) = some k := by
    rw [hl, List.find?_append, List.find?_eq_none.mpr hob, List.find?_cons_of_pos hkb]
    rfl
  let w : State := s.modCore core fun c =>
    { c with closes := markFirst (closeAnswers s core slice) (fun k => { k with answered := k.answered ++ [slice] }) c.closes }
  let v : State := w.modMsys fun m => { m with counts := m.counts.put 0 (countKey core k.phase slice) 0 }
  have hv : (v.core core).closes = older ++ { k with answered := k.answered ++ [slice] } :: younger := by
    rw [show v.core core = w.core core from rfl, State.core_modCore]
    dsimp only
    rw [hl, markFirst_split hob hkb]
  have hwhole : v.msys.whole = s.msys.whole := rfl
  obtain ⟨h1, m1⟩ := v.closeDone_spec core
  obtain ⟨h2, m2⟩ := (v.closeDone core).closeDone_spec core
  obtain ⟨h3, m3⟩ := ((v.closeDone core).closeDone core).closeDone_spec core
  refine ⟨_, ?_, ((v.closeDone core).closeDone core).closeDone core, rfl, ?_, fun n => ?_⟩
  · rw [show exec (.phaseCloseAnswer core slice) s = .next (s.closeAnswer core slice) from rfl, State.closeAnswer, hfind]
  · rw [h3, h2, h1, m2, m1, hwhole, hv, dropWhole_three]
  · rw [m3, m2, m1]
    exact SMap.get_put 0 s.msys.counts (countKey core k.phase slice) n 0

/-- Settles O19: a fence is its release, its acquire and the wait for both; a close is marked where it arrives, and the oldest that are whole leave. -/
theorem fencesAndPhasesOrder : Obligations.FencesAndPhasesOrder := by
  unfold Obligations.FencesAndPhasesOrder
  refine ⟨fun s q g h scope order hi hwf => ⟨completes_fence_empty hi, fun h0 hrel hl => completes_fence_acquire hi hwf h0 hrel hl, ?_, ?_⟩,
    fun s q w g h scope order => completes_fence_resumed, ?_, fun s core slice older k younger hl => ⟨completes_closeMessage hl, completes_closeAnswer hl⟩⟩
  · intro h0 hacq hl
    obtain ⟨i, hmem⟩ := List.exists_mem_of_ne_nil _ hl
    obtain ⟨t, he, r, k, hk, hst⟩ := completes_fence_waits hi h0 (mem_fenceOps_of_load hacq hmem) (loadsOf_outstanding hmem)
    exact ⟨t, he, k, hk, fun l hlane => ⟨_, hst l hlane, rfl, fun i hi => mem_fenceOps_of_load hacq hi⟩⟩
  · intro h0 hrel
    refine ⟨fun hlater hloads hcop => ?_, fun hw => ?_⟩
    · obtain ⟨hn, ho⟩ := not_or.mp hlater
      exact completes_fence_release hi h0 hrel (by simpa using hn) ho hloads hcop
    · by_cases hlater : nearScope scope = false ∨ Owes s q.gid
      · obtain ⟨t, he, r, x, hr, hgid, hscope, hop, k, hk, hst⟩ := completes_fence_later hi h0 hrel hlater
        exact ⟨t, he, k, hk, fun l hlane => ⟨_, hst l hlane, rfl, rfl, fun i hi => mem_fenceOps_of_copy hrel hi,
          fun hloads i hi => mem_fenceOps_of_load hloads.1 hi, fun _ => ⟨r, x, rfl, hr, hgid, hscope, hop⟩⟩⟩
      · obtain ⟨i, hmem, hout⟩ : ∃ i ∈ fenceOps s q.gid (acts h q g) order, (s.ops.find i).isSome = true := by
          rcases hw.resolve_left hlater with ⟨hacq, hl⟩ | hcop
          · obtain ⟨i, hmem⟩ := List.exists_mem_of_ne_nil _ hl
            exact ⟨i, mem_fenceOps_of_load hacq hmem, loadsOf_outstanding hmem⟩
          · obtain ⟨i, hmem⟩ := List.exists_mem_of_ne_nil _ hcop
            exact ⟨i, mem_fenceOps_of_copy hrel hmem, copiesOf_outstanding hmem⟩
        obtain ⟨t, he, r, k, hk, hst⟩ := completes_fence_waits hi h0 hmem hout
        exact ⟨t, he, k, hk, fun l hlane => ⟨_, hst l hlane, rfl, rfl, fun i hi => mem_fenceOps_of_copy hrel hi,
          fun hloads i hi => mem_fenceOps_of_load hloads.1 hi, fun hl => absurd hl hlater⟩⟩
  · intro s id r hf hop
    refine ⟨fun ⟨hc, he⟩ => ?_, fun hc hn hk hl => ?_, fun hw => relStep_waits hf ?_⟩
    · rw [relStep_completes hf hop hc he]
      exact ⟨(SMap.find_del ..).trans (if_pos rfl), rfl⟩
    · obtain ⟨hl1, hx⟩ := relStep_closes hf hc hn hk hl
      exact ⟨fun pa key _ => hl1 pa key, hx⟩
    · refine hw.imp (fun h => by simpa using h) fun ⟨hn, hk, hcl⟩ => ⟨hn, ?_⟩
      obtain ⟨k, hk⟩ := Option.ne_none_iff_exists'.mp hk
      exact ⟨k, hk, fun h => hcl ⟨k, hk, h⟩⟩

end Sys2Proof.Machine

/-! The movement of a copy (R162, R236, R254, R258): what its accesses leave alone, and the bytes they place. -/

namespace Sys2Proof.Machine

open Sys2Proof.Safety

-- Reads of an engine

section
variable {reads : Prop} (s : State)

theorem Accessed.vbyte (core : Nat) (sp : Space) (va : Nat) : Accessed reads s (s.vbyte core sp va).1 := by
  have h := xlate (reads := reads) s core sp .read normalOnly va
  unfold State.vbyte
  generalize s.xlate core sp .read normalOnly va = p at h
  obtain ⟨s1, r⟩ := p
  cases r with
  | error c => exact h
  | ok x =>
    dsimp only at h ⊢
    split
    · exact h
    · split
      · exact h
      · dsimp only
        exact h.trans (modMsys s1 _)

theorem Accessed.vbytes (core : Nat) (sp : Space) (va n : Nat) : Accessed reads s (s.vbytes core sp va n).1 := by
  induction n generalizing s va with
  | zero => exact refl s
  | succ n ih =>
    have h := vbyte (reads := reads) s core sp va
    unfold State.vbytes
    generalize s.vbyte core sp va = p at h
    obtain ⟨s1, r⟩ := p
    cases r with
    | error c => exact h
    | ok b =>
      have ht := h.trans (ih s1 (va + 1))
      dsimp only at ht ⊢
      generalize s1.vbytes core sp (va + 1) n = p at ht
      obtain ⟨s2, r⟩ := p
      cases r <;> exact ht

theorem Accessed.engByte (a : EngAcc) (sp : Bool) (addr : Nat) : Accessed reads s (s.engByte a sp addr).1 := by
  unfold State.engByte
  split
  · split
    · exact refl s
    · split <;> exact refl s
  · exact vbyte s ..

/-- Steps that are accesses, one after the other. -/
theorem Accessed.allSteps {α β ε : Type} {f : State → α → State × Except ε β} (hf : ∀ s a, Accessed reads s (f s a).1) (l : List α) :
    Accessed reads s (allSteps f s l).1 := by
  induction l generalizing s with
  | nil => exact refl s
  | cons a t ih =>
    have h := hf s a
    unfold Machine.allSteps
    generalize f s a = p at h
    obtain ⟨s1, r⟩ := p
    cases r with
    | error e => exact h
    | ok b =>
      have ht := h.trans (ih s1)
      dsimp only at ht ⊢
      generalize Machine.allSteps f s1 t = p at ht
      obtain ⟨s2, r⟩ := p
      cases r <;> exact ht

theorem Accessed.engElem (a : EngAcc) (t : Ten) (e : List Nat) : Accessed reads s (s.engElem a t e).1 := by
  have h := allSteps (reads := reads) s (f := fun s o => s.engByte a t.sp (t.at_ o)) (fun s o => engByte s a t.sp (t.at_ o))
    ((bitBytes (t.bitOff e) t.bits).map (·.1))
  unfold State.engElem
  split
  · exact refl s
  · dsimp only
    generalize Machine.allSteps _ s _ = p at h
    obtain ⟨s1, r⟩ := p
    cases r <;> exact h

theorem Accessed.readLine (r : CopyRec) (t : Tmpl) (ten : Ten) (ln : Nat × Nat) : Accessed reads s (s.readLine r t ten ln).1 := by
  have h := allSteps (reads := reads) s (f := fun s i => s.engElem r.acc ten (tileElem t r.coord ln.1 ln.2 i)) (fun s i => engElem s ..) (List.range t.e0)
  unfold State.readLine
  generalize Machine.allSteps _ s _ = p at h
  obtain ⟨s1, r⟩ := p
  cases r <;> exact h

theorem Accessed.vatSource (a : EngAcc) (sp : Bool) (l : List Nat) : Accessed reads s (s.vatSource a sp l).1 := by
  induction l generalizing s with
  | nil => exact refl s
  | cons addr l ih =>
    have h := engByte (reads := reads) s a sp addr
    unfold State.vatSource
    generalize s.engByte a sp addr = p at h
    obtain ⟨s1, r⟩ := p
    cases r with
    | error e => exact h
    | ok b => exact h.trans (ih s1)

theorem Accessed.claimPhys (pa n : Nat) : Accessed reads s (s.claimPhys pa n) := ite (modMsys s _) (refl s)

theorem Accessed.claimCtx (ctx : Nat) : Accessed reads s (s.claimCtx ctx) := by
  unfold State.claimCtx
  exact (claimPhys s ..).trans (claimPhys _ ..)

theorem Accessed.dicts (core ctx : Nat) : Accessed reads s (s.dicts core ctx).1 := by
  unfold State.dicts
  refine List.foldlRecOn (motive := fun a : State × List (Nat × List Byte) => Accessed reads s a.1) _ _ (claimCtx s ctx) fun a ha p _ => ?_
  have h := ha.trans (vbytes a.1 core (s.ctxSpace ctx) (recNat p.2 0 8) (recNat p.2 8 4))
  generalize a.1.vbytes core (s.ctxSpace ctx) (recNat p.2 0 8) (recNat p.2 8 4) = b at h
  obtain ⟨s1, r⟩ := b
  cases r <;> exact h

end

-- Writes of an engine, and bytes placed in a handle

section
variable (s : State)

theorem Accessed.engTarget {reads : Prop} (a : EngAcc) (sp : Bool) (w : BitWrite) : Accessed reads s (s.engTarget a sp w).1 := by
  unfold State.engTarget
  split
  · split
    · exact refl s
    · split <;> exact refl s
  · have h := xlate (reads := reads) s a.core a.sp .write normalOnly w.addr
    generalize s.xlate a.core a.sp .write normalOnly w.addr = p at h
    obtain ⟨s1, r⟩ := p
    cases r with
    | error e => exact h
    | ok x =>
      dsimp only
      split <;> exact h

theorem Accessed.engPut (core : Nat) (sp : Bool) (tag : Nat) (t : Nat × Nat × BitWrite) : Accessed False s (s.engPut core sp tag t) := by
  unfold State.engPut
  split
  · exact modSpad s not_false ..
  · exact (modMsys s _).trans (modCore _ core fun _ => rfl)

theorem Accessed.engMend {reads : Prop} (pas : List Nat) : Accessed reads s (s.engMend pas).1 := by
  unfold State.engMend
  dsimp only
  split
  · dsimp only
    exact modMsys s _
  · exact refl s

theorem Accessed.engPuts (core : Nat) (sp : Bool) (tag : Nat) (ts : List (Nat × Nat × BitWrite)) :
    Accessed False s (ts.foldl (fun s p => s.engPut core sp tag p) s) :=
  List.foldlRecOn (motive := fun u : State => Accessed False s u) _ _ (refl s) fun u hu _ _ => hu.trans (engPut u ..)

theorem Accessed.engWrite (a : EngAcc) (t : Ten) (ws : List BitWrite) : Accessed False s (s.engWrite a t ws).1 := by
  have h := allSteps (reads := False) s (f := fun s w => s.engTarget a t.sp w) (fun s w => engTarget s ..) ws
  unfold State.engWrite
  generalize Machine.allSteps _ s _ = p at h
  obtain ⟨s1, r⟩ := p
  cases r with
  | error e => exact h
  | ok ts =>
    dsimp only at h ⊢
    generalize (if t.sp = true then [] else ts.map _) = pas
    have hm := h.trans (engMend s1 pas)
    generalize s1.engMend pas = m at hm
    obtain ⟨s2, b⟩ := m
    cases b with
    | false => exact hm
    | true => exact hm.trans (engPuts s2 ..)

theorem Accessed.placeAt (core start alloc gen issued w swz : Nat) (bs : List Byte) :
    Accessed False s (s.placeAt core start alloc gen issued w swz bs).1 := by
  unfold State.placeAt
  split <;> dsimp only
  · exact modCore s core fun _ => rfl
  · exact modSpad s not_false ..

theorem Accessed.place (e : CopyEnd) (h : Handle) (off w swz : Nat) (bs : List Byte) : Accessed False s (s.place e h off w swz bs).1 := by
  unfold State.place
  split
  · dsimp only
    exact modCore s e.core fun _ => rfl
  · exact placeAt s ..

-- The movement

/-- The data of one receiver, placed at an offset in its handle. -/
def State.fillAt (r : CopyRec) (t : Tmpl) (ten : Ten) (e : CopyEnd) (off : Nat) : State × Except EngErr Nat :=
  let h := s.handle e.core r.handle
  let lines := tileLines t r.mc.isSome e.rank
  if s.bound r e && off + lines.length * t.pitch ten > h.len then (s, .ok 8) else
  match allSteps (fun s ln => s.readLine r t ten ln) s lines with
  | (s, .error er) => if er.1.cause == .pageNotPresent then (s, .error er) else (s, .ok (copyCode er.1.cause))
  | (s, .ok bs) => ((s.place e h off (t.pitch ten) t.swz bs.flatten).1, .ok (if (s.place e h off (t.pitch ten) t.swz bs.flatten).2 then 1 else 0))

theorem State.fillEnd_eq_fillAt (r : CopyRec) (t : Tmpl) (ten : Ten) {e : CopyEnd} (he : e.code = none) :
    ∃ off, (r.mc = none → off = 0) ∧ s.fillEnd r t ten e = s.fillAt r t ten e off := by
  unfold State.fillEnd
  rw [he]
  exact ⟨_, fun hmc => by rw [hmc], rfl⟩

theorem Accessed.fillAt (r : CopyRec) (t : Tmpl) (ten : Ten) (e : CopyEnd) (off : Nat) : Accessed False s (s.fillAt r t ten e off).1 := by
  have h := allSteps (reads := False) s (f := fun s ln => s.readLine r t ten ln) (fun s ln => readLine s ..) (tileLines t r.mc.isSome e.rank)
  unfold State.fillAt
  dsimp only
  split
  · exact refl s
  · generalize Machine.allSteps _ s _ = p at h
    obtain ⟨s1, b⟩ := p
    cases b with
    | error er =>
      dsimp only
      split <;> exact h
    | ok bs => exact h.trans (place s1 ..)

theorem Accessed.fillEnd (r : CopyRec) (t : Tmpl) (ten : Ten) (e : CopyEnd) : Accessed False s (s.fillEnd r t ten e).1 := by
  cases he : e.code with
  | some c =>
    unfold State.fillEnd
    rw [he]
    exact refl s
  | none =>
    obtain ⟨off, -, h⟩ := s.fillEnd_eq_fillAt r t ten he
    rw [h]
    exact fillAt s ..

theorem Accessed.placeVat (r : CopyRec) (t : Tmpl) (e : CopyEnd) (d : Decoded) : Accessed False s (s.placeVat r t e d).1 := place s ..

theorem Accessed.vatCopy (r : CopyRec) (t : Tmpl) (ten : Ten) (e : CopyEnd) : Accessed False s (s.vatCopy r t ten e).1 := by
  unfold State.vatCopy
  dsimp only
  generalize (List.range _).map _ = l
  have hsrc := vatSource (reads := False) s r.acc ten.sp l
  generalize s.vatSource r.acc ten.sp l = p at hsrc
  obtain ⟨s1, src, err⟩ := p
  have hdict := hsrc.trans (dicts s1 r.core r.ctx)
  dsimp only at hdict ⊢
  have hplace := hdict.trans (placeVat _ r t e (vatDecode t.vat t.e0 (s1.dicts r.core r.ctx).2 src))
  split
  · split
    · exact hplace
    · split
      · exact hdict
      · exact hplace
  · exact hplace

theorem Accessed.drainHandle (r : CopyRec) (t : Tmpl) (ten : Ten) (e : CopyEnd) : Accessed False s (s.drainHandle r t ten e).1 := by
  unfold State.drainHandle
  dsimp only
  split
  · exact refl s
  · split
    · exact refl s
    · generalize List.flatMap _ _ = ws
      split
      · dsimp only
        exact modCore s _ fun _ => rfl
      · have h := engWrite s r.acc ten ws
        generalize s.engWrite r.acc ten ws = p at h
        obtain ⟨s1, b⟩ := p
        cases b with
        | error er =>
          dsimp only
          split <;> exact h
        | ok u => exact h

/-- The bytes of one end of a copy. -/
def State.moveEnd (s : State) (r : CopyRec) (e : CopyEnd) : State × Except EngErr Nat :=
  if (tmplOf r.tmpl).out then s.drainHandle r (tmplOf r.tmpl) (tenOf r.ten) e
  else if (tmplOf r.tmpl).vat ≠ 0 then s.vatCopy r (tmplOf r.tmpl) (tenOf r.ten) e
  else s.fillEnd r (tmplOf r.tmpl) (tenOf r.ten) e

theorem Accessed.moveEnd (r : CopyRec) (e : CopyEnd) : Accessed False s (s.moveEnd r e).1 := by
  unfold State.moveEnd
  split
  · exact drainHandle s ..
  · split
    · exact vatCopy s ..
    · exact fillEnd s ..

/-- A copy with one end moves the bytes of that end. -/
theorem State.moveCopy_single {r : CopyRec} {e : CopyEnd} (he : r.ends = [e]) : s.moveCopy r = match s.moveEnd r e with
    | (s, .error er) => (s, .error er)
    | (s, .ok c) => (s, .ok [(e.core, c)]) := by
  unfold State.moveCopy State.moveEnd
  dsimp only
  rw [he, allSteps]
  generalize (if (tmplOf r.tmpl).out = true then _ else _ : State × Except EngErr Nat) = p
  obtain ⟨s1, b⟩ := p
  cases b <;> rfl

theorem Accessed.moveCopy {r : CopyRec} {e : CopyEnd} (he : r.ends = [e]) : Accessed False s (s.moveCopy r).1 := by
  have h := moveEnd s r e
  rw [State.moveCopy_single s he]
  generalize s.moveEnd r e = p at h
  obtain ⟨s1, b⟩ := p
  cases b <;> exact h

end

-- Bytes placed as lines (R239, R252)

theorem length_readLine {s s' : State} {r : CopyRec} {t : Tmpl} {ten : Ten} {ln : Nat × Nat} {bs : List Byte}
    (h : s.readLine r t ten ln = (s', .ok bs)) : bs.length = t.pitch ten := by
  unfold State.readLine at h
  split at h
  · cases h
  · cases h
    exact Tests.length_leBytes _ _

/-- A sequence of steps gives one result for each. -/
theorem allSteps_forall {σ α β ε : Type} {f : σ → α → σ × Except ε β} {P : β → Prop} (hf : ∀ s a s' b, f s a = (s', .ok b) → P b) {l : List α} {s s' : σ}
    {bs : List β} (h : allSteps f s l = (s', .ok bs)) : bs.length = l.length ∧ ∀ b ∈ bs, P b := by
  induction l generalizing s bs with
  | nil =>
    cases h
    exact ⟨rfl, nofun⟩
  | cons a t ih =>
    unfold allSteps at h
    split at h
    · cases h
    · next s1 b hb =>
      split at h
      · cases h
      · next s2 cs hcs =>
        cases h
        obtain ⟨hlen, hall⟩ := ih hcs
        exact ⟨congrArg (· + 1) hlen, List.forall_mem_cons.mpr ⟨hf _ _ _ _ hb, hall⟩⟩

theorem length_flatten_of_forall {α : Type} {w : Nat} {l : List (List α)} (h : ∀ b ∈ l, b.length = w) : l.flatten.length = l.length * w := by
  rw [List.length_flatten, List.map_congr_left h, List.map_const', List.sum_replicate, smul_eq_mul]

end Sys2Proof.Machine

/-! Tiles in a scratchpad (R239, R252, R254): where the bytes of their lines stand. -/

namespace Sys2Proof.Machine

open Sys2Proof.Safety

-- The swizzle of R252

/-- An XOR below a power of two stays within a multiple of that power. -/
theorem xor_lt_mul {g x k m : Nat} (hg : g < 2 ^ k * m) (hx : x < 2 ^ k) : g ^^^ x < 2 ^ k * m := by
  rw [Nat.mul_comm, ← Nat.div_lt_iff_lt_mul (Nat.two_pow_pos k)] at hg ⊢
  rwa [Nat.xor_div_two_pow, Nat.div_eq_of_lt hx, Nat.xor_zero]

/-- A byte of a line of `m` blocks of `2 ^ k` granules keeps its line, its place in its granule, and takes another granule. -/
theorem swizzle_line {k m line g b : Nat} (hk : k ≠ 0) (hg : g < 2 ^ k * m) (hb : b < 16) :
    swizzle k (16 * (2 ^ k * m)) (line * (16 * (2 ^ k * m)) + (16 * g + b)) = line * (16 * (2 ^ k * m)) + (16 * (g ^^^ (line % 2 ^ k)) + b) := by
  unfold swizzle
  dsimp only
  generalize hw : 2 ^ k * m = w at *
  have hlt : 16 * g + b < 16 * w := by omega
  have hdiv : (line * (16 * w) + (16 * g + b)) / (16 * w) = line := by
    rw [Nat.mul_comm, Nat.mul_add_div (by omega), Nat.div_eq_of_lt hlt, Nat.add_zero]
  have hmod : (line * (16 * w) + (16 * g + b)) % (16 * w) = 16 * g + b := by
    rw [Nat.mul_comm, Nat.mul_add_mod, Nat.mod_eq_of_lt hlt]
  have hlow : (line * (16 * w) + (16 * g + b)) % 16 = b := by
    rw [show line * (16 * w) + (16 * g + b) = 16 * (line * w + g) + b by ring, Nat.mul_add_mod, Nat.mod_eq_of_lt hb]
  rw [if_neg hk, hdiv, hmod, hlow, show (16 * g + b) / 16 = g by omega, Nat.add_assoc]

/-- A byte of `n` lines stands in a line, a granule and a place there. -/
theorem exists_granule {w n o : Nat} (ho : o < n * (16 * w)) : ∃ line g b, line < n ∧ g < w ∧ b < 16 ∧ o = line * (16 * w) + (16 * g + b) := by
  have hw : 0 < 16 * w := Nat.pos_of_ne_zero fun h => by rw [h, Nat.mul_zero] at ho; omega
  have hlt := Nat.mod_lt o hw
  refine ⟨o / (16 * w), o % (16 * w) / 16, o % 16, (Nat.div_lt_iff_lt_mul hw).mpr ho, by omega, Nat.mod_lt o (by decide), ?_⟩
  have hlow : o % (16 * w) % 16 = o % 16 := Nat.mod_mul_right_mod ..
  have h1 := Nat.div_add_mod' o (16 * w)
  have h2 := Nat.div_add_mod (o % (16 * w)) 16
  omega

section
variable {k w n : Nat} (hw : w % (16 * 2 ^ k) = 0)
include hw

/-- Swizzled, a byte of `n` lines stays within them. -/
theorem swizzle_lt {o : Nat} (ho : o < n * w) : swizzle k w o < n * w := by
  by_cases hk : k = 0
  · rwa [swizzle, if_pos hk]
  · obtain ⟨m, rfl⟩ := Nat.dvd_of_mod_eq_zero hw
    rw [Nat.mul_assoc] at ho ⊢
    obtain ⟨line, g, b, hl, hg, hb, rfl⟩ := exists_granule ho
    rw [swizzle_line hk hg hb]
    have hx := xor_lt_mul hg (Nat.mod_lt line (Nat.two_pow_pos k))
    have hn : (line + 1) * (16 * (2 ^ k * m)) ≤ n * (16 * (2 ^ k * m)) := Nat.mul_le_mul_right _ hl
    rw [Nat.add_mul, Nat.one_mul] at hn
    omega

/-- The swizzle is its own inverse. -/
theorem swizzle_swizzle {o : Nat} (ho : o < n * w) : swizzle k w (swizzle k w o) = o := by
  by_cases hk : k = 0
  · rw [swizzle, if_pos hk, swizzle, if_pos hk]
  · obtain ⟨m, rfl⟩ := Nat.dvd_of_mod_eq_zero hw
    rw [Nat.mul_assoc] at ho ⊢
    obtain ⟨line, g, b, hl, hg, hb, rfl⟩ := exists_granule ho
    rw [swizzle_line hk hg hb, swizzle_line hk (xor_lt_mul hg (Nat.mod_lt line (Nat.two_pow_pos k))) hb, Nat.xor_assoc, Nat.xor_self, Nat.xor_zero]

end

-- Bytes written one by one

/-- Single bytes written one after the other, each at its place. -/
def Spad.writeEach (p : Spad) (tag : Nat) (f : Nat → Nat) (l : List (Byte × Nat)) : Spad := l.foldl (fun p b => p.write tag (f b.2) [b.1]) p

theorem Spad.byte_writeEach_append (p : Spad) (tag : Nat) (f : Nat → Nat) (l : List (Byte × Nat)) (a : Byte × Nat) (x : Nat) :
    (p.writeEach tag f (l ++ [a])).byte x = if x = f a.2 then a.1 else (p.writeEach tag f l).byte x := by
  rw [Spad.writeEach, List.foldl_append, List.foldl_cons, List.foldl_nil, Spad.byte_write]
  by_cases hx : x = f a.2
  · rw [if_pos hx, if_pos (by simp [hx]), hx, Nat.sub_self]
    rfl
  · rw [if_neg hx, if_neg (by simp; omega)]
    rfl

theorem Spad.byte_writeEach_of_forall_ne {p : Spad} {tag x : Nat} {f : Nat → Nat} {l : List (Byte × Nat)} (h : ∀ c ∈ l, f c.2 ≠ x) :
    (p.writeEach tag f l).byte x = p.byte x := by
  induction l using List.reverseRecOn with
  | nil => rfl
  | append_singleton l a ih =>
    rw [Spad.byte_writeEach_append, if_neg (h a (by simp)).symm, ih fun c hc => h c (List.mem_append_left _ hc)]

theorem Spad.byte_writeEach_of_mem {p : Spad} {tag : Nat} {f : Nat → Nat} {l : List (Byte × Nat)} {c : Byte × Nat} (hc : c ∈ l)
    (h : ∀ d ∈ l, f d.2 = f c.2 → d.1 = c.1) : (p.writeEach tag f l).byte (f c.2) = c.1 := by
  induction l using List.reverseRecOn with
  | nil => exact nomatch hc
  | append_singleton l a ih =>
    rw [Spad.byte_writeEach_append]
    by_cases ha : f c.2 = f a.2
    · rw [if_pos ha, h a (by simp) ha.symm]
    · rw [if_neg ha]
      rcases List.mem_append.mp hc with hl | hl
      · exact ih hl fun d hd => h d (List.mem_append_left _ hd)
      · exact absurd (by rw [List.mem_singleton.mp hl]) ha

/-- The lines of a tile, written byte by byte at their swizzled places. -/
theorem placed_writeEach {p : Spad} {start k w n : Nat} {bs : List Byte} (hw : w % (16 * 2 ^ k) = 0) (hlen : bs.length = n * w) :
    Safety.Placed p (p.writeEach k (fun i => start + swizzle k w i) bs.zipIdx) start k w bs := by
  have hplace (c : Byte × Nat) (hc : c ∈ bs.zipIdx) : c.2 < n * w ∧ c.1 = bs.getD c.2 0 := by
    obtain ⟨-, hi, hb⟩ := List.mem_zipIdx hc
    rw [Nat.zero_add] at hi
    refine ⟨hlen ▸ hi, ?_⟩
    rw [List.getD_eq_getElem _ _ hi]
    exact hb
  refine ⟨fun i hi => ?_, fun a ha => Spad.byte_writeEach_of_forall_ne fun c hc => ?_⟩
  · have hmem : (bs.getD i 0, i) ∈ bs.zipIdx := by
      rw [List.mk_mem_zipIdx_iff_getElem?, List.getElem?_eq_getElem hi, List.getD_eq_getElem _ _ hi]
    refine Spad.byte_writeEach_of_mem (f := fun i => start + swizzle k w i) hmem fun d hd heq => ?_
    obtain ⟨hlt, hval⟩ := hplace d hd
    have hsame : d.2 = i := by
      rw [← swizzle_swizzle hw hlt, Nat.add_left_cancel heq, swizzle_swizzle hw (hlen ▸ hi)]
    rw [hval, hsame]
  · have hlt := swizzle_lt hw (hplace c hc).1
    omega

end Sys2Proof.Machine

/-! The end of a copy (R159 to R164): what its channel, its handle and its lane are told, and the copy that meets an absent page. -/

namespace Sys2Proof.Machine

open Sys2Proof.Safety

-- Handles and channels

theorem Accessed.handle {reads : Prop} {s t : State} (h : Accessed reads s t) (core n : Nat) : t.handle core n = s.handle core n := by
  rw [State.handle, h.handles]
  rfl

theorem Accessed.chan {reads : Prop} {s t : State} (h : Accessed reads s t) (cluster ch : Nat) : t.chan cluster ch = s.chan cluster ch := by
  rw [State.chan, h.bte]
  rfl

theorem Accessed.bound {reads : Prop} {s t : State} (h : Accessed reads s t) (r : CopyRec) (e : CopyEnd) : t.bound r e = s.bound r e := by
  rw [State.bound, h.handle]
  rfl

theorem State.chan_setChan (s : State) (cluster ch : Nat) (l : List CopyRec) : (s.setChan cluster ch l).chan cluster ch = l := by
  unfold State.chan State.setChan State.modBte State.bte
  rw [State.cluster_modCluster]
  exact (SMap.get_put ..).trans (if_pos rfl)

theorem State.chan_congr {s t : State} (h : t.clusters = s.clusters) (cluster ch : Nat) : t.chan cluster ch = s.chan cluster ch := by
  unfold State.chan State.bte State.cluster
  rw [h]

/-- The status of a channel is told: of the engine it alone changes. -/
theorem State.chan_told (s : State) (k cluster ch c code : Nat) :
    (s.modBte k fun b => { b with last := b.last.put 0 c code }).chan cluster ch = s.chan cluster ch := by
  unfold State.chan State.bte
  by_cases h : cluster = k
  · rw [h, State.modBte, State.cluster_modCluster]
  · rw [State.modBte, State.cluster, State.modCluster, SMap.get_ins, if_neg h]
    rfl

theorem ends_endIn (code : Nat) (h : Handle) : Ends false code h (h.endIn code) := by
  unfold Ends Handle.endIn
  cases hst : h.st <;> by_cases hc : code = 0 <;> simp [hc]

theorem ends_endOut (code : Nat) (h : Handle) : Ends true code h (h.endOut code) := by
  unfold Ends Handle.endOut
  cases hst : h.st
  case draining =>
    by_cases ho : h.outward - 1 = 0
    · by_cases hb : h.outBad = true ∨ code ≠ 0
      · simp [ho, hb]
      · simp [ho, hb, Handle.toEmpty]
    · simp [ho]
  all_goals simp

-- The end

/-- The end of a copy at its handle. -/
def Handle.endCopy (out : Bool) (code : Nat) (h : Handle) : Handle := if out then h.endOut code else h.endIn code

theorem ends_endCopy (out : Bool) (code : Nat) (h : Handle) : Ends out code h (h.endCopy out code) := by
  cases out
  · exact ends_endIn code h
  · exact ends_endOut code h

/-- The copy leaves its channel, and its end is told. -/
def State.finish (s : State) (r : CopyRec) (e : CopyEnd) (cluster ch code : Nat) : State :=
  (s.setChan cluster ch ((s.chan cluster ch).drop 1)).endCopy r ch code (if s.bound r e then [(e.core, code)] else []) (tmplOf r.tmpl).out

/-- What the end of a copy with one end leaves, whatever state it is told in. -/
structure Finished (s t : State) (r : CopyRec) (e : CopyEnd) (rest : List CopyRec) (cluster ch code : Nat) : Prop where
  chan : t.chan cluster ch = rest
  last : (t.bte (clusterOf r.core)).last.get 0 ch = code
  ends : s.bound r e = true → Ends (tmplOf r.tmpl).out code (s.handle e.core r.handle) (t.handle e.core r.handle)
  left : s.bound r e = false → t.handle e.core r.handle = s.handle e.core r.handle
  told : ∀ op o a, r.op = some op → Outstanding s op r.lane o a → Told t op r.lane code

theorem told_of_answered {s t : State} {op lane code : Nat} {o : MemOp} (h : Answered s t op lane o (some (leBytes code 4)) none) : Told t op lane code := by
  rcases h with ⟨p, b, hp, hb, hlane, hdone, hback, -⟩ | ⟨hnone, -⟩
  · exact .inr ⟨p, b, hp, hb, hlane, hdone, hback⟩
  · exact .inl hnone

/-- The lane of a copy is told its code (R159). -/
def State.tellCopy (s : State) (r : CopyRec) (code : Nat) : State :=
  match r.op with
  | some id => s.laneDone id r.lane (some (leBytes code 4)) none
  | none => s

theorem State.tellCopy_answering (s : State) (r : CopyRec) (code : Nat) : Answering s (s.tellCopy r code) := by
  unfold State.tellCopy
  split
  · exact State.laneDone_answering ..
  · exact .refl s

theorem State.tellCopy_told {s : State} {r : CopyRec} {op : Nat} {o : MemOp} {a : LaneAcc} (hop : r.op = some op) (ho : Outstanding s op r.lane o a)
    (code : Nat) : Told (s.tellCopy r code) op r.lane code := by
  unfold State.tellCopy
  rw [hop]
  exact told_of_answered (State.laneDone_spec ho ..)

theorem Answering.handle {s t : State} (h : Answering s t) (core n : Nat) : t.handle core n = s.handle core n := by
  obtain ⟨m, e⟩ := h.core core
  unfold State.handle
  rw [e]

theorem Answering.clusters {s t : State} (h : Answering s t) : t.clusters = s.clusters := by
  obtain ⟨ops, gs, f, cs, rfl⟩ := h.eq
  rfl

/-- The handles that a copy's end is told to, before the channel and the lane. -/
def State.tellHandle (s : State) (r : CopyRec) (e : CopyEnd) (code : Nat) : State :=
  if s.bound r e then s.modHandle e.core r.handle (Handle.endCopy (tmplOf r.tmpl).out code) else s

theorem State.tellHandle_eq (s : State) (r : CopyRec) (e : CopyEnd) (code : Nat) : ∃ cs, s.tellHandle r e code = { s with cores := cs } := by
  unfold State.tellHandle
  split
  · exact ⟨_, rfl⟩
  · exact ⟨s.cores, rfl⟩

theorem State.finish_eq (s : State) (r : CopyRec) (e : CopyEnd) (cluster ch code : Nat) : s.finish r e cluster ch code =
    ((((s.setChan cluster ch ((s.chan cluster ch).drop 1)).tellHandle r e code).modBte (clusterOf r.core) fun b =>
      { b with last := b.last.put 0 ch code }).tellCopy r code) := by
  have hb : (s.setChan cluster ch ((s.chan cluster ch).drop 1)).bound r e = s.bound r e := rfl
  unfold State.finish State.endCopy State.tellHandle State.tellCopy
  rw [hb]
  cases s.bound r e <;> rfl

theorem State.finish_spec {s : State} {r : CopyRec} {cluster ch : Nat} {rest : List CopyRec} (hchan : s.chan cluster ch = r :: rest) (e : CopyEnd) (code : Nat) :
    Finished s (s.finish r e cluster ch code) r e rest cluster ch code ∧ (s.finish r e cluster ch code).spads = s.spads := by
  rw [State.finish_eq]
  set u := s.setChan cluster ch ((s.chan cluster ch).drop 1) with hu
  have huchan : u.chan cluster ch = rest := by rw [hu, State.chan_setChan, hchan]; rfl
  obtain ⟨cs, hv⟩ := u.tellHandle_eq r e code
  have hhandle : (u.tellHandle r e code).handle e.core r.handle =
      if s.bound r e then (s.handle e.core r.handle).endCopy (tmplOf r.tmpl).out code else s.handle e.core r.handle := by
    unfold State.tellHandle
    rw [show u.bound r e = s.bound r e from rfl]
    cases s.bound r e
    · rfl
    · exact State.handle_modHandle ..
  generalize hw : (u.tellHandle r e code).modBte (clusterOf r.core) (fun b => { b with last := b.last.put 0 ch code }) = w
  have hwhandle : w.handle e.core r.handle = (u.tellHandle r e code).handle e.core r.handle := by rw [← hw]; rfl
  have ha := w.tellCopy_answering r code
  refine ⟨⟨?_, ?_, fun hb => ?_, fun hb => ?_, fun op o a hop ho => State.tellCopy_told (o := o) (a := a) hop ⟨?_, ho.2⟩ code⟩, ?_⟩
  · rw [State.chan_congr ha.clusters, ← hw, State.chan_told, hv]
    exact huchan
  · rw [State.bte, State.cluster, ha.clusters, ← hw]
    show (((u.tellHandle r e code).modBte _ _).cluster (clusterOf r.core)).bte.last.get 0 ch = code
    rw [State.modBte, State.cluster_modCluster]
    exact (SMap.get_put ..).trans (if_pos rfl)
  · rw [ha.handle, hwhandle, hhandle, if_pos hb]
    exact ends_endCopy ..
  · rw [ha.handle, hwhandle, hhandle, hb]
    rfl
  · rw [← hw, hv]
    exact ho.1
  · rw [ha.spads, ← hw, hv]
    rfl

/-- Accesses before the end change nothing that the end tells. -/
theorem Finished.of_accessed {s u t : State} {r : CopyRec} {e : CopyEnd} {rest : List CopyRec} {cluster ch code : Nat} (ha : Accessed False s u)
    (h : Finished u t r e rest cluster ch code) : Finished s t r e rest cluster ch code where
  chan := h.chan
  last := h.last
  ends hb := ha.handle e.core r.handle ▸ h.ends ((ha.bound r e).trans hb)
  left hb := ha.handle e.core r.handle ▸ h.left ((ha.bound r e).trans hb)
  told op o a hop ho := h.told op o a hop ⟨ha.ops ▸ ho.1, ho.2⟩

-- The copy at the head of a channel

section
variable {s : State} {cluster ch : Nat} {r : CopyRec} {e : CopyEnd} (hh : s.copyHead cluster ch = some r) (he : r.ends = [e]) (hc : e.code = none)
include hh he hc

/-- A copy whose code stands already ends with it. -/
theorem State.completeCopy_of_status {code : Nat} (hs : r.status = some code) : s.completeCopy cluster ch = s.finish r e cluster ch code := by
  unfold State.completeCopy State.finish
  rw [hh]
  dsimp only
  rw [hs, he]
  dsimp only
  rw [if_neg (by simp [hc])]
  cases hb : s.bound r e <;> simp [hc, hb]

/-- A copy that moves its bytes ends with the code of its end. -/
theorem State.completeCopy_of_move {s' : State} {code : Nat} (hs : r.status = none) (hm : s.moveCopy r = (s', .ok [(e.core, code)])) :
    s.completeCopy cluster ch = s'.finish r e cluster ch code := by
  unfold State.completeCopy State.finish
  rw [hh]
  dsimp only
  rw [hs, hm, he]
  dsimp only
  cases hb : s'.bound r e <;> by_cases h0 : code = 0 <;> simp [hc, hb, h0]

end

/-- An inward copy reads its lines, and then places them (R254). -/
theorem State.moveEnd_fill {s s1 : State} {r : CopyRec} {e : CopyEnd} {bss : List (List Byte)} (hc : e.code = none) (hout : (tmplOf r.tmpl).out = false)
    (hvat : (tmplOf r.tmpl).vat = 0) (hmc : r.mc = none)
    (hread : allSteps (fun s ln => s.readLine r (tmplOf r.tmpl) (tenOf r.ten) ln) s (tileLines (tmplOf r.tmpl) false 0) = (s1, .ok bss))
    (hlen : (tileLines (tmplOf r.tmpl) false 0).length * (tmplOf r.tmpl).pitch (tenOf r.ten) ≤ (s.handle e.core r.handle).len) :
    s.moveEnd r e = ((s1.place e (s.handle e.core r.handle) 0 ((tmplOf r.tmpl).pitch (tenOf r.ten)) (tmplOf r.tmpl).swz bss.flatten).1,
      .ok (if (s1.place e (s.handle e.core r.handle) 0 ((tmplOf r.tmpl).pitch (tenOf r.ten)) (tmplOf r.tmpl).swz bss.flatten).2 then 1 else 0)) := by
  have hlines : tileLines (tmplOf r.tmpl) r.mc.isSome e.rank = tileLines (tmplOf r.tmpl) false 0 := by rw [hmc]; rfl
  obtain ⟨off, hoff, hfill⟩ := s.fillEnd_eq_fillAt r (tmplOf r.tmpl) (tenOf r.ten) hc
  rw [State.moveEnd, if_neg (by rw [hout]; decide), if_neg (by rw [hvat]; decide), hfill, hoff hmc]
  unfold State.fillAt
  dsimp only
  rw [hlines, if_neg (by simp; omega), hread]

/-- Bytes that meet a live allocation stand in its scratchpad. -/
theorem State.place_live {s : State} {e : CopyEnd} {h : Handle} {w swz n : Nat} {bs : List Byte} {a : Alloc} (ha : s.allocs.find e.alloc = some a)
    (hlive : s.stale e.alloc e.gen (a.base + h.base) bs.length s.clock.ns s.clock.ns = false) (hw : w % (16 * 2 ^ swz) = 0) (hlen : bs.length = n * w) :
    (s.place e h 0 w swz bs).2 = false ∧ Safety.Placed (s.spad a.core) ((s.place e h 0 w swz bs).1.spad a.core) (a.base + h.base) swz w bs := by
  unfold State.place
  rw [ha]
  dsimp only
  unfold State.placeAt
  rw [Nat.add_zero, hlive, if_neg Bool.false_ne_true]
  refine ⟨rfl, ?_⟩
  dsimp only
  rw [State.spad_modSpad, if_pos rfl]
  exact placed_writeEach hw hlen

theorem tmplOk_swizzle {bs : List Byte} {mc copy : Bool} {ten : Ten} (h : tmplOk bs mc ten copy = true) :
    (tmplOf bs).pitch ten % (16 * 2 ^ (tmplOf bs).swz) = 0 := by
  unfold tmplOk at h
  simp only [Bool.and_eq_true, beq_iff_eq] at h
  tauto

/-- A copy that meets an absent page is held under a fault record. -/
theorem State.faultCopy_spec {s s' : State} {cluster ch : Nat} {r : CopyRec} {rest : List CopyRec} {e : CopyEnd} {er : EngErr}
    (hh : s.copyHead cluster ch = some r) (hchan : s.chan cluster ch = r :: rest) (he : r.ends = [e]) (hs : r.status = none)
    (hm : s.moveCopy r = (s', .error er)) : ∃ tag, (s.faultCopy cluster ch).chan cluster ch = { r with held := some tag, dec := false } :: rest ∧
      ∃ f ∈ ((s.faultCopy cluster ch).core r.core).records, f.tag = tag ∧ f.kind = 2 ∧ f.gid = r.poster.gid := by
  have ha : Accessed False s s' := by
    have h := Accessed.moveCopy s he
    rwa [hm] at h
  generalize hf : FaultInfo.mk 2 0 r.pc er.2 0 (if (tmplOf r.tmpl).out then .write else .read) er.1.reason er.1.level 0 ch = f
  have e : s.faultCopy cluster ch = (s'.postFault r.poster r.core f).2.setChan cluster ch
      ({ r with held := some (s'.postFault r.poster r.core f).1, dec := false } :: ((s'.postFault r.poster r.core f).2.chan cluster ch).drop 1) := by
    unfold State.faultCopy
    rw [hh]
    dsimp only
    rw [hs, hm, ← hf]
    rfl
  obtain ⟨⟨x, hx, htag, hkind, hgid⟩, cs, ev, hp⟩ := s'.postFault_spec r.poster r.core f
  refine ⟨(s'.postFault r.poster r.core f).1, ?_, x, ?_, htag, ?_, hgid⟩
  · rw [e, State.chan_setChan, State.chan_congr (t := (s'.postFault r.poster r.core f).2) (s := s') (by rw [hp]), ha.chan, hchan]
    rfl
  · rw [e]
    exact hx
  · rw [hkind, ← hf]

/-- Settles O26: what the accesses of a copy leave alone carries its end through them. -/
theorem copiesComplete : Obligations.CopiesComplete := by
  unfold Obligations.CopiesComplete
  intro s cluster ch r rest e hh hchan he hc
  have hmoved (u : State) (code : Nat) (hs : r.status = none) (hm : s.moveCopy r = (u, .ok [(e.core, code)])) :
      s.completeCopy cluster ch = u.finish r e cluster ch code ∧ Finished s (u.finish r e cluster ch code) r e rest cluster ch code ∧
        (u.finish r e cluster ch code).spads = u.spads := by
    have ha : Accessed False s u := by
      have h := Accessed.moveCopy s he
      rwa [hm] at h
    obtain ⟨hfin, hsp⟩ := State.finish_spec ((ha.chan cluster ch).trans hchan) e code
    exact ⟨State.completeCopy_of_move hh he hc hs hm, hfin.of_accessed ha, hsp⟩
  refine ⟨fun code hs => ?_, fun s' code hs hm => ?_, fun hs _ hout hvat hmc hok s1 bss a hread hlen ha hlive => ?_, fun s' er hs hm => ?_⟩
  · obtain ⟨⟨h1, h2, h3, h4, h5⟩, -⟩ := State.finish_spec hchan e code
    exact ⟨_, congrArg Host.Outcome.next (State.completeCopy_of_status hh he hc hs), h1, h2, h3, h4, h5⟩
  · obtain ⟨heq, ⟨h1, h2, h3, h4, h5⟩, -⟩ := hmoved s' code hs hm
    exact ⟨_, congrArg Host.Outcome.next heq, h1, h2, h3, h4, h5⟩
  · have hacc : Accessed True s s1 := by
      have h := Accessed.allSteps (reads := True) s (f := fun s ln => s.readLine r (tmplOf r.tmpl) (tenOf r.ten) ln) (fun s ln => Accessed.readLine s ..)
        (tileLines (tmplOf r.tmpl) false 0)
      rwa [hread] at h
    obtain ⟨hcount, hall⟩ := allSteps_forall (fun _ _ _ _ h => length_readLine h) hread
    have hflat : bss.flatten.length = (tileLines (tmplOf r.tmpl) false 0).length * (tmplOf r.tmpl).pitch (tenOf r.ten) := by
      rw [length_flatten_of_forall hall, hcount]
    have hlive1 : s1.stale e.alloc e.gen (a.base + (s.handle e.core r.handle).base) bss.flatten.length s1.clock.ns s1.clock.ns = false := by
      rw [hacc.clock, ← hlive]
      unfold State.stale
      rw [hacc.allocs]
    obtain ⟨hkept, hplaced⟩ := State.place_live (hacc.allocs ▸ ha) hlive1 (tmplOk_swizzle hok) hflat
    have hend := State.moveEnd_fill hc hout hvat hmc hread (hflat ▸ hlen)
    rw [hkept, if_neg Bool.false_ne_true] at hend
    have hm := s.moveCopy_single he
    rw [hend] at hm
    obtain ⟨heq, ⟨h1, h2, h3, h4, h5⟩, hsp⟩ := hmoved _ 0 hs hm
    refine ⟨_, congrArg Host.Outcome.next heq, ⟨h1, h2, h3, h4, h5⟩, ?_⟩
    rw [State.spad, State.spad, hsp, ← hacc.spads trivial]
    exact hplaced
  · obtain ⟨tag, h1, h2⟩ := State.faultCopy_spec hh hchan he hs hm
    exact ⟨_, rfl, tag, h1, h2⟩

end Sys2Proof.Machine

/-! The acceptance of copies at their channels and their handles (R160, R164, R353). -/

namespace Sys2Proof.Machine

open Sys2Proof.Safety

-- What acceptance leaves alone

/-- Between two states the handles of cores change, and latencies are drawn. -/
structure HandlesOnly (s t : State) : Prop where
  eq : ∃ cs f, t = { s with cores := cs, fresh := f }
  core : ∀ k, ∃ hs, t.core k = { s.core k with handles := hs }

theorem HandlesOnly.of_fresh (s : State) (f : Nat) : HandlesOnly s { s with fresh := f } := ⟨⟨_, _, rfl⟩, fun _ => ⟨_, rfl⟩⟩

theorem HandlesOnly.refl (s : State) : HandlesOnly s s := ⟨⟨_, _, rfl⟩, fun _ => ⟨_, rfl⟩⟩

theorem HandlesOnly.trans {s t u : State} (h : HandlesOnly s t) (h' : HandlesOnly t u) : HandlesOnly s u := by
  obtain ⟨cs, f, rfl⟩ := h.eq
  obtain ⟨cs', f', rfl⟩ := h'.eq
  refine ⟨⟨cs', f', rfl⟩, fun k => ?_⟩
  obtain ⟨hs, e⟩ := h.core k
  obtain ⟨hs', e'⟩ := h'.core k
  exact ⟨hs', by rw [e', e]⟩

theorem HandlesOnly.modHandle (s : State) (core n : Nat) (f : Handle → Handle) : HandlesOnly s (s.modHandle core n f) := by
  refine ⟨⟨_, _, rfl⟩, fun k => ?_⟩
  by_cases h : k = core
  · exact ⟨_, by rw [h, State.modHandle, State.core_modCore]⟩
  · exact ⟨(s.core k).handles, by rw [State.modHandle, State.core_modCore_ne _ _ h]⟩

/-- What copies on their way leave alone: all that acceptance reads but handles and channels. -/
structure Conveys (s t : State) : Prop where
  tensors : t.tensors = s.tensors
  wgs : t.wgs = s.wgs
  allocs : t.allocs = s.allocs
  templates : ∀ k, (t.bte k).templates = (s.bte k).templates
  stop : ∀ k, (t.bte k).stop = (s.bte k).stop
  space : ∀ k u, (t.core k).space u = (s.core k).space u
  dev : ∀ k, (t.core k).dev = (s.core k).dev

theorem Conveys.refl (s : State) : Conveys s s := ⟨rfl, rfl, rfl, fun _ => rfl, fun _ => rfl, fun _ _ => rfl, fun _ => rfl⟩

theorem Conveys.trans {s t u : State} (h : Conveys s t) (h' : Conveys t u) : Conveys s u where
  tensors := h'.tensors.trans h.tensors
  wgs := h'.wgs.trans h.wgs
  allocs := h'.allocs.trans h.allocs
  templates k := (h'.templates k).trans (h.templates k)
  stop k := (h'.stop k).trans (h.stop k)
  space k u := (h'.space k u).trans (h.space k u)
  dev k := (h'.dev k).trans (h.dev k)

theorem HandlesOnly.conveys {s t : State} (h : HandlesOnly s t) : Conveys s t := by
  obtain ⟨⟨cs, f, rfl⟩, hcore⟩ := h
  refine ⟨rfl, rfl, rfl, fun _ => rfl, fun _ => rfl, fun k u => ?_, fun k => ?_⟩
  all_goals
    obtain ⟨hs, e⟩ := hcore k
    rw [e]
  rfl

theorem Answering.conveys {s t : State} (h : Answering s t) : Conveys s t := by
  obtain ⟨⟨ops, gs, f, cs, rfl⟩, hcore⟩ := h
  refine ⟨rfl, rfl, rfl, fun _ => rfl, fun _ => rfl, fun k u => ?_, fun k => ?_⟩
  all_goals
    obtain ⟨m, e⟩ := hcore k
    rw [e]
  rfl

theorem Conveys.modBte (s : State) (k : Nat) {f : Bte → Bte} (ht : ∀ b, (f b).templates = b.templates) (hs : ∀ b, (f b).stop = b.stop) :
    Conveys s (s.modBte k f) := by
  refine ⟨rfl, rfl, rfl, fun j => ?_, fun j => ?_, fun _ _ => rfl, fun _ => rfl⟩
  all_goals
    unfold State.bte
    by_cases h : j = k
  · rw [h, State.modBte, State.cluster_modCluster, ht]
  · rw [State.modBte, State.cluster, State.modCluster, SMap.get_ins, if_neg h]
    rfl
  · rw [h, State.modBte, State.cluster_modCluster, hs]
  · rw [State.modBte, State.cluster, State.modCluster, SMap.get_ins, if_neg h]
    rfl

theorem Conveys.setChan (s : State) (cluster ch : Nat) (l : List CopyRec) : Conveys s (s.setChan cluster ch l) :=
  modBte s cluster (fun _ => rfl) fun _ => rfl

-- Handles

/-- A handle that a copy is offered takes or refuses it (R164). -/
def Handle.offered (out : Bool) (h : Handle) : Handle := (if out then h.acceptOut else h.acceptIn).getD h.refuse

theorem takes_iff (out : Bool) (h : Handle) : takes out h = (if out then h.acceptOut else h.acceptIn).isSome := by
  unfold takes Handle.acceptOut Handle.acceptIn
  cases out <;> cases hst : h.st
  case false.filling => by_cases hl : h.accepted < h.expect <;> simp [hl]
  all_goals rfl

theorem accepts_offered (out : Bool) (h : Handle) : Accepts out h (h.offered out) := by
  unfold Accepts Handle.offered Handle.acceptOut Handle.acceptIn Handle.refuse
  cases out <;> cases hst : h.st
  case false.filling => by_cases hl : h.accepted < h.expect <;> simp [hl]
  all_goals simp

theorem State.handle_modHandle_ne (s : State) {core k n : Nat} (h : k ≠ core) (f : Handle → Handle) : (s.modHandle core n f).handle k n = s.handle k n := by
  unfold State.modHandle State.handle
  rw [State.core_modCore_ne _ _ h]

/-- A receiver is offered the copy. -/
theorem State.acceptEnd_offered (s : State) (r : CopyRec) (out : Bool) (rank core : Nat) :
    (s.acceptEnd r out rank core none).1 = s.modHandle core r.handle (fun _ => (s.handle core r.handle).offered out) ∧
      (s.acceptEnd r out rank core none).2.code = if takes out (s.handle core r.handle) then none else some 3 := by
  unfold State.acceptEnd Handle.offered
  rw [takes_iff]
  cases h : (if out = true then (s.handle core r.handle).acceptOut else (s.handle core r.handle).acceptIn) with
  | none =>
    dsimp only
    rw [h]
    exact ⟨rfl, rfl⟩
  | some k =>
    dsimp only
    rw [h]
    exact ⟨rfl, rfl⟩

theorem HandlesOnly.acceptEnd (s : State) (r : CopyRec) (out : Bool) (rank core : Nat) (code : Option Nat) :
    HandlesOnly s (s.acceptEnd r out rank core code).1 := by
  cases code with
  | some c => exact refl s
  | none =>
    rw [(s.acceptEnd_offered r out rank core).1]
    exact modHandle ..

theorem HandlesOnly.acceptEnds (r : CopyRec) (l : List (Nat × Option Nat)) (s : State) (k : Nat) : HandlesOnly s (acceptEnds r s k l).1 := by
  induction l generalizing s k with
  | nil => exact refl s
  | cons p t ih => exact (acceptEnd s r false k p.1 p.2).trans (ih ..)

/-- The cores that members which stand name. -/
def liveEnds (l : List (Nat × Option Nat)) : List Nat := l.filterMap fun p => if p.2.isNone then some p.1 else none

/-- Each receiver of a copy is offered it, and no other handle changes. -/
theorem acceptEnds_handle (r : CopyRec) (l : List (Nat × Option Nat)) (s : State) (k e : Nat) (hn : (liveEnds l).Nodup) :
    (acceptEnds r s k l).1.handle e r.handle = if e ∈ liveEnds l then (s.handle e r.handle).offered false else s.handle e r.handle := by
  induction l generalizing s k with
  | nil => rfl
  | cons p t ih =>
    obtain ⟨core, code⟩ := p
    cases code with
    | some c =>
      have e' : liveEnds ((core, some c) :: t) = liveEnds t := rfl
      rw [e'] at hn ⊢
      exact ih s (k + 1) hn
    | none =>
      have e' : liveEnds ((core, none) :: t) = core :: liveEnds t := rfl
      rw [e', List.nodup_cons] at hn
      rw [e']
      refine (ih (s.acceptEnd r false k core none).1 (k + 1) hn.2).trans ?_
      rw [(s.acceptEnd_offered r false k core).1]
      by_cases he : e = core
      · rw [he, if_neg hn.1, if_pos (List.mem_cons_self ..), State.handle_modHandle]
      · rw [State.handle_modHandle_ne _ he]
        simp [he]

-- Acceptance (R160)

section
variable (s : State) (r : CopyRec)

/-- The template that a copy names. -/
def State.tmplFor : List Byte := (s.bte (clusterOf r.core)).templates.get (List.replicate 64 0) r.tmplNo

/-- The tensor record that its template names. -/
def State.tenFor : List Byte := s.tenRec r.ctx (clusterOf r.core) (tmplOf (s.tmplFor r)).ten

/-- Template and tensor record obey the rules of a copy. -/
def State.copyGood : Bool := tmplOk (s.tmplFor r) r.mc.isSome (tenOf (s.tenFor r)) true

/-- The state in which a copy is accepted: its latency drawn. -/
def State.drawn : State := { s with fresh := s.fresh + 1 }

/-- A copy with what its acceptance captures. -/
def State.captured : CopyRec :=
  { r with accepted := true, tmpl := s.tmplFor r, ten := s.tenFor r, due := s.cc + Sys2Proof.Config.freeLatency s.fresh, issued := s.clock.ns,
           space := (s.core r.core).space r.space.user,
           tenEnd := if (tenOf (s.tenFor r)).sp then some (s.memberEnd r.wg (tenOf (s.tenFor r)).member) else none }

theorem State.acceptCopy_eq : s.acceptCopy r =
    if r.mc.any fun w => w.toNat % 16 == 0 then (s.drawn, s.captured r, some 0)
    else if r.handle ≥ 64 then (s.drawn, s.captured r, some 3)
    else if !s.copyGood r then (s.drawn, { s.captured r with status := some 4 }, none)
    else match r.mc with
      | some w => ((acceptEnds (s.captured r) s.drawn 0 (s.mcMembers r.wg (w.toNat % 16))).1,
          { s.captured r with ends := (acceptEnds (s.captured r) s.drawn 0 (s.mcMembers r.wg (w.toNat % 16))).2 }, none)
      | none => ((s.drawn.acceptEnd (s.captured r) (tmplOf (s.tmplFor r)).out 0 r.core none).1,
          { s.captured r with ends := [(s.drawn.acceptEnd (s.captured r) (tmplOf (s.tmplFor r)).out 0 r.core none).2] },
          if (s.drawn.acceptEnd (s.captured r) (tmplOf (s.tmplFor r)).out 0 r.core none).2.code.isSome then some 3 else none) := rfl

/-- What every acceptance does: handles change, and the copy is taken with its fixed part. -/
theorem State.acceptCopy_taken : HandlesOnly s (s.acceptCopy r).1 ∧ (s.acceptCopy r).2.1.accepted = true ∧
    plainCopy (s.acceptCopy r).2.1 = plainCopy { r with space := (s.core r.core).space r.space.user } := by
  have hdrawn : HandlesOnly s s.drawn := .of_fresh s _
  rw [State.acceptCopy_eq]
  split
  · exact ⟨hdrawn, rfl, rfl⟩
  split
  · exact ⟨hdrawn, rfl, rfl⟩
  split
  · exact ⟨hdrawn, rfl, rfl⟩
  split
  · exact ⟨hdrawn.trans (.acceptEnds ..), rfl, rfl⟩
  · exact ⟨hdrawn.trans (.acceptEnd ..), rfl, rfl⟩

variable {s r}

/-- A single-end copy is offered to its handle. -/
theorem State.acceptCopy_offered (hmc : r.mc = none) (hh : r.handle < 64) (hg : s.copyGood r = true) :
    (s.acceptCopy r).1.handle r.core r.handle = (s.handle r.core r.handle).offered (tmplOf (s.tmplFor r)).out ∧
      (s.acceptCopy r).2.2 = if takes (tmplOf (s.tmplFor r)).out (s.handle r.core r.handle) then none else some 3 := by
  obtain ⟨hst, hcode⟩ := s.drawn.acceptEnd_offered (s.captured r) (tmplOf (s.tmplFor r)).out 0 r.core
  rw [State.acceptCopy_eq, if_neg (by simp [hmc]), if_neg (by omega), if_neg (by simp [hg]), hmc]
  dsimp only
  rw [hst, hcode]
  refine ⟨State.handle_modHandle .., ?_⟩
  show _ = if takes (tmplOf (s.tmplFor r)).out (s.drawn.handle r.core (s.captured r).handle) then none else some 3
  cases takes (tmplOf (s.tmplFor r)).out (s.drawn.handle r.core (s.captured r).handle) <;> rfl

/-- A copy that breaks a rule of its template is taken in with code 4, and no handle changes. -/
theorem State.acceptCopy_bad (hmc : r.mc = none) (hh : r.handle < 64) (hg : ¬ s.copyGood r = true) : (∀ k n, (s.acceptCopy r).1.handle k n = s.handle k n) ∧
    (s.acceptCopy r).2.2 = none := by
  rw [State.acceptCopy_eq, if_neg (by simp [hmc]), if_neg (by omega), if_pos (by simp [hg])]
  exact ⟨fun _ _ => rfl, rfl⟩

/-- A copy to a handle beyond the last is refused. -/
theorem State.acceptCopy_beyond (hmc : r.mc = none) (hh : 64 ≤ r.handle) : (s.acceptCopy r).2.2 = some 3 := by
  rw [State.acceptCopy_eq, if_neg (by simp [hmc]), if_pos hh]

/-- A multicast copy is taken in unless its MASK is 0. -/
theorem State.acceptCopy_mc {w : Word} (hmc : r.mc = some w) (hh : r.handle < 64) :
    (s.acceptCopy r).2.2 = if w.toNat % 16 = 0 then some 0 else none := by
  rw [State.acceptCopy_eq, hmc]
  by_cases hw : w.toNat % 16 = 0
  · rw [if_pos (by simp [hw]), if_pos hw]
  · rw [if_neg (by simp [hw]), if_neg (by omega), if_neg hw]
    split <;> rfl

/-- The receivers of a multicast copy are each offered it. -/
theorem State.acceptCopy_receivers {w : Word} (hmc : r.mc = some w) (hh : r.handle < 64) (hg : s.copyGood r = true)
    (hn : (liveEnds (s.mcMembers r.wg (w.toNat % 16))).Nodup) (e : Nat) (he : e ∈ liveEnds (s.mcMembers r.wg (w.toNat % 16))) :
    (s.acceptCopy r).1.handle e r.handle = (s.handle e r.handle).offered false := by
  have hw : ¬ w.toNat % 16 = 0 := fun h0 => by
    rw [h0] at he
    simp [liveEnds, State.mcMembers, bitsOf] at he
  rw [State.acceptCopy_eq, hmc, if_neg (by simp [hw]), if_neg (by omega), if_neg (by simp [hg])]
  refine (acceptEnds_handle (s.captured r) _ s.drawn 0 e hn).trans ?_
  rw [if_pos he]
  rfl

end

end Sys2Proof.Machine

/-! A copy sent to its channel (R160, R290): taken in at once, told its code at once, or left waiting. -/

namespace Sys2Proof.Machine

open Sys2Proof.Safety

-- Channels as lists

/-- Copies of a core that wait in a channel. -/
def waitingOf (core : Nat) (l : List CopyRec) : List CopyRec := l.filter fun r => !r.accepted && r.core == core

theorem length_waitingOf (s : State) (core ch : Nat) : s.copyWindow core ch = (waitingOf core (s.chan (clusterOf core) ch)).length := rfl

theorem forall_of_window {s : State} {core ch : Nat} (h : s.copyWindow core ch = 0) :
    ∀ x ∈ s.chan (clusterOf core) ch, ¬ (!x.accepted && x.core == core) = true :=
  List.filter_eq_nil_iff.mp (List.length_eq_zero_iff.mp h)

/-- A channel whose queue takes in the copy at its end. -/
def takenIn (l : List CopyRec) (r : CopyRec) : List CopyRec := l.filter (·.accepted) ++ [r] ++ l.filter (!·.accepted)

theorem mem_takenIn {l : List CopyRec} {r x : CopyRec} (hx : x ∈ l) : x ∈ takenIn l r := by
  unfold takenIn
  cases ha : x.accepted <;> simp [hx, ha]

theorem waitingOf_takenIn {l : List CopyRec} {r : CopyRec} {core : Nat} (hr : r.accepted = true) (hw : waitingOf core l = []) :
    waitingOf core (takenIn l r) = [] := by
  unfold waitingOf at hw ⊢
  rw [List.filter_eq_nil_iff] at hw ⊢
  intro x hx
  unfold takenIn at hx
  simp only [List.mem_append, List.mem_filter, List.mem_singleton] at hx
  rcases hx with (⟨hx, -⟩ | rfl) | ⟨hx, -⟩
  · exact hw x hx
  · simp [hr]
  · exact hw x hx

theorem inQueue_takenIn {l : List CopyRec} {r : CopyRec} (hr : r.accepted = true) : inQueue (takenIn l r) = inQueue l + 1 := by
  unfold inQueue takenIn
  simp [List.filter_append, List.filter_filter, hr]

-- Sending

theorem Conveys.tellCopy (s : State) (r : CopyRec) (code : Nat) : Conveys s (s.tellCopy r code) := (s.tellCopy_answering r code).conveys

theorem State.copyWindow_congr {s t : State} {core ch : Nat} (h : t.chan (clusterOf core) ch = s.chan (clusterOf core) ch) :
    t.copyWindow core ch = s.copyWindow core ch := by
  rw [State.copyWindow, h]
  rfl

section
variable {s : State} {ch : Nat} {r : CopyRec}

/-- The channel with one more copy at its end. -/
def State.queued (s : State) (ch : Nat) (r : CopyRec) : State := s.setChan (clusterOf r.core) ch (s.chan (clusterOf r.core) ch ++ [r])

theorem State.queued_chan : (s.queued ch r).chan (clusterOf r.core) ch = s.chan (clusterOf r.core) ch ++ [r] := State.chan_setChan ..

theorem Conveys.queued : Conveys s (s.queued ch r) := setChan s ..

/-- The first waiting copy of its core is the one that was sent, where none waited. -/
theorem find_queued (hr : r.accepted = false) (hw : s.copyWindow r.core ch = 0) :
    ((s.queued ch r).chan (clusterOf r.core) ch).find? (fun x => !x.accepted && x.core == r.core) = some r := by
  rw [State.queued_chan, List.find?_append, List.find?_eq_none.mpr (forall_of_window hw)]
  simp [hr]

theorem notMem_of_window (hr : r.accepted = false) (hw : s.copyWindow r.core ch = 0) : r ∉ s.chan (clusterOf r.core) ch := fun hm =>
  forall_of_window hw r hm (by simp [hr])

/-- With room, the channel takes the copy in or tells it at once. -/
theorem State.sendCopy_room (hr : r.accepted = false) (hroom : HasRoom s r.core ch) : s.sendCopy ch r =
    match ((s.queued ch r).acceptCopy r).2.2 with
    | some code => ((((s.queued ch r).acceptCopy r).1.setChan (clusterOf r.core) ch (s.chan (clusterOf r.core) ch)).modBte
        (clusterOf ((s.queued ch r).acceptCopy r).2.1.core) fun b => { b with last := b.last.put 0 ch code }).tellCopy ((s.queued ch r).acceptCopy r).2.1 code
    | none => ((s.queued ch r).acceptCopy r).1.setChan (clusterOf r.core) ch (takenIn (s.chan (clusterOf r.core) ch) ((s.queued ch r).acceptCopy r).2.1) := by
  obtain ⟨hw, hq, hs⟩ := hroom
  have hnot := notMem_of_window hr hw
  have hfull : ¬ (inQueue (s.chan (clusterOf r.core) ch ++ [r]) ≥ 8 || ((s.queued ch r).bte (clusterOf r.core)).stop) = true := by
    rw [Conveys.queued.stop, hs, Bool.or_false, inQueue, List.filter_append]
    simpa [hr] using hq
  have hacc : (s.queued ch r).acceptNext r.core ch = match ((s.queued ch r).acceptCopy r).2.2 with
      | some code => (((((s.queued ch r).acceptCopy r).1.setChan (clusterOf r.core) ch (s.chan (clusterOf r.core) ch)).modBte
          (clusterOf ((s.queued ch r).acceptCopy r).2.1.core) fun b => { b with last := b.last.put 0 ch code }).tellCopy ((s.queued ch r).acceptCopy r).2.1 code, true)
      | none => (((s.queued ch r).acceptCopy r).1.setChan (clusterOf r.core) ch
          (takenIn (s.chan (clusterOf r.core) ch) ((s.queued ch r).acceptCopy r).2.1), true) := by
    unfold State.acceptNext
    dsimp only
    rw [find_queued hr hw]
    dsimp only
    rw [State.queued_chan, if_neg hfull]
    have herase : (s.chan (clusterOf r.core) ch ++ [r]).erase r = s.chan (clusterOf r.core) ch := by
      rw [List.erase_append_right _ hnot]
      simp
    have hnew : (List.filter (fun q => !q.accepted) (s.chan (clusterOf r.core) ch ++ [r])).erase r = (s.chan (clusterOf r.core) ch).filter (!·.accepted) := by
      rw [List.filter_append, List.erase_append_right _ fun hm => hnot (List.mem_of_mem_filter hm)]
      simp [hr]
    have hold : List.filter (fun q => q.accepted) (s.chan (clusterOf r.core) ch ++ [r]) = (s.chan (clusterOf r.core) ch).filter (·.accepted) := by
      simp [List.filter_append, hr]
    rw [herase, hnew, hold]
    cases ((s.queued ch r).acceptCopy r).2.2 <;> rfl
  unfold State.sendCopy
  dsimp only
  rw [if_neg (by omega), show s.setChan (clusterOf r.core) ch (s.chan (clusterOf r.core) ch ++ [r]) = s.queued ch r from rfl, hacc]
  cases ((s.queued ch r).acceptCopy r).2.2 <;> rfl

/-- Without room the copy waits at the end of the channel, and its next sending may be set. -/
theorem State.sendCopy_full (hr : r.accepted = false) (hroom : ¬ HasRoom s r.core ch) :
    s.sendCopy ch r = s.queued ch r ∨ ∃ ev f, (∀ c : Core, ∃ p, f c = { c with paths := p }) ∧
      s.sendCopy ch r = { (s.queued ch r).modCore r.core f with events := ev } := by
  unfold State.sendCopy
  dsimp only
  rw [show s.setChan (clusterOf r.core) ch (s.chan (clusterOf r.core) ch ++ [r]) = s.queued ch r from rfl]
  by_cases hw : s.copyWindow r.core ch = 0
  · have hfull : (inQueue (s.chan (clusterOf r.core) ch ++ [r]) ≥ 8 || ((s.queued ch r).bte (clusterOf r.core)).stop) = true := by
      rw [Conveys.queued.stop, inQueue, List.filter_append]
      by_contra hc
      simp [hr] at hc
      exact hroom ⟨hw, hc.1, hc.2⟩
    have hacc : (s.queued ch r).acceptNext r.core ch = (s.queued ch r, false) := by
      unfold State.acceptNext
      dsimp only
      rw [find_queued hr hw]
      dsimp only
      rw [State.queued_chan]
      exact if_pos hfull
    rw [if_neg (by omega), hacc]
    exact .inr ⟨_, _, fun c => ⟨_, rfl⟩, rfl⟩
  · rw [if_pos (by omega)]
    exact .inl rfl

end

end Sys2Proof.Machine

/-! The operation of a copy instruction (R76, R159): lanes told their codes, and its end with the last of them. -/

namespace Sys2Proof.Machine

open Sys2Proof.Safety

theorem MemOp.writeD_info (o : MemOp) (g : Group) : (o.writeD g).info = g.info := by
  unfold MemOp.writeD
  split
  · rfl
  · refine List.foldlRecOn (motive := fun k : Group => k.info = g.info) _ _ rfl fun k hk a _ => ?_
    split
    · exact hk
    · exact (Group.wrFold_same k _ _ _ _).info.trans hk

/-- What an access of a copy instruction stands at: not told, or told a code. -/
def ToldAs (code : Option Nat) (a : LaneAcc) : Prop := a.done = code.isSome ∧ ∀ c, code = some c → a.back = some (leBytes c 4)

/-- The operation of a copy instruction stands, one access for each lane. -/
structure CopyStands (s : State) (gid id : Nat) (ls : List Nat) (told : Nat → Option Nat) (o : MemOp) : Prop where
  found : s.ops.find id = some o
  kind : o.kind = .other
  ready : o.ready = false
  gid : o.gid = gid
  ctr : o.ctr = 2
  lanes : o.accs.map (·.lane) = ls
  told : ∀ a ∈ o.accs, ToldAs (told a.lane) a

/-- The operation of a copy instruction stands while a lane of its has to be told, and the group counts it; then it has ended (R76). -/
def CopyOp (s : State) (gid id : Nat) (g : Group) (ls : List Nat) (told : Nat → Option Nat) : Prop :=
  (∃ o, CopyStands s gid id ls told o ∧ CtrAt s gid 2 g (g.ctr 2 + 1)) ∨
  (s.ops.find id = none ∧ CtrAt s gid 2 g (g.ctr 2) ∧ ∀ l ∈ ls, told l ≠ none)

section
variable {s : State} {gid id : Nat} {g : Group} {ls : List Nat} {told : Nat → Option Nat}

theorem CopyOp.congr {t : State} (h : CopyOp s gid id g ls told) (ho : t.ops = s.ops) (hg : t.groups = s.groups) : CopyOp t gid id g ls told := by
  refine h.imp (fun ⟨o, hst, hc⟩ => ⟨o, { hst with found := ho ▸ hst.found }, hc.of_groups hg⟩) fun ⟨hn, hc, hl⟩ => ⟨ho ▸ hn, hc.of_groups hg, hl⟩

/-- Whichever way, its group stands. -/
theorem CopyOp.ctrAt (h : CopyOp s gid id g ls told) : CtrAt s gid 2 g (if (s.ops.find id).isSome then g.ctr 2 + 1 else g.ctr 2) := by
  rcases h with ⟨o, hst, hc⟩ | ⟨hn, hc, -⟩
  · rwa [hst.found]
  · rwa [hn]

/-- A lane that has been told its code knows it, or the operation has ended. -/
theorem CopyOp.told_lane (h : CopyOp s gid id g ls told) {l c : Nat} (hl : l ∈ ls) (ht : told l = some c) : Told s id l c := by
  rcases h with ⟨o, hst, -⟩ | ⟨hn, -⟩
  · rw [← hst.lanes] at hl
    obtain ⟨a, ha, rfl⟩ := List.mem_map.mp hl
    obtain ⟨hd, hb⟩ := hst.told a ha
    exact .inr ⟨o, a, hst.found, ha, rfl, by rw [hd, ht]; rfl, hb c ht⟩
  · exact .inl hn

/-- A lane that has not been told waits. -/
theorem CopyOp.waiting_lane (h : CopyOp s gid id g ls told) {l : Nat} (hl : l ∈ ls) (ht : told l = none) :
    ∃ o a, s.ops.find id = some o ∧ a ∈ o.accs ∧ a.lane = l ∧ a.done = false := by
  rcases h with ⟨o, hst, -⟩ | ⟨-, -, hall⟩
  · rw [← hst.lanes] at hl
    obtain ⟨a, ha, rfl⟩ := List.mem_map.mp hl
    exact ⟨o, a, hst.found, ha, rfl, by rw [(hst.told a ha).1, ht]; rfl⟩
  · exact absurd ht (hall l hl)

theorem toldAs_answered {o : MemOp} {l c : Nat} (ht : told l = none) (h : ∀ a ∈ o.accs, ToldAs (told a.lane) a) :
    ∀ a ∈ (o.answered l (some (leBytes c 4)) none).accs, ToldAs (Function.update told l (some c) a.lane) a := by
  intro a ha
  obtain ⟨b, hb, rfl⟩ := List.mem_map.mp ha
  obtain ⟨hd, hc⟩ := h b hb
  by_cases hl : b.lane = l
  · have hund : (b.lane == l && !b.done) = true := by rw [hd, hl, ht]; simp
    rw [if_pos hund]
    dsimp only
    rw [hl, Function.update_self]
    exact ⟨rfl, fun c' h' => by rw [Option.some.inj h']⟩
  · rw [if_neg (by simp [hl]), Function.update_of_ne hl]
    exact ⟨hd, hc⟩

theorem answered_lanes (o : MemOp) (l : Nat) (back : Option (List Byte)) (err : Option Cause) :
    (o.answered l back err).accs.map (·.lane) = o.accs.map (·.lane) := by
  unfold MemOp.answered
  rw [List.map_map]
  refine List.map_congr_left fun a _ => ?_
  rw [Function.comp]
  split <;> rfl

/-- A lane is told its code; with the last, the operation ends. -/
theorem CopyOp.laneDone (h : CopyOp s gid id g ls told) {l : Nat} (hl : l ∈ ls) (ht : told l = none) (c : Nat) :
    CopyOp (s.laneDone id l (some (leBytes c 4)) none) gid id g ls (Function.update told l (some c)) := by
  obtain ⟨o, hst, hctr⟩ := h.resolve_right fun ⟨_, _, hall⟩ => hall l hl ht
  have hst' : CopyStands { s with ops := s.ops.ins id (o.answered l (some (leBytes c 4)) none) } gid id ls (Function.update told l (some c))
      (o.answered l (some (leBytes c 4)) none) :=
    ⟨SMap.find_ins_self .., hst.kind, hst.ready, hst.gid, hst.ctr, (answered_lanes ..).trans hst.lanes, toldAs_answered ht hst.told⟩
  have hctr' : CtrAt ({ s with ops := s.ops.ins id (o.answered l (some (leBytes c 4)) none) } : State) gid 2 g (g.ctr 2 + 1) := hctr.of_groups rfl
  have e : s.laneDone id l (some (leBytes c 4)) none = ({ s with ops := s.ops.ins id (o.answered l (some (leBytes c 4)) none) } : State).opCheck id := by
    unfold State.laneDone State.modOp
    rw [hst.found]
    rfl
  rw [e]
  generalize o.answered l (some (leBytes c 4)) none = p at hst' hctr' ⊢
  generalize ({ s with ops := s.ops.ins id p } : State) = u at hst' hctr' ⊢
  by_cases hw : ∃ a ∈ p.accs, a.done = false
  · rw [State.opCheck_waiting hst'.found hw]
    exact .inl ⟨p, hst', hctr'⟩
  · have hd : ∀ a ∈ p.accs, a.done = true := fun a ha => by
      by_contra hf
      exact hw ⟨a, ha, by simpa using hf⟩
    have hend : u.opCheck id = (u.modGroup p.gid p.writeD).endOp id p := by
      unfold State.opCheck
      simp only [hst'.found, hst'.ready, List.all_eq_true.mpr hd, hst'.kind, Bool.not_true, Bool.or_false, Bool.false_eq_true, if_false]
    have hcw : CtrAt (u.modGroup p.gid p.writeD) p.gid p.ctr g (g.ctr 2 + 1) := by
      rw [hst'.ctr, hst'.gid]
      exact hctr'.modGroup _ p.writeD_info fun k hk => (p.writeD_ctr k 2).trans hk
    obtain ⟨⟨gs, hops⟩, hc⟩ := State.endOp_spec id hcw
    rw [hst'.ctr, hst'.gid] at hc
    rw [hend]
    refine .inr ⟨?_, hst'.gid ▸ hc, fun l' hl' => ?_⟩
    · rw [hops]
      exact (SMap.find_del ..).trans (if_pos rfl)
    · rw [← hst'.lanes] at hl'
      obtain ⟨a, ha, rfl⟩ := List.mem_map.mp hl'
      rw [Option.ne_none_iff_isSome, ← (hst'.told a ha).1]
      exact hd a ha

end

-- The launch of the operation

section
variable {s : State} {q : Issue} {g : Group} (h : Hdr) (b : Bool) (d : Option Reg) (codes : List Nat)

/-- The operation of a copy instruction begins: no lane has been told. -/
theorem launchOp_copy {x' : X} {id : Nat}
    (hx : (issueU s q g h b).launchOp (copyOp q.gid q.pc h.u (acts h q g) d (actors h q g) 2) codes none = (x', id)) :
    id = s.serial ∧ x' = { issueU s q g h b with s := x'.s, g := x'.g } ∧ Launched (issueU s q g h b) x' ∧ CopyOp x'.s q.gid s.serial g (actors h q g) (fun _ => none) ∧
      ∃ sr gs ops, x'.s = { s with serial := sr, groups := gs, ops := ops } := by
  set o := copyOp q.gid q.pc h.u (acts h q g) d (actors h q g) 2 with ho
  set u : State := { (issueU s q g h b).launchS o codes with ops := s.ops.ins s.serial o } with hu
  have hstart : u.startOp g.info.core s.serial = u.sending s.serial o := by
    rw [State.startOp_eq (SMap.find_ins_self ..)]
    refine List.foldlRecOn (motive := fun v : State => v = u.sending s.serial o) _ _ rfl fun v hv a ha => ?_
    obtain ⟨l, -, rfl⟩ := List.mem_map.mp ha
    exact hv
  have hc : CtrAt (u.startOp g.info.core s.serial) q.gid 2 g (g.ctr 2 + 1) := by
    have hcu : CtrAt u q.gid 2 g (g.ctr 2 + 1) := launchS_ctr h b codes (o := o) rfl (show (2 : Nat) ≤ 3 by decide)
    rw [hstart]
    exact hcu.of_groups rfl
  obtain ⟨hlaunch, hs⟩ := X.launched_sync (x := issueU s q g h b)
    (x' := { issueU s q g h b with s := { s with serial := s.serial + 1 }, g := (issueU s q g h b).launchG o codes })
    (f := fun s' => ({ s' with ops := s'.ops.ins s.serial o } : State).startOp g.info.core s.serial) rfl rfl hc
  have hx' : x' = ((issueU s q g h b).launchOp o codes none).1 ∧ id = s.serial := by rw [hx]; exact ⟨rfl, (congrArg Prod.snd hx).symm⟩
  have hs' : x'.s = u.startOp g.info.core s.serial := by rw [hx'.1]; exact hs
  refine ⟨hx'.2, by rw [hx'.1]; rfl, hx'.1 ▸ hlaunch, ?_, ?_⟩
  · rw [hs']
    refine .inl ⟨{ o with sent := u.clock.ns, sentCc := u.cc, held := none }, ⟨?_, rfl, rfl, rfl, rfl, ?_, ?_⟩, hc⟩
    · rw [hstart]
      exact SMap.find_ins_self ..
    · show ((actors h q g).map _).map _ = _
      rw [List.map_map]
      exact List.map_id _
    · intro a ha
      obtain ⟨l, -, rfl⟩ := List.mem_map.mp ha
      exact ⟨rfl, nofun⟩
  · rw [hs', hstart]
    exact ⟨_, _, _, rfl⟩

end

end Sys2Proof.Machine

/-! The copies of an instruction's lanes, sent in ascending LANE order (R160, R290). -/

namespace Sys2Proof.Machine

open Sys2Proof.Safety

-- One copy

section
variable {s : State} {ch : Nat} {r : CopyRec}

theorem Conveys.of_accepted (s : State) (ch : Nat) (r : CopyRec) : Conveys s ((s.queued ch r).acceptCopy r).1 :=
  Conveys.queued.trans ((s.queued ch r).acceptCopy_taken r).1.conveys

theorem ops_accepted (s : State) (ch : Nat) (r : CopyRec) :
    ((s.queued ch r).acceptCopy r).1.ops = s.ops ∧ ((s.queued ch r).acceptCopy r).1.groups = s.groups := by
  obtain ⟨cs, f, e⟩ := ((s.queued ch r).acceptCopy_taken r).1.eq
  rw [e]
  exact ⟨rfl, rfl⟩

/-- The fixed part of a copy that the channel takes in. -/
theorem plainCopy_accepted (hp : plainCopy r = r) (hs : r.space = (s.core r.core).space r.space.user) :
    plainCopy ((s.queued ch r).acceptCopy r).2.1 = r := by
  rw [((s.queued ch r).acceptCopy_taken r).2.2, Conveys.queued.space, ← hs, hp]

theorem tellCopy_congr (s : State) {r r' : CopyRec} (hop : r'.op = r.op) (hlane : r'.lane = r.lane) (code : Nat) :
    s.tellCopy r' code = s.tellCopy r code := by
  unfold State.tellCopy
  rw [hop, hlane]

/-- What the sending of a copy leaves, whatever comes of it. -/
structure CopySent (s t : State) (ch : Nat) (r : CopyRec) (l : List CopyRec) (handle : Nat → Nat → Handle) : Prop where
  conveys : Conveys s t
  chan : t.chan (clusterOf r.core) ch = l
  handle : ∀ k n, t.handle k n = handle k n

/-- With room and no code at once, the queue takes the copy in. -/
theorem sendCopy_taken (hr : r.accepted = false) (hroom : HasRoom s r.core ch) (hc : ((s.queued ch r).acceptCopy r).2.2 = none) :
    CopySent s (s.sendCopy ch r) ch r (takenIn (s.chan (clusterOf r.core) ch) ((s.queued ch r).acceptCopy r).2.1) ((s.queued ch r).acceptCopy r).1.handle ∧
      (s.sendCopy ch r).ops = s.ops ∧ (s.sendCopy ch r).groups = s.groups := by
  rw [State.sendCopy_room hr hroom, hc]
  exact ⟨⟨(Conveys.of_accepted s ch r).trans (.setChan ..), State.chan_setChan .., fun _ _ => rfl⟩, ops_accepted s ch r⟩

/-- With room and a code at once, the channel is as it was, and the lane is told. -/
theorem sendCopy_told {code : Nat} (hr : r.accepted = false) (hroom : HasRoom s r.core ch)
    (hc : ((s.queued ch r).acceptCopy r).2.2 = some code) :
    CopySent s (s.sendCopy ch r) ch r (s.chan (clusterOf r.core) ch) ((s.queued ch r).acceptCopy r).1.handle ∧
      ((s.sendCopy ch r).bte (clusterOf r.core)).last.get 0 ch = code ∧
      ∃ v : State, v.ops = s.ops ∧ v.groups = s.groups ∧ s.sendCopy ch r = v.tellCopy r code := by
  have hplain := ((s.queued ch r).acceptCopy_taken r).2.2
  have hcore : ((s.queued ch r).acceptCopy r).2.1.core = r.core := (congrArg CopyRec.core hplain :)
  have hop : ((s.queued ch r).acceptCopy r).2.1.op = r.op := (congrArg CopyRec.op hplain :)
  have hlane : ((s.queued ch r).acceptCopy r).2.1.lane = r.lane := (congrArg CopyRec.lane hplain :)
  have hconv := Conveys.of_accepted s ch r
  obtain ⟨hops, hgr⟩ := ops_accepted s ch r
  rw [State.sendCopy_room hr hroom, hc]
  dsimp only
  rw [hcore, tellCopy_congr _ hop hlane]
  generalize ((s.queued ch r).acceptCopy r).1 = p at hconv hops hgr ⊢
  set u := p.setChan (clusterOf r.core) ch (s.chan (clusterOf r.core) ch) with hu
  set v := u.modBte (clusterOf r.core) fun b => { b with last := b.last.put 0 ch code } with hv
  have ha := v.tellCopy_answering r code
  refine ⟨⟨?_, ?_, fun k n => ?_⟩, ?_, v, hops, hgr, rfl⟩
  · have hlast : Conveys u v := .modBte u (clusterOf r.core) (f := fun b => { b with last := b.last.put 0 ch code }) (fun _ => rfl) fun _ => rfl
    exact ((hconv.trans (.setChan ..)).trans hlast).trans ha.conveys
  · rw [State.chan_congr ha.clusters, hv, State.chan_told, hu, State.chan_setChan]
  · rw [ha.handle]
    rfl
  · rw [State.bte, State.cluster, ha.clusters]
    show (v.cluster (clusterOf r.core)).bte.last.get 0 ch = code
    rw [hv, State.modBte, State.cluster_modCluster]
    exact (SMap.get_put ..).trans (if_pos rfl)

/-- Without room the copy waits at the end of its channel. -/
theorem sendCopy_waits (hr : r.accepted = false) (hroom : ¬ HasRoom s r.core ch) :
    CopySent s (s.sendCopy ch r) ch r (s.chan (clusterOf r.core) ch ++ [r]) s.handle ∧ (s.sendCopy ch r).ops = s.ops ∧ (s.sendCopy ch r).groups = s.groups := by
  rcases State.sendCopy_full hr hroom with e | ⟨ev, f, hf, e⟩
  · rw [e]
    exact ⟨⟨.queued, State.queued_chan, fun _ _ => rfl⟩, rfl, rfl⟩
  · rw [e]
    have hkeeps {α : Type} (p : Core → α) (hpf : ∀ c, p (f c) = p c) (k : Nat) : p ((({ (s.queued ch r).modCore r.core f with events := ev } : State)).core k) = p (s.core k) :=
      State.core_modCore_keeps p hpf (s.queued ch r) r.core k
    have hpaths {α : Type} (p : Core → α) (hp : ∀ (c : Core) ps, p { c with paths := ps } = p c) (c : Core) : p (f c) = p c := by
      obtain ⟨ps, hc⟩ := hf c
      rw [hc, hp]
    refine ⟨⟨⟨rfl, rfl, rfl, Conveys.queued.templates, Conveys.queued.stop, fun k u => ?_, fun k => ?_⟩, State.queued_chan, fun k n => ?_⟩, rfl, rfl⟩
    · exact hkeeps (·.space u) (hpaths (fun c => c.space u) fun _ _ => rfl) k
    · exact hkeeps (·.dev) (hpaths (·.dev) fun _ _ => rfl) k
    · exact congrArg (SMap.get Handle.reset · n) (hkeeps (·.handles) (hpaths (·.handles) fun _ _ => rfl) k)

end

-- The copies of an instruction

section
variable (s : State) (q : Issue) (g : Group) (h : Hdr) (c : CopyArg) (mc : Bool)

/-- The copy of a lane, with the next serial number of the state. -/
def laneCopy (t : State) (l : Nat) : CopyRec := copyOf s q g c mc s.serial t.serial l

/-- The state in which the copy of a lane comes to its channel. -/
def laneReady (t : State) : State := { t with serial := t.serial + 1 }

/-- The copy of a lane is sent. -/
def sendLane (t : State) (l : Nat) : State := (laneReady t).sendCopy c.chan.toNat (laneCopy s q g c mc t l)

/-- What acceptance would make of the copy of a lane. -/
def laneAccept (t : State) (l : Nat) : State × CopyRec × Option Nat :=
  ((laneReady t).queued c.chan.toNat (laneCopy s q g c mc t l)).acceptCopy (laneCopy s q g c mc t l)

/-- The copies of some lanes have been sent: `m` of them have gone into the queue while it had room; a lane that has not been told has its copy in the
channel. -/
structure Sending (told : Nat → Option Nat) (seen : List Nat) (m : Nat) (t : State) : Prop where
  conveys : Conveys s t
  room : HasRoomAfter s g.info.core c.chan.toNat m → t.copyWindow g.info.core c.chan.toNat = 0 ∧
    inQueue (t.chan (clusterOf g.info.core) c.chan.toNat) = inQueue (s.chan (clusterOf g.info.core) c.chan.toNat) + m
  full : ¬ HasRoomAfter s g.info.core c.chan.toNat m → ¬ HasRoom t g.info.core c.chan.toNat
  op : CopyOp t q.gid s.serial g (actors h q g) told
  sent : ∀ l ∈ seen, told l = none → ∃ n, InChannel t c.chan.toNat (copyOf s q g c mc s.serial n l)
  fresh : ∀ l, l ∉ seen → told l = none

variable {s q g h c mc} {told : Nat → Option Nat} {seen : List Nat} {m : Nat} {t : State}

theorem hasRoomAfter_mono {core ch m n : Nat} (hr : HasRoomAfter s core ch n) (hm : m ≤ n) : HasRoomAfter s core ch m := by
  obtain ⟨hw, hq, hs⟩ := hr
  exact ⟨hw, by omega, hs⟩

theorem Sending.hasRoom_iff (hS : Sending s q g h c mc told seen m t) :
    HasRoom t g.info.core c.chan.toNat ↔ HasRoomAfter s g.info.core c.chan.toNat m := by
  refine ⟨fun hr => by_contra fun hn => hS.full hn hr, fun hr => ?_⟩
  obtain ⟨hw, hq⟩ := hS.room hr
  obtain ⟨-, hlt, hst⟩ := hr
  exact ⟨hw, hq.trans_lt hlt, (hS.conveys.stop _).trans hst⟩

/-- Copies that stand in the channel stay there. -/
theorem Sending.sent_mono (hS : Sending s q g h c mc told seen m t) {t' : State} (hm : ∀ x ∈ t.chan (clusterOf g.info.core) c.chan.toNat,
    x ∈ t'.chan (clusterOf g.info.core) c.chan.toNat) :
    ∀ l ∈ seen, told l = none → ∃ n, InChannel t' c.chan.toNat (copyOf s q g c mc s.serial n l) := by
  intro l hl ht
  obtain ⟨n, x, hx, hp⟩ := hS.sent l hl ht
  exact ⟨n, x, hm x hx, hp⟩

theorem laneReady_conveys (t : State) : Conveys t (laneReady t) := ⟨rfl, rfl, rfl, fun _ => rfl, fun _ => rfl, fun _ _ => rfl, fun _ => rfl⟩

theorem laneCopy_space (hc : Conveys s t) (l : Nat) : (laneCopy s q g c mc t l).space =
    ((laneReady t).core (laneCopy s q g c mc t l).core).space (laneCopy s q g c mc t l).space.user :=
  ((laneReady_conveys t).space _ _ |>.trans (hc.space _ _)).symm

section
variable {l : Nat} (hS : Sending s q g h c mc told seen m t)
include hS

/-- With room and no code at once, a lane's copy goes into the queue. -/
theorem Sending.taken (hr : HasRoomAfter s g.info.core c.chan.toNat m) (hc : (laneAccept s q g c mc t l).2.2 = none) :
    Sending s q g h c mc told (seen ++ [l]) (m + 1) (sendLane s q g c mc t l) ∧
      ∀ k n, (sendLane s q g c mc t l).handle k n = (laneAccept s q g c mc t l).1.handle k n := by
  obtain ⟨hw, hq⟩ := hS.room hr
  obtain ⟨⟨hconv, hchan, hhandle⟩, hops, hgr⟩ := sendCopy_taken (s := laneReady t) (ch := c.chan.toNat) (r := laneCopy s q g c mc t l) rfl
    (hS.hasRoom_iff.mpr hr) hc
  have hacc : (laneAccept s q g c mc t l).2.1.accepted = true := (State.acceptCopy_taken ..).2.1
  have hplain := plainCopy_accepted (s := laneReady t) (ch := c.chan.toNat) (r := laneCopy s q g c mc t l) rfl (laneCopy_space hS.conveys l)
  have hchan' : (sendLane s q g c mc t l).chan (clusterOf g.info.core) c.chan.toNat =
      takenIn (t.chan (clusterOf g.info.core) c.chan.toNat) (laneAccept s q g c mc t l).2.1 := hchan
  have hin : inQueue ((sendLane s q g c mc t l).chan (clusterOf g.info.core) c.chan.toNat) =
      inQueue (s.chan (clusterOf g.info.core) c.chan.toNat) + (m + 1) := by
    rw [hchan', inQueue_takenIn hacc, hq, Nat.add_assoc]
  refine ⟨⟨(hS.conveys.trans (laneReady_conveys t)).trans hconv, fun _ => ⟨?_, hin⟩, fun hn hroom => ?_, hS.op.congr hops hgr, fun l' hl' ht => ?_,
    fun l' hl' => hS.fresh l' fun hm => hl' (List.mem_append_left _ hm)⟩, hhandle⟩
  · rw [length_waitingOf, hchan', waitingOf_takenIn hacc (List.length_eq_zero_iff.mp hw)]
    rfl
  · have hlt : inQueue ((sendLane s q g c mc t l).chan (clusterOf g.info.core) c.chan.toNat) < 8 := hroom.2.1
    rw [hin] at hlt
    exact hn ⟨hr.1, hlt, hr.2.2⟩
  · rcases List.mem_append.mp hl' with hm | hm
    · exact hS.sent_mono (fun x hx => hchan' ▸ mem_takenIn hx) l' hm ht
    · rw [List.mem_singleton.mp hm]
      refine ⟨t.serial, (laneAccept s q g c mc t l).2.1, ?_, hplain⟩
      show _ ∈ (sendLane s q g c mc t l).chan (clusterOf g.info.core) c.chan.toNat
      rw [hchan']
      simp [takenIn]

/-- With room and a code at once, the lane is told. -/
theorem Sending.toldAtOnce (hr : HasRoomAfter s g.info.core c.chan.toNat m) (ha : l ∈ actors h q g) (hl : l ∉ seen) {code : Nat}
    (hc : (laneAccept s q g c mc t l).2.2 = some code) :
    Sending s q g h c mc (Function.update told l (some code)) (seen ++ [l]) m (sendLane s q g c mc t l) ∧
      ∀ k n, (sendLane s q g c mc t l).handle k n = (laneAccept s q g c mc t l).1.handle k n := by
  obtain ⟨hw, hq⟩ := hS.room hr
  obtain ⟨⟨hconv, hchan, hhandle⟩, -, v, hops, hgr, he⟩ := sendCopy_told (s := laneReady t) (ch := c.chan.toNat) (r := laneCopy s q g c mc t l) rfl
    (hS.hasRoom_iff.mpr hr) hc
  have hchan' : (sendLane s q g c mc t l).chan (clusterOf g.info.core) c.chan.toNat = t.chan (clusterOf g.info.core) c.chan.toNat := hchan
  have hop : CopyOp (sendLane s q g c mc t l) q.gid s.serial g (actors h q g) (Function.update told l (some code)) := by
    rw [sendLane, he]
    exact (hS.op.congr (t := v) hops hgr).laneDone ha (hS.fresh l hl) code
  refine ⟨⟨(hS.conveys.trans (laneReady_conveys t)).trans hconv, fun _ => ⟨?_, by rw [hchan', hq]⟩, fun hn => absurd hr hn, hop, fun l' hl' ht => ?_,
    fun l' hl' => ?_⟩, hhandle⟩
  · rw [State.copyWindow_congr hchan', hw]
  · by_cases hll : l' = l
    · rw [hll, Function.update_self] at ht
      cases ht
    · rw [Function.update_of_ne hll] at ht
      refine hS.sent_mono (fun x hx => hchan' ▸ hx) l' ((List.mem_append.mp hl').resolve_right fun hm => hll (List.mem_singleton.mp hm)) ht
  · rw [List.mem_append, List.mem_singleton, not_or] at hl'
    rw [Function.update_of_ne hl'.2]
    exact hS.fresh l' hl'.1

/-- Without room a lane's copy waits, and so do those after it. -/
theorem Sending.waits (hr : ¬ HasRoomAfter s g.info.core c.chan.toNat m) {m' : Nat} (hm : m ≤ m') :
    Sending s q g h c mc told (seen ++ [l]) m' (sendLane s q g c mc t l) ∧ ∀ k n, (sendLane s q g c mc t l).handle k n = t.handle k n := by
  obtain ⟨⟨hconv, hchan, hhandle⟩, hops, hgr⟩ := sendCopy_waits (s := laneReady t) (ch := c.chan.toNat) (r := laneCopy s q g c mc t l) rfl (hS.full hr)
  have hchan' : (sendLane s q g c mc t l).chan (clusterOf g.info.core) c.chan.toNat =
      t.chan (clusterOf g.info.core) c.chan.toNat ++ [laneCopy s q g c mc t l] := hchan
  refine ⟨⟨(hS.conveys.trans (laneReady_conveys t)).trans hconv, fun hn => absurd (hasRoomAfter_mono hn hm) hr, fun _ hroom => ?_, hS.op.congr hops hgr,
    fun l' hl' ht => ?_, fun l' hl' => hS.fresh l' fun hm => hl' (List.mem_append_left _ hm)⟩, hhandle⟩
  · refine forall_of_window hroom.1 (laneCopy s q g c mc t l) ?_ (by simp [laneCopy, copyOf])
    rw [hchan']
    exact List.mem_append_right _ (List.mem_singleton_self _)
  · rcases List.mem_append.mp hl' with hm | hm
    · exact hS.sent_mono (fun x hx => hchan' ▸ List.mem_append_left _ hx) l' hm ht
    · rw [List.mem_singleton.mp hm]
      refine ⟨t.serial, laneCopy s q g c mc t l, ?_, rfl⟩
      show _ ∈ (sendLane s q g c mc t l).chan (clusterOf g.info.core) c.chan.toNat
      rw [hchan']
      exact List.mem_append_right _ (List.mem_singleton_self _)

end

end

end Sys2Proof.Machine

/-! The issue of `cpy` and `cpy.mc` (R159, R160): the lanes' copies in their order, and the run that goes on or waits for their places. -/

namespace Sys2Proof.Machine

open Sys2Proof.Safety

-- The lanes in their order

section
variable (s : State) (q : Issue) (g : Group) (h : Hdr) (c : CopyArg) (mc : Bool) (v : State)

/-- The state after the copies of the first lanes have been sent. -/
def sentTo (j : Nat) : State := ((actors h q g).take j).foldl (sendLane s q g c mc) v

/-- The code that the copy of a lane would be told at once. -/
def codeAt (j : Nat) : Option Nat := ((actors h q g)[j]?).bind fun l => (laneAccept s q g c mc (sentTo s q g h c mc v j) l).2.2

/-- How many of the first lanes have a copy for which no code would be told at once. -/
def takenTo (j : Nat) : Nat := ((List.range j).filter fun k => (codeAt s q g h c mc v k).isNone).length

variable {s q g h c mc v}

theorem sentTo_succ {j l : Nat} (hl : (actors h q g)[j]? = some l) : sentTo s q g h c mc v (j + 1) = sendLane s q g c mc (sentTo s q g h c mc v j) l := by
  unfold sentTo
  rw [List.take_add_one, hl, List.foldl_append]
  rfl

theorem takenTo_succ (j : Nat) : takenTo s q g h c mc v (j + 1) = takenTo s q g h c mc v j + if (codeAt s q g h c mc v j).isNone then 1 else 0 := by
  unfold takenTo
  rw [List.range_succ, List.filter_append, List.length_append, List.filter_singleton]
  cases (codeAt s q g h c mc v j).isNone <;> rfl

theorem codeAt_eq {j l : Nat} (hl : (actors h q g)[j]? = some l) :
    codeAt s q g h c mc v j = (laneAccept s q g c mc (sentTo s q g h c mc v j) l).2.2 := by
  rw [codeAt, hl]
  rfl

theorem notMem_take {j l : Nat} (hl : (actors h q g)[j]? = some l) : l ∉ (actors h q g).take j := by
  refine fun hm => List.disjoint_take_drop actors_nodup le_rfl hm (List.mem_iff_getElem?.mpr ⟨0, ?_⟩)
  rw [List.getElem?_drop]
  exact hl

variable (hv : Sending s q g h c mc (fun _ => none) [] 0 v)
include hv

/-- Each lane in its turn: while there is room it is told its code, if it has one at once; every other copy stands in the channel. -/
theorem sending_sentTo {j : Nat} (hj : j ≤ (actors h q g).length) : ∃ told,
    Sending s q g h c mc told ((actors h q g).take j) (takenTo s q g h c mc v j) (sentTo s q g h c mc v j) ∧
      ∀ k l, k < j → (actors h q g)[k]? = some l →
        (HasRoomAfter s g.info.core c.chan.toNat (takenTo s q g h c mc v k) → told l = codeAt s q g h c mc v k) ∧
        (¬ HasRoomAfter s g.info.core c.chan.toNat (takenTo s q g h c mc v k) → told l = none) := by
  induction j with
  | zero => exact ⟨_, hv, nofun⟩
  | succ j ih =>
    obtain ⟨told, hS, htold⟩ := ih (Nat.le_of_succ_le hj)
    obtain ⟨l, hl⟩ : ∃ l, (actors h q g)[j]? = some l := ⟨_, List.getElem?_eq_getElem hj⟩
    have hlist : (actors h q g).take (j + 1) = (actors h q g).take j ++ [l] := by rw [List.take_add_one, hl]; rfl
    have hnew := notMem_take hl
    have hnone : told l = none := hS.fresh l hnew
    have hlast {k l' : Nat} (hk : k < j + 1) (hkl : (actors h q g)[k]? = some l') : (k < j ∧ l' ≠ l) ∨ (k = j ∧ l' = l) := by
      rcases Nat.lt_succ_iff_lt_or_eq.mp hk with hk | rfl
      · refine .inl ⟨hk, fun e => hnew ?_⟩
        rw [← e]
        exact List.mem_iff_getElem?.mpr ⟨k, (List.getElem?_take_of_lt hk).trans hkl⟩
      · exact .inr ⟨rfl, Option.some.inj (hkl.symm.trans hl)⟩
    rw [hlist, sentTo_succ hl, takenTo_succ]
    by_cases hr : HasRoomAfter s g.info.core c.chan.toNat (takenTo s q g h c mc v j)
    · cases hcode : codeAt s q g h c mc v j with
      | none =>
        refine ⟨told, (hS.taken hr (by rw [← codeAt_eq hl, hcode])).1, fun k l' hk hkl => ?_⟩
        rcases hlast hk hkl with ⟨hk', -⟩ | ⟨rfl, rfl⟩
        · exact htold k l' hk' hkl
        · exact ⟨fun _ => hnone.trans hcode.symm, fun _ => hnone⟩
      | some code =>
        refine ⟨_, (hS.toldAtOnce hr (List.mem_of_getElem? hl) hnew (by rw [← codeAt_eq hl, hcode])).1, fun k l' hk hkl => ?_⟩
        rcases hlast hk hkl with ⟨hk', hne⟩ | ⟨rfl, rfl⟩
        · rw [Function.update_of_ne hne]
          exact htold k l' hk' hkl
        · rw [Function.update_self]
          exact ⟨fun _ => hcode.symm, fun hn => absurd hr hn⟩
    · refine ⟨told, (hS.waits hr (Nat.le_add_right ..)).1, fun k l' hk hkl => ?_⟩
      rcases hlast hk hkl with ⟨hk', -⟩ | ⟨rfl, rfl⟩
      · exact htold k l' hk' hkl
      · exact ⟨fun hn => absurd hn hr, fun _ => hnone⟩

/-- The handles as the copy of one more lane leaves them. -/
theorem handle_sentTo_succ {j l : Nat} (hl : (actors h q g)[j]? = some l) :
    (HasRoomAfter s g.info.core c.chan.toNat (takenTo s q g h c mc v j) → ∀ k n,
      (sentTo s q g h c mc v (j + 1)).handle k n = (laneAccept s q g c mc (sentTo s q g h c mc v j) l).1.handle k n) ∧
    (¬ HasRoomAfter s g.info.core c.chan.toNat (takenTo s q g h c mc v j) → ∀ k n,
      (sentTo s q g h c mc v (j + 1)).handle k n = (sentTo s q g h c mc v j).handle k n) := by
  obtain ⟨told, hS, -⟩ := sending_sentTo hv (List.getElem?_eq_some_iff.mp hl).1.le
  rw [sentTo_succ hl]
  refine ⟨fun hr => ?_, fun hr => (hS.waits hr le_rfl).2⟩
  cases hcode : (laneAccept s q g c mc (sentTo s q g h c mc v j) l).2.2 with
  | none => exact (hS.taken hr hcode).2
  | some code => exact (hS.toldAtOnce hr (List.mem_of_getElem? hl) (notMem_take hl) hcode).2

end

-- The issue

section
variable {s : State} {q : Issue} {g : Group} {h : Hdr} {c : CopyArg} {mc : Bool} {i : Instr}

/-- The copy of a lane as the instruction makes it. -/
def X.copyFor (x : X) (c : CopyArg) (mc : Bool) (id : Nat) (t : State) (l : Nat) : CopyRec :=
  .start t.serial x.core x.pc x.g.info.wg ((laneReady t).gspace x.g) c.tmpl.toNat c.handle.toNat (x.g.rd64 l c.a)
    (if mc then some (match c.b with
      | some r => x.g.rd32 l r
      | none => 0) else none) (some id) l (x.g.poster x.gid)

/-- One copy as the instruction sends it. -/
def X.sendOne (x : X) (c : CopyArg) (mc : Bool) (id : Nat) (t : State) (l : Nat) : State :=
  (laneReady t).sendCopy c.chan.toNat (x.copyFor c mc id t l)

theorem sendLane_conveys {t : State} (hc : Conveys s t) (l : Nat) : Conveys s (sendLane s q g c mc t l) := by
  refine (hc.trans (laneReady_conveys t)).trans ?_
  by_cases hroom : HasRoom (laneReady t) (laneCopy s q g c mc t l).core c.chan.toNat
  · cases hcode : (laneAccept s q g c mc t l).2.2 with
    | none => exact (sendCopy_taken rfl hroom hcode).1.conveys
    | some code => exact (sendCopy_told rfl hroom hcode).1.conveys
  · exact (sendCopy_waits rfl hroom).1.conveys

theorem copyFor_eq_laneCopy (b : Bool) {t : State} (hc : Conveys s t) (l : Nat) :
    (issueU s q g h b).copyFor c mc s.serial t l = laneCopy s q g c mc t l := by
  have hspace : (laneReady t).gspace (issueU s q g h b).g = s.gspace g := hc.space g.info.core (!g.priv)
  unfold X.copyFor
  rw [hspace]
  rfl

theorem sendOne_eq_sendLane (b : Bool) {t : State} (hc : Conveys s t) (l : Nat) :
    (issueU s q g h b).sendOne c mc s.serial t l = sendLane s q g c mc t l := by
  rw [X.sendOne, copyFor_eq_laneCopy b hc]
  rfl

theorem foldl_sendOne (b : Bool) (ls : List Nat) {t : State} (hc : Conveys s t) :
    ls.foldl ((issueU s q g h b).sendOne c mc s.serial) t = ls.foldl (sendLane s q g c mc) t := by
  induction ls generalizing t with
  | nil => rw [List.foldl_nil, List.foldl_nil]
  | cons l ls ih => rw [List.foldl_cons, List.foldl_cons, sendOne_eq_sendLane b hc, ih (sendLane_conveys hc l)]

/-- The issue in the order of its parts: the check of the window, the operation, the copies, the run. -/
theorem issueX_copy (h0 : acts h q g ≠ 0) : ∃ b codes, (issueX s q g h).copy i c mc =
    if s.copyWindow g.info.core c.chan.toNat ≥ windowSize then (issueU s q g h b).retryLater (.window (chanKey c.chan.toNat)) else
    let p := (issueU s q g h b).launchOp (copyOp q.gid q.pc h.u (acts h q g) c.d (actors h q g) 2) codes none
    let y := p.1.sync fun t => (actors h q g).foldl ((issueU s q g h b).sendOne c mc p.2) t
    if y.s.copyWindow g.info.core c.chan.toNat > windowSize then y.wait (Wait.of (.window (chanKey c.chan.toNat)) (some i) (acts h q g)) else y.done := by
  rw [X.copy, issueX_acting h0]
  dsimp only
  rw [if_neg (show ¬ (issueX s q g h).resume.isSome = true from Bool.false_ne_true)]
  generalize hx : X.uniformU _ _ = x
  obtain ⟨b, rfl⟩ : ∃ b, x = issueU s q g h b := hx ▸ issueX_uniformU ..
  exact ⟨b, (useOpt c.d 1).flatMap RegUse.codes, rfl⟩

theorem copy_skips (he : exec i s = s.withIssue i h fun x => x.copy i c mc) (hi : Issues s i q g) : SkipsEmpty i s q g h := by
  intro h0
  refine ⟨_, he.trans (State.withIssue_of_issues hi h _), ?_⟩
  rw [show (issueX s q g h).copy i c mc = (issueX s q g h).done from if_pos h0]
  exact ⟨X.goOn_done _ rfl rfl, issueX_done_onlyRuns ..⟩

/-- A full replay window holds the run. -/
theorem copy_retries (he : exec i s = s.withIssue i h fun x => x.copy i c mc) (hi : Issues s i q g) (h0 : acts h q g ≠ 0)
    (hw : 32 ≤ s.copyWindow g.info.core c.chan.toNat) : Completes i s fun t => WaitsAt t q (.window (chanKey c.chan.toNat)) none := by
  obtain ⟨b, codes, e⟩ := issueX_copy (s := s) (q := q) (g := g) (c := c) (mc := mc) (i := i) h0
  refine ⟨_, he.trans (State.withIssue_of_issues hi h _), ?_⟩
  dsimp only
  rw [e, if_pos (show s.copyWindow g.info.core c.chan.toNat ≥ windowSize from hw)]
  obtain ⟨k, hk, hst⟩ := X.standsIn_wait (issueU s q g h b) (q := q) rfl rfl rfl (Wait.of (.window (chanKey c.chan.toNat)) none (acts h q g))
  exact ⟨k, hk, fun l hl => ⟨_, hst l hl, rfl, rfl⟩⟩

/-- A run whose copies waited for their places goes on when they have them. -/
theorem copy_resumes (he : exec i s = s.withIssue i h fun x => x.copy i c mc) {w : Wait} (hr : Resumes s i q w g) (h0 : w.lanes ≠ 0) :
    Completes i s fun t => (32 < s.copyWindow g.info.core c.chan.toNat → t = s) ∧
      (s.copyWindow g.info.core c.chan.toNat ≤ 32 → GoOn t q (fun _ => nextPc h q) ∧ OnlyRuns s t q g) := by
  have e : (resumeX s q g h w).copy i c mc = if s.copyWindow g.info.core c.chan.toNat > windowSize then s else (resumeX s q g h w).done :=
    (if_neg h0).trans (if_pos rfl)
  refine ⟨_, he.trans (State.withIssue_of_resumes hr h _), fun hw => ?_, fun hw => ?_⟩
  · exact e.trans (if_pos hw)
  · rw [e, if_neg (show ¬ s.copyWindow g.info.core c.chan.toNat > windowSize from Nat.not_lt.mpr hw)]
    exact ⟨X.goOn_done _ rfl rfl, resumeX_done_onlyRuns s q g h w⟩

end

end Sys2Proof.Machine

/-! What the lanes of `cpy` and `cpy.mc` come to (R159, R160, R164): their copies in the channel, their codes, their handles and their run. -/

namespace Sys2Proof.Machine

open Sys2Proof.Safety

-- Acceptance at a state in which some copies have been sent

theorem Conveys.tenRec {s t : State} (hc : Conveys s t) (ctx cluster n : Nat) : t.tenRec ctx cluster n = s.tenRec ctx cluster n := by
  unfold State.tenRec
  rw [hc.tensors]

theorem Conveys.memberEnd {s t : State} (hc : Conveys s t) (wg m : Nat) : t.memberEnd wg m = s.memberEnd wg m := by
  unfold State.memberEnd
  rw [hc.wgs, hc.allocs]

theorem Conveys.mcMembers {s t : State} (hc : Conveys s t) (wg mask : Nat) : t.mcMembers wg mask = s.mcMembers wg mask := by
  unfold State.mcMembers
  refine List.map_congr_left fun m _ => ?_
  rw [hc.memberEnd]

theorem Conveys.tmplFor {s t : State} (hc : Conveys s t) (r : CopyRec) : t.tmplFor r = s.tmplFor r := by
  unfold State.tmplFor
  rw [hc.templates]

theorem Conveys.copyGood {s t : State} (hc : Conveys s t) (r : CopyRec) : t.copyGood r = s.copyGood r := by
  unfold State.copyGood State.tenFor
  rw [hc.tmplFor, hc.tenRec]

section
variable {s : State} {q : Issue} {g : Group} {h : Hdr} {c : CopyArg} {mc : Bool} {t : State}

/-- The MASK that a lane names (R160). -/
def maskOf (g : Group) (c : CopyArg) (l : Nat) : Nat := (c.b.elim 0 fun r => (g.rd32 l r).toNat) % 16

/-- The template that an instruction names. -/
def argTmpl (s : State) (g : Group) (c : CopyArg) : List Byte :=
  (s.bte (clusterOf g.info.core)).templates.get (List.replicate 64 0) c.tmpl.toNat

/-- The template and the tensor record of an instruction obey the rules of its copies. -/
def argGood (s : State) (g : Group) (c : CopyArg) (mc : Bool) : Bool :=
  tmplOk (argTmpl s g c) mc (tenOf (s.tenRec g.info.ctx (clusterOf g.info.core) (tmplOf (argTmpl s g c)).ten)) true

theorem laneQueued_conveys (hc : Conveys s t) (l : Nat) : Conveys s ((laneReady t).queued c.chan.toNat (laneCopy s q g c mc t l)) :=
  (hc.trans (laneReady_conveys t)).trans .queued

theorem laneQueued_tmplFor (hc : Conveys s t) (l : Nat) :
    ((laneReady t).queued c.chan.toNat (laneCopy s q g c mc t l)).tmplFor (laneCopy s q g c mc t l) = argTmpl s g c :=
  (laneQueued_conveys hc l).tmplFor _

theorem laneQueued_copyGood (hc : Conveys s t) (l : Nat) :
    ((laneReady t).queued c.chan.toNat (laneCopy s q g c mc t l)).copyGood (laneCopy s q g c mc t l) = argGood s g c mc := by
  rw [(laneQueued_conveys hc l).copyGood]
  cases mc <;> rfl

/-- A lane's copy is offered to the handle. -/
theorem laneAccept_offered (hc : Conveys s t) (hg : argGood s g c false = true) (l : Nat) :
    (laneAccept s q g c false t l).1.handle g.info.core c.handle.toNat = (t.handle g.info.core c.handle.toNat).offered (tmplOf (argTmpl s g c)).out ∧
      (laneAccept s q g c false t l).2.2 =
        if takes (tmplOf (argTmpl s g c)).out (t.handle g.info.core c.handle.toNat) then none else some 3 := by
  rw [← laneQueued_copyGood hc l] at hg
  rw [← laneQueued_tmplFor hc l]
  exact State.acceptCopy_offered rfl c.handle.isLt hg

/-- A lane's copy that breaks a rule of its template is taken in as it is. -/
theorem laneAccept_bad (hc : Conveys s t) (hg : ¬ argGood s g c false = true) (l : Nat) :
    (∀ k n, (laneAccept s q g c false t l).1.handle k n = t.handle k n) ∧ (laneAccept s q g c false t l).2.2 = none := by
  rw [← laneQueued_copyGood hc l] at hg
  exact State.acceptCopy_bad rfl c.handle.isLt hg

/-- The word of a lane's MASK. -/
theorem laneCopy_mask (t : State) (l : Nat) : ∃ w : Word, (laneCopy s q g c true t l).mc = some w ∧ w.toNat % 16 = maskOf g c l := by
  unfold maskOf laneCopy copyOf
  cases c.b with
  | none => exact ⟨0, rfl, rfl⟩
  | some r => exact ⟨g.rd32 l r, rfl, rfl⟩

theorem laneAccept_mc (t : State) (l : Nat) : (laneAccept s q g c true t l).2.2 = if maskOf g c l = 0 then some 0 else none := by
  obtain ⟨w, hw, hm⟩ := laneCopy_mask (s := s) (q := q) (g := g) (c := c) t l
  rw [← hm]
  exact State.acceptCopy_mc hw c.handle.isLt

theorem laneAccept_receivers (hc : Conveys s t) (hg : argGood s g c true = true) (l : Nat) (hn : (liveEnds (s.mcMembers g.info.wg (maskOf g c l))).Nodup)
    (e : Nat) (he : e ∈ liveEnds (s.mcMembers g.info.wg (maskOf g c l))) :
    (laneAccept s q g c true t l).1.handle e c.handle.toNat = (t.handle e c.handle.toNat).offered false := by
  obtain ⟨w, hw, hm⟩ := laneCopy_mask (s := s) (q := q) (g := g) (c := c) t l
  rw [← laneQueued_copyGood (q := q) hc l] at hg
  rw [← hm, ← (laneQueued_conveys (q := q) (c := c) (mc := true) hc l).mcMembers] at hn he
  exact State.acceptCopy_receivers hw c.handle.isLt hg hn e he

end

-- The issue as a whole

section
variable {s : State} {q : Issue} {g : Group} {h : Hdr} {c : CopyArg} {mc : Bool} {i : Instr}

/-- The copies of the acting lanes are sent, and the run goes on or waits for their places. -/
theorem copy_goes (he : exec i s = s.withIssue i h fun x => x.copy i c mc) (hi : Issues s i q g) (h0 : acts h q g ≠ 0)
    (hw : s.copyWindow g.info.core c.chan.toNat < 32) : ∃ v, Sending s q g h c mc (fun _ => none) [] 0 v ∧ (∀ k n, v.handle k n = s.handle k n) ∧
      Completes i s fun t =>
        (if t.copyWindow g.info.core c.chan.toNat ≤ 32 then GoOn t q (fun _ => nextPc h q) else WaitsAt t q (.window (chanKey c.chan.toNat)) (some i)) ∧
        (∃ k, t.group? q.gid = some k ∧ k.ctr 2 = if (t.ops.find s.serial).isSome then g.ctr 2 + 1 else g.ctr 2) ∧
        ∃ gs, t = { sentTo s q g h c mc v (actors h q g).length with groups := gs } := by
  obtain ⟨b, codes, e⟩ := issueX_copy (s := s) (q := q) (g := g) (c := c) (mc := mc) (i := i) h0
  obtain ⟨x', id, hx⟩ : ∃ x' id, (issueU s q g h b).launchOp (copyOp q.gid q.pc h.u (acts h q g) c.d (actors h q g) 2) codes none = (x', id) := ⟨_, _, rfl⟩
  obtain ⟨rfl, hx', hlaunch, hop, sr, gs, ops, hs⟩ := launchOp_copy h b c.d codes hx
  rw [if_neg (show ¬ s.copyWindow g.info.core c.chan.toNat ≥ windowSize from Nat.not_le.mpr hw), hx] at e
  dsimp only at e
  have hflush : x'.flush = { s with serial := sr, groups := x'.flush.groups, ops := ops } := by
    unfold X.flush State.setGroup
    rw [hs]
  have hops : x'.flush.ops = x'.s.ops := rfl
  have hgroup : x'.flush.group? q.gid = x'.s.group? q.gid := by
    rw [X.flush, hlaunch.gid]
    exact (State.group?_setGroup ..).trans hlaunch.group.symm
  have hopf : CopyOp x'.flush q.gid s.serial g (actors h q g) fun _ => none := by
    obtain ⟨o, hst, k, hk, hr⟩ := hop.resolve_right fun ⟨_, _, hall⟩ => hall _ (List.head_mem (actors_ne_nil h0)) rfl
    exact .inl ⟨o, { hst with found := hst.found }, k, hgroup.trans hk, hr⟩
  have hS : Sending s q g h c mc (fun _ => none) [] 0 x'.flush := by
    rw [hflush] at hopf ⊢
    refine ⟨⟨rfl, rfl, rfl, fun _ => rfl, fun _ => rfl, fun _ _ => rfl, fun _ => rfl⟩, fun hr => ⟨hr.1, rfl⟩, fun hn hr => hn hr, hopf, nofun, fun _ _ => rfl⟩
  have hfold : (actors h q g).foldl ((issueU s q g h b).sendOne c mc s.serial) x'.flush = sentTo s q g h c mc x'.flush (actors h q g).length := by
    rw [foldl_sendOne b _ hS.conveys, sentTo, List.take_length]
  obtain ⟨told, hT, -⟩ := sending_sentTo hS le_rfl
  have hctr := hT.op.ctrAt
  rw [← hfold] at hctr
  obtain ⟨hy, hys⟩ := X.launched_sync (x := issueU s q g h b) (x' := x') (g := g)
    (f := fun t => (actors h q g).foldl ((issueU s q g h b).sendOne c mc s.serial) t) hx' rfl hctr
  rw [hfold] at hctr hys
  generalize x'.sync (fun t => (actors h q g).foldl ((issueU s q g h b).sendOne c mc s.serial) t) = y at e hy hys
  have hgrp : ∃ k, y.s.group? q.gid = some k ∧ k.ctr 2 = if (y.s.ops.find s.serial).isSome then g.ctr 2 + 1 else g.ctr 2 := by
    rw [hys]
    obtain ⟨k, hk, -, hc⟩ := hctr
    exact ⟨k, hk, hc⟩
  have hyg : y.g.ctr 2 = if (y.s.ops.find s.serial).isSome then g.ctr 2 + 1 else g.ctr 2 := by
    obtain ⟨k, hk, hc⟩ := hgrp
    rw [← hc, Option.some.inj (hy.group.symm.trans hk)]
  have hend {t : State} {rs : List Run} (ht : t = y.s.setGroup q.gid { y.g with runs := rs }) :
      (∃ k, t.group? q.gid = some k ∧ k.ctr 2 = if (t.ops.find s.serial).isSome then g.ctr 2 + 1 else g.ctr 2) ∧
        ∃ gs, t = { sentTo s q g h c mc x'.flush (actors h q g).length with groups := gs } := by
    rw [ht, ← hys]
    exact ⟨⟨_, State.group?_setGroup .., (Group.ctr_congr rfl 2).trans hyg⟩, _, rfl⟩
  refine ⟨x'.flush, hS, fun k n => by rw [hflush]; rfl, _, he.trans (State.withIssue_of_issues hi h _), ?_⟩
  dsimp only
  rw [e]
  by_cases hwin : y.s.copyWindow g.info.core c.chan.toNat > windowSize
  · rw [if_pos hwin]
    obtain ⟨rs, hrs⟩ := y.g.place_eq y.m y.pc (.waiting (Wait.of (.window (chanKey c.chan.toNat)) (some i) (acts h q g)))
      (stampOf y.m y.g.runs y.g.sched.issues)
    have ht : y.wait (Wait.of (.window (chanKey c.chan.toNat)) (some i) (acts h q g)) = y.s.setGroup q.gid { y.g with runs := rs } := by
      rw [← hrs, ← show y.gid = q.gid from hy.gid]
      rfl
    obtain ⟨k, hk, hst⟩ := X.standsIn_wait y (q := q) hy.gid hy.m hy.pc (Wait.of (.window (chanKey c.chan.toNat)) (some i) (acts h q g))
    refine ⟨?_, hend ht⟩
    rw [if_neg (show ¬ (y.wait _).copyWindow g.info.core c.chan.toNat ≤ 32 from Nat.not_le.mpr hwin)]
    exact ⟨k, hk, fun l hl => ⟨_, hst l hl, rfl, rfl⟩⟩
  · rw [if_neg hwin]
    obtain ⟨hgo, rs, ht⟩ := hy.advance
    have hdone : y.done = y.advance q.lanes := congrArg y.advance hy.m
    rw [hdone]
    refine ⟨?_, hend ht⟩
    have hle : (y.advance q.lanes).copyWindow g.info.core c.chan.toNat ≤ 32 := by
      rw [ht]
      exact Nat.not_lt.mp hwin
    rw [if_pos hle]
    exact hgo

end

end Sys2Proof.Machine

/-! Copies are sent (R159, R160, R164, R256): by the lanes of an instruction, and by a store to the aperture. -/

namespace Sys2Proof.Machine

open Sys2Proof.Safety

-- The lanes' copies, and the handle

section
variable {s : State} {q : Issue} {g : Group} {h : Hdr} {c : CopyArg} {mc : Bool} {v t : State} {gs : List (Nat × Group)}

/-- A lane's copy stands in the channel, and the lane has still to be told. -/
def LaneSent (s : State) (q : Issue) (g : Group) (c : CopyArg) (mc : Bool) (t : State) (l : Nat) : Prop :=
  ∃ n, Sent t c.chan.toNat s.serial l (copyOf s q g c mc s.serial n l)

variable (hv : Sending s q g h c mc (fun _ => none) [] 0 v) (ht : t = { sentTo s q g h c mc v (actors h q g).length with groups := gs })
include hv ht

/-- What a lane's copy comes to: while there is room the code it has at once, and otherwise its place in the channel. -/
theorem lane_outcome {j l : Nat} (hl : (actors h q g)[j]? = some l) :
    (∀ code, HasRoomAfter s g.info.core c.chan.toNat (takenTo s q g h c mc v j) → codeAt s q g h c mc v j = some code → Told t s.serial l code) ∧
      (¬ HasRoomAfter s g.info.core c.chan.toNat (takenTo s q g h c mc v j) ∨ codeAt s q g h c mc v j = none → LaneSent s q g c mc t l) := by
  obtain ⟨told, hS, htold⟩ := sending_sentTo hv le_rfl
  obtain ⟨hroom, hfull⟩ := htold j l (List.getElem?_eq_some_iff.mp hl).1 hl
  have hmem : l ∈ actors h q g := List.mem_of_getElem? hl
  rw [ht]
  refine ⟨fun code hr hcode => hS.op.told_lane hmem ((hroom hr).trans hcode), fun hw => ?_⟩
  have hnone : told l = none := by
    by_cases hr : HasRoomAfter s g.info.core c.chan.toNat (takenTo s q g h c mc v j)
    · exact (hroom hr).trans (hw.resolve_left fun hn => hn hr)
    · exact hfull hr
  obtain ⟨n, hin⟩ := hS.sent l (by rw [List.take_length]; exact hmem) hnone
  exact ⟨n, hin, hS.op.waiting_lane hmem hnone⟩

end

section
variable {s : State} {q : Issue} {g : Group} {h : Hdr} {c : CopyArg} {v t : State} {gs : List (Nat × Group)}

/-- Copies that break a rule of their template: all of them stand in the channel, and the handle is as it was. -/
theorem lanes_bad (hv : Sending s q g h c false (fun _ => none) [] 0 v) (hvh : ∀ k n, v.handle k n = s.handle k n)
    (ht : t = { sentTo s q g h c false v (actors h q g).length with groups := gs }) (hg : ¬ argGood s g c false = true) :
    t.handle g.info.core c.handle.toNat = s.handle g.info.core c.handle.toNat ∧ ∀ l ∈ actors h q g, LaneSent s q g c false t l := by
  have hcode {j l : Nat} (hl : (actors h q g)[j]? = some l) : (∀ k n, (laneAccept s q g c false (sentTo s q g h c false v j) l).1.handle k n =
      (sentTo s q g h c false v j).handle k n) ∧ codeAt s q g h c false v j = none := by
    obtain ⟨told, hS, -⟩ := sending_sentTo hv (List.getElem?_eq_some_iff.mp hl).1.le
    rw [codeAt_eq hl]
    exact laneAccept_bad hS.conveys hg l
  have hhandle {j : Nat} (hj : j ≤ (actors h q g).length) (k n : Nat) : (sentTo s q g h c false v j).handle k n = s.handle k n := by
    induction j with
    | zero => exact hvh k n
    | succ j ih =>
      obtain ⟨l, hl⟩ : ∃ l, (actors h q g)[j]? = some l := ⟨_, List.getElem?_eq_getElem hj⟩
      obtain ⟨hroom, hfull⟩ := handle_sentTo_succ hv hl
      rw [← ih (Nat.le_of_succ_le hj)]
      by_cases hr : HasRoomAfter s g.info.core c.chan.toNat (takenTo s q g h c false v j)
      · rw [hroom hr, (hcode hl).1]
      · exact hfull hr k n
  refine ⟨by rw [ht]; exact hhandle le_rfl .., fun l hl => ?_⟩
  obtain ⟨j, hj⟩ := List.mem_iff_getElem?.mp hl
  exact (lane_outcome hv ht hj).2 (.inr (hcode hj).2)

/-- The handle takes or refuses the lanes' copies in their order, while the queue has room. -/
theorem lanes_offered (hv : Sending s q g h c false (fun _ => none) [] 0 v) (hvh : ∀ k n, v.handle k n = s.handle k n)
    (ht : t = { sentTo s q g h c false v (actors h q g).length with groups := gs }) (hg : argGood s g c false = true) :
    ∃ hs : Nat → Handle, hs 0 = s.handle g.info.core c.handle.toNat ∧ hs (actors h q g).length = t.handle g.info.core c.handle.toNat ∧
      ∀ (j : Nat) l, (actors h q g)[j]? = some l →
        let room : Prop := HasRoomAfter s g.info.core c.chan.toNat ((List.range j).filter fun k => takes (tmplOf (argTmpl s g c)).out (hs k)).length
        (room → Accepts (tmplOf (argTmpl s g c)).out (hs j) (hs (j + 1)) ∧ (takes (tmplOf (argTmpl s g c)).out (hs j) = true → LaneSent s q g c false t l) ∧
          (takes (tmplOf (argTmpl s g c)).out (hs j) = false → Told t s.serial l 3)) ∧
        (¬ room → hs (j + 1) = hs j ∧ LaneSent s q g c false t l) := by
  let hs (j : Nat) : Handle := (sentTo s q g h c false v j).handle g.info.core c.handle.toNat
  have haccept {j l : Nat} (hl : (actors h q g)[j]? = some l) :
      (laneAccept s q g c false (sentTo s q g h c false v j) l).1.handle g.info.core c.handle.toNat = (hs j).offered (tmplOf (argTmpl s g c)).out ∧
        codeAt s q g h c false v j = if takes (tmplOf (argTmpl s g c)).out (hs j) then none else some 3 := by
    obtain ⟨told, hS, -⟩ := sending_sentTo hv (List.getElem?_eq_some_iff.mp hl).1.le
    rw [codeAt_eq hl]
    exact laneAccept_offered hS.conveys hg l
  refine ⟨hs, hvh .., by rw [ht]; rfl, fun j l hl => ?_⟩
  obtain ⟨hnew, hcode⟩ := haccept hl
  obtain ⟨hroom, hfull⟩ := handle_sentTo_succ hv hl
  obtain ⟨htold, hsent⟩ := lane_outcome hv ht hl
  have hcount : ((List.range j).filter fun k => takes (tmplOf (argTmpl s g c)).out (hs k)).length = takenTo s q g h c false v j := by
    refine congrArg List.length (List.filter_congr fun k hk => ?_)
    obtain ⟨l', hl'⟩ : ∃ l', (actors h q g)[k]? = some l' :=
      ⟨_, List.getElem?_eq_getElem ((List.mem_range.mp hk).trans (List.getElem?_eq_some_iff.mp hl).1)⟩
    rw [(haccept hl').2]
    cases takes (tmplOf (argTmpl s g c)).out (hs k) <;> rfl
  intro room
  have hr : room ↔ HasRoomAfter s g.info.core c.chan.toNat (takenTo s q g h c false v j) := by rw [← hcount]
  refine ⟨fun h1 => ⟨?_, fun hk => hsent (.inr (by rw [hcode, hk]; rfl)), fun hk => htold 3 (hr.mp h1) (by rw [hcode, hk]; rfl)⟩,
    fun h1 => ⟨hfull (mt hr.mpr h1) .., hsent (.inl (mt hr.mpr h1))⟩⟩
  rw [show hs (j + 1) = (hs j).offered (tmplOf (argTmpl s g c)).out from (hroom (hr.mp h1) ..).trans hnew]
  exact accepts_offered ..

/-- A multicast copy is told code 0 for an empty MASK, while the queue has room; every other stands in the channel. -/
theorem lanes_mc (hv : Sending s q g h c true (fun _ => none) [] 0 v)
    (ht : t = { sentTo s q g h c true v (actors h q g).length with groups := gs }) (j l : Nat) (hl : (actors h q g)[j]? = some l) :
    let room : Prop := HasRoomAfter s g.info.core c.chan.toNat (((actors h q g).take j).filter fun k => maskOf g c k != 0).length
    (room → maskOf g c l = 0 → Told t s.serial l 0) ∧ ((¬ room ∨ maskOf g c l ≠ 0) → LaneSent s q g c true t l) := by
  have hcode {j l : Nat} (hl : (actors h q g)[j]? = some l) : codeAt s q g h c true v j = if maskOf g c l = 0 then some 0 else none := by
    rw [codeAt_eq hl]
    exact laneAccept_mc ..
  have hcount {j : Nat} (hj : j ≤ (actors h q g).length) : (((actors h q g).take j).filter fun k => maskOf g c k != 0).length = takenTo s q g h c true v j := by
    induction j with
    | zero => rfl
    | succ j ih =>
      obtain ⟨l, hl⟩ : ∃ l, (actors h q g)[j]? = some l := ⟨_, List.getElem?_eq_getElem hj⟩
      rw [takenTo_succ, ← ih (Nat.le_of_succ_le hj), List.take_add_one, hl, List.filter_append, List.length_append, hcode hl]
      by_cases h0 : maskOf g c l = 0 <;> simp [h0]
  obtain ⟨htold, hsent⟩ := lane_outcome hv ht hl
  intro room
  have hr : room ↔ HasRoomAfter s g.info.core c.chan.toNat (takenTo s q g h c true v j) := by
    rw [← hcount (List.getElem?_eq_some_iff.mp hl).1.le]
  refine ⟨fun h1 h0 => htold 0 (hr.mp h1) (by rw [hcode hl, if_pos h0]), fun hw => hsent (hw.imp (mt hr.mpr) fun h0 => by rw [hcode hl, if_neg h0])⟩

/-- The one lane of a multicast copy offers it to each of its receivers. -/
theorem lane_receivers (hv : Sending s q g h c true (fun _ => none) [] 0 v) (hvh : ∀ k n, v.handle k n = s.handle k n)
    (ht : t = { sentTo s q g h c true v (actors h q g).length with groups := gs }) (hg : argGood s g c true = true) {l : Nat} (hl : actors h q g = [l])
    (hroom : HasRoom s g.info.core c.chan.toNat) (hn : (liveEnds (s.mcMembers g.info.wg (maskOf g c l))).Nodup) :
    ∀ e ∈ liveEnds (s.mcMembers g.info.wg (maskOf g c l)), Accepts false (s.handle e c.handle.toNat) (t.handle e c.handle.toNat) := by
  intro e he
  have hl0 : (actors h q g)[0]? = some l := by rw [hl]; rfl
  have hlast : t.handle e c.handle.toNat = (sentTo s q g h c true v (0 + 1)).handle e c.handle.toNat := by
    rw [ht, hl]
    rfl
  have hnew := (handle_sentTo_succ hv hl0).1 hroom e c.handle.toNat
  rw [hlast, hnew, laneAccept_receivers (t := sentTo s q g h c true v 0) hv.conveys hg l hn e he, ← hvh]
  exact accepts_offered ..

end

-- The instructions

section
variable {s : State} {q : Issue} {g : Group} {h : Hdr} {c : CopyArg} {mc : Bool} {i : Instr}

/-- What the issue of copies leaves, besides its run and its counter. -/
theorem completes_copy {post : State → Prop} (he : exec i s = s.withIssue i h fun x => x.copy i c mc) (hi : Issues s i q g)
    (hpost : ∀ v t gs, Sending s q g h c mc (fun _ => none) [] 0 v → (∀ k n, v.handle k n = s.handle k n) →
      t = { sentTo s q g h c mc v (actors h q g).length with groups := gs } → post t)
    (h0 : acts h q g ≠ 0) (hw : s.copyWindow g.info.core c.chan.toNat < 32) : Completes i s fun t =>
      (if t.copyWindow g.info.core c.chan.toNat ≤ 32 then GoOn t q (fun _ => nextPc h q) else WaitsAt t q (.window (chanKey c.chan.toNat)) (some i)) ∧
      (∃ k, t.group? q.gid = some k ∧ k.ctr 2 = if (t.ops.find s.serial).isSome then g.ctr 2 + 1 else g.ctr 2) ∧ post t := by
  obtain ⟨v, hv, hvh, t, hex, hrun, hctr, gs, ht⟩ := copy_goes he hi h0 hw
  exact ⟨t, hex, hrun, hctr, hpost v t gs hv hvh ht⟩

end

-- A store to the aperture (R161, R256)

/-- The copy that a store to the aperture starts. -/
def apertureRec (core : Nat) (d : DevReq) (n : Nat) : CopyRec :=
  .start n core d.pc d.wg d.space (Dword.field d.data 0 8) (Dword.field d.data 8 8) (d.data >>> 16) none d.copy d.lane d.poster

/-- The device path of a core moves on. -/
def State.popDev (s : State) (core : Nat) (rest : List DevReq) : State := { s.modCore core fun c => { c with dev := rest } with serial := s.serial + 1 }

section
variable {s : State} {core ch page : Nat} {d : DevReq} {rest : List DevReq}

theorem apertureStart_of_pa (hw : d.write = true) (hz : d.size = 8) (hch : ch < 16) (hpage : page < 384) (hpa : d.pa = ioBase + 4096 * page + 8 * ch) :
    apertureStart d = some ch := by
  have hreg : regionOf d.pa = .aperture ((d.pa - ioBase) / 4096) := by
    unfold regionOf
    rw [if_neg (by rw [hpa]; unfold ioBase hbmSize; omega), if_pos (by omega)]
  unfold apertureStart
  dsimp only
  rw [hreg]
  dsimp only
  rw [if_pos (by simp [hw, hz]; omega)]
  exact congrArg some (by omega)

theorem apertureCopy_eq (hd : (s.core core).dev = d :: rest) (ha : apertureStart d = some ch) :
    s.apertureCopy core ch d.data = (s.popDev core rest).sendCopy ch (apertureRec core d s.serial) := by
  unfold State.apertureCopy
  rw [hd]
  dsimp only
  rw [if_neg (by simp [ha])]
  rfl

theorem popDev_handle (k n : Nat) : (s.popDev core rest).handle k n = s.handle k n :=
  congrArg (SMap.get Handle.reset · n) (State.core_modCore_keeps (f := fun c => { c with dev := rest }) (·.handles) (fun _ => rfl) s core k)

theorem popDev_dev : ((s.popDev core rest).core core).dev = rest := congrArg Core.dev (State.core_modCore s core fun c => { c with dev := rest })

/-- The template that a store to the aperture names, and whether its copy obeys the rules. -/
def storeTmpl (s : State) (core : Nat) (d : DevReq) : List Byte := (s.bte (clusterOf core)).templates.get (List.replicate 64 0) (d.data.toNat % 256)

def storeGood (s : State) (core : Nat) (d : DevReq) : Bool :=
  tmplOk (storeTmpl s core d) false (tenOf (s.tenRec d.poster.ctx (clusterOf core) (tmplOf (storeTmpl s core d)).ten)) true

theorem apertureRec_tmplNo (n : Nat) : (apertureRec core d n).tmplNo = d.data.toNat % 256 := by
  show d.data.toNat / 2 ^ 0 % 2 ^ 8 = _
  omega

theorem apertureRec_handle (n : Nat) : (apertureRec core d n).handle = (d.data >>> 8).toNat % 256 := by
  show d.data.toNat / 2 ^ 8 % 2 ^ 8 = _
  rw [BitVec.toNat_ushiftRight, Nat.shiftRight_eq_div_pow]
  rfl

theorem queued_tmplFor (n : Nat) : ((s.popDev core rest).queued ch (apertureRec core d n)).tmplFor (apertureRec core d n) = storeTmpl s core d := by
  rw [Conveys.queued.tmplFor, State.tmplFor, apertureRec_tmplNo]
  rfl

theorem queued_copyGood (n : Nat) : ((s.popDev core rest).queued ch (apertureRec core d n)).copyGood (apertureRec core d n) = storeGood s core d := by
  rw [State.copyGood, State.tenFor, queued_tmplFor, Conveys.queued.tenRec]
  rfl

/-- The copy that a store started stands in its channel. -/
def StoreStands (t : State) (core ch : Nat) (d : DevReq) : Prop :=
  ∃ r, InChannel t ch r ∧ r.core = core ∧ r.gid = d.poster.gid ∧ r.ctx = d.poster.ctx ∧ r.op = d.copy ∧ r.mc = none ∧
    r.tmplNo = d.data.toNat % 256 ∧ r.handle = (d.data >>> 8).toNat % 256 ∧ r.coord = d.data >>> 16

/-- The copy that a store started has been refused, and its lane told. -/
def StoreRefused (s t : State) (core ch : Nat) (d : DevReq) : Prop :=
  (t.bte (clusterOf core)).last.get 0 ch = 3 ∧ ∀ op o a, d.copy = some op → Outstanding s op d.lane o a → Told t op d.lane 3

theorem storeStands_of_mem {t : State} {x : CopyRec} {n : Nat} {sp : Space} (hx : x ∈ t.chan (clusterOf core) ch)
    (hp : plainCopy x = plainCopy { apertureRec core d n with space := sp }) : StoreStands t core ch d :=
  ⟨plainCopy { apertureRec core d n with space := sp }, ⟨x, hx, hp⟩, rfl, rfl, rfl, rfl, rfl, apertureRec_tmplNo (core := core) n,
    apertureRec_handle (core := core) n, rfl⟩

variable (hd : (s.core core).dev = d :: rest) (ha : apertureStart d = some ch)
include hd ha

/-- Without room the copy waits in its channel. -/
theorem aperture_waits (hroom : ¬ HasRoom s core ch) : Completes (.apertureCopyStart core ch d.data) s fun t => (t.core core).dev = rest ∧
    StoreStands t core ch d ∧ ∀ n, t.handle core n = s.handle core n := by
  obtain ⟨⟨hconv, hchan, hhandle⟩, -, -⟩ := sendCopy_waits (s := s.popDev core rest) (ch := ch) (r := apertureRec core d s.serial) rfl hroom
  refine ⟨_, congrArg Host.Outcome.next (apertureCopy_eq hd ha), (hconv.dev core).trans popDev_dev, ?_, fun n => (hhandle core n).trans (popDev_handle core n)⟩
  refine storeStands_of_mem (x := apertureRec core d s.serial) (n := s.serial) (sp := d.space) ?_ rfl
  rw [show clusterOf core = clusterOf (apertureRec core d s.serial).core from rfl, hchan]
  exact List.mem_append_right _ (List.mem_singleton_self _)

/-- With room it is taken in, or told its code at once. -/
theorem aperture_accepts (hroom : HasRoom s core ch) :
    let p := ((s.popDev core rest).queued ch (apertureRec core d s.serial)).acceptCopy (apertureRec core d s.serial)
    Completes (.apertureCopyStart core ch d.data) s fun t => (t.core core).dev = rest ∧ (∀ n, t.handle core n = p.1.handle core n) ∧
      (p.2.2 = none → StoreStands t core ch d) ∧ (p.2.2 = some 3 → StoreRefused s t core ch d) := by
  intro p
  refine ⟨_, congrArg Host.Outcome.next (apertureCopy_eq hd ha), ?_⟩
  have hroom' : HasRoom (s.popDev core rest) (apertureRec core d s.serial).core ch := hroom
  cases hcode : p.2.2 with
  | none =>
    obtain ⟨⟨hconv, hchan, hhandle⟩, -, -⟩ := sendCopy_taken (s := s.popDev core rest) (ch := ch) (r := apertureRec core d s.serial) rfl hroom' hcode
    refine ⟨(hconv.dev core).trans popDev_dev, hhandle core, fun _ => ?_, nofun⟩
    refine storeStands_of_mem (x := p.2.1) ?_ (State.acceptCopy_taken ..).2.2
    rw [show clusterOf core = clusterOf (apertureRec core d s.serial).core from rfl, hchan]
    simp [takenIn, p]
  | some code =>
    obtain ⟨⟨hconv, -, hhandle⟩, hlast, v, hops, -, he⟩ :=
      sendCopy_told (s := s.popDev core rest) (ch := ch) (r := apertureRec core d s.serial) rfl hroom' hcode
    refine ⟨(hconv.dev core).trans popDev_dev, hhandle core, nofun, fun h3 => ?_⟩
    obtain rfl : code = 3 := Option.some.inj h3
    refine ⟨hlast, fun op o a hop ho => ?_⟩
    rw [he]
    exact State.tellCopy_told (r := apertureRec core d s.serial) hop ⟨hops ▸ ho.1, ho.2⟩ 3

end

/-- Settles O25: one invariant over the copies sent so far says who was told and who stands in the channel; a store to the aperture sends one. -/
theorem copiesAreSent : Obligations.CopiesAreSent := by
  unfold Obligations.CopiesAreSent
  refine ⟨fun s q g h c mc i hins hi => ?_, fun s core d rest page ch hd hw hz hch hpage hpa => ?_⟩
  · have he : exec i s = s.withIssue i h fun x => x.copy i c mc := by
      rcases hins with ⟨rfl, rfl⟩ | ⟨rfl, rfl⟩ <;> rfl
    refine ⟨copy_skips he hi, copy_retries he hi, fun w hr h0 => copy_resumes he hr h0, ?_, ?_, ?_, ?_⟩
    · rintro rfl hg
      exact completes_copy he hi fun v t gs hv hvh ht => lanes_bad hv hvh ht hg
    · rintro rfl hg
      exact completes_copy he hi fun v t gs hv hvh ht => lanes_offered hv hvh ht hg
    · rintro rfl
      exact completes_copy he hi fun v t gs hv _ ht => lanes_mc hv ht
    · rintro rfl hg l hl hroom ends hn
      exact completes_copy he hi fun v t gs hv hvh ht => lane_receivers hv hvh ht hg hl hroom hn
  · have ha := apertureStart_of_pa hw hz hch hpage hpa
    have hn := apertureRec_handle (core := core) (d := d) s.serial
    refine ⟨fun hroom => ?_, fun hroom hbig => ?_, fun hroom hlt hg => ?_, fun hroom hlt hg => ?_⟩
    · obtain ⟨t, hex, hdev, hst, hh⟩ := aperture_waits hd ha hroom
      exact ⟨t, hex, hdev, hst, hh _⟩
    · obtain ⟨t, hex, hdev, -, -, href⟩ := aperture_accepts hd ha hroom
      exact ⟨t, hex, hdev, href (State.acceptCopy_beyond rfl (hn ▸ hbig))⟩
    · obtain ⟨t, hex, hdev, hh, hst, -⟩ := aperture_accepts hd ha hroom
      obtain ⟨hsame, hnone⟩ := State.acceptCopy_bad (s := (s.popDev core rest).queued ch (apertureRec core d s.serial)) rfl (hn ▸ hlt)
        (by rw [queued_copyGood]; exact hg)
      exact ⟨t, hex, hdev, hst hnone, ((hh _).trans (hsame ..)).trans (popDev_handle ..)⟩
    · obtain ⟨t, hex, hdev, hh, hst, href⟩ := aperture_accepts hd ha hroom
      obtain ⟨hnew, hcode⟩ := State.acceptCopy_offered (s := (s.popDev core rest).queued ch (apertureRec core d s.serial)) rfl (hn ▸ hlt)
        (by rw [queued_copyGood]; exact hg)
      have hold : ((s.popDev core rest).queued ch (apertureRec core d s.serial)).handle core (apertureRec core d s.serial).handle =
          s.handle core ((d.data >>> 8).toNat % 256) := by
        rw [hn]
        exact popDev_handle ..
      rw [queued_tmplFor, show (apertureRec core d s.serial).core = core from rfl, hold, hn] at hnew
      rw [queued_tmplFor, show (apertureRec core d s.serial).core = core from rfl, hold] at hcode
      refine ⟨t, hex, hdev, ?_, fun hk => hst (by rw [hcode]; exact if_pos hk), fun hk => href (by rw [hcode]; exact if_neg (ne_true_of_eq_false hk))⟩
      rw [hh, hnew]
      exact accepts_offered ..

end Sys2Proof.Machine
